-- ==== Sys2Proof/Word.lean ====
section
/-! DEFINITION. The word types of the S4 and the sequencer names (R2, R3, R7, R137). -/
namespace Sys2Proof

/-- A 64-bit register or address (R7). -/
abbrev Word := BitVec 64

/-- A 32-bit patch word, vector lane or tile element (R25, R137, R169). -/
abbrev Half := BitVec 32

/-- A byte of memory (R3). -/
abbrev Byte := BitVec 8

/-- A vector of 64 lanes of 32 bits (R137). -/
abbrev Vec := BitVec 2048

/-- A template (R36). -/
abbrev Template := BitVec 128

/-- The four sequencers of a core (R93); also the four opcode classes (Table 2-4). -/
inductive Seq where
  | k | l | c | s
  deriving DecidableEq, Repr

/-- The sequencer code of R37: 0 K, 1 L, 2 C, 3 S. -/
def Seq.code : Seq → Nat
  | .k => 0
  | .l => 1
  | .c => 2
  | .s => 3

/-- The sequencer of a 2-bit code (R37). -/
def Seq.ofCode (n : Nat) : Seq :=
  if n = 0 then .k else if n = 1 then .l else if n = 2 then .c else .s

/-- The time-step of a cycle count: 256 cycles (R2, R10). -/
def tstepOf (cyc : Nat) : Nat := cyc / 256

/-- The gain-cell retention limit, in time-steps (R215, R172). -/
def retention : Nat := 1875

end Sys2Proof
end

