-- ==== Sys2Proof/Machine/Crypto.lean ====
section
/-! DEFINITION. SHA-256 and ECDSA on the curve P-256 (R434, R438), as their standards define them. PRESUMED (log 10). -/
namespace Sys2Proof.Machine

/-! ## SHA-256 -/

/-- The number whose bytes stand in big-endian order. -/
def beNat (bs : List Byte) : Nat := bs.foldl (fun n b => 256 * n + b.toNat) 0

/-- The low n bytes of a number, in big-endian order. -/
def beBytes (n v : Nat) : List Byte := (leBytes n v).reverse

/-- The round constants. -/
def shaK : List Half :=
  [0x428a2f98, 0x71374491, 0xb5c0fbcf, 0xe9b5dba5, 0x3956c25b, 0x59f111f1, 0x923f82a4, 0xab1c5ed5,
   0xd807aa98, 0x12835b01, 0x243185be, 0x550c7dc3, 0x72be5d74, 0x80deb1fe, 0x9bdc06a7, 0xc19bf174,
   0xe49b69c1, 0xefbe4786, 0x0fc19dc6, 0x240ca1cc, 0x2de92c6f, 0x4a7484aa, 0x5cb0a9dc, 0x76f988da,
   0x983e5152, 0xa831c66d, 0xb00327c8, 0xbf597fc7, 0xc6e00bf3, 0xd5a79147, 0x06ca6351, 0x14292967,
   0x27b70a85, 0x2e1b2138, 0x4d2c6dfc, 0x53380d13, 0x650a7354, 0x766a0abb, 0x81c2c92e, 0x92722c85,
   0xa2bfe8a1, 0xa81a664b, 0xc24b8b70, 0xc76c51a3, 0xd192e819, 0xd6990624, 0xf40e3585, 0x106aa070,
   0x19a4c116, 0x1e376c08, 0x2748774c, 0x34b0bcb5, 0x391c0cb3, 0x4ed8aa4a, 0x5b9cca4f, 0x682e6ff3,
   0x748f82ee, 0x78a5636f, 0x84c87814, 0x8cc70208, 0x90befffa, 0xa4506ceb, 0xbef9a3f7, 0xc67178f2]

/-- The initial hash value. -/
def shaH : List Half :=
  [0x6a09e667, 0xbb67ae85, 0x3c6ef372, 0xa54ff53a, 0x510e527f, 0x9b05688c, 0x1f83d9ab, 0x5be0cd19]

/-- Entry i of a list of words. -/
def wordAt (l : List Half) (i : Nat) : Half := l.getD i 0

/-- A block's message schedule, the newest word first: n more words. -/
def shaSchedule : Nat → List Half → List Half
  | 0, w => w
  | n + 1, w =>
    let a := wordAt w 14
    let b := wordAt w 1
    let s0 := a.rotateRight 7 ^^^ a.rotateRight 18 ^^^ (a >>> 3)
    let s1 := b.rotateRight 17 ^^^ b.rotateRight 19 ^^^ (b >>> 10)
    shaSchedule n ((wordAt w 15 + s0 + wordAt w 6 + s1) :: w)

/-- One round on the eight working variables. -/
def shaRound (v : List Half) (k w : Half) : List Half :=
  let e := wordAt v 4
  let a := wordAt v 0
  let s1 := e.rotateRight 6 ^^^ e.rotateRight 11 ^^^ e.rotateRight 25
  let ch := (e &&& wordAt v 5) ^^^ (~~~e &&& wordAt v 6)
  let t1 := wordAt v 7 + s1 + ch + k + w
  let s0 := a.rotateRight 2 ^^^ a.rotateRight 13 ^^^ a.rotateRight 22
  let maj := (a &&& wordAt v 1) ^^^ (a &&& wordAt v 2) ^^^ (wordAt v 1 &&& wordAt v 2)
  [t1 + s0 + maj, a, wordAt v 1, wordAt v 2, wordAt v 3 + t1, e, wordAt v 5, wordAt v 6]

/-- The hash value after a block of 64 bytes. -/
def shaBlock (h : List Half) (block : List Byte) : List Half :=
  let w := (shaSchedule 48 ((pieces 4 block).map (fun b => BitVec.ofNat 32 (beNat b))).reverse).reverse
  let v := (shaK.zip w).foldl (fun v p => shaRound v p.1 p.2) h
  (h.zip v).map (fun p => p.1 + p.2)

/-- A message with its padding. -/
def shaPad (m : List Byte) : List Byte :=
  let n := m.length
  m ++ [0x80] ++ List.replicate ((119 - n % 64) % 64) 0 ++ beBytes 8 (8 * n)

/-- SHA-256 of a byte string: 32 bytes. -/
def sha256 (m : List Byte) : List Byte :=
  ((pieces 64 (shaPad m)).foldl shaBlock shaH).flatMap (fun h => beBytes 4 h.toNat)

/-! ## ECDSA on P-256 -/

/-- The field's prime. -/
def p256 : Nat := 0xffffffff00000001000000000000000000000000ffffffffffffffffffffffff
/-- The order of the base point. -/
def n256 : Nat := 0xffffffff00000000ffffffffffffffffbce6faada7179e84f3b9cac2fc632551
/-- The curve's constant b; its a is -3. -/
def b256 : Nat := 0x5ac635d8aa3a93e7b3ebbd55769886bc651d06b0cc53b0f63bce3c3e27d2604b

/-- A point of the curve: none is the point at infinity. -/
abbrev Point := Option (Nat × Nat)

/-- The base point. -/
def g256 : Point :=
  some (0x6b17d1f2e12c4247f8bce6e563a440f277037d812deb33a0f4a13945d898c296,
        0x4fe342e2fe1a7f9b8ee7eb4a7c0f9e162bce33576b315ececbb6406837bf51f5)

/-- x to the power of the low n bits of e, modulo m. -/
def powMod (m : Nat) : Nat → Nat → Nat → Nat
  | 0, _, _ => 1 % m
  | n + 1, x, e =>
    let r := powMod m n (x * x % m) (e / 2)
    if e % 2 = 1 then r * x % m else r

/-- The inverse of x modulo a prime. -/
def invMod (m x : Nat) : Nat := powMod m 256 (x % m) (m - 2)

/-- A difference modulo m, of numbers below it. -/
def subMod (m x y : Nat) : Nat := (x + (m - y % m)) % m

/-- A chord or tangent of slope l through two points gives their sum. -/
def throughPoints (l : Nat) (a b : Nat × Nat) : Nat × Nat :=
  let x := subMod p256 (l * l) (a.1 + b.1)
  (x, subMod p256 (l * subMod p256 a.1 x) a.2)

/-- The sum of two points. -/
def addPoints (a b : Point) : Point :=
  match a, b with
  | none, q => q
  | q, none => q
  | some p, some q =>
    if p.1 = q.1 then
      if (p.2 + q.2) % p256 = 0 then none
      else some (throughPoints (subMod p256 (3 * p.1 * p.1) 3 * invMod p256 (2 * p.2) % p256) p q)
    else some (throughPoints (subMod p256 q.2 p.2 * invMod p256 (subMod p256 q.1 p.1) % p256) p q)

/-- The multiple of a point by the low n bits of k. -/
def mulPoint : Nat → Nat → Point → Point
  | 0, _, _ => none
  | n + 1, k, q =>
    let r := mulPoint n (k / 2) (addPoints q q)
    if k % 2 = 1 then addPoints r q else r

/-- A pair of coordinates is a point of the curve. -/
def onCurve (q : Nat × Nat) : Bool :=
  decide (q.1 < p256) && decide (q.2 < p256) && decide (q.2 * q.2 % p256 = subMod p256 (q.1 * q.1 * q.1 + b256) (3 * q.1))

/-- The x coordinate of a point, modulo the order; 0 of the point at infinity. -/
def xOf (q : Point) : Nat :=
  match q with
  | some (x, _) => x % n256
  | none => 0

/-- The signature r, s of a message verifies under a public key. -/
def ecdsaVerify (key : Nat × Nat) (m : List Byte) (r s : Nat) : Bool :=
  let e := beNat (sha256 m)
  let w := invMod n256 s
  decide (0 < r) && decide (r < n256) && decide (0 < s) && decide (s < n256) && onCurve key &&
    decide (xOf (addPoints (mulPoint 256 (e * w % n256) g256) (mulPoint 256 (r * w % n256) (some key))) = r)

/-- The signature of a message by a private key d with the per-message secret k: r and s. -/
def ecdsaSign (d k : Nat) (m : List Byte) : Nat × Nat :=
  let r := xOf (mulPoint 256 k g256)
  (r, invMod n256 k * (beNat (sha256 m) + r * d) % n256)

end Sys2Proof.Machine
end

