-- ==== Sys2Proof/Syntax.lean ====
section
/-! DEFINITION. The instruction set: one constructor per row of spec/opcode_table.json.
An instruction of a sequencer carries the fields of its format whole (R38): a field that an
instruction does not use is still checked against its kind, and has no effect.
A step that no instruction names carries what it is about: `core` is 64 * die + %coreid, `arr` is
16 * die + quad, `q` is 256 * die + the index in the queue table (R380), `w` numbers a packet in an
engine, `unit` numbers a scanned unit (0-31 arrays, 32-159 vector units, R351). -/
namespace Sys2Proof

/-- REG format (Table 2-11). -/
structure RegF where
  d : BitVec 5
  a : BitVec 5
  b : BitVec 5
  imm : BitVec 32
  var : BitVec 4
  pa : BitVec 4
  pb : BitVec 4
  deriving DecidableEq, Repr

/-- CTL format (Table 2-12). -/
structure CtlF where
  off : BitVec 24
  a : BitVec 5
  cnt : BitVec 32
  frame : BitVec 2
  var : BitVec 4
  pa : BitVec 4
  deriving DecidableEq, Repr

/-- MGT format (Table 2-13). -/
structure MgtF where
  d : BitVec 5
  a : BitVec 5
  b : BitVec 5
  c : BitVec 5
  seq : BitVec 2
  slot : BitVec 6
  idx : BitVec 8
  n : BitVec 16
  var : BitVec 4
  pa : BitVec 4
  deriving DecidableEq, Repr

/-- MEM format (Table 2-14). -/
structure MemF where
  d : BitVec 5
  base : BitVec 5
  val : BitVec 5
  disp : BitVec 32
  size : BitVec 2
  sx : BitVec 1
  scope : BitVec 3
  cv : BitVec 5
  var : BitVec 4
  deriving DecidableEq, Repr

/-- ENG format (Table 2-15). -/
structure EngF where
  a : BitVec 5
  b : BitVec 5
  c : BitVec 5
  d : BitVec 5
  sem : BitVec 6
  q : BitVec 4
  ep : BitVec 8
  start : BitVec 24
  var : BitVec 4
  deriving DecidableEq, Repr

/-- AGN format (Table 2-16). -/
structure AgnF where
  ag : BitVec 3
  base : BitVec 23
  lv : BitVec 2
  cr : BitVec 5
  sr : BitVec 5
  port : BitVec 3
  var : BitVec 4
  deriving DecidableEq, Repr

/-- MOV format (Table 2-17). -/
structure MovF where
  la : BitVec 23
  a : BitVec 5
  b : BitVec 5
  n : BitVec 16
  ag : BitVec 3
  type : BitVec 4
  sem : BitVec 6
  start : BitVec 24
  var : BitVec 4
  deriving DecidableEq, Repr

/-- VEC format (Table 2-18). -/
structure VecF where
  d : BitVec 7
  a : BitVec 7
  b : BitVec 7
  c : BitVec 7
  type : BitVec 4
  type2 : BitVec 4
  rnd : BitVec 2
  p : BitVec 4
  imm : BitVec 16
  var : BitVec 4
  deriving DecidableEq, Repr

/-- MTX format (Table 2-19); zfh holds Z in bit 2, F in bit 1 and H in bit 0 ([77:75]). -/
structure MtxF where
  tile : BitVec 4
  a : BitVec 23
  b : BitVec 23
  kg : BitVec 12
  fa : BitVec 4
  fb : BitVec 4
  prec : BitVec 5
  zfh : BitVec 3
  gam : BitVec 5
  place : BitVec 2
  sp : BitVec 2
  isat : BitVec 1
  n : BitVec 9
  var : BitVec 4
  deriving DecidableEq, Repr

/-- STO format (Table 2-20). -/
structure StoF where
  port : BitVec 3
  la : BitVec 23
  a : BitVec 5
  n : BitVec 8
  type : BitVec 4
  q : BitVec 4
  var : BitVec 4
  deriving DecidableEq, Repr

/-- An acknowledgment of journal records (R411): the module that sends it, and the index below which it holds every record. -/
structure JournalAck where
  src : Nat
  upto : Nat
  deriving DecidableEq, Repr

/-- The steps of the S4 (spec/opcode_table.json). -/
inductive Instr where
  /-- AND (R50): Writes the bitwise AND of registers a and b to d. -/
  | and (f : RegF)
  /-- AND_IMM (R50): Writes the bitwise AND of register a and the sign-extended imm to d. -/
  | andImm (f : RegF)
  /-- OR (R50): Writes the bitwise OR of registers a and b to d. -/
  | or (f : RegF)
  /-- OR_IMM (R50): Writes the bitwise OR of register a and the sign-extended imm to d. -/
  | orImm (f : RegF)
  /-- XOR (R50): Writes the bitwise XOR of registers a and b to d. -/
  | xor (f : RegF)
  /-- XOR_IMM (R50): Writes the bitwise XOR of register a and the sign-extended imm to d. -/
  | xorImm (f : RegF)
  /-- SHL (R51): Shifts register a left by the unsigned count in b; counts of 64 or more give 0. -/
  | shl (f : RegF)
  /-- SHL_IMM (R51): Shifts register a left by the sign-extended imm read unsigned. -/
  | shlImm (f : RegF)
  /-- SHR (R51): Shifts register a right logically by the unsigned count in b. -/
  | shr (f : RegF)
  /-- SHR_IMM (R51): Shifts register a right logically by the imm read unsigned. -/
  | shrImm (f : RegF)
  /-- SRA (R51): Shifts register a right arithmetically by the unsigned count in b. -/
  | sra (f : RegF)
  /-- SRA_IMM (R51): Shifts register a right arithmetically by the imm read unsigned. -/
  | sraImm (f : RegF)
  /-- MUL (R50): Writes the low 64 bits of the product of registers a and b. -/
  | mul (f : RegF)
  /-- MUL_IMM (R50): Writes the low 64 bits of the product of register a and the sign-extended imm. -/
  | mulImm (f : RegF)
  /-- MULHS (R52): Writes the high half of the exact signed product of a and b. -/
  | mulhs (f : RegF)
  /-- MULHU (R50): Writes the high half of the exact unsigned product of a and b. -/
  | mulhu (f : RegF)
  /-- MIN (R50): Writes the lesser of a and b, compared signed or, with var 1, unsigned. -/
  | min (f : RegF)
  /-- MAX (R50): Writes the greater of a and b, compared signed or, with var 1, unsigned. -/
  | max (f : RegF)
  /-- LUI (R53): Writes imm into the high 32 bits of d and keeps the low 32 bits of a. -/
  | lui (f : RegF)
  /-- SEL (R53): Writes a or b to d according to predicate pa. -/
  | sel (f : RegF)
  /-- LI (R53): Writes the sign-extended imm to d. -/
  | li (f : RegF)
  /-- MOV (R53): Copies register a to d. -/
  | mov (f : RegF)
  /-- ADD (R50): Adds a and b with wrap, signed saturation or unsigned saturation, and writes overflow to pb. -/
  | add (f : RegF)
  /-- ADD_IMM (R50): Adds a and the sign-extended imm, with the same saturation and overflow rules as add. -/
  | addImm (f : RegF)
  /-- SUB (R50): Subtracts b from a with wrap or saturation, and writes overflow to pb. -/
  | sub (f : RegF)
  /-- SUB_IMM (R50): Subtracts the sign-extended imm from a, with the same saturation and overflow rules as sub. -/
  | subImm (f : RegF)
  /-- CMP (R54): Compares a with b under the var condition and writes the outcome to pa and its complement to pb. -/
  | cmp (f : RegF)
  /-- CMP_IMM (R54): Compares a with the imm under the var condition and writes pa and pb. -/
  | cmpImm (f : RegF)
  /-- BR (R56): Transfers control to the group's first word plus 4 times off, after the target checks. -/
  | br (f : CtlF)
  /-- JMP (R56): Transfers control to register a plus 4 times off. -/
  | jmp (f : CtlF)
  /-- CALL (R58): Calls an entry target: spills if needed, moves the window base by the entry frame, zeroes fresh registers and writes the link. -/
  | call (f : CtlF)
  /-- RET (R60): Returns through a link word: fills spilled registers if needed, moves the window base back and transfers control. -/
  | ret (f : CtlF)
  /-- ENTRY (R59): Does nothing at issue; it supplies the frame size to a call. -/
  | entry (f : CtlF)
  /-- LOOP (R63): Starts a hardware loop: sets %lc, %ec and the stage predicates, or branches to the exit when the count is zero. -/
  | loop (f : CtlF)
  /-- LBR (R64): Ends a loop pass: counts %lc and %ec down, rotates the stage predicates (and the C rotating base), and branches or falls through. -/
  | lbr (f : CtlF)
  /-- TKPUT (R103): Adds n tokens to a token queue, due at the next cycle, and waits while there is too little room. -/
  | tkput (f : MgtF)
  /-- TKGET (R103): Removes n tokens from a token queue, and waits while there are too few tokens. -/
  | tkget (f : MgtF)
  /-- TKGET_TRY (R103): Removes n tokens if they are present, writes success to a predicate, and never waits. -/
  | tkgetTry (f : MgtF)
  /-- HALT (R24): Stops the sequencer from issuing for the rest of the segment; results in flight still complete. -/
  | halt (f : MgtF)
  /-- MACRO_CALL (R31): Calls macro F with parameters P0 to P3 and issues its body entries in turn. -/
  | macroCall (m i : BitVec 5) (p0 p1 p2 p3 : BitVec 16)
  /-- TSET (R69): Writes and validates one template slot of a sequencer's table from two registers. -/
  | tset (f : MgtF)
  /-- TLD (R70): Starts loading a run of templates from global or local memory into a template table. -/
  | tld (f : MgtF)
  /-- TLD_SLOT_WRITE (R41): Writes a slot loaded by tld once its template has arrived, and validates it. -/
  | tldSlotWrite (core : Nat)
  /-- MDEF (R71): Starts reading a macro body from memory for a sequencer's macro store. -/
  | mdef (f : MgtF)
  /-- MDEF_BODY_CHECK (R33): Checks the macro body that has been read, and either installs it whole or rejects it with cause 0x05. -/
  | mdefBodyCheck (core : Nat)
  /-- MFS (R67): Reads a special register into d. -/
  | mfs (f : MgtF)
  /-- MTS (R67): Writes a special register, with effect from the next cycle, or traps if the register is read-only or the value is illegal. -/
  | mts (f : MgtF)
  /-- MTS_FCLR (R141): Writes %fclr, which clears the selected vector flags at the next cycle. -/
  | mtsFclr (f : MgtF)
  /-- MTS_TKMAP (R102): Writes %tkmap to rebind the token queues when every counter is zero and no sequencer waits. -/
  | mtsTkmap (f : MgtF)
  /-- XSET (R68): Writes A into an l register of L, C or S, due two cycles later. -/
  | xset (f : MgtF)
  /-- ALIGN (R104): Waits until the masked sequencers are parked or halted, then supplies their missing tokens. -/
  | align (f : MgtF)
  /-- GALIGN (R105): Arrives at a group alignment and freezes the core's schedule counter. -/
  | galign (f : MgtF)
  /-- GALIGN_RELEASE (R105): Unfreezes every waiting core 41 cycles after the last arrival. -/
  | galignRelease (core : Nat)
  /-- GALIGN_BREAK (R105): Raises cause 0x23 at each waiting core when a group member traps or is removed. -/
  | galignBreak (member : Nat)
  /-- LTRIG (R114): Marks the unit as triggered, after a module-scope release of its pending writes. -/
  | ltrig (f : MgtF)
  /-- LAUNCH (R110): Starts reading a launch descriptor and its loop table. -/
  | launch (f : MgtF)
  /-- LAUNCH_ACCEPTANCE (R110): Checks the descriptor and loop table that have been read, and accepts the launch with a release or raises a fault. -/
  | launchAcceptance (core : Nat)
  /-- LAUNCH_COMPLETE (R113): Releases csem, with release ordering, once every unit and its on-die work has ended. -/
  | launchComplete (id : Nat)
  /-- LAUNCH_TRIGGER_RELEASE (R114): Releases tsem once every unit of the launch is triggered. -/
  | launchTriggerRelease (id : Nat)
  /-- PHASE (R240): Performs a release followed by an acquire at the given scope. -/
  | phase (f : MgtF)
  /-- FENCE_REL (R240): Performs a release alone at the given scope. -/
  | fenceRel (f : MgtF)
  /-- FENCE_ACQ (R240): Performs an acquire alone at the given scope. -/
  | fenceAcq (f : MgtF)
  /-- BOUNDARY_COMPLETE (R238): Completes a release or acquire once its scope condition holds, and lets K issue again. -/
  | boundaryComplete (core : Nat)
  /-- EFENCE (R347): Waits until earlier global loads, atomics and released stores have returned, and raises any pending error. -/
  | efence (f : MgtF)
  /-- SACQ (R278): Waits until the semaphore count is at least n, subtracts n, and acquires at the given scope. -/
  | sacq (f : MgtF)
  /-- SACQ_TRY (R278): Subtracts n from the semaphore if it can and writes the outcome to a predicate, without waiting. -/
  | sacqTry (f : MgtF)
  /-- SACQ_M (R278): Waits until a memory word is at least B, then acquires. -/
  | sacqM (f : MgtF)
  /-- SREL (R278): Releases at the given scope and adds n to the semaphore when the release completes. -/
  | srel (f : MgtF)
  /-- SREL_M (R278): Performs an aadd.rel of B on a memory word. -/
  | srelM (f : MgtF)
  /-- TRAP (R76): Makes a requested trap with cause 0x00 and advances past the group. -/
  | trap (f : MgtF)
  /-- GDRAW (R72): Draws a sorrel value from key A and counter B, or the journalled value in a replayed step. -/
  | gdraw (f : MgtF)
  /-- LMIX (R73): Mixes a value with a seed using the sorrel function. -/
  | lmix (f : MgtF)
  /-- CRC32C (R74): Advances a CRC-32C state over 1, 2, 4 or 8 bytes. -/
  | crc32c (f : MgtF)
  /-- EMIT (R416): Queues the emission of the last appended journal record to address A. -/
  | emit (f : MgtF)
  /-- JRNL_SEQ (R414): Opens a step of a sequence and loads the journalled record when one exists in the replay store. -/
  | jrnlSeq (f : MgtF)
  /-- JRNL_GEN (R414): Stages the sorrel key and counter of the step. -/
  | jrnlGen (f : MgtF)
  /-- JRNL_TOK (R414): Stages the token, or returns the journalled token in replay. -/
  | jrnlTok (f : MgtF)
  /-- JRNL_RT (R414): Stages routing word n, or returns the journalled word in replay. -/
  | jrnlRt (f : MgtF)
  /-- JRNL_APP (R414): Appends the staged step record, or compares the digest against the journal in replay, and closes the step. -/
  | jrnlApp (f : MgtF)
  /-- JRNL_CKPT (R418): Releases at domain scope and appends a checkpoint or end record for a sequence. -/
  | jrnlCkpt (f : MgtF)
  /-- JRNL_REP (R426): Sends a step digest to the replica peer for comparison. -/
  | jrnlRep (f : MgtF)
  /-- TLBINV (R259): Drops, in every translator, the context's entries that map the byte at A, together with cached pointer entries. -/
  | tlbinv (f : MgtF)
  /-- TLBINV_ALL (R259): Drops every translation entry of the context. -/
  | tlbinvAll (f : MgtF)
  /-- TLBINV_COMPLETE (R259): Completes a tlbinv once every translator has dropped its entries and the affected accesses are performed. -/
  | tlbinvComplete (core : Nat)
  /-- TLBSYNC (R259): Waits for every earlier tlbinv of this K sequencer to complete. -/
  | tlbsync (f : MgtF)
  /-- QFENCE (R276): Places a join packet in each named queue. -/
  | qfence (f : MgtF)
  /-- QFENCE_W (R276): Places join packets and holds K until the join word reaches its target, then acquires. -/
  | qfenceW (f : MgtF)
  /-- LD_GLOBAL (R230): Loads 1 to 8 bytes from a global address after translation. -/
  | ldGlobal (f : MemF)
  /-- LD_LOCAL (R230): Loads 1 to 8 bytes from the scratchpad, with the slab checks. -/
  | ldLocal (f : MemF)
  /-- ST_GLOBAL (R230): Stores 1 to 8 bytes to a global address as a pending write. -/
  | stGlobal (f : MemF)
  /-- ST_LOCAL (R230): Stores 1 to 8 bytes into the scratchpad from the K sequencer. -/
  | stLocal (f : MemF)
  /-- ST_LOCAL_S (R229): Stores 1 to 8 bytes into the scratchpad from the S sequencer. -/
  | stLocalS (f : MemF)
  /-- GLOBAL_ACCESS_RESPONSE (R230): Writes a global load's data to its register when the data arrives. -/
  | globalAccessResponse (core : Nat)
  /-- AADD (R241): Atomically adds V at the home slice and returns the old value. -/
  | aadd (f : MemF)
  /-- AMIN (R241): Atomically stores the lesser of the old value and V. -/
  | amin (f : MemF)
  /-- AMAX (R241): Atomically stores the greater of the old value and V. -/
  | amax (f : MemF)
  /-- ASWAP (R241): Atomically swaps V with the value at the address. -/
  | aswap (f : MemF)
  /-- ACAS (R241): Atomically writes V when the old value equals CV. -/
  | acas (f : MemF)
  /-- AAND (R241): Atomically ANDs V into the value at the address. -/
  | aand (f : MemF)
  /-- AOR (R241): Atomically ORs V into the value at the address. -/
  | aor (f : MemF)
  /-- RAMO (R241): Reads a value atomically at the home slice. -/
  | ramo (f : MemF)
  /-- ATOMIC_RESPONSE (R242): Writes an atomic's old value to d when the response returns, then acquires if .acq is set. -/
  | atomicResponse (core : Nat)
  /-- ERROR_RESPONSE (R345): Ends a refused access: writes zero or nothing, logs it, and sets the pending error where that applies. -/
  | errorResponse (core : Nat)
  /-- IXE_GATHER (R291): Places an index-engine gather packet in the queue port. -/
  | ixeGather (f : EngF)
  /-- IXE_SCATTER (R291): Places an index-engine scatter packet in the queue port. -/
  | ixeScatter (f : EngF)
  /-- IXE_DEDUP (R291): Places an index-engine dedup packet in the queue port. -/
  | ixeDedup (f : EngF)
  /-- IXE_BUCKET (R291): Places an index-engine bucket packet in the queue port. -/
  | ixeBucket (f : EngF)
  /-- WLPUSH (R291): Places a work-list push packet in the queue port. -/
  | wlpush (f : EngF)
  /-- WLPOP (R291): Places a work-list pop packet in the queue port. -/
  | wlpop (f : EngF)
  /-- WLDIN (R291): Places a deduplicating work-list push packet in the queue port. -/
  | wldin (f : EngF)
  /-- POOL (R291): Places a pooling job card in the queue port. -/
  | pool (f : EngF)
  /-- SUPD (R291): Places a scatter-update job card in the queue port. -/
  | supd (f : EngF)
  /-- NMC (R316): Places a near-bank call packet in the queue port. -/
  | nmc (f : EngF)
  /-- XCH_POOL (R401): Places an exchange pooling packet in the queue port. -/
  | xchPool (f : EngF)
  /-- XCH_RED (R401): Places an exchange reduction packet for a collective in the queue port. -/
  | xchRed (f : EngF)
  /-- SKQ (R300): Places a sketch query packet in the queue port. -/
  | skq (f : EngF)
  /-- SKQ_ADD (R300): Places a sketch feed-and-query packet in the queue port. -/
  | skqAdd (f : EngF)
  /-- HRCH_FILL (R304): Places a hot-row fill packet in the queue port. -/
  | hrchFill (f : EngF)
  /-- HRCH_EVICT (R304): Places a hot-row evict packet in the queue port. -/
  | hrchEvict (f : EngF)
  /-- HRCH_FLUSH (R304): Places a hot-row flush packet in the queue port. -/
  | hrchFlush (f : EngF)
  /-- HRCH_PIN (R304): Places a hot-row pin packet in the queue port. -/
  | hrchPin (f : EngF)
  /-- HRCH_UNPIN (R304): Places a hot-row unpin packet in the queue port. -/
  | hrchUnpin (f : EngF)
  /-- AGSET (R149): Sets an address generator's base, counts and strides, and binds it to a port. -/
  | agset (f : AgnF)
  /-- VLD (R150): Issues n aligned 256-byte generator steps into a read port. -/
  | vld (f : MovF)
  /-- VLD_UB (R150): Issues n 4-byte-aligned generator steps into a read port, splitting at bank rows. -/
  | vldUb (f : MovF)
  /-- CPY_IN (R281): Places a copy from global memory into the scratchpad on a copy channel. -/
  | cpyIn (f : MovF)
  /-- CPY_OUT (R281): Places a copy from the scratchpad to global memory on a copy channel. -/
  | cpyOut (f : MovF)
  /-- CPY_LL (R281): Places a copy from local to local on a copy channel. -/
  | cpyLl (f : MovF)
  /-- COPY_COMMAND (R280): A copy channel begins a command, reads its descriptor, and moves its runs. -/
  | copyCommand (core chan : Nat)
  /-- COPY_COMPLETE (R281): Completes a copy after its last write and releases its semaphore. -/
  | copyComplete (core chan : Nat)
  /-- PLANE (R184): Places a row-major to bit-plane conversion in the plane unit. -/
  | plane (f : MovF)
  /-- PLANE_COMMAND (R184): The plane unit begins a command and reads and writes its blocks. -/
  | planeCommand (core : Nat)
  /-- PLANE_COMPLETE (R184): Completes a plane command and releases its semaphore. -/
  | planeComplete (core : Nat)
  /-- RENEW (R220): Places a rewrite of slabs in the renew unit. -/
  | renew (f : MovF)
  /-- RENEW_UNIT_COMMAND (R220): The renew unit begins a renew or a zero fill, checks the slabs, and rewrites and stamps them. -/
  | renewUnitCommand (core : Nat)
  /-- RENEW_UNIT_COMPLETE (R220): Completes a renew-unit command and releases its semaphore. -/
  | renewUnitComplete (core : Nat)
  /-- SALLOC (R218): Claims a run of slabs as live allocations and writes a descriptor. -/
  | salloc (f : MovF)
  /-- SALLOC_Z (R218): Claims a run of slabs and queues a zero fill of them. -/
  | sallocZ (f : MovF)
  /-- SFREE (R219): Frees a run of slabs given by base and count, once nothing addresses them. -/
  | sfree (f : MovF)
  /-- SFREE_DESC (R219): Frees the run of slabs named by a descriptor register. -/
  | sfreeDesc (f : MovF)
  /-- STASH (R222): Opens a stash window of n slabs. -/
  | stash (f : MovF)
  /-- STASH_CLOSE (R222): Starts closing the stash window: writes back dirty entries and returns the slabs. -/
  | stashClose (f : MovF)
  /-- STASH_CLOSE_COMPLETE (R222): Releases the semaphore once the stash write-back has completed. -/
  | stashCloseComplete (core : Nat)
  /-- STASH_MISS_FILL (R223): Fills a stash entry for a missing block, replacing the oldest entry. -/
  | stashMissFill (core : Nat)
  /-- STASH_ENTRY_EXPIRE (R223): Empties a clean stash entry when its age reaches 1,875 ts. -/
  | stashEntryExpire (core entry : Nat)
  /-- VADD (R156): Adds vector elements, with one rounding or integer wrap or saturation. -/
  | vadd (f : VecF)
  /-- VSUB (R156): Subtracts vector elements. -/
  | vsub (f : VecF)
  /-- VMUL (R156): Multiplies vector elements. -/
  | vmul (f : VecF)
  /-- VFMA (R156): Computes a times b plus c per element, with one rounding. -/
  | vfma (f : VecF)
  /-- VFMS (R156): Computes a times b minus c per element, with one rounding. -/
  | vfms (f : VecF)
  /-- VMIN (R157): Takes the elementwise minimum. -/
  | vmin (f : VecF)
  /-- VMAX (R157): Takes the elementwise maximum. -/
  | vmax (f : VecF)
  /-- VABS (R157): Takes the elementwise absolute value. -/
  | vabs (f : VecF)
  /-- VNEG (R157): Negates each element. -/
  | vneg (f : VecF)
  /-- VCVT (R158): Converts elements between types, narrowing into part h or widening from part h. -/
  | vcvt (f : VecF)
  /-- VEXP2 (R159): Computes the correctly rounded 2 to the power x. -/
  | vexp2 (f : VecF)
  /-- VLOG2 (R159): Computes the correctly rounded log2 x. -/
  | vlog2 (f : VecF)
  /-- VRCP (R159): Computes the correctly rounded reciprocal. -/
  | vrcp (f : VecF)
  /-- VRSQRT (R159): Computes the correctly rounded reciprocal square root. -/
  | vrsqrt (f : VecF)
  /-- VDIV (R160): Divides elements, correctly rounded under rnd. -/
  | vdiv (f : VecF)
  /-- VSQRT (R160): Takes the square root of each element, correctly rounded under rnd. -/
  | vsqrt (f : VecF)
  /-- VCMP (R161): Compares elements into masks and an OR or AND predicate. -/
  | vcmp (f : VecF)
  /-- VSEL (R162): Selects each element from a or b by c. -/
  | vsel (f : VecF)
  /-- VRED (R163): Reduces the first m elements by sum, max or min, and broadcasts the result. -/
  | vred (f : VecF)
  /-- VTOPK (R164): Writes the indices of the k top-ranked elements. -/
  | vtopk (f : VecF)
  /-- VBSCMP (R165): Compares byte segments and writes difference codes and a predicate. -/
  | vbscmp (f : VecF)
  /-- VCRC (R166): Advances the CRC-32C state of each lane. -/
  | vcrc (f : VecF)
  /-- VMIX (R166): Applies the sorrel mixer to 64-bit lane pairs. -/
  | vmix (f : VecF)
  /-- VMIX_H (R166): Writes the high half of the sorrel mix of each lane. -/
  | vmixH (f : VecF)
  /-- VXM (R168): Moves a vector from one cluster to the other and into the destination queue. -/
  | vxm (f : VecF)
  /-- VPERM (R168): Permutes lanes or bytes by an index vector; out-of-range indices give zero. -/
  | vperm (f : VecF)
  /-- VPERM2 (R168): Permutes lanes from two tables. -/
  | vperm2 (f : VecF)
  /-- VBCAST (R168): Broadcasts element e to every element. -/
  | vbcast (f : VecF)
  /-- VAND (R167): Takes the bitwise AND of two vectors. -/
  | vand (f : VecF)
  /-- VOR (R167): Takes the bitwise OR of two vectors. -/
  | vor (f : VecF)
  /-- VXOR (R167): Takes the bitwise XOR of two vectors. -/
  | vxor (f : VecF)
  /-- VSHL (R167): Shifts each element left. -/
  | vshl (f : VecF)
  /-- VSHR (R167): Shifts each element right logically. -/
  | vshr (f : VecF)
  /-- VSRA (R167): Shifts each element right arithmetically. -/
  | vsra (f : VecF)
  /-- VMOV (R168): Copies a vector. -/
  | vmov (f : VecF)
  /-- VST (R153): Pops n vectors from a write port and writes them at the generator's addresses. -/
  | vst (f : StoF)
  /-- RESULT_DUE (R19): A result, queue entry, port entry, token count or scheduled scratchpad write takes effect at its due cycle. -/
  | resultDue (core : Nat)
  /-- WAITING_GROUP_ISSUE (R98): A group that waited in an untimed segment issues on the first cycle at which its conditions hold. -/
  | waitingGroupIssue (core : Nat) (sq : Seq)
  /-- LEASE (R173): Ends any current lease and requests the quad's array for n counted commands. -/
  | lease (f : MtxF)
  /-- UNLEASE (R173): Ends the core's lease. -/
  | unlease (f : MtxF)
  /-- LEASE_GRANT (R174): On a free cycle the array grants the highest-priority pending request, round robin within a priority. -/
  | leaseGrant (arr : Nat)
  /-- MMA (R188): Sends a dense matrix multiply-accumulate on a tile to the array. -/
  | mma (f : MtxF)
  /-- MMA_AT_BANK (R199): Sends an INT8 or INT4 mma whose A operand is shipped to the stacks. -/
  | mmaAtBank (f : MtxF)
  /-- MMAC (R190): Sends a complex matrix multiply-accumulate to the array. -/
  | mmac (f : MtxF)
  /-- MMAS (R191): Sends a sparse-A matrix multiply-accumulate to the array. -/
  | mmas (f : MtxF)
  /-- AMZ (R193): Zeroes a tile. -/
  | amz (f : MtxF)
  /-- ALD (R194): Loads a tile from the scratchpad, widening as var selects. -/
  | ald (f : MtxF)
  /-- ARET (R195): Retires a tile to the scratchpad, converting it and optionally freeing it. -/
  | aret (f : MtxF)
  /-- ARET_W (R196): Waits until the earlier retirements of a tile have ended. -/
  | aretW (f : StoF)
  /-- ARRAY_COMMAND_BEGIN (R177): The array begins a counted command, checks the tile and performs its groups at fixed cycles. -/
  | arrayCommandBegin (arr : Nat)
  /-- ARRAY_COMMAND_END (R180): A command ends: its tile result is complete, its flags are raised, and held, in-use and dirty are updated. -/
  | arrayCommandEnd (arr : Nat)
  /-- AT_BANK_COMMAND (R323): A near-bank unit checks the weight page and computes the int_group chain of an at-bank mma. -/
  | atBankCommand (arr : Nat)
  /-- TILE_SAVE (R371): Copies another owner's dirty tile to its save area before a write. -/
  | tileSave (arr tile : Nat)
  /-- TILE_RESTORE (R371): Copies a saved tile back before its owner's command reads it. -/
  | tileRestore (arr tile : Nat)
  /-- ARRAY_REPLAY (R349): On an uncorrectable error in a tile, discards it and replays the retained commands from its marker. -/
  | arrayReplay (arr tile : Nat) (again : Bool)
  /-- QPUSH (R272): Places n packets from the scratchpad in the queue port. -/
  | qpush (f : StoF)
  /-- QUEUE_PORT_WRITE (R271): The queue port claims a slot, waits for room and writes a packet with its lap. -/
  | queuePortWrite (core : Nat)
  /-- FRONT_END_TAKE (R266): An engine front end takes the next packet once widx, the lap and the order allow it, and checks it. -/
  | frontEndTake (q : Nat)
  /-- PACKET_COMPLETE (R263): A packet completes: its semaphore or memory word is released and ridx advances. -/
  | packetComplete (w : Nat)
  /-- NULL_PACKET (R262): A null packet completes at once with no effect. -/
  | nullPacket (w : Nat)
  /-- SIGNAL_PACKET (R262): A signal packet only signals its completion. -/
  | signalPacket (w : Nat)
  /-- JOIN_PACKET (R276): Increments the join word and holds the queue until the word reaches its target. -/
  | joinPacket (w : Nat)
  /-- COPY_PACKET (R284): A queue channel copies global memory to global memory by a tensor descriptor. -/
  | copyPacket (w : Nat)
  /-- JOB_CARD_COMMIT (R275): Commits the card whose ts equals the commit point, performs its writes and advances cp. -/
  | jobCardCommit (w : Nat)
  /-- INDEX_GATHER (R293): Copies the current values of the listed rows to the destination. -/
  | indexGather (w : Nat)
  /-- INDEX_SCATTER (R293): Writes source bytes as the current values of the listed rows. -/
  | indexScatter (w : Nat)
  /-- INDEX_DEDUP (R293): Writes the unique rows, their counts and their positions. -/
  | indexDedup (w : Nat)
  /-- INDEX_BUCKET (R293): Sorts entries into buckets by home memory. -/
  | indexBucket (w : Nat)
  /-- WORKLIST_PUSH (R295): Appends coordinates to a work-list in one indivisible step. -/
  | worklistPush (w : Nat)
  /-- WORKLIST_POP (R295): Pops up to m coordinates from a work-list. -/
  | worklistPop (w : Nat)
  /-- WORKLIST_DEDUP_PUSH (R295): Appends the coordinates not yet present in the bitmap and sets their bits. -/
  | worklistDedupPush (w : Nat)
  /-- SKETCH_QUERY (R300): Writes the sketch estimate of each entry. -/
  | sketchQuery (w : Nat)
  /-- SKETCH_QUERY_ADD (R300): Feeds each entry to the sketch and then writes its estimate. -/
  | sketchQueryAdd (w : Nat)
  /-- SKETCH_DECAY (R299): At every multiple of the period, halves every sketch counter. -/
  | sketchDecay (die : Nat)
  /-- HOTROW_FILL (R304): Makes each listed row resident. -/
  | hotrowFill (w : Nat)
  /-- HOTROW_EVICT (R304): Writes back the listed rows if dirty, unpins them and invalidates them. -/
  | hotrowEvict (w : Nat)
  /-- HOTROW_FLUSH (R304): Writes back the dirty listed rows and leaves them resident. -/
  | hotrowFlush (w : Nat)
  /-- HOTROW_PIN (R304): Fills and pins the listed rows. -/
  | hotrowPin (w : Nat)
  /-- HOTROW_UNPIN (R304): Clears the pin of the listed rows. -/
  | hotrowUnpin (w : Nat)
  /-- FRAME_FILL (R303): Copies a row into a chosen frame, writing back a dirty victim first. -/
  | frameFill (die : Nat)
  /-- FRAME_WRITE_BACK (R303): Writes a dirty frame back to its row's home. -/
  | frameWriteBack (set way : Nat)
  /-- POOL_CARD (R305): Pools the listed rows into bags through WF128 partials and writes the results at commit. -/
  | poolCard (w : Nat)
  /-- POOLING_ROW_SERVICE (R307): A near-bank unit or pooling engine returns WF128 partials for its rows. -/
  | poolingRowService (w : Nat)
  /-- SUPD_SGD (R309): Applies one SGD step to each distinct row from its coalesced gradients. -/
  | supdSgd (w : Nat)
  /-- SUPD_MOMENTUM (R309): Applies one momentum step per distinct row. -/
  | supdMomentum (w : Nat)
  /-- SUPD_ADAGRAD (R309): Applies one row-wise Adagrad step per distinct row. -/
  | supdAdagrad (w : Nat)
  /-- SUPD_ADAM (R309): Applies one Adam step, with a row-wise second moment, per distinct row. -/
  | supdAdam (w : Nat)
  /-- SUPD_INSTALLED (R309): Applies an installed firmware update step per distinct row. -/
  | supdInstalled (w : Nat)
  /-- NEAR_BANK_MATVEC (R319): Multiplies an INT8 vector by the operand at the bank. -/
  | nearBankMatvec (w : Nat)
  /-- NEAR_BANK_COLSUM (R319): Sums the operand's columns exactly through WF128. -/
  | nearBankColsum (w : Nat)
  /-- NEAR_BANK_FILL (R319): Fills the operand's element bytes with arg0. -/
  | nearBankFill (w : Nat)
  /-- NEAR_BANK_STRIPE (R319): Writes row-major input into bank-striped layout. -/
  | nearBankStripe (w : Nat)
  /-- NEAR_BANK_MICROPROGRAM (R326): Runs an installed micro-program until its end word, or until it fails. -/
  | nearBankMicroprogram (w : Nat)
  /-- NEAR_BANK_DISPATCH (R321): Prepares the extent, blocks it, and dispatches a command to its unit. -/
  | nearBankDispatch (w : Nat)
  /-- EXCHANGE_POOL (R403): Pools rows across shard owners and merges their partials. -/
  | exchangePool (w : Nat)
  /-- EXCHANGE_REDUCE (R404): Performs a group collective sum through WF128. -/
  | exchangeReduce (w : Nat)
  /-- COLLECTIVE_TIMEOUT (R404): Fails a collective with cause 0xA3 when a member has not contributed within 1 ms. -/
  | collectiveTimeout (w : Nat)
  /-- JOURNAL_APPEND_PACKET (R411): Appends a 128-byte record from a kind 0x60 packet. -/
  | journalAppendPacket (w : Nat)
  /-- JOURNAL_RECORD_RECEIVE (R411): The partner stores a journal record and returns a cumulative acknowledgement. -/
  | journalRecordReceive (src : Nat) (rec : BitVec 1024)
  /-- JOURNAL_ACK_RECEIVE (R417): An acknowledgement releases the waiting emissions and truncates the checkpointed records. -/
  | journalAckReceive (a : JournalAck)
  /-- EMISSION_PERFORM (R417): Writes the emission record and releases its semaphore. -/
  | emissionPerform (core : Nat)
  /-- PARTNER_LOST (R422): Declares the partner lost after 256 µs with no acknowledgement, and holds emissions. -/
  | partnerLost
  /-- PARTNER_REASSIGN (R422): The management core writes a new partner and resends the local ring. -/
  | partnerReassign (modid : Nat)
  /-- REPLICA_DIGEST_ARRIVAL (R426): Compares a replica's digest and releases semaphores or raises cause 0xB4. -/
  | replicaDigestArrival (ctx step : Nat) (digest : Word)
  /-- REPLICA_RESOLUTION (R427): Resolves a replica disagreement by scans and re-execution. -/
  | replicaResolution (ctx : Nat) (failHere failPeer minority tie : Bool)
  /-- REPLAY_STORE_INSTALL (R419): Installs a replay store, which puts a context in replay mode. -/
  | replayStoreInstall (ctx : Nat) (recs : List (BitVec 1024))
  /-- SCAN_FAILURE_REPLAY (R425): Replays a suspect sequence and sends a confirm or retract notice. -/
  | scanFailureReplay (ctx seq gen : Nat) (diverge : Option Nat)
  /-- JCTL_WRITE (R410): Configures and enables or disables the journal engine. -/
  | jctlWrite (jctl jring : Word)
  /-- SEGMENT_END (R95): The segment ends at E, and any pending error is raised. -/
  | segmentEnd (core : Nat)
  /-- OVERRUN_UNTIMED (R98): Raises cause 0x21 when an untimed segment reaches 2 times its cost. -/
  | overrunUntimed (core : Nat)
  /-- OVERRUN_TIMED (R99): Raises cause 0x22 when a timed segment reaches its cost with a sequencer not halted. -/
  | overrunTimed (core : Nat)
  /-- DISPATCH (R363): The core walks the timetable and dispatches the next segment, checking its header and allocations. -/
  | dispatch (core : Nat)
  /-- DISPATCH_LEASE_GRANT (R175): A header-lease segment obtains the array, performs its tile transfers and starts. -/
  | dispatchLeaseGrant (core : Nat)
  /-- GANG_ENTRY (R366): The cores of a gang row begin together once all of them have reached it. -/
  | gangEntry (die row : Nat)
  /-- SWITCH (R368): Drains, saves the outgoing context, and loads the incoming one. -/
  | switch (core : Nat)
  /-- SEMAPHORE_IMAGE_RELEASE (R369): Applies a release to a switched-out context's image, exactly once. -/
  | semaphoreImageRelease (ctx core sem : Nat)
  /-- ROW_LOAD (R376): When a retiring row becomes free, the loader copies the pending record into it. -/
  | rowLoad (die row : Nat)
  /-- TTCTL_WRITE (R362): Sets the timetable length and enable. -/
  | ttctlWrite (die : Nat) (v : Word)
  /-- BIND_RECORD_WRITE (R376): Writes a current or pending bind record. -/
  | bindRecordWrite (die row : Nat) (pending : Bool) (rec : BitVec 256)
  /-- LEASE_TABLE_WRITE (R376): Sets retire and pend on a row. -/
  | leaseTableWrite (die idx : Nat) (v : Word)
  /-- SLABCMD_RENEW (R375): Rewrites the context's live, born slabs. -/
  | slabcmdRenew (die : Nat) (v : Word)
  /-- SLABCMD_FREE (R375): Frees the context's slabs. -/
  | slabcmdFree (die : Nat) (v : Word)
  /-- SLABCMD_CLAIM (R375): Claims slabs for a context or refuses the claim. -/
  | slabcmdClaim (die : Nat) (v : Word)
  /-- TLBCMD_PAGE (R382): Invalidates a page's translations for any context. -/
  | tlbcmdPage (die : Nat) (v : Word)
  /-- TLBCMD_CONTEXT (R382): Invalidates all translations of a context. -/
  | tlbcmdContext (die : Nat) (v : Word)
  /-- QUEUE_TABLE_ATTACH (R380): Attaches a queue descriptor to a front end, or logs cause 0x66. -/
  | queueTableAttach (die idx : Nat) (v : Word)
  /-- QUEUE_TAIL_WRITE (R381): Performs amax of a value on widx. -/
  | queueTailWrite (die idx : Nat) (v : Word)
  /-- QUEUE_RESTART (R269): Writing state 0 restarts a stopped queue at the failed packet. -/
  | queueRestart (q : Nat)
  /-- REGISTER_WRITE (R67): Writes a register that has no behaviour of its own. -/
  | registerWrite (unit num : Nat) (v : Word)
  /-- TRAP_STOP (R340): A trapping sequencer stops the core, captures in-flight results and sends its record. -/
  | trapStop (core : Nat)
  /-- TRAP_RECORD_ENQUEUE (R339): A trap record enters the die's trap queue when there is room. -/
  | trapRecordEnqueue (die : Nat)
  /-- RESUME (R343): A trapped context resumes on rebinding, with pending results written at their due cycles. -/
  | resume (ctx core : Nat)
  /-- CONTEXT_REMOVAL (R356): Starts removing a context: no new work is taken and its queues detach. -/
  | contextRemoval (ctx : Nat)
  /-- REMOVAL_STEP (R356): A removal step completes once its units have drained the context. -/
  | removalStep (ctx : Nat)
  /-- REMOVAL_BOUND_EXPIRE (R357): Resets a unit whole when it does not drain within its bound. -/
  | removalBoundExpire (ctx : Nat)
  /-- PAGE_WALK_COMPLETE (R249): A walk ends with a translation or a fault. -/
  | pageWalkComplete (core : Nat)
  /-- PREFETCH_WALK (R252): A stream TLB walks for the next page and only translates it. -/
  | prefetchWalk (core chan : Nat)
  /-- FAULT_REFUSAL_RETRY (R254): A refused fault tries again after its backoff interval. -/
  | faultRefusalRetry (core : Nat)
  /-- GROUP_FREEZE (R255): Freezes the group's schedule counters 48 cycles after the wire is asserted. -/
  | groupFreeze (wire : Nat)
  /-- GROUP_THAW (R257): Thaws the group, and each faulting access retries or delivers its fault. -/
  | groupThaw (wire : Nat)
  /-- FAULT_RETRY_WRITE (R257): Writes state 2 into an unresolved fault record. -/
  | faultRetryWrite (die idx : Nat)
  /-- FAULT_DELIVER_WRITE (R257): Writes state 3 into an unresolved fault record. -/
  | faultDeliverWrite (die idx : Nat)
  /-- PAGE_MIGRATION (R260): Blocks, copies, remaps and unblocks a page with P = 0. -/
  | pageMigration (ctx : Nat) (va newPa : Word)
  /-- SWEEP_RING_RENEW (R225): Renews a ring slab whose remaining life is at most H. -/
  | sweepRingRenew (core slab : Nat)
  /-- SWEEP_STASH_WRITEBACK (R225): Writes back a dirty stash entry near expiry. -/
  | sweepStashWriteback (core entry : Nat)
  /-- SWEEP_FROZEN_SLAB_RENEW (R225): Renews a born slab of a stall-frozen context. -/
  | sweepFrozenSlabRenew (core slab : Nat)
  /-- SWEEP_FROZEN_TILE_RENEW (R256): Rewrites an in-use tile of a frozen context near expiry. -/
  | sweepFrozenTileRenew (arr tile : Nat)
  /-- SWEEP_MARK_LOST (R225): Marks a slab lost when it is older than 1,875 ts and its context is not running on the core. -/
  | sweepMarkLost (core slab : Nat)
  /-- SWEEP_TILE_SAVE (R373): Saves a dirty tile of an absent owner near expiry. -/
  | sweepTileSave (arr tile : Nat)
  /-- ROTATION_SCAN_SLOT (R351): Drains a unit and runs its scan patterns in its rotation slot. -/
  | rotationScanSlot (unit : Nat) (pass : Bool)
  /-- UNIT_RETURN_TO_SERVICE (R355): The management core returns a fenced unit to service after it passes a scan. -/
  | unitReturnToService (unit : Nat)
  /-- CONTROL_STORE_LOAD (R324): Loads the near-bank control stores from a signed image, or rejects it with 0x7B. -/
  | controlStoreLoad (words : List (BitVec 192)) (entries : List (BitVec 16))
  /-- DOMAIN_READ_REQUEST (R396): The target performs a domain read in pseq order and responds. -/
  | domainReadRequest (hdr : BitVec 384)
  /-- DOMAIN_WRITE_REQUEST (R396): The target performs a domain write as a release and acknowledges it. -/
  | domainWriteRequest (hdr : BitVec 384) (bytes : List Byte)
  /-- DOMAIN_ATOMIC_REQUEST (R398): The target performs a domain atomic once, or returns its recorded old value. -/
  | domainAtomicRequest (hdr : BitVec 384)
  /-- DOMAIN_SKIP (R399): The target marks a pseq skipped and acknowledges the skip. -/
  | domainSkip (hdr : BitVec 384)
  /-- DOMAIN_READ_RESPONSE (R395): The source receives read data. -/
  | domainReadResponse (hdr : BitVec 384) (bytes : List Byte)
  /-- DOMAIN_WRITE_ACK (R395): The source receives a write or skip acknowledgement. -/
  | domainWriteAck (hdr : BitVec 384)
  /-- DOMAIN_ATOMIC_RESPONSE (R398): The source receives an atomic's old value. -/
  | domainAtomicResponse (hdr : BitVec 384)
  /-- DOMAIN_RESEND_TIMEOUT (R399): Resends a request after 64 µs with no response, or ends it with 0xA1 and sends skips. -/
  | domainResendTimeout (target pseq : Nat)
  /-- GROUP_FORMATION (R391): Forms a deterministic group and aligns %cyc across the members. -/
  | groupFormation (dgrp : Word) (largest : Nat)
  /-- LINK_RETRAIN (R392): Remeasures delays and corrects phase by adjusting clock periods. -/
  | linkRetrain (phase : Nat)
  /-- GROUP_LEAVE (R392): A member that has lost the leader or its phase leaves the group with 0xA4. -/
  | groupLeave (member newLead : Nat)
  /-- M_LEVEL_START (R393): Members start the units of an M-level launch at time-step a + 16. -/
  | mLevelStart (id : Nat)
  /-- D2D_UNCORRECTABLE_ERROR (R388): An uncorrectable link error gives error responses with cause 0x83. -/
  | d2dUncorrectableError (core : Nat)
  /-- WHOLE_MEMORY_CHECKPOINT (R405): Copies all memory to a safe tier while no context runs. -/
  | wholeMemoryCheckpoint
  /-- WHOLE_MEMORY_RESTORE (R405): Copies a checkpoint back before any context is bound. -/
  | wholeMemoryRestore (cells : List (Nat × Byte))
  /-- HOST_WRITE (R408): A host write through BAR2 is performed as a module-scope release. -/
  | hostWrite (port fn : Nat) (addr : Word) (bytes : List Byte)
  /-- HOST_ATOMIC_OP (R407): A host PCIe AtomicOp is performed at the home slice. -/
  | hostAtomicOp (port fn : Nat) (addr : Word) (aop size : Nat) (val cv : Word)
  /-- DOORBELL_WRITE (R408): A host doorbell write to a granted slot writes a queue's tail. -/
  | doorbellWrite (port fn slot : Nat) (v : Word)
  /-- MAILBOX_TAKEOVER (R409): Moves the other host's bindings to the asking port. -/
  | mailboxTakeover (port : Nat) (consent : Bool)
  /-- MAILBOX_RECORD_WRITE (R436): Writes a new signed record into flash. -/
  | mailboxRecordWrite (copyB : Bool) (kind : Nat) (bytes : List Byte)
  /-- ATTESTATION_QUOTE (R438): Signs the measurement with a host nonce. -/
  | attestationQuote (nonce : BitVec 256)
  /-- FUNCTION_LEVEL_RESET (R439): Removes the bound context of a virtual function. -/
  | functionLevelReset (port fn : Nat)
  /-- MODULE_RESET (R436): Resets the module, by power-on, a port reset or a mailbox request. -/
  | moduleReset
  /-- BOOT_RECORD_ACCEPT (R434): The ROM checks and accepts signed records, raises the floor and starts the firmware. -/
  | bootRecordAccept (kind : Nat)
  /-- FIRMWARE_TRAINING (R436): The firmware trains the links and memories. -/
  | firmwareTraining
  /-- BOOT_STORE_LOAD (R436): Loads the control stores and scan patterns at boot. -/
  | bootStoreLoad
  /-- BOOT_SCAN (R436): Every unit passes a first scan before any context is bound. -/
  | bootScan
  /-- THERMAL_SHUTDOWN (R440): On overpower or overtemperature, notifies the hosts, cuts power to the compute dies and reports contexts with 0x88. -/
  | thermalShutdown (hot : Bool)
  /-- TRAP_QUEUE_TAKE (R339): The management firmware takes the oldest record from a die's trap queue, freeing room for a record that waits to enter. -/
  | trapQueueTake (die : Nat)
  /-- DOMAIN_MEMBERSHIP_CHANGE (R389): The management cores form the load-store domain, or a module joins or leaves it, which sets %modid and changes which windows are refused with 0xA0. -/
  | domainMembershipChange (modid : Nat) (members : List Nat)
  /-- HOST_LINK_DOWN (R409): A PCIe port's link goes down, which lets a pending takeover of that port's contexts by the other host complete. -/
  | hostLinkDown (port : Nat)
  /-- THERMAL_SHUTDOWN_EXIT (R441): Once every die's Tj has fallen below 85 °C, a module reset requested during a thermal shutdown begins and boot restarts from step 1. -/
  | thermalShutdownExit
  /-- DOMAIN_ATOMIC_RATE_RELEASE (R398): A domain atomic held back by the limit of 4,096 new identifiers per target per 1 ms is sent once the window admits it. -/
  | domainAtomicRateRelease (target : Nat)
  deriving DecidableEq, Repr

end Sys2Proof
end

