-- ==== Sys2Proof/WellFormed.lean ====
section
/-! DEFINITION. Which field values an instruction may hold: the checks of reason 0x6 (R40), by kind
(R37, R38) and by instruction. A step that no template encodes is well formed as it stands. -/
namespace Sys2Proof

/-- Register codes of a class (Table 2-5): 0-31 in K, 0-15 in L, C and S (R49). -/
def regOk (cls : Seq) (r : BitVec 5) : Bool := cls == .k || r.toNat < 16

/-- A local address field (R37): values above 0x5F_FFFF are reserved. -/
def laOk (a : BitVec 23) : Bool := a.toNat ≤ 0x5FFFFF

/-- Vector source codes (Table 2-6); write-port codes are reserved (R143). -/
def vecSrcOk (v : BitVec 7) : Bool := v.toNat ≤ 0x65 || (0x68 ≤ v.toNat && v.toNat ≤ 0x77)

/-- Vector destination codes (Table 2-7). -/
def vecDstOk (v : BitVec 7) : Bool := v.toNat ≤ 0x3F || v = 0x66 || v = 0x67 || v = 0x7F

/-- The types .f32, .bf16 and .f16 (Table 2-8). -/
def vecFloat (t : BitVec 4) : Bool := t.toNat ≤ 2

/-- The types .i32 and .i8 (Table 2-8). -/
def vecInt (t : BitVec 4) : Bool := t = 5 || t = 6

/-- The types .e4m3 and .e5m2 (Table 2-8). -/
def vec8 (t : BitVec 4) : Bool := t = 3 || t = 4

/-- The types of the instructions that take every width (Table 7-8); .i4 and .i2 are reserved (R137). -/
def vecAny (t : BitVec 4) : Bool := t.toNat ≤ 10 && t ≠ 7 && t ≠ 8

/-- The element width of a vector type (Table 7-1). -/
def vecWidth (t : BitVec 4) : Nat :=
  if t = 0 || t = 5 || t = 9 then 32 else if t = 1 || t = 2 then 16 else 8

/-- The element count of a vector type (Table 7-1). -/
def vecCount (t : BitVec 4) : Nat := 2048 / vecWidth t

/-- The ratio r of R158: the number of parts of a conversion. -/
def cvtRatio (t t2 : BitVec 4) : Nat :=
  if vecCount t > vecCount t2 then vecCount t / vecCount t2 else vecCount t2 / vecCount t

/-- var[3:2] = 0b11 is reserved (R142). -/
def clusterOk (v : BitVec 4) : Bool := v &&& 12 ≠ 12

/-- The imm of `vcmp` (R161, Table 7-9). -/
def cmpImmOk (t : BitVec 4) (imm : BitVec 16) : Bool :=
  imm &&& 0xFFE8 = 0 && (imm &&& 16 = 0 || vecInt t) && ((imm &&& 15).toNat ≤ 5 || vecFloat t)

/-- The full plane count of a matrix format (Table 2-9). -/
def planeCount (fm : Nat) : Nat :=
  match fm with
  | 0 => 24
  | 1 => 8
  | 2 => 11
  | 3 => 4
  | 4 => 3
  | 5 => 4
  | 6 => 3
  | 7 => 4
  | 8 => 3
  | 9 => 2
  | 10 => 8
  | 11 => 4
  | 12 => 2
  | _ => 0

/-- Declared precision: 0, or at most the plane count of fa (Table 2-19, checked on the whole template, R40). -/
def precOk (f : MtxF) : Bool := f.prec.toNat ≤ planeCount f.fa.toNat

/-- The kinds of the REG fields (Table 2-11). -/
def regKinds (cls : Seq) (f : RegF) : Bool :=
  regOk cls f.d && regOk cls f.a && regOk cls f.b

/-- The kinds of the CTL fields (Table 2-12). -/
def ctlKinds (cls : Seq) (f : CtlF) : Bool :=
  regOk cls f.a

/-- The kinds of the MGT fields (Table 2-13). -/
def mgtKinds (cls : Seq) (f : MgtF) : Bool :=
  regOk cls f.d && regOk cls f.a && regOk cls f.b && regOk cls f.c && f.slot.toNat ≤ 61

/-- The kinds of the MEM fields (Table 2-14). -/
def memKinds (cls : Seq) (f : MemF) : Bool :=
  regOk cls f.d && regOk cls f.base && regOk cls f.val && f.scope.toNat ≤ 4 && regOk cls f.cv

/-- The kinds of the ENG fields (Table 2-15). -/
def engKinds (cls : Seq) (f : EngF) : Bool :=
  regOk cls f.a && regOk cls f.b && regOk cls f.c && regOk cls f.d

/-- The kinds of the AGN fields (Table 2-16). -/
def agnKinds (cls : Seq) (f : AgnF) : Bool :=
  laOk f.base && regOk cls f.cr && regOk cls f.sr

/-- The kinds of the MOV fields (Table 2-17). -/
def movKinds (cls : Seq) (f : MovF) : Bool :=
  laOk f.la && regOk cls f.a && regOk cls f.b && f.type.toNat ≤ 10

/-- The kinds of the VEC fields (Table 2-18). -/
def vecKinds (_cls : Seq) (f : VecF) : Bool :=
  vecDstOk f.d && vecSrcOk f.a && vecSrcOk f.b && vecSrcOk f.c && f.type.toNat ≤ 10 && f.type ≠ 7 && f.type ≠ 8 && f.type2.toNat ≤ 10 && f.type2 ≠ 7 && f.type2 ≠ 8

/-- The kinds of the MTX fields (Table 2-19). -/
def mtxKinds (cls : Seq) (f : MtxF) : Bool :=
  laOk f.a && laOk f.b && f.fa.toNat ≤ 12 && f.fb.toNat ≤ 12 && regOk cls f.gam

/-- The kinds of the STO fields (Table 2-20). -/
def stoKinds (cls : Seq) (f : StoF) : Bool :=
  laOk f.la && regOk cls f.a && f.type.toNat ≤ 10

/-- Every field of the instruction holds a value its kind and its instruction allow (R37, R38, R40). R69 gives `tset`, `mfs`, `mts`, `xset` and
`trap` no var values; here every var of theirs but 0 is reserved: DESIGN CHOICE (log 67). -/
def fieldsOk (cls : Seq) (i : Instr) : Bool :=
  match i with
  | .and f => regKinds cls f && f.var = 0
  | .andImm f => regKinds cls f && f.var = 0
  | .or f => regKinds cls f && f.var = 0
  | .orImm f => regKinds cls f && f.var = 0
  | .xor f => regKinds cls f && f.var = 0
  | .xorImm f => regKinds cls f && f.var = 0
  | .shl f => regKinds cls f && f.var = 0
  | .shlImm f => regKinds cls f && f.var = 0
  | .shr f => regKinds cls f && f.var = 0
  | .shrImm f => regKinds cls f && f.var = 0
  | .sra f => regKinds cls f && f.var = 0
  | .sraImm f => regKinds cls f && f.var = 0
  | .mul f => regKinds cls f && f.var = 0
  | .mulImm f => regKinds cls f && f.var = 0
  | .mulhs f => regKinds cls f && f.var = 0
  | .mulhu f => regKinds cls f && f.var = 0
  | .min f => regKinds cls f && f.var.toNat ≤ 1
  | .max f => regKinds cls f && f.var.toNat ≤ 1
  | .lui f => regKinds cls f && f.var = 0
  | .sel f => regKinds cls f && f.var = 0
  | .li f => regKinds cls f && f.var = 0
  | .mov f => regKinds cls f && f.var = 0
  | .add f => regKinds cls f && f.var.toNat ≤ 2
  | .addImm f => regKinds cls f && f.var.toNat ≤ 2
  | .sub f => regKinds cls f && f.var.toNat ≤ 2
  | .subImm f => regKinds cls f && f.var.toNat ≤ 2
  | .cmp f => regKinds cls f && f.var.toNat ≤ 9
  | .cmpImm f => regKinds cls f && f.var.toNat ≤ 9
  | .br f => ctlKinds cls f && f.var = 0
  | .jmp f => ctlKinds cls f && f.var = 0
  | .call f => ctlKinds cls f && f.var.toNat ≤ 1
  | .ret f => ctlKinds cls f && f.var = 0
  | .entry f => ctlKinds cls f && f.var = 0
  | .loop f => ctlKinds cls f && true
  | .lbr f => ctlKinds cls f && f.var = 0
  | .tkput f => mgtKinds cls f && f.var = 0 && f.idx.toNat ≤ 7 && f.n.toNat ≤ 255
  | .tkget f => mgtKinds cls f && f.var = 0 && f.idx.toNat ≤ 7 && f.n.toNat ≤ 255
  | .tkgetTry f => mgtKinds cls f && f.var = 1 && f.idx.toNat ≤ 7 && f.n.toNat ≤ 255
  | .halt f => mgtKinds cls f && f.var = 0
  | .macroCall _ _ _ _ _ _ => true
  | .tset f => mgtKinds cls f && f.var = 0
  | .tld f => mgtKinds cls f && f.var.toNat ≤ 1
  | .tldSlotWrite _ => true
  | .mdef f => mgtKinds cls f && f.var.toNat ≤ 1 && f.idx.toNat ≤ 31
  | .mdefBodyCheck _ => true
  | .mfs f => mgtKinds cls f && f.var = 0
  | .mts f => mgtKinds cls f && f.var = 0 && f.idx ≠ 0x2A && f.idx ≠ 0x28
  | .mtsFclr f => mgtKinds cls f && f.var = 0 && f.idx = 0x2A
  | .mtsTkmap f => mgtKinds cls f && f.var = 0 && f.idx = 0x28
  | .xset f => mgtKinds cls f && f.var = 0 && f.d.toNat ≤ 15 && f.seq ≠ 0
  | .align f => mgtKinds cls f && f.var = 0 && f.n &&& 0xFFF1 = 0
  | .galign f => mgtKinds cls f && f.var = 0
  | .galignRelease _ => true
  | .galignBreak _ => true
  | .ltrig f => mgtKinds cls f && f.var = 0
  | .launch f => mgtKinds cls f && f.var = 0
  | .launchAcceptance _ => true
  | .launchComplete _ => true
  | .launchTriggerRelease _ => true
  | .phase f => mgtKinds cls f && f.var.toNat ≤ 4
  | .fenceRel f => mgtKinds cls f && f.var.toNat ≤ 4
  | .fenceAcq f => mgtKinds cls f && 8 ≤ f.var.toNat && f.var.toNat ≤ 12
  | .boundaryComplete _ => true
  | .efence f => mgtKinds cls f && f.var = 0
  | .sacq f => mgtKinds cls f && f.var.toNat ≤ 4 && f.idx.toNat ≤ 63 && f.pa = 0
  | .sacqTry f => mgtKinds cls f && f.var.toNat ≤ 4 && f.idx.toNat ≤ 63 && f.pa ≠ 0
  | .sacqM f => mgtKinds cls f && 8 ≤ f.var.toNat && f.var.toNat ≤ 12
  | .srel f => mgtKinds cls f && f.var.toNat ≤ 4 && f.idx.toNat ≤ 63
  | .srelM f => mgtKinds cls f && 8 ≤ f.var.toNat && f.var.toNat ≤ 12
  | .trap f => mgtKinds cls f && f.var = 0
  | .gdraw f => mgtKinds cls f && f.var &&& 4 = 0 && f.var &&& 3 ≠ 3
  | .lmix f => mgtKinds cls f && f.var = 0
  | .crc32c f => mgtKinds cls f && f.var.toNat ≤ 3
  | .emit f => mgtKinds cls f && f.var = 0 && f.idx.toNat ≤ 63
  | .jrnlSeq f => mgtKinds cls f && f.var = 0
  | .jrnlGen f => mgtKinds cls f && f.var = 1
  | .jrnlTok f => mgtKinds cls f && f.var = 2
  | .jrnlRt f => mgtKinds cls f && f.var = 3
  | .jrnlApp f => mgtKinds cls f && f.var = 4
  | .jrnlCkpt f => mgtKinds cls f && f.var = 5
  | .jrnlRep f => mgtKinds cls f && f.var = 6 && f.idx.toNat ≤ 63
  | .tlbinv f => mgtKinds cls f && f.var = 0
  | .tlbinvAll f => mgtKinds cls f && f.var = 1
  | .tlbinvComplete _ => true
  | .tlbsync f => mgtKinds cls f && f.var = 0
  | .qfence f => mgtKinds cls f && f.var = 0
  | .qfenceW f => mgtKinds cls f && f.var = 1
  | .ldGlobal f => memKinds cls f && f.var.toNat ≤ 1
  | .ldLocal f => memKinds cls f && f.var.toNat ≤ 1
  | .stGlobal f => memKinds cls f && f.var.toNat ≤ 1
  | .stLocal f => memKinds cls f && f.var.toNat ≤ 1
  | .stLocalS f => memKinds cls f && f.var.toNat ≤ 1
  | .globalAccessResponse _ => true
  | .aadd f => memKinds cls f && 2 ≤ f.size.toNat && f.var.toNat ≤ 3
  | .amin f => memKinds cls f && 2 ≤ f.size.toNat && f.var.toNat ≤ 7
  | .amax f => memKinds cls f && 2 ≤ f.size.toNat && f.var.toNat ≤ 7
  | .aswap f => memKinds cls f && 2 ≤ f.size.toNat && f.var.toNat ≤ 3
  | .acas f => memKinds cls f && 2 ≤ f.size.toNat && f.var.toNat ≤ 3
  | .aand f => memKinds cls f && 2 ≤ f.size.toNat && f.var.toNat ≤ 3
  | .aor f => memKinds cls f && 2 ≤ f.size.toNat && f.var.toNat ≤ 3
  | .ramo f => memKinds cls f && 2 ≤ f.size.toNat && f.var.toNat ≤ 3
  | .atomicResponse _ => true
  | .errorResponse _ => true
  | .ixeGather f => engKinds cls f && f.var &&& 7 = 0
  | .ixeScatter f => engKinds cls f && f.var &&& 7 = 1
  | .ixeDedup f => engKinds cls f && f.var &&& 7 = 2
  | .ixeBucket f => engKinds cls f && f.var &&& 7 = 3
  | .wlpush f => engKinds cls f && f.var = 0
  | .wlpop f => engKinds cls f && f.var = 0
  | .wldin f => engKinds cls f && f.var = 0
  | .pool f => engKinds cls f && f.var = 0
  | .supd f => engKinds cls f && f.var = 0
  | .nmc f => engKinds cls f && f.var &&& 7 = 0
  | .xchPool f => engKinds cls f && f.var = 0 && f.ep.toNat ≤ 1
  | .xchRed f => engKinds cls f && f.var = 1
  | .skq f => engKinds cls f && f.var = 0
  | .skqAdd f => engKinds cls f && f.var = 1
  | .hrchFill f => engKinds cls f && f.var = 0
  | .hrchEvict f => engKinds cls f && f.var = 1
  | .hrchFlush f => engKinds cls f && f.var = 2
  | .hrchPin f => engKinds cls f && f.var = 3
  | .hrchUnpin f => engKinds cls f && f.var = 4
  | .agset f => agnKinds cls f && f.var = 0
  | .vld f => movKinds cls f && f.var = 0 && f.n.toNat ≤ 16
  | .vldUb f => movKinds cls f && f.var = 0 && f.n.toNat ≤ 16
  | .cpyIn f => movKinds cls f && f.var = 0 && f.n.toNat ≤ 3
  | .cpyOut f => movKinds cls f && f.var = 1 && f.n.toNat ≤ 3
  | .cpyLl f => movKinds cls f && f.var = 2 && f.n.toNat ≤ 3
  | .copyCommand _ _ => true
  | .copyComplete _ _ => true
  | .plane f => movKinds cls f && f.var.toNat ≤ 12 && f.n.toNat ≤ 4095
  | .planeCommand _ => true
  | .planeComplete _ => true
  | .renew f => movKinds cls f && (f.var = 0 || f.var = 2)
  | .renewUnitCommand _ => true
  | .renewUnitComplete _ => true
  | .salloc f => movKinds cls f && f.var = 0 && f.n.toNat ≤ 3072
  | .sallocZ f => movKinds cls f && f.var = 1 && f.n.toNat ≤ 3072
  | .sfree f => movKinds cls f && f.var = 0
  | .sfreeDesc f => movKinds cls f && f.var = 2
  | .stash f => movKinds cls f && f.var = 0 && f.n.toNat ≤ 1024
  | .stashClose f => movKinds cls f && f.var = 1
  | .stashCloseComplete _ => true
  | .stashMissFill _ => true
  | .stashEntryExpire _ _ => true
  | .vadd f => vecKinds cls f && clusterOk f.var && ((vecFloat f.type && f.var &&& 3 = 0) || (vecInt f.type && (f.var &&& 2 = 0))) && true
  | .vsub f => vecKinds cls f && clusterOk f.var && ((vecFloat f.type && f.var &&& 3 = 0) || (vecInt f.type && (f.var &&& 2 = 0))) && true
  | .vmul f => vecKinds cls f && clusterOk f.var && ((vecFloat f.type && f.var &&& 3 = 0) || (vecInt f.type && (f.var &&& 2 = 0))) && true
  | .vfma f => vecKinds cls f && clusterOk f.var && ((vecFloat f.type && f.var &&& 3 = 0) || (vecInt f.type && (f.var &&& 2 = 0))) && true
  | .vfms f => vecKinds cls f && clusterOk f.var && ((vecFloat f.type && f.var &&& 3 = 0) || (vecInt f.type && (f.var &&& 2 = 0))) && true
  | .vmin f => vecKinds cls f && clusterOk f.var && (vecFloat f.type || vecInt f.type) && f.var &&& 2 = 0
  | .vmax f => vecKinds cls f && clusterOk f.var && (vecFloat f.type || vecInt f.type) && f.var &&& 2 = 0
  | .vabs f => vecKinds cls f && clusterOk f.var && ((vecFloat f.type && f.var &&& 3 = 0) || (vecInt f.type && (f.var &&& 2 = 0))) && true
  | .vneg f => vecKinds cls f && clusterOk f.var && ((vecFloat f.type && f.var &&& 3 = 0) || (vecInt f.type && (f.var &&& 2 = 0))) && true
  | .vcvt f => vecKinds cls f && clusterOk f.var && ((vecFloat f.type || vecInt f.type || vec8 f.type) && (vecFloat f.type2 || vecInt f.type2 || vec8 f.type2)) && (f.var &&& 3).toNat < cvtRatio f.type f.type2
  | .vexp2 f => vecKinds cls f && clusterOk f.var && (f.type = 0 || f.type = 1) && f.var &&& 3 = 0 && f.rnd = 0
  | .vlog2 f => vecKinds cls f && clusterOk f.var && (f.type = 0 || f.type = 1) && f.var &&& 3 = 0 && f.rnd = 0
  | .vrcp f => vecKinds cls f && clusterOk f.var && (f.type = 0 || f.type = 1) && f.var &&& 3 = 0 && f.rnd = 0
  | .vrsqrt f => vecKinds cls f && clusterOk f.var && (f.type = 0 || f.type = 1) && f.var &&& 3 = 0 && f.rnd = 0
  | .vdiv f => vecKinds cls f && clusterOk f.var && (vecFloat f.type) && f.var &&& 3 = 0
  | .vsqrt f => vecKinds cls f && clusterOk f.var && (vecFloat f.type) && f.var &&& 3 = 0
  | .vcmp f => vecKinds cls f && clusterOk f.var && (vecFloat f.type || vecInt f.type) && f.var &&& 2 = 0 && cmpImmOk f.type f.imm
  | .vsel f => vecKinds cls f && clusterOk f.var && (vecAny f.type) && f.var &&& 3 = 0
  | .vred f => vecKinds cls f && clusterOk f.var && (vecFloat f.type || vecInt f.type) && f.var &&& 3 ≠ 3 && f.imm.toNat ≤ vecCount f.type
  | .vtopk f => vecKinds cls f && clusterOk f.var && (f.type = 0 || f.type = 5) && f.var &&& 2 = 0 && (1 ≤ f.imm.toNat && f.imm.toNat ≤ 64)
  | .vbscmp f => vecKinds cls f && clusterOk f.var && (f.type = 10) && f.var &&& 2 = 0 && (2 ≤ f.imm.toNat && f.imm.toNat ≤ 8)
  | .vcrc f => vecKinds cls f && clusterOk f.var && (f.type = 9) && f.var &&& 3 ≠ 3
  | .vmix f => vecKinds cls f && clusterOk f.var && (f.type = 9) && f.var &&& 3 = 0
  | .vmixH f => vecKinds cls f && clusterOk f.var && (f.type = 9) && f.var &&& 3 = 1
  | .vxm f => vecKinds cls f && clusterOk f.var && (f.type = 9) && f.var &&& 3 = 0 && f.var &&& 8 = 0
  | .vperm f => vecKinds cls f && clusterOk f.var && (f.type = 9 || f.type = 10) && f.var &&& 3 = 0
  | .vperm2 f => vecKinds cls f && clusterOk f.var && (f.type = 9) && f.var &&& 3 = 1
  | .vbcast f => vecKinds cls f && clusterOk f.var && (vecAny f.type) && f.var &&& 3 = 0 && f.imm.toNat < vecCount f.type
  | .vand f => vecKinds cls f && clusterOk f.var && (f.type = 9) && f.var &&& 3 = 0
  | .vor f => vecKinds cls f && clusterOk f.var && (f.type = 9) && f.var &&& 3 = 0
  | .vxor f => vecKinds cls f && clusterOk f.var && (f.type = 9) && f.var &&& 3 = 0
  | .vshl f => vecKinds cls f && clusterOk f.var && (vecInt f.type) && f.var &&& 3 = 0
  | .vshr f => vecKinds cls f && clusterOk f.var && (vecInt f.type) && f.var &&& 3 = 0
  | .vsra f => vecKinds cls f && clusterOk f.var && (vecInt f.type) && f.var &&& 3 = 0
  | .vmov f => vecKinds cls f && clusterOk f.var && (f.type = 9) && f.var &&& 3 = 0
  | .vst f => stoKinds cls f && f.var = 0 && 6 ≤ f.port.toNat
  | .resultDue _ => true
  | .waitingGroupIssue _ _ => true
  | .lease f => mtxKinds cls f && f.var = 0 && 1 ≤ f.n.toNat && f.n.toNat ≤ 256
  | .unlease f => mtxKinds cls f && f.var = 0
  | .leaseGrant _ => true
  | .mma f => mtxKinds cls f && f.var = 0 && precOk f && f.place = 0 && f.sp ≠ 3
  | .mmaAtBank f => mtxKinds cls f && f.var = 0 && precOk f && f.place = 1 && f.sp ≠ 3
  | .mmac f => mtxKinds cls f && f.var = 0 && precOk f && f.place.toNat ≤ 1 && f.sp ≠ 3
  | .mmas f => mtxKinds cls f && f.var = 0 && precOk f && f.place.toNat ≤ 1 && f.sp ≠ 3
  | .amz f => mtxKinds cls f && f.var = 0
  | .ald f => mtxKinds cls f && f.var.toNat ≤ 3
  | .aret f => mtxKinds cls f && (f.var &&& 7).toNat ≤ 5
  | .aretW f => stoKinds cls f && f.var = 0 && f.n.toNat ≤ 15
  | .arrayCommandBegin _ => true
  | .arrayCommandEnd _ => true
  | .atBankCommand _ => true
  | .tileSave _ _ => true
  | .tileRestore _ _ => true
  | .arrayReplay _ _ _ => true
  | .qpush f => stoKinds cls f && f.var = 0 && f.n.toNat ≤ 16
  | .queuePortWrite _ => true
  | .frontEndTake _ => true
  | .packetComplete _ => true
  | .nullPacket _ => true
  | .signalPacket _ => true
  | .joinPacket _ => true
  | .copyPacket _ => true
  | .jobCardCommit _ => true
  | .indexGather _ => true
  | .indexScatter _ => true
  | .indexDedup _ => true
  | .indexBucket _ => true
  | .worklistPush _ => true
  | .worklistPop _ => true
  | .worklistDedupPush _ => true
  | .sketchQuery _ => true
  | .sketchQueryAdd _ => true
  | .sketchDecay _ => true
  | .hotrowFill _ => true
  | .hotrowEvict _ => true
  | .hotrowFlush _ => true
  | .hotrowPin _ => true
  | .hotrowUnpin _ => true
  | .frameFill _ => true
  | .frameWriteBack _ _ => true
  | .poolCard _ => true
  | .poolingRowService _ => true
  | .supdSgd _ => true
  | .supdMomentum _ => true
  | .supdAdagrad _ => true
  | .supdAdam _ => true
  | .supdInstalled _ => true
  | .nearBankMatvec _ => true
  | .nearBankColsum _ => true
  | .nearBankFill _ => true
  | .nearBankStripe _ => true
  | .nearBankMicroprogram _ => true
  | .nearBankDispatch _ => true
  | .exchangePool _ => true
  | .exchangeReduce _ => true
  | .collectiveTimeout _ => true
  | .journalAppendPacket _ => true
  | .journalRecordReceive _ _ => true
  | .journalAckReceive _ => true
  | .emissionPerform _ => true
  | .partnerLost => true
  | .partnerReassign _ => true
  | .replicaDigestArrival _ _ _ => true
  | .replicaResolution _ _ _ _ _ => true
  | .replayStoreInstall _ _ => true
  | .scanFailureReplay _ _ _ _ => true
  | .jctlWrite _ _ => true
  | .segmentEnd _ => true
  | .overrunUntimed _ => true
  | .overrunTimed _ => true
  | .dispatch _ => true
  | .dispatchLeaseGrant _ => true
  | .gangEntry _ _ => true
  | .switch _ => true
  | .semaphoreImageRelease _ _ _ => true
  | .rowLoad _ _ => true
  | .ttctlWrite _ _ => true
  | .bindRecordWrite _ _ _ _ => true
  | .leaseTableWrite _ _ _ => true
  | .slabcmdRenew _ _ => true
  | .slabcmdFree _ _ => true
  | .slabcmdClaim _ _ => true
  | .tlbcmdPage _ _ => true
  | .tlbcmdContext _ _ => true
  | .queueTableAttach _ _ _ => true
  | .queueTailWrite _ _ _ => true
  | .queueRestart _ => true
  | .registerWrite _ _ _ => true
  | .trapStop _ => true
  | .trapRecordEnqueue _ => true
  | .resume _ _ => true
  | .contextRemoval _ => true
  | .removalStep _ => true
  | .removalBoundExpire _ => true
  | .pageWalkComplete _ => true
  | .prefetchWalk _ _ => true
  | .faultRefusalRetry _ => true
  | .groupFreeze _ => true
  | .groupThaw _ => true
  | .faultRetryWrite _ _ => true
  | .faultDeliverWrite _ _ => true
  | .pageMigration _ _ _ => true
  | .sweepRingRenew _ _ => true
  | .sweepStashWriteback _ _ => true
  | .sweepFrozenSlabRenew _ _ => true
  | .sweepFrozenTileRenew _ _ => true
  | .sweepMarkLost _ _ => true
  | .sweepTileSave _ _ => true
  | .rotationScanSlot _ _ => true
  | .unitReturnToService _ => true
  | .controlStoreLoad _ _ => true
  | .domainReadRequest _ => true
  | .domainWriteRequest _ _ => true
  | .domainAtomicRequest _ => true
  | .domainSkip _ => true
  | .domainReadResponse _ _ => true
  | .domainWriteAck _ => true
  | .domainAtomicResponse _ => true
  | .domainResendTimeout _ _ => true
  | .groupFormation _ _ => true
  | .linkRetrain _ => true
  | .groupLeave _ _ => true
  | .mLevelStart _ => true
  | .d2dUncorrectableError _ => true
  | .wholeMemoryCheckpoint => true
  | .wholeMemoryRestore _ => true
  | .hostWrite _ _ _ _ => true
  | .hostAtomicOp _ _ _ _ _ _ _ => true
  | .doorbellWrite _ _ _ _ => true
  | .mailboxTakeover _ _ => true
  | .mailboxRecordWrite _ _ _ => true
  | .attestationQuote _ => true
  | .functionLevelReset _ _ => true
  | .moduleReset => true
  | .bootRecordAccept _ => true
  | .firmwareTraining => true
  | .bootStoreLoad => true
  | .bootScan => true
  | .thermalShutdown _ => true
  | .trapQueueTake _ => true
  | .domainMembershipChange _ _ => true
  | .hostLinkDown _ => true
  | .thermalShutdownExit => true
  | .domainAtomicRateRelease _ => true

/-- The classes whose sequencers execute the instruction (Table 2-21); a step that no template
encodes belongs to none. -/
def classOk (cls : Seq) (i : Instr) : Bool :=
  match i with
  | .and _ => cls == .k
  | .andImm _ => cls == .k
  | .or _ => cls == .k
  | .orImm _ => cls == .k
  | .xor _ => cls == .k
  | .xorImm _ => cls == .k
  | .shl _ => cls == .k
  | .shlImm _ => cls == .k
  | .shr _ => cls == .k
  | .shrImm _ => cls == .k
  | .sra _ => cls == .k
  | .sraImm _ => cls == .k
  | .mul _ => cls == .k
  | .mulImm _ => cls == .k
  | .mulhs _ => cls == .k
  | .mulhu _ => cls == .k
  | .min _ => cls == .k
  | .max _ => cls == .k
  | .lui _ => cls == .k
  | .sel _ => cls == .k
  | .li _ => true
  | .mov _ => true
  | .add _ => true
  | .addImm _ => true
  | .sub _ => true
  | .subImm _ => true
  | .cmp _ => true
  | .cmpImm _ => true
  | .br _ => true
  | .jmp _ => true
  | .call _ => cls == .k
  | .ret _ => cls == .k
  | .entry _ => cls == .k
  | .loop _ => true
  | .lbr _ => true
  | .tkput _ => true
  | .tkget _ => true
  | .tkgetTry _ => true
  | .halt _ => true
  | .macroCall _ _ _ _ _ _ => false
  | .tset _ => cls == .k
  | .tld _ => cls == .k
  | .tldSlotWrite _ => false
  | .mdef _ => cls == .k
  | .mdefBodyCheck _ => false
  | .mfs _ => cls == .k
  | .mts _ => cls == .k
  | .mtsFclr _ => cls == .k
  | .mtsTkmap _ => cls == .k
  | .xset _ => cls == .k
  | .align _ => cls == .k
  | .galign _ => cls == .k
  | .galignRelease _ => false
  | .galignBreak _ => false
  | .ltrig _ => cls == .k
  | .launch _ => cls == .k
  | .launchAcceptance _ => false
  | .launchComplete _ => false
  | .launchTriggerRelease _ => false
  | .phase _ => cls == .k
  | .fenceRel _ => cls == .k
  | .fenceAcq _ => cls == .k
  | .boundaryComplete _ => false
  | .efence _ => cls == .k
  | .sacq _ => cls == .k
  | .sacqTry _ => cls == .k
  | .sacqM _ => cls == .k
  | .srel _ => cls == .k
  | .srelM _ => cls == .k
  | .trap _ => cls == .k
  | .gdraw _ => cls == .k
  | .lmix _ => cls == .k
  | .crc32c _ => cls == .k
  | .emit _ => cls == .k
  | .jrnlSeq _ => cls == .k
  | .jrnlGen _ => cls == .k
  | .jrnlTok _ => cls == .k
  | .jrnlRt _ => cls == .k
  | .jrnlApp _ => cls == .k
  | .jrnlCkpt _ => cls == .k
  | .jrnlRep _ => cls == .k
  | .tlbinv _ => cls == .k
  | .tlbinvAll _ => cls == .k
  | .tlbinvComplete _ => false
  | .tlbsync _ => cls == .k
  | .qfence _ => cls == .k
  | .qfenceW _ => cls == .k
  | .ldGlobal _ => cls == .k
  | .ldLocal _ => cls == .k
  | .stGlobal _ => cls == .k
  | .stLocal _ => cls == .k
  | .stLocalS _ => cls == .s
  | .globalAccessResponse _ => false
  | .aadd _ => cls == .k
  | .amin _ => cls == .k
  | .amax _ => cls == .k
  | .aswap _ => cls == .k
  | .acas _ => cls == .k
  | .aand _ => cls == .k
  | .aor _ => cls == .k
  | .ramo _ => cls == .k
  | .atomicResponse _ => false
  | .errorResponse _ => false
  | .ixeGather _ => cls == .k
  | .ixeScatter _ => cls == .k
  | .ixeDedup _ => cls == .k
  | .ixeBucket _ => cls == .k
  | .wlpush _ => cls == .k
  | .wlpop _ => cls == .k
  | .wldin _ => cls == .k
  | .pool _ => cls == .k
  | .supd _ => cls == .k
  | .nmc _ => cls == .k
  | .xchPool _ => cls == .k
  | .xchRed _ => cls == .k
  | .skq _ => cls == .k
  | .skqAdd _ => cls == .k
  | .hrchFill _ => cls == .k
  | .hrchEvict _ => cls == .k
  | .hrchFlush _ => cls == .k
  | .hrchPin _ => cls == .k
  | .hrchUnpin _ => cls == .k
  | .agset _ => cls == .l
  | .vld _ => cls == .l
  | .vldUb _ => cls == .l
  | .cpyIn _ => cls == .l
  | .cpyOut _ => cls == .l
  | .cpyLl _ => cls == .l
  | .copyCommand _ _ => false
  | .copyComplete _ _ => false
  | .plane _ => cls == .l
  | .planeCommand _ => false
  | .planeComplete _ => false
  | .renew _ => cls == .l
  | .renewUnitCommand _ => false
  | .renewUnitComplete _ => false
  | .salloc _ => cls == .l
  | .sallocZ _ => cls == .l
  | .sfree _ => cls == .l
  | .sfreeDesc _ => cls == .l
  | .stash _ => cls == .l
  | .stashClose _ => cls == .l
  | .stashCloseComplete _ => false
  | .stashMissFill _ => false
  | .stashEntryExpire _ _ => false
  | .vadd _ => cls == .c
  | .vsub _ => cls == .c
  | .vmul _ => cls == .c
  | .vfma _ => cls == .c
  | .vfms _ => cls == .c
  | .vmin _ => cls == .c
  | .vmax _ => cls == .c
  | .vabs _ => cls == .c
  | .vneg _ => cls == .c
  | .vcvt _ => cls == .c
  | .vexp2 _ => cls == .c
  | .vlog2 _ => cls == .c
  | .vrcp _ => cls == .c
  | .vrsqrt _ => cls == .c
  | .vdiv _ => cls == .c
  | .vsqrt _ => cls == .c
  | .vcmp _ => cls == .c
  | .vsel _ => cls == .c
  | .vred _ => cls == .c
  | .vtopk _ => cls == .c
  | .vbscmp _ => cls == .c
  | .vcrc _ => cls == .c
  | .vmix _ => cls == .c
  | .vmixH _ => cls == .c
  | .vxm _ => cls == .c
  | .vperm _ => cls == .c
  | .vperm2 _ => cls == .c
  | .vbcast _ => cls == .c
  | .vand _ => cls == .c
  | .vor _ => cls == .c
  | .vxor _ => cls == .c
  | .vshl _ => cls == .c
  | .vshr _ => cls == .c
  | .vsra _ => cls == .c
  | .vmov _ => cls == .c
  | .vst _ => cls == .s
  | .resultDue _ => false
  | .waitingGroupIssue _ _ => false
  | .lease _ => cls == .c
  | .unlease _ => cls == .c
  | .leaseGrant _ => false
  | .mma _ => cls == .c
  | .mmaAtBank _ => cls == .c
  | .mmac _ => cls == .c
  | .mmas _ => cls == .c
  | .amz _ => cls == .c
  | .ald _ => cls == .c
  | .aret _ => cls == .c
  | .aretW _ => cls == .s
  | .arrayCommandBegin _ => false
  | .arrayCommandEnd _ => false
  | .atBankCommand _ => false
  | .tileSave _ _ => false
  | .tileRestore _ _ => false
  | .arrayReplay _ _ _ => false
  | .qpush _ => cls == .s
  | .queuePortWrite _ => false
  | .frontEndTake _ => false
  | .packetComplete _ => false
  | .nullPacket _ => false
  | .signalPacket _ => false
  | .joinPacket _ => false
  | .copyPacket _ => false
  | .jobCardCommit _ => false
  | .indexGather _ => false
  | .indexScatter _ => false
  | .indexDedup _ => false
  | .indexBucket _ => false
  | .worklistPush _ => false
  | .worklistPop _ => false
  | .worklistDedupPush _ => false
  | .sketchQuery _ => false
  | .sketchQueryAdd _ => false
  | .sketchDecay _ => false
  | .hotrowFill _ => false
  | .hotrowEvict _ => false
  | .hotrowFlush _ => false
  | .hotrowPin _ => false
  | .hotrowUnpin _ => false
  | .frameFill _ => false
  | .frameWriteBack _ _ => false
  | .poolCard _ => false
  | .poolingRowService _ => false
  | .supdSgd _ => false
  | .supdMomentum _ => false
  | .supdAdagrad _ => false
  | .supdAdam _ => false
  | .supdInstalled _ => false
  | .nearBankMatvec _ => false
  | .nearBankColsum _ => false
  | .nearBankFill _ => false
  | .nearBankStripe _ => false
  | .nearBankMicroprogram _ => false
  | .nearBankDispatch _ => false
  | .exchangePool _ => false
  | .exchangeReduce _ => false
  | .collectiveTimeout _ => false
  | .journalAppendPacket _ => false
  | .journalRecordReceive _ _ => false
  | .journalAckReceive _ => false
  | .emissionPerform _ => false
  | .partnerLost => false
  | .partnerReassign _ => false
  | .replicaDigestArrival _ _ _ => false
  | .replicaResolution _ _ _ _ _ => false
  | .replayStoreInstall _ _ => false
  | .scanFailureReplay _ _ _ _ => false
  | .jctlWrite _ _ => false
  | .segmentEnd _ => false
  | .overrunUntimed _ => false
  | .overrunTimed _ => false
  | .dispatch _ => false
  | .dispatchLeaseGrant _ => false
  | .gangEntry _ _ => false
  | .switch _ => false
  | .semaphoreImageRelease _ _ _ => false
  | .rowLoad _ _ => false
  | .ttctlWrite _ _ => false
  | .bindRecordWrite _ _ _ _ => false
  | .leaseTableWrite _ _ _ => false
  | .slabcmdRenew _ _ => false
  | .slabcmdFree _ _ => false
  | .slabcmdClaim _ _ => false
  | .tlbcmdPage _ _ => false
  | .tlbcmdContext _ _ => false
  | .queueTableAttach _ _ _ => false
  | .queueTailWrite _ _ _ => false
  | .queueRestart _ => false
  | .registerWrite _ _ _ => false
  | .trapStop _ => false
  | .trapRecordEnqueue _ => false
  | .resume _ _ => false
  | .contextRemoval _ => false
  | .removalStep _ => false
  | .removalBoundExpire _ => false
  | .pageWalkComplete _ => false
  | .prefetchWalk _ _ => false
  | .faultRefusalRetry _ => false
  | .groupFreeze _ => false
  | .groupThaw _ => false
  | .faultRetryWrite _ _ => false
  | .faultDeliverWrite _ _ => false
  | .pageMigration _ _ _ => false
  | .sweepRingRenew _ _ => false
  | .sweepStashWriteback _ _ => false
  | .sweepFrozenSlabRenew _ _ => false
  | .sweepFrozenTileRenew _ _ => false
  | .sweepMarkLost _ _ => false
  | .sweepTileSave _ _ => false
  | .rotationScanSlot _ _ => false
  | .unitReturnToService _ => false
  | .controlStoreLoad _ _ => false
  | .domainReadRequest _ => false
  | .domainWriteRequest _ _ => false
  | .domainAtomicRequest _ => false
  | .domainSkip _ => false
  | .domainReadResponse _ _ => false
  | .domainWriteAck _ => false
  | .domainAtomicResponse _ => false
  | .domainResendTimeout _ _ => false
  | .groupFormation _ _ => false
  | .linkRetrain _ => false
  | .groupLeave _ _ => false
  | .mLevelStart _ => false
  | .d2dUncorrectableError _ => false
  | .wholeMemoryCheckpoint => false
  | .wholeMemoryRestore _ => false
  | .hostWrite _ _ _ _ => false
  | .hostAtomicOp _ _ _ _ _ _ _ => false
  | .doorbellWrite _ _ _ _ => false
  | .mailboxTakeover _ _ => false
  | .mailboxRecordWrite _ _ _ => false
  | .attestationQuote _ => false
  | .functionLevelReset _ _ => false
  | .moduleReset => false
  | .bootRecordAccept _ => false
  | .firmwareTraining => false
  | .bootStoreLoad => false
  | .bootScan => false
  | .thermalShutdown _ => false
  | .trapQueueTake _ => false
  | .domainMembershipChange _ _ => false
  | .hostLinkDown _ => false
  | .thermalShutdownExit => false
  | .domainAtomicRateRelease _ => false

/-- A well-formed instruction of a class: the class executes it and its fields pass R40. -/
def wellFormed (cls : Seq) (i : Instr) : Bool := classOk cls i && fieldsOk cls i

end Sys2Proof
end

