-- ==== Sys2Proof/Decode.lean ====
section
/-! DEFINITION. From bits to instructions and back: templates (R36 to R39), patch words (R25) and the
fields a patch word names (R26 to R28). -/
namespace Sys2Proof

/-- Why a template is rejected, in the order of Table 2-22. -/
inductive Reject where
  | wrongClass | reservedOpcode | headerRsv | formatRsv | fieldValue
  deriving DecidableEq, Repr

/-- The slot reason code of Table 2-22. -/
def Reject.code : Reject → BitVec 4
  | .wrongClass => 2
  | .reservedOpcode => 3
  | .headerRsv => 4
  | .formatRsv => 5
  | .fieldValue => 6

/-- The ten formats (R38). -/
inductive Fmt where
  | reg | ctl | mgt | mem | eng | agn | mov | vec | mtx | sto
  deriving DecidableEq, Repr

/-- The bits of a format that hold fields, from bit 0; the rest of [103:0] is rsv (R38). -/
def fmtWidth (m : Fmt) : Nat :=
  match m with
  | .reg => 59
  | .ctl => 71
  | .mgt => 60
  | .mem => 62
  | .eng => 66
  | .agn => 45
  | .mov => 90
  | .vec => 62
  | .mtx => 101
  | .sto => 51

/-- Field F of a format: lowest bit, width, and whether it is signed (Tables 2-11 to 2-20). -/
def fmtField (m : Fmt) (n : Nat) : Option (Nat × Nat × Bool) :=
  match m, n with
  | .reg, 1 => some (0, 5, false)
  | .reg, 2 => some (5, 5, false)
  | .reg, 3 => some (10, 5, false)
  | .reg, 4 => some (15, 32, true)
  | .reg, 5 => some (47, 4, false)
  | .reg, 6 => some (51, 4, false)
  | .reg, 7 => some (55, 4, false)
  | .ctl, 1 => some (0, 24, true)
  | .ctl, 2 => some (24, 5, false)
  | .ctl, 3 => some (29, 32, false)
  | .ctl, 4 => some (61, 2, false)
  | .ctl, 5 => some (63, 4, false)
  | .ctl, 6 => some (67, 4, false)
  | .mgt, 1 => some (0, 5, false)
  | .mgt, 2 => some (5, 5, false)
  | .mgt, 3 => some (10, 5, false)
  | .mgt, 4 => some (15, 5, false)
  | .mgt, 5 => some (20, 2, false)
  | .mgt, 6 => some (22, 6, false)
  | .mgt, 7 => some (28, 8, false)
  | .mgt, 8 => some (36, 16, false)
  | .mgt, 9 => some (52, 4, false)
  | .mgt, 10 => some (56, 4, false)
  | .mem, 1 => some (0, 5, false)
  | .mem, 2 => some (5, 5, false)
  | .mem, 3 => some (10, 5, false)
  | .mem, 4 => some (15, 32, true)
  | .mem, 5 => some (47, 2, false)
  | .mem, 6 => some (49, 1, false)
  | .mem, 7 => some (50, 3, false)
  | .mem, 8 => some (53, 5, false)
  | .mem, 9 => some (58, 4, false)
  | .eng, 1 => some (0, 5, false)
  | .eng, 2 => some (5, 5, false)
  | .eng, 3 => some (10, 5, false)
  | .eng, 4 => some (15, 5, false)
  | .eng, 5 => some (20, 6, false)
  | .eng, 6 => some (26, 4, false)
  | .eng, 7 => some (30, 8, false)
  | .eng, 8 => some (38, 24, false)
  | .eng, 9 => some (62, 4, false)
  | .agn, 1 => some (0, 3, false)
  | .agn, 2 => some (3, 23, false)
  | .agn, 3 => some (26, 2, false)
  | .agn, 4 => some (28, 5, false)
  | .agn, 5 => some (33, 5, false)
  | .agn, 6 => some (38, 3, false)
  | .agn, 7 => some (41, 4, false)
  | .mov, 1 => some (0, 23, false)
  | .mov, 2 => some (23, 5, false)
  | .mov, 3 => some (28, 5, false)
  | .mov, 4 => some (33, 16, false)
  | .mov, 5 => some (49, 3, false)
  | .mov, 6 => some (52, 4, false)
  | .mov, 7 => some (56, 6, false)
  | .mov, 8 => some (62, 24, false)
  | .mov, 9 => some (86, 4, false)
  | .vec, 1 => some (0, 7, false)
  | .vec, 2 => some (7, 7, false)
  | .vec, 3 => some (14, 7, false)
  | .vec, 4 => some (21, 7, false)
  | .vec, 5 => some (28, 4, false)
  | .vec, 6 => some (32, 4, false)
  | .vec, 7 => some (36, 2, false)
  | .vec, 8 => some (38, 4, false)
  | .vec, 9 => some (42, 16, false)
  | .vec, 10 => some (58, 4, false)
  | .mtx, 1 => some (0, 4, false)
  | .mtx, 2 => some (4, 23, false)
  | .mtx, 3 => some (27, 23, false)
  | .mtx, 4 => some (50, 12, false)
  | .mtx, 5 => some (62, 4, false)
  | .mtx, 6 => some (66, 4, false)
  | .mtx, 7 => some (70, 5, false)
  | .mtx, 8 => some (75, 3, false)
  | .mtx, 9 => some (78, 5, false)
  | .mtx, 10 => some (83, 2, false)
  | .mtx, 11 => some (85, 2, false)
  | .mtx, 12 => some (87, 1, false)
  | .mtx, 13 => some (88, 9, false)
  | .mtx, 14 => some (97, 4, false)
  | .sto, 1 => some (0, 3, false)
  | .sto, 2 => some (3, 23, false)
  | .sto, 3 => some (26, 5, false)
  | .sto, 4 => some (31, 8, false)
  | .sto, 5 => some (39, 4, false)
  | .sto, 6 => some (43, 4, false)
  | .sto, 7 => some (47, 4, false)
  | _, _ => none

/-- The REG fields of a template (Table 2-11). -/
def parseReg (b : Template) : RegF :=
  { d := b.extractLsb' 0 5,
    a := b.extractLsb' 5 5,
    b := b.extractLsb' 10 5,
    imm := b.extractLsb' 15 32,
    var := b.extractLsb' 47 4,
    pa := b.extractLsb' 51 4,
    pb := b.extractLsb' 55 4 }

/-- The REG fields packed from bit 0 up (Table 2-11). -/
def packReg (f : RegF) : BitVec 59 :=
  f.pb ++ f.pa ++ f.var ++ f.imm ++ f.b ++ f.a ++ f.d

/-- The CTL fields of a template (Table 2-12). -/
def parseCtl (b : Template) : CtlF :=
  { off := b.extractLsb' 0 24,
    a := b.extractLsb' 24 5,
    cnt := b.extractLsb' 29 32,
    frame := b.extractLsb' 61 2,
    var := b.extractLsb' 63 4,
    pa := b.extractLsb' 67 4 }

/-- The CTL fields packed from bit 0 up (Table 2-12). -/
def packCtl (f : CtlF) : BitVec 71 :=
  f.pa ++ f.var ++ f.frame ++ f.cnt ++ f.a ++ f.off

/-- The MGT fields of a template (Table 2-13). -/
def parseMgt (b : Template) : MgtF :=
  { d := b.extractLsb' 0 5,
    a := b.extractLsb' 5 5,
    b := b.extractLsb' 10 5,
    c := b.extractLsb' 15 5,
    seq := b.extractLsb' 20 2,
    slot := b.extractLsb' 22 6,
    idx := b.extractLsb' 28 8,
    n := b.extractLsb' 36 16,
    var := b.extractLsb' 52 4,
    pa := b.extractLsb' 56 4 }

/-- The MGT fields packed from bit 0 up (Table 2-13). -/
def packMgt (f : MgtF) : BitVec 60 :=
  f.pa ++ f.var ++ f.n ++ f.idx ++ f.slot ++ f.seq ++ f.c ++ f.b ++ f.a ++ f.d

/-- The MEM fields of a template (Table 2-14). -/
def parseMem (b : Template) : MemF :=
  { d := b.extractLsb' 0 5,
    base := b.extractLsb' 5 5,
    val := b.extractLsb' 10 5,
    disp := b.extractLsb' 15 32,
    size := b.extractLsb' 47 2,
    sx := b.extractLsb' 49 1,
    scope := b.extractLsb' 50 3,
    cv := b.extractLsb' 53 5,
    var := b.extractLsb' 58 4 }

/-- The MEM fields packed from bit 0 up (Table 2-14). -/
def packMem (f : MemF) : BitVec 62 :=
  f.var ++ f.cv ++ f.scope ++ f.sx ++ f.size ++ f.disp ++ f.val ++ f.base ++ f.d

/-- The ENG fields of a template (Table 2-15). -/
def parseEng (b : Template) : EngF :=
  { a := b.extractLsb' 0 5,
    b := b.extractLsb' 5 5,
    c := b.extractLsb' 10 5,
    d := b.extractLsb' 15 5,
    sem := b.extractLsb' 20 6,
    q := b.extractLsb' 26 4,
    ep := b.extractLsb' 30 8,
    start := b.extractLsb' 38 24,
    var := b.extractLsb' 62 4 }

/-- The ENG fields packed from bit 0 up (Table 2-15). -/
def packEng (f : EngF) : BitVec 66 :=
  f.var ++ f.start ++ f.ep ++ f.q ++ f.sem ++ f.d ++ f.c ++ f.b ++ f.a

/-- The AGN fields of a template (Table 2-16). -/
def parseAgn (b : Template) : AgnF :=
  { ag := b.extractLsb' 0 3,
    base := b.extractLsb' 3 23,
    lv := b.extractLsb' 26 2,
    cr := b.extractLsb' 28 5,
    sr := b.extractLsb' 33 5,
    port := b.extractLsb' 38 3,
    var := b.extractLsb' 41 4 }

/-- The AGN fields packed from bit 0 up (Table 2-16). -/
def packAgn (f : AgnF) : BitVec 45 :=
  f.var ++ f.port ++ f.sr ++ f.cr ++ f.lv ++ f.base ++ f.ag

/-- The MOV fields of a template (Table 2-17). -/
def parseMov (b : Template) : MovF :=
  { la := b.extractLsb' 0 23,
    a := b.extractLsb' 23 5,
    b := b.extractLsb' 28 5,
    n := b.extractLsb' 33 16,
    ag := b.extractLsb' 49 3,
    type := b.extractLsb' 52 4,
    sem := b.extractLsb' 56 6,
    start := b.extractLsb' 62 24,
    var := b.extractLsb' 86 4 }

/-- The MOV fields packed from bit 0 up (Table 2-17). -/
def packMov (f : MovF) : BitVec 90 :=
  f.var ++ f.start ++ f.sem ++ f.type ++ f.ag ++ f.n ++ f.b ++ f.a ++ f.la

/-- The VEC fields of a template (Table 2-18). -/
def parseVec (b : Template) : VecF :=
  { d := b.extractLsb' 0 7,
    a := b.extractLsb' 7 7,
    b := b.extractLsb' 14 7,
    c := b.extractLsb' 21 7,
    type := b.extractLsb' 28 4,
    type2 := b.extractLsb' 32 4,
    rnd := b.extractLsb' 36 2,
    p := b.extractLsb' 38 4,
    imm := b.extractLsb' 42 16,
    var := b.extractLsb' 58 4 }

/-- The VEC fields packed from bit 0 up (Table 2-18). -/
def packVec (f : VecF) : BitVec 62 :=
  f.var ++ f.imm ++ f.p ++ f.rnd ++ f.type2 ++ f.type ++ f.c ++ f.b ++ f.a ++ f.d

/-- The MTX fields of a template (Table 2-19). -/
def parseMtx (b : Template) : MtxF :=
  { tile := b.extractLsb' 0 4,
    a := b.extractLsb' 4 23,
    b := b.extractLsb' 27 23,
    kg := b.extractLsb' 50 12,
    fa := b.extractLsb' 62 4,
    fb := b.extractLsb' 66 4,
    prec := b.extractLsb' 70 5,
    zfh := b.extractLsb' 75 3,
    gam := b.extractLsb' 78 5,
    place := b.extractLsb' 83 2,
    sp := b.extractLsb' 85 2,
    isat := b.extractLsb' 87 1,
    n := b.extractLsb' 88 9,
    var := b.extractLsb' 97 4 }

/-- The MTX fields packed from bit 0 up (Table 2-19). -/
def packMtx (f : MtxF) : BitVec 101 :=
  f.var ++ f.n ++ f.isat ++ f.sp ++ f.place ++ f.gam ++ f.zfh ++ f.prec ++ f.fb ++ f.fa ++ f.kg ++ f.b ++ f.a ++ f.tile

/-- The STO fields of a template (Table 2-20). -/
def parseSto (b : Template) : StoF :=
  { port := b.extractLsb' 0 3,
    la := b.extractLsb' 3 23,
    a := b.extractLsb' 26 5,
    n := b.extractLsb' 31 8,
    type := b.extractLsb' 39 4,
    q := b.extractLsb' 43 4,
    var := b.extractLsb' 47 4 }

/-- The STO fields packed from bit 0 up (Table 2-20). -/
def packSto (f : StoF) : BitVec 51 :=
  f.var ++ f.q ++ f.type ++ f.n ++ f.a ++ f.la ++ f.port

/-- The variants of one opcode told apart by their fields (mts). -/
def pickMts (f : MgtF) : Instr :=
  if f.idx = 0x2A then .mtsFclr f
  else if f.idx = 0x28 then .mtsTkmap f
  else .mts f

/-- The variants of one opcode told apart by their fields (fence). -/
def pickFence (f : MgtF) : Instr :=
  if f.var.msb then .fenceAcq f
  else .fenceRel f

/-- The variants of one opcode told apart by their fields (sacq). -/
def pickSacq (f : MgtF) : Instr :=
  if f.var.msb then .sacqM f
  else if f.pa ≠ 0 then .sacqTry f
  else .sacq f

/-- The variants of one opcode told apart by their fields (srel). -/
def pickSrel (f : MgtF) : Instr :=
  if f.var.msb then .srelM f
  else .srel f

/-- The variants of one opcode told apart by their fields (jrnl). -/
def pickJrnl (f : MgtF) : Instr :=
  if f.var = 1 then .jrnlGen f
  else if f.var = 2 then .jrnlTok f
  else if f.var = 3 then .jrnlRt f
  else if f.var = 4 then .jrnlApp f
  else if f.var = 5 then .jrnlCkpt f
  else if f.var = 6 then .jrnlRep f
  else .jrnlSeq f

/-- The variants of one opcode told apart by their fields (tlbinv). -/
def pickTlbinv (f : MgtF) : Instr :=
  if f.var = 1 then .tlbinvAll f
  else .tlbinv f

/-- The variants of one opcode told apart by their fields (qfence). -/
def pickQfence (f : MgtF) : Instr :=
  if f.var = 1 then .qfenceW f
  else .qfence f

/-- The variants of one opcode told apart by their fields (tkget). -/
def pickTkget (f : MgtF) : Instr :=
  if f.var = 1 then .tkgetTry f
  else .tkget f

/-- The variants of one opcode told apart by their fields (ixe). -/
def pickIxe (f : EngF) : Instr :=
  if f.var &&& 7 = 1 then .ixeScatter f
  else if f.var &&& 7 = 2 then .ixeDedup f
  else if f.var &&& 7 = 3 then .ixeBucket f
  else .ixeGather f

/-- The variants of one opcode told apart by their fields (xch). -/
def pickXch (f : EngF) : Instr :=
  if f.var = 1 then .xchRed f
  else .xchPool f

/-- The variants of one opcode told apart by their fields (skq). -/
def pickSkq (f : EngF) : Instr :=
  if f.var = 1 then .skqAdd f
  else .skq f

/-- The variants of one opcode told apart by their fields (hrch). -/
def pickHrch (f : EngF) : Instr :=
  if f.var = 1 then .hrchEvict f
  else if f.var = 2 then .hrchFlush f
  else if f.var = 3 then .hrchPin f
  else if f.var = 4 then .hrchUnpin f
  else .hrchFill f

/-- The variants of one opcode told apart by their fields (cpy). -/
def pickCpy (f : MovF) : Instr :=
  if f.var = 1 then .cpyOut f
  else if f.var = 2 then .cpyLl f
  else .cpyIn f

/-- The variants of one opcode told apart by their fields (salloc). -/
def pickSalloc (f : MovF) : Instr :=
  if f.var = 1 then .sallocZ f
  else .salloc f

/-- The variants of one opcode told apart by their fields (sfree). -/
def pickSfree (f : MovF) : Instr :=
  if f.var = 2 then .sfreeDesc f
  else .sfree f

/-- The variants of one opcode told apart by their fields (stash). -/
def pickStash (f : MovF) : Instr :=
  if f.var = 1 then .stashClose f
  else .stash f

/-- The variants of one opcode told apart by their fields (vmix). -/
def pickVmix (f : VecF) : Instr :=
  if f.var &&& 3 = 1 then .vmixH f
  else .vmix f

/-- The variants of one opcode told apart by their fields (vperm). -/
def pickVperm (f : VecF) : Instr :=
  if f.var &&& 3 = 1 then .vperm2 f
  else .vperm f

/-- The variants of one opcode told apart by their fields (mma). -/
def pickMma (f : MtxF) : Instr :=
  if f.place = 1 then .mmaAtBank f
  else .mma f

/-- The common group (Table 2-21, last three rows). -/
def decodeCommon (code : Nat) (b : Template) : Option Instr :=
  match code with
  | 0xF0 => some (.li (parseReg b))
  | 0xF1 => some (.mov (parseReg b))
  | 0xF2 => some (.add (parseReg b))
  | 0xF3 => some (.addImm (parseReg b))
  | 0xF4 => some (.sub (parseReg b))
  | 0xF5 => some (.subImm (parseReg b))
  | 0xF6 => some (.cmp (parseReg b))
  | 0xF7 => some (.cmpImm (parseReg b))
  | 0xF8 => some (.br (parseCtl b))
  | 0xF9 => some (.jmp (parseCtl b))
  | 0xFA => some (.loop (parseCtl b))
  | 0xFB => some (.lbr (parseCtl b))
  | 0xFC => some (.tkput (parseMgt b))
  | 0xFD => some (pickTkget (parseMgt b))
  | 0xFE => some (.halt (parseMgt b))
  | _ => none

/-- The K opcodes of Table 2-21. -/
def decodeK (code : Nat) (b : Template) : Option Instr :=
  match code with
  | 0x00 => some (.and (parseReg b))
  | 0x01 => some (.andImm (parseReg b))
  | 0x02 => some (.or (parseReg b))
  | 0x03 => some (.orImm (parseReg b))
  | 0x04 => some (.xor (parseReg b))
  | 0x05 => some (.xorImm (parseReg b))
  | 0x06 => some (.shl (parseReg b))
  | 0x07 => some (.shlImm (parseReg b))
  | 0x08 => some (.shr (parseReg b))
  | 0x09 => some (.shrImm (parseReg b))
  | 0x0A => some (.sra (parseReg b))
  | 0x0B => some (.sraImm (parseReg b))
  | 0x0C => some (.mul (parseReg b))
  | 0x0D => some (.mulImm (parseReg b))
  | 0x0E => some (.mulhs (parseReg b))
  | 0x0F => some (.mulhu (parseReg b))
  | 0x10 => some (.min (parseReg b))
  | 0x11 => some (.max (parseReg b))
  | 0x12 => some (.lui (parseReg b))
  | 0x13 => some (.sel (parseReg b))
  | 0x20 => some (.call (parseCtl b))
  | 0x21 => some (.ret (parseCtl b))
  | 0x22 => some (.entry (parseCtl b))
  | 0x30 => some (.tset (parseMgt b))
  | 0x31 => some (.tld (parseMgt b))
  | 0x32 => some (.mdef (parseMgt b))
  | 0x33 => some (.mfs (parseMgt b))
  | 0x34 => some (pickMts (parseMgt b))
  | 0x35 => some (.xset (parseMgt b))
  | 0x36 => some (.align (parseMgt b))
  | 0x37 => some (.galign (parseMgt b))
  | 0x38 => some (.ltrig (parseMgt b))
  | 0x39 => some (.launch (parseMgt b))
  | 0x3A => some (.phase (parseMgt b))
  | 0x3B => some (pickFence (parseMgt b))
  | 0x3C => some (.efence (parseMgt b))
  | 0x3D => some (pickSacq (parseMgt b))
  | 0x3E => some (pickSrel (parseMgt b))
  | 0x3F => some (.trap (parseMgt b))
  | 0x40 => some (.gdraw (parseMgt b))
  | 0x41 => some (.lmix (parseMgt b))
  | 0x42 => some (.crc32c (parseMgt b))
  | 0x43 => some (.emit (parseMgt b))
  | 0x44 => some (pickJrnl (parseMgt b))
  | 0x45 => some (pickTlbinv (parseMgt b))
  | 0x46 => some (.tlbsync (parseMgt b))
  | 0x47 => some (pickQfence (parseMgt b))
  | 0x50 => some (.ldGlobal (parseMem b))
  | 0x51 => some (.ldLocal (parseMem b))
  | 0x52 => some (.stGlobal (parseMem b))
  | 0x53 => some (.stLocal (parseMem b))
  | 0x54 => some (.aadd (parseMem b))
  | 0x55 => some (.amin (parseMem b))
  | 0x56 => some (.amax (parseMem b))
  | 0x57 => some (.aswap (parseMem b))
  | 0x58 => some (.acas (parseMem b))
  | 0x59 => some (.aand (parseMem b))
  | 0x5A => some (.aor (parseMem b))
  | 0x5B => some (.ramo (parseMem b))
  | 0x60 => some (pickIxe (parseEng b))
  | 0x61 => some (.wlpush (parseEng b))
  | 0x62 => some (.wlpop (parseEng b))
  | 0x63 => some (.wldin (parseEng b))
  | 0x64 => some (.pool (parseEng b))
  | 0x65 => some (.supd (parseEng b))
  | 0x66 => some (.nmc (parseEng b))
  | 0x67 => some (pickXch (parseEng b))
  | 0x68 => some (pickSkq (parseEng b))
  | 0x69 => some (pickHrch (parseEng b))
  | _ => decodeCommon code b

/-- The L opcodes of Table 2-21. -/
def decodeL (code : Nat) (b : Template) : Option Instr :=
  match code with
  | 0x00 => some (.agset (parseAgn b))
  | 0x01 => some (.vld (parseMov b))
  | 0x02 => some (.vldUb (parseMov b))
  | 0x03 => some (pickCpy (parseMov b))
  | 0x04 => some (.plane (parseMov b))
  | 0x05 => some (.renew (parseMov b))
  | 0x06 => some (pickSalloc (parseMov b))
  | 0x07 => some (pickSfree (parseMov b))
  | 0x08 => some (pickStash (parseMov b))
  | _ => decodeCommon code b

/-- The C opcodes of Table 2-21. -/
def decodeC (code : Nat) (b : Template) : Option Instr :=
  match code with
  | 0x00 => some (.vadd (parseVec b))
  | 0x01 => some (.vsub (parseVec b))
  | 0x02 => some (.vmul (parseVec b))
  | 0x03 => some (.vfma (parseVec b))
  | 0x04 => some (.vfms (parseVec b))
  | 0x05 => some (.vmin (parseVec b))
  | 0x06 => some (.vmax (parseVec b))
  | 0x07 => some (.vabs (parseVec b))
  | 0x08 => some (.vneg (parseVec b))
  | 0x09 => some (.vcvt (parseVec b))
  | 0x0A => some (.vexp2 (parseVec b))
  | 0x0B => some (.vlog2 (parseVec b))
  | 0x0C => some (.vrcp (parseVec b))
  | 0x0D => some (.vrsqrt (parseVec b))
  | 0x0E => some (.vdiv (parseVec b))
  | 0x0F => some (.vsqrt (parseVec b))
  | 0x10 => some (.vcmp (parseVec b))
  | 0x11 => some (.vsel (parseVec b))
  | 0x12 => some (.vred (parseVec b))
  | 0x13 => some (.vtopk (parseVec b))
  | 0x14 => some (.vbscmp (parseVec b))
  | 0x15 => some (.vcrc (parseVec b))
  | 0x16 => some (pickVmix (parseVec b))
  | 0x17 => some (.vxm (parseVec b))
  | 0x18 => some (pickVperm (parseVec b))
  | 0x19 => some (.vbcast (parseVec b))
  | 0x1A => some (.vand (parseVec b))
  | 0x1B => some (.vor (parseVec b))
  | 0x1C => some (.vxor (parseVec b))
  | 0x1D => some (.vshl (parseVec b))
  | 0x1E => some (.vshr (parseVec b))
  | 0x1F => some (.vsra (parseVec b))
  | 0x20 => some (.vmov (parseVec b))
  | 0x40 => some (.lease (parseMtx b))
  | 0x41 => some (.unlease (parseMtx b))
  | 0x42 => some (pickMma (parseMtx b))
  | 0x43 => some (.mmac (parseMtx b))
  | 0x44 => some (.mmas (parseMtx b))
  | 0x45 => some (.amz (parseMtx b))
  | 0x46 => some (.ald (parseMtx b))
  | 0x47 => some (.aret (parseMtx b))
  | _ => decodeCommon code b

/-- The S opcodes of Table 2-21. -/
def decodeS (code : Nat) (b : Template) : Option Instr :=
  match code with
  | 0x00 => some (.vst (parseSto b))
  | 0x01 => some (.stLocalS (parseMem b))
  | 0x02 => some (.aretW (parseSto b))
  | 0x03 => some (.qpush (parseSto b))
  | _ => decodeCommon code b

/-- The instruction of a class and code, with its fields read from the template. -/
def decodeOp (cls : Seq) (code : Nat) (b : Template) : Option Instr :=
  match cls with
  | .k => decodeK code b
  | .l => decodeL code b
  | .c => decodeC code b
  | .s => decodeS code b

/-- The format of an instruction (Table 2-21). -/
def fmtOf (i : Instr) : Option Fmt :=
  match i with
  | .and _ => some .reg
  | .andImm _ => some .reg
  | .or _ => some .reg
  | .orImm _ => some .reg
  | .xor _ => some .reg
  | .xorImm _ => some .reg
  | .shl _ => some .reg
  | .shlImm _ => some .reg
  | .shr _ => some .reg
  | .shrImm _ => some .reg
  | .sra _ => some .reg
  | .sraImm _ => some .reg
  | .mul _ => some .reg
  | .mulImm _ => some .reg
  | .mulhs _ => some .reg
  | .mulhu _ => some .reg
  | .min _ => some .reg
  | .max _ => some .reg
  | .lui _ => some .reg
  | .sel _ => some .reg
  | .li _ => some .reg
  | .mov _ => some .reg
  | .add _ => some .reg
  | .addImm _ => some .reg
  | .sub _ => some .reg
  | .subImm _ => some .reg
  | .cmp _ => some .reg
  | .cmpImm _ => some .reg
  | .br _ => some .ctl
  | .jmp _ => some .ctl
  | .call _ => some .ctl
  | .ret _ => some .ctl
  | .entry _ => some .ctl
  | .loop _ => some .ctl
  | .lbr _ => some .ctl
  | .tkput _ => some .mgt
  | .tkget _ => some .mgt
  | .tkgetTry _ => some .mgt
  | .halt _ => some .mgt
  | .macroCall _ _ _ _ _ _ => none
  | .tset _ => some .mgt
  | .tld _ => some .mgt
  | .tldSlotWrite _ => none
  | .mdef _ => some .mgt
  | .mdefBodyCheck _ => none
  | .mfs _ => some .mgt
  | .mts _ => some .mgt
  | .mtsFclr _ => some .mgt
  | .mtsTkmap _ => some .mgt
  | .xset _ => some .mgt
  | .align _ => some .mgt
  | .galign _ => some .mgt
  | .galignRelease _ => none
  | .galignBreak _ => none
  | .ltrig _ => some .mgt
  | .launch _ => some .mgt
  | .launchAcceptance _ => none
  | .launchComplete _ => none
  | .launchTriggerRelease _ => none
  | .phase _ => some .mgt
  | .fenceRel _ => some .mgt
  | .fenceAcq _ => some .mgt
  | .boundaryComplete _ => none
  | .efence _ => some .mgt
  | .sacq _ => some .mgt
  | .sacqTry _ => some .mgt
  | .sacqM _ => some .mgt
  | .srel _ => some .mgt
  | .srelM _ => some .mgt
  | .trap _ => some .mgt
  | .gdraw _ => some .mgt
  | .lmix _ => some .mgt
  | .crc32c _ => some .mgt
  | .emit _ => some .mgt
  | .jrnlSeq _ => some .mgt
  | .jrnlGen _ => some .mgt
  | .jrnlTok _ => some .mgt
  | .jrnlRt _ => some .mgt
  | .jrnlApp _ => some .mgt
  | .jrnlCkpt _ => some .mgt
  | .jrnlRep _ => some .mgt
  | .tlbinv _ => some .mgt
  | .tlbinvAll _ => some .mgt
  | .tlbinvComplete _ => none
  | .tlbsync _ => some .mgt
  | .qfence _ => some .mgt
  | .qfenceW _ => some .mgt
  | .ldGlobal _ => some .mem
  | .ldLocal _ => some .mem
  | .stGlobal _ => some .mem
  | .stLocal _ => some .mem
  | .stLocalS _ => some .mem
  | .globalAccessResponse _ => none
  | .aadd _ => some .mem
  | .amin _ => some .mem
  | .amax _ => some .mem
  | .aswap _ => some .mem
  | .acas _ => some .mem
  | .aand _ => some .mem
  | .aor _ => some .mem
  | .ramo _ => some .mem
  | .atomicResponse _ => none
  | .errorResponse _ => none
  | .ixeGather _ => some .eng
  | .ixeScatter _ => some .eng
  | .ixeDedup _ => some .eng
  | .ixeBucket _ => some .eng
  | .wlpush _ => some .eng
  | .wlpop _ => some .eng
  | .wldin _ => some .eng
  | .pool _ => some .eng
  | .supd _ => some .eng
  | .nmc _ => some .eng
  | .xchPool _ => some .eng
  | .xchRed _ => some .eng
  | .skq _ => some .eng
  | .skqAdd _ => some .eng
  | .hrchFill _ => some .eng
  | .hrchEvict _ => some .eng
  | .hrchFlush _ => some .eng
  | .hrchPin _ => some .eng
  | .hrchUnpin _ => some .eng
  | .agset _ => some .agn
  | .vld _ => some .mov
  | .vldUb _ => some .mov
  | .cpyIn _ => some .mov
  | .cpyOut _ => some .mov
  | .cpyLl _ => some .mov
  | .copyCommand _ _ => none
  | .copyComplete _ _ => none
  | .plane _ => some .mov
  | .planeCommand _ => none
  | .planeComplete _ => none
  | .renew _ => some .mov
  | .renewUnitCommand _ => none
  | .renewUnitComplete _ => none
  | .salloc _ => some .mov
  | .sallocZ _ => some .mov
  | .sfree _ => some .mov
  | .sfreeDesc _ => some .mov
  | .stash _ => some .mov
  | .stashClose _ => some .mov
  | .stashCloseComplete _ => none
  | .stashMissFill _ => none
  | .stashEntryExpire _ _ => none
  | .vadd _ => some .vec
  | .vsub _ => some .vec
  | .vmul _ => some .vec
  | .vfma _ => some .vec
  | .vfms _ => some .vec
  | .vmin _ => some .vec
  | .vmax _ => some .vec
  | .vabs _ => some .vec
  | .vneg _ => some .vec
  | .vcvt _ => some .vec
  | .vexp2 _ => some .vec
  | .vlog2 _ => some .vec
  | .vrcp _ => some .vec
  | .vrsqrt _ => some .vec
  | .vdiv _ => some .vec
  | .vsqrt _ => some .vec
  | .vcmp _ => some .vec
  | .vsel _ => some .vec
  | .vred _ => some .vec
  | .vtopk _ => some .vec
  | .vbscmp _ => some .vec
  | .vcrc _ => some .vec
  | .vmix _ => some .vec
  | .vmixH _ => some .vec
  | .vxm _ => some .vec
  | .vperm _ => some .vec
  | .vperm2 _ => some .vec
  | .vbcast _ => some .vec
  | .vand _ => some .vec
  | .vor _ => some .vec
  | .vxor _ => some .vec
  | .vshl _ => some .vec
  | .vshr _ => some .vec
  | .vsra _ => some .vec
  | .vmov _ => some .vec
  | .vst _ => some .sto
  | .resultDue _ => none
  | .waitingGroupIssue _ _ => none
  | .lease _ => some .mtx
  | .unlease _ => some .mtx
  | .leaseGrant _ => none
  | .mma _ => some .mtx
  | .mmaAtBank _ => some .mtx
  | .mmac _ => some .mtx
  | .mmas _ => some .mtx
  | .amz _ => some .mtx
  | .ald _ => some .mtx
  | .aret _ => some .mtx
  | .aretW _ => some .sto
  | .arrayCommandBegin _ => none
  | .arrayCommandEnd _ => none
  | .atBankCommand _ => none
  | .tileSave _ _ => none
  | .tileRestore _ _ => none
  | .arrayReplay _ _ _ => none
  | .qpush _ => some .sto
  | .queuePortWrite _ => none
  | .frontEndTake _ => none
  | .packetComplete _ => none
  | .nullPacket _ => none
  | .signalPacket _ => none
  | .joinPacket _ => none
  | .copyPacket _ => none
  | .jobCardCommit _ => none
  | .indexGather _ => none
  | .indexScatter _ => none
  | .indexDedup _ => none
  | .indexBucket _ => none
  | .worklistPush _ => none
  | .worklistPop _ => none
  | .worklistDedupPush _ => none
  | .sketchQuery _ => none
  | .sketchQueryAdd _ => none
  | .sketchDecay _ => none
  | .hotrowFill _ => none
  | .hotrowEvict _ => none
  | .hotrowFlush _ => none
  | .hotrowPin _ => none
  | .hotrowUnpin _ => none
  | .frameFill _ => none
  | .frameWriteBack _ _ => none
  | .poolCard _ => none
  | .poolingRowService _ => none
  | .supdSgd _ => none
  | .supdMomentum _ => none
  | .supdAdagrad _ => none
  | .supdAdam _ => none
  | .supdInstalled _ => none
  | .nearBankMatvec _ => none
  | .nearBankColsum _ => none
  | .nearBankFill _ => none
  | .nearBankStripe _ => none
  | .nearBankMicroprogram _ => none
  | .nearBankDispatch _ => none
  | .exchangePool _ => none
  | .exchangeReduce _ => none
  | .collectiveTimeout _ => none
  | .journalAppendPacket _ => none
  | .journalRecordReceive _ _ => none
  | .journalAckReceive _ => none
  | .emissionPerform _ => none
  | .partnerLost => none
  | .partnerReassign _ => none
  | .replicaDigestArrival _ _ _ => none
  | .replicaResolution _ _ _ _ _ => none
  | .replayStoreInstall _ _ => none
  | .scanFailureReplay _ _ _ _ => none
  | .jctlWrite _ _ => none
  | .segmentEnd _ => none
  | .overrunUntimed _ => none
  | .overrunTimed _ => none
  | .dispatch _ => none
  | .dispatchLeaseGrant _ => none
  | .gangEntry _ _ => none
  | .switch _ => none
  | .semaphoreImageRelease _ _ _ => none
  | .rowLoad _ _ => none
  | .ttctlWrite _ _ => none
  | .bindRecordWrite _ _ _ _ => none
  | .leaseTableWrite _ _ _ => none
  | .slabcmdRenew _ _ => none
  | .slabcmdFree _ _ => none
  | .slabcmdClaim _ _ => none
  | .tlbcmdPage _ _ => none
  | .tlbcmdContext _ _ => none
  | .queueTableAttach _ _ _ => none
  | .queueTailWrite _ _ _ => none
  | .queueRestart _ => none
  | .registerWrite _ _ _ => none
  | .trapStop _ => none
  | .trapRecordEnqueue _ => none
  | .resume _ _ => none
  | .contextRemoval _ => none
  | .removalStep _ => none
  | .removalBoundExpire _ => none
  | .pageWalkComplete _ => none
  | .prefetchWalk _ _ => none
  | .faultRefusalRetry _ => none
  | .groupFreeze _ => none
  | .groupThaw _ => none
  | .faultRetryWrite _ _ => none
  | .faultDeliverWrite _ _ => none
  | .pageMigration _ _ _ => none
  | .sweepRingRenew _ _ => none
  | .sweepStashWriteback _ _ => none
  | .sweepFrozenSlabRenew _ _ => none
  | .sweepFrozenTileRenew _ _ => none
  | .sweepMarkLost _ _ => none
  | .sweepTileSave _ _ => none
  | .rotationScanSlot _ _ => none
  | .unitReturnToService _ => none
  | .controlStoreLoad _ _ => none
  | .domainReadRequest _ => none
  | .domainWriteRequest _ _ => none
  | .domainAtomicRequest _ => none
  | .domainSkip _ => none
  | .domainReadResponse _ _ => none
  | .domainWriteAck _ => none
  | .domainAtomicResponse _ => none
  | .domainResendTimeout _ _ => none
  | .groupFormation _ _ => none
  | .linkRetrain _ => none
  | .groupLeave _ _ => none
  | .mLevelStart _ => none
  | .d2dUncorrectableError _ => none
  | .wholeMemoryCheckpoint => none
  | .wholeMemoryRestore _ => none
  | .hostWrite _ _ _ _ => none
  | .hostAtomicOp _ _ _ _ _ _ _ => none
  | .doorbellWrite _ _ _ _ => none
  | .mailboxTakeover _ _ => none
  | .mailboxRecordWrite _ _ _ => none
  | .attestationQuote _ => none
  | .functionLevelReset _ _ => none
  | .moduleReset => none
  | .bootRecordAccept _ => none
  | .firmwareTraining => none
  | .bootStoreLoad => none
  | .bootScan => none
  | .thermalShutdown _ => none
  | .trapQueueTake _ => none
  | .domainMembershipChange _ _ => none
  | .hostLinkDown _ => none
  | .thermalShutdownExit => none
  | .domainAtomicRateRelease _ => none

/-- The code of an instruction within its class, and its packed fields (Table 2-21). -/
def encodeOp (i : Instr) : Option (Nat × BitVec 104) :=
  match i with
  | .and f => some (0x00, (packReg f).setWidth 104)
  | .andImm f => some (0x01, (packReg f).setWidth 104)
  | .or f => some (0x02, (packReg f).setWidth 104)
  | .orImm f => some (0x03, (packReg f).setWidth 104)
  | .xor f => some (0x04, (packReg f).setWidth 104)
  | .xorImm f => some (0x05, (packReg f).setWidth 104)
  | .shl f => some (0x06, (packReg f).setWidth 104)
  | .shlImm f => some (0x07, (packReg f).setWidth 104)
  | .shr f => some (0x08, (packReg f).setWidth 104)
  | .shrImm f => some (0x09, (packReg f).setWidth 104)
  | .sra f => some (0x0A, (packReg f).setWidth 104)
  | .sraImm f => some (0x0B, (packReg f).setWidth 104)
  | .mul f => some (0x0C, (packReg f).setWidth 104)
  | .mulImm f => some (0x0D, (packReg f).setWidth 104)
  | .mulhs f => some (0x0E, (packReg f).setWidth 104)
  | .mulhu f => some (0x0F, (packReg f).setWidth 104)
  | .min f => some (0x10, (packReg f).setWidth 104)
  | .max f => some (0x11, (packReg f).setWidth 104)
  | .lui f => some (0x12, (packReg f).setWidth 104)
  | .sel f => some (0x13, (packReg f).setWidth 104)
  | .li f => some (0xF0, (packReg f).setWidth 104)
  | .mov f => some (0xF1, (packReg f).setWidth 104)
  | .add f => some (0xF2, (packReg f).setWidth 104)
  | .addImm f => some (0xF3, (packReg f).setWidth 104)
  | .sub f => some (0xF4, (packReg f).setWidth 104)
  | .subImm f => some (0xF5, (packReg f).setWidth 104)
  | .cmp f => some (0xF6, (packReg f).setWidth 104)
  | .cmpImm f => some (0xF7, (packReg f).setWidth 104)
  | .br f => some (0xF8, (packCtl f).setWidth 104)
  | .jmp f => some (0xF9, (packCtl f).setWidth 104)
  | .call f => some (0x20, (packCtl f).setWidth 104)
  | .ret f => some (0x21, (packCtl f).setWidth 104)
  | .entry f => some (0x22, (packCtl f).setWidth 104)
  | .loop f => some (0xFA, (packCtl f).setWidth 104)
  | .lbr f => some (0xFB, (packCtl f).setWidth 104)
  | .tkput f => some (0xFC, (packMgt f).setWidth 104)
  | .tkget f => some (0xFD, (packMgt f).setWidth 104)
  | .tkgetTry f => some (0xFD, (packMgt f).setWidth 104)
  | .halt f => some (0xFE, (packMgt f).setWidth 104)
  | .macroCall _ _ _ _ _ _ => none
  | .tset f => some (0x30, (packMgt f).setWidth 104)
  | .tld f => some (0x31, (packMgt f).setWidth 104)
  | .tldSlotWrite _ => none
  | .mdef f => some (0x32, (packMgt f).setWidth 104)
  | .mdefBodyCheck _ => none
  | .mfs f => some (0x33, (packMgt f).setWidth 104)
  | .mts f => some (0x34, (packMgt f).setWidth 104)
  | .mtsFclr f => some (0x34, (packMgt f).setWidth 104)
  | .mtsTkmap f => some (0x34, (packMgt f).setWidth 104)
  | .xset f => some (0x35, (packMgt f).setWidth 104)
  | .align f => some (0x36, (packMgt f).setWidth 104)
  | .galign f => some (0x37, (packMgt f).setWidth 104)
  | .galignRelease _ => none
  | .galignBreak _ => none
  | .ltrig f => some (0x38, (packMgt f).setWidth 104)
  | .launch f => some (0x39, (packMgt f).setWidth 104)
  | .launchAcceptance _ => none
  | .launchComplete _ => none
  | .launchTriggerRelease _ => none
  | .phase f => some (0x3A, (packMgt f).setWidth 104)
  | .fenceRel f => some (0x3B, (packMgt f).setWidth 104)
  | .fenceAcq f => some (0x3B, (packMgt f).setWidth 104)
  | .boundaryComplete _ => none
  | .efence f => some (0x3C, (packMgt f).setWidth 104)
  | .sacq f => some (0x3D, (packMgt f).setWidth 104)
  | .sacqTry f => some (0x3D, (packMgt f).setWidth 104)
  | .sacqM f => some (0x3D, (packMgt f).setWidth 104)
  | .srel f => some (0x3E, (packMgt f).setWidth 104)
  | .srelM f => some (0x3E, (packMgt f).setWidth 104)
  | .trap f => some (0x3F, (packMgt f).setWidth 104)
  | .gdraw f => some (0x40, (packMgt f).setWidth 104)
  | .lmix f => some (0x41, (packMgt f).setWidth 104)
  | .crc32c f => some (0x42, (packMgt f).setWidth 104)
  | .emit f => some (0x43, (packMgt f).setWidth 104)
  | .jrnlSeq f => some (0x44, (packMgt f).setWidth 104)
  | .jrnlGen f => some (0x44, (packMgt f).setWidth 104)
  | .jrnlTok f => some (0x44, (packMgt f).setWidth 104)
  | .jrnlRt f => some (0x44, (packMgt f).setWidth 104)
  | .jrnlApp f => some (0x44, (packMgt f).setWidth 104)
  | .jrnlCkpt f => some (0x44, (packMgt f).setWidth 104)
  | .jrnlRep f => some (0x44, (packMgt f).setWidth 104)
  | .tlbinv f => some (0x45, (packMgt f).setWidth 104)
  | .tlbinvAll f => some (0x45, (packMgt f).setWidth 104)
  | .tlbinvComplete _ => none
  | .tlbsync f => some (0x46, (packMgt f).setWidth 104)
  | .qfence f => some (0x47, (packMgt f).setWidth 104)
  | .qfenceW f => some (0x47, (packMgt f).setWidth 104)
  | .ldGlobal f => some (0x50, (packMem f).setWidth 104)
  | .ldLocal f => some (0x51, (packMem f).setWidth 104)
  | .stGlobal f => some (0x52, (packMem f).setWidth 104)
  | .stLocal f => some (0x53, (packMem f).setWidth 104)
  | .stLocalS f => some (0x01, (packMem f).setWidth 104)
  | .globalAccessResponse _ => none
  | .aadd f => some (0x54, (packMem f).setWidth 104)
  | .amin f => some (0x55, (packMem f).setWidth 104)
  | .amax f => some (0x56, (packMem f).setWidth 104)
  | .aswap f => some (0x57, (packMem f).setWidth 104)
  | .acas f => some (0x58, (packMem f).setWidth 104)
  | .aand f => some (0x59, (packMem f).setWidth 104)
  | .aor f => some (0x5A, (packMem f).setWidth 104)
  | .ramo f => some (0x5B, (packMem f).setWidth 104)
  | .atomicResponse _ => none
  | .errorResponse _ => none
  | .ixeGather f => some (0x60, (packEng f).setWidth 104)
  | .ixeScatter f => some (0x60, (packEng f).setWidth 104)
  | .ixeDedup f => some (0x60, (packEng f).setWidth 104)
  | .ixeBucket f => some (0x60, (packEng f).setWidth 104)
  | .wlpush f => some (0x61, (packEng f).setWidth 104)
  | .wlpop f => some (0x62, (packEng f).setWidth 104)
  | .wldin f => some (0x63, (packEng f).setWidth 104)
  | .pool f => some (0x64, (packEng f).setWidth 104)
  | .supd f => some (0x65, (packEng f).setWidth 104)
  | .nmc f => some (0x66, (packEng f).setWidth 104)
  | .xchPool f => some (0x67, (packEng f).setWidth 104)
  | .xchRed f => some (0x67, (packEng f).setWidth 104)
  | .skq f => some (0x68, (packEng f).setWidth 104)
  | .skqAdd f => some (0x68, (packEng f).setWidth 104)
  | .hrchFill f => some (0x69, (packEng f).setWidth 104)
  | .hrchEvict f => some (0x69, (packEng f).setWidth 104)
  | .hrchFlush f => some (0x69, (packEng f).setWidth 104)
  | .hrchPin f => some (0x69, (packEng f).setWidth 104)
  | .hrchUnpin f => some (0x69, (packEng f).setWidth 104)
  | .agset f => some (0x00, (packAgn f).setWidth 104)
  | .vld f => some (0x01, (packMov f).setWidth 104)
  | .vldUb f => some (0x02, (packMov f).setWidth 104)
  | .cpyIn f => some (0x03, (packMov f).setWidth 104)
  | .cpyOut f => some (0x03, (packMov f).setWidth 104)
  | .cpyLl f => some (0x03, (packMov f).setWidth 104)
  | .copyCommand _ _ => none
  | .copyComplete _ _ => none
  | .plane f => some (0x04, (packMov f).setWidth 104)
  | .planeCommand _ => none
  | .planeComplete _ => none
  | .renew f => some (0x05, (packMov f).setWidth 104)
  | .renewUnitCommand _ => none
  | .renewUnitComplete _ => none
  | .salloc f => some (0x06, (packMov f).setWidth 104)
  | .sallocZ f => some (0x06, (packMov f).setWidth 104)
  | .sfree f => some (0x07, (packMov f).setWidth 104)
  | .sfreeDesc f => some (0x07, (packMov f).setWidth 104)
  | .stash f => some (0x08, (packMov f).setWidth 104)
  | .stashClose f => some (0x08, (packMov f).setWidth 104)
  | .stashCloseComplete _ => none
  | .stashMissFill _ => none
  | .stashEntryExpire _ _ => none
  | .vadd f => some (0x00, (packVec f).setWidth 104)
  | .vsub f => some (0x01, (packVec f).setWidth 104)
  | .vmul f => some (0x02, (packVec f).setWidth 104)
  | .vfma f => some (0x03, (packVec f).setWidth 104)
  | .vfms f => some (0x04, (packVec f).setWidth 104)
  | .vmin f => some (0x05, (packVec f).setWidth 104)
  | .vmax f => some (0x06, (packVec f).setWidth 104)
  | .vabs f => some (0x07, (packVec f).setWidth 104)
  | .vneg f => some (0x08, (packVec f).setWidth 104)
  | .vcvt f => some (0x09, (packVec f).setWidth 104)
  | .vexp2 f => some (0x0A, (packVec f).setWidth 104)
  | .vlog2 f => some (0x0B, (packVec f).setWidth 104)
  | .vrcp f => some (0x0C, (packVec f).setWidth 104)
  | .vrsqrt f => some (0x0D, (packVec f).setWidth 104)
  | .vdiv f => some (0x0E, (packVec f).setWidth 104)
  | .vsqrt f => some (0x0F, (packVec f).setWidth 104)
  | .vcmp f => some (0x10, (packVec f).setWidth 104)
  | .vsel f => some (0x11, (packVec f).setWidth 104)
  | .vred f => some (0x12, (packVec f).setWidth 104)
  | .vtopk f => some (0x13, (packVec f).setWidth 104)
  | .vbscmp f => some (0x14, (packVec f).setWidth 104)
  | .vcrc f => some (0x15, (packVec f).setWidth 104)
  | .vmix f => some (0x16, (packVec f).setWidth 104)
  | .vmixH f => some (0x16, (packVec f).setWidth 104)
  | .vxm f => some (0x17, (packVec f).setWidth 104)
  | .vperm f => some (0x18, (packVec f).setWidth 104)
  | .vperm2 f => some (0x18, (packVec f).setWidth 104)
  | .vbcast f => some (0x19, (packVec f).setWidth 104)
  | .vand f => some (0x1A, (packVec f).setWidth 104)
  | .vor f => some (0x1B, (packVec f).setWidth 104)
  | .vxor f => some (0x1C, (packVec f).setWidth 104)
  | .vshl f => some (0x1D, (packVec f).setWidth 104)
  | .vshr f => some (0x1E, (packVec f).setWidth 104)
  | .vsra f => some (0x1F, (packVec f).setWidth 104)
  | .vmov f => some (0x20, (packVec f).setWidth 104)
  | .vst f => some (0x00, (packSto f).setWidth 104)
  | .resultDue _ => none
  | .waitingGroupIssue _ _ => none
  | .lease f => some (0x40, (packMtx f).setWidth 104)
  | .unlease f => some (0x41, (packMtx f).setWidth 104)
  | .leaseGrant _ => none
  | .mma f => some (0x42, (packMtx f).setWidth 104)
  | .mmaAtBank f => some (0x42, (packMtx f).setWidth 104)
  | .mmac f => some (0x43, (packMtx f).setWidth 104)
  | .mmas f => some (0x44, (packMtx f).setWidth 104)
  | .amz f => some (0x45, (packMtx f).setWidth 104)
  | .ald f => some (0x46, (packMtx f).setWidth 104)
  | .aret f => some (0x47, (packMtx f).setWidth 104)
  | .aretW f => some (0x02, (packSto f).setWidth 104)
  | .arrayCommandBegin _ => none
  | .arrayCommandEnd _ => none
  | .atBankCommand _ => none
  | .tileSave _ _ => none
  | .tileRestore _ _ => none
  | .arrayReplay _ _ _ => none
  | .qpush f => some (0x03, (packSto f).setWidth 104)
  | .queuePortWrite _ => none
  | .frontEndTake _ => none
  | .packetComplete _ => none
  | .nullPacket _ => none
  | .signalPacket _ => none
  | .joinPacket _ => none
  | .copyPacket _ => none
  | .jobCardCommit _ => none
  | .indexGather _ => none
  | .indexScatter _ => none
  | .indexDedup _ => none
  | .indexBucket _ => none
  | .worklistPush _ => none
  | .worklistPop _ => none
  | .worklistDedupPush _ => none
  | .sketchQuery _ => none
  | .sketchQueryAdd _ => none
  | .sketchDecay _ => none
  | .hotrowFill _ => none
  | .hotrowEvict _ => none
  | .hotrowFlush _ => none
  | .hotrowPin _ => none
  | .hotrowUnpin _ => none
  | .frameFill _ => none
  | .frameWriteBack _ _ => none
  | .poolCard _ => none
  | .poolingRowService _ => none
  | .supdSgd _ => none
  | .supdMomentum _ => none
  | .supdAdagrad _ => none
  | .supdAdam _ => none
  | .supdInstalled _ => none
  | .nearBankMatvec _ => none
  | .nearBankColsum _ => none
  | .nearBankFill _ => none
  | .nearBankStripe _ => none
  | .nearBankMicroprogram _ => none
  | .nearBankDispatch _ => none
  | .exchangePool _ => none
  | .exchangeReduce _ => none
  | .collectiveTimeout _ => none
  | .journalAppendPacket _ => none
  | .journalRecordReceive _ _ => none
  | .journalAckReceive _ => none
  | .emissionPerform _ => none
  | .partnerLost => none
  | .partnerReassign _ => none
  | .replicaDigestArrival _ _ _ => none
  | .replicaResolution _ _ _ _ _ => none
  | .replayStoreInstall _ _ => none
  | .scanFailureReplay _ _ _ _ => none
  | .jctlWrite _ _ => none
  | .segmentEnd _ => none
  | .overrunUntimed _ => none
  | .overrunTimed _ => none
  | .dispatch _ => none
  | .dispatchLeaseGrant _ => none
  | .gangEntry _ _ => none
  | .switch _ => none
  | .semaphoreImageRelease _ _ _ => none
  | .rowLoad _ _ => none
  | .ttctlWrite _ _ => none
  | .bindRecordWrite _ _ _ _ => none
  | .leaseTableWrite _ _ _ => none
  | .slabcmdRenew _ _ => none
  | .slabcmdFree _ _ => none
  | .slabcmdClaim _ _ => none
  | .tlbcmdPage _ _ => none
  | .tlbcmdContext _ _ => none
  | .queueTableAttach _ _ _ => none
  | .queueTailWrite _ _ _ => none
  | .queueRestart _ => none
  | .registerWrite _ _ _ => none
  | .trapStop _ => none
  | .trapRecordEnqueue _ => none
  | .resume _ _ => none
  | .contextRemoval _ => none
  | .removalStep _ => none
  | .removalBoundExpire _ => none
  | .pageWalkComplete _ => none
  | .prefetchWalk _ _ => none
  | .faultRefusalRetry _ => none
  | .groupFreeze _ => none
  | .groupThaw _ => none
  | .faultRetryWrite _ _ => none
  | .faultDeliverWrite _ _ => none
  | .pageMigration _ _ _ => none
  | .sweepRingRenew _ _ => none
  | .sweepStashWriteback _ _ => none
  | .sweepFrozenSlabRenew _ _ => none
  | .sweepFrozenTileRenew _ _ => none
  | .sweepMarkLost _ _ => none
  | .sweepTileSave _ _ => none
  | .rotationScanSlot _ _ => none
  | .unitReturnToService _ => none
  | .controlStoreLoad _ _ => none
  | .domainReadRequest _ => none
  | .domainWriteRequest _ _ => none
  | .domainAtomicRequest _ => none
  | .domainSkip _ => none
  | .domainReadResponse _ _ => none
  | .domainWriteAck _ => none
  | .domainAtomicResponse _ => none
  | .domainResendTimeout _ _ => none
  | .groupFormation _ _ => none
  | .linkRetrain _ => none
  | .groupLeave _ _ => none
  | .mLevelStart _ => none
  | .d2dUncorrectableError _ => none
  | .wholeMemoryCheckpoint => none
  | .wholeMemoryRestore _ => none
  | .hostWrite _ _ _ _ => none
  | .hostAtomicOp _ _ _ _ _ _ _ => none
  | .doorbellWrite _ _ _ _ => none
  | .mailboxTakeover _ _ => none
  | .mailboxRecordWrite _ _ _ => none
  | .attestationQuote _ => none
  | .functionLevelReset _ _ => none
  | .moduleReset => none
  | .bootRecordAccept _ => none
  | .firmwareTraining => none
  | .bootStoreLoad => none
  | .bootScan => none
  | .thermalShutdown _ => none
  | .trapQueueTake _ => none
  | .domainMembershipChange _ _ => none
  | .hostLinkDown _ => none
  | .thermalShutdownExit => none
  | .domainAtomicRateRelease _ => none

/-- The class named by bits [127:126] or [117:116] (Table 2-4). -/
def classOf (n : Nat) : Seq := Seq.ofCode n

/-- No bit above the fields of an instruction's format is set (R38). -/
def fmtRsvOk (i : Instr) (b : Template) : Bool :=
  match fmtOf i with
  | some m => decide ((b.extractLsb' 0 104).toNat / 2 ^ fmtWidth m = 0)
  | none => false

/-- Validation and decoding of a template written to the table of a class, in the order of
Table 2-22 (R40). -/
def decodeTemplate (cls : Seq) (b : Template) : Except Reject Instr :=
  if (b.extractLsb' 116 2).toNat ≠ cls.code ∨ (b.extractLsb' 126 2).toNat ≠ cls.code then .error .wrongClass
  else
    match decodeOp cls (b.extractLsb' 118 8).toNat b with
    | none => .error .reservedOpcode
    | some i =>
      if b.extractLsb' 104 7 ≠ 0 then .error .headerRsv
      else if fmtRsvOk i b = false then .error .formatRsv
      else if fieldsOk cls i then .ok i
      else .error .fieldValue

/-- The slot reason code of a template (R40): 0 when it is valid. -/
def slotReason (cls : Seq) (b : Template) : BitVec 4 :=
  match decodeTemplate cls b with
  | .ok _ => 0
  | .error r => r.code

/-- The template of an instruction in a class, under a guard and its sense (R36). -/
def encode (cls : Seq) (guard : BitVec 4) (sense : BitVec 1) (i : Instr) : Option Template :=
  match encodeOp i with
  | none => none
  | some (code, fields) =>
    some (BitVec.ofNat 2 cls.code ++ BitVec.ofNat 8 code ++ BitVec.ofNat 2 cls.code ++ guard ++ sense
      ++ (0 : BitVec 7) ++ fields)

/-- The default guard predicate of a template (Table 2-4). -/
def guardOf (b : Template) : BitVec 4 := b.extractLsb' 112 4

/-- The default guard sense of a template (Table 2-4). -/
def senseOf (b : Template) : BitVec 1 := b.extractLsb' 111 1

/-- T, F, I and V of a patch word (Table 2-1). -/
def patchT (w : Half) : Nat := (w.extractLsb' 26 6).toNat
/-- F of a patch word (Table 2-1). -/
def patchF (w : Half) : Nat := (w.extractLsb' 21 5).toNat
/-- I of a patch word (Table 2-1). -/
def patchI (w : Half) : Nat := (w.extractLsb' 16 5).toNat
/-- V of a patch word (Table 2-1). -/
def patchV (w : Half) : BitVec 16 := w.extractLsb' 0 16

/-- A macro call word with the parameters its carries give (R30, R31). -/
def decodeCall (w : Half) (p1 p2 p3 : BitVec 16) : Option Instr :=
  if patchT w = 62 then some (.macroCall (w.extractLsb' 21 5) (w.extractLsb' 16 5) (patchV w) p1 p2 p3)
  else none

/-- The call word of a macro call (R31). -/
def encodeCall (i : Instr) : Option Half :=
  match i with
  | .macroCall m idle p0 _ _ _ => some (BitVec.ofNat 6 62 ++ m ++ idle ++ p0)
  | _ => none

/-- The instruction a word of the opcode table stands for: a 32-bit macro call word, or a 128-bit
template in the table of the class its own class field names. -/
def decodeTableWord (nbits w : Nat) : Option Instr :=
  if nbits ≤ 32 then decodeCall (BitVec.ofNat 32 w) 0 0 0
  else
    match decodeTemplate (classOf (w / 2 ^ 116 % 4)) (BitVec.ofNat 128 w) with
    | .ok i => some i
    | .error _ => none

end Sys2Proof
end

