-- ==== Sys2Proof/Config.lean ====
section
/-! DEFINITION. What the S4's manual leaves open: constants with no body, so that no proof can see their
values. Every one of them has a row in the assumption log. -/
namespace Sys2Proof.Config

/-- FREE VALUE (log 4). The cycles, beyond the least the manual allows, that the n-th access, walk, boundary,
front-end action or message of a run takes: the manual fixes no such latency (R211, R230, R242, R250). -/
opaque latency : Nat → Nat

/-- FREE VALUE (log 3). The n-th value the manual leaves open in a run. -/
opaque freeWord : Nat → Word

/-- FREE VALUE (log 8). The cycle from which an observer outside the scope of a narrow publication sees it,
by the publication's serial number and the observer (R238: it may see the write early). -/
opaque earlyAt : Nat → Nat → Nat

/-- FREE VALUE (log 9). What an installed pooling entry point makes of a bag's element: by entry point, the
partial sum's 256 bits, the row count of the bag and the draw (R305: the firmware states it). -/
opaque poolInstalled : Nat → BitVec 256 → Nat → BitVec 32

/-- FREE VALUE (log 9). What an installed update entry point writes for element j of a row: by entry point,
the parameter block, the element, the old value bits, the old state bits and the gradient (R309). -/
opaque updInstalled : Nat → List Byte → Nat → Half → Half → Half → Half × Half

/-- FREE VALUE (log 10). The public key that a signed record comes with, its coordinates (R434: the layout of a record names no place for it). -/
opaque recordKey : List Byte → Nat × Nat

/-- FREE VALUE (log 10). The SHA-256 of the vendor's public key, which the ROM holds (R434): 32 bytes. -/
opaque romKeyHash : List Byte

/-- FREE VALUE (log 10). The device's own signing key (R438). -/
opaque deviceKey : Nat

/-- FREE VALUE (log 10). The per-message secret of a signature of the device over a message (R438: ECDSA needs one, and the rule states none). -/
opaque signSecret : List Byte → Nat

/-- FREE VALUE (log 10). The least secver that the body of an accepted configuration record names for a kind of record (R434: the body's
layout is not given). -/
opaque minSecver : List Byte → Nat → Nat

/-- FREE VALUE (log 10). The near-bank control store (its words) that the body of an accepted record of kind 2 holds, and its entry table:
the body's layout is not given (R324, R434). -/
opaque nearBankImage : List Byte → List (BitVec 192) × List (BitVec 16)

/-- FREE VALUE (log 10). The pooling and the update entry points that the body of an accepted record of kind 3 installs (R434: the body's layout
is not given). -/
opaque poolImage : List Byte → List Nat × List Nat

/-- FREE VALUE (log 10). Whether the image that the management core loads into the near-bank control stores, by its words and entries, comes in a
signed record that is accepted (R324, R434). -/
opaque storeVerified : List (BitVec 192) → List (BitVec 16) → Bool

end Sys2Proof.Config
end

