-- ==== Sys2Proof/Machine/Maps.lean ====
section
/-! DEFINITION. Sparse maps from numbers: a list of pairs, in rising order of key, with no key twice; an
unlisted key has the map's default value. -/
namespace Sys2Proof.Machine

/-- A sparse map. -/
abbrev Map (α : Type) := List (Nat × α)

/-- What a key has in a map, if it is listed. -/
def mfind {α : Type} : Map α → Nat → Option α
  | [], _ => none
  | (k, v) :: r, a => if k = a then some v else mfind r a

/-- What a key has in a map with a default value. -/
def mget {α : Type} (d : α) (m : Map α) (a : Nat) : α := (mfind m a).getD d

/-- The map with one key set, in its place. -/
def mset {α : Type} : Map α → Nat → α → Map α
  | [], a, x => [(a, x)]
  | (k, v) :: r, a, x =>
    if a < k then (a, x) :: (k, v) :: r
    else if a = k then (a, x) :: r
    else (k, v) :: mset r a x

/-- The map without one key. -/
def mdel {α : Type} : Map α → Nat → Map α
  | [], _ => []
  | (k, v) :: r, a => if k = a then mdel r a else (k, v) :: mdel r a

/-- The map with one key set, where setting the default value takes the key out of the list. -/
def mput {α : Type} [DecidableEq α] (d : α) (m : Map α) (a : Nat) (x : α) : Map α :=
  if x = d then mdel m a else mset m a x

/-- The keys rise strictly. -/
def mrising {α : Type} : Map α → Bool
  | [] => true
  | [_] => true
  | (k, _) :: (k', v) :: r => decide (k < k') && mrising ((k', v) :: r)

/-- The canonical form: rising keys, and no key listed with the default value. -/
def mwf {α : Type} [DecidableEq α] (d : α) (m : Map α) : Bool :=
  mrising m && m.all (fun p => decide (p.2 ≠ d))

end Sys2Proof.Machine
end

