-- ==== Sys2Proof/Machine/State.lean ====
section
/-! DEFINITION. Everything the S4 holds, as plain data, and the state after module reset. -/
namespace Sys2Proof.Machine

/-! ## Why a step can stop -/

/-- Reasons a step can end the run. The S4 answers every failure of a program with a state of its own, so
only a step that names a part of the package that does not exist ends here. -/
inductive Fault where
  /-- SAFE. An event names a core, array, die, unit or port that the package does not have (R1). -/
  | noSuchUnit
  deriving DecidableEq, Repr

/-- Reasons a step is not taken. -/
inductive Refusal where
  /-- SAFE. Raised by an arm of `exec` whose instruction has no meaning yet. -/
  | notModelled (mnemonic : String)
  /-- SAFE. Raised by a step that no instruction names when it cannot take place in this state: its work
  is absent, or its cycle has not come. `step` never chooses one. -/
  | notEnabled (event : String)
  deriving DecidableEq, Repr

/-! ## A sequencer -/

/-- A template slot (R7, R40). `loading`: a `tld` has yet to write it (R41). -/
structure Slot where
  t : Template
  reason : BitVec 4
  loading : Bool
  deriving DecidableEq, Repr

/-- A slot no template has been written to (Table 2-22, reason 0x1). -/
def Slot.empty : Slot := { t := 0, reason := 1, loading := false }

/-- A macro store entry (Table 2-2). -/
structure MEntry where
  last : Bool
  psrc : BitVec 3
  word : Half
  deriving DecidableEq, Repr

/-- The macro position (R34): the macro, the next entry, P0 to P3 and the body as it stood at the call;
`idle` is I of the call word, which the first entry takes (R17), and `ret` the word after the call. -/
structure MPos where
  m : Nat
  next : Nat
  p0 : BitVec 16
  p1 : BitVec 16
  p2 : BitVec 16
  p3 : BitVec 16
  body : List MEntry
  idle : Nat
  ret : Word
  deriving DecidableEq, Repr

/-- Why a group waits: kind and obj of Table 5-2, and the count a parked `tkget` asks for (R104). -/
structure Waiting where
  kind : Nat
  obj : Nat
  lacks : Nat
  deriving DecidableEq, Repr

/-- A sequencer (R7, R93). `regs` are g0 to g7 of K (its other eight stay zero) or l0 to l15 of L, C and S.
`base` and `buf` are the patch buffer of the segment (R13). `last` is the last issue cycle (R14) and `delay`
the cycles a spill or fill adds to the next group (R61). `halted` is one more than the cycle of the `halt`, 0 when
halted from seg_start (R95). `tried` is the %cyc cycle on which the group at `pc` last waited. `redef`: the body that replaces the macro
the sequencer is inside of once its call has issued its last entry (R71). `pin`: the instruction that K has issued and that stands until its reads are done,
with its address operand: it was copied from its slot as it issued (R41). -/
structure SeqSt where
  pc : Word
  regs : Vector Word 16
  preds : BitVec 16
  lc : Half
  ec : BitVec 4
  table : Map Slot
  macros : Map (List MEntry)
  mpos : Option MPos
  base : Word
  buf : List Half
  last : Option Nat
  delay : Nat
  halted : Option Nat
  waiting : Option Waiting
  tried : Option Nat
  redef : Option (List MEntry)
  pin : Option (Instr × Word)
  deriving DecidableEq, Repr

/-- A sequencer at context creation (R7, R93): no patch stream, so halted. -/
def SeqSt.init : SeqSt :=
  { pc := 0, regs := Vector.replicate 16 0, preds := 1, lc := 0, ec := 0, table := [], macros := [],
    mpos := none, base := 0, buf := [], last := none, delay := 0, halted := some 0, waiting := none,
    tried := none, redef := none, pin := none }

/-- An address generator (R148). -/
structure AgSt where
  base : Nat
  levels : Nat
  counts : List Nat
  strides : List Int
  idx : List Nat
  port : Option Nat
  deriving DecidableEq, Repr

/-- An unbound generator. -/
def AgSt.init : AgSt := { base := 0, levels := 1, counts := [], strides := [], idx := [], port := none }

/-! ## Results in flight -/

/-- What a result does when it falls due (R19, R341). -/
inductive Fx where
  /-- an l or g register -/
  | reg (sq : Seq) (r : Nat) (v : Word)
  /-- a physical window register (R47) -/
  | win (r : Nat) (v : Word)
  /-- a predicate -/
  | pred (sq : Seq) (p : Nat) (v : Bool)
  /-- p1 to p15 of K by `mts %pred` (R67) -/
  | predAll (v : BitVec 16)
  /-- %lc and %ec -/
  | loop (sq : Seq) (lc : Half) (ec : BitVec 4)
  /-- %lc of K by `mts` -/
  | lcW (v : Half)
  /-- %ec of K by `mts` -/
  | ecW (v : BitVec 4)
  /-- rotation of p8 to p15 with the value entering p8 (R64); on C also of the vector base (R139) -/
  | rotate (sq : Seq) (x : Bool)
  /-- the window base, resident and spilled counts (R58, R60) -/
  | window (b rc sc : Nat)
  /-- tokens added to a queue (R103) -/
  | tokens (q n : Nat)
  /-- an address generator set by `agset` (R149); it is no result -/
  | agset (g : Nat) (v : AgSt)
  /-- tokens a `tkget` has taken, no longer read from the next cycle (R103); it is no result -/
  | take (q n : Nat)
  /-- a semaphore released by an engine command that has nothing to do (R184, R218, R220, R222); it is no result -/
  | sem (k n : Nat)
  /-- slabs claimed (`op` 0), freed (1) or opened as a stash window (2) by an instruction (R218, R219, R222); it is no result -/
  | slabs (op base n : Nat)
  /-- a template written by `tset` (R41) -/
  | slot (sq : Seq) (n : Nat) (t : Template)
  /-- a special register written by `mts` -/
  | special (n : Nat) (v : Word)
  /-- flags cleared by `mts %fclr` (R141) -/
  | fclr (v : Word)
  /-- a vector into cluster `y`: its physical register if any, its port if any, its flags (R140, R152) -/
  | vec (y : Bool) (r : Option Nat) (port : Option Nat) (queue : Bool) (v : Vec) (flags : BitVec 6)
  /-- a vector a `vld` step read, entering its port (R150) -/
  | port (p : Nat) (v : Vec)
  deriving DecidableEq, Repr

/-- A result in flight, or an entry of the pending-result file (R341): due and issue schedule cycles, and an
order among results of one issue cycle, in which an `xset` comes last (R68). -/
structure Flight where
  due : Nat
  issue : Nat
  ord : Nat
  sq : Seq
  fx : Fx
  deriving DecidableEq, Repr

/-! ## Vector state of a context (Table 7-2) -/

/-- A `vld` step that has not read yet (R150): its cycle, address and the cycle its vector enters the port. -/
structure VldStep where
  at_ : Nat
  ag : Nat
  port : Nat
  la : Nat
  ub : Bool
  enter : Nat
  issue : Nat
  deriving DecidableEq, Repr

/-- A vector `vst` has popped and not yet written (R153). -/
structure VstStep where
  at_ : Nat
  ag : Nat
  la : Nat
  v : Vec
  deriving DecidableEq, Repr

/-- A vector register, queue entry (from the youngest) or port entry (from the oldest) that holds an uncorrectable error (R348). -/
inductive VecFlaw where
  | reg (r : Nat)
  | queue (y : Bool) (i : Nat)
  | port (p i : Nat)
  deriving DecidableEq, Repr

/-- Vector state: named registers of X (0-31) and Y (32-63), queues youngest first, the rotating base, flags
(bits 5-0: TF NV DZ OF UF NX), generators, ports oldest first, the steps in progress, the first cycle free for a `vld`
step (R150), and the places that hold an uncorrectable error (R348). -/
structure VecSt where
  regs : Map Vec
  xq : List Vec
  yq : List Vec
  rrb : BitVec 4
  fsx : BitVec 6
  fsy : BitVec 6
  ags : Map AgSt
  ports : Map (List Vec)
  vlds : List VldStep
  vsts : List VstStep
  vldNext : Nat
  bad : List VecFlaw
  deriving DecidableEq, Repr

/-- Vector state at context creation. -/
def VecSt.init : VecSt :=
  { regs := [], xq := List.replicate 16 0, yq := List.replicate 16 0, rrb := 0, fsx := 0, fsy := 0,
    ags := [], ports := [], vlds := [], vsts := [], vldNext := 0, bad := [] }

/-- A register of K, L, C or S, a window register or a predicate that holds an uncorrectable error (R348). -/
inductive RegFlaw where
  | reg (q : Seq) (r : Nat)
  | win (r : Nat)
  | pred (q : Seq) (p : Nat)
  deriving DecidableEq, Repr

/-! ## Journal staging (R413) -/

/-- The staging record of a K sequencer (R413): open and rep, the fields of Table 21-2 from seq through digest, rec, and the %cyc cycle
from which rec is loaded; unemitted, and of the last append its record, which holds its jidx, and whether rep was 1 (R417). -/
structure Staging where
  opened : Bool
  replay : Bool
  seqn : Half
  step : Half
  token : Half
  nrt : Nat
  ndraw : Nat
  key : Word
  ctr : Word
  rt : Map Word
  digest : Word
  jrec : BitVec 1024
  loadAt : Nat
  unemitted : Bool
  lastRec : BitVec 1024
  lastRep : Bool
  deriving DecidableEq, Repr

/-- An empty staging record. -/
def Staging.init : Staging :=
  { opened := false, replay := false, seqn := 0, step := 0, token := 0, nrt := 0, ndraw := 0, key := 0, ctr := 0, rt := [], digest := 0,
    jrec := 0, loadAt := 0, unemitted := false, lastRec := 0, lastRep := false }

/-- K's pending error (R346): cause, engine, status, address, index of the group or slot. -/
structure PErr where
  cause : Nat
  engine : Nat
  uidx : Nat
  status : Half
  addr : Word
  cmd : Nat
  packet : Bool
  seq : Nat
  deriving DecidableEq, Repr

/-! ## Commands of units -/

/-- Where an access of an engine stands (R252 to R257): free to go; at a fault record of a die; told to end by a
delivered fault; refused, and trying again at a cycle, with the interval after that. `run`: the element or entry the access is for. -/
inductive FWait where
  | go
  | stands (die idx run : Nat)
  | deliver (cause : Nat) (va : Word) (run : Nat)
  | backoff (at_ interval : Nat)
  deriving DecidableEq, Repr

/-- The commands of the units a core owns (R184, R220, R281). `var`, `la`, `a`, `b`, `n`, `sem`, `start`: their
operands; `issue`: the %cyc cycle of its issue; `timed`: it begins at its start value; `begun`: the %cyc cycle s once begun;
`j`: the next block, row or run; `nextAt`: the %cyc cycle of the next read, write or completion; `buf`: what it has read; `idx`: the
indices of a copy's next run; `written`: for each slab, the bytes it has written, one bit each; `seg`: the number of its segment; `det`: that
has ended, so `start` is a cycle of %cyc (R107). -/
structure EngCmd where
  var : Nat
  la : Nat
  a : Word
  b : Word
  n : Nat
  sem : Nat
  start : Nat
  issue : Nat
  timed : Bool
  ctx : Nat
  cmdIdx : Nat
  begun : Option Nat
  j : Nat
  nextAt : Nat
  fill : Bool
  idx : List Nat
  buf : List Byte
  written : Map Nat
  wait : FWait
  seg : Nat
  launch : Nat
  det : Bool := false
  deriving DecidableEq, Repr

/-- A counted command in an array (R177, R179): the instruction with γ captured, its issuing core and
schedule cycle, the number of its segment, and once begun its begin cycle, next group, the cycle that group is read, flags so far; `touched`:
a byte it read has been written since (R350); `notBefore`: the cycle to which tile transfers put off its begin and `xfer`, a restore ends then (R371); `wrec`, `wts`,
`scl`, `part`, `bankAt`: of an at-bank command its operands' physical bases and lengths, weights, scales, integer sums so far, and the %cyc
cycle its last partial sums arrive at the earliest (R200, R323). `det`: its core has switched out, so its cycles are of %cyc. -/
structure ArrCmd where
  op : Instr
  gam : Half
  core : Nat
  ctx : Nat
  issue : Nat
  timed : Bool
  cmdIdx : Nat
  seg : Nat
  b : Option Nat
  g : Nat
  rAt : Nat
  e : Option Nat
  flags : BitVec 6
  wrec : List (Nat × Nat)
  touched : Bool
  notBefore : Nat
  xfer : Bool
  bankAt : Nat
  part : Map Half
  wts : List Byte
  scl : List Byte
  wait : FWait
  det : Bool
  deriving DecidableEq, Repr

/-- What K's next group stands behind. Cycles are of %cyc. -/
inductive Hold where
  /-- a boundary (R238, R240): a release and an acquire, each at its scope, complete at this cycle -/
  | boundary (rel acq : Option Nat) (at_ : Nat)
  /-- an acquire of `sacq` at this scope that takes effect at this cycle and delays nothing (R278) -/
  | acqAt (scope at_ : Nat)
  /-- a hit in the second level of the TLB: the group waits 2 cycles (R251) -/
  | pause (at_ : Nat)
  /-- a walk for an access of the waiting group (R251): address, kind of access (0 read, 1 write, 2 atomic), part
  of a split, the cycle it ends, the backoff interval and whether it was refused (R254), and the fault record it
  stands at -/
  | walk (va : Word) (kind part at_ interval : Nat) (refused : Bool) (placed : Option Nat)
  /-- a `tld` in progress (R41, R70): the slot to write next and the templates still to be written -/
  | tld (sq : Seq) (slot : Nat) (ts : List Template) (at_ : Nat)
  /-- an `mdef` whose entries have been read and are to be checked (R33, R71) -/
  | mdef (sq : Seq) (m : Nat) (es : List Word) (at_ : Nat)
  /-- a `launch` whose descriptor and loop table have been read and are to be checked (R110), and whether its release has begun -/
  | launch (desc tab : List Byte) (at_ : Nat) (released : Bool)
  /-- a `qfence.w` that waits for its join word (R276): its virtual and physical address, its target, and the group -/
  | join (va : Word) (pa target origin : Nat)
  /-- a domain read of `sacq.m`, `qfence.w` or a table read, or the response of an atomic with `.rel` or `.acq` (R242,
  R243): the access's number, and the scope of the acquire that follows -/
  | response (id : Nat) (acq : Option Nat)
  deriving DecidableEq, Repr

/-! ## Segments and contexts -/

/-- The running segment (R89, R94): the header's address and fields, the launch, unit and position it
belongs to, its loop coordinates, and what has been reported of it; `num`: its number among all segments that have started (R340). -/
structure Seg where
  num : Nat
  hdr : Word
  cost : Nat
  timed : Bool
  lease : Bool
  launch : Nat
  unit : Nat
  segNo : Nat
  trip : Nat
  lvl : List Half
  lastSeg : Bool
  overrun : Bool
  lastEnd : Nat
  deriving DecidableEq, Repr

/-- The state of a context on a core: what a switch writes to the core image and reads back (R7, R93, R138,
R341, R368). `sched` is %sched; `perr` is K's pending error and `more` the count of further ones (R346). Of a context that is
switched out: `hold`, what K stands behind; `held` and `heldArr`, commands issued that have not
begun (R340), by unit: 0 plane, 1 renew, 2 + k copy channel k. `flaws`: registers that hold an uncorrectable error (R348). -/
structure Image where
  k : SeqSt
  l : SeqSt
  c : SeqSt
  s : SeqSt
  wfile : Vector Word 192
  wbase : Nat
  wres : Nat
  wspl : Nat
  spcap : Nat
  vec : VecSt
  tkmap : Word
  tkcnt : Vector Nat 8
  sems : Map Nat
  semov : Word
  qb : Map Word
  cwp : Map Word
  jts : Map Word
  rid : Word
  stg : Staging
  flight : List Flight
  seg : Option Seg
  sched : Nat
  garrive : Nat
  perr : Option PErr
  more : Nat
  hold : Option Hold
  held : List (Nat × EngCmd)
  heldArr : List ArrCmd
  flaws : List RegFlaw
  token : Nat
  deriving DecidableEq, Repr

/-- A context's state on a core at its creation. DESIGN CHOICE (log 2). -/
def Image.init : Image :=
  { k := SeqSt.init, l := SeqSt.init, c := SeqSt.init, s := SeqSt.init, wfile := Vector.replicate 192 0,
    wbase := 0, wres := 24, wspl := 0, spcap := 0, vec := VecSt.init, tkmap := 0x0E09030C02080104,
    tkcnt := Vector.replicate 8 0, sems := [], semov := 0, qb := [], cwp := [],
    jts := [(0, 0x1000000000000), (1, 0x1000000000000), (2, 0x1000000000000), (3, 0x1000000000000)], rid := 0, stg := Staging.init, flight := [], seg := none, sched := 0, garrive := 0,
    perr := none, more := 0, hold := none, held := [], heldArr := [], flaws := [], token := 0 }

/-! ## Traps -/

/-- A trap record on its way to a trap queue (Table 17-1). `waits`: its core stays stopped until it has entered the queue (R339); `pend`: it
reports K's pending error, which its entry clears (R346). -/
structure TrapRec where
  seg : Word
  addr : Word
  tstep : Nat
  sched : Nat
  status : Half
  cmd : Nat
  cause : Nat
  engine : Nat
  uidx : Nat
  seq : Nat
  cls : Nat
  ctx : Nat
  die : Nat
  core : Nat
  npend : Nat
  more : Nat
  waits : Bool
  pend : Bool
  deriving DecidableEq, Repr

/-- How far a trap has stopped a core (R340): running; trapped at this schedule cycle, by a fault or not,
with the groups of that cycle still issuing; or stopped. -/
inductive Stop where
  | run
  | trapped (x cyc : Nat) (fault : Bool)
  | stopped (x : Nat) (fault : Bool)
  deriving DecidableEq, Repr

/-! ## Scratchpad -/

/-- Slab kinds (Table 10-2). -/
inductive SlabKind where
  | free | live | lost | stash | ring
  deriving DecidableEq, Repr

/-- Slab state (Table 10-2). -/
structure Slab where
  kind : SlabKind
  owner : Nat
  born : Bool
  stamp : Nat
  deriving DecidableEq, Repr

/-- A slab at module reset. -/
def Slab.init : Slab := { kind := .free, owner := 0, born := false, stamp := 0 }

/-- A write to the scratchpad on the present cycle, seen from the next (R154, R214). -/
inductive Post where
  /-- bytes from an address up; `fill`: a zero fill, which other writes override (R221) -/
  | bytes (la : Nat) (bs : List Byte) (fill : Bool)
  /-- a slab's new state -/
  | slab (n : Nat) (v : Slab)
  /-- a whole-slab write ends: born, with this stamp (R214) -/
  | stamp (n ts : Nat)
  /-- a granule's zero bit (R183) -/
  | zbit (g : Nat) (v : Bool)
  /-- bytes a copy channel has delivered for a context that the core runs (R282) -/
  | cwp (ch n ctx : Nat)
  deriving DecidableEq, Repr

/-- A stash entry (R223, R245): its block of global memory, fill time-step and order, and its dirty bytes, those published and not
yet written back included. -/
structure StashEnt where
  va : Nat
  ts : Nat
  order : Nat
  dirty : BitVec 256
  deriving DecidableEq, Repr

/-- The stash window (R222): its base and slab count, entries, a close in progress with its semaphore and the cycle it
completes, and the blocks missed and not yet filled. -/
structure Stash where
  base : Nat
  n : Nat
  ctx : Nat
  ents : Map StashEnt
  order : Nat
  closing : Option (Nat × Nat)
  missing : List Nat
  deriving DecidableEq, Repr

/-! ## Global memory and translation -/

/-- A pending write of a core, or one published at a scope narrower than the module: physical address, byte,
writing core, scope, serial number (of its store, once published of its release), and the virtual address, group index and context of the
store (R234, R238). -/
structure PWrite where
  pa : Nat
  b : Byte
  core : Nat
  scope : Nat
  ser : Nat
  va : Word
  origin : Nat
  ctx : Nat
  deriving DecidableEq, Repr

/-- A translation held (R250): context, virtual page number at this size, size in bits, physical base and the
leaf's attribute bits. -/
structure TlbEnt where
  ctx : Nat
  vbase : Nat
  lg : Nat
  pbase : Nat
  attr : BitVec 10
  deriving DecidableEq, Repr

/-- An access of K that has not returned (R230, R242): kind 0 a load, 1 a store, 2 an atomic, 3 the read of a `sacq.m` or
`qfence.w`; its destination, bytes so far (of a load from the snapshot, of an atomic the old value) and cause of an error
response; `want`: the domain requests it waits for (module, pseq, offset, length); `todo`: the operation (Table 11-3) of an atomic that
waits for earlier ones of its K: opcode code, unsigned, operand and compare value; `issue`: the schedule cycle of its issue (R20); `cached`: a
load, and its pages are cacheable in L2 (Table 12-3); `late`: bytes of a load, by place and offset, that a near-bank command's home agent holds back: they
are read once the command has completed (R321); `hid`: bytes of an atomic that later stores or a later acquire of its core stand over (R236); `scope`: that of its
request (Table 20-3); `old`: not 0 when it counts as translated with an entry that a `tlbinv` has dropped (R259). -/
structure GAcc where
  id : Nat
  kind : Nat
  dst : Option (Bool × Nat)
  raw : Nat
  nb : Nat
  sx : BitVec 1
  va : Word
  pa : Nat
  at_ : Nat
  ctx : Nat
  err : Option Nat
  origin : Nat
  want : List (Nat × Nat × Nat × Nat)
  todo : Option (Nat × Nat × Word × Word)
  issue : Nat
  cached : Bool
  late : List (Nat × Nat)
  hid : List Nat := []
  scope : Nat := 0
  old : Nat := 0
  deriving DecidableEq, Repr

/-- An incomplete `tlbinv` (R259): the cycle it completes at the earliest, and the accesses translated before it that had not been performed,
by their names (`State.translated`). -/
structure TlbInv where
  at_ : Nat
  olds : List (Nat × Nat × Nat × Nat)
  va : Option Word
  ctx : Nat
  deriving DecidableEq, Repr

/-- A semaphore increment that waits for its release (R278), of domain scope or not; `ser`: the number of the first access issued after it. -/
structure SemAdd where
  sem : Nat
  n : Nat
  at_ : Nat
  wide : Bool
  ser : Nat
  deriving DecidableEq, Repr

/-- A packet in the queue port (R271): the queue register's number and value, the packet, whether the claim
has been made and which slot it got, whether its bytes are on their way to another module and to what address, and the cycle of the next
attempt. -/
structure QPkt where
  q : Nat
  desc : Word
  pkt : BitVec 512
  claim : Option Nat
  sent : Bool
  slot : Word
  at_ : Nat
  wait : FWait
  origin : Nat
  ctx : Nat
  launch : Nat
  deriving DecidableEq, Repr

/-- A packet that a core's queue port has written and that has not completed: who placed it, where it stands, and whether it has failed since
(R269: it is taken again after a restart). -/
structure Placed where
  core : Nat
  ctx : Nat
  launch : Nat
  desc : Word
  slot : Nat
  kind : Nat
  failed : Bool
  deriving DecidableEq, Repr

/-- An emission queued (R416): its virtual and physical address, the record it emits, its semaphore, whether it waits for the partner
(R417), its core, context and group, and whether its bytes are on their way to another module. -/
structure Emission where
  va : Word
  pa : Nat
  bits : BitVec 1024
  sem : Nat
  waits : Bool
  core : Nat
  ctx : Nat
  origin : Nat
  sent : Bool
  deriving DecidableEq, Repr

/-- A digest sent to the replica peer and not yet compared (R426). -/
structure RepWait where
  core : Nat
  ctx : Nat
  step : Nat
  digest : Word
  sem : Nat
  origin : Nat
  deriving DecidableEq, Repr

/-- What the core does about segments (R363, R366, R368): idle with no qualifying row; to walk the timetable from a cycle on; waiting
for the other cores of a gang row; in steps 1 and 2 of a switch until a cycle, for another one (the cycle its step 3 ends, if that is
fixed, and the context) or to idle; in step 3 until a cycle; waiting for a header lease or, until a cycle, for a tile transfer (R372), of a segment
that is new or goes on; waiting, with such a segment, for the other cores of its gang; about to go on with a segment; running. -/
inductive Phase where
  | idle
  | advance (at_ : Nat)
  | gangWait (row : Nat)
  | drain (at_ : Nat) (next : Option (Nat × Nat))
  | load (ctx : Nat) (at_ : Nat)
  | leaseWait (at_ : Nat) (again : Bool)
  | gangStart (again : Bool)
  | resume
  | running
  deriving DecidableEq, Repr

/-- The plane unit, renew unit, copy channels, queue port and emissions of a core (R184, R220, R279, R271). -/
structure Units where
  plane : List EngCmd
  renew : List EngCmd
  chans : Map (List EngCmd)
  port : List QPkt
  deriving DecidableEq, Repr

/-- The memory side of a core (R234 to R259). `snap` is the snapshot of the present phase with the core's own
writes; `pend` the pending writes, oldest first; `remote` the bytes of other modules that the snapshot holds;
`rels`: releases that wait for an earlier atomic of K to be performed (R235), by the number of the first access after each, with its scope; `lines`: the reads of lines of other modules sent in the present phase and not answered: the line's
address, the module and the sequence number; `stale`: a `tlbinv` came while K's access was being translated (R259): the number of that access, and where K stood. -/
structure MemSide where
  snap : List Host.Cell
  pend : List PWrite
  gacc : List GAcc
  tlb : List TlbEnt
  tlbi : List TlbInv
  semAdds : List SemAdd
  hold : Option Hold
  remote : Map Byte
  rels : List (Nat × Nat)
  lines : List (Nat × Nat × Nat) := []
  stale : Option (Nat × Option Nat × Word) := none
  deriving DecidableEq, Repr

/-- The stops of a core (R96, R340, R346): frozen by the stall wire; waiting at a `galign` since a cycle, with
its arrival number, and the place of the `galign`; array replays of its commands; trap records to be sent. -/
structure Stops where
  frozen : Bool
  galign : Option (Nat × Nat)
  gpc : Word
  gpos : Option MPos
  replays : Nat
  stop : Stop
  recs : List TrapRec
  deriving DecidableEq, Repr

/-- A core's walk of the timetable (R363): row pointer, budget, whether the visit is new (or, of a core with no context, whether it has never
walked), priority of the row, the phase, whether it enters a gang row and has not begun there (R366), and the rows it has left, with their contexts, whose
busy bits stand (R376). -/
structure Walk where
  row : Nat
  budget : Nat
  fresh : Bool
  prio : Nat
  phase : Phase
  gang : Bool
  left : List (Nat × Nat)
  deriving DecidableEq, Repr

/-- A core: the context it runs (%ctx, %ptbase and the image), its scratchpad, its units and its stops; `windows`: stash windows by context; `bad`: bytes of scratchpad that
hold an uncorrectable error (R348). -/
structure Core where
  bound : Bool
  ctx : Nat
  ptbase : Word
  im : Image
  spad : List Host.Cell
  bad : List Nat
  zbits : Map Bool
  slabs : Map Slab
  posted : List Post
  windows : Map Stash
  ring : Option (Nat × Nat)
  swthr : Nat
  units : Units
  ms : MemSide
  stops : Stops
  walk : Walk
  deriving DecidableEq, Repr

/-- A core at module reset. DESIGN CHOICE (log 2). -/
def Core.init : Core :=
  { bound := false, ctx := 0, ptbase := 0, im := Image.init, spad := [], bad := [], zbits := [], slabs := [], posted := [],
    windows := [], ring := none, swthr := 256,
    units := { plane := [], renew := [], chans := [], port := [] },
    ms := { snap := [], pend := [], gacc := [], tlb := [], tlbi := [], semAdds := [], hold := none, remote := [], rels := [] },
    stops := { frozen := false, galign := none, gpc := 0, gpos := none, replays := 0, stop := .run, recs := [] },
    walk := { row := 0, budget := 0, fresh := true, prio := 0, phase := .idle, gang := false, left := [] } }

/-! ## Matrix arrays -/

/-- A tile (R169, Table 8-1); element (i, j) is key 256 i + j, zero where unlisted; `renewAt`: the %cyc cycle a rewrite by the sweeper ends (R256). -/
structure Tile where
  data : Map Half
  stamp : Nat
  born : Bool
  inuse : Bool
  dirty : Bool
  held : Bool
  holder : Nat
  owner : Nat
  renewAt : Option Nat
  deriving DecidableEq, Repr

/-- A tile at module reset. -/
def Tile.init : Tile :=
  { data := [], stamp := 0, born := false, inuse := false, dirty := false, held := false, holder := 0, owner := 0, renewAt := none }

/-- A lease request (R174, R175). -/
structure LeaseReq where
  core : Nat
  prio : Nat
  header : Bool
  deriving DecidableEq, Repr

/-- A matrix array (R169 to R180, R349): tiles, lease holder with its remaining count (none: header lease) and the context that it was granted to, pending
requests, the last grant, the cycle from which the array is free, queue, and the window of ended commands. -/
structure ArrSt where
  tiles : Map Tile
  holder : Option Nat
  count : Option Nat
  reqs : List LeaseReq
  lastGrant : Nat
  freeFrom : Nat
  queue : List ArrCmd
  lastEnd : Nat
  window : List ArrCmd
  lctx : Nat := 0
  deriving DecidableEq, Repr

/-- An array at module reset. -/
def ArrSt.init : ArrSt :=
  { tiles := [], holder := none, count := none, reqs := [], lastGrant := 3, freeFrom := 0, queue := [],
    lastEnd := 0, window := [] }

/-! ## Dies -/

/-- A fault record (Table 12-6). -/
structure FaultRec where
  va : Word
  tstep : Nat
  ctx : Nat
  cause : Nat
  level : Nat
  reason : Nat
  kind : Nat
  die : Nat
  core : Nat
  unit : Nat
  uidx : Nat
  joined : Nat
  state : Nat
  deriving DecidableEq, Repr

/-- A row's lease table entry (Table 18-3). -/
structure RowLease where
  busy : Word
  pend : Bool
  retire : Bool
  deriving DecidableEq, Repr

/-- A queue table entry (Table 18-9). -/
structure QEnt where
  v : Bool
  desc : Word
  ctx : Nat
  saved : Bool
  prog : Word
  deriving DecidableEq, Repr

/-- The front end of an attached queue (R264 to R269): what its descriptor said at attachment (`wpa`: the
physical address of its widx), the highest widx observed, the progress pointer, the packets completed beyond it, the cycle of the next
take, and a wait; `fresh`: no translation has been dropped since widx was translated (R258, R445). -/
structure Front where
  engine : Nat
  unit : Nat
  lsize : Nat
  base : Word
  wpa : Nat
  widx : Nat
  ridx : Nat
  done : List Nat
  at_ : Nat
  wait : FWait
  fresh : Bool
  deriving DecidableEq, Repr

/-- An error log entry (Table 17-4). -/
structure ErrEnt where
  pa : Nat
  va : Word
  tstep : Nat
  ctx : Nat
  cause : Nat
  engine : Nat
  core : Nat
  die : Nat
  deriving DecidableEq, Repr

/-- A reject log entry (Table 15-3). -/
structure RejEnt where
  va : Word
  bound : Word
  tstep : Nat
  ctx : Nat
  reason : Nat
  src : Nat
  core : Nat
  die : Nat
  deriving DecidableEq, Repr

/-- A compute die: scheduling block (Table 18-1), fault buffer, trap queue and the records waiting to enter it,
logs with their counts, sketch, its registers, front ends; `walkq`: who has a walk before the die's 16 page walkers, in order of arrival (R250):
the K of core c is c, the prefetch of agent a is 1,024 + a, and an access of agent a is 8,192 + a, with the cycle it last asked for it in `walkAsk`; `slabRen`: slabs a SLABCMD has yet to rewrite, by cycle, core, slab and context (R375);
`takeAt`, `lastTake`: when the front end of an engine may take a packet again, and the queue it took the last one of, by engine (R377). -/
structure Die where
  rows : Map (BitVec 256)
  pending : Map (BitVec 256)
  leases : Map RowLease
  ttctl : Word
  slabcmd : Word
  slabBusy : Nat
  slabRen : List (Nat × Nat × Nat × Nat)
  tlbcmd : Word
  tlbBusy : Nat
  tlbOlds : List (Nat × Nat × Nat × Nat)
  qtab : Map QEnt
  fronts : Map Front
  fbuf : Map FaultRec
  trapq : List (BitVec 512)
  trapWait : List TrapRec
  elogN : Nat
  elog : Map ErrEnt
  rlogN : Nat
  rlog : Map RejEnt
  sketch : Map Nat
  skcfg : Word
  decayed : Nat
  walkq : List Nat
  walkAsk : Map Nat := []
  takeAt : Map Nat
  lastTake : Map Nat
  deriving DecidableEq, Repr

/-- A die at module reset. -/
def Die.init : Die :=
  { rows := [], pending := [], leases := [], ttctl := 0, slabcmd := 0, slabBusy := 0, slabRen := [], tlbcmd := 0, tlbBusy := 0, tlbOlds := [],
    qtab := [], fronts := [], fbuf := [], trapq := [], trapWait := [], elogN := 0, elog := [], rlogN := 0, rlog := [],
    sketch := [], skcfg := 0, decayed := 0, walkq := [], takeAt := [], lastTake := [] }

/-! ## Engines and the module -/

/-- How far a packet has come: taken; dispatched to a near-bank unit; performed, its writes made or, for a
job card, ready to be made at commit. -/
inductive WStage where
  | taken | dispatched | performed | committed
  deriving DecidableEq, Repr

/-- A packet an engine has taken (R266). `q`: its queue (256 die + index); `idx`: packet number; `out`: the
global writes, and `posts` the local ones, a job card makes at commit; `cause`: 0 or why it failed; `run`, `pos`: the run a copy has come to, and its indices;
`chan`: the queue channel that serves a copy (R279); `buf`: the descriptor it names, as read for it (R280, R285); `signalled`: its completion is being
signalled; `ext`: the place and size of the extent of a near-bank command, and whether it writes it, from its dispatch on (R321); `sent`: writes of a copy to other
modules: physical address, run and virtual address (R283); `rows`: commands of a pooling card that no near-bank unit has taken yet: unit and unit cycles (R313). -/
structure Work where
  q : Nat
  idx : Nat
  ctx : Nat
  pkt : BitVec 512
  stage : WStage
  out : List (Nat × List Byte)
  posts : List (Nat × Nat × List Byte)
  frames : List (Nat × List Byte)
  cause : Nat
  run : Nat
  pos : List Nat
  erraddr : Word
  errstat : Half
  at_ : Nat
  joined : Bool
  parts : List (BitVec 256)
  since : Nat
  wait : FWait
  chan : Nat
  buf : List Byte
  signalled : Bool
  ext : Option (Nat × Nat × Bool)
  sent : List (Nat × Nat × Word) := []
  rows : List (Nat × Nat) := []
  deriving DecidableEq, Repr

/-- A hot-row directory entry (R301), with the frame's bytes. -/
structure Frame where
  valid : Bool
  dirty : Bool
  pin : Bool
  ctx : Nat
  tid : Nat
  row : Nat
  home : Nat
  rb : Nat
  deriving DecidableEq, Repr

/-- A fill of a row asked for and not yet performed (R299, R303). -/
structure FillReq where
  die : Nat
  ctx : Nat
  tid : Nat
  row : Nat
  home : Nat
  rb : Nat
  deriving DecidableEq, Repr

/-- A unit of a launch on a core (R111): its coordinates, what of it has run, the cycle it ended, and the cycle from which
it counts as triggered (R114). -/
structure LUnit where
  core : Nat
  coords : List Half
  nextSeg : Nat
  nextTrip : Nat
  started : Bool
  ended : Bool
  endCyc : Nat
  triggered : Option Nat
  deriving DecidableEq, Repr

/-- An accepted launch (R110 to R114): the launching core, the descriptor's fields, levels (kind, count) and
units, in order of acceptance; `remote`, `trigRemote`: ranks of the group that have not reported their units ended or triggered;
`origin`: of a launch that another member accepted, its rank and the launch's number there; `grp`: %dgrp when it was accepted here (R393). -/
structure Launch where
  id : Nat
  ctx : Nat
  core : Nat
  csem : Nat
  tsem : Nat
  tren : Bool
  trigDone : Bool
  nseg : Nat
  kaddr : Word
  levels : List (Nat × Nat)
  units : List LUnit
  entry : Bool
  startTs : Nat
  started : Bool
  remote : List Nat
  trigRemote : List Nat
  origin : Option (Nat × Nat)
  grp : Word
  deriving DecidableEq, Repr

/-- The removal of a context in progress (R356): its step and that step's deadline, and what its record will name. -/
structure Removal where
  step : Nat
  deadline : Nat
  cause : Nat
  engine : Nat
  unit : Nat
  status : Half
  deriving DecidableEq, Repr

/-- A wire: the stall wire of a statically synchronised group (R255), its context and cores, asserted from `f` and deasserted at `u`. -/
structure Wire where
  ctx : Nat
  cores : List Nat
  f : Nat
  u : Option Nat
  recs : List (Nat × Nat)
  deriving DecidableEq, Repr

/-- A request of this module to another (R395 to R399), with its attempts and the cycle it was last sent;
`skip`: it was ended and its skip is not yet acknowledged; `va`, `origin`: of a store of K, its address and group; `fills`: a read whose bytes the L2 may keep:
neither a domain acquire nor a later access to the line has come since it was sent. -/
structure DReq where
  target : Nat
  pseq : Nat
  hdr : BitVec 384
  data : List Byte
  core : Nat
  acc : Nat
  tries : Nat
  sentAt : Nat
  skip : Bool
  va : Word
  origin : Nat
  fills : Bool := true
  deriving DecidableEq, Repr

/-- What a target keeps for a source module (R395, R398): the next pseq, those skipped, requests that wait,
identifiers with their old values and cycles, and the pseqs of writes that it has refused. -/
structure DPeer where
  next : Nat
  skipped : List Nat
  waiting : List (BitVec 384 × List Byte)
  ids : List (Nat × Word × Nat)
  refused : List Nat
  deriving DecidableEq, Repr

/-- What the peers send that no step of the table carries by itself (R393, R403, R404). -/
inductive PeerMsg where
  /-- a member's contribution to a collective of a context: its rank, number, n, scale, format, values -/
  | contribution (member ctx num n : Nat) (e : Int) (fmt : Nat) (vals : List Half)
  /-- the partials a shard owner returns for shard k of a packet, in order of bag and column, their NV, or the cause and entry of a
  failure -/
  | partials (q idx k : Nat) (ps : List (BitVec 256)) (nv : Bool) (cause run : Nat)
  /-- a member's units of an M-level launch have ended -/
  | unitsEnded (member launch : Nat)
  /-- a member's units of an M-level launch are all triggered -/
  | unitsTriggered (member launch : Nat)
  /-- a member has accepted an M-level launch of a context: its number there, its time-step of acceptance, its descriptor and loop
  table -/
  | launchM (member launch ctx ts : Nat) (grp : Word) (desc tab : List Byte)
  /-- a member refuses an M-level launch (R393) -/
  | launchRefused (member launch : Nat)
  /-- the D of the table of shard k of a packet, or the cause of its failure, from its owner (R402) -/
  | shardTable (q idx k d cause : Nat)
  /-- a retract notice of another module (R425): its %modid, the sequence and the step -/
  | retracted (modid seqn step : Nat)
  /-- a function reads bytes of its window (R408) -/
  | hostRead (port fn : Nat) (addr : Word) (n : Nat)
  /-- a function reads a doorbell slot (R408) -/
  | slotRead (port fn slot : Nat)
  /-- the management core reads n bytes of register and queue space (R360) -/
  | spaceRead (pa n : Nat)
  /-- another module asks for the D of a shard's table: the module, the packet, the shard, the context and the descriptor's address -/
  | tableAsk (src q idx k ctx : Nat) (va : Word) (wait : FWait)
  /-- another module asks for the partials of its entries of a shard: as before, with e, wt, the entries of a bag, the bags, and entries: their
  places in the list, their rows in the shard and their weights (R403) -/
  | poolAsk (src q idx k ctx : Nat) (va : Word) (e : Int) (wt : Bool) (per bags : Nat) (ents : List (Nat × Nat × Nat)) (wait : FWait)
  deriving DecidableEq, Repr

/-- What the module sends out. `stamp`: the module generation at the departure of a result (R353). A notice without a destination goes to both
hosts. -/
inductive Msg where
  | domain (hdr : BitVec 384) (data : List Byte)
  | journal (dst : Nat) (rec : BitVec 1024)
  | journalAck (dst upto : Nat)
  | replica (dst ctx step : Nat) (digest : Word)
  | suspectNotice (dst : Option Nat) (modid unit k₁ k tstep : Nat)
  | confirmNotice (dst : Option Nat) (modid seqn k : Nat)
  | retractNotice (dst : Option Nat) (modid seqn step : Nat)
  | launchM (member launch ctx ts : Nat) (grp : Word) (desc tab : List Byte)
  | launchRefused (member launch : Nat)
  | unitsEnded (member launch : Nat)
  | unitsTriggered (member launch : Nat)
  | contribute (member ctx num n : Nat) (e : Int) (fmt : Nat) (vals : List Half) (stamp : Nat)
  | tableAsk (dst q idx k ctx : Nat) (va : Word)
  | shardTable (dst q idx k d cause : Nat)
  | poolAsk (dst q idx k ctx : Nat) (va : Word) (e : Int) (wt : Bool) (per bags : Nat) (ents : List (Nat × Nat × Nat))
  | partials (dst q idx k : Nat) (ps : List (BitVec 256)) (nv : Bool) (cause run stamp : Nat)
  | hostEvent (port : Nat)
  | record (port : Nat) (r : BitVec 512)
  | quote (m : BitVec 256) (sig : BitVec 512)
  | completerAbort (port fn : Nat)
  | hostData (port fn : Nat) (v : Word)
  | hostBytes (port fn : Nat) (bs : List Byte)
  | spaceData (pa : Nat) (v : Option Word)
  | checkpoint (cells : List Host.Cell)
  deriving DecidableEq, Repr

/-- A record appended that the journal engine has not yet taken (R414): its index, the record, the core that appended it (128: a packet), and the
cycle from which the engine may take it. -/
structure JTake where
  ix : Nat
  bits : BitVec 1024
  core : Nat
  at_ : Nat
  deriving DecidableEq, Repr

/-- What a partner holds of a module's journal (R411): it holds every record below `next`, if it knows where the module's journal begins, and the
records of these indices above. -/
structure KeptPos where
  next : Option Nat
  ahead : List Nat
  deriving DecidableEq, Repr

/-- The journal engine and what the module keeps for others (R410 to R427). `jidx`: the next journal index; `ring`: the records of the
local ring that are not truncated, oldest first; `queue`: those of them that the engine has not taken, oldest first; `acked`: the partner holds every record below this index, and `ackAt`, the cycle since which
that has not advanced while records are outstanding; `stores`: replay stores by context; `ckpts`: by context and sequence, the step of the last
checkpoint record; `kept`: the journal store of each module whose partner this one is, and `keptPos`, how far it goes; `reps`, `peerReps`: digests that wait for the
peer's, and those of the peer (context, step, digest) that wait; `disputes`: context, step, and how many comparisons have differed (R427);
`retracted`: context and sequence (R425). -/
structure Journal where
  jctl : Word
  jring : Word
  jidx : Nat
  ring : List (Nat × BitVec 1024)
  queue : List JTake
  acked : Nat
  ackAt : Nat
  lost : Bool
  emissions : List Emission
  stores : Map (List (BitVec 1024))
  ckpts : List (Nat × Nat × Nat)
  kept : Map (List (BitVec 1024))
  keptPos : Map KeptPos
  reps : List RepWait
  peerReps : List (Nat × Nat × Word)
  disputes : List (Nat × Nat × Nat)
  retracted : List (Nat × Nat)
  deriving DecidableEq, Repr

/-- The journal engine at reset: JCTL 0, jidx 0, nothing held. -/
def Journal.init : Journal :=
  { jctl := 0, jring := 0, jidx := 0, ring := [], queue := [], acked := 0, ackAt := 0, lost := false, emissions := [], stores := [], ckpts := [],
    kept := [], keptPos := [], reps := [], peerReps := [], disputes := [], retracted := [] }

/-- A virtual function's binding (R408): the context and the queue table entries its doorbell slots reach. -/
structure VfBind where
  ctx : Nat
  slots : Map Nat
  deriving DecidableEq, Repr

/-- Boot, power and hosts (R407 to R409, R434 to R441). `boot`: the copies in flash as the module reset found them, from which it boots (R437). -/
structure Platform where
  bootStep : Nat
  recovery : Bool
  flash : Map (List Byte)
  floor : Nat
  minsec : Map Nat
  boot : Map (List Byte)
  measure : BitVec 256
  thermal : Bool
  hot : Bool
  resetReq : Bool
  linkUp : Map Bool
  vfs : Map VfBind
  takeover : Option Nat
  deriving DecidableEq, Repr

/-- Boot state at module reset, with flash as it stands. DESIGN CHOICE (log 2). -/
def Platform.init : Platform :=
  { bootStep := 2, recovery := false, flash := [], floor := 0, minsec := [], boot := [], measure := 0, thermal := false, hot := false,
    resetReq := false, linkUp := [], vfs := [], takeover := none }

/-- The near-bank control store and entry table (R324), and the pooling and update entry points installed. -/
structure Stores where
  words : Map (BitVec 192)
  entries : Map (BitVec 16)
  poolEps : List Nat
  updEps : List Nat
  deriving DecidableEq, Repr

/-- What another module answered to an engine's access: the agent, the physical address, the data, and the cause of an error
response. -/
structure Answer where
  agent : Nat
  pa : Nat
  bytes : List Byte
  cause : Nat
  deriving DecidableEq, Repr

/-- Where an uncorrectable error strikes (R348): a byte of a core's scratchpad, a byte at its home, or a place of the context a core runs. -/
inductive Struck where
  | spad (core la : Nat)
  | home (pa : Nat)
  | reg (core : Nat) (x : RegFlaw)
  | vec (core : Nat) (x : VecFlaw)
  deriving DecidableEq, Repr

/-- The domain and the deterministic group (R389 to R399). `answers`: what engines have been answered by other modules and still
need; `owed`: context and rank of contributions to come for collectives that have failed already (R404), and `doomed`: context, and how many collectives of it are
over before one that fails because a member has left before it contributed to it; `l2`: the L2 copies
of bytes of the domain window, by physical address (R228, R396);
`stamps`: the modules that results have been sent to, with the stamps of those (R353, R354). -/
structure Domain where
  modid : Nat
  members : List Nat
  dgrp : Word
  nextPseq : Map Nat
  reqs : List DReq
  peers : Map DPeer
  sent : List (Nat × Nat)
  held : List (Nat × Nat × Nat)
  inbox : List (Nat × PeerMsg)
  owed : List (Nat × Nat)
  doomed : List (Nat × Nat) := []
  answers : List Answer
  l2 : Map Byte
  stamps : List (Nat × Nat)
  deriving DecidableEq, Repr

/-- No domain. -/
def Domain.init : Domain :=
  { modid := 0, members := [], dgrp := 0, nextPseq := [], reqs := [], peers := [], sent := [], held := [], inbox := [],
    owed := [], answers := [], l2 := [], stamps := [] }

/-- The group being issued (R12, R46): the core and sequencer, the address of its first word and of the word
after it, what the issue status word tells of it, and the earliest cycle R14 gives it. -/
structure Cur where
  core : Nat
  sq : Seq
  first : Word
  nxt : Word
  word : Nat
  fsel : Nat
  slot : Nat
  inmac : Bool
  entry : Nat
  entries : Nat
  macro_ : Nat
  earliest : Nat
  deriving DecidableEq, Repr

/-- A group of core 0's K sequencer at address 0. -/
def Cur.init : Cur :=
  { core := 0, sq := .k, first := 0, nxt := 4, word := 0, fsel := 0, slot := 0, inmac := false, entry := 0, entries := 0,
    macro_ := 0, earliest := 0 }

/-- The whole module. Scan units: 0 to 31 the arrays, 32 to 159 the vector units; `gens`: their generations; `healed`: fenced ones that have passed a scan since; `scans`: the
scans a unit has had (R351); `usedBy`: unit, and image key, of contexts bound to it since its last pass. `images`: the contexts' images on cores that do not run them, by 128 × context + core;
`archive`: what switches have written into core images in memory, by the token that stands there for it (R368, R378). `relQ`: releases aimed at a semaphore of a context that its core does not run (R369): context, core and
semaphore. `entered`: the image keys of contexts that have been on a core (R379); `usedCkpt`: unit, and context, of those bound to it since the context's last checkpoint (R427). `nbHeld`: when the commands end that a near-bank unit holds (R313). `stlb`: the stream TLBs (R250, R252), newest entry first, by agent: copy channel k of core c is 4c + k, the array of
quad q of die d is 512 + 16d + q, the index engine of core c is 544 + c, the front end for engine e of die d is 672 + 8d + e, and queue
channel k of die d is 688 + 16d + k; `pfetch`: the context and page an agent's stream TLB is to walk for. `descs`: the context
descriptor that a record bound last, by context (R361). `bad`: bytes at their homes that hold an uncorrectable error; `strikes`: the errors that
are to strike, in order of their %cyc cycles (R348). `linkErr`: cores whose next access over the link between the dies meets an uncorrectable
error (R388). -/
structure State where
  cyc : Nat
  cores : Map Core
  arrays : Map ArrSt
  dies : Map Die
  mem : List Host.Cell
  blog : List PWrite
  images : Map Image
  archive : Map Image
  launches : List Launch
  entryDone : List Nat
  works : Map Work
  frames : Map Frame
  fills : List FillReq
  hrcfg : Word
  wires : List Wire
  removals : Map Removal
  gens : Map Nat
  fenced : List Nat
  healed : List Nat
  scans : Map Nat
  usedBy : List (Nat × Nat)
  usedCkpt : List (Nat × Nat)
  entered : List Nat
  stores : Stores
  jrnl : Journal
  dom : Domain
  plat : Platform
  inputs : List (Nat × Instr)
  outbox : List Msg
  relQ : List (Nat × Nat × Nat)
  placed : List Placed
  nbHeld : Map (List Nat)
  stlb : Map (List TlbEnt)
  pfetch : Map (Nat × Word)
  descs : Map Nat
  bad : List Nat
  strikes : List (Nat × Struck)
  linkErr : List Nat
  draws : Nat
  serial : Nat
  cur : Cur
  deriving DecidableEq, Repr

/-- The module right after reset. DESIGN CHOICE (log 2). -/
def State.reset : State :=
  { cyc := 0, cores := [], arrays := [], dies := [], mem := [], blog := [], images := [], archive := [], launches := [],
    entryDone := [], works := [], frames := [], fills := [], hrcfg := 0, wires := [], removals := [],
    gens := [], fenced := [], healed := [], scans := [], usedBy := [], usedCkpt := [], entered := [], stores := { words := [], entries := [], poolEps := [], updEps := [] },
    jrnl := Journal.init, dom := Domain.init, plat := Platform.init, inputs := [], outbox := [], relQ := [], placed := [], nbHeld := [], stlb := [],
    pfetch := [], descs := [], bad := [], strikes := [], linkErr := [],
    draws := 0, serial := 0, cur := Cur.init }

end Sys2Proof.Machine
end

