-- ==== Sys2Proof/Machine/Ops.lean ====
section
/-! DEFINITION. The named operations over the state: reaching a core, sequencer, array or die; results in
flight; how an issued group ends; taking a trap and resuming from one. -/
namespace Sys2Proof.Machine

/-! ## Parts of the state -/

/-- A core of the module (64 die + %coreid). -/
def State.core (s : State) (c : Nat) : Core := mget Core.init s.cores c

/-- The state with one core replaced. -/
def State.setCore (s : State) (c : Nat) (x : Core) : State := { s with cores := mset s.cores c x }

/-- The state with one core changed. -/
def State.modCore (s : State) (c : Nat) (f : Core → Core) : State := s.setCore c (f (s.core c))

/-- An array (16 die + quad). -/
def State.arr (s : State) (a : Nat) : ArrSt := mget ArrSt.init s.arrays a

/-- The state with one array changed. -/
def State.modArr (s : State) (a : Nat) (f : ArrSt → ArrSt) : State := { s with arrays := mset s.arrays a (f (s.arr a)) }

/-- A die. -/
def State.die (s : State) (d : Nat) : Die := mget Die.init s.dies d

/-- The state with one die changed. -/
def State.modDie (s : State) (d : Nat) (f : Die → Die) : State := { s with dies := mset s.dies d (f (s.die d)) }

/-- The state with a core's context state changed. -/
def State.modIm (s : State) (c : Nat) (f : Image → Image) : State := s.modCore c (fun x => { x with im := f x.im })

/-- The state with a core's vector state changed. -/
def State.modVec (s : State) (c : Nat) (f : VecSt → VecSt) : State := s.modIm c (fun x => { x with vec := f x.vec })

/-- The state with a core's memory side changed. -/
def State.modMs (s : State) (c : Nat) (f : MemSide → MemSide) : State := s.modCore c (fun x => { x with ms := f x.ms })

/-- The state with a core's stops changed. -/
def State.modStops (s : State) (c : Nat) (f : Stops → Stops) : State :=
  s.modCore c (fun x => { x with stops := f x.stops })

/-- The state with a core's units changed. -/
def State.modUnits (s : State) (c : Nat) (f : Units → Units) : State :=
  s.modCore c (fun x => { x with units := f x.units })

/-- The state with a core's walk changed. -/
def State.modWalk (s : State) (c : Nat) (f : Walk → Walk) : State := s.modCore c (fun x => { x with walk := f x.walk })

/-- A sequencer of a context. -/
def Image.seq (im : Image) (q : Seq) : SeqSt :=
  match q with
  | .k => im.k
  | .l => im.l
  | .c => im.c
  | .s => im.s

/-- A context's state with one sequencer replaced. -/
def Image.setSeq (im : Image) (q : Seq) (x : SeqSt) : Image :=
  match q with
  | .k => { im with k := x }
  | .l => { im with l := x }
  | .c => { im with c := x }
  | .s => { im with s := x }

/-- The state with one sequencer of a core changed. -/
def State.modSeq (s : State) (c : Nat) (q : Seq) (f : SeqSt → SeqSt) : State :=
  s.modIm c (fun im => im.setSeq q (f (im.seq q)))

/-- The die of a core. -/
def dieOf (c : Nat) : Nat := c / 64

/-- The array of a core's quad (R106). -/
def arrOf (c : Nat) : Nat := c / 4

/-- %tstep (R10). -/
def State.tstep (s : State) : Nat := tstepOf s.cyc

/-- 1 ms of core cycles (R398): 3,000,000 (R176 gives 75,485,184 cy as 25.2 ms). -/
def oneMs : Nat := 3000000

/-- %sgen: the least scan generation of the 160 units (R352). -/
def State.sgen (s : State) : Nat :=
  (upTo 0 160).foldl (fun a u => Nat.min a (mget 0 s.gens u)) (mget 0 s.gens 0)

/-- The schedule counter of a core. -/
def State.sched (s : State) (c : Nat) : Nat := (s.core c).im.sched

/-- The running segment of a core is timed. -/
def Core.timed (co : Core) : Bool :=
  match co.im.seg with
  | some g => g.timed
  | none => false

/-- A core's schedule counter is frozen on this cycle (R96). -/
def Core.frozenAt (co : Core) (cyc : Nat) : Bool :=
  co.stops.frozen || decide (cyc < co.stops.replays) ||
  (match co.stops.galign with
   | some (f, _) => decide (f ≤ cyc)
   | none => false) ||
  (match co.stops.stop with
   | .stopped _ _ => true
   | .trapped _ t _ => decide (t < cyc)
   | .run => false)

/-- A free latency (log 4): the cycle `least` cycles from now and a free number more; one draw is used. -/
def State.later (s : State) (least : Nat) : Nat × State :=
  (s.cyc + least + Config.latency s.draws, { s with draws := s.draws + 1 })

/-- The module that a message takes a result to. -/
def Msg.recipient (m : Msg) : Option Nat :=
  match m with
  | .domain h _ => some (fld h.toNat 80 16)
  | .journal d _ => some d
  | .replica d _ _ _ => some d
  | .contribute d _ _ _ _ _ _ _ => some d
  | .partials d _ _ _ _ _ _ _ _ => some d
  | _ => none

/-- The state with a message sent out: whom a result has gone to is kept, with its stamp, while it is provisional (R353, R354). -/
def State.send (s : State) (m : Msg) : State :=
  let g := s.sgen
  { s with
    outbox := s.outbox ++ [m],
    dom := (match m.recipient with
      | some d =>
        { s.dom with stamps := (d, g) :: s.dom.stamps.filter (fun p => decide (g < p.2 + 2) && decide (p ≠ (d, g))) }
      | none => s.dom) }

/-- A notice that reaches the hosts and the modules of the domain (R354, R425). -/
def State.notice (s : State) (dsts : List Nat) (m : Option Nat → Msg) : State :=
  (((nubBy (fun a b => a == b) (dsts ++ s.dom.members)).filter (fun r => decide (r ≠ s.dom.modid))).foldl (fun s r => s.send (m (some r)))
    (((s.send (m none)).send (.hostEvent 0)).send (.hostEvent 1)))

/-! ## The group being issued -/

/-- The core of the group being issued. -/
def State.me (s : State) : Core := s.core s.cur.core

/-- The sequencer of the group being issued. -/
def State.mySeq (s : State) : SeqSt := s.me.im.seq s.cur.sq

/-- The group's schedule cycle. -/
def State.t (s : State) : Nat := s.me.im.sched

/-- The index, within the patch stream, of a sequencer's present group (R337). -/
def SeqSt.index (q : SeqSt) : Nat := (q.pc - q.base).toNat / 4 % 2 ^ 14

/-! ## Results in flight (R19, R20) -/

/-- Results are written in due order, then in issue order (R20). -/
def flightLe (a b : Flight) : Bool :=
  decide (a.due < b.due) || (decide (a.due = b.due) &&
    (decide (a.issue < b.issue) || (decide (a.issue = b.issue) && decide (a.ord ≤ b.ord))))

/-- A result put in flight on a core. -/
def State.pushFlight (s : State) (c : Nat) (f : Flight) : State :=
  s.modIm c (fun im => { im with flight := insertBy flightLe f im.flight })

/-- A result of the present group, due after `lat` cycles (R19). -/
def State.result (s : State) (lat ord : Nat) (fx : Fx) : State :=
  s.pushFlight s.cur.core { due := s.t + lat, issue := s.t, ord := ord, sq := s.cur.sq, fx := fx }

/-! ## How a group ends -/

/-- What a trap reports besides what the machine adds (R337). -/
structure TrapInfo where
  cause : Nat
  status : Half
  addr : Word
  cls : Nat
  engine : Nat
  uidx : Nat
  deriving DecidableEq, Repr

/-- How the issue of a group ends: its effect took place; it transfers control; it waits (R97, R98), for a
kind and object of Table 5-2; it traps with no effect (R23); it traps after something has been logged or dropped; it took place
and then traps (R76); or K raises a pending error at it (R346). -/
inductive Act where
  | done (s : State)
  | jump (s : State) (target : Word) (delay : Nat)
  | wait (s : State) (kind obj lacks : Nat)
  | trap (t : TrapInfo)
  | fail (s : State) (t : TrapInfo)
  | trapDone (s : State) (t : TrapInfo)
  | pend (s : State) (e : PErr)

/-- The sequencer after it has left the macro it was inside of: a redefinition that waited for that takes place (R71). -/
def SeqSt.leave (q : SeqSt) : SeqSt :=
  { q with
    macros := (match q.mpos, q.redef with
      | some m, some es => mset q.macros m.m es
      | _, _ => q.macros),
    mpos := none, redef := none }

/-- The sequencer past the group: after a macro body's last entry it goes on behind the call (R17, R34). -/
def SeqSt.advance (q : SeqSt) (u : Cur) : SeqSt :=
  if u.inmac then
    match q.mpos with
    | some m =>
      if m.body.length ≤ u.entry + u.entries then { q.leave with pc := m.ret }
      else { q with mpos := some { m with next := u.entry + u.entries } }
    | none => { q with pc := u.nxt }
  else { q with pc := u.nxt }

/-- The sequencer after its group issued on schedule cycle t (R14). -/
def SeqSt.issued (q : SeqSt) (t : Nat) : SeqSt :=
  { q with last := some t, delay := 0, waiting := none, tried := none, pin := none }

/-- The state after the present group has issued and control goes past it. -/
def State.retire (s : State) : State :=
  s.modSeq s.cur.core s.cur.sq (fun q => (q.issued s.t).advance s.cur)

/-- The state after the present group has transferred control (R18, R61). -/
def State.retireTo (s : State) (target : Word) (delay : Nat) : State :=
  s.modSeq s.cur.core s.cur.sq (fun q => { q.issued s.t with pc := target, delay := delay })

/-- The trap record of a sequencer of a core (Table 17-1), before npend is known. -/
def State.record (s : State) (c : Nat) (q : Seq) (t : TrapInfo) (cmd : Nat) (more : Nat) : TrapRec :=
  let co := s.core c
  { seg := (match co.im.seg with
      | some g => g.hdr
      | none => 0),
    addr := t.addr, tstep := s.tstep, sched := co.im.sched, status := t.status, cmd := cmd, cause := t.cause,
    engine := t.engine, uidx := t.uidx, seq := q.code, cls := t.cls, ctx := co.ctx, die := dieOf c, core := c % 64,
    npend := 0, more := more, waits := true, pend := false }

/-- The 64 bytes of a trap record (Table 17-1). -/
def TrapRec.bits (r : TrapRec) : BitVec 512 :=
  BitVec.ofNat 512 (r.seg.toNat * 2 ^ 448 + r.addr.toNat * 2 ^ 384 + r.tstep % 2 ^ 64 * 2 ^ 320 + r.sched % 2 ^ 64 * 2 ^ 256 +
    r.status.toNat * 2 ^ 224 + r.cmd % 2 ^ 16 * 2 ^ 208 + r.cause % 2 ^ 8 * 2 ^ 200 + r.engine % 2 ^ 4 * 2 ^ 196 + r.uidx % 2 ^ 6 * 2 ^ 190 +
    r.seq % 2 ^ 2 * 2 ^ 188 + r.cls % 2 ^ 2 * 2 ^ 186 + r.ctx % 2 ^ 10 * 2 ^ 176 + r.die % 2 * 2 ^ 175 + r.core % 2 ^ 6 * 2 ^ 169 +
    r.npend % 2 ^ 9 * 2 ^ 160 + r.more % 2 ^ 8 * 2 ^ 152)

/-- The number of a core's running segment. -/
def Image.segNum (im : Image) : Nat :=
  match im.seg with
  | some g => g.num
  | none => 0

/-- The stop of a core after a trap on this cycle: a fault prevails over a requested trap (R343). -/
def Stop.trapAt (st : Stop) (x cyc : Nat) (fault : Bool) : Stop :=
  match st with
  | .run => .trapped x cyc fault
  | .trapped x' c' f => .trapped x' c' (f || fault)
  | .stopped x' f => .stopped x' f

/-- The lease of a core ends on this cycle, and a request of its own for a counted lease goes (R173). -/
def ArrSt.endLease (a : ArrSt) (c cyc : Nat) : ArrSt :=
  let b := { a with reqs := a.reqs.filter (fun r => !decide (r.core = c) || r.header) }
  if a.holder = some c then { b with holder := none, count := none, freeFrom := cyc + 1 } else b

/-- A lease that a core holds for a context that it has left, whose segment a trap had stopped (R173). -/
def ArrSt.parked (a : ArrSt) (c ctx : Nat) : Bool := decide (a.holder = some c) && decide (a.lctx ≠ ctx)

/-- The counted lease of a core ends on this cycle (R173); a segment's own stands (R175), and so does one of a context that the core has left. -/
def State.endCounted (s : State) (c : Nat) : State :=
  if (s.arr (arrOf c)).holder = some c ∧ ((s.arr (arrOf c)).count = none ∨ (s.arr (arrOf c)).lctx ≠ (s.core c).ctx) then s
  else s.modArr (arrOf c) (fun a => a.endLease c s.cyc)

/-- TAKING A TRAP (R23, R340): the record is kept to be sent, the core's trap cycle is set, and the sequencer
does not issue again on this cycle. Its pc and state stand as they are. -/
def State.takeTrap (s : State) (c : Nat) (q : Seq) (t : TrapInfo) (cmd more : Nat) : State :=
  ((if q = .c then s.endCounted c else s).modStops c (fun st =>
    { st with recs := st.recs ++ [s.record c q t cmd more],
              stop := st.stop.trapAt (s.core c).im.sched s.cyc (decide (t.cls ≠ 1)) })).modSeq c q
    (fun x => { x with tried := some s.cyc, pin := none })

/-- A trap of the present group. -/
def State.trapHere (s : State) (t : TrapInfo) : State :=
  s.takeTrap s.cur.core s.cur.sq t s.mySeq.index 0

/-- K raises its pending error at the present group, in a class 2 record, whose sending clears it (R346). -/
def State.raisePending (s : State) (e : PErr) : State :=
  let c := s.cur.core
  let r := { s.record c .k { cause := e.cause, status := e.status, addr := e.addr, cls := 2, engine := e.engine, uidx := e.uidx }
      (if e.packet then e.cmd else s.mySeq.index) 0 with seq := e.seq, pend := true }
  ((s.modStops c (fun st => { st with recs := st.recs ++ [r], stop := st.stop.trapAt (s.core c).im.sched s.cyc true })).modSeq c .k
    (fun x => { x with tried := some s.cyc, pin := none })).modIm c (fun im => { im with perr := some e })

/-- The timing status word (Table 5-2). -/
def timingStatus (run kind obj : Nat) : Half := BitVec.ofNat 32 (run * 2 ^ 16 + kind % 256 * 2 ^ 8 + obj % 256)

/-- The issue status word (Table 2-24) of the present group. -/
def Cur.status (u : Cur) (word fsel reason : Nat) : Half :=
  BitVec.ofNat 32 (word * 2 ^ 26 + fsel * 2 ^ 21 + b2n u.inmac * 2 ^ 20 + (if u.inmac then u.entry else 0) * 2 ^ 15 +
    (if u.inmac then u.macro_ else 0) * 2 ^ 10 + reason * 2 ^ 6 + u.slot)

/-- The error status word (Table 17-7). -/
def errorStatus (engine reason detail : Nat) : Half := BitVec.ofNat 32 (engine * 2 ^ 28 + reason * 2 ^ 24 + detail % 2 ^ 16)

/-- The memory status word (Table 10-8). -/
def memStatus (step part space elem slab : Nat) : Half :=
  BitVec.ofNat 32 (step * 2 ^ 28 + part * 2 ^ 27 + space * 2 ^ 26 + elem * 2 ^ 16 + slab)

/-- A trap with an issue cause at the instruction's main word (R44). -/
def State.opTrap (s : State) (cause : Nat) : Act :=
  .trap { cause := cause, status := s.cur.status (if cause = 9 then 0 else s.cur.word) s.cur.fsel 0, addr := 0, cls := 0,
          engine := 0, uidx := 0 }

/-- A memory trap (R232). -/
def memTrap (cause : Nat) (addr : Nat) (status : Half) : Act :=
  .trap { cause := cause, status := status, addr := BitVec.ofNat 64 addr, cls := 0, engine := 0, uidx := 0 }

/-- The trap of a group that needs a fenced unit (R355). DEDUCED (log 38). -/
def fencedTrap (engine unit : Nat) : Act :=
  .trap { cause := 0x86, status := errorStatus engine 0 unit, addr := 0, cls := 0, engine := engine, uidx := if engine = 1 then unit % 16 else 0 }

/-- A timing trap of this kind (Table 5-1, Table 5-2). -/
def timingTrap (cause kind obj : Nat) : TrapInfo :=
  { cause := cause, status := timingStatus 0 kind obj, addr := 0, cls := 0, engine := 0, uidx := 0 }

/-- How the group ends but for a pending error: a wait becomes the timing fault in a timed segment (R97), and in an untimed one
the group stands and is tried again (R98). -/
def State.settleAct (s : State) (a : Act) : State :=
  match a with
  | .done s' => s'.retire
  | .jump s' t d => s'.retireTo t d
  | .wait s' k o l =>
    if s.me.timed then s.trapHere (timingTrap 0x20 k o)
    else s'.modSeq s.cur.core s.cur.sq (fun q =>
      { q with waiting := some { kind := k, obj := o, lacks := l }, tried := some s.cyc })
  | .trap t => s.trapHere t
  | .fail s' t => s'.trapHere t
  | .trapDone s' t => s'.retire.takeTrap s.cur.core s.cur.sq t s.mySeq.index 0
  | .pend s' e => s'.raisePending e

/-- K's pending error at the present group, if it is K's. -/
def State.pendingHere (s : State) : Option PErr := if s.cur.sq = .k then s.me.im.perr else none

/-- How the group ends, as a state: K raises a pending error at a group that would issue (R346); one that waits in an untimed segment
has not issued yet, and goes on waiting. DEDUCED (log 17). -/
def State.settle (s : State) (a : Act) : State :=
  match s.pendingHere with
  | none => s.settleAct a
  | some e =>
    match a with
    | .wait _ _ _ _ => if s.me.timed then s.raisePending e else s.settleAct a
    | .pend s' _ =>
      (s'.modIm s.cur.core (fun im => { im with more := Nat.min 255 (im.more + 1) })).raisePending e
    | _ => s.raisePending e

/-- A group whose guard is false is gone past (R15). -/
def State.skipGroup (s : State) : State := s.settle (.done s)

/-- The outcome of an issued group: always a next state. -/
def finish (s : State) (a : Act) : Host.Outcome State Fault Refusal := .next (s.settle a)

/-- An event that cannot take place in this state. -/
def idleEvent (name : String) : Host.Outcome State Fault Refusal := .refused (.notEnabled name)

/-- An event taken when it is enabled. DESIGN CHOICE (log 12). -/
def event (name : String) (a : Option State) : Host.Outcome State Fault Refusal :=
  match a with
  | some s => .next s
  | none => idleEvent name

/-- The management firmware runs (R436): from step 3 of the boot order on, and not in recovery. -/
def State.firmware (s : State) : Bool := decide (3 ≤ s.plat.bootStep) && !s.plat.recovery

/-- It manages the compute dies, which have power (R440). -/
def State.managed (s : State) : Bool := s.firmware && !s.plat.thermal

/-- What the management core does, while it manages the dies; before, in recovery and in a thermal shutdown it does nothing. -/
def State.manage (s : State) (a : Option State) : Option State := if s.managed then a else some s

/-- An event about a core, which the package must have. DESIGN CHOICE (log 12). -/
def coreEvent (name : String) (c : Nat) (a : Option State) : Host.Outcome State Fault Refusal :=
  if c < 128 then event name a else .fault .noSuchUnit

/-! ## Traps found after issue (R340, R346) -/

/-- K's pending error set, or a further one counted (R346). -/
def Image.addError (im : Image) (e : PErr) : Image :=
  match im.perr with
  | none => { im with perr := some e }
  | some _ => { im with more := Nat.min (im.more + 1) 255 }

/-- Where a context's image on a core is kept. -/
def imageKey (ctx c : Nat) : Nat := 128 * ctx + c

/-- A pending error of a context's K on a core (R346), running there or not. -/
def State.setPending (s : State) (c ctx : Nat) (e : PErr) : State :=
  if (s.core c).bound ∧ (s.core c).ctx = ctx then s.modIm c (fun im => im.addError e)
  else { s with images := mset s.images (imageKey ctx c) ((mget Image.init s.images (imageKey ctx c)).addError e) }

/-- A pending error that no access or packet raises (R346): no status word is stated for its cause, so that field is unused and reads zero (R337). -/
def State.raiseError (s : State) (c ctx cause engine : Nat) (addr : Word) : State :=
  s.setPending c ctx
    { cause := cause, engine := engine, uidx := 0, status := 0, addr := addr, cmd := 0, packet := false, seq := 0 }

/-- A fault that a unit finds after issue: a trap of the issuing sequencer on this cycle while its segment runs,
else the pending error of the context's K on that core (R340). -/
def State.unitFault (s : State) (c ctx : Nat) (q : Seq) (seg : Nat) (cmd : Nat) (t : TrapInfo) : State :=
  let co := s.core c
  let late : State :=
    s.setPending c ctx { cause := t.cause, engine := t.engine, uidx := t.uidx, status := t.status, addr := t.addr,
                         cmd := cmd, packet := true, seq := q.code }
  match co.im.seg with
  | some g => if co.bound ∧ co.ctx = ctx ∧ g.num = seg then s.takeTrap c q t (co.im.seq q).index 0 else late
  | none => late

/-- A record handed to a die's trap queue, behind those that wait (R339). -/
def State.postRecord (s : State) (d : Nat) (r : TrapRec) : State :=
  s.modDie d (fun x => { x with trapWait := x.trapWait ++ [r] })

/-! ## Scratchpad (R213 to R216) -/

/-- A byte of a core's scratchpad, as writes before this cycle left it (R154). -/
def Core.byte (co : Core) (la : Nat) : Byte := mget 0 co.spad la

/-- The stash window of the running context (R222). -/
def Core.stash (co : Core) : Option Stash := mfind co.windows co.ctx

/-- A core with a stash window put in its context's place. -/
def Core.setStash (co : Core) (st : Stash) : Core := { co with windows := mset co.windows st.ctx st }

/-- n bytes of scratchpad; addresses are taken modulo 2^23. -/
def Core.bytes (co : Core) (la n : Nat) : List Byte := (upTo la n).map (fun a => co.byte (a % 2 ^ 23))

/-- A slab's state. -/
def Core.slab (co : Core) (n : Nat) : Slab := mget Slab.init co.slabs n

/-- Checks 2 to 4 of R215 on a slab for a context at a time-step; check 4 is for reads. -/
def slabFault (b : Slab) (ctx ts : Nat) (rd : Bool) : Option Nat :=
  if (b.kind ≠ .live ∧ b.kind ≠ .lost) ∨ b.owner ≠ ctx then some 0x41
  else if b.kind = .lost then some 0x43
  else if rd ∧ (b.born = false ∨ retention < ts - b.stamp) then some 0x42
  else none

/-- The first of n bytes from an address that holds an uncorrectable error. -/
def firstBad (l : List Nat) (a n : Nat) : Option Nat :=
  l.foldl (fun m x => if a ≤ x ∧ x < a + n then (match m with
    | some y => some (Nat.min x y)
    | none => some x) else m) none

/-- R215 on the bytes la to la + n - 1: the cause, the slab and the first address of the failure. -/
def Core.checkSlabs (co : Core) (ctx ts la n : Nat) (rd : Bool) : Option (Nat × Nat × Nat) :=
  if n = 0 then none
  else if 0x5FFFFF < la + n - 1 then
    let x := Nat.max la 0x600000
    some (0x41, x / 2048 % 4096, x)
  else
    firstSome (fun i =>
      match slabFault (co.slab i) ctx ts rd with
      | some cause => some (cause, i, Nat.max la (i * 2048))
      | none => none)
      (upTo (la / 2048) ((la + n - 1) / 2048 - la / 2048 + 1))

/-- The same check, where a read that passes it may consume an uncorrectable error (R348). -/
def Core.checkLocal (co : Core) (ctx ts la n : Nat) (rd : Bool) : Option (Nat × Nat × Nat) :=
  match co.checkSlabs ctx ts la n rd with
  | some x => some x
  | none => if rd && decide (n ≠ 0) then (firstBad co.bad la n).map (fun a => (0x80, a / 2048, a)) else none

/-- A scratchpad write of this cycle. -/
def State.post (s : State) (c : Nat) (p : Post) : State :=
  s.modCore c (fun co => { co with posted := co.posted ++ [p] })

/-- Several scratchpad writes of this cycle. -/
def State.posts (s : State) (c : Nat) (ps : List Post) : State :=
  s.modCore c (fun co => { co with posted := co.posted ++ ps })

/-- The granules that n bytes from la touch (R183). -/
def granules (la n : Nat) : List Nat := if n = 0 then [] else upTo (la / 512) ((la + n - 1) / 512 - la / 512 + 1)

/-- A partial write: bytes, whose granules lose their zero bits (R183, R214). -/
def writePosts (la : Nat) (bs : List Byte) : List Post :=
  .bytes la bs false :: (granules la bs.length).map (fun g => .zbit g false)

/-! ## Semaphores (R277) -/

/-- A release of n on a counter: it stops at 65,535. -/
def semUp (cnt n : Nat) : Nat × Bool := if 65535 < cnt + n then (65535, true) else (cnt + n, false)

/-- A release of n on a semaphore of the context a core runs. -/
def Image.semRelease (im : Image) (k n : Nat) : Image :=
  let r := semUp (mget 0 im.sems k) n
  { im with sems := mput 0 im.sems k r.1, semov := if r.2 then im.semov ||| BitVec.ofNat 64 (2 ^ k) else im.semov }

/-! ## Registers by operand code (Table 2-5, R8, R9) -/

/-- The physical register of a code: window register or g/l register, none for g0. -/
def regPlace (im : Image) (q : Seq) (code : Nat) : Option (Bool × Nat) :=
  match q with
  | .k => if code = 0 then none else if code < 8 then some (false, code) else some (true, (im.wbase + (code - 8)) % 192)
  | _ => some (false, code)

/-- The value of a register code. -/
def Image.reg (im : Image) (q : Seq) (code : Nat) : Word :=
  match regPlace im q code with
  | none => 0
  | some (true, r) => im.wfile.toList.getD r 0
  | some (false, r) => (im.seq q).regs.toList.getD r 0

/-- The result that writes a register code; none for g0 (R9). -/
def regFx (im : Image) (q : Seq) (code : Nat) (v : Word) : Option Fx :=
  match regPlace im q code with
  | none => none
  | some (true, r) => some (.win r v)
  | some (false, r) => some (.reg q r v)

/-- The value of a register code of the present group. -/
def State.rd (s : State) (code : BitVec 5) : Word := s.me.im.reg s.cur.sq code.toNat

/-- A predicate of a sequencer; p0 reads true (R7). -/
def SeqSt.pred (q : SeqSt) (p : Nat) : Bool := p == 0 || q.preds.getLsbD p

/-- A register result of the present group, due after `lat` (R19); g0 takes none (R9). -/
def State.wr (s : State) (lat : Nat) (code : BitVec 5) (v : Word) : State :=
  match regFx s.me.im s.cur.sq code.toNat v with
  | some fx => s.result lat 0 fx
  | none => s

/-- A predicate result of the present group, due after `lat`; p0 takes none (R9). -/
def State.wrPred (s : State) (lat : Nat) (p : BitVec 4) (v : Bool) : State :=
  if p = 0 then s else s.result lat 0 (.pred s.cur.sq p.toNat v)

/-- A register code waits for an interlocked result of K (R19, R243). -/
def Core.awaits (co : Core) (q : Seq) (code : Nat) : Bool :=
  match q with
  | .k =>
    match regPlace co.im .k code with
    | none => false
    | some pl => co.ms.gacc.any (fun g => decide (g.dst = some pl))
  | _ => false

/-- The first of these codes that waits for an interlocked result. -/
def State.interlock (s : State) (codes : List (BitVec 5)) : Option Nat :=
  firstSome (fun r => if s.me.awaits s.cur.sq (BitVec.toNat r) then some (BitVec.toNat r) else none) codes

/-- A register code waits for the old value of an atomic of K (R243). -/
def Core.awaitsOld (co : Core) (q : Seq) (code : Nat) : Bool :=
  match q with
  | .k =>
    match regPlace co.im .k code with
    | none => false
    | some pl => co.ms.gacc.any (fun g => decide (g.dst = some pl) && decide (g.kind = 2))
  | _ => false

/-- The kind and obj of a wait for an interlocked register (Table 5-2): an atomic's result is a variable latency (R243). -/
def State.interlockKind (s : State) (r : Nat) : Nat × Nat := if s.me.awaitsOld s.cur.sq r then (0xA, 0) else (3, r)

/-- The trap of a group that reads an uncorrectable error in a register, queue or port (R348). -/
def flawTrap : Act := memTrap 0x80 0 0

/-- A register of the present group's codes holds an uncorrectable error (R348). -/
def State.flawed (s : State) (codes : List (BitVec 5)) : Bool :=
  codes.any (fun r =>
    match regPlace s.me.im s.cur.sq r.toNat with
    | some (true, n) => s.me.im.flaws.contains (.win n)
    | some (false, n) => s.me.im.flaws.contains (.reg s.cur.sq n)
    | none => false)

/-- A predicate that the present group reads holds an uncorrectable error (R348). -/
def State.flawedPred (s : State) (p : Nat) : Bool := s.me.im.flaws.contains (.pred s.cur.sq p)

/-- Issue a group that reads these register codes: it waits for an interlocked one (R19, R243), and one that holds an uncorrectable error traps
(R348). -/
def issue (s : State) (codes : List (BitVec 5)) (act : State → Act) : Host.Outcome State Fault Refusal :=
  finish s (match s.interlock codes with
    | some r => .wait s (s.interlockKind r).1 (s.interlockKind r).2 0
    | none => if s.flawed codes then flawTrap else act s)

/-- Put a value into a vector of registers. -/
def vput {n : Nat} (v : Vector Word n) (i : Nat) (x : Word) : Vector Word n := v.setIfInBounds i x

end Sys2Proof.Machine
end

