-- ==== Sys2Proof/Machine/Fetch.lean ====
section
/-! DEFINITION. From the patch stream or a macro body to an instruction: groups (R12, R29), macro entries (R32), the
placement of values into fields (R27, R28) and the checks at issue in their order (R44). -/
namespace Sys2Proof.Machine

/-- The patch word at an address of a sequencer's patch stream (R13). -/
def SeqSt.wordAt (q : SeqSt) (a : Word) : Option Half :=
  let o := (a - q.base).toNat
  if o % 4 = 0 then q.buf[o / 4]? else none

/-- The address lies in the segment's patch stream (R55). -/
def SeqSt.inStream (q : SeqSt) (a : Word) : Bool := (a - q.base).toNat < 4 * q.buf.length

/-- A group: its carry words in order, its main word if there is one, and its length in words. -/
structure Group where
  carries : List Half
  main : Option Half
  deriving DecidableEq, Repr

/-- The carry words that come first, and the main word behind them (R12). -/
def gather (acc : List Half) : List Half → Group
  | [] => { carries := acc, main := none }
  | w :: r => if patchT w = 63 then gather (acc ++ [w]) r else { carries := acc, main := some w }

/-- The group at a sequencer's pc. -/
def SeqSt.streamGroup (q : SeqSt) : Group := gather [] (q.buf.drop ((q.pc - q.base).toNat / 4))

/-- V of a macro entry's word under its parameter source (Table 2-3). -/
def MEntry.param (e : MEntry) (m : MPos) : BitVec 16 :=
  let v := patchV e.word
  match e.psrc.toNat with
  | 1 => m.p0
  | 2 => m.p1
  | 3 => m.p2
  | 4 => m.p3
  | 5 => v + m.p0
  | 6 => v + m.p1
  | _ => v

/-- The patch word a macro entry is processed as (R32). -/
def MEntry.patched (e : MEntry) (m : MPos) : Half := e.word.extractLsb' 16 16 ++ e.param m

/-- The group at a macro position. -/
def MPos.group (m : MPos) : Group := gather [] ((m.body.drop m.next).map (fun e => e.patched m))

/-- The first carry, by index, that a condition fails, with its F. -/
def badCarry (p : Nat → Half → Bool) (cs : List Half) : Option (Nat × Nat) :=
  firstSome (fun x => if p x.1 x.2 then none else some (x.1, patchF x.2)) ((upTo 0 cs.length).zip cs)

/-- No earlier carry names the same field. -/
def carryFresh (cs : List Half) (i : Nat) (w : Half) : Bool := !((cs.take i).any (fun v => patchF v == patchF w))

/-- The structure of a group (R29, R30, step 1 of R44): none, or the offending word and its F. `m` is the format of the
slot its main word names, if it has one. Where several carries fail, an I other than 0 is looked for in all of them before F is: DESIGN
CHOICE (log 67). DEDUCED (log 51). -/
def structureFault (g : Group) (m : Option Fmt) : Option (Nat × Nat) :=
  if 3 < g.carries.length then some (3, patchF (g.carries.getD 3 0)) else
  match badCarry (fun _ w => patchI w == 0) g.carries with
  | some x => some x
  | none =>
    match g.main with
    | none => some (g.carries.length - 1, patchF (g.carries.getLastD 0))
    | some w =>
      if patchT w = 62 then badCarry (fun _ c => patchF c == 0) g.carries
      else
        badCarry (fun i c =>
          decide (1 ≤ patchF c) && decide (patchF c ≤ 29) && carryFresh g.carries i c &&
          (match m with
           | some f => (fmtField f (patchF c)).isSome
           | none => true)) g.carries

/-- A carry that names the main word's field, where that field is no wider than 16 bits (R29, step 6 of R44). -/
def highFault (g : Group) (w : Half) (m : Fmt) : Option (Nat × Nat) :=
  badCarry (fun _ c =>
    if patchF c = patchF w then
      match fmtField m (patchF c) with
      | some (_, width, _) => decide (16 < width)
      | none => false
    else true) g.carries

/-- A template with w bits from lo replaced. -/
def setBits (b : Template) (lo w v : Nat) : Template :=
  BitVec.ofNat 128 (b.toNat - fld b.toNat lo w * 2 ^ lo + v % 2 ^ w * 2 ^ lo)

/-- V placed into the low part of a field (R28); none when V is out of range. -/
def placeLow (b : Template) (f : Nat × Nat × Bool) (v : BitVec 16) : Option Template :=
  let (lo, w, sg) := f
  if 16 ≤ w then some (setBits b lo 16 v.toNat)
  else if (if sg then decide (sgn 16 v.toNat = sgn w v.toNat) else decide (v.toNat < 2 ^ w)) then
    some (setBits b lo w v.toNat)
  else none

/-- V placed into the high part of a field (R28). -/
def placeHigh (b : Template) (f : Nat × Nat × Bool) (v : BitVec 16) : Option Template :=
  let (lo, w, sg) := f
  let k := w - 16
  if (if sg then decide (sgn 16 v.toNat = sgn k v.toNat) else decide (v.toNat < 2 ^ k)) then
    some (setBits b (lo + 16) k v.toNat)
  else none

/-- One carry applied. -/
def placeCarry (m : Fmt) (mainF : Nat) (b : Template) (c : Half) : Option Template :=
  match fmtField m (patchF c) with
  | none => none
  | some f => if patchF c = mainF then placeHigh b f (patchV c) else placeLow b f (patchV c)

/-- The carries applied in order: the template, or the index of the word that fails. -/
def placeCarries (m : Fmt) (mainF : Nat) : Nat → Template → List Half → Except Nat Template
  | _, b, [] => .ok b
  | i, b, c :: r =>
    match placeCarry m mainF b c with
    | none => .error i
    | some b' => placeCarries m mainF (i + 1) b' r

/-- The main word applied (R26, R28). -/
def placeMain (m : Fmt) (b : Template) (w : Half) : Option Template :=
  let f := patchF w
  if f = 0 then some b
  else if f = 30 then some (setBits (setBits b 112 4 (patchV w).toNat) 111 1 ((patchV w).toNat / 16))
  else
    match fmtField m f with
    | none => none
    | some x => placeLow b x (patchV w)

/-- All amendments of a group (R14, R28): the template to perform, or the index of the word out of range. -/
def amend (m : Fmt) (t : Template) (g : Group) (w : Half) : Except Nat Template :=
  match placeCarries m (patchF w) 0 t g.carries with
  | .error i => .error i
  | .ok b =>
    match placeMain m b w with
    | none => .error g.carries.length
    | some b' => .ok b'

/-- An amended template with the field that a word of the group names put back to what the slot holds. -/
def putBack (m : Fmt) (t full : Template) (w : Half) : Template :=
  match fmtField m (patchF w) with
  | some (lo, n, _) => setBits full lo n (fld t.toNat lo n)
  | none => full

/-- The ways to choose k entries of a list, in its order, those with its first entry first. -/
def chooseOf {α : Type} : Nat → List α → List (List α)
  | 0, _ => [[]]
  | _ + 1, [] => []
  | k + 1, x :: r => (chooseOf k r).map (fun l => x :: l) ++ chooseOf (k + 1) r

/-- The word that a reserved value is laid to (R28, R46, cause 0x07): the first, in stream order, of the fewest words whose fields, put back to what
the slot holds, leave a legal template. DESIGN CHOICE (log 67). -/
def reservedWord (cls : Seq) (m : Fmt) (t full : Template) (ws : List Half) : Nat :=
  let ways := (upTo 1 ws.length).flatMap (fun k => chooseOf k ((upTo 0 ws.length).zip ws))
  match ways.find? (fun l =>
      match decodeTemplate cls (l.foldl (fun b x => putBack m t b x.2) full) with
      | .ok _ => true
      | .error _ => false) with
  | some l => (l.map (fun x => x.1)).headD 0
  | none => ws.length - 1

/-- What the group at hand comes to. -/
inductive Fetched where
  /-- an issue cause with its offending word, F and slot reason -/
  | bad (cause word fsel reason : Nat) (cur : Cur)
  /-- the group waits for a template load or a macro definition -/
  | hold (kind obj : Nat) (cur : Cur)
  /-- the guard is false (R16) -/
  | skip (cur : Cur)
  /-- an instruction to perform -/
  | run (i : Instr) (cur : Cur)
  deriving DecidableEq, Repr

/-- The class whose opcode a slot's template holds: its prefix, which is that of the table unless the class is wrong (R36, Table 2-22). -/
def Slot.opClass (cls : Seq) (sl : Slot) : Seq := if sl.reason = 2 then Seq.ofCode (sl.t.extractLsb' 126 2).toNat else cls

/-- The format that the opcode of a slot's template selects, if it is assigned, whether the slot is valid or not (R29, R36). -/
def slotForm (cls : Seq) (sl : Slot) : Option Fmt :=
  if sl.reason = 1 then none
  else
    match decodeOp (sl.opClass cls) (sl.t.extractLsb' 118 8).toNat sl.t with
    | some i => fmtOf i
    | none => none

/-- The format a valid slot's template is patched by. -/
def slotFmt (cls : Seq) (sl : Slot) : Option Fmt := if sl.reason = 0 then slotForm cls sl else none

/-- The guard of an amended template on a sequencer (R14). -/
def guardTrue (q : SeqSt) (b : Template) : Bool :=
  xor (q.pred (guardOf b).toNat) (senseOf b == 1)

/-- The checks of R44 on a template group, in order, and its instruction. A slot that is being loaded (R41) makes the group wait before any
check, and a V out of range (0x06) is looked for in all words before a reserved value (0x07) in any: DESIGN CHOICE (log 67). -/
def fetchOp (cls : Seq) (q : SeqSt) (g : Group) (w : Half) (cur : Cur) : Fetched :=
  let sl := mget Slot.empty q.table (patchT w)
  let m := slotFmt cls sl
  let nw := g.carries.length
  if sl.loading then .hold 7 0 cur
  else
    match structureFault g (slotForm cls sl) with
    | some (i, f) => .bad 4 i f 0 cur
    | none =>
      match m with
      | none => .bad 1 nw (patchF w) sl.reason.toNat cur
      | some fm =>
        if patchF w = 31 then .bad 2 nw 31 0 cur
        else if (patchF w ≠ 0 ∧ patchF w ≤ 29 ∧ (fmtField fm (patchF w)).isNone) ∨
            (patchF w = 30 ∧ 32 ≤ (patchV w).toNat) then .bad 3 nw (patchF w) 0 cur
        else
          match highFault g w fm with
          | some (i, f) => .bad 4 i f 0 cur
          | none =>
            let gt := match placeMain fm sl.t w with
              | some b => guardTrue q (if patchF w = 30 then b else sl.t)
              | none => guardTrue q sl.t
            if gt = false then .skip cur
            else
              match amend fm sl.t g w with
              | .error i => .bad 6 i (patchF ((g.carries ++ [w]).getD i 0)) 0 cur
              | .ok b =>
                match decodeTemplate cls b with
                | .ok i =>
                  if cur.inmac && decide (fm = .ctl) then .bad 0xB nw (patchF w) 0 cur else .run i cur
                | .error _ =>
                  let ws := g.carries ++ [w]
                  let i := reservedWord cls fm sl.t b ws
                  .bad 7 i (patchF (ws.getD i 0)) 0 cur

/-- The idle count that places a sequencer's present group (R14, R17). -/
def SeqSt.idle (q : SeqSt) : Nat :=
  match q.mpos with
  | some m =>
    match m.group.main with
    | some w => if m.next = 0 then m.idle else patchI w
    | none => 0
  | none =>
    match q.streamGroup.main with
    | some w => patchI w
    | none => 0

/-- The earliest schedule cycle of a sequencer's present group (R14, R61). -/
def SeqSt.earliest (q : SeqSt) : Nat :=
  match q.last with
  | none => q.idle + q.delay
  | some l => l + 1 + q.idle + q.delay

/-- A K group that stands, after the cycle on which it first issued (R70, R71): the instruction. -/
def Core.standing (co : Core) : Option Instr :=
  let q := co.im.k
  if q.waiting.isNone then none
  else if q.pin.isSome then q.pin.map (fun x => x.1)
  else
    let g := match q.mpos with
      | some m => m.group
      | none => q.streamGroup
    match g.main with
    | none => none
    | some w =>
      if patchT w = 62 then none
      else
        match fetchOp .k q g w { Cur.init with inmac := q.mpos.isSome } with
        | .run i _ => some i
        | _ => none

/-- A core's K sequencer is redefining this macro of a sequencer: an `mdef` of it is in flight (R34). -/
def Core.defining (co : Core) (q : Seq) (m : Nat) : Bool :=
  match co.ms.hold with
  | some (.mdef q' m' _ _) => decide (q' = q) && decide (m' = m)
  | _ =>
    match co.standing with
    | some (.mdef f) => decide (Seq.ofCode f.seq.toNat = q) && decide (f.idx.toNat = m) && !co.awaits .k f.a.toNat
    | _ => false

/-- A `tld` that waits for its templates is to write this slot of a sequencer (R41). -/
def Core.tldTakes (co : Core) (q : Seq) (slot : Nat) : Bool :=
  match co.standing with
  | some (.tld f) =>
    decide (Seq.ofCode f.seq.toNat = q) && decide (f.slot.toNat ≤ slot) && decide (slot < f.slot.toNat + f.n.toNat) &&
      !co.awaits .k f.a.toNat
  | _ => false

/-- A template group of a sequencer of a core: one that stands goes on with the template it issued with, and one whose slot is to be written by a
`tld` waits (R41). -/
def fetchSlot (co : Core) (sq : Seq) (q : SeqSt) (g : Group) (w : Half) (cur : Cur) : Fetched :=
  match q.pin with
  | some x => .run x.1 cur
  | none => if sq ≠ .k ∧ co.tldTakes sq (patchT w) then .hold 7 0 cur else fetchOp sq q g w cur

/-- A call group: its structure is looked at, then it must not call a macro that is being redefined (R34), then the macro must be defined (R31):
DESIGN CHOICE (log 67). -/
def fetchCall (co : Core) (sq : Seq) (q : SeqSt) (g : Group) (w : Half) (cur : Cur) : Fetched :=
  match structureFault g none with
  | some (i, f) => .bad 4 i f 0 cur
  | none =>
    if sq ≠ .k ∧ co.defining sq (patchF w) then .hold 8 0 cur
    else
      match mfind q.macros (patchF w) with
      | none => .bad 5 0 (patchF w) 0 { cur with macro_ := patchF w }
      | some _ =>
        let v (i : Nat) : BitVec 16 := patchV (g.carries.getD i 0)
        .run (.macroCall (w.extractLsb' 21 5) (w.extractLsb' 16 5) (patchV w) (v 0) (v 1) (v 2)) cur

/-- The present group of a sequencer of a core: what it comes to (R12, R17, R44). A group that has no main word is reported with slot 0, and one
that lies outside the stream with F 0 too: DESIGN CHOICE (log 67). -/
def Core.fetch (co : Core) (c : Nat) (sq : Seq) : Fetched :=
  let q := co.im.seq sq
  let mk (first nxt : Word) (g : Group) (inmac : Bool) (entry macro_ : Nat) : Cur :=
    { core := c, sq := sq, first := first, nxt := nxt, word := g.carries.length,
      fsel := (match g.main with
        | some w => patchF w
        | none => 0),
      slot := (match g.main with
        | some w => patchT w
        | none => 0),
      inmac := inmac, entry := entry, entries := g.carries.length + 1, macro_ := macro_, earliest := q.earliest }
  match q.mpos with
  | some m =>
    let g := m.group
    let cur := mk q.pc q.pc g true m.next m.m
    match g.main with
    | none =>
      match structureFault g none with
      | some (i, f) => .bad 4 i f 0 cur
      | none => .bad 4 0 0 0 cur
    | some w => fetchSlot co sq q g w cur
  | none =>
    let g := q.streamGroup
    let nxt := q.pc + BitVec.ofNat 64 (4 * (g.carries.length + 1))
    let cur := mk q.pc nxt g false 0 0
    if q.inStream q.pc = false then .bad 0xA 0 0 0 { cur with slot := 0 }
    else
      match g.main with
      | none =>
        match structureFault g none with
        | some (i, f) => .bad 4 i f 0 cur
        | none => .bad 4 0 0 0 cur
      | some w => if patchT w = 62 then fetchCall co sq q g w cur else fetchSlot co sq q g w cur

/-- The guard predicate of the present group holds an uncorrectable error (R348). -/
def State.flawedGuard (s : State) : Bool :=
  !s.me.im.flaws.isEmpty && s.flawedPred (guardOf (mget Slot.empty s.mySeq.table s.cur.slot).t).toNat

/-- The status word of an issue cause found by the fetch (Table 2-24); a call of an undefined macro names it. -/
def fetchStatus (cause word fsel reason : Nat) (u : Cur) : Half :=
  if cause = 5 then u.status 0 fsel 0 + BitVec.ofNat 32 (if u.inmac then 0 else u.macro_ * 2 ^ 10)
  else u.status word fsel reason

/-- The trap of an issue cause that the fetch has found. -/
def fetchTrap (cause word fsel reason : Nat) (u : Cur) : Act :=
  .trap { cause := cause, status := fetchStatus cause word fsel reason u, addr := 0, cls := 0, engine := 0, uidx := 0 }

end Sys2Proof.Machine
end

