-- ==== Sys2Proof/Machine/Memory.lean ====
section
/-! DEFINITION. Global memory: the physical map (R226 to R228), homes, publication and snapshots (R233 to R240),
error responses (R345, R346). -/
namespace Sys2Proof.Machine

/-! ## The physical map -/

/-- What lies at a physical address, for an agent other than the hot-row cache (Table 10-5, R389). -/
inductive PaKind where
  | home
  | window (m off : Nat)
  | refused (cause : Nat)
  deriving DecidableEq, Repr

/-- HR of %hrcfg (Table 14-9). -/
def State.hr (s : State) : Nat := fld s.hrcfg.toNat 0 9

/-- The address lies in HBM. -/
def inHbm (pa : Nat) : Bool := pa < 0x6000000000

/-- The address lies in capacity memory. -/
def inCap (pa : Nat) : Bool := decide (0x10000000000 ≤ pa) && decide (pa < 0x30000000000)

/-- The address lies in the hot-row cache region (R227). -/
def inHot (hr pa : Nat) : Bool := inHbm pa && decide (0xC00000000 - hr * 0x8000000 ≤ pa % 0xC00000000)

/-- The kind of a physical address. DEDUCED (log 28). -/
def State.paKind (s : State) (pa : Nat) : PaKind :=
  if inHot s.hr pa then .refused 0x47
  else if inHbm pa || inCap pa then .home
  else if 0x8000000000000 ≤ pa ∧ pa < 0x9000000000000 then
    let m := (pa - 0x8000000000000) / 0x40000000000
    if s.dom.members.contains s.dom.modid && s.dom.members.contains m && decide (m ≠ s.dom.modid) then
      .window m ((pa - 0x8000000000000) % 0x40000000000)
    else .refused 0xA0
  else .refused 0x47

/-- The six bits that name the home slice (R228). -/
def homeHash (pa : Nat) : Nat :=
  (fld pa 7 6) ^^^ (fld pa 13 6) ^^^ (fld pa 19 6) ^^^ (fld pa 25 6) ^^^ (fld pa 31 6) ^^^ (fld pa 37 6) ^^^
    (fld pa 43 6) ^^^ (fld pa 49 3)

/-- The compute die of an address's home slice (R228). -/
def homeDie (pa : Nat) : Nat := homeHash pa / 32

/-- The base of a module's window (R389). -/
def windowBase (m : Nat) : Nat := 0x8000000000000 + m * 0x40000000000

/-- The address lies in the domain window (R226). -/
def isWindow (pa : Nat) : Bool := decide (0x8000000000000 ≤ pa) && decide (pa < 0x9000000000000)

/-! ## Bytes at their homes -/

/-- The latest entry of the narrow publications for an address. -/
def blogFind (l : List PWrite) (pa : Nat) : Option Byte :=
  l.foldl (fun acc e => if e.pa = pa then some e.b else acc) none

/-- The coherence-latest value of a byte (R235). -/
def State.homeByte (s : State) (pa : Nat) : Byte :=
  match blogFind s.blog pa with
  | some b => b
  | none => mget 0 s.mem pa

/-- The canonical form of memory: rising addresses, and no zero byte listed, since an unlisted address reads as zero (log 1). -/
def Memory.wf (m : List Host.Cell) : Bool := mwf 0 m

/-- n bytes at their homes. -/
def State.homeBytes (s : State) (pa n : Nat) : List Byte := (upTo pa n).map s.homeByte

/-- n bytes at their homes as a number. -/
def State.homeNat (s : State) (pa n : Nat) : Nat := leNat (s.homeBytes pa n)

/-- Bytes written into memory from an address up. -/
def memPut (m : List Host.Cell) (pa : Nat) : List Byte → List Host.Cell
  | [] => m
  | b :: r => memPut (mput 0 m pa b) (pa + 1) r

/-- A front end observes a widx written at its home: it acts on the highest value (R264). -/
def Front.observe (f : Front) (lo n v : Nat) : Front :=
  if lo < f.wpa + 8 ∧ f.wpa < lo + n then { f with widx := Nat.max f.widx v } else f

/-- All front ends of a die observe a write of n bytes at an address. -/
def State.observeDie (s : State) (d lo n : Nat) : State :=
  if ((s.die d).fronts.any (fun p => decide (lo < p.2.wpa + 8 ∧ p.2.wpa < lo + n))) then
    s.modDie d (fun x => { x with fronts := x.fronts.map (fun p => (p.1, p.2.observe lo n (s.homeNat p.2.wpa 8))) })
  else s

/-- A write to bytes at their homes that an at-bank command in an array's window, or the one in progress, has read (R350). -/
def ArrSt.touchHome (a : ArrSt) (lo n : Nat) : ArrSt :=
  let f (x : ArrCmd) : ArrCmd :=
    if x.wrec.any (fun r => decide (lo < r.1 + r.2) && decide (r.1 < lo + n)) then { x with touched := true } else x
  { a with window := a.window.map f, queue := a.queue.map f }

/-- The arrays observe a write of n bytes at an address. -/
def State.observeArrays (s : State) (lo n : Nat) : State :=
  if s.arrays.any (fun p => (p.2.queue ++ p.2.window).any (fun x => !x.wrec.isEmpty)) then
    { s with arrays := s.arrays.map (fun p => (p.1, p.2.touchHome lo n)) }
  else s

/-- All front ends, and the arrays, observe a write of n bytes at an address. -/
def State.observe (s : State) (lo n : Nat) : State := ((s.observeDie 0 lo n).observeDie 1 lo n).observeArrays lo n

/-- A write performed at its home and visible to the whole module (R233, R274). -/
def State.homeWrite (s : State) (pa : Nat) (bs : List Byte) : State :=
  State.observe
    { s with mem := memPut s.mem pa bs,
             bad := s.bad.filter (fun a => !(decide (pa ≤ a) && decide (a < pa + bs.length))),
             blog := s.blog.filter (fun e => !(decide (pa ≤ e.pa) && decide (e.pa < pa + bs.length))) }
    pa bs.length

/-- A list of single bytes written at their homes. -/
def State.homeWrites (s : State) : List (Nat × Byte) → State
  | [] => s
  | (a, b) :: r => State.homeWrites (s.homeWrite a [b]) r

/-! ## Error responses (R345, R346) -/

/-- An entry of a die's error log: the n-th response goes to entry n mod 256. -/
def State.logError (s : State) (d : Nat) (e : ErrEnt) : State :=
  s.modDie d (fun x => { x with elog := mset x.elog (x.elogN % 256) e, elogN := x.elogN + 1 })

/-- The log entry of a refused access of a core; the causes of the domain are logged with engine 10 (R406). -/
def State.errEnt (s : State) (c pa : Nat) (va : Word) (ctx cause engine : Nat) : ErrEnt :=
  { pa := pa, va := va, tstep := s.tstep, ctx := ctx, cause := cause, core := c % 64, die := dieOf c,
    engine := if cause = 0xA0 ∨ cause = 0xA1 then 10 else engine }

/-- The die whose log takes an error response: the source's for 0xA0 and 0xA1, else the target's (R345), which is the die of the scheduling
block for an address of one (R360) and of the home for any other. DEDUCED (log 14). -/
def errDie (c pa cause : Nat) : Nat :=
  if cause = 0xA0 ∨ cause = 0xA1 then dieOf c
  else if 0xF000000000000 ≤ pa ∧ pa < 0xF000200000000 then (pa - 0xF000000000000) / 0x100000000
  else homeDie pa

/-- The imprecise status word (Table 17-5). -/
def impStatus (kind origin : Nat) : Half := BitVec.ofNat 32 (kind * 2 ^ 30 + origin % 2 ^ 14)

/-- An access of a core to bytes at their homes fails (R348, R388): a read consumes an uncorrectable error there, or the access meets one on the
link between the dies. `kind`: 0 a read, 1 a write, 2 an atomic. -/
def State.homeBad (s : State) (c kind pa n : Nat) : Bool :=
  (decide (kind ≠ 1) && (firstBad s.bad pa n).isSome) || (s.linkErr.contains c && decide (homeDie pa ≠ dieOf c))

/-- The error on the link has been met. -/
def State.linkMet (s : State) (c pa cause : Nat) : State :=
  if cause = 0x83 ∧ homeDie pa ≠ dieOf c then { s with linkErr := s.linkErr.filter (fun x => decide (x ≠ c)) } else s

/-- An error response to an access of K: logged, and K's pending error (R345, R346). -/
def State.accessError (s : State) (c pa : Nat) (va : Word) (ctx cause kind origin : Nat) : State :=
  ((s.linkMet c pa cause).logError (errDie c pa cause) (s.errEnt c pa va ctx cause 0)).setPending c ctx
    { cause := cause, engine := 0, uidx := 0, status := impStatus kind origin, addr := va, cmd := origin,
      packet := false, seq := 0 }

/-! ## Publication (R234, R238) -/

/-- The observer is within scope of the writing core (Table 11-1); observers 128 and 129 are the on-die engines of a
die, higher ones every other agent of the module. -/
def withinScope (scope writer obs : Nat) : Bool :=
  if 3 ≤ scope then true
  else if scope = 2 then
    if obs < 128 then decide (dieOf writer = dieOf obs) else decide (obs = 128 + dieOf writer)
  else if scope = 1 then decide (obs < 128) && decide (writer / 4 = obs / 4)
  else decide (writer = obs)

/-- A narrow publication is seen by an observer: within its scope, or early (log 8). -/
def PWrite.seenBy (e : PWrite) (obs cyc : Nat) : Bool :=
  withinScope e.scope e.core obs || decide (Config.earlyAt e.ser obs ≤ cyc)

/-- A byte as an observer's read at the home slice finds it (R250): the latest write that it may see. -/
def State.seenByte (s : State) (obs pa : Nat) : Byte :=
  s.blog.foldl (fun b e => if e.pa = pa ∧ e.seenBy obs s.cyc = true then e.b else b) (mget 0 s.mem pa)

/-- n bytes as an observer's read at the home slice finds them, as a number. -/
def State.seenNat (s : State) (obs pa n : Nat) : Nat := leNat ((upTo pa n).map (s.seenByte obs))

/-- Memory as an observer's acquire finds it (R236). -/
def State.visible (s : State) (obs : Nat) : List Host.Cell :=
  s.blog.foldl (fun m e => if e.seenBy obs s.cyc then mput 0 m e.pa e.b else m) s.mem

/-- One narrow publication of a core widened to the module: it keeps its place in the boundary order, so later ones
of other cores still stand over it. -/
def State.promote (s : State) (e : PWrite) : State :=
  State.observe
    { s with mem := mput 0 s.mem e.pa e.b,
             blog := s.blog.filter (fun x => !(decide (x.pa = e.pa) && decide (x.ser ≤ e.ser))) }
    e.pa 1

/-- The header of a domain message (Table 20-3). -/
def domainHdr (op aop u size scope ctx src dst len stamp rid pa cause pseq : Nat) (val cv : Word) : BitVec 384 :=
  BitVec.ofNat 384 (op + u * 2 ^ 4 + aop * 2 ^ 8 + cause * 2 ^ 16 + pseq * 2 ^ 32 + size * 2 ^ 65 + scope * 2 ^ 67 +
    ctx * 2 ^ 70 + dst * 2 ^ 80 + src * 2 ^ 96 + len * 2 ^ 115 + stamp * 2 ^ 128 + rid * 2 ^ 160 + pa * 2 ^ 192 +
    val.toNat * 2 ^ 256 + cv.toNat * 2 ^ 320)

/-- The line of an address (R228). -/
def lineOf (pa : Nat) : Nat := pa / 128 * 128

/-- Two lines' bytes meet: those of n bytes and those of k bytes. -/
def linesMeet (pa n qa k : Nat) : Bool := overlap (lineOf pa) (pa + n - lineOf pa) (lineOf qa) (lineOf (qa + k + 127) - lineOf qa)

/-- The first address, in the window, and the length of what a read asks for; nothing for another request. -/
def DReq.reads (r : DReq) : Nat × Nat :=
  if fld r.hdr.toNat 0 4 = 1 then (windowBase r.target + fld r.hdr.toNat 192 64, fld r.hdr.toNat 115 13) else (0, 0)

/-- Reads that meet these lines are not kept in the L2 when they are answered. -/
def State.l2Bar (s : State) (p : DReq → Bool) (pa n : Nat) : State :=
  { s with dom := { s.dom with reqs := s.dom.reqs.map (fun r =>
      if p r && decide (0 < r.reads.2) && linesMeet r.reads.1 r.reads.2 pa n then { r with fills := false } else r) } }

/-- The L2 copies without the lines of n bytes of the domain window, also of reads in flight (R242). -/
def State.l2Drop (s : State) (pa n : Nat) : State :=
  { s with dom := { s.dom with l2 := s.dom.l2.filter (fun p => !linesMeet pa n p.1 1) } }.l2Bar (fun _ => true) pa n

/-- The bytes of the domain window that a request writes, if it is a write or an atomic. -/
def DReq.written (r : DReq) : Nat × Nat :=
  let h := r.hdr.toNat
  (windowBase r.target + fld h 192 64,
    if fld h 0 4 = 2 then r.data.length else if fld h 0 4 = 3 then (if fld h 65 2 = 2 then 4 else 8) else 0)

/-- A line that another module has sent is kept in the L2, unless this one has asked for a write of any of its bytes (R396). -/
def State.l2Fill (s : State) (pa : Nat) (bs : List Byte) : State :=
  if s.dom.reqs.any (fun r => overlap pa bs.length r.written.1 r.written.2) then s
  else
    { s with dom := { s.dom with l2 := (bs.zip (upTo pa bs.length)).foldl (fun l p => mset l p.2 p.1) s.dom.l2 } }

/-- Send a domain request to a module: it takes the pair's next sequence number and is kept until it is answered
(R395, R399), and L2 copies of what it writes go. `acc` is the access of the core it answers to. -/
def State.domainSend (s : State) (target op aop u size scope ctx len rid pa : Nat) (val cv : Word) (data : List Byte)
    (core acc : Nat) : State :=
  let n := mget 1 s.dom.nextPseq target
  let hdr := domainHdr op aop u size scope ctx s.dom.modid target len (s.sgen % 2 ^ 32) rid pa 0 n val cv
  let s0 := if op = 1 then s else s.l2Drop (windowBase target + pa) (if op = 3 then 2 ^ size else len)
  let s1 : State :=
   { s0 with
    dom := { s0.dom with
      nextPseq := mset s.dom.nextPseq target ((n + 1) % 2 ^ 32),
      reqs := s.dom.reqs ++ [{ target := target, pseq := n, hdr := hdr, data := data, core := core, acc := acc, tries := 1,
                               sentAt := s.cyc, skip := false, va := 0, origin := 0 }] } }
  s1.send (.domain hdr data)

/-- The request sent last is a store of K (R346). -/
def State.tagReq (s : State) (va : Word) (origin : Nat) : State :=
  match s.dom.reqs.getLast? with
  | some r => { s with dom := { s.dom with reqs := s.dom.reqs.dropLast ++ [{ r with va := va, origin := origin }] } }
  | none => s

/-- One pending write published at a scope; the writes of one release have one serial number, and so become visible together (R237). -/
def State.publish1 (s : State) (scope : Nat) (w : PWrite) : State :=
  match s.paKind w.pa with
  | .home =>
    if 3 ≤ scope then s.homeWrite w.pa [w.b]
    else
      State.observe { s with blog := s.blog ++ [{ w with scope := scope, ser := s.serial }] } w.pa 1
  | .window m off => (s.domainSend m 2 0 0 0 scope w.ctx 1 0 off 0 0 [w.b] w.core 0).tagReq w.va w.origin
  | .refused cause => s.accessError w.core w.pa w.va w.ctx cause 1 w.origin

/-- The bytes, after the one at an address, that the same store wrote at the addresses that follow; and the rest. -/
def storeRun (pa ser : Nat) : List PWrite → List Byte × List PWrite
  | [] => ([], [])
  | w :: r =>
    if w.pa = pa + 1 ∧ w.ser = ser then
      let x := storeRun w.pa ser r
      (w.b :: x.1, x.2)
    else ([], w :: r)

/-- Pending writes published in program order; the bytes of one store to another module go in one
message (R237), and a refused store is refused once (R345). -/
def State.publishSome (s : State) (scope : Nat) : Nat → List PWrite → State
  | 0, _ => s
  | _, [] => s
  | n + 1, w :: r =>
    match s.paKind w.pa with
    | .window m off =>
      let x := storeRun w.pa w.ser r
      let bs := w.b :: x.1
      ((s.domainSend m 2 0 0 0 scope w.ctx bs.length 0 off 0 0 bs w.core 0).tagReq w.va w.origin).publishSome scope n x.2
    | .refused _ => (s.publish1 scope w).publishSome scope n (storeRun w.pa w.ser r).2
    | .home =>
      if s.homeBad w.core 1 w.pa 1 then
        (s.accessError w.core w.pa w.va w.ctx 0x83 1 w.origin).publishSome scope n (storeRun w.pa w.ser r).2
      else (s.publish1 scope w).publishSome scope n r

/-- Pending writes published in program order, together. -/
def State.publishAll (s : State) (scope : Nat) (ws : List PWrite) : State :=
  if ws.isEmpty then s
  else
    let t := s.publishSome scope ws.length ws
    { t with serial := t.serial + 1 }

/-- The earlier narrow publications of a core become visible at a wider scope (R238). -/
def State.widen (s : State) (c scope : Nat) : State :=
  if 3 ≤ scope then (s.blog.filter (fun e => decide (e.core = c))).foldl (fun s e => s.promote e) s
  else { s with blog := s.blog.map (fun e => if e.core = c ∧ e.scope < scope then { e with scope := scope } else e) }

/-- A release of a core at a scope: every pending write is published at once (R234). DEDUCED (log 13). -/
def State.release (s : State) (c scope : Nat) : State :=
  let ws := (s.core c).ms.pend
  ((s.widen c scope).publishAll scope ws).modMs c (fun m => { m with pend := [] })

/-- Every L2 copy of the domain window is dropped, and no read in flight leaves one (Table 11-1). -/
def State.l2Clear (s : State) : State :=
  { s with dom := { s.dom with l2 := [], reqs := s.dom.reqs.map (fun r => { r with fills := false }) } }

/-- An atomic that has not been performed. -/
def GAcc.unperformed (g : GAcc) : Bool := decide (g.kind = 2) && (g.todo.isSome || !g.want.isEmpty)

/-- Bytes that an atomic's post-value does not come to stand in, once it is performed: they have a later value (R236). -/
def GAcc.hide (g : GAcc) (pa n : Nat) : GAcc :=
  if g.unperformed then { g with hid := (upTo g.pa g.nb).filter (fun a => g.hid.contains a || (decide (pa ≤ a) && decide (a < pa + n))) } else g

/-- An acquire of a core: a new snapshot, over which its pending writes stand (R236), of the domain window too, whose lines are read again when
they are loaded (R396: a read takes the value current at that moment), and what was asked for before does not come to stand in it; a domain acquire also drops the
L2 copies of that window (Table 11-1). Stash entries hold what the snapshot gives, so they
are refreshed with it (R245). DEDUCED (log 13). -/
def State.acquire (s : State) (c scope : Nat) : State :=
  let co := s.core c
  let base := s.visible c
  let snap := (co.ms.pend.filter (fun w => !isWindow w.pa)).foldl (fun m w => mput 0 m w.pa w.b) base
  let own := (co.ms.pend.filter (fun w => isWindow w.pa)).foldl (fun m w => mset m w.pa w.b) []
  (if scope = 4 then s.l2Clear else s).modMs c (fun m => { m with snap := snap, remote := own, lines := [], gacc := m.gacc.map (fun g => g.hide g.pa g.nb) })

/-- A domain write or read of a core is still unanswered. -/
def State.domainBusy (s : State) (c : Nat) : Bool :=
  s.dom.reqs.any (fun r => decide (r.core = c) && !r.skip && decide (fld r.hdr.toNat 0 4 = 2))

/-- The byte a plain load of a core returns: its snapshot with its own writes (R236). -/
def MemSide.loadByte (m : MemSide) (pa : Nat) : Byte :=
  match mfind m.remote pa with
  | some b => b
  | none => mget 0 m.snap pa

/-- A plain store of a core: pending, and seen by its own loads (R234, R236). DEDUCED (log 13). -/
def State.storeBytes (s : State) (c pa : Nat) (va : Word) (origin : Nat) (bs : List Byte) : State :=
  let win := isWindow pa
  let s1 : State := { s with serial := s.serial + 1 }
  s1.modCore c (fun co =>
    { co with ms :=
      { co.ms with
        snap := if win then co.ms.snap else memPut co.ms.snap pa bs,
        remote := if win then (bs.zip (upTo pa bs.length)).foldl (fun r p => mset r p.2 p.1) co.ms.remote else co.ms.remote,
        gacc := if win then co.ms.gacc.map (fun g => g.hide pa bs.length) else co.ms.gacc,
        pend := co.ms.pend ++ (bs.zip (upTo 0 bs.length)).map (fun p =>
          { pa := pa + p.2, b := p.1, core := c, scope := 0, ser := s.serial, va := va + BitVec.ofNat 64 p.2, origin := origin,
            ctx := co.ctx }) } })

/-- The pending write lies in these bytes. -/
def PWrite.within (w : PWrite) (pa nb : Nat) : Bool := decide (pa ≤ w.pa) && decide (w.pa < pa + nb)

/-- A core's pending writes to the operand of an atomic, made before it was issued, are published just before it (R242); `id`: its number. -/
def State.publishHits (s : State) (c pa nb id : Nat) : State :=
  (s.publishAll 3 ((s.core c).ms.pend.filter (fun w => w.within pa nb && decide (w.ser < id)))).modMs c (fun m =>
    { m with pend := m.pend.filter (fun w => !(w.within pa nb && decide (w.ser < id))) })

/-- An atomic performed at the home slice for a core (R242): the old value is read and the new one written at one point of
the boundary order, and the core's later loads see the new value unless it has stored since (R236). DEDUCED (log 13). -/
def State.atomicPerform (s : State) (c pa nb : Nat) (f : Nat → Option Nat) : Nat × State :=
  let old := s.homeNat pa nb
  let s2 := match f old with
    | some v => s.homeWrite pa (leBytes nb v)
    | none => s
  (old, s2.modMs c (fun m =>
    { m with snap := (m.pend.filter (fun w => w.within pa nb)).foldl (fun x w => mput 0 x w.pa w.b)
               (memPut m.snap pa (s2.homeBytes pa nb)) }))

/-- A semaphore release aimed at a core for a context: on the running copy, or on the image of a context that is
switched out, in its core image in memory (R263, R369). -/
def imageSemUpdate (s : State) (cimg c k n : Nat) : State :=
  let a := cimg + c * 0x40000
  let r := semUp (s.homeNat (a + 2 * k) 2) n
  let s1 := s.homeWrite (a + 2 * k) (leBytes 2 r.1)
  if r.2 then s1.homeWrite (a + 128) (leBytes 8 (s1.homeNat (a + 128) 8 ||| 2 ^ k)) else s1

end Sys2Proof.Machine
end

