-- ==== Sys2Proof/Machine/Translate.lean ====
section
/-! DEFINITION. Address translation (R246 to R252), the fault buffer and the stall wire (R253 to R257). -/
namespace Sys2Proof.Machine

/-- A canonical address (R21, R246). -/
def canonical (va : Word) : Bool := va.extractLsb' 56 8 == (if va.getLsbD 55 then 0xFF else 0)

/-- A failure of a translation: cause, reason and level (Table 12-4). -/
structure TrFail where
  cause : Nat
  reason : Nat
  level : Nat
  deriving DecidableEq, Repr

/-- The permission reason of an access kind (0 read, 1 write, 2 atomic) on a leaf (R249). -/
def permFail (e kind : Nat) : Option Nat :=
  let r := bit e 2; let w := bit e 3
  if kind = 0 then (if r then none else some 8)
  else if kind = 1 then (if w then none else some 9)
  else if r && w then none else some 0xA

/-- The 16 entries of a contiguous group agree (R249). -/
def groupOk (es : List Nat) : Bool :=
  let first := fld (es.getD 0 0) 12 40
  decide (first % 16 = 0) && (es.zip (upTo 0 16)).all (fun p =>
    bit p.1 0 && bit p.1 1 && bit p.1 9 && decide (fld p.1 2 10 = fld (es.getD 0 0) 2 10) &&
      decide (fld p.1 12 40 = first + p.2) && decide (fld p.1 52 12 = 0))

/-- A page-table entry as a page walker reads it: a module-scope acquire of its 8 bytes (R250). -/
def State.walkNat (s : State) (pa : Nat) : Nat := s.seenNat 130 pa 8

/-- The checks of Table 12-4 on a leaf at a level, and the translation it gives. -/
def State.leaf (s : State) (ctx : Nat) (va : Word) (tab lvl e kind : Nat) : Except TrFail TlbEnt :=
  let bad (c r : Nat) : Except TrFail TlbEnt := .error { cause := c, reason := r, level := lvl }
  let pa := fld e 12 40 * 4096
  let g := bit e 9
  let lg := if lvl = 2 then 30 else if lvl = 1 then 21 else if g then 16 else 12
  if 3 ≤ lvl then bad 0x45 3
  else if g ∧ lvl ≠ 0 then bad 0x45 3
  else if lg ≠ 16 ∧ pa % 2 ^ lg ≠ 0 then bad 0x45 4
  else if (bit e 6 && !bit e 5) || (bit e 7 && !bit e 8) || (bit e 7 && decide (lvl ≠ 1)) || (bit e 7 && bit e 6) ||
      (bit e 7 && !inHbm pa) then bad 0x45 5
  else
    let gbase := tab + 8 * (fld va.toNat 12 9 / 16 * 16)
    let es := (upTo 0 16).map (fun i => s.walkNat (gbase + 8 * i))
    if g ∧ groupOk es = false then bad 0x45 5
    else
      let base := if g then fld (es.getD 0 0) 12 40 * 4096 else pa
      match permFail e kind with
      | some r => bad 0x46 r
      | none => .ok { ctx := ctx, vbase := va.toNat / 2 ^ lg, lg := lg, pbase := base, attr := BitVec.ofNat 10 e }

/-- A walk from the table of a level down (R247 to R249). A table outside HBM is the failure of the entry that points to it. -/
def State.walkFrom (s : State) (ctx : Nat) (va : Word) (kind : Nat) : Nat → Nat → Except TrFail TlbEnt
  | 0, tab =>
    if inHbm tab = false then .error { cause := 0x45, reason := 6, level := 1 }
    else
      let e := s.walkNat (tab + 8 * fld va.toNat 12 9)
      if bit e 0 = false then .error { cause := 0x45, reason := 1, level := 0 }
      else if fld e 52 12 ≠ 0 ∨ fld e 10 2 ≠ 0 ∨ bit e 4 then .error { cause := 0x45, reason := 2, level := 0 }
      else if bit e 1 = false then .error { cause := 0x45, reason := 3, level := 0 }
      else s.leaf ctx va tab 0 e kind
  | lvl + 1, tab =>
    if inHbm tab = false then .error { cause := 0x45, reason := 6, level := Nat.min (lvl + 2) 4 }
    else
      let idx := if lvl + 1 = 4 then fld va.toNat 48 8 else fld va.toNat (12 + 9 * (lvl + 1)) 9
      let e := s.walkNat (tab + 8 * idx)
      if bit e 0 = false then .error { cause := 0x45, reason := 1, level := lvl + 1 }
      else if fld e 52 12 ≠ 0 ∨ fld e 10 2 ≠ 0 ∨ bit e 4 then .error { cause := 0x45, reason := 2, level := lvl + 1 }
      else if bit e 1 then s.leaf ctx va tab (lvl + 1) e kind
      else if fld e 2 8 ≠ 0 then .error { cause := 0x45, reason := 2, level := lvl + 1 }
      else s.walkFrom ctx va kind lvl (fld e 12 40 * 4096)

/-- A whole walk for a context whose root is at ptbase (R247, R249). DEDUCED (log 15). -/
def State.walkPage (s : State) (ctx : Nat) (ptbase : Word) (va : Word) (kind : Nat) : Except TrFail TlbEnt :=
  if canonical va then s.walkFrom ctx va kind 4 (fld ptbase.toNat 12 40 * 4096)
  else .error { cause := 0x45, reason := 7, level := 4 }

/-- The page-table entries that a walk from the table of a level down reads. -/
def State.walkReads (s : State) (va : Word) : Nat → Nat → List Nat
  | 0, tab => [tab + 8 * fld va.toNat 12 9]
  | lvl + 1, tab =>
    let a := tab + 8 * (if lvl + 1 = 4 then fld va.toNat 48 8 else fld va.toNat (12 + 9 * (lvl + 1)) 9)
    let e := s.walkNat a
    if bit e 0 && !bit e 1 then a :: s.walkReads va lvl (fld e 12 40 * 4096) else [a]

/-- A walk for a core reads a page-table entry with an uncorrectable error, or over the link between the dies when that has one (R348, R388): the
entry's address. -/
def State.walkFails (s : State) (c : Nat) (ptbase va : Word) : Option Nat :=
  if (s.bad.isEmpty && !s.linkErr.contains c) || !canonical va then none
  else (s.walkReads va 4 (fld ptbase.toNat 12 40 * 4096)).find? (fun a => inHbm a && s.homeBad c 0 a 8)

/-- The entry covers an address of its context. -/
def TlbEnt.covers (e : TlbEnt) (ctx : Nat) (va : Word) : Bool :=
  decide (e.ctx = ctx) && decide (va.toNat / 2 ^ e.lg = e.vbase)

/-- The entry serves an access of this kind. -/
def TlbEnt.serves (e : TlbEnt) (ctx : Nat) (va : Word) (kind : Nat) : Bool :=
  e.covers ctx va && (permFail e.attr.toNat kind).isNone

/-- The physical address of a virtual one under an entry. -/
def TlbEnt.pa (e : TlbEnt) (va : Word) : Nat := e.pbase + va.toNat % 2 ^ e.lg

/-! ## Groups and wires -/

/-- The cores that run the units of a launch here (R105). -/
def Launch.cores (l : Launch) : List Nat := nubBy (fun a b => a == b) (l.units.map (fun u => u.core))

/-- The group of a context on a core (R105, R255): of the launch whose segment it runs there, or stood in when it was switched out. -/
def State.faultGroup (s : State) (c ctx : Nat) : List Nat :=
  let co := s.core c
  match (if co.bound ∧ co.ctx = ctx then co.im else mget Image.init s.images (imageKey ctx c)).seg with
  | some g =>
    match s.launches.find? (fun l => decide (l.id = g.launch)) with
    | some l => if 1 < l.cores.length then sortBy (fun a b => decide (a ≤ b)) l.cores else [c]
    | none => [c]
  | none => [c]

/-- The statically synchronised group of a core (R105). -/
def State.groupOf (s : State) (c : Nat) : List Nat :=
  match (s.core c).im.seg with
  | some g =>
    match s.launches.find? (fun l => decide (l.id = g.launch)) with
    | some l => if 1 < l.cores.length then sortBy (fun a b => decide (a ≤ b)) l.cores else [c]
    | none => [c]
  | none => [c]

/-- A record's slot of the fault buffer is free. -/
def Die.slotFree (d : Die) (i : Nat) : Bool :=
  match mfind d.fbuf i with
  | some r => decide (r.state = 0)
  | none => true

/-- The lowest free slot of a fault buffer of 4,096. -/
def Die.freeSlot (d : Die) : Option Nat :=
  if d.fbuf.length < 4096 then (upTo 0 (d.fbuf.length + 1)).find? (fun i => d.slotFree i)
  else (d.fbuf.find? (fun p => decide (p.2.state = 0))).map (fun p => p.1)

/-- A failure joins this unresolved record (R253). -/
def FaultRec.joins (r n : FaultRec) : Bool :=
  decide (r.state = 1) && decide (r.ctx = n.ctx) && decide (r.va.toNat / 4096 = n.va.toNat / 4096) &&
    decide (r.cause = n.cause) && decide (r.kind = n.kind)

/-- Place or join a fault record on a die; none when it is refused (R253, R254). -/
def State.placeFault (s : State) (d : Nat) (n : FaultRec) : Option (Nat × State) :=
  match (s.die d).fbuf.find? (fun p => p.2.joins n) with
  | some p =>
    some (p.1, s.modDie d (fun x => { x with fbuf := mset x.fbuf p.1 { p.2 with joined := Nat.min (p.2.joined + 1) 65535 } }))
  | none =>
    match (s.die d).freeSlot with
    | some i => some (i, s.modDie d (fun x => { x with fbuf := mset x.fbuf i n }))
    | none => none

/-- The cores of a wire are to be frozen on this cycle. -/
def Wire.holds (w : Wire) (cyc : Nat) : Bool :=
  decide (w.f + 48 ≤ cyc) &&
    (match w.u with
     | some u => decide (cyc < u + 48)
     | none => true)

/-- The stall wire of a context's group is asserted for a record (R255); an interval that is running extends. -/
def State.assertWire (s : State) (ctx : Nat) (cores : List Nat) (d i : Nat) : State :=
  if s.wires.any (fun w => decide (w.ctx = ctx ∧ w.cores = cores)) then
    { s with wires := s.wires.map (fun w =>
        if w.ctx = ctx ∧ w.cores = cores then { w with u := none, recs := w.recs.filter (fun x => decide (x ≠ (d, i))) ++ [(d, i)] } else w) }
  else { s with wires := s.wires ++ [{ ctx := ctx, cores := cores, f := s.cyc, u := none, recs := [(d, i)] }] }

/-- The fault record of a failed access of a core's unit (Table 12-6). -/
def State.faultRec (s : State) (c ctx unit uidx kind : Nat) (va : Word) (e : TrFail) : FaultRec :=
  { va := va, tstep := s.tstep, ctx := ctx, cause := e.cause, level := e.level, reason := e.reason, kind := kind,
    die := dieOf c, core := c % 64, unit := unit, uidx := uidx, joined := 0, state := 1 }

/-- The record is of a core of these, and not of a die's front end, which no wire waits for (R255, R445). -/
def FaultRec.ofGroup (r : FaultRec) (cores : List Nat) : Bool := decide (r.unit ≠ 4) && cores.contains (64 * r.die + r.core)

/-- A failed access of a core's unit stands at a record, or is refused for `interval` (R253, R254). The wire of its group is asserted when the record is
of the group's cores: a failure that joins a record of another group asserts none (R255). -/
def State.faultCore (s : State) (c ctx unit uidx kind interval : Nat) (va : Word) (e : TrFail) : FWait × State :=
  match s.placeFault (dieOf c) (s.faultRec c ctx unit uidx kind va e) with
  | some (i, s') =>
    let g := s.faultGroup c ctx
    (.stands (dieOf c) i 0, if ((mfind (s'.die (dieOf c)).fbuf i).map (fun r => r.ofGroup g)).getD true then s'.assertWire ctx g (dieOf c) i else s')
  | none => (.backoff (s.cyc + interval) (Nat.min (interval * 2) 65536), s)

/-- How an engine's translation of bytes ends: physical addresses of the parts with their lengths; the access stands; or
it ends with a cause at an address. -/
inductive Tr where
  | ok (parts : List (Nat × Nat)) (s : State)
  | stand (w : FWait) (s : State)
  | bad (cause : Nat) (va : Word)

/-- The parts of an access cut at 4 KiB boundaries. -/
def pageParts : Nat → Nat → Nat → List (Nat × Nat)
  | 0, _, _ => []
  | f + 1, va, n =>
    if n = 0 then []
    else
      let k := Nat.min n (4096 - va % 4096)
      (va, k) :: pageParts f (va + k) (n - k)

/-- The parts, of at most 4 KiB each, of n bytes at an address. -/
def partsOf (va : Word) (n : Nat) : List (Nat × Nat) := pageParts (n / 4096 + 2) va.toNat n

/-- The page next to an entry's, in a stream's direction (R252). -/
def TlbEnt.next (e : TlbEnt) (down : Bool) : Word :=
  if down then BitVec.ofNat 64 (e.vbase * 2 ^ e.lg) - 1 else BitVec.ofNat 64 ((e.vbase + 1) * 2 ^ e.lg)

/-- The die of the agent of a stream TLB. -/
def agentDie (a : Nat) : Nat :=
  if a < 512 then a / 256 else if a < 544 then (a - 512) / 16 else if a < 672 then (a - 544) / 64 else if a < 688 then (a - 672) / 8
  else (a - 688) / 16

/-- A walk comes before the walkers of a die, behind those that have come (R250). -/
def State.queueWalk (s : State) (d key : Nat) : State :=
  s.modDie d (fun x => { x with walkq := x.walkq.filter (fun k => decide (k ≠ key)) ++ [key] })

/-- An entry put in front of an agent's stream TLB, which is to walk for the next page (R252). DEDUCED (log 15). -/
def State.streamFill (s : State) (agent : Nat) (e : TlbEnt) (down : Bool) : State :=
  let l := (e :: (mget [] s.stlb agent).filter (fun x => !decide (x = e))).take 2
  if agent < 1024 then
    { s with stlb := mset s.stlb agent l, pfetch := mset s.pfetch agent (e.ctx, e.next down) }.queueWalk (agentDie agent) (1024 + agent)
  else { s with stlb := mset s.stlb agent l }

/-- An agent's translation of an address by its stream TLB, or by a walk (R250, R252). -/
def State.stream (s : State) (agent ctx : Nat) (root va : Word) (kind : Nat) (down : Bool) : Except TrFail (TlbEnt × State) :=
  let l := mget [] s.stlb agent
  match l.find? (fun e => e.serves ctx va kind) with
  | some e => .ok (e, if l.head? = some e then s else s.streamFill agent e down)
  | none =>
    match s.walkPage ctx root va kind with
    | .error x => .error x
    | .ok e => .ok (e, s.streamFill agent e down)

/-- The first part of an access whose address is not canonical, with its number: it fails at once (R246). -/
def badPart : Nat → List Word → Option (Word × Nat)
  | _, [] => none
  | i, va :: r => if canonical va then badPart (i + 1) r else some (va, i)

/-- Translate all parts of an access: the parts, or the first failure. -/
def State.translateAll (s : State) (agent ctx : Nat) (root : Word) (kind : Nat) (down : Bool) :
    List (Nat × Nat) → Except (Word × TrFail) (List (Nat × Nat) × State)
  | [] => .ok ([], s)
  | (va, n) :: r =>
    let v := BitVec.ofNat 64 va
    match s.stream agent ctx root v kind down with
    | .error e => .error (v, e)
    | .ok (ent, s') =>
      match s'.translateAll agent ctx root kind down r with
      | .error x => .error x
      | .ok (ps, s'') => .ok ((ent.pa v, n) :: ps, s'')

/-- The address of a context's descriptor (R361, R378): of a current record that names the context, else of the last one that did (R376). -/
def State.ctxDesc (s : State) (ctx : Nat) : Option Nat :=
  let pick (d : Nat) : Option Nat :=
    (((s.die d).rows).find? (fun p => decide (fld p.2.toNat 81 1 = 1) && decide (fld p.2.toNat 86 10 = ctx))).map
      (fun p => fld p.2.toNat 192 64)
  match pick 0, pick 1 with
  | some a, _ => some a
  | none, some a => some a
  | none, none => mfind s.descs ctx

/-- The page-table root of a context: of a core that runs it, else of its descriptor (R247, R378). -/
def State.rootOf (s : State) (ctx : Nat) : Word :=
  match s.cores.find? (fun p => p.2.bound && decide (p.2.ctx = ctx)) with
  | some p => p.2.ptbase
  | none => ((s.ctxDesc ctx).map (fun a => BitVec.ofNat 64 (s.homeNat (a + 0x18) 8))).getD 0

/-- The backoff interval of an access that tries again (R254). -/
def FWait.interval (w : FWait) : Nat :=
  match w with
  | .backoff _ i => i
  | _ => 64

/-- An access may be tried on this cycle (R254, R257). -/
def FWait.ready (w : FWait) (cyc : Nat) : Bool :=
  match w with
  | .go => true
  | .backoff t _ => decide (t ≤ cyc)
  | _ => false

/-- A demand access's translation: an address that is not canonical fails before any part is translated (R246). -/
def State.demand (s : State) (agent ctx kind : Nat) (down : Bool) (va : Word) (n : Nat) :
    Except (Word × TrFail) (List (Nat × Nat) × State) :=
  let ps := partsOf va n
  match badPart 0 (ps.map (fun p => BitVec.ofNat 64 p.1)) with
  | some (v, _) => .error (v, { cause := 0x45, reason := 7, level := 4 })
  | none => s.translateAll agent ctx (s.rootOf ctx) kind down ps

/-- The near-bank unit that serves an address of HBM (R312). -/
def nearUnit (pa : Nat) : Nat := 384 * (pa / 0xC00000000) + pa % 0xC00000000 / 0x200000 % 384

/-- When the commands end that a unit holds (R313). -/
def State.unitHeld (s : State) (u : Nat) : List Nat := (mget [] s.nbHeld u).filter (fun e => decide (s.cyc < e))

/-- A unit takes no more commands: it holds 16 (R313). -/
def State.unitFull (s : State) (u : Nat) : Bool := decide (16 ≤ (mget [] s.nbHeld u).length) && decide (16 ≤ (s.unitHeld u).length)

/-- A command of some unit cycles comes to a unit, behind those it holds (R313): the cycle it ends, 4 cycles for each. -/
def State.unitTake (s : State) (u ucy : Nat) : Nat × State :=
  let l := s.unitHeld u
  let e := l.foldl Nat.max s.cyc + 4 * ucy
  (e, { s with nbHeld := mset s.nbHeld u (l ++ [e]) })

/-- A command that occupies its unit for at most some unit cycles (Table 15-8): how long, a free value. DESIGN CHOICE (log 32). -/
def State.unitTakeUpTo (s : State) (u ucy : Nat) : Nat × State :=
  { s with draws := s.draws + 1 }.unitTake u (1 + Config.latency s.draws % ucy)

/-- The home agents hold back an access to these bytes (R321): a write of the extent of a near-bank command, from its dispatch to its completion, or any
access where the command writes it; `own`: the queue whose packet's own access it is. DEDUCED (log 32). -/
def State.extentHeld (s : State) (own : Option Nat) (pa n : Nat) (write : Bool) : Bool :=
  s.works.any (fun w =>
    match w.2.ext with
    | some (a, k, wr) => overlap pa n a k && (write || wr) && decide (own ≠ some w.2.q)
    | none => false) ||
    (write && s.arrays.any (fun p => p.2.queue.any (fun x =>
      match x.b, x.wrec with
      | some _, (a, k) :: _ => overlap pa n a k
      | _, _ => false)))

/-- They hold back an access of K, a host, or another module. -/
def State.extentBlocked (s : State) (pa n : Nat) (write : Bool) : Bool := s.extentHeld none pa n write

/-- They hold back an access of an engine to translated parts: it is tried again on a later cycle. -/
def State.partsHeld (s : State) (own : Option Nat) (kind : Nat) (ps : List (Nat × Nat)) : Bool :=
  ps.any (fun p => s.extentHeld own p.1 p.2 (decide (kind ≠ 0)))

/-- An access held back is tried again on the next cycle. -/
def State.heldWait (s : State) : FWait := .backoff (s.cyc + 1) 64

/-- A walk would read a page-table entry that home agents hold back (R321). -/
def State.walkHeld (s : State) (ptbase va : Word) : Bool :=
  canonical va && s.works.any (fun w => w.2.ext.isSome) &&
    (s.walkReads va 4 (fld ptbase.toNat 12 40 * 4096)).any (fun a => s.extentBlocked a 8 false)

/-- A walk that is before the walkers of a die is still wanted: K's, a prefetch, or one that an agent's access asked for on this cycle or the one
before. -/
def State.walking (s : State) (d key : Nat) : Bool :=
  if key < 1024 then
    match (s.core key).ms.hold with
    | some (.walk _ _ _ _ _ false none) => true
    | _ => false
  else if key < 8192 then (mfind s.pfetch (key - 1024)).isSome
  else decide (s.cyc ≤ mget 0 (s.die d).walkAsk (key - 8192) + 1)

/-- One of the 16 walkers of a die has taken a walk: fewer than 16 that came before it go on (R250). -/
def State.walkTurn (s : State) (d key : Nat) : Bool :=
  decide ((((s.die d).walkq.takeWhile (fun k => decide (k ≠ key))).filter (fun k => s.walking d k)).length < 16)

/-- A walk is no longer before the walkers. -/
def State.walkOver (s : State) (d key : Nat) : State :=
  s.modDie d (fun x => { x with walkq := x.walkq.filter (fun k => decide (k ≠ key)), walkAsk := mdel x.walkAsk (key - 8192) })

/-- An agent's access asks for a walk on this cycle: it keeps its place, or comes behind those that have come. -/
def State.walkWait (s : State) (d agent : Nat) : State :=
  let key := 8192 + agent
  ((if (s.die d).walkq.contains key && s.walking d key then s else s.queueWalk d key)).modDie d (fun x =>
    { x with walkAsk := mset x.walkAsk agent s.cyc })

/-- An agent's access that its stream TLB does not serve has to go through the walkers of its die (R250): whether it may on this cycle, and the state. -/
def State.walkGate (s : State) (d agent ctx kind : Nat) (va : Word) (n : Nat) : Bool × State :=
  let ps := (partsOf va n).map (fun p => BitVec.ofNat 64 p.1)
  let miss := ps.filter (fun v => !(mget [] s.stlb agent).any (fun e => e.serves ctx v kind))
  if miss.isEmpty || (badPart 0 ps).isSome then (true, s)
  else if s.walkTurn d (8192 + agent) && !miss.any (fun v => s.walkHeld (s.rootOf ctx) v) then
    (true, if (s.die d).walkq.contains (8192 + agent) then s.walkOver d (8192 + agent) else s)
  else (false, s.walkWait d agent)

/-- A demand access of an engine of a core, whose wait stands so: translated, standing at a record, or ended at once for an address
that is not canonical (R246, R252). -/
def State.engineAccess (s : State) (c agent ctx unit uidx kind : Nat) (down : Bool) (w : FWait) (va : Word) (n : Nat) : Tr :=
  let gate := s.walkGate (dieOf c) agent ctx kind va n
  let s := gate.2
  if gate.1 = false then .stand s.heldWait s
  else
    match s.demand agent ctx kind down va n with
    | .ok (ps, s') => if s'.partsHeld none kind ps then .stand s'.heldWait s' else .ok ps s'
    | .error (v, e) =>
      if e.reason = 7 then .bad 0x45 v
      else
        let r := s.faultCore c ctx unit uidx kind w.interval v e
        .stand r.1 r.2

/-- A demand access of a die's front end, which asserts no wire (R445). -/
def State.frontAccess (s : State) (d agent ctx unit uidx kind : Nat) (down : Bool) (w : FWait) (va : Word) (n : Nat) : Tr :=
  let gate := s.walkGate d agent ctx kind va n
  let s := gate.2
  if gate.1 = false then .stand s.heldWait s
  else
    match s.demand agent ctx kind down va n with
    | .ok (ps, s') => .ok ps s'
    | .error (v, e) =>
      if e.reason = 7 then .bad 0x45 v
      else
        match s.placeFault d { s.faultRec (64 * d) ctx unit uidx kind v e with core := 0 } with
        | some (i, s') => .stand (.stands d i 0) s'
        | none => .stand (.backoff (s.cyc + w.interval) (Nat.min (w.interval * 2) 65536)) s

/-- The first refusal among the pieces of a translated access for a core: an error response (R226, R345, R348, R388). -/
def State.partsRefused (s : State) (c kind : Nat) (ps : List (Nat × Nat)) : Option (Nat × Nat) :=
  firstSome (fun p =>
    match s.paKind p.1 with
    | .refused cause => some (cause, p.1)
    | .home => if s.homeBad c kind p.1 p.2 then some (0x83, p.1) else none
    | _ => none) ps

/-- How an engine's read or atomic of translated bytes stands: done; waiting for another module; refused. -/
inductive ERead where
  | ok (bs : List Byte) (s : State)
  | wait (s : State)
  | bad (cause pa : Nat)

/-- The answer an agent has for an address. -/
def State.answer (s : State) (agent pa : Nat) : Option Answer :=
  s.dom.answers.find? (fun a => decide (a.agent = agent) && decide (a.pa = pa))

/-- An agent has a request of its own to an address outstanding. -/
def State.asking (s : State) (agent pa : Nat) : Bool :=
  s.dom.reqs.any (fun r => decide (r.core = 128 + agent) && decide (r.acc = pa) && !r.skip)

/-- The bytes of translated parts: at their homes here (R274), or from other modules. -/
def State.readParts (s : State) (agent ctx : Nat) : List (Nat × Nat) → ERead
  | [] => .ok [] s
  | (pa, n) :: r =>
    let more (bs : List Byte) (s : State) : ERead :=
      match State.readParts s agent ctx r with
      | .ok x s' => .ok (bs ++ x) s'
      | y => y
    match s.paKind pa with
    | .refused cause => .bad cause pa
    | .home => more (s.homeBytes pa n) s
    | .window m off =>
      match s.answer agent pa with
      | some a => if a.cause ≠ 0 then .bad a.cause pa else more (a.bytes.take n) s
      | none =>
        if s.asking agent pa then .wait s else .wait (s.domainSend m 1 0 0 0 3 ctx n 0 off 0 0 [] (128 + agent) pa)

/-- What an agent was answered is no longer needed. -/
def State.forget (s : State) (agent : Nat) : State :=
  { s with dom := { s.dom with answers := s.dom.answers.filter (fun a => !decide (a.agent = agent)) } }

/-- An agent has writes to other modules that are not acknowledged. -/
def State.writesOut (s : State) (agent : Nat) : Bool :=
  s.dom.reqs.any (fun r => decide (r.core = 128 + agent) && !r.skip && decide (fld r.hdr.toNat 0 4 = 2))

/-- Bytes with their physical addresses along translated parts. -/
def spread : List (Nat × Nat) → List Byte → List (Nat × Byte)
  | [], _ => []
  | (pa, n) :: r, bs => (upTo pa n).zip (bs.take n) ++ spread r (bs.drop n)

/-- Bytes written by an engine along translated parts: at their homes here, or in another module (R274). -/
def State.writeParts (s : State) (agent ctx scope : Nat) (ps : List (Nat × Nat)) (bs : List Byte) : State :=
  match ps with
  | [] => s
  | (pa, n) :: r =>
    (match s.paKind pa with
     | .window m off => s.domainSend m 2 0 0 0 scope ctx n 0 off 0 0 (bs.take n) (128 + agent) pa
     | _ => s.homeWrite pa (bs.take n)).writeParts agent ctx scope r (bs.drop n)

/-! ## K's translations (R250, R251) -/

/-- The translations an entry of which is put in front; the oldest beyond 2,112 is dropped. DEDUCED (log 15). -/
def tlbTouch (l : List TlbEnt) (e : TlbEnt) : List TlbEnt :=
  (e :: l.filter (fun x => !decide (x = e))).take 2112

/-- How K's translation of the parts of a group's access stands. -/
inductive KTr where
  | ok (s : State) (pas : List (Nat × TlbEnt))
  | wait (s : State)
  | fault (va : Word) (part : Nat)

/-- Translate the parts of K's access in order, once all of them are canonical (R246): all held in the first level, the group goes on; one held in the second
level costs 2 cycles; one not held starts a walk (R251). -/
def State.kTranslate (s : State) (c kind : Nat) : Nat → List Word → KTr
  | _, [] => .ok s []
  | i, va :: r =>
    match badPart i (va :: r) with
    | some (v, j) => .fault v j
    | none =>
      let co := s.core c
      match co.ms.tlb.find? (fun e => e.serves co.ctx va kind) with
      | some e =>
        let s' := s.modMs c (fun m => { m with tlb := tlbTouch m.tlb e })
        if (co.ms.tlb.take 64).contains e then
          match s'.kTranslate c kind (i + 1) r with
          | .ok s2 ps => .ok s2 ((e.pa va, e) :: ps)
          | x => x
        else .wait (s'.modMs c (fun m => { m with hold := some (.pause (s.cyc + 2)) }))
      | none =>
        let l := s.later 1
        .wait ((l.2.modMs c (fun m => { m with hold := some (.walk va kind i l.1 64 false none) })).queueWalk (dieOf c) c)

end Sys2Proof.Machine
end

