-- ==== Sys2Proof/Machine/Sched.lean ====
section
/-! DEFINITION. What happens when: which sequencer issues next, and the end of a cycle. -/
namespace Sys2Proof.Machine

/-! ## Issue -/

/-- What K stands behind lets it issue (R240, R251). -/
def MemSide.free (m : MemSide) (cyc : Nat) : Bool :=
  match m.hold with
  | none => true
  | some (.pause t) => decide (t ≤ cyc)
  | some _ => false

/-- The sequencers of the core may issue on this cycle: a segment runs, and nothing freezes it (R96, R340). -/
def Core.mayIssue (co : Core) (cyc : Nat) : Bool :=
  co.bound && decide (co.walk.phase = .running) && co.im.seg.isSome && !co.frozenAt cyc

/-- A sequencer's group is to be tried on this cycle (R14, R98). -/
def Core.seqReady (co : Core) (cyc : Nat) (sq : Seq) : Bool :=
  let q := co.im.seq sq
  q.halted.isNone && !decide (q.tried = some cyc) && decide (q.earliest ≤ co.im.sched) &&
    (match sq with
     | .k => co.ms.free cyc
     | _ => true)

/-- The next sequencer of a core to issue on this cycle; K is last, so that an `align` sees what the others do on it (R104). DEDUCED (log 24). -/
def Core.nextSeq (co : Core) (cyc : Nat) : Option Seq :=
  if co.mayIssue cyc then [Seq.l, Seq.c, Seq.s, Seq.k].find? (fun q => co.seqReady cyc q) else none

/-- The next core and sequencer to issue. -/
def State.nextIssue (s : State) : Option (Nat × Seq) :=
  firstSome (fun p => (p.2.nextSeq s.cyc).map (fun q => (p.1, q))) s.cores

/-- The state in which a group is the present one. DESIGN CHOICE (log 7). -/
def State.withCur (s : State) (u : Cur) : State := { s with cur := u }

/-! ## Scans (R351) -/

/-- The cycle in a period of 64 ms at which the slot of a unit begins: of 2 ms for an array, of 0.5 ms for a vector unit. -/
def slotStart (unit : Nat) : Nat := if unit < 32 then 2 * oneMs * unit else oneMs / 2 * (unit - 32)

/-- The slots of a unit that have begun. -/
def slotsBegun (unit cyc : Nat) : Nat := if cyc < slotStart unit then 0 else (cyc - slotStart unit) / (64 * oneMs) + 1

/-- A slot of the unit has begun in which it has not been scanned: it is drained for the scan, and takes no new work. In step 5 of the boot order every unit
is scanned that has not passed (R436). -/
def State.scanDue (s : State) (unit : Nat) : Bool :=
  (decide (s.plat.bootStep = 6) && decide (mget 0 s.scans unit < slotsBegun unit s.cyc)) || (decide (s.plat.bootStep = 5) && decide (mget 0 s.gens unit = 0))

/-! ## The end of a cycle -/

/-- Bytes a copy channel has delivered are counted in its write pointer (R282). -/
def Image.delivered (im : Image) (ch n : Nat) : Image := { im with cwp := mput 0 im.cwp ch (mget 0 im.cwp ch + BitVec.ofNat 64 n) }

/-- A scratchpad write takes effect; a zero fill clears the zero bits of its granules with its bytes, before the writes that override it (R183, R221). -/
def Core.apply (co : Core) (p : Post) : Core :=
  match p with
  | .bytes la bs fill =>
    { co with spad := memPut co.spad la bs, bad := co.bad.filter (fun a => !(decide (la ≤ a) && decide (a < la + bs.length))),
              zbits := if fill then (granules la bs.length).foldl (fun m g => mput false m g false) co.zbits else co.zbits }
  | .slab n v => { co with slabs := mput Slab.init co.slabs n v }
  | .stamp n ts => { co with slabs := mput Slab.init co.slabs n { co.slab n with born := true, stamp := ts } }
  | .zbit g v => { co with zbits := mput false co.zbits g v }
  | .cwp ch n ctx =>
    if co.bound ∧ co.ctx = ctx then { co with im := co.im.delivered ch n } else co

/-- A write of a zero fill (R221). -/
def Post.isFill (p : Post) : Bool :=
  match p with
  | .bytes _ _ f => f
  | _ => false

/-- The writes of the cycle take effect, fills before the others (R154, R221). -/
def Core.commit (co : Core) : Core :=
  let ps := co.posted.filter (fun p => p.isFill) ++ co.posted.filter (fun p => !p.isFill)
  { ps.foldl Core.apply co with posted := [] }

/-- A core at the end of a cycle: its schedule counter advances while its segment runs unfrozen (R10, R96). -/
def Core.tick (co : Core) (cyc : Nat) : Core :=
  let co := if co.posted.isEmpty then co else co.commit
  if decide (co.walk.phase = .running) && co.im.seg.isSome && !co.frozenAt cyc &&
      (match co.stops.stop with
       | .trapped _ _ _ => false
       | _ => true) then
    { co with im := { co.im with sched := co.im.sched + 1 } }
  else co

/-- The local ranges a write of this cycle covers. -/
def Post.range (p : Post) : Option (Nat × Nat) :=
  match p with
  | .bytes la bs _ => some (la, bs.length)
  | _ => none

/-- An uncorrectable error strikes (R348). -/
def State.strike (s : State) (x : Struck) : State :=
  match x with
  | .spad c la => s.modCore c (fun co => { co with bad := la :: co.bad })
  | .home pa => { s with bad := pa :: s.bad }
  | .reg c b => s.modIm c (fun im => { im with flaws := b :: im.flaws })
  | .vec c b => s.modVec c (fun v => { v with bad := b :: v.bad })

/-- The errors that strike on this cycle (R348). DESIGN CHOICE (log 69). -/
def State.strikeDue (s : State) : State :=
  let rest : State := { s with strikes := s.strikes.filter (fun p => !decide (p.1 ≤ s.cyc)) }
  (s.strikes.filter (fun p => decide (p.1 ≤ s.cyc))).foldl (fun s p => s.strike p.2) rest

/-- The end of a cycle: the writes of each core take effect, and %cyc advances by one (R10); then what errors there are strike. -/
def State.tick (s : State) : State :=
  let t : State := { s with cores := s.cores.map (fun p => (p.1, p.2.tick s.cyc)) }
  let u : State := if t.strikes.isEmpty then t else t.strikeDue
  { u with cyc := s.cyc + 1 }

end Sys2Proof.Machine
end

