-- ==== Sys2Proof/Machine/Operands.lean ====
section
/-! DEFINITION. Operand forms: the second operand of the integer instructions (R50), branch targets (R55), effective
addresses and their parts (R230, R231). -/
namespace Sys2Proof.Machine

/-- The imm field sign-extended to 64 bits (R50). -/
def immWord (imm : BitVec 32) : Word := imm.signExtend 64

/-- The second operand of a REG instruction: register b, or imm in the "imm" forms (R39, R50). -/
inductive Snd where
  | reg
  | imm
  deriving DecidableEq, Repr

/-- The value of the second operand. -/
def State.snd (s : State) (k : Snd) (f : RegF) : Word :=
  match k with
  | .reg => s.rd f.b
  | .imm => immWord f.imm

/-- The registers a REG instruction with this second operand reads. -/
def sndRegs (k : Snd) (f : RegF) : List (BitVec 5) :=
  match k with
  | .reg => [f.a, f.b]
  | .imm => [f.a]

/-- A relative target: the group's first word + 4 × off (R56). -/
def State.relTarget (s : State) (off : BitVec 24) : Word := s.cur.first + off.signExtend 64 * 4

/-- A register target: A + 4 × off (R56). -/
def State.regTarget (s : State) (a : BitVec 5) (off : BitVec 24) : Word := s.rd a + off.signExtend 64 * 4

/-- The check of a transfer's target (R55): the cause it fails with. A target that is unaligned and outside the stream fails with 0x0B: DESIGN
CHOICE (log 67). -/
def SeqSt.targetFault (q : SeqSt) (target : Word) : Option Nat :=
  if target &&& 3 ≠ 0 then some 0xB else if q.inStream target then none else some 9

/-- A transfer whose target has passed its check goes on with the act, else it traps with no effect (R18, R55). -/
def State.checked (s : State) (target : Word) (a : Act) : Act :=
  match s.mySeq.targetFault target with
  | some cause => s.opTrap cause
  | none => a

/-- The address of a load, store or atomic (R230, R242). -/
def State.memAddr (s : State) (f : MemF) : Word := s.rd f.base + f.disp.signExtend 64

/-- The bytes an access of this size covers. -/
def sizeBytes (size : BitVec 2) : Nat := 2 ^ size.toNat

/-- The parts of an access cut at boundaries of a size: address and length of one or two (R231). -/
def splitAt (bound a n : Nat) : List (Nat × Nat) :=
  let k := bound - a % bound
  if n ≤ k then [(a, n)] else [(a, k), (a + k, n - k)]

/-- The split parts of a global access, at 128-byte lines, addresses modulo 2^64 (R231). -/
def lineParts (va : Word) (n : Nat) : List (Word × Nat) :=
  (splitAt 128 va.toNat n).map (fun p => (BitVec.ofNat 64 p.1, p.2))

/-- A loaded value of n bytes, sign- or zero-extended (R230). -/
def extendLoad (n : Nat) (sx : BitVec 1) (v : Nat) : Word :=
  if sx = 1 then BitVec.ofInt 64 (sgn (8 * n) v) else BitVec.ofNat 64 v

end Sys2Proof.Machine
end

