-- ==== Sys2Proof/Machine/Special.lean ====
section
/-! DEFINITION. Special registers: their numbers, what `mfs` reads and what `mts` may write (R10, R66, R67, and the tables
that extend Table 2-10). -/
namespace Sys2Proof.Machine

/-- The bits, one for each tile, that a property holds of (Table 8-2). -/
def ArrSt.tileBits (a : ArrSt) (p : Tile → Bool) : Nat :=
  (upTo 0 16).foldl (fun n i => n + b2n (p (mget Tile.init a.tiles i)) * 2 ^ i) 0

/-- %accst (Table 8-2). -/
def ArrSt.accst (a : ArrSt) : Word :=
  BitVec.ofNat 64 (a.tileBits (fun t => t.held) * 2 ^ 32 + a.tileBits (fun t => t.inuse) * 2 ^ 16 + a.tileBits (fun t => t.dirty))

/-- %tkcnt (Table 5-4). -/
def Image.tkcntWord (im : Image) : Word :=
  BitVec.ofNat 64 ((upTo 0 8).foldl (fun n q => n + im.tkcnt.toList.getD q 0 % 256 * 256 ^ q) 0)

/-- The context is in replay mode (R420): a replay store is installed for it. -/
def State.replaying (s : State) (ctx : Nat) : Bool := (mfind s.jrnl.stores ctx).isSome

/-- %jstat (Table 21-3). -/
def State.jstat (s : State) (co : Core) : Word :=
  BitVec.ofNat 64 (co.im.stg.seqn.toNat * 2 ^ 32 + b2n co.im.stg.unemitted * 8 + b2n co.im.stg.replay * 4 +
    b2n co.im.stg.opened * 2 + b2n (s.replaying co.ctx))

/-- What `mfs` reads from a special register of a core on this cycle; none for a number that no chapter assigns (R67). -/
def State.specialRead (s : State) (c n : Nat) : Option Word :=
  let co := s.core c
  let im := co.im
  if 0x08 ≤ n ∧ n ≤ 0x0F then
    some (match im.seg with
      | some g => (g.lvl.getD (n - 8) 0).setWidth 64
      | none => 0)
  else if 0x30 ≤ n ∧ n ≤ 0x3F then some (mget 0 im.qb (n - 0x30))
  else if 0x40 ≤ n ∧ n ≤ 0x43 then some (mget 0 im.cwp (n - 0x40))
  else if 0x44 ≤ n ∧ n ≤ 0x47 then some (mget 0 im.jts (n - 0x44))
  else
    match n with
    | 0x00 => some (BitVec.ofNat 64 (c % 64))
    | 0x01 => some (BitVec.ofNat 64 (dieOf c))
    | 0x02 => some (BitVec.ofNat 64 s.dom.modid)
    | 0x03 => some (BitVec.ofNat 64 co.ctx)
    | 0x10 => some (BitVec.ofNat 64 s.cyc)
    | 0x11 => some (BitVec.ofNat 64 s.tstep)
    | 0x12 => some (BitVec.ofNat 64 im.sched)
    | 0x13 => some (BitVec.ofNat 64 (im.vec.fsy.toNat * 256 + im.vec.fsx.toNat))
    | 0x20 => some (BitVec.ofNat 64 im.wbase)
    | 0x21 => some (BitVec.ofNat 64 im.wres)
    | 0x22 => some (BitVec.ofNat 64 im.wspl)
    | 0x23 => some (BitVec.ofNat 64 im.spcap)
    | 0x24 => some (im.k.lc.setWidth 64)
    | 0x25 => some (im.k.ec.setWidth 64)
    | 0x26 => some ((im.k.preds ||| 1).setWidth 64)
    | 0x28 => some im.tkmap
    | 0x29 => some im.tkcntWord
    | 0x2A => some 0
    | 0x2B => some (im.vec.rrb.setWidth 64)
    | 0x2C => some (s.arr (arrOf c)).accst
    | 0x2D => some (BitVec.ofNat 64 co.swthr)
    | 0x2E => some co.ptbase
    | 0x2F => some im.semov
    | 0x48 => some (s.die (dieOf c)).skcfg
    | 0x49 => some s.hrcfg
    | 0x4A => some (BitVec.ofNat 64 (s.sgen % 2 ^ 32))
    | 0x4B => some s.dom.dgrp
    | 0x4C => some im.rid
    | 0x4D => some (s.jstat co)
    | _ => none

/-- What an `mts` comes to. -/
inductive MtsCheck where
  | readOnly
  | illegal
  | ok (fx : Fx)
  deriving DecidableEq, Repr

/-- The checks of `mts` on a register and a value (R67, R102, R270, R397), and the write it makes. -/
def Image.mtsCheck (im : Image) (n : Nat) (v : Word) : MtsCheck :=
  if 0x30 ≤ n ∧ n ≤ 0x3F then (if v.toNat % 64 = 0 then .ok (.special n v) else .illegal)
  else if 0x44 ≤ n ∧ n ≤ 0x47 then .ok (.special n v)
  else
    match n with
    | 0x24 => if v.toNat < 2 ^ 32 then .ok (.lcW (v.setWidth 32)) else .illegal
    | 0x25 => if v.toNat ≤ 8 then .ok (.ecW (v.setWidth 4)) else .illegal
    | 0x26 => .ok (.predAll (v.setWidth 16 ||| 1))
    | 0x28 =>
      if im.tkcnt.toList.all (fun c => c == 0) &&
          [im.k, im.l, im.c, im.s].all (fun q =>
            match q.waiting with
            | some w => decide (w.kind ≠ 1)
            | none => true) &&
          decide (v &&& 0xF0F0F0F0F0F0F0F0 = 0) then .ok (.special n v)
      else .illegal
    | 0x2A => .ok (.fclr v)
    | 0x2F => .ok (.special n v)
    | 0x4C => if v.toNat < 2 ^ 25 then .ok (.special n v) else .illegal
    | _ => .readOnly

/-- The effect of `mts` (R67): the write is due one cycle later. -/
def actMts (f : MgtF) (s : State) : Act :=
  match s.me.im.mtsCheck f.idx.toNat (s.rd f.a) with
  | .readOnly => s.opTrap 8
  | .illegal => s.opTrap 0xB
  | .ok fx => .done (s.result 1 0 fx)

/-- MFS (R67). -/
def execMfs (f : MgtF) (s : State) : Host.Outcome State Fault Refusal :=
  issue s [] (fun s =>
    match s.specialRead s.cur.core f.idx.toNat with
    | some v => .done (s.wr 1 f.d v)
    | none => s.opTrap 0xB)

/-- MTS (R67). -/
def execMts (f : MgtF) (s : State) : Host.Outcome State Fault Refusal := issue s [f.a] (actMts f)

/-- MTS_FCLR (R141): the write of %fclr, which clears flags on the next cycle. -/
def execMtsFclr (f : MgtF) (s : State) : Host.Outcome State Fault Refusal := issue s [f.a] (actMts { f with idx := 0x2A })

/-- MTS_TKMAP (R102): the write of %tkmap. -/
def execMtsTkmap (f : MgtF) (s : State) : Host.Outcome State Fault Refusal := issue s [f.a] (actMts { f with idx := 0x28 })

/-- A special register written by `mts` (Fx.special). -/
def Image.putSpecial (im : Image) (n : Nat) (v : Word) : Image :=
  if n = 0x28 then { im with tkmap := v }
  else if n = 0x2F then { im with semov := v }
  else if n = 0x4C then { im with rid := v }
  else if 0x30 ≤ n ∧ n ≤ 0x3F then { im with qb := mput 0 im.qb (n - 0x30) v }
  else if 0x44 ≤ n ∧ n ≤ 0x47 then { im with jts := mset im.jts (n - 0x44) v }
  else im

end Sys2Proof.Machine
end

