-- ==== Sys2Proof/Machine/Tokens.lean ====
section
/-! DEFINITION. Token queues, the alignment of sequencers and of cores, triggers of launches (R101 to R105, R114). -/
namespace Sys2Proof.Machine

/-! ## Token queues (R101 to R103) -/

/-- The source sequencer code of a token queue (Table 5-3). -/
def Image.tkSource (im : Image) (q : Nat) : Nat := fld im.tkmap.toNat (8 * q) 2

/-- The sink sequencer code of a token queue (Table 5-3). -/
def Image.tkSink (im : Image) (q : Nat) : Nat := fld im.tkmap.toNat (8 * q + 2) 2

/-- The counter of a token queue. -/
def Image.tk (im : Image) (q : Nat) : Nat := im.tkcnt.toList.getD q 0

/-- The effect of `tkput` (R103). -/
def actTkput (f : MgtF) (s : State) : Act :=
  let q := f.idx.toNat
  if s.me.im.tkSource q ≠ s.cur.sq.code then s.opTrap 0xB
  else if 255 < s.me.im.tk q + f.n.toNat then .wait s 2 q 0
  else .done (s.result 1 0 (.tokens q f.n.toNat))

/-- The effect of a blocking `tkget` (R103). -/
def actTkget (f : MgtF) (s : State) : Act :=
  let q := f.idx.toNat
  if s.me.im.tkSink q ≠ s.cur.sq.code then s.opTrap 0xB
  else if s.me.im.tk q < f.n.toNat then .wait s 1 q f.n.toNat
  else .done (s.result 1 0 (.take q f.n.toNat))

/-- The effect of `tkget.try` (R103). -/
def actTkgetTry (f : MgtF) (s : State) : Act :=
  let q := f.idx.toNat
  if s.me.im.tkSink q ≠ s.cur.sq.code then s.opTrap 0xB
  else if s.me.im.tk q < f.n.toNat then .done (s.wrPred 1 f.pa false)
  else .done ((s.result 1 0 (.take q f.n.toNat)).wrPred 1 f.pa true)

/-- TKPUT (R103). -/
def execTkput (f : MgtF) (s : State) : Host.Outcome State Fault Refusal := issue s [] (actTkput f)

/-- TKGET (R103). -/
def execTkget (f : MgtF) (s : State) : Host.Outcome State Fault Refusal := issue s [] (actTkget f)

/-- TKGET_TRY (R103). -/
def execTkgetTry (f : MgtF) (s : State) : Host.Outcome State Fault Refusal := issue s [] (actTkgetTry f)

/-! ## align (R104) -/

/-- The queue at which a sequencer is parked and the tokens it lacks: it waits at a blocking `tkget` on a queue whose source
is K. -/
def Image.parked (im : Image) (q : Seq) : Option (Nat × Nat) :=
  match (im.seq q).waiting with
  | some w =>
    if w.kind = 1 ∧ im.tkSource w.obj = 0 ∧ im.tk w.obj < w.lacks then some (w.obj, w.lacks - im.tk w.obj) else none
  | none => none

/-- A masked sequencer is parked or halted. -/
def Image.alignReady (im : Image) (q : Seq) : Bool := (im.seq q).halted.isSome || (im.parked q).isSome

/-- The effect is a result (R19), not what a `tkget`, `agset` or slab instruction does one or two cycles after its issue. -/
def Fx.isResult (fx : Fx) : Bool :=
  match fx with
  | .take _ _ => false
  | .agset _ _ => false
  | .sem _ _ => false
  | .slabs _ _ _ => false
  | _ => true

/-- A result of a sequencer of the core is in flight. -/
def Core.inFlight (co : Core) : Bool :=
  co.im.flight.any (fun x => x.fx.isResult) || co.ms.gacc.any (fun g => g.dst.isSome) || !co.im.vec.vlds.isEmpty ||
    !co.im.vec.vsts.isEmpty

/-- The masked sequencers of an `align`. -/
def alignMask (f : MgtF) : List Seq :=
  (if f.n.getLsbD 1 then [Seq.l] else []) ++ (if f.n.getLsbD 2 then [Seq.c] else []) ++ (if f.n.getLsbD 3 then [Seq.s] else [])

/-- The effect of `align` (R104). -/
def actAlign (f : MgtF) (s : State) : Act :=
  if s.me.timed then s.opTrap 0xB
  else if (alignMask f).all (fun q => s.me.im.alignReady q) && !s.me.inFlight then
    .done ((alignMask f).foldl (fun x q =>
      match s.me.im.parked q with
      | some (k, n) => x.result 1 0 (.tokens k n)
      | none => x) s)
  else .wait s 0 0 0

/-- ALIGN (R104). -/
def execAlign (f : MgtF) (s : State) : Host.Outcome State Fault Refusal := issue s [] (actAlign f)

/-! ## galign (R105) -/

/-- GALIGN (R105): the core arrives, and its schedule counter is frozen from the next cycle. -/
def execGalign (_f : MgtF) (s : State) : Host.Outcome State Fault Refusal :=
  issue s [] (fun s =>
    .done ((s.modStops s.cur.core (fun st =>
      { st with galign := some (s.cyc + 1, s.me.im.garrive), gpc := s.mySeq.pc, gpos := s.mySeq.mpos })).modIm s.cur.core
      (fun im => { im with garrive := im.garrive + 1 })))

/-- The launch whose unit a core runs. -/
def State.launchOf (s : State) (c : Nat) : Option Launch :=
  match (s.core c).im.seg with
  | some g => s.launches.find? (fun l => decide (l.id = g.launch))
  | none => none

/-- The `galign` of a launch that a core waits at; a wait in a segment of another launch is none of it (R105, R365). -/
def State.galignAt (s : State) (l : Option Launch) (c : Nat) : Option (Nat × Nat) :=
  if (s.launchOf c).map (fun x => x.id) = l.map (fun x => x.id) then (s.core c).stops.galign else none

/-- The cycle of a core's arrival with number j at a `galign` of a launch: it waits there, or it has finished all its
units (R105). DEDUCED (log 36). -/
def State.arrival (s : State) (l : Option Launch) (c j : Nat) : Option Nat :=
  match s.galignAt l c with
  | some (f, i) => if i = j then some (f - 1) else none
  | none =>
    match l with
    | some x =>
      let us := x.units.filter (fun u => decide (u.core = c))
      if us.all (fun u => u.ended) then some (us.foldl (fun n u => Nat.max n u.endCyc) 0) else none
    | none => none

/-- The latest of several arrivals, if all have come. -/
def latest : List (Option Nat) → Option Nat
  | [] => some 0
  | none :: _ => none
  | some a :: r => (latest r).map (fun b => Nat.max a b)

/-- GALIGN_RELEASE (R105): 41 cycles after the last arrival of the index, every waiting core of the group goes on. -/
def execGalignRelease (c : Nat) (s : State) : Host.Outcome State Fault Refusal :=
  coreEvent "GALIGN_RELEASE" c
    (match (s.core c).stops.galign with
     | none => none
     | some (_, j) =>
       let g := s.groupOf c
       match latest (g.map (fun m => s.arrival (s.launchOf c) m j)) with
       | none => none
       | some a =>
         if a + 41 ≤ s.cyc then
           some ((g.filter (fun m => (s.galignAt (s.launchOf c) m).isSome)).foldl (fun s m => s.modStops m (fun st => { st with galign := none })) s)
         else none)

/-- A member that waiting cores cannot be joined by: it has trapped, or its context is being removed (R105). -/
def State.memberBroken (s : State) (m : Nat) : Bool :=
  decide ((s.core m).stops.stop ≠ .run) || (mfind s.removals (s.core m).ctx).isSome

/-- A core's wait at a `galign` is undone: K stands at the `galign` again, and its arrival does not count (R105, R344). -/
def State.unarrive (s : State) (c : Nat) : State :=
  let st := (s.core c).stops
  ((s.modStops c (fun st => { st with galign := none })).modSeq c .k (fun q => { q with pc := st.gpc, mpos := st.gpos })).modIm c
    (fun im => { im with garrive := im.garrive - 1 })

/-- The timing trap of a core that waits at a `galign` its group cannot complete (R105, R344): cause 0x23, obj the member. DEDUCED (log 36). -/
def State.breakAt (s : State) (m c : Nat) : State :=
  let s1 := s.unarrive c
  s1.takeTrap c .k (timingTrap 0x23 0 m) ((s1.core c).im.k.index) 0

/-- GALIGN_BREAK (R105): each core of the member's group that waits at a `galign` raises cause 0x23 at its K sequencer; a member that had arrived
itself arrives anew with them. DEDUCED (log 36). -/
def execGalignBreak (m : Nat) (s : State) : Host.Outcome State Fault Refusal :=
  coreEvent "GALIGN_BREAK" m
    (let ws := (s.groupOf m).filter (fun c => decide (c ≠ m) && (s.galignAt (s.launchOf m) c).isSome &&
       decide ((s.core c).stops.stop = .run))
     if s.memberBroken m && !ws.isEmpty then
       let s1 := ws.foldl (fun s c => s.breakAt m c) s
       some (if (s.galignAt (s.launchOf m) m).isSome then s1.unarrive m else s1)
     else none)

end Sys2Proof.Machine
end

