-- ==== Sys2Proof/Machine/Due.lean ====
section
/-! DEFINITION. Results falling due (R19, R20, R96): what each does to the core's state, and the generator steps and `vst`
writes of a schedule cycle (R150, R153). -/
namespace Sys2Proof.Machine

/-- A sequencer with a register written. -/
def SeqSt.put (q : SeqSt) (r : Nat) (v : Word) : SeqSt := { q with regs := vput q.regs r v }

/-- A sequencer with a predicate written; p0 stands (R9). -/
def SeqSt.putPred (q : SeqSt) (p : Nat) (v : Bool) : SeqSt :=
  if p = 0 then q
  else { q with preds := if v then q.preds ||| BitVec.ofNat 16 (2 ^ p) else q.preds &&& ~~~(BitVec.ofNat 16 (2 ^ p)) }

/-- rotate (R64): p9 to p15 take p8 to p14, and p8 takes x. -/
def SeqSt.rotated (q : SeqSt) (x : Bool) : SeqSt :=
  { q with preds := BitVec.ofNat 16 (q.preds.toNat % 256 + 256 * (b2n x) + 512 * (q.preds.toNat / 256 % 128)) }

/-- Vector state with a physical register of X or Y written. -/
def VecSt.putReg (v : VecSt) (r : Nat) (x : Vec) : VecSt := { v with regs := mput 0 v.regs r x, bad := v.bad.filter (fun b => decide (b ≠ .reg r)) }

/-- Vector state with a vector entering a port. -/
def VecSt.enter (v : VecSt) (p : Nat) (x : Vec) : VecSt := { v with ports := mset v.ports p (mget [] v.ports p ++ [x]) }

/-- A flaw after a result has entered its cluster's queue: the oldest entry leaves it. -/
def VecFlaw.older (y : Bool) (b : VecFlaw) : Option VecFlaw :=
  match b with
  | .queue y' i => if y' ≠ y then some b else if i < 15 then some (.queue y' (i + 1)) else none
  | _ => some b

/-- Vector state with a result entering its cluster's queue (R140). -/
def VecSt.enqueue (v : VecSt) (y : Bool) (x : Vec) : VecSt :=
  if y then { v with yq := (x :: v.yq).take 16, bad := v.bad.filterMap (VecFlaw.older y) }
  else { v with xq := (x :: v.xq).take 16, bad := v.bad.filterMap (VecFlaw.older y) }

/-- Vector state with flags raised in a cluster. -/
def VecSt.raise (v : VecSt) (y : Bool) (f : BitVec 6) : VecSt :=
  if y then { v with fsy := v.fsy ||| f } else { v with fsx := v.fsx ||| f }

/-- Vector state after an `agset` takes effect (R149): the generator that was bound to the port loses its binding. -/
def VecSt.bindAg (v : VecSt) (g : Nat) (a : AgSt) : VecSt :=
  { v with ags := mset (v.ags.map (fun p => if p.2.port = a.port then (p.1, { p.2 with port := none }) else p)) g a }

/-- A result takes effect. -/
def Image.apply (im : Image) (fx : Fx) : Image :=
  match fx with
  | .reg q r v => im.setSeq q ((im.seq q).put r v)
  | .win r v => { im with wfile := vput im.wfile r v }
  | .pred q p v => im.setSeq q ((im.seq q).putPred p v)
  | .predAll v => { im with k := { im.k with preds := v ||| 1 } }
  | .loop q lc ec => im.setSeq q { im.seq q with lc := lc, ec := ec }
  | .lcW v => { im with k := { im.k with lc := v } }
  | .ecW v => { im with k := { im.k with ec := v } }
  | .rotate q x =>
    let im' := im.setSeq q ((im.seq q).rotated x)
    if q = .c then { im' with vec := { im'.vec with rrb := im'.vec.rrb - 1 } } else im'
  | .window b rc sc => { im with wbase := b, wres := rc, wspl := sc }
  | .tokens q n => { im with tkcnt := im.tkcnt.setIfInBounds q (Nat.min 255 (im.tk q + n)) }
  | .take q n => { im with tkcnt := im.tkcnt.setIfInBounds q (im.tk q - n) }
  | .agset g a => { im with vec := im.vec.bindAg g a }
  | .sem k n => im.semRelease k n
  | .slabs _ _ _ => im
  | .slot q n t =>
    im.setSeq q { im.seq q with table := mset (im.seq q).table n { t := t, reason := slotReason q t, loading := (mget Slot.empty (im.seq q).table n).loading } }
  | .special n v => im.putSpecial n v
  | .fclr v =>
    { im with vec := { im.vec with fsx := im.vec.fsx &&& ~~~(v.extractLsb' 0 6), fsy := im.vec.fsy &&& ~~~(v.extractLsb' 8 6) } }
  | .vec y r port queue v f =>
    let a := match r with
      | some k => im.vec.putReg k v
      | none => im.vec
    let b := match port with
      | some p => a.enter p v
      | none => a
    let c := if queue then b.enqueue y v else b
    { im with vec := c.raise y f }
  | .port p v => { im with vec := im.vec.enter p v }

/-- Registers that hold an uncorrectable error, once a result has taken effect: a written one holds none (R348), and predicates rotate (R64). -/
def Fx.heals (fx : Fx) (l : List RegFlaw) : List RegFlaw :=
  match fx with
  | .reg q r _ => l.filter (fun b => decide (b ≠ .reg q r))
  | .win r _ => l.filter (fun b => decide (b ≠ .win r))
  | .pred q p _ => l.filter (fun b => decide (b ≠ .pred q p))
  | .predAll _ => l.filter (fun b =>
      match b with
      | .pred q _ => decide (q ≠ .k)
      | _ => true)
  | .rotate q _ => l.filterMap (fun b =>
      match b with
      | .pred q' p => if q' ≠ q ∨ p < 8 then some b else if p < 15 then some (.pred q' (p + 1)) else none
      | _ => some b)
  | _ => l

/-- A result takes effect, and what it writes holds no error any more. -/
def Image.take (im : Image) (fx : Fx) : Image :=
  if im.flaws.isEmpty then im.apply fx else { im.apply fx with flaws := fx.heals im.flaws }

/-- A clear of flags, which comes before what else falls due on its cycle (R141). -/
def Fx.isClear (fx : Fx) : Bool :=
  match fx with
  | .fclr _ => true
  | _ => false

/-- The results due by a schedule cycle, the rest staying in flight. -/
def Image.applyDue (im : Image) (t : Nat) : Image :=
  let now := im.flight.filter (fun x => decide (x.due ≤ t))
  let a := (now.filter (fun x => x.fx.isClear)).foldl (fun i x => i.take x.fx) im
  let b := (now.filter (fun x => !x.fx.isClear)).foldl (fun i x => i.take x.fx) a
  { b with flight := im.flight.filter (fun x => !decide (x.due ≤ t)) }

/-- The generator steps of a cycle read the scratchpad (R150): their vectors are in flight to their ports. -/
def Core.readSteps (co : Core) : Core :=
  let t := co.im.sched
  let now := co.im.vec.vlds.filter (fun x => decide (x.at_ ≤ t))
  let im := { co.im with vec := { co.im.vec with vlds := co.im.vec.vlds.filter (fun x => !decide (x.at_ ≤ t)) } }
  { co with im := now.foldl (fun i x =>
      let f : Flight := { due := x.enter, issue := x.issue, ord := 0, sq := .l,
                          fx := .port x.port (BitVec.ofNat 2048 (leNat (co.bytes x.la 256))) }
      { i with flight := insertBy flightLe f i.flight }) im }

/-- The `vst` writes of a cycle (R153). -/
def Core.writeSteps (co : Core) : Core :=
  let t := co.im.sched
  let now := co.im.vec.vsts.filter (fun x => decide (x.at_ ≤ t))
  { co with
    im := { co.im with vec := { co.im.vec with vsts := co.im.vec.vsts.filter (fun x => !decide (x.at_ ≤ t)) } },
    posted := co.posted ++ now.flatMap (fun x => writePosts x.la (leBytes 256 x.v.toNat)) }

/-- Something of the core falls due on its present schedule cycle. -/
def Core.somethingDue (co : Core) : Bool :=
  co.im.flight.any (fun x => decide (x.due ≤ co.im.sched)) || co.im.vec.vlds.any (fun x => decide (x.at_ ≤ co.im.sched)) ||
    co.im.vec.vsts.any (fun x => decide (x.at_ ≤ co.im.sched))

/-- A result, or a `vst` write, falls due: the segment ends after it (R95). -/
def Core.resultDueNow (co : Core) : Bool :=
  co.im.flight.any (fun x => decide (x.due ≤ co.im.sched) && x.fx.isResult) ||
    co.im.vec.vsts.any (fun x => decide (x.at_ ≤ co.im.sched))

/-- A slab becomes free and unborn, and the zero bits of its four granules are cleared (R183, R219). -/
def Core.freeSlab (co : Core) (n : Nat) : Core :=
  { co with slabs := mput Slab.init co.slabs n { co.slab n with kind := .free, born := false },
            zbits := co.zbits.filter (fun p => !decide (p.1 / 4 = n)) }

/-- A slab is claimed for a context (R217, R218): a live one stands. -/
def Core.claimSlab (co : Core) (n : Nat) : Core :=
  let b := co.slab n
  if b.kind = .free ∨ b.kind = .lost then
    { co with slabs := mput Slab.init co.slabs n { b with kind := .live, owner := co.ctx, born := false } }
  else co

/-- What a slab instruction does to its slabs (Fx.slabs). -/
def Core.slabOp (co : Core) (op base n : Nat) : Core :=
  if op = 0 then (upTo base n).foldl Core.claimSlab co
  else if op = 1 then (upTo base n).foldl Core.freeSlab co
  else
    { co with
      slabs := (upTo base n).foldl (fun m i => mput Slab.init m i { co.slab i with kind := .stash }) co.slabs,
      windows := mset co.windows co.ctx { base := base, n := n, ctx := co.ctx, ents := [], order := 0, closing := none, missing := [] } }

/-- The slab instructions among effects. -/
def Core.slabOps (co : Core) (l : List Flight) : Core :=
  l.foldl (fun co x =>
    match x.fx with
    | .slabs op b n => co.slabOp op b n
    | _ => co) co

/-- The core after all that falls due on its present schedule cycle. -/
def Core.due (co : Core) : Core :=
  let seg := co.im.seg.map (fun g => if co.resultDueNow then { g with lastEnd := Nat.max g.lastEnd co.im.sched } else g)
  let now := co.im.flight.filter (fun x => decide (x.due ≤ co.im.sched))
  let a := ({ co with im := { co.im.applyDue co.im.sched with seg := seg } } : Core).slabOps now
  a.readSteps.writeSteps

/-- The effects in flight that are no results take place at once, as the core stops or its segment ends. -/
def Core.flush (co : Core) : Core :=
  let now := co.im.flight.filter (fun x => !x.fx.isResult)
  let im := now.foldl (fun i x => i.take x.fx) { co.im with flight := co.im.flight.filter (fun x => x.fx.isResult) }
  ({ co with im := im } : Core).slabOps now

/-- A core's schedule counter runs on this cycle. -/
def Core.counting (co : Core) (cyc : Nat) : Bool :=
  co.bound && decide (co.walk.phase = .running) && co.im.seg.isSome && !co.frozenAt cyc

/-- RESULT_DUE (R19, R20): all that falls due on the core's present schedule cycle takes effect. -/
def execResultDue (c : Nat) (s : State) : Host.Outcome State Fault Refusal :=
  coreEvent "RESULT_DUE" c
    (if (s.core c).counting s.cyc && (s.core c).somethingDue then some (s.modCore c Core.due) else none)

/-- WAITING_GROUP_ISSUE (R98): a group that waited is tried on this cycle. -/
def execWaitingGroupIssue (c : Nat) (sq : Seq) (s : State) : Host.Outcome State Fault Refusal :=
  coreEvent "WAITING_GROUP_ISSUE" c
    (let q := (s.core c).im.seq sq
     if (s.core c).counting s.cyc && q.halted.isNone && q.waiting.isSome && decide (q.tried ≠ some s.cyc) then
       some (s.modSeq c sq (fun q => { q with waiting := none }))
     else none)

end Sys2Proof.Machine
end

