-- ==== Sys2Proof/Machine/Num.lean ====
section
/-! DEFINITION. Number formats and exact arithmetic (R116 to R136): values, `encode`, integers, MX values, k-groups,
WF128 partials, and the correctly rounded functions. -/
namespace Sys2Proof.Machine

/-! ## Values and formats -/

/-- What a floating-point encoding decodes to (R116): NaN, an infinity, a zero, or ±m × 2^e with m not 0. -/
inductive Num where
  | nan
  | inf (neg : Bool)
  | zero (neg : Bool)
  | fin (neg : Bool) (m : Nat) (e : Int)
  deriving DecidableEq, Repr

/-- Flags as bits NV DZ OF UF NX (Table 7-3). -/
abbrev Flags := BitVec 6

/-- NV. -/
def fNV : Flags := 16
/-- DZ. -/
def fDZ : Flags := 8
/-- OF. -/
def fOF : Flags := 4
/-- UF. -/
def fUF : Flags := 2
/-- NX. -/
def fNX : Flags := 1

/-- A floating-point format (Table 6-2): exponent and fraction bits, bias, whether it has infinities, the canonical NaN if it
has NaNs, and the encoding of its greatest finite value. -/
structure FFmt where
  eb : Nat
  mb : Nat
  bias : Nat
  hasInf : Bool
  nan : Option Nat
  maxFin : Nat
  deriving DecidableEq, Repr

/-- FP32. -/
def fp32 : FFmt := { eb := 8, mb := 23, bias := 127, hasInf := true, nan := some 0x7FC00000, maxFin := 0x7F7FFFFF }
/-- BF16. -/
def bf16 : FFmt := { eb := 8, mb := 7, bias := 127, hasInf := true, nan := some 0x7FC0, maxFin := 0x7F7F }
/-- FP16. -/
def fp16 : FFmt := { eb := 5, mb := 10, bias := 15, hasInf := true, nan := some 0x7E00, maxFin := 0x7BFF }
/-- FP8 E4M3. -/
def e4m3 : FFmt := { eb := 4, mb := 3, bias := 7, hasInf := false, nan := some 0x7F, maxFin := 0x7E }
/-- FP8 E5M2. -/
def e5m2 : FFmt := { eb := 5, mb := 2, bias := 15, hasInf := true, nan := some 0x7E, maxFin := 0x7B }
/-- FP6 E2M3. -/
def e2m3 : FFmt := { eb := 2, mb := 3, bias := 1, hasInf := false, nan := none, maxFin := 0x1F }
/-- FP6 E3M2. -/
def e3m2 : FFmt := { eb := 3, mb := 2, bias := 3, hasInf := false, nan := none, maxFin := 0x1F }
/-- FP4 E2M1. -/
def e2m1 : FFmt := { eb := 2, mb := 1, bias := 1, hasInf := false, nan := none, maxFin := 0x7 }

/-- The width of a format. -/
def FFmt.width (f : FFmt) : Nat := 1 + f.eb + f.mb

/-- The exponent of the least significant bit of the least normal values and of the subnormals (R119). -/
def FFmt.qmin (f : FFmt) : Int := 1 - f.bias - f.mb

/-- The value of a magnitude encoding that is neither infinite nor NaN, as significand and exponent (R119). -/
def FFmt.finite (f : FFmt) (mag : Nat) : Nat × Int :=
  let e := mag / 2 ^ f.mb
  let m := mag % 2 ^ f.mb
  if e = 0 then (m, f.qmin) else (2 ^ f.mb + m, f.qmin + (e - 1 : Nat))

/-- decode (R116, R119). -/
def decodeF (f : FFmt) (x : Nat) : Num :=
  let neg := bit x (f.eb + f.mb)
  let mag := x % 2 ^ (f.eb + f.mb)
  let e := mag / 2 ^ f.mb
  let m := mag % 2 ^ f.mb
  if f.hasInf ∧ e = 2 ^ f.eb - 1 then (if m = 0 then .inf neg else .nan)
  else if f.nan.isSome ∧ f.hasInf = false ∧ mag = 2 ^ (f.eb + f.mb) - 1 then .nan
  else
    let v := f.finite mag
    if v.1 = 0 then .zero neg else .fin neg v.1 v.2

/-- The bits of a sign and a magnitude encoding. -/
def FFmt.signed (f : FFmt) (neg : Bool) (mag : Nat) : Nat := b2n neg * 2 ^ (f.eb + f.mb) + mag

/-- The magnitude encoding of infinity. -/
def FFmt.infMag (f : FFmt) : Nat := (2 ^ f.eb - 1) * 2 ^ f.mb

/-- Whether a rounding goes up in magnitude (R117): from the kept integer's parity and the lost part, given as its order
against one half and whether it is not zero. -/
def roundsUp (rnd : Nat) (neg odd : Bool) (half : Ordering) (lost : Bool) : Bool :=
  match rnd with
  | 0 => half == .gt || (half == .eq && odd)
  | 1 => false
  | 2 => neg && lost
  | _ => !neg && lost

/-- m × 2^e plus, when `st`, something less than 2^e, as a whole number of 2^q, rounded; and whether it is inexact. With
`st`, e is below q. -/
def roundAt (rnd : Nat) (neg : Bool) (m : Nat) (e q : Int) (st : Bool) : Nat × Bool :=
  if q ≤ e then (m * 2 ^ (e - q).toNat, st)
  else
    let k := (q - e).toNat
    let r := m % 2 ^ k
    let n := m / 2 ^ k
    let half : Ordering := if r < 2 ^ (k - 1) then .lt else if r = 2 ^ (k - 1) ∧ st = false then .eq else .gt
    let lost := decide (r ≠ 0) || st
    (if roundsUp rnd neg (n % 2 == 1) half lost then n + 1 else n, lost)

/-- What `encode` delivers on overflow (R117). -/
def FFmt.overflow (f : FFmt) (rnd : Nat) (neg : Bool) : Nat :=
  if f.hasInf ∧ (rnd = 0 ∨ (rnd = 3 ∧ neg = false) ∨ (rnd = 2 ∧ neg = true)) then f.signed neg f.infMag
  else f.signed neg f.maxFin

/-- encode of ±(m × 2^e, plus when `st` something less than 2^e), m not 0 (R117). DEDUCED (log 60). -/
def encodeFin (f : FFmt) (rnd : Nat) (neg : Bool) (m : Nat) (e : Int) (st : Bool) : Nat × Flags :=
  let top : Int := (Nat.log2 m : Nat) + e
  let q := max (top - f.mb) f.qmin
  let r := roundAt rnd neg m e q st
  let y := r.1
  let mag := if y < 2 ^ f.mb then y else (q - f.qmin + 1).toNat * 2 ^ f.mb + (y - 2 ^ f.mb)
  let fin := f.finite f.maxFin
  if fin.1 * 2 ^ (fin.2 - f.qmin).toNat < y * 2 ^ (q - f.qmin).toNat then (f.overflow rnd neg, fOF ||| fNX)
  else (f.signed neg mag, (if r.2 then fNX else 0) ||| (if r.2 ∧ mag < 2 ^ f.mb then fUF else 0))

/-- encode (R117): the bits and the flags it raises. -/
def encode (f : FFmt) (rnd : Nat) (x : Num) : Nat × Flags :=
  match x with
  | .nan => (f.nan.getD 0, 0)
  | .inf neg => if f.hasInf then (f.signed neg f.infMag, 0) else (f.signed neg f.maxFin, fOF)
  | .zero neg => (f.signed neg 0, 0)
  | .fin neg m e => encodeFin f rnd neg m e false

/-! ## Exact arithmetic on values -/

/-- The value with its sign inverted. -/
def Num.neg : Num → Num
  | .nan => .nan
  | .inf n => .inf (!n)
  | .zero n => .zero (!n)
  | .fin n m e => .fin (!n) m e

/-- A finite value as an integer multiple of 2^q, q no greater than its exponent. -/
def Num.scaled (x : Num) (q : Int) : Int :=
  match x with
  | .fin n m e => (if n then -1 else 1) * (m * 2 ^ (e - q).toNat : Nat)
  | _ => 0

/-- The value k × 2^q; `zn` is the sign of a zero. -/
def numOf (k q : Int) (zn : Bool) : Num := if k = 0 then .zero zn else .fin (decide (k < 0)) k.natAbs q

/-- prod (R128): the exact product and whether it raises NV. -/
def prod (a b : Num) : Num × Bool :=
  match a, b with
  | .nan, _ => (.nan, false)
  | _, .nan => (.nan, false)
  | .inf _, .zero _ => (.nan, true)
  | .zero _, .inf _ => (.nan, true)
  | .inf x, .inf y => (.inf (x != y), false)
  | .inf x, .fin y _ _ => (.inf (x != y), false)
  | .fin x _ _, .inf y => (.inf (x != y), false)
  | .zero x, .zero y => (.zero (x != y), false)
  | .zero x, .fin y _ _ => (.zero (x != y), false)
  | .fin x _ _, .zero y => (.zero (x != y), false)
  | .fin x m e, .fin y n g => (.fin (x != y) (m * n) (e + g), false)

/-- The exact sum of two values under a rounding mode, which signs an exact zero sum (R156), and whether it raises NV. -/
def addNum (rnd : Nat) (a b : Num) : Num × Bool :=
  match a, b with
  | .nan, _ => (.nan, false)
  | _, .nan => (.nan, false)
  | .inf x, .inf y => if x = y then (.inf x, false) else (.nan, true)
  | .inf x, _ => (.inf x, false)
  | _, .inf y => (.inf y, false)
  | .zero x, .zero y => (.zero (if x = y then x else rnd == 2), false)
  | .zero _, y => (y, false)
  | x, .zero _ => (x, false)
  | .fin x m e, .fin y n g =>
    let q := min e g
    (numOf ((Num.fin x m e).scaled q + (Num.fin y n g).scaled q) q (rnd == 2), false)

/-- NV as a flag. -/
def nvIf (b : Bool) : Flags := if b then fNV else 0

/-- x × y + z in one operation (R156): the sum, and NV. -/
def fmaNum (rnd : Nat) (x y z : Num) : Num × Bool :=
  let p := prod x y
  let r := addNum rnd p.1 z
  (r.1, p.2 || r.2)

/-- The order of two values that are not NaN, −0 equal to +0. -/
def cmpNum (a b : Num) : Ordering :=
  let rank (x : Num) : Int × Int :=
    match x with
    | .inf true => (-1, 0)
    | .inf false => (1, 0)
    | _ => (0, 0)
  match compare (rank a).1 (rank b).1 with
  | .eq =>
    match a, b with
    | .fin x m e, .fin y n g => compare ((Num.fin x m e).scaled (min e g)) ((Num.fin y n g).scaled (min e g))
    | .fin x _ _, _ => if x then .lt else .gt
    | _, .fin y _ _ => if y then .gt else .lt
    | _, _ => .eq
  | o => o

/-- The sign of a value. -/
def Num.isNeg : Num → Bool
  | .nan => false
  | .inf n => n
  | .zero n => n
  | .fin n _ _ => n

/-- a lies below b, −0 below +0 (R157). -/
def belowNum (a b : Num) : Bool :=
  match cmpNum a b with
  | .lt => true
  | .gt => false
  | .eq => a.isNeg && !b.isNeg

/-! ## Integers (R123) -/

/-- wrap_int (R123). -/
def wrapInt (x : Int) (w : Nat) : Nat := wrapN w x

/-- sat_int (R123), as a value. -/
def satInt (x : Int) (w : Nat) : Int := min (max x (-(2 ^ (w - 1) : Nat))) ((2 ^ (w - 1) : Nat) - 1)

/-- A finite value rounded to an integer magnitude, and whether that is inexact. -/
def roundInt (rnd : Nat) (neg : Bool) (m : Nat) (e : Int) : Nat × Bool := roundAt rnd neg m e 0 false

/-- to_int (R123): bits and flags. -/
def toInt (x : Num) (w rnd : Nat) : Nat × Flags :=
  let big (neg : Bool) : Nat := if neg then 2 ^ (w - 1) else 2 ^ (w - 1) - 1
  match x with
  | .nan => (0, fNV)
  | .inf neg => (big neg, fNV)
  | .zero _ => (0, 0)
  | .fin neg m e =>
    let r := roundInt rnd neg m e
    let y : Int := if neg then -(r.1 : Int) else r.1
    if y < -(2 ^ (w - 1) : Nat) ∨ (2 ^ (w - 1) : Nat) - 1 < y then (big neg, fNV)
    else (wrapInt y w, if r.2 then fNX else 0)

/-- An integer as a value. -/
def intNum (x : Int) : Num := numOf x 0 false

/-! ## MX blocks (R120 to R122) -/

/-- mx_value of a decoded element (R120). -/
def mxValue (c : Nat) (x : Num) : Num :=
  if c = 255 then .nan
  else
    match x with
    | .fin n m e => .fin n m (e + c - 127)
    | y => y

/-- emax of an element format (R122). -/
def mxEmax (f : FFmt) : Int := if f = e4m3 then 8 else if f = e5m2 then 15 else if f = e3m2 then 4 else 2

/-- The value is NaN or infinite. -/
def Num.special : Num → Bool
  | .nan => true
  | .inf _ => true
  | _ => false

/-- floor(log2 |x|) of a finite value that is not 0. -/
def Num.top : Num → Int
  | .fin _ m e => (Nat.log2 m : Nat) + e
  | _ => 0

/-- The value is finite and not 0. -/
def Num.isFin : Num → Bool
  | .fin _ _ _ => true
  | _ => false

/-- The greatest of floor(log2 |x|) over the finite values that are not 0, if there is one. -/
def maxTop (xs : List Num) : Option Int :=
  xs.foldl (fun acc x =>
    if x.isFin then
      some (match acc with
        | none => x.top
        | some a => max a x.top)
    else acc) none

/-- mx_encode (R122): scale, element codes, flags. -/
def mxEncode (f : FFmt) (xs : List Num) : Nat × List Nat × Flags :=
  if xs.any (fun x => x.special) then (255, xs.map (fun _ => 0), 0)
  else
    match maxTop xs with
    | none => (127, xs.map (fun _ => 0), 0)
    | some top =>
      let c := (min (max (top - mxEmax f + 127) 0) 254).toNat
      let rs := xs.map (fun x => encode f 0
        (match x with
         | .fin n m e => .fin n m (e - (c - 127))
         | y => y))
      (c, rs.map (fun r => r.1), rs.foldl (fun a r => a ||| r.2) 0)

/-! ## k-groups (R128 to R131) -/

/-- The NaN and infinity cases of group_sum (R129): the result they decide, and NV. -/
def groupSpecial (ps : List Num) : Option (Num × Bool) :=
  if ps.any (fun p => p == .nan) then some (.nan, false)
  else
    let pos := ps.any (fun p => p == .inf false)
    let ng := ps.any (fun p => p == .inf true)
    if pos && ng then some (.nan, true) else if pos then some (.inf false, false) else if ng then some (.inf true, false) else none

/-- One product truncated to a multiple of 2^q (R129), as that multiple, and whether bits were lost. -/
def truncAt (q : Int) (p : Num) : Int × Bool :=
  match p with
  | .fin n m e =>
    let k : Nat := if q ≤ e then m * 2 ^ (e - q).toNat else m / 2 ^ (q - e).toNat
    let lost := if q ≤ e then false else decide (m % 2 ^ (q - e).toNat ≠ 0)
    (if n then -(k : Int) else k, lost)
  | _ => (0, false)

/-- sum_trunc (R129): the sum, and whether NX is raised. -/
def sumTrunc (ps : List Num) (emax : Int) : Num × Bool :=
  let rs := ps.map (truncAt (emax - 32))
  (numOf (rs.foldl (fun a r => a + r.1) 0) (emax - 32) false, rs.any (fun r => r.2))

/-- A k-group's part once emax is known: its sum and flags. -/
def groupPart (ps : List Num) (emax : Option Int) : Num × Flags :=
  match groupSpecial ps with
  | some (x, nv) => (x, nvIf nv)
  | none =>
    match emax with
    | none => (.zero false, 0)
    | some m =>
      let r := sumTrunc ps m
      (r.1, if r.2 then fNX else 0)

/-- group_sum (R129). -/
def groupSum (ps : List Num) : Num × Flags := groupPart ps (maxTop ps)

/-- cgroup_sum (R130): the two parts, under one emax. -/
def cgroupSum (re im : List Num) : (Num × Flags) × (Num × Flags) :=
  let m := maxTop (re ++ im)
  (groupPart re m, groupPart im m)

/-- acc_add (R129): the accumulator's new bits and flags. -/
def accAdd (acc : Half) (x : Num) : Half × Flags :=
  match decodeF fp32 acc.toNat, x with
  | .nan, _ => (0x7FC00000, 0)
  | _, .nan => (0x7FC00000, 0)
  | .inf a, .inf b => if a = b then (BitVec.ofNat 32 (fp32.signed a fp32.infMag), 0) else (0x7FC00000, fNV)
  | .inf a, _ => (BitVec.ofNat 32 (fp32.signed a fp32.infMag), 0)
  | _, .inf b => (BitVec.ofNat 32 (fp32.signed b fp32.infMag), 0)
  | _, .zero _ => (acc, 0)
  | a, y =>
    let r := encode fp32 0 (addNum 0 a y).1
    (BitVec.ofNat 32 r.1, r.2)

/-- int_group (R131). -/
def intGroup (acc : Half) (ps : List Int) (isat : Bool) : Half :=
  let x := sgn 32 acc.toNat + ps.foldl (fun a b => a + b) 0
  if isat then BitVec.ofInt 32 (satInt x 32) else BitVec.ofInt 32 x

/-- fade (R131). -/
def fade (acc gam : Half) : Half × Flags :=
  let p := prod (decodeF fp32 acc.toNat) (decodeF fp32 gam.toNat)
  let r := encode fp32 0 p.1
  (BitVec.ofNat 32 r.1, r.2 ||| nvIf p.2)

/-! ## WF128 partials (R132 to R134) -/

/-- A WF128 partial (Table 6-4): flags are CNT SMIS LOSS OVF NINF PINF NAN, bits 6 to 0. -/
structure Wf where
  count : Nat
  flags : BitVec 7
  e : Int
  n : Nat
  deriving DecidableEq, Repr

/-- The zero partial of a scale (R132). -/
def wfZero (e : Int) : Wf := { count := 0, flags := 0, e := e, n := 0 }

/-- A partial as its record of 32 bytes. -/
def Wf.pack (p : Wf) : BitVec 256 :=
  BitVec.ofNat 256 (p.n + wrapN 9 p.e * 2 ^ 128 + p.flags.toNat * 2 ^ 144 + p.count * 2 ^ 192)

/-- The partial of a record of 32 bytes. -/
def wfUnpack (b : BitVec 256) : Wf :=
  { count := fld b.toNat 192 64, flags := BitVec.ofNat 7 (fld b.toNat 144 7), e := sgn 9 (fld b.toNat 128 9),
    n := fld b.toNat 0 128 }

/-- floor(x / 2^e) of a finite value, and whether something is lost. -/
def floorAt (e : Int) (x : Num) : Int × Bool :=
  match x with
  | .fin n m g =>
    if e ≤ g then ((if n then -1 else 1) * (m * 2 ^ (g - e).toNat : Nat), false)
    else
      let k := 2 ^ (e - g).toNat
      (if n then -((m + k - 1) / k : Nat) else (m / k : Nat), decide (m % k ≠ 0))
  | _ => (0, false)

/-- wf_in (R133). -/
def wfIn (x : Num) (e : Int) : Wf :=
  match x with
  | .nan => { count := 1, flags := 1, e := e, n := 0 }
  | .inf false => { count := 1, flags := 2, e := e, n := 0 }
  | .inf true => { count := 1, flags := 4, e := e, n := 0 }
  | y =>
    let r := floorAt e y
    let big := decide (2 ^ 95 ≤ r.1.natAbs)
    let v : Int := if big then (if r.1 < 0 then -((2 ^ 95 - 1 : Nat) : Int) else ((2 ^ 95 - 1 : Nat) : Int)) else r.1
    { count := 1, flags := (if r.2 then 0x10 else 0) ||| (if big then 0x08 else 0), e := e, n := wrapN 128 v }

/-- wf_merge (R133). -/
def wfMerge (p q : Wf) : Wf :=
  let c := Nat.min (p.count + q.count) (2 ^ 64 - 1)
  let fl := p.flags ||| q.flags ||| (if p.e ≠ q.e then 0x21 else 0) ||| (if 2 ^ 32 < c then 0x41 else 0)
  { count := c, flags := fl, e := min p.e q.e, n := if p.e = q.e then (p.n + q.n) % 2 ^ 128 else 0 }

/-- wf_out (R133): bits and flags. -/
def wfOut (p : Wf) (f : FFmt) : Nat × Flags :=
  let b (i : Nat) : Bool := p.flags.getLsbD i
  if b 5 || b 6 || (b 1 && b 2) then (f.nan.getD 0, fNV)
  else if b 0 then (f.nan.getD 0, 0)
  else if b 1 then (f.signed false f.infMag, 0)
  else if b 2 then (f.signed true f.infMag, 0)
  else
    let r := encode f 0 (numOf (sgn 128 p.n) p.e false)
    (r.1, r.2 ||| (if b 3 then fOF else 0) ||| (if b 4 then fNX else 0))

/-! ## Square roots, quotients and the functions of Table 6-5 -/

/-- The integer square root, bit by bit from 2^k down. -/
def isqrtAux (n : Nat) : Nat → Nat → Nat
  | 0, r => if (r + 1) * (r + 1) ≤ n then r + 1 else r
  | k + 1, r => isqrtAux n k (if (r + 2 ^ (k + 1)) * (r + 2 ^ (k + 1)) ≤ n then r + 2 ^ (k + 1) else r)

/-- The integer square root. -/
def isqrt (n : Nat) : Nat := isqrtAux n (Nat.log2 n / 2 + 1) 0

/-- Quotient under rnd (R160). -/
def divNum (f : FFmt) (rnd : Nat) (a b : Num) : Nat × Flags :=
  match a, b with
  | .nan, _ => encode f rnd .nan
  | _, .nan => encode f rnd .nan
  | .inf _, .inf _ => ((encode f rnd .nan).1, fNV)
  | .zero _, .zero _ => ((encode f rnd .nan).1, fNV)
  | .inf x, .zero y => encode f rnd (.inf (x != y))
  | .inf x, .fin y _ _ => encode f rnd (.inf (x != y))
  | .zero x, .inf y => encode f rnd (.zero (x != y))
  | .fin x _ _, .inf y => encode f rnd (.zero (x != y))
  | .zero x, .fin y _ _ => encode f rnd (.zero (x != y))
  | .fin x _ _, .zero y => ((encode f rnd (.inf (x != y))).1, fDZ)
  | .fin x m e, .fin y n g =>
    let k := 64 + Nat.log2 n
    encodeFin f rnd (x != y) (m * 2 ^ k / n) (e - g - k) (decide (m * 2 ^ k % n ≠ 0))

/-- Square root under rnd (R160). -/
def sqrtNum (f : FFmt) (rnd : Nat) (a : Num) : Nat × Flags :=
  match a with
  | .nan => encode f rnd .nan
  | .zero n => encode f rnd (.zero n)
  | .inf false => encode f rnd (.inf false)
  | .inf true => ((encode f rnd .nan).1, fNV)
  | .fin true _ _ => ((encode f rnd .nan).1, fNV)
  | .fin false m e =>
    let odd := e % 2 = 1
    let m' := (if odd then 2 * m else m) * 2 ^ 128
    let e' := if odd then e - 1 else e
    let r := isqrt m'
    encodeFin f rnd false r (e' / 2 - 64) (decide (r * r ≠ m'))

/-- Reciprocal, rounded to nearest (Table 6-5). -/
def rcpNum (a : Num) : Nat × Flags := divNum fp32 0 (.fin false 1 0) a

/-- Reciprocal square root, rounded to nearest (Table 6-5). -/
def rsqrtNum (a : Num) : Nat × Flags :=
  match a with
  | .nan => encode fp32 0 .nan
  | .zero n => ((encode fp32 0 (.inf n)).1, fDZ)
  | .inf false => encode fp32 0 (.zero false)
  | .inf true => ((encode fp32 0 .nan).1, fNV)
  | .fin true _ _ => ((encode fp32 0 .nan).1, fNV)
  | .fin false m e =>
    let odd := e % 2 = 1
    let m' := if odd then 2 * m else m
    let e' := if odd then e - 1 else e
    let r := isqrt (2 ^ 192 / m')
    encodeFin fp32 0 false r (-(e' / 2) - 96) (decide (r * r * m' ≠ 2 ^ 192))

/-- The fixed point of the two transcendental functions: 192 bits of fraction. -/
def fxOne : Nat := 2 ^ 192

/-- ln 2 as the sum of 1 / (k 2^k), at 192 bits of fraction. -/
def ln2Fix : Nat := (upTo 1 200).foldl (fun a k => a + fxOne / (k * 2 ^ k)) 0

/-- e^z for 0 ≤ z < 1 by its series, at 192 bits of fraction. -/
def expFix (z : Nat) : Nat :=
  ((upTo 1 60).foldl (fun (p : Nat × Nat) k =>
    let t := p.2 * z / fxOne / k
    (p.1 + t, t)) (fxOne, fxOne)).1

/-- 2^x rounded to nearest (Table 6-5). The power is exact for an integer x; otherwise it is irrational, and its 192-bit
approximation stands with a rest below it. -/
def exp2Num (a : Num) : Nat × Flags :=
  match a with
  | .nan => encode fp32 0 .nan
  | .inf false => encode fp32 0 (.inf false)
  | .inf true => encode fp32 0 (.zero false)
  | .zero _ => encode fp32 0 (.fin false 1 0)
  | .fin neg m e =>
    if 8 < (Num.fin neg m e).top then
      (if neg then (0, fUF ||| fNX) else ((encode fp32 0 (.inf false)).1, fOF ||| fNX))
    else
      let v : Int := (if neg then -1 else 1) * (m * 2 ^ (e + 192).toNat / 2 ^ (-(e + 192)).toNat : Nat)
      let exact := decide (0 ≤ e) || decide (m % 2 ^ (-e).toNat = 0)
      let n := v / (fxOne : Nat)
      let z := (v % (fxOne : Nat)).toNat
      if exact then encodeFin fp32 0 false 1 n false
      else encodeFin fp32 0 false (expFix (z * ln2Fix / fxOne)) (n - 192) true

/-- 2 atanh(z) for 0 ≤ z ≤ 1/3 by its series, at 192 bits of fraction. -/
def atanhFix (z : Nat) : Nat :=
  2 * ((upTo 0 64).foldl (fun (p : Nat × Nat) k => (p.1 + p.2 / (2 * k + 1), p.2 * z / fxOne * z / fxOne)) (0, z)).1

/-- log2 x rounded to nearest (Table 6-5). -/
def log2Num (a : Num) : Nat × Flags :=
  match a with
  | .nan => encode fp32 0 .nan
  | .zero _ => ((encode fp32 0 (.inf true)).1, fDZ)
  | .inf false => encode fp32 0 (.inf false)
  | .inf true => ((encode fp32 0 .nan).1, fNV)
  | .fin true _ _ => ((encode fp32 0 .nan).1, fNV)
  | .fin false m e =>
    let k := Nat.log2 m
    let top : Int := (k : Nat) + e
    if m = 2 ^ k then encode fp32 0 (intNum top)
    else
      let z := (m - 2 ^ k) * fxOne / (m + 2 ^ k)
      let l : Int := top * (fxOne : Nat) + (atanhFix z * fxOne / ln2Fix : Nat)
      encodeFin fp32 0 (decide (l < 0)) l.natAbs (-192) true

/-- A function of Table 6-5 on BF16 (R159): its FP32 result converted by round_ne. -/
def viaBf16 (r : Nat × Flags) : Nat × Flags :=
  let q := encode bf16 0 (decodeF fp32 r.1)
  (q.1, r.2 ||| q.2)

end Sys2Proof.Machine
end

