-- ==== Sys2Proof/Machine/Geometry.lean ====
section
/-! DEFINITION. Matrix operand formats (Table 2-9), the sizes of their layouts (R182, R185, R191, R194, R195) and the local
bytes a counted command reads or writes (R179). -/
namespace Sys2Proof.Machine

/-- The element format of a floating matrix format code (Table 2-9). -/
def matElem (f : Nat) : Option FFmt :=
  match f with
  | 0 => some fp32
  | 1 => some bf16
  | 2 => some fp16
  | 3 => some e4m3
  | 4 => some e5m2
  | 5 => some e4m3
  | 6 => some e5m2
  | 7 => some e2m3
  | 8 => some e3m2
  | 9 => some e2m1
  | _ => none

/-- An MX format. -/
def matMx (f : Nat) : Bool := decide (5 ≤ f) && decide (f ≤ 9)

/-- A floating format. -/
def matFloat (f : Nat) : Bool := (matElem f).isSome

/-- The element width of a matrix format. -/
def matWidth (f : Nat) : Nat :=
  match matElem f with
  | some m => m.width
  | none => if f = 10 then 8 else if f = 11 then 4 else 2

/-- The full plane count of a matrix format (Table 2-9). -/
def matPlanes (f : Nat) : Nat :=
  match matElem f with
  | some m => m.mb + 1
  | none => matWidth f

/-- The plane block size S (Table 8-5). -/
def blockSize (f : Nat) : Nat :=
  if matMx f then 5632 + 512 * matPlanes f
  else if matFloat f then 5120 + 512 * matPlanes f
  else 512 + 512 * matPlanes f

/-- The size of an MX block (R121). -/
def mxSize (f : Nat) : Nat := 8 + 4 * matWidth f

/-- The length of operand B of K rows (R185). -/
def bLength (f k : Nat) : Nat := if matMx f then k / 32 * 256 * mxSize f else k * 32 * matWidth f

/-- The size of a row of an `ald` or `aret` image with elements of w bits. -/
def rowSize (w : Nat) : Nat := 32 * w

/-- The element width of `ald` (R194). -/
def aldWidth (v : Nat) : Nat := if v = 0 then 32 else if v = 3 then 8 else 16

/-- The element width of `aret` (R195). -/
def aretWidth (v : Nat) : Nat :=
  match v % 8 with
  | 0 => 32
  | 1 => 16
  | 2 => 16
  | _ => 8

/-- The A region of a sparse command (R191). -/
def sparseLength (f : MtxF) : Nat :=
  let kg := f.kg.toNat
  if f.sp = 1 then 256 * (kg / 2) * (8 + 4 * matWidth f.fa.toNat) else 256 * (kg / 4) * 128

/-- The local regions a counted command reads (R179): address and length. -/
def opReads (i : Instr) : List (Nat × Nat) :=
  let reg (a n : Nat) : List (Nat × Nat) := if n = 0 then [] else [(a, n)]
  match i with
  | .mma f =>
    reg f.a.toNat (f.kg.toNat * blockSize f.fa.toNat) ++ reg f.b.toNat (bLength f.fb.toNat (16 * f.kg.toNat))
  | .mmac f =>
    reg f.a.toNat (f.kg.toNat * blockSize f.fa.toNat) ++ reg f.b.toNat (bLength f.fb.toNat (8 * f.kg.toNat))
  | .mmas f => reg f.a.toNat (sparseLength f) ++ reg f.b.toNat (bLength f.fb.toNat (16 * f.kg.toNat))
  | .mmaAtBank f => reg f.a.toNat (f.kg.toNat * blockSize f.fa.toNat) ++ (if f.kg = 0 then [] else [(f.b.toNat, 32)])
  | .ald f => [(f.a.toNat, 256 * rowSize (aldWidth f.var.toNat))]
  | _ => []

end Sys2Proof.Machine
end

