-- ==== Sys2Proof/Machine/Global.lean ====
section
/-! DEFINITION. Accesses of K to global memory: loads and stores, atomics, and what returns (R230, R231, R241 to R243, R251,
R345, R346, R397, R398). -/
namespace Sys2Proof.Machine

/-- A piece of K's access: physical address, virtual address, length, and whether its page is stash-able, and cacheable (Table 12-3). -/
structure KPiece where
  pa : Nat
  va : Word
  n : Nat
  stash : Bool
  cached : Bool
  deriving DecidableEq, Repr

/-- The piece of n bytes at an address, under its translation. -/
def KPiece.of (va : Word) (n pa : Nat) (e : TlbEnt) : KPiece :=
  { pa := pa, va := va, n := n, stash := e.attr.getLsbD 6, cached := e.attr.getLsbD 5 }

/-- K's access to n bytes, cut at lines and translated (R231, R251): it goes on with its pieces, or the group waits or
traps. -/
def State.kAccess (s : State) (kind : Nat) (va : Word) (n : Nat) (k : State → List KPiece → Act) : Act :=
  let ps := lineParts va n
  match s.kTranslate s.cur.core kind 0 (ps.map (fun p => p.1)) with
  | .wait s' => .wait s' 0xA 0 0
  | .fault v part => memTrap 0x45 v.toNat (memStatus 0 part 1 0 0)
  | .ok s' es =>
    k (s'.modMs s'.cur.core (fun m => { m with hold := none }))
      ((ps.zip es).map (fun x => KPiece.of x.1.1 x.1.2 x.2.1 x.2.2))

/-! ## The stash seen by K (R223) -/

/-- The block of a virtual address. -/
def blockOf (va : Word) : Nat := va.toNat / 256 * 256

/-- The window of the running context, unless it is closing. -/
def Core.stashOpen (co : Core) : Option Stash :=
  match co.stash with
  | some st => if st.closing = none then some st else none
  | none => none

/-- The entry that holds a block. -/
def Stash.entryOf (st : Stash) (va : Nat) : Option (Nat × StashEnt) := st.ents.find? (fun p => decide (p.2.va = va))

/-- The piece hits the stash. -/
def Core.stashHit (co : Core) (p : KPiece) : Bool :=
  p.stash &&
    (match co.stashOpen with
     | some st => (st.entryOf (blockOf p.va)).isSome
     | none => false)

/-- The stash after an access: a missing block is noted, and a store marks its bytes dirty (R223, R245). -/
def Core.stashAccess (co : Core) (p : KPiece) (store : Bool) : Core :=
  if p.stash then
    match co.stashOpen with
    | none => co
    | some st =>
      match st.entryOf (blockOf p.va) with
      | some (i, e) =>
        let d := e.dirty ||| BitVec.ofNat 256 ((2 ^ p.n - 1) * 2 ^ (p.va.toNat % 256))
        let ents := mset st.ents i { e with dirty := d }
        if store then co.setStash { st with ents := ents } else co
      | none =>
        if st.missing.contains (blockOf p.va) then co
        else
          let ms := st.missing ++ [blockOf p.va]
          co.setStash { st with missing := ms }
  else co

/-! ## Loads and stores (R230) -/

/-- Loads and atomics of K that have not returned. -/
def MemSide.loadsOut (m : MemSide) : Nat := (m.gacc.filter (fun g => decide (g.kind = 0) || decide (g.kind = 2))).length

/-- Stores of K that have not been taken. -/
def MemSide.storesOut (m : MemSide) : Nat := (m.gacc.filter (fun g => decide (g.kind = 1))).length

/-- No atomic of K waits to be performed, and no release waits for one: the next release or acquire may take effect (R235). -/
def MemSide.ordered (m : MemSide) : Bool := m.gacc.all (fun g => g.todo.isNone) && m.rels.isEmpty

/-- Nor do home agents hold back a store that the next release publishes (R321). -/
def State.ordered (s : State) (c : Nat) : Bool :=
  (s.core c).ms.ordered && (s.core c).ms.pend.all (fun w => !s.extentBlocked w.pa 1 true)

/-- A byte of these pieces belongs to an atomic that has not been performed (R243). -/
def MemSide.awaitsAtomic (m : MemSide) (ps : List KPiece) : Bool :=
  m.gacc.any (fun g => g.unperformed && ps.any (fun p => overlap g.pa g.nb p.pa p.n))

/-- Bytes that came from other modules are held with the snapshot (R236). -/
def MemSide.holdBytes (m : MemSide) (pa n raw : Nat) : MemSide :=
  { m with remote := ((upTo pa n).zip (leBytes n raw)).foldl (fun r x =>
      match mfind r x.1 with
      | some _ => r
      | none => mset r x.1 x.2) m.remote }

/-- The L2 serves a line of the domain window (R228, R396): it holds a copy, and by a free value still does. DESIGN CHOICE (log 68). -/
def State.l2Serves (s : State) (line : Nat) : Bool :=
  (upTo line 128).all (fun x => (mfind s.dom.l2 x).isSome) && (Config.freeWord s.draws).getLsbD 0

/-- A line comes from the L2 into a core's phase. -/
def State.l2Load (s : State) (c line : Nat) : State :=
  { s with draws := s.draws + 1 }.modMs c (fun m => m.holdBytes line 128 (leNat ((upTo line 128).map (fun x => mget 0 s.dom.l2 x))))

/-- The read of a line of another module that a load of a core waits for: one on the way in this phase, or a new one (R236). -/
def State.lineRead (s : State) (c id m line off : Nat) : Nat × State :=
  match (s.core c).ms.lines.find? (fun x => decide (x.1 = line)) with
  | some x => (x.2.2, s)
  | none =>
    let n := mget 1 s.dom.nextPseq m
    (n, (s.domainSend m 1 0 0 0 0 (s.core c).ctx 128 0 (off / 128 * 128) 0 0 [] c id).modMs c (fun ms =>
      { ms with lines := ms.lines ++ [(line, m, n)] }))

/-- The bytes of pieces for a read of K, from byte `off` on: what the snapshot gives, what must come from other modules,
and the cause of a refusal (R236, R345). A line of another module is read whole on the first load of a phase that needs a byte of it, so that each part is of one
read (R231, R237); bytes that the core has written stand over it. DEDUCED (log 13). -/
def State.readPieces (s : State) (c id : Nat) : Nat → List KPiece → Nat × List (Nat × Nat × Nat × Nat) × Option Nat × State
  | _, [] => (0, [], none, s)
  | off, p :: r =>
    let co := s.core c
    let here : Nat × List (Nat × Nat × Nat × Nat) × Option Nat × State :=
      match s.paKind p.pa with
      | .home =>
        if !co.stashHit p && s.homeBad c 0 p.pa p.n then (0, [], some 0x83, s)
        else (leNat ((upTo p.pa p.n).map co.ms.loadByte), [], none, s)
      | .refused cause => (0, [], some cause, s)
      | .window m a =>
        let miss := (upTo p.pa p.n).filter (fun x => (mfind co.ms.remote x).isNone)
        let line := lineOf p.pa
        if miss.isEmpty then (leNat ((upTo p.pa p.n).map co.ms.loadByte), [], none, s)
        else if p.cached && !co.ms.lines.any (fun x => decide (x.1 = line)) && s.l2Serves line then
          let s1 := s.l2Load c line
          (leNat ((upTo p.pa p.n).map (s1.core c).ms.loadByte), [], none, s1)
        else
          let r := s.lineRead c id m line a
          (leNat ((upTo p.pa p.n).map (fun x => mget 0 co.ms.remote x)), miss.map (fun x => (m, r.1, off + (x - p.pa), 1)), none, r.2)
    let x := here.2.2.2.readPieces c id (off + p.n) r
    (here.1 + x.1 * 256 ^ p.n, here.2.1 ++ x.2.1, (match here.2.2.1 with
      | some e => some e
      | none => x.2.2.1), x.2.2.2)

/-- The number of the access K stands at when a `tlbinv` came while it was being translated (R259), else 0. -/
def Core.staleAcc (co : Core) : Nat :=
  match co.ms.stale with
  | some (n, l, pc) => if co.im.k.last = l ∧ co.im.k.pc = pc then n else 0
  | none => 0

/-- An access of K put among those that have not returned. -/
def State.pushAcc (s : State) (c : Nat) (g : GAcc) : State :=
  s.modMs c (fun m => { m with gacc := m.gacc ++ [{ g with old := (s.core c).staleAcc }] })

/-- The bytes of a load's pieces, from byte `off` on, that home agents hold back (R321): all but those the core's own pending stores give. -/
def State.lateBytes (s : State) (c : Nat) : Nat → List KPiece → List (Nat × Nat)
  | _, [] => []
  | off, p :: r =>
    (if s.paKind p.pa = .home ∧ s.extentBlocked p.pa p.n false = true then
      ((upTo p.pa p.n).zip (upTo off p.n)).filter (fun x => s.extentBlocked x.1 1 false && !(s.core c).ms.pend.any (fun w => decide (w.pa = x.1)))
    else []) ++ s.lateBytes c (off + p.n) r

/-- The effect of a global load (R230). -/
def actLdGlobal (f : MemF) (s : State) : Act :=
  let va := s.memAddr f
  let nb := sizeBytes f.size
  let c := s.cur.core
  if f.var.getLsbD 0 = false ∧ va.toNat % nb ≠ 0 then memTrap 0x40 va.toNat (memStatus 0 0 1 0 0)
  else
    s.kAccess 0 va nb (fun s ps =>
      if 16 ≤ s.me.ms.loadsOut ∨ s.me.ms.awaitsAtomic ps then .wait s 0xA 0 0
      else
        let hit := ps.all (fun p => s.me.stashHit p)
        let id := s.serial
        let late := s.lateBytes c 0 ps
        let r := { s with serial := s.serial + 1 }.readPieces c id 0 ps
        let l := (if r.2.2.1 = some 0x83 then ps.foldl (fun s p => s.linkMet c p.pa 0x83) r.2.2.2 else r.2.2.2).later (if hit then 4 else 1)
        let s2 := l.2.modCore c (fun co => ps.foldl (fun co p => co.stashAccess p false) co)
        .done (s2.pushAcc c
          { id := id, kind := 0, dst := regPlace s.me.im .k f.d.toNat, raw := if r.2.2.1.isSome then 0 else late.foldl (fun v x => v - v / 256 ^ x.2 % 256 * 256 ^ x.2) r.1, nb := nb,
            sx := f.sx, va := va, pa := (ps.map (fun p => p.pa)).headD 0, at_ := l.1, ctx := s.me.ctx, err := r.2.2.1,
            origin := s.mySeq.index, want := r.2.1, todo := none, issue := s.t, cached := ps.all (fun p => p.cached), late := late }))

/-- LD_GLOBAL (R230). -/
def execLdGlobal (f : MemF) (s : State) : Host.Outcome State Fault Refusal := issue s [f.base] (actLdGlobal f)

/-- The bytes of a store, piece by piece, as pending writes (R234). -/
def State.storePieces (s : State) (c origin : Nat) : List KPiece → List Byte → State
  | [], _ => s
  | p :: r, bs =>
    ((s.storeBytes c p.pa p.va origin (bs.take p.n)).modCore c (fun co => co.stashAccess p true)).storePieces c origin r
      (bs.drop p.n)

/-- The effect of a global store (R230). -/
def actStGlobal (f : MemF) (s : State) : Act :=
  let va := s.memAddr f
  let nb := sizeBytes f.size
  let c := s.cur.core
  if f.var.getLsbD 0 = false ∧ va.toNat % nb ≠ 0 then memTrap 0x40 va.toNat (memStatus 0 0 1 0 0)
  else
    s.kAccess 1 va nb (fun s ps =>
      if 32 ≤ s.me.ms.storesOut then .wait s 0xA 0 0
      else
        let l := (s.storePieces c s.mySeq.index ps (leBytes nb (s.rd f.val).toNat)).later 1
        .done ({ l.2 with serial := l.2.serial + 1 }.pushAcc c
          { id := l.2.serial, kind := 1, dst := none, raw := 0, nb := nb, sx := 0, va := va,
            pa := (ps.map (fun (p : KPiece) => p.pa)).headD 0, at_ := l.1, ctx := s.me.ctx, err := none, origin := s.mySeq.index,
            want := [], todo := none, issue := s.t, cached := false, late := [] }))

/-- ST_GLOBAL (R230). -/
def execStGlobal (f : MemF) (s : State) : Host.Outcome State Fault Refusal := issue s [f.base, f.val] (actStGlobal f)

/-! ## Atomics (R241 to R243) -/

/-- The new value of Table 11-3 on w bits; none writes nothing. -/
def atomicNew (aop u w old v cv : Nat) : Option Nat :=
  let x := v % 2 ^ w
  match aop with
  | 0x54 => some ((old + x) % 2 ^ w)
  | 0x55 => some (if (if u = 1 then decide (old ≤ x) else decide (sgn w old ≤ sgn w x)) then old else x)
  | 0x56 => some (if (if u = 1 then decide (x ≤ old) else decide (sgn w x ≤ sgn w old)) then old else x)
  | 0x57 => some x
  | 0x58 => if old = cv % 2 ^ w then some x else none
  | 0x59 => some (old &&& x)
  | 0x5A => some (old ||| x)
  | _ => none

/-- New domain atomics sent to a module in the last 1 ms (R398). -/
def State.sentRecently (s : State) (m : Nat) : Nat :=
  (s.dom.sent.filter (fun p => decide (p.1 = m) && decide (s.cyc < p.2 + oneMs))).length

/-- An access of K among those that have not returned, changed. -/
def State.modAcc (s : State) (c id : Nat) (f : GAcc → GAcc) : State :=
  s.modMs c (fun m => { m with gacc := m.gacc.map (fun g => if g.id = id then f g else g) })

/-- A domain atomic is sent; until it is answered `raw` holds its identifier (R397). -/
def State.sendAtomic (s : State) (c m off : Nat) (g : GAcc) (aop u : Nat) (v cv : Word) : State :=
  let n := mget 1 s.dom.nextPseq m
  let s1 := s.domainSend m 3 aop u (if g.nb = 4 then 2 else 3) g.scope g.ctx 0 g.raw off v cv [] c g.id
  let s2 := { s1 with dom := { s1.dom with
    sent := (m, s.cyc) :: s1.dom.sent.filter (fun p => decide (s.cyc < p.2 + oneMs)) } }
  s2.modAcc c g.id (fun g => { g with want := [(m, n, 0, g.nb)], todo := none })

/-- A release of the core that is earlier in program order than an access of this number has not taken effect (R235), or one of domain scope has writes that are
not acknowledged (R239). -/
def State.releaseAhead (s : State) (c id : Nat) : Bool :=
  (s.core c).ms.rels.any (fun r => decide (r.1 < id)) || ((s.core c).ms.semAdds.any (fun a => a.wide && decide (a.ser ≤ id)) && s.domainBusy c)

/-- The atomics of a core that wait are performed in issue order, as far as they can be (R243), behind its earlier releases: at home slices here, or sent
to another module, whose answer the next one waits for. One that waited returns on a later cycle. -/
def State.drainAtomics (s : State) (c : Nat) : Nat → State
  | 0 => s
  | n + 1 =>
    match (s.core c).ms.gacc.find? (fun g => g.unperformed) with
    | none => s
    | some g =>
      match g.todo with
      | none => s
      | some (aop, u, v, cv) =>
       if s.releaseAhead c g.id then s else
        match s.paKind g.pa with
        | .refused cause => (s.modAcc c g.id (fun g => { g with todo := none, err := some cause, raw := 0 })).drainAtomics c n
        | .home =>
         if s.extentBlocked g.pa g.nb true then s
         else if s.homeBad c 2 g.pa g.nb then
          ((s.linkMet c g.pa 0x83).modAcc c g.id (fun g => { g with todo := none, err := some 0x83, raw := 0 })).drainAtomics c n
         else
          let r := (s.publishHits c g.pa g.nb g.id).atomicPerform c g.pa g.nb (fun old => atomicNew aop u (8 * g.nb) old v.toNat cv.toNat)
          (r.2.modAcc c g.id (fun g => { g with todo := none, raw := r.1, at_ := Nat.max g.at_ (s.cyc + 1) })).drainAtomics c n
        | .window m off =>
          if 4096 ≤ s.sentRecently m then
            let h := s.dom.held.filter (fun x => !decide (x = (m, c, g.id)))
            { s with dom := { s.dom with held := h ++ [(m, c, g.id)] } }
          else (s.publishHits c g.pa g.nb g.id).sendAtomic c m off g aop u v cv

/-- The stash entry of a core that holds an atomic's block is written back and emptied (R245). -/
def Core.stashDrop (co : Core) (va : Word) : Core :=
  match co.stash with
  | some st => co.setStash { st with ents := st.ents.filter (fun p => !decide (p.2.va = blockOf va)) }
  | none => co

/-- The effect of an atomic on a register form of fields (R242): `rel` and `acq` its scopes if they apply. -/
def actAtomicAt (va : Word) (nb aop u : Nat) (sx : BitVec 1) (v cv : Word) (dst : Option (Bool × Nat)) (scope : Nat) (rel0 acq0 : Option Nat)
    (s : State) : Act :=
  let c := s.cur.core
  if va.toNat % nb ≠ 0 then memTrap 0x40 va.toNat (memStatus 0 0 1 0 0)
  else
    s.kAccess 2 va nb (fun s ps =>
      let pa := (ps.map (fun p => p.pa)).headD 0
      let space := decide (0xF000000000000 ≤ pa)
      let rel := if space then none else rel0
      let acq := if space then none else acq0
      if s.me.timed ∧ (rel0.isSome ∨ acq0.isSome) then .wait s 0xA 0 0
      else if 16 ≤ s.me.ms.loadsOut ∨ (rel.isSome ∧ s.ordered c = false) then .wait s 0xA 0 0
      else
        let s1 := match rel with
          | some sc => s.release c sc
          | none => s
        if rel = some 4 ∧ s1.domainBusy c then .wait s1 0xA 0 0
        else
          let s2 := s1.modCore c (fun co => co.stashDrop va)
          let l := s2.later 1
          let id := l.2.serial
          let bad := match l.2.paKind pa with
            | .refused cause => some cause
            | _ => none
          let wide := match l.2.paKind pa with
            | .window _ _ => true
            | _ => false
          let rid := (s.core c).im.rid.toNat % 2 ^ 25
          let g : GAcc :=
            { id := id, kind := 2, dst := dst, raw := if wide then c * 2 ^ 25 + rid else 0, nb := nb, sx := sx, va := va, pa := pa, at_ := l.1, ctx := s.me.ctx,
              err := bad, origin := s.mySeq.index, want := [], todo := if bad.isSome then none else some (aop, u, v, cv),
              issue := s.t, cached := false, late := [], scope := scope }
          let s2' := if wide then l.2.modIm c (fun im => { im with rid := BitVec.ofNat 64 ((rid + 1) % 2 ^ 25) }) else l.2
          let s3 := ({ s2' with serial := id + 1 }.pushAcc c g).drainAtomics c 17
          .done (if rel.isSome ∨ acq.isSome then s3.modMs c (fun m => { m with hold := some (.response id acq) }) else s3))

/-- The effect of an atomic instruction (R241). -/
def actAtomic (aop : Nat) (f : MemF) (s : State) : Act :=
  let sc := f.scope.toNat
  actAtomicAt (s.memAddr f) (sizeBytes f.size) aop (b2n (f.var.getLsbD 2)) (if f.size = 2 then f.sx else 0) (s.rd f.val)
    (s.rd f.cv) (regPlace s.me.im .k f.d.toNat) sc (if f.var.getLsbD 0 then some sc else none)
    (if f.var.getLsbD 1 then some sc else none) s

/-- AADD (R241). -/
def execAadd (f : MemF) (s : State) : Host.Outcome State Fault Refusal := issue s [f.base, f.val] (actAtomic 0x54 f)
/-- AMIN (R241). -/
def execAmin (f : MemF) (s : State) : Host.Outcome State Fault Refusal := issue s [f.base, f.val] (actAtomic 0x55 f)
/-- AMAX (R241). -/
def execAmax (f : MemF) (s : State) : Host.Outcome State Fault Refusal := issue s [f.base, f.val] (actAtomic 0x56 f)
/-- ASWAP (R241). -/
def execAswap (f : MemF) (s : State) : Host.Outcome State Fault Refusal := issue s [f.base, f.val] (actAtomic 0x57 f)
/-- ACAS (R241). -/
def execAcas (f : MemF) (s : State) : Host.Outcome State Fault Refusal := issue s [f.base, f.val, f.cv] (actAtomic 0x58 f)
/-- AAND (R241). -/
def execAand (f : MemF) (s : State) : Host.Outcome State Fault Refusal := issue s [f.base, f.val] (actAtomic 0x59 f)
/-- AOR (R241). -/
def execAor (f : MemF) (s : State) : Host.Outcome State Fault Refusal := issue s [f.base, f.val] (actAtomic 0x5A f)
/-- RAMO (R241). -/
def execRamo (f : MemF) (s : State) : Host.Outcome State Fault Refusal := issue s [f.base] (actAtomic 0x5B f)

/-! ## What returns -/

/-- The result that writes the register an access of K returns to. -/
def GAcc.fx (g : GAcc) (v : Word) : Option Fx :=
  g.dst.map (fun d => if d.1 then .win d.2 v else .reg .k d.2 v)

/-- The segment ends no earlier than what falls due on this cycle (R95). -/
def Image.endsAfter (im : Image) : Image :=
  { im with seg := im.seg.map (fun x => { x with lastEnd := Nat.max x.lastEnd im.sched }) }

/-- What K's access returns falls due on this schedule cycle, in its place by issue among the results that do (R20); while a trap has stopped
the core it is written at once (R342). The segment ends after it (R95). -/
def State.deliverAcc (s : State) (c : Nat) (g : GAcc) (v : Word) : State :=
  let s1 := s.modIm c Image.endsAfter
  match g.fx v with
  | none => s1
  | some fx =>
    if (s.core c).counting s.cyc then
      s1.pushFlight c { due := s.sched c, issue := g.issue, ord := 0, sq := .k, fx := fx }
    else s1.modIm c (fun im => im.take fx)

/-- An access of K leaves those that have not returned. -/
def State.dropAcc (s : State) (c id : Nat) : State :=
  s.modMs c (fun m => { m with gacc := m.gacc.filter (fun g => !decide (g.id = id)) })

/-- K goes on after what it stood behind has completed on this cycle: its next group issues on a later one (R240). -/
def State.letGo (s : State) (c : Nat) : State :=
  (s.modMs c (fun m => { m with hold := none })).modSeq c .k (fun q =>
    { q with last := some (Nat.max ((s.core c).im.sched) (q.last.getD 0)) })

/-- The answer of an atomic K waits for has come: the acquire that follows is taken (R242). -/
def State.afterAtomic (s : State) (c id : Nat) : State :=
  match (s.core c).ms.hold with
  | some (.response i acq) =>
    if i = id then
      match acq with
      | none => s.letGo c
      | some 4 =>
        let l := s.later 0
        l.2.modMs c (fun m => { m with hold := some (.boundary none (some 4) l.1) })
      | some sc => (s.acquire c sc).letGo c
    else s
  | _ => s

/-- The value an access of K delivers. -/
def GAcc.value (g : GAcc) : Word := extendLoad g.nb g.sx g.raw

/-- An access that returns on this cycle, also while a trap has stopped the core (R342): of these kinds, with or without an error. -/
def Core.returning (co : Core) (cyc : Nat) (kinds : List Nat) (bad : Bool) : Option GAcc :=
  co.ms.gacc.find? (fun g => kinds.contains g.kind && g.want.isEmpty && g.todo.isNone && decide (g.at_ ≤ cyc) &&
    (g.err.isSome == bad) && (decide (g.kind = 1) || (co.im.seg.isSome && (!co.frozenAt cyc || decide (co.stops.stop ≠ .run)))))

/-- The home agents hold back no byte of an access of K (R321); a store is taken, and held back when it is published. -/
def GAcc.free (g : GAcc) : Bool := decide (g.kind = 1) || g.late.isEmpty

/-- Bytes that home agents held back can be read. -/
def State.lateDone (s : State) (g : GAcc) : Bool := g.late.all (fun x => !s.extentBlocked x.1 1 false)

/-- A load that was held back reads its bytes (R321): what the command has left at home, which K's later loads find too. It returns on a later cycle, in its place
among the results that do (R20). -/
def State.readLate (s : State) (c : Nat) (g : GAcc) : State :=
  let v := g.late.foldl (fun n x => n + (s.homeNat x.1 1) * 256 ^ x.2) g.raw
  let found (m : MemSide) : List Host.Cell :=
    (g.late.filter (fun x => !m.pend.any (fun w => decide (w.pa = x.1)))).foldl (fun l x => mput 0 l x.1 (s.homeByte x.1)) m.snap
  (s.modAcc c g.id (fun g => { g with raw := v, late := [], at_ := s.cyc + 1 })).modMs c (fun m => { m with snap := found m })

/-- K tries its group again once the read it stands behind has been answered (R70, R71, R110, R278). -/
def MemSide.unheld (m : MemSide) : MemSide :=
  match m.hold with
  | some (.response id _) =>
    if m.gacc.any (fun g => decide (g.id = id) && decide (g.kind = 3) && g.want.isEmpty && g.late.isEmpty) then { m with hold := none } else m
  | _ => m

/-- A read of a table that home agents held back takes place (R321). -/
def State.readTable (s : State) (c : Nat) : Option State :=
  match (s.core c).ms.gacc.find? (fun g => decide (g.kind = 3) && !g.late.isEmpty) with
  | some g => if s.lateDone g then some ((s.readLate c g).modMs c (fun m => m.unheld)) else none
  | none => none

/-- GLOBAL_ACCESS_RESPONSE (R230): a load's data reaches its register, or a store has been taken; or a load that was held back reads. -/
def execGlobalAccessResponse (c : Nat) (s : State) : Host.Outcome State Fault Refusal :=
  coreEvent "GLOBAL_ACCESS_RESPONSE" c
    (match (s.core c).returning s.cyc [0, 1] false with
     | none => s.readTable c
     | some g =>
       if g.free then some ((if g.kind = 0 then s.deliverAcc c g g.value else s).dropAcc c g.id)
       else if s.lateDone g then some (s.readLate c g)
       else s.readTable c)

/-- The core's next atomic was held back by a near-bank command that has completed: it is performed (R321). -/
def State.resumeAtomics (s : State) (c : Nat) : Option State :=
  match (s.core c).ms.gacc.find? (fun g => g.unperformed) with
  | some g =>
    if g.todo.isSome && decide (s.paKind g.pa = .home) && !s.extentBlocked g.pa g.nb true && !s.releaseAhead c g.id then some (s.drainAtomics c 17) else none
  | none => none

/-- ATOMIC_RESPONSE (R242): an atomic's old value reaches d, and then the acquire of `.acq` is taken; or one that was held back is performed. -/
def execAtomicResponse (c : Nat) (s : State) : Host.Outcome State Fault Refusal :=
  coreEvent "ATOMIC_RESPONSE" c
    (match (s.core c).returning s.cyc [2] false with
     | none => s.resumeAtomics c
     | some g => some (((s.deliverAcc c g g.value).dropAcc c g.id).afterAtomic c g.id))

/-- The pending error of a refused access (R346); a refusal by another module is logged there (R345). -/
def State.respError (s : State) (c : Nat) (g : GAcc) (cause : Nat) : State :=
  match s.paKind g.pa with
  | .window _ _ =>
    if cause = 0xA0 ∨ cause = 0xA1 then s.accessError c g.pa g.va g.ctx cause (if g.kind = 2 then 2 else 0) g.origin
    else
      s.setPending c g.ctx
        { cause := cause, engine := 0, uidx := 0, status := impStatus (if g.kind = 2 then 2 else 0) g.origin,
          addr := g.va, cmd := g.origin, packet := false, seq := 0 }
  | _ => s.accessError c g.pa g.va g.ctx cause (if g.kind = 2 then 2 else 0) g.origin

/-- ERROR_RESPONSE (R345): a refused load or atomic writes zero to its destination, is logged, and sets the pending error. -/
def execErrorResponse (c : Nat) (s : State) : Host.Outcome State Fault Refusal :=
  coreEvent "ERROR_RESPONSE" c
    (match (s.core c).returning s.cyc [0, 2] true with
     | none => none
     | some g =>
       some ((((s.deliverAcc c g 0).dropAcc c g.id).respError c g (g.err.getD 0x47)).afterAtomic c g.id))

/-- DOMAIN_ATOMIC_RATE_RELEASE (R398): an atomic held back by the limit is sent once the window admits it. -/
def execDomainAtomicRateRelease (m : Nat) (s : State) : Host.Outcome State Fault Refusal :=
  event "DOMAIN_ATOMIC_RATE_RELEASE"
    (match s.dom.held.find? (fun x => decide (x.1 = m)) with
     | some x =>
       if s.sentRecently m < 4096 then
         some ({ s with dom := { s.dom with held := s.dom.held.filter (fun y => !decide (y = x)) } }.drainAtomics x.2.1 17)
       else none
     | none => none)

end Sys2Proof.Machine
end

