-- ==== Sys2Proof/Machine/Boundary.lean ====
section
/-! DEFINITION. Boundaries, semaphores and fences of K, invalidation of translations, triggers (R114, R240, R258, R259, R277,
R278, R347). -/
namespace Sys2Proof.Machine

/-! ## phase and fence (R238, R240) -/

/-- A release at a scope has nothing to do. -/
def State.nothingPending (s : State) (c scope : Nat) : Bool :=
  (s.core c).ms.pend.isEmpty && s.blog.all (fun e => !(decide (e.core = c) && decide (e.scope < scope))) &&
    (decide (scope ≠ 4) || !s.domainBusy c)

/-- The effect of a boundary (R240): a release, an acquire, or both. It follows K's earlier atomics in the boundary order (R235), so it waits
for those that are not performed. With nothing pending it completes at once; otherwise
K's next group waits for its completion. -/
def actBoundary (rel acq : Option Nat) (s : State) : Act :=
  let c := s.cur.core
  if s.me.timed ∨ s.ordered s.cur.core = false then .wait s 0xA 0 0
  else
    let now := (match rel with
      | some sc => s.nothingPending c sc
      | none => true) && acq != some 4
    let s1 := match rel with
      | some sc => s.release c sc
      | none => s
    if now then
      .done (match acq with
        | some sc => s1.acquire c sc
        | none => s1)
    else
      let l := s1.later 0
      .done (l.2.modMs c (fun m => { m with hold := some (.boundary rel acq l.1) }))

/-- The scope of a boundary or semaphore instruction: var[2:0]. -/
def scopeOf (f : MgtF) : Nat := f.var.toNat % 8

/-- PHASE (R240). -/
def execPhase (f : MgtF) (s : State) : Host.Outcome State Fault Refusal :=
  issue s [] (actBoundary (some (scopeOf f)) (some (scopeOf f)))

/-- FENCE_REL (R240). -/
def execFenceRel (f : MgtF) (s : State) : Host.Outcome State Fault Refusal := issue s [] (actBoundary (some (scopeOf f)) none)

/-- FENCE_ACQ (R240). -/
def execFenceAcq (f : MgtF) (s : State) : Host.Outcome State Fault Refusal := issue s [] (actBoundary none (some (scopeOf f)))

/-- An atomic of the core is not answered by its target (R239). -/
def Core.atomicOut (co : Core) : Bool := co.ms.gacc.any (fun g => g.unperformed)

/-- The translation of the word K polls: by K's TLB, or by a walk, which fills it (R250, R276). -/
def State.pollTranslate (s : State) (c : Nat) (va : Word) (pa0 : Nat) : Nat × State :=
  let co := s.core c
  match co.ms.tlb.find? (fun e => e.serves co.ctx va 0) with
  | some e => (e.pa va, s)
  | none =>
    match (if s.walkTurn (dieOf c) (8192 + c) then s.walkPage co.ctx co.ptbase va 0 else .error { cause := 0, reason := 0, level := 0 }) with
    | .ok e => (e.pa va, s.modMs c (fun m => { m with tlb := tlbTouch m.tlb e }))
    | .error _ => (pa0, s)

/-- The boundary K stands behind is complete (Table 11-1); an acquire of domain scope follows K's earlier atomics (R239). -/
def State.boundaryDone (s : State) (c : Nat) : Option State :=
  match (s.core c).ms.hold with
  | some (.boundary rel acq at_) =>
    if at_ ≤ s.cyc ∧ (rel ≠ some 4 ∨ s.domainBusy c = false) ∧ (acq ≠ some 4 ∨ (s.core c).atomicOut = false) ∧
        (acq = none ∨ s.ordered c = true) then
      some ((match acq with
        | some sc => s.acquire c sc
        | none => s).letGo c)
    else none
  | some (.acqAt sc at_) =>
    if at_ ≤ s.cyc then some ((s.acquire c sc).modMs c (fun m => { m with hold := none })) else none
  | some (.join va pa0 target origin) =>
    let ctx := (s.core c).ctx
    let tr := s.pollTranslate c va pa0
    let pa := tr.1
    let s := tr.2
    if s.asking (3072 + c) pa ∨ s.extentBlocked pa 8 false = true then none
    else if s.homeBad c 0 pa 8 then some (((s.forget (3072 + c)).accessError c pa va ctx 0x83 0 origin).letGo c)
    else
      match s.readParts (3072 + c) ctx [(pa, 8)] with
      | .wait s' => some s'
      | .ok bs s' =>
        let s1 := s'.forget (3072 + c)
        if target ≤ leNat bs then some ((s1.acquire c 3).letGo c) else if s1 = s then none else some s1
      | .bad cause p =>
        some (((s.forget (3072 + c)).accessError c p va ctx cause 0 origin).letGo c)
  | _ => none

/-- The release of the oldest `srel` is complete: its increment applies (R278), and atomics behind it are performed (R239). -/
def State.semAddDone (s : State) (c : Nat) : Option State :=
  match (s.core c).ms.semAdds with
  | [] => none
  | a :: r =>
    if a.at_ ≤ s.cyc ∧ (a.wide = false ∨ s.domainBusy c = false) ∧ (s.core c).ms.rels.all (fun r => decide (a.ser < r.1)) = true then
      some (((s.modMs c (fun m => { m with semAdds := r })).modIm c (fun im => im.semRelease a.sem a.n)).drainAtomics c 17)
    else none

/-- The writes of a core that were pending when an access of this number was the next to come are published (R234). -/
def State.releaseOlder (s : State) (c scope ser : Nat) : State :=
  ((s.widen c scope).publishAll scope ((s.core c).ms.pend.filter (fun w => decide (w.ser < ser)))).modMs c (fun m =>
    { m with pend := m.pend.filter (fun w => !decide (w.ser < ser)) })

/-- The oldest release that waited for an atomic (R235), or for a near-bank command (R321), takes effect, and then what atomics stood behind it. -/
def State.releaseDone (s : State) (c : Nat) : Option State :=
  match (s.core c).ms.rels with
  | [] => none
  | r :: rs =>
    if (s.core c).ms.gacc.any (fun g => g.todo.isSome && decide (g.id < r.1)) ||
        (s.core c).ms.pend.any (fun w => decide (w.ser < r.1) && s.extentBlocked w.pa 1 true) then none
    else some (((s.releaseOlder c r.2 r.1).modMs c (fun m => { m with rels := rs })).drainAtomics c 17)

/-- A release of a core that nothing waits for: at once, or once K's earlier atomics are performed (R235) and no near-bank command holds its writes back
(R321). -/
def State.releaseNext (s : State) (c scope : Nat) : State :=
  if s.ordered c then s.release c scope
  else { s with serial := s.serial + 1 }.modMs c (fun m => { m with rels := m.rels ++ [(s.serial, scope)] })

/-- BOUNDARY_COMPLETE (R238, R278): a release or acquire of the core completes. -/
def execBoundaryComplete (c : Nat) (s : State) : Host.Outcome State Fault Refusal :=
  coreEvent "BOUNDARY_COMPLETE" c
    (match s.releaseDone c with
     | some t => some t
     | none =>
       match s.boundaryDone c with
       | some t => some t
       | none => s.semAddDone c)

/-- EFENCE (R347): a pending error, also one that comes during the wait, is raised at once (R346). -/
def execEfence (_f : MgtF) (s : State) : Host.Outcome State Fault Refusal :=
  issue s [] (fun s =>
    if s.me.timed then .wait s 0xA 0 0
    else if s.pendingHere.isNone && (s.me.ms.gacc.any (fun g => decide (g.kind ≠ 1)) || !s.me.ms.rels.isEmpty || s.domainBusy s.cur.core) then .wait s 0xA 0 0
    else .done s)

/-! ## Semaphores (R277, R278) -/

/-- The acquire a semaphore instruction takes: at the next cycle, or, at domain scope (R278) or behind an atomic that is not performed (R235),
once it completes. -/
def State.semAcquire (s : State) (sc : Nat) : State :=
  if sc = 4 ∨ s.ordered s.cur.core = false then
    let l := s.later 0
    l.2.modMs s.cur.core (fun m => { m with hold := some (.boundary none (some sc) l.1) })
  else s.modMs s.cur.core (fun m => { m with hold := some (.acqAt sc (s.cyc + 1)) })

/-- A semaphore of the present core less n. -/
def State.semTake (s : State) (k n : Nat) : State :=
  s.modIm s.cur.core (fun im => { im with sems := mput 0 im.sems k (mget 0 im.sems k - n) })

/-- The effect of `sacq` (R278): its acquire follows K's earlier atomics (R235). DEDUCED (log 62). -/
def actSacq (f : MgtF) (s : State) : Act :=
  let k := f.idx.toNat
  if s.me.timed ∧ scopeOf f = 4 then .wait s 0xA 0 0
  else if mget 0 s.me.im.sems k < f.n.toNat then .wait s 5 k 0
  else if s.me.timed = true ∧ s.ordered s.cur.core = false then .wait s 0xA 0 0
  else .done ((s.semTake k f.n.toNat).semAcquire (scopeOf f))

/-- SACQ (R278). -/
def execSacq (f : MgtF) (s : State) : Host.Outcome State Fault Refusal := issue s [] (actSacq f)

/-- The effect of `sacq.try` (R278). DEDUCED (log 62). -/
def actSacqTry (f : MgtF) (s : State) : Act :=
  let k := f.idx.toNat
  if mget 0 s.me.im.sems k < f.n.toNat then .done (s.wrPred 1 f.pa false)
  else if s.me.timed = true ∧ (scopeOf f = 4 ∨ s.ordered s.cur.core = false) then .wait s 0xA 0 0
  else .done (((s.semTake k f.n.toNat).semAcquire (scopeOf f)).wrPred 1 f.pa true)

/-- SACQ_TRY (R278). -/
def execSacqTry (f : MgtF) (s : State) : Host.Outcome State Fault Refusal := issue s [] (actSacqTry f)

/-- A read at the home for K: its value, a wait, or an error response. -/
inductive HomeRead where
  | value (v : Nat) (s : State)
  | wait (s : State)
  | error (cause : Nat) (pa : Nat)

/-- K reads 8 bytes at their home, in this module or another (R276, R278). -/
def State.homeRead (s : State) (va : Word) (pa scope : Nat) : HomeRead :=
  let c := s.cur.core
  match s.paKind pa with
  | .home =>
    if s.extentBlocked pa 8 false then .wait s else if s.homeBad c 0 pa 8 then .error 0x83 pa else .value (s.homeNat pa 8) s
  | .refused cause => .error cause pa
  | .window m a =>
    match s.me.ms.gacc.find? (fun g => decide (g.kind = 3)) with
    | some g =>
      if g.want.isEmpty then
        match g.err with
        | some cause => .error cause pa
        | none => .value g.raw (s.dropAcc c g.id)
      else .wait s
    | none =>
      let id := s.serial
      let n := mget 1 s.dom.nextPseq m
      let s1 := { s with serial := id + 1 }.domainSend m 1 0 0 0 scope s.me.ctx 8 0 a 0 0 [] c id
      .wait ((s1.pushAcc c
        { id := id, kind := 3, dst := none, raw := 0, nb := 8, sx := 0, va := va, pa := pa, at_ := s.cyc, ctx := s.me.ctx,
          err := none, origin := s.mySeq.index, want := [(m, n, 0, 8)], todo := none, issue := s.t, cached := false, late := [] }).modMs c (fun m =>
        { m with hold := some (.response id none) }))

/-- K raises an error response of its read at once (R278): logged, and a pending error. -/
def State.readError (s : State) (va : Word) (pa cause kind : Nat) : Act :=
  let c := s.cur.core
  let s1 := s.modMs c (fun m => { m with gacc := m.gacc.filter (fun g => decide (g.kind ≠ 3)) })
  let s2 := match s.paKind pa with
    | .window _ _ => if cause = 0xA0 ∨ cause = 0xA1 then s1.logError (dieOf c) (s1.errEnt c pa va s.me.ctx cause 0) else s1
    | _ => (s1.linkMet c pa cause).logError (errDie c pa cause) (s1.errEnt c pa va s.me.ctx cause 0)
  .pend s2 { cause := cause, engine := 0, uidx := 0, status := impStatus kind s.mySeq.index, addr := va,
             cmd := s.mySeq.index, packet := false, seq := 0 }

/-- The effect of `sacq.m` (R278). -/
def actSacqM (f : MgtF) (s : State) : Act :=
  let va := s.rd f.a
  if f.pa ≠ 0 then s.opTrap 0xB
  else if va.toNat % 8 ≠ 0 then memTrap 0x40 va.toNat (memStatus 0 0 1 0 0)
  else if s.me.timed then .wait s 0xA 0 0
  else
    s.kAccess 2 va 8 (fun s ps =>
      match s.homeRead va ((ps.map (fun p => p.pa)).headD 0) (scopeOf f) with
      | .wait s' => .wait s' 0xA 0 0
      | .error cause pa => s.readError va pa cause 0
      | .value v s' =>
        if v < (s.rd f.b).toNat then .wait s' 5 0 0
        else if s.ordered s.cur.core = false then .wait s' 0xA 0 0
        else if scopeOf f = 4 then .done (s'.semAcquire 4)
        else .done (s'.acquire s.cur.core (scopeOf f)))

/-- SACQ_M (R278). -/
def execSacqM (f : MgtF) (s : State) : Host.Outcome State Fault Refusal := issue s [f.a, f.b] (actSacqM f)

/-- The effect of `srel` (R278): the release, and the increment once it completes. -/
def actSrel (f : MgtF) (s : State) : Act :=
  let c := s.cur.core
  let l := (s.releaseNext c (scopeOf f)).later 1
  .done (l.2.modMs c (fun m =>
    { m with semAdds := m.semAdds ++ [{ sem := f.idx.toNat, n := f.n.toNat, at_ := l.1, wide := scopeOf f == 4, ser := s.serial }] }))

/-- SREL (R278). -/
def execSrel (f : MgtF) (s : State) : Host.Outcome State Fault Refusal := issue s [] (actSrel f)

/-- SREL_M (R278): an `aadd.rel.d` of B at A. -/
def execSrelM (f : MgtF) (s : State) : Host.Outcome State Fault Refusal :=
  issue s [f.a, f.b] (fun s =>
    if f.pa ≠ 0 then s.opTrap 0xB
    else actAtomicAt (s.rd f.a) 8 0x54 0 0 (s.rd f.b) 0 none (scopeOf f) (some (scopeOf f)) none s)

/-! ## Invalidation of translations (R258, R259) -/

/-- Translations without those of a context that map an address, or without all of the context's. -/
def dropTlb (l : List TlbEnt) (ctx : Nat) (va : Option Word) : List TlbEnt :=
  l.filter (fun e => !(match va with
    | some v => e.covers ctx v
    | none => decide (e.ctx = ctx)))

/-- A walk in progress for K's access does not fill the TLB of a core that runs the context: the access translates again (R259). -/
def Hold.unwalked (h : Hold) (cyc : Nat) : Hold :=
  match h with
  | .walk _ _ _ _ _ false none => .pause (cyc + 1)
  | x => x

/-- K's access is being translated. -/
def MemSide.translating (m : MemSide) : Bool :=
  match m.hold with
  | some (.walk _ _ _ _ _ false none) => true
  | some (.pause _) => true
  | _ => false

/-- A core's memory side with translations of a context dropped; the access that is being translated counts as translated with one of them (R259). -/
def Core.dropped (co : Core) (cyc ctx : Nat) (va : Option Word) : Core :=
  let mine : Bool := co.bound && decide (co.ctx = ctx)
  let mark : Bool := mine && co.ms.translating && decide (co.staleAcc = 0)
  let ms := { co.ms with tlb := dropTlb co.ms.tlb ctx va, hold := if mine then co.ms.hold.map (fun h => h.unwalked cyc) else co.ms.hold,
                         stale := if mark then some (cyc + 1, co.im.k.last, co.im.k.pc) else co.ms.stale }
  { co with ms := ms }

/-- A die's front ends of a context, which translate their descriptors again before they read widx (R258, R445). -/
def Die.stale (d : Die) (ctx : Nat) : Die :=
  { d with fronts := d.fronts.map (fun p =>
      if (mget { v := false, desc := 0, ctx := 0, saved := false, prog := 0 } d.qtab p.1).ctx = ctx then (p.1, { p.2 with fresh := false }) else p) }

/-- Every translator of the module drops them, and no walk in progress fills one (R259). -/
def State.invalidate (s : State) (ctx : Nat) (va : Option Word) : State :=
  { s with cores := s.cores.map (fun p => (p.1, p.2.dropped s.cyc ctx va)),
           dies := s.dies.map (fun p => (p.1, p.2.stale ctx)),
           stlb := s.stlb.map (fun p => (p.1, dropTlb p.2 ctx va)),
           pfetch := s.pfetch.filter (fun p => decide (p.2.1 ≠ ctx)) }

/-- An access of K has not been performed at its home: a store that has not been taken, an atomic that waits, or a read whose bytes are still to come. -/
def GAcc.outstanding (g : GAcc) : Bool := decide (g.kind = 1) || g.unperformed || !g.want.isEmpty || !g.late.isEmpty

/-- The accesses of a context that have been translated and not yet performed (R259), each by a name: of K (0), writes and dispatched commands of packets
(1), requests to other modules (2), fills of hot rows (3), at-bank commands (4), emissions (5), and of K one that a `tlbinv` met while it was being
translated (6). DEDUCED (log 15). -/
def State.translated (s : State) (ctx : Nat) : List (Nat × Nat × Nat × Nat) :=
  s.cores.flatMap (fun p =>
    let gs := p.2.ms.gacc.filter (fun g => decide (g.ctx = ctx) && g.outstanding)
    gs.map (fun g => (0, p.1, g.id, 0)) ++ (gs.filter (fun g => decide (g.old ≠ 0))).map (fun g => (6, p.1, g.old, 0)) ++
      (if p.2.bound && decide (p.2.ctx = ctx) && decide (p.2.stops.stop = .run) && decide (p.2.staleAcc ≠ 0) then [(6, p.1, p.2.staleAcc, 0)] else [])) ++
    (s.works.filter (fun p => decide (p.2.ctx = ctx) && (decide (p.2.stage = .dispatched) || (decide (p.2.stage = .performed) && !p.2.out.isEmpty)))).map
      (fun p => (1, p.1, 0, 0)) ++
    (s.dom.reqs.filter (fun r => !r.skip && decide (fld r.hdr.toNat 70 10 = ctx))).map (fun r => (2, r.target, r.pseq, 0)) ++
    (s.fills.filter (fun f => decide (f.ctx = ctx))).map (fun f => (3, f.tid, f.row, f.home)) ++
    s.arrays.flatMap (fun p => (p.2.queue.filter (fun x => decide (x.ctx = ctx) && !x.wrec.isEmpty)).map (fun x => (4, p.1, x.issue, x.cmdIdx))) ++
    (s.jrnl.emissions.filter (fun e => decide (e.ctx = ctx))).map (fun e => (5, e.core, e.origin, e.pa))

/-- One of these accesses has still not been performed. -/
def State.olderAccess (s : State) (ctx : Nat) (olds : List (Nat × Nat × Nat × Nat)) : Bool :=
  (s.translated ctx).any (fun x => olds.contains x)

/-- The effect of `tlbinv` (R259): its latency is a free value within the 4,096 cycles of the rule. DEDUCED (log 15). -/
def actTlbinv (va : Option Word) (s : State) : Act :=
  if 8 ≤ s.me.ms.tlbi.length then .wait s 0xA 0 0
  else
    let l := (s.invalidate s.me.ctx va).later 1
    .done (l.2.modMs s.cur.core (fun m =>
      { m with tlbi := m.tlbi ++ [{ at_ := s.cyc + 1 + (l.1 - (s.cyc + 1)) % 4095, olds := l.2.translated s.me.ctx, va := va, ctx := s.me.ctx }] }))

/-- TLBINV (R259). -/
def execTlbinv (f : MgtF) (s : State) : Host.Outcome State Fault Refusal := issue s [f.a] (fun s => actTlbinv (some (s.rd f.a)) s)

/-- TLBINV_ALL (R259). -/
def execTlbinvAll (_f : MgtF) (s : State) : Host.Outcome State Fault Refusal := issue s [] (actTlbinv none)

/-- TLBINV_COMPLETE (R259): a `tlbinv` of the core completes. -/
def execTlbinvComplete (c : Nat) (s : State) : Host.Outcome State Fault Refusal :=
  coreEvent "TLBINV_COMPLETE" c
    (match (s.core c).ms.tlbi.find? (fun t => decide (t.at_ ≤ s.cyc) && !s.olderAccess t.ctx t.olds) with
     | some t => some (s.modMs c (fun m => { m with tlbi := m.tlbi.erase t }))
     | none => none)

/-- TLBSYNC (R259). -/
def execTlbsync (_f : MgtF) (s : State) : Host.Outcome State Fault Refusal :=
  issue s [] (fun s => if s.me.timed ∨ s.me.ms.tlbi ≠ [] then .wait s 0xA 0 0 else .done s)

/-! ## Triggers (R114) -/

/-- A unit of a launch changed. -/
def State.modUnit (s : State) (id u : Nat) (f : LUnit → LUnit) : State :=
  { s with launches := s.launches.map (fun l =>
      if l.id = id then { l with units := (l.units.zip (upTo 0 l.units.length)).map (fun x => if x.2 = u then f x.1 else x.1) }
      else l) }

/-- The effect of `ltrig` (R114, R244): with a trigger in use, a module-scope release, at whose completion the unit counts as
triggered; a second one in a unit does nothing. -/
def actLtrig (s : State) : Act :=
  match s.me.im.seg, s.launchOf s.cur.core with
  | some g, some l =>
    match l.units[g.unit]? with
    | some u =>
      if l.tren && u.triggered.isNone then
        let x := (s.releaseNext s.cur.core 3).later 0
        .done (x.2.modUnit l.id g.unit (fun u => { u with triggered := some x.1 }))
      else .done s
    | none => .done s
  | _, _ => .done s

/-- LTRIG (R114). -/
def execLtrig (_f : MgtF) (s : State) : Host.Outcome State Fault Refusal := issue s [] actLtrig

end Sys2Proof.Machine
end

