-- ==== Sys2Proof/Machine/Flags.lean ====
section
/-! DEFINITION. The integer results and the predicate they set: overflow and saturation (R50), compare conditions
(R54), shifts (R51). -/
namespace Sys2Proof.Machine

/-- The result and overflow of an exact signed sum x and unsigned sum u under var: wrap, signed saturation or unsigned
saturation (R50). -/
def saturate (var : BitVec 4) (x u : Int) : Word × Bool :=
  let sov := decide (x < -(2 ^ 63 : Nat)) || decide ((2 ^ 63 : Nat) - 1 < x)
  let uov := decide (u < 0) || decide ((2 ^ 64 : Nat) - 1 < u)
  if var = 0 then (BitVec.ofInt 64 u, sov)
  else if var = 1 then
    if (2 ^ 63 : Nat) - 1 < x then (BitVec.ofNat 64 (2 ^ 63 - 1), sov)
    else if x < -(2 ^ 63 : Nat) then (BitVec.ofNat 64 (2 ^ 63), sov)
    else (BitVec.ofInt 64 x, sov)
  else if (2 ^ 64 : Nat) - 1 < u then (BitVec.ofNat 64 (2 ^ 64 - 1), uov)
  else if u < 0 then (0, uov)
  else (BitVec.ofInt 64 u, uov)

/-- `add` (R50): the sum and its overflow. -/
def addFlags (var : BitVec 4) (a b : Word) : Word × Bool :=
  saturate var (a.toInt + b.toInt) ((a.toNat : Int) + b.toNat)

/-- `sub` (R50): the difference and its overflow. -/
def subFlags (var : BitVec 4) (a b : Word) : Word × Bool :=
  saturate var (a.toInt - b.toInt) ((a.toNat : Int) - b.toNat)

/-- A compare condition (Table 3-3). -/
def condHolds (var : BitVec 4) (a b : Word) : Bool :=
  match var.toNat with
  | 0 => decide (a = b)
  | 1 => decide (a ≠ b)
  | 2 => decide (a.toInt < b.toInt)
  | 3 => decide (a.toInt ≤ b.toInt)
  | 4 => decide (b.toInt < a.toInt)
  | 5 => decide (b.toInt ≤ a.toInt)
  | 6 => decide (a.toNat < b.toNat)
  | 7 => decide (a.toNat ≤ b.toNat)
  | 8 => decide (b.toNat < a.toNat)
  | _ => decide (b.toNat ≤ a.toNat)

/-- `shl` by the whole second operand (R50, R51). -/
def shlWord (a b : Word) : Word := if b.toNat < 64 then a <<< b.toNat else 0

/-- `shr` (R50, R51). -/
def shrWord (a b : Word) : Word := if b.toNat < 64 then a >>> b.toNat else 0

/-- `sra`: counts of 64 and above give 64 copies of the sign (R50, R51). -/
def sraWord (a b : Word) : Word := if b.toNat < 64 then a.sshiftRight b.toNat else if a.toInt < 0 then BitVec.allOnes 64 else 0

/-- `mulhs`: the high half of the exact signed product (R50). -/
def mulhsWord (a b : Word) : Word := BitVec.ofInt 64 (a.toInt * b.toInt / (2 ^ 64 : Nat))

/-- `mulhu`: the high half of the exact unsigned product (R50). -/
def mulhuWord (a b : Word) : Word := BitVec.ofNat 64 (a.toNat * b.toNat / 2 ^ 64)

/-- `min` (R50): signed, or unsigned with var 1. -/
def minWord (var : BitVec 4) (a b : Word) : Word :=
  if var = 0 then (if a.toInt ≤ b.toInt then a else b) else (if a.toNat ≤ b.toNat then a else b)

/-- `max` (R50): signed, or unsigned with var 1. -/
def maxWord (var : BitVec 4) (a b : Word) : Word :=
  if var = 0 then (if b.toInt ≤ a.toInt then a else b) else (if b.toNat ≤ a.toNat then a else b)

/-! ## Sorrel and CRC-32C (R72, R74) -/

/-- z of R72 from key and counter. -/
def sorrel (key ctr : Word) : Word :=
  let z := ctr + key * 0xA24BAED4963EE407
  let z := (z ^^^ (z >>> 32)) * 0xB7E151628AED2A6B
  let z := (z ^^^ (z >>> 29)) * 0xE7037ED1A0B428DB
  z ^^^ (z >>> 32)

/-- One bit of the CRC-32C division (R74). -/
def crcBit (c : Half) : Half := if c.getLsbD 0 then (c >>> 1) ^^^ 0x82F63B78 else c >>> 1

/-- One byte of CRC-32C (R74). -/
def crcByte (c : Half) (y : Byte) : Half :=
  let c := c ^^^ y.setWidth 32
  crcBit (crcBit (crcBit (crcBit (crcBit (crcBit (crcBit (crcBit c)))))))

/-- CRC-32C over bytes, lowest first, with no initial value and no inversion (R74). -/
def crcBytes (c : Half) (bs : List Byte) : Half := bs.foldl crcByte c

end Sys2Proof.Machine
end

