-- ==== Sys2Proof/Machine/VecVal.lean ====
section
/-! DEFINITION. Vectors as elements, and what each vector instruction computes from its operands (R137, R156 to R168). -/
namespace Sys2Proof.Machine

/-- A vector result with the flags it raises. -/
abbrev VRes := Vec × Flags

/-- The elements of width w of a vector (R137). -/
def lanes (w : Nat) (v : Vec) : List Nat := (upTo 0 (2048 / w)).map (fun i => fld v.toNat (w * i) w)

/-- The number whose digits of w bits these are, lowest first. -/
def packN (w : Nat) : List Nat → Nat
  | [] => 0
  | x :: r => x % 2 ^ w + 2 ^ w * packN w r

/-- The vector with these elements (R124). -/
def ofLanes (w : Nat) (l : List Nat) : Vec := BitVec.ofNat 2048 (packN w l)

/-- A vector whose every element of width w is x. -/
def splat (w x : Nat) : Vec := ofLanes w (List.replicate (2048 / w) x)

/-- The width of an element type (Table 7-1). -/
def typeWidth (t : BitVec 4) : Nat :=
  match t.toNat with
  | 0 => 32
  | 1 => 16
  | 2 => 16
  | 3 => 8
  | 4 => 8
  | 5 => 32
  | 9 => 32
  | _ => 8

/-- The format of a floating element type (Table 2-8). -/
def typeFmt (t : BitVec 4) : Option FFmt :=
  match t.toNat with
  | 0 => some fp32
  | 1 => some bf16
  | 2 => some fp16
  | 3 => some e4m3
  | 4 => some e5m2
  | _ => none

/-- A vector of results of an elementwise operation, with the flags of all (R155). -/
def collect (w : Nat) (rs : List (Nat × Flags)) : VRes :=
  (ofLanes w (rs.map (fun r => r.1)), rs.foldl (fun a r => a ||| r.2) 0)

/-- Elementwise over one operand. -/
def map1 (w : Nat) (f : Nat → Nat × Flags) (a : Vec) : VRes := collect w ((lanes w a).map f)

/-- Elementwise over two operands. -/
def map2 (w : Nat) (f : Nat → Nat → Nat × Flags) (a b : Vec) : VRes :=
  collect w (((lanes w a).zip (lanes w b)).map (fun p => f p.1 p.2))

/-- Elementwise over three operands. -/
def map3 (w : Nat) (f : Nat → Nat → Nat → Nat × Flags) (a b c : Vec) : VRes :=
  collect w (((lanes w a).zip ((lanes w b).zip (lanes w c))).map (fun p => f p.1 p.2.1 p.2.2))

/-! ## Arithmetic (R156, R157) -/

/-- An exact value and NV, delivered by one encode. -/
def deliver (f : FFmt) (rnd : Nat) (r : Num × Bool) : Nat × Flags :=
  let q := encode f rnd r.1
  (q.1, q.2 ||| nvIf r.2)

/-- The five arithmetic operations (R156). -/
inductive Arith where
  | add | sub | mul | fma | fms
  deriving DecidableEq, Repr

/-- An arithmetic operation on floating elements (R156). -/
def Arith.float (op : Arith) (f : FFmt) (rnd x y z : Nat) : Nat × Flags :=
  let a := decodeF f x
  let b := decodeF f y
  let c := decodeF f z
  deliver f rnd (match op with
    | .add => addNum rnd a b
    | .sub => addNum rnd a b.neg
    | .mul => prod a b
    | .fma => fmaNum rnd a b c
    | .fms => fmaNum rnd a b c.neg)

/-- An arithmetic operation on integer elements (R156). -/
def Arith.int (op : Arith) (w : Nat) (sat : Bool) (x y z : Nat) : Nat × Flags :=
  let a := sgn w x
  let b := sgn w y
  let c := sgn w z
  let e := match op with
    | .add => a + b
    | .sub => a - b
    | .mul => a * b
    | .fma => a * b + c
    | .fms => a * b - c
  (wrapInt (if sat then satInt e w else e) w, 0)

/-- `vadd`, `vsub`, `vmul`, `vfma`, `vfms` on vectors (R156). -/
def vArith (op : Arith) (f : VecF) (a b c : Vec) : VRes :=
  match typeFmt f.type with
  | some m => map3 (typeWidth f.type) (op.float m f.rnd.toNat) a b c
  | none => map3 (typeWidth f.type) (op.int (typeWidth f.type) (f.var.getLsbD 0)) a b c

/-- The lower or, with `hi`, the higher of two floating elements; `num`: the number form (R157). -/
def pickFloat (m : FFmt) (hi num : Bool) (x y : Nat) : Nat × Flags :=
  let a := decodeF m x
  let b := decodeF m y
  if a = .nan ∧ b = .nan then (m.nan.getD 0, 0)
  else if a = .nan then (if num then y else m.nan.getD 0, 0)
  else if b = .nan then (if num then x else m.nan.getD 0, 0)
  else if belowNum a b then (if hi then y else x, 0)
  else (if hi then x else y, 0)

/-- The lower or higher of two integer elements (R157). -/
def pickInt (w : Nat) (hi uns : Bool) (x y : Nat) : Nat × Flags :=
  let le := if uns then decide (x ≤ y) else decide (sgn w x ≤ sgn w y)
  (if le == hi then y else x, 0)

/-- `vmin`, and with `hi` `vmax` (R157). -/
def vPick (hi : Bool) (f : VecF) (a b : Vec) : VRes :=
  match typeFmt f.type with
  | some m => map2 (typeWidth f.type) (pickFloat m hi (f.var.getLsbD 0)) a b
  | none => map2 (typeWidth f.type) (pickInt (typeWidth f.type) hi (f.var.getLsbD 0)) a b

/-- The sign changed on a floating element: cleared, or inverted (R157). -/
def signFloat (m : FFmt) (flip : Bool) (x : Nat) : Nat × Flags :=
  match decodeF m x with
  | .nan => (m.nan.getD 0, 0)
  | v => (m.signed (flip && !v.isNeg) (x % 2 ^ (m.eb + m.mb)), 0)

/-- The absolute value or negation of an integer element (R157). -/
def signInt (w : Nat) (flip sat : Bool) (x : Nat) : Nat × Flags :=
  let a := sgn w x
  let e := if flip || decide (a < 0) then -a else a
  (wrapInt (if sat then satInt e w else e) w, 0)

/-- `vabs`, and with `flip` `vneg` (R157). -/
def vSign (flip : Bool) (f : VecF) (a : Vec) : VRes :=
  match typeFmt f.type with
  | some m => map1 (typeWidth f.type) (signFloat m flip) a
  | none => map1 (typeWidth f.type) (signInt (typeWidth f.type) flip (f.var.getLsbD 0)) a

/-! ## Conversion (R158) -/

/-- cv (R158): an element of type t2 as type t. -/
def convert (t t2 : BitVec 4) (rnd x : Nat) : Nat × Flags :=
  match typeFmt t, typeFmt t2 with
  | some m, some m2 => encode m rnd (decodeF m2 x)
  | some m, none => encode m rnd (intNum (sgn (typeWidth t2) x))
  | none, some m2 => toInt (decodeF m2 x) (typeWidth t) rnd
  | none, none => (wrapInt (satInt (sgn (typeWidth t2) x) (typeWidth t)) (typeWidth t), 0)

/-- `vcvt` (R158): narrowing into part h of b, or widening from part h of a. -/
def vConvert (f : VecF) (a b : Vec) : VRes :=
  let h := f.var.toNat % 4
  let wd := typeWidth f.type
  let ws := typeWidth f.type2
  let nd := 2048 / wd
  let ns := 2048 / ws
  let cv := convert f.type f.type2 f.rnd.toNat
  let la := lanes ws a
  if ns < nd then
    let old := (lanes wd b).map (fun x => (x, (0 : Flags)))
    collect wd (old.take (h * ns) ++ la.map cv ++ old.drop ((h + 1) * ns))
  else collect wd ((((la.drop (h * nd)).take nd)).map cv)

/-! ## Functions, division, square root (R159, R160) -/

/-- An FP32 function on FP32 or BF16 elements (R159). -/
def vFunc (g : Num → Nat × Flags) (f : VecF) (a : Vec) : VRes :=
  if f.type = 0 then map1 32 (fun x => g (decodeF fp32 x)) a
  else map1 16 (fun x =>
    let r := g (decodeF bf16 x)
    viaBf16 r) a

/-- `vdiv` (R160). -/
def vDivide (f : VecF) (a b : Vec) : VRes :=
  let m := (typeFmt f.type).getD fp32
  map2 (typeWidth f.type) (fun x y => divNum m f.rnd.toNat (decodeF m x) (decodeF m y)) a b

/-- `vsqrt` (R160). -/
def vRoot (f : VecF) (a : Vec) : VRes :=
  let m := (typeFmt f.type).getD fp32
  map1 (typeWidth f.type) (fun x => sqrtNum m f.rnd.toNat (decodeF m x)) a

/-! ## Compare and select (R161, R162) -/

/-- A floating compare condition and NV (Table 7-9). -/
def cmpFloat (cc : Nat) (a b : Num) : Bool × Bool :=
  if a = .nan ∨ b = .nan then
    match cc with
    | 0 => (false, false)
    | 1 => (true, false)
    | 6 => (true, false)
    | 7 => (false, false)
    | _ => (false, true)
  else
    let o := cmpNum a b
    match cc with
    | 0 => (o == .eq, false)
    | 1 => (o != .eq, false)
    | 2 => (o == .lt, false)
    | 3 => (o != .gt, false)
    | 4 => (o == .gt, false)
    | 5 => (o != .lt, false)
    | 6 => (false, false)
    | _ => (true, false)

/-- An integer compare condition (Table 7-9). -/
def cmpInt (cc : Nat) (a b : Int) : Bool :=
  match cc with
  | 0 => decide (a = b)
  | 1 => decide (a ≠ b)
  | 2 => decide (a < b)
  | 3 => decide (a ≤ b)
  | 4 => decide (b < a)
  | _ => decide (b ≤ a)

/-- The outcome of `vcmp` on two elements, and NV. -/
def cmpElem (f : VecF) (x y : Nat) : Bool × Bool :=
  let cc := f.imm.toNat % 16
  match typeFmt f.type with
  | some m => cmpFloat cc (decodeF m x) (decodeF m y)
  | none =>
    let w := typeWidth f.type
    if f.imm.getLsbD 4 then (cmpInt cc x y, false) else (cmpInt cc (sgn w x) (sgn w y), false)

/-- `vcmp` (R161): masks with flags, and the outcomes. -/
def vCompare (f : VecF) (a b : Vec) : VRes × List Bool :=
  let w := typeWidth f.type
  let rs := ((lanes w a).zip (lanes w b)).map (fun p => cmpElem f p.1 p.2)
  (collect w (rs.map (fun r => (if r.1 then 2 ^ w - 1 else 0, nvIf r.2))), rs.map (fun r => r.1))

/-- `vsel` (R162). -/
def vSelect (f : VecF) (a b c : Vec) : VRes :=
  map3 (typeWidth f.type) (fun x y z => (if z ≠ 0 then x else y, 0)) a b c

/-! ## Reductions and top-k (R163, R164) -/

/-- The exact sum of floating values under rnd, and NV (R163). A NaN decides before infinities of both signs do, and raises no NV (R118). DESIGN CHOICE (log 67). -/
def sumNum (rnd : Nat) (xs : List Num) : Num × Bool :=
  match groupSpecial xs with
  | some r => r
  | none =>
    if xs.all (fun x => x == .zero true) then (.zero true, false)
    else if xs.all (fun x => x == .zero false) then (.zero false, false)
    else
      let q := xs.foldl (fun q x =>
        match x with
        | .fin _ _ e => min q e
        | _ => q) 0
      (numOf (xs.foldl (fun n x => n + x.scaled q) 0) q (rnd == 2), false)

/-- A fold over a list that is not empty. -/
def fold1 (g : Nat → Nat → Nat) : List Nat → Nat
  | [] => 0
  | x :: r => r.foldl g x

/-- `vred` (R163). -/
def vReduce (f : VecF) (a : Vec) : VRes :=
  let w := typeWidth f.type
  let m := if f.imm = 0 then 2048 / w else f.imm.toNat
  let xs := (lanes w a).take m
  let op := f.var.toNat % 4
  let r : Nat × Flags :=
    match typeFmt f.type with
    | some k =>
      if op = 0 then deliver k f.rnd.toNat (sumNum f.rnd.toNat (xs.map (decodeF k)))
      else
        let z := fold1 (fun x y => (pickFloat k (op == 1) false x y).1) xs
        (if decodeF k z = .nan then k.nan.getD 0 else z, 0)
    | none =>
      if op = 0 then (wrapInt (xs.foldl (fun n x => n + sgn w x) (0 : Int)) w, 0)
      else (fold1 (fun x y => (pickInt w (op == 1) false x y).1) xs, 0)
  (splat w r.1, r.2)

/-- x ranks strictly before y in `vtopk` (R164). -/
def ranksBefore (t : BitVec 4) (asc : Bool) (x y : Nat) : Bool :=
  if t = 0 then
    let a := decodeF fp32 x
    let b := decodeF fp32 y
    if a = .nan then false else if b = .nan then true else if asc then belowNum a b else belowNum b a
  else if asc then decide (sgn 32 x < sgn 32 y) else decide (sgn 32 y < sgn 32 x)

/-- `vtopk` (R164). -/
def vTop (f : VecF) (a : Vec) : VRes :=
  let xs := (lanes 32 a).zip (upTo 0 64)
  let ranked := sortBy (fun p q => !ranksBefore f.type (f.var.getLsbD 0) q.1 p.1) xs
  let k := f.imm.toNat
  (ofLanes 32 ((ranked.take k).map (fun p => p.2) ++ List.replicate (64 - k) 0xFFFFFFFF), 0)

/-! ## Bytes, bits and mixing (R165 to R167) -/

/-- The code of a segment of `vbscmp` (R165), from byte j on. -/
def segCode : Nat → List Nat → List Nat → Int
  | j, x :: r, y :: q => if x < y then -((j + 1 : Nat) : Int) else if y < x then ((j + 1 : Nat) : Int) else segCode (j + 1) r q
  | _, _, _ => 0

/-- `vbscmp` (R165): codes in each lane, and the segments' equality. -/
def vBytes (f : VecF) (a b : Vec) : VRes × List Bool :=
  let n := 2 ^ f.imm.toNat
  let cs := ((pieces n (lanes 8 a)).zip (pieces n (lanes 8 b))).map (fun p => segCode 0 p.1 p.2)
  ((ofLanes 32 (cs.flatMap (fun c => List.replicate (n / 4) (wrapN 32 c))), 0), cs.map (fun c => decide (c = 0)))

/-- `vcrc` (R166). -/
def vCheck (f : VecF) (a b : Vec) : VRes :=
  map2 32 (fun x y => ((crcBytes (BitVec.ofNat 32 x) (leBytes (2 ^ (f.var.toNat % 4)) y)).toNat, 0)) a b

/-- `vmix` (R166). -/
def vMixer (a b : Vec) : VRes := map2 64 (fun x y => ((sorrel (BitVec.ofNat 64 y) (BitVec.ofNat 64 x)).toNat, 0)) a b

/-- `vmix.h` (R166). -/
def vMixerHigh (a b : Vec) : VRes :=
  collect 32 (((lanes 32 a).zip ((lanes 64 b).flatMap (fun k => [k, k]))).map (fun p =>
    ((sorrel (BitVec.ofNat 64 p.2) (BitVec.ofNat 64 p.1)).toNat / 2 ^ 32, 0)))

/-- An element shifted: left, right logically or right arithmetically (R167). -/
def shiftElem (w op x n : Nat) : Nat :=
  if op = 0 then (if n < w then x * 2 ^ n % 2 ^ w else 0)
  else if op = 1 then (if n < w then x / 2 ^ n else 0)
  else wrapInt (sgn w x / (2 ^ Nat.min n w : Nat)) w

/-- `vshl`, `vshr`, `vsra` for op 0, 1, 2 (R167). -/
def vShift (op : Nat) (f : VecF) (a b : Vec) : VRes :=
  map2 (typeWidth f.type) (fun x n => (shiftElem (typeWidth f.type) op x n, 0)) a b

/-! ## Moves (R168) -/

/-- `vperm` (R168). -/
def vPermute (f : VecF) (a b : Vec) : VRes :=
  let w := typeWidth f.type
  let xs := lanes w a
  map1 w (fun i => (xs.getD i 0, 0)) b

/-- `vperm2` (R168). -/
def vPermute2 (a b c : Vec) : VRes :=
  let xs := lanes 32 a ++ lanes 32 c
  map1 32 (fun i => (xs.getD i 0, 0)) b

/-- `vbcast` (R168). -/
def vBroadcast (f : VecF) (a : Vec) : VRes :=
  let w := typeWidth f.type
  (splat w ((lanes w a).getD f.imm.toNat 0), 0)

end Sys2Proof.Machine
end

