-- ==== Sys2Proof/Machine/Vector.lean ====
section
/-! DEFINITION. Vector instructions, address generators and ports (R138 to R168). -/
namespace Sys2Proof.Machine

/-! ## Operand codes and clusters (R142 to R144) -/

/-- The clusters an instruction operates on (R142): false X, true Y. -/
def vecClusters (f : VecF) : List Bool :=
  match f.var.toNat / 4 with
  | 0 => [false]
  | 1 => [true]
  | _ => [false, true]

/-- The instruction is dual. -/
def vecDual (f : VecF) : Bool := f.var.toNat / 4 == 2

/-- A source code that names a cluster's register or queue entry is of the cluster the selection allows (Table 7-6). -/
def sourceOk (sel c : Nat) : Bool :=
  if c < 0x20 then decide (sel ≠ 1)
  else if c < 0x40 then decide (sel = 1)
  else if c < 0x50 then decide (sel ≠ 1)
  else if c < 0x60 then decide (sel = 1)
  else true

/-- A destination code is allowed by the cluster selection (Table 7-6). -/
def destOk (sel c : Nat) : Bool := if c < 0x20 then decide (sel ≠ 1) else if c < 0x40 then decide (sel = 1) else true

/-- The physical register of a named vector register (R139): code 0 to 31 of a cluster. -/
def VecSt.phys (v : VecSt) (y : Bool) (n : Nat) : Nat :=
  (if n < 16 then n else 16 + (n - 16 + v.rrb.toNat) % 16) + (if y then 32 else 0)

/-- The read port a source code names. -/
def srcPort (c : Nat) : Option Nat := if 0x60 ≤ c ∧ c ≤ 0x65 then some (c - 0x60) else none

/-- The vectors a list of source codes pops from a port (R151). -/
def popCount (cs : List Nat) (p k : Nat) : Nat := k * (cs.filter (fun c => srcPort c == some p)).length

/-- The value of the i-th source of a cluster, of elements of width w: `cs` are the source codes in field order, and each
takes k vectors of its port, X's first (R144, R151). -/
def Image.vecSource (im : Image) (y : Bool) (cs : List Nat) (k i w : Nat) : Vec :=
  let c := cs.getD i 0
  let v := im.vec
  if c < 0x40 then mget 0 v.regs (v.phys y (c % 32))
  else if c < 0x60 then (if y then v.yq else v.xq).getD (c % 16) 0
  else
    match srcPort c with
    | some p => (mget [] v.ports p).getD (popCount (cs.take i) p k + (if k = 2 ∧ y then 1 else 0)) 0
    | none => splat w (im.c.regs.toList.getD (c - 0x68) 0).toNat

/-- A port that has too few vectors for the pops of a group (R151). -/
def VecSt.shortPort (v : VecSt) (cs : List Nat) (k : Nat) : Option Nat :=
  firstSome (fun c =>
    match srcPort c with
    | some p => if (mget [] v.ports p).length < popCount cs p k then some p else none
    | none => none) cs

/-- The write port a destination code names. -/
def destPort (d : Nat) : Option Nat := if d = 0x66 then some 6 else if d = 0x67 then some 7 else none

/-- The results in flight to a write port. -/
def Image.portPending (im : Image) (p : Nat) : Nat :=
  (im.flight.filter (fun x =>
    match x.fx with
    | .vec _ _ (some q) _ _ _ => decide (q = p)
    | .port q _ => decide (q = p)
    | _ => false)).length

/-- The write port of a destination has no room for k more results (R152). -/
def Image.fullPort (im : Image) (d k : Nat) : Option Nat :=
  match destPort d with
  | some p => if 16 < (mget [] im.vec.ports p).length + im.portPending p + k then some p else none
  | none => none

/-- A flaw after n vectors have left a port. -/
def VecFlaw.popped (p n : Nat) (b : VecFlaw) : Option VecFlaw :=
  match b with
  | .port p' i => if p' ≠ p then some b else if n ≤ i then some (.port p' (i - n)) else none
  | _ => some b

/-- Vector state after the pops of a group. -/
def VecSt.popAll (v : VecSt) (cs : List Nat) (k : Nat) : VecSt :=
  { v with ports := v.ports.map (fun p => (p.1, p.2.drop (popCount cs p.1 k))),
           bad := (upTo 0 6).foldl (fun l p => l.filterMap (VecFlaw.popped p (popCount cs p k))) v.bad }

/-- A source that a group reads in these clusters holds an uncorrectable error (R348): a vector, or an l register. -/
def Image.vecFlawed (im : Image) (ys : List Bool) (cs : List Nat) (k : Nat) : Bool :=
  cs.any (fun c =>
    if c < 0x40 then ys.any (fun y => im.vec.bad.contains (.reg (im.vec.phys y (c % 32))))
    else if c < 0x60 then ys.any (fun y => im.vec.bad.contains (.queue y (c % 16)))
    else
      match srcPort c with
      | some p => (upTo 0 (popCount cs p k)).any (fun i => im.vec.bad.contains (.port p i))
      | none => im.flaws.contains (.reg .c (c - 0x68)))

/-- TF of the clusters a late group of an untimed segment operates on (R141). -/
def State.raiseTF (s : State) (ys : List Bool) : State :=
  if !s.me.timed && decide (s.cur.earliest < s.t) then
    s.modVec s.cur.core (fun v =>
      { v with fsx := if ys.contains false then v.fsx ||| 0x20 else v.fsx,
               fsy := if ys.contains true then v.fsy ||| 0x20 else v.fsy })
  else s

/-- The result of one cluster in flight (R140, R146, R152). -/
def State.vecResult (s : State) (lat d : Nat) (y : Bool) (r : VRes) : State :=
  s.result lat 0 (.vec y (if d < 0x40 then some (s.me.im.vec.phys y (d % 32)) else none) (destPort d) true r.1 r.2)

/-- A vector instruction whose operand codes passed: the port conditions, then the pops and results. `srcs`: its source codes
in field order with their widths; `g` computes one cluster's result from its sources; `p`: what the outcomes of all clusters
make of a predicate. Where a read port lacks vectors and the write port room, the read port is the object. DESIGN CHOICE (log 67). -/
def actVec (f : VecF) (lat : Nat) (srcs : List (Nat × Nat)) (g : List Vec → VRes × List Bool)
    (p : Option (List Bool → Bool)) (s : State) : Act :=
  let ys := vecClusters f
  let k := ys.length
  let cs := srcs.map (fun x => x.1)
  let d := f.d.toNat
  let im := s.me.im
  match im.vec.shortPort cs k with
  | some q => .wait s 4 q 0
  | none =>
    match im.fullPort d k with
    | some q => .wait s 4 q 0
    | none =>
     if im.vecFlawed ys cs k then flawTrap
     else
      let one (y : Bool) : VRes × List Bool :=
        g ((upTo 0 srcs.length).map (fun i => im.vecSource y cs k i (srcs.getD i (0, 32)).2))
      let rs := ys.map (fun y => (y, one y))
      let s1 := (s.raiseTF ys).modVec s.cur.core (fun v => v.popAll cs k)
      let s2 := rs.foldl (fun s r => s.vecResult lat d r.1 r.2.1) s1
      .done (match p with
        | some h => s2.wrPred lat f.p (h (rs.flatMap (fun r => r.2.2)))
        | none => s2)

/-- A vector instruction is issued: not on a fenced core (R355); operand codes are checked against the cluster selection first (R143). -/
def execVec (f : VecF) (lat : Nat) (srcs : List (Nat × Nat)) (g : List Vec → VRes × List Bool)
    (p : Option (List Bool → Bool)) (s : State) : Host.Outcome State Fault Refusal :=
  issue s [] (fun s =>
    let sel := f.var.toNat / 4
    if s.fenced.contains (32 + s.cur.core) then fencedTrap 0 (32 + s.cur.core)
    else if srcs.all (fun x => sourceOk sel x.1) && destOk sel f.d.toNat then actVec f lat srcs g p s
    else s.opTrap 0xB)

/-- One operand. -/
def exec1 (f : VecF) (lat w : Nat) (g : Vec → VRes) (s : State) : Host.Outcome State Fault Refusal :=
  execVec f lat [(f.a.toNat, w)] (fun l => (g (l.getD 0 0), [])) none s

/-- Two operands. -/
def exec2 (f : VecF) (lat w : Nat) (g : Vec → Vec → VRes) (s : State) : Host.Outcome State Fault Refusal :=
  execVec f lat [(f.a.toNat, w), (f.b.toNat, w)] (fun l => (g (l.getD 0 0) (l.getD 1 0), [])) none s

/-- Three operands. -/
def exec3 (f : VecF) (lat w : Nat) (g : Vec → Vec → Vec → VRes) (s : State) : Host.Outcome State Fault Refusal :=
  execVec f lat [(f.a.toNat, w), (f.b.toNat, w), (f.c.toNat, w)] (fun l => (g (l.getD 0 0) (l.getD 1 0) (l.getD 2 0), [])) none s

/-- A latency for floating types, another for integer types (Table 7-8). -/
def latFI (f : VecF) (a b : Nat) : Nat := if (typeFmt f.type).isSome then a else b

/-! ## The instructions (R156 to R168) -/

/-- VADD (R156). -/
def execVadd (f : VecF) (s : State) : Host.Outcome State Fault Refusal :=
  exec2 f (latFI f 4 1) (typeWidth f.type) (fun a b => vArith .add f a b 0) s
/-- VSUB (R156). -/
def execVsub (f : VecF) (s : State) : Host.Outcome State Fault Refusal :=
  exec2 f (latFI f 4 1) (typeWidth f.type) (fun a b => vArith .sub f a b 0) s
/-- VMUL (R156). -/
def execVmul (f : VecF) (s : State) : Host.Outcome State Fault Refusal :=
  exec2 f (latFI f 4 1) (typeWidth f.type) (fun a b => vArith .mul f a b 0) s
/-- VFMA (R156). -/
def execVfma (f : VecF) (s : State) : Host.Outcome State Fault Refusal :=
  exec3 f (latFI f 4 1) (typeWidth f.type) (vArith .fma f) s
/-- VFMS (R156). -/
def execVfms (f : VecF) (s : State) : Host.Outcome State Fault Refusal :=
  exec3 f (latFI f 4 1) (typeWidth f.type) (vArith .fms f) s
/-- VMIN (R157). -/
def execVmin (f : VecF) (s : State) : Host.Outcome State Fault Refusal :=
  exec2 f (latFI f 2 1) (typeWidth f.type) (vPick false f) s
/-- VMAX (R157). -/
def execVmax (f : VecF) (s : State) : Host.Outcome State Fault Refusal :=
  exec2 f (latFI f 2 1) (typeWidth f.type) (vPick true f) s
/-- VABS (R157). -/
def execVabs (f : VecF) (s : State) : Host.Outcome State Fault Refusal := exec1 f 1 (typeWidth f.type) (vSign false f) s
/-- VNEG (R157). -/
def execVneg (f : VecF) (s : State) : Host.Outcome State Fault Refusal := exec1 f 1 (typeWidth f.type) (vSign true f) s

/-- VCVT (R158): b is read in the narrowing form alone. -/
def execVcvt (f : VecF) (s : State) : Host.Outcome State Fault Refusal :=
  let w := typeWidth f.type2
  if typeWidth f.type < w then exec2 f 4 w (vConvert f) s else exec1 f 4 w (fun a => vConvert f a 0) s

/-- VEXP2 (R159). -/
def execVexp2 (f : VecF) (s : State) : Host.Outcome State Fault Refusal := exec1 f 6 (typeWidth f.type) (vFunc exp2Num f) s
/-- VLOG2 (R159). -/
def execVlog2 (f : VecF) (s : State) : Host.Outcome State Fault Refusal := exec1 f 6 (typeWidth f.type) (vFunc log2Num f) s
/-- VRCP (R159). -/
def execVrcp (f : VecF) (s : State) : Host.Outcome State Fault Refusal := exec1 f 6 (typeWidth f.type) (vFunc rcpNum f) s
/-- VRSQRT (R159). -/
def execVrsqrt (f : VecF) (s : State) : Host.Outcome State Fault Refusal := exec1 f 6 (typeWidth f.type) (vFunc rsqrtNum f) s
/-- VDIV (R160). -/
def execVdiv (f : VecF) (s : State) : Host.Outcome State Fault Refusal := exec2 f 14 (typeWidth f.type) (vDivide f) s
/-- VSQRT (R160). -/
def execVsqrt (f : VecF) (s : State) : Host.Outcome State Fault Refusal := exec1 f 14 (typeWidth f.type) (vRoot f) s

/-- VCMP (R161): the predicate is the OR of the outcomes, or with var[0] their AND. -/
def execVcmp (f : VecF) (s : State) : Host.Outcome State Fault Refusal :=
  execVec f 2 [(f.a.toNat, typeWidth f.type), (f.b.toNat, typeWidth f.type)]
    (fun l => vCompare f (l.getD 0 0) (l.getD 1 0))
    (some (fun bs => if f.var.getLsbD 0 then bs.all (fun b => b) else bs.any (fun b => b))) s

/-- VSEL (R162). -/
def execVsel (f : VecF) (s : State) : Host.Outcome State Fault Refusal := exec3 f 1 (typeWidth f.type) (vSelect f) s
/-- VRED (R163). -/
def execVred (f : VecF) (s : State) : Host.Outcome State Fault Refusal := exec1 f 6 (typeWidth f.type) (vReduce f) s
/-- VTOPK (R164). -/
def execVtopk (f : VecF) (s : State) : Host.Outcome State Fault Refusal := exec1 f 10 32 (vTop f) s

/-- VBSCMP (R165): the predicate says all segments equal, or with var[0] some segment equal. -/
def execVbscmp (f : VecF) (s : State) : Host.Outcome State Fault Refusal :=
  execVec f 4 [(f.a.toNat, 8), (f.b.toNat, 8)] (fun l => vBytes f (l.getD 0 0) (l.getD 1 0))
    (some (fun bs => if f.var.getLsbD 0 then bs.any (fun b => b) else bs.all (fun b => b))) s

/-- VCRC (R166). -/
def execVcrc (f : VecF) (s : State) : Host.Outcome State Fault Refusal := exec2 f 4 32 (vCheck f) s
/-- VMIX (R166): 64-bit pairs. -/
def execVmix (f : VecF) (s : State) : Host.Outcome State Fault Refusal := exec2 f 6 64 vMixer s

/-- VMIX_H (R166): lanes of a, 64-bit pairs of b; an l-broadcast gives every lane of a its low 32 bits. DESIGN CHOICE (log 67). -/
def execVmixH (f : VecF) (s : State) : Host.Outcome State Fault Refusal :=
  execVec f 6 [(f.a.toNat, 32), (f.b.toNat, 64)] (fun l => (vMixerHigh (l.getD 0 0) (l.getD 1 0), [])) none s

/-- VPERM (R168). -/
def execVperm (f : VecF) (s : State) : Host.Outcome State Fault Refusal := exec2 f 2 (typeWidth f.type) (vPermute f) s
/-- VPERM2 (R168). -/
def execVperm2 (f : VecF) (s : State) : Host.Outcome State Fault Refusal := exec3 f 2 32 vPermute2 s
/-- VBCAST (R168). -/
def execVbcast (f : VecF) (s : State) : Host.Outcome State Fault Refusal := exec1 f 1 (typeWidth f.type) (vBroadcast f) s
/-- VAND (R167). -/
def execVand (f : VecF) (s : State) : Host.Outcome State Fault Refusal := exec2 f 1 32 (fun a b => (a &&& b, 0)) s
/-- VOR (R167). -/
def execVor (f : VecF) (s : State) : Host.Outcome State Fault Refusal := exec2 f 1 32 (fun a b => (a ||| b, 0)) s
/-- VXOR (R167). -/
def execVxor (f : VecF) (s : State) : Host.Outcome State Fault Refusal := exec2 f 1 32 (fun a b => (a ^^^ b, 0)) s
/-- VSHL (R167). -/
def execVshl (f : VecF) (s : State) : Host.Outcome State Fault Refusal := exec2 f 1 (typeWidth f.type) (vShift 0 f) s
/-- VSHR (R167). -/
def execVshr (f : VecF) (s : State) : Host.Outcome State Fault Refusal := exec2 f 1 (typeWidth f.type) (vShift 1 f) s
/-- VSRA (R167). -/
def execVsra (f : VecF) (s : State) : Host.Outcome State Fault Refusal := exec2 f 1 (typeWidth f.type) (vShift 2 f) s
/-- VMOV (R168). -/
def execVmov (f : VecF) (s : State) : Host.Outcome State Fault Refusal := exec1 f 1 32 (fun a => (a, 0)) s

/-- The cluster codes of `vxm` (R168): the destination in its own cluster or none, the source a register or queue entry of the
other. -/
def vxmOk (y : Bool) (d a : Nat) : Bool :=
  if y then (decide (0x20 ≤ d) && decide (d < 0x40) || d == 0x7F) && (decide (a < 0x20) || (decide (0x40 ≤ a) && decide (a < 0x50)))
  else (decide (d < 0x20) || d == 0x7F) && ((decide (0x20 ≤ a) && decide (a < 0x40)) || (decide (0x50 ≤ a) && decide (a < 0x60)))

/-- VXM (R168): the result enters the destination cluster alone. -/
def execVxm (f : VecF) (s : State) : Host.Outcome State Fault Refusal :=
  issue s [] (fun s =>
    let y := f.var.toNat / 4 == 1
    if s.fenced.contains (32 + s.cur.core) then fencedTrap 0 (32 + s.cur.core)
    else if vxmOk y f.d.toNat f.a.toNat then
      if s.me.im.vecFlawed [!y] [f.a.toNat] 1 then flawTrap
      else .done ((s.raiseTF [y]).vecResult 2 f.d.toNat y (s.me.im.vecSource (!y) [f.a.toNat] 1 0 32, 0))
    else s.opTrap 0xB)

/-! ## Address generators (R148 to R150) -/

/-- The generator's current address (R148). -/
def AgSt.address (a : AgSt) : Nat :=
  wrapN 23 (a.base + 4 * ((a.strides.zip a.idx).map (fun p => p.1 * (p.2 : Int))).foldl (fun x y => x + y) 0)

/-- The counters after a step: i0 first, with carries (R148). -/
def stepIdx : List Nat → List Nat → List Nat
  | c :: cs, i :: r => if i + 1 < c then (i + 1) :: r else 0 :: stepIdx cs r
  | _, r => r

/-- A step. -/
def AgSt.advance (a : AgSt) : AgSt := { a with idx := stepIdx a.counts a.idx }

/-- The addresses of n steps and the generator after them. -/
def AgSt.walk (a : AgSt) : Nat → List Nat × AgSt
  | 0 => ([], a)
  | n + 1 =>
    let r := a.advance.walk n
    (a.address :: r.1, r.2)

/-- The generator bound to a port. -/
def VecSt.bound (v : VecSt) (p : Nat) : Option (Nat × AgSt) := v.ags.find? (fun x => decide (x.2.port = some p))

/-- A generator has steps that have not entered its port, or `vst` writes outstanding (R149). -/
def Image.agBusy (im : Image) (g : Nat) : Bool :=
  im.vec.vlds.any (fun x => decide (x.ag = g)) || im.vec.vsts.any (fun x => decide (x.ag = g)) ||
    (match (mget AgSt.init im.vec.ags g).port with
     | some p => decide (p < 6) && decide (im.portPending p ≠ 0)
     | none => false)

/-- The effect of `agset` (R149): due on the next cycle. A zero count is looked at before the wait of a busy generator. DESIGN CHOICE (log 67). -/
def actAgset (f : AgnF) (s : State) : Act :=
  let n := f.lv.toNat + 1
  let field (w : Word) : List Nat := (upTo 0 n).map (fun j => fld w.toNat (16 * j) 16)
  let counts := field (s.rd f.cr)
  let p := f.port.toNat
  let g := f.ag.toNat
  if counts.any (fun c => c == 0) then s.opTrap 0xB
  else if s.me.im.agBusy g || (match s.me.im.vec.bound p with
      | some b => s.me.im.agBusy b.1
      | none => false) then .wait s 4 p 0
  else
    .done (s.result 1 0 (.agset g
      { base := f.base.toNat, levels := n, counts := counts, strides := (field (s.rd f.sr)).map (sgn 16),
        idx := List.replicate n 0, port := some p }))

/-- AGSET (R149). -/
def execAgset (f : AgnF) (s : State) : Host.Outcome State Fault Refusal := issue s [f.cr, f.sr] (actAgset f)

/-- The fault of one generator step (R150, R215, R231): cause, address and status word. `al`: its alignment; `st`: the step
reported. -/
def Core.stepFault (co : Core) (ts al st la : Nat) (rd : Bool) : Option (Nat × Nat × Half) :=
  if la % al ≠ 0 then some (0x40, la, memStatus st 0 0 0 0)
  else
    firstSome (fun p =>
      match co.checkLocal co.ctx ts p.1 p.2 rd with
      | some (cause, slab, _) =>
        some (cause, p.1, memStatus st (if p.1 = la then 0 else 1) 0 ((p.1 - la) / 4) slab)
      | none => none) (splitAt 256 la 256)

/-- The fault of the first of several steps that has one. -/
def Core.walkFault (co : Core) (ts al : Nat) (rd : Bool) (las : List Nat) : Option (Nat × Nat × Half) :=
  firstSome (fun x => co.stepFault ts al (if rd then x.2 else 0) x.1 rd) (las.zip (upTo 0 las.length))

/-- The vectors on their way to a read port: steps and entries (R150). -/
def Image.pending (im : Image) (p : Nat) : Nat := (im.vec.vlds.filter (fun x => decide (x.port = p))).length + im.portPending p

/-- The effect of `vld` and `vld.ub` (R150). DEDUCED (log 20). -/
def actVld (ub : Bool) (f : MovF) (s : State) : Act :=
  let n := f.n.toNat
  let g := f.ag.toNat
  let im := s.me.im
  let a := mget AgSt.init im.vec.ags g
  if n = 0 then .done s
  else
    match a.port with
    | none => s.opTrap 0xB
    | some p =>
      if 5 < p then s.opTrap 0xB
      else if 16 < (mget [] im.vec.ports p).length + im.pending p + n then .wait s 4 p 0
      else
        let w := a.walk n
        match s.me.walkFault s.tstep (if ub then 4 else 256) true w.1 with
        | some (cause, addr, st) => memTrap cause addr st
        | none =>
          let first := Nat.max s.t im.vec.vldNext
          let steps := (w.1.zip (upTo 0 n)).map (fun x =>
            { at_ := first + x.2, ag := g, port := p, la := x.1, ub := ub, enter := first + x.2 + (if ub then 6 else 5),
              issue := s.t })
          .done (s.modVec s.cur.core (fun v =>
            { v with ags := mset v.ags g w.2, vlds := v.vlds ++ steps, vldNext := first + n }))

/-- VLD (R150). -/
def execVld (f : MovF) (s : State) : Host.Outcome State Fault Refusal := issue s [] (actVld false f)

/-- VLD_UB (R150). -/
def execVldUb (f : MovF) (s : State) : Host.Outcome State Fault Refusal := issue s [] (actVld true f)

/-! ## Claims and vst (R153, R179) -/

/-- A counted command of a core, not yet ended, claims a byte of a local range (R179). -/
def State.claimed (s : State) (c la n : Nat) : Bool :=
  (s.arr (arrOf c)).queue.any (fun x => decide (x.core = c) && (opReads x.op).any (fun r => overlap la n r.1 r.2))

/-- The effect of `vst` (R153). DEDUCED (log 20). -/
def actVst (f : StoF) (s : State) : Act :=
  let n := f.n.toNat
  let p := f.port.toNat
  let v := s.me.im.vec
  if n = 0 then .done s
  else if (mget [] v.ports p).length < n then .wait s 4 p 0
  else
    match v.bound p with
    | none => s.opTrap 0xB
    | some (g, a) =>
      let w := a.walk n
      if w.1.any (fun la => s.claimed s.cur.core la 256) then .wait s 6 p 0
      else
        match s.me.walkFault s.tstep 256 false w.1 with
        | some (cause, addr, st) => memTrap cause addr st
        | none =>
          let vs := ((mget [] v.ports p).take n).zip (w.1.zip (upTo 0 n))
          if (upTo 0 n).any (fun i => v.bad.contains (.port p i)) then flawTrap
          else
          .done (s.modVec s.cur.core (fun v =>
            { v with ags := mset v.ags g w.2, ports := mset v.ports p ((mget [] v.ports p).drop n),
                     bad := v.bad.filterMap (VecFlaw.popped p n),
                     vsts := v.vsts ++ vs.map (fun x => { at_ := s.t + 1 + x.2.2, ag := g, la := x.2.1, v := x.1 }) }))

/-- VST (R153). -/
def execVst (f : StoF) (s : State) : Host.Outcome State Fault Refusal := issue s [] (actVst f)

end Sys2Proof.Machine
end

