-- ==== Sys2Proof/Machine/Slabs.lean ====
section
/-! DEFINITION. The scratchpad: its loads and stores (R215, R229 to R231), slab instructions (R218, R219), the renew unit (R220,
R221), the stash window (R222, R223, R245) and the sweeper (R225). -/
namespace Sys2Proof.Machine

/-! ## Local loads and stores (R230) -/

/-- R215 on the parts of a scalar access, once all of them lie in the scratchpad (R230): cause, lowest address of the failing part and status
word. -/
def Core.accessFault (co : Core) (ts a n : Nat) (rd : Bool) : Option (Nat × Nat × Half) :=
  let ps := splitAt 256 a n
  let bad (p : Nat × Nat) (x : Nat × Nat × Nat) : Nat × Nat × Half :=
    (x.1, p.1, memStatus 0 (if p.1 = a then 0 else 1) 0 0 x.2.1)
  match ps.find? (fun p => decide (0x5FFFFF < p.1 + p.2 - 1)) with
  | some p => some (bad p (0x41, p.1 / 2048 % 4096, p.1))
  | none => firstSome (fun p => (co.checkLocal co.ctx ts p.1 p.2 rd).map (bad p)) ps

/-- The effect of a local load (R230): due two cycles later, or three when it splits. -/
def actLdLocal (f : MemF) (s : State) : Act :=
  let a := (s.memAddr f).toNat
  let nb := sizeBytes f.size
  if f.var.getLsbD 0 = false ∧ a % nb ≠ 0 then memTrap 0x40 a (memStatus 0 0 0 0 0)
  else
    match s.me.accessFault s.tstep a nb true with
    | some (cause, addr, st) => memTrap cause addr st
    | none => .done (s.wr (if 1 < (splitAt 256 a nb).length then 3 else 2) f.d (extendLoad nb f.sx (leNat (s.me.bytes a nb))))

/-- LD_LOCAL (R230). -/
def execLdLocal (f : MemF) (s : State) : Host.Outcome State Fault Refusal := issue s [f.base] (actLdLocal f)

/-- The effect of a local store (R230, R179). -/
def actStLocal (f : MemF) (s : State) : Act :=
  let a := (s.memAddr f).toNat
  let nb := sizeBytes f.size
  if f.var.getLsbD 0 = false ∧ a % nb ≠ 0 then memTrap 0x40 a (memStatus 0 0 0 0 0)
  else
    match s.me.accessFault s.tstep a nb false with
    | some (cause, addr, st) => memTrap cause addr st
    | none =>
      if s.claimed s.cur.core a nb then .wait s 6 0 0
      else .done (s.posts s.cur.core (writePosts a (leBytes nb (s.rd f.val).toNat)))

/-- ST_LOCAL (R230). -/
def execStLocal (f : MemF) (s : State) : Host.Outcome State Fault Refusal := issue s [f.base, f.val] (actStLocal f)

/-- ST_LOCAL_S (R229): registers are l0 to l15 of S. -/
def execStLocalS (f : MemF) (s : State) : Host.Outcome State Fault Refusal := issue s [f.base, f.val] (actStLocal f)

/-! ## Slab runs (R218 to R220) -/

/-- The run an instruction names: base and count, by its fields or by a descriptor in register b (R219); none for an illegal
descriptor. -/
def State.slabRun (s : State) (f : MovF) : Option (Nat × Nat) :=
  if f.var = 2 then
    let d := (s.rd f.b).toNat
    if d / 2 ^ 35 = 0 then some (fld d 0 23, fld d 23 12) else none
  else some (f.la.toNat, f.n.toNat)

/-- The alignment and range checks of a run (R218); an empty run has no range. -/
def runFault (base n : Nat) : Option Act :=
  if base % 2048 ≠ 0 then some (memTrap 0x40 base (memStatus 0 0 0 0 0))
  else if n ≠ 0 ∧ 0x5FFFFF < base + n * 2048 - 1 then some (memTrap 0x41 base (memStatus 0 0 0 0 (base / 2048)))
  else none

/-- The first slab of a run, of number `b` and up, that fails a test. -/
def Core.badSlab (co : Core) (b n : Nat) (ok : Slab → Bool) : Option Nat := (upTo b n).find? (fun i => !ok (co.slab i))

/-- A slab the context may free or renew: live or lost, and its own (R219). -/
def Slab.own (b : Slab) (ctx : Nat) : Bool := (decide (b.kind = .live) || decide (b.kind = .lost)) && decide (b.owner = ctx)

/-- A start offset too early (R107). -/
def State.earlyStart (s : State) (start : Nat) : Bool := s.me.timed && decide (start < s.t + 2)

/-- The trap of a start offset too early. -/
def startTrap : Act := .trap (timingTrap 0x25 0 0)

/-- A command of the present L group for one of its core's units. DEDUCED (log 22). -/
def State.command (s : State) (var la : Nat) (a b : Word) (n sem start : Nat) (fill : Bool) : EngCmd :=
  { var := var, la := la, a := a, b := b, n := n, sem := sem, start := start, issue := s.cyc, timed := s.me.timed,
    ctx := s.me.ctx, cmdIdx := s.mySeq.index, begun := none, j := 0, nextAt := 0, fill := fill, idx := [], buf := [],
    written := [], wait := .go,
    seg := s.me.im.segNum,
    launch := (match s.me.im.seg with
      | some g => g.launch
      | none => 0) }

/-- The effect of `salloc` (R218). DEDUCED (log 22). -/
def actSalloc (z : Bool) (f : MovF) (s : State) : Act :=
  let base := f.la.toNat
  let n := f.n.toNat
  match runFault base n with
  | some x => x
  | none =>
    if n = 0 then .done (if z then s.result 2 0 (.sem f.sem.toNat 1) else s)
    else
      match s.me.badSlab (base / 2048) n (fun b => decide (b.kind = .free) || b.own s.me.ctx) with
      | some i => memTrap 0x44 (i * 2048) (memStatus 0 0 0 0 0)
      | none =>
        if z && s.earlyStart f.start.toNat then startTrap
        else
          let s1 := (s.result 1 0 (.slabs 0 (base / 2048) n)).wr 1 f.a (BitVec.ofNat 64 (base + n * 2 ^ 23))
          .done (if z then
              s1.modUnits s.cur.core (fun u =>
                { u with renew := u.renew ++ [s.command 1 (base / 2048) 0 0 n f.sem.toNat f.start.toNat true] })
            else s1)

/-- SALLOC (R218). -/
def execSalloc (f : MovF) (s : State) : Host.Outcome State Fault Refusal := issue s [] (actSalloc false f)

/-- SALLOC_Z (R218). -/
def execSallocZ (f : MovF) (s : State) : Host.Outcome State Fault Refusal := issue s [] (actSalloc true f)

/-- Bytes of one row of a `plane` source (R184). -/
def planeRow (var n : Nat) : Nat := if matMx var then n / 2 * mxSize var else 2 * n * matWidth var

/-- The local ranges a `plane` command addresses (R184, R219). -/
def EngCmd.planeRanges (e : EngCmd) : List (Nat × Nat) :=
  (e.la, e.n * blockSize e.var) :: (upTo 0 256).map (fun i => (e.a.toNat + i * e.b.toNat, planeRow e.var e.n))

/-- An operation of the core still addresses a byte of a run (R219). -/
def State.addressed (s : State) (c base n : Nat) : Bool :=
  let co := s.core c
  let len := n * 2048
  s.claimed c base len || co.im.vec.vlds.any (fun x => overlap base len x.la 256) ||
    co.im.vec.vsts.any (fun x => overlap base len x.la 256) ||
    co.units.plane.any (fun e => e.planeRanges.any (fun r => overlap base len r.1 r.2)) ||
    co.units.renew.any (fun e => overlap base len (e.la * 2048) (e.n * 2048))

/-- The effect of `sfree` (R219). DEDUCED (log 22). -/
def actSfree (f : MovF) (s : State) : Act :=
  match s.slabRun f with
  | none => s.opTrap 0xB
  | some (base, n) =>
    match runFault base n with
    | some x => x
    | none =>
      if n = 0 then .done s
      else
        match s.me.badSlab (base / 2048) n (fun b => b.own s.me.ctx) with
        | some i => memTrap 0x41 (i * 2048) (memStatus 0 0 0 0 i)
        | none =>
          if s.addressed s.cur.core base n then .wait s 6 0 0
          else .done (s.result 1 0 (.slabs 1 (base / 2048) n))

/-- SFREE (R219). -/
def execSfree (f : MovF) (s : State) : Host.Outcome State Fault Refusal := issue s [] (actSfree f)

/-- SFREE_DESC (R219): the run of a descriptor register. -/
def execSfreeDesc (f : MovF) (s : State) : Host.Outcome State Fault Refusal := issue s [f.b] (actSfree f)

/-- The effect of `renew` (R220). -/
def actRenew (f : MovF) (s : State) : Act :=
  match s.slabRun f with
  | none => s.opTrap 0xB
  | some (base, n) =>
    match runFault base n with
    | some x => x
    | none =>
      if n = 0 then .done (s.result 2 0 (.sem f.sem.toNat 1))
      else
        match s.me.badSlab (base / 2048) n (fun b => b.own s.me.ctx) with
        | some i => memTrap 0x41 (i * 2048) (memStatus 0 0 0 0 i)
        | none =>
          if s.earlyStart f.start.toNat then startTrap
          else
            .done (s.modUnits s.cur.core (fun u =>
              { u with renew := u.renew ++ [s.command 0 (base / 2048) 0 0 n f.sem.toNat f.start.toNat false] }))

/-- RENEW (R220). -/
def execRenew (f : MovF) (s : State) : Host.Outcome State Fault Refusal := issue s (if f.var = 2 then [f.b] else []) (actRenew f)

/-! ## Units of a core (R107, R256) -/

/-- The core is in steps 1 and 2 of a switch (R368). -/
def Core.leaving (co : Core) : Bool :=
  match co.walk.phase with
  | .drain _ _ => true
  | _ => false

/-- A release aimed at a semaphore of a context on a core: on the running copy, else on the image (R263, R369). -/
def State.signalSem (s : State) (c ctx k : Nat) : State :=
  let co := s.core c
  if co.bound ∧ co.ctx = ctx ∧ co.leaving = false then s.modIm c (fun im => im.semRelease k 1)
  else { s with relQ := s.relQ ++ [(ctx, c, k)] }

/-- A command may begin on this cycle (R107, R220, R256): a timed one at its start value, counted from the start of its segment also once that has
ended, another two cycles after its issue, and none while the stall wire or a trap holds the core. -/
def Core.begins (co : Core) (e : EngCmd) (cyc : Nat) : Bool :=
  e.begun.isNone &&
    (if e.timed && !e.det then co.counting cyc && decide (e.ctx = co.ctx) && decide (e.start ≤ co.im.sched)
     else decide ((if e.timed then e.start else e.issue + 2) ≤ cyc) && !co.stops.frozen && decide (co.stops.stop = .run))

/-- A timed command, behind one that has not completed, whose start has come (R107, R184, R220): its place in the queue. -/
def Core.lateStart (co : Core) (l : List EngCmd) (cyc : Nat) : Option (Nat × EngCmd) :=
  ((upTo 0 l.length).zip l).find? (fun p => decide (0 < p.1) && p.2.timed && co.begins p.2 cyc)

/-- A fault of a unit's command, raised by L on this cycle (R216, R340). -/
def State.commandFault (s : State) (c : Nat) (e : EngCmd) (engine uidx cause : Nat) (addr : Nat) (st : Half) : State :=
  s.unitFault c e.ctx .l e.seg e.cmdIdx
    { cause := cause, status := st, addr := BitVec.ofNat 64 addr, cls := 0, engine := engine, uidx := uidx }

/-- The fault of a command whose start came too early (R107): it is discarded. -/
def State.lateFault (s : State) (c : Nat) (e : EngCmd) (engine uidx : Nat) : State :=
  s.commandFault c e engine uidx 0x24 0 (timingStatus 0 0xB 0)

/-! ## The renew unit (R220, R221) -/

/-- The cycles a renew-unit command rewrites for. -/
def EngCmd.renewCycles (e : EngCmd) : Nat := 16 * ceilDiv e.n 16

/-- The slabs a renew-unit command rewrites on its cycle x. -/
def EngCmd.renewRow (e : EngCmd) (x : Nat) : List Nat := upTo (e.la + x / 16 * 16) (Nat.min 16 (e.n - x / 16 * 16))

/-- What a renew-unit command writes on its cycle x. -/
def EngCmd.renewPosts (e : EngCmd) (x ts : Nat) : List Post :=
  (e.renewRow x).flatMap (fun k =>
    (if e.fill then [.bytes (k * 2048 + x % 16 * 128) (List.replicate 128 0) true] else []) ++ (if x % 16 = 15 then [.stamp k ts] else []))

/-- The first slab of a `renew` that fails R215. -/
def Core.renewFault (co : Core) (e : EngCmd) (ts : Nat) : Option (Nat × Nat) :=
  firstSome (fun k => (slabFault (co.slab k) e.ctx ts true).map (fun cause => (cause, k))) (upTo e.la e.n)

/-- A core's renew unit takes its next cycle. -/
def State.renewStep (s : State) (c : Nat) : Option State :=
  let co := s.core c
  let set (l : List EngCmd) (s : State) : State := s.modUnits c (fun u => { u with renew := l })
  match co.lateStart co.units.renew s.cyc with
  | some (i, e) => some ((set (co.units.renew.eraseIdx i) s).lateFault c e 3 0)
  | none =>
    match co.units.renew with
    | [] => none
    | e :: r =>
      let go (e : EngCmd) (s : State) : State :=
        set ({ e with j := e.j + 1, nextAt := s.cyc + 1 } :: r) (s.posts c (e.renewPosts e.j s.tstep))
      match e.begun with
      | some _ => if e.nextAt ≤ s.cyc ∧ e.j < e.renewCycles then some (go e s) else none
      | none =>
        if co.begins e s.cyc then
          match (if e.fill then none else co.renewFault e s.tstep) with
          | some (cause, k) => some ((set [] s).commandFault c e 3 0 cause (k * 2048) (memStatus 0 0 0 0 k))
          | none => some (go { e with begun := some s.cyc } s)
        else none

/-- RENEW_UNIT_COMMAND (R220): the renew unit begins a command, or rewrites on. -/
def execRenewUnitCommand (c : Nat) (s : State) : Host.Outcome State Fault Refusal :=
  coreEvent "RENEW_UNIT_COMMAND" c (s.renewStep c)

/-- RENEW_UNIT_COMPLETE (R220): a command completes and releases its semaphore. -/
def execRenewUnitComplete (c : Nat) (s : State) : Host.Outcome State Fault Refusal :=
  coreEvent "RENEW_UNIT_COMPLETE" c
    (match (s.core c).units.renew with
     | e :: r =>
       if e.begun.isSome ∧ e.nextAt ≤ s.cyc ∧ e.renewCycles ≤ e.j then
         some ((s.modUnits c (fun u => { u with renew := r })).signalSem c e.ctx e.sem)
       else none
     | [] => none)

/-! ## The stash window (R222, R223, R245) -/

/-- The effect of `stash` (R222). -/
def actStash (f : MovF) (s : State) : Act :=
  let base := f.la.toNat
  let n := f.n.toNat
  if n = 0 then .done s
  else
    match runFault base n with
    | some x => x
    | none =>
      match firstSome (fun i =>
          let b := s.me.slab i
          if (b.kind ≠ .live ∧ b.kind ≠ .lost) ∨ b.owner ≠ s.me.ctx then some (0x41, i)
          else if b.kind = .lost then some (0x43, i)
          else none) (upTo (base / 2048) n) with
      | some (cause, i) => memTrap cause (i * 2048) (memStatus 0 0 0 0 i)
      | none =>
        if s.me.stash.isSome ∨ s.me.im.flight.any (fun x => match x.fx with
            | .slabs 2 _ _ => true
            | _ => false) then s.opTrap 0xB
        else .done (s.result 1 0 (.slabs 2 (base / 2048) n))

/-- STASH (R222). -/
def execStash (f : MovF) (s : State) : Host.Outcome State Fault Refusal := issue s [] (actStash f)

/-- The effect of `stash.close` (R222): the write-back of what is dirty takes time, and completes later. DEDUCED (log 23). -/
def actStashClose (f : MovF) (s : State) : Act :=
  if s.me.timed then .wait s 0xA 0 0
  else
    match s.me.stash with
    | none => .done (s.result 2 0 (.sem f.sem.toNat 1))
    | some st =>
      match st.closing with
      | some _ => .wait s 0xA 0 0
      | none =>
        let l := s.later 1
        .done (l.2.modCore s.cur.core (fun co => co.setStash { st with closing := some (f.sem.toNat, l.1) }))

/-- STASH_CLOSE (R222). -/
def execStashClose (f : MovF) (s : State) : Host.Outcome State Fault Refusal := issue s [] (actStashClose f)

/-- A core without its stash window: the slabs are live and unborn again (R222). -/
def Core.endStash (co : Core) (st : Stash) : Core :=
  { co with
    windows := mdel co.windows st.ctx,
    slabs := (upTo st.base st.n).foldl (fun m i => mput Slab.init m i { co.slab i with kind := .live, born := false }) co.slabs }

/-- The windows of a core, that of the running context first. -/
def Core.allWindows (co : Core) : List Stash :=
  match co.stash with
  | some st => st :: (co.windows.filter (fun p => p.1 != co.ctx)).map (fun p => p.2)
  | none => co.windows.map (fun p => p.2)

/-- A close of the window that has completed by this cycle, and its semaphore. -/
def Stash.closed (st : Stash) (cyc : Nat) : Option (Stash × Nat) :=
  match st.closing with
  | some (k, t) => if t ≤ cyc then some (st, k) else none
  | none => none

/-- STASH_CLOSE_COMPLETE (R222): the write-back has completed; the slabs return and the semaphore is released. -/
def execStashCloseComplete (c : Nat) (s : State) : Host.Outcome State Fault Refusal :=
  coreEvent "STASH_CLOSE_COMPLETE" c
    ((firstSome (fun st => st.closed s.cyc) (s.core c).allWindows).map (fun x =>
      (s.modCore c (fun co => co.endStash x.1)).signalSem c x.1.ctx x.2))

/-- The entry a fill replaces (R223): an empty one, else the clean one filled longest ago, else the dirty one filled longest ago. DEDUCED (log 23). -/
def Stash.victim (st : Stash) : Nat :=
  match (upTo 0 (8 * st.n)).find? (fun i => (mfind st.ents i).isNone) with
  | some i => i
  | none =>
    let oldest (l : Map StashEnt) : Option (Nat × StashEnt) :=
      l.foldl (fun a p =>
        match a with
        | none => some p
        | some q => if p.2.order < q.2.order then some p else a) none
    match oldest (st.ents.filter (fun p => decide (p.2.dirty = 0))) with
    | some p => p.1
    | none => ((oldest st.ents).map (fun p => p.1)).getD 0

/-- The bytes of a block that pending writes of the context have stored (R245). -/
def MemSide.dirtyBytes (m : MemSide) (ctx va : Nat) : BitVec 256 :=
  m.pend.foldl (fun d w => if w.ctx = ctx ∧ blockOf w.va = va then d ||| BitVec.ofNat 256 (2 ^ (w.va.toNat % 256)) else d) 0

/-- The window after a fill of a block, with the bytes stored since it was missed dirty. -/
def Stash.fill (st : Stash) (va ts : Nat) (dirty : BitVec 256) : Stash :=
  { st with ents := mset st.ents st.victim { va := va, ts := ts, order := st.order, dirty := dirty }, order := st.order + 1,
            missing := st.missing.erase va }

/-- STASH_MISS_FILL (R223): a block that was missed is filled. -/
def execStashMissFill (c : Nat) (s : State) : Host.Outcome State Fault Refusal :=
  coreEvent "STASH_MISS_FILL" c
    ((firstSome (fun st => st.missing.head?.map (fun va => (st, va))) (s.core c).allWindows).map (fun x =>
      s.modCore c (fun co => co.setStash (x.1.fill x.2 s.tstep (co.ms.dirtyBytes x.1.ctx x.2)))))

/-- The number of an entry of a context's window, which has at most 8,192 of them (R222). -/
def entryKey (ctx i : Nat) : Nat := 8192 * ctx + i

/-- The window and entry of this number. -/
def Core.entryAt (co : Core) (k : Nat) : Option (Stash × StashEnt) :=
  (mfind co.windows (k / 8192)).bind (fun st => (mfind st.ents (k % 8192)).map (fun e => (st, e)))

/-- STASH_ENTRY_EXPIRE (R223): a clean entry becomes empty when its age reaches 1,875. -/
def execStashEntryExpire (c k : Nat) (s : State) : Host.Outcome State Fault Refusal :=
  coreEvent "STASH_ENTRY_EXPIRE" c
    (match (s.core c).entryAt k with
     | some (st, e) =>
       if e.dirty = 0 ∧ e.ts + retention ≤ s.tstep then
         some (s.modCore c (fun co => co.setStash { st with ents := mdel st.ents (k % 8192) }))
       else none
     | none => none)

/-! ## The sweeper (R225) -/

/-- A slab's remaining life is at most H (R213, R225). -/
def Slab.near (b : Slab) (h ts : Nat) : Bool := decide (b.born = true) && decide (retention ≤ ts - b.stamp + h)

/-- A born slab rewritten in place, and stamped on this cycle (R214). -/
def State.rewriteSlab (s : State) (c n : Nat) : State :=
  s.modCore c (fun co => { co with slabs := mput Slab.init co.slabs n { co.slab n with stamp := s.tstep } })

/-- SWEEP_RING_RENEW (R225). -/
def execSweepRingRenew (c n : Nat) (s : State) : Host.Outcome State Fault Refusal :=
  coreEvent "SWEEP_RING_RENEW" c
    (let co := s.core c
     let b := co.slab n
     if b.kind = .ring ∧ b.near co.swthr s.tstep = true ∧ b.stamp ≠ s.tstep ∧ s.tstep - b.stamp ≤ retention then some (s.rewriteSlab c n) else none)

/-- SWEEP_STASH_WRITEBACK (R225): a dirty entry near its expiry is written back, and then ages as a clean one. -/
def execSweepStashWriteback (c k : Nat) (s : State) : Host.Outcome State Fault Refusal :=
  coreEvent "SWEEP_STASH_WRITEBACK" c
    (match (s.core c).entryAt k with
     | some (st, e) =>
       if e.dirty ≠ 0 ∧ retention ≤ s.tstep - e.ts + (s.core c).swthr then
         some (s.modCore c (fun co => co.setStash { st with ents := mset st.ents (k % 8192) { e with dirty := 0 } }))
       else none
     | none => none)

/-- The stall wire of a group of the context freezes on this cycle, and the core is in the group (R225). -/
def State.wireFreezes (s : State) (ctx c : Nat) : Bool :=
  s.wires.any (fun w => decide (w.ctx = ctx) && w.cores.contains c && w.holds s.cyc)

/-- SWEEP_FROZEN_SLAB_RENEW (R225): a live, born slab of a context whose group the stall wire freezes, whatever context the core runs. -/
def execSweepFrozenSlabRenew (c n : Nat) (s : State) : Host.Outcome State Fault Refusal :=
  coreEvent "SWEEP_FROZEN_SLAB_RENEW" c
    (let co := s.core c
     let b := co.slab n
     if b.kind = .live ∧ s.wireFreezes b.owner c = true ∧ b.near co.swthr s.tstep = true ∧
         b.stamp ≠ s.tstep ∧ s.tstep - b.stamp ≤ retention then some (s.rewriteSlab c n)
     else none)

/-- SWEEP_MARK_LOST (R225): a live, born slab older than 1,875 ts of a context that does not run on the core. -/
def execSweepMarkLost (c n : Nat) (s : State) : Host.Outcome State Fault Refusal :=
  coreEvent "SWEEP_MARK_LOST" c
    (let co := s.core c
     let b := co.slab n
     if b.kind = .live ∧ b.born = true ∧ retention < s.tstep - b.stamp ∧ ¬ (co.bound ∧ b.owner = co.ctx) then
       some (s.modCore c (fun co => { co with slabs := mput Slab.init co.slabs n { b with kind := .lost } }))
     else none)

end Sys2Proof.Machine
end

