-- ==== Sys2Proof/Machine/Tables.lean ====
section
/-! DEFINITION. Template tables and macro stores (R31 to R34, R40 to R42, R69 to R71). -/
namespace Sys2Proof.Machine

/-! ## Reads of tables in global memory -/

/-- How K's read of a run of bytes in global memory stands: done; waiting; a fault at an address of a part; refused, with cause,
physical and virtual address. -/
inductive TRead where
  | value (bs : List Byte) (s : State)
  | wait (s : State)
  | fault (va : Word) (part : Nat)
  | error (cause pa : Nat) (va : Word) (s : State)

/-- The first refused piece. -/
def State.refusedPiece (s : State) (ps : List KPiece) : Option (Nat × KPiece) :=
  firstSome (fun p =>
    match s.paKind p.pa with
    | .refused cause => some (cause, p)
    | .home => if s.homeBad s.cur.core 0 p.pa p.n then some (0x83, p) else none
    | _ => none) ps

/-- The bytes of pieces read by K as a plain load reads them (R236): its answers from other modules are awaited, and what home agents hold back (R321),
and both stand in its phase once they have come. -/
def State.readRun (s : State) (va : Word) (n : Nat) (ps : List KPiece) : TRead :=
  let c := s.cur.core
  match s.refusedPiece ps with
  | some (cause, p) => .error cause p.pa p.va s
  | none =>
    let go (s : State) : TRead :=
      let id := s.serial
      let r := { s with serial := id + 1 }.readPieces c id 0 ps
      let late := s.lateBytes c 0 ps
      if r.2.1.isEmpty && late.isEmpty then .value (leBytes n r.1) r.2.2.2
      else
        .wait ((r.2.2.2.pushAcc c
          { id := id, kind := 3, dst := none, raw := r.1, nb := n, sx := 0, va := va, pa := (ps.map (fun p => p.pa)).headD 0,
            at_ := s.cyc, ctx := s.me.ctx, err := none, origin := s.mySeq.index, want := r.2.1, todo := none, issue := s.t,
            cached := ps.all (fun p => p.cached), late := late }).modMs c
          (fun m => { m with hold := some (.response id none) }))
    match s.me.ms.gacc.find? (fun g => decide (g.kind = 3)) with
    | none => go s
    | some g =>
      if !(g.want.isEmpty && g.late.isEmpty) then .wait s
      else
        match g.err with
        | some cause => .error cause g.pa g.va (s.dropAcc c g.id)
        | none =>
          go (s.dropAcc c g.id)

/-- K's read of n bytes in global memory, as a plain load reads them. -/
def State.tableRead (s : State) (va : Word) (n : Nat) : TRead :=
  let ps := partsOf va n
  match s.kTranslate s.cur.core 0 0 (ps.map (fun p => BitVec.ofNat 64 p.1)) with
  | .wait s' => .wait s'
  | .fault v part => .fault v part
  | .ok s' es =>
    let qs := (ps.zip es).map (fun x => { KPiece.of (BitVec.ofNat 64 x.1.1) x.1.2 x.2.1 x.2.2 with stash := false })
    let s2 := s'.modMs s'.cur.core (fun m => { m with hold := none })
    if s2.me.ms.awaitsAtomic qs then .wait s2 else s2.readRun va n qs

/-- A piece of a read of K refused by its target: logged, and K's pending error (R345, R346). -/
def State.refusedRead (s : State) (cause pa : Nat) (va : Word) : State :=
  let c := s.cur.core
  let e : PErr := { cause := cause, engine := 0, uidx := 0, status := impStatus 0 s.mySeq.index, addr := va, cmd := s.mySeq.index,
                    packet := false, seq := 0 }
  (match s.paKind pa with
   | .window _ _ => if cause = 0xA1 then s.logError (dieOf c) (s.errEnt c pa va s.me.ctx cause 0) else s
   | _ => (s.linkMet c pa cause).logError (errDie c pa cause) (s.errEnt c pa va s.me.ctx cause 0)).setPending c s.me.ctx e

/-- The address operand of a K group that may stand: as it was when the group issued (R11, R41). -/
def State.standOp (s : State) (v : Word) : Word :=
  match s.mySeq.pin with
  | some x => x.2
  | none => v

/-- A group of K stands with the instruction and the address it issued with while its reads go on (R41). -/
def Act.pinned (i : Instr) (a : Word) (x : Act) : Act :=
  match x with
  | .wait s k o l => .wait (s.modSeq s.cur.core .k (fun q => { q with pin := some (i, a) })) k o l
  | y => y

/-! ## tset (R69) -/

/-- TSET (R69, R41): the template applies to issues two cycles later. -/
def execTset (f : MgtF) (s : State) : Host.Outcome State Fault Refusal :=
  issue s [f.a, f.b] (fun s => .done (s.result 2 0 (.slot (Seq.ofCode f.seq.toNat) f.slot.toNat (s.rd f.b ++ s.rd f.a))))

/-! ## tld (R42, R70) -/

/-- Templates from their bytes (R42). -/
def templatesOf (bs : List Byte) : List Template := (pieces 16 bs).map (fun l => BitVec.ofNat 128 (leNat l))

/-- Slots of a table that a `tld` is to write (R41). -/
def SeqSt.markLoading (q : SeqSt) (a n : Nat) (b : Bool) : SeqSt :=
  { q with table := (upTo a n).foldl (fun m i => mset m i { mget Slot.empty m i with loading := b }) q.table }

/-- The `tld` in progress, its first write at a cycle. -/
def State.startLoad (s : State) (q : Seq) (slot : Nat) (ts : List Template) (at_ : Nat) : State :=
  (s.modSeq s.cur.core q (fun x => x.markLoading slot ts.length true)).modMs s.cur.core (fun m =>
    { m with hold := some (.tld q slot ts at_) })

/-- The effect of `tld` (R70). The whole run is read before any slot is written, so a memory fault or an error response part-way writes none
(R42 leaves open which slots come first), and n = 0, the range, the alignment and the timing fault are looked at in this order: DESIGN CHOICE
(log 67). -/
def actTld (f : MgtF) (s : State) : Act :=
  let n := f.n.toNat
  let slot := f.slot.toNat
  let q := Seq.ofCode f.seq.toNat
  let a := s.standOp (s.rd f.a)
  if n = 0 then .done s
  else if 62 < slot + n then s.opTrap 0xB
  else if a.toNat % 16 ≠ 0 then memTrap 0x40 a.toNat (memStatus 0 0 (if f.var = 1 then 0 else 1) 0 0)
  else if s.me.timed then .wait s 0xA 0 0
  else if f.var = 1 then
    match s.me.checkLocal s.me.ctx s.tstep a.toNat (16 * n) true with
    | some (cause, slab, addr) => memTrap cause addr (memStatus 0 0 0 0 slab)
    | none =>
      .done ({ s with draws := s.draws + 1 }.startLoad q slot (templatesOf (s.me.bytes a.toNat (16 * n)))
        (s.cyc + 1 + Config.latency s.draws % 2))
  else
    Act.pinned (.tld f) a
      (match s.tableRead a (16 * n) with
       | .wait s' => .wait s' 0xA 0 0
       | .fault v part => memTrap 0x45 v.toNat (memStatus 0 part 1 0 0)
       | .error cause pa va s' => .done (s'.refusedRead cause pa va)
       | .value bs s' =>
         let l := s'.later 1
         .done (l.2.startLoad q slot (templatesOf bs) l.1))

/-- TLD (R70). -/
def execTld (f : MgtF) (s : State) : Host.Outcome State Fault Refusal := issue s [f.a] (actTld f)

/-- A template written into a slot by `tld`: a `tset` of the slot that issued before it is overtaken (R41). -/
def State.writeSlot (s : State) (c : Nat) (q : Seq) (n : Nat) (t : Template) : State :=
  (s.modIm c (fun im => { im with flight := im.flight.filter (fun x =>
      match x.fx with
      | .slot q' n' _ => !(decide (q' = q) && decide (n' = n))
      | _ => true) })).modSeq c q (fun x => { x with table := mset x.table n { t := t, reason := slotReason q t, loading := false } })

/-- Work of K on a table may go on: the core's schedule counter runs, or a trap has stopped it (R96, R340). DEDUCED (log 25). -/
def Core.tableTime (co : Core) (cyc : Nat) : Bool := co.counting cyc || decide (co.stops.stop ≠ .run)

/-- TLD_SLOT_WRITE (R41, R70): the next slot of a `tld` is written; after the last, K goes on. -/
def execTldSlotWrite (c : Nat) (s : State) : Host.Outcome State Fault Refusal :=
  coreEvent "TLD_SLOT_WRITE" c
    (match (s.core c).ms.hold with
     | some (.tld q slot ts at_) =>
       if at_ ≤ s.cyc ∧ (s.core c).tableTime s.cyc = true then
         match ts with
         | [] => some (s.letGo c)
         | t :: r =>
           let s1 := s.writeSlot c q slot t
           if r.isEmpty then some (s1.letGo c)
           else
             some ({ s1 with draws := s1.draws + 1 }.modMs c (fun m =>
               { m with hold := some (.tld q (slot + 1) r (at_ + Config.latency s1.draws % 2)) }))
       else none
     | _ => none)

/-! ## mdef (R33, R34, R71) -/

/-- A macro store entry from its 8 bytes (Table 2-2). -/
def entryOf (w : Word) : MEntry := { last := w.getLsbD 35, psrc := w.extractLsb' 32 3, word := w.extractLsb' 0 32 }

/-- The first entry, from index j up, that fails R33; with the fields the carries of the present group name, and whether the group is
the first. -/
def bodyFault (first : Bool) (fs : List Nat) : Nat → List Word → Option Nat
  | _, [] => none
  | j, w :: r =>
    let e := entryOf w
    let t := patchT e.word
    let f := patchF e.word
    if w.toNat / 2 ^ 36 ≠ 0 ∨ t = 62 ∨ e.psrc = 7 then some j
    else if t = 63 then
      if e.last ∨ patchI e.word ≠ 0 ∨ f = 0 ∨ 29 < f ∨ fs.contains f = true ∨ 3 ≤ fs.length then some j
      else bodyFault first (f :: fs) (j + 1) r
    else if first ∧ patchI e.word ≠ 0 then some j
    else bodyFault false [] (j + 1) r

/-- The entry at which a body is rejected (R33). Where no end bit stands within 32 entries it is the last one read: DESIGN CHOICE (log 67). -/
def bodyRejects (es : List Word) : Option Nat :=
  match bodyFault true [] 0 es with
  | some j => some j
  | none => if (es.getLastD 0).getLsbD 35 then none else some (es.length - 1)

/-- The status word of a rejected `mdef` (Table 2-24). One that issues from a macro body itself has inmac = 1, and macro and entry are those of the
body that is rejected: DESIGN CHOICE (log 25). -/
def State.mdefStatus (s : State) (m entry : Nat) : Half :=
  let u := s.cur
  BitVec.ofNat 32 (u.word * 2 ^ 26 + u.fsel * 2 ^ 21 + b2n u.inmac * 2 ^ 20 + entry * 2 ^ 15 + m * 2 ^ 10 + u.slot)

/-- How the read of a body stands. -/
inductive BRead where
  | body (es : List Word) (s : State)
  | wait (s : State)
  | bad (entry : Nat)
  | refused (s : State)

/-- The entries of a body read in address order, up to the end entry or the 32nd (R33); the checks follow the read, so an entry that cannot be
read is named before an earlier one that fails a check: DESIGN CHOICE (log 67). -/
def State.readBody (loc : Bool) (a : Word) : Nat → List Word → State → BRead
  | 0, es, s => .body es s
  | k + 1, es, s =>
    let va := a + BitVec.ofNat 64 (8 * es.length)
    let more (bs : List Byte) (s : State) : BRead :=
      let w := BitVec.ofNat 64 (leNat bs)
      if w.getLsbD 35 then .body (es ++ [w]) s else State.readBody loc a k (es ++ [w]) s
    if loc then
      match s.me.checkLocal s.me.ctx s.tstep va.toNat 8 true with
      | some _ => .bad es.length
      | none => more (s.me.bytes va.toNat 8) s
    else
      match s.tableRead va 8 with
      | .wait s' => .wait s'
      | .fault _ _ => .bad es.length
      | .error cause pa v s' => .refused (s'.refusedRead cause pa v)
      | .value bs s' => more bs s'

/-- The sequencer is inside a call of the macro (R34). -/
def SeqSt.inside (q : SeqSt) (m : Nat) : Bool :=
  match q.mpos with
  | some p => decide (p.m = m)
  | none => false

/-- A sequencer of the present core is stopped by a trap inside a call of the macro (R71). -/
def State.trappedInside (s : State) (q : Seq) (m : Nat) : Bool :=
  (s.me.im.seq q).inside m && s.me.stops.recs.any (fun r => decide (r.seq = q.code))

/-- The body of a macro replaced: at once, or once the call the sequencer is inside of has issued its last entry (R71). -/
def SeqSt.define (q : SeqSt) (m : Nat) (es : List MEntry) : SeqSt :=
  if q.inside m then { q with redef := some es } else { q with macros := mset q.macros m es }

/-- The effect of `mdef` (R71): the group stands until the body has been read and checked. The alignment is looked at before the timing fault:
DESIGN CHOICE (log 67). -/
def actMdef (f : MgtF) (s : State) : Act :=
  let q := Seq.ofCode f.seq.toNat
  let m := f.idx.toNat
  let loc := decide (f.var = 1)
  let a := s.standOp (s.rd f.a)
  let c := s.cur.core
  if a.toNat % 8 ≠ 0 then memTrap 0x40 a.toNat (memStatus 0 0 (if loc then 0 else 1) 0 0)
  else if s.me.timed then .wait s 0xA 0 0
  else if s.trappedInside q m then s.opTrap 0xB
  else
    Act.pinned (.mdef f) a
      (match State.readBody loc a 32 [] s with
       | .wait s' => .wait s' 0xA 0 0
       | .bad entry =>
         .trap { cause := 5, status := s.mdefStatus m entry, addr := 0, cls := 0, engine := 0, uidx := 0 }
       | .refused s' => .done s'
       | .body es s' =>
         if loc then
           .wait ({ s' with draws := s'.draws + 1 }.modMs c (fun ms =>
             { ms with hold := some (.mdef q m es (s.cyc + Config.latency s'.draws % 35)) })) 0xA 0 0
         else
           let l := s'.later 1
           .wait (l.2.modMs c (fun ms => { ms with hold := some (.mdef q m es l.1) })) 0xA 0 0)

/-- MDEF (R71). -/
def execMdef (f : MgtF) (s : State) : Host.Outcome State Fault Refusal := issue s [f.a] (actMdef f)

/-- The status word of the group K stands at, for a rejected body (Table 2-24). -/
def State.rejectStatus (s : State) (c m entry : Nat) : Half :=
  match (s.core c).fetch c .k with
  | .run _ u => (s.withCur u).mdefStatus m entry
  | _ => BitVec.ofNat 32 (entry * 2 ^ 15 + m * 2 ^ 10)

/-- K's group, which stood for its reads, has issued (R71, R110): K goes past it; with a pending error it is tried again, and
raises that (R346). -/
def State.issueHeld (s : State) (c : Nat) (act : State → State) : State :=
  let s1 := s.modMs c (fun ms => { ms with hold := none })
  if (s.core c).im.perr.isSome then s1
  else
    match (s.core c).fetch c .k with
    | .run _ u => ((act s1).withCur u).retire
    | _ => s1

/-- MDEF_BODY_CHECK (R33): the body is installed whole, or rejected at the `mdef`. -/
def execMdefBodyCheck (c : Nat) (s : State) : Host.Outcome State Fault Refusal :=
  coreEvent "MDEF_BODY_CHECK" c
    (match (s.core c).ms.hold with
     | some (.mdef q m es at_) =>
       if at_ ≤ s.cyc ∧ (s.core c).counting s.cyc = true then
         match bodyRejects es with
         | some j =>
           some (((s.modMs c (fun ms => { ms with hold := none })).modSeq c .k (fun q => { q with waiting := none })).takeTrap c .k
             { cause := 5, status := s.rejectStatus c m j, addr := 0, cls := 0, engine := 0, uidx := 0 } (s.core c).im.k.index 0)
         | none => some (s.issueHeld c (fun s => s.modSeq c q (fun x => x.define m (es.map entryOf))))
       else none
     | _ => none)

/-! ## Calls (R31, R34) -/

/-- MACRO_CALL (R31, R34): the sequencer enters the body as it stands; its first group issues on the call's cycle (R17). -/
def execMacroCall (m i : BitVec 5) (p0 p1 p2 p3 : BitVec 16) (s : State) : Host.Outcome State Fault Refusal :=
  match mfind s.mySeq.macros m.toNat with
  | none =>
    let st := s.cur.status 0 m.toNat 0 + BitVec.ofNat 32 (if s.cur.inmac then 0 else m.toNat * 2 ^ 10)
    finish s (.trap { cause := 5, status := st, addr := 0, cls := 0, engine := 0, uidx := 0 })
  | some body =>
    if s.pendingHere.isSome then finish s (.done s)
    else .next (s.modSeq s.cur.core s.cur.sq (fun q =>
      { q with
        waiting := none,
        mpos := some { m := m.toNat, next := 0, p0 := p0, p1 := p1, p2 := p2, p3 := p3, body := body, idle := i.toNat,
                       ret := s.cur.nxt } }))

end Sys2Proof.Machine
end

