-- ==== Sys2Proof/Machine/Faults.lean ====
section
/-! DEFINITION. Walks, fault records, the stall wire, and page migration (R249 to R260). -/
namespace Sys2Proof.Machine

/-! ## Walks of K (R250, R251, R254) -/

/-- The walk for K's waiting access is made: it fills the TLB, or the access stands at a record, or is refused; an error response to one of its reads
is K's pending error, which K raises at the access's group. DESIGN CHOICE (log 69). -/
def State.walkNow (s : State) (c : Nat) (va : Word) (kind part interval : Nat) : State :=
  let co := s.core c
  match s.walkFails c co.ptbase va with
  | some pa => (s.accessError c pa va co.ctx 0x83 kind co.im.k.index).modMs c (fun m => { m with hold := none })
  | none =>
  match s.walkPage co.ctx co.ptbase va kind with
  | .ok e => s.modMs c (fun m => { m with tlb := tlbTouch m.tlb e, hold := none })
  | .error e =>
    let r := s.faultCore c co.ctx 0 0 kind interval va e
    let h : Hold := match r.1 with
      | .stands _ i _ => .walk va kind part s.cyc 64 false (some i)
      | .backoff t i => .walk va kind part t i true none
      | _ => .walk va kind part s.cyc 64 false none
    r.2.modMs c (fun m => { m with hold := some h })

/-- PAGE_WALK_COMPLETE (R249, R250): the walk for K's access ends. -/
def execPageWalkComplete (c : Nat) (s : State) : Host.Outcome State Fault Refusal :=
  coreEvent "PAGE_WALK_COMPLETE" c
    (match (s.core c).ms.hold with
     | some (.walk va kind part at_ interval false none) =>
       if at_ ≤ s.cyc ∧ s.walkTurn (dieOf c) c = true ∧ s.walkHeld (s.core c).ptbase va = false then some ((s.walkNow c va kind part interval).walkOver (dieOf c) c) else none
     | _ => none)

/-- FAULT_REFUSAL_RETRY (R254): K's refused access tries again. -/
def execFaultRefusalRetry (c : Nat) (s : State) : Host.Outcome State Fault Refusal :=
  coreEvent "FAULT_REFUSAL_RETRY" c
    (match (s.core c).ms.hold with
     | some (.walk va kind part at_ interval true none) =>
       if at_ ≤ s.cyc ∧ s.walkHeld (s.core c).ptbase va = false then some (s.walkNow c va kind part interval) else none
     | _ => none)

/-- The agent of a prefetch: a copy channel of a core, or for channels from 4 on the agents of other stream TLBs from 512 on. -/
def prefetchAgent (c ch : Nat) : Nat := if ch < 4 then 4 * c + ch else 508 + ch

/-- The core and channel that name the prefetch of an agent. -/
def prefetchName (a : Nat) : Nat × Nat := if a < 512 then (a / 4, a % 4) else (0, a - 508)

/-- PREFETCH_WALK (R252): a stream TLB walks for the next page, which it only translates: a failure leaves nothing behind. -/
def execPrefetchWalk (c ch : Nat) (s : State) : Host.Outcome State Fault Refusal :=
  coreEvent "PREFETCH_WALK" c
    (let a := prefetchAgent c ch
     match mfind s.pfetch a with
     | none => none
     | some (ctx, va) =>
       if s.walkTurn (agentDie a) (1024 + a) && !s.walkHeld (s.rootOf ctx) va then
         let s1 := { s with pfetch := mdel s.pfetch a }.walkOver (agentDie a) (1024 + a)
         let l := mget [] s.stlb a
         if l.any (fun e => e.covers ctx va) then some s1
         else
           some (match s.walkPage ctx (s.rootOf ctx) va 0, s.walkPage ctx (s.rootOf ctx) va 1 with
             | .ok e, _ => { s1 with stlb := mset s1.stlb a (l.take 1 ++ [e]) }
             | .error _, .ok e => { s1 with stlb := mset s1.stlb a (l.take 1 ++ [e]) }
             | .error _, .error _ => s1)
       else none)

/-! ## The stall wire (R255 to R257) -/

/-- The cores of a wire's group that run its context now. -/
def State.wireCores (s : State) (w : Wire) : List Nat := w.cores.filter (fun c => (s.core c).bound && decide ((s.core c).ctx = w.ctx))

/-- GROUP_FREEZE (R255): 48 cycles after the wire is asserted, the group's schedule counters stop. -/
def execGroupFreeze (i : Nat) (s : State) : Host.Outcome State Fault Refusal :=
  event "GROUP_FREEZE"
    (match s.wires[i]? with
     | some w =>
       if w.holds s.cyc && (s.wireCores w).any (fun c => !(s.core c).stops.frozen) then
         some ((s.wireCores w).foldl (fun s c => s.modStops c (fun st => { st with frozen := true })) s)
       else none
     | none => none)

/-- A wait changed by what became of the record it stands at. -/
def FWait.settled (w : FWait) (d i : Nat) (r : FaultRec) : FWait :=
  match w with
  | .stands d' i' n => if d' = d ∧ i' = i then (if r.state = 3 then .deliver r.cause r.va n else .go) else w
  | _ => w

/-- A message of a peer that stands at a record with its wait changed. -/
def PeerMsg.mapWait (m : PeerMsg) (f : FWait → FWait) : PeerMsg :=
  match m with
  | .tableAsk src q idx k ctx va w => .tableAsk src q idx k ctx va (f w)
  | .poolAsk src q idx k ctx va e wt per bags ents w => .poolAsk src q idx k ctx va e wt per bags ents (f w)
  | x => x

/-- The units of a core with their waits changed. -/
def Units.mapWait (u : Units) (f : FWait → FWait) : Units :=
  { u with chans := u.chans.map (fun p => (p.1, p.2.map (fun e => { e with wait := f e.wait }))),
           port := u.port.map (fun k => { k with wait := f k.wait }) }

/-- The macro and the entry whose read an address is, where K stands at an `mdef` (R33). -/
def State.mdefEntry (s : State) (c : Nat) (va : Word) : Option (Nat × Nat) :=
  match (s.core c).fetch c .k with
  | .run (.mdef f) _ => some (f.idx.toNat, (va - (s.core c).im.reg .k f.a.toNat).toNat / 8 % 32)
  | _ => none

/-- K's access at a record that leaves state 1 (R257): it translates afresh, or its group traps; a read of an `mdef` with cause 0x05, and the
entry it could not read (R33). -/
def State.settleK (s : State) (c d i : Nat) (r : FaultRec) : State :=
  match (s.core c).ms.hold with
  | some (.walk va _ part _ _ _ (some j)) =>
    if dieOf c = d ∧ j = i then
      let s1 := s.modMs c (fun m => { m with hold := none })
      if r.state = 3 then
        let t : TrapInfo := match s.mdefEntry c va with
          | some (m, entry) => { cause := 5, status := s.rejectStatus c m entry, addr := 0, cls := 0, engine := 0, uidx := 0 }
          | none => { cause := r.cause, status := memStatus 0 part 1 0 0, addr := r.va, cls := 0, engine := 0, uidx := 0 }
        (s1.modSeq c .k (fun q => { q with waiting := none })).takeTrap c .k t (s.core c).im.k.index 0
      else s1
    else s
  | _ => s

/-- Every access at a record that has been resolved goes on as the record says; the record is free again, and no wire waits for it (R257). -/
def State.settleRecord (s : State) (d i : Nat) : State :=
  match mfind (s.die d).fbuf i with
  | none => s
  | some r =>
   if r.state ≠ 2 ∧ r.state ≠ 3 then s
   else
    let f : FWait → FWait := fun w => w.settled d i r
    let s1 := s.cores.foldl (fun s p => s.settleK p.1 d i r) s
    let s2 : State :=
      { s1 with
        cores := s1.cores.map (fun p =>
          let u := p.2.units.mapWait f
          (p.1, { p.2 with units := u })),
        arrays := s1.arrays.map (fun p => (p.1, { p.2 with queue := p.2.queue.map (fun x => { x with wait := f x.wait }) })),
        dies := s1.dies.map (fun p => (p.1, { p.2 with fronts := p.2.fronts.map (fun x => (x.1, { x.2 with wait := f x.2.wait })) })),
        works := s1.works.map (fun p => (p.1, { p.2 with wait := f p.2.wait })),
        wires := s1.wires.map (fun w => { w with recs := w.recs.filter (fun x => decide (x ≠ (d, i))) }),
        dom := { s1.dom with inbox := s1.dom.inbox.map (fun p => (p.1, p.2.mapWait f)) } }
    s2.modDie d (fun x => { x with fbuf := mset x.fbuf i { r with state := 0 } })

/-- GROUP_THAW (R257): 48 cycles after the wire is deasserted the group goes on, and each access of its records with it. -/
def execGroupThaw (i : Nat) (s : State) : Host.Outcome State Fault Refusal :=
  event "GROUP_THAW"
    (match s.wires[i]? with
     | some w =>
       match w.u with
       | some u =>
         if u + 48 ≤ s.cyc then
           let s1 : State := { s with wires := s.wires.eraseIdx i }
           let s2 := w.cores.foldl (fun s c =>
             s.modStops c (fun st => { st with frozen := s1.wires.any (fun x => (s1.wireCores x).contains c && x.holds s1.cyc) })) s1
           some (w.recs.foldl (fun s p => s.settleRecord p.1 p.2) s2)
         else none
       | none => none
     | none => none)

/-- The record stands in state 1. -/
def State.unresolved (s : State) (d i : Nat) : Bool :=
  match mfind (s.die d).fbuf i with
  | some r => decide (r.state = 1)
  | none => false

/-- System software writes 2 or 3 into a record (Table 12-6): ignored unless its state is 1. The wires with no record left in state 1
are deasserted on this cycle; a record that no wire waits for is settled at once (R445). -/
def State.resolveRecord (s : State) (d i v : Nat) : State :=
  match mfind (s.die d).fbuf i with
  | none => s
  | some r =>
    if r.state ≠ 1 then s
    else
      let s1 := s.modDie d (fun x => { x with fbuf := mset x.fbuf i { r with state := v } })
      if s1.wires.any (fun w => w.recs.contains (d, i)) then
        { s1 with wires := s1.wires.map (fun w =>
            if w.recs.contains (d, i) ∧ w.u = none ∧ w.recs.all (fun p => !s1.unresolved p.1 p.2) = true then
              { w with u := some s1.cyc }
            else w) }
      else s1.settleRecord d i

/-- FAULT_RETRY_WRITE (R257). -/
def execFaultRetryWrite (d i : Nat) (s : State) : Host.Outcome State Fault Refusal :=
  if 2 ≤ d ∨ 4096 ≤ i then .fault .noSuchUnit else .next (s.resolveRecord d i 2)

/-- FAULT_DELIVER_WRITE (R257). -/
def execFaultDeliverWrite (d i : Nat) (s : State) : Host.Outcome State Fault Refusal :=
  if 2 ≤ d ∨ 4096 ≤ i then .fault .noSuchUnit else .next (s.resolveRecord d i 3)

/-! ## Migration (R260) -/

/-- The leaf that maps an address: the physical address of its entry, the entry, and its level. -/
def State.leafAt (s : State) (va : Word) : Nat → Nat → Option (Nat × Nat × Nat)
  | 0, tab =>
    let a := tab + 8 * fld va.toNat 12 9
    let e := s.homeNat a 8
    if bit e 0 && bit e 1 then some (a, e, 0) else none
  | lvl + 1, tab =>
    let a := tab + 8 * (if lvl + 1 = 4 then fld va.toNat 48 8 else fld va.toNat (12 + 9 * (lvl + 1)) 9)
    let e := s.homeNat a 8
    if bit e 0 = false then none
    else if bit e 1 then some (a, e, lvl + 1)
    else s.leafAt va lvl (fld e 12 40 * 4096)

/-- A byte address moved with its page. -/
def moved (old new n a : Nat) : Nat := if old ≤ a ∧ a < old + n then new + (a - old) else a

/-- The bytes of a list of cells moved with their page. -/
def moveCells (old new n : Nat) (l : List Host.Cell) : List Host.Cell :=
  l.foldl (fun m c => if old ≤ c.1 ∧ c.1 < old + n then mput 0 m (new + (c.1 - old)) c.2 else m)
    (l.filter (fun c => !(decide (new ≤ c.1) && decide (c.1 < new + n))))

/-- The memory side of a core after a page has moved. -/
def MemSide.movePage (m : MemSide) (old new n : Nat) : MemSide :=
  let f := moved old new n
  { m with snap := moveCells old new n m.snap, pend := m.pend.map (fun e => { e with pa := f e.pa }),
           gacc := m.gacc.map (fun g => { g with pa := f g.pa }),
           hold := m.hold.map (fun h =>
             match h with
             | .join va pa t o => .join va (f pa) t o
             | x => x) }

/-- A packet's writes after a page has moved: rows, of a scatter or an update, are named with their homes in the low 64 bits. -/
def Work.movePage (x : Work) (old new n : Nat) : Work :=
  let f := moved old new n
  let rows : Bool := fld x.pkt.toNat 0 8 == 0x11 || fld x.pkt.toNat 0 8 == 0x30
  { x with out := x.out.map (fun p => (f p.1, p.2)),
           frames := if rows then x.frames.map (fun p => (p.1 - p.1 % 2 ^ 64 + f (p.1 % 2 ^ 64), p.2)) else x.frames }

/-- A page of `n` bytes moves: contents, snapshots, pending and narrow writes, and accesses of every unit that have been translated and not
performed keep their values at the new page. DEDUCED (log 59). -/
def State.movePage (s : State) (old new n : Nat) : State :=
  let f := moved old new n
  { s with
    mem := moveCells old new n s.mem, blog := s.blog.map (fun e => { e with pa := f e.pa }),
    cores := s.cores.map (fun p =>
      let ms := p.2.ms.movePage old new n
      (p.1, { p.2 with ms := ms })),
    works := s.works.map (fun p => (p.1, p.2.movePage old new n)),
    frames := s.frames.map (fun p => (p.1, { p.2 with home := f p.2.home })),
    fills := s.fills.map (fun x => { x with home := f x.home }),
    bad := s.bad.map f,
    arrays := s.arrays.map (fun p =>
      let f' (x : ArrCmd) : ArrCmd := { x with wrec := x.wrec.map (fun w => (f w.1, w.2)) }
      (p.1, { p.2 with queue := p.2.queue.map f', window := p.2.window.map f' })),
    dies := s.dies.map (fun p => (p.1, { p.2 with fronts := p.2.fronts.map (fun x => (x.1, { x.2 with wpa := f x.2.wpa })) })),
    jrnl := { s.jrnl with emissions := s.jrnl.emissions.map (fun e => { e with pa := f e.pa }) } }

/-- The entries of the leaf at an address: of a contiguous group all 16 (R249). -/
def leafEntries (a e : Nat) (va : Word) : List (Nat × Nat) :=
  if bit e 9 then (upTo 0 16).map (fun i => (a - 8 * (fld va.toNat 12 9 % 16) + 8 * i, i)) else [(a, 0)]

/-- Leaves rewritten to name a new physical address; the contiguous ones one 4 KiB page each. -/
def State.remap (s : State) (newPa : Nat) : List (Nat × Nat) → State
  | [] => s
  | (a, i) :: r =>
    let e := s.homeNat a 8
    (s.homeWrite a (leBytes 8 (e - fld e 12 40 * 4096 + (newPa + 4096 * i) % 2 ^ 52))).remap newPa r

/-- PAGE_MIGRATION (R260): a page with P = 0 moves to a new physical address, and its translations are dropped; with P = 1 the request
is refused and nothing changes. -/
def execPageMigration (ctx : Nat) (va newPa : Word) (s : State) : Host.Outcome State Fault Refusal :=
  event "PAGE_MIGRATION"
    (s.manage (if canonical va then
      match s.leafAt va 4 (fld (s.rootOf ctx).toNat 12 40 * 4096) with
      | none => none
      | some (a, e, lvl) =>
        let lg := if lvl = 2 then 30 else if lvl = 1 then 21 else if bit e 9 then 16 else 12
        if 3 ≤ lvl ∨ (bit e 9 = true ∧ lvl ≠ 0) ∨ newPa.toNat % 2 ^ lg ≠ 0 ∨ s.paKind newPa.toNat ≠ .home then none
        else if bit e 8 then some s
        else
          let old := (fld e 12 40 * 4096) / 2 ^ lg * 2 ^ lg
          some (((s.movePage old newPa.toNat (2 ^ lg)).remap newPa.toNat (leafEntries a e va)).invalidate ctx (some va))
    else none))

end Sys2Proof.Machine
end

