-- ==== Sys2Proof/Machine/Plane.lean ====
section
/-! DEFINITION. Plane blocks of operand A (R181, R182) and the plane unit (R184). -/
namespace Sys2Proof.Machine

/-- Elements of w bits from packed bytes (R124). -/
def elemsOf (w n : Nat) (bs : List Byte) : List Nat :=
  let x := leNat bs
  (upTo 0 n).map (fun i => fld x (w * i) w)

/-- Sign, NaN mark, significand or magnitude, and exponent field of an element code of a matrix format (R181). -/
def planeParts (var x : Nat) : Bool × Bool × Nat × Nat :=
  match matElem var with
  | some m =>
    let e := fld x m.mb m.eb
    (bit x (m.eb + m.mb), decide (decodeF m x = .nan), b2n (e != 0) * 2 ^ m.mb + x % 2 ^ m.mb, e)
  | none =>
    let v := sgn (matWidth var) x
    (decide (v < 0), false, v.natAbs, 0)

/-- A 16-bit word of a plane: bit l of element l. -/
def planeWord (bs : List Bool) : List Byte := leBytes 2 (bs.foldr (fun b n => b2n b + 2 * n) 0)

/-- One plane block from 256 rows, each a scale and 16 element codes (Table 8-4). -/
def planeBlock (var : Nat) (rows : List (Nat × List Nat)) : List Byte :=
  let ps := rows.map (fun r => r.2.map (planeParts var))
  let plane (f : Bool × Bool × Nat × Nat → Bool) : List Byte := ps.flatMap (fun r => planeWord (r.map f))
  let p := matPlanes var
  let sig := (upTo 0 p).flatMap (fun j => plane (fun x => bit x.2.2.1 (p - 1 - j)))
  plane (fun x => x.1) ++
    (if matFloat var then
      plane (fun x => x.2.1) ++ sig ++ ps.flatMap (fun r => r.map (fun x => BitVec.ofNat 8 x.2.2.2)) ++
        (if matMx var then rows.map (fun r => BitVec.ofNat 8 r.1) ++ List.replicate 256 0 else [])
    else sig)

/-- The posts of a whole plane block: its bytes, and its granules' zero bits (R183). -/
def planePosts (la : Nat) (bs : List Byte) : List Post :=
  .bytes la bs false ::
    ((upTo 0 (bs.length / 512)).zip (pieces 512 bs)).map (fun x => .zbit (la / 512 + x.1) (x.2.all (fun b => b == 0)))

/-- The slabs that lie wholly inside n bytes from an address. -/
def wholeSlabs (la n : Nat) : List Nat := upTo (ceilDiv la 2048) ((la + n) / 2048 - ceilDiv la 2048)

/-- A slab wholly inside a range is stamped (R214). -/
def stampPosts (l : List Nat) (ts : Nat) : List Post := l.map (fun k => .stamp k ts)

/-! ## plane -/

/-- The effect of `plane` (R184): its checks in the order of R107. DEDUCED (log 34). -/
def actPlane (f : MovF) (s : State) : Act :=
  let var := f.var.toNat
  let n := f.n.toNat
  let src := (s.rd f.a).toNat
  let stride := (s.rd f.b).toNat
  let rb := planeRow var n
  let la := f.la.toNat
  let e := s.command var la (s.rd f.a) (s.rd f.b) n f.sem.toNat f.start.toNat false
  let dst := n * blockSize var
  if (matMx var = true ∧ n % 2 = 1) ∨ stride % 8 ≠ 0 ∨ stride < rb then s.opTrap 0xB
  else if la % 512 ≠ 0 then memTrap 0x40 la (memStatus 0 0 0 0 0)
  else if src % 8 ≠ 0 then memTrap 0x40 src (memStatus 0 0 0 0 0)
  else
    let past (a m : Nat) : Bool := decide (0 < m) && decide (0x5FFFFF < a + m - 1)
    let rowsBad := (upTo 0 256).find? (fun i => past (src + i * stride) rb)
    match rowsBad with
    | some i => memTrap 0x41 (src + i * stride) (memStatus 0 0 0 0 ((src + i * stride) / 2048 % 4096))
    | none =>
      if past la dst then memTrap 0x41 la (memStatus 0 0 0 0 (la / 2048))
      else if (upTo 0 256).any (fun i => overlap la dst (src + i * stride) rb) then s.opTrap 0xB
      else if s.earlyStart f.start.toNat then startTrap
      else if n = 0 then .done (s.result 2 0 (.sem f.sem.toNat 1))
      else .done (s.modUnits s.cur.core (fun u => { u with plane := u.plane ++ [e] }))

/-- PLANE (R184). -/
def execPlane (f : MovF) (s : State) : Host.Outcome State Fault Refusal := issue s [f.a, f.b] (actPlane f)

/-- Bytes of one row of a block's source. -/
def EngCmd.rowLen (e : EngCmd) : Nat := if matMx e.var then mxSize e.var else 2 * matWidth e.var

/-- Where row i of block g stands at the source. -/
def EngCmd.rowAt (e : EngCmd) (g i : Nat) : Nat :=
  e.a.toNat + i * e.b.toNat + (if matMx e.var then g / 2 * mxSize e.var else 2 * matWidth e.var * g)

/-- The rows of a block from the bytes read: scale and the 16 codes. -/
def EngCmd.rows (e : EngCmd) (g : Nat) : List (Nat × List Nat) :=
  (pieces e.rowLen e.buf).map (fun r =>
    if matMx e.var then
      ((r.headD 0).toNat, ((elemsOf (matWidth e.var) 32 (r.drop 8)).drop (g % 2 * 16)).take 16)
    else (0, elemsOf (matWidth e.var) 16 r))

/-- The first source row of a block that fails R215 (Table 10-3). -/
def Core.planeSource (co : Core) (e : EngCmd) (ts g : Nat) : Option (Nat × Nat × Half) :=
  firstSome (fun i =>
    (co.checkLocal e.ctx ts (e.rowAt g i) e.rowLen true).map (fun x => (x.1, x.2.2, memStatus 0 0 0 0 x.2.1))) (upTo 0 256)

/-- The first of eight rows whose MX block is malformed (R121). -/
def Core.planeBad (co : Core) (e : EngCmd) (g k : Nat) : Option Nat :=
  if matMx e.var then
    (upTo (8 * k) 8).find? (fun i => (co.bytes (e.rowAt g i + 1) 7).any (fun b => b != 0))
  else none

/-- The array status word (Table 8-8). -/
def arrStatus (holder tile group : Nat) : Half := BitVec.ofNat 32 (holder * 2 ^ 28 + tile * 2 ^ 24 + group * 2 ^ 12)

/-- One cycle of a plane command, x cycles after s, with what it has read so far: its posts, and the command after it or its
fault: cause, address and status. A block that this cycle writes is kept when the next one's rows fail (R184, Table 10-3). -/
def Core.planeCycle (co : Core) (e : EngCmd) (ts x : Nat) : List Post × Except (Nat × Nat × Half) EngCmd :=
  let g := x / 32
  let k := x % 32
  let put : List Post × Except (Nat × Nat × Half) EngCmd :=
    if k = 0 ∧ 0 < g then
      let s0 := blockSize e.var
      let dst := e.la + (g - 1) * s0
      match co.checkLocal e.ctx ts dst s0 false with
      | some (cause, slab, addr) => ([], .error (cause, addr, memStatus 0 0 0 0 slab))
      | none =>
        let old := wholeSlabs e.la ((g - 1) * s0)
        let new := (wholeSlabs e.la (g * s0)).drop old.length
        (planePosts dst (planeBlock e.var (e.rows (g - 1))) ++ stampPosts new ts, .ok { e with buf := [] })
    else ([], .ok e)
  match put with
  | (ps, .error x) => (ps, .error x)
  | (ps, .ok e) =>
    (ps,
      if g = e.n then .ok { e with j := x + 1 }
      else
        match (if k = 0 then co.planeSource e ts g else none) with
        | some x => .error x
        | none =>
          match co.planeBad e g k with
          | some i => .error (0x60, e.rowAt g i, arrStatus 0 0 g)
          | none => .ok { e with j := x + 1, buf := e.buf ++ (upTo (8 * k) 8).flatMap (fun i => co.bytes (e.rowAt g i) e.rowLen) })

/-- A core's plane unit takes its next cycle. -/
def State.planeStep (s : State) (c : Nat) : Option State :=
  let co := s.core c
  let set (l : List EngCmd) (s : State) : State := s.modUnits c (fun u => { u with plane := l })
  match co.lateStart co.units.plane s.cyc with
  | some (i, e) => some ((set (co.units.plane.eraseIdx i) s).lateFault c e 2 0)
  | none =>
    match co.units.plane with
    | [] => none
    | e :: r =>
      let go (e : EngCmd) : State :=
        let o := co.planeCycle e s.tstep e.j
        match o.2 with
        | .ok e => set ({ e with nextAt := s.cyc + 1 } :: r) (s.posts c o.1)
        | .error (cause, addr, st) => (set r (s.posts c o.1)).commandFault c e 2 0 cause addr st
      match e.begun with
      | some _ => if e.nextAt ≤ s.cyc ∧ e.j ≤ 32 * e.n then some (go e) else none
      | none => if co.begins e s.cyc then some (go { e with begun := some s.cyc }) else none

/-- PLANE_COMMAND (R184): the plane unit begins a command, or reads and writes on. -/
def execPlaneCommand (c : Nat) (s : State) : Host.Outcome State Fault Refusal := coreEvent "PLANE_COMMAND" c (s.planeStep c)

/-- PLANE_COMPLETE (R184): a command completes, one cycle after its last write, and releases its semaphore. -/
def execPlaneComplete (c : Nat) (s : State) : Host.Outcome State Fault Refusal :=
  coreEvent "PLANE_COMPLETE" c
    (match (s.core c).units.plane with
     | e :: r =>
       if e.begun.isSome ∧ e.nextAt ≤ s.cyc ∧ 32 * e.n < e.j then
         some ((s.modUnits c (fun u => { u with plane := r })).signalSem c e.ctx e.sem)
       else none
     | [] => none)

end Sys2Proof.Machine
end

