-- ==== Sys2Proof/Machine/Copy.lean ====
section
/-! DEFINITION. Copies (R279 to R283): tensor descriptors, runs, and the copy channels of a core. -/
namespace Sys2Proof.Machine

/-! ## Tensor descriptors and runs (R279, R280) -/

/-- A dimension: count, source stride, destination stride. -/
structure Dim where
  count : Nat
  ss : Int
  ds : Int
  deriving DecidableEq, Repr

/-- A copy that has passed the checks of R280. -/
structure Tensor where
  dims : List Dim
  esz : Nat
  deriving DecidableEq, Repr

/-- Dimension j of a descriptor (Table 13-7). -/
def dimAt (bs : List Byte) (j : Nat) : Dim :=
  let d := (bs.drop (32 + 12 * j)).take 12
  { count := leNat (d.take 4), ss := sgn 32 (leNat ((d.drop 4).take 4)), ds := sgn 32 (leNat (d.drop 8)) }

/-- The checks of R280 on a descriptor's 128 bytes and the addresses; a failure gives the dimension it is about. -/
def tensorOf (bs : List Byte) (src dst : Nat) : Except Nat Tensor :=
  let b0 := (bs.headD 0).toNat
  let nd := b0 % 16
  let e := 2 ^ (b0 / 16 % 4)
  if 64 ≤ b0 ∨ ((bs.drop 1).take 31).any (fun b => b != 0) = true ∨ nd = 0 ∨ 8 < nd then .error 0
  else
    match (upTo nd (8 - nd)).find? (fun j => ((bs.drop (32 + 12 * j)).take 12).any (fun b => b != 0)) with
    | some j => .error j
    | none =>
      let ds := (upTo 0 nd).map (dimAt bs)
      if src % e ≠ 0 ∨ dst % e ≠ 0 ∨ 2 ^ 40 / e < ds.foldl (fun n d => n * d.count) 1 then .error 0
      else .ok { dims := ds, esz := e }

/-- The copy moves no element. -/
def Tensor.empty (t : Tensor) : Bool := t.dims.any (fun d => d.count == 0)

/-- The offset of an element, in elements, by strides. -/
def offsetOf (f : Dim → Int) : List Dim → List Nat → Int
  | d :: ds, i :: is => f d * i + offsetOf f ds is
  | _, _ => 0

/-- An address in local space, modulo 2^23, or in global space. -/
def wrapAt (loc : Bool) (x : Int) : Nat := if loc then wrapN 23 x else wrapN 64 x

/-- A run: where it is read, where it is written, its bytes. -/
structure Run where
  so : Nat
  dt : Nat
  n : Nat
  deriving DecidableEq, Repr

/-- Elements of the run that begins at an index (R280). -/
def Tensor.runLen (t : Tensor) (idx : List Nat) (so dt : Nat) : Nat :=
  match t.dims, idx with
  | d :: _, i :: _ =>
    if d.ss = 1 ∧ d.ds = 1 then Nat.min (d.count - i) (Nat.min ((256 - so % 256) / t.esz) ((256 - dt % 256) / t.esz)) else 1
  | _, _ => 1

/-- The run that begins at an index. -/
def Tensor.run (t : Tensor) (src dst : Nat) (sl dl : Bool) (idx : List Nat) : Run :=
  let so := wrapAt sl (src + t.esz * offsetOf (fun d => d.ss) t.dims idx)
  let dt := wrapAt dl (dst + t.esz * offsetOf (fun d => d.ds) t.dims idx)
  { so := so, dt := dt, n := t.esz * t.runLen idx so dt }

/-- Indices one further along a dimension, with carries into the next ones; none past the last element. -/
def bumpIdx : List Dim → List Nat → Nat → List Nat
  | d :: ds, i :: is, k =>
    if i + k < d.count then (i + k) :: is
    else
      match bumpIdx ds is 1 with
      | [] => []
      | r => 0 :: r
  | _, _, _ => []

/-- The index after a run; none after the last. -/
def Tensor.after (t : Tensor) (idx : List Nat) (r : Run) : List Nat := bumpIdx t.dims idx (r.n / t.esz)

/-- The stream of a copy falls. -/
def Tensor.down (t : Tensor) (f : Dim → Int) : Bool :=
  match t.dims with
  | d :: _ => decide (f d < 0)
  | [] => false

/-- The engine status word (Table 13-9). -/
def engStatus (kind dim run : Nat) : Half := BitVec.ofNat 32 (kind * 2 ^ 24 + dim * 2 ^ 20 + Nat.min run (2 ^ 20 - 1))

/-! ## Whole slabs (R214) -/

/-- The bytes of slabs a command has written, with n bytes at an address added. -/
def coverSlabs (m : Map Nat) (la n : Nat) : Map Nat :=
  (upTo (la / 2048) ((la + n - 1) / 2048 - la / 2048 + 1)).foldl (fun m k =>
    let lo := Nat.max la (k * 2048) - k * 2048
    let hi := Nat.min (la + n) ((k + 1) * 2048) - k * 2048
    mset m k (mget 0 m k ||| (2 ^ hi - 2 ^ lo))) m

/-- The slabs that n bytes at an address touch and that a command has filled. DEDUCED (log 27). -/
def filledSlabs (m : Map Nat) (la n : Nat) : List Nat :=
  (upTo (la / 2048) ((la + n - 1) / 2048 - la / 2048 + 1)).filter (fun k => decide (mget 0 m k = 2 ^ 2048 - 1))

/-- A later run of a copy, from an index on, writes to a slab; the number bounds the runs. -/
def Tensor.touches (t : Tensor) (src dst : Nat) (sl dl : Bool) (k : Nat) : Nat → List Nat → Bool
  | 0, _ => false
  | n + 1, idx =>
    if idx = [] then false
    else
      let r := t.run src dst sl dl idx
      (decide (r.dt < (k + 1) * 2048) && decide (k * 2048 < r.dt + r.n)) || t.touches src dst sl dl k n (t.after idx r)

/-! ## cpy (R281) -/

/-- The effect of `cpy` (R281). -/
def actCpy (var : Nat) (f : MovF) (s : State) : Act :=
  let a := s.rd f.a
  if var = 2 ∧ 2 ^ 23 ≤ a.toNat then s.opTrap 0xB
  else if s.earlyStart f.start.toNat then startTrap
  else
    let ch := f.n.toNat
    let e := s.command var f.la.toNat a (s.rd f.b) ch f.sem.toNat f.start.toNat false
    .done (s.modUnits s.cur.core (fun u => { u with chans := mset u.chans ch (mget [] u.chans ch ++ [e]) }))

/-- CPY_IN (R281). -/
def execCpyIn (f : MovF) (s : State) : Host.Outcome State Fault Refusal := issue s [f.a, f.b] (actCpy 0 f)
/-- CPY_OUT (R281). -/
def execCpyOut (f : MovF) (s : State) : Host.Outcome State Fault Refusal := issue s [f.a, f.b] (actCpy 1 f)
/-- CPY_LL (R281). -/
def execCpyLl (f : MovF) (s : State) : Host.Outcome State Fault Refusal := issue s [f.a, f.b] (actCpy 2 f)

/-- Source and destination addresses of a copy command. -/
def EngCmd.ends (e : EngCmd) : Nat × Nat := if e.var = 0 then (e.a.toNat, e.la) else (e.la, e.a.toNat)

/-- The commands of a copy channel. -/
def State.setChan (s : State) (c ch : Nat) (l : List EngCmd) : State := s.modUnits c (fun u => { u with chans := mset u.chans ch l })

/-- A copy command ends with a failure, which L reports (R281): earlier runs stand, and its semaphore is not released. DEDUCED (log 27). -/
def State.copyFault (s : State) (c ch : Nat) (e : EngCmd) (r : List EngCmd) (cause addr : Nat) (st : Half) : State :=
  ((s.setChan c ch r).forget (4 * c + ch)).commandFault c e 4 ch cause addr st

/-- The error response of an engine's access, logged (R345). -/
def State.engineError (s : State) (c pa : Nat) (va : Word) (ctx cause engine : Nat) : State :=
  match s.paKind pa with
  | .window _ _ => if cause = 0xA1 then s.logError (dieOf c) (s.errEnt c pa va ctx cause engine) else s
  | _ => (s.linkMet c pa cause).logError (errDie c pa cause) (s.errEnt c pa va ctx cause engine)

/-- Bytes delivered for a context that the core does not run are counted in its image (R282). -/
def State.deliveredAway (s : State) (c ctx ch n : Nat) : State :=
  let co := s.core c
  if co.bound ∧ co.ctx = ctx then s
  else
    match mfind s.images (imageKey ctx c) with
    | some im => { s with images := mset s.images (imageKey ctx c) (im.delivered ch n) }
    | none => s

/-- A run's bytes have been written to global memory, or its local posts are to be made: it is counted (R282), and the command goes on
with the next one on the next cycle, or later by a free latency. -/
def State.copyNext (s : State) (c ch : Nat) (e : EngCmd) (r : List EngCmd) (t : Tensor) (x : Run) (ps : List Post)
    (written : Map Nat) : State :=
  let idx := t.after e.idx x
  let s1 := ((s.posts c (ps ++ [.cwp ch x.n e.ctx])).deliveredAway c e.ctx ch x.n).forget (4 * c + ch)
  let l := if e.var = 2 ∨ idx = [] then (s1.cyc + 1, s1) else s1.later 1
  l.2.setChan c ch ({ e with idx := idx, j := e.j + 1, nextAt := l.1, written := written, wait := .go, fill := false } :: r)

/-- The bytes of a run go to their destination. -/
def State.copyPut (s : State) (c ch : Nat) (e : EngCmd) (r : List EngCmd) (t : Tensor) (x : Run) (bs : List Byte) : State :=
  let agent := 4 * c + ch
  if e.var = 1 then
    match s.engineAccess c agent e.ctx 1 ch 1 (t.down (fun d => d.ds)) e.wait (BitVec.ofNat 64 x.dt) x.n with
    | .stand w s' => s'.setChan c ch ({ e with wait := w } :: r)
    | .bad cause va => s.copyFault c ch e r cause va.toNat (engStatus 2 0 e.j)
    | .ok ps s' =>
      match s'.partsRefused c 1 ps with
      | some (cause, pa) =>
        (s'.engineError c pa (BitVec.ofNat 64 x.dt) e.ctx cause 4).copyFault c ch e r cause x.dt (engStatus 2 0 e.j)
      | none =>
        let s1 := s'.writeParts agent e.ctx 3 ps bs
        if s1.writesOut agent then s1.setChan c ch ({ e with fill := true } :: r) else s1.copyNext c ch e r t x [] e.written
  else
    match (s.core c).checkLocal e.ctx s.tstep x.dt x.n false with
    | some (cause, slab, addr) => s.copyFault c ch e r cause addr (memStatus 0 0 0 0 slab)
    | none =>
      let w := coverSlabs e.written x.dt x.n
      let last := (filledSlabs w x.dt x.n).filter (fun k =>
        !t.touches e.ends.1 e.ends.2 (e.var != 0) (e.var != 1) k (t.dims.foldl (fun n d => n * d.count) 1) (t.after e.idx x))
      s.copyNext c ch e r t x (writePosts x.dt bs ++ stampPosts last s.tstep) w

/-- The next run of a copy command. -/
def State.copyRun (s : State) (c ch : Nat) (e : EngCmd) (r : List EngCmd) (t : Tensor) : State :=
  let agent := 4 * c + ch
  let x := t.run e.ends.1 e.ends.2 (e.var != 0) (e.var != 1) e.idx
  if e.var = 0 then
    match s.engineAccess c agent e.ctx 1 ch 0 (t.down (fun d => d.ss)) e.wait (BitVec.ofNat 64 x.so) x.n with
    | .stand w s' => s'.setChan c ch ({ e with wait := w } :: r)
    | .bad cause va => s.copyFault c ch e r cause va.toNat (engStatus 2 0 e.j)
    | .ok ps s' =>
     match (s'.partsRefused c 0 ps).filter (fun x => decide (x.1 = 0x83)) with
     | some (cause, pa) =>
        (s'.engineError c pa (BitVec.ofNat 64 x.so) e.ctx cause 4).copyFault c ch e r cause x.so (engStatus 2 0 e.j)
     | none =>
      match s'.readParts agent e.ctx ps with
      | .wait s2 => s2
      | .bad cause pa =>
        (s'.engineError c pa (BitVec.ofNat 64 x.so) e.ctx cause 4).copyFault c ch e r cause x.so (engStatus 2 0 e.j)
      | .ok bs s2 => s2.copyPut c ch e r t x bs
  else
    match (s.core c).checkLocal e.ctx s.tstep x.so x.n true with
    | some (cause, slab, addr) => s.copyFault c ch e r cause addr (memStatus 0 0 0 0 slab)
    | none => s.copyPut c ch e r t x ((s.core c).bytes x.so x.n)

/-- A command begins: its descriptor is read and checked (R280, R281). -/
def State.copyBegin (s : State) (c ch : Nat) (e : EngCmd) (r : List EngCmd) : State :=
  let co := s.core c
  let b := e.b.toNat
  match co.checkLocal e.ctx s.tstep b 128 true with
  | some (cause, slab, addr) => s.copyFault c ch e r cause addr (memStatus 0 0 0 0 slab)
  | none =>
    if b % 128 ≠ 0 then s.copyFault c ch e r 0x64 0 (engStatus 2 0 0)
    else
      let bs := co.bytes b 128
      match tensorOf bs e.ends.1 e.ends.2 with
      | .error dim => s.copyFault c ch e r 0x64 0 (engStatus 2 dim 0)
      | .ok t =>
        let go (at_ : Nat) (idx : List Nat) (s : State) : State :=
          s.setChan c ch ({ e with begun := some s.cyc, buf := bs, idx := idx, nextAt := at_ } :: r)
        if t.empty then go s.cyc [] s
        else if e.var = 2 then go (s.cyc + 1) (List.replicate t.dims.length 0) s
        else
          let l := s.later 1
          go l.1 (List.replicate t.dims.length 0) l.2

/-- A copy channel waits for another module's answer on this cycle. -/
def State.copyStalled (s : State) (agent : Nat) (e : EngCmd) : Bool :=
  (e.fill && s.writesOut agent) || s.dom.reqs.any (fun r => decide (r.core = 128 + agent) && !r.skip)

/-- A copy channel takes its next step. -/
def State.copyStep (s : State) (c ch : Nat) : Option State :=
  let co := s.core c
  let q := mget [] co.units.chans ch
  match co.lateStart q s.cyc with
  | some (i, e) => some ((s.setChan c ch (q.eraseIdx i)).lateFault c e 4 ch)
  | none =>
    match q with
    | [] => none
    | e :: r =>
      match e.begun with
      | none => if co.begins e s.cyc then some (s.copyBegin c ch e r) else none
      | some _ =>
        if e.idx = [] ∨ s.cyc < e.nextAt ∨ s.copyStalled (4 * c + ch) e = true then none
        else
          match e.wait with
          | .deliver cause va _ => some (s.copyFault c ch e r cause va.toNat (engStatus 2 0 e.j))
          | w =>
            if w.ready s.cyc = false then none
            else
              match tensorOf e.buf e.ends.1 e.ends.2 with
              | .error _ => none
              | .ok t =>
                let x := t.run e.ends.1 e.ends.2 (e.var != 0) (e.var != 1) e.idx
                if e.fill then
                  match s.dom.answers.find? (fun a => decide (a.agent = 4 * c + ch) && decide (a.cause ≠ 0)) with
                  | some a =>
                    some ((s.engineError c a.pa (BitVec.ofNat 64 x.dt) e.ctx a.cause 4).copyFault c ch e r a.cause x.dt
                      (engStatus 2 0 e.j))
                  | none => some (s.copyNext c ch e r t x [] e.written)
                else some (s.copyRun c ch e r t)

/-- COPY_COMMAND (R280, R281): a copy channel begins a command, or moves its next run. -/
def execCopyCommand (c ch : Nat) (s : State) : Host.Outcome State Fault Refusal :=
  coreEvent "COPY_COMMAND" c (if ch < 4 then s.copyStep c ch else none)

/-- COPY_COMPLETE (R281): on the cycle after its last write a copy completes and releases its semaphore. -/
def execCopyComplete (c ch : Nat) (s : State) : Host.Outcome State Fault Refusal :=
  coreEvent "COPY_COMPLETE" c
    (match mget [] (s.core c).units.chans ch with
     | e :: r =>
       if e.begun.isSome ∧ e.idx = [] ∧ e.nextAt ≤ s.cyc ∧ s.writesOut (4 * c + ch) = false then
         some (((s.setChan c ch r).forget (4 * c + ch)).signalSem c e.ctx e.sem)
       else none
     | [] => none)

end Sys2Proof.Machine
end

