-- ==== Sys2Proof/Machine/Queues.lean ====
section
/-! DEFINITION. Queues (R261 to R276, R284, R445, R446): the instructions that place packets, the queue port, the front ends,
completion and failure of packets, and the packets that need no engine. -/
namespace Sys2Proof.Machine

/-! ## Packets (R261, R262) -/

/-- A field of a packet. -/
def pf (p : BitVec 512) (lo w : Nat) : Nat := fld p.toNat lo w

/-- Its kind. -/
def pKind (p : BitVec 512) : Nat := pf p 0 8
/-- It is a job card. -/
def pCard (p : BitVec 512) : Bool := p.getLsbD 8
/-- The timestamp of a job card. -/
def pTs (p : BitVec 512) : Nat := pf p 64 64
/-- Body word i, of 8 bytes (R291). -/
def pBody (p : BitVec 512) (i : Nat) : Word := BitVec.ofNat 64 (pf p (192 + 64 * i) 64)
/-- The core that the header names. -/
def pCore (p : BitVec 512) : Nat := 64 * pf p 28 1 + pf p 22 6

/-- A packet from its header fields and five body words. -/
def packet (kind tsv cmpl scope sem core ts : Nat) (a b c d e : Nat) : BitVec 512 :=
  BitVec.ofNat 512 (kind + tsv * 2 ^ 8 + cmpl * 2 ^ 9 + scope * 2 ^ 12 + sem * 2 ^ 16 + (core % 64) * 2 ^ 22 + (core / 64) * 2 ^ 28 +
    ts % 2 ^ 64 * 2 ^ 64 + a % 2 ^ 64 * 2 ^ 192 + b % 2 ^ 64 * 2 ^ 256 + c % 2 ^ 64 * 2 ^ 320 + d % 2 ^ 64 * 2 ^ 384 +
    e % 2 ^ 64 * 2 ^ 448)

/-- The packet with its lap (R266). -/
def withLap (p : BitVec 512) (lap : Nat) : BitVec 512 := BitVec.ofNat 512 (p.toNat - pf p 32 32 * 2 ^ 32 + lap % 2 ^ 32 * 2 ^ 32)

/-- L(i) (R265). -/
def lapOf (i lsize : Nat) : Nat := (i / 2 ^ lsize + 1) % 2 ^ 32

/-- The code of an engine (Table 17-2) by its number in a queue descriptor. -/
def engineCode (e : Nat) : Nat := if e = 0 then 4 else 5 + e

/-- The engine number that serves a kind; none for kinds that any front end serves. -/
def kindEngine (k : Nat) : Option Nat :=
  if k = 2 then some 0 else if 0x10 ≤ k ∧ k < 0x70 then some (k / 16) else none

/-- The kinds of Table 13-2 that are not reserved (R291, R315, R401, R411). -/
def kindLegal (k : Nat) : Bool :=
  k ≤ 3 || (0x10 ≤ k && k ≤ 0x16) || k == 0x18 || k == 0x19 || k == 0x20 || k == 0x30 || k == 0x40 || k == 0x50 || k == 0x51 || k == 0x60

/-- The body words of a kind that hold places (R288, R291, R320, R401). -/
def placeWords (k : Nat) : List Nat :=
  if k < 0x10 ∨ 0x51 < k then [] else if (0x14 ≤ k ∧ k ≤ 0x16) ∨ k = 0x19 then [1, 3] else [1, 2, 3]

/-- The kinds that take job cards (R262, R291). -/
def cardKind (k : Nat) : Bool := (0x10 ≤ k && k ≤ 0x13) || k == 0x20 || k == 0x30 || k == 0x40

/-- A packet is a card of a commit domain (R275). -/
def isCard (p : BitVec 512) : Bool := pCard p && cardKind (pKind p)

/-- A packet breaks a check of R267, R288 or R291 in a queue of this engine and unit. -/
def malformed (p : BitVec 512) (engine unit : Nat) : Bool :=
  let k := pKind p
  let cmpl := pf p 9 2
  let tsv := pCard p
  let local_ (i : Nat) : Bool := decide (pf p (192 + 64 * i + 56) 8 = 0x80)
  let ps := placeWords k
  !kindLegal k || p.getLsbD 11 || p.getLsbD 15 || decide (pf p 29 3 ≠ 0) || decide (cmpl = 3) || decide (4 < pf p 12 3) ||
    (tsv && !(0x10 ≤ k && k ≤ 0x4F)) || (!tsv && decide (pTs p ≠ 0)) || (decide (cmpl ≠ 2) && decide (pf p 128 64 ≠ 0)) ||
    ((k == 0x20 || k == 0x30) && !tsv) || (0x14 ≤ k && k ≤ 0x19 && tsv) ||
    (match kindEngine k with
     | some e => decide (e ≠ engine)
     | none => false) ||
    ((k == 0 || k == 3) && decide (pf p 192 320 ≠ 0)) || (k == 1 && decide (pf p 320 192 ≠ 0)) ||
    (k == 2 && decide (pf p 384 128 ≠ 0)) ||
    ((0x10 ≤ k && k ≤ 0x3F) && (decide (pf p 464 48 ≠ 0) || (!(k == 0x20 || k == 0x30) && decide (pf p 448 8 ≠ 0)) ||
      (!(k == 0x18 || k == 0x19) && decide (pf p 456 8 ≠ 0)) || (k == 0x18 && decide (1 < pf p 456 8)) ||
      (k == 0x19 && decide (4 < pf p 456 8)))) || (k == 0x40 && decide (pf p 456 56 ≠ 0)) ||
    (k == 0x50 && (decide (pf p 456 56 ≠ 0) || decide (1 < pf p 448 8))) || (k == 0x51 && decide (pf p 448 64 ≠ 0)) ||
    (ps.any local_ && (decide (cmpl ≠ 1) || ps.any (fun i => local_ i && decide (pf p (192 + 64 * i + 23) 33 ≠ 0)))) ||
    (decide (k / 16 = 1) && decide (pCore p ≠ unit))

/-! ## Placing packets (R271, R272, R276, R291, R292) -/

/-- A packet of the present group for the queue port. -/
def State.portPkt (s : State) (q : Nat) (p : BitVec 512) : QPkt :=
  { q := q, desc := mget 0 s.me.im.qb q, pkt := p, claim := none, sent := false, slot := 0, at_ := s.cyc + 1, wait := .go,
    origin := s.mySeq.index, ctx := s.me.ctx,
    launch := (match s.me.im.seg with
      | some g => g.launch
      | none => 0) }

/-- Packets placed in the port, which has room for them all, or the group waits (R271). -/
def State.place (s : State) (l : List (Nat × BitVec 512)) (k : State → Act) : Act :=
  if 16 < s.me.units.port.length + l.length then .wait s 0xA 0 0
  else k (s.modUnits s.cur.core (fun u => { u with port := u.port ++ l.map (fun x => s.portPkt x.1 x.2) }))

/-- The effect of an ENG instruction (R271, R291, R292): `card` is the commit domain of a job card. -/
def actEng (kind sub : Nat) (card : Option Nat) (ep : Bool) (f : EngF) (s : State) : Act :=
  let jts := mget 0 s.me.im.jts (card.getD 0)
  let step := fld jts.toNat 48 16
  let next := fld jts.toNat 0 48
  if f.start ≠ 0 ∨ mget 0 s.me.im.qb f.q.toNat = 0 ∨ (card.isSome ∧ step = 0) then s.opTrap 0xB
  else
    let p := packet kind (b2n card.isSome) 1 3 f.sem.toNat s.cur.core (if card.isSome then next else 0) (s.rd f.a).toNat (s.rd f.b).toNat
      (s.rd f.c).toNat (s.rd f.d).toNat ((if ep then f.ep.toNat else 0) + sub * 256)
    s.place [(f.q.toNat, p)] (fun s1 =>
      let s2 := s1.releaseNext s.cur.core 3
      .done (match card with
        | none => s2
        | some k => s2.modIm s.cur.core (fun im =>
            { im with jts := mset im.jts k (BitVec.ofNat 64 (step * 2 ^ 48 + (next + step) % 2 ^ 48)) })))

/-- The registers an ENG instruction reads. -/
def engReads (f : EngF) : List (BitVec 5) := [f.a, f.b, f.c, f.d]

/-- An `ixe` instruction; `.ts` makes it a job card. -/
def actIxe (kind : Nat) (f : EngF) (s : State) : Act := actEng kind 0 (if f.var.getLsbD 3 then some 0 else none) false f s

/-- IXE_GATHER (R291). -/
def execIxeGather (f : EngF) (s : State) : Host.Outcome State Fault Refusal := issue s (engReads f) (actIxe 0x10 f)
/-- IXE_SCATTER (R291). -/
def execIxeScatter (f : EngF) (s : State) : Host.Outcome State Fault Refusal := issue s (engReads f) (actIxe 0x11 f)
/-- IXE_DEDUP (R291): register a is g0. -/
def execIxeDedup (f : EngF) (s : State) : Host.Outcome State Fault Refusal :=
  issue s (engReads f) (fun s => if f.a ≠ 0 then s.opTrap 0xB else actIxe 0x12 f s)
/-- IXE_BUCKET (R291). -/
def execIxeBucket (f : EngF) (s : State) : Host.Outcome State Fault Refusal := issue s (engReads f) (actIxe 0x13 f)
/-- WLPUSH (R291). -/
def execWlpush (f : EngF) (s : State) : Host.Outcome State Fault Refusal := issue s (engReads f) (actEng 0x14 0 none false f)
/-- WLPOP (R291). -/
def execWlpop (f : EngF) (s : State) : Host.Outcome State Fault Refusal := issue s (engReads f) (actEng 0x15 0 none false f)
/-- WLDIN (R291). -/
def execWldin (f : EngF) (s : State) : Host.Outcome State Fault Refusal := issue s (engReads f) (actEng 0x16 0 none false f)
/-- POOL (R291). -/
def execPool (f : EngF) (s : State) : Host.Outcome State Fault Refusal := issue s (engReads f) (actEng 0x20 0 (some 1) true f)
/-- SUPD (R291). -/
def execSupd (f : EngF) (s : State) : Host.Outcome State Fault Refusal := issue s (engReads f) (actEng 0x30 0 (some 2) true f)
/-- SKQ (R291). -/
def execSkq (f : EngF) (s : State) : Host.Outcome State Fault Refusal := issue s (engReads f) (actEng 0x18 0 none false f)
/-- SKQ_ADD (R291). -/
def execSkqAdd (f : EngF) (s : State) : Host.Outcome State Fault Refusal := issue s (engReads f) (actEng 0x18 1 none false f)

/-- The effect of a `hrch` form: register c is g0 (R291). -/
def actHrch (sub : Nat) (f : EngF) (s : State) : Act := if f.c ≠ 0 then s.opTrap 0xB else actEng 0x19 sub none false f s

/-- HRCH_FILL (R291). -/
def execHrchFill (f : EngF) (s : State) : Host.Outcome State Fault Refusal := issue s (engReads f) (actHrch 0 f)
/-- HRCH_EVICT (R291). -/
def execHrchEvict (f : EngF) (s : State) : Host.Outcome State Fault Refusal := issue s (engReads f) (actHrch 1 f)
/-- HRCH_FLUSH (R291). -/
def execHrchFlush (f : EngF) (s : State) : Host.Outcome State Fault Refusal := issue s (engReads f) (actHrch 2 f)
/-- HRCH_PIN (R291). -/
def execHrchPin (f : EngF) (s : State) : Host.Outcome State Fault Refusal := issue s (engReads f) (actHrch 3 f)
/-- HRCH_UNPIN (R291). -/
def execHrchUnpin (f : EngF) (s : State) : Host.Outcome State Fault Refusal := issue s (engReads f) (actHrch 4 f)

/-- The effect of `qpush` (R272). -/
def actQpush (f : StoF) (s : State) : Act :=
  let la := f.la.toNat
  let n := f.n.toNat
  let q := f.q.toNat
  if n = 0 then .done s
  else if la % 64 ≠ 0 then memTrap 0x40 la (memStatus 0 0 0 0 0)
  else
    match s.me.checkLocal s.me.ctx s.tstep la (64 * n) true with
    | some (cause, slab, addr) => memTrap cause addr (memStatus 0 0 0 0 slab)
    | none =>
      if mget 0 s.me.im.qb q = 0 then s.opTrap 0xB
      else
        s.place ((pieces 64 (s.me.bytes la (64 * n))).map (fun bs => (q, BitVec.ofNat 512 (leNat bs)))) (fun s1 => .done s1)

/-- QPUSH (R272). -/
def execQpush (f : StoF) (s : State) : Host.Outcome State Fault Refusal := issue s [] (actQpush f)

/-- The queues a `qfence` names. -/
def fenceQueues (f : MgtF) : List Nat := (upTo 0 16).filter (fun q => f.n.getLsbD q)

/-- The effect of `qfence` (R276): join packets, and for `.w` a wait of K for the join word. -/
def actQfence (w : Bool) (f : MgtF) (s : State) : Act :=
  let qs := fenceQueues f
  let va := s.rd f.a
  let target := qs.length
  if qs.isEmpty then .done s
  else if va.toNat % 8 ≠ 0 then memTrap 0x40 va.toNat (memStatus 0 0 1 0 0)
  else if qs.any (fun q => mget 0 s.me.im.qb q == 0) then s.opTrap 0xB
  else
    let pkts := qs.map (fun q => (q, packet 1 0 0 3 0 0 0 va.toNat target 0 0 0))
    if w then
      if s.me.timed then .wait s 0xA 0 0
      else
        s.kAccess 0 va 8 (fun s ps => s.place pkts (fun s1 =>
          .done ((s1.releaseNext s.cur.core 3).modMs s.cur.core (fun m =>
            { m with hold := some (.join va ((ps.map (fun p => p.pa)).headD 0) target s.mySeq.index) }))))
    else s.place pkts (fun s1 => .done (s1.releaseNext s.cur.core 3))

/-- QFENCE (R276). -/
def execQfence (f : MgtF) (s : State) : Host.Outcome State Fault Refusal := issue s [f.a] (actQfence false f)
/-- QFENCE_W (R276). -/
def execQfenceW (f : MgtF) (s : State) : Host.Outcome State Fault Refusal := issue s [f.a] (actQfence true f)

/-! ## Accesses of an agent -/

/-- How a piece of an engine's work ends: with a value; at a fault record or in backoff; waiting for another module; or with a failure:
cause, element and address. -/
inductive EngR (α : Type) where
  | ok (a : α) (s : State)
  | stand (w : FWait) (s : State)
  | wait (s : State)
  | fail (cause run : Nat) (addr : Word) (s : State)

/-- What follows a piece of work that ends with a value. -/
def EngR.andThen {α β : Type} (x : EngR α) (f : α → State → EngR β) : EngR β :=
  match x with
  | .ok a s => f a s
  | .stand w s => .stand w s
  | .wait s => .wait s
  | .fail c r a s => .fail c r a s

/-- A failure, or an access that stands, without an element is given one. -/
def EngR.at {α : Type} (x : EngR α) (i : Nat) : EngR α :=
  match x with
  | .fail c _ a s => .fail c i a s
  | .stand (.stands d r _) s => .stand (.stands d r i) s
  | y => y

/-- Work on each of a list, in order, collecting the values. -/
def engMap {α β : Type} (f : Nat → α → State → EngR β) : Nat → List α → State → EngR (List β)
  | _, [], s => .ok [] s
  | i, a :: r, s => (f i a s).andThen (fun b s => (engMap f (i + 1) r s).andThen (fun bs s => .ok (b :: bs) s))

/-- Who makes an access (Table 12-6): its number in requests to other modules, its stream TLB, context, core and die, unit code and number,
engine code (Table 17-2), whether a failure asserts its core's wire, how the access stands, and whether its stream falls (R252). -/
structure Agent where
  id : Nat
  tlb : Nat
  ctx : Nat
  core : Nat
  wire : Bool
  unit : Nat
  uidx : Nat
  engine : Nat
  wait : FWait
  down : Bool := false
  deriving DecidableEq, Repr

/-- A walk that an agent's access needs meets an uncorrectable error (R348, R388): the page-table entry. -/
def State.walkHit (s : State) (g : Agent) (va : Word) (n : Nat) : Option Nat :=
  if s.bad.isEmpty && !s.linkErr.contains g.core then none
  else
    firstSome (fun p =>
      let v := BitVec.ofNat 64 p.1
      if (mget [] s.stlb g.tlb).any (fun e => e.covers g.ctx v) then none else s.walkFails g.core (s.rootOf g.ctx) v) (partsOf va n)

/-- The parts of n bytes at an address, translated for an agent; one that is not canonical fails first (R246). -/
def State.reach (s : State) (g : Agent) (kind : Nat) (va : Word) (n : Nat) : EngR (List (Nat × Nat)) :=
  match badPart 0 ((partsOf va n).map (fun p => BitVec.ofNat 64 p.1)) with
  | some (v, _) => .fail 0x45 0 v s
  | none =>
  match s.walkHit g va n with
  | some pa => .fail 0x83 0 va (s.engineError g.core pa va g.ctx 0x83 g.engine)
  | none =>
  let r := if g.wire then s.engineAccess g.core g.tlb g.ctx g.unit g.uidx kind g.down g.wait va n
    else s.frontAccess (dieOf g.core) g.tlb g.ctx g.unit g.uidx kind g.down g.wait va n
  match r with
  | .bad cause v => .fail cause 0 v s
  | .stand w s' => .stand w s'
  | .ok ps s' =>
    match s'.partsRefused g.core kind ps with
    | some (cause, pa) => .fail cause 0 va (s'.engineError g.core pa va g.ctx cause g.engine)
    | none => if s'.partsHeld (if 1024 ≤ g.id then some (g.id - 1024) else none) kind ps then .stand s'.heldWait s' else .ok ps s'

/-- The bytes of translated parts, read for an agent (R274). -/
def State.takeParts (s : State) (g : Agent) (va : Word) (ps : List (Nat × Nat)) : EngR (List Byte) :=
  match s.readParts g.id g.ctx ps with
  | .ok bs s' => .ok bs s'
  | .wait s' => .wait s'
  | .bad cause pa => .fail cause 0 va (s.engineError g.core pa va g.ctx cause g.engine)

/-- n bytes at an address, read for an agent. -/
def State.gread (s : State) (g : Agent) (va : Word) (n : Nat) : EngR (List Byte) :=
  (s.reach g 0 va n).andThen (fun ps s => s.takeParts g va ps)

/-- The identifier of a domain atomic that is sent (R397): of a queue port its K's %rid, which goes on; an engine or a host has none, and takes one of its
core's that its K comes to last, a different one each time. DESIGN CHOICE (log 50). -/
def State.newRid (s : State) (port : Bool) (core : Nat) : Nat × State :=
  let rid := (s.core core).im.rid.toNat % 2 ^ 25
  if port then (core * 2 ^ 25 + rid, s.modIm core (fun im => { im with rid := BitVec.ofNat 64 ((rid + 1) % 2 ^ 25) }))
  else (core % 128 * 2 ^ 25 + 2 ^ 24 + s.serial % 2 ^ 24, { s with serial := s.serial + 1 })

/-- A domain atomic of an agent is sent (R397), and counted among those of the last 1 ms (R398). -/
def State.askAtomic (s : State) (port : Bool) (core agent m aop size ctx off : Nat) (v cv : Word) (pa : Nat) : State :=
  let r := s.newRid port core
  let s1 := r.2.domainSend m 3 aop 0 size 3 ctx 0 r.1 off v cv [] (128 + agent) pa
  { s1 with dom := { s1.dom with sent := (m, s.cyc) :: s1.dom.sent.filter (fun p => decide (s.cyc < p.2 + oneMs)) } }

/-- An atomic of an agent on 8 bytes (R242): its old value. -/
def State.gatomic (s : State) (g : Agent) (aop : Nat) (va v : Word) : EngR Nat :=
  (s.reach g 2 va 8).andThen (fun ps s =>
    let pa := (ps.map (fun p => p.1)).headD 0
    match s.paKind pa with
    | .window m off =>
      match s.answer g.id pa with
      | some a =>
        if a.cause ≠ 0 then .fail a.cause 0 va (s.engineError g.core pa va g.ctx a.cause g.engine) else .ok (leNat (a.bytes.take 8)) s
      | none =>
        if s.asking g.id pa then .wait s
        else if 4096 ≤ s.sentRecently m then .wait s
        else .wait (s.askAtomic (decide (2048 ≤ g.id)) g.core g.id m aop 3 g.ctx off v 0 pa)
    | _ =>
      let old := s.homeNat pa 8
      .ok old (match atomicNew aop 0 64 old v.toNat 0 with
        | some x => s.homeWrite pa (leBytes 8 x)
        | none => s))

/-- A wait of an agent that may be tried; a delivered fault ends it. -/
def FWait.resume {α : Type} (w : FWait) (s : State) (k : EngR α) : Option (EngR α) :=
  match w with
  | .deliver cause va run => some (.fail cause run va s)
  | x => if x.ready s.cyc then some k else none

/-! ## The queue port (R271, R446) -/

/-- The agent of a core's queue port (R446): it translates with the TLB of the core's K. -/
def State.portAgent (_s : State) (c : Nat) (k : QPkt) : Agent :=
  { id := 2048 + c, tlb := 2048 + c, ctx := k.ctx, core := c, wire := true, unit := 5, uidx := k.q, engine := 5, wait := k.wait }

/-- The port's stream is the TLB of K: it is looked up there first, and what it walks for is kept there (R446). -/
def State.portTlb (s : State) (c : Nat) : State := { s with stlb := mset s.stlb (2048 + c) (s.core c).ms.tlb }

/-- The port's translations go back to the TLB of K. -/
def State.portTlbBack (s : State) (c : Nat) : State :=
  let l := mget [] s.stlb (2048 + c)
  { s.modMs c (fun m => { m with tlb := (l.take 1 ++ m.tlb.filter (fun e => !(l.take 1).contains e)).take 2112 }) with
    stlb := mdel s.stlb (2048 + c) }

/-- The head of the port changed. -/
def State.setPortHead (s : State) (c : Nat) (k : QPkt) : State :=
  s.modUnits c (fun u =>
    { u with port := match u.port with
        | _ :: r => k :: r
        | [] => [] })

/-- The head of the port leaves it. -/
def State.popPort (s : State) (c : Nat) : State := (s.modUnits c (fun u => { u with port := u.port.drop 1 })).forget (2048 + c)

/-- A packet of the port is dropped: a pending error of K (R446). -/
def State.dropPkt (s : State) (c : Nat) (k : QPkt) (cause : Nat) (va : Word) : State :=
  (s.popPort c).setPending c k.ctx
    { cause := cause, engine := 5, uidx := k.q, status := impStatus 3 k.origin, addr := va, cmd := k.origin, packet := false, seq := 0 }

/-- A packet has reached its slot: it leaves the port, and who placed it is remembered (R269). -/
def State.placed1 (s : State) (c : Nat) (k : QPkt) (i : Nat) : State :=
  let s1 := s.popPort c
  { s1 with placed := s1.placed ++
      [{ core := c, ctx := k.ctx, launch := k.launch, desc := k.desc, slot := i, kind := pKind k.pkt, failed := false }] }

/-- What a queue descriptor holds of base, ridx and lsize (Table 13-3). -/
def descBase (bs : List Byte) : Nat := leNat (bs.take 8)
/-- ridx of a queue descriptor. -/
def descRidx (bs : List Byte) : Nat := leNat ((bs.drop 16).take 8)
/-- lsize of a queue descriptor. -/
def descLsize (bs : List Byte) : Nat := leNat ((bs.drop 24).take 1)

/-- The address of a slot. -/
def slotVa (base lsize i : Nat) : Word := BitVec.ofNat 64 (base + 64 * (i % 2 ^ lsize))

/-- The next access of the packet at the head of the port (R265, R446): the descriptor's read and the claim; or the wait for room and the writes of the slot. The
answer is the state after it. -/
def State.portWork (s : State) (c : Nat) (k : QPkt) : EngR State :=
  let g := s.portAgent c k
  match k.claim with
  | none =>
    ((s.gread g k.desc 64).andThen (fun _ s0 => s0.gatomic g 0x54 (k.desc + 8) 1)).andThen (fun i s1 =>
      .ok ((s1.forget g.id).setPortHead c { k with claim := some i, at_ := s.cyc, wait := .go }) s1)
  | some i =>
    (s.gread g k.desc 64).andThen (fun bs s1 =>
      let lsize := descLsize bs
      if descRidx bs + 2 ^ lsize ≤ i then
        .ok ((s1.forget g.id).setPortHead c { k with at_ := s.cyc + 1, wait := .go }) s1
      else
        let va := slotVa (descBase bs) lsize i
        (s1.reach g 1 va 64).andThen (fun ps s2 =>
          let bs := leBytes 64 (withLap k.pkt (lapOf i lsize)).toNat
          let pa := (ps.map (fun p => p.1)).headD 0
          let s3 := (s2.writeParts g.id g.ctx 3 [(pa + 8, 56)] (bs.drop 8)).writeParts g.id g.ctx 3 [(pa, 8)] (bs.take 8)
          let s4 := s3.forget g.id
          .ok (if s4.writesOut g.id then s4.setPortHead c { k with sent := true, slot := va } else s4.placed1 c k i) s2))

/-- The port of a core takes its next step, behind the releases of K that have yet to take effect (R235, R271). -/
def State.portStep (s : State) (c : Nat) : Option State :=
  match (s.core c).units.port with
  | [] => none
  | k :: _ =>
    if s.cyc < k.at_ ∨ (s.core c).ms.rels ≠ [] ∨ s.dom.reqs.any (fun r => decide (r.core = 128 + (2048 + c)) && !r.skip) = true then none
    else if k.sent then
      match s.dom.answers.find? (fun a => decide (a.agent = 2048 + c) && decide (a.cause ≠ 0)) with
      | some a => some ((s.engineError c a.pa k.slot k.ctx a.cause 5).dropPkt c k a.cause k.slot)
      | none => some (s.placed1 c k (k.claim.getD 0))
    else
      match k.wait.resume s ((s.portTlb c).portWork c k) with
      | none => none
      | some (.ok t _) => some (t.portTlbBack c)
      | some (.wait t) => some (t.portTlbBack c)
      | some (.stand w t) => some ((t.portTlbBack c).setPortHead c { k with wait := w })
      | some (.fail cause _ va t) => some (((t.portTlbBack c)).dropPkt c k cause va)

/-- QUEUE_PORT_WRITE (R265, R446): the queue port claims a slot, waits for room, and writes its oldest packet. -/
def execQueuePortWrite (c : Nat) (s : State) : Host.Outcome State Fault Refusal :=
  coreEvent "QUEUE_PORT_WRITE" c (s.portStep c)

/-! ## Front ends (R264, R266, R267, R445) -/

/-- A queue's front end changed. -/
def State.setFront (s : State) (q : Nat) (f : Front) : State :=
  s.modDie (q / 256) (fun d => { d with fronts := mset d.fronts (q % 256) f })

/-- The queue table entry of a queue. -/
def State.qent (s : State) (q : Nat) : QEnt :=
  mget { v := false, desc := 0, ctx := 0, saved := false, prog := 0 } (s.die (q / 256)).qtab (q % 256)

/-- The core of the engine that serves a queue: an index engine's own (R293); else core 0 of the die. -/
def Front.core (f : Front) (q : Nat) : Nat := if f.engine = 1 then f.unit % 128 else 64 * (q / 256)

/-- The stream TLB of a front end or of its engine's accesses (Table 12-5): an index engine has one of its own, and each queue channel of a copy
engine; the queues of any other engine of a die share its front end's. -/
def Front.tlb (f : Front) (q : Nat) (work : Bool) (chan : Nat) : Nat :=
  if f.engine = 1 then 544 + f.unit % 128
  else if f.engine = 0 ∧ work = true then 688 + 16 * (q / 256) + chan
  else 672 + 8 * (q / 256) + f.engine

/-- The front end with the page of its descriptor as its translator finds it now, when a translation of its context has been dropped (R258): what it
had, where it finds none in this module. -/
def State.retranslated (s : State) (q : Nat) (f : Front) : Front :=
  let e := s.qent q
  let va := e.desc + 8
  let tr : Option TlbEnt := match (mget [] s.stlb (f.tlb q false 0)).find? (fun t => t.serves e.ctx va 0) with
    | some t => some t
    | none =>
      match s.walkPage e.ctx (s.rootOf e.ctx) va 0 with
      | .ok t => some t
      | .error _ => none
  match tr with
  | some t => if s.paKind (t.pa va) = .home then { f with wpa := t.pa va } else f
  | none => f

/-- A queue's front end. -/
def State.front (s : State) (q : Nat) : Option Front :=
  (mfind (s.die (q / 256)).fronts (q % 256)).map (fun f => if f.fresh then f else s.retranslated q f)

/-- The agent of a front end (R445) or, with `work`, of its engine's own accesses (R252), on a queue channel if they are a copy's. -/
def Front.agent (f : Front) (q ctx : Nat) (w : FWait) (work : Bool) (chan : Nat) : Agent :=
  { id := 1024 + q, tlb := f.tlb q work chan, ctx := ctx, core := f.core q, wire := work && decide (f.engine = 1),
    unit := if f.engine = 0 then 1 else if f.engine = 1 then 2 else 4, uidx := f.unit % 64, engine := engineCode f.engine, wait := w }

/-- A context runs on some core (R381). -/
def State.running (s : State) (ctx : Nat) : Bool := s.cores.any (fun p => p.2.bound && decide (p.2.ctx = ctx))

/-- The address, in memory, of a queue's descriptor. -/
def Front.desc (f : Front) : Nat := f.wpa - 8

/-- State of a queue (Table 13-3), read at its home. -/
def State.queueState (s : State) (f : Front) : Nat := s.homeNat (f.desc + 32) 1 % 4

/-- A queue stops (R269): state, errcause, errstat and erraddr are written; a card of a later slot that has not begun is not taken. -/
def State.stopQueue (s : State) (q i cause : Nat) (st : Half) (addr : Word) : State :=
  match s.front q with
  | none => s
  | some f =>
    let s1 := s.homeWrite (f.desc + 32) [BitVec.ofNat 8 (s.homeNat (f.desc + 32) 1 / 4 * 4 + 1)]
    let s2 := s1.homeWrite (f.desc + 35) (leBytes 13 (cause + st.toNat * 2 ^ 8 + addr.toNat * 2 ^ 40))
    { s2 with works := s2.works.filter (fun w => !(decide (w.2.q = q) && decide (i < w.2.idx) && pCard w.2.pkt && decide (w.2.stage = .taken))) }

/-- A class 2 record for the management core alone (R346). -/
def State.managementRecord (s : State) (d core ctx cause engine uidx : Nat) (st : Half) (addr : Word) (cmd : Nat) : State :=
  s.postRecord d { seg := 0, addr := addr, tstep := s.tstep, sched := 0, status := st, cmd := cmd % 2 ^ 16, cause := cause,
                   engine := engine, uidx := uidx % 64, seq := 0, cls := 2, ctx := ctx, die := dieOf core, core := core % 64, npend := 0, more := 0,
                   waits := false, pend := false }

/-- The entry that says who placed a packet. -/
def State.placer (s : State) (q i : Nat) : Option Placed :=
  let e := s.qent q
  s.placed.find? (fun p => decide (p.desc = e.desc) && decide (p.ctx = e.ctx) && decide (p.slot = i))

/-- A packet is no longer awaited. -/
def State.unplace (s : State) (q i : Nat) : State :=
  match s.placer q i with
  | some p => { s with placed := s.placed.erase p }
  | none => s

/-- A packet that has failed: it may be taken again, so who placed it stays known (R269). -/
def State.failPlaced (s : State) (q i : Nat) : State :=
  match s.placer q i with
  | some p => { s with placed := s.placed.map (fun x => if x = p then { x with failed := true } else x) }
  | none => s

/-- The core that placed a packet is frozen in the context it placed it for (R256). -/
def State.packetFrozen (s : State) (q i : Nat) : Bool :=
  match s.placer q i with
  | some p => (s.core p.core).stops.frozen && (s.core p.core).bound && decide ((s.core p.core).ctx = p.ctx)
  | none => false

/-- The failure of a packet is reported (R269, R346): a pending error of the K whose core placed it, else a record for the management
core. -/
def State.reportPacket (s : State) (q i cause engine unit : Nat) (st : Half) (addr : Word) : State :=
  match s.placer q i with
  | some p =>
    (s.failPlaced q i).setPending p.core p.ctx
      { cause := cause, engine := engine, uidx := unit % 64, status := st, addr := addr, cmd := i % 2 ^ 16, packet := true, seq := 0 }
  | none => s.managementRecord (q / 256) (64 * (q / 256)) (s.qent q).ctx cause engine unit st addr i

/-- The commit domain of a packet's kind (R275). -/
def cardClass (k : Nat) : Nat := k / 16 - 1

/-- The commit point of a domain (R275, Table 18-5). -/
def State.cp (s : State) (ctx cls : Nat) : Nat :=
  match s.ctxDesc ctx with
  | some a => s.homeNat (a + 0x30 + 8 * cls) 8 % 2 ^ 48
  | none => 0

/-- The commit point goes past a card (R275). -/
def State.advanceCp (s : State) (ctx cls : Nat) : State :=
  match s.ctxDesc ctx with
  | some a => s.homeWrite (a + 0x30 + 8 * cls) (leBytes 8 ((s.cp ctx cls + 1) % 2 ^ 48))
  | none => s

/-- Another taken card of the domain, not completed, has this timestamp (R275). -/
def State.cardTaken (s : State) (ctx cls ts : Nat) : Bool :=
  s.works.any (fun w => decide (w.2.ctx = ctx) && isCard w.2.pkt && decide (cardClass (pKind w.2.pkt) = cls) && decide (pTs w.2.pkt = ts) &&
    decide (w.2.cause ≠ 0x65))

/-- A packet as its engine takes it. -/
def newWork (q i ctx : Nat) (p : BitVec 512) (cause : Nat) (at_ : Nat) : Work :=
  { q := q, idx := i, ctx := ctx, pkt := p, stage := .taken, out := [], posts := [], frames := [], cause := cause, run := 0, pos := [],
    erraddr := 0, errstat := engStatus (pKind p) 0 0, at_ := at_, joined := false, parts := [], since := at_, wait := .go,
    chan := 0, buf := [], signalled := false, ext := none }

/-- The address of the 64-byte descriptor that a packet's engine reads when it takes it (R285, R315). -/
def descVa (p : BitVec 512) : Option Word :=
  let k := pKind p
  if k == 0x10 || k == 0x11 || k == 0x13 || k == 0x18 || k == 0x19 || k == 0x20 || k == 0x30 || k == 0x40 then some (pBody p 0) else none

/-- The lowest queue channel of a die's copy engine that serves no copy (R279). -/
def State.freeChan (s : State) (d : Nat) : Option Nat :=
  (upTo 0 16).find? (fun c => !s.works.any (fun w => decide (w.2.q / 256 = d) && decide (pKind w.2.pkt = 2) && decide (w.2.chan = c)))

/-- The packet that a front end takes next: the first, from ridx up, that has neither completed nor been taken. -/
def State.nextSlot (s : State) (q : Nat) (f : Front) : Nat :=
  let busy (i : Nat) : Bool := f.done.contains i || s.works.any (fun w => decide (w.2.q = q) && decide (w.2.idx = i))
  ((upTo f.ridx (f.done.length + s.works.length + 1)).find? (fun i => !busy i)).getD f.ridx

/-- The order of R273 allows a packet to begin. -/
def State.orderAllows (s : State) (q : Nat) (card : Bool) : Bool :=
  s.works.all (fun w => decide (w.2.q ≠ q) || (card && pCard w.2.pkt))

/-- A release by a packet's header (R263), of a semaphore. -/
def State.signalHeader (s : State) (ctx : Nat) (p : BitVec 512) : State :=
  if pf p 9 2 = 1 then s.signalSem (pCore p) ctx (pf p 16 6) else s

/-- The aadd of 1 on a memory word by which a packet completes (R263); other packets need none. -/
def State.signalWord (s : State) (g : Agent) (p : BitVec 512) : EngR Unit :=
  if pf p 9 2 = 2 then
    let va := BitVec.ofNat 64 (pf p 128 64)
    if va.toNat % 8 ≠ 0 then .fail 0x40 0 va s
    else (s.gatomic g 0x54 va 1).andThen (fun _ s => .ok () (s.forget g.id))
  else .ok () s

/-- A malformed packet of the embedding engines, or of the exchange engine, still leaves its record (R290, R400: whether it succeeds or fails), where
its own engine has it and the record's place is valid. DEDUCED (log 29). -/
def leavesRecord (p : BitVec 512) (engine unit : Nat) : Bool :=
  let k := pKind p
  kindLegal k && ((decide (0x10 ≤ k) && decide (k ≤ 0x3F)) || decide (k / 16 = 5)) && decide (kindEngine k = some engine) &&
    (decide (pf p 440 8 ≠ 0x80) ||
      (decide (pf p 407 33 = 0) && decide (pf p 9 2 = 1) && (decide (engine ≠ 1) || decide (pCore p = unit))))

/-- A packet that was read and may begin is taken (R266, R267, R275). A malformed one has nothing to do but fail (R269), a job card among them at
its timestamp, with its record if it leaves one. -/
def State.takePacket (s : State) (q i : Nat) (f : Front) (p : BitVec 512) : State :=
  let ctx := (s.qent q).ctx
  let cls := cardClass (pKind p)
  let bad := malformed p f.engine f.unit
  let dup := isCard p && (decide (pTs p < s.cp ctx cls) || s.cardTaken ctx cls (pTs p))
  let l := s.later 1
  let x := newWork q i ctx p (if bad then 0x63 else if dup then 0x65 else 0) l.1
  let y : Work :=
    if bad && !leavesRecord p f.engine f.unit then
      { x with stage := if isCard p && decide (kindEngine (pKind p) = some f.engine) then .performed else .committed }
    else { x with chan := if pKind p = 2 then (s.freeChan (q / 256)).getD 0 else 0 }
  { l.2 with works := mset l.2.works l.2.serial y, serial := l.2.serial + 1 }

/-- The front end finds the page of widx again, and reads it, once a translation of its context has been dropped (R258, R445). -/
def State.frontRenew (s : State) (q : Nat) (f : Front) : Option State :=
  let e := s.qent q
  let g := f.agent q e.ctx f.wait false 0
  match f.wait.resume s (s.reach g 0 (e.desc + 8) 8) with
  | none => none
  | some (.stand w t) => some (t.setFront q { f with wait := w })
  | some (.wait t) => some t
  | some (.fail cause _ va t) =>
    some (((t.setFront q { f with wait := .go }).stopQueue q f.ridx cause 0 va).managementRecord (q / 256) g.core e.ctx cause
      g.engine g.uidx 0 va f.ridx)
  | some (.ok ps t) =>
    let pa := (ps.map (fun p => p.1)).headD f.wpa
    some (t.setFront q { f with wait := .go, fresh := true, wpa := pa, widx := Nat.max f.widx (t.homeNat pa 8) })

/-- The next step of the front end of a queue, were it the only one of its engine. DEDUCED (log 29). -/
def State.frontTry (s : State) (q : Nat) : Option State :=
  match s.front q with
  | none => none
  | some f =>
    let e := s.qent q
    let i := s.nextSlot q f
    let g := f.agent q e.ctx f.wait false 0
    if e.v = false ∨ s.running e.ctx = false ∨ (f.engine = 6 ∧ s.jrnl.jctl.getLsbD 0 = false) ∨ s.cyc < f.at_ then none
    else if f.fresh = false then s.frontRenew q f
    else if s.queueState f ≠ 0 ∨ f.widx ≤ i ∨ s.dom.reqs.any (fun r => decide (r.core = 128 + g.id) && !r.skip) = true ∨ s.orderAllows q true = false ∨
        (f.engine = 0 ∧ (s.freeChan (q / 256)).isNone = true) ∨
        s.works.any (fun w => decide (w.2.q = q) && decide (w.2.stage = .committed) && decide (w.2.cause ≠ 0)) = true then none
    else
      match f.wait.resume s (s.gread g (slotVa f.base.toNat f.lsize i) 64) with
      | none => none
      | some (.stand w t) => some (t.setFront q { f with wait := w })
      | some (.wait t) => some t
      | some (.fail cause _ va t) =>
        some (((t.forget g.id).setFront q { f with wait := .go }).stopQueue q i cause 0 va |>.managementRecord (q / 256) g.core e.ctx cause
          g.engine g.uidx 0 va i)
      | some (.ok bs t) =>
        let p := BitVec.ofNat 512 (leNat bs)
        let lap := pf p 32 32
        let want := lapOf i f.lsize
        let t1 := t.forget g.id
        if lap = (want + 2 ^ 32 - 1) % 2 ^ 32 then
          (if t1.dom = s.dom then none else some (t1.setFront q { f with at_ := s.cyc + 64, wait := .go }))
        else if lap ≠ want then some ((t1.setFront q { f with wait := .go }).stopQueue q i 0x63 0 0)
        else if t1.orderAllows q (pCard p) = false ∨ (2 ≤ f.engine ∧ pCard p = true ∧ t1.packetFrozen q i = true) then
          (if t1.dom = s.dom then none else some (t1.setFront q { f with at_ := s.cyc + 64, wait := .go }))
        else
          some (((t1.setFront q { f with wait := .go, at_ := s.cyc + 1 }).takePacket q i f p).modDie (q / 256) (fun d =>
            { d with lastTake := mset d.lastTake f.engine (q % 256), takeAt := if 2 ≤ f.engine then mset d.takeAt f.engine (s.cyc + 64) else d.takeAt }))

/-- The priority of the requests of a context's engines (R377, Table 18-5). -/
def State.ctxPrio (s : State) (ctx : Nat) : Nat :=
  match s.ctxDesc ctx with
  | some a => fld (s.homeNat a 8) 10 3
  | none => 0

/-- How far a queue is from its turn among those of its engine: the one behind the last that was served comes first (R377). -/
def Die.turn (d : Die) (engine i : Nat) : Nat := (i + 256 - ((mget 255 d.lastTake engine) + 1)) % 256

/-- The other queues of the die that the same front end serves, and that come before a queue: of a higher priority, or of the same one with the
earlier turn (R377). -/
def State.aheadOf (s : State) (q : Nat) (f : Front) : List Nat :=
  let d := s.die (q / 256)
  let p := s.ctxPrio (s.qent q).ctx
  (d.fronts.filter (fun x => decide (x.2.engine = f.engine ∧ x.2.unit = f.unit ∧ x.1 ≠ q % 256) &&
    (let p2 := s.ctxPrio (s.qent (256 * (q / 256) + x.1)).ctx
     decide (p < p2) || (decide (p2 = p) && decide (d.turn f.engine x.1 < d.turn f.engine (q % 256)))))).map (fun x => 256 * (q / 256) + x.1)

/-- The front end of a queue takes its next step: one that serves an off-die engine takes a packet every 64 cycles, and of the queues that a front end
could go on with, the one of highest priority is served, round robin within a priority (R377). -/
def State.frontStep (s : State) (q : Nat) : Option State :=
  match s.front q with
  | none => none
  | some f =>
    if s.cyc < mget 0 (s.die (q / 256)).takeAt f.engine then none
    else
      match s.frontTry q with
      | none => none
      | some t => if (s.aheadOf q f).all (fun q2 => (s.frontTry q2).isNone) then some t else none

/-- FRONT_END_TAKE (R266, R267, R445). -/
def execFrontEndTake (q : Nat) (s : State) : Host.Outcome State Fault Refusal :=
  if 512 ≤ q then .fault .noSuchUnit else event "FRONT_END_TAKE" (s.frontStep q)

/-! ## Work, commit and completion (R263, R268, R269, R275) -/

/-- A packet that an engine has taken, changed. -/
def State.setWork (s : State) (w : Nat) (x : Work) : State := { s with works := mset s.works w x }

/-- The agent of a packet's accesses. -/
def State.workAgent (s : State) (x : Work) : Agent :=
  match s.front x.q with
  | some f => f.agent x.q x.ctx x.wait true x.chan
  | none => { id := 1024 + x.q, tlb := 672 + 8 * (x.q / 256) + (kindEngine (pKind x.pkt)).getD 0, ctx := x.ctx, core := 64 * (x.q / 256), wire := false, unit := 4, uidx := 0,
              engine := engineCode ((kindEngine (pKind x.pkt)).getD 0), wait := x.wait }

/-- What a packet has been found to do: its global and local writes, frames written, and how it ends. -/
structure Effect where
  out : List (Nat × List Byte)
  posts : List (Nat × Nat × List Byte)
  frames : List (Nat × List Byte)
  cause : Nat
  errstat : Half
  erraddr : Word
  deriving DecidableEq, Repr

/-- No writes, and success. -/
def Effect.none : Effect := { out := [], posts := [], frames := [], cause := 0, errstat := 0, erraddr := 0 }

/-- The core that placed a packet is trapped in the context it placed it for (R340). -/
def State.packetTrapped (s : State) (q i : Nat) : Bool :=
  match s.placer q i with
  | some p => decide ((s.core p.core).stops.stop ≠ .run) && (s.core p.core).bound && decide ((s.core p.core).ctx = p.ctx)
  | none => false

/-- An on-die packet that has not begun is not started while the group it is for is frozen (R256), or its core is trapped (R340). -/
def State.workFrozen (s : State) (x : Work) : Bool :=
  (decide (pKind x.pkt = 2) || decide (pKind x.pkt / 16 = 1)) && decide (x.run = 0) && !x.joined && decide (x.wait = .go) &&
    (s.packetFrozen x.q x.idx || s.packetTrapped x.q x.idx)

/-- A job card begins when its timestamp is the commit point, or at once if it is a duplicate (R275); one whose timestamp the commit point has
passed fails. -/
def State.cardTurn (s : State) (x : Work) : Bool :=
  !isCard x.pkt || decide (x.cause = 0x65) || decide (pTs x.pkt ≤ s.cp x.ctx (cardClass (pKind x.pkt)))

/-- The work of a packet may be done on this cycle. DEDUCED (log 30). -/
def State.workReady (s : State) (x : Work) : Bool :=
  decide (x.stage = .taken) && decide (x.at_ ≤ s.cyc) && s.cardTurn x && !s.workFrozen x &&
    !(s.dom.reqs.any (fun r => decide (r.core = 128 + (1024 + x.q)) && !r.skip))

/-- A card that the commit point has passed since it was taken fails with cause 0x65 (R275). -/
def State.lateCard (s : State) (x : Work) : Work :=
  if isCard x.pkt && decide (x.cause = 0) && decide (pTs x.pkt < s.cp x.ctx (cardClass (pKind x.pkt))) then { x with cause := 0x65 } else x

/-- An agent's answers without those that are data: error responses to its writes stay until it completes. -/
def State.forgetData (s : State) (agent : Nat) : State :=
  { s with dom := { s.dom with answers := s.dom.answers.filter (fun a => !(decide (a.agent = agent) && decide (a.cause = 0))) } }

/-- The slabs of a core that the local writes of a packet fill together (R214). -/
def fullSlabs (posts : List (Nat × Nat × List Byte)) (c : Nat) : List Nat :=
  ((posts.filter (fun p => decide (p.1 = c) && !p.2.2.isEmpty)).foldl (fun m p => coverSlabs m p.2.1 p.2.2.length) []).filterMap (fun p =>
    if p.2 = 2 ^ 2048 - 1 then some p.1 else none)

/-- The writes of a packet are performed (R274, R288): whole-slab writes of an index engine stamp slabs (R214). -/
def State.performWork (s : State) (x : Work) : State :=
  let ts := s.tstep
  let index := decide (pKind x.pkt / 16 = 1)
  let s1 := x.out.foldl (fun s p => s.writeParts (1024 + x.q) x.ctx (pf x.pkt 12 3) [(p.1, p.2.length)] p.2) s
  let s2 := x.posts.foldl (fun s p => s.posts p.1 (writePosts p.2.1 p.2.2)) s1
  if index then (nubBy (fun a b => a == b) (x.posts.map (fun p => p.1))).foldl (fun s c => s.posts c (stampPosts (fullSlabs x.posts c) ts)) s2 else s2

/-- The work of a packet is done: a job card keeps its writes until it commits, another packet makes them now. -/
def State.workDone (s : State) (w : Nat) (x : Work) (e : Effect) : State :=
  let l := s.later 1
  let y : Work := { x with stage := .performed, out := e.out, posts := e.posts, frames := e.frames, cause := e.cause,
                           errstat := if e.cause = 0 then engStatus (pKind x.pkt) 0 0 else e.errstat, erraddr := e.erraddr, wait := .go, at_ := l.1 }
  let s1 := l.2.forgetData (1024 + x.q)
  if isCard x.pkt then s1.setWork w y else (s1.performWork y).setWork w { y with stage := .committed }

/-- The effect of a failure that writes nothing. -/
def failEffect (x : Work) (cause run : Nat) (va : Word) : Effect :=
  { Effect.none with cause := cause, errstat := engStatus (pKind x.pkt) 0 run, erraddr := va }

/-- Do the work of a packet of one of some kinds. DEDUCED (log 16). -/
def State.doWork (s : State) (w : Nat) (kinds : Nat → Bool) (f : Work → State → EngR Effect) : Option State :=
  match mfind s.works w with
  | none => none
  | some x =>
    if kinds (pKind x.pkt) && s.workReady x then
      match x.wait.resume s (f x s) with
      | none => none
      | some (.ok e t) => some (t.workDone w x e)
      | some (.wait t) => some t
      | some (.stand v t) => some (t.setWork w { x with wait := v })
      | some (.fail cause run va t) => some (t.workDone w x (failEffect x cause run va))
    else none

/-- ridx goes past the packets that have completed in slot order (R268). -/
def State.advanceRidx (s : State) (q i : Nat) : State :=
  match s.front q with
  | none => s
  | some f =>
    let done := i :: f.done
    let r := ((upTo f.ridx (done.length + 1)).find? (fun j => !done.contains j)).getD f.ridx
    let s1 := s.setFront q { f with ridx := r, done := done.filter (fun j => decide (r ≤ j)) }
    if r = f.ridx then s1 else s1.homeWrite (f.desc + 16) (leBytes 8 r)

/-- A failed packet ends (R269). -/
def State.failPacket (s : State) (w : Nat) (x : Work) (cause : Nat) (st : Half) (addr : Word) : State :=
  let unit := ((s.front x.q).map (fun f => f.unit)).getD 0
  let engine := (s.workAgent x).engine
  let s1 : State := { s with works := mdel s.works w }
  ((s1.stopQueue x.q x.idx cause st addr).signalHeader x.ctx x.pkt).reportPacket x.q x.idx cause engine unit st addr

/-- NULL_PACKET (R262). -/
def execNullPacket (w : Nat) (s : State) : Host.Outcome State Fault Refusal :=
  event "NULL_PACKET" (s.doWork w (fun k => k == 0) (fun _ s => .ok Effect.none s))

/-- SIGNAL_PACKET (R262). -/
def execSignalPacket (w : Nat) (s : State) : Host.Outcome State Fault Refusal :=
  event "SIGNAL_PACKET" (s.doWork w (fun k => k == 3) (fun _ s => .ok Effect.none s))

/-- The work of a join packet (R276): an aadd of 1 once, then reads until the word has reached the target. -/
def joinWork (w : Nat) (x : Work) (s : State) : EngR (Option Effect) :=
  let g := s.workAgent x
  let va := pBody x.pkt 0
  if va.toNat % 8 ≠ 0 then .fail 0x40 0 va s
  else if x.joined = false then
    (s.gatomic g 0x54 va 1).andThen (fun _ s =>
      .ok none ((s.forget g.id).setWork w { x with joined := true, wait := .go }))
  else
    (s.gread g va 8).andThen (fun bs s =>
      if (pBody x.pkt 1).toNat ≤ leNat bs then .ok (some Effect.none) s
      else .ok none ((s.forget g.id).setWork w { x with at_ := s.cyc + 1, wait := .go }))

/-- JOIN_PACKET (R276). -/
def execJoinPacket (w : Nat) (s : State) : Host.Outcome State Fault Refusal :=
  event "JOIN_PACKET"
    (match mfind s.works w with
     | none => none
     | some x =>
       if pKind x.pkt = 1 ∧ s.workReady x = true then
         match x.wait.resume s (joinWork w x s) with
         | none => none
         | some (.ok (some e) t) => some (t.workDone w x e)
         | some (.ok none t) => some t
         | some (.wait t) => some t
         | some (.stand v t) => some (t.setWork w { x with wait := v })
         | some (.fail cause run va t) => some (t.workDone w x (failEffect x cause run va))
       else none)

/-! ## Copy packets (R284) -/

/-- A copy packet goes on with its next run: none once it is done. The descriptor is read once (R280). -/
def copyWork (w : Nat) (x : Work) (s : State) : EngR (Option Effect) :=
  let g := s.workAgent x
  let src := (pBody x.pkt 0).toNat
  let dst := (pBody x.pkt 1).toNat
  let dva := pBody x.pkt 2
  if dva.toNat % 128 ≠ 0 then .fail 0x64 0 0 s
  else
    (if x.buf.isEmpty then s.gread g dva 128 else .ok x.buf s).andThen (fun bs s =>
      match tensorOf bs src dst with
      | .error dim => .ok (some { Effect.none with cause := 0x64, errstat := engStatus 2 dim 0 }) s
      | .ok t =>
        if t.empty then .ok (some Effect.none) s
        else
          let idx := if x.run = 0 then List.replicate t.dims.length 0 else x.pos
          let r := t.run src dst false false idx
          let so := BitVec.ofNat 64 r.so
          let dt := BitVec.ofNat 64 r.dt
          let s0 := if x.buf.isEmpty then s.setWork w { x with buf := bs } else s
          (((s0.gread { g with down := t.down (fun d => d.ss) } so r.n).andThen (fun data s =>
            (s.reach { g with down := t.down (fun d => d.ds) } 1 dt r.n).andThen (fun ps s => .ok (data, ps) s))).at x.run).andThen (fun d s =>
              let away := (d.2.filter (fun p => isWindow p.1)).map (fun p => (p.1, x.run, dt))
              let y : Work := { x with buf := bs, run := x.run + 1, pos := t.after idx r, at_ := s.cyc + 1, wait := .go, sent := x.sent ++ away }
              let s1 := ((s.writeParts g.id g.ctx 3 d.2 d.1).forgetData g.id).setWork w y
              match t.after idx r with
              | [] => .ok (some Effect.none) s1
              | _ => .ok none s1))

/-- COPY_PACKET (R284): a queue channel copies global to global, a run at a time. -/
def execCopyPacket (w : Nat) (s : State) : Host.Outcome State Fault Refusal :=
  event "COPY_PACKET"
    (match mfind s.works w with
     | none => none
     | some x =>
       if pKind x.pkt = 2 ∧ s.workReady x = true then
         match x.wait.resume s (copyWork w x s) with
         | none => none
         | some (.ok (some e) t) => some (t.workDone w (mget x t.works w) e)
         | some (.ok none t) => some t
         | some (.wait t) => some t
         | some (.stand v t) => some (t.setWork w { (mget x t.works w) with wait := v })
         | some (.fail cause run va t) => some (t.workDone w x (failEffect x cause (Nat.max run x.run) va))
       else none)

/-! ## Software's side of a queue (R264, R269, R380, R381) -/

/-- QUEUE_RESTART (R269): 0 is written over state 1. -/
def execQueueRestart (q : Nat) (s : State) : Host.Outcome State Fault Refusal :=
  if 512 ≤ q then .fault .noSuchUnit
  else
    event "QUEUE_RESTART"
      (match s.front q with
       | none => none
       | some f =>
         if s.queueState f = 1 then some (s.homeWrite (f.desc + 32) [BitVec.ofNat 8 (s.homeNat (f.desc + 32) 1 / 4 * 4)]) else none)

/-- What a descriptor's 64 bytes say to a front end of a die; none when they break a limit of Table 13-3 (R264, R316). -/
def frontOf (bs : List Byte) (pa die : Nat) : Option Front :=
  let d := leNat bs
  let lsize := fld d 192 8
  let engine := fld d 204 4
  let unit := fld d 208 8
  if fld d 384 128 = 0 ∧ fld d 258 22 = 0 ∧ fld d 256 2 ≠ 3 ∧ fld d 216 40 = 0 ∧ engine ≤ 6 ∧ fld d 200 4 = 0 ∧ 4 ≤ lsize ∧ lsize ≤ 16 ∧
      descBase bs % 4096 = 0 ∧ (engine ≠ 4 ∨ unit = die) ∧ (engine ≠ 1 ∨ unit < 128) then
    some { engine := engine, unit := unit, lsize := lsize, base := BitVec.ofNat 64 (descBase bs), wpa := pa + 8, widx := fld d 64 64,
           ridx := fld d 128 64, done := [], at_ := 0, wait := .go, fresh := true }
  else none

/-- A queue table entry changed. -/
def State.setQent (s : State) (q : Nat) (e : QEnt) : State :=
  s.modDie (q / 256) (fun d => { d with qtab := mset d.qtab (q % 256) e })

/-- The front end of a die that a descriptor gives its queue, with the translation it found: the descriptor translates for its context, to this module's
memory on a page that may be cached (R264). -/
def State.attachFront (s : State) (die ctx : Nat) (desc : Word) : Option (Front × TlbEnt) :=
  match s.walkPage ctx (s.rootOf ctx) desc 2 with
  | .error _ => none
  | .ok e =>
    let pa := e.pa desc
    if s.paKind pa = .home ∧ e.attr.getLsbD 5 = true then (frontOf (s.homeBytes pa 64) pa die).map (fun f => (f, e)) else none

/-- A write of the low word of a queue table entry (Table 18-9): bit 0 attaches, or detaches. DEDUCED (log 29). -/
def State.attach (s : State) (q : Nat) (v : Word) : State :=
  let e := s.qent q
  let desc := v &&& ~~~63#64
  let off : State := (s.setQent q { e with v := false, desc := desc }).modDie (q / 256) (fun d => { d with fronts := mdel d.fronts (q % 256) })
  if v.getLsbD 0 then
    match s.attachFront (q / 256) e.ctx desc with
    | some (f, t) => ((off.setQent q { e with v := true, desc := desc, saved := false }).setFront q f).streamFill (f.tlb q false 0) t false
    | none =>
      off.logError (q / 256) { pa := 0, va := desc, tstep := s.tstep, ctx := e.ctx, cause := 0x66, engine := 0, core := 0, die := q / 256 }
  else off

/-- QUEUE_TABLE_ATTACH (R380). -/
def execQueueTableAttach (d i : Nat) (v : Word) (s : State) : Host.Outcome State Fault Refusal :=
  if 2 ≤ d ∨ 256 ≤ i then .fault .noSuchUnit else .next (if s.managed then s.attach (256 * d + i) v else s)

/-- A write of the tail register (R381): amax.d of the value, signed, on widx at its home. -/
def State.tailWrite (s : State) (q : Nat) (v : Word) : State :=
  match s.front q with
  | some f =>
    let old := BitVec.ofNat 64 (s.homeNat f.wpa 8)
    if old.toInt < v.toInt then s.homeWrite f.wpa (leBytes 8 v.toNat) else s
  | none => s

/-- QUEUE_TAIL_WRITE (R381). -/
def execQueueTailWrite (d i : Nat) (v : Word) (s : State) : Host.Outcome State Fault Refusal :=
  if 2 ≤ d ∨ 256 ≤ i then .fault .noSuchUnit else .next (s.tailWrite (256 * d + i) v)

end Sys2Proof.Machine
end

