-- ==== Sys2Proof/Machine/Embed.lean ====
section
/-! DEFINITION. The embedding engines (R285 to R304): tables, places, lists and records; the index engine; work-lists; the sketch; the
hot-row cache. -/
namespace Sys2Proof.Machine

/-! ## Places (R288) -/

/-- A place names the scratchpad. -/
def placeLocal (p : Word) : Bool := p.extractLsb' 56 8 == 0x80

/-- The local address of a local place. -/
def placeLa (p : Word) : Nat := (p.extractLsb' 0 23).toNat

/-- n bytes read at a place (R288, R274). -/
def State.pread (s : State) (x : Work) (p : Word) (n : Nat) : EngR (List Byte) :=
  if n = 0 then .ok [] s
  else if placeLocal p then
    let co := s.core (pCore x.pkt)
    match co.checkLocal x.ctx s.tstep (placeLa p) n true with
    | some (cause, _, addr) => .fail cause 0 (BitVec.ofNat 64 addr) s
    | none => .ok (co.bytes (placeLa p) n) s
  else s.gread (s.workAgent x) p n

/-- Writes of an engine: to global memory and to scratchpads. -/
abbrev Writes := List (Nat × List Byte) × List (Nat × Nat × List Byte)

/-- Bytes with the parts they go to. -/
def partBytes : List (Nat × Nat) → List Byte → List (Nat × List Byte)
  | [], _ => []
  | (pa, n) :: r, bs => (pa, bs.take n) :: partBytes r (bs.drop n)

/-- Bytes to be written at a global address, once it is known to be writable. -/
def State.gput (s : State) (x : Work) (va : Word) (bs : List Byte) : EngR Writes :=
  if bs.isEmpty then .ok ([], []) s
  else (s.reach (s.workAgent x) 1 va bs.length).andThen (fun ps s => .ok (partBytes ps bs, []) s)

/-- Bytes to be written at a place (R288). -/
def State.pput (s : State) (x : Work) (p : Word) (bs : List Byte) : EngR Writes :=
  if bs.isEmpty then .ok ([], []) s
  else if placeLocal p then
    match (s.core (pCore x.pkt)).checkLocal x.ctx s.tstep (placeLa p) bs.length false with
    | some (cause, _, addr) => .fail cause 0 (BitVec.ofNat 64 addr) s
    | none => .ok ([], [(pCore x.pkt, placeLa p, bs)]) s
  else s.gput x p bs

/-- All writes of several. -/
def joinWrites (l : List Writes) : Writes := (l.flatMap (fun w => w.1), l.flatMap (fun w => w.2))

/-! ## Tables (R285, R286) -/

/-- A table descriptor (Table 14-1) that breaks no limit; rb is Table 14-2. -/
structure ETable where
  base : Nat
  stride : Nat
  nrows : Nat
  d : Nat
  rf : Nat
  hot : Bool
  tid : Nat
  sbase : Nat
  sstride : Nat
  h : List Half
  rb : Nat
  deriving DecidableEq, Repr

/-- Bits of an element of a row format. -/
def rfWidth (rf : Nat) : Nat := if rf = 0 then 32 else if rf ≤ 2 then 16 else if rf ≤ 5 then 8 else 4

/-- rb (Table 14-2). -/
def rowBytes (rf d : Nat) : Nat := d * rfWidth rf / 8 + (if 5 ≤ rf then d / 8 else 0)

/-- The table that 64 bytes describe; none when they break a limit (R285, R287). -/
def eTableOf (bs : List Byte) : Option ETable :=
  let n := leNat bs
  let t : ETable :=
    { base := fld n 0 64, stride := fld n 64 32, nrows := fld n 96 32, d := fld n 128 16, rf := fld n 144 4, hot := bit n 148,
      tid := fld n 160 12, sbase := fld n 192 64, sstride := fld n 256 32,
      h := (upTo 0 4).map (fun i => BitVec.ofNat 32 (fld n (288 + 32 * i) 32)), rb := rowBytes (fld n 144 4) (fld n 128 16) }
  if t.rf ≤ 6 ∧ t.d % 32 = 0 ∧ 32 ≤ t.d ∧ t.d ≤ 4096 ∧ t.base % 8 = 0 ∧ t.stride % 8 = 0 ∧ t.rb ≤ t.stride ∧ t.stride ≤ 65536 ∧
      t.nrows ≠ 0 ∧ fld n 149 3 = 0 ∧ fld n 152 8 = 0 ∧ fld n 172 4 = 0 ∧ fld n 176 16 = 0 ∧ fld n 416 96 = 0 ∧ t.sbase % 8 = 0 ∧
      t.sstride % 8 = 0 then some t
  else none

/-- The table whose descriptor is at an address (R285, R287). -/
def State.eTableAt (s : State) (g : Agent) (va : Word) : EngR ETable :=
  if va.toNat % 64 ≠ 0 then .fail 0x72 0 va s
  else
    (s.gread g va 64).andThen (fun bs s =>
      match eTableOf bs with
      | some t => .ok t s
      | none => .fail 0x72 0 va s)

/-- The table a packet names: as its descriptor stood when it was taken (R285). -/
def State.eTable (s : State) (x : Work) : EngR ETable :=
  if x.buf.isEmpty then s.eTableAt (s.workAgent x) (pBody x.pkt 0)
  else
    match eTableOf x.buf with
    | some t => .ok t s
    | none => .fail 0x72 0 (pBody x.pkt 0) s

/-- A packet that has been taken and has not read the descriptor it names. -/
def Work.needsDesc (x : Work) : Bool :=
  decide (x.stage = .taken) && decide (x.cause = 0) && x.buf.isEmpty &&
    (match descVa x.pkt with
     | some va => decide (va.toNat % 64 = 0)
     | none => false)

/-- The engine reads the descriptor of a packet that it has taken, before it may do its work (R285); one that cannot be read makes the packet fail. -/
def State.readDesc (s : State) (w : Nat) (x : Work) : Option State :=
  if s.dom.reqs.any (fun r => decide (r.core = 128 + (1024 + x.q)) && !r.skip) then none
  else
    match x.wait.resume s (s.gread (s.workAgent x) ((descVa x.pkt).getD 0) 64) with
    | none => none
    | some (.ok bs t) => some ((t.forgetData (1024 + x.q)).setWork w { x with buf := bs, wait := .go })
    | some (.wait t) => some t
    | some (.stand v t) => some (t.setWork w { x with wait := v })
    | some (.fail cause run va t) => some (t.setWork w { x with cause := cause, errstat := engStatus (pKind x.pkt) 0 run, erraddr := va })

/-- The element format of a row format that is not grouped. -/
def rfFormat (rf : Nat) : FFmt := if rf = 0 then fp32 else if rf = 1 then bf16 else if rf = 2 then fp16 else if rf = 3 then e4m3 else e5m2

/-- row_value for every column (R286), with NV. -/
def rowValues (t : ETable) (bs : List Byte) : List Num × Flags :=
  let es := elemsOf (rfWidth t.rf) t.d bs
  if t.rf ≤ 4 then (es.map (decodeF (rfFormat t.rf)), 0)
  else
    let recs := elemsOf 32 (t.d / 32) (bs.drop (t.d * rfWidth t.rf / 8))
    let vs := (es.zip (upTo 0 t.d)).map (fun p =>
      let r := recs.getD (p.2 / 32) 0
      let a := prod (decodeF bf16 (fld r 0 16)) (intNum (sgn (rfWidth t.rf) p.1))
      let b := addNum 0 a.1 (decodeF bf16 (fld r 16 16))
      (b.1, nvIf (a.2 || b.2)))
    (vs.map (fun v => v.1), vs.foldl (fun f v => f ||| v.2) 0)

/-! ## Lists (R289) -/

/-- A list: count, bags − 1, weights, format, scale, and entries (row, bits [63:32]). -/
structure EList where
  n : Nat
  bags : Nat
  wt : Bool
  fmt : Bool
  e : Int
  ents : List (Nat × Nat)
  deriving DecidableEq, Repr

/-- A list header sets a field that its kind does not use, or a reserved one (R289, Table 14-3). -/
def badHeader (kind h : Nat) : Bool :=
  let pool := kind == 0x20 || kind == 0x50
  let job := pool || kind == 0x30 || kind == 0x51
  decide (fld h 41 23 ≠ 0) || decide (fld h 30 2 ≠ 0) || (!job && (decide (fld h 32 9 ≠ 0) || bit h 29)) ||
    (!pool && (bit h 28 || decide (fld h 20 8 ≠ 0)))

/-- The list a packet names (R289): its place, its header, its entries. -/
def State.eList (s : State) (x : Work) : EngR EList :=
  let p := pBody x.pkt 1
  if p.toNat % 8 ≠ 0 then .fail 0x77 0 p s
  else
    (s.pread x p 8).andThen (fun hb s =>
      let h := leNat hb
      if badHeader (pKind x.pkt) h then .fail 0x77 0 p s
      else
        let n := fld h 0 20
        (s.pread x (p + 8) (8 * n)).andThen (fun bs s =>
          .ok { n := n, bags := fld h 20 8, wt := bit h 28, fmt := bit h 29, e := sgn 9 (fld h 32 9),
                ents := ((pieces 8 bs).map leNat).map (fun v => (fld v 0 32, fld v 32 32)) } s))

/-- Where a row lies: its home, checked by R287 for these kinds of access, the hot-row region answering with an error (R226); `anyHome`: the row is
not accessed, and the domain window is no failure (R293). -/
def State.rowPlaceFor (s : State) (g : Agent) (t : ETable) (kinds : List Nat) (anyHome : Bool) (k row : Nat) : EngR Nat :=
  let va := BitVec.ofNat 64 (t.base + row * t.stride)
  let look (kind : Nat) (s : State) : EngR Nat :=
    match (if g.wire then s.engineAccess g.core g.tlb g.ctx g.unit g.uidx kind false g.wait va 1
      else s.frontAccess (dieOf g.core) g.tlb g.ctx g.unit g.uidx kind false g.wait va 1) with
    | .bad cause v => .fail cause k v s
    | .stand w s' => (EngR.stand w s').at k
    | .ok ps s' =>
      match s'.stream g.tlb g.ctx (s'.rootOf g.ctx) va kind false with
      | .error _ => .fail 0x76 k va s'
      | .ok (e, s2) =>
        let pa := (ps.map (fun p => p.1)).headD 0
        let last := pa + t.rb - 1
        if e.covers g.ctx (va + BitVec.ofNat 64 (t.rb - 1)) = false ∨
            !(((inHbm pa || inCap pa) && (inHbm last || inCap last)) || (anyHome && isWindow pa && isWindow last)) = true then .fail 0x76 k va s2
        else
          match s2.partsRefused g.core (kinds.headD 0) (if anyHome then [] else [(pa, t.rb), (last, 1)]) with
          | some (cause, a) => .fail cause k va (s2.engineError g.core a va g.ctx cause g.engine)
          | none => if s2.partsHeld none kind (if anyHome then [] else [(pa, t.rb)]) then .stand s2.heldWait s2 else .ok pa s2
  kinds.foldl (fun r kind => r.andThen (fun _ s => look kind s)) (.ok 0 s)

/-- Where a row lies for a packet. -/
def State.rowPlace (s : State) (x : Work) (t : ETable) (kinds : List Nat) (anyHome : Bool) (k row : Nat) : EngR Nat :=
  s.rowPlaceFor (s.workAgent x) t kinds anyHome k row

/-- The homes of the rows of a list's entries, all entries checked in order (R287). -/
def State.rowPlaces (s : State) (x : Work) (t : ETable) (l : EList) (kinds : List Nat) (anyHome : Bool) : EngR (List Nat) :=
  engMap (fun k e s =>
    if e.2 ≠ 0 ∧ l.wt = false then .fail 0x77 k 0 s
    else if t.nrows ≤ e.1 then .fail 0x71 k 0 s
    else s.rowPlace x t kinds anyHome k e.1) 0 l.ents s

/-! ## The sketch (R297 to R300) -/

/-- The counters of a table's row (R297). -/
def sketchKeys (tid row : Nat) : List Nat :=
  (upTo 0 4).map (fun j => j * 65536 + (sorrel (BitVec.ofNat 64 (j + 1)) (BitVec.ofNat 64 (tid * 2 ^ 32 + row))).toNat / 2 ^ 48)

/-- The estimate of a row (R297). -/
def Die.estimate (d : Die) (tid row : Nat) : Nat :=
  let cs := (sketchKeys tid row).map (fun k => mget 0 d.sketch k)
  cs.foldl Nat.min (cs.headD 0)

/-- One feed (R299). -/
def Die.feed (d : Die) (tid row : Nat) : Die :=
  { d with sketch := (sketchKeys tid row).foldl (fun m k => mput 0 m k (Nat.min 65535 (mget 0 m k + 1))) d.sketch }

/-- Frame size F (Table 14-9). -/
def State.frameSize (s : State) : Nat := 256 * 2 ^ (fld s.hrcfg.toNat 9 3)

/-- Sets of the hot-row cache (R301). -/
def State.hotSets (s : State) : Nat := s.hr * 2 ^ 27 / s.frameSize

/-- The set of a row (R301). -/
def State.hotSet (s : State) (tid row : Nat) : Nat :=
  (sorrel 0x10 (BitVec.ofNat 64 (tid * 2 ^ 32 + row))).toNat % Nat.max 1 s.hotSets

/-- The frame of way w of set s (R301): its address. -/
def State.frameAt (s : State) (i : Nat) : Nat := (i % 8 + 1) * 0xC00000000 - s.hr * 0x8000000 + i / 8 * s.frameSize

/-- The frames of a set that hold something, by 8 × set + way. -/
def State.ways (s : State) (set : Nat) : List (Nat × Frame) := s.frames.filter (fun p => decide (p.1 / 8 = set) && p.2.valid)

/-- The frame in which a row is resident (R302). -/
def State.resident (s : State) (ctx tid row : Nat) : Option (Nat × Frame) :=
  if s.hr = 0 then none
  else (s.ways (s.hotSet tid row)).find? (fun p => decide (p.2.ctx = ctx) && decide (p.2.tid = tid) && decide (p.2.row = row))

/-- The current value of a row (R302), and whether it came from a frame. -/
def State.rowBytesNow (s : State) (ctx : Nat) (t : ETable) (row home : Nat) : List Byte × Bool :=
  match s.resident ctx t.tid row with
  | some p => (s.homeBytes (s.frameAt p.1) t.rb, true)
  | none => (s.homeBytes home t.rb, false)

/-- The name of a row in an effect: table, row and home. -/
def rowKey (tid row home : Nat) : Nat := home + 2 ^ 64 * row + 2 ^ 96 * tid

/-- A row takes a value (R302, R308): in its frame, which becomes dirty, or at its home. -/
def State.rowWrite (s : State) (ctx key : Nat) (bs : List Byte) : State :=
  let home := key % 2 ^ 64
  match s.resident ctx (key / 2 ^ 96) (key / 2 ^ 64 % 2 ^ 32) with
  | some p => { s.homeWrite (s.frameAt p.1) bs with frames := mset s.frames p.1 { p.2 with dirty := true } }
  | none => s.homeWrite home bs

/-- A frame is written back (R303); whether it was dirty. -/
def State.writeBack (s : State) (i : Nat) : Bool × State :=
  match mfind s.frames i with
  | some f =>
    if f.valid && f.dirty then
      (true, { s.homeWrite f.home (s.homeBytes (s.frameAt i) f.rb) with frames := mset s.frames i { f with dirty := false } })
    else (false, s)
  | none => (false, s)

/-- The way a fill on a die takes (R303): none when all eight are pinned. -/
def State.victim (s : State) (die set : Nat) : Option Nat :=
  let ws := s.ways set
  match (upTo 0 8).find? (fun w => !(ws.any (fun p => decide (p.1 % 8 = w)))) with
  | some w => some (8 * set + w)
  | none =>
    ((ws.filter (fun p => !p.2.pin)).foldl (fun (a : Option (Nat × Nat)) p =>
      let e := (s.die die).estimate p.2.tid p.2.row
      match a with
      | none => some (e, p.1)
      | some b => if e < b.1 then some (e, p.1) else a) none).map (fun a => a.2)

/-- Home agents hold back the write-back of a frame (R321). -/
def State.frameHeld (s : State) (i : Nat) : Bool :=
  match mfind s.frames i with
  | some f => f.valid && f.dirty && s.extentBlocked f.home f.rb true
  | none => false

/-- They hold back that of the frame a fill would take. -/
def State.victimHeld (s : State) (r : FillReq) : Bool := ((s.victim r.die (s.hotSet r.tid r.row)).map (fun i => s.frameHeld i)).getD false

/-- A row is made resident (R303). -/
def State.fillRow (s : State) (r : FillReq) : State :=
  if s.hr = 0 ∨ s.frameSize < r.rb ∨ (s.resident r.ctx r.tid r.row).isSome = true then s
  else
    match s.victim r.die (s.hotSet r.tid r.row) with
    | none => s
    | some i =>
      let s1 := (s.writeBack i).2
      { s1.homeWrite (s1.frameAt i) (s1.homeBytes r.home r.rb) with
        frames := mset s1.frames i { valid := true, dirty := false, pin := false, ctx := r.ctx, tid := r.tid, row := r.row, home := r.home,
                                     rb := r.rb } }

/-- One entry feeds the sketch of a die; a promotion asks for a fill (R299). -/
def State.feedRow (s : State) (die ctx : Nat) (t : ETable) (row home : Nat) : State :=
  let s1 := s.modDie die (fun d => d.feed t.tid row)
  let d := s1.die die
  let thr := fld d.skcfg.toNat 0 16
  let r : FillReq := { die := die, ctx := ctx, tid := t.tid, row := row, home := home, rb := t.rb }
  if thr ≠ 0 ∧ thr ≤ d.estimate t.tid row ∧ t.hot = true ∧ t.rb ≤ s.frameSize ∧ s.hr ≠ 0 ∧ (s.resident ctx t.tid row).isNone = true ∧
      s.fills.any (fun f => decide (f.ctx = ctx) && decide (f.tid = t.tid) && decide (f.row = row)) = false then
    { s1 with fills := s1.fills ++ [r] }
  else s1

/-- Rows with their homes, fed in order. -/
def State.feedRows (s : State) (die ctx : Nat) (t : ETable) (l : List (Nat × Nat)) : State :=
  l.foldl (fun s p => s.feedRow die ctx t p.1 p.2) s

/-- FRAME_FILL (R303): a fill that a promotion asked for. -/
def execFrameFill (die : Nat) (s : State) : Host.Outcome State Fault Refusal :=
  if 2 ≤ die then .fault .noSuchUnit
  else
    event "FRAME_FILL"
      ((s.fills.find? (fun f => decide (f.die = die) && !s.extentBlocked f.home f.rb false && !s.victimHeld f)).map (fun r => State.fillRow { s with fills := s.fills.erase r } r))

/-- FRAME_WRITE_BACK (R303): not while home agents hold the write back (R321). -/
def execFrameWriteBack (set way : Nat) (s : State) : Host.Outcome State Fault Refusal :=
  event "FRAME_WRITE_BACK"
    (let r := s.writeBack (8 * set + way)
     if decide (way < 8) && r.1 && !s.frameHeld (8 * set + way) then some r.2 else none)

/-- SKETCH_DECAY (R299): at every multiple of the period each counter of the die halves. DEDUCED (log 58). -/
def execSketchDecay (die : Nat) (s : State) : Host.Outcome State Fault Refusal :=
  if 2 ≤ die then .fault .noSuchUnit
  else
    event "SKETCH_DECAY"
      (let d := s.die die
       let period := fld d.skcfg.toNat 16 20
       if period ≠ 0 ∧ s.tstep % period = 0 ∧ d.decayed ≠ s.tstep then
         some (s.modDie die (fun d =>
           { d with decayed := s.tstep, sketch := d.sketch.map (fun p => (p.1, p.2 / 2)) }))
       else none)

/-! ## Records (R290) -/

/-- What a packet of this chapter has come to: its writes, and the fields of its record. -/
structure Res where
  writes : Writes
  rows : List (Nat × List Byte)
  count : Nat
  flags : Flags
  hits : Nat

/-- The 16 bytes of a record (Table 14-4). -/
def recordBytes (count : Nat) (flags : Flags) (cause hits : Nat) : List Byte :=
  leBytes 16 (count % 2 ^ 64 + flags.toNat % 32 * 2 ^ 64 + cause * 2 ^ 72 + hits % 2 ^ 32 * 2 ^ 96)

/-- The writes of a record at its place; none where it is not aligned, or a fault of it has been delivered (R290). DEDUCED (log 31). -/
def State.recordPut (s : State) (x : Work) (bs : List Byte) : EngR Writes :=
  let p := pBody x.pkt 3
  let none_ : EngR Writes := .ok ([], []) s
  if p.toNat % 16 ≠ 0 then none_
  else
    match x.wait with
    | .deliver _ va _ =>
      if va.toNat / 4096 = p.toNat / 4096 ∧ placeLocal p = false then none_
      else
        s.pput { x with wait := .go } p bs
    | _ => s.pput x p bs

/-- The record of a packet that fails: none if its place is not valid (R290). -/
def State.recordPutAny (s : State) (x : Work) (bs : List Byte) : EngR Writes :=
  match s.recordPut x bs with
  | .fail _ _ _ s' => .ok ([], []) s'
  | r => r

/-- What a packet of this chapter does, with its record: on success all of it, on failure the record alone (R290). -/
def State.withRecord (s : State) (x : Work) (body : Work → State → EngR Res) : EngR Effect :=
  let failed (cause run : Nat) (va : Word) (st : Half) (s : State) : EngR Effect :=
    (s.recordPutAny x (recordBytes 0 0 cause 0)).andThen (fun w s =>
      .ok { out := w.1, posts := w.2, frames := [], cause := cause, errstat := (if x.cause ≠ 0 then st else engStatus (pKind x.pkt) 0 run),
            erraddr := va } s)
  if x.cause ≠ 0 then failed x.cause 0 x.erraddr x.errstat s
  else
    match x.wait with
    | .deliver cause va run => failed cause run va 0 s
    | _ =>
      match body x s with
      | .ok r s1 =>
        match s1.recordPut x (recordBytes r.count r.flags 0 r.hits) with
        | .ok w s =>
          .ok { out := r.writes.1 ++ w.1, posts := r.writes.2 ++ w.2, frames := r.rows, cause := 0, errstat := 0, erraddr := 0 } s
        | .stand w s => .stand w s
        | .wait s => .wait s
        | .fail cause run va s => failed cause run va 0 s
      | .stand w s1 => .stand w s1
      | .wait s1 => .wait s1
      | .fail cause run va s1 => failed cause run va 0 s1

/-- The packet's row writes are made with its other writes. -/
def State.embedDone (s : State) (w : Nat) (x : Work) (e : Effect) : State :=
  (if isCard x.pkt then s else e.frames.foldl (fun s p => s.rowWrite x.ctx p.1 p.2) s).workDone w x e

/-- A work-list command (R294). -/
def onList (p : BitVec 512) : Bool := decide (0x14 ≤ pKind p) && decide (pKind p ≤ 0x16)

/-- The home of the descriptor of a work-list command. -/
def State.listPlace (s : State) (x : Work) : Option Nat :=
  let va := pBody x.pkt 0
  match s.walkPage x.ctx (s.rootOf x.ctx) va 2 with
  | .ok e => some (e.pa va)
  | .error _ => none

/-- Another command is in the middle of its step on the same work-list (R295), waiting for an answer from another module. -/
def State.listBusy (s : State) (w : Nat) (x : Work) : Bool :=
  onList x.pkt && s.works.any (fun p => decide (p.1 ≠ w) && onList p.2.pkt && p.2.joined && decide (p.2.stage = .taken) &&
    decide (s.listPlace p.2 = s.listPlace x))

/-- Do the work of a packet of this chapter; `after` is what success does besides its writes. -/
def State.doEmbed (s : State) (w : Nat) (kinds : Work → Bool) (body : Work → State → EngR Res) (after : Work → State → State) :
    Option State :=
  match mfind s.works w with
  | none => none
  | some x0 =>
    let x := s.lateCard x0
    if kinds x && x.needsDesc then s.readDesc w x
    else if kinds x && s.workReady x && !s.listBusy w x then
      let ready : Bool := match x.wait with
        | .deliver _ _ _ => true
        | v => v.ready s.cyc
      if ready then
        match s.withRecord x body with
        | .ok e t => some ((if e.cause = 0 then after x t else t).embedDone w x e)
        | .wait t => some (if onList x.pkt then t.setWork w { x with joined := true } else t)
        | .stand v t => some (t.setWork w { x with wait := v })
        | .fail cause run va t => some (t.workDone w x (failEffect x cause run va))
      else none
    else none

/-! ## The index engine (R293) -/

/-- rb′ (R293). -/
def ETable.rbPad (t : ETable) : Nat := (t.rb + 7) / 8 * 8

/-- The table, the list and the rows' homes of a packet (R287). -/
def State.tableList (s : State) (x : Work) (kinds : List Nat) (anyHome : Bool) : EngR (ETable × EList × List Nat) :=
  (s.eTable x).andThen (fun t s => (s.eList x).andThen (fun l s =>
    (s.rowPlaces x t l kinds anyHome).andThen (fun hs s => .ok (t, l, hs) s)))

/-- Rows with their homes. -/
def rowsOf (l : EList) (hs : List Nat) : List (Nat × Nat) := (l.ents.map (fun e => e.1)).zip hs

/-- A gather (R293). -/
def gatherWork (x : Work) (s : State) : EngR Res :=
  (s.tableList x [0] false).andThen (fun a s =>
    let t := a.1
    let rs := (rowsOf a.2.1 a.2.2).map (fun p => s.rowBytesNow x.ctx t p.1 p.2)
    let bs := rs.flatMap (fun r => r.1 ++ List.replicate (t.rbPad - t.rb) 0)
    (s.pput x (pBody x.pkt 2) bs).andThen (fun w s =>
      .ok { writes := w, rows := [], count := a.2.1.n, flags := 0, hits := (rs.filter (fun r => r.2)).length } s))

/-- Each entry of a packet feeds the sketch of its engine's die (R300). -/
def feedAll (x : Work) (s : State) : State :=
  match s.tableList x [0] false with
  | .ok a t => t.feedRows (dieOf (s.workAgent x).core) x.ctx a.1 (rowsOf a.2.1 a.2.2)
  | _ => s

/-- INDEX_GATHER (R293). -/
def execIndexGather (w : Nat) (s : State) : Host.Outcome State Fault Refusal :=
  event "INDEX_GATHER" (s.doEmbed w (fun x => pKind x.pkt == 0x10) gatherWork feedAll)

/-- A scatter (R293): of its source the rb bytes of each entry are read; the later of two entries of a row remains. -/
def scatterWork (x : Work) (s : State) : EngR Res :=
  (s.tableList x [1] false).andThen (fun a s =>
    let t := a.1
    (engMap (fun k _ s => (s.pread x (pBody x.pkt 2 + BitVec.ofNat 64 (k * t.rbPad)) t.rb).at k) 0 a.2.1.ents s).andThen (fun bs s =>
      let rows := ((rowsOf a.2.1 a.2.2).zip bs).map (fun p => (rowKey t.tid p.1.1 p.1.2, p.2))
      .ok { writes := ([], []), rows := rows, count := a.2.1.n, flags := 0, hits := 0 } s))

/-- INDEX_SCATTER (R293). -/
def execIndexScatter (w : Nat) (s : State) : Host.Outcome State Fault Refusal :=
  event "INDEX_SCATTER" (s.doEmbed w (fun x => pKind x.pkt == 0x11) scatterWork (fun _ s => s))

/-- A dedup (R293). -/
def dedupWork (x : Work) (s : State) : EngR Res :=
  (s.eList x).andThen (fun l s =>
    match (l.ents.zip (upTo 0 l.n)).find? (fun p => decide (p.1.2 ≠ 0)) with
    | some p => .fail 0x77 p.2 0 s
    | none =>
      let rs := l.ents.map (fun e => e.1)
      let us := sortBy (fun a b => decide (a ≤ b)) (nubBy (fun a b => a == b) rs)
      let out := leBytes 8 us.length ++
        us.flatMap (fun r => leBytes 8 (r + (rs.filter (fun y => y == r)).length * 2 ^ 32))
      let pos :=
        rs.flatMap (fun r => leBytes 4 (us.findIdx (fun y => y == r)))
      (s.pput x (pBody x.pkt 2) out).andThen (fun w s =>
        (s.pput x (pBody x.pkt 2 + BitVec.ofNat 64 (8 + 8 * l.n)) pos).andThen (fun v s =>
          .ok { writes := joinWrites [w, v], rows := [], count := us.length, flags := 0, hits := 0 } s)))

/-- INDEX_DEDUP (R293). -/
def execIndexDedup (w : Nat) (s : State) : Host.Outcome State Fault Refusal :=
  event "INDEX_DEDUP" (s.doEmbed w (fun x => pKind x.pkt == 0x12) dedupWork (fun _ s => s))

/-- The bucket of a home address (R293, Table 10-5). -/
def bucketOf (pa : Nat) : Nat := if inHbm pa then 8 else if inCap pa then (pa - 0x10000000000) / 0x4000000000 else 9

/-- A bucket (R293). -/
def bucketWork (x : Work) (s : State) : EngR Res :=
  (s.tableList x [0] true).andThen (fun a s =>
    let l := a.2.1
    let es := ((l.ents.zip a.2.2).zip (upTo 0 l.n)).map (fun p => (bucketOf p.1.2, p.1.1, p.2))
    let bs := (upTo 0 10).map (fun b => es.filter (fun e => decide (e.1 = b)))
    let out := bs.flatMap (fun b => leBytes 4 b.length) ++
      bs.flatMap (fun b => b.flatMap (fun e => leBytes 8 (e.2.1.1 + e.2.1.2 * 2 ^ 32))) ++
      bs.flatMap (fun b => b.flatMap (fun e => leBytes 4 e.2.2))
    (s.pput x (pBody x.pkt 2) out).andThen (fun w s =>
      .ok { writes := w, rows := [], count := l.n, flags := 0, hits := 0 } s))

/-- INDEX_BUCKET (R293). -/
def execIndexBucket (w : Nat) (s : State) : Host.Outcome State Fault Refusal :=
  event "INDEX_BUCKET" (s.doEmbed w (fun x => pKind x.pkt == 0x13) bucketWork (fun _ s => s))

/-! ## Sketch queries (R300) -/

/-- A query of the sketch: under `add` each entry is fed and then read. -/
def sketchWork (add : Bool) (x : Work) (s : State) : EngR Res :=
  (s.tableList x [0] false).andThen (fun a s =>
    let t := a.1
    let die := dieOf (s.workAgent x).core
    let r := (a.2.1.ents).foldl (fun (acc : Die × List Byte) e =>
      let d := if add then acc.1.feed t.tid e.1 else acc.1
      (d, acc.2 ++ leBytes 4 (d.estimate t.tid e.1))) (s.die die, [])
    (s.pput x (pBody x.pkt 2) r.2).andThen (fun w s =>
      .ok { writes := w, rows := [], count := a.2.1.n, flags := 0, hits := 0 } s))

/-- The `sub` field of a packet (Table 14-5). -/
def pSub (p : BitVec 512) : Nat := pf p 456 8

/-- SKETCH_QUERY (R300). -/
def execSketchQuery (w : Nat) (s : State) : Host.Outcome State Fault Refusal :=
  event "SKETCH_QUERY" (s.doEmbed w (fun x => pKind x.pkt == 0x18 && pSub x.pkt != 1) (sketchWork false) (fun _ s => s))

/-- SKETCH_QUERY_ADD (R300). -/
def execSketchQueryAdd (w : Nat) (s : State) : Host.Outcome State Fault Refusal :=
  event "SKETCH_QUERY_ADD" (s.doEmbed w (fun x => pKind x.pkt == 0x18 && pSub x.pkt == 1) (sketchWork true) feedAll)

/-! ## The hot-row cache (R304) -/

/-- One row of an `hrch` operation: whether it counts, and the state after. -/
def State.hotRow (s : State) (sub die ctx : Nat) (t : ETable) (row home : Nat) : Bool × State :=
  let req : FillReq := { die := die, ctx := ctx, tid := t.tid, row := row, home := home, rb := t.rb }
  let at_ := s.resident ctx t.tid row
  match sub with
  | 0 =>
    let s1 := s.fillRow req
    ((s1.resident ctx t.tid row).isSome, s1)
  | 1 =>
    match at_ with
    | some p =>
      let s1 := (s.writeBack p.1).2
      (true, { s1 with frames := mdel s1.frames p.1 })
    | none => (false, s)
  | 2 =>
    match at_ with
    | some p => s.writeBack p.1
    | none => (false, s)
  | 3 =>
    let s1 := s.fillRow req
    match s1.resident ctx t.tid row with
    | some p =>
      if p.2.pin then (true, s1)
      else if 7 ≤ ((s1.ways (p.1 / 8)).filter (fun y => y.2.pin)).length then (false, s1)
      else (true, { s1 with frames := mset s1.frames p.1 { p.2 with pin := true } })
    | none => (false, s1)
  | _ =>
    match at_ with
    | some p => (p.2.pin, { s with frames := mset s.frames p.1 { p.2 with pin := false } })
    | none => (false, s)

/-- The rows of an `hrch`, in list order: how many count, and the state after. -/
def State.hotRows (s : State) (sub die ctx : Nat) (t : ETable) (l : List (Nat × Nat)) : Nat × State :=
  if t.hot = false ∨ s.hr = 0 ∨ s.frameSize < t.rb then (0, s)
  else
    l.foldl (fun acc p =>
      let r := acc.2.hotRow sub die ctx t p.1 p.2
      (acc.1 + b2n r.1, r.2)) (0, s)

/-- The die whose sketch chooses victims for a packet: of its engine. -/
def State.engineDie (s : State) (x : Work) : Nat := dieOf (s.workAgent x).core

/-- An `hrch` packet (R304): what it will count; its effect is made once its record can be written. -/
def hotWork (x : Work) (s : State) : EngR Res :=
  (s.tableList x [0] false).andThen (fun a s =>
    .ok { writes := ([], []), rows := [], count := (s.hotRows (pSub x.pkt) (s.engineDie x) x.ctx a.1 (rowsOf a.2.1 a.2.2)).1, flags := 0,
          hits := 0 } s)

/-- The effect of an `hrch` packet. -/
def hotAfter (x : Work) (s : State) : State :=
  match s.tableList x [0] false with
  | .ok a t => (t.hotRows (pSub x.pkt) (s.engineDie x) x.ctx a.1 (rowsOf a.2.1 a.2.2)).2
  | _ => s

/-- An `hrch` event of one operation; it waits while home agents hold back a write-back it might make (R321). -/
def State.hotEvent (s : State) (sub w : Nat) : Option State :=
  if s.frames.any (fun p => s.frameHeld p.1) then none
  else s.doEmbed w (fun x => pKind x.pkt == 0x19 && (pSub x.pkt == sub || (sub == 0 && decide (4 < pSub x.pkt)))) hotWork hotAfter

/-- HOTROW_FILL (R304). -/
def execHotrowFill (w : Nat) (s : State) : Host.Outcome State Fault Refusal := event "HOTROW_FILL" (s.hotEvent 0 w)
/-- HOTROW_EVICT (R304). -/
def execHotrowEvict (w : Nat) (s : State) : Host.Outcome State Fault Refusal := event "HOTROW_EVICT" (s.hotEvent 1 w)
/-- HOTROW_FLUSH (R304). -/
def execHotrowFlush (w : Nat) (s : State) : Host.Outcome State Fault Refusal := event "HOTROW_FLUSH" (s.hotEvent 2 w)
/-- HOTROW_PIN (R304). -/
def execHotrowPin (w : Nat) (s : State) : Host.Outcome State Fault Refusal := event "HOTROW_PIN" (s.hotEvent 3 w)
/-- HOTROW_UNPIN (R304). -/
def execHotrowUnpin (w : Nat) (s : State) : Host.Outcome State Fault Refusal := event "HOTROW_UNPIN" (s.hotEvent 4 w)

/-! ## Work-lists (R294, R295) -/

/-- A work-list descriptor (Table 14-7). -/
structure WList where
  ring : Nat
  lcap : Nat
  head : Nat
  tail : Nat
  bitmap : Nat
  u : Nat
  deriving DecidableEq, Repr

/-- The work-list that 64 bytes describe; none when they break Table 14-7. -/
def wlistOf (bs : List Byte) : Option WList :=
  let n := leNat bs
  let l : WList := { ring := fld n 0 64, lcap := fld n 64 8, head := fld n 128 64, tail := fld n 192 64, bitmap := fld n 256 64, u := fld n 320 32 }
  if l.ring % 8 = 0 ∧ 4 ≤ l.lcap ∧ l.lcap ≤ 24 ∧ fld n 72 56 = 0 ∧ l.head ≤ l.tail ∧ l.tail - l.head ≤ 2 ^ l.lcap ∧ l.bitmap % 8 = 0 ∧
      (l.bitmap = 0 ∨ l.u ≠ 0) ∧ fld n 352 160 = 0 then some l else none

/-- The work-list of a packet. -/
def State.wlist (s : State) (x : Work) : EngR WList :=
  let va := pBody x.pkt 0
  if va.toNat % 64 ≠ 0 then .fail 0x74 0 va s
  else
    (s.reach (s.workAgent x) 2 va 64).andThen (fun ps s => (s.takeParts (s.workAgent x) va ps).andThen (fun bs s =>
      match wlistOf bs with
      | some l => .ok l s
      | none => .fail 0x74 0 va s))

/-- The address of ring entry i. -/
def WList.entry (l : WList) (i : Nat) : Word := BitVec.ofNat 64 (l.ring + 8 * (i % 2 ^ l.lcap))

/-- The writes that append coordinates: ring entries and the tail (R295). -/
def State.appendList (s : State) (x : Work) (l : WList) (cs : List Nat) : EngR Writes :=
  (engMap (fun k c s => s.gput x (l.entry (l.tail + k)) (leBytes 8 c)) 0 cs s).andThen (fun ws s =>
    (s.gput x (pBody x.pkt 0 + 24) (leBytes 8 (l.tail + cs.length))).andThen (fun t s => .ok (joinWrites (ws ++ [t])) s))

/-- The coordinates a packet pushes. -/
def State.pushed (s : State) (x : Work) : EngR (List Nat) :=
  let n := (pBody x.pkt 2).toNat
  if 65536 < n then .fail 0x77 0 0 s
  else (s.pread x (pBody x.pkt 1) (8 * n)).andThen (fun bs s => .ok ((pieces 8 bs).map leNat) s)

/-- wlpush (R295). -/
def wlpushWork (x : Work) (s : State) : EngR Res :=
  (s.wlist x).andThen (fun l s => (s.pushed x).andThen (fun cs s =>
    if 2 ^ l.lcap < l.tail - l.head + cs.length then .fail 0x73 0 0 s
    else (s.appendList x l cs).andThen (fun w s => .ok { writes := w, rows := [], count := cs.length, flags := 0, hits := 0 } s)))

/-- WORKLIST_PUSH (R295). -/
def execWorklistPush (w : Nat) (s : State) : Host.Outcome State Fault Refusal :=
  event "WORKLIST_PUSH" (s.doEmbed w (fun x => pKind x.pkt == 0x14) wlpushWork (fun _ s => s))

/-- wldin (R295). -/
def wldinWork (x : Work) (s : State) : EngR Res :=
  (s.wlist x).andThen (fun l s => (s.pushed x).andThen (fun cs s =>
    match (cs.zip (upTo 0 cs.length)).find? (fun p => decide (l.u ≤ p.1)) with
    | some p => .fail 0x74 p.2 0 s
    | none =>
      if l.bitmap = 0 then .fail 0x74 0 0 s
      else
        let bs := nubBy (fun a b => a == b) (cs.map (fun c => c / 8))
        (engMap (fun _ b s => s.gread (s.workAgent x) (BitVec.ofNat 64 (l.bitmap + b)) 1) 0 bs s).andThen (fun ms s =>
          let m : Map Nat := (bs.zip ms).foldl (fun m p => mset m p.1 (leNat p.2)) []
          let new := (nubBy (fun a b => a == b) cs).filter (fun c => !bit (mget 0 m (c / 8)) (c % 8))
          if 2 ^ l.lcap < l.tail - l.head + new.length then .fail 0x73 0 0 s
          else
            let m2 := new.foldl (fun m c => mset m (c / 8) (mget 0 m (c / 8) + 2 ^ (c % 8))) m
            (s.appendList x l new).andThen (fun w s =>
              (engMap (fun _ b s => s.gput x (BitVec.ofNat 64 (l.bitmap + b)) (leBytes 1 (mget 0 m2 b))) 0
                (nubBy (fun a b => a == b) (new.map (fun c => c / 8))) s).andThen (fun ws s =>
                  .ok { writes := joinWrites (w :: ws), rows := [], count := new.length, flags := 0, hits := 0 } s)))))

/-- WORKLIST_DEDUP_PUSH (R295). -/
def execWorklistDedupPush (w : Nat) (s : State) : Host.Outcome State Fault Refusal :=
  event "WORKLIST_DEDUP_PUSH" (s.doEmbed w (fun x => pKind x.pkt == 0x16) wldinWork (fun _ s => s))

/-- wlpop (R295). -/
def wlpopWork (x : Work) (s : State) : EngR Res :=
  (s.wlist x).andThen (fun l s =>
    let m := (pBody x.pkt 2).toNat
    if 64 < m then .fail 0x77 0 0 s
    else
      let k := Nat.min m (l.tail - l.head)
      (engMap (fun _ i s => s.gread (s.workAgent x) (l.entry i) 8) 0 (upTo l.head k) s).andThen (fun es s =>
        (s.pput x (pBody x.pkt 1) es.flatten).andThen (fun w s =>
          (s.gput x (pBody x.pkt 0 + 16) (leBytes 8 (l.head + k))).andThen (fun h s =>
            .ok { writes := joinWrites [w, h], rows := [], count := k, flags := 0, hits := 0 } s))))

/-- WORKLIST_POP (R295). -/
def execWorklistPop (w : Nat) (s : State) : Host.Outcome State Fault Refusal :=
  event "WORKLIST_POP" (s.doEmbed w (fun x => pKind x.pkt == 0x15) wlpopWork (fun _ s => s))

/-! ## Completion (R263, R268, R269) -/

/-- The element or run that a write of a packet to another module belongs to (R283, R290): of a copy its run; of a gather or a sketch query the first
entry of the part. DESIGN CHOICE (log 31). -/
def Work.failRun (x : Work) (pa : Nat) : Nat :=
  let before := (x.out.takeWhile (fun p => decide (p.1 ≠ pa))).foldl (fun n p => n + p.2.length) 0
  match pKind x.pkt with
  | 2 => ((x.sent.find? (fun p => decide (p.1 = pa))).map (fun p => p.2.1)).getD 0
  | 0x10 =>
    match eTableOf x.buf with
    | some t => before / Nat.max 1 t.rbPad
    | none => 0
  | 0x18 => before / 4
  | _ => 0

/-- The address of such a write: of a copy its run's, else where the packet writes its result. -/
def Work.failVa (x : Work) (pa : Nat) : Word :=
  if pKind x.pkt = 2 then ((x.sent.find? (fun p => decide (p.1 = pa))).map (fun p => p.2.2)).getD 0 else pBody x.pkt 2

/-- The record of a packet that an error response makes fail is written over the one of its success (R290). -/
def State.recordAgain (s : State) (x : Work) (cause : Nat) : State :=
  if (0x10 ≤ pKind x.pkt ∧ pKind x.pkt ≤ 0x4F) ∨ pKind x.pkt / 16 = 5 then
    match s.recordPutAny { x with wait := .go } (recordBytes 0 0 cause 0) with
    | .ok w t => t.performWork { x with out := w.1, posts := w.2 }
    | _ => s
  else s

/-- Before a packet signals its completion, an error response to one of its writes makes it fail (R345). -/
def State.packetAnswered (s : State) (w : Nat) (x : Work) : Work × State :=
  if x.signalled then (x, s)
  else
    let id := 1024 + x.q
    match s.dom.answers.find? (fun a => decide (a.agent = id) && decide (a.cause ≠ 0)) with
    | none => ({ x with signalled := true }, s.forget id)
    | some a =>
      let s1 := (s.engineError (s.workAgent x).core a.pa (x.failVa a.pa) x.ctx a.cause (s.workAgent x).engine).forget id
      if x.cause ≠ 0 then ({ x with signalled := true }, s1)
      else
        let y : Work := { x with signalled := true, cause := a.cause, errstat := engStatus (pKind x.pkt) 0 (x.failRun a.pa), erraddr := x.failVa a.pa }
        (y, (s1.recordAgain y a.cause).setWork w y)

/-- PACKET_COMPLETE (R263, R268, R269): a packet whose writes have been performed completes, or fails, and is signalled. -/
def execPacketComplete (w : Nat) (s : State) : Host.Outcome State Fault Refusal :=
  event "PACKET_COMPLETE"
    (match mfind s.works w with
     | none => none
     | some x =>
       let id := 1024 + x.q
       if x.stage = .committed ∧ x.at_ ≤ s.cyc ∧ s.writesOut id = false ∧
           s.dom.reqs.any (fun r => decide (r.core = 128 + id) && !r.skip) = false then
         let b := s.packetAnswered w x
         if b.2.writesOut id then some (b.2.setWork w b.1)
         else
           match b.1.wait.resume b.2 (b.2.signalWord (b.2.workAgent b.1) x.pkt) with
           | none => none
           | some (.wait t) => some (t.setWork w b.1)
           | some (.stand v t) => some (t.setWork w { b.1 with wait := v })
           | some (.fail c _ va t) =>
             some (if b.1.cause ≠ 0 then (t.forget id).failPacket w b.1 b.1.cause b.1.errstat b.1.erraddr
               else (t.forget id).failPacket w b.1 c b.1.errstat va)
           | some (.ok _ t) =>
             let t1 := t.forget id
             some (if b.1.cause ≠ 0 then t1.failPacket w b.1 b.1.cause b.1.errstat b.1.erraddr
               else
                 ((({ t1 with works := mdel t1.works w }.advanceRidx x.q x.idx).signalHeader x.ctx x.pkt)).unplace x.q x.idx)
       else none)

/-! ## Commit (R275) -/

/-- The first local write of a packet that fails a check of R215 at the cycle it is made: cause and address (R288). -/
def State.badPost (s : State) (x : Work) : Option (Nat × Nat) :=
  firstSome (fun p => ((s.core p.1).checkLocal x.ctx s.tstep p.2.1 p.2.2.length false).map (fun f => (f.1, f.2.2)))
    (x.posts.filter (fun p => !p.2.2.isEmpty))

/-- A card's writes are performed and the commit point goes past it, unless its timestamp is not the commit point's (R275). -/
def State.commitCard (s : State) (w : Nat) (x : Work) (cls : Nat) : State :=
  let s1 := x.frames.foldl (fun s p => s.rowWrite x.ctx p.1 p.2) s
  let s2 := (s1.performWork x).setWork w { x with stage := .committed }
  if x.cause = 0x65 ∨ pTs x.pkt ≠ s.cp x.ctx cls then s2 else s2.advanceCp x.ctx cls

/-- Home agents hold back a write that a card's commit would make (R321). -/
def State.commitHeld (s : State) (x : Work) : Bool :=
  s.partsHeld (some x.q) 1 (x.out.map (fun p => (p.1, p.2.length)) ++ x.frames.map (fun p => (p.1 % 2 ^ 64, p.2.length)))

/-- JOB_CARD_COMMIT (R275, R288, R310): a local write that fails its check now makes the card fail, with its record alone; else the card at the commit point performs its writes, rows among them, and the commit point goes past it. -/
def execJobCardCommit (w : Nat) (s : State) : Host.Outcome State Fault Refusal :=
  event "JOB_CARD_COMMIT"
    (match mfind s.works w with
     | none => none
     | some x =>
       let cls := cardClass (pKind x.pkt)
       if isCard x.pkt && decide (x.stage = .performed) && decide (x.at_ ≤ s.cyc) && s.cardTurn x && !s.commitHeld x then
         match s.badPost x with
         | some (cause, addr) =>
           if x.cause = 0 then
             some (s.setWork w { x with stage := .taken, cause := cause, errstat := engStatus (pKind x.pkt) 0 0, erraddr := BitVec.ofNat 64 addr,
                                        out := [], posts := [], frames := [] })
           else some (s.commitCard w { x with posts := [] } cls)
         | none => some (s.commitCard w x cls)
       else none)

end Sys2Proof.Machine
end

