-- ==== Sys2Proof/Machine/Pooling.lean ====
section
/-! DEFINITION. The pooling engines (R305 to R307) and scatter-update (R308 to R310). -/
namespace Sys2Proof.Machine

/-! ## Pooling -/

/-- The entry point of a packet. -/
def pEp (p : BitVec 512) : Nat := pf p 448 8

/-- A bag's partials, one for each column (R305): weights and rows with their columns; and the flags of the products. -/
def bagPartials (d : Nat) (e : Int) (l : List (Option Num × List Num)) : List Wf × Flags :=
  l.foldl (fun acc x =>
    let vs := x.2.map (fun v =>
      match x.1 with
      | some w => prod w v
      | none => (v, false))
    ((acc.1.zip vs).map (fun p => wfMerge p.1 (wfIn p.2.1 e)), acc.2 ||| vs.foldl (fun f v => f ||| nvIf v.2) 0))
    (List.replicate d (wfZero e), 0)

/-- What the pooling units return for a card (R307): the partials in order of bag and column, and n, bags, fmt, D, hits, flags. -/
def poolParts (x : Work) (s : State) : EngR (List Wf × List Nat) :=
  (s.eTable x).andThen (fun t s => (s.eList x).andThen (fun l s =>
    let ep := pEp x.pkt
    if 2 ≤ ep ∧ s.stores.poolEps.contains ep = false then .fail 0x70 0 0 s
    else if l.n % (l.bags + 1) ≠ 0 then .fail 0x77 0 0 s
    else
      (s.rowPlaces x t l [0] false).andThen (fun hs s =>
          let rows := (rowsOf l hs).map (fun p => s.rowBytesNow x.ctx t p.1 p.2)
          let vals := rows.map (fun r => rowValues t r.1)
          let es := (l.ents.zip vals).map (fun p => (if l.wt then some (decodeF fp32 p.1.2) else none, p.2.1))
          let per := l.n / (l.bags + 1)
          let bs := (upTo 0 (l.bags + 1)).map (fun b => bagPartials t.d l.e ((es.drop (b * per)).take per))
          let fl := (vals.foldl (fun f v => f ||| v.2) 0) ||| bs.foldl (fun f b => f ||| b.2) 0
          .ok (bs.flatMap (fun b => b.1),
               [l.n, l.bags, b2n l.fmt, t.d, (rows.filter (fun r => r.2)).length, fl.toNat]) s)))

/-- Every entry of a card feeds the sketch of the issuing core's die (R300). -/
def feedPool (x : Work) (s : State) : State :=
  match s.tableList x [0] false with
  | .ok a t => t.feedRows (pCore x.pkt / 64) x.ctx a.1 (rowsOf a.2.1 a.2.2)
  | _ => s

/-- The near-bank units that the rows of a card go to, one command for each distinct row, with the unit cycles it takes at most (R307, R313): of a resident
row its frame's, of a row in HBM its home's; rows in capacity memory go to none. -/
def poolUnits (x : Work) (s : State) : List (Nat × Nat) :=
  match s.tableList x [0] false with
  | .ok a t =>
    (nubBy (fun p q => p.1 == q.1) (rowsOf a.2.1 a.2.2)).filterMap (fun p =>
      let pa := match t.resident x.ctx a.1.tid p.1 with
        | some f => t.frameAt f.1
        | none => p.2
      if inHbm pa then some (nearUnit pa, 32 + 8 * ((a.1.rb + 255) / 256)) else none)
  | _ => []

/-- The units take the commands of a card's rows in order, as far as they have room (R313): the state, and when the last of them ends. -/
def State.serveRows : State → Nat → List (Nat × Nat) → Nat × State × List (Nat × Nat)
  | s, e, [] => (e, s, [])
  | s, e, u :: r =>
    if s.unitFull u.1 then (e, s, u :: r)
    else
      let y := s.unitTakeUpTo u.1 u.2
      y.2.serveRows (Nat.max e y.1) r

/-- POOLING_ROW_SERVICE (R307, R313): the units return the partials of a card's rows, as they take the rows' commands, or the card is found to fail. -/
def execPoolingRowService (w : Nat) (s : State) : Host.Outcome State Fault Refusal :=
  event "POOLING_ROW_SERVICE"
    (match mfind s.works w with
     | none => none
     | some x0 =>
       let x := s.lateCard x0
       if pKind x.pkt = 0x20 ∧ x.needsDesc = true then s.readDesc w x
       else if pKind x.pkt = 0x20 ∧ x.cause = 0 ∧ x.joined = true ∧ x.rows ≠ [] ∧ x.stage = .taken then
         let us := s.serveRows x.at_ x.rows
         if us.2.2 = x.rows then none else some (us.2.1.setWork w { x with rows := us.2.2, at_ := us.1 })
       else if pKind x.pkt = 0x20 ∧ x.cause = 0 ∧ x.joined = false ∧ s.workReady x = true then
         match x.wait.resume s (poolParts x s) with
         | none => none
         | some (.ok r t) =>
           let us := t.serveRows t.cyc (poolUnits x t)
           some ((feedPool x us.2.1).setWork w { x with joined := true, parts := r.1.map Wf.pack, pos := r.2, at_ := us.1, rows := us.2.2, wait := .go })
         | some (.wait t) => some t
         | some (.stand v t) => some (t.setWork w { x with wait := v })
         | some (.fail cause run va t) =>
           some (t.setWork w { x with joined := true, cause := cause, errstat := engStatus (pKind x.pkt) 0 run, erraddr := va, wait := .go })
       else none)

/-- The result of a bag and column, with its flags (R305). DESIGN CHOICE (log 9). -/
def poolOut (ep per : Nat) (f : FFmt) (p : Wf) : Nat × Flags :=
  let r := wfOut p f
  if ep = 0 then r
  else if ep = 1 then
    match decodeF f r.1 with
    | .nan => r
    | .inf _ => r
    | _ =>
      if per = 0 then r
      else
        let q := divNum f 0 (numOf (sgn 128 p.n) p.e false) (intNum per)
        (q.1, q.2 ||| (if p.flags.getLsbD 3 then fOF else 0) ||| (if p.flags.getLsbD 4 then fNX else 0))
  else ((Config.poolInstalled ep p.pack per).toNat % 2 ^ f.width, 0)

/-- The results of a card from its partials. -/
def poolWork (x : Work) (s : State) : EngR Res :=
  let v (i : Nat) : Nat := x.pos.getD i 0
  let f := if v 2 = 1 then bf16 else fp32
  let rs := x.parts.map (fun p => poolOut (pEp x.pkt) (v 0 / (v 1 + 1)) f (wfUnpack p))
  (s.pput x (pBody x.pkt 2) (rs.flatMap (fun r => leBytes (f.width / 8) r.1))).andThen (fun w s =>
    .ok { writes := w, rows := [], count := v 0, flags := rs.foldl (fun f r => f ||| r.2) (BitVec.ofNat 6 (v 5)), hits := v 4 } s)

/-- POOL_CARD (R305): the partials are merged and encoded; the card's writes wait for its commit. -/
def execPoolCard (w : Nat) (s : State) : Host.Outcome State Fault Refusal :=
  event "POOL_CARD" (s.doEmbed w (fun x => pKind x.pkt == 0x20 && ((x.joined && x.rows.isEmpty) || decide (x.cause ≠ 0))) poolWork (fun _ s => s))

/-! ## Scatter-update -/

/-- An encoded value and the flags so far. -/
structure Enc where
  v : Nat
  f : Flags
  deriving DecidableEq, Repr

/-- A value encoded once, with the NV of the operations before it. -/
def encOf (f : FFmt) (x : Num × Bool) : Enc :=
  let r := encode f 0 x.1
  { v := r.1, f := r.2 ||| nvIf x.2 }

/-- x − y, exactly. -/
def subNum (a b : Num) : Num × Bool := addNum 0 a b.neg

/-- a × b + c × d, exactly. -/
def twoProds (a b c d : Num) : Num × Bool :=
  let p := prod a b
  let q := prod c d
  let r := addNum 0 p.1 q.1
  (r.1, p.2 || q.2 || r.2)

/-- w − a × b, encoded once (R309). -/
def stepSub (f : FFmt) (w a b : Num) : Enc :=
  let p := prod a b
  let r := subNum w p.1
  encOf f (r.1, p.2 || r.2)

/-- The special quotients of IEEE 754-2019, when they are not of two finite values that are not zero (R309): value, flags. -/
def specialQuot (a b : Num) : Option (Num × Flags) :=
  match a, b with
  | .nan, _ => some (.nan, 0)
  | _, .nan => some (.nan, 0)
  | .inf _, .inf _ => some (.nan, fNV)
  | .zero _, .zero _ => some (.nan, fNV)
  | .inf x, y => some (.inf (x != y.isNeg), 0)
  | x, .inf y => some (.zero (x.isNeg != y), 0)
  | .fin x _ _, .zero y => some (.inf (x != y), fDZ)
  | .zero x, y => some (.zero (x != y.isNeg), 0)
  | .fin _ _ _, .fin _ _ _ => none

/-- w − a / b, evaluated exactly and encoded once (R309). -/
def subQuot (f : FFmt) (w a b : Num) : Enc :=
  match specialQuot a b with
  | some (q, fl) =>
    let r := subNum w q
    let e := encOf f r
    { e with f := e.f ||| fl }
  | none =>
    match w with
    | .nan => encOf f (.nan, false)
    | .inf n => encOf f (.inf n, false)
    | _ =>
      match (subNum (prod w b).1 a).1 with
      | .zero _ => encOf f (.zero false, false)
      | m =>
        let r := divNum f 0 m b
        { v := r.1, f := r.2 }

/-- The mean square of a row's gradients (R309). -/
def meanSquare (gs : List Num) : Enc :=
  let t := gs.foldl (fun a g => (addNum 0 a (prod g g).1).1) (Num.zero false)
  match t with
  | .fin _ _ _ =>
    let r := divNum fp32 0 t (intNum gs.length)
    { v := r.1, f := r.2 }
  | x => encOf fp32 (x, false)

/-- The denominator s + h3, s the square root of an encoded value (R309), and the flags so far. -/
def rootPlus (v : Nat) (h3 : Num) : Num × Flags :=
  let r := sqrtNum fp32 0 (decodeF fp32 v)
  let a := addNum 0 (decodeF fp32 r.1) h3
  (a.1, r.2 ||| nvIf a.2)

/-- All the flags of a list of values. -/
def encFlags (l : List Enc) : Flags := l.foldl (fun f e => f ||| e.f) 0

/-- One step of an entry point on a row (R309): new weights, new state values, and flags. `h` are the parameters, `ws`, `gs`, `st` weights,
gradients and state values. DESIGN CHOICE (log 9). -/
def updateStep (ep : Nat) (t : ETable) (rf : FFmt) (ws gs st : List Nat) : List Nat × List Nat × Flags :=
  let h (i : Nat) : Num := decodeF fp32 (t.h.getD i 0).toNat
  let dec (l : List Nat) : List Num := l.map (decodeF fp32)
  let w := ws.map (decodeF rf)
  let g := dec gs
  let m := dec st
  match ep with
  | 0 =>
    let nw := (w.zip g).map (fun p => stepSub rf p.1 (h 0) p.2)
    (nw.map (fun e => e.v), [], encFlags nw)
  | 1 =>
    let nm := (m.zip g).map (fun p =>
      let a := prod (h 1) p.1
      let r := addNum 0 a.1 p.2
      encOf fp32 (r.1, a.2 || r.2))
    let nw := (w.zip nm).map (fun p => stepSub rf p.1 (h 0) (decodeF fp32 p.2.v))
    (nw.map (fun e => e.v), nm.map (fun e => e.v), encFlags nm ||| encFlags nw)
  | 2 =>
    let q := meanSquare g
    let ng := encOf fp32 (addNum 0 (m.headD .nan) (decodeF fp32 q.v))
    let den := rootPlus ng.v (h 3)
    let nw := (w.zip g).map (fun p =>
      let a := prod (h 0) p.2
      let e := subQuot rf p.1 a.1 den.1
      { e with f := e.f ||| nvIf a.2 })
    (nw.map (fun e => e.v), [ng.v], q.f ||| ng.f ||| den.2 ||| encFlags nw)
  | 3 =>
    let q := meanSquare g
    let one : Num := .fin false 1 0
    let c1 := subNum one (h 1)
    let c2 := subNum one (h 2)
    let nm := (m.zip g).map (fun p => encOf fp32 (twoProds (h 1) p.1 c1.1 p.2))
    let v := encOf fp32 (twoProds (h 2) (m.getD t.d .nan) c2.1 (decodeF fp32 q.v))
    let den := rootPlus v.v (h 3)
    let nw := (w.zip nm).map (fun p =>
      let a := prod (h 0) (decodeF fp32 p.2.v)
      let e := subQuot rf p.1 a.1 den.1
      { e with f := e.f ||| nvIf a.2 })
    (nw.map (fun e => e.v), nm.map (fun e => e.v) ++ [v.v], q.f ||| encFlags nm ||| v.f ||| den.2 ||| encFlags nw)
  | _ =>
    let ps := t.h.flatMap (fun x => leBytes 4 x.toNat)
    let rs := ((upTo 0 t.d).zip (ws.zip (st.zip gs))).map (fun p =>
      Config.updInstalled ep ps p.1 (BitVec.ofNat 32 p.2.1) (BitVec.ofNat 32 p.2.2.1) (BitVec.ofNat 32 p.2.2.2))
    (rs.map (fun r => r.1.toNat % 2 ^ rf.width), rs.map (fun r => r.2.toNat), 0)

/-- Bytes of a state row (R309). -/
def stateBytes (ep d : Nat) : Nat := if ep = 0 then 0 else if ep = 2 then 4 else if ep = 3 then 4 * d + 4 else 4 * d

/-- The coalesced gradients of a row (R308), and their flags: the entries that name it, with their gradients. -/
def coalesce (d : Nat) (e : Int) (l : List (List Num)) : List Enc :=
  ((bagPartials d e (l.map (fun g => (none, g)))).1).map (fun p =>
    let r := wfOut p fp32
    { v := r.1, f := r.2 })

/-- One distinct row's update: the row's and the state row's new bytes, and flags. -/
def State.updateRow (s : State) (x : Work) (t : ETable) (l : EList) (grads : List (List Num)) (row home : Nat) :
    EngR ((Nat × List Byte) × Writes × Flags) :=
  let ep := pEp x.pkt
  let rf := if t.rf = 0 then fp32 else bf16
  let gs := coalesce t.d l.e (((l.ents.zip grads).filter (fun p => decide (p.1.1 = row))).map (fun p => p.2))
  let sva := BitVec.ofNat 64 (t.sbase + row * t.sstride)
  let sn := stateBytes ep t.d
  (if sn = 0 then .ok [] s else s.gread (s.workAgent x) sva sn).andThen (fun sb s =>
    let ws := elemsOf (rfWidth t.rf) t.d (s.rowBytesNow x.ctx t row home).1
    let r := updateStep ep t rf ws (gs.map (fun e => e.v)) (elemsOf 32 (sn / 4) sb)
    (s.gput x sva (r.2.1.flatMap (leBytes 4))).andThen (fun w s =>
      .ok ((rowKey t.tid row home, r.1.flatMap (leBytes (rf.width / 8))), w, encFlags gs ||| r.2.2) s))

/-- A scatter-update card (R308 to R310). -/
def supdWork (x : Work) (s : State) : EngR Res :=
  (s.eTable x).andThen (fun t s => (s.eList x).andThen (fun l s =>
    let ep := pEp x.pkt
    if 4 ≤ ep ∧ s.stores.updEps.contains ep = false then .fail 0x70 0 0 s
    else if 2 ≤ t.rf ∨ (ep ≠ 0 ∧ t.sbase = 0) ∨ t.sstride < (if 4 ≤ ep then 0 else stateBytes ep t.d) then .fail 0x75 0 0 s
    else
      (s.rowPlaces x t l [0, 1] false).andThen (fun hs s =>
        let gw := if l.fmt then 2 else 4
        (s.pread x (pBody x.pkt 2) (l.n * t.d * gw)).andThen (fun gb s =>
          let grads := (pieces (t.d * gw) gb).map (fun b => (elemsOf (8 * gw) t.d b).map (decodeF (if l.fmt then bf16 else fp32)))
          let rows := nubBy (fun a b => a.1 == b.1) (rowsOf l hs)
          (engMap (fun _ p s => s.updateRow x t l grads p.1 p.2) 0 rows s).andThen (fun rs s =>
            .ok { writes := joinWrites (rs.map (fun r => r.2.1)), rows := rs.map (fun r => r.1), count := rows.length,
                  flags := rs.foldl (fun f r => f ||| r.2.2) 0, hits := 0 } s)))))

/-- A scatter-update event of some entry points. -/
def State.supdEvent (s : State) (w : Nat) (eps : Nat → Bool) : Option State :=
  s.doEmbed w (fun x => pKind x.pkt == 0x30 && eps (pEp x.pkt)) supdWork (fun _ s => s)

/-- SUPD_SGD (R309). -/
def execSupdSgd (w : Nat) (s : State) : Host.Outcome State Fault Refusal := event "SUPD_SGD" (s.supdEvent w (fun e => e == 0))
/-- SUPD_MOMENTUM (R309). -/
def execSupdMomentum (w : Nat) (s : State) : Host.Outcome State Fault Refusal := event "SUPD_MOMENTUM" (s.supdEvent w (fun e => e == 1))
/-- SUPD_ADAGRAD (R309). -/
def execSupdAdagrad (w : Nat) (s : State) : Host.Outcome State Fault Refusal := event "SUPD_ADAGRAD" (s.supdEvent w (fun e => e == 2))
/-- SUPD_ADAM (R309). -/
def execSupdAdam (w : Nat) (s : State) : Host.Outcome State Fault Refusal := event "SUPD_ADAM" (s.supdEvent w (fun e => e == 3))
/-- SUPD_INSTALLED (R309): entry points 4 to 255. -/
def execSupdInstalled (w : Nat) (s : State) : Host.Outcome State Fault Refusal :=
  event "SUPD_INSTALLED" (s.supdEvent w (fun e => decide (4 ≤ e)))

end Sys2Proof.Machine
end

