-- ==== Sys2Proof/Machine/NearBank.lean ====
section
/-! DEFINITION. The near-bank units (R312 to R328): calls, rejections, fixed entry points, micro-programs and the control store. -/
namespace Sys2Proof.Machine

/-! ## Calls (R314 to R316) -/

/-- The effect of `nmc` (R316). -/
def actNmc (f : EngF) (s : State) : Act := actEng 0x40 0 (if f.var.getLsbD 3 then some 3 else none) true f s

/-- NMC (R316). -/
def execNmc (f : EngF) (s : State) : Host.Outcome State Fault Refusal := issue s (engReads f) (actNmc f)

/-- A call descriptor (Table 15-1). -/
structure Call where
  w : Nat
  sc : Nat
  r : Nat
  c : Nat
  fmt : Nat
  isat : Bool
  ofmt : Bool
  arg0 : Nat
  arg1 : Nat
  inlen : Nat
  outlen : Nat
  deriving DecidableEq, Repr

/-- The call that 64 bytes describe; none when a field breaks a limit that holds for every entry point. -/
def callOf (bs : List Byte) : Option Call :=
  let n := leNat bs
  let x : Call :=
    { w := fld n 0 64, sc := fld n 64 64, r := fld n 128 32, c := fld n 160 32, fmt := fld n 192 4, isat := bit n 196, ofmt := bit n 197,
      arg0 := fld n 256 64, arg1 := fld n 320 64, inlen := fld n 384 32, outlen := fld n 416 32 }
  if fld n 198 58 = 0 ∧ fld n 448 64 = 0 ∧ x.w % 4096 = 0 ∧ x.sc % 2 = 0 ∧ 16 ≤ x.r ∧ x.r ≤ 8192 ∧ x.r % 16 = 0 ∧ 32 ≤ x.c ∧ x.c ≤ 4096 ∧
      x.c % 32 = 0 ∧ (x.fmt ≤ 4 ∨ (10 ≤ x.fmt ∧ x.fmt ≤ 12)) then some x else none

/-- U (R314): the stripes of a row. -/
def Call.u (x : Call) : Nat := ceilDiv (x.c * matWidth x.fmt) 2048

/-- Bytes of the extent (R314). -/
def Call.extent (x : Call) : Nat := 256 * x.r * x.u

/-- Element bytes of a row. -/
def Call.rowLen (x : Call) : Nat := x.c * matWidth x.fmt / 8

/-- Element bytes of all rows. -/
def Call.bytes (x : Call) : Nat := x.r * x.rowLen

/-- The requirements of an entry point (R315, R319). -/
def Call.suits (x : Call) (ep : Nat) : Bool :=
  match ep with
  | 0 => (x.fmt == 10 || x.fmt == 11) && x.inlen == x.r && x.outlen == 4 * x.c && (!x.ofmt || x.sc != 0) && x.arg0 == 0 && x.arg1 == 0
  | 1 => (x.fmt == 0 || x.fmt == 1) && x.inlen == 0 && x.outlen == 4 * x.c && decide (x.arg0 < 512) && x.arg1 == 0 && !x.isat && !x.ofmt
  | 2 => x.inlen == 0 && x.outlen == 0 && x.arg1 == 0 && !x.isat && !x.ofmt
  | 3 => x.inlen == x.bytes && x.outlen == 0 && x.arg0 == 0 && x.arg1 == 0 && !x.isat && !x.ofmt
  | _ => true

/-- A global range at a place overlaps the extent. -/
def Call.hits (x : Call) (p : Word) (n : Nat) : Bool := !placeLocal p && overlap p.toNat n x.w x.extent

/-- The entry table's word for an entry point (R324): bit 15 valid, bit 8 write grant, bits 7-0 start. -/
def State.entryWord (s : State) (ep : Nat) : Nat := (mget 0 s.stores.entries ep).toNat

/-- An entry point is there (R319). -/
def State.entryThere (s : State) (ep : Nat) : Bool := decide (ep < 4) || bit (s.entryWord ep) 15

/-- An entry point writes the operand. -/
def State.entryWrites (s : State) (ep : Nat) : Bool := ep == 2 || ep == 3 || (decide (4 ≤ ep) && bit (s.entryWord ep) 8)

/-- The kinds of access that an entry point's operand is checked for. -/
def State.entryKinds (s : State) (ep : Nat) : List Nat :=
  if ep ≤ 1 then [0] else if ep ≤ 3 then [1] else if s.entryWrites ep then [0, 1] else [0]

/-! ## Rejection (R317, R318) -/

/-- The reason an operand is rejected (Table 15-2) from the leaf of its base. -/
def State.rejectReason (s : State) (e : TlbEnt) (va ext : Nat) : Option Nat :=
  if e.attr.getLsbD 7 = false then some 2
  else if inHot s.hr e.pbase || inHot s.hr (e.pbase + 2 ^ e.lg - 1) then some 3
  else if va / 0x200000 ≠ (va + ext - 1) / 0x200000 then some 1
  else none

/-- The bound of a rejection. -/
def rejectBound (reason va : Nat) : Nat := if reason = 1 then (va / 0x200000 + 1) * 0x200000 else 0

/-- A rejection is logged (R318), and as an error response (R345). -/
def State.logReject (s : State) (die : Nat) (va pa ctx reason src core engine : Nat) : State :=
  let e : RejEnt :=
    { va := BitVec.ofNat 64 va, bound := BitVec.ofNat 64 (rejectBound reason va), tstep := s.tstep, ctx := ctx, reason := reason, src := src,
      core := core % 64, die := dieOf core }
  (s.modDie die (fun d => { d with rlog := mset d.rlog (d.rlogN % 64) e, rlogN := d.rlogN + 1 })).logError (errDie core pa 0x48)
    (s.errEnt core pa (BitVec.ofNat 64 va) ctx 0x48 engine)

/-! ## Dispatch (R315, R317, R320, R321) -/

/-- What a dispatched command holds: descriptor, input, scales, and the operand's physical base. -/
structure NbJob where
  call : Call
  input : List Byte
  scales : List Byte
  pa : Nat

/-- The descriptor of a packet, checked (R315, R316). -/
def nbCall (x : Work) (s : State) : EngR Call :=
  let va := pBody x.pkt 0
  let ep := pEp x.pkt
  if s.entryThere ep = false then .fail 0x70 0 0 s
  else if va.toNat % 64 ≠ 0 then .fail 0x78 0 va s
  else
    (if x.buf.isEmpty then s.gread (s.workAgent x) va 64 else .ok x.buf s).andThen (fun bs s =>
      match callOf bs with
      | none => .fail 0x78 0 va s
      | some c =>
        if c.suits ep = false ∨ c.hits (pBody x.pkt 1) c.inlen = true ∨ c.hits (pBody x.pkt 2) c.outlen = true then .fail 0x78 0 va s
        else if (c.inlen = 0 ∧ pBody x.pkt 1 ≠ 0) ∨ (c.outlen = 0 ∧ pBody x.pkt 2 ≠ 0) then .fail 0x77 0 0 s
        else .ok c s)

/-- An uncorrectable error in the element bytes of a bank-striped operand, whose rows have so many of them, or on the link to it; pad bytes are not
read (R314, R348, R388). -/
def State.stripesBad (s : State) (c base rows rowLen ext : Nat) : Bool :=
  s.homeBad c 1 base ext ||
    s.bad.any (fun a => decide (base ≤ a) && decide (a < base + ext) &&
      decide ((a - base) / 256 / Nat.max 1 rows * 256 + (a - base) % 256 < rowLen))

/-- The operand's base, translated, or a rejection: its reason (R317). -/
def nbOperand (x : Work) (c : Call) (s : State) : EngR (Except (Nat × Nat) Nat) :=
  let g := s.workAgent x
  let va := BitVec.ofNat 64 c.w
  ((s.entryKinds (pEp x.pkt)).foldl (fun (r : EngR (Option TlbEnt)) kind => r.andThen (fun _ s =>
    match s.frontAccess (dieOf g.core) g.tlb g.ctx g.unit g.uidx kind false g.wait va 1 with
    | .bad cause v => .fail cause 0 v s
    | .stand w s' => .stand w s'
    | .ok _ s' =>
      match s'.stream g.tlb g.ctx (s'.rootOf g.ctx) va kind false with
      | .ok (e, s2) => .ok (some e) s2
      | .error _ => .ok none s')) (.ok none s)).andThen (fun e s =>
    match e with
    | none => .fail 0x45 0 va s
    | some e =>
      match s.rejectReason e c.w c.extent with
      | some r => .ok (.error (r, e.pa va)) s
      | none =>
        if (s.entryKinds (pEp x.pkt)).contains 0 && s.stripesBad g.core (e.pa va) c.r c.rowLen c.extent then
          .fail 0x83 0 va (s.engineError g.core (e.pa va) va g.ctx 0x83 g.engine)
        else .ok (.ok (e.pa va)) s)

/-- The descriptor, the operand and what the front end reads for a command. DESIGN CHOICE (log 32). -/
def nbDispatch (x : Work) (s : State) : EngR (Except (Nat × Nat × Nat) NbJob) :=
  (nbCall x s).andThen (fun c s =>
    (nbOperand x c s).andThen (fun o s =>
      match o with
      | .error (r, pa) => .ok (.error (r, pa, c.w)) s
      | .ok pa =>
        (s.pread x (pBody x.pkt 1) c.inlen).andThen (fun inp s =>
          (if c.sc ≠ 0 ∧ (c.ofmt = true ∨ 4 ≤ pEp x.pkt) then s.gread (s.workAgent x) (BitVec.ofNat 64 c.sc) (c.c / 16) else .ok [] s).andThen (fun sc s =>
            .ok (.ok { call := c, input := inp, scales := sc, pa := pa }) s))))

/-- A dispatched command, as its packet keeps it. -/
def NbJob.store (j : NbJob) : List (Nat × List Byte) :=
  [(0, leBytes 8 j.call.w ++ leBytes 8 j.call.sc ++ leBytes 4 j.call.r ++ leBytes 4 j.call.c ++
      leBytes 8 (j.call.fmt + 16 * b2n j.call.isat + 32 * b2n j.call.ofmt) ++ leBytes 8 j.call.arg0 ++ leBytes 8 j.call.arg1 ++
      leBytes 4 j.call.inlen ++ leBytes 4 j.call.outlen ++ leBytes 8 0), (1, j.input), (2, j.scales), (3, leBytes 8 j.pa)]

/-- The command a packet keeps. -/
def Work.nbJob (x : Work) : Option NbJob :=
  (callOf (mget [] x.frames 0)).map (fun c =>
    { call := c, input := mget [] x.frames 1, scales := mget [] x.frames 2, pa := leNat (mget [] x.frames 3) })

/-- The frames whose row's home overlaps a written extent are written back and invalidated (R321). -/
def State.dropFrames (s : State) (pa n : Nat) : State :=
  (s.frames.filter (fun p => p.2.valid && overlap p.2.home p.2.rb pa n)).foldl (fun s p =>
    let s1 := (s.writeBack p.1).2
    { s1 with frames := mdel s1.frames p.1 }) s

/-- A packet of this chapter fails: only its record is written, and not even that where its place is not valid, or a fault of it has been delivered. -/
def State.nbFail (s : State) (w : Nat) (x : Work) (cause run : Nat) (va : Word) : State :=
  let y := { x with cause := cause, errstat := engStatus (pKind x.pkt) 0 run, erraddr := va }
  match s.withRecord y (fun _ s => .wait s) with
  | .ok e t => t.workDone w y e
  | .wait t => t.setWork w { y with at_ := t.cyc + 1 }
  | .stand v t => t.setWork w { y with wait := v }
  | .fail c r a t => t.workDone w y (failEffect y c r a)

/-! ## Fixed entry points (R319) -/

/-- The address of stripe u of row k. -/
def NbJob.stripe (j : NbJob) (u k : Nat) : Nat := j.pa + 256 * (u * j.call.r + k)

/-- Elements of a row of the operand. -/
def NbJob.row (j : NbJob) (s : State) (k : Nat) : List Nat :=
  elemsOf (matWidth j.call.fmt) j.call.c ((upTo 0 j.call.u).flatMap (fun u => s.homeBytes (j.stripe u k) 256))

/-- What a command gives: its output bytes, count, flags, a failure's cause, its unit cycles (R313), and the state with what it wrote to its
operand. -/
structure NbOut where
  out : List Byte
  count : Nat
  flags : Flags
  cause : Nat
  ucy : Nat
  st : State

/-- The unit cycles of a fixed entry point (R319). -/
def NbJob.fixedUcy (j : NbJob) : Nat := 32 + 8 * j.call.r * j.call.u

/-- matvec. -/
def nbMatvec (j : NbJob) (s : State) : NbOut :=
  let c := j.call
  let w := matWidth c.fmt
  let xs := j.input.map (fun b => sgn 8 b.toNat)
  let rows := (upTo 0 c.r).map (fun k => (j.row s k).map (sgn w))
  let ys := (upTo 0 c.c).map (fun i =>
    let ps := (xs.zip rows).map (fun p => p.1 * p.2.getD i 0)
    let v := (pieces 16 ps).foldl (fun a g => intGroup a g c.isat) 0
    if c.ofmt then
      let p := prod (intNum (sgn 32 v.toNat)) (decodeF bf16 (leNat ((j.scales.drop (2 * (i / 32))).take 2)))
      encOf fp32 p
    else { v := v.toNat, f := 0 })
  { out := ys.flatMap (fun y => leBytes 4 y.v), count := c.c, flags := encFlags ys, cause := 0, ucy := j.fixedUcy, st := s }

/-- colsum. -/
def nbColsum (j : NbJob) (s : State) : NbOut :=
  let c := j.call
  let e := sgn 9 c.arg0
  let f := if c.fmt = 0 then fp32 else bf16
  let ps := (upTo 0 c.r).foldl (fun acc k =>
    (acc.zip (j.row s k)).map (fun p => wfMerge p.1 (wfIn (decodeF f p.2) e))) (List.replicate c.c (wfZero e))
  let ys := ps.map (fun p => wfOut p fp32)
  { out := ys.flatMap (fun y => leBytes 4 y.1), count := c.c, flags := ys.foldl (fun f y => f ||| y.2) 0, cause := 0, ucy := j.fixedUcy, st := s }

/-- fill. -/
def nbFill (j : NbJob) (s : State) : NbOut :=
  let c := j.call
  let a := leBytes 8 c.arg0
  let st := (upTo 0 c.u).foldl (fun s u =>
    let n := Nat.min 256 (c.rowLen - 256 * u)
    let bs := (upTo 0 n).map (fun m => a.getD (m % 8) 0)
    (upTo 0 c.r).foldl (fun s k => s.homeWrite (j.stripe u k) bs) s) s
  { out := [], count := c.bytes, flags := 0, cause := 0, ucy := j.fixedUcy, st := st }

/-- stripe: pad is zeroed. -/
def nbStripe (j : NbJob) (s : State) : NbOut :=
  let c := j.call
  let st := (upTo 0 c.r).foldl (fun s k =>
    let row := (j.input.drop (k * c.rowLen)).take c.rowLen ++ List.replicate (256 * c.u - c.rowLen) 0
    (upTo 0 c.u).foldl (fun s u => s.homeWrite (j.stripe u k) ((row.drop (256 * u)).take 256)) s) s
  { out := [], count := c.bytes, flags := 0, cause := 0, ucy := j.fixedUcy, st := st }

/-! ## Micro-programs (R325 to R327) -/

/-- A lane of acc (R326). -/
inductive Lane where
  | int (v : Int)
  | wf (p : Wf)
  deriving DecidableEq, Repr

/-- The state of a micro-program (R326), the input and output bytes that have passed, and its ucy. -/
structure Micro where
  pc : Nat
  x : List Nat
  n : List Nat
  b : List (List Byte)
  acc : List Lane
  flags : Flags
  inPos : Nat
  out : List Byte
  ucy : Nat

/-- An integer lane; what an integer operation makes of a WF128 lane the manual does not say (log 3). -/
def Lane.toInt (l : Lane) (k : Nat) : Int :=
  match l with
  | .int v => v
  | .wf _ => sgn 64 (Config.freeWord k).toNat

/-- A WF128 lane; a lane that is zero is the zero partial, and what else an integer lane gives the manual does not say (log 3). -/
def Lane.toWf (l : Lane) (e : Int) (k : Nat) : Wf :=
  match l with
  | .wf p => p
  | .int v => if v = 0 then wfZero e else wfUnpack ((Config.freeWord k).setWidth 256)

/-- The op of a micro-word (Table 15-6): w the word, k a number for free values. -/
def Micro.op (m : Micro) (w : Nat) (arg0 : Nat) (k : Nat) : Micro :=
  let sa := m.b.getD (fld w 126 2) []
  let sb := m.b.getD (fld w 124 2) []
  let sd := fld w 122 2
  let sel := fld w 114 8
  let imm := fld w 98 16
  let lanes (f : Nat → Lane → Lane) : Micro := { m with acc := (m.acc.zip (upTo 0 256)).map (fun p => f p.2 p.1) }
  let part := (m.acc.drop (64 * (imm % 4))).take 64
  let put (bs : List Byte) (f : Flags) : Micro := { m with b := putAt m.b sd bs, flags := m.flags ||| f }
  let i8 (l : List Byte) (i : Nat) : Int := sgn 8 (l.getD i 0).toNat
  match fld w 128 5 with
  | 1 => lanes (fun _ _ => .int 0)
  | 2 => lanes (fun i l => .int (l.toInt (k + i) + i8 sa i * i8 sb sel))
  | 3 =>
    let es := elemsOf 4 512 sa
    lanes (fun i l => .int (l.toInt (k + i) + sgn 4 (es.getD (256 * (imm % 2) + i) 0) * i8 sb sel))
  | 4 => lanes (fun i l =>
      let v := l.toInt (k + i)
      .int (if imm % 2 = 1 then satInt v 32 else sgn 32 (wrapN 32 v)))
  | 5 =>
    let es := elemsOf 32 64 sa
    let e := sgn 9 imm
    lanes (fun i l => if i < 64 then .wf (wfMerge (l.toWf e (k + i)) (wfIn (decodeF fp32 (es.getD i 0)) e)) else l)
  | 6 =>
    let es := elemsOf 16 128 sa
    let e := sgn 9 imm
    lanes (fun i l => if i < 128 then .wf (wfMerge (l.toWf e (k + i)) (wfIn (decodeF bf16 (es.getD i 0)) e)) else l)
  | 7 =>
    let rs := (part.zip (upTo 0 64)).map (fun p => wfOut (p.1.toWf 0 (k + p.2)) fp32)
    put (rs.flatMap (fun r => leBytes 4 r.1)) (rs.foldl (fun f r => f ||| r.2) 0)
  | 8 => put ((part.zip (upTo 0 64)).flatMap (fun p => leBytes 4 (wrapN 32 (p.1.toInt (k + p.2))))) 0
  | 9 =>
    let es := elemsOf 16 128 sb
    let rs := (part.zip (upTo 0 64)).map (fun p =>
      let i := sel + p.2 / 32
      let sc := if i < 128 then es.getD i 0 else (Config.freeWord (k + p.2)).toNat % 65536
      encOf fp32 (prod (intNum (p.1.toInt (k + p.2))) (decodeF bf16 sc)))
    put (rs.flatMap (fun r => leBytes 4 r.v)) (encFlags rs)
  | 10 => put sa 0
  | 11 => put ((upTo 0 32).flatMap (fun _ => leBytes 8 arg0)) 0
  | _ => m

/-- A micro-program runs (R326, R327): a word reads, operates, writes, steps and branches, until its end word or a failure. -/
def microRun (j : NbJob) (words : Map (BitVec 192)) (grant : Bool) : Nat → Micro → State → Micro × Nat × State
  | 0, m, s => (m, 0x7A, s)
  | fuel + 1, m, s =>
    let w := (mget 0 words m.pc).toNat
    let c := j.call
    let rdk := fld w 168 2
    let wrk := fld w 161 2
    let cost := if rdk = 1 ∨ wrk = 1 then 8 else 1
    let m := { m with ucy := Nat.min (2 ^ 20) (m.ucy + cost) }
    let bad (a : Nat) : Bool := decide (a % 256 ≠ 0) || decide (c.extent ≤ a)
    let ra := m.x.getD (fld w 165 3) 0
    let wa := m.x.getD (fld w 158 3) 0
    if 2 ^ 20 ≤ m.ucy then (m, 0x7A, s)
    else if rdk = 1 ∧ bad ra = true then (m, 0x79, s)
    else
      let line : Option (List Byte) :=
        if rdk = 1 then some (s.homeBytes (j.pa + ra) 256)
        else if rdk = 2 then
          let got := (j.input.drop m.inPos).take 256
          some (got ++ List.replicate (256 - got.length) 0)
        else none
      let m1 := match line with
        | some bs => { m with b := putAt m.b (fld w 163 2) bs, inPos := if rdk = 2 then m.inPos + 256 else m.inPos }
        | none => m
      let m2 := m1.op w c.arg0 s.draws
      if wrk = 1 ∧ (grant = false ∨ bad wa = true) then (m2, 0x79, s)
      else
        let bs := m2.b.getD (fld w 156 2) []
        let s1 := if wrk = 1 then s.homeWrite (j.pa + wa) bs else s
        let m3 := if wrk = 2 then { m2 with out := (m2.out ++ bs).take c.outlen } else m2
        let ix := fld w 153 3
        let m4 := { m3 with x := putAt m3.x ix (wrapN 32 ((m3.x.getD ix 0 : Nat) + sgn 20 (fld w 133 20))) }
        let k := fld w 170 2
        let nv := m4.n.getD k 0
        let next := fld w 184 8
        let tgt := fld w 176 8
        let go (pc : Nat) (m : Micro) : Micro × Nat × State := microRun j words grant fuel { m with pc := pc } s1
        match fld w 172 4 with
        | 0 => go next m4
        | 1 => go tgt m4
        | 2 => if nv ≠ 0 then go tgt { m4 with n := putAt m4.n k (nv - 1) } else go next m4
        | 3 => go (if nv = 0 then tgt else next) m4
        | _ => (m4, 0, s1)

/-- A micro-program at its beginning (R326). -/
def Micro.start (j : NbJob) (pc : Nat) : Micro :=
  { pc := pc, x := List.replicate 8 0, n := [j.call.r, j.call.c, j.call.u, 0], b := List.replicate 4 (List.replicate 256 0),
    acc := List.replicate 256 (.int 0), flags := 0, inPos := 0, out := [], ucy := 0 }

/-- An installed entry point's command; the manual does not say what its record counts (log 3). -/
def nbMicro (ep : Nat) (j : NbJob) (s : State) : NbOut :=
  let e := s.entryWord ep
  let r := microRun j s.stores.words (bit e 8) (2 ^ 20) (Micro.start j (fld e 0 8)) s
  { out := r.1.out, count := (Config.freeWord s.draws).toNat, flags := r.1.flags, cause := r.2.1, ucy := r.1.ucy, st := r.2.2 }

/-! ## Dispatch (R312, R313, R315, R317, R321) -/

/-- A dispatched command whose action on the operand is still to come: it comes before another command is dispatched (R321). -/
def Work.nbUndone (x : Work) : Bool := decide (x.stage = .dispatched) && (mfind x.frames 4).isNone

/-- A unit is done with a command: what is left to the front end, kept with its packet (R320). -/
def Work.nbKeep (x : Work) (o : NbOut) (ends : Nat) : Work :=
  { x with at_ := ends,
           frames := x.frames ++ [(4, o.out), (5, leBytes 8 o.count), (6, leBytes 8 o.flags.toNat), (7, leBytes 8 o.cause)] }

/-- A packet that has failed goes on to its record, once the access it stands at may be tried. -/
def State.nbFailed (s : State) (w : Nat) (x : Work) : Option State :=
  match x.wait with
  | .stands _ _ _ => none
  | .backoff t _ => if t ≤ s.cyc then some (s.nbFail w x x.cause 0 x.erraddr) else none
  | _ => some (s.nbFail w x x.cause 0 x.erraddr)

/-- NEAR_BANK_DISPATCH (R315, R317, R321): the front end checks a command, prepares the extent, and dispatches it; one that breaks a check
fails. -/
def execNearBankDispatch (w : Nat) (s : State) : Host.Outcome State Fault Refusal :=
  event "NEAR_BANK_DISPATCH"
    (match mfind s.works w with
     | none => none
     | some x0 =>
       let x := s.lateCard x0
       if pKind x.pkt = 0x40 ∧ x.needsDesc = true then s.readDesc w x
       else if pKind x.pkt = 0x40 ∧ s.workReady x = true then
         if x.cause ≠ 0 then s.nbFailed w x
         else
           match x.wait.resume s (nbDispatch x s) with
           | none => none
           | some (.ok (.ok j) t) =>
             let t1 := if t.entryWrites (pEp x.pkt) then t.dropFrames j.pa j.call.extent else t
             if t.unitFull (nearUnit j.pa) = true ∨ t.works.any (fun w => w.2.nbUndone) = true then none
             else
               some ((t1.forget (1024 + x.q)).setWork w
                 { x with stage := .dispatched, wait := .go, at_ := t.cyc,
                          frames := j.store, ext := some (j.pa, j.call.extent, t.entryWrites (pEp x.pkt)) })
           | some (.ok (.error (r, pa, va)) t) =>
             let g := t.workAgent x
             let core := match t.placer x.q x.idx with
               | some p => p.core
               | none => if pf x.pkt 9 2 = 1 then pCore x.pkt else g.core
             some ((t.logReject (dieOf g.core) va pa x.ctx r 0 core 9).nbFail w { x with wait := .go } 0x48 0
               (BitVec.ofNat 64 (if r = 1 then rejectBound r va else va)))
           | some (.wait t) => some t
           | some (.stand v t) => some (t.setWork w { x with wait := v })
           | some (.fail cause run va t) => some (t.nbFail w x cause run va)
       else none)

/-! ## Performing a command (R319, R320, R290) -/

/-- The writes with other bytes: as many of them as there are. -/
def rebyte (ws : Writes) (bs : List Byte) : Writes :=
  match ws with
  | ([], []) => ([], [])
  | (ps, []) =>
    ((ps.foldl (fun (acc : List (Nat × List Byte) × List Byte) p =>
      (acc.1 ++ [(p.1, acc.2.take p.2.length)], acc.2.drop p.2.length)) ([], bs)).1.filter (fun p => !p.2.isEmpty), [])
  | (_, posts) => ([], posts.map (fun p => (p.1, p.2.1, bs.take p.2.2.length)))

/-- The places of a command's record and output (R288, R290). -/
def State.nbPlaces (s : State) (x : Work) (j : NbJob) : EngR (Writes × Writes) :=
  (s.recordPut x (List.replicate 16 0)).andThen (fun r s =>
    (s.pput x (pBody x.pkt 2) (List.replicate j.call.outlen 0)).andThen (fun o s => .ok (r, o) s))

/-- The front end ends a command its unit is done with: it finds its record's place and, of one that has not failed, its output's, and completes it (R320,
R327). One that has failed keeps its cause whatever becomes of its record. -/
def State.nbEnd (s : State) (w : Nat) (x : Work) (j : NbJob) : Option State :=
  let cause := leNat (mget [] x.frames 7)
  if cause ≠ 0 then s.nbFailed w { x with cause := cause, erraddr := 0 }
  else
  match x.wait.resume s (s.nbPlaces x j) with
  | none => none
  | some (.ok p t) =>
    let rw := rebyte p.1 (recordBytes (leNat (mget [] x.frames 5)) (BitVec.ofNat 6 (leNat (mget [] x.frames 6))) 0 0)
    let ow := rebyte p.2 (mget [] x.frames 4)
    some (t.workDone w x
      { out := ow.1 ++ rw.1, posts := ow.2 ++ rw.2, frames := [], cause := 0, errstat := engStatus (pKind x.pkt) 0 0, erraddr := 0 })
  | some (.wait t) => some t
  | some (.stand v t) => some (t.setWork w { x with wait := v })
  | some (.fail cause run va t) => some (t.nbFail w x cause run va)

/-- A dispatched command of some entry points is performed; a fixed one only once the places of its record and output have been checked (R327). Accesses to its extent are held off until it completes (R321), so the unit's
action on the operand is taken with the dispatch; the command ends when its unit cycles have passed (R313). -/
def State.nbPerform (s : State) (w : Nat) (eps : Nat → Bool) (f : NbJob → State → NbOut) : Option State :=
  match mfind s.works w with
  | none => none
  | some x =>
    match x.nbJob with
    | none => none
    | some j =>
      if pKind x.pkt = 0x40 ∧ x.stage = .dispatched ∧ eps (pEp x.pkt) = true ∧ x.at_ ≤ s.cyc then
        if x.cause ≠ 0 then s.nbFailed w x
        else if x.nbUndone then
          match (if pEp x.pkt < 4 then x.wait.resume s (s.nbPlaces x j) else some (.ok (([], []), ([], [])) s)) with
          | none => none
          | some (.ok _ t) =>
            let o := f j t
            let u := o.st.unitTake (nearUnit j.pa) o.ucy
            some (u.2.setWork w (x.nbKeep o u.1))
          | some (.wait t) => some t
          | some (.stand v t) => some (t.setWork w { x with wait := v })
          | some (.fail cause run va t) => some (t.nbFail w x cause run va)
        else s.nbEnd w x j
      else none

/-- NEAR_BANK_MATVEC (R319). -/
def execNearBankMatvec (w : Nat) (s : State) : Host.Outcome State Fault Refusal :=
  event "NEAR_BANK_MATVEC" (s.nbPerform w (fun e => e == 0) nbMatvec)
/-- NEAR_BANK_COLSUM (R319). -/
def execNearBankColsum (w : Nat) (s : State) : Host.Outcome State Fault Refusal :=
  event "NEAR_BANK_COLSUM" (s.nbPerform w (fun e => e == 1) nbColsum)
/-- NEAR_BANK_FILL (R319). -/
def execNearBankFill (w : Nat) (s : State) : Host.Outcome State Fault Refusal :=
  event "NEAR_BANK_FILL" (s.nbPerform w (fun e => e == 2) nbFill)
/-- NEAR_BANK_STRIPE (R319). -/
def execNearBankStripe (w : Nat) (s : State) : Host.Outcome State Fault Refusal :=
  event "NEAR_BANK_STRIPE" (s.nbPerform w (fun e => e == 3) nbStripe)
/-- NEAR_BANK_MICROPROGRAM (R326). -/
def execNearBankMicroprogram (w : Nat) (s : State) : Host.Outcome State Fault Refusal :=
  event "NEAR_BANK_MICROPROGRAM"
    (match mfind s.works w with
     | some x => s.nbPerform w (fun e => decide (4 ≤ e)) (nbMicro (pEp x.pkt))
     | none => none)

/-! ## The control store (R324, R325) -/

/-- A micro-word that breaks no limit of Table 15-5. -/
def microLegal (w : BitVec 192) : Bool :=
  let n := w.toNat
  decide (fld n 172 4 ≤ 4) && decide (fld n 168 2 ≠ 3) && decide (fld n 161 2 ≠ 3) && decide (fld n 128 5 ≤ 11) && decide (fld n 0 98 = 0)

/-- An entry of the image: bit 15 valid, bit 8 write grant, bits 7-0 start, others zero. -/
def entryLegal (e : BitVec 16) : Bool := decide (fld e.toNat 9 6 = 0)

/-- The stores loaded from an image: rejected whole with cause 0x7B, which the management core is told (R324, R328). -/
def State.loadStore (s : State) (words : List (BitVec 192)) (entries : List (BitVec 16)) : State :=
  if words.length ≤ 256 ∧ entries.length ≤ 252 ∧ words.all microLegal = true ∧ entries.all entryLegal = true then
    { s with stores := { s.stores with
        words := (words.zip (upTo 0 256)).foldl (fun m p => mput 0 m p.2 p.1) [],
        entries := (entries.zip (upTo 4 252)).foldl (fun m p => mput 0 m p.2 p.1) [] } }
  else s.managementRecord 0 0 0 0x7B 9 0 0 0 0

/-- CONTROL_STORE_LOAD (R324): once the units have finished their commands; an image that is not signed and verified is rejected whole (R434). -/
def execControlStoreLoad (words : List (BitVec 192)) (entries : List (BitVec 16)) (s : State) : Host.Outcome State Fault Refusal :=
  event "CONTROL_STORE_LOAD"
    (s.manage (if s.works.any (fun w => decide (w.2.stage = .dispatched)) || s.nbHeld.any (fun p => p.2.any (fun e => decide (s.cyc < e))) then none
    else some (if Config.storeVerified words entries then s.loadStore words entries else s)))

end Sys2Proof.Machine
end

