-- ==== Sys2Proof/Machine/Arrays.lean ====
section
/-! DEFINITION. The matrix arrays (R169 to R203, R371): leases, counted commands, tiles and their transfers. -/
namespace Sys2Proof.Machine

/-! ## Leases (R173 to R175) -/

/-- The segment of the present group holds the array by its header (R175). -/
def State.headerLease (s : State) : Bool :=
  match s.me.im.seg with
  | some g => g.lease
  | none => false

/-- The effect of `lease` (R173, R175): a core that was granted the array takes its count; another ends any lease that it holds, asks and waits. -/
def actLease (f : MtxF) (s : State) : Act :=
  let c := s.cur.core
  let a := s.arr (arrOf c)
  if s.headerLease then .done s
  else if s.me.timed then .wait s 0xA 0 0
  else if a.holder = some c ∧ a.count = some 0 ∧ a.lctx = s.me.ctx then .done (s.modArr (arrOf c) (fun a => { a with count := some f.n.toNat }))
  else if a.reqs.any (fun r => decide (r.core = c)) then .wait s 0xA 0 0
  else
    .wait (s.modArr (arrOf c) (fun a =>
      let a := a.endLease c s.cyc
      { a with reqs := a.reqs ++ [{ core := c, prio := s.me.walk.prio, header := false }] })) 0xA 0 0

/-- LEASE (R173). -/
def execLease (f : MtxF) (s : State) : Host.Outcome State Fault Refusal := issue s [] (actLease f)

/-- UNLEASE (R173, R175). -/
def execUnlease (_f : MtxF) (s : State) : Host.Outcome State Fault Refusal :=
  issue s [] (fun s => .done (if s.headerLease || s.me.timed then s else s.endCounted s.cur.core))

/-- The place of a core in the round-robin order (R174). -/
def ArrSt.turn (a : ArrSt) (c : Nat) : Nat := (c % 4 + 3 - a.lastGrant) % 4

/-- The request that is granted: of the highest priority, and first in the round-robin order among those (R174). DEDUCED (log 35). -/
def ArrSt.choice (a : ArrSt) : Option LeaseReq :=
  a.reqs.foldl (fun b r =>
    match b with
    | none => some r
    | some x => if x.prio < r.prio ∨ (x.prio = r.prio ∧ a.turn r.core < a.turn x.core) then some r else some x) none

/-- LEASE_GRANT (R174): on a free cycle, once every core has issued, the array grants a request; a `lease` then issues on this cycle. -/
def execLeaseGrant (i : Nat) (s : State) : Host.Outcome State Fault Refusal :=
  if 32 ≤ i then .fault .noSuchUnit
  else
    event "LEASE_GRANT"
      (let a := s.arr i
       if a.holder = none ∧ a.freeFrom ≤ s.cyc ∧ s.scanDue i = false then
         match a.choice with
         | none => none
         | some r =>
           some ((s.modArr i (fun a =>
             { a with holder := some r.core, count := if r.header then none else some 0, reqs := a.reqs.erase r,
                      lastGrant := r.core % 4, lctx := (s.core r.core).ctx })).modSeq r.core .c (fun q => if r.header then q else { q with tried := none }))
       else none)

/-! ## Issue of counted commands (R173, R175, R179, R187) -/

/-- A trap of an array at issue (R201). -/
def arrTrap (i cause tile : Nat) : Act :=
  .trap { cause := cause, status := arrStatus 0 tile 0, addr := 0, cls := 0, engine := 1, uidx := i % 16 }

/-- The core may issue a counted command (R173, R175). -/
def State.mayCount (s : State) : Bool :=
  let a := s.arr (arrOf s.cur.core)
  decide (a.holder = some s.cur.core) && decide (a.lctx = s.me.ctx) && (s.headerLease || (match a.count with
    | some n => decide (1 ≤ n)
    | none => false))

/-- One counted command less under the lease: with the last the lease ends (R173). -/
def State.countOne (s : State) : State :=
  if s.headerLease then s
  else
    s.modArr (arrOf s.cur.core) (fun a =>
      match a.count with
      | some n => if n ≤ 1 then a.endLease s.cur.core s.cyc else { a with count := some (n - 1) }
      | none => a)

/-- The alignment and range of local regions: address, length, alignment (R187). An empty region, of a command with kg = 0, still has its alignment looked at and no
range. DESIGN CHOICE (log 67). -/
def regionFault (l : List (Nat × Nat × Nat)) : Option Act :=
  match l.find? (fun r => decide (r.1 % r.2.2 ≠ 0)) with
  | some r => some (memTrap 0x40 r.1 (memStatus 0 0 0 0 0))
  | none => (l.find? (fun r => decide (0 < r.2.1) && decide (0x5FFFFF < r.1 + r.2.1 - 1))).map (fun r =>
      memTrap 0x41 r.1 (memStatus 0 0 0 0 (r.1 / 2048)))

/-- A counted command goes to the array (R177, R179). -/
def State.counted (s : State) (i : Instr) (gam : Half) : State :=
  let x : ArrCmd :=
    { op := i, gam := gam, core := s.cur.core, ctx := s.me.ctx, issue := s.t, timed := s.me.timed, cmdIdx := s.mySeq.index,
      seg := s.me.im.segNum,
      b := none, g := 0, rAt := 0, e := none, flags := 0, wrec := [], touched := false, notBefore := 0, xfer := false, bankAt := 0, part := [],
      wts := [], scl := [], wait := .go, det := false }
  s.countOne.modArr (arrOf s.cur.core) (fun a => { a with queue := a.queue ++ [x] })

/-- A counted command that holds the lease (R187). -/
def actCounted (i : Instr) (tile : Nat) (bad : Bool) (regions : List (Nat × Nat × Nat)) (gam : Half) (s : State) : Act :=
  if s.mayCount = false then arrTrap (arrOf s.cur.core) 0x61 tile
  else if s.fenced.contains (arrOf s.cur.core) then fencedTrap 1 (arrOf s.cur.core)
  else if bad then s.opTrap 0xB
  else
    match regionFault regions with
    | some x => x
    | none => .done (s.counted i gam)

/-- Z, F and H of a command. -/
def mtxZ (f : MtxF) : Bool := f.zfh.getLsbD 2
/-- F. -/
def mtxFd (f : MtxF) : Bool := f.zfh.getLsbD 1
/-- H. -/
def mtxH (f : MtxF) : Bool := f.zfh.getLsbD 0
/-- u (R188). -/
def mtxU (f : MtxF) : Nat := if f.prec = 0 then matPlanes f.fa.toNat else f.prec.toNat

/-- The rules of Table 8-6 that the mma family shares. -/
def badMma (f : MtxF) : Bool :=
  let fa := f.fa.toNat
  let fb := f.fb.toNat
  decide (matFloat fa ≠ matFloat fb) || decide (matPlanes fa < f.prec.toNat) || (matMx fb && decide (f.kg.toNat % 2 ≠ 0)) ||
    ((mtxFd f) && !matFloat fa) || (decide (f.isat = 1) && matFloat fa)

/-- γ of the present group (R188). -/
def State.gamma (s : State) (f : MtxF) : Half := if mtxFd f then (s.rd f.gam).setWidth 32 else 0

/-- The B region of a command (R185). -/
def bRegion (f : MtxF) (k : Nat) : Nat × Nat × Nat :=
  (f.b.toNat, bLength f.fb.toNat (k * f.kg.toNat), if matMx f.fb.toNat then 8 else 256)

/-- The registers an mma-family command reads: γ's once it holds the lease, which is checked before anything else (R187). -/
def State.mmaReads (s : State) (f : MtxF) : List (BitVec 5) := if mtxFd f && s.mayCount then [f.gam] else []

/-- MMA (R186, R187). -/
def execMma (f : MtxF) (s : State) : Host.Outcome State Fault Refusal :=
  issue s (s.mmaReads f) (fun s =>
    actCounted (.mma f) f.tile.toNat (badMma f || decide (f.sp ≠ 0))
      [(f.a.toNat, f.kg.toNat * blockSize f.fa.toNat, 512), bRegion f 16] (s.gamma f) s)

/-- MMAC (R190): floating formats that are not MX. -/
def execMmac (f : MtxF) (s : State) : Host.Outcome State Fault Refusal :=
  issue s (s.mmaReads f) (fun s =>
    let bad := badMma { f with isat := 0 } || decide (f.sp ≠ 0) || decide (f.place ≠ 0) || !matFloat f.fa.toNat || matMx f.fa.toNat ||
      matMx f.fb.toNat
    actCounted (.mmac f) f.tile.toNat bad [(f.a.toNat, f.kg.toNat * blockSize f.fa.toNat, 512), bRegion f 8] (s.gamma f) s)

/-- MMAS (R191). -/
def execMmas (f : MtxF) (s : State) : Host.Outcome State Fault Refusal :=
  issue s (s.mmaReads f) (fun s =>
    let kg := f.kg.toNat
    let bad := badMma f || decide (f.place ≠ 0) || decide (f.sp = 0) || (decide (f.sp = 1) && decide (kg % 2 ≠ 0)) ||
      (decide (f.sp = 2) && (decide (kg % 4 ≠ 0) || matMx f.fa.toNat))
    actCounted (.mmas f) f.tile.toNat bad [(f.a.toNat, sparseLength f, if f.sp = 1 then 8 else 128), bRegion f 16] (s.gamma f) s)

/-- MMA_AT_BANK (R199). -/
def execMmaAtBank (f : MtxF) (s : State) : Host.Outcome State Fault Refusal :=
  issue s (s.mmaReads f) (fun s =>
    let ok (x : BitVec 4) : Bool := x == 10 || x == 11
    let bad := badMma f || !ok f.fa || !ok f.fb || !(f.prec == 0 || f.prec.toNat == matPlanes f.fa.toNat) || decide (f.sp ≠ 0)
    if s.mayCount = false then arrTrap (arrOf s.cur.core) 0x61 f.tile.toNat
    else if s.fenced.contains (arrOf s.cur.core) then fencedTrap 1 (arrOf s.cur.core)
    else if bad then s.opTrap 0xB
    else if s.me.timed then .wait s 0xA 0 0
    else
      actCounted (.mmaAtBank f) f.tile.toNat bad
        [(f.a.toNat, f.kg.toNat * blockSize f.fa.toNat, 512), (f.b.toNat, if f.kg = 0 then 0 else 32, 32)] (s.gamma f) s)

/-- AMZ (R193). -/
def execAmz (f : MtxF) (s : State) : Host.Outcome State Fault Refusal :=
  issue s [] (actCounted (.amz f) f.tile.toNat false [] 0)

/-- ALD (R194). -/
def execAld (f : MtxF) (s : State) : Host.Outcome State Fault Refusal :=
  issue s [] (actCounted (.ald f) f.tile.toNat false [(f.a.toNat, 256 * rowSize (aldWidth f.var.toNat), 256)] 0)

/-- ARET (R195). -/
def execAret (f : MtxF) (s : State) : Host.Outcome State Fault Refusal :=
  issue s [] (actCounted (.aret f) f.tile.toNat false [(f.a.toNat, 256 * rowSize (aretWidth f.var.toNat), 256)] 0)

/-- The MTX fields of a counted command. -/
def ArrCmd.f (x : ArrCmd) : MtxF :=
  match x.op with
  | .mma f | .mmac f | .mmas f | .mmaAtBank f | .amz f | .ald f | .aret f => f
  | _ => { tile := 0, a := 0, b := 0, kg := 0, fa := 0, fb := 0, prec := 0, zfh := 0, gam := 0, place := 0, sp := 0, isat := 0, n := 0, var := 0 }

/-- What kind of command it is: 0 mma, 1 mmac, 2 mmas, 3 at-bank, 4 amz, 5 ald, 6 aret. -/
def ArrCmd.kind (x : ArrCmd) : Nat :=
  match x.op with
  | .mma _ => 0
  | .mmac _ => 1
  | .mmas _ => 2
  | .mmaAtBank _ => 3
  | .amz _ => 4
  | .ald _ => 5
  | _ => 6

/-- ARET_W (R196): it waits for the retirements of a tile that C issued before it. -/
def execAretW (f : StoF) (s : State) : Host.Outcome State Fault Refusal :=
  issue s [] (fun s =>
    if (s.arr (arrOf s.cur.core)).queue.any (fun x => decide (x.core = s.cur.core) && decide (x.kind = 6) &&
        decide (x.f.tile.toNat = f.n.toNat) && decide (x.issue < s.t)) then .wait s 3 f.n.toNat 0
    else .done s)

/-! ## Operands (R181 to R192) -/

/-- A value that operand planes hold (R181, R188): of a floating format with its significand's low planes dropped, or an integer. -/
def planeNum (f u : Nat) (neg nan : Bool) (sig e : Nat) : Num :=
  let p := matPlanes f
  let k := sig / 2 ^ (p - u) * 2 ^ (p - u)
  match matElem f with
  | some m =>
    if nan then .nan
    else if m.hasInf && decide (e = 2 ^ m.eb - 1) then .inf neg
    else if k = 0 then .zero neg
    else .fin neg k (m.qmin + ((Nat.max e 1 : Nat) : Int) - 1)
  | none => numOf ((if neg then -1 else 1) * (k : Int)) 0 false

/-- A bit of a plane: row i's word at byte 2i (R181). -/
def planeBit (bs : List Byte) (off i l : Nat) : Bool := (bs.getD (off + 2 * i + l / 8) 0).getLsbD (l % 8)

/-- Row i of a plane block, its first u significand planes (R181, Table 8-4). -/
def blockRow (f u : Nat) (bs : List Byte) (i : Nat) : List Num :=
  let p := matPlanes f
  let fl := matFloat f
  let sigAt := if fl then 1024 else 512
  (upTo 0 16).map (fun l =>
    let sig := (upTo 0 u).foldl (fun n j => n + (if planeBit bs (sigAt + 512 * j) i l then 2 ^ (p - 1 - j) else 0)) 0
    let e := if fl then (bs.getD (1024 + 512 * p + 16 * i + l) 0).toNat else 0
    let x := planeNum f u (planeBit bs 0 i l) (fl && planeBit bs 512 i l) sig e
    if matMx f then mxValue (bs.getD (5120 + 512 * p + i) 0).toNat x else x)

/-- A granule's zero bit (R183). -/
def Core.zero (co : Core) (g : Nat) : Bool := mget false co.zbits g

/-- skip(g) of R189, for the block at an address. -/
def Core.skips (co : Core) (f u at_ : Nat) (bs : List Byte) : Bool :=
  let g := at_ / 512
  let first := if matFloat f then 2 else 1
  (upTo (g + first) u).all co.zero && (!matFloat f || co.zero (g + 1)) &&
    (!matMx f || ((bs.drop (5120 + 512 * matPlanes f)).take 256).all (fun b => b != 0xFF))

/-- An element of a matrix format: a floating value, or an integer. -/
def elemNum (f x : Nat) : Num :=
  match matElem f with
  | some m => decodeF m x
  | none => intNum (sgn (matWidth f) x)

/-- Element x truncated to its top u planes (R188). -/
def elemKept (f u x : Nat) : Num :=
  let p := planeParts f x
  planeNum f u p.1 p.2.1 p.2.2.1 p.2.2.2

/-- Rows k of B from row k0: each of 256 columns (R185). -/
def bRows (f : Nat) (co : Core) (b k0 n : Nat) : List (List Num) :=
  if matMx f then
    (upTo k0 n).map (fun k => (upTo 0 256).map (fun j =>
      let blk := co.bytes (b + (256 * (k / 32) + j) * mxSize f) (mxSize f)
      mxValue (blk.getD 0 0).toNat (elemNum f ((elemsOf (matWidth f) 32 (blk.drop 8)).getD (k % 32) 0))))
  else (upTo k0 n).map (fun k => (elemsOf (matWidth f) 256 (co.bytes (b + k * rowSize (matWidth f)) (rowSize (matWidth f)))).map (elemNum f))

/-- The bytes of B that group g reads. -/
def bBytes (f b n g : Nat) : List (Nat × Nat) :=
  if matMx f then [(b + 256 * (n * g / 32) * mxSize f, 256 * mxSize f)] else [(b + n * g * rowSize (matWidth f), n * rowSize (matWidth f))]

/-- A sparse unit of a row: its address, and how many k it holds (R191). -/
def sparseAt (f : MtxF) (i g : Nat) : Nat × Nat :=
  let kg := f.kg.toNat
  if f.sp = 1 then (f.a.toNat + (i * (kg / 2) + g / 2) * (8 + 4 * matWidth f.fa.toNat), 8 + 4 * matWidth f.fa.toNat)
  else (f.a.toNat + (i * (kg / 4) + g / 4) * 128, 128)

/-- The mask of a sparse unit. -/
def sparseMask (f : MtxF) (bs : List Byte) : Nat := if f.sp = 1 then leNat ((bs.drop 4).take 4) else leNat (bs.take 8)

/-- The 16 mask bits of group g. -/
def sparseBits (f : MtxF) (bs : List Byte) (g : Nat) : Nat := fld (sparseMask f bs) (if f.sp = 1 then 16 * (g % 2) else 16 * (g % 4)) 16

/-- The 16 elements of group g in a sparse unit, kept to u planes (R126, R127, R188). -/
def sparseRow (f : MtxF) (u : Nat) (bs : List Byte) (g : Nat) : List Num :=
  let fa := f.fa.toNat
  let mask := sparseMask f bs
  let n := if f.sp = 1 then 32 else 64
  let slots := elemsOf (matWidth fa) n (bs.drop 8)
  let k0 := if f.sp = 1 then 16 * (g % 2) else 16 * (g % 4)
  (upTo k0 16).map (fun k =>
    let x := if bit mask k then elemKept fa u (slots.getD (popcount k mask) 0) else elemKept fa u 0
    if matMx fa then (if bit mask k then mxValue (bs.getD 0 0).toNat x else .zero false) else if bit mask k then x else .zero false)

/-- A sparse unit is malformed (R126, R127). -/
def sparseBad (f : MtxF) (bs : List Byte) : Bool :=
  let w := matWidth f.fa.toNat
  let mask := sparseMask f bs
  if f.sp = 1 then
    let count := (bs.getD 1 0).toNat
    let slots := elemsOf w 32 (bs.drop 8)
    decide (count ≠ popcount 32 mask) || decide (leNat ((bs.drop 2).take 2) ≠ 0) || (!matMx f.fa.toNat && decide (bs.headD 0 ≠ 0)) ||
      (slots.drop count).any (fun x => x != 0)
  else
    let n := popcount 64 mask * w
    decide (960 < n) || decide (leNat (bs.drop 8) / 2 ^ n ≠ 0)

/-! ## What a group does to a tile (R188, R190, R192, R200) -/

/-- The elements of a tile in order. -/
def denseAux : Nat → Nat → Map Half → List Half
  | _, 0, _ => []
  | k, n + 1, [] => 0 :: denseAux (k + 1) n []
  | k, n + 1, (a, v) :: r => if a = k then v :: denseAux (k + 1) n r else 0 :: denseAux (k + 1) n ((a, v) :: r)

/-- The elements of a tile in order, row after row. -/
def dense (m : Map Half) : List Half := denseAux 0 65536 m

/-- A tile of elements in order. -/
def sparse (l : List Half) : Map Half := (((upTo 0 65536).zip l).filter (fun p => p.2 != 0))

/-- The value of an integer operand. -/
def Num.toI (x : Num) : Int := x.scaled 0

/-- One element's group: floating or integer (R188). -/
def accElem (fl isat : Bool) (t : Half) (xs ys : List Num) : Half × Flags :=
  if fl then
    let ps := (xs.zip ys).map (fun p => prod p.1 p.2)
    let g := groupSum (ps.map (fun p => p.1))
    let a := accAdd t g.1
    (a.1, a.2 ||| g.2 ||| ps.foldl (fun f p => f ||| nvIf p.2) 0)
  else (intGroup t ((xs.zip ys).map (fun p => p.1.toI * p.2.toI)) isat, 0)

/-- Complex pairs (R190): the products of the real and of the imaginary parts. -/
def cpxProds (xs : List Num) (re im : List Num) : (List (Num × Bool)) × (List (Num × Bool)) :=
  let ps := (pieces 2 xs).zip (re.zip im)
  (ps.flatMap (fun p => [prod (p.1.getD 0 .nan) p.2.1, (let q := prod (p.1.getD 1 .nan) p.2.2; (q.1.neg, q.2))]),
   ps.flatMap (fun p => [prod (p.1.getD 0 .nan) p.2.2, prod (p.1.getD 1 .nan) p.2.1]))

/-- A row of a tile after a group of `mmac`: pairs of columns. -/
def cpxRow (xs : List Num) : List Half → List (List Num) → List Half × Flags
  | t0 :: t1 :: tr, c0 :: c1 :: cr =>
    let ps := cpxProds xs c0 c1
    let s := cgroupSum (ps.1.map (fun p => p.1)) (ps.2.map (fun p => p.1))
    let a := accAdd t0 s.1.1
    let b := accAdd t1 s.2.1
    let r := cpxRow xs tr cr
    (a.1 :: b.1 :: r.1,
     a.2 ||| b.2 ||| s.1.2 ||| s.2.2 ||| (ps.1 ++ ps.2).foldl (fun f p => f ||| nvIf p.2) 0 ||| r.2)
  | _, _ => ([], 0)

/-- A tile after a group: rows of A, columns of B. -/
def groupTile (cpx fl isat : Bool) (t : Map Half) (rows : List (List Num)) (cols : List (List Num)) : Map Half × Flags :=
  let rs := ((pieces 256 (dense t)).zip rows).map (fun p =>
    if cpx then cpxRow p.2 p.1 cols
    else
      let es := (p.1.zip cols).map (fun q => accElem fl isat q.1 p.2 q.2)
      (es.map (fun e => e.1), es.foldl (fun f e => f ||| e.2) 0))
  (sparse (rs.flatMap (fun r => r.1)), rs.foldl (fun f r => f ||| r.2) 0)

/-- Columns from rows. -/
def columns (rows : List (List Num)) : List (List Num) := (upTo 0 256).map (fun j => rows.map (fun r => r.getD j .nan))

/-! ## Tiles (R170, R172, R371) -/

/-- A tile of an array. -/
def ArrSt.tile (a : ArrSt) (n : Nat) : Tile := mget Tile.init a.tiles n

/-- A tile changed. -/
def State.modTile (s : State) (i n : Nat) (f : Tile → Tile) : State :=
  s.modArr i (fun a => { a with tiles := mset a.tiles n (f (a.tile n)) })

/-- The stale check (R172). -/
def Tile.stale (t : Tile) (ts : Nat) : Bool := !t.born || decide (retention < ts - t.stamp)

/-- The command reads its tile (R172). -/
def ArrCmd.reads (x : ArrCmd) : Bool := if x.kind ≤ 3 then !mtxZ x.f || (mtxFd x.f) else x.kind == 6

/-- The command writes every element (R172). -/
def ArrCmd.whole (x : ArrCmd) : Bool := if x.kind ≤ 3 then mtxZ x.f || mtxFd x.f || decide (1 ≤ x.f.kg.toNat) else decide (x.kind ≤ 5)

/-- The saved mask of a context for an array (Table 18-5), and its area of a tile. -/
def State.savedMask (s : State) (ctx i : Nat) : Nat :=
  match s.ctxDesc ctx with
  | some a => s.homeNat (a + 0x50 + 2 * i) 2
  | none => 0

/-- A bit of a saved mask set or cleared. -/
def State.setSaved (s : State) (ctx i n : Nat) (b : Bool) : State :=
  match s.ctxDesc ctx with
  | some a =>
    let m := s.savedMask ctx i
    let m2 := if b then m ||| 2 ^ n else m - (if bit m n then 2 ^ n else 0)
    s.homeWrite (a + 0x50 + 2 * i) (leBytes 2 m2)
  | none => s

/-- Where a tile is saved (R371). -/
def State.tileArea (s : State) (ctx i n : Nat) : Nat :=
  match s.ctxDesc ctx with
  | some a => s.homeNat (a + 0x28) 8 + i * 0x400000 + n * 0x40000
  | none => 0

/-- A save (R371): an expired tile is not copied. DEDUCED (log 33). -/
def State.saveTile (s : State) (i n : Nat) : State :=
  let t := (s.arr i).tile n
  let s1 := s.modTile i n (fun t => { t with dirty := false })
  if (s.ctxDesc t.owner).isNone then s
  else if t.stale s.tstep then s1.setSaved t.owner i n false
  else ((s1.homeWrite (s.tileArea t.owner i n) ((dense t.data).flatMap (fun h => leBytes 4 h.toNat))).setSaved t.owner i n true)

/-- A restore (R371). -/
def State.restoreTile (s : State) (ctx i n : Nat) : State :=
  let es := (upTo 0 65536).map (fun k => BitVec.ofNat 32 (s.homeNat (s.tileArea ctx i n + 4 * k) 4))
  s.modTile i n (fun t => { t with data := sparse es, owner := ctx, inuse := true, dirty := false, born := true, stamp := s.tstep })

/-- The head command of an array, which has not begun, needs a save of its tile first (R371). -/
def State.needsSave (s : State) (i : Nat) (x : ArrCmd) : Bool :=
  let t := (s.arr i).tile x.f.tile.toNat
  decide (x.kind ≠ 6) && t.inuse && t.dirty && decide (t.owner ≠ x.ctx)

/-- It needs a restore first (R371). -/
def State.needsRestore (s : State) (i : Nat) (x : ArrCmd) : Bool :=
  let n := x.f.tile.toNat
  let t := (s.arr i).tile n
  x.reads && bit (s.savedMask x.ctx i) n && (decide (t.owner ≠ x.ctx) || t.stale s.tstep)

/-- The cycle that a command's cycles are compared with (R177): a schedule cycle of its core, or %cyc once the core has switched out. -/
def State.arrNow (s : State) (x : ArrCmd) : Nat := if x.det then s.cyc else (s.core x.core).im.sched

/-- A command's cycles run on (R96, R177). -/
def State.arrRuns (s : State) (x : ArrCmd) : Bool := x.det || (s.core x.core).counting s.cyc

/-- The head command of an array may go on to its begin, or to the next step towards it, on this cycle (R177, R371). -/
def State.headReady (s : State) (x : ArrCmd) : Bool :=
  x.b.isNone && s.arrRuns x && decide (x.issue + 2 ≤ s.arrNow x) && decide (x.notBefore ≤ s.arrNow x)

/-- The head command of an array changed. -/
def State.setHead (s : State) (i : Nat) (x : ArrCmd) : State :=
  s.modArr i (fun a =>
    { a with queue := match a.queue with
        | _ :: r => x :: r
        | [] => [] })

/-- A transfer of a tile for the head command puts off its begin by 136 cycles (R371): the state it starts in, and how the command stands. -/
def State.transfer (s : State) (i n : Nat) (need : ArrCmd → Bool) (f : ArrCmd → State × ArrCmd) : Option State :=
  match (s.arr i).queue with
  | x :: _ =>
    if x.f.tile.toNat = n ∧ x.timed = false ∧ s.headReady x = true ∧ need x = true then some ((f x).1.setHead i (f x).2) else none
  | [] => none

/-- A command put off by the 136 cycles of a transfer. -/
def State.putOff (s : State) (x : ArrCmd) (xfer : Bool) : ArrCmd := { x with notBefore := s.arrNow x + 136, xfer := xfer }

/-- TILE_SAVE (R371). -/
def execTileSave (i n : Nat) (s : State) : Host.Outcome State Fault Refusal :=
  if 32 ≤ i ∨ 16 ≤ n then .fault .noSuchUnit
  else event "TILE_SAVE" (s.transfer i n (fun x => s.needsSave i x) (fun x => (s.saveTile i n, s.putOff x false)))

/-- TILE_RESTORE (R371): after the save of another owner's tile, if there is one, the copy starts; at its end the tile is restored. -/
def execTileRestore (i n : Nat) (s : State) : Host.Outcome State Fault Refusal :=
  if 32 ≤ i ∨ 16 ≤ n then .fault .noSuchUnit
  else event "TILE_RESTORE" (s.transfer i n (fun x => s.needsRestore i x && !s.needsSave i x) (fun x =>
    if x.xfer then (s.restoreTile x.ctx i n, { x with xfer := false }) else (s, s.putOff x true)))

/-- SWEEP_TILE_SAVE (R373): an in-use, dirty tile near its expiry, whose owner runs on no core of the quad. -/
def execSweepTileSave (i n : Nat) (s : State) : Host.Outcome State Fault Refusal :=
  if 32 ≤ i ∨ 16 ≤ n then .fault .noSuchUnit
  else
    event "SWEEP_TILE_SAVE"
      (let t := (s.arr i).tile n
       let h := (s.core (4 * i)).swthr
       if t.inuse && t.dirty && !t.stale s.tstep && (s.ctxDesc t.owner).isSome && decide (retention ≤ s.tstep - t.stamp + h) &&
           (upTo (4 * i) 4).all (fun c => !((s.core c).bound && decide ((s.core c).ctx = t.owner))) then some (s.saveTile i n)
       else none)

/-- SWEEP_FROZEN_TILE_RENEW (R256): an in-use tile of a context that the stall wire freezes is rewritten in 128 cycles, at whose end it is stamped
unless it has expired. -/
def execSweepFrozenTileRenew (i n : Nat) (s : State) : Host.Outcome State Fault Refusal :=
  if 32 ≤ i ∨ 16 ≤ n then .fault .noSuchUnit
  else
    event "SWEEP_FROZEN_TILE_RENEW"
      (let t := (s.arr i).tile n
       match t.renewAt with
       | some r =>
         if r ≤ s.cyc then
           some (s.modTile i n (fun t => { t with renewAt := none, stamp := if t.inuse && !t.stale s.tstep then s.tstep else t.stamp }))
         else none
       | none =>
         if t.inuse && !t.stale s.tstep &&
             s.wires.any (fun w => decide (w.ctx = t.owner) && w.holds s.cyc) &&
             (upTo (4 * i) 4).any (fun c => decide (retention ≤ s.tstep - t.stamp + (s.core c).swthr)) then
           some (s.modTile i n (fun t => { t with renewAt := some (s.cyc + 128) }))
         else none)

/-! ## Begin (R178, R203) -/

/-- A fault of an array's command, raised by C of its core: it, and every later command of that core in the array, is discarded (R203). -/
def State.arrFault (s : State) (i : Nat) (x : ArrCmd) (cause addr : Nat) (st : Half) : State :=
  (s.modArr i (fun a => { a with queue := a.queue.filter (fun y => !decide (y.core = x.core)) })).unitFault x.core x.ctx .c x.seg x.cmdIdx
    { cause := cause, status := st, addr := BitVec.ofNat 64 addr, cls := 0, engine := 1, uidx := i % 16 }

/-- The command is a tile-start marker of its tile (R349). -/
def ArrCmd.marker (x : ArrCmd) : Bool := x.kind == 4 || x.kind == 5 || (decide (x.kind ≤ 3) && mtxZ x.f)

/-- The commands of a window that write a tile, from its latest marker on. -/
def replayed (n : Nat) (w : List ArrCmd) : Option (List ArrCmd) :=
  let ws := w.filter (fun x => decide (x.f.tile.toNat = n) && decide (x.kind ≠ 6))
  let after := ws.foldl (fun (acc : Option (List ArrCmd)) x =>
    if x.marker then some [x] else acc.map (fun l => l ++ [x])) none
  after

/-- A replay that cannot serve (R350): the context whose commands it performs again is to be removed, with cause 0x82. DEDUCED (log 63). -/
def State.replayFails (s : State) (i n ctx reason : Nat) : State :=
  let x : Removal := { step := 0, deadline := 0, cause := 0x82, engine := 1, unit := i % 16, status := errorStatus 1 reason n }
  { s with removals := mset s.removals ctx x }

/-- Bytes of some ranges hold an uncorrectable error. -/
def Core.anyBad (co : Core) (l : List (Nat × Nat)) : Bool := l.any (fun r => (firstBad co.bad r.1 r.2).isSome)

/-- The retained commands that a replay of tile n performs again before the command in progress on it, if there is one (R349). -/
def ArrSt.chain (a : ArrSt) (n : Nat) (x : Option ArrCmd) : Option (List ArrCmd) :=
  match x with
  | some x => if x.marker then some [] else replayed n a.window
  | none => replayed n a.window

/-- A command consumes an uncorrectable error of a byte of scratchpad that it reads (R349, R350). The replay ends with the command itself, which reads the
byte afresh and consumes the error again, so the replay cannot serve: the tile's contents are discarded, and the command with the core's later ones. DEDUCED
(log 63). -/
def State.consumes (s : State) (i : Nat) (x : ArrCmd) : State :=
  let n := x.f.tile.toNat
  let reason := match (s.arr i).chain n (some x) with
    | none => 1
    | some l => if (x :: l).any (fun y => y.touched) then 2 else 3
  ((s.modTile i n (fun t => { t with data := [], born := false })).modArr i
    (fun a => { a with queue := a.queue.filter (fun y => !decide (y.core = x.core)) })).replayFails i n x.ctx reason

/-- The first k-group of a command with a malformed MX block, sparse unit or weight record (R192, R199, R201). -/
def Core.malformedGroup (co : Core) (x : ArrCmd) : Option Nat :=
  let f := x.f
  let kg := f.kg.toNat
  let mxBad (a : Nat) : Bool := (co.bytes (a + 1) 7).any (fun b => b != 0)
  let k := if x.kind = 1 then 8 else 16
  (upTo 0 kg).find? (fun g =>
    (decide (x.kind < 3) && matMx f.fb.toNat &&
      (upTo 0 256).any (fun j => mxBad (f.b.toNat + (256 * (k * g / 32) + j) * mxSize f.fb.toNat))) ||
    (decide (x.kind = 2) && (upTo 0 256).any (fun i => let u := sparseAt f i g; sparseBad f (co.bytes u.1 u.2))) ||
    (decide (x.kind = 3) && (co.bytes (f.b.toNat + 16) 16).any (fun b => b != 0)))

/-- The local bytes a command reads or writes as a whole are checked at b: of `ald` its source, of `aret` its destination (Table 10-3), and of an
at-bank command its weight record (R199). -/
def Core.arrCheck (co : Core) (x : ArrCmd) (ts : Nat) : Option (Nat × Nat × Nat) :=
  if x.kind = 5 then co.checkSlabs x.ctx ts x.f.a.toNat (256 * rowSize (aldWidth x.f.var.toNat)) true
  else if x.kind = 6 then co.checkSlabs x.ctx ts x.f.a.toNat (256 * rowSize (aretWidth x.f.var.toNat)) false
  else if x.kind = 3 ∧ x.f.kg ≠ 0 then co.checkSlabs x.ctx ts x.f.b.toNat 32 true
  else none

/-- The tile after Z and F (R188). -/
def startTile (f : MtxF) (gam : Half) (t : Map Half) : Map Half × Flags :=
  let a := if mtxZ f then [] else t
  if mtxFd f then
    let es := (dense a).map (fun h => fade h gam)
    (sparse (es.map (fun e => e.1)), es.foldl (fun f e => f ||| e.2) 0)
  else (a, 0)

/-- The checks of R203 at b that come after those of the tile, in their order: cause, address and status; the record of an at-bank command is read before it is
judged (R215). -/
def Core.beginFault (co : Core) (x : ArrCmd) (ts : Nat) : Option (Nat × Nat × Half) :=
  let local_ : Option (Nat × Nat × Half) := (co.arrCheck x ts).map (fun f => (f.1, f.2.2, memStatus 0 0 0 0 f.2.1))
  let bad : Option (Nat × Nat × Half) := (co.malformedGroup x).map (fun g => (0x60, 0, arrStatus 0 x.f.tile.toNat g))
  if x.kind = 3 then (match local_ with
    | some f => some f
    | none => bad)
  else (match bad with
    | some f => some f
    | none => local_)

/-- The agent of an array's at-bank accesses (Table 12-6, unit 3). -/
def arrAgent (i : Nat) (x : ArrCmd) : Agent :=
  { id := 512 + i, tlb := 512 + i, ctx := x.ctx, core := x.core, wire := true, unit := 3, uidx := i % 16, engine := 1, wait := x.wait }

/-- A piece of work on the column scales of an at-bank command, whose failure names the first faulting lane of 4 bytes (R252, Table 10-8). -/
def EngR.lanes {α : Type} (sv : Word) (x : EngR α) : EngR α :=
  match x with
  | .fail c _ a s => .fail c ((a - sv).toNat / 4) a s
  | .stand (.stands d r _) s => .stand (.stands d r (((mfind (s.die d).fbuf r).map (fun f => (f.va - sv).toNat / 4)).getD 0)) s
  | y => y

/-- The operand of an at-bank command (R323): the places of its weights and scales, and both; or a rejection: reason, physical and virtual address. DEDUCED (log 33). -/
def State.bankOperand (s : State) (i : Nat) (x : ArrCmd) : EngR (Except (Nat × Nat × Nat) (List (Nat × Nat) × List Byte × List Byte)) :=
  let g := arrAgent i x
  let rec_ := (s.core x.core).bytes x.f.b.toNat 32
  let wv := leNat (rec_.take 8)
  let sv := leNat ((rec_.drop 8).take 8)
  let rows := 16 * x.f.kg.toNat
  let n := rows * rowSize (matWidth x.f.fb.toNat)
  let ext := 256 * 16 * x.f.kg.toNat
  let va := BitVec.ofNat 64 wv
  if x.f.kg = 0 then .ok (.ok ([], [], [])) s
  else
    match s.engineAccess g.core g.id g.ctx g.unit g.uidx 0 false g.wait va 1 with
    | .bad cause v => .fail cause 0 v s
    | .stand w s' => .stand w s'
    | .ok _ s' =>
      match s'.stream g.id g.ctx (s'.rootOf g.ctx) va 0 false with
      | .error _ => .fail 0x45 0 va s'
      | .ok (e, s2) =>
        match s2.rejectReason e wv ext with
        | some r => .ok (.error (r, e.pa va, wv)) s2
        | none =>
         if s2.stripesBad x.core (e.pa va) rows (rowSize (matWidth x.f.fb.toNat)) ext then .fail 0x83 0 va (s2.engineError x.core (e.pa va) va x.ctx 0x83 1)
         else
          ((s2.reach g 0 (BitVec.ofNat 64 sv) 16).andThen (fun ps s3 =>
            (s3.takeParts g (BitVec.ofNat 64 sv) ps).andThen (fun sc s3 =>
              .ok (.ok ((e.pa va, Nat.max n ext) :: ps, (s3.homeBytes (e.pa va) (Nat.max n ext)), sc)) s3))).lanes (BitVec.ofNat 64 sv)

/-- A command that passes its checks begins: Z and F at once, its first group 8 cycles later (R178). -/
def State.beginArr (s : State) (i : Nat) (x : ArrCmd) : State :=
  let b := s.arrNow x
  let n := x.f.tile.toNat
  let r := startTile x.f x.gam ((s.arr i).tile n).data
  let s1 := if x.kind ≤ 3 then s.modTile i n (fun t => { t with data := r.1 }) else s
  s1.setHead i { x with b := some b, rAt := b + 8, g := 0, flags := if x.kind ≤ 3 then r.2 else 0, wait := .go,
                        e := if x.kind = 4 then some (b + 8) else if x.kind ≤ 2 ∧ x.f.kg = 0 then some (b + 8) else none }

/-- The checks of R203 at b, in their order, and the begin. -/
def State.tryBegin (s : State) (i : Nat) (x : ArrCmd) : Option State :=
  let n := x.f.tile.toNat
  let t := (s.arr i).tile n
  let co := s.core x.core
  if t.held ∧ t.holder ≠ x.core % 4 then some (s.arrFault i x 0x62 0 (arrStatus t.holder n 0))
  else if x.reads ∧ t.stale s.tstep = true then some (s.arrFault i x 0x42 0 (arrStatus 0 n 0))
  else
    match co.beginFault x s.tstep with
    | some (cause, addr, st) => some (s.arrFault i x cause addr st)
    | none =>
        if x.kind = 3 ∧ x.f.kg ≠ 0 ∧ co.anyBad [(x.f.b.toNat, 32)] = true then some (s.consumes i x)
        else if x.kind = 3 then
          match x.wait.resume s (s.bankOperand i x) with
          | none => none
          | some (.ok (.ok o) s1) =>
            let s2 := s1.forget (512 + i)
            match o.1 with
            | [] => some (s2.beginArr i { x with bankAt := s2.cyc + 8 })
            | (pa, _) :: _ =>
              if s2.unitFull (nearUnit pa) then none
              else
                let u := s2.unitTakeUpTo (nearUnit pa) (32 + 8 * (16 * x.f.kg.toNat))
                some (u.2.beginArr i { x with wrec := o.1, wts := o.2.1, scl := o.2.2, bankAt := u.1 + 8 })
          | some (.ok (.error (r, pa, va)) s1) =>
            some ((s1.logReject (dieOf x.core) va pa x.ctx r 1 x.core 1).arrFault i x 0x48 va 0x04000000)
          | some (.wait s1) => some s1
          | some (.stand w s1) => some (s1.setHead i { x with wait := w })
          | some (.fail cause run va s1) => some (s1.arrFault i { x with wait := .go } cause va.toNat (memStatus 0 0 1 run 0))
        else some (s.beginArr i x)

/-! ## Groups (R178, R188 to R195, R200) -/

/-- A group whose operands fail R215 (Table 10-3): the tile keeps what was done before. -/
def State.groupFault (s : State) (i : Nat) (x : ArrCmd) (cause slab addr : Nat) : State :=
  let ts := s.tstep
  let all := mtxZ x.f || mtxFd x.f || decide (1 ≤ x.g)
  let s1 := s.modTile i x.f.tile.toNat (fun t =>
    { t with inuse := true, dirty := true, owner := x.ctx, born := t.born || all, stamp := if all then ts else t.stamp })
  (if all then s1.setSaved x.ctx i x.f.tile.toNat false else s1).arrFault i x cause addr (memStatus 0 0 0 0 slab)

/-- The bytes of a plane block that a group reads, as offset and length (R188, Table 8-4): the planes beyond u and the pad are not read. -/
def blockReads (fa u : Nat) : List (Nat × Nat) :=
  let p := matPlanes fa
  if matFloat fa then [(0, 1024 + 512 * u), (1024 + 512 * p, 4096)] ++ (if matMx fa then [(5120 + 512 * p, 256)] else [])
  else [(0, 512 + 512 * u)]

/-- The local bytes of A that group g reads. -/
def ArrCmd.aBytes (x : ArrCmd) : List (Nat × Nat) :=
  let f := x.f
  if x.kind = 2 then (upTo 0 256).map (fun i => sparseAt f i x.g)
  else (blockReads f.fa.toNat (mtxU f)).map (fun r => (f.a.toNat + x.g * blockSize f.fa.toNat + r.1, r.2))

/-- The local bytes that the next group reads. -/
def ArrCmd.groupBytes (x : ArrCmd) : List (Nat × Nat) :=
  let f := x.f
  x.aBytes ++ (if x.kind = 3 then [] else bBytes f.fb.toNat f.b.toNat (if x.kind = 1 then 8 else 16) x.g)

/-- The rows of A of the next group, or that it is skipped. -/
def Core.groupRows (co : Core) (x : ArrCmd) : Option (List (List Num)) :=
  let f := x.f
  let fa := f.fa.toNat
  if x.kind = 2 then
    let us := (upTo 0 256).map (fun i => let u := sparseAt f i x.g; co.bytes u.1 u.2)
    if us.all (fun bs => sparseBits f bs x.g == 0) then none else some (us.map (fun bs => sparseRow f (mtxU f) bs x.g))
  else
    let at_ := f.a.toNat + x.g * blockSize fa
    let bs := co.bytes at_ (blockSize fa)
    if co.skips fa (mtxU f) at_ bs then none else some ((upTo 0 256).map (blockRow fa (mtxU f) bs))

/-- The columns of B of the next group. -/
def Core.groupCols (co : Core) (x : ArrCmd) : List (List Num) :=
  let f := x.f
  let fb := f.fb.toNat
  if x.kind = 3 then
    columns ((upTo (16 * x.g) 16).map (fun k => (elemsOf (matWidth fb) 256 ((x.wts.drop (256 * k)).take 256)).map (elemNum fb)))
  else
    let k := if x.kind = 1 then 8 else 16
    columns (bRows fb co f.b.toNat (k * x.g) k)

/-- The next group of an mma-family command (R188): it reads its operands on this cycle. -/
def State.groupStep (s : State) (i : Nat) (x : ArrCmd) : State :=
  let f := x.f
  let co := s.core x.core
  match firstSome (fun r => co.checkSlabs x.ctx s.tstep r.1 r.2 true) x.groupBytes with
  | some (cause, slab, addr) => s.groupFault i x cause slab addr
  | none =>
   if co.anyBad x.groupBytes then s.consumes i x else
    let u := (mtxU f)
    let n := f.tile.toNat
    let t := (s.arr i).tile n
    let r := co.groupRows x
    let cost := if r.isNone ∧ x.timed = false then 1 else u
    let last := x.g + 1 = f.kg.toNat
    let next (y : ArrCmd) : ArrCmd :=
      { y with g := x.g + 1, rAt := x.rAt + cost, e := if last ∧ x.kind ≠ 3 then some (x.rAt + cost) else none }
    match r with
    | none => s.setHead i (next x)
    | some rows =>
      let o := groupTile (x.kind == 1) (matFloat f.fa.toNat) (f.isat == 1) (if x.kind = 3 then x.part else t.data) rows (co.groupCols x)
      if x.kind = 3 then s.setHead i (next { x with part := o.1 })
      else (s.modTile i n (fun t => { t with data := o.1 })).setHead i (next { x with flags := x.flags ||| o.2 })

/-- The value `ald` makes of an element (R194). -/
def aldElem (v x : Nat) : Half :=
  if v = 1 then BitVec.ofNat 32 (x * 2 ^ 16)
  else if v = 2 then
    match decodeF fp16 x with
    | .nan => BitVec.ofNat 32 (x / 2 ^ 15 * 2 ^ 31 + 0x7F800000 + x % 2 ^ 10 * 2 ^ 13)
    | y => BitVec.ofNat 32 (encode fp32 0 y).1
  else if v = 3 then BitVec.ofNat 32 (wrapN 32 (sgn 8 x))
  else BitVec.ofNat 32 x

/-- The value `aret` makes of an element (R195). -/
def aretElem (v : Nat) (h : Half) : Nat × Flags :=
  let x := decodeF fp32 h.toNat
  match v % 8 with
  | 0 => (h.toNat, 0)
  | 1 => encode bf16 0 x
  | 2 => encode fp16 0 x
  | 3 => encode e4m3 0 x
  | 4 => encode e5m2 0 x
  | _ => (wrapN 8 (satInt (sgn 32 h.toNat) 8), 0)

/-- Two rows of `ald` or `aret` (R178). -/
def State.rowStep (s : State) (i : Nat) (x : ArrCmd) : State :=
  let f := x.f
  let n := f.tile.toNat
  let t := (s.arr i).tile n
  let y : ArrCmd := { x with g := x.g + 1, rAt := x.rAt + 1, e := if x.g = 127 then some (x.rAt + 1) else none }
  if x.kind = 5 then
    let w := aldWidth f.var.toNat
    let bs := (s.core x.core).bytes (f.a.toNat + 2 * x.g * rowSize w) (2 * rowSize w)
    if (s.core x.core).anyBad [(f.a.toNat + 2 * x.g * rowSize w, 2 * rowSize w)] then s.consumes i x else
    let es := (elemsOf w 512 bs).map (aldElem f.var.toNat)
    let old := dense t.data
    (s.modTile i n (fun t => { t with data := sparse (old.take (512 * x.g) ++ es ++ old.drop (512 * (x.g + 1))) })).setHead i y
  else
    let w := aretWidth f.var.toNat
    let rs := (((dense t.data).drop (512 * x.g)).take 512).map (aretElem f.var.toNat)
    let la := f.a.toNat + 2 * x.g * rowSize w
    let len := 2 * rowSize w
    let whole := (wholeSlabs f.a.toNat (256 * rowSize w)).filter (fun k => decide (la < (k + 1) * 2048) && decide ((k + 1) * 2048 ≤ la + len))
    (s.posts x.core (writePosts la (rs.flatMap (fun r => leBytes (w / 8) r.1)) ++ stampPosts whole s.tstep)).setHead i
      { y with flags := x.flags ||| rs.foldl (fun f r => f ||| r.2) 0 }

/-- The head command of an array takes its step of this cycle. -/
def State.arrStep (s : State) (i : Nat) : Option State :=
  match (s.arr i).queue with
  | [] => none
  | x :: _ =>
    match x.b with
    | none =>
      if s.headReady x && (x.timed || (!s.needsSave i x && !s.needsRestore i x)) then s.tryBegin i x else none
    | some _ =>
      if x.e.isNone && s.arrRuns x && decide (x.rAt ≤ s.arrNow x) then
        if x.kind ≤ 3 then (if x.g < x.f.kg.toNat then some (s.groupStep i x) else none)
        else some (s.rowStep i x)
      else none

/-- ARRAY_COMMAND_BEGIN (R177, R178): the array's head command begins, or takes its next group or rows. -/
def execArrayCommandBegin (i : Nat) (s : State) : Host.Outcome State Fault Refusal :=
  if 32 ≤ i then .fault .noSuchUnit else event "ARRAY_COMMAND_BEGIN" (s.arrStep i)

/-- The tile after the product of the at-bank sums and their scales (R200). -/
def bankTile (t part : Map Half) (scales : List Byte) : Map Half × Flags :=
  let sc := (elemsOf 16 8 scales).map (decodeF bf16)
  let es := (((dense t).zip (dense part)).zip (upTo 0 65536)).map (fun p =>
    let q := prod (intNum (sgn 32 p.1.2.toNat)) (sc.getD (p.2 % 256 / 32) .nan)
    let a := accAdd p.1.1 q.1
    (a.1, a.2 ||| nvIf q.2))
  (sparse (es.map (fun e => e.1)), es.foldl (fun f e => f ||| e.2) 0)

/-- AT_BANK_COMMAND (R200, R323): the last partial sums of an at-bank command arrive. -/
def execAtBankCommand (i : Nat) (s : State) : Host.Outcome State Fault Refusal :=
  if 32 ≤ i then .fault .noSuchUnit
  else
    event "AT_BANK_COMMAND"
      (match (s.arr i).queue with
       | x :: _ =>
         if x.kind = 3 ∧ x.b.isSome ∧ x.e = none ∧ x.f.kg.toNat ≤ x.g ∧ x.bankAt ≤ s.cyc ∧ x.rAt ≤ s.arrNow x ∧ s.arrRuns x = true then
           let n := x.f.tile.toNat
           let o := if x.f.kg = 0 then (((s.arr i).tile n).data, 0) else bankTile ((s.arr i).tile n).data x.part x.scl
           some ((s.modTile i n (fun t => { t with data := o.1 })).setHead i { x with flags := x.flags ||| o.2, e := some (s.arrNow x) })
         else none
       | [] => none)

/-! ## End (R170, R172, R180, R197) -/

/-- The tile at the end of a command. -/
def ArrCmd.endTile (x : ArrCmd) (t : Tile) (ts : Nat) : Tile :=
  if x.kind = 6 then (if x.f.var.getLsbD 3 then { t with inuse := false, held := false } else t)
  else
    let w := x.whole
    let data := if x.kind = 4 then [] else t.data
    let t1 := if w then { t with data := data, inuse := true, dirty := true, owner := x.ctx, born := true, stamp := ts } else t
    if x.kind = 5 then t1
    else { t1 with held := x.kind ≤ 3 && (mtxH x.f), holder := if x.kind ≤ 3 ∧ (mtxH x.f) = true then x.core % 4 else t1.holder }

/-- Flags raised in FSTAT X of a context of a core, which runs it or not. -/
def State.raiseFlags (s : State) (c ctx : Nat) (f : Flags) : State :=
  if (s.core c).bound ∧ (s.core c).ctx = ctx then s.modVec c (fun v => v.raise false f)
  else
    match mfind s.images (imageKey ctx c) with
    | some im => { s with images := mset s.images (imageKey ctx c) { im with vec := im.vec.raise false f } }
    | none => s

/-- A command ends: its tile, its flags in FSTAT X, and its place in the window (R349); the segment goes on past it (R95). -/
def State.endArr (s : State) (i : Nat) (x : ArrCmd) (r : List ArrCmd) : State :=
  let n := x.f.tile.toNat
  let s1 := s.modTile i n (fun t => x.endTile t s.tstep)
  let s2 := if x.whole then s1.setSaved x.ctx i n false else s1
  let s3 := s2.modArr i (fun a =>
    let w := a.window ++ [{ x with part := [], wts := [] }]
    { a with queue := r, window := w.drop (w.length - 64), lastEnd := s.cyc })
  if x.det then s3.raiseFlags x.core x.ctx x.flags
  else
    s3.modIm x.core (fun im =>
      { im with vec := im.vec.raise false x.flags,
                seg := im.seg.map (fun g => { g with lastEnd := Nat.max g.lastEnd im.sched }) })

/-- ARRAY_COMMAND_END (R177, R180): a command ends. -/
def execArrayCommandEnd (i : Nat) (s : State) : Host.Outcome State Fault Refusal :=
  if 32 ≤ i then .fault .noSuchUnit
  else
    event "ARRAY_COMMAND_END"
      (match (s.arr i).queue with
       | x :: r =>
         match x.e with
         | some e =>
           if s.arrRuns x = true ∧ e ≤ s.arrNow x then some (s.endArr i x r) else none
         | none => none
       | [] => none)

/-! ## Replay (R349, R350) -/

/-- The local ranges a command reads. -/
def ArrCmd.ranges (x : ArrCmd) : List (Nat × Nat) := opReads x.op

/-- The local bytes that a command in progress has read. -/
def ArrCmd.readSoFar (x : ArrCmd) : List (Nat × Nat) :=
  if x.kind ≤ 3 then
    (if x.kind = 3 ∧ x.b.isSome then [(x.f.b.toNat, 32)] else []) ++ (upTo 0 x.g).flatMap (fun j => { x with g := j }.groupBytes)
  else if x.kind = 5 then [(x.f.a.toNat, 2 * x.g * rowSize (aldWidth x.f.var.toNat))]
  else []

/-- A write to bytes that a command of a window, or the one in progress, has read (R350). -/
def ArrSt.touch (a : ArrSt) (c la n : Nat) : ArrSt :=
  let f (l : ArrCmd → List (Nat × Nat)) (x : ArrCmd) : ArrCmd :=
    if x.core = c ∧ (l x).any (fun r => overlap la n r.1 r.2) = true then { x with touched := true } else x
  { a with window := a.window.map (f ArrCmd.ranges), queue := a.queue.map (f ArrCmd.readSoFar) }

/-- The cycles a replay of commands runs for (Table 8-3). -/
def replayCycles (l : List ArrCmd) : Nat :=
  l.foldl (fun t x => t + (if x.kind ≤ 3 then 8 + (mtxU x.f) * x.f.kg.toNat else if x.kind = 4 then 8 else 136)) 0

/-- What a command in progress has done up to now it does again, as the last of a replay (R349): the cycles since its begin. -/
def State.againCycles (s : State) (x : ArrCmd) : Nat := s.arrNow x - x.b.getD (s.arrNow x)

/-- A command goes on after a replay of n cycles, which run in %cyc: one whose cycles are of %cyc is put off by as many. -/
def ArrCmd.delay (x : ArrCmd) (n : Nat) : ArrCmd :=
  let y := { x with bankAt := x.bankAt + n }
  if x.det then { y with b := x.b.map (fun t => t + n), rAt := x.rAt + n, e := x.e.map (fun t => t + n) } else y

/-- A replay is logged with cause 0x81, where the management core finds it (R349). DEDUCED (log 63). -/
def State.replayLog (s : State) (i : Nat) : State :=
  s.postRecord (i / 16) { seg := 0, addr := 0, tstep := s.tstep, sched := 0, status := 0, cmd := 0, cause := 0x81, engine := 1, uidx := i % 16,
                          seq := 0, cls := 0, ctx := 0, die := i / 16, core := 0, npend := 0, more := 0, waits := false, pend := false }

/-- Bytes that a command reads, or of one in progress has read, hold an uncorrectable error: in its core's scratchpad, or at their homes. -/
def State.readsBad (s : State) (x : ArrCmd) (l : List (Nat × Nat)) : Bool :=
  (s.core x.core).anyBad l || x.wrec.any (fun r => s.homeBad x.core 0 r.1 r.2)

/-- The command in progress in an array. -/
def ArrSt.running (a : ArrSt) : Option ArrCmd := a.queue.head?.filter (fun x => x.b.isSome)

/-- Tile n of a context is replayed (R349, R350): the commands from its latest marker on are performed again, the one in progress on it last, which leaves the
tile as they had left it; the issuing cores stand while they run, and the command in progress is put off. `again`: one of them consumes an uncorrectable error
as it runs. -/
def State.replayTile (s : State) (i n ctx : Nat) (again : Bool) : State :=
  let a := s.arr i
  let x := a.running.filter (fun x => decide (x.f.tile.toNat = n))
  match a.chain n x with
  | none => s.replayFails i n ctx 1
  | some l =>
    if (l ++ x.toList).any (fun y => y.touched) then s.replayFails i n ctx 2
    else if again || l.any (fun y => s.readsBad y y.ranges) || x.any (fun y => s.readsBad y y.readSoFar) then s.replayFails i n ctx 3
    else
      let cores := nubBy (fun a b => a == b) ((a.running.toList ++ l).map (fun y => y.core))
      let t := replayCycles l + (x.map (fun x => s.againCycles x)).getD 0
      let s1 := match a.running with
        | some y => (s.replayLog i).setHead i (y.delay t)
        | none => s.replayLog i
      cores.foldl (fun s c => s.modStops c (fun st => { st with replays := Nat.max st.replays s.cyc + t })) s1

/-- ARRAY_REPLAY (R349, R350): the command in progress, which writes or retires the tile, consumes an uncorrectable error. -/
def execArrayReplay (i n : Nat) (again : Bool) (s : State) : Host.Outcome State Fault Refusal :=
  if 32 ≤ i ∨ 16 ≤ n then .fault .noSuchUnit
  else
    event "ARRAY_REPLAY"
      (match (s.arr i).running with
       | none => none
       | some x => if x.f.tile.toNat = n then some (s.replayTile i n x.ctx again) else none)

end Sys2Proof.Machine
end

