-- ==== Sys2Proof/Machine/Launch.lean ====
section
/-! DEFINITION. Launches: descriptors, loop tables, units, completion and triggers (R108 to R114, R244, R363, R393). -/
namespace Sys2Proof.Machine

/-! ## Descriptors (R108 to R110) -/

/-- A launch descriptor (Table 5-7). -/
structure LDesc where
  kaddr : Word
  ltab : Word
  nseg : Nat
  csem : Nat
  tren : Bool
  tsem : Nat
  deriving DecidableEq, Repr

/-- The descriptor that 32 bytes hold; none when it fails a check of its own (R110). -/
def launchDesc (bs : List Byte) : Option LDesc :=
  let d := leNat bs
  let x : LDesc :=
    { kaddr := BitVec.ofNat 64 d, ltab := BitVec.ofNat 64 (fld d 64 64), nseg := fld d 128 16, csem := fld d 144 6, tren := bit d 150,
      tsem := fld d 151 6 }
  if d / 2 ^ 157 = 0 ∧ x.kaddr.toNat % 32 = 0 ∧ x.ltab.toNat % 8 = 0 ∧ x.nseg ≠ 0 then some x else none

/-- The level count of a loop table header (Table 5-5), if it is legal. -/
def loopLevels (bs : List Byte) : Option Nat :=
  let h := leNat (bs.take 8)
  if 1 ≤ h ∧ h ≤ 8 then some h else none

/-- The levels of a loop table (Table 5-6), kind and count; none when a check fails. -/
def loopTable (bs : List Byte) : Option (List (Nat × Nat)) :=
  match loopLevels bs with
  | none => none
  | some n =>
    let es := (pieces 8 (bs.drop 8)).map leNat
    if es.length = n ∧ es.all (fun e => decide (e / 2 ^ 34 = 0)) then some (es.map (fun e => (fld e 32 2, fld e 0 32))) else none

/-- The counts of the levels of a kind. -/
def countsOf (k : Nat) (ls : List (Nat × Nat)) : List Nat := (ls.filter (fun l => decide (l.1 = k))).map (fun l => l.2)

/-- The product of counts. -/
def product (l : List Nat) : Nat := l.foldl (fun a b => a * b) 1

/-- The cores of a context on a die: the union of the masks of the die's rows that name it (R361). -/
def State.boundCores (s : State) (ctx d : Nat) : List Nat :=
  let m := (s.die d).rows.foldl (fun m r =>
    if fld r.2.toNat 81 1 = 1 ∧ fld r.2.toNat 86 10 = ctx then m ||| fld r.2.toNat 128 64 else m) 0
  ((upTo 0 64).filter (fun c => bit m c)).map (fun c => 64 * d + c)

/-- The checks of R110 on the levels of a launch of a context. Without a D level the units run on die 0, where the context must hold a core: DESIGN CHOICE
(log 26). -/
def State.levelsOk (s : State) (ctx : Nat) (ls : List (Nat × Nat)) : Bool :=
  let d := countsOf 2 ls
  let m := countsOf 3 ls
  let g := s.dom.dgrp.toNat
  decide (d.length ≤ 2) && decide (product d ≤ 2) &&
    (m.isEmpty || (bit g 0 && decide (product m ≤ fld g 16 8))) &&
    (upTo 0 (product d)).all (fun z => !(s.boundCores ctx z).isEmpty)

/-! ## Units (R111) -/

/-- The digits of a number in mixed radix, the first count the most significant. -/
def digitsOf : List Nat → Nat → List Nat
  | [], _ => []
  | _ :: cs, x => x / product cs :: digitsOf cs (x % product cs)

/-- Coordinates of all levels from those of the levels of each kind, in order (T, C, D, M). -/
def coordsOf : List (Nat × Nat) → List Nat → List Nat → List Nat → List Nat → List Half
  | [], _, _, _, _ => []
  | (k, _) :: r, t, c, d, m =>
    if k = 0 then BitVec.ofNat 32 (t.headD 0) :: coordsOf r t.tail c d m
    else if k = 1 then BitVec.ofNat 32 (c.headD 0) :: coordsOf r t c.tail d m
    else if k = 2 then BitVec.ofNat 32 (d.headD 0) :: coordsOf r t c d.tail m
    else BitVec.ofNat 32 (m.headD 0) :: coordsOf r t c d m.tail

/-- The units of a launch on this module, whose member has rank `m` (R111). -/
def State.unitsOf (s : State) (ctx m : Nat) (ls : List (Nat × Nat)) : List LUnit :=
  let ms := countsOf 3 ls
  if ls.any (fun l => l.2 == 0) || decide (product ms ≤ m) then []
  else
    (upTo 0 (product (countsOf 2 ls))).flatMap (fun z =>
      let cs := s.boundCores ctx z
      (upTo 0 (product (countsOf 1 ls))).map (fun x =>
        { core := cs.getD (x % cs.length) 0,
          coords := coordsOf ls [] (digitsOf (countsOf 1 ls) x) (digitsOf (countsOf 2 ls) z) (digitsOf ms m),
          nextSeg := 0, nextTrip := 0, started := false, ended := false, endCyc := 0, triggered := none }))

/-- The coordinates of a unit on a trip of its T levels. -/
def tripCoords (ls : List (Nat × Nat)) (u : LUnit) (trip : Nat) : List Half :=
  let ts := digitsOf (countsOf 0 ls) trip
  let rec go : List (Nat × Nat) → List Half → List Nat → List Half
    | [], _, _ => []
    | (k, _) :: r, c, t =>
      if k = 0 then BitVec.ofNat 32 (t.headD 0) :: go r c.tail t.tail else c.headD 0 :: go r c.tail t
  go ls u.coords ts

/-- Segments a unit runs: nseg for each combination of the T levels. -/
def Launch.trips (l : Launch) : Nat := product (countsOf 0 l.levels)

/-- Rank of this module in its group. -/
def State.rank (s : State) : Nat := if bit s.dom.dgrp.toNat 0 then fld s.dom.dgrp.toNat 8 8 else 0

/-- What of %dgrp all members of a group have in common: all but their rank (Table 20-1). -/
def groupId (g : Word) : Word := g &&& ~~~0xFF00#64

/-- Ranks of the other members, to each of which a launch with M levels is sent (R393). -/
def State.others (s : State) (ls : List (Nat × Nat)) : List Nat :=
  if countsOf 3 ls = [] ∨ ls.any (fun l => l.2 == 0) = true then []
  else (upTo 0 (fld s.dom.dgrp.toNat 16 8)).filter (fun r => decide (r ≠ s.rank))

/-- A launch accepted (R110, R365): after all that were accepted before it; with M levels it is sent to the members, and its
units start in the time-step a + 16 (R393). -/
def State.accept (s : State) (ctx core : Nat) (entry : Bool) (d : LDesc) (ls : List (Nat × Nat)) (desc tab : List Byte) : State :=
  let id := s.serial + 1
  let os := s.others ls
  let l : Launch :=
    { id := id, ctx := ctx, core := core, csem := d.csem, tsem := d.tsem, tren := d.tren, trigDone := false, nseg := d.nseg,
      kaddr := d.kaddr, levels := ls, units := s.unitsOf ctx s.rank ls, entry := entry,
      startTs := if countsOf 3 ls = [] then s.tstep else s.tstep + 16, started := decide (countsOf 3 ls = []) || ls.any (fun l => l.2 == 0),
      remote := os, trigRemote := os, origin := none, grp := groupId s.dom.dgrp }
  { s with
    serial := id, launches := s.launches ++ [l],
    outbox := s.outbox ++ os.map (fun r => .launchM r id ctx s.tstep (groupId s.dom.dgrp) desc tab) }

/-- The launch that read bytes describe, checked by R110. -/
def State.launchRead (s : State) (ctx : Nat) (desc tab : List Byte) : Option (LDesc × List (Nat × Nat)) :=
  match launchDesc desc, loopTable tab with
  | some d, some ls => if s.levelsOk ctx ls then some (d, ls) else none
  | _, _ => none

/-! ## launch (R110) -/

/-- A fault of K at a read of `launch` (R110): class 0, with the refused address. DEDUCED (log 26). -/
def State.launchError (s : State) (cause pa : Nat) (va : Word) : Act :=
  let c := s.cur.core
  let s1 := match s.paKind pa with
    | .window _ _ => if cause = 0xA1 then s.logError (dieOf c) (s.errEnt c pa va s.me.ctx cause 0) else s
    | _ => (s.linkMet c pa cause).logError (errDie c pa cause) (s.errEnt c pa va s.me.ctx cause 0)
  .fail s1 { cause := cause, status := memStatus 0 0 1 0 0, addr := va, cls := 0, engine := 0, uidx := 0 }

/-- A read of `launch`, then what follows it. -/
def State.launchGet (s : State) (va : Word) (n : Nat) (k : List Byte → State → Act) : Act :=
  match s.tableRead va n with
  | .wait s' => .wait s' 0xA 0 0
  | .fault v part => memTrap 0x45 v.toNat (memStatus 0 part 1 0 0)
  | .error cause pa v s' => s'.launchError cause pa v
  | .value bs s' => k bs s'

/-- The reads of `launch` are done: the group stands until it is accepted. -/
def State.launchWait (s : State) (desc tab : List Byte) : Act :=
  let l := s.later 1
  .wait (l.2.modMs s.cur.core (fun m => { m with hold := some (.launch desc tab l.1 false) })) 0xA 0 0

/-- The effect of `launch` (R110). The alignment is looked at before the timing fault: DESIGN CHOICE (log 67). -/
def actLaunch (f : MgtF) (s : State) : Act :=
  let a := s.standOp (s.rd f.a)
  if a.toNat % 32 ≠ 0 then memTrap 0x40 a.toNat (memStatus 0 0 1 0 0)
  else if s.me.timed then .wait s 0xA 0 0
  else
    Act.pinned (.launch f) a
      (s.launchGet a 32 (fun desc s =>
        match launchDesc desc with
        | none => s.launchWait desc []
        | some d =>
          s.launchGet d.ltab 8 (fun h s =>
            match loopLevels h with
            | none => s.launchWait desc h
            | some n => s.launchGet (d.ltab + 8) (8 * n) (fun es s => s.launchWait desc (h ++ es)))))

/-- LAUNCH (R110). -/
def execLaunch (f : MgtF) (s : State) : Host.Outcome State Fault Refusal := issue s [f.a] (actLaunch f)

/-- The status word of the group K stands at (Table 2-24). -/
def State.groupStatus (s : State) (c : Nat) : Half :=
  match (s.core c).fetch c .k with
  | .run _ u => u.status u.word u.fsel 0
  | _ => 0

/-- Another core of the context has made the release of its launch and not accepted it yet: that one comes first (R365). -/
def State.acceptsAhead (s : State) (c : Nat) : Bool :=
  s.cores.any (fun p => decide (p.1 ≠ c) && p.2.bound && decide (p.2.ctx = (s.core c).ctx) &&
    (match p.2.ms.hold with
     | some (.launch _ _ _ true) => true
     | _ => false))

/-- LAUNCH_ACCEPTANCE (R110, R244): behind K's earlier atomics (R235), a launch that passes its checks is accepted once its release is
complete; one that fails raises cause 0x0B at the `launch`. -/
def execLaunchAcceptance (c : Nat) (s : State) : Host.Outcome State Fault Refusal :=
  coreEvent "LAUNCH_ACCEPTANCE" c
    (let co := s.core c
     match co.ms.hold with
     | some (.launch desc tab at_ released) =>
       if at_ ≤ s.cyc ∧ co.counting s.cyc = true ∧ s.ordered c = true ∧ s.acceptsAhead c = false then
         match s.launchRead co.ctx desc tab with
         | none =>
           some ((s.modMs c (fun m => { m with hold := none })).takeTrap c .k
             { cause := 0xB, status := s.groupStatus c, addr := 0, cls := 0, engine := 0, uidx := 0 } co.im.k.index 0)
         | some (d, ls) =>
           let wide := !(countsOf 3 ls).isEmpty
           let s1 := if released then s else s.release c (if wide then 4 else 3)
           if wide && s1.domainBusy c then
             (if released then none
              else some (s1.modMs c (fun m => { m with hold := some (.launch desc tab at_ true) })))
           else some (s1.issueHeld c (fun s => s.accept co.ctx c false d ls desc tab))
       else none
     | _ => none)

/-! ## Completion and triggers (R113, R114) -/

/-- A packet of this kind is for an on-die engine: the copy engine or an index engine (R107, R279). -/
def onDieKind (k : Nat) : Bool := decide (k = 2) || (decide (0x10 ≤ k) && decide (k < 0x20))

/-- On-die engine commands of a launch's segments that have not completed (R113). -/
def State.launchBusy (s : State) (id : Nat) : Bool :=
  s.cores.any (fun p =>
    p.2.units.plane.any (fun e => decide (e.launch = id)) || p.2.units.renew.any (fun e => decide (e.launch = id)) ||
      p.2.units.chans.any (fun x => x.2.any (fun e => decide (e.launch = id))) ||
      p.2.units.port.any (fun k => decide (k.launch = id) && onDieKind (k.pkt.toNat % 256))) ||
    s.placed.any (fun p => decide (p.launch = id) && onDieKind p.kind && !p.failed)

/-- Atomics and releases of a launch's cores, in its context, that have not taken place, or of a launch with M levels that their targets have
not acknowledged: what its signals are ordered behind (R244). -/
def State.launchWrites (s : State) (l : Launch) : Bool :=
  l.units.any (fun u =>
    let co := s.core u.core
    co.ms.gacc.any (fun g => decide (g.ctx = l.ctx) && g.unperformed) || !co.ms.rels.isEmpty ||
      (!(countsOf 3 l.levels).isEmpty && s.domainBusy u.core))

/-- Every unit of a launch has ended, here and on the other members. -/
def Launch.unitsDone (l : Launch) : Bool := l.started && l.units.all (fun u => u.ended) && l.remote.isEmpty

/-- Every unit counts as triggered on this cycle. -/
def Launch.triggered (l : Launch) (cyc : Nat) : Bool :=
  l.started && l.trigRemote.isEmpty && l.units.all (fun u =>
    match u.triggered with
    | some t => decide (t ≤ cyc)
    | none => false)

/-- Tiles of an owner lose their held bit (R370). -/
def ArrSt.unhold (a : ArrSt) (ctx : Nat) : ArrSt :=
  { a with tiles := a.tiles.map (fun p => (p.1, if p.2.owner = ctx then { p.2 with held := false } else p.2)) }

/-- LAUNCH_COMPLETE (R113, R370): csem is released once every unit and its on-die work has ended; a member reports to the one that
accepted the launch (R393). -/
def execLaunchComplete (id : Nat) (s : State) : Host.Outcome State Fault Refusal :=
  event "LAUNCH_COMPLETE"
    (match s.launches.find? (fun l => decide (l.id = id)) with
     | some l =>
       if l.unitsDone && !s.launchBusy id && (!l.tren || l.trigDone) && !s.launchWrites l then
         let s1 : State :=
           { s with launches := s.launches.filter (fun x => !decide (x.id = id)),
                    arrays := s.arrays.map (fun p => (p.1, p.2.unhold l.ctx)) }
         some (match l.origin with
           | none => s1.signalSem l.core l.ctx l.csem
           | some (r, n) => s1.send (.unitsEnded r n))
       else none
     | none => none)

/-- LAUNCH_TRIGGER_RELEASE (R114): tsem is released once every unit is triggered. -/
def execLaunchTriggerRelease (id : Nat) (s : State) : Host.Outcome State Fault Refusal :=
  event "LAUNCH_TRIGGER_RELEASE"
    (match s.launches.find? (fun l => decide (l.id = id)) with
     | some l =>
       if l.tren && !l.trigDone && l.triggered s.cyc && !s.launchWrites l then
         let s1 : State := { s with launches := s.launches.map (fun x => if x.id = id then { x with trigDone := true } else x) }
         some (match l.origin with
           | none => s1.signalSem l.core l.ctx l.tsem
           | some (r, n) => s1.send (.unitsTriggered r n))
       else none
     | none => none)

end Sys2Proof.Machine
end

