-- ==== Sys2Proof/Machine/Traps.lean ====
section
/-! DEFINITION. What follows a trap (R339 to R343), overruns and the end of a segment (R95, R98, R99), the removal of a context (R356 to
R358), rotation scans (R351 to R355). -/
namespace Sys2Proof.Machine

/-! ## The stop of a core and its records (R339 to R341) -/

/-- The order in which the records of a core enter the trap queue (R339). -/
def recLe (a b : TrapRec) : Bool := decide (a.sched < b.sched) || (decide (a.sched = b.sched) && decide (a.seq ≤ b.seq))

/-- The results of the pending-result file (R341). DEDUCED (log 61). -/
def Core.npend (co : Core) : Nat := (co.im.flight.filter (fun x => x.fx.isResult)).length

/-- The core stops behind its trap cycle: effects that are no results take place, the results in flight stay captured, and the records are
handed to the die's trap queue in their order. -/
def State.stopCore (s : State) (c x : Nat) (fault : Bool) : State :=
  let co := (s.core c).flush
  let rs := (sortBy recLe co.stops.recs).map (fun r => { r with npend := co.npend })
  let st : Stops := { co.stops with stop := .stopped x fault, recs := [] }
  rs.foldl (fun s r => s.postRecord (dieOf c) r) (s.setCore c { co with stops := st })

/-- TRAP_STOP (R340): once the trap cycle is over, the core stands still and its records are sent. -/
def execTrapStop (c : Nat) (s : State) : Host.Outcome State Fault Refusal :=
  coreEvent "TRAP_STOP" c
    (match (s.core c).stops.stop with
     | .run => none
     | .trapped x t f => if t < s.cyc then some (s.stopCore c x f) else none
     | .stopped x f => if (s.core c).stops.recs.isEmpty then none else some (s.stopCore c x f))

/-- A record is sent (R346): one that reports K's pending error tells how many further ones there have been, and clears them. -/
def State.sendRecord (s : State) (d : Nat) (r : TrapRec) : State × BitVec 512 :=
  if r.pend then
    let c := 64 * d + r.core
    let co := s.core c
    let clear (im : Image) : Image := { im with perr := none, more := 0 }
    if co.bound ∧ co.ctx = r.ctx then (s.modIm c clear, { r with more := co.im.more }.bits)
    else
      match mfind s.images (imageKey r.ctx c) with
      | some im => ({ s with images := mset s.images (imageKey r.ctx c) (clear im) }, { r with more := im.more }.bits)
      | none => (s, r.bits)
  else (s, r.bits)

/-- TRAP_RECORD_ENQUEUE (R339): the record that has waited longest enters the trap queue. -/
def execTrapRecordEnqueue (d : Nat) (s : State) : Host.Outcome State Fault Refusal :=
  if 2 ≤ d then .fault .noSuchUnit
  else
    event "TRAP_RECORD_ENQUEUE"
      (match (s.die d).trapWait with
       | r :: rest =>
         if (s.die d).trapq.length < 1024 then
           let p := s.sendRecord d r
           some (p.1.modDie d (fun x => { x with trapq := x.trapq ++ [p.2], trapWait := rest }))
         else none
       | [] => none)

/-- TRAP_QUEUE_TAKE (R339): the management firmware takes the oldest record. -/
def execTrapQueueTake (d : Nat) (s : State) : Host.Outcome State Fault Refusal :=
  if 2 ≤ d then .fault .noSuchUnit
  else
    event "TRAP_QUEUE_TAKE"
      (match (s.die d).trapq with
       | _ :: rest => some (s.modDie d (fun x => { x with trapq := rest }))
       | [] => none)

/-- RESUME (R343): a context whose segment a trap had stopped goes on at its schedule cycle. -/
def execResume (ctx c : Nat) (s : State) : Host.Outcome State Fault Refusal :=
  coreEvent "RESUME" c
    (let co := s.core c
     if co.bound ∧ co.ctx = ctx ∧ co.walk.phase = .resume then some (s.modWalk c (fun w => { w with phase := .running })) else none)

/-- D2D_UNCORRECTABLE_ERROR (R388): a flit of the link is lost. The oldest load of the core's K that is crossing it receives an error response; where none
is, the core's next access that crosses the link does: a load, store, atomic, an access of one of its engines, or the read of a walk. DESIGN CHOICE
(log 69). -/
def execD2dUncorrectableError (c : Nat) (s : State) : Host.Outcome State Fault Refusal :=
  coreEvent "D2D_UNCORRECTABLE_ERROR" c
    (some (match (s.core c).ms.gacc.find? (fun g => decide (g.kind = 0) && decide (g.err = none) && g.want.isEmpty &&
        decide (s.paKind g.pa = .home) && decide (homeDie g.pa ≠ dieOf c)) with
     | some g => s.modAcc c g.id (fun g => { g with err := some 0x83 })
     | none => { s with linkErr := c :: s.linkErr.filter (fun x => decide (x ≠ c)) }))

/-! ## Overruns (R98 to R100) -/

/-- The sequencers, in the order of their codes. -/
def allSeqs : List Seq := [.k, .l, .c, .s]

/-- Bit n set: sequencer n had not halted (Table 5-2). -/
def Image.notHalted (im : Image) : Nat := allSeqs.foldl (fun n q => n + (if (im.seq q).halted.isNone then 2 ^ q.code else 0)) 0

/-- The overrun of a segment: once, by the lowest-coded sequencer that has not halted; the groups of the cycle still issue. DEDUCED (log 43). -/
def State.overrun (s : State) (c cause : Nat) : State :=
  let co := s.core c
  let q := (allSeqs.find? (fun q => (co.im.seq q).halted.isNone)).getD .k
  let t : TrapInfo := { cause := cause, status := timingStatus co.im.notHalted 0 0, addr := 0, cls := 1, engine := 0, uidx := 0 }
  ((if q = .c then s.endCounted c else s).modStops c (fun st =>
    { st with recs := st.recs ++ [s.record c q t (co.im.seq q).index 0], stop := st.stop.trapAt co.im.sched s.cyc false })).modIm c
    (fun im => { im with seg := im.seg.map (fun g => { g with overrun := true }) })

/-- OVERRUN_UNTIMED (R98). -/
def execOverrunUntimed (c : Nat) (s : State) : Host.Outcome State Fault Refusal :=
  coreEvent "OVERRUN_UNTIMED" c
    (match (s.core c).im.seg with
     | some g =>
       if (s.core c).counting s.cyc && !g.timed && !g.overrun && decide (2 * g.cost ≤ (s.core c).im.sched) then some (s.overrun c 0x21)
       else none
     | none => none)

/-- OVERRUN_TIMED (R99). -/
def execOverrunTimed (c : Nat) (s : State) : Host.Outcome State Fault Refusal :=
  coreEvent "OVERRUN_TIMED" c
    (match (s.core c).im.seg with
     | some g =>
       if (s.core c).counting s.cyc && g.timed && !g.overrun && decide (g.cost ≤ (s.core c).im.sched) &&
           decide ((s.core c).im.notHalted ≠ 0) then some (s.overrun c 0x22)
       else none
     | none => none)

/-! ## The end of a segment (R95) -/

/-- E (R95), once nothing more can put it off. -/
def State.segmentEndAt (s : State) (c : Nat) (g : Seg) : Option Nat :=
  let co := s.core c
  if co.im.notHalted = 0 ∧ co.npend = 0 ∧ co.im.vec.vlds = [] ∧ co.im.vec.vsts = [] ∧ co.ms.gacc.all (fun x => x.dst.isNone) = true ∧
      (s.arr (arrOf c)).queue.all (fun x => decide (x.core ≠ c) || x.det) = true then
    let h := allSeqs.foldl (fun n q => Nat.max n ((co.im.seq q).halted.getD 0)) 0
    some (Nat.max (Nat.max h (if g.lastEnd = 0 then 0 else g.lastEnd + 1)) (if g.timed then g.cost else 0))
  else none

/-- Timed commands of an ended segment that have not begun keep their start values, counted on from the segment's start in %cyc (R107). -/
def Units.untime (u : Units) (ctx sched cyc : Nat) : Units :=
  let f (l : List EngCmd) : List EngCmd := l.map (fun e =>
    if e.ctx = ctx ∧ e.begun = none ∧ e.timed = true ∧ e.det = false then { e with det := true, start := cyc + (e.start - sched) } else e)
  { u with plane := f u.plane, renew := f u.renew, chans := u.chans.map (fun p => (p.1, f p.2)) }

/-- A unit of a launch after its present segment: past the last segment of its last trip it has ended (R111). -/
def LUnit.next (u : LUnit) (l : Launch) (cyc : Nat) : LUnit :=
  let wrap := decide (l.nseg ≤ u.nextSeg + 1)
  let trip := if wrap then u.nextTrip + 1 else u.nextTrip
  let e := wrap && decide (l.trips ≤ trip)
  { u with nextSeg := if wrap then 0 else u.nextSeg + 1, nextTrip := trip, ended := e, endCyc := if e then cyc else u.endCyc,
           triggered := if e && u.triggered.isNone then some cyc else u.triggered }

/-- The unit of a segment that has ended goes on; a unit's end releases its writes (R113, R244) and triggers it (R114). -/
def State.unitNext (s : State) (c : Nat) (g : Seg) : State :=
  match s.launches.find? (fun l => decide (l.id = g.launch)) with
  | none => s
  | some l =>
    let e := ((l.units[g.unit]?).map (fun u => (u.next l s.cyc).ended)).getD false
    (if e then s.releaseNext c (if (countsOf 3 l.levels).isEmpty then 3 else 4) else s).modUnit l.id g.unit (fun u => u.next l s.cyc)

/-- A segment's own lease of the array ends with it, and the array is free on the same cycle (R175); a counted one frees it as R173 says, and one of a context
that the core has left stands. -/
def ArrSt.endOwn (a : ArrSt) (c ctx cyc : Nat) : ArrSt :=
  let b := a.endLease c cyc
  if a.parked c ctx then { a with reqs := b.reqs } else if a.holder = some c ∧ a.count = none then { b with freeFrom := cyc } else b

/-- A segment ends: leases end (R173, R175), and the core is to advance. -/
def State.endSegment (s : State) (c : Nat) (g : Seg) : State :=
  let s1 := (s.modArr (arrOf c) (fun a => a.endOwn c (s.core c).ctx s.cyc)).unitNext c g
  s1.modCore c (fun co =>
    let co := co.flush
    { co with im := { co.im with seg := none }, units := co.units.untime co.ctx co.im.sched s.cyc,
              walk := { co.walk with phase := .advance s.cyc, fresh := false } })

/-- SEGMENT_END (R95, R346): at E the segment ends, or a pending error is raised first. -/
def execSegmentEnd (c : Nat) (s : State) : Host.Outcome State Fault Refusal :=
  coreEvent "SEGMENT_END" c
    (match (s.core c).im.seg with
     | none => none
     | some g =>
       match s.segmentEndAt c g with
       | none => none
       | some e =>
         if (s.core c).counting s.cyc = true ∧ (s.core c).stops.stop = .run ∧ e ≤ (s.core c).im.sched then
           some (match (s.core c).im.perr with
             | some p => (s.withCur { Cur.init with core := c, sq := .k }).raisePending p
             | none => s.endSegment c g)
         else none)

/-! ## Removing a context (R356 to R358) -/

/-- The bounds of Table 17-8. -/
def removalBound (step : Nat) : Nat :=
  [65536, 131072, 1048576, 4194304, 16777216, 65536, 1048576, 4096].getD (step - 1) 4096

/-- Commands of a context that have not begun leave a queue. DEDUCED (log 42). -/
def dropUnbegun (ctx : Nat) (l : List EngCmd) : List EngCmd := l.filter (fun e => decide (e.ctx ≠ ctx) || e.begun.isSome)

/-- A core whose context is being removed stops; what its units have not begun is dropped. -/
def Core.removing (co : Core) (ctx : Nat) : Core :=
  let u := co.units
  let units : Units :=
    { u with plane := dropUnbegun ctx u.plane, renew := dropUnbegun ctx u.renew, chans := u.chans.map (fun p => (p.1, dropUnbegun ctx p.2)),
             port := u.port.filter (fun k => decide (k.ctx ≠ ctx) || k.sent) }
  if co.bound ∧ co.ctx = ctx then
    let st : Stops := { co.stops with stop := .stopped co.im.sched true, galign := none }
    let ms : MemSide := { co.ms with hold := none, gacc := co.ms.gacc.filter (fun g => !(decide (g.kind = 3) && g.want.isEmpty)) }
    { co with units := units, stops := st, ms := ms }
  else { co with units := units }

/-- A command goes on in cycles of %cyc. -/
def ArrCmd.detach (x : ArrCmd) (sched cyc : Nat) : ArrCmd :=
  if x.det then x
  else
    let f (t : Nat) : Nat := t + cyc - sched
    { x with det := true, issue := f x.issue, b := x.b.map f, rAt := f x.rAt, e := x.e.map f, notBefore := f x.notBefore }

/-- The commands of a context in an array: those that have begun go on, the others are dropped. -/
def State.detachAll (s : State) (ctx : Nat) : State :=
  { s with arrays := s.arrays.map (fun p =>
      (p.1, { p.2 with queue := (p.2.queue.filter (fun x => decide (x.ctx ≠ ctx) || x.b.isSome)).map (fun x =>
        if x.ctx = ctx then x.detach (s.core x.core).im.sched s.cyc else x) })) }

/-- The queues attached for a context. -/
def State.queuesOf (s : State) (ctx : Nat) : List Nat :=
  s.dies.flatMap (fun p => (p.2.fronts.filter (fun f => decide ((s.qent (256 * p.1 + f.1)).ctx = ctx))).map (fun f => 256 * p.1 + f.1))

/-- A queue's state in its descriptor (Table 13-3). -/
def State.setQueueState (s : State) (q v : Nat) : State :=
  match s.front q with
  | some f => s.homeWrite (f.desc + 32) [BitVec.ofNat 8 (s.homeNat (f.desc + 32) 1 / 4 * 4 + v)]
  | none => s

/-- Removal begins (R356): its sequencers stop, its queues go to state 2, and nothing of it that has not begun begins. -/
def State.startRemoval (s : State) (ctx : Nat) (r : Removal) : State :=
  let s1 := (s.queuesOf ctx).foldl (fun s q => s.setQueueState q 2) s
  let s2 := (s1.cores.filter (fun p => p.2.bound && decide (p.2.ctx = ctx))).foldl
    (fun s p => s.modArr (arrOf p.1) (fun a => { a with reqs := a.reqs.filter (fun x => decide (x.core ≠ p.1)) })) (s1.detachAll ctx)
  { s2 with
            arrays := s2.arrays.map (fun p => (p.1, if p.2.holder.isSome ∧ p.2.lctx = ctx then { p.2 with holder := none, count := none, freeFrom := s.cyc + 1 } else p.2)),
            cores := s2.cores.map (fun p => (p.1, p.2.removing ctx)),
            works := s2.works.filter (fun p => !(decide (p.2.ctx = ctx) && pCard p.2.pkt && decide (p.2.stage = .taken))),
            removals := mset s2.removals ctx { r with step := 1, deadline := s.cyc + removalBound 1 } }

/-- CONTEXT_REMOVAL (R356): a fatal fault has been found, or firmware declares a hang. -/
def execContextRemoval (ctx : Nat) (s : State) : Host.Outcome State Fault Refusal :=
  event "CONTEXT_REMOVAL"
    (s.manage (match mfind s.removals ctx with
     | none => if ctx < 1024 then some (s.startRemoval ctx { step := 1, deadline := 0, cause := 0, engine := 0, unit := 0, status := 0 }) else none
     | some r => if r.step = 0 then some (s.startRemoval ctx r) else none))

/-- A unit that holds work of a context: the K of a core, an array, the plane unit, renew unit or a copy channel of a core, a unit that serves
queues of a die (its engine code and number), the hot-row fills of a die, or the page walkers of a die. -/
inductive Holder where
  | seqs (core : Nat)
  | arr (i : Nat)
  | plane (core : Nat)
  | renew (core : Nat)
  | chan (core k : Nat)
  | engine (code die unit : Nat)
  | fills (die : Nat)
  | walkers (die : Nat)
  deriving DecidableEq, Repr

/-- The engine code of a unit (Table 17-2). -/
def Holder.code (h : Holder) : Nat :=
  match h with
  | .seqs _ => 0
  | .arr _ => 1
  | .plane _ => 2
  | .renew _ => 3
  | .chan _ _ => 4
  | .engine e _ _ => e
  | .fills _ => 7
  | .walkers _ => 12

/-- The number of a unit within its kind (R337). -/
def Holder.uidx (h : Holder) : Nat :=
  match h with
  | .arr i => i % 16
  | .chan _ k => k
  | .engine _ _ u => u % 64
  | _ => 0

/-- The unit that serves a packet: a queue channel of a copy engine, else the unit its queue's descriptor names. -/
def State.workUnit (s : State) (x : Work) : Holder :=
  let e := (s.workAgent x).engine
  .engine e (x.q / 256) (if e = 4 then x.chan else ((s.front x.q).map (fun f => f.unit)).getD 0)

/-- A request to another module of a core's own sequencers for a context, a released store among them, which has not been answered or ended. -/
def DReq.ofCore (r : DReq) (c ctx : Nat) : Bool := decide (r.core = c) && !r.skip && decide (fld r.hdr.toNat 70 10 = ctx)

/-- A unit that has work of a context in flight at a step of Table 17-8, if any: of the sequencers also their stores on the way to other modules and
their packets on the way to a queue. -/
def State.inFlightAt (s : State) (ctx step : Nat) : Option Holder :=
  let mine (l : List EngCmd) : Bool := l.any (fun e => decide (e.ctx = ctx))
  let work (l : List Nat) : Option Holder :=
    firstSome (fun p => if p.2.ctx = ctx ∧ l.contains (s.workAgent p.2).engine = true then some (s.workUnit p.2) else none) s.works
  match step with
  | 1 => firstSome (fun p =>
      if p.2.ms.gacc.any (fun g => decide (g.ctx = ctx)) || p.2.units.port.any (fun k => decide (k.ctx = ctx)) ||
          s.dom.reqs.any (fun r => r.ofCore p.1 ctx) then some (.seqs p.1) else none) s.cores
  | 2 => firstSome (fun p => if p.2.queue.any (fun x => decide (x.ctx = ctx)) then some (.arr p.1) else none) s.arrays
  | 3 =>
    match firstSome (fun p =>
        if mine p.2.units.plane then some (Holder.plane p.1)
        else if mine p.2.units.renew then some (.renew p.1)
        else (p.2.units.chans.find? (fun k => mine k.2)).map (fun k => .chan p.1 k.1)) s.cores with
    | some h => some h
    | none => work [4, 6]
  | 4 => work [10, 11]
  | 5 =>
    match work [7, 8, 9] with
    | some h => some h
    | none => (s.fills.find? (fun f => decide (f.ctx = ctx))).map (fun f => .fills f.die)
  | 6 => (s.pfetch.find? (fun p => decide (p.2.1 = ctx))).map (fun p => .walkers (agentDie p.1))
  | _ => none

/-- The slabs of a context on a core become free, and its stash window goes. -/
def Core.freeAll (co : Core) (ctx : Nat) : Core :=
  let a := (co.slabs.filter (fun p => decide (p.2.kind ≠ .free) && decide (p.2.owner = ctx))).foldl (fun co p => co.freeSlab p.1) co
  { a with windows := mdel a.windows ctx }

/-- A core that ran a removed context has none. -/
def Core.unbind (co : Core) (ctx cyc : Nat) : Core :=
  if co.bound ∧ co.ctx = ctx then
    let st : Stops := { co.stops with stop := .run, galign := none }
    let ms : MemSide := { co.ms with pend := [], hold := none, semAdds := [], snap := [], remote := [], rels := [] }
    let w : Walk := { co.walk with phase := .advance cyc, fresh := false, left := (co.walk.row, ctx) :: co.walk.left }
    { co with bound := false, ctx := 0, ptbase := 0, im := Image.init, ring := none, stops := st, ms := ms, walk := w }
  else co

/-- The tiles of a context lose in-use and held (R358). -/
def ArrSt.dropTiles (a : ArrSt) (ctx : Nat) : ArrSt :=
  { a with tiles := a.tiles.map (fun p => (p.1, if p.2.owner = ctx then { p.2 with inuse := false, held := false } else p.2)) }

/-- The last record of a removed context (R337, R358). -/
def State.lastRecord (s : State) (ctx : Nat) (r : Removal) : State :=
  let d := if (s.boundCores ctx 0).isEmpty ∧ (s.boundCores ctx 1).isEmpty = false then 1 else 0
  s.postRecord d { seg := 0, addr := 0, tstep := s.tstep, sched := 0, status := r.status, cmd := 0, cause := r.cause, engine := r.engine,
                   uidx := r.unit, seq := 0, cls := 3, ctx := ctx, die := d, core := 0, npend := 0, more := 0, waits := false, pend := false }

/-- The core images of a context (Table 18-5). -/
def State.cimg (s : State) (ctx : Nat) : Option Nat := (s.ctxDesc ctx).map (fun a => s.homeNat (a + 0x90) 8)

/-- The token in a core image in memory (R368): what stands for all of it but the semaphores and %semov; 0 is an image that nothing has been written
into. DESIGN CHOICE (log 70). -/
def State.imageToken (s : State) (a c : Nat) : Nat := s.homeNat (a + c * 0x40000 + 136) 8

/-- The core images in memory of a context are images that nothing has been written into again (R358). -/
def State.clearImages (s : State) (ctx : Nat) : State :=
  match s.cimg ctx with
  | none => s
  | some a =>
    ((upTo 0 128).filter (fun c => decide (s.imageToken a c ≠ 0))).foldl (fun s c => s.homeWrite (a + c * 0x40000 + 136) (leBytes 8 0)) s

/-- The state of a context is cleared (R358). DEDUCED (log 42). -/
def State.clearContext (s : State) (ctx : Nat) (r : Removal) : State :=
  let qs := s.queuesOf ctx
  let s1 := qs.foldl (fun s q =>
    s.modDie (q / 256) (fun d => { d with fronts := mdel d.fronts (q % 256), qtab := mset d.qtab (q % 256) { s.qent q with v := false } })) (s.clearImages ctx)
  let s2 : State :=
    { s1 with
      cores := s1.cores.map (fun p => (p.1, (p.2.freeAll ctx).unbind ctx s.cyc)),
      arrays := s1.arrays.map (fun p => (p.1, p.2.dropTiles ctx)),
      relQ := s1.relQ.filter (fun x => decide (x.1 ≠ ctx)),
      images := s1.images.filter (fun p => decide (p.1 / 128 ≠ ctx)), entered := s1.entered.filter (fun k => decide (k / 128 ≠ ctx)),
      usedCkpt := s1.usedCkpt.filter (fun p => decide (p.2 ≠ ctx)),
      jrnl := { s1.jrnl with retracted := s1.jrnl.retracted.filter (fun p => decide (p.1 ≠ ctx)) },
      launches := s1.launches.filter (fun l => decide (l.ctx ≠ ctx)),
      entryDone := s1.entryDone.filter (fun x => decide (x ≠ ctx)),
      descs := mdel s1.descs ctx,
      placed := s1.placed.filter (fun p => decide (p.ctx ≠ ctx)) }
  s2.lastRecord ctx r

/-- Hot-row frames are written back and given up (R301, R303). -/
def State.giveUp (s : State) (p : Frame → Bool) : State :=
  let ks := (s.frames.filter (fun x => x.2.valid && p x.2))
  ks.foldl (fun s p =>
    let s1 := if p.2.dirty then s.homeWrite p.2.home (s.homeBytes (s.frameAt p.1) p.2.rb) else s
    { s1 with frames := mdel s1.frames p.1 }) s

/-- The agent that writes the emissions of a core. -/
def emitAgent (c : Nat) : Nat := 7168 + c

/-- The emissions and digests of a context are dropped (R424); of an emission that is on its way to another module, the answer is no longer wanted. -/
def State.dropEmissions (s : State) (ctx : Nat) : State :=
  let ids := (s.jrnl.emissions.filter (fun e => decide (e.ctx = ctx) && e.sent)).map (fun e => emitAgent e.core)
  { s with jrnl := { s.jrnl with emissions := s.jrnl.emissions.filter (fun e => decide (e.ctx ≠ ctx)),
                                 reps := s.jrnl.reps.filter (fun e => decide (e.ctx ≠ ctx)) },
           dom := { s.dom with reqs := s.dom.reqs.map (fun r => if ids.any (fun a => decide (r.core = 128 + a)) then { r with skip := true } else r),
                               answers := s.dom.answers.filter (fun a => !ids.contains a.agent) } }

/-- The work of a step of Table 17-8 once its units have drained. -/
def State.closeStep (s : State) (ctx : Nat) (r : Removal) : State :=
  match r.step with
  | 4 => s.dropEmissions ctx
  | 5 => s.giveUp (fun f => decide (f.ctx = ctx))
  | 7 => (s.blog.filter (fun e => decide (e.ctx = ctx))).foldl (fun s e => s.promote e) s
  | 8 => (s.invalidate ctx none).clearContext ctx r
  | 9 => { s with removals := mdel s.removals ctx }
  | _ => s

/-- The last record of a removed context waits to enter a trap queue: its removal step is unfinished (R339). -/
def State.lastWaits (s : State) (ctx : Nat) : Bool :=
  s.dies.any (fun p => p.2.trapWait.any (fun r => decide (r.cls = 3) && decide (r.ctx = ctx)))

/-- REMOVAL_STEP (R356): the present step's units hold nothing of the context; the next step begins. Once the context's state is cleared, the
removal is step 9, which ends when its last record has entered the trap queue (R339, R358). -/
def execRemovalStep (ctx : Nat) (s : State) : Host.Outcome State Fault Refusal :=
  event "REMOVAL_STEP"
    (match mfind s.removals ctx with
     | none => none
     | some r =>
       if r.step = 0 ∨ (s.inFlightAt ctx r.step).isSome = true ∨ (r.step = 9 ∧ s.lastWaits ctx = true) then none
       else
         let s1 := s.closeStep ctx r
         some (if 9 ≤ r.step then s1
           else
             { s1 with removals := mset s1.removals ctx { r with step := r.step + 1, deadline := s.cyc + removalBound (r.step + 1) } }))

/-- An array that is reset whole (R357): commands of the removed context go, and a tile that one of them had begun to write is no context's any more, its former
owner having saved it (R371); every tile of another context, and the tile of another's command in progress, is replayed from the window, or its
context falls under R350. DEDUCED (log 63). -/
def State.resetArray (s : State) (i ctx : Nat) : State :=
  let s0 := match (s.arr i).running with
    | some x => if x.ctx = ctx ∧ x.kind ≠ 6 then s.modTile i x.f.tile.toNat (fun t => { t with owner := ctx, inuse := false, born := false }) else s
    | none => s
  let s1 := s0.modArr i (fun a => { a with queue := a.queue.filter (fun x => decide (x.ctx ≠ ctx)) })
  let a := s1.arr i
  let begun := a.running.map (fun x => (x.f.tile.toNat, x.ctx))
  let ts := (a.tiles.filter (fun p => p.2.inuse && decide (p.2.owner ≠ ctx) && decide (begun.map (fun b => b.1) ≠ some p.1))).map (fun p => (p.1, p.2.owner))
  (begun.toList ++ ts).foldl (fun s p => s.replayTile i p.1 p.2 false) s1

/-- A command of a plane or renew unit that is reset is performed again from its start. -/
def EngCmd.restart (e : EngCmd) : EngCmd := { e with begun := none, j := 0, nextAt := 0, idx := [], buf := [], written := [], wait := .go }

/-- A command of a copy channel that is reset goes on with the run it had come to, which it reads again; what it has delivered stays counted. -/
def EngCmd.rerun (e : EngCmd) : EngCmd := { e with buf := [], wait := .go }

/-- What a reset of one of a core's units leaves of its commands: those of the removed context go. -/
def afterReset (ctx : Nat) (f : EngCmd → EngCmd) (l : List EngCmd) : List EngCmd := (l.filter (fun e => decide (e.ctx ≠ ctx))).map f

/-- A unit is reset whole: its work of the removed context goes; commands of others are performed again, their global accesses made again, which shows as latency
alone, and their uncompleted packets and uncommitted job cards, fills and prefetches are taken or asked for again (R268, R357). DEDUCED (log 42). -/
def State.resetUnit (s : State) (ctx : Nat) (h : Holder) : State :=
  match h with
  | .seqs c =>
    let l := s.later 1
    let s1 := (l.2.modMs c (fun ms =>
      { ms with gacc := (ms.gacc.filter (fun g => decide (g.ctx ≠ ctx))).map (fun g => { g with at_ := Nat.max g.at_ l.1 }) })).modUnits c
        (fun u => { u with port := u.port.filter (fun k => decide (k.ctx ≠ ctx)) })
    { s1 with dom := { s1.dom with reqs := s1.dom.reqs.map (fun r => if r.ofCore c ctx then { r with skip := true } else r) } }
  | .arr i => s.resetArray i ctx
  | .plane c => s.modUnits c (fun u => { u with plane := afterReset ctx EngCmd.restart u.plane })
  | .renew c => s.modUnits c (fun u => { u with renew := afterReset ctx EngCmd.restart u.renew })
  | .chan c k => s.modUnits c (fun u => { u with chans := mset u.chans k (afterReset ctx EngCmd.rerun (mget [] u.chans k)) })
  | .engine _ _ _ =>
    let gone := s.works.filter (fun p => decide (s.workUnit p.2 = h))
    let s1 := gone.foldl (fun s p => s.forget (1024 + p.2.q)) s
    { s1 with works := s1.works.filter (fun p => !gone.any (fun g => g.1 == p.1)) }
  | .fills d => { s with fills := s.fills.filter (fun f => decide (f.die ≠ d)) }
  | .walkers d => { s with pfetch := s.pfetch.filter (fun p => decide (agentDie p.1 ≠ d)) }

/-- REMOVAL_BOUND_EXPIRE (R357): the bound of a step expires, and the unit that has not drained is reset; cause 0x87 names it. -/
def execRemovalBoundExpire (ctx : Nat) (s : State) : Host.Outcome State Fault Refusal :=
  event "REMOVAL_BOUND_EXPIRE"
    (match mfind s.removals ctx with
     | none => none
     | some r =>
       match s.inFlightAt ctx r.step with
       | some h =>
         if 1 ≤ r.step ∧ r.deadline ≤ s.cyc then
           let s1 := s.resetUnit ctx h
           let r1 : Removal := { r with cause := 0x87, engine := h.code, unit := h.uidx, status := errorStatus h.code r.step 0 }
           some { s1 with removals := mset s1.removals ctx r1 }
         else none
       | none => none)

/-! ## Rotation scans (R351 to R355) -/

/-- The unit is drained as for a switch (R351): an array holds no command and no lease; no segment that has been dispatched runs on a vector unit's core. -/
def State.unitDrained (s : State) (unit : Nat) : Bool :=
  if unit < 32 then
    let a := s.arr unit
    a.queue.isEmpty && (match a.holder with
      | some c => a.parked c (s.core c).ctx
      | none => true)
  else
    match (s.core (unit - 32)).walk.phase with
    | .running => (s.core (unit - 32)).im.seg.isNone
    | .resume => false
    | .leaseWait _ _ => false
    | .gangStart _ => false
    | _ => true

/-- The context that a unit is bound to now. -/
def State.boundTo (s : State) (unit : Nat) : List (Nat × Nat) :=
  let cs := if unit < 32 then upTo (4 * unit) 4 else [unit - 32]
  (cs.filter (fun c => (s.core c).bound)).map (fun c => (unit, imageKey (s.core c).ctx c))

/-- A unit passes its scan (R352). DESIGN CHOICE (log 44). -/
def State.scanPass (s : State) (unit : Nat) : State :=
  { s with gens := mset s.gens unit (mget 0 s.gens unit + 1), scans := mset s.scans unit (mget 0 s.scans unit + 1),
           usedBy := s.usedBy.filter (fun p => decide (p.1 ≠ unit)) ++ s.boundTo unit,
           healed := if s.fenced.contains unit then unit :: s.healed.filter (fun u => decide (u ≠ unit)) else s.healed }

/-- A unit fails its scan (R354): it is fenced, cause 0x84 is logged, a suspect notice goes to every recipient of a result with stamp k − 1 or k, and every context bound to it since its last
pass takes cause 0x85. -/
def State.scanFail (s : State) (unit : Nat) : State :=
  let d := if unit < 32 then unit / 16 else (unit - 32) / 64
  let k := mget 0 s.gens unit
  let st := errorStatus 13 0 unit
  let s1 : State :=
    { s with fenced := if s.fenced.contains unit then s.fenced else unit :: s.fenced, healed := s.healed.filter (fun u => decide (u ≠ unit)),
             scans := mset s.scans unit (mget 0 s.scans unit + 1) }
  let s2 := s1.postRecord d { seg := 0, addr := 0, tstep := s.tstep, sched := 0, status := st, cmd := 0, cause := 0x84, engine := 13, uidx := 0,
                              seq := 0, cls := 0, ctx := 0, die := d, core := 0, npend := 0, more := 0, waits := false, pend := false }
  let told := (s.dom.stamps.filter (fun p => decide (k ≤ p.2 + 1) && decide (p.2 ≤ k))).map (fun p => p.1)
  let s3 := s2.notice told (fun d => .suspectNotice d s.dom.modid unit (k - 1) k s.tstep)
  ((s.usedBy.filter (fun p => decide (p.1 = unit))).map (fun p => p.2)).foldl (fun s x =>
    s.setPending (x % 128) (x / 128) { cause := 0x85, engine := 13, uidx := 0, status := st, addr := 0, cmd := 0, packet := false, seq := 0 }) s3

/-- ROTATION_SCAN_SLOT (R351): once its slot has begun, the unit is scanned as soon as it is drained; no scan is skipped. -/
def execRotationScanSlot (unit : Nat) (pass : Bool) (s : State) : Host.Outcome State Fault Refusal :=
  if 160 ≤ unit then .fault .noSuchUnit
  else
    event "ROTATION_SCAN_SLOT"
      (if s.scanDue unit && s.unitDrained unit then
         some (if pass then s.scanPass unit else s.scanFail unit)
       else none)

/-- UNIT_RETURN_TO_SERVICE (R355): a fenced unit that has passed a scan returns. -/
def execUnitReturnToService (unit : Nat) (s : State) : Host.Outcome State Fault Refusal :=
  if 160 ≤ unit then .fault .noSuchUnit
  else
    event "UNIT_RETURN_TO_SERVICE"
      (if s.fenced.contains unit && s.healed.contains unit then
         some { s with fenced := s.fenced.filter (fun u => decide (u ≠ unit)), healed := s.healed.filter (fun u => decide (u ≠ unit)) }
       else none)

end Sys2Proof.Machine
end

