-- ==== Sys2Proof/Machine/Timetable.lean ====
section
/-! DEFINITION. The timetable (R360 to R382): the walk, dispatch, leases of segments, switches, and what the management core writes. -/
namespace Sys2Proof.Machine

/-! ## Rows and descriptors (Tables 18-2, 18-3, 18-5) -/

/-- A current bind record. -/
def State.row (s : State) (d i : Nat) : BitVec 256 := mget 0 (s.die d).rows i

/-- Fields of a bind record. -/
def rowCores (r : BitVec 256) : Nat := fld r.toNat 128 64
/-- The budget of a row. -/
def rowBudget (r : BitVec 256) : Nat := fld r.toNat 96 32
/-- The context of a row. -/
def rowCtx (r : BitVec 256) : Nat := fld r.toNat 86 10
/-- The priority of a row. -/
def rowPrio (r : BitVec 256) : Nat := fld r.toNat 83 3
/-- The cores of a row enter it together. -/
def rowGang (r : BitVec 256) : Bool := bit r.toNat 82
/-- A row names a context. -/
def rowKind (r : BitVec 256) : Bool := bit r.toNat 81

/-- A row's lease table entry. -/
def State.rowLease (s : State) (d i : Nat) : RowLease := mget { busy := 0, pend := false, retire := false } (s.die d).leases i

/-- A row's lease table entry changed. -/
def State.modLease (s : State) (d i : Nat) (f : RowLease → RowLease) : State :=
  s.modDie d (fun x => { x with leases := mset x.leases i (f (s.rowLease d i)) })

/-- The stop bit of a core for a context (R363). -/
def State.stopBit (s : State) (ctx c : Nat) : Bool :=
  match s.ctxDesc ctx with
  | some a => bit (s.homeNat (a + 8 + 8 * dieOf c) 8) (c % 64)
  | none => false

/-- The stop bit of a core for a context set. -/
def State.setStop (s : State) (ctx c : Nat) : State :=
  match s.ctxDesc ctx with
  | some a =>
    let p := a + 8 + 8 * dieOf c
    s.homeWrite p (leBytes 8 (s.homeNat p 8 ||| 2 ^ (c % 64)))
  | none => s

/-- The entry launch descriptor of a context, or 0. -/
def State.entryPtr (s : State) (ctx : Nat) : Word :=
  match s.ctxDesc ctx with
  | some a => BitVec.ofNat 64 (s.homeNat (a + 0x20) 8)
  | none => 0

/-- The image that a token in memory stands for: of the last switch-out that wrote the token (R368, R378). -/
def State.imageAt (s : State) (t : Nat) : Image :=
  if t = 0 then Image.init
  else
    match s.images.find? (fun p => decide (p.2.token = t)) with
    | some p => p.2
    | none => mget Image.init s.archive t

/-- The image of a context on a core that does not run it (R368, R378): what the core image in memory holds, be it the core's last switch-out there or
an image that system software has copied to the place whole. -/
def State.imageOf (s : State) (ctx c : Nat) : Image :=
  let own := mfind s.images (imageKey ctx c)
  match s.cimg ctx with
  | none => own.getD Image.init
  | some a =>
    let t := s.imageToken a c
    match own with
    | some im => if im.token = t then im else s.imageAt t
    | none => s.imageAt t

/-! ## What a core has to run next (R111, R363, R365) -/

/-- A context's next segment for a core: one that a trap stopped, the next of a unit of a launch, or the entry launch. -/
inductive NextSeg where
  | again (g : Seg)
  | unit (l : Launch) (u : Nat)
  | entry
  deriving DecidableEq, Repr

/-- The first unit of a launch on a core that has not ended. -/
def Launch.unitOn (l : Launch) (c : Nat) : Option Nat :=
  ((upTo 0 l.units.length).zip l.units).findSome? (fun p => if p.2.core = c ∧ p.2.ended = false then some p.1 else none)

/-- The next segment of a context for a core. -/
def State.nextSeg (s : State) (ctx c : Nat) : Option NextSeg :=
  let co := s.core c
  let held := if co.bound ∧ co.ctx = ctx then co.im.seg else (s.imageOf ctx c).seg
  match held with
  | some g => some (.again g)
  | none =>
    match firstSome (fun l => if l.ctx = ctx then (l.unitOn c).map (fun u => (l, u)) else none) s.launches with
    | some (l, u) => if l.started then some (.unit l u) else none
    | none => if s.entryPtr ctx ≠ 0 ∧ s.entryDone.contains ctx = false then some .entry else none

/-- The header of the next segment of a unit. -/
def Launch.header (l : Launch) (u : Nat) : Word :=
  l.kaddr + BitVec.ofNat 64 (32 * ((l.units[u]?).map (fun x => x.nextSeg)).getD 0)

/-! ## Reads of dispatch (R363, R364) -/

/-- The agent of a core's dispatch. -/
def dispatchAgent (c ctx : Nat) : Agent :=
  { id := 5200 + c, tlb := 5200 + c, ctx := ctx, core := c, wire := false, unit := 0, uidx := 0, engine := 0, wait := .go }

/-- The parts of bytes at an address, translated for dispatch: a failure places no record (R364). -/
def State.dispatchParts (s : State) (ctx : Nat) : List (Nat × Nat) → Except (Nat × Word) (List (Nat × Nat))
  | [] => .ok []
  | (v, n) :: r =>
    let va := BitVec.ofNat 64 v
    if canonical va = false then .error (0x45, va)
    else
      match s.walkPage ctx (s.rootOf ctx) va 0 with
      | .error e => .error (e.cause, va)
      | .ok e =>
        match s.dispatchParts ctx r with
        | .ok ps => .ok ((e.pa va, n) :: ps)
        | .error x => .error x

/-- Bytes read by dispatch; a read or a walk that home agents hold back waits (R321). -/
def State.dispatchRead (s : State) (c ctx : Nat) (va : Word) (n : Nat) : EngR (List Byte) :=
  if (partsOf va n).any (fun p => s.walkHeld (s.rootOf ctx) (BitVec.ofNat 64 p.1)) then .wait s
  else
    match s.dispatchParts ctx (partsOf va n) with
    | .error (cause, v) => .fail cause 0 v s
    | .ok ps => if s.partsHeld none 0 ps then .wait s else s.takeParts (dispatchAgent c ctx) va ps

/-- A segment as dispatch reads it: header, templates of each class, patch streams with their addresses, slabs to claim. -/
structure Loaded where
  hdr : Word
  cost : Nat
  timed : Bool
  lease : Bool
  templates : List (List Template)
  streams : List (Word × List Half)
  claims : List Nat
  deriving DecidableEq, Repr

/-- The reason of Table 18-11 that the header itself gives. -/
def headerReason (h : Nat) : Option Nat :=
  let nalloc := fld h 52 12
  let aptr := fld h 64 64
  if fld h 41 11 ≠ 0 ∨ fld h 33 7 ≠ 0 then some 1
  else if fld h 0 32 = 0 then some 2
  else if 3072 < nalloc ∨ (aptr = 0 ∧ nalloc ≠ 0) then some 3
  else if fld h 192 64 % 16 ≠ 0 ∨ fld h 128 64 % 16 ≠ 0 ∨ aptr % 8 ≠ 0 then some 4
  else none

/-- The slabs an allocation entry claims; none if it fails R217. -/
def Core.allocClaims (co : Core) (ctx e : Nat) : Option (List Nat) :=
  let base := fld e 0 23
  let n := fld e 23 12
  if e / 2 ^ 35 ≠ 0 ∨ n = 0 ∨ 3072 < n ∨ base % 2048 ≠ 0 ∨ 0x5FFFFF < base + 2048 * n - 1 then none
  else
    let ks := upTo (base / 2048) n
    if ks.all (fun k => (co.slab k).kind = .free || (co.slab k).own ctx) then some (ks.filter (fun k => (co.slab k).kind = .free)) else none

/-- The claims of all entries, or the index of the first that fails. -/
def Core.allClaims (co : Core) (ctx : Nat) : Nat → List Nat → Except Nat (List Nat)
  | _, [] => .ok []
  | i, e :: r =>
    match co.allocClaims ctx e with
    | none => .error i
    | some ks =>
      match co.allClaims ctx (i + 1) r with
      | .ok rest => .ok (ks ++ rest)
      | .error j => .error j

/-- Lists of the given lengths, in order. -/
def cutAs {α : Type} : List Nat → List α → List (List α)
  | [], _ => []
  | n :: ns, l => l.take n :: cutAs ns (l.drop n)

/-- Where the streams stand: each stream's address follows the one before it (R90). -/
def streamBases : Word → List Nat → List Word
  | _, [] => []
  | a, n :: ns => a :: streamBases (a + BitVec.ofNat 64 (4 * n)) ns

/-- The segment at a header, read and checked in the order of R364, R217. DEDUCED (log 48). -/
def State.readSegment (s : State) (c ctx : Nat) (hdr : Word) : EngR Loaded :=
  (s.dispatchRead c ctx hdr 32).andThen (fun hb s =>
    let h := leNat hb
    let tptr := BitVec.ofNat 64 (fld h 192 64)
    let pptr := BitVec.ofNat 64 (fld h 128 64)
    match headerReason h with
    | some r => .fail 0xC r 0 s
    | none =>
      (if tptr = 0 then .ok (List.replicate 16 0) s else s.dispatchRead c ctx tptr 16).andThen (fun ib s =>
        (if pptr = 0 then .ok (List.replicate 16 0) s else s.dispatchRead c ctx pptr 16).andThen (fun pb s =>
          let runs := (ib.take 4).map (fun b => b.toNat)
          let counts := (pieces 4 pb).map leNat
          if runs.any (fun n => decide (62 < n)) || (ib.drop 4).any (fun b => b != 0) then .fail 0xC 5 0 s
          else if counts.any (fun n => decide (16384 < n)) then .fail 0xC 6 0 s
          else
            let nalloc := fld h 52 12
            (s.dispatchRead c ctx (BitVec.ofNat 64 (fld h 64 64)) (8 * nalloc)).andThen (fun ab s =>
              match (s.core c).allClaims ctx 0 ((pieces 8 ab).map leNat) with
              | .error i => .fail 0x44 i 0 s
              | .ok claims =>
                (s.dispatchRead c ctx (tptr + 16) (16 * runs.foldl (· + ·) 0)).andThen (fun tb s =>
                  (s.dispatchRead c ctx (pptr + 16) (4 * counts.foldl (· + ·) 0)).andThen (fun wb s =>
                    .ok { hdr := hdr, cost := fld h 0 32, timed := bit h 32, lease := bit h 40, templates := cutAs runs (templatesOf tb),
                          streams := (streamBases (pptr + 16) counts).zip
                            (cutAs counts ((pieces 4 wb).map (fun b => BitVec.ofNat 32 (leNat b)))),
                          claims := claims } s))))))

/-! ## Reports and the start of a segment -/

/-- What dispatch reports to the management core (R363, R364): a class 0 record. -/
def State.report (s : State) (c ctx cause : Nat) (status : Half) (addr seg : Word) : State :=
  s.postRecord (dieOf c) { seg := seg, addr := addr, tstep := s.tstep, sched := 0, status := status, cmd := 0, cause := cause, engine := 0,
                           uidx := 0, seq := 0, cls := 0, ctx := ctx, die := dieOf c, core := c % 64, npend := 0, more := 0,
                           waits := false, pend := false }

/-- A sequencer at the start of a segment (R43, R90, R94): templates from slot 0 up, its patch stream, halted when that is empty. -/
def SeqSt.start (q : SeqSt) (cls : Seq) (ts : List Template) (st : Word × List Half) : SeqSt :=
  let table := ((upTo 0 ts.length).zip ts).foldl (fun m p => mset m p.1 { t := p.2, reason := slotReason cls p.2, loading := false }) q.table
  { q.leave with
    table := table, pc := st.1, base := st.1, buf := st.2, last := none, delay := 0, waiting := none, tried := none, pin := none,
    halted := if st.2.isEmpty then some 0 else none }

/-- A core whose segment is loaded: slabs claimed, sequencers at their first groups, %sched 0. -/
def Core.install (co : Core) (ld : Loaded) (g : Seg) (first : Bool) : Core :=
  let ts (i : Nat) : List Template := ld.templates.getD i []
  let st (i : Nat) : Word × List Half := ld.streams.getD i (0, [])
  let im := co.im
  let co := ld.claims.foldl Core.claimSlab co
  { co with
    im := { im with k := im.k.start .k (ts 0) (st 0), l := im.l.start .l (ts 1) (st 1), c := im.c.start .c (ts 2) (st 2),
                    s := im.s.start .s (ts 3) (st 3), seg := some g, vec := { im.vec with vldNext := 0 }, sched := 0, garrive := if first then 0 else im.garrive },
    ms := { co.ms with hold := none } }

/-- The launch has run nothing on the core. -/
def Launch.freshOn (l : Launch) (c : Nat) : Bool := l.units.all (fun u => decide (u.core ≠ c) || !u.started)

/-- The segment that a unit runs next. -/
def Launch.segFor (l : Launch) (u : Nat) (ld : Loaded) : Seg :=
  let x := (l.units[u]?).getD { core := 0, coords := [], nextSeg := 0, nextTrip := 0, started := false, ended := false, endCyc := 0,
                                triggered := none }
  { num := 0, hdr := ld.hdr, cost := ld.cost, timed := ld.timed, lease := ld.lease, launch := l.id, unit := u, segNo := x.nextSeg, trip := x.nextTrip,
    lvl := tripCoords l.levels x x.nextTrip, lastSeg := decide (l.nseg ≤ x.nextSeg + 1) && decide (l.trips ≤ x.nextTrip + 1),
    overrun := false, lastEnd := 0 }

/-- seg_start (R94): the core runs its segment; before a unit's first segment it acquires at module scope (R244). -/
def State.begin (s : State) (c : Nat) : State :=
  let first : Bool := match (s.core c).im.seg with
    | some g => g.segNo == 0 && g.trip == 0
    | none => false
  (if first then s.acquire c 3 else s).modWalk c (fun w => { w with phase := .running })

/-- The segment that dispatch has made ready begins, or goes on; on a core that enters a gang row, with the other cores of its gang (R366). -/
def State.goOn (s : State) (c : Nat) (again : Bool) : State :=
  if (s.core c).walk.gang then s.modWalk c (fun w => { w with phase := .gangStart again })
  else if again then s.modWalk c (fun w => { w with phase := .resume })
  else s.begin c

/-- A header lease is asked for (R175), unless the segment that goes on has kept it; a lease that the core holds for a context it has left ends. DESIGN CHOICE
(log 37). -/
def State.askLease (s : State) (c : Nat) (again : Bool) : State :=
  (s.modArr (arrOf c) (fun a =>
    let b := if a.parked c (s.core c).ctx then a.endLease c s.cyc else a
    if again && decide (b.holder = some c) then b
    else { b with reqs := b.reqs ++ [{ core := c, prio := (s.core c).walk.prio, header := true }] })).modWalk c
    (fun w => { w with phase := .leaseWait 0 again })

/-- A new segment starts, or asks for its array first. -/
def State.startUnit (s : State) (c : Nat) (l : Launch) (u : Nat) (ld : Loaded) : State :=
  let g := { l.segFor u ld with num := s.serial + 1 }
  let s1 := ({ s with serial := s.serial + 1 }.modCore c (fun co => co.install ld g (l.freshOn c))).modUnit l.id u (fun x => { x with started := true })
  if ld.lease then s1.askLease c false else s1.goOn c false

/-- A segment that a trap stopped goes on, or asks for its array first. -/
def State.startAgain (s : State) (c : Nat) (g : Seg) : State :=
  if g.lease then s.askLease c true else s.goOn c true

/-! ## The entry launch (R363) -/

/-- Every core that the context's rows name has its stop bit set. -/
def State.stopAll (s : State) (ctx : Nat) : State := (s.boundCores ctx 0 ++ s.boundCores ctx 1).foldl (fun s c => s.setStop ctx c) s

/-- The reads of the entry launch: its descriptor and loop table. DEDUCED (log 41). -/
def State.readEntry (s : State) (c ctx : Nat) (p : Word) : EngR (List Byte × List Byte) :=
  if p.toNat % 32 ≠ 0 then .fail 0x40 0 p s
  else
    (s.dispatchRead c ctx p 32).andThen (fun desc s =>
      match launchDesc desc with
      | none => .ok (desc, []) s
      | some d =>
        (s.dispatchRead c ctx d.ltab 8).andThen (fun h s =>
          match loopLevels h with
          | none => .ok (desc, h) s
          | some n => (s.dispatchRead c ctx (d.ltab + 8) (8 * n)).andThen (fun es s => .ok (desc, h ++ es) s)))

/-- The entry launch of a context is accepted, as issued by core 0 of die 0, or fails. -/
def State.entryLaunch (s : State) (c ctx : Nat) : Option State :=
  let p := s.entryPtr ctx
  let fails (cause : Nat) (addr : Word) (s : State) : State := ((s.forget (5200 + c)).report 0 ctx cause 0 addr 0).stopAll ctx
  match s.readEntry c ctx p with
  | .wait s' => if s'.dom = s.dom then none else some s'
  | .stand _ s' => some s'
  | .fail cause _ va s' => some (fails cause va s')
  | .ok (desc, tab) s' =>
    match s'.launchRead ctx desc tab with
    | none => some (fails 0xB p s')
    | some (d, ls) =>
      let s1 := s'.forget (5200 + c)
      some ({ s1 with entryDone := ctx :: s1.entryDone }.accept ctx 0 true d ls desc tab)

/-! ## The walk (R363, R366, R367) -/

/-- A header's lease bit, as far as it can be read. -/
def State.leasing (s : State) (ctx : Nat) (n : NextSeg) (c : Nat) : Bool :=
  match n with
  | .again g => g.lease
  | .entry => false
  | .unit l u =>
    match s.dispatchRead c ctx (l.header u) 32 with
    | .ok bs _ => bit (leNat bs) 40
    | _ => false

/-- The context may be dispatched on the core (R355, R363): its stop bit clear, a next segment, the units it needs not fenced. -/
def State.mayRun (s : State) (ctx c : Nat) : Option NextSeg :=
  if s.stopBit ctx c || (mfind s.removals ctx).isSome || s.fenced.contains (32 + c) then none
  else
    match s.nextSeg ctx c with
    | none => none
    | some n => if s.fenced.contains (arrOf c) && s.leasing ctx n c then none else some n

/-- The row qualifies for the core (R363). -/
def State.qualifies (s : State) (c i : Nat) : Bool :=
  let d := dieOf c
  let r := s.row d i
  rowKind r && !(s.rowLease d i).retire && bit (rowCores r) (c % 64) && (s.mayRun (rowCtx r) c).isSome

/-- The next row that qualifies, from the one behind the present; a core that has never walked begins at row 0 (log 21). -/
def State.nextRow (s : State) (c : Nat) : Option Nat :=
  let t := (s.die (dieOf c)).ttctl.toNat
  let w := (s.core c).walk
  let n := fld t 1 9 + 1
  let first := if (s.core c).bound = false ∧ w.fresh = true then 0 else w.row + 1
  if bit t 0 && decide (s.plat.bootStep = 6) && !s.plat.thermal then (((upTo first n).map (fun i => i % n)).find? (fun i => s.qualifies c i)) else none

/-- The core leaves the row it is in: its busy bit stands until it has drained (R376). -/
def State.leaveRow (s : State) (c : Nat) : State :=
  let co := s.core c
  if co.bound then s.modWalk c (fun w => { w with left := (w.row, co.ctx) :: w.left }) else s

/-- The core switches into a row: its busy bit is set (R376). -/
def State.markBusy (s : State) (c i : Nat) : State :=
  (s.modLease (dieOf c) i (fun l => { l with busy := l.busy ||| BitVec.ofNat 64 (2 ^ (c % 64)) })).modWalk c (fun w =>
    { w with left := w.left.filter (fun p => decide (p.1 ≠ i)) })

/-- The core reaches a row: row pointer, budget, priority. It switches into it, or into a gang row once all its cores have reached it (R366). -/
def State.enterRow (s : State) (c i : Nat) : State :=
  let r := s.row (dieOf c) i
  let s1 := if (s.core c).walk.row = i ∧ (s.core c).bound = true then s else s.leaveRow c
  let s2 := s1.modWalk c (fun w => { w with row := i, budget := rowBudget r, fresh := true, prio := rowPrio r, gang := false })
  if rowGang r then s2 else s2.markBusy c i

/-- The walk advances (R363): to the next row that qualifies, with a switch if its context differs, or to idle. DEDUCED (log 39). -/
def State.advance (s : State) (c : Nat) : State :=
  let co := s.core c
  match s.nextRow c with
  | none =>
    if co.bound then (s.leaveRow c).modWalk c (fun w => { w with phase := .drain (s.cyc + 2048) none, gang := false })
    else s.modWalk c (fun w => { w with phase := .idle, gang := false })
  | some i =>
    let r := s.row (dieOf c) i
    let ph : Phase :=
      if rowGang r then .gangWait i
      else if co.bound ∧ co.ctx = rowCtx r ∧ co.stops.stop = .run then .advance s.cyc
      else if co.bound then .drain (s.cyc + 2048) (some (s.cyc + 4096, rowCtx r))
      else .load (rowCtx r) (s.cyc + 2048)
    (s.enterRow c i).modWalk c (fun w => { w with phase := ph })

/-- A tile of the context is held in the core's array (R370). -/
def State.holdsTile (s : State) (ctx c : Nat) : Bool := (s.arr (arrOf c)).tiles.any (fun p => p.2.held && decide (p.2.owner = ctx))

/-- The declared cost of a next segment; 0 if its header cannot be read. -/
def State.nextCost (s : State) (ctx c : Nat) (n : NextSeg) : Nat :=
  match n with
  | .again g => g.cost
  | .entry => 0
  | .unit l u =>
    match s.dispatchRead c ctx (l.header u) 32 with
    | .ok bs _ => fld (leNat bs) 0 32
    | _ => 0

/-- A segment that cannot be dispatched (R217, R364): reported, and the stop bit set. -/
def State.undispatchable (s : State) (c ctx cause n : Nat) (addr hdr : Word) : State :=
  ((s.forget (5200 + c)).report c ctx cause (BitVec.ofNat 32 n) addr hdr).setStop ctx c

/-- The next segment is the first of a unit, before which the core acquires (R244). -/
def Launch.firstOf (l : Launch) (u : Nat) : Bool :=
  match l.units[u]? with
  | some x => x.nextSeg == 0 && x.nextTrip == 0
  | none => false

/-- The next segment of the context in its row is dispatched: the budget is charged (R363). The acquire before a unit's first segment follows the
core's earlier atomics and releases (R235). -/
def State.dispatchNext (s : State) (c : Nat) (n : NextSeg) (cost : Nat) : Option State :=
  let ctx := (s.core c).ctx
  let charge (s : State) : State := s.modWalk c (fun w => { w with budget := w.budget - cost, fresh := false })
  match n with
  | .entry => s.entryLaunch c ctx
  | .again g => some ((charge s).startAgain c g)
  | .unit l u =>
    if l.firstOf u && !s.ordered c then none
    else
    match s.readSegment c ctx (l.header u) with
    | .wait s' => if s'.dom = s.dom then none else some s'
    | .stand _ s' => some s'
    | .fail cause r va s' => some (s'.undispatchable c ctx cause r va (l.header u))
    | .ok ld s' => some ((charge (s'.forget (5200 + c))).startUnit c l u ld)

/-- No record that holds the core waits to enter the trap queue (R339). -/
def State.recordsSent (s : State) (c : Nat) : Bool :=
  (s.core c).stops.recs.isEmpty && (s.die (dieOf c)).trapWait.all (fun r => !r.waits || decide (r.core ≠ c % 64 ∨ r.die ≠ dieOf c))

/-- A core's dispatch takes its next step (R363, R367). A core that waits at a gang row which no longer qualifies goes on (R363, R376). -/
def State.dispatchStep (s : State) (c : Nat) : Option State :=
  let co := s.core c
  match co.walk.phase with
  | .idle => if (s.nextRow c).isSome then some (s.advance c) else none
  | .running =>
    match co.stops.stop with
    | .stopped _ _ => if s.recordsSent c && (mfind s.removals co.ctx).isNone then some ((s.setStop co.ctx c).advance c) else none
    | _ => none
  | .advance at_ =>
    if s.cyc < at_ ∨ s.scanDue (32 + c) = true ∨ (co.bound ∧ (mfind s.removals co.ctx).isSome) then none
    else if co.bound = false then some (s.advance c)
    else if (s.rowLease (dieOf c) co.walk.row).retire then some (s.advance c)
    else
      match s.mayRun co.ctx c with
      | none => some (s.advance c)
      | some n =>
        let cost := s.nextCost co.ctx c n
        if co.walk.fresh = true ∨ cost ≤ co.walk.budget ∨ s.holdsTile co.ctx c = true then s.dispatchNext c n cost
        else some (s.advance c)
  | .gangWait i => if s.qualifies c i then none else some (s.advance c)
  | _ => none

/-- DISPATCH (R363 to R367). -/
def execDispatch (c : Nat) (s : State) : Host.Outcome State Fault Refusal := coreEvent "DISPATCH" c (s.dispatchStep c)

/-- The first tile transfer that a segment with the array may need (R372): a save, else a restore, as a state. -/
def State.nextTransfer (s : State) (c : Nat) : Option State :=
  let i := arrOf c
  let ctx := (s.core c).ctx
  let tile (n : Nat) : Tile := mget Tile.init (s.arr i).tiles n
  match (upTo 0 16).find? (fun n => (tile n).inuse && (tile n).dirty && decide ((tile n).owner ≠ ctx)) with
  | some n => some (s.saveTile i n)
  | none =>
    ((upTo 0 16).find? (fun n => bit (s.savedMask ctx i) n && (decide ((tile n).owner ≠ ctx) || (tile n).stale s.tstep))).map
      (fun n => s.restoreTile ctx i n)

/-- DISPATCH_LEASE_GRANT (R175, R372): the array is the segment's; once it is idle, the tile transfers, 136 cycles each, and the segment
starts. -/
def execDispatchLeaseGrant (c : Nat) (s : State) : Host.Outcome State Fault Refusal :=
  coreEvent "DISPATCH_LEASE_GRANT" c
    (match (s.core c).walk.phase with
     | .leaseWait at_ again =>
       let a := s.arr (arrOf c)
       if a.holder = some c ∧ a.count = none ∧ a.queue.all (fun x => decide (x.core = c) && !x.det) = true ∧ at_ ≤ s.cyc then
         match s.nextTransfer c with
         | none => some (s.goOn c again)
         | some s' =>
           if at_ = 0 then some (s.modWalk c (fun w => { w with phase := .leaseWait (s.cyc + 136) again }))
           else if (s'.nextTransfer c).isSome then some (s'.modWalk c (fun w => { w with phase := .leaseWait (s.cyc + 136) again }))
           else some (s'.goOn c again)
       else none
     | _ => none)

/-! ## Switches (R368, R369, R379) -/

/-- The conditions of R342: interlocked results have arrived, and no `srel` is under way. -/
def Core.drained (co : Core) : Bool :=
  co.ms.gacc.all (fun g => decide (g.kind = 1) || (decide (g.kind = 3) && g.want.isEmpty)) && co.ms.semAdds.isEmpty

/-- What K stands behind, as the image keeps it: a translation or a read is made afresh. -/
def Hold.kept (h : Option Hold) : Option Hold :=
  match h with
  | some (.walk _ _ _ _ _ _ _) => none
  | some (.pause _) => none
  | some (.response _ _) => none
  | h => h

/-- The commands of a unit that wait for their start in a segment of the context that a trap has stopped. DEDUCED (log 37). -/
def heldCmds (ctx code : Nat) (l : List EngCmd) : List (Nat × EngCmd) :=
  (l.filter (fun e => decide (e.ctx = ctx) && e.timed && !e.det && e.begun.isNone)).map (fun e => (code, e))

/-- A unit's queue without them. -/
def unheld (ctx : Nat) (l : List EngCmd) : List EngCmd := l.filter (fun e => !(decide (e.ctx = ctx) && e.timed && !e.det && e.begun.isNone))

/-- The image of the context that a core runs, as step 2 of a switch writes it. -/
def State.imageOut (s : State) (c : Nat) : Image :=
  let co := s.core c
  let im := co.posted.foldl (fun im p => (match p with
    | .cwp ch n ctx => if ctx = co.ctx then im.delivered ch n else im
    | _ => im)) co.im
  let k := match co.stops.galign with
    | some _ => { im.k with pc := co.stops.gpc, mpos := co.stops.gpos }
    | none => im.k
  let u := co.units
  { im with
    k := k, garrive := if co.stops.galign.isSome then im.garrive - 1 else im.garrive,
    sched := (match co.stops.stop with
      | .stopped x f => if f then x else x + 1
      | _ => im.sched),
    hold := Hold.kept co.ms.hold,
    held := heldCmds co.ctx 0 u.plane ++ heldCmds co.ctx 1 u.renew ++ u.chans.flatMap (fun p => heldCmds co.ctx (p.1 + 2) p.2),
    heldArr := (s.arr (arrOf c)).queue.filter (fun x => decide (x.core = c) && x.b.isNone && !x.det) }

/-- An image written to the core image in memory (R368, R378): the semaphores, %semov, and the token that stands for the rest. -/
def State.writeImage (s : State) (c ctx : Nat) (im : Image) : State :=
  match s.cimg ctx with
  | none => { s with images := mset s.images (imageKey ctx c) { im with token := 0 } }
  | some a =>
    let t := s.serial + 1
    let im2 : Image := { im with token := t }
    let s1 := (s.homeWrite (a + c * 0x40000) ((upTo 0 64).flatMap (fun k => leBytes 2 (mget 0 im.sems k)))).homeWrite (a + c * 0x40000 + 128)
      (leBytes 8 im.semov.toNat ++ leBytes 8 t)
    { s1 with serial := t, images := mset s1.images (imageKey ctx c) im2, archive := mset s1.archive t im2 }

/-- The progress pointers of a context's queues are captured when it no longer runs (R381). -/
def State.captureQueues (s : State) (ctx : Nat) : State :=
  if s.running ctx then s
  else
    (s.queuesOf ctx).foldl (fun s q =>
      s.setQent q { s.qent q with saved := true, prog := BitVec.ofNat 64 (((s.front q).map (fun f => f.ridx)).getD 0) }) s

/-- SWITCH, steps 1 and 2 (R368): the context leaves the core. A lease of a segment that a trap has stopped stands: R173 and R175 do not end it here.
DEDUCED (log 37). -/
def State.switchOut (s : State) (c : Nat) : State :=
  let co := s.core c
  let im := s.imageOut c
  let s1 := (s.release c 3).writeImage c co.ctx im
  let s2 := s1.modArr (arrOf c) (fun a =>
    { a with reqs := a.reqs.filter (fun r => decide (r.core ≠ c)),
             queue := (a.queue.filter (fun x => !(decide (x.core = c) && x.b.isNone && !x.det))).map (fun x =>
               if x.core = c then x.detach co.im.sched s.cyc else x) })
  let s3 := s2.modCore c (fun co =>
    let u := co.units
    { co with bound := false, im := Image.init, ptbase := 0, ring := none,
              units := { u with plane := unheld co.ctx u.plane, renew := unheld co.ctx u.renew,
                                chans := u.chans.map (fun p => (p.1, unheld co.ctx p.2)) },
              ms := { co.ms with hold := none, gacc := co.ms.gacc.filter (fun g => decide (g.kind = 1)) },
              stops := { co.stops with galign := none, replays := 0, stop := .run, frozen := false } })
  s3.captureQueues co.ctx

/-- The spill ring of a context on a core (Table 18-5): base and slab count. -/
def State.ringOf (s : State) (ctx c : Nat) : Nat × Nat :=
  match s.ctxDesc ctx with
  | some a =>
    let w := s.homeNat (a + 0x400 + 8 * c) 8
    (fld w 0 23, fld w 23 12)
  | none => (0, 0)

/-- The ring's slabs may be the context's (R379). -/
def Core.ringFree (co : Core) (ctx base n : Nat) : Bool :=
  decide (base % 2048 = 0) && decide (base + 2048 * n ≤ 0x600000) && (upTo (base / 2048) n).all (fun k =>
    (co.slab k).kind = .free || ((co.slab k).kind = .ring && decide ((co.slab k).owner = ctx)))

/-- A context enters a core (R368, step 3): its image with the semaphores of memory, and what its units are to do. -/
def State.switchIn (s : State) (c ctx : Nat) : State :=
  let im := s.imageOf ctx c
  let r := s.ringOf ctx c
  let a := (s.cimg ctx).getD 0 + c * 0x40000
  let sems := if (s.cimg ctx).isNone then im.sems
    else (upTo 0 64).foldl (fun m k => mput 0 m k (s.homeNat (a + 2 * k) 2)) ([] : Map Nat)
  let semov := if (s.cimg ctx).isNone then im.semov else BitVec.ofNat 64 (s.homeNat (a + 128) 8)
  let root := match s.ctxDesc ctx with
    | some d => BitVec.ofNat 64 (fld (s.homeNat (d + 0x18) 8) 12 40 * 4096)
    | none => 0
  let mine (code : Nat) : List EngCmd := (im.held.filter (fun p => decide (p.1 = code))).map (fun p => p.2)
  let im2 : Image := { im with sems := sems, semov := semov, spcap := 256 * r.2, hold := none, held := [], heldArr := [], token := 0 }
  let s1 := s.modCore c (fun co =>
    let u := co.units
    let chans := (upTo 0 4).foldl (fun m k => if (mine (k + 2)).isEmpty then m else mset m k (mine (k + 2) ++ mget [] m k)) u.chans
    let slabs := if s.entered.contains (imageKey ctx c) then co.slabs
      else (upTo (r.1 / 2048) r.2).foldl (fun m k =>
        mset m k { kind := .ring, owner := ctx, born := true, stamp := s.tstep }) co.slabs
    { co with bound := true, ctx := ctx, ptbase := root, im := im2, ring := some r, slabs := slabs,
              units := { u with plane := mine 0 ++ u.plane, renew := mine 1 ++ u.renew, chans := chans },
              ms := { co.ms with hold := im.hold },
              walk := { co.walk with phase := .advance s.cyc } })
  let s2 := (s1.modArr (arrOf c) (fun x => { x with queue := x.queue ++ im.heldArr })).acquire c 3
  let uses := [(32 + c, imageKey ctx c), (arrOf c, imageKey ctx c)]
  let since := [(32 + c, ctx), (arrOf c, ctx)]
  let s3 : State :=
    { s2 with images := mdel s2.images (imageKey ctx c), usedBy := s2.usedBy ++ uses.filter (fun p => !s2.usedBy.contains p),
              usedCkpt := s2.usedCkpt ++ since.filter (fun p => !s2.usedCkpt.contains p),
              entered := s2.entered ++ [imageKey ctx c].filter (fun k => !s2.entered.contains k) }
  (s3.queuesOf ctx).foldl (fun s q =>
    match s.front q with
    | some f => (s.setQent q { s.qent q with saved := false }).setFront q { f with widx := Nat.max f.widx (s.homeNat f.wpa 8) }
    | none => s) s3

/-- Step 3 of a switch ends (R368, R379). -/
def State.enterCore (s : State) (c ctx : Nat) : State :=
  let r := s.ringOf ctx c
  if (mfind s.removals ctx).isSome then s.modWalk c (fun w => { w with phase := .advance s.cyc, fresh := false, left := (w.row, ctx) :: w.left })
  else if s.entered.contains (imageKey ctx c) || (s.core c).ringFree ctx r.1 r.2 then s.switchIn c ctx
  else ((s.report c ctx 0x44 0 0 0).setStop ctx c).modWalk c (fun w =>
    { w with phase := .advance s.cyc, fresh := false, left := (w.row, ctx) :: w.left })

/-- SWITCH (R368): steps 1 and 2 end, or step 3. -/
def execSwitch (c : Nat) (s : State) : Host.Outcome State Fault Refusal :=
  coreEvent "SWITCH" c
    (match (s.core c).walk.phase with
     | .drain at_ nx =>
       if at_ ≤ s.cyc ∧ (s.core c).drained = true then
         let ph : Phase := match nx with
           | none => .idle
           | some (e, ctx) => .load ctx (Nat.max e (s.cyc + 2048))
         some ((s.switchOut c).modWalk c (fun w => { w with phase := ph, fresh := if nx.isNone then false else w.fresh }))
       else none
     | .load ctx at_ => if at_ ≤ s.cyc then some (s.enterCore c ctx) else none
     | _ => none)

/-- The cores of a gang row that have entered it together, once each of them is ready to begin (R366). -/
def State.gangReady (s : State) (d i : Nat) : List Nat :=
  let mine := (s.cores.filter (fun p => decide (dieOf p.1 = d) && p.2.walk.gang && decide (p.2.walk.row = i))).map (fun p => p.1)
  if mine.all (fun c => match (s.core c).walk.phase with
    | .gangStart _ => true
    | _ => false) then mine else []

/-- GANG_ENTRY (R366): every core of the row's mask has reached it; all begin on one cycle, their switches, tile transfers and header leases included. -/
def execGangEntry (d i : Nat) (s : State) : Host.Outcome State Fault Refusal :=
  if 2 ≤ d ∨ 512 ≤ i then .fault .noSuchUnit
  else
    event "GANG_ENTRY"
      (let r := s.row d i
       let cs := ((upTo 0 64).filter (fun c => bit (rowCores r) c)).map (fun c => 64 * d + c)
       let ctx := rowCtx r
       let stays (c : Nat) : Bool := (s.core c).bound && decide ((s.core c).ctx = ctx) && decide ((s.core c).stops.stop = .run)
       let outs := cs.filter (fun c => (s.core c).bound && !stays c)
       if cs ≠ [] ∧ cs.all (fun c => decide ((s.core c).walk.phase = .gangWait i)) = true ∧ outs.all (fun c => (s.core c).drained) = true then
         let e := s.cyc + (if outs ≠ [] then 4096 else if cs.all stays then 0 else 2048)
         some (cs.foldl (fun s c =>
           let s := s.markBusy c i
           let ph : Phase := if stays c then .advance e else if outs.contains c then .drain (s.cyc + 2048) (some (e, ctx)) else .load ctx e
           s.modWalk c (fun w => { w with phase := ph, gang := true })) s)
       else if s.gangReady d i = [] then none
       else
         some ((s.gangReady d i).foldl (fun s c =>
           let again : Bool := decide ((s.core c).walk.phase = .gangStart true)
           (s.modWalk c (fun w => { w with gang := false })).goOn c again) s))

/-- SEMAPHORE_IMAGE_RELEASE (R369): a release that waits is applied to the running copy or to the image, whichever is current, outside a
switch of the core. DEDUCED (log 40). -/
def execSemaphoreImageRelease (ctx c k : Nat) (s : State) : Host.Outcome State Fault Refusal :=
  coreEvent "SEMAPHORE_IMAGE_RELEASE" c
    (let co := s.core c
     let busy : Bool := match co.walk.phase with
       | .drain _ _ => true
       | .load _ _ => true
       | _ => false
     if s.relQ.contains (ctx, c, k) ∧ busy = false then
       let s1 : State := { s with relQ := s.relQ.erase (ctx, c, k) }
       some (if co.bound ∧ co.ctx = ctx then s1.modIm c (fun im => im.semRelease k 1)
         else
           match s1.cimg ctx with
           | some a => imageSemUpdate s1 a c k 1
           | none => s1)
     else none)

/-- Rows that a core has left and drained from lose its busy bit (R376). -/
def State.clearBusy (s : State) (c : Nat) : State :=
  let co := s.core c
  let has (ctx : Nat) (l : List EngCmd) : Bool := l.any (fun e => decide (e.ctx = ctx))
  let out (ctx : Nat) : Bool :=
    co.bound && decide (co.ctx = ctx) && (match co.walk.phase with
      | .drain _ _ => true
      | .gangWait i => decide (rowCtx (s.row (dieOf c) i) ≠ ctx ∨ co.stops.stop ≠ .run)
      | _ => false)
  let quiet (ctx : Nat) : Bool :=
    !(has ctx co.units.plane || has ctx co.units.renew || co.units.chans.any (fun p => has ctx p.2)) &&
      (s.arr (arrOf c)).queue.all (fun x => decide (x.core ≠ c ∨ x.ctx ≠ ctx))
  let gone := co.walk.left.filter (fun p => !out p.2 && quiet p.2)
  if gone.isEmpty then s
  else
    (gone.foldl (fun s p => s.modLease (dieOf c) p.1 (fun l => { l with busy := l.busy &&& ~~~(BitVec.ofNat 64 (2 ^ (c % 64))) })) s).modWalk c
      (fun w => { w with left := w.left.filter (fun p => !gone.contains p) })

/-! ## What the management core writes (R362, R375, R376, R382) -/

/-- A current bind record (Table 18-2), reserved bits zero; the descriptor it names stays known while the context exists (R376). None that binds a context is
written before boot has ended (R436). -/
def State.setRow (s : State) (d i : Nat) (r : BitVec 256) : State :=
  let v := BitVec.ofNat 256 (r.toNat / 2 ^ 81 * 2 ^ 81)
  if rowKind v && decide (s.plat.bootStep ≠ 6) then s
  else
  let s1 := s.modDie d (fun x => { x with rows := mput 0 x.rows i v })
  if rowKind v then { s1 with descs := mset s1.descs (rowCtx v) (fld v.toNat 192 64) } else s1

/-- A pending bind record. -/
def State.setPendingRow (s : State) (d i : Nat) (r : BitVec 256) : State :=
  s.modDie d (fun x => { x with pending := mput 0 x.pending i (BitVec.ofNat 256 (r.toNat / 2 ^ 81 * 2 ^ 81)) })

/-- ROW_LOAD (R376): a retiring row has become free. -/
def execRowLoad (d i : Nat) (s : State) : Host.Outcome State Fault Refusal :=
  if 2 ≤ d ∨ 512 ≤ i then .fault .noSuchUnit
  else
    event "ROW_LOAD"
      (let s := ((s.cores.map (fun p => p.1)).filter (fun c => decide (dieOf c = d))).foldl State.clearBusy s
       let l := s.rowLease d i
       if l.retire ∧ l.busy = 0 then
         some ((s.setRow d i (if l.pend then mget 0 (s.die d).pending i else 0)).modLease d i
           (fun l => { l with retire := false, pend := false }))
       else none)

/-- A write of TTCTL (R362, R436): reserved bits are not written, and en is not set before boot has ended. DEDUCED (log 39). -/
def State.setTtctl (s : State) (d : Nat) (v : Word) : Option State :=
  if v.getLsbD 0 ∧ s.plat.bootStep ≠ 6 then none else some (s.modDie d (fun x => { x with ttctl := v &&& 0x3FF }))

/-- TTCTL_WRITE (R362, R436). DEDUCED (log 39). -/
def execTtctlWrite (d : Nat) (v : Word) (s : State) : Host.Outcome State Fault Refusal :=
  if 2 ≤ d then .fault .noSuchUnit
  else
    event "TTCTL_WRITE" (s.manage (s.setTtctl d v))

/-- BIND_RECORD_WRITE (R361, R376). -/
def execBindRecordWrite (d i : Nat) (p : Bool) (r : BitVec 256) (s : State) : Host.Outcome State Fault Refusal :=
  if 2 ≤ d ∨ 512 ≤ i then .fault .noSuchUnit
  else .next (if s.managed then (if p then s.setPendingRow d i r else s.setRow d i r) else s)

/-- LEASE_TABLE_WRITE (Table 18-3): retire and pend. -/
def execLeaseTableWrite (d i : Nat) (v : Word) (s : State) : Host.Outcome State Fault Refusal :=
  if 2 ≤ d ∨ 512 ≤ i then .fault .noSuchUnit
  else .next (if s.managed then s.modLease d i (fun l => { l with retire := v.getLsbD 0, pend := v.getLsbD 1 }) else s)

/-- The slabs a SLABCMD names, its core and its context (Table 18-7). -/
def slabcmdFields (d : Nat) (v : Word) : List Nat × Nat × Nat :=
  (upTo (fld v.toNat 22 12) (Nat.min (fld v.toNat 34 12) (3072 - fld v.toNat 22 12)), 64 * d + fld v.toNat 56 6, fld v.toNat 46 10)

/-- A slab that a renew of SLABCMD rewrites (R375). -/
def Core.slabcmdRenews (co : Core) (ctx k ts : Nat) : Bool :=
  let b := co.slab k
  b.kind = .live && decide (b.owner = ctx) && b.born && decide (ts - b.stamp ≤ retention)

/-- A SLABCMD that takes effect: it is written, its error bit as it stood, and it is busy for some cycles. DESIGN CHOICE (log 46). -/
def State.slabcmd (s : State) (d op : Nat) (v : Word) (f : List Nat → Nat → Nat → State → State × Nat × Option Bool) : Option State :=
  if fld v.toNat 62 2 ≠ op then none
  else if s.cyc < (s.die d).slabBusy then some s
  else
    let x := slabcmdFields d v
    let r := f x.1 x.2.1 x.2.2 s
    let old := (s.die d).slabcmd.getLsbD 1
    let w := (v &&& ~~~0x3FFFFF#64) ||| (if r.2.2.getD old then 2 else 0)
    some (r.1.modDie d (fun x => { x with slabcmd := w, slabBusy := s.cyc + r.2.1 }))

/-- What a renew does (R375): of the slabs that are live, the context's, born and not too old, the j-th of its bank is rewritten in 16 cycles, and
stamped on the last of them (R214, R220). -/
def State.slabRenew (s : State) (d : Nat) (v : Word) : Option State :=
  s.slabcmd d 1 v (fun ks c ctx s =>
    let ok := ks.filter (fun k => (s.core c).slabcmdRenews ctx k s.tstep)
    let nth (k : Nat) : Nat := (ok.filter (fun x => decide (x < k ∧ x % 16 = k % 16))).length
    let depth := (upTo 0 16).foldl (fun n b => Nat.max n (ok.filter (fun k => decide (k % 16 = b))).length) 0
    (s.modDie d (fun x => { x with slabRen := x.slabRen ++ ok.map (fun k => (s.cyc + 16 * nth k + 15, c, k, ctx)) }), 16 * depth, none))

/-- What a free does (R375). -/
def State.slabFree (s : State) (d : Nat) (v : Word) : Option State :=
  s.slabcmd d 2 v (fun ks c ctx s =>
    (s.modCore c (fun co => (ks.filter (fun k => (co.slab k).own ctx)).foldl Core.freeSlab co), 0, none))

/-- What a claim does (R375): every slab, or none and err. -/
def State.slabClaim (s : State) (d : Nat) (v : Word) : Option State :=
  s.slabcmd d 3 v (fun ks c ctx s =>
    let co := s.core c
    let ok (k : Nat) : Bool := (co.slab k).kind = .free || ((co.slab k).kind = .live && decide ((co.slab k).owner = ctx))
    if ks.length = fld v.toNat 34 12 ∧ ks.all ok = true then
      (s.modCore c (fun co =>
        { co with slabs := (ks.filter (fun k => (co.slab k).kind = .free)).foldl (fun m k =>
            mset m k { co.slab k with kind := .live, owner := ctx, born := false }) co.slabs }), 0, some false)
    else (s, 0, some true))

/-- SLABCMD_RENEW (R375). -/
def execSlabcmdRenew (d : Nat) (v : Word) (s : State) : Host.Outcome State Fault Refusal :=
  if 2 ≤ d then .fault .noSuchUnit else event "SLABCMD_RENEW" (s.manage (s.slabRenew d v))

/-- SLABCMD_FREE (R375). -/
def execSlabcmdFree (d : Nat) (v : Word) (s : State) : Host.Outcome State Fault Refusal :=
  if 2 ≤ d then .fault .noSuchUnit else event "SLABCMD_FREE" (s.manage (s.slabFree d v))

/-- SLABCMD_CLAIM (R375). -/
def execSlabcmdClaim (d : Nat) (v : Word) (s : State) : Host.Outcome State Fault Refusal :=
  if 2 ≤ d then .fault .noSuchUnit else event "SLABCMD_CLAIM" (s.manage (s.slabClaim d v))

/-- The slabs that a SLABCMD has rewritten on this cycle are stamped, if they are still what it renews (R375). -/
def State.slabsRenewed (s : State) (d : Nat) : State :=
  let due := (s.die d).slabRen.filter (fun x => decide (x.1 ≤ s.cyc))
  if due.isEmpty then s
  else
    (due.filter (fun x => (s.core x.2.1).slabcmdRenews x.2.2.2 x.2.2.1 s.tstep)).foldl (fun s x => s.post x.2.1 (.stamp x.2.2.1 s.tstep))
      (s.modDie d (fun y => { y with slabRen := y.slabRen.filter (fun x => decide (s.cyc < x.1)) }))

/-- TLBCMD is busy (R382): its latency has not passed, or an access that was translated before it has not been performed (R259). -/
def State.tlbcmdBusy (s : State) (d : Nat) : Bool :=
  let x := s.die d
  decide (s.cyc < x.tlbBusy) || (!x.tlbOlds.isEmpty && s.olderAccess (fld x.tlbcmd.toNat 2 10) x.tlbOlds)

/-- A TLBCMD that takes effect (R382): as `tlbinv`, whose latency is a free value within the bound of R259. -/
def State.tlbcmdDo (s : State) (d op : Nat) (v : Word) (va : Option Word) : Option State :=
  if fld v.toNat 62 2 ≠ op then none
  else if s.tlbcmdBusy d then some s
  else
    let ctx := fld v.toNat 2 10
    let l := (s.invalidate ctx va).later 1
    some (l.2.modDie d (fun x =>
      { x with tlbcmd := v &&& 0xC0FFFFFFFFFFFFFC, tlbBusy := s.cyc + 1 + (l.1 - (s.cyc + 1)) % 4095, tlbOlds := s.translated ctx }))

/-- The byte that a TLBCMD names (Table 18-8). -/
def tlbcmdVa (v : Word) : Word := ((BitVec.ofNat 44 (fld v.toNat 12 44)).signExtend 52).setWidth 64 <<< 12

/-- TLBCMD_PAGE (R382). -/
def execTlbcmdPage (d : Nat) (v : Word) (s : State) : Host.Outcome State Fault Refusal :=
  if 2 ≤ d then .fault .noSuchUnit else event "TLBCMD_PAGE" (s.manage (s.tlbcmdDo d 1 v (some (tlbcmdVa v))))

/-- TLBCMD_CONTEXT (R382). -/
def execTlbcmdContext (d : Nat) (v : Word) (s : State) : Host.Outcome State Fault Refusal :=
  if 2 ≤ d then .fault .noSuchUnit else event "TLBCMD_CONTEXT" (s.manage (s.tlbcmdDo d 2 v none))

/-! ## The scheduling block as its words (R360, Table 18-1) -/

/-- A word of the scheduling block: what the management core reads or writes with one access of 8 bytes. -/
inductive BlockWord where
  | row (i w : Nat)
  | pending (i w : Nat)
  | lease (i w : Nat)
  | ttctl
  | slabcmd
  | tlbcmd
  | queue (i w : Nat)
  deriving DecidableEq, Repr

/-- The word at an offset of Table 18-1. -/
def blockWord (off : Nat) : Option BlockWord :=
  if off % 8 ≠ 0 then none
  else if off < 0x4000 then some (.row (off / 32) (off / 8 % 4))
  else if off < 0x8000 then some (.pending ((off - 0x4000) / 32) (off / 8 % 4))
  else if off < 0xA000 then some (.lease ((off - 0x8000) / 16) (off / 8 % 2))
  else if off = 0xA000 then some .ttctl
  else if off = 0xA008 then some .slabcmd
  else if off = 0xA010 then some .tlbcmd
  else if 0x10000 ≤ off ∧ off < 0x14000 then some (.queue ((off - 0x10000) / 64) (off / 8 % 8))
  else none

/-- The progress pointer of a queue as it is read (R381): with the context's pointer captured, bit 63. -/
def State.progRead (s : State) (q : Nat) : Word :=
  let e := s.qent q
  if s.running e.ctx then BitVec.ofNat 64 (((s.front q).map (fun f => f.ridx)).getD 0 % 2 ^ 63)
  else if e.saved then BitVec.ofNat 64 (2 ^ 63 + e.prog.toNat % 2 ^ 63)
  else BitVec.ofNat 64 (((s.front q).map (fun f => f.ridx)).getD 0 % 2 ^ 63)

/-- A word of the scheduling block read (Tables 18-2 to 18-9): reserved bits, and the tail register, read zero. -/
def State.blockRead (s : State) (d : Nat) (b : BlockWord) : Word :=
  match b with
  | .row i w => BitVec.ofNat 64 (fld (s.row d i).toNat (64 * w) 64)
  | .pending i w => BitVec.ofNat 64 (fld (mget 0 (s.die d).pending i).toNat (64 * w) 64)
  | .lease i w =>
    let l := s.rowLease d i
    if w = 1 then l.busy else (if l.pend then 2 else 0) + (if l.retire then 1 else 0)
  | .ttctl => (s.die d).ttctl
  | .slabcmd => (s.die d).slabcmd + (if s.cyc < (s.die d).slabBusy then 1 else 0)
  | .tlbcmd => (s.die d).tlbcmd + (if s.tlbcmdBusy d then 1 else 0)
  | .queue i w =>
    let e := s.qent (256 * d + i)
    if w = 0 then (e.desc &&& ~~~63#64) + (if e.v then 1 else 0)
    else if w = 1 then BitVec.ofNat 64 (e.ctx % 1024)
    else if w = 3 then s.progRead (256 * d + i)
    else 0

/-- A 64-bit word of a record replaced. -/
def setWord256 (r : BitVec 256) (w : Nat) (v : Word) : BitVec 256 :=
  BitVec.ofNat 256 (r.toNat - fld r.toNat (64 * w) 64 * 2 ^ (64 * w) + v.toNat * 2 ^ (64 * w))

/-- A word of the scheduling block written by the management core (R360): a read-only word stays as it is; an op of SLABCMD or TLBCMD that names no
operation only writes the register's fields, and is ignored in TLBCMD where it is reserved. -/
def State.blockWrite (s : State) (d : Nat) (b : BlockWord) (v : Word) : State :=
  match b with
  | .row i w => s.setRow d i (setWord256 (s.row d i) w v)
  | .pending i w => s.setPendingRow d i (setWord256 (mget 0 (s.die d).pending i) w v)
  | .lease i w => if w = 0 then s.modLease d i (fun l => { l with retire := v.getLsbD 0, pend := v.getLsbD 1 }) else s
  | .ttctl => (s.setTtctl d v).getD s
  | .slabcmd =>
    let op := fld v.toNat 62 2
    (if op = 1 then s.slabRenew d v else if op = 2 then s.slabFree d v else if op = 3 then s.slabClaim d v
      else s.slabcmd d 0 v (fun _ _ _ s => (s, 0, none))).getD s
  | .tlbcmd =>
    let op := fld v.toNat 62 2
    if op = 1 then (s.tlbcmdDo d 1 v (some (tlbcmdVa v))).getD s
    else if op = 2 then (s.tlbcmdDo d 2 v none).getD s
    else if op = 0 ∧ s.tlbcmdBusy d = false then s.modDie d (fun x => { x with tlbcmd := v &&& 0xC0FFFFFFFFFFFFFC })
    else s
  | .queue i w =>
    let q := 256 * d + i
    if w = 0 then s.attach q v
    else if w = 1 then s.setQent q { s.qent q with ctx := v.toNat % 1024 }
    else if w = 2 then s.tailWrite q v
    else s

/-- An access of the management core to register and queue space that Table 18-1 names no word for, or of another width, receives an error response. -/
def State.spaceRefuse (s : State) (pa : Nat) : State :=
  s.logError (errDie 0 pa 0x47) { pa := pa, va := 0, tstep := s.tstep, ctx := 0, cause := 0x47, engine := 0, core := 0,
                                  die := Nat.min ((pa - 0xF000000000000) / 0x100000000) 1 }

/-- The die and the word of a scheduling block at an address (R360), for an access of 8 bytes. -/
def spaceWord (pa width : Nat) : Option (Nat × BlockWord) :=
  let d := (pa - 0xF000000000000) / 0x100000000
  if 0xF000000000000 ≤ pa ∧ d < 2 ∧ width = 8 then (blockWord ((pa - 0xF000000000000) % 0x100000000)).map (fun b => (d, b)) else none

/-- A write of the management core to register and queue space (R360). -/
def State.spaceWrite (s : State) (pa width : Nat) (v : Word) : State :=
  match spaceWord pa width with
  | some (d, b) => s.blockWrite d b v
  | none => s.spaceRefuse pa

/-- A read of the management core in register and queue space (R360). -/
def State.spaceRead (s : State) (pa width : Nat) : State :=
  match spaceWord pa width with
  | some (d, b) => s.send (.spaceData pa (some (s.blockRead d b)))
  | none => (s.spaceRefuse pa).send (.spaceData pa none)

/-- A register that has no behaviour of its own, written by the management core; none for a number that names none. Numbers: special
registers 0x2D (of a core), 0x48 (of a die), 0x49 (every hot-row frame is written back and invalidated first, R301), their reserved bits
not written (R4); 0x100 + i, the context of queue table entry i of a die (Table 18-9); 0x200, the context
a function is bound to (unit 16 port + function, R408), and 0x300 + k, the queue its doorbell slot k reaches plus 1; an address of register and queue space
(R360), where `unit` is the width of the access in bytes. -/
def State.writeRegister (s : State) (unit num : Nat) (v : Word) : Option State :=
  if 0xF000000000000 ≤ num ∧ num < 0x10000000000000 then some (s.spaceWrite num unit v)
  else if num = 0x2D then
    if unit < 128 ∧ 160 ≤ v.toNat % 2048 ∧ v.toNat % 2048 ≤ 1024 then some (s.modCore unit (fun co => { co with swthr := v.toNat % 2048 }))
    else none
  else if num = 0x48 then (if unit < 2 then some (s.modDie unit (fun d => { d with skcfg := v &&& 0xFFFFFFFFF })) else none)
  else if num = 0x49 then (if unit = 0 then some (let t := s.giveUp (fun _ => true); { t with hrcfg := v &&& 0xFFF }) else none)
  else if 0x100 ≤ num ∧ num < 0x200 then
    (if unit < 2 then
      let q := 256 * unit + (num - 0x100)
      some (s.setQent q { s.qent q with ctx := v.toNat % 1024 })
    else none)
  else if num = 0x200 then
    (if unit < 34 then
      let b : VfBind := { ctx := v.toNat % 1024, slots := [] }
      some { s with plat := { s.plat with vfs := mset s.plat.vfs unit b } }
    else none)
  else if 0x300 ≤ num ∧ num < 0x340 then
    match mfind s.plat.vfs unit with
    | some b =>
      let b2 : VfBind := { b with slots := if v = 0 then mdel b.slots (num - 0x300) else mset b.slots (num - 0x300) (v.toNat - 1) }
      some { s with plat := { s.plat with vfs := mset s.plat.vfs unit b2 } }
    | none => none
  else none

/-- REGISTER_WRITE (R67, R225, R360). -/
def execRegisterWrite (unit num : Nat) (v : Word) (s : State) : Host.Outcome State Fault Refusal :=
  event "REGISTER_WRITE" (s.manage (s.writeRegister unit num v))

end Sys2Proof.Machine
end

