-- ==== Sys2Proof/Machine/Domain.lean ====
section
/-! DEFINITION. The load-store domain and the deterministic group (R389 to R399), whole-memory checkpoints (R405). -/
namespace Sys2Proof.Machine

/-! ## Headers (Table 20-3) -/

/-- Fields of a domain message's header. -/
def hOp (h : BitVec 384) : Nat := fld h.toNat 0 4
/-- pseq. -/
def hPseq (h : BitVec 384) : Nat := fld h.toNat 32 32
/-- The source module. -/
def hSrc (h : BitVec 384) : Nat := fld h.toNat 96 16
/-- The target module. -/
def hDst (h : BitVec 384) : Nat := fld h.toNat 80 16
/-- The context tag. -/
def hCtx (h : BitVec 384) : Nat := fld h.toNat 70 10
/-- The bytes of data. -/
def hLen (h : BitVec 384) : Nat := fld h.toNat 115 13
/-- The address in the target's own map. -/
def hPa (h : BitVec 384) : Nat := fld h.toNat 192 64
/-- The cause of a response. -/
def hCause (h : BitVec 384) : Nat := fld h.toNat 16 8
/-- The operand of an atomic, or in a response its old value. -/
def hVal (h : BitVec 384) : Nat := fld h.toNat 256 64
/-- The bytes of an atomic's operand. -/
def hSize (h : BitVec 384) : Nat := if fld h.toNat 65 2 = 2 then 4 else 8

/-- The header breaks Table 20-3 (R395): reserved bits, op, lengths, or fields that its op does not use. -/
def hMalformed (h : BitVec 384) : Bool :=
  let n := h.toNat
  let op := hOp h
  !([1, 2, 3, 9, 10, 11, 12].contains op) || decide (fld n 5 3 ≠ 0) || decide (fld n 24 8 ≠ 0) || bit n 64 || decide (fld n 112 3 ≠ 0) ||
    decide (4096 < hLen h) || decide (2 ^ 42 ≤ hPa h) || decide (4 < fld n 67 3) ||
    (if op = 3 then
      !(decide (0x54 ≤ fld n 8 8) && decide (fld n 8 8 ≤ 0x5B)) || decide (fld n 65 2 < 2) || decide (hPa h % hSize h ≠ 0) ||
        (bit n 4 && decide (fld n 8 8 ≠ 0x55 ∧ fld n 8 8 ≠ 0x56)) || (decide (fld n 8 8 ≠ 0x58) && decide (fld n 320 64 ≠ 0))
    else decide (fld n 8 8 ≠ 0) || decide (fld n 65 2 ≠ 0) || bit n 4 || decide (fld n 320 64 ≠ 0)) ||
    (decide (op < 9) && decide (hCause h ≠ 0)) || (decide (op ≠ 3 ∧ op ≠ 11) && decide (fld n 160 32 ≠ 0))

/-! ## The target (R395, R396, R398, R399) -/

/-- What the target keeps for a source module. -/
def State.peer (s : State) (m : Nat) : DPeer := mget { next := 1, skipped := [], waiting := [], ids := [], refused := [] } s.dom.peers m

/-- What it keeps, changed. -/
def State.setPeer (s : State) (m : Nat) (p : DPeer) : State := { s with dom := { s.dom with peers := mset s.dom.peers m p } }

/-- The refusal of an access by the target's own map (R389). -/
def State.targetRefuses (s : State) (pa n : Nat) : Bool :=
  decide (s.paKind pa ≠ .home) || decide (s.paKind (pa + Nat.max n 1 - 1) ≠ .home)

/-- A response to a request, with its data. -/
def State.respond (s : State) (h : BitVec 384) (op cause : Nat) (val : Word) (rid : Nat) (data : List Byte) : State :=
  s.send (.domain (domainHdr op 0 0 0 0 (hCtx h) s.dom.modid (hSrc h) data.length (s.sgen % 2 ^ 32) rid 0 cause (hPseq h) val 0) data)

/-- A request that ends in an error response: logged at the target (R345) and answered with the cause. -/
def State.errorRequest (s : State) (h : BitVec 384) (cause : Nat) : State :=
  let s1 := s.logError (homeDie (hPa h)) { pa := hPa h, va := 0, tstep := s.tstep, ctx := hCtx h, cause := cause, engine := 10, core := 0,
                                           die := homeDie (hPa h) }
  s1.respond h (if hOp h = 1 then 9 else if hOp h = 2 then 10 else 11) cause 0 0 (if hOp h = 1 then List.replicate (hLen h) 0 else [])

/-- A refused request (R389). -/
def State.refuseRequest (s : State) (h : BitVec 384) : State := s.errorRequest h 0x47

/-- A read at its home, with the value current now. -/
def State.serveRead (s : State) (h : BitVec 384) : State :=
  if s.targetRefuses (hPa h) (hLen h) then s.refuseRequest h
  else if (firstBad s.bad (hPa h) (hLen h)).isSome then s.errorRequest h 0x83
  else s.respond h 9 0 0 0 (s.homeBytes (hPa h) (hLen h))

/-- The identifiers kept once one more is performed (R398): the oldest leaves only for want of room, and not before 1 ms. -/
def keepIds (cyc : Nat) (l : List (Nat × Word × Nat)) (x : Nat × Word × Nat) : List (Nat × Word × Nat) :=
  match l.getLast? with
  | some o => if 4096 ≤ l.length ∧ o.2.2 + oneMs ≤ cyc then x :: l.dropLast else x :: l
  | none => [x]

/-- An atomic at its home, performed once (R398). -/
def State.serveAtomic (s : State) (h : BitVec 384) : State :=
  let m := hSrc h
  let rid := fld h.toNat 160 32
  match (s.peer m).ids.find? (fun x => decide (x.1 = rid)) with
  | some x => s.respond h 11 0 x.2.1 rid []
  | none =>
    let n := hSize h
    if s.targetRefuses (hPa h) n then s.refuseRequest h
    else if (firstBad s.bad (hPa h) n).isSome then s.errorRequest h 0x83
    else
      let old := s.homeNat (hPa h) n
      let s1 := match atomicNew (fld h.toNat 8 8) (fld h.toNat 4 1) (8 * n) old (hVal h) (fld h.toNat 320 64) with
        | some v => s.homeWrite (hPa h) (leBytes n v)
        | none => s
      let p := s1.peer m
      (s1.setPeer m { p with ids := keepIds s.cyc p.ids (rid, BitVec.ofNat 64 old, s.cyc) }).respond h 11 0 (BitVec.ofNat 64 old) rid []

/-- A request performed at its home. -/
def State.serve (s : State) (h : BitVec 384) (data : List Byte) : State :=
  match hOp h with
  | 1 => s.serveRead h
  | 2 =>
    if s.targetRefuses (hPa h) data.length then
      let p := s.peer (hSrc h)
      (s.setPeer (hSrc h) { p with refused := hPseq h :: p.refused }).refuseRequest h
    else (s.homeWrite (hPa h) data).respond h 10 0 0 0 []
  | _ => s.serveAtomic h

/-- A sequence number is ahead of another (modulo 2^32). -/
def ahead (a b : Nat) : Bool := let d := (a + 2 ^ 32 - b) % 2 ^ 32; decide (0 < d) && decide (d < 2 ^ 31)

/-- Home agents hold back a request (R321); one that is refused, or an atomic that has been performed, is not. -/
def State.requestHeld (s : State) (h : BitVec 384) (data : List Byte) : Bool :=
  let n := if hOp h = 1 then hLen h else if hOp h = 2 then data.length else hSize h
  !s.targetRefuses (hPa h) n && s.extentBlocked (hPa h) n (decide (hOp h ≠ 1)) &&
    !(decide (hOp h = 3) && (s.peer (hSrc h)).ids.any (fun x => decide (x.1 = fld h.toNat 160 32)))

/-- Requests of a pair that wait are performed as far as their order allows, and no near-bank command holds one back. -/
def State.drainPeer (s : State) (m : Nat) : Nat → State
  | 0 => s
  | n + 1 =>
    let p := s.peer m
    if p.skipped.contains p.next then (s.setPeer m { p with next := (p.next + 1) % 2 ^ 32 }).drainPeer m n
    else
      match p.waiting.find? (fun x => decide (hPseq x.1 = p.next)) with
      | some x =>
        if s.requestHeld x.1 x.2 then s
        else ((s.setPeer m { p with next := (p.next + 1) % 2 ^ 32, waiting := p.waiting.erase x }).serve x.1 x.2).drainPeer m n
      | none => s

/-- A malformed message is discarded and logged with cause 0x63 (R395), in the error log of die 0. DESIGN CHOICE (log 50). -/
def State.logMalformed (s : State) : State :=
  s.logError 0 { pa := 0, va := 0, tstep := s.tstep, ctx := 0, cause := 0x63, engine := 10, core := 0, die := 0 }

/-- A response with this op that this module cannot take: malformed, or not for it. -/
def State.badResponse (s : State) (h : BitVec 384) (op : Nat) : Bool := hMalformed h || decide (hOp h ≠ op) || decide (hDst h ≠ s.dom.modid)

/-- A request arrives (R395): in its turn, ahead of its turn, or again. DEDUCED (log 50). -/
def State.arrive (s : State) (h : BitVec 384) (data : List Byte) (op : Nat) : State :=
  let m := hSrc h
  let p := s.peer m
  if hMalformed h || decide (hOp h ≠ op) || decide (hDst h ≠ s.dom.modid) || (decide (op = 2) && decide (data.length ≠ hLen h)) then
    s.logMalformed
  else if hPseq h = p.next ∧ s.requestHeld h data = false then
    ((s.setPeer m { p with next := (p.next + 1) % 2 ^ 32 }).serve h data).drainPeer m (p.waiting.length + p.skipped.length + 1)
  else if hPseq h = p.next ∨ ahead (hPseq h) p.next = true then
    if p.waiting.any (fun x => hPseq x.1 == hPseq h) || p.skipped.contains (hPseq h) then s
    else s.setPeer m { p with waiting := p.waiting ++ [(h, data)] }
  else if p.skipped.contains (hPseq h) then s
  else if op = 2 then s.respond h 10 (if p.refused.contains (hPseq h) then 0x47 else 0) 0 0 []
  else s.serve h data

/-- Requests that a near-bank command held back are performed once it has completed (R321). -/
def State.drainHeld (s : State) : State :=
  s.dom.peers.foldl (fun s p =>
    if p.2.waiting.any (fun x => decide (hPseq x.1 = p.2.next)) then s.drainPeer p.1 (p.2.waiting.length + p.2.skipped.length + 1) else s) s

/-- The module takes messages of the domain: it is a member, and neither in recovery nor shut down (R389, R436, R441). Otherwise they have no effect here. -/
def State.inDomain (s : State) : Bool := s.dom.members.contains s.dom.modid && !s.plat.thermal && !s.plat.recovery

/-- DOMAIN_READ_REQUEST (R396). -/
def execDomainReadRequest (h : BitVec 384) (s : State) : Host.Outcome State Fault Refusal :=
  .next (if s.inDomain then s.arrive h [] 1 else s)

/-- DOMAIN_WRITE_REQUEST (R396): a module-scope release of the one write. -/
def execDomainWriteRequest (h : BitVec 384) (bs : List Byte) (s : State) : Host.Outcome State Fault Refusal :=
  .next (if s.inDomain then s.arrive h bs 2 else s)

/-- DOMAIN_ATOMIC_REQUEST (R398). -/
def execDomainAtomicRequest (h : BitVec 384) (s : State) : Host.Outcome State Fault Refusal :=
  .next (if s.inDomain then s.arrive h [] 3 else s)

/-- DOMAIN_SKIP (R399): the sequence number is marked if it has not been performed, and the skip is acknowledged. -/
def execDomainSkip (h : BitVec 384) (s : State) : Host.Outcome State Fault Refusal :=
  .next
    (if s.inDomain then
      let m := hSrc h
      let p := s.peer m
      if hMalformed h || decide (hOp h ≠ 12) || decide (hDst h ≠ s.dom.modid) then
          s.logMalformed
        else
          let p2 : DPeer :=
            if (hPseq h = p.next ∨ ahead (hPseq h) p.next = true) ∧ p.skipped.contains (hPseq h) = false then
              { p with skipped := hPseq h :: p.skipped, waiting := p.waiting.filter (fun x => hPseq x.1 != hPseq h) }
            else p
          ((s.setPeer m p2).drainPeer m (p2.waiting.length + p2.skipped.length + 1)).respond h 10 0 0 0 []
    else s)

/-! ## The source (R395, R397, R399) -/

/-- The request that a response answers. -/
def State.asked (s : State) (h : BitVec 384) (ops : List Nat) : Option DReq :=
  s.dom.reqs.find? (fun r => decide (r.target = hSrc h) && decide (r.pseq = hPseq h) && (ops.contains (hOp r.hdr) || r.skip))

/-- A request is no longer outstanding. -/
def State.dropReq (s : State) (r : DReq) : State := { s with dom := { s.dom with reqs := s.dom.reqs.erase r } }

/-- An engine is answered. -/
def State.answered (s : State) (r : DReq) (bs : List Byte) (cause : Nat) : State :=
  { s with dom := { s.dom with answers := s.dom.answers ++ [{ agent := r.core - 128, pa := r.acc, bytes := bs, cause := cause }] } }

/-- What K still waits for of an answered request: the bytes of its access among the data, `lo` being the first one's place in its line. -/
def GAcc.answered (g : GAcc) (r : DReq) (lo : Nat) (bs : List Byte) (cause : Nat) : GAcc :=
  let mine := g.want.filter (fun w => decide (w.1 = r.target) && decide (w.2.1 = r.pseq))
  if mine.isEmpty then g
  else
    { g with
      want := g.want.filter (fun w => !(decide (w.1 = r.target) && decide (w.2.1 = r.pseq))),
      raw := if cause ≠ 0 then g.raw
        else mine.foldl (fun v w => v + leNat ((bs.drop ((g.va.toNat + w.2.2.1) % 128 - lo)).take w.2.2.2) * 256 ^ w.2.2.1) g.raw,
      err := if cause ≠ 0 ∧ g.err = none then some cause else g.err }

/-- Data of a read reach every access of its core that waits for them. A line read in the present phase is held until the next acquire, where the core has not
written since (R236), and one of cacheable pages in the L2 (R396), where a read of it sent earlier no longer counts. -/
def State.readData (s : State) (r : DReq) (bs : List Byte) (cause : Nat) : State :=
  if 128 ≤ r.core then s.answered r bs cause
  else
    let c := r.core
    let pa := windowBase r.target + hPa r.hdr
    let line := (pa, r.target, r.pseq)
    let ms := (s.core c).ms
    let held := ms.lines.contains line && decide (cause = 0)
    let s0 := if r.fills && decide (cause = 0) && ms.gacc.any (fun g => decide (g.id = r.acc) && g.cached) then
        (s.l2Fill pa bs).l2Bar (fun x => decide (x.target = r.target) && ahead r.pseq x.pseq) pa bs.length
      else s
    s0.modMs c (fun m =>
      (let m1 := { m with lines := m.lines.filter (fun x => decide (x ≠ line)),
                          gacc := m.gacc.map (fun (g : GAcc) => g.answered r (hPa r.hdr % 128) bs cause) }
       if held then m1.holdBytes pa bs.length (leNat bs) else m1).unheld)

/-- DOMAIN_READ_RESPONSE (R395): an answer for which nothing waits any more has no effect. DEDUCED (log 50). -/
def execDomainReadResponse (h : BitVec 384) (bs : List Byte) (s : State) : Host.Outcome State Fault Refusal :=
  .next
    (if s.badResponse h 9 then s.logMalformed
    else
      match s.asked h [1] with
      | some r => if r.skip then s else (s.dropReq r).readData r bs (hCause h)
      | none => s)

/-- A write of a request is acknowledged, or refused (R345, R346). -/
def State.writeDone (s : State) (r : DReq) (cause : Nat) : State :=
  if cause = 0 then s
  else if 128 ≤ r.core then s.answered r [] cause
  else
    let ctx := hCtx r.hdr
    if cause = 0xA1 then s.accessError r.core (windowBase r.target + hPa r.hdr) r.va ctx cause 1 r.origin
    else
      s.setPending r.core ctx { cause := cause, engine := 0, uidx := 0, status := impStatus 1 r.origin, addr := r.va, cmd := r.origin,
                                packet := false, seq := 0 }

/-- DOMAIN_WRITE_ACK (R395): a write, or a skip, is acknowledged. -/
def execDomainWriteAck (h : BitVec 384) (s : State) : Host.Outcome State Fault Refusal :=
  .next
    (if s.badResponse h 10 then s.logMalformed
    else
      match s.asked h [2] with
      | some r => if r.skip then s.dropReq r else (s.dropReq r).writeDone r (hCause h)
      | none => s)

/-- K's later loads find the value an atomic of the domain left, where nothing later stands (R236, R243). -/
def State.holdPost (s : State) (r : DReq) (v : Nat) : State :=
  let h := r.hdr.toNat
  let n := hSize r.hdr
  let pa := windowBase r.target + hPa r.hdr
  let post := (atomicNew (fld h 8 8) (fld h 4 1) (8 * n) (v % 256 ^ n) (hVal r.hdr) (fld h 320 64)).getD (v % 256 ^ n)
  s.modMs r.core (fun m =>
    let hid := ((m.gacc.find? (fun g => decide (g.id = r.acc))).map (fun g => g.hid)).getD []
    { m with remote := (((upTo pa n).zip (leBytes n post)).filter (fun x => !hid.contains x.1)).foldl (fun l x => mset l x.1 x.2) m.remote })

/-- The old value of an atomic reaches its access, and K's next atomics go on (R243). -/
def State.atomicData (s : State) (r : DReq) (v : Word) (cause : Nat) : State :=
  if 128 ≤ r.core then s.answered r (leBytes 8 v.toNat) cause
  else
    ((if cause = 0 then s.holdPost r v.toNat else s).modAcc r.core r.acc (fun g =>
      { g with want := [], raw := if cause = 0 then v.toNat % 256 ^ g.nb else 0, err := if cause = 0 then none else some cause })).drainAtomics
      r.core 17

/-- DOMAIN_ATOMIC_RESPONSE (R398). -/
def execDomainAtomicResponse (h : BitVec 384) (s : State) : Host.Outcome State Fault Refusal :=
  .next
    (if s.badResponse h 11 then s.logMalformed
    else
      match s.asked h [3] with
      | some r => if r.skip then s else (s.dropReq r).atomicData r (BitVec.ofNat 64 (hVal h)) (hCause h)
      | none => s)

/-- 64 µs of cycles (R2, R399). -/
def resendAfter : Nat := 192000

/-- The skip message of a request (R399). -/
def skipHdr (r : DReq) : BitVec 384 :=
  domainHdr 12 0 0 0 0 (hCtx r.hdr) (hSrc r.hdr) r.target 0 (fld r.hdr.toNat 128 32) 0 0 0 r.pseq 0 0

/-- A request unanswered for 64 µs is sent again, up to 11 times, and then ended with cause 0xA1 and skipped (R399). -/
def State.resend (s : State) (r : DReq) : State :=
  let put (x : DReq) (s : State) : State := { s with dom := { s.dom with reqs := s.dom.reqs.map (fun y => if y = r then x else y) } }
  if r.skip then (put { r with sentAt := s.cyc } s).send (.domain (skipHdr r) [])
  else if r.tries < 12 then (put { r with tries := r.tries + 1, sentAt := s.cyc } s).send (.domain r.hdr r.data)
  else
    let s1 := (put { r with skip := true, sentAt := s.cyc } s).send (.domain (skipHdr r) [])
    match hOp r.hdr with
    | 1 => s1.readData r [] 0xA1
    | 2 => s1.writeDone r 0xA1
    | _ => s1.atomicData r 0 0xA1

/-- DOMAIN_RESEND_TIMEOUT (R399). -/
def execDomainResendTimeout (m n : Nat) (s : State) : Host.Outcome State Fault Refusal :=
  event "DOMAIN_RESEND_TIMEOUT"
    ((s.dom.reqs.find? (fun r => decide (r.target = m) && decide (r.pseq = n) && decide (r.sentAt + resendAfter ≤ s.cyc))).map
      (fun r => s.resend r))

/-! ## Membership (R389 to R392) -/

/-- Contexts that some row names. -/
def State.boundContexts (s : State) : List Nat :=
  nubBy (fun a b => a == b) (s.dies.flatMap (fun p => (p.2.rows.filter (fun r => rowKind r.2)).map (fun r => rowCtx r.2)))

/-- No context is bound to any row, and none runs. -/
def State.unbound (s : State) : Bool := s.boundContexts.isEmpty && s.cores.all (fun p => !p.2.bound)

/-- DOMAIN_MEMBERSHIP_CHANGE (R389). -/
def execDomainMembershipChange (m : Nat) (ms : List Nat) (s : State) : Host.Outcome State Fault Refusal :=
  event "DOMAIN_MEMBERSHIP_CHANGE"
    (s.manage (if s.unbound && decide (m < 64) && decide (ms.length ≤ 64) && ms.all (fun x => decide (x < 64)) && decide (ms.Nodup) then
      some { s with dom := { s.dom with modid := if ms.contains m then m else 0, members := if ms.contains m then ms else [] } }
    else none))

/-- The cycle a group's counters are set to (R391). -/
def formationCycle (largest : Nat) : Nat := ceilDiv largest 256 * 256 + 256 * 64

/-- %cyc is set forward: what was to come so many cycles later still does. -/
def State.jump (s : State) (cyc : Nat) (dom : Domain) : State :=
  let f (t : Nat) : Nat := t + (cyc - s.cyc)
  { s with cyc := cyc, inputs := s.inputs.map (fun x => (f x.1, x.2)),
           dom := { dom with inbox := dom.inbox.map (fun x => (f x.1, x.2)), reqs := dom.reqs.map (fun r => { r with sentAt := f r.sentAt }),
                             sent := dom.sent.map (fun x => (x.1, f x.2)),
                             peers := dom.peers.map (fun p => (p.1, { p.2 with ids := p.2.ids.map (fun x => (x.1, x.2.1, f x.2.2)) })) },
           jrnl := { s.jrnl with ackAt := f s.jrnl.ackAt, queue := s.jrnl.queue.map (fun t => { t with at_ := f t.at_ }) } }

/-- GROUP_FORMATION (R391): %dgrp is written, its rsv bits zero (R4), and %cyc aligned; `largest` is the largest %cyc among the members. -/
def execGroupFormation (g : Word) (largest : Nat) (s : State) : Host.Outcome State Fault Refusal :=
  event "GROUP_FORMATION"
    (let n := fld g.toNat 16 8
     if !s.managed then some s
     else if s.unbound && bit g.toNat 0 && decide (1 ≤ n) && decide (n ≤ 64) &&
         decide (fld g.toNat 8 8 < n) && s.dom.members.contains s.dom.modid && s.dom.members.contains (fld g.toNat 24 16) &&
         decide (n ≤ s.dom.members.length) then
       some (s.jump (formationCycle (Nat.max largest s.cyc)) { s.dom with dgrp := g &&& 0xFFFFFFFF01#64 })
     else none)

/-- An imprecise error in every context of the group, on the lowest core bound to it. -/
def State.groupError (s : State) (cause : Nat) : State :=
  s.boundContexts.foldl (fun s ctx =>
    match s.boundCores ctx 0 ++ s.boundCores ctx 1 with
    | c :: _ =>
      s.raiseError c ctx cause 10 0
    | [] => s) s

/-- The name of a member in messages of collectives once another has left: ranks above it close up, and what the one that left has contributed
keeps a name of its own. -/
def rankAfter (left r : Nat) : Nat := if r = left then 1000 + left else if left < r ∧ r < 1000 then r - 1 else r

/-- The contexts that members contribute to a collective of. -/
def Domain.contexts (d : Domain) : List Nat :=
  d.inbox.foldl (fun l m =>
    match m.2 with
    | .contribution _ c _ _ _ _ _ => if l.contains c then l else l ++ [c]
    | _ => l) []

/-- How many of a member's contributions belong to collectives of a context that are not over. -/
def Domain.pendingOf (d : Domain) (ctx r : Nat) : Nat :=
  (d.inbox.filter (fun m =>
    match m.2 with
    | .contribution r' c _ _ _ _ _ => decide (r' = r) && decide (c = ctx)
    | _ => false)).length - d.owed.count (ctx, r)

/-- The collectives of a context, by how many come before them, that another member has contributed to and the one that leaves has not. -/
def Domain.leftOut (d : Domain) (left ctx : Nat) : List Nat :=
  let most := (upTo 0 64).foldl (fun n r => if r = left then n else Nat.max n (d.pendingOf ctx r)) 0
  upTo (d.pendingOf ctx left) (most - d.pendingOf ctx left)

/-- Collectives when another member leaves (R404): those it has not contributed to fail, and the others go on. -/
def State.collectiveLeave (s : State) (left : Nat) : State :=
  let came (ctx : Nat) : Bool := decide (0 < s.dom.pendingOf ctx left)
  let doomed := s.dom.contexts.flatMap (fun c => (s.dom.leftOut left c).map (fun k => (c, k)))
  let inbox := s.dom.inbox.map (fun m =>
    match m.2 with
    | .contribution r c num n e fmt vals => (m.1, PeerMsg.contribution (rankAfter left r) c num n e fmt vals)
    | _ => m)
  { s with
    works := s.works.map (fun p =>
      let x := p.2
      if x.pkt.toNat % 256 = 0x51 ∧ x.stage = .taken ∧ x.pos.headD 0 = 1 then
        let cause := if x.cause = 0 ∧ (x.pos.drop 1).contains left ∧ came x.ctx = false then 0xA3 else x.cause
        (p.1, { x with pos := 1 :: (x.pos.drop 1).map (rankAfter left), cause := cause })
      else p),
    dom := { s.dom with inbox := inbox, doomed := s.dom.doomed ++ doomed.filter (fun p => !s.dom.doomed.contains p), owed := s.dom.owed.map (fun o => (o.1, rankAfter left o.2)) } }

/-- A member leaves (R392): this one's %dgrp is cleared; for another's, the ranks above it close up and the leader is named. DEDUCED (log 49). -/
def State.leaveGroup (s : State) (rank lead : Nat) : State :=
  let g := s.dom.dgrp.toNat
  let me := fld g 8 8
  let n := fld g 16 8
  let v : Nat := if rank = me ∨ n ≤ 1 then 0 else 1 + (if rank < me then me - 1 else me) * 2 ^ 8 + (n - 1) * 2 ^ 16 + lead * 2 ^ 24
  let s1 := if rank = me then s else s.collectiveLeave rank
  { s1 with dom := { s1.dom with dgrp := BitVec.ofNat 64 v } }.groupError 0xA4

/-- LINK_RETRAIN (R392): a phase error of up to 4 cycles is removed within single periods, which nothing counts; above, the member leaves. -/
def execLinkRetrain (phase : Nat) (s : State) : Host.Outcome State Fault Refusal :=
  .next (if bit s.dom.dgrp.toNat 0 ∧ 4 < phase then s.leaveGroup (fld s.dom.dgrp.toNat 8 8) 0 else s)

/-- GROUP_LEAVE (R392): the member of this rank leaves; `lead` is the %modid of the lowest remaining rank. -/
def execGroupLeave (rank lead : Nat) (s : State) : Host.Outcome State Fault Refusal :=
  event "GROUP_LEAVE"
    (if bit s.dom.dgrp.toNat 0 ∧ rank < fld s.dom.dgrp.toNat 16 8 ∧ lead < 64 then some (s.leaveGroup rank lead) else none)

/-! ## Launches with M levels (R393) -/

/-- A launch is refused: nothing starts, and the launching K raises cause 0xA5. -/
def State.refuseLaunch (s : State) (l : Launch) : State :=
  let s1 : State := { s with launches := s.launches.filter (fun x => decide (x.id ≠ l.id)) }
  match l.origin with
  | some _ => s1
  | none =>
    l.remote.foldl (fun s r => s.send (.launchRefused r l.id))
      (s1.raiseError l.core l.ctx 0xA5 0 0)

/-- What a member does with a launch that another sends: accepted for time-step a + 16, or refused when the group has changed since. -/
def State.takeLaunch (s : State) (from_ n ctx ts : Nat) (grp : Word) (desc tab : List Byte) : State :=
  match s.launchRead ctx desc tab with
  | some (d, ls) =>
    if bit s.dom.dgrp.toNat 0 = true ∧ groupId s.dom.dgrp = grp ∧ from_ < fld s.dom.dgrp.toNat 16 8 ∧ s.tstep < ts + 16 then
      let l : Launch :=
        { id := s.serial + 1, ctx := ctx, core := 0, csem := d.csem, tsem := d.tsem, tren := d.tren, trigDone := false, nseg := d.nseg,
          kaddr := d.kaddr, levels := ls, units := s.unitsOf ctx s.rank ls, entry := false, startTs := ts + 16, started := false,
          remote := [], trigRemote := [], origin := some (from_, n), grp := grp }
      { s with serial := s.serial + 1, launches := s.launches ++ [l] }
    else s.send (.launchRefused from_ n)
  | none => s.send (.launchRefused from_ n)

/-- A peer's message about launches takes effect. -/
def State.peerMsg (s : State) (m : PeerMsg) : State :=
  match m with
  | .launchM from_ n ctx ts grp desc tab => s.takeLaunch from_ n ctx ts grp desc tab
  | .launchRefused from_ n =>
    match s.launches.find? (fun l => decide (l.id = n ∧ l.origin = none) || decide (l.origin = some (from_, n))) with
    | some l => s.refuseLaunch l
    | none => s
  | .unitsEnded r n =>
    { s with launches := s.launches.map (fun l => if l.id = n then { l with remote := l.remote.filter (fun x => decide (x ≠ r)) } else l) }
  | .unitsTriggered r n =>
    { s with launches := s.launches.map (fun l =>
        if l.id = n then { l with trigRemote := l.trigRemote.filter (fun x => decide (x ≠ r)) } else l) }
  | _ => s

/-- The message is about a launch. -/
def PeerMsg.aboutLaunch (m : PeerMsg) : Bool :=
  match m with
  | .launchM _ _ _ _ _ _ _ => true
  | .launchRefused _ _ => true
  | .unitsEnded _ _ => true
  | .unitsTriggered _ _ => true
  | _ => false

/-- The peers' messages about launches that have come take effect, in order. -/
def State.pollPeers (s : State) : State :=
  let now := s.dom.inbox.filter (fun x => decide (x.1 ≤ s.cyc) && x.2.aboutLaunch)
  if now.isEmpty then s
  else
    let s1 : State := { s with dom := { s.dom with inbox := s.dom.inbox.filter (fun x => !(decide (x.1 ≤ s.cyc) && x.2.aboutLaunch)) } }
    now.foldl (fun s x => s.peerMsg x.2) s1

/-- M_LEVEL_START (R393): from time-step a + 16 on, the member's units start; if its group has changed since, the launch is refused. -/
def execMLevelStart (id : Nat) (s : State) : Host.Outcome State Fault Refusal :=
  event "M_LEVEL_START"
    (match s.launches.find? (fun l => decide (l.id = id)) with
     | some l =>
       if l.started = false ∧ l.startTs ≤ s.tstep then
         some (if bit s.dom.dgrp.toNat 0 && decide (groupId s.dom.dgrp = l.grp) then
             { s with launches := s.launches.map (fun x => if x.id = id then { x with started := true } else x) }
           else
             (match l.origin with
              | some (r, n) => s.send (.launchRefused r n)
              | none => s).refuseLaunch l)
       else none
     | none => none)

/-! ## Whole-memory checkpoints (R405) -/

/-- Memory that a checkpoint holds: capacity memory, and HBM outside the hot-row region. -/
def State.checkpointed (s : State) (c : Host.Cell) : Bool := decide (s.paKind c.1 = .home)

/-- WHOLE_MEMORY_CHECKPOINT (R405): every context switched out with its slabs spilled and tiles saved, and every frame written back. -/
def execWholeMemoryCheckpoint (s : State) : Host.Outcome State Fault Refusal :=
  event "WHOLE_MEMORY_CHECKPOINT"
    (s.manage (if s.cores.all (fun p => !p.2.bound && p.2.slabs.all (fun b => !(decide (b.2.kind = .live) && b.2.born))) &&
        s.arrays.all (fun p => p.2.tiles.all (fun t => !(t.2.inuse && t.2.dirty))) &&
        s.frames.all (fun p => !(p.2.valid && p.2.dirty)) then
      some (s.send (.checkpoint (s.mem.filter s.checkpointed)))
    else none))

/-- WHOLE_MEMORY_RESTORE (R405): before any context is bound again. -/
def execWholeMemoryRestore (cells : List (Nat × Byte)) (s : State) : Host.Outcome State Fault Refusal :=
  event "WHOLE_MEMORY_RESTORE"
    (s.manage (if s.unbound then
      some { s with mem := (cells.filter s.checkpointed).foldl (fun m c => mput 0 m c.1 c.2) (s.mem.filter (fun c => !s.checkpointed c)) }
    else none))

end Sys2Proof.Machine
end

