-- ==== Sys2Proof/Machine/Exchange.lean ====
section
/-! DEFINITION. The exchange engine (R400 to R404): pooling over the shards of a table on several modules, and collectives of the
deterministic group. -/
namespace Sys2Proof.Machine

/-- XCH_POOL (R401). -/
def execXchPool (f : EngF) (s : State) : Host.Outcome State Fault Refusal := issue s (engReads f) (actEng 0x50 0 none true f)

/-- XCH_RED (R401). -/
def execXchRed (f : EngF) (s : State) : Host.Outcome State Fault Refusal :=
  issue s (engReads f) (fun s => if f.ep ≠ 0 then s.opTrap 0xB else actEng 0x51 0 none false f s)

/-! ## Shards (R402) -/

/-- A shard: its table's descriptor, its rows, its owner. -/
structure Shard where
  desc : Word
  first : Nat
  count : Nat
  owner : Nat
  deriving DecidableEq, Repr

/-- The shards of a map's header and entries; none when they break a limit of R402. -/
def shardsOf (bs : List Byte) (members : List Nat) : Option (List Shard) :=
  let h := leNat (bs.take 32)
  let es := (pieces 32 (bs.drop 32)).map leNat
  let ss := es.map (fun v => ({ desc := BitVec.ofNat 64 (fld v 0 64), first := fld v 64 32, count := fld v 96 32, owner := fld v 128 16 } : Shard))
  let apart (a b : Shard) : Bool :=
    decide (a.count = 0) || decide (b.count = 0) || decide (a.first + a.count ≤ b.first) || decide (b.first + b.count ≤ a.first)
  if fld h 8 248 = 0 ∧ es.all (fun v => decide (fld v 144 112 = 0)) ∧ ss.all (fun a => members.contains a.owner) ∧ ss.Pairwise (fun a b => apart a b = true) then
    some ss
  else none

/-- The bytes of the shard map a packet names. -/
def State.shardBytes (s : State) (x : Work) : EngR (List Byte) :=
  let g := s.workAgent x
  let va := pBody x.pkt 0
  if va.toNat % 32 ≠ 0 then .fail 0xA2 0 va s
  else
    (s.gread g va 32).andThen (fun hb s =>
      let n := fld (leNat hb) 0 8
      if n = 0 ∨ 64 < n then .fail 0xA2 0 va s
      else
        (s.gread g (va + 32) (32 * n)).andThen (fun bs s =>
          match shardsOf (hb ++ bs) s.dom.members with
          | some _ => .ok (hb ++ bs) s
          | none => .fail 0xA2 0 va s))

/-- What a packet has read, kept with it while it waits for other modules. -/
def Work.kept (x : Work) (i : Nat) : List Byte := (mfind x.frames i).getD []

/-- The shards a packet works on, with their numbers. -/
def State.shards (s : State) (x : Work) : List (Nat × Shard) :=
  let l := (shardsOf (x.kept 0) s.dom.members).getD []
  (upTo 0 l.length).zip l

/-- The list a packet works on. -/
def Work.keptList (x : Work) : EList :=
  let h := leNat ((x.kept 1).take 8)
  { n := fld h 0 20, bags := fld h 20 8, wt := bit h 28, fmt := bit h 29, e := sgn 9 (fld h 32 9),
    ents := ((pieces 8 ((x.kept 1).drop 8)).map leNat).map (fun v => (fld v 0 32, fld v 32 32)) }

/-- The bytes of the list a packet names, once its header is found legal. -/
def State.listBytes (s : State) (x : Work) : EngR (List Byte) :=
  (s.eList x).andThen (fun l s =>
    if l.n % (l.bags + 1) ≠ 0 then .fail 0x77 0 (pBody x.pkt 1) s
    else s.pread x (pBody x.pkt 1) (8 + 8 * l.n))

/-- Messages of other modules about a packet: of tables, and of partials. -/
def State.tablesFor (s : State) (x : Work) : List (Nat × Nat × Nat) :=
  s.dom.inbox.filterMap (fun m =>
    match m.2 with
    | .shardTable q i k d cause => if m.1 ≤ s.cyc ∧ q = x.q ∧ i = x.idx then some (k, d, cause) else none
    | _ => none)

/-- Partials that have come for a packet: the shard, the partials, NV, cause and entry. -/
def State.partialsFor (s : State) (x : Work) : List (Nat × List (BitVec 256) × Bool × Nat × Nat) :=
  s.dom.inbox.filterMap (fun m =>
    match m.2 with
    | .partials q i k ps nv cause run => if m.1 ≤ s.cyc ∧ q = x.q ∧ i = x.idx then some (k, ps, nv, cause, run) else none
    | _ => none)

/-- The messages about a packet are no longer needed. -/
def State.forgetExchange (s : State) (x : Work) : State :=
  { s with dom := { s.dom with inbox := s.dom.inbox.filter (fun m =>
      match m.2 with
      | .shardTable q i _ _ _ => !(decide (q = x.q) && decide (i = x.idx))
      | .partials q i _ _ _ _ _ => !(decide (q = x.q) && decide (i = x.idx))
      | _ => true) } }

/-! ## Pooling over shards (R403) -/

/-- The entries that lie in a shard: their places in the list, their rows in the shard, and their weights. -/
def Shard.entries (h : Shard) (l : EList) : List (Nat × Nat × Nat) :=
  ((upTo 0 l.n).zip l.ents).filterMap (fun p =>
    if h.first ≤ p.2.1 ∧ p.2.1 < h.first + h.count then some (p.1, p.2.1 - h.first, p.2.2) else none)

/-- The partials of the entries of a shard at its owner, by bag and column, and their NV (R403). -/
def State.shardParts (s : State) (g : Agent) (va : Word) (e : Int) (wt : Bool) (per bags : Nat) (ents : List (Nat × Nat × Nat)) :
    EngR (List Wf × Bool) :=
  (s.eTableAt g va).andThen (fun t s =>
    (engMap (fun _ (p : Nat × Nat × Nat) s =>
      if t.nrows ≤ p.2.1 then .fail 0x71 p.1 0 s else s.rowPlaceFor g t [0] false p.1 p.2.1) 0 ents s).andThen (fun hs s =>
        let rows := (ents.zip hs).map (fun p => (p.1, rowValues t (s.rowBytesNow g.ctx t p.1.2.1 p.2).1))
        let bag (b : Nat) : List Wf × Flags :=
          bagPartials t.d e ((rows.filter (fun r => decide (r.1.1 / Nat.max 1 per = b))).map (fun r =>
            (if wt then some (decodeF fp32 r.1.2.2) else none, r.2.1)))
        let bs := (upTo 0 (bags + 1)).map bag
        let fl := (rows.foldl (fun f r => f ||| r.2.2) 0) ||| bs.foldl (fun f b => f ||| b.2) 0
        .ok (bs.flatMap (fun b => b.1), fl != 0) s))

/-- A packet keeps what it has read and asks the owners of other modules' shards for their tables. -/
def State.exchangeOpen (s : State) (w : Nat) (x : Work) : EngR State :=
  (s.shardBytes x).andThen (fun mb s => (s.listBytes x).andThen (fun lb s =>
    let y : Work := { x with frames := [(0, mb), (1, lb)], pos := [1], wait := .go }
    let s1 := (s.forget (s.workAgent x).id).setWork w y
    let s2 := (s1.shards y).foldl (fun s h =>
      if h.2.owner = s.dom.modid then s else s.send (.tableAsk h.2.owner x.q x.idx h.1 x.ctx h.2.desc)) s1
    .ok s2 s))

/-- D of every shard of this module, in order. -/
def State.ownTables (s : State) (x : Work) : EngR (List (Nat × Nat)) :=
  engMap (fun _ (h : Nat × Shard) s =>
    (s.eTableAt (s.workAgent x) h.2.desc).andThen (fun t s => .ok (h.1, t.d) s)) 0
    ((s.shards x).filter (fun h => decide (h.2.owner = s.dom.modid))) s

/-- Once the tables of all shards are known, they are compared, the entries are checked, and the owners are sent theirs. -/
def State.exchangeAsk (s : State) (w : Nat) (x : Work) : EngR State :=
  (s.ownTables x).andThen (fun own s =>
    let far := s.tablesFor x
    let ds := own ++ far.map (fun a => (a.1, a.2.1))
    let l := x.keptList
    let sh := s.shards x
    match far.find? (fun a => decide (a.2.2 ≠ 0)) with
    | some a => .fail a.2.2 0 0 s
    | none =>
      if ds.any (fun d => decide (d.2 ≠ (mfind ds 0).getD 0)) then .fail 0xA2 0 (pBody x.pkt 0) s
      else
        match ((upTo 0 l.n).zip l.ents).find? (fun p =>
            (decide (p.2.2 ≠ 0) && !l.wt) || !(sh.any (fun h => decide (h.2.first ≤ p.2.1) && decide (p.2.1 < h.2.first + h.2.count)))) with
        | some p => .fail (if p.2.2 ≠ 0 ∧ l.wt = false then 0x77 else 0x71) p.1 0 s
        | none =>
          let s1 := (s.forget (s.workAgent x).id).setWork w { x with pos := [2, (mfind ds 0).getD 0], wait := .go }
          .ok (sh.foldl (fun s h =>
            if h.2.owner = s.dom.modid ∨ (h.2.entries l).isEmpty = true then s
            else s.send (.poolAsk h.2.owner x.q x.idx h.1 x.ctx h.2.desc l.e l.wt (l.n / (l.bags + 1)) l.bags (h.2.entries l))) s1) s)

/-- The shards of other modules that a packet needs partials of. -/
def State.farShards (s : State) (x : Work) : List Nat :=
  ((s.shards x).filter (fun h => decide (h.2.owner ≠ s.dom.modid) && !(h.2.entries x.keptList).isEmpty)).map (fun h => h.1)

/-- The partials of this module's shards, in order, with failures kept to be compared. -/
def State.ownParts (s : State) (x : Work) : EngR (List (List Wf × Bool)) :=
  let l := x.keptList
  engMap (fun _ (h : Nat × Shard) s =>
      s.shardParts (s.workAgent x) h.2.desc l.e l.wt (l.n / (l.bags + 1)) l.bags (h.2.entries l)) 0
    ((s.shards x).filter (fun h => decide (h.2.owner = s.dom.modid) && !(h.2.entries l).isEmpty)) s

/-- All partials are merged, and every bag is delivered (R403). -/
def exchangeWork (x : Work) (s : State) : EngR Res :=
  let l := x.keptList
  let far := s.partialsFor x
  let d := x.pos.getD 1 0
  match far.find? (fun a => decide (a.2.2.2.1 ≠ 0)) with
  | some a => .fail a.2.2.2.1 a.2.2.2.2 0 s
  | none =>
    (s.ownParts x).andThen (fun own s =>
      let all := own.map (fun p => p.1) ++ far.map (fun a => a.2.1.map wfUnpack)
      let nv := own.any (fun p => p.2) || far.any (fun a => a.2.2.1)
      let merged := all.foldl (fun acc ps => (acc.zip ps).map (fun p => wfMerge p.1 p.2)) (List.replicate ((l.bags + 1) * d) (wfZero l.e))
      let f := if l.fmt then bf16 else fp32
      let rs := merged.map (poolOut (pEp x.pkt) (l.n / (l.bags + 1)) f)
      (s.pput x (pBody x.pkt 2) (rs.flatMap (fun r => leBytes (f.width / 8) r.1))).andThen (fun w s =>
        .ok { writes := w, rows := [], count := l.n, flags := rs.foldl (fun f r => f ||| r.2) (nvIf nv), hits := 0 } s))

/-- A packet of the exchange engine is found to fail. -/
def Work.failed (x : Work) (cause run : Nat) (va : Word) : Work :=
  { x with cause := cause, errstat := engStatus (pKind x.pkt) 0 run, erraddr := va, pos := [9], wait := .go }

/-- A stage of a packet before its work: it goes on, stands, or is found to fail. -/
def State.stageOf (s : State) (w : Nat) (x : Work) (r : EngR State) : Option State :=
  match x.wait.resume s r with
  | none => none
  | some (.ok t _) => some t
  | some (.wait t) => some t
  | some (.stand v t) => some (t.setWork w { x with wait := v })
  | some (.fail cause run va t) => some ((t.forget (s.workAgent x).id).setWork w (x.failed cause run va))

/-- A packet of kind 0x50 takes its next step. DEDUCED (log 52). -/
def State.exchangeStep (s : State) (w : Nat) : Option State :=
  match mfind s.works w with
  | none => none
  | some x =>
    if pKind x.pkt ≠ 0x50 ∨ s.workReady x = false then none
    else
      match x.pos.headD 0 with
      | 0 => s.stageOf w x (s.exchangeOpen w x)
      | 1 =>
        if (s.shards x).all (fun h => decide (h.2.owner = s.dom.modid) || (s.tablesFor x).any (fun a => decide (a.1 = h.1))) then
          s.stageOf w x (s.exchangeAsk w x)
        else none
      | _ =>
        if x.cause ≠ 0 ∨ (s.farShards x).all (fun k => (s.partialsFor x).any (fun a => decide (a.1 = k))) = true then
          (s.doEmbed w (fun _ => true) exchangeWork (fun _ s => s)).map (fun t =>
            match mfind t.works w with
            | some y => if y.stage = .taken then t else t.forgetExchange x
            | none => t.forgetExchange x)
        else none

/-- EXCHANGE_POOL (R403). -/
def execExchangePool (w : Nat) (s : State) : Host.Outcome State Fault Refusal := event "EXCHANGE_POOL" (s.exchangeStep w)

/-! ## What other modules ask of this one (R402, R403) -/

/-- The agent that reads for another module. -/
def serveAgent (src ctx : Nat) (w : FWait) : Agent :=
  { id := 6144 + src, tlb := 677, ctx := ctx, core := 0, wire := false, unit := 4, uidx := 0, engine := 10, wait := w }

/-- One request is answered, or waits. -/
def State.servePeer (s : State) (m : Nat × PeerMsg) : State :=
  let again (p : PeerMsg) (s : State) : State := { s with dom := { s.dom with inbox := s.dom.inbox ++ [(s.cyc, p)] } }
  match m.2 with
  | .tableAsk src q i k ctx va w =>
    let r := s.eTableAt (serveAgent src ctx w) va
    (match w.resume s r with
     | none => again m.2 s
     | some (.ok t s1) => (s1.forget (6144 + src)).send (.shardTable src q i k t.d 0)
     | some (.wait s1) => again m.2 s1
     | some (.stand v s1) => again (.tableAsk src q i k ctx va v) s1
     | some (.fail cause _ _ s1) => (s1.forget (6144 + src)).send (.shardTable src q i k 0 cause))
  | .poolAsk src q i k ctx va e wt per bags ents w =>
    let r := s.shardParts (serveAgent src ctx w) va e wt per bags ents
    (match w.resume s r with
     | none => again m.2 s
     | some (.ok p s1) => (s1.forget (6144 + src)).send (.partials src q i k (p.1.map Wf.pack) p.2 0 0 s1.sgen)
     | some (.wait s1) => again m.2 s1
     | some (.stand v s1) => again (.poolAsk src q i k ctx va e wt per bags ents v) s1
     | some (.fail cause run _ s1) => (s1.forget (6144 + src)).send (.partials src q i k [] false cause run s1.sgen))
  | _ => s

/-- The message asks something of this module. -/
def PeerMsg.asks (m : PeerMsg) : Bool :=
  match m with
  | .tableAsk _ _ _ _ _ _ _ => true
  | .poolAsk _ _ _ _ _ _ _ _ _ _ _ _ => true
  | _ => false

/-- The requests that have come are served, in order. -/
def State.servePeers (s : State) : State :=
  let now := s.dom.inbox.filter (fun x => decide (x.1 ≤ s.cyc) && x.2.asks)
  if now.isEmpty || !s.inDomain then s
  else
    now.foldl State.servePeer
      { s with dom := { s.dom with inbox := s.dom.inbox.filter (fun x => !(decide (x.1 ≤ s.cyc) && x.2.asks)) } }

/-! ## Collectives (R404) -/

/-- A contribution: when it came, the collective's number, n, e, fmt and values. -/
structure Contrib where
  at_ : Nat
  num : Nat
  n : Nat
  e : Int
  fmt : Nat
  vals : List Half
  deriving DecidableEq, Repr

/-- What a member has contributed to a context's collectives and is not yet used, oldest first. -/
def State.contribsOf (s : State) (ctx r : Nat) : List Contrib :=
  s.dom.inbox.filterMap (fun m =>
    match m.2 with
    | .contribution r' c num n e fmt vals =>
      if m.1 ≤ s.cyc ∧ r' = r ∧ c = ctx then some { at_ := m.1, num := num, n := n, e := e, fmt := fmt, vals := vals } else none
    | _ => none)

/-- How many of a member's contributions belong to collectives that have failed already. -/
def State.owedBy (s : State) (ctx r : Nat) : Nat := s.dom.owed.count (ctx, r)

/-- A member's contribution to the present collective of a context. -/
def State.contrib (s : State) (ctx r : Nat) : Option Contrib := ((s.contribsOf ctx r).drop (s.owedBy ctx r)).head?

/-- The first n contributions of a member to a context's collectives are used up. -/
def dropContribs (cyc ctx r : Nat) : Nat → List (Nat × PeerMsg) → List (Nat × PeerMsg)
  | 0, l => l
  | _, [] => []
  | n + 1, m :: l =>
    match m.2 with
    | .contribution r' c _ _ _ _ _ =>
      if m.1 ≤ cyc ∧ r' = r ∧ c = ctx then dropContribs cyc ctx r n l else m :: dropContribs cyc ctx r (n + 1) l
    | _ => m :: dropContribs cyc ctx r (n + 1) l

/-- One collective of a context fewer comes before those that are to fail. -/
def nextDoomed (ctx : Nat) (l : List (Nat × Nat)) : List (Nat × Nat) :=
  l.filterMap (fun p => if p.1 = ctx then (if p.2 = 0 then none else some (p.1, p.2 - 1)) else some p)

/-- The present collective of a context is over: the contributions to it go, and those to come are owed. -/
def State.collectiveOver (s0 : State) (ctx : Nat) (ranks : List Nat) : State :=
  let s : State := { s0 with dom := { s0.dom with doomed := nextDoomed ctx s0.dom.doomed } }
  ranks.foldl (fun s r =>
    let owed := s.owedBy ctx r
    let have_ := (s.contribsOf ctx r).length
    let used := Nat.min have_ (owed + 1)
    { s with dom := { s.dom with inbox := dropContribs s.cyc ctx r used s.dom.inbox,
                                 owed := List.replicate (owed + 1 - used) (ctx, r) ++ s.dom.owed.filter (fun p => decide (p ≠ (ctx, r))) } }) s

/-- The ranks of the other members of the group. -/
def State.otherRanks (s : State) : List Nat :=
  if bit s.dom.dgrp.toNat 0 then (upTo 0 (fld s.dom.dgrp.toNat 16 8)).filter (fun r => decide (r ≠ fld s.dom.dgrp.toNat 8 8)) else []

/-- What members that have left since have contributed to the present collective of a context. -/
def State.departed (s : State) (ctx : Nat) : List Nat := (upTo 1000 64).filter (fun r => decide (0 < s.dom.pendingOf ctx r))

/-- The header and the values at a collective's source (R404). -/
def State.redSource (s : State) (x : Work) : EngR Contrib :=
  let p := pBody x.pkt 1
  if p.toNat % 8 ≠ 0 then .fail 0x77 0 p s
  else
    (s.pread x p 8).andThen (fun hb s =>
      let h := leNat hb
      let n := fld h 0 20
      if badHeader 0x51 h ∨ n = 0 ∨ 65536 < n then .fail 0x77 0 p s
      else
        let w := if bit h 29 then 2 else 4
        (s.pread x (p + 8) (n * w)).andThen (fun bs s =>
          .ok { at_ := s.cyc, num := fld (pBody x.pkt 0).toNat 0 32, n := n, e := sgn 9 (fld h 32 9), fmt := b2n (bit h 29),
                vals := (elemsOf (8 * w) n bs).map (BitVec.ofNat 32) } s))

/-- The bytes that keep a contribution with its packet. -/
def Contrib.keep (c : Contrib) : List (Nat × List Byte) :=
  [(0, leBytes 4 c.n), (1, leBytes 2 (wrapN 9 c.e)), (2, leBytes 1 c.fmt), (3, c.vals.flatMap (fun v => leBytes 4 v.toNat))]

/-- The contribution a packet keeps. -/
def Work.contrib (x : Work) : Contrib :=
  { at_ := x.since, num := fld (pBody x.pkt 0).toNat 0 32, n := leNat (x.kept 0), e := sgn 9 (leNat (x.kept 1)), fmt := leNat (x.kept 2),
    vals := (pieces 4 (x.kept 3)).map (fun b => BitVec.ofNat 32 (leNat b)) }

/-- The ranks whose contributions a packet awaits. -/
def Work.awaits (x : Work) : List Nat := x.pos.drop 1

/-- The cycle of the first contribution to the present collective. -/
def State.firstContrib (s : State) (x : Work) : Nat :=
  ((s.otherRanks).filterMap (fun r => s.contrib x.ctx r)).foldl (fun a c => Nat.min a c.at_) (if x.pos.isEmpty then s.cyc else x.since)

/-- Two contributions differ in number, n, e or fmt. -/
def Contrib.unlike (a b : Contrib) : Bool :=
  decide (a.num ≠ b.num) || decide (a.n ≠ b.n) || decide (a.e ≠ b.e) || decide (a.fmt ≠ b.fmt)

/-- This member contributes its packet; it fails if another has left without contributing to the collective (R404). DEDUCED (log 52). -/
def State.redOpen (s : State) (w : Nat) (x : Work) : EngR State :=
  if bit s.dom.dgrp.toNat 0 = false ∨ s.firstContrib x + oneMs ≤ s.cyc then .fail 0xA3 0 0 s
  else
    (s.redSource x).andThen (fun c s =>
      let others := s.otherRanks
      let s1 := (s.forget (s.workAgent x).id).setWork w { x with frames := c.keep, pos := 1 :: (others ++ s.departed x.ctx), since := s.cyc, wait := .go,
                                                                          cause := if s.dom.doomed.contains (x.ctx, 0) then 0xA3 else x.cause }
      .ok (others.foldl (fun s r => s.send (.contribute r x.ctx c.num c.n c.e c.fmt c.vals s.sgen)) s1) s)

/-- The sums of a collective (R404); the count in its record is stated nowhere, and is a free value. -/
def redWork (x : Work) (s : State) : EngR Res :=
  let c := x.contrib
  let all := c :: x.awaits.filterMap (fun r => s.contrib x.ctx r)
  if all.any (fun d => d.unlike c) then .fail 0xA3 0 0 s
  else
    let f := if c.fmt = 1 then bf16 else fp32
    let rs := (upTo 0 c.n).map (fun j =>
      wfOut (all.foldl (fun p d => wfMerge p (wfIn (decodeF f (d.vals.getD j 0).toNat) c.e)) (wfZero c.e)) f)
    (s.pput x (pBody x.pkt 2) (rs.flatMap (fun r => leBytes (f.width / 8) r.1))).andThen (fun w s =>
      .ok { writes := w, rows := [], count := (Config.freeWord s.draws).toNat, flags := rs.foldl (fun f r => f ||| r.2) 0, hits := 0 }
        { s with draws := s.draws + 1 })

/-- An earlier packet of the same context's collectives is not done. -/
def State.redBehind (s : State) (w : Nat) (x : Work) : Bool :=
  s.works.any (fun p => decide (p.1 < w) && decide (p.2.ctx = x.ctx) && decide (pKind p.2.pkt = 0x51) && decide (p.2.stage = .taken))

/-- A packet of kind 0x51 takes its next step. -/
def State.redStep (s : State) (w : Nat) : Option State :=
  match mfind s.works w with
  | none => none
  | some x =>
    if pKind x.pkt ≠ 0x51 ∨ s.workReady x = false ∨ s.redBehind w x = true then none
    else if x.pos.isEmpty then s.stageOf w x (s.redOpen w x)
    else
      let cs := x.awaits.map (fun r => s.contrib x.ctx r)
      if x.cause ≠ 0 ∨ cs.all (fun c => c.isSome) = true ∨
          cs.any (fun c => match c with
            | some d => d.unlike x.contrib
            | none => false) = true then
        (s.doEmbed w (fun _ => true) redWork (fun _ s => s)).map (fun t =>
          match mfind t.works w with
          | some y => if y.stage = .taken then t else t.collectiveOver x.ctx (if x.awaits.isEmpty then s.otherRanks else x.awaits)
          | none => t)
      else none

/-- EXCHANGE_REDUCE (R404). -/
def execExchangeReduce (w : Nat) (s : State) : Host.Outcome State Fault Refusal := event "EXCHANGE_REDUCE" (s.redStep w)

/-- COLLECTIVE_TIMEOUT (R404): a member has not contributed within 1 ms of the first contribution. -/
def execCollectiveTimeout (w : Nat) (s : State) : Host.Outcome State Fault Refusal :=
  event "COLLECTIVE_TIMEOUT"
    (match mfind s.works w with
     | some x =>
       if pKind x.pkt = 0x51 ∧ s.workReady x = true ∧ x.pos.headD 0 = 1 ∧ x.cause = 0 ∧ s.redBehind w x = false ∧
           x.awaits.any (fun r => (s.contrib x.ctx r).isNone) = true ∧ s.firstContrib x + oneMs ≤ s.cyc then
         some (s.setWork w { x with cause := 0xA3 })
       else none
     | none => none)

end Sys2Proof.Machine
end

