-- ==== Sys2Proof/Machine/Journal.lean ====
section
/-! DEFINITION. The journal engine (R410 to R427): draws, staging, emission, checkpoints, replay, the partner, replicas. -/
namespace Sys2Proof.Machine

/-! ## Records (R412) -/

/-- A field of a journal record. -/
def rf (r : BitVec 1024) (lo w : Nat) : Nat := fld r.toNat lo w
/-- seq. -/
def rSeq (r : BitVec 1024) : Nat := rf r 0 32
/-- step. -/
def rStep (r : BitVec 1024) : Nat := rf r 32 32
/-- token. -/
def rToken (r : BitVec 1024) : Nat := rf r 64 32
/-- kind: 0 step, 1 checkpoint. -/
def rKind (r : BitVec 1024) : Nat := rf r 104 4
/-- ndraw. -/
def rNdraw (r : BitVec 1024) : Nat := rf r 112 16
/-- key, or the checkpoint's address. -/
def rKey (r : BitVec 1024) : Nat := rf r 128 64
/-- ctr. -/
def rCtr (r : BitVec 1024) : Nat := rf r 192 64
/-- rt n. -/
def rRt (r : BitVec 1024) (n : Nat) : Nat := rf r (256 + 64 * n) 64
/-- digest. -/
def rDigest (r : BitVec 1024) : Nat := rf r 768 64
/-- stamp. -/
def rStamp (r : BitVec 1024) : Nat := rf r 832 32
/-- ctx. -/
def rCtx (r : BitVec 1024) : Nat := rf r 864 10
/-- jidx. -/
def rJidx (r : BitVec 1024) : Nat := rf r 896 64

/-- CRC-32C of the low n bytes of a number, with initial value and final inversion (Table 21-2). -/
def crcOf (n v : Nat) : Nat := ((crcBytes 0xFFFFFFFF (leBytes n v)) ^^^ 0xFFFFFFFF).toNat

/-- A record with its crc. -/
def sealRec (v : Nat) : BitVec 1024 := BitVec.ofNat 1024 (v % 2 ^ 960 + crcOf 120 (v % 2 ^ 960) * 2 ^ 960)

/-- The crc of a record is right. -/
def crcGood (r : BitVec 1024) : Bool := decide (rf r 960 32 = crcOf 120 (r.toNat % 2 ^ 960))

/-- The bits a staging record gives a step record (R412, R413). -/
def Staging.bits (g : Staging) : Nat :=
  g.seqn.toNat + g.step.toNat * 2 ^ 32 + g.token.toNat * 2 ^ 64 + g.nrt * 2 ^ 108 + g.ndraw % 2 ^ 16 * 2 ^ 112 + g.key.toNat * 2 ^ 128 +
    g.ctr.toNat * 2 ^ 192 + (upTo 0 8).foldl (fun n i => n + (mget 0 g.rt i).toNat * 2 ^ (256 + 64 * i)) 0 + g.digest.toNat * 2 ^ 768

/-! ## The engine -/

/-- JCTL.en. -/
def Journal.en (j : Journal) : Bool := j.jctl.getLsbD 0
/-- JCTL.lsize. -/
def Journal.lsize (j : Journal) : Nat := fld j.jctl.toNat 24 8
/-- JCTL.partner. -/
def Journal.partner (j : Journal) : Nat := fld j.jctl.toNat 48 16
/-- JCTL.replica. -/
def Journal.replica (j : Journal) : Nat := fld j.jctl.toNat 32 16

/-- The state with its journal engine changed. -/
def State.modJ (s : State) (f : Journal → Journal) : State := { s with jrnl := f s.jrnl }

/-- The index of the first record that the engine has not taken. -/
def Journal.taken (j : Journal) : Nat := ((j.queue.head?).map (fun t => t.ix)).getD j.jidx

/-- The records of a core that the engine has not taken are as many as there may be (R414). -/
def Journal.crowded (j : Journal) (c : Nat) : Bool := decide (64 ≤ (j.queue.filter (fun t => decide (t.core = c))).length)

/-- An append must wait (R410, R411): the engine is off, or the slot of the next index holds a record that is not truncated. -/
def Journal.full (j : Journal) : Bool :=
  !j.en || j.ring.any (fun r => decide (r.1 % 2 ^ j.lsize = j.jidx % 2 ^ j.lsize))

/-- The step of the last checkpoint record of a sequence. -/
def Journal.lastCkpt (j : Journal) (ctx q : Nat) : Option Nat :=
  (j.ckpts.find? (fun x => decide (x.1 = ctx) && decide (x.2.1 = q))).map (fun x => x.2.2)

/-- A checkpoint record of a sequence has been appended. -/
def Journal.noteCkpt (j : Journal) (ctx q step : Nat) : Journal :=
  { j with ckpts := (ctx, q, step) :: j.ckpts.filter (fun x => !(decide (x.1 = ctx) && decide (x.2.1 = q))) }

/-- A record appended by a core, or a packet (R411): it takes the next index, the stamp and the context, and waits for the engine to take it. The
answer is the record. The reserved bits [103:96] and [895:874] of a record that a packet of kind 0x60 brings are kept as it brings them, and [1023:992] is
the CRC and its zeros. DESIGN CHOICE (log 53). -/
def State.append (s0 : State) (core ctx v : Nat) : BitVec 1024 × State :=
  let l := s0.later 0
  let s := l.2
  let j := s.jrnl
  let n := fld v 0 832 + s.sgen % 2 ^ 32 * 2 ^ 832 + ctx * 2 ^ 864 + fld v 874 22 * 2 ^ 874 + j.jidx % 2 ^ 64 * 2 ^ 896
  let r := sealRec n
  (r, s.modJ (fun j =>
    let j1 := if rKind r = 1 then j.noteCkpt ctx (rSeq r) (rStep r) else j
    { j1 with jidx := j.jidx + 1, ring := j.ring ++ [(j.jidx, r)], queue := j.queue ++ [{ ix := j.jidx, bits := r, core := core, at_ := l.1 }] }))

/-- The engine takes the oldest record (R410, R411): it is written into the ring, and goes to the partner, but to one that is lost (R422). -/
def State.takeRecord (s : State) : Option State :=
  match s.jrnl.queue with
  | [] => none
  | t :: r =>
    let j := s.jrnl
    let pa := j.jring.toNat + 128 * (t.ix % 2 ^ j.lsize)
    if j.en = false ∨ s.plat.thermal = true ∨ s.cyc < t.at_ ∨ s.extentBlocked pa 128 true = true then none
    else
      let s1 := (s.homeWrite pa (leBytes 128 t.bits.toNat)).modJ (fun j => { j with queue := r, ackAt := if t.ix ≤ j.acked then s.cyc else j.ackAt })
      some (if j.lost then s1 else s1.send (.journal j.partner t.bits))

/-- The engine takes the records that it may take by now, in order. -/
def State.takeRecords : Nat → State → State
  | 0, s => s
  | n + 1, s =>
    match s.takeRecord with
    | some t => State.takeRecords n t
    | none => s

/-- Records that an acknowledged checkpoint record discards (R418). -/
def discards (c r : BitVec 1024) : Bool :=
  decide (rCtx r = rCtx c) && decide (rSeq r = rSeq c) && (decide (rKey c = 0) || decide (rStep r < rStep c))

/-- The ring without what its acknowledged checkpoint records discard. -/
def Journal.truncate (j : Journal) : Journal :=
  let cs := (j.ring.filter (fun r => decide (r.1 < j.acked) && decide (rKind r.2 = 1))).map (fun r => r.2)
  let ended := cs.filter (fun c => decide (rKey c = 0))
  { j with ring := j.ring.filter (fun r => !(cs.any (fun c => discards c r.2))),
           ckpts := j.ckpts.filter (fun x => !(ended.any (fun c => decide (rCtx c = x.1) && decide (rSeq c = x.2.1) && decide (rStep c = x.2.2)))) }

/-! ## Draws (R72, R415) -/

/-- A group of a staged step waits until its journalled record is loaded (R414). -/
def Staging.loading (g : Staging) (cyc : Nat) : Bool := g.opened && decide (cyc < g.loadAt)

/-- The results of a draw: z in the form that var names, and the counter for `.inc`. They are due four cycles later (R48), where the worked example of R431
reads z in the next group: DEDUCED (log 71). -/
def State.drawn (s : State) (f : MgtF) (z ctr : Word) : State :=
  let hi := z.toNat / 2 ^ 32
  let v : Word :=
    if f.var.toNat % 4 = 0 then z
    else if f.var.toNat % 4 = 1 then BitVec.ofNat 64 hi
    else BitVec.ofNat 64 (hi * ((s.rd f.c).toNat % 2 ^ 32) / 2 ^ 32)
  let s1 := s.wr 4 f.d v
  if f.var.getLsbD 3 ∧ f.b ≠ f.d then s1.wr 4 f.b (ctr + 1) else s1

/-- The staging record of the present core, changed. -/
def State.modStg (s : State) (f : Staging → Staging) : State := s.modIm s.cur.core (fun im => { im with stg := f im.stg })

/-- The effect of `gdraw`. -/
def actGdraw (f : MgtF) (s : State) : Act :=
  let g := s.me.im.stg
  let a := s.rd f.a
  let b := s.rd f.b
  let j := BitVec.ofNat 64 g.ndraw
  if g.opened = false then .done (s.drawn f (sorrel a b) b)
  else if g.loading s.cyc then .wait s 0xA 0 0
  else
    let s1 := s.modStg (fun g => { g with ndraw := g.ndraw + 1 })
    if g.replay then
      let ctr := BitVec.ofNat 64 (rCtr g.jrec) + j
      .done (s1.drawn f (sorrel (BitVec.ofNat 64 (rKey g.jrec)) ctr) ctr)
    else if a = g.key ∧ b = g.ctr + j then .done (s1.drawn f (sorrel a b) b)
    else .trap { cause := 0xB2, status := 0, addr := 0, cls := 0, engine := 0, uidx := 0 }

/-- GDRAW (R72, R415). -/
def execGdraw (f : MgtF) (s : State) : Host.Outcome State Fault Refusal :=
  issue s ([f.a, f.b] ++ (if f.var.toNat % 4 = 2 then [f.c] else [])) (actGdraw f)

/-! ## Staging (R413, R414) -/

/-- The record of a step in a context's replay store. -/
def Journal.stored (j : Journal) (ctx q step : Nat) : Option (BitVec 1024) :=
  ((mfind j.stores ctx).getD []).reverse.find? (fun r => decide (rKind r = 0) && decide (rSeq r = q) && decide (rStep r = step))

/-- The effect of `jrnl.seq`. -/
def actJrnlSeq (f : MgtF) (s : State) : Act :=
  let a := (s.rd f.a).toNat
  let b := (s.rd f.b).toNat
  let ctx := s.me.ctx
  if 2 ^ 32 ≤ a ∨ 2 ^ 32 ≤ b then s.opTrap 0xB
  else
    let old := s.me.im.stg
    let g : Staging := { Staging.init with opened := true, seqn := BitVec.ofNat 32 a, step := BitVec.ofNat 32 b, unemitted := old.unemitted,
                                           lastRec := old.lastRec, lastRep := old.lastRep }
    if s.replaying ctx then
      if s.me.timed then .wait s 0xA 0 0
      else
        let l := s.later 1
        .done (l.2.modStg (fun _ =>
          match s.jrnl.stored ctx a b with
          | some r => { g with replay := true, jrec := r, loadAt := l.1 }
          | none => { g with loadAt := l.1 }))
    else .done (s.modStg (fun _ => g))

/-- JRNL_SEQ (R414). -/
def execJrnlSeq (f : MgtF) (s : State) : Host.Outcome State Fault Refusal := issue s [f.a, f.b] (actJrnlSeq f)

/-- A form that needs an open step, whose record is loaded. -/
def State.inStep (s : State) (k : Staging → Act) : Act :=
  let g := s.me.im.stg
  if g.opened = false then s.opTrap 0xB else if g.loading s.cyc then .wait s 0xA 0 0 else k g

/-- JRNL_GEN (R414). -/
def execJrnlGen (f : MgtF) (s : State) : Host.Outcome State Fault Refusal :=
  issue s [f.a, f.b] (fun s => s.inStep (fun g =>
    .done (if g.replay then s else s.modStg (fun g => { g with key := s.rd f.a, ctr := s.rd f.b }))))

/-- JRNL_TOK (R414). -/
def execJrnlTok (f : MgtF) (s : State) : Host.Outcome State Fault Refusal :=
  issue s [f.a] (fun s => s.inStep (fun g =>
    let a := (s.rd f.a).setWidth 32
    .done (if g.replay then s.wr 1 f.d (BitVec.ofNat 64 (rToken g.jrec))
      else (s.modStg (fun g => { g with token := a })).wr 1 f.d (a.setWidth 64))))

/-- JRNL_RT (R414). -/
def execJrnlRt (f : MgtF) (s : State) : Host.Outcome State Fault Refusal :=
  issue s [f.a] (fun s =>
    let n := f.idx.toNat
    if 8 ≤ n then s.opTrap 0xB
    else s.inStep (fun g =>
      .done (if g.replay then s.wr 1 f.d (BitVec.ofNat 64 (rRt g.jrec n))
        else (s.modStg (fun g => { g with rt := mset g.rt n (s.rd f.a), nrt := Nat.max g.nrt (n + 1) })).wr 1 f.d (s.rd f.a))))

/-- The effect of `jrnl.app`. -/
def actJrnlApp (f : MgtF) (s : State) : Act :=
  s.inStep (fun g =>
    let a := s.rd f.a
    if g.replay then
      if a.toNat ≠ rDigest g.jrec ∨ g.ndraw % 2 ^ 16 ≠ rNdraw g.jrec then
        .trap { cause := 0xB0, status := 0, addr := 0, cls := 0, engine := 0, uidx := 0 }
      else .done (s.modStg (fun g => { g with opened := false, unemitted := true, lastRec := g.jrec, lastRep := true }))
    else if s.jrnl.full ∨ s.jrnl.crowded s.cur.core = true then .wait s 0xA 0 0
    else
      let x := s.append s.cur.core s.me.ctx ({ g with digest := a }).bits
      .done (x.2.modStg (fun g => { g with digest := a, opened := false, unemitted := true, lastRec := x.1, lastRep := false })))

/-- JRNL_APP (R414, R420, R421). -/
def execJrnlApp (f : MgtF) (s : State) : Host.Outcome State Fault Refusal := issue s [f.a] (actJrnlApp f)

/-- A checkpoint of the context: from now on the units bound to it are those that it runs on (R427). -/
def State.unuse (s : State) (ctx : Nat) : State :=
  let now := (s.cores.filter (fun p => p.2.bound && decide (p.2.ctx = ctx))).flatMap (fun p => [(32 + p.1, ctx), (arrOf p.1, ctx)])
  { s with usedCkpt := s.usedCkpt.filter (fun p => decide (p.2 ≠ ctx)) ++ now }

/-- The effect of `jrnl.ckpt` (R418). -/
def actJrnlCkpt (f : MgtF) (s : State) : Act :=
  let a := (s.rd f.a).toNat
  let b := (s.rd f.b).toNat
  let ctx := s.me.ctx
  if s.me.timed then .wait s 0xA 0 0
  else if 2 ^ 32 ≤ a ∨ 2 ^ 32 ≤ b ∨ (match s.jrnl.lastCkpt ctx a with
      | some x => decide (b ≤ x)
      | none => false) = true then s.opTrap 0xB
  else if s.jrnl.full ∨ s.jrnl.crowded s.cur.core = true ∨ s.ordered s.cur.core = false then .wait s 0xA 0 0
  else
    let l := (s.release s.cur.core 4).later 0
    let s1 := l.2.modMs s.cur.core (fun m => { m with hold := some (.boundary (some 4) none l.1) })
    .done ((s1.append s.cur.core ctx (a + b * 2 ^ 32 + 2 ^ 104 + (s.rd f.c).toNat * 2 ^ 128)).2.unuse ctx)

/-- JRNL_CKPT (R418). -/
def execJrnlCkpt (f : MgtF) (s : State) : Host.Outcome State Fault Refusal := issue s [f.a, f.b, f.c] (actJrnlCkpt f)

/-! ## Emission (R416, R417) -/

/-- What a core has with the journal engine that is not over: emissions and digests. -/
def Journal.outstanding (j : Journal) (c : Nat) : Nat :=
  (j.emissions.filter (fun e => decide (e.core = c))).length + (j.reps.filter (fun e => decide (e.core = c))).length

/-- The effect of `emit` (R416). -/
def actEmit (f : MgtF) (s : State) : Act :=
  let g := s.me.im.stg
  let va := s.rd f.a
  let c := s.cur.core
  if g.unemitted = false then s.opTrap 0xB
  else if va.toNat % 32 ≠ 0 then memTrap 0x40 va.toNat (memStatus 0 0 1 0 0)
  else if s.jrnl.en = false ∨ 16 ≤ s.jrnl.outstanding c then .wait s 0xA 0 0
  else
    s.kAccess 1 va 32 (fun s ps =>
      let e : Emission := { va := va, pa := (ps.map (fun p => p.pa)).headD 0, bits := g.lastRec, sem := f.idx.toNat, waits := !g.lastRep,
                            core := c, ctx := s.me.ctx, origin := s.mySeq.index, sent := false }
      .done ((s.modStg (fun g => { g with unemitted := false })).modJ (fun j => { j with emissions := j.emissions ++ [e] })))

/-- EMIT (R416). -/
def execEmit (f : MgtF) (s : State) : Host.Outcome State Fault Refusal := issue s [f.a] (actEmit f)

/-- The emission record (Table 21-5), with G at its departure. -/
def State.emissionBytes (s : State) (r : BitVec 1024) : List Byte :=
  let v := rSeq r + rStep r * 2 ^ 32 + rToken r * 2 ^ 64 + s.sgen % 2 ^ 32 * 2 ^ 96 + rJidx r * 2 ^ 128
  leBytes 32 (v + crcOf 24 v * 2 ^ 192)

/-- An emission is over. -/
def State.dropEmission (s : State) (e : Emission) : State := s.modJ (fun j => { j with emissions := j.emissions.erase e })

/-- An emission that is refused (R346, R417). -/
def State.refuseEmission (s : State) (e : Emission) (cause : Nat) : State :=
  (s.dropEmission e).setPending e.core e.ctx
    { cause := cause, engine := 0, uidx := 0, status := impStatus 1 e.origin, addr := e.va, cmd := e.origin, packet := false, seq := 0 }

/-- The oldest emission of a core takes its next step (R417, R422, R425). -/
def State.emissionStep (s : State) (c : Nat) : Option State :=
  match s.jrnl.emissions.find? (fun e => decide (e.core = c)) with
  | none => none
  | some e =>
    let id := emitAgent c
    if e.sent then
      if s.writesOut id then none
      else
        match s.dom.answers.find? (fun a => decide (a.agent = id) && decide (a.cause ≠ 0)) with
        | some a => some ((s.forget id).refuseEmission e a.cause)
        | none => some (((s.forget id).dropEmission e).signalSem c e.ctx e.sem)
    else if s.jrnl.retracted.contains (e.ctx, rSeq e.bits) then some (s.dropEmission e)
    else if s.jrnl.en = false ∨ s.jrnl.lost = true ∨ s.plat.thermal = true ∨ (e.waits = true ∧ s.jrnl.acked ≤ rJidx e.bits) then none
    else
      match s.paKind e.pa with
      | .refused cause =>
        some ((s.logError (errDie c e.pa cause) (s.errEnt c e.pa e.va e.ctx cause 11)).refuseEmission e cause)
      | .home =>
        if s.extentBlocked e.pa 32 true then none
        else some (((s.homeWrite e.pa (s.emissionBytes e.bits)).dropEmission e).signalSem c e.ctx e.sem)
      | .window m off =>
        let s1 := s.domainSend m 2 0 0 0 3 e.ctx 32 0 off 0 0 (s.emissionBytes e.bits) (128 + id) e.pa
        some (s1.modJ (fun j => { j with emissions := j.emissions.map (fun x => if x = e then { e with sent := true } else x) }))

/-- EMISSION_PERFORM (R417). -/
def execEmissionPerform (c : Nat) (s : State) : Host.Outcome State Fault Refusal :=
  coreEvent "EMISSION_PERFORM" c (s.emissionStep c)

/-! ## Packets (R411) -/

/-- A packet of kind 0x60 appends its record, once. -/
def State.packetAppend (s : State) (w : Nat) (x : Work) : EngR State :=
  (s.pread x (pBody x.pkt 0) 128).andThen (fun bs s =>
    let s1 := s.forget (s.workAgent x).id
    let r := s1.append 128 x.ctx (leNat bs)
    .ok (r.2.setWork w { x with pos := [1, rJidx r.1], wait := .go }) s)

/-- JOURNAL_APPEND_PACKET (R411): the packet's record is appended, and the packet is done once it is acknowledged. -/
def execJournalAppendPacket (w : Nat) (s : State) : Host.Outcome State Fault Refusal :=
  event "JOURNAL_APPEND_PACKET"
    (match mfind s.works w with
     | none => none
     | some x =>
       if pKind x.pkt ≠ 0x60 ∨ s.workReady x = false then none
       else if x.pos.isEmpty then
         if s.jrnl.full then none
         else
           match x.wait.resume s (s.packetAppend w x) with
           | none => none
           | some (.ok t _) => some t
           | some (.wait t) => some t
           | some (.stand v t) => some (t.setWork w { x with wait := v })
           | some (.fail cause run va t) => some (t.workDone w x (failEffect x cause run va))
       else if x.pos.getD 1 0 < s.jrnl.acked then some (s.workDone w x Effect.none)
       else none)

/-! ## The partner (R411, R417, R418, R422) -/

/-- The first index from n up, of at most k, that is not among these. -/
def firstGap (l : List Nat) : Nat → Nat → Nat
  | 0, n => n
  | k + 1, n => if l.contains n then firstGap l k (n + 1) else n

/-- Every record below an index is held, and what stands above it. -/
def KeptPos.from_ (p : KeptPos) (n : Nat) : KeptPos :=
  let m := firstGap p.ahead p.ahead.length n
  { next := some m, ahead := p.ahead.filter (fun k => decide (m < k)) }

/-- A good record of this index has come. The first one of a module says where its journal begins, unless one that was discarded came before it; and one that
comes again, below which none is held, says that the module holds none below it any more. DESIGN CHOICE (log 53). -/
def KeptPos.accept (p : Option KeptPos) (ix : Nat) : KeptPos :=
  match p with
  | none => { next := some (ix + 1), ahead := [] }
  | some p =>
    if p.ahead.all (fun k => decide (ix ≤ k)) && p.ahead.contains ix then p.from_ ix
    else
      match p.next with
      | none => if p.ahead ≠ [] ∧ p.ahead.all (fun k => decide (ix ≤ k)) = true then { p with ahead := ix :: p.ahead }.from_ ix else { p with ahead := ix :: p.ahead }
      | some n => if ix < n then p else if ix = n then p.from_ (n + 1) else { p with ahead := if p.ahead.contains ix then p.ahead else ix :: p.ahead }

/-- The acknowledgement of what is held (R411): every record below it. -/
def KeptPos.upto (p : Option KeptPos) : Nat := (p.bind (fun p => p.next)).getD 0

/-- A journal store without what its acknowledged checkpoint records discard (R418). -/
def keptTruncate (l : List (BitVec 1024)) (upto : Nat) : List (BitVec 1024) :=
  let cs := l.filter (fun r => decide (rKind r = 1) && decide (rJidx r < upto))
  l.filter (fun x => !(cs.any (fun c => discards c x)))

/-- A record stored for another module, and how far its journal goes. A module that has been reset begins again with index 0. -/
def Journal.keep (j : Journal) (src : Nat) (r : BitVec 1024) : Journal :=
  let l := mget [] j.kept src
  let old := if rJidx r = 0 ∧ l.contains r = false then none else mfind j.keptPos src
  let p := KeptPos.accept old (rJidx r)
  { j with kept := mset j.kept src (keptTruncate (l.filter (fun x => decide (rJidx x ≠ rJidx r)) ++ [r]) (KeptPos.upto (some p))),
           keptPos := mset j.keptPos src p }

/-- JOURNAL_RECORD_RECEIVE (R411, R418): as partner, the module stores a record and acknowledges what it holds every record below; one whose CRC fails is
discarded, and the acknowledgement stays as it was. -/
def execJournalRecordReceive (src : Nat) (r : BitVec 1024) (s : State) : Host.Outcome State Fault Refusal :=
  .next
    (if s.inDomain then
        let s1 := s.modJ (fun j =>
          if crcGood r then j.keep src r
          else if (mfind j.keptPos src).isNone then { j with keptPos := mset j.keptPos src { next := none, ahead := [] } } else j)
        s1.send (.journalAck src (KeptPos.upto (mfind s1.jrnl.keptPos src)))
    else s)

/-- JOURNAL_ACK_RECEIVE (R411, R417, R418): every record below an index is held by the partner; with one that brings nothing new, the partner asks for the first
record that it does not hold again. What another module than the partner sends has no effect (R422). DESIGN CHOICE (log 53). -/
def execJournalAckReceive (a : JournalAck) (s : State) : Host.Outcome State Fault Refusal :=
  .next
    (if s.jrnl.lost ∨ s.plat.thermal ∨ a.src ≠ s.jrnl.partner then s
    else if s.jrnl.acked < a.upto then
      s.modJ (fun j => ({ j with acked := Nat.min a.upto j.taken, ackAt := s.cyc }).truncate)
    else
      match s.jrnl.ring.find? (fun r => decide (s.jrnl.acked ≤ r.1) && decide (r.1 < s.jrnl.taken)) with
      | some r => s.send (.journal s.jrnl.partner r.2)
      | none => s)

/-- 256 µs of cycles (R2, R422). -/
def partnerWait : Nat := 768000

/-- PARTNER_LOST (R422). -/
def execPartnerLost (s : State) : Host.Outcome State Fault Refusal :=
  event "PARTNER_LOST"
    (let j := s.jrnl
     let late := decide (j.acked < j.taken) && decide (j.ackAt + partnerWait ≤ s.cyc)
     let left := !s.dom.members.isEmpty && !s.dom.members.contains j.partner
     let log (d : Nat) (s : State) : State :=
       s.logError d { pa := 0, va := 0, tstep := s.tstep, ctx := 0, cause := 0xB1, engine := 11, core := 0, die := d }
     if j.en && !j.lost && !s.plat.thermal && (late || left) then some ((log 1 (log 0 s)).modJ (fun j => { j with lost := true })) else none)

/-- PARTNER_REASSIGN (R422): a new partner is sent the whole ring, in order; not in a thermal shutdown (R441). -/
def execPartnerReassign (m : Nat) (s : State) : Host.Outcome State Fault Refusal :=
  event "PARTNER_REASSIGN"
    (let j := s.jrnl
     if j.lost ∧ m < 2 ^ 16 ∧ s.plat.thermal = false then
       let low := (j.ring.map (fun r => r.1)).foldl Nat.min j.jidx
       let s1 := s.modJ (fun j =>
         { j with lost := false, acked := low, ackAt := s.cyc,
                  jctl := BitVec.ofNat 64 (j.jctl.toNat % 2 ^ 48 + m * 2 ^ 48) })
       some ((j.ring.filter (fun r => decide (r.1 < j.taken))).foldl (fun s r => s.send (.journal m r.2)) s1)
     else none)

/-- JCTL_WRITE (R410): JCTL and JRING are written while the engine is off; en is set only with a legal lsize and ring, and may be cleared. DEDUCED (log 53). -/
def execJctlWrite (jctl jring : Word) (s : State) : Host.Outcome State Fault Refusal :=
  event "JCTL_WRITE"
    (let v : Word := jctl &&& 0xFFFFFFFFFF000001
     let lsize := fld v.toNat 24 8
     let legal := decide (10 ≤ lsize) && decide (lsize ≤ 24) && decide (jring.toNat % 4096 = 0) && inHbm jring.toNat &&
       inHbm (jring.toNat + 128 * 2 ^ lsize - 1)
     let ok := if s.jrnl.en then !v.getLsbD 0 && decide (v = s.jrnl.jctl &&& ~~~1#64) && decide (jring = s.jrnl.jring)
       else !v.getLsbD 0 || legal
     if s.firmware = false then some s
     else if ok then some (s.modJ (fun j => { j with jctl := v, jring := jring, ackAt := s.cyc })) else none)

/-! ## Replay (R419, R423, R425) -/

/-- REPLAY_STORE_INSTALL (R419): a store puts a context in replay mode, and no records take it out. -/
def execReplayStoreInstall (ctx : Nat) (recs : List (BitVec 1024)) (s : State) : Host.Outcome State Fault Refusal :=
  event "REPLAY_STORE_INSTALL"
    (s.manage (if 1024 ≤ ctx then none
    else
      some (s.modJ (fun j =>
        if recs.isEmpty then { j with stores := mdel j.stores ctx }
        else
          (recs.filter (fun r => decide (rKind r = 1))).foldl (fun j r =>
            match j.lastCkpt ctx (rSeq r) with
            | some x => j.noteCkpt ctx (rSeq r) (Nat.max x (rStep r))
            | none => j.noteCkpt ctx (rSeq r) (rStep r)) { j with stores := mset j.stores ctx recs }))))

/-- The lowest core on which a context has state. -/
def State.someCore (s : State) (ctx : Nat) : Nat := ((s.boundCores ctx 0 ++ s.boundCores ctx 1).head?).getD 0

/-- SCAN_FAILURE_REPLAY (R425): a suspect sequence has been replayed on the partner: it is confirmed, or retracted from a step. -/
def execScanFailureReplay (ctx q gen : Nat) (diverge : Option Nat) (s : State) : Host.Outcome State Fault Refusal :=
  event "SCAN_FAILURE_REPLAY"
    (let mine (r : BitVec 1024) : Bool := decide (rCtx r = ctx) && decide (rSeq r = q)
     if s.jrnl.ring.any (fun r => mine r.2 && decide (rKind r.2 = 0) && decide (gen - 1 ≤ rStamp r.2)) then
       some (match diverge with
         | none => s.notice [] (fun d => .confirmNotice d s.dom.modid q gen)
         | some st =>
           ((s.notice [] (fun d => .retractNotice d s.dom.modid q st)).modJ (fun j =>
             { j with ring := j.ring.filter (fun r => !(mine r.2 && decide (st ≤ rStep r.2))), retracted := (ctx, q) :: j.retracted })).raiseError
             (s.someCore ctx) ctx 0xB3 11 (BitVec.ofNat 64 q))
     else none)

/-- A partner's store without what a retract notice names (R425): the records of a sequence from a step onward. -/
def Journal.retractKept (j : Journal) (src seqn step : Nat) : Journal :=
  match mfind j.kept src with
  | some l => { j with kept := mset j.kept src (l.filter (fun r => !(decide (rSeq r = seqn) && decide (step ≤ rStep r)))) }
  | none => j

/-- The retract notices of other modules that have come are heeded (R425). -/
def State.heedNotices (s : State) : State :=
  let now (m : Nat × PeerMsg) : Option (Nat × Nat × Nat) :=
    match m.2 with
    | .retracted src q st => if m.1 ≤ s.cyc then some (src, q, st) else none
    | _ => none
  let ns := s.dom.inbox.filterMap now
  if ns.isEmpty then s
  else
    { s with dom := { s.dom with inbox := s.dom.inbox.filter (fun m => (now m).isNone) },
             jrnl := if s.plat.thermal then s.jrnl else ns.foldl (fun j n => j.retractKept n.1 n.2.1 n.2.2) s.jrnl }

/-! ## Replicas (R426, R427) -/

/-- A digest of this side and one of the peer are compared; where they differ, the cores of the context are stopped (R427). -/
def State.compareDigests (s : State) (r : RepWait) (digest : Word) : State :=
  if r.digest = digest then
    (s.signalSem r.core r.ctx r.sem).modJ (fun j =>
      { j with disputes := j.disputes.filter (fun d => !(decide (d.1 = r.ctx) && decide (d.2.1 = r.step))) })
  else
    let n := ((s.jrnl.disputes.find? (fun d => decide (d.1 = r.ctx) && decide (d.2.1 = r.step))).map (fun d => d.2.2)).getD 0
    ((s.modJ (fun j =>
      { j with disputes := (r.ctx, r.step, n + 1) :: j.disputes.filter (fun d => !(decide (d.1 = r.ctx) && decide (d.2.1 = r.step))) })).raiseError
      r.core r.ctx 0xB4 11 0).stopAll r.ctx

/-- The effect of `jrnl.rep` (R426). -/
def actJrnlRep (f : MgtF) (s : State) : Act :=
  let c := s.cur.core
  let j := s.jrnl
  if j.en = false ∨ 16 ≤ j.outstanding c then .wait s 0xA 0 0
  else
    let step := (s.rd f.b).toNat
    let r : RepWait := { core := c, ctx := s.me.ctx, step := step, digest := s.rd f.a, sem := f.idx.toNat, origin := s.mySeq.index }
    let s1 := if j.replica = 0xFFFF then s else s.send (.replica j.replica r.ctx step r.digest)
    .done (match j.peerReps.find? (fun p => decide (p.1 = r.ctx) && decide (p.2.1 = step)) with
      | some p => (s1.modJ (fun j => { j with peerReps := j.peerReps.erase p })).compareDigests r p.2.2
      | none => s1.modJ (fun j => { j with reps := j.reps ++ [r] }))

/-- JRNL_REP (R426). -/
def execJrnlRep (f : MgtF) (s : State) : Host.Outcome State Fault Refusal := issue s [f.a, f.b] (actJrnlRep f)

/-- REPLICA_DIGEST_ARRIVAL (R426). -/
def execReplicaDigestArrival (ctx step : Nat) (digest : Word) (s : State) : Host.Outcome State Fault Refusal :=
  .next
    (if s.plat.thermal then s
    else
      (match s.jrnl.reps.find? (fun r => decide (r.ctx = ctx) && decide (r.step = step)) with
        | some r => (s.modJ (fun j => { j with reps := j.reps.erase r })).compareDigests r digest
        | none => s.modJ (fun j => { j with peerReps := j.peerReps ++ [(ctx, step, digest)] })))

/-- The stop bits of a context's cores cleared, so that it re-runs. -/
def State.clearStops (s : State) (ctx : Nat) : State :=
  match s.ctxDesc ctx with
  | some a => s.homeWrite (a + 8) (leBytes 16 0)
  | none => s

/-- The units bound to a context since its last checkpoint that their scans find to fail (R427): which ones is left open, but one at least. DESIGN CHOICE
(log 54). -/
def State.suspectUnits (s : State) (ctx : Nat) : List Nat × State :=
  let us := (s.usedCkpt.filter (fun p => decide (p.2 = ctx))).map (fun p => p.1)
  let bad := ((upTo 0 us.length).zip us).filter (fun p => (Config.freeWord (s.draws + 1 + p.1)).getLsbD 0)
  (if bad.isEmpty then (us[(Config.freeWord s.draws).toNat % Nat.max 1 us.length]?).toList else bad.map (fun p => p.2),
   { s with draws := s.draws + 1 + us.length })

/-- A unit that fails a scan out of rotation (R427): the slots of the rotation stand (R351). -/
def State.scanFailOut (s : State) (unit : Nat) : State := { s.scanFail unit with scans := s.scans }

/-- REPLICA_RESOLUTION (R427): the cores of the context are stopped, every unit bound to it since its last checkpoint has been scanned, and Table 21-6 decides
by the scans and, after a second comparison that differs, by a third module. -/
def execReplicaResolution (ctx : Nat) (failHere failPeer minority tie : Bool) (s : State) : Host.Outcome State Fault Refusal :=
  event "REPLICA_RESOLUTION"
    (match s.jrnl.disputes.find? (fun d => decide (d.1 = ctx)) with
     | none => none
     | some d =>
       let s1 := s.stopAll ctx
       let over_ (s : State) : State := s.modJ (fun j => { j with disputes := j.disputes.erase d })
       if failHere then
         let u := s1.suspectUnits ctx
         let s2 := u.1.foldl State.scanFailOut u.2
         some (if failPeer then over_ (s2.clearStops ctx) else over_ s2)
       else if failPeer then some (over_ (s1.clearStops ctx))
       else if d.2.2 < 2 then some (s1.clearStops ctx)
       else if tie then
         let log (n : Nat) (s : State) : State :=
           s.logError n { pa := 0, va := 0, tstep := s.tstep, ctx := ctx, cause := 0xB6, engine := 11, core := 0, die := n }
         some (over_ (log 0 s1))
       else if minority then
         some (over_ { s1 with removals := mset s1.removals ctx { step := 0, deadline := 0, cause := 0xB5, engine := 11, unit := 0, status := 0 } })
       else some (over_ (s1.clearStops ctx)))

end Sys2Proof.Machine
end

