-- ==== Sys2Proof/Machine/Hosts.lean ====
section
/-! DEFINITION. Hosts, boot, resets and thermal shutdown (R407 to R409, R434 to R441). -/
namespace Sys2Proof.Machine

/-- The state with what concerns boot, power and hosts changed. -/
def State.modPlat (s : State) (f : Platform → Platform) : State := { s with plat := f s.plat }

/-! ## Accesses of hosts (R407, R408) -/

/-- A function of a port: 0 the physical one, 1 to 16 the virtual ones. -/
def fnKey (port fn : Nat) : Nat := 17 * port + fn

/-- The agent of a function's accesses to other modules. -/
def hostAgent (port fn : Nat) : Nat := 8192 + fnKey port fn

/-- Where a window access of a function goes (R408): its address, what stands there or why nothing may, and its context; none when it fails translation
or permission. DESIGN CHOICE (log 55). -/
def State.hostPlace (s : State) (port fn kind : Nat) (addr : Word) (n : Nat) : Option (Nat × PaKind × Nat) :=
  let at_ (ctx pa : Nat) : Option (Nat × PaKind × Nat) :=
    match s.paKind pa, s.paKind (pa + n - 1) with
    | .home, k => some (pa, k, ctx)
    | k, _ => some (pa, k, ctx)
  if 2 ^ 36 < addr.toNat + n then none
  else if fn = 0 then at_ 0 addr.toNat
  else
    match mfind s.plat.vfs (fnKey port fn) with
    | none => none
    | some b =>
      match s.walkPage b.ctx (s.rootOf b.ctx) addr kind with
      | .error _ => none
      | .ok e => at_ b.ctx (e.pa addr)

/-- The port answers accesses (R436, R441): it is trained, and the module is not in recovery. What comes where nothing answers has no effect. -/
def State.barUp (s : State) (port fn : Nat) : Bool :=
  decide (port < 2) && decide (fn < 17) && decide (4 ≤ s.plat.bootStep) && !s.plat.recovery && mget true s.plat.linkUp port

/-- Home agents hold back a host's access (R321): it is performed once the near-bank command has completed. -/
def State.hostHeld (s : State) (port fn kind : Nat) (addr : Word) (n : Nat) : Bool :=
  match s.hostPlace port fn kind addr n with
  | some (pa, .home, _) => s.extentBlocked pa n (decide (kind ≠ 0))
  | _ => false

/-- A host's access receives an error response: it is logged, with engine 10, and completes with Completer Abort (R345, R406, R408). DESIGN CHOICE
(log 55). -/
def State.hostError (s : State) (port fn pa : Nat) (va : Word) (ctx cause : Nat) : State :=
  (s.logError (errDie 0 pa cause) { pa := pa, va := if fn = 0 then 0 else va, tstep := s.tstep, ctx := ctx, cause := cause, engine := 10, core := 0, die := 0 }).send
    (.completerAbort port fn)

/-- A window access of a function: refused, of a home here, or of another module. -/
def State.hostAccess (s : State) (port fn kind : Nat) (addr : Word) (n : Nat) (home : Nat → State) (window : Nat → Nat → Nat → Nat → State) : State :=
  if s.plat.thermal then s.send (.completerAbort port fn)
  else
    match s.hostPlace port fn kind addr n with
    | none => s.send (.completerAbort port fn)
    | some (pa, .refused cause, ctx) => s.hostError port fn pa addr ctx cause
    | some (pa, .window m off, ctx) => window m off ctx pa
    | some (pa, .home, ctx) => if kind ≠ 1 ∧ (firstBad s.bad pa n).isSome = true then s.hostError port fn pa addr ctx 0x83 else home pa

/-- HOST_WRITE (R408): a module-scope release of one write. -/
def execHostWrite (port fn : Nat) (addr : Word) (bs : List Byte) (s : State) : Host.Outcome State Fault Refusal :=
  if 2 ≤ port ∨ 17 ≤ fn then .fault .noSuchUnit
  else
    event "HOST_WRITE"
      (if !s.barUp port fn then some s
      else if decide (0 < bs.length) && decide (bs.length ≤ 512) && decide (addr.toNat % 4096 + bs.length ≤ 4096) && !s.hostHeld port fn 1 addr bs.length then
        some (s.hostAccess port fn 1 addr bs.length (fun pa => s.homeWrite pa bs)
          (fun m off ctx pa => s.domainSend m 2 0 0 0 3 ctx bs.length 0 off 0 0 bs (128 + hostAgent port fn) pa))
      else none)

/-- The code (Table 11-3) of a PCIe AtomicOp: 0 FetchAdd, 1 Swap, 2 CAS. -/
def hostAop (aop : Nat) : Nat := if aop = 0 then 0x54 else if aop = 1 then 0x57 else 0x58

/-- As many domain atomics as 1 ms allows have been sent to the module that a host's window atomic names (R398). -/
def State.hostLimited (s : State) (port fn : Nat) (addr : Word) (n : Nat) : Bool :=
  match s.hostPlace port fn 2 addr n with
  | some (_, .window m _, _) => decide (4096 ≤ s.sentRecently m)
  | _ => false

/-- A host's AtomicOp at its home: its old value is returned. -/
def State.hostAtomic (s : State) (port fn aop size : Nat) (v cv : Word) (pa : Nat) : State :=
  let old := s.homeNat pa size
  (match atomicNew (hostAop aop) 0 (8 * size) old v.toNat cv.toNat with
    | some x => s.homeWrite pa (leBytes size x)
    | none => s).send (.hostData port fn (BitVec.ofNat 64 old))

/-- HOST_ATOMIC_OP (R398, R407): performed at the home, and its old value returned. -/
def execHostAtomicOp (port fn : Nat) (addr : Word) (aop size : Nat) (v cv : Word) (s : State) : Host.Outcome State Fault Refusal :=
  if 2 ≤ port ∨ 17 ≤ fn then .fault .noSuchUnit
  else
    event "HOST_ATOMIC_OP"
      (if !s.barUp port fn then some s
      else if decide (aop < 3) && (decide (size = 4) || decide (size = 8)) && decide (addr.toNat % size = 0) && !s.hostHeld port fn 2 addr size &&
          !s.hostLimited port fn addr size then
        some (s.hostAccess port fn 2 addr size (s.hostAtomic port fn aop size v cv)
          (fun m off ctx pa => s.askAtomic false 0 (hostAgent port fn) m (hostAop aop) (if size = 4 then 2 else 3) ctx off v cv pa))
      else none)

/-- The agent of a function's reads from other modules. -/
def hostReadAgent (port fn : Nat) : Nat := hostAgent port fn + 64

/-- What another module answered to a function's access is passed on; an access that nothing answered is logged here (R345, R406). -/
def State.hostAnswer (s : State) (a : Answer) : State :=
  let k := if a.agent < 8256 then a.agent - 8192 else a.agent - 8256
  let port := k / 17
  let fn := k % 17
  if a.cause = 0xA1 then s.hostError port fn a.pa 0 (((mfind s.plat.vfs k).map (fun b => b.ctx)).getD 0) 0xA1
  else if a.cause ≠ 0 then s.send (.completerAbort port fn)
  else if a.agent < 8256 then s.send (.hostData port fn (BitVec.ofNat 64 (leNat (a.bytes.take 8))))
  else s.send (.hostBytes port fn a.bytes)

/-- A function reads bytes of its window (R408), of one page at most; one that home agents hold back waits. DESIGN CHOICE (log 55). -/
def State.hostRead (s : State) (port fn : Nat) (addr : Word) (n : Nat) : State :=
  if !s.barUp port fn then s
  else if n = 0 ∨ 4096 < addr.toNat % 4096 + n then s.send (.completerAbort port fn)
  else
    s.hostAccess port fn 0 addr n
      (fun pa =>
        if s.extentBlocked pa n false then { s with dom := { s.dom with inbox := s.dom.inbox ++ [(s.cyc, .hostRead port fn addr n)] } }
        else s.send (.hostBytes port fn (s.homeBytes pa n)))
      (fun m off ctx pa => s.domainSend m 1 0 0 0 3 ctx n 0 off 0 0 [] (128 + hostReadAgent port fn) pa)

/-- A function reads a doorbell slot (R408): prog of the queue that the slot reaches (R381). -/
def State.slotRead (s : State) (port fn slot : Nat) : State :=
  if !s.barUp port fn then s
  else if s.plat.thermal then s.send (.completerAbort port fn)
  else
    match (mfind s.plat.vfs (fnKey port fn)).bind (fun b => mfind b.slots slot) with
    | some q => s.send (.hostData port fn (s.progRead q))
    | none => s.send (.completerAbort port fn)

/-- The message is a read of a host or of the management core. -/
def PeerMsg.reads (m : PeerMsg) : Bool :=
  match m with
  | .hostRead _ _ _ _ => true
  | .slotRead _ _ _ => true
  | .spaceRead _ _ => true
  | _ => false

/-- A read of a host or of the management core is answered. -/
def State.answerRead (s : State) (m : Nat × PeerMsg) : State :=
  match m.2 with
  | .hostRead port fn addr n => if port < 2 ∧ fn < 17 then s.hostRead port fn addr n else s
  | .slotRead port fn slot => if port < 2 ∧ fn < 17 then s.slotRead port fn slot else s
  | .spaceRead pa n => if s.managed then s.spaceRead pa n else s
  | _ => s

/-- Answers of other modules to accesses of hosts are passed on, and reads that have come are answered. -/
def State.serveHosts (s : State) : State :=
  let mine := s.dom.answers.filter (fun a => decide (8192 ≤ a.agent))
  let s1 := if mine.isEmpty then s
    else mine.foldl State.hostAnswer { s with dom := { s.dom with answers := s.dom.answers.filter (fun a => decide (a.agent < 8192)) } }
  let now := s1.dom.inbox.filter (fun m => decide (m.1 ≤ s.cyc) && m.2.reads)
  if now.isEmpty then s1
  else now.foldl State.answerRead { s1 with dom := { s1.dom with inbox := s1.dom.inbox.filter (fun m => !(decide (m.1 ≤ s.cyc) && m.2.reads)) } }

/-- DOORBELL_WRITE (R408): tail of the queue table entry that the slot is granted; discarded in a thermal shutdown. -/
def execDoorbellWrite (port fn slot : Nat) (v : Word) (s : State) : Host.Outcome State Fault Refusal :=
  if 2 ≤ port ∨ 17 ≤ fn then .fault .noSuchUnit
  else
    event "DOORBELL_WRITE"
      (if !s.barUp port fn then some s
      else if decide (slot < 64) then
        some (if s.plat.thermal then s
          else
            match (mfind s.plat.vfs (fnKey port fn)).bind (fun b => mfind b.slots slot) with
            | some q => s.tailWrite q v
            | none => s.send (.completerAbort port fn))
      else none)

/-! ## Takeover (R409) -/

/-- The function of the taking port that a binding moves to: the first, from 1 up, that has none. -/
def freeFn (m : Map VfBind) (port : Nat) : Option Nat := (upTo 1 16).find? (fun fn => (mfind m (fnKey port fn)).isNone)

/-- The bindings and grants of the other port move to the taking one. -/
def takeBindings (m : Map VfBind) (port : Nat) : Map VfBind :=
  (upTo 1 16).foldl (fun m fn =>
    match mfind m (fnKey (1 - port) fn) with
    | none => m
    | some b =>
      match freeFn m port with
      | none => m
      | some t => mset (mdel m (fnKey (1 - port) fn)) (fnKey port t) b) m

/-- A takeover is performed. -/
def State.takeOver (s : State) (port : Nat) : State := s.modPlat (fun p => { p with vfs := takeBindings p.vfs port, takeover := none })

/-- The management core runs, and its mailboxes answer (R436, R441); before, what is asked of them has no effect. -/
def State.mailbox (s : State) : Bool := s.plat.recovery || decide (3 ≤ s.plat.bootStep)

/-- MAILBOX_TAKEOVER (R409): completed when the other link is down or the other function consents, and else it pends. -/
def execMailboxTakeover (port : Nat) (consent : Bool) (s : State) : Host.Outcome State Fault Refusal :=
  if 2 ≤ port then .fault .noSuchUnit
  else
    event "MAILBOX_TAKEOVER"
      (if !s.mailbox || s.plat.recovery then some s
      else
        some (if consent || !(mget true s.plat.linkUp (1 - port)) then s.takeOver port
          else s.modPlat (fun p => { p with takeover := some port })))

/-- HOST_LINK_DOWN (R409). -/
def execHostLinkDown (port : Nat) (s : State) : Host.Outcome State Fault Refusal :=
  if 2 ≤ port then .fault .noSuchUnit
  else
    let s1 := s.modPlat (fun p => { p with linkUp := mset p.linkUp port false })
    .next (if s1.plat.takeover = some (1 - port) then s1.takeOver (1 - port) else s1)

/-! ## Signed records and boot (R434 to R438) -/

/-- The least secver a record of a kind must have (R434). -/
def Platform.need (p : Platform) (kind : Nat) : Nat := if kind = 0 then p.floor else mget 0 p.minsec kind

/-- The key that a record comes with has the hash that the ROM holds (R434): of its coordinates, 32 bytes each, big-endian. DESIGN CHOICE (log 10). -/
def keyGood (key : Nat × Nat) : Bool := decide (sha256 (beBytes 32 key.1 ++ beBytes 32 key.2) = Config.romKeyHash)

/-- The signature of a record verifies (R434): over bytes 0–63 of its header, r in bytes 64–95, s in bytes 96–127. -/
def signatureGood (key : Nat × Nat) (h : List Byte) : Bool :=
  ecdsaVerify key (h.take 64) (beNat ((h.drop 64).take 32)) (beNat ((h.drop 96).take 32))

/-- A signed record's secver and body, if it is accepted (R434). The key that the record comes with is a free value (log 10). -/
def Platform.accepts (p : Platform) (kind : Nat) (bs : List Byte) : Option (Nat × List Byte) :=
  let h := leNat (bs.take 128)
  let secver := fld h 64 32
  let n := fld h 96 32
  let body := (bs.drop 128).take n
  if 128 ≤ bs.length ∧ fld h 0 32 = 0x5253564C ∧ fld h 32 8 = kind ∧ body.length = n ∧
      keyGood (Config.recordKey bs) = true ∧ signatureGood (Config.recordKey bs) bs = true ∧ (bs.drop 16).take 32 = sha256 body ∧
      p.need kind ≤ secver then
    some (secver, body)
  else none

/-- The copy of a kind that is accepted: A, else B (R436), as the flash was at the module reset (R437). -/
def Platform.choose (p : Platform) (kind : Nat) : Option (Nat × List Byte) :=
  match p.accepts kind (mget [] p.boot (2 * kind)) with
  | some r => some r
  | none => p.accepts kind (mget [] p.boot (2 * kind + 1))

/-- The measurement after an accepted record (R438): m := SHA-256(m ‖ body digest). -/
def measureNext (m : BitVec 256) (body : List Byte) : BitVec 256 := BitVec.ofNat 256 (beNat (sha256 (beBytes 32 m.toNat ++ sha256 body)))

/-- The measurement goes on with an accepted record. -/
def Platform.measured (p : Platform) (body : List Byte) : Platform := { p with measure := measureNext p.measure body }

/-- The kinds of record that a configuration record names a minimum for. -/
def recordKinds : List Nat := [1, 2, 3, 4]

/-- BOOT_RECORD_ACCEPT (R434, R435, R436): step 2, for the configuration and then the management firmware. -/
def execBootRecordAccept (kind : Nat) (s : State) : Host.Outcome State Fault Refusal :=
  event "BOOT_RECORD_ACCEPT"
    (let p := s.plat
     if p.bootStep ≠ 2 ∨ p.recovery = true ∨ p.thermal = true ∨ 1 < kind ∨ (kind = 0) ≠ (p.minsec.isEmpty = true) then none
     else
       some (match p.choose kind with
         | none => s.modPlat (fun p => { p with recovery := true })
         | some (secver, body) =>
           s.modPlat (fun p =>
             let q := p.measured body
             if kind = 0 then
               { q with floor := Nat.max p.floor secver, minsec := recordKinds.map (fun k => (k, Config.minSecver body k)) }
             else { q with bootStep := 3 })))

/-- FIRMWARE_TRAINING (R436): step 3. DESIGN CHOICE (log 56). -/
def execFirmwareTraining (s : State) : Host.Outcome State Fault Refusal :=
  event "FIRMWARE_TRAINING"
    (if s.plat.bootStep = 3 ∧ s.plat.recovery = false ∧ s.plat.thermal = false then some (s.modPlat (fun p => { p with bootStep := 4 })) else none)

/-- A record of kinds 2 to 4 is accepted and loaded, or the module enters recovery. -/
def State.loadRecord (s : State) (kind : Nat) : State :=
  if s.plat.recovery then s
  else
    match s.plat.choose kind with
    | none => s.modPlat (fun p => { p with recovery := true })
    | some (_, body) =>
      let s1 := s.modPlat (fun p => p.measured body)
      if kind = 2 then s1.loadStore (Config.nearBankImage body).1 (Config.nearBankImage body).2
      else if kind = 3 then
        { s1 with stores := { s1.stores with poolEps := (Config.poolImage body).1, updEps := (Config.poolImage body).2 } }
      else s1

/-- BOOT_STORE_LOAD (R436): step 4. -/
def execBootStoreLoad (s : State) : Host.Outcome State Fault Refusal :=
  event "BOOT_STORE_LOAD"
    (if s.plat.bootStep = 4 ∧ s.plat.recovery = false ∧ s.plat.thermal = false then
      let t := ((s.loadRecord 2).loadRecord 3).loadRecord 4
      some (if t.plat.recovery then t else t.modPlat (fun p => { p with bootStep := 5 }))
    else none)

/-- The units that have not passed a scan. -/
def State.unscanned (s : State) : List Nat := (upTo 0 160).filter (fun u => decide (mget 0 s.gens u = 0))

/-- BOOT_SCAN (R436, R352): step 5, every unit that has not been scanned passes its first scan; one that has failed it (ROTATION_SCAN_SLOT) has yet to pass
one. Once every unit has, boot ends, and the rotation goes on with its next slot. DESIGN CHOICE (log 44). -/
def execBootScan (s : State) : Host.Outcome State Fault Refusal :=
  event "BOOT_SCAN"
    (if s.plat.bootStep = 5 ∧ s.plat.recovery = false ∧ s.plat.thermal = false then
      let now := s.unscanned.filter (fun u => !s.fenced.contains u)
      let t : State := { s with gens := now.foldl (fun m u => mset m u 1) s.gens }
      if t.unscanned = [] then
        some ({ t with scans := (upTo 0 160).map (fun u => (u, slotsBegun u s.cyc)) }.modPlat (fun p => { p with bootStep := 6 }))
      else if now = [] then none
      else some t
    else none)

/-- MAILBOX_RECORD_WRITE (R436, R437): a copy in flash, from which the module boots after its next reset. -/
def execMailboxRecordWrite (copyB : Bool) (kind : Nat) (bs : List Byte) (s : State) : Host.Outcome State Fault Refusal :=
  event "MAILBOX_RECORD_WRITE"
    (if !s.mailbox then some s
    else if kind ≤ 4 then some (s.modPlat (fun p => { p with flash := mput [] p.flash (2 * kind + b2n copyB) bs })) else none)

/-- The signature of a quote (R438): over m and the nonce, by the device's own key; r, then s. -/
def quoteSign (m nonce : BitVec 256) : BitVec 512 :=
  let text := beBytes 32 m.toNat ++ beBytes 32 nonce.toNat
  let x := ecdsaSign Config.deviceKey (Config.signSecret text) text
  BitVec.ofNat 512 (x.1 * 2 ^ 256 + x.2)

/-- ATTESTATION_QUOTE (R438). -/
def execAttestationQuote (nonce : BitVec 256) (s : State) : Host.Outcome State Fault Refusal :=
  .next (if s.mailbox then
      let m := s.plat.measure
      s.send (.quote m (quoteSign m nonce))
    else s)

/-! ## Resets (R436, R439) -/

/-- The module after a module reset: flash, its floor, and what is outside the module stand. DESIGN CHOICE (log 47). -/
def State.resetModule (s : State) : State :=
  { State.reset with
    plat := { Platform.init with flash := s.plat.flash, boot := s.plat.flash, floor := s.plat.floor },
    inputs := s.inputs.map (fun x => (x.1 - s.cyc, x.2)), strikes := s.strikes.map (fun x => (x.1 - s.cyc, x.2)), outbox := s.outbox, archive := s.archive, draws := s.draws, serial := s.serial,
    dom := { Domain.init with inbox := s.dom.inbox.map (fun x => (x.1 - s.cyc, x.2)) } }

/-- A module reset is asked for: in a thermal shutdown it begins only once the dies have cooled (R441). -/
def State.askReset (s : State) : State :=
  if s.plat.thermal ∧ s.plat.hot then s.modPlat (fun p => { p with resetReq := true }) else s.resetModule

/-- MODULE_RESET (R436, R439). -/
def execModuleReset (s : State) : Host.Outcome State Fault Refusal := .next s.askReset

/-- FUNCTION_LEVEL_RESET (R439): of a virtual function, its context is removed; of a physical function's port, a module reset. -/
def execFunctionLevelReset (port fn : Nat) (s : State) : Host.Outcome State Fault Refusal :=
  if 2 ≤ port ∨ 17 ≤ fn then .fault .noSuchUnit
  else
    .next (if fn = 0 then s.askReset
      else
        match mfind s.plat.vfs (fnKey port fn) with
        | none => s
        | some b =>
          match mfind s.removals b.ctx with
          | some r => if r.step = 0 then s.startRemoval b.ctx r else s
          | none => s.startRemoval b.ctx { step := 1, deadline := 0, cause := 0, engine := 0, unit := 0, status := 0 })

/-! ## Thermal shutdown (R440, R441) -/

/-- The record of a context bound to a row at a shutdown, sent through both mailboxes. -/
def State.reportLost (s : State) (ctx : Nat) : State :=
  let d := if (s.boundCores ctx 0).isEmpty ∧ (s.boundCores ctx 1).isEmpty = false then 1 else 0
  let r : TrapRec :=
    { seg := 0, addr := 0, tstep := s.tstep, sched := 0, status := 0, cmd := 0, cause := 0x88, engine := 0, uidx := 0, seq := 0, cls := 3,
      ctx := ctx, die := d, core := 0, npend := 0, more := 0, waits := false, pend := false }
  [0, 1].foldl (fun s p => (s.send (.record p r.bits)).send (.hostEvent p)) s

/-- The module without its compute dies and memories. DESIGN CHOICE (log 47). -/
def State.powerDown (s : State) : State :=
  { s with cores := [], arrays := [], dies := [], mem := [], blog := [], images := [], launches := [], entryDone := [], works := [],
           frames := [], fills := [], wires := [], removals := [], relQ := [], placed := [], nbHeld := [], stlb := [], pfetch := [],
           descs := [], bad := [], linkErr := [], usedBy := [], usedCkpt := [], entered := [],
           stores := { words := [], entries := [], poolEps := [], updEps := [] },
           jrnl := { s.jrnl with emissions := [], reps := [] },
           dom := { s.dom with reqs := [], answers := [], held := [] } }

/-- THERMAL_SHUTDOWN (R440, R441). DESIGN CHOICE (log 57). -/
def execThermalShutdown (hot : Bool) (s : State) : Host.Outcome State Fault Refusal :=
  event "THERMAL_SHUTDOWN"
    (if s.plat.thermal then none
    else
      let s1 := s.boundContexts.foldl State.reportLost ((s.send (.hostEvent 0)).send (.hostEvent 1))
      some (s1.powerDown.modPlat (fun p => { p with thermal := true, hot := hot })))

/-- THERMAL_SHUTDOWN_EXIT (R441): every die has cooled below 85 °C, and a reset asked for begins. -/
def execThermalShutdownExit (s : State) : Host.Outcome State Fault Refusal :=
  event "THERMAL_SHUTDOWN_EXIT"
    (if s.plat.thermal ∧ (s.plat.resetReq ∨ s.plat.hot) then
      some (if s.plat.resetReq then s.resetModule else s.modPlat (fun p => { p with hot := false }))
    else none)

end Sys2Proof.Machine
end

