-- ==== Sys2Proof/Machine/Cycle.lean ====
section
/-! DEFINITION. What a cycle holds besides issue: the steps the module takes by itself, in the order in which they are offered, and the end
of the cycle. -/
namespace Sys2Proof.Machine

/-- A step that takes place by itself when it is enabled: the meaning of a constructor of Instr. -/
abbrev Ev := State → Host.Outcome State Fault Refusal

/-- Boot goes on by itself (R436). -/
def State.bootEvents (s : State) : List Ev :=
  if s.plat.bootStep = 6 ∨ s.plat.recovery = true then []
  else [execBootRecordAccept 0, execBootRecordAccept 1, execFirmwareTraining, execBootStoreLoad, execBootScan]

/-- What of a core's units and results falls due. -/
def Core.dueEvents (c : Nat) (co : Core) : List Ev :=
  [execTrapStop c, execPlaneComplete c, execRenewUnitComplete c] ++ co.units.chans.map (fun k => execCopyComplete c k.1) ++
    [execStashCloseComplete c, execGlobalAccessResponse c, execAtomicResponse c, execErrorResponse c, execResultDue c, execTldSlotWrite c, execMdefBodyCheck c, execLaunchAcceptance c, execBoundaryComplete c, execTlbinvComplete c,
     execPageWalkComplete c, execFaultRefusalRetry c, execStashMissFill c] ++
    co.windows.flatMap (fun w => w.2.ents.map (fun e => execStashEntryExpire c (entryKey w.1 e.1))) ++ [execGalignRelease c, execGalignBreak c]

/-- What a core's units begin or go on with. -/
def Core.unitEvents (c : Nat) (co : Core) : List Ev :=
  [execPlaneCommand c, execRenewUnitCommand c] ++ co.units.chans.map (fun k => execCopyCommand c k.1) ++ [execQueuePortWrite c]

/-- What the sweeper and the scans of a core may do (R225). -/
def Core.sweepEvents (c : Nat) (co : Core) : List Ev :=
  co.slabs.flatMap (fun b =>
    match b.2.kind with
    | .ring => [execSweepRingRenew c b.1]
    | .live => [execSweepFrozenSlabRenew c b.1, execSweepMarkLost c b.1]
    | _ => []) ++
    co.windows.flatMap (fun w => w.2.ents.map (fun e => execSweepStashWriteback c (entryKey w.1 e.1)))

/-- The end of a core's segment, overruns, and its way through the timetable. -/
def Core.segEvents (c : Nat) (_co : Core) : List Ev := [execSegmentEnd c, execOverrunTimed c, execOverrunUntimed c, execSwitch c]

/-- What an array does: a command ends before another begins (R180). -/
def arrEvents (i : Nat) (a : ArrSt) : List Ev :=
  [execArrayCommandEnd i] ++ a.tiles.flatMap (fun t => [execTileSave i t.1]) ++ (upTo 0 16).map (fun n => execTileRestore i n) ++
    [execArrayCommandBegin i, execAtBankCommand i] ++ a.tiles.flatMap (fun t => [execSweepFrozenTileRenew i t.1, execSweepTileSave i t.1])

/-- What may become of a packet that an engine has taken. -/
def workEvents (w : Nat) (x : Work) : List Ev :=
  let k := pKind x.pkt
  (if k = 0 then [execNullPacket w]
   else if k = 1 then [execJoinPacket w]
   else if k = 2 then [execCopyPacket w]
   else if k = 3 then [execSignalPacket w]
   else if k = 0x10 then [execIndexGather w]
   else if k = 0x11 then [execIndexScatter w]
   else if k = 0x12 then [execIndexDedup w]
   else if k = 0x13 then [execIndexBucket w]
   else if k = 0x14 then [execWorklistPush w]
   else if k = 0x15 then [execWorklistPop w]
   else if k = 0x16 then [execWorklistDedupPush w]
   else if k = 0x18 then [execSketchQuery w, execSketchQueryAdd w]
   else if k = 0x19 then [execHotrowFill w, execHotrowEvict w, execHotrowFlush w, execHotrowPin w, execHotrowUnpin w]
   else if k = 0x20 then [execPoolingRowService w, execPoolCard w]
   else if k = 0x30 then [execSupdSgd w, execSupdMomentum w, execSupdAdagrad w, execSupdAdam w, execSupdInstalled w]
   else if k = 0x40 then
     [execNearBankMatvec w, execNearBankColsum w, execNearBankFill w, execNearBankStripe w, execNearBankMicroprogram w, execNearBankDispatch w]
   else if k = 0x50 then [execExchangePool w]
   else if k = 0x51 then [execExchangeReduce w, execCollectiveTimeout w]
   else [execJournalAppendPacket w]) ++ [execJobCardCommit w, execPacketComplete w]

/-- The front ends of a die, and what else it does. -/
def Die.events (d : Nat) (x : Die) : List Ev :=
  [execTrapRecordEnqueue d, execSketchDecay d, execFrameFill d] ++ x.fronts.map (fun f => execFrontEndTake (256 * d + f.1))

/-- The cores of a die that its timetable has on the way (R362, R363): all of them while it is enabled, and those on their way when it
no longer is. -/
def State.walkers (s : State) (d : Nat) (x : Die) : List Ev :=
  ((x.rows.filter (fun r => rowGang r.2)).map (fun r => execGangEntry d r.1)) ++
    (if x.ttctl.getLsbD 0 then upTo (64 * d) 64 else (s.cores.map (fun p => p.1)).filter (fun c => decide (dieOf c = d))).map (fun c =>
      execDispatch c)

/-- The steps the module takes by itself, in the order in which they are offered. Each of them takes place only if it is enabled. DEDUCED (log 5). -/
def State.candidates (s : State) : List Ev :=
  s.bootEvents ++ s.dies.flatMap (fun p => p.2.events p.1) ++ (upTo 0 s.wires.length).flatMap (fun i => [execGroupFreeze i, execGroupThaw i]) ++
    s.cores.flatMap (fun p => p.2.segEvents p.1) ++ s.cores.flatMap (fun p => p.2.dueEvents p.1) ++ s.arrays.flatMap (fun p => arrEvents p.1 p.2) ++
    s.cores.flatMap (fun p => p.2.unitEvents p.1) ++ s.pfetch.map (fun p => execPrefetchWalk (prefetchName p.1).1 (prefetchName p.1).2) ++ s.works.flatMap (fun p => workEvents p.1 p.2) ++
    (nubBy (fun a b => a == b) (s.jrnl.emissions.map (fun e => e.core))).map (fun c => execEmissionPerform c) ++ [execPartnerLost] ++
    s.launches.flatMap (fun l => [execMLevelStart l.id, execLaunchTriggerRelease l.id, execLaunchComplete l.id]) ++
    s.removals.flatMap (fun p => [execContextRemoval p.1, execRemovalStep p.1, execRemovalBoundExpire p.1]) ++
    s.dies.flatMap (fun p => p.2.leases.map (fun r => execRowLoad p.1 r.1)) ++
    s.relQ.map (fun r => execSemaphoreImageRelease r.1 r.2.1 r.2.2) ++ s.dies.flatMap (fun p => s.walkers p.1 p.2) ++
    s.cores.map (fun p => execResume p.2.ctx p.1) ++
    (nubBy (fun a b => a == b) (s.dom.held.map (fun h => h.1))).map (fun m => execDomainAtomicRateRelease m) ++
    s.dom.reqs.map (fun r => execDomainResendTimeout r.target r.pseq) ++ s.cores.flatMap (fun p => p.2.sweepEvents p.1)

/-- The units whose rotation slot has come are scanned (R351). -/
def State.scanEvents (s : State) : List Ev :=
  if s.plat.bootStep = 6 ∧ s.plat.thermal = false then
    (upTo 0 160).filterMap (fun u => if s.scanDue u then some (execRotationScanSlot u true) else none)
  else []

/-- What is offered once no group is left to issue on the cycle: scans, and grants of the arrays (R174, R175). DEDUCED (log 5). -/
def State.lateCandidates (s : State) : List Ev :=
  s.scanEvents ++ s.arrays.map (fun p => execLeaseGrant p.1) ++ s.cores.map (fun p => execDispatchLeaseGrant p.1)

/-- The writes of the cycle to a core's scratchpad, for the operands of its array's commands (R350). -/
def State.touches (s : State) (c : Nat) : State :=
  ((s.core c).posted.filterMap Post.range).foldl (fun s r => s.modArr (arrOf c) (fun a => a.touch c r.1 r.2)) s

/-- The end of a cycle: records that the journal engine takes, what other modules have asked and said, slabs rewritten, busy bits, scratchpad writes, and %cyc advances. -/
def State.endCycle (s : State) : State :=
  let s0 := State.takeRecords s.jrnl.queue.length s.heedNotices
  let s1 := ((((s0.pollPeers.servePeers).serveHosts).drainHeld).slabsRenewed 0).slabsRenewed 1
  let cs := s1.cores.map (fun p => p.1)
  (cs.foldl (fun s c => (s.touches c).clearBusy c) s1).tick

end Sys2Proof.Machine
end

