-- ==== Sys2Proof/Machine/Control.lean ====
section
/-! DEFINITION. Control transfers, the register window, hardware loops, requested traps and the other K instructions of
fixed latency (R55 to R65, R68, R73 to R76). -/
namespace Sys2Proof.Machine

/-! ## Branches (R56) -/

/-- BR (R56). -/
def execBr (f : CtlF) (s : State) : Host.Outcome State Fault Refusal :=
  issue s [] (fun s => s.checked (s.relTarget f.off) (.jump s (s.relTarget f.off) 0))

/-- JMP (R56). -/
def execJmp (f : CtlF) (s : State) : Host.Outcome State Fault Refusal :=
  issue s [f.a] (fun s => s.checked (s.regTarget f.a f.off) (.jump s (s.regTarget f.a f.off) 0))

/-! ## Calls and the register window (R57 to R61) -/

/-- A physical window register takes a result of this context that has not come yet. -/
def Core.winBusy (co : Core) (r : Nat) : Bool :=
  co.im.flight.any (fun x =>
    match x.fx with
    | .win r' _ => decide (r' = r)
    | _ => false) || co.ms.gacc.any (fun g => decide (g.dst = some (true, r)))

/-- The frame code of the entry group at a target, with its patches and carries applied (R58); none when the group there
is no `entry`, and also when that group is malformed or a patch of it is out of range: DESIGN CHOICE (log 67). -/
def SeqSt.entryFrame (q : SeqSt) (target : Word) : Option Nat :=
  let g := { q with pc := target }.streamGroup
  match g.main with
  | none => none
  | some w =>
    let sl := mget Slot.empty q.table (patchT w)
    match slotFmt .k sl with
    | none => none
    | some fm =>
      if (structureFault g (some fm)).isSome then none
      else
      match amend fm sl.t g w with
      | .error _ => none
      | .ok b =>
        match decodeTemplate .k b with
        | .ok (.entry f) => some f.frame.toNat
        | _ => none

/-- The local address of a byte of the spill ring (R57). -/
def Core.ringAddr (co : Core) (off : Nat) : Nat :=
  match co.ring with
  | some (b, _) => (b + off) % 2 ^ 23
  | none => off

/-- The registers stored by a spill of n, lowest in the file first (R58). -/
def Core.spilled (co : Core) (n : Nat) : List Byte :=
  (upTo 0 n).flatMap (fun i => leBytes 8 (co.im.wfile.toList.getD ((co.im.wbase + 192 + 24 - co.im.wres + i) % 192) 0).toNat)

/-- A `call` whose target, entry and window allow it (R58): spill, link, fresh registers, window, transfer. DEDUCED (log 19). -/
def State.doCall (s : State) (target : Word) (frame sp : Nat) : Act :=
  let co := s.me
  let im := co.im
  let f := 8 * frame
  let lat := 1 + ceilDiv sp 4
  let nb := (im.wbase + f) % 192
  let link : Word := s.cur.nxt + BitVec.ofNat 64 frame
  let s1 := if sp = 0 then s else s.posts s.cur.core (writePosts (co.ringAddr (8 * im.wspl)) (co.spilled sp))
  let s2 := (upTo (24 - f) (f - 1)).foldl (fun s n => s.result lat 0 (.win ((nb + n) % 192) 0)) s1
  let s3 := (s2.result lat 0 (.win ((nb + 23) % 192) link)).result lat 0 (.window nb (im.wres - sp + f) (im.wspl + sp))
  .jump s3 target (ceilDiv sp 4)

/-- The effect of `call` (R58, R61): its checks in order, then the call. DEDUCED (log 18). -/
def actCall (target : Word) (s : State) : Act :=
  s.checked target
    (match s.mySeq.entryFrame target with
     | none => s.opTrap 0xB
     | some frame =>
       let im := s.me.im
       let sp := im.wres + 8 * frame - 192
       if sp ≠ 0 ∧ im.spcap < im.wspl + sp then s.opTrap 0xB
       else if sp ≠ 0 ∧ (s.me.timed ∨
           (upTo 0 sp).any (fun i => s.me.winBusy ((im.wbase + 192 + 24 - im.wres + i) % 192))) then .wait s 9 0 0
       else if (upTo 0 sp).any (fun i => im.flaws.contains (.win ((im.wbase + 192 + 24 - im.wres + i) % 192))) then flawTrap
       else s.doCall target frame sp)

/-- CALL (R58). -/
def execCall (f : CtlF) (s : State) : Host.Outcome State Fault Refusal :=
  if f.var = 0 then issue s [] (fun s => actCall (s.relTarget f.off) s)
  else issue s [f.a] (fun s => actCall (s.regTarget f.a f.off) s)

/-- The effect of `ret` (R60, R61). -/
def actRet (a : BitVec 5) (s : State) : Act :=
  let im := s.me.im
  let target := s.rd a &&& ~~~3
  let f := 8 * (s.rd a &&& 3).toNat
  if im.wres + im.wspl < 24 + f then s.opTrap 0xB
  else
    s.checked target
      (let k := 24 + f - im.wres
       if k ≠ 0 ∧ s.me.timed then .wait s 9 0 0
       else
        match firstSome (fun i => firstBad s.me.bad (s.me.ringAddr (8 * (im.wspl - k + i))) 8) (upTo 0 k) with
        | some x => memTrap 0x80 x (memStatus 0 0 0 0 (x / 2048))
        | none =>
         let lat := 1 + ceilDiv k 4
         let s1 := (upTo 0 k).foldl (fun s i =>
           s.result lat 0 (.win ((im.wbase + 384 + 24 - im.wres - k + i) % 192)
             (BitVec.ofNat 64 (leNat (s.me.bytes (s.me.ringAddr (8 * (im.wspl - k + i))) 8))))) s
         .jump (s1.result lat 0 (.window ((im.wbase + 192 - f) % 192) (im.wres + k - f) (im.wspl - k))) target (ceilDiv k 4))

/-- RET (R60). -/
def execRet (f : CtlF) (s : State) : Host.Outcome State Fault Refusal := issue s [f.a] (actRet f.a)

/-- ENTRY (R59): it does nothing when it issues. -/
def execEntry (_f : CtlF) (s : State) : Host.Outcome State Fault Refusal := issue s [] (fun s => .done s)

/-! ## Hardware loops (R63, R64) -/

/-- The stage predicates set by `loop` (R63). -/
def State.stageStart (s : State) : State :=
  (upTo 8 8).foldl (fun s p => s.result 1 0 (.pred s.cur.sq p (p == 8))) s

/-- The effect of `loop` (R63). -/
def actLoop (f : CtlF) (s : State) : Act :=
  let exit := s.relTarget f.off
  let byReg := f.var.getLsbD 3
  let n := if byReg then (s.rd f.a).toNat else f.cnt.toNat
  s.checked exit
    (if byReg ∧ 2 ^ 32 ≤ n then s.opTrap 0xB
     else if n = 0 then .jump s exit 0
     else .done ((s.stageStart).result 1 0 (.loop s.cur.sq (BitVec.ofNat 32 (n - 1)) (BitVec.ofNat 4 (f.var.toNat % 8 + 1)))))

/-- LOOP (R63). -/
def execLoop (f : CtlF) (s : State) : Host.Outcome State Fault Refusal :=
  issue s (if f.var.getLsbD 3 then [f.a] else []) (actLoop f)

/-- The effect of `lbr` (R64). -/
def actLbr (f : CtlF) (s : State) : Act :=
  let q := s.mySeq
  let target := s.relTarget f.off
  s.checked target
    (if q.lc ≠ 0 then
       .jump ((s.result 1 0 (.loop s.cur.sq (q.lc - 1) q.ec)).result 1 0 (.rotate s.cur.sq true)) target 0
     else if 1 < q.ec.toNat then
       .jump ((s.result 1 0 (.loop s.cur.sq q.lc (q.ec - 1))).result 1 0 (.rotate s.cur.sq false)) target 0
     else .done ((s.result 1 0 (.loop s.cur.sq q.lc 0)).result 1 0 (.rotate s.cur.sq false)))

/-- LBR (R64). -/
def execLbr (f : CtlF) (s : State) : Host.Outcome State Fault Refusal := issue s [] (actLbr f)

/-! ## Stopping (R75, R76) -/

/-- HALT (R24, R75): the sequencer is halted; it keeps its place (R346) and the cycle of its halt for R95. A halt of C ends a counted lease (R173). -/
def execHalt (_f : MgtF) (s : State) : Host.Outcome State Fault Refusal :=
  issue s [] (fun s =>
    .jump ((if s.cur.sq = .c then s.endCounted s.cur.core else s).modSeq s.cur.core s.cur.sq (fun q => { q with halted := some (s.t + 1) }))
      s.mySeq.pc 0)

/-- TRAP (R76): the group has its effect, and a trap of class 1 follows. -/
def execTrap (f : MgtF) (s : State) : Host.Outcome State Fault Refusal :=
  issue s [f.a] (fun s =>
    .trapDone s { cause := 0, status := f.n.setWidth 32, addr := s.rd f.a, cls := 1, engine := 0, uidx := 0 })

/-! ## Mixing, check codes and writes to other sequencers -/

/-- LMIX (R73). -/
def execLmix (f : MgtF) (s : State) : Host.Outcome State Fault Refusal :=
  issue s [f.a, f.b] (fun s => .done (s.wr 4 f.d (sorrel (s.rd f.b) (s.rd f.a))))

/-- CRC32C (R74). -/
def execCrc32c (f : MgtF) (s : State) : Host.Outcome State Fault Refusal :=
  issue s [f.a, f.b] (fun s =>
    .done (s.wr 2 f.d ((crcBytes ((s.rd f.a).setWidth 32) (leBytes (2 ^ f.var.toNat) (s.rd f.b).toNat)).setWidth 64)))

/-- XSET (R68): due two cycles later, and last among the results of its issue cycle. -/
def execXset (f : MgtF) (s : State) : Host.Outcome State Fault Refusal :=
  issue s [f.a] (fun s => .done (s.result 2 1 (.reg (Seq.ofCode f.seq.toNat) (f.d.toNat % 16) (s.rd f.a))))

end Sys2Proof.Machine
end

