-- ==== Sys2Proof/Machine/Integer.lean ====
section
/-! DEFINITION. Integer arithmetic, immediates, moves, selection and compares (R50 to R54). -/
namespace Sys2Proof.Machine

/-- The effect of an integer instruction that writes d one cycle later (R48, R50). -/
def actInt (k : Snd) (op : Word → Word → Word) (f : RegF) (s : State) : Act :=
  .done (s.wr 1 f.d (op (s.rd f.a) (s.snd k f)))

/-- The effect of `add` and `sub`: d, and overflow to pb (R50). -/
def actSum (k : Snd) (op : BitVec 4 → Word → Word → Word × Bool) (f : RegF) (s : State) : Act :=
  let r := op f.var (s.rd f.a) (s.snd k f)
  .done ((s.wr 1 f.d r.1).wrPred 1 f.pb r.2)

/-- The effect of `cmp`: pa, and then its complement to pb (R54). -/
def actCmp (k : Snd) (f : RegF) (s : State) : Act :=
  let r := condHolds f.var (s.rd f.a) (s.snd k f)
  .done ((s.wrPred 1 f.pa r).wrPred 1 f.pb (!r))

/-- An integer instruction is issued. -/
def execInt (k : Snd) (op : Word → Word → Word) (f : RegF) (s : State) : Host.Outcome State Fault Refusal :=
  issue s (sndRegs k f) (actInt k op f)

/-- AND (R50). -/
def execAnd (f : RegF) (s : State) : Host.Outcome State Fault Refusal := execInt .reg (· &&& ·) f s
/-- AND_IMM (R50, R52). -/
def execAndImm (f : RegF) (s : State) : Host.Outcome State Fault Refusal := execInt .imm (· &&& ·) f s
/-- OR (R50). -/
def execOr (f : RegF) (s : State) : Host.Outcome State Fault Refusal := execInt .reg (· ||| ·) f s
/-- OR_IMM (R50, R52). -/
def execOrImm (f : RegF) (s : State) : Host.Outcome State Fault Refusal := execInt .imm (· ||| ·) f s
/-- XOR (R50). -/
def execXor (f : RegF) (s : State) : Host.Outcome State Fault Refusal := execInt .reg (· ^^^ ·) f s
/-- XOR_IMM (R50, R52). -/
def execXorImm (f : RegF) (s : State) : Host.Outcome State Fault Refusal := execInt .imm (· ^^^ ·) f s
/-- SHL (R51). -/
def execShl (f : RegF) (s : State) : Host.Outcome State Fault Refusal := execInt .reg shlWord f s
/-- SHL_IMM (R51). -/
def execShlImm (f : RegF) (s : State) : Host.Outcome State Fault Refusal := execInt .imm shlWord f s
/-- SHR (R51). -/
def execShr (f : RegF) (s : State) : Host.Outcome State Fault Refusal := execInt .reg shrWord f s
/-- SHR_IMM (R51). -/
def execShrImm (f : RegF) (s : State) : Host.Outcome State Fault Refusal := execInt .imm shrWord f s
/-- SRA (R51). -/
def execSra (f : RegF) (s : State) : Host.Outcome State Fault Refusal := execInt .reg sraWord f s
/-- SRA_IMM (R51). -/
def execSraImm (f : RegF) (s : State) : Host.Outcome State Fault Refusal := execInt .imm sraWord f s
/-- MUL (R50). -/
def execMul (f : RegF) (s : State) : Host.Outcome State Fault Refusal := execInt .reg (· * ·) f s
/-- MUL_IMM (R50). -/
def execMulImm (f : RegF) (s : State) : Host.Outcome State Fault Refusal := execInt .imm (· * ·) f s
/-- MULHS (R50, R52). -/
def execMulhs (f : RegF) (s : State) : Host.Outcome State Fault Refusal := execInt .reg mulhsWord f s
/-- MULHU (R50). -/
def execMulhu (f : RegF) (s : State) : Host.Outcome State Fault Refusal := execInt .reg mulhuWord f s
/-- MIN (R50). -/
def execMin (f : RegF) (s : State) : Host.Outcome State Fault Refusal := execInt .reg (minWord f.var) f s
/-- MAX (R50). -/
def execMax (f : RegF) (s : State) : Host.Outcome State Fault Refusal := execInt .reg (maxWord f.var) f s

/-- LUI (R53): imm above the low half of a. -/
def execLui (f : RegF) (s : State) : Host.Outcome State Fault Refusal :=
  issue s [f.a] (fun s => .done (s.wr 1 f.d (f.imm ++ (s.rd f.a).extractLsb' 0 32)))

/-- SEL (R53). -/
def execSel (f : RegF) (s : State) : Host.Outcome State Fault Refusal :=
  issue s [f.a, f.b] (fun s =>
    if s.flawedPred f.pa.toNat then flawTrap else .done (s.wr 1 f.d (if s.mySeq.pred f.pa.toNat then s.rd f.a else s.rd f.b)))

/-- LI (R53). -/
def execLi (f : RegF) (s : State) : Host.Outcome State Fault Refusal :=
  issue s [] (fun s => .done (s.wr 1 f.d (immWord f.imm)))

/-- MOV (R53). -/
def execMov (f : RegF) (s : State) : Host.Outcome State Fault Refusal :=
  issue s [f.a] (fun s => .done (s.wr 1 f.d (s.rd f.a)))

/-- ADD (R50). -/
def execAdd (f : RegF) (s : State) : Host.Outcome State Fault Refusal := issue s (sndRegs .reg f) (actSum .reg addFlags f)
/-- ADD_IMM (R50). -/
def execAddImm (f : RegF) (s : State) : Host.Outcome State Fault Refusal := issue s (sndRegs .imm f) (actSum .imm addFlags f)
/-- SUB (R50). -/
def execSub (f : RegF) (s : State) : Host.Outcome State Fault Refusal := issue s (sndRegs .reg f) (actSum .reg subFlags f)
/-- SUB_IMM (R50). -/
def execSubImm (f : RegF) (s : State) : Host.Outcome State Fault Refusal := issue s (sndRegs .imm f) (actSum .imm subFlags f)
/-- CMP (R54). -/
def execCmp (f : RegF) (s : State) : Host.Outcome State Fault Refusal := issue s (sndRegs .reg f) (actCmp .reg f)
/-- CMP_IMM (R54). -/
def execCmpImm (f : RegF) (s : State) : Host.Outcome State Fault Refusal := issue s (sndRegs .imm f) (actCmp .imm f)

end Sys2Proof.Machine
end

