-- ==== Sys2Proof/Machine/Dispatch.lean ====
section
/-! DEFINITION. One arm per constructor of Instr: the meaning it calls. -/
namespace Sys2Proof.Machine

def exec (i : Instr) (s : State) : Host.Outcome State Fault Refusal :=
  match i with
  | .and f => Sys2Proof.Machine.execAnd f s
  | .andImm f => Sys2Proof.Machine.execAndImm f s
  | .or f => Sys2Proof.Machine.execOr f s
  | .orImm f => Sys2Proof.Machine.execOrImm f s
  | .xor f => Sys2Proof.Machine.execXor f s
  | .xorImm f => Sys2Proof.Machine.execXorImm f s
  | .shl f => Sys2Proof.Machine.execShl f s
  | .shlImm f => Sys2Proof.Machine.execShlImm f s
  | .shr f => Sys2Proof.Machine.execShr f s
  | .shrImm f => Sys2Proof.Machine.execShrImm f s
  | .sra f => Sys2Proof.Machine.execSra f s
  | .sraImm f => Sys2Proof.Machine.execSraImm f s
  | .mul f => Sys2Proof.Machine.execMul f s
  | .mulImm f => Sys2Proof.Machine.execMulImm f s
  | .mulhs f => Sys2Proof.Machine.execMulhs f s
  | .mulhu f => Sys2Proof.Machine.execMulhu f s
  | .min f => Sys2Proof.Machine.execMin f s
  | .max f => Sys2Proof.Machine.execMax f s
  | .lui f => Sys2Proof.Machine.execLui f s
  | .sel f => Sys2Proof.Machine.execSel f s
  | .li f => Sys2Proof.Machine.execLi f s
  | .mov f => Sys2Proof.Machine.execMov f s
  | .add f => Sys2Proof.Machine.execAdd f s
  | .addImm f => Sys2Proof.Machine.execAddImm f s
  | .sub f => Sys2Proof.Machine.execSub f s
  | .subImm f => Sys2Proof.Machine.execSubImm f s
  | .cmp f => Sys2Proof.Machine.execCmp f s
  | .cmpImm f => Sys2Proof.Machine.execCmpImm f s
  | .br f => Sys2Proof.Machine.execBr f s
  | .jmp f => Sys2Proof.Machine.execJmp f s
  | .call f => Sys2Proof.Machine.execCall f s
  | .ret f => Sys2Proof.Machine.execRet f s
  | .entry f => Sys2Proof.Machine.execEntry f s
  | .loop f => Sys2Proof.Machine.execLoop f s
  | .lbr f => Sys2Proof.Machine.execLbr f s
  | .tkput f => Sys2Proof.Machine.execTkput f s
  | .tkget f => Sys2Proof.Machine.execTkget f s
  | .tkgetTry f => Sys2Proof.Machine.execTkgetTry f s
  | .halt f => Sys2Proof.Machine.execHalt f s
  | .macroCall m idle p0 p1 p2 p3 => Sys2Proof.Machine.execMacroCall m idle p0 p1 p2 p3 s
  | .tset f => Sys2Proof.Machine.execTset f s
  | .tld f => Sys2Proof.Machine.execTld f s
  | .tldSlotWrite core => Sys2Proof.Machine.execTldSlotWrite core s
  | .mdef f => Sys2Proof.Machine.execMdef f s
  | .mdefBodyCheck core => Sys2Proof.Machine.execMdefBodyCheck core s
  | .mfs f => Sys2Proof.Machine.execMfs f s
  | .mts f => Sys2Proof.Machine.execMts f s
  | .mtsFclr f => Sys2Proof.Machine.execMtsFclr f s
  | .mtsTkmap f => Sys2Proof.Machine.execMtsTkmap f s
  | .xset f => Sys2Proof.Machine.execXset f s
  | .align f => Sys2Proof.Machine.execAlign f s
  | .galign f => Sys2Proof.Machine.execGalign f s
  | .galignRelease core => Sys2Proof.Machine.execGalignRelease core s
  | .galignBreak member => Sys2Proof.Machine.execGalignBreak member s
  | .ltrig f => Sys2Proof.Machine.execLtrig f s
  | .launch f => Sys2Proof.Machine.execLaunch f s
  | .launchAcceptance core => Sys2Proof.Machine.execLaunchAcceptance core s
  | .launchComplete id => Sys2Proof.Machine.execLaunchComplete id s
  | .launchTriggerRelease id => Sys2Proof.Machine.execLaunchTriggerRelease id s
  | .phase f => Sys2Proof.Machine.execPhase f s
  | .fenceRel f => Sys2Proof.Machine.execFenceRel f s
  | .fenceAcq f => Sys2Proof.Machine.execFenceAcq f s
  | .boundaryComplete core => Sys2Proof.Machine.execBoundaryComplete core s
  | .efence f => Sys2Proof.Machine.execEfence f s
  | .sacq f => Sys2Proof.Machine.execSacq f s
  | .sacqTry f => Sys2Proof.Machine.execSacqTry f s
  | .sacqM f => Sys2Proof.Machine.execSacqM f s
  | .srel f => Sys2Proof.Machine.execSrel f s
  | .srelM f => Sys2Proof.Machine.execSrelM f s
  | .trap f => Sys2Proof.Machine.execTrap f s
  | .gdraw f => Sys2Proof.Machine.execGdraw f s
  | .lmix f => Sys2Proof.Machine.execLmix f s
  | .crc32c f => Sys2Proof.Machine.execCrc32c f s
  | .emit f => Sys2Proof.Machine.execEmit f s
  | .jrnlSeq f => Sys2Proof.Machine.execJrnlSeq f s
  | .jrnlGen f => Sys2Proof.Machine.execJrnlGen f s
  | .jrnlTok f => Sys2Proof.Machine.execJrnlTok f s
  | .jrnlRt f => Sys2Proof.Machine.execJrnlRt f s
  | .jrnlApp f => Sys2Proof.Machine.execJrnlApp f s
  | .jrnlCkpt f => Sys2Proof.Machine.execJrnlCkpt f s
  | .jrnlRep f => Sys2Proof.Machine.execJrnlRep f s
  | .tlbinv f => Sys2Proof.Machine.execTlbinv f s
  | .tlbinvAll f => Sys2Proof.Machine.execTlbinvAll f s
  | .tlbinvComplete core => Sys2Proof.Machine.execTlbinvComplete core s
  | .tlbsync f => Sys2Proof.Machine.execTlbsync f s
  | .qfence f => Sys2Proof.Machine.execQfence f s
  | .qfenceW f => Sys2Proof.Machine.execQfenceW f s
  | .ldGlobal f => Sys2Proof.Machine.execLdGlobal f s
  | .ldLocal f => Sys2Proof.Machine.execLdLocal f s
  | .stGlobal f => Sys2Proof.Machine.execStGlobal f s
  | .stLocal f => Sys2Proof.Machine.execStLocal f s
  | .stLocalS f => Sys2Proof.Machine.execStLocalS f s
  | .globalAccessResponse core => Sys2Proof.Machine.execGlobalAccessResponse core s
  | .aadd f => Sys2Proof.Machine.execAadd f s
  | .amin f => Sys2Proof.Machine.execAmin f s
  | .amax f => Sys2Proof.Machine.execAmax f s
  | .aswap f => Sys2Proof.Machine.execAswap f s
  | .acas f => Sys2Proof.Machine.execAcas f s
  | .aand f => Sys2Proof.Machine.execAand f s
  | .aor f => Sys2Proof.Machine.execAor f s
  | .ramo f => Sys2Proof.Machine.execRamo f s
  | .atomicResponse core => Sys2Proof.Machine.execAtomicResponse core s
  | .errorResponse core => Sys2Proof.Machine.execErrorResponse core s
  | .ixeGather f => Sys2Proof.Machine.execIxeGather f s
  | .ixeScatter f => Sys2Proof.Machine.execIxeScatter f s
  | .ixeDedup f => Sys2Proof.Machine.execIxeDedup f s
  | .ixeBucket f => Sys2Proof.Machine.execIxeBucket f s
  | .wlpush f => Sys2Proof.Machine.execWlpush f s
  | .wlpop f => Sys2Proof.Machine.execWlpop f s
  | .wldin f => Sys2Proof.Machine.execWldin f s
  | .pool f => Sys2Proof.Machine.execPool f s
  | .supd f => Sys2Proof.Machine.execSupd f s
  | .nmc f => Sys2Proof.Machine.execNmc f s
  | .xchPool f => Sys2Proof.Machine.execXchPool f s
  | .xchRed f => Sys2Proof.Machine.execXchRed f s
  | .skq f => Sys2Proof.Machine.execSkq f s
  | .skqAdd f => Sys2Proof.Machine.execSkqAdd f s
  | .hrchFill f => Sys2Proof.Machine.execHrchFill f s
  | .hrchEvict f => Sys2Proof.Machine.execHrchEvict f s
  | .hrchFlush f => Sys2Proof.Machine.execHrchFlush f s
  | .hrchPin f => Sys2Proof.Machine.execHrchPin f s
  | .hrchUnpin f => Sys2Proof.Machine.execHrchUnpin f s
  | .agset f => Sys2Proof.Machine.execAgset f s
  | .vld f => Sys2Proof.Machine.execVld f s
  | .vldUb f => Sys2Proof.Machine.execVldUb f s
  | .cpyIn f => Sys2Proof.Machine.execCpyIn f s
  | .cpyOut f => Sys2Proof.Machine.execCpyOut f s
  | .cpyLl f => Sys2Proof.Machine.execCpyLl f s
  | .copyCommand core chan => Sys2Proof.Machine.execCopyCommand core chan s
  | .copyComplete core chan => Sys2Proof.Machine.execCopyComplete core chan s
  | .plane f => Sys2Proof.Machine.execPlane f s
  | .planeCommand core => Sys2Proof.Machine.execPlaneCommand core s
  | .planeComplete core => Sys2Proof.Machine.execPlaneComplete core s
  | .renew f => Sys2Proof.Machine.execRenew f s
  | .renewUnitCommand core => Sys2Proof.Machine.execRenewUnitCommand core s
  | .renewUnitComplete core => Sys2Proof.Machine.execRenewUnitComplete core s
  | .salloc f => Sys2Proof.Machine.execSalloc f s
  | .sallocZ f => Sys2Proof.Machine.execSallocZ f s
  | .sfree f => Sys2Proof.Machine.execSfree f s
  | .sfreeDesc f => Sys2Proof.Machine.execSfreeDesc f s
  | .stash f => Sys2Proof.Machine.execStash f s
  | .stashClose f => Sys2Proof.Machine.execStashClose f s
  | .stashCloseComplete core => Sys2Proof.Machine.execStashCloseComplete core s
  | .stashMissFill core => Sys2Proof.Machine.execStashMissFill core s
  | .stashEntryExpire core entry => Sys2Proof.Machine.execStashEntryExpire core entry s
  | .vadd f => Sys2Proof.Machine.execVadd f s
  | .vsub f => Sys2Proof.Machine.execVsub f s
  | .vmul f => Sys2Proof.Machine.execVmul f s
  | .vfma f => Sys2Proof.Machine.execVfma f s
  | .vfms f => Sys2Proof.Machine.execVfms f s
  | .vmin f => Sys2Proof.Machine.execVmin f s
  | .vmax f => Sys2Proof.Machine.execVmax f s
  | .vabs f => Sys2Proof.Machine.execVabs f s
  | .vneg f => Sys2Proof.Machine.execVneg f s
  | .vcvt f => Sys2Proof.Machine.execVcvt f s
  | .vexp2 f => Sys2Proof.Machine.execVexp2 f s
  | .vlog2 f => Sys2Proof.Machine.execVlog2 f s
  | .vrcp f => Sys2Proof.Machine.execVrcp f s
  | .vrsqrt f => Sys2Proof.Machine.execVrsqrt f s
  | .vdiv f => Sys2Proof.Machine.execVdiv f s
  | .vsqrt f => Sys2Proof.Machine.execVsqrt f s
  | .vcmp f => Sys2Proof.Machine.execVcmp f s
  | .vsel f => Sys2Proof.Machine.execVsel f s
  | .vred f => Sys2Proof.Machine.execVred f s
  | .vtopk f => Sys2Proof.Machine.execVtopk f s
  | .vbscmp f => Sys2Proof.Machine.execVbscmp f s
  | .vcrc f => Sys2Proof.Machine.execVcrc f s
  | .vmix f => Sys2Proof.Machine.execVmix f s
  | .vmixH f => Sys2Proof.Machine.execVmixH f s
  | .vxm f => Sys2Proof.Machine.execVxm f s
  | .vperm f => Sys2Proof.Machine.execVperm f s
  | .vperm2 f => Sys2Proof.Machine.execVperm2 f s
  | .vbcast f => Sys2Proof.Machine.execVbcast f s
  | .vand f => Sys2Proof.Machine.execVand f s
  | .vor f => Sys2Proof.Machine.execVor f s
  | .vxor f => Sys2Proof.Machine.execVxor f s
  | .vshl f => Sys2Proof.Machine.execVshl f s
  | .vshr f => Sys2Proof.Machine.execVshr f s
  | .vsra f => Sys2Proof.Machine.execVsra f s
  | .vmov f => Sys2Proof.Machine.execVmov f s
  | .vst f => Sys2Proof.Machine.execVst f s
  | .resultDue core => Sys2Proof.Machine.execResultDue core s
  | .waitingGroupIssue core sq => Sys2Proof.Machine.execWaitingGroupIssue core sq s
  | .lease f => Sys2Proof.Machine.execLease f s
  | .unlease f => Sys2Proof.Machine.execUnlease f s
  | .leaseGrant arr => Sys2Proof.Machine.execLeaseGrant arr s
  | .mma f => Sys2Proof.Machine.execMma f s
  | .mmaAtBank f => Sys2Proof.Machine.execMmaAtBank f s
  | .mmac f => Sys2Proof.Machine.execMmac f s
  | .mmas f => Sys2Proof.Machine.execMmas f s
  | .amz f => Sys2Proof.Machine.execAmz f s
  | .ald f => Sys2Proof.Machine.execAld f s
  | .aret f => Sys2Proof.Machine.execAret f s
  | .aretW f => Sys2Proof.Machine.execAretW f s
  | .arrayCommandBegin arr => Sys2Proof.Machine.execArrayCommandBegin arr s
  | .arrayCommandEnd arr => Sys2Proof.Machine.execArrayCommandEnd arr s
  | .atBankCommand arr => Sys2Proof.Machine.execAtBankCommand arr s
  | .tileSave arr tile => Sys2Proof.Machine.execTileSave arr tile s
  | .tileRestore arr tile => Sys2Proof.Machine.execTileRestore arr tile s
  | .arrayReplay arr tile again => Sys2Proof.Machine.execArrayReplay arr tile again s
  | .qpush f => Sys2Proof.Machine.execQpush f s
  | .queuePortWrite core => Sys2Proof.Machine.execQueuePortWrite core s
  | .frontEndTake q => Sys2Proof.Machine.execFrontEndTake q s
  | .packetComplete w => Sys2Proof.Machine.execPacketComplete w s
  | .nullPacket w => Sys2Proof.Machine.execNullPacket w s
  | .signalPacket w => Sys2Proof.Machine.execSignalPacket w s
  | .joinPacket w => Sys2Proof.Machine.execJoinPacket w s
  | .copyPacket w => Sys2Proof.Machine.execCopyPacket w s
  | .jobCardCommit w => Sys2Proof.Machine.execJobCardCommit w s
  | .indexGather w => Sys2Proof.Machine.execIndexGather w s
  | .indexScatter w => Sys2Proof.Machine.execIndexScatter w s
  | .indexDedup w => Sys2Proof.Machine.execIndexDedup w s
  | .indexBucket w => Sys2Proof.Machine.execIndexBucket w s
  | .worklistPush w => Sys2Proof.Machine.execWorklistPush w s
  | .worklistPop w => Sys2Proof.Machine.execWorklistPop w s
  | .worklistDedupPush w => Sys2Proof.Machine.execWorklistDedupPush w s
  | .sketchQuery w => Sys2Proof.Machine.execSketchQuery w s
  | .sketchQueryAdd w => Sys2Proof.Machine.execSketchQueryAdd w s
  | .sketchDecay die => Sys2Proof.Machine.execSketchDecay die s
  | .hotrowFill w => Sys2Proof.Machine.execHotrowFill w s
  | .hotrowEvict w => Sys2Proof.Machine.execHotrowEvict w s
  | .hotrowFlush w => Sys2Proof.Machine.execHotrowFlush w s
  | .hotrowPin w => Sys2Proof.Machine.execHotrowPin w s
  | .hotrowUnpin w => Sys2Proof.Machine.execHotrowUnpin w s
  | .frameFill die => Sys2Proof.Machine.execFrameFill die s
  | .frameWriteBack set way => Sys2Proof.Machine.execFrameWriteBack set way s
  | .poolCard w => Sys2Proof.Machine.execPoolCard w s
  | .poolingRowService w => Sys2Proof.Machine.execPoolingRowService w s
  | .supdSgd w => Sys2Proof.Machine.execSupdSgd w s
  | .supdMomentum w => Sys2Proof.Machine.execSupdMomentum w s
  | .supdAdagrad w => Sys2Proof.Machine.execSupdAdagrad w s
  | .supdAdam w => Sys2Proof.Machine.execSupdAdam w s
  | .supdInstalled w => Sys2Proof.Machine.execSupdInstalled w s
  | .nearBankMatvec w => Sys2Proof.Machine.execNearBankMatvec w s
  | .nearBankColsum w => Sys2Proof.Machine.execNearBankColsum w s
  | .nearBankFill w => Sys2Proof.Machine.execNearBankFill w s
  | .nearBankStripe w => Sys2Proof.Machine.execNearBankStripe w s
  | .nearBankMicroprogram w => Sys2Proof.Machine.execNearBankMicroprogram w s
  | .nearBankDispatch w => Sys2Proof.Machine.execNearBankDispatch w s
  | .exchangePool w => Sys2Proof.Machine.execExchangePool w s
  | .exchangeReduce w => Sys2Proof.Machine.execExchangeReduce w s
  | .collectiveTimeout w => Sys2Proof.Machine.execCollectiveTimeout w s
  | .journalAppendPacket w => Sys2Proof.Machine.execJournalAppendPacket w s
  | .journalRecordReceive src rec => Sys2Proof.Machine.execJournalRecordReceive src rec s
  | .journalAckReceive a => Sys2Proof.Machine.execJournalAckReceive a s
  | .emissionPerform core => Sys2Proof.Machine.execEmissionPerform core s
  | .partnerLost => Sys2Proof.Machine.execPartnerLost s
  | .partnerReassign modid => Sys2Proof.Machine.execPartnerReassign modid s
  | .replicaDigestArrival ctx step digest => Sys2Proof.Machine.execReplicaDigestArrival ctx step digest s
  | .replicaResolution ctx failHere failPeer minority tie => Sys2Proof.Machine.execReplicaResolution ctx failHere failPeer minority tie s
  | .replayStoreInstall ctx recs => Sys2Proof.Machine.execReplayStoreInstall ctx recs s
  | .scanFailureReplay ctx seq gen diverge => Sys2Proof.Machine.execScanFailureReplay ctx seq gen diverge s
  | .jctlWrite jctl jring => Sys2Proof.Machine.execJctlWrite jctl jring s
  | .segmentEnd core => Sys2Proof.Machine.execSegmentEnd core s
  | .overrunUntimed core => Sys2Proof.Machine.execOverrunUntimed core s
  | .overrunTimed core => Sys2Proof.Machine.execOverrunTimed core s
  | .dispatch core => Sys2Proof.Machine.execDispatch core s
  | .dispatchLeaseGrant core => Sys2Proof.Machine.execDispatchLeaseGrant core s
  | .gangEntry die row => Sys2Proof.Machine.execGangEntry die row s
  | .switch core => Sys2Proof.Machine.execSwitch core s
  | .semaphoreImageRelease ctx core sem => Sys2Proof.Machine.execSemaphoreImageRelease ctx core sem s
  | .rowLoad die row => Sys2Proof.Machine.execRowLoad die row s
  | .ttctlWrite die v => Sys2Proof.Machine.execTtctlWrite die v s
  | .bindRecordWrite die row pending rec => Sys2Proof.Machine.execBindRecordWrite die row pending rec s
  | .leaseTableWrite die idx v => Sys2Proof.Machine.execLeaseTableWrite die idx v s
  | .slabcmdRenew die v => Sys2Proof.Machine.execSlabcmdRenew die v s
  | .slabcmdFree die v => Sys2Proof.Machine.execSlabcmdFree die v s
  | .slabcmdClaim die v => Sys2Proof.Machine.execSlabcmdClaim die v s
  | .tlbcmdPage die v => Sys2Proof.Machine.execTlbcmdPage die v s
  | .tlbcmdContext die v => Sys2Proof.Machine.execTlbcmdContext die v s
  | .queueTableAttach die idx v => Sys2Proof.Machine.execQueueTableAttach die idx v s
  | .queueTailWrite die idx v => Sys2Proof.Machine.execQueueTailWrite die idx v s
  | .queueRestart q => Sys2Proof.Machine.execQueueRestart q s
  | .registerWrite unit num v => Sys2Proof.Machine.execRegisterWrite unit num v s
  | .trapStop core => Sys2Proof.Machine.execTrapStop core s
  | .trapRecordEnqueue die => Sys2Proof.Machine.execTrapRecordEnqueue die s
  | .resume ctx core => Sys2Proof.Machine.execResume ctx core s
  | .contextRemoval ctx => Sys2Proof.Machine.execContextRemoval ctx s
  | .removalStep ctx => Sys2Proof.Machine.execRemovalStep ctx s
  | .removalBoundExpire ctx => Sys2Proof.Machine.execRemovalBoundExpire ctx s
  | .pageWalkComplete core => Sys2Proof.Machine.execPageWalkComplete core s
  | .prefetchWalk core chan => Sys2Proof.Machine.execPrefetchWalk core chan s
  | .faultRefusalRetry core => Sys2Proof.Machine.execFaultRefusalRetry core s
  | .groupFreeze wire => Sys2Proof.Machine.execGroupFreeze wire s
  | .groupThaw wire => Sys2Proof.Machine.execGroupThaw wire s
  | .faultRetryWrite die idx => Sys2Proof.Machine.execFaultRetryWrite die idx s
  | .faultDeliverWrite die idx => Sys2Proof.Machine.execFaultDeliverWrite die idx s
  | .pageMigration ctx va newPa => Sys2Proof.Machine.execPageMigration ctx va newPa s
  | .sweepRingRenew core slab => Sys2Proof.Machine.execSweepRingRenew core slab s
  | .sweepStashWriteback core entry => Sys2Proof.Machine.execSweepStashWriteback core entry s
  | .sweepFrozenSlabRenew core slab => Sys2Proof.Machine.execSweepFrozenSlabRenew core slab s
  | .sweepFrozenTileRenew arr tile => Sys2Proof.Machine.execSweepFrozenTileRenew arr tile s
  | .sweepMarkLost core slab => Sys2Proof.Machine.execSweepMarkLost core slab s
  | .sweepTileSave arr tile => Sys2Proof.Machine.execSweepTileSave arr tile s
  | .rotationScanSlot unit pass => Sys2Proof.Machine.execRotationScanSlot unit pass s
  | .unitReturnToService unit => Sys2Proof.Machine.execUnitReturnToService unit s
  | .controlStoreLoad words entries => Sys2Proof.Machine.execControlStoreLoad words entries s
  | .domainReadRequest hdr => Sys2Proof.Machine.execDomainReadRequest hdr s
  | .domainWriteRequest hdr bytes => Sys2Proof.Machine.execDomainWriteRequest hdr bytes s
  | .domainAtomicRequest hdr => Sys2Proof.Machine.execDomainAtomicRequest hdr s
  | .domainSkip hdr => Sys2Proof.Machine.execDomainSkip hdr s
  | .domainReadResponse hdr bytes => Sys2Proof.Machine.execDomainReadResponse hdr bytes s
  | .domainWriteAck hdr => Sys2Proof.Machine.execDomainWriteAck hdr s
  | .domainAtomicResponse hdr => Sys2Proof.Machine.execDomainAtomicResponse hdr s
  | .domainResendTimeout target pseq => Sys2Proof.Machine.execDomainResendTimeout target pseq s
  | .groupFormation dgrp largest => Sys2Proof.Machine.execGroupFormation dgrp largest s
  | .linkRetrain phase => Sys2Proof.Machine.execLinkRetrain phase s
  | .groupLeave member newLead => Sys2Proof.Machine.execGroupLeave member newLead s
  | .mLevelStart id => Sys2Proof.Machine.execMLevelStart id s
  | .d2dUncorrectableError core => Sys2Proof.Machine.execD2dUncorrectableError core s
  | .wholeMemoryCheckpoint => Sys2Proof.Machine.execWholeMemoryCheckpoint s
  | .wholeMemoryRestore cells => Sys2Proof.Machine.execWholeMemoryRestore cells s
  | .hostWrite port fn addr bytes => Sys2Proof.Machine.execHostWrite port fn addr bytes s
  | .hostAtomicOp port fn addr aop size val cv => Sys2Proof.Machine.execHostAtomicOp port fn addr aop size val cv s
  | .doorbellWrite port fn slot v => Sys2Proof.Machine.execDoorbellWrite port fn slot v s
  | .mailboxTakeover port consent => Sys2Proof.Machine.execMailboxTakeover port consent s
  | .mailboxRecordWrite copyB kind bytes => Sys2Proof.Machine.execMailboxRecordWrite copyB kind bytes s
  | .attestationQuote nonce => Sys2Proof.Machine.execAttestationQuote nonce s
  | .functionLevelReset port fn => Sys2Proof.Machine.execFunctionLevelReset port fn s
  | .moduleReset => Sys2Proof.Machine.execModuleReset s
  | .bootRecordAccept kind => Sys2Proof.Machine.execBootRecordAccept kind s
  | .firmwareTraining => Sys2Proof.Machine.execFirmwareTraining s
  | .bootStoreLoad => Sys2Proof.Machine.execBootStoreLoad s
  | .bootScan => Sys2Proof.Machine.execBootScan s
  | .thermalShutdown hot => Sys2Proof.Machine.execThermalShutdown hot s
  | .trapQueueTake die => Sys2Proof.Machine.execTrapQueueTake die s
  | .domainMembershipChange modid members => Sys2Proof.Machine.execDomainMembershipChange modid members s
  | .hostLinkDown port => Sys2Proof.Machine.execHostLinkDown port s
  | .thermalShutdownExit => Sys2Proof.Machine.execThermalShutdownExit s
  | .domainAtomicRateRelease target => Sys2Proof.Machine.execDomainAtomicRateRelease target s

end Sys2Proof.Machine
end

