-- ==== Sys2Proof/Machine/Step.lean ====
section
/-! DEFINITION. One step of the module: an input that has come, a step that is enabled, the issue of a group, or the end
of the cycle. -/
namespace Sys2Proof.Machine

/-- The first of these steps that can take place. -/
def firstEnabled (s : State) : List Ev → Option State
  | [] => none
  | e :: r =>
    match e s with
    | .next t => some t
    | _ => firstEnabled s r

/-- The first input, once its cycle has come and if it can take place. DESIGN CHOICE (log 6). -/
def inputStep (s : State) : Option State :=
  match s.inputs with
  | [] => none
  | (t, i) :: r => if t ≤ s.cyc then firstEnabled { s with inputs := r } [exec i] else none

/-- The group at hand of a sequencer issues: an issue cause traps, a false guard goes past, an instruction is executed. -/
def issueGroup (s : State) (c : Nat) (sq : Seq) : Host.Outcome State Fault Refusal :=
  match (s.core c).fetch c sq with
  | .bad cause word fsel reason u => finish (s.withCur u) (fetchTrap cause word fsel reason u)
  | .hold kind obj u => finish (s.withCur u) (.wait (s.withCur u) kind obj 0)
  | .skip u => if (s.withCur u).flawedGuard then finish (s.withCur u) flawTrap else .next (s.withCur u).skipGroup
  | .run i u => if (s.withCur u).flawedGuard then finish (s.withCur u) flawTrap else exec i (s.withCur u)

/-- A sequencer's turn: a group that waited is armed first (R98), then it issues. -/
def issueStep (s : State) (c : Nat) (sq : Seq) : Host.Outcome State Fault Refusal :=
  if ((s.core c).im.seq sq).waiting.isSome then
    match execWaitingGroupIssue c sq s with
    | .next t => .next t
    | _ => issueGroup s c sq
  else issueGroup s c sq

/-- One step. DEDUCED (log 5). -/
def step (s : State) : Host.Outcome State Fault Refusal :=
  match inputStep s with
  | some t => .next t
  | none =>
    match firstEnabled s s.candidates with
    | some t => .next t
    | none =>
      match s.nextIssue with
      | some (c, sq) => issueStep s c sq
      | none =>
        match firstEnabled s s.lateCandidates with
        | some t => .next t
        | none => .next s.endCycle

/-- A segment for one instruction: untimed, of the largest cost. -/
def fetchSeg : Seg :=
  { num := 0, hdr := 0, cost := 4294967295, timed := false, lease := false, launch := 0, unit := 0, segNo := 0, trip := 0, lvl := [],
    lastSeg := false, overrun := false, lastEnd := 0 }

/-- The segment of core 0 whose one group is the word, in the patch buffer of K, or in slot 0 of the table of the class
that a template names. -/
def fetchImage (nbits w : Nat) (im : Image) : Image :=
  if nbits ≤ 32 then
    { im with seg := some fetchSeg,
              k := { im.k with pc := 0, base := 0, buf := [BitVec.ofNat 32 w], halted := none, last := none, mpos := none } }
  else
    let cls := classOf (w / 2 ^ 116 % 4)
    let sl : Slot := { t := BitVec.ofNat 128 w, reason := slotReason cls (BitVec.ofNat 128 w), loading := false }
    let q := im.seq cls
    { im with seg := some fetchSeg }.setSeq cls
      { q with pc := 0, base := 0, buf := [0], halted := none, last := none, mpos := none, table := mset q.table 0 sl }

/-- The sequencer whose patch buffer the word comes to. -/
def fetchSeq (nbits w : Nat) : Seq := if nbits ≤ 32 then .k else classOf (w / 2 ^ 116 % 4)

/-- The state with the group at hand of a sequencer of core 0 as the present one. -/
def State.atGroup (s : State) (sq : Seq) : State :=
  match (s.core 0).fetch 0 sq with
  | .bad _ _ _ _ u => s.withCur u
  | .hold _ _ u => s.withCur u
  | .skip u => s.withCur u
  | .run _ u => s.withCur u

/-- The state in which the very next step fetches and runs this instruction: on core 0, in a running segment, on a schedule cycle that no idle
count of the word lies beyond (R14). DEDUCED (log 11). -/
def State.withFetchWord (s : State) (nbits w : Nat) : State :=
  State.atGroup
    { s.modCore 0 (fun co =>
        { co with bound := true, im := { fetchImage nbits w co.im with sched := 31 }, walk := { co.walk with phase := .running } }) with
      inputs := [], plat := { s.plat with bootStep := 6, recovery := false } }
    (fetchSeq nbits w)

end Sys2Proof.Machine
end

