-- ==== Sys2Proof/Safety.lean ====
section
/-! DEFINITION. What a safe run is: no step of it ends in a fault or a refusal; and the terms in which claims speak of the issue of a
group: when it can issue, and how its issue ends. -/
namespace Sys2Proof.Machine

/-- A state from which every one of the next n steps answers a next state. -/
def runsFor : Nat → State → Prop
  | 0, _ => True
  | n + 1, s => ∃ t, step s = .next t ∧ runsFor n t

/-- A safe state runs for ever. -/
def Safe (s : State) : Prop := ∀ n, runsFor n s

/-- The group at hand can issue: none of these register codes, which it reads, awaits an interlocked result (R19), K has no pending
error to raise at it (R346), and none of the registers holds an uncorrectable error (R348). -/
abbrev State.Ready (s : State) (codes : List (BitVec 5)) : Prop :=
  s.interlock codes = none ∧ s.pendingHere = none ∧ s.flawed codes = false

/-- The group at hand issues an instruction whose effect leads to t; control goes past it. -/
def State.Issues (s : State) (i : Instr) (t : State) : Prop := exec i s = .next t.retire

/-- The group at hand issues a transfer whose effect leads to t; control goes to the target, and the next group is delayed by so many cycles. -/
def State.Jumps (s : State) (i : Instr) (t : State) (target : Word) (delay : Nat) : Prop := exec i s = .next (t.retireTo target delay)

/-- The group at hand traps with this cause, in a record of this class, and with no effect of its own (R23): the state is the one that
taking the trap leaves. -/
def State.Traps (s : State) (i : Instr) (cause cls : Nat) : Prop :=
  ∃ info : TrapInfo, info.cause = cause ∧ info.cls = cls ∧ exec i s = .next (s.trapHere info)

/-- The group at hand waits (R97, R98): in a timed segment the timing fault with this kind and object is raised, in an untimed one the group
stands and is tried again on a later cycle. -/
def State.Waits (s : State) (i : Instr) (kind obj : Nat) : Prop :=
  if s.me.timed then ∃ info : TrapInfo, info.cause = 0x20 ∧ info.status = timingStatus 0 kind obj ∧ exec i s = .next (s.trapHere info)
  else ∃ l, exec i s = .next (s.modSeq s.cur.core s.cur.sq (fun q => { q with waiting := some { kind := kind, obj := obj, lacks := l }, tried := some s.cyc }))

/-- The results of the group at hand put in flight are exactly those that P names, all due on this schedule cycle; nothing else of the state
changes. -/
def State.PutsInFlight (s t : State) (due : Nat) (P : Fx → Prop) : Prop :=
  t = s.modIm s.cur.core (fun im => { im with flight := t.me.im.flight }) ∧
  ∀ x, x ∈ t.me.im.flight ↔
    x ∈ s.me.im.flight ∨ (x.due = due ∧ x.issue = s.t ∧ x.ord = 0 ∧ x.sq = s.cur.sq ∧ P x.fx)

/-- The accesses of K to these bytes translate at once (R231, R251): the parts, with their physical addresses, and the state, in which only the
core's translations have moved. -/
def State.Reaches (s : State) (kind : Nat) (va : Word) (n : Nat) (s1 : State) (ps : List KPiece) : Prop :=
  ∃ s0 es, s.kTranslate s.cur.core kind 0 ((lineParts va n).map (fun p => p.1)) = .ok s0 es ∧
    s1 = s0.modMs s0.cur.core (fun m => { m with hold := none }) ∧
    ps = ((lineParts va n).zip es).map (fun x => KPiece.of x.1.1 x.1.2 x.2.1 x.2.2)

/-- A packet that its engine has taken and may work on now (R266, R275): its cycle has come, no access of it stands, no domain request of its queue is unanswered,
its core is not frozen, its descriptor, where it has one that can be read, has been read (R285), and a job card is at its domain's commit point. -/
def State.Working (s : State) (w : Nat) (x : Work) : Prop :=
  mfind s.works w = some x ∧ x.stage = .taken ∧ x.at_ ≤ s.cyc ∧ x.cause = 0 ∧ x.wait = .go ∧
  (isCard x.pkt = true → pTs x.pkt = s.cp x.ctx (cardClass (pKind x.pkt))) ∧ s.workFrozen x = false ∧ x.needsDesc = false ∧ ∀ r ∈ s.dom.reqs, r.core ≠ 128 + (1024 + x.q)

/-- A packet's work ends here (R274, R275, R290): a job card now waits for its commit, another packet's writes have been performed. -/
def State.WorkEnds (s : State) (i : Instr) (w : Nat) (x : Work) (cause : Nat) (out : List (Nat × List Byte)) (posts : List (Nat × Nat × List Byte)) : Prop :=
  ∃ u y, exec i s = .next u ∧ mfind u.works w = some y ∧ y.stage = (if isCard x.pkt then .performed else .committed) ∧ y.cause = cause ∧ y.out = out ∧
    y.posts = posts ∧ y.pkt = x.pkt ∧ y.q = x.q ∧ y.idx = x.idx ∧ s.cyc + 1 ≤ y.at_

/-- The packet's work fails with this cause (R290): its record, where it can be written, says so, and nothing else is written. -/
def State.WorkFails (s : State) (i : Instr) (w : Nat) (x : Work) (cause : Nat) (s1 : State) : Prop :=
  ∀ r s2, s1.recordPut x (recordBytes 0 0 cause 0) = .ok r s2 → s.WorkEnds i w x cause r.1 r.2

/-- The packet's work succeeds (R290): its writes are these and those of its record. -/
def State.WorkPlaces (s : State) (i : Instr) (w : Nat) (x : Work) (s1 : State) (wr : Writes) (count : Nat) (flags : Flags) (hits : Nat) : Prop :=
  ∀ r s2, s1.recordPut x (recordBytes count flags 0 hits) = .ok r s2 → s.WorkEnds i w x 0 (wr.1 ++ r.1) (wr.2 ++ r.2)

end Sys2Proof.Machine
end

