-- ==== Sys2Proof/Certificates/Slice0/Obligations.lean ====
section
/-! DEFINITION. The statements of the row, and the terms they are stated in. -/
open Sys2Proof Sys2Proof.Machine

/-! ## Integer arithmetic -/

/-- What the manual gives as the result of an integer instruction: the registers it reads, its destination and the value. -/
def Sys2Proof.Machine.State.intRow (s : State) (i : Instr) : Option (List (BitVec 5) × BitVec 5 × Word) :=
  let imm (f : RegF) : Word := f.imm.signExtend 64
  let bin (f : RegF) (g : Word → Word → Word) : Option (List (BitVec 5) × BitVec 5 × Word) := some ([f.a, f.b], f.d, g (s.rd f.a) (s.rd f.b))
  let one (f : RegF) (g : Word → Word → Word) : Option (List (BitVec 5) × BitVec 5 × Word) := some ([f.a], f.d, g (s.rd f.a) (imm f))
  let shl (a b : Word) : Word := if b.toNat < 64 then BitVec.ofNat 64 (a.toNat * 2 ^ b.toNat) else 0
  let shr (a b : Word) : Word := if b.toNat < 64 then BitVec.ofNat 64 (a.toNat / 2 ^ b.toNat) else 0
  let sra (a b : Word) : Word :=
    if b.toNat < 64 then BitVec.ofInt 64 (a.toInt / (2 ^ b.toNat : Nat)) else if a.toInt < 0 then BitVec.ofNat 64 (2 ^ 64 - 1) else 0
  match i with
  | .and f => bin f (fun a b => a &&& b)
  | .andImm f => one f (fun a b => a &&& b)
  | .or f => bin f (fun a b => a ||| b)
  | .orImm f => one f (fun a b => a ||| b)
  | .xor f => bin f (fun a b => a ^^^ b)
  | .xorImm f => one f (fun a b => a ^^^ b)
  | .shl f => bin f shl
  | .shlImm f => one f shl
  | .shr f => bin f shr
  | .shrImm f => one f shr
  | .sra f => bin f sra
  | .sraImm f => one f sra
  | .mul f => bin f (fun a b => BitVec.ofNat 64 (a.toNat * b.toNat))
  | .mulImm f => one f (fun a b => BitVec.ofNat 64 (a.toNat * b.toNat))
  | .mulhs f => bin f (fun a b => BitVec.ofInt 64 (a.toInt * b.toInt / (2 ^ 64 : Nat)))
  | .mulhu f => bin f (fun a b => BitVec.ofNat 64 (a.toNat * b.toNat / 2 ^ 64))
  | .min f => bin f (fun a b => if f.var = 0 then (if a.toInt ≤ b.toInt then a else b) else if a.toNat ≤ b.toNat then a else b)
  | .max f => bin f (fun a b => if f.var = 0 then (if a.toInt ≥ b.toInt then a else b) else if a.toNat ≥ b.toNat then a else b)
  | .lui f => some ([f.a], f.d, BitVec.ofNat 64 (f.imm.toNat * 2 ^ 32 + (s.rd f.a).toNat % 2 ^ 32))
  | .sel f => some ([f.a, f.b], f.d, if f.pa = 0 ∨ s.mySeq.preds.getLsbD f.pa.toNat = true then s.rd f.a else s.rd f.b)
  | .li f => some ([], f.d, imm f)
  | .mov f => some ([f.a], f.d, s.rd f.a)
  | _ => none

/-- R50, R51, R53, R348: each integer instruction that writes one register issues, and the value of the table is due in d on the next cycle. It holds
for every form, and for g0 as the destination, whose write `wr` discards (R9). A group that reads a register with an uncorrectable error traps with cause
0x80 in class 0. -/
def Obligations.IntegerInstructionsWriteTheirValue : Prop :=
  ∀ (s : State) (i : Instr) (codes : List (BitVec 5)) (d : BitVec 5) (v : Word),
    s.intRow i = some (codes, d, v) →
    (s.Ready codes → (∀ f, i = .sel f → s.flawedPred f.pa.toNat = false) → s.Issues i (s.wr 1 d v)) ∧
    (s.interlock codes = none → s.pendingHere = none → s.flawed codes = true → s.Traps i 0x80 0)

/-- R50: `add` and `sub` compute the exact result; wrap it, or saturate it as var says; pb takes whether it left the range. -/
def Claims.AddAndSubSaturateAndFlag : Prop :=
  ∀ (s : State) (f : RegF) (i : Instr) (codes : List (BitVec 5)) (b : Word) (neg : Bool),
    ((i = .add f ∧ codes = [f.a, f.b] ∧ b = s.rd f.b ∧ neg = false) ∨ (i = .addImm f ∧ codes = [f.a] ∧ b = f.imm.signExtend 64 ∧ neg = false) ∨
      (i = .sub f ∧ codes = [f.a, f.b] ∧ b = s.rd f.b ∧ neg = true) ∨ (i = .subImm f ∧ codes = [f.a] ∧ b = f.imm.signExtend 64 ∧ neg = true)) →
    s.Ready codes → f.var.toNat < 3 →
    ∃ v o, s.Issues i ((s.wr 1 f.d v).wrPred 1 f.pb o) ∧
      (let a := s.rd f.a
       let x : Int := if neg then a.toInt - b.toInt else a.toInt + b.toInt
       let u : Int := if neg then (a.toNat : Int) - b.toNat else (a.toNat : Int) + b.toNat
       let inS : Prop := -(2 ^ 63) ≤ x ∧ x < 2 ^ 63
       let inU : Prop := 0 ≤ u ∧ u < 2 ^ 64
       (f.var = 0 → v = (if neg then a - b else a + b) ∧ (o = true ↔ ¬inS)) ∧
       (f.var = 1 → (o = true ↔ ¬inS) ∧ (inS → v.toInt = x) ∧ (x < -(2 ^ 63) → v.toInt = -(2 ^ 63)) ∧ (2 ^ 63 ≤ x → v.toInt = 2 ^ 63 - 1)) ∧
       (f.var = 2 → (o = true ↔ ¬inU) ∧ (inU → (v.toNat : Int) = u) ∧ (u < 0 → v = 0) ∧ (2 ^ 64 ≤ u → v.toNat = 2 ^ 64 - 1)))

/-- R54: `cmp` writes the outcome of the condition (Table 3-3) to pa, and then its complement to pb, which stands where both are one predicate; no other
value of var is well formed. -/
def Claims.CompareWritesConditionAndComplement : Prop :=
  (∀ (cls : Seq) (f : RegF), 10 ≤ f.var.toNat → wellFormed cls (.cmp f) = false ∧ wellFormed cls (.cmpImm f) = false) ∧
  ∀ (s : State) (f : RegF) (imm : Bool) (r : Bool),
    let a := s.rd f.a
    let b := if imm then f.imm.signExtend 64 else s.rd f.b
    s.Ready (if imm then [f.a] else [f.a, f.b]) → f.var.toNat < 10 →
    (r = true ↔ (f.var = 0 ∧ a = b) ∨ (f.var = 1 ∧ a ≠ b) ∨ (f.var = 2 ∧ a.toInt < b.toInt) ∨ (f.var = 3 ∧ a.toInt ≤ b.toInt) ∨
      (f.var = 4 ∧ a.toInt > b.toInt) ∨ (f.var = 5 ∧ a.toInt ≥ b.toInt) ∨ (f.var = 6 ∧ a.toNat < b.toNat) ∨ (f.var = 7 ∧ a.toNat ≤ b.toNat) ∨
      (f.var = 8 ∧ a.toNat > b.toNat) ∨ (f.var = 9 ∧ a.toNat ≥ b.toNat)) →
    s.Issues (if imm then .cmpImm f else .cmp f) ((s.wrPred 1 f.pa r).wrPred 1 f.pb (!r))

/-! ## Control transfers -/

/-- R55, R56: `br` and `jmp` transfer to their target with no delay when it is aligned and in the segment's patch stream; an unaligned target
raises 0x0B and one outside 0x09, with no effect; one that is both raises 0x0B.
Choices of the model that it rests on: log entry 67. -/
def Claims.BranchesTransferToACheckedTarget : Prop :=
  ∀ (s : State) (f : CtlF) (reg : Bool),
    let i : Instr := if reg then .jmp f else .br f
    let target := (if reg then s.rd f.a else s.cur.first) + f.off.signExtend 64 * 4
    s.Ready (if reg then [f.a] else []) →
    (target.toNat % 4 ≠ 0 → s.Traps i 0xB 0) ∧
    (target.toNat % 4 = 0 → s.mySeq.inStream target = false → s.Traps i 9 0) ∧
    (target.toNat % 4 = 0 → s.mySeq.inStream target = true → s.Jumps i s target 0)

/-- R58, R59, R61: a `call` whose checks pass moves the window up by the frame, clears the callee's fresh registers, writes the link, spills
what the file cannot hold, and transfers, delayed by the spill; `entry` by itself does nothing; a target that is no `entry`, a spill ring too
small, and a spill in a timed segment end it with no effect.
Choices of the model that it rests on: log entries 18 and 19. -/
def Claims.CallMovesTheWindow : Prop :=
  ∀ (s : State) (f : CtlF),
    (s.Ready [] → s.Issues (.entry f) s) ∧
    (let im := s.me.im
     let target := (if f.var = 0 then s.cur.first else s.rd f.a) + f.off.signExtend 64 * 4
     s.Ready (if f.var = 0 then [] else [f.a]) → target.toNat % 4 = 0 → s.mySeq.inStream target = true →
     (s.mySeq.entryFrame target = none → s.Traps (.call f) 0xB 0) ∧
     (∀ frame, s.mySeq.entryFrame target = some frame → frame < 4 → 24 ≤ im.wres → im.wres ≤ 192 →
      let sp := im.wres + 8 * frame - 192
      let lat := (sp + 3) / 4
      (0 < sp → im.spcap < im.wspl + sp → s.Traps (.call f) 0xB 0) ∧
      (0 < sp → im.wspl + sp ≤ im.spcap → s.me.timed = true → s.Waits (.call f) 9 0) ∧
      ((sp = 0 ∨ (im.wspl + sp ≤ im.spcap ∧ s.me.timed = false ∧
          ∀ i, i < sp → s.me.winBusy ((im.wbase + 192 + 24 - im.wres + i) % 192) = false ∧
            RegFlaw.win ((im.wbase + 192 + 24 - im.wres + i) % 192) ∉ im.flaws)) →
       let s1 := if sp = 0 then s else s.posts s.cur.core (writePosts (s.me.ringAddr (8 * im.wspl)) (s.me.spilled sp))
       ∃ t, s.Jumps (.call f) t target lat ∧
        s1.PutsInFlight t (s.t + 1 + lat) (fun fx =>
          fx = .window ((im.wbase + 8 * frame) % 192) (im.wres - sp + 8 * frame) (im.wspl + sp) ∨
          fx = .win ((im.wbase + 8 * frame + 23) % 192) (s.cur.nxt + BitVec.ofNat 64 frame) ∨
          ∃ n, 24 - 8 * frame ≤ n ∧ n ≤ 22 ∧ fx = .win ((im.wbase + 8 * frame + n) % 192) 0))))

/-- R60, R61: a `ret` with a caller's frame moves the window down by the frame of the link, fills what was spilled of it, and transfers to the
link's address, delayed by the fill; with no caller's frame it raises 0x0B.
Choices of the model that it rests on: log entries 18 and 19. -/
def Claims.RetMovesTheWindowBack : Prop :=
  ∀ (s : State) (f : CtlF),
    let im := s.me.im
    let target := s.rd f.a &&& ~~~(3 : Word)
    let fr := 8 * ((s.rd f.a).toNat % 4)
    let k := 24 + fr - im.wres
    let lat := (k + 3) / 4
    s.Ready [f.a] →
    (im.wres + im.wspl < 24 + fr → s.Traps (.ret f) 0xB 0) ∧
    (24 + fr ≤ im.wres + im.wspl → s.mySeq.inStream target = false → s.Traps (.ret f) 9 0) ∧
    (24 + fr ≤ im.wres + im.wspl → s.mySeq.inStream target = true → 0 < k → s.me.timed = true → s.Waits (.ret f) 9 0) ∧
    (24 + fr ≤ im.wres + im.wspl → s.mySeq.inStream target = true → (k = 0 ∨ s.me.timed = false) →
      (∀ i, i < k → firstBad s.me.bad (s.me.ringAddr (8 * (im.wspl - k + i))) 8 = none) →
      ∃ t, s.Jumps (.ret f) t target lat ∧
        s.PutsInFlight t (s.t + 1 + lat) (fun fx =>
          fx = .window ((im.wbase + 192 - fr) % 192) (im.wres + k - fr) (im.wspl - k) ∨
          ∃ j, j < k ∧ fx = .win ((im.wbase + 384 + 24 - im.wres - k + j) % 192)
            (BitVec.ofNat 64 (leNat (s.me.bytes (s.me.ringAddr (8 * (im.wspl - k + j))) 8)))))

/-- R63: `loop` checks its exit first; a register count of 2^32 or more raises 0x0B; with no iterations it transfers to the exit; else the
loop counter, the epilogue count and the stage predicates are due on the next cycle and control goes on. An exit that is both unaligned and outside the
stream raises 0x0B.
Choices of the model that it rests on: log entry 67. -/
def Claims.LoopEntersOrLeaves : Prop :=
  ∀ (s : State) (f : CtlF),
    let exit := s.cur.first + f.off.signExtend 64 * 4
    let reg := f.var.getLsbD 3
    let n := if reg then (s.rd f.a).toNat else f.cnt.toNat
    s.Ready (if reg then [f.a] else []) →
    (exit.toNat % 4 ≠ 0 → s.Traps (.loop f) 0xB 0) ∧
    (exit.toNat % 4 = 0 → s.mySeq.inStream exit = false → s.Traps (.loop f) 9 0) ∧
    (exit.toNat % 4 = 0 → s.mySeq.inStream exit = true →
      (2 ^ 32 ≤ n → s.Traps (.loop f) 0xB 0) ∧
      (n = 0 → s.Jumps (.loop f) s exit 0) ∧
      (0 < n → n < 2 ^ 32 → ∃ t, s.Issues (.loop f) t ∧
        s.PutsInFlight t (s.t + 1) (fun fx =>
          fx = .loop s.cur.sq (BitVec.ofNat 32 (n - 1)) (BitVec.ofNat 4 (f.var.toNat % 8 + 1)) ∨
          fx = .pred s.cur.sq 8 true ∨ ∃ p, 9 ≤ p ∧ p ≤ 15 ∧ fx = .pred s.cur.sq p false)))

/-- R64: `lbr` checks its target whether it branches or not; with iterations left it takes one and branches, in the epilogue it counts that
down and branches, else it falls through; every time it rotates. A target that is both unaligned and outside the stream raises 0x0B.
Choices of the model that it rests on: log entry 67. -/
def Claims.LbrCountsRotatesAndBranches : Prop :=
  ∀ (s : State) (f : CtlF),
    let target := s.cur.first + f.off.signExtend 64 * 4
    let q := s.mySeq
    let both (lc : Half) (ec : BitVec 4) (x : Bool) (fx : Fx) : Prop := fx = .loop s.cur.sq lc ec ∨ fx = .rotate s.cur.sq x
    s.Ready [] →
    (target.toNat % 4 ≠ 0 → s.Traps (.lbr f) 0xB 0) ∧
    (target.toNat % 4 = 0 → s.mySeq.inStream target = false → s.Traps (.lbr f) 9 0) ∧
    (target.toNat % 4 = 0 → s.mySeq.inStream target = true →
      (q.lc ≠ 0 → ∃ t, s.Jumps (.lbr f) t target 0 ∧ s.PutsInFlight t (s.t + 1) (both (q.lc - 1) q.ec true)) ∧
      (q.lc = 0 → 1 < q.ec.toNat → ∃ t, s.Jumps (.lbr f) t target 0 ∧ s.PutsInFlight t (s.t + 1) (both 0 (q.ec - 1) false)) ∧
      (q.lc = 0 → q.ec.toNat ≤ 1 → ∃ t, s.Issues (.lbr f) t ∧ s.PutsInFlight t (s.t + 1) (both 0 0 false)))

/-- R24, R75, R76: `halt` halts its sequencer on this cycle, its place unchanged, and on C ends its counted lease; `trap` takes effect, control
goes past it, and then the trap is taken in a class 1 record with cause 0, n as its status and A as its address. -/
def Claims.HaltAndTrapStopTheSequencer : Prop :=
  ∀ (s : State) (f : MgtF),
    (s.Ready [] → s.Jumps (.halt f)
      ((if s.cur.sq = .c then s.endCounted s.cur.core else s).modSeq s.cur.core s.cur.sq (fun q => { q with halted := some (s.t + 1) })) s.mySeq.pc 0) ∧
    (s.Ready [f.a] → exec (.trap f) s = .next (s.retire.takeTrap s.cur.core s.cur.sq
      { cause := 0, status := f.n.setWidth 32, addr := s.rd f.a, cls := 1, engine := 0, uidx := 0 } s.mySeq.index 0))

/-! ## Token queues and alignment -/

/-- R102, R103: `tkput`, `tkget` and `tkget.try` at the queue's source or sink: tokens are added, or taken, on the next cycle; the try form
writes whether it took them. At another sequencer they raise 0x0B; a full queue and a `tkget` that lacks tokens wait. -/
def Claims.TokensAreAddedAndTaken : Prop :=
  ∀ (s : State) (f : MgtF),
    let q := f.idx.toNat
    let n := f.n.toNat
    let im := s.me.im
    let has := im.tkcnt.toList.getD q 0
    let source := im.tkmap.toNat / 2 ^ (8 * q) % 4
    let sink := im.tkmap.toNat / 2 ^ (8 * q + 2) % 4
    s.Ready [] →
    (source ≠ s.cur.sq.code → s.Traps (.tkput f) 0xB 0) ∧
    (source = s.cur.sq.code → has + n ≤ 255 → s.Issues (.tkput f) (s.result 1 0 (.tokens q n))) ∧
    (source = s.cur.sq.code → 255 < has + n → s.Waits (.tkput f) 2 q) ∧
    (sink ≠ s.cur.sq.code → s.Traps (.tkget f) 0xB 0 ∧ s.Traps (.tkgetTry f) 0xB 0) ∧
    (sink = s.cur.sq.code → n ≤ has →
      s.Issues (.tkget f) (s.result 1 0 (.take q n)) ∧ s.Issues (.tkgetTry f) ((s.result 1 0 (.take q n)).wrPred 1 f.pa true)) ∧
    (sink = s.cur.sq.code → has < n → s.Waits (.tkget f) 1 q ∧ s.Issues (.tkgetTry f) (s.wrPred 1 f.pa false))

/-- R104: `align` in an untimed segment goes on once every masked sequencer is halted, or parked at a `tkget` on a queue that K feeds, and no
result of the core is in flight; each parked one gets exactly the tokens it lacks. In a timed segment it raises 0x0B; else it waits.
Choices of the model that it rests on: log entry 24. -/
def Claims.AlignFeedsTheParkedSequencers : Prop :=
  ∀ (s : State) (f : MgtF),
    let all := (alignMask f).all (fun q => s.me.im.alignReady q) && !s.me.inFlight
    s.Ready [] →
    (s.me.timed = true → s.Traps (.align f) 0xB 0) ∧
    (s.me.timed = false → all = false → s.Waits (.align f) 0 0) ∧
    (s.me.timed = false → all = true → ∃ t, s.Issues (.align f) t ∧ t.mem = s.mem ∧ (∀ c, c ≠ s.cur.core → t.core c = s.core c) ∧
      t.me = { s.me with im := { s.me.im with flight := t.me.im.flight } } ∧
      ∀ x, x ∈ t.me.im.flight ↔ x ∈ s.me.im.flight ∨
        ∃ q ∈ alignMask f, ∃ k n, s.me.im.parked q = some (k, n) ∧
          x = { due := s.t + 1, issue := s.t, ord := 0, sq := s.cur.sq, fx := .tokens k n })

/-- R105: `galign` issues, and its core waits from the next cycle with the number of its arrival; when every core of the group has arrived with
that number, 41 cycles after the last arrival all of them go on; when a member has trapped or its context is being removed, a waiting core of its group
raises cause 0x23 at its `galign`.
Choices of the model that it rests on: log entry 36. -/
def Claims.GalignHoldsReleasesAndBreaks : Prop :=
  ∀ (s : State) (f : MgtF) (c m : Nat),
    (s.Ready [] → ∃ t, s.Issues (.galign f) t ∧ t.me.stops.galign = some (s.cyc + 1, s.me.im.garrive) ∧
      t.me.im.garrive = s.me.im.garrive + 1 ∧ t.me.frozenAt (s.cyc + 1) = true ∧ ∀ c', c' ≠ s.cur.core → t.core c' = s.core c') ∧
    (∀ g j a, c < 128 → (s.core c).stops.galign = some (g, j) →
      latest ((s.groupOf c).map (fun m => s.arrival (s.launchOf c) m j)) = some a → a + 41 ≤ s.cyc →
      ∃ t, exec (.galignRelease c) s = .next t ∧ (∀ m ∈ s.groupOf c, (t.core m).stops.galign = none) ∧
        ∀ m, m ∉ s.groupOf c → t.core m = s.core m) ∧
    (∀ w, m < 128 → s.memberBroken m = true → w ∈ s.groupOf m → w ≠ m → (s.core w).stops.galign.isSome = true → (s.core w).stops.stop = .run →
      (s.groupOf m).Nodup →
      ∃ t, exec (.galignBreak m) s = .next t ∧ (t.core w).stops.galign = none ∧ (t.core w).stops.stop = .trapped (s.core w).im.sched s.cyc true ∧
        (t.core w).im.k.pc = (s.core w).stops.gpc ∧ (∃ r ∈ (t.core w).stops.recs, r.cause = 0x23 ∧ r.status = timingStatus 0 0 m))

/-! ## Special registers -/

/-- What a special register of a core reads, for the registers of Table 2-10 and those the other chapters add to it (R66). -/
def Sys2Proof.Machine.State.registerRow (s : State) (c : Nat) : List (Nat × Nat) :=
  let co := s.core c
  let im := co.im
  [(0x00, c % 64), (0x01, c / 64), (0x02, s.dom.modid), (0x03, co.ctx), (0x10, s.cyc), (0x11, s.cyc / 256), (0x12, im.sched),
   (0x13, im.vec.fsy.toNat * 256 + im.vec.fsx.toNat), (0x20, im.wbase), (0x21, im.wres), (0x22, im.wspl), (0x23, im.spcap), (0x24, im.k.lc.toNat),
   (0x25, im.k.ec.toNat), (0x26, (im.k.preds ||| 1).toNat), (0x28, im.tkmap.toNat), (0x2A, 0), (0x2B, im.vec.rrb.toNat), (0x2D, co.swthr),
   (0x2E, co.ptbase.toNat), (0x2F, im.semov.toNat), (0x49, s.hrcfg.toNat), (0x4B, s.dom.dgrp.toNat), (0x4C, im.rid.toNat)]

/-- R66, R67: `mfs` writes the register's value on this cycle to d, due on the next; an unassigned number raises 0x0B. -/
def Claims.MfsReadsSpecialRegisters : Prop :=
  ∀ (s : State) (f : MgtF),
    s.Ready [] →
    (∀ v, (f.idx.toNat, v) ∈ s.registerRow s.cur.core → s.Issues (.mfs f) (s.wr 1 f.d (BitVec.ofNat 64 v))) ∧
    (∀ v, s.specialRead s.cur.core f.idx.toNat = some v → s.Issues (.mfs f) (s.wr 1 f.d v)) ∧
    ((0x04 ≤ f.idx.toNat ∧ f.idx.toNat ≤ 0x07 ∨ 0x14 ≤ f.idx.toNat ∧ f.idx.toNat ≤ 0x1F ∨ f.idx = 0x27 ∨ 0x4E ≤ f.idx.toNat) →
      s.Traps (.mfs f) 0xB 0)

/-- R67, R102, R141, R270, R397: what `mts` makes due on the next cycle, by register number, and the values it refuses with 0x0B; a register that
software may not write raises 0x08. -/
def Claims.MtsWritesSpecialRegisters : Prop :=
  ∀ (s : State) (f : MgtF),
    let n := f.idx.toNat
    let a := s.rd f.a
    let writes (i : Instr) (fx : Fx) : Prop := s.Issues i (s.result 1 0 fx)
    s.Ready [f.a] →
    (n < 0x24 ∨ n = 0x27 ∨ n = 0x29 ∨ (0x2B ≤ n ∧ n ≤ 0x2E) ∨ (0x40 ≤ n ∧ n ≤ 0x43) ∨ (0x48 ≤ n ∧ n ≤ 0x4B) ∨ 0x4D ≤ n → s.Traps (.mts f) 8 0) ∧
    (n = 0x24 → a.toNat < 2 ^ 32 → writes (.mts f) (.lcW (a.setWidth 32))) ∧
    (n = 0x24 → 2 ^ 32 ≤ a.toNat → s.Traps (.mts f) 0xB 0) ∧
    (n = 0x25 → a.toNat ≤ 8 → writes (.mts f) (.ecW (a.setWidth 4))) ∧
    (n = 0x25 → 8 < a.toNat → s.Traps (.mts f) 0xB 0) ∧
    (n = 0x26 → writes (.mts f) (.predAll (a.setWidth 16 ||| 1))) ∧
    (n = 0x2F → writes (.mts f) (.special n a)) ∧
    (0x30 ≤ n → n ≤ 0x3F → a.toNat % 64 = 0 → writes (.mts f) (.special n a)) ∧
    (0x30 ≤ n → n ≤ 0x3F → a.toNat % 64 ≠ 0 → s.Traps (.mts f) 0xB 0) ∧
    (0x44 ≤ n → n ≤ 0x47 → writes (.mts f) (.special n a)) ∧
    (n = 0x4C → a.toNat < 2 ^ 25 → writes (.mts f) (.special n a)) ∧
    (n = 0x4C → 2 ^ 25 ≤ a.toNat → s.Traps (.mts f) 0xB 0) ∧
    (writes (.mtsFclr f) (.fclr a)) ∧
    ((∀ q, q < 8 → s.me.im.tkcnt.toList.getD q 0 = 0) → (∀ q w, (s.me.im.seq q).waiting = some w → w.kind ≠ 1) →
      (a &&& 0xF0F0F0F0F0F0F0F0 = 0 → writes (.mtsTkmap f) (.special 0x28 a)) ∧
      (a &&& 0xF0F0F0F0F0F0F0F0 ≠ 0 → s.Traps (.mtsTkmap f) 0xB 0)) ∧
    ((∃ q, q < 8 ∧ s.me.im.tkcnt.toList.getD q 0 ≠ 0) → s.Traps (.mtsTkmap f) 0xB 0) ∧
    ((∃ q w, q ≠ s.cur.sq ∧ (s.me.im.seq q).waiting = some w ∧ w.kind = 1) → s.Traps (.mtsTkmap f) 0xB 0)

/-- R68, R69, R73, R74: `xset` writes a register of another sequencer two cycles later, `tset` a template slot two cycles later; `lmix` and
`crc32c` compute Sorrel and CRC-32C, due after 4 and 2 cycles. -/
def Claims.OtherFixedLatencyInstructions : Prop :=
  (∀ b : Template, decodeOp .k 0x41 b = some (.lmix (parseMgt b)) ∧ decodeOp .k 0x42 b = some (.crc32c (parseMgt b))) ∧
  (∀ (cls : Seq) (f : MgtF), wellFormed cls (.lmix f) = true → cls = .k ∧ f.var = 0) ∧
  (∀ (cls : Seq) (f : MgtF), wellFormed cls (.crc32c f) = true → cls = .k ∧ f.var.toNat ≤ 3) ∧
  ∀ (s : State) (f : MgtF),
    (s.Ready [f.a] → s.Issues (.xset f) (s.result 2 1 (.reg (Seq.ofCode f.seq.toNat) (f.d.toNat % 16) (s.rd f.a)))) ∧
    (s.Ready [f.a, f.b] → s.Issues (.tset f) (s.result 2 0 (.slot (Seq.ofCode f.seq.toNat) f.slot.toNat (s.rd f.b ++ s.rd f.a)))) ∧
    (s.Ready [f.a, f.b] →
      let z0 := s.rd f.a + s.rd f.b * 0xA24BAED4963EE407
      let z1 := (z0 ^^^ (z0 >>> 32)) * 0xB7E151628AED2A6B
      let z2 := (z1 ^^^ (z1 >>> 29)) * 0xE7037ED1A0B428DB
      s.Issues (.lmix f) (s.wr 4 f.d (z2 ^^^ (z2 >>> 32)))) ∧
    (s.Ready [f.a, f.b] → s.Issues (.crc32c f)
      (s.wr 2 f.d ((crcBytes ((s.rd f.a).setWidth 32) (leBytes (2 ^ f.var.toNat) (s.rd f.b).toNat)).setWidth 64)))

/-! ## Templates, macros and launches -/

/-- R41, R42, R70: a `tld` whose operands are legal reads its templates (at once from scratchpad, or as K's reads of global memory answer) and
holds K while one slot after another is written; each slot write installs its template and marks the slot loaded, and after the last K goes on. Its
address is A as it was when the group issued (R11). The range check comes before the alignment check, and both before the timing fault.
Choices of the model that it rests on: log entries 4, 25 and 67. -/
def Claims.TldWritesTemplateSlots : Prop :=
  ∀ (s : State) (f : MgtF) (c : Nat),
    let n := f.n.toNat
    let slot := f.slot.toNat
    let q := Seq.ofCode f.seq.toNat
    let a := s.standOp (s.rd f.a)
    (s.Ready [f.a] →
      (n = 0 → s.Issues (.tld f) s) ∧
      (0 < n → 62 < slot + n → s.Traps (.tld f) 0xB 0) ∧
      (0 < n → slot + n ≤ 62 → a.toNat % 16 ≠ 0 → s.Traps (.tld f) 0x40 0) ∧
      (0 < n → slot + n ≤ 62 → a.toNat % 16 = 0 → s.me.timed = false → f.var = 1 →
        s.me.checkLocal s.me.ctx s.tstep a.toNat (16 * n) true = none →
        ∃ t, exec (.tld f) s = .next t ∧ (∃ at_, s.cyc + 1 ≤ at_ ∧ at_ ≤ s.cyc + 2 ∧
          t.me.ms.hold = some (.tld q slot (templatesOf (s.me.bytes a.toNat (16 * n))) at_)) ∧
          ∀ i, i < n → (mget Slot.empty (t.me.im.seq q).table (slot + i)).loading = true) ∧
      (0 < n → slot + n ≤ 62 → a.toNat % 16 = 0 → s.me.timed = false → f.var ≠ 1 →
        ∀ bs s', s.tableRead a (16 * n) = .value bs s' →
        ∃ t at_, exec (.tld f) s = .next t ∧ s'.cyc + 1 ≤ at_ ∧ (t.core s'.cur.core).ms.hold = some (.tld q slot (templatesOf bs) at_))) ∧
    (∀ q slot tm r at_, c < 128 → (s.core c).ms.hold = some (.tld q slot (tm :: r) at_) → at_ ≤ s.cyc → (s.core c).tableTime s.cyc = true →
      ∃ t, exec (.tldSlotWrite c) s = .next t ∧
        mget Slot.empty ((t.core c).im.seq q).table slot = { t := tm, reason := slotReason q tm, loading := false } ∧
        (r = [] → (t.core c).ms.hold = none) ∧
        (r ≠ [] → ∃ at', at_ ≤ at' ∧ at' ≤ at_ + 1 ∧ (t.core c).ms.hold = some (.tld q (slot + 1) r at')))

/-- R31, R33, R34, R71: an `mdef` whose body can be read stands until the body is checked, which installs it whole, or rejects it with cause 0x05; a
call of a defined macro enters the body as it stands, and one of an undefined macro raises 0x05. The address of an `mdef` is A as it was when the group
issued (R11), and its alignment comes before the timing fault.
Choices of the model that it rests on: log entries 4, 25 and 67. -/
def Claims.MacrosAreDefinedAndCalled : Prop :=
  ∀ (s : State) (f : MgtF) (c : Nat) (m idle : BitVec 5) (p0 p1 p2 p3 : BitVec 16),
    let a := s.standOp (s.rd f.a)
    (s.Ready [f.a] → a.toNat % 8 ≠ 0 → s.Traps (.mdef f) 0x40 0) ∧
    (s.Ready [f.a] → a.toNat % 8 = 0 → s.me.timed = false → s.trappedInside (Seq.ofCode f.seq.toNat) f.idx.toNat = false →
      ∀ es s', State.readBody (decide (f.var = 1)) a 32 [] s = .body es s' →
      ∃ t at_, exec (.mdef f) s = .next t ∧ (f.var = 1 → s'.cyc ≤ at_ ∧ at_ ≤ s'.cyc + 34) ∧ (f.var ≠ 1 → s'.cyc + 1 ≤ at_) ∧
        (t.core s.cur.core).ms.hold = some (.mdef (Seq.ofCode f.seq.toNat) f.idx.toNat es at_)) ∧
    (∀ q mm es at_, c < 128 → (s.core c).ms.hold = some (.mdef q mm es at_) → at_ ≤ s.cyc → (s.core c).counting s.cyc = true →
      (∀ j, bodyRejects es = some j → ∃ t, exec (.mdefBodyCheck c) s = .next t ∧ (t.core c).ms.hold = none ∧
        (∃ r ∈ (t.core c).stops.recs, r.cause = 5)) ∧
      (bodyRejects es = none → (s.core c).im.perr = none → ∀ u i, (s.core c).fetch c .k = .run i u → u.core = c → u.sq = .k →
        ∃ t, exec (.mdefBodyCheck c) s = .next t ∧ (t.core c).ms.hold = none ∧
          (((s.core c).im.seq q).inside mm = false → mfind ((t.core c).im.seq q).macros mm = some (es.map entryOf)) ∧
          (((s.core c).im.seq q).inside mm = true → q ≠ .k → ((t.core c).im.seq q).redef = some (es.map entryOf) ∧
            mfind ((t.core c).im.seq q).macros mm = mfind ((s.core c).im.seq q).macros mm))) ∧
    (s.pendingHere = none → mfind s.mySeq.macros m.toNat = none → s.Traps (.macroCall m idle p0 p1 p2 p3) 5 0) ∧
    (s.pendingHere = none → ∀ body, mfind s.mySeq.macros m.toNat = some body →
      ∃ t, exec (.macroCall m idle p0 p1 p2 p3) s = .next t ∧
        t.mySeq.mpos = some { m := m.toNat, next := 0, p0 := p0, p1 := p1, p2 := p2, p3 := p3, body := body, idle := idle.toNat, ret := s.cur.nxt })

/-- R110 to R114: a `launch` whose descriptor and loop table can be read stands until it is accepted or refused (0x0B); an accepted one joins the
module's launches with the units of R111; when all of them have ended with their on-die work csem is released, and when all are
triggered tsem is. Its address is A as it was when the group issued (R11); its alignment comes before the timing fault, and it is accepted behind the
launch of another core of its context that has released before (R365).
Choices of the model that it rests on: log entries 4, 26 and 67. -/
def Claims.LaunchesAreAcceptedAndComplete : Prop :=
  ∀ (s : State) (f : MgtF) (c id : Nat),
    let a := s.standOp (s.rd f.a)
    (s.Ready [f.a] → a.toNat % 32 ≠ 0 → s.Traps (.launch f) 0x40 0) ∧
    (s.Ready [f.a] → a.toNat % 32 = 0 → s.me.timed = false →
      ∀ desc s1, s.tableRead a 32 = .value desc s1 → ∀ d, launchDesc desc = some d →
      ∀ h s2, s1.tableRead d.ltab 8 = .value h s2 → ∀ n, loopLevels h = some n →
      ∀ es s3, s2.tableRead (d.ltab + 8) (8 * n) = .value es s3 →
      ∃ t at_, exec (.launch f) s = .next t ∧ s3.cyc + 1 ≤ at_ ∧
        (t.core s3.cur.core).ms.hold = some (.launch desc (h ++ es) at_ false)) ∧
    (∀ desc tab at_ rel, c < 128 → (s.core c).ms.hold = some (.launch desc tab at_ rel) → at_ ≤ s.cyc → (s.core c).counting s.cyc = true → s.ordered c = true →
      s.acceptsAhead c = false →
      (s.launchRead (s.core c).ctx desc tab = none →
        ∃ t, exec (.launchAcceptance c) s = .next t ∧ (t.core c).ms.hold = none ∧ ∃ r ∈ (t.core c).stops.recs, r.cause = 0xB) ∧
      (∀ d ls, s.launchRead (s.core c).ctx desc tab = some (d, ls) →
        ∀ s1, s1 = (if rel then s else s.release c (if countsOf 3 ls = [] then 3 else 4)) → (countsOf 3 ls = [] ∨ s1.domainBusy c = false) →
        (s1.core c).im.perr = none → ∀ i u, (s1.core c).fetch c .k = .run i u →
        ∃ t, exec (.launchAcceptance c) s = .next t ∧
          ∃ l, t.launches = s1.launches ++ [l] ∧ l.ctx = (s.core c).ctx ∧ l.core = c ∧ l.csem = d.csem ∧ l.tsem = d.tsem ∧ l.tren = d.tren ∧
            l.levels = ls ∧ l.units = s1.unitsOf (s.core c).ctx s1.rank ls)) ∧
    (∀ l, s.launches.find? (fun l => decide (l.id = id)) = some l → l.origin = none →
      (l.unitsDone = true → s.launchBusy id = false → (l.tren = true → l.trigDone = true) → s.launchWrites l = false →
        ∃ t, exec (.launchComplete id) s = .next t ∧
          t = ({ s with launches := s.launches.filter (fun x => !decide (x.id = id)),
                        arrays := s.arrays.map (fun p => (p.1, p.2.unhold l.ctx)) } : State).signalSem l.core l.ctx l.csem) ∧
      (l.tren = true → l.trigDone = false → l.triggered s.cyc = true → s.launchWrites l = false →
        exec (.launchTriggerRelease id) s = .next
          (({ s with launches := s.launches.map (fun x => if x.id = id then { x with trigDone := true } else x) } : State).signalSem l.core l.ctx l.tsem)))

/-! ## Boundaries, semaphores and fences -/

/-- R234, R236, R238, R240: an untimed `phase` or `fence` issues; its release empties the core's pending writes and its acquire takes a new
snapshot, in which every byte of this module reads as the core sees it at the home and its own pending writes stand above. With nothing pending and no
domain acquire K goes on at once; otherwise it stands until the boundary completes. It waits for K's earlier atomics that are not performed; in a timed
segment they raise the timing fault.
Choices of the model that it rests on: log entries 4 and 13. -/
def Claims.BoundariesReleaseAndAcquire : Prop :=
  ∀ (s : State) (f : MgtF) (rel acq : Bool) (i : Instr),
    ((i = .phase f ∧ rel = true ∧ acq = true) ∨ (i = .fenceRel f ∧ rel = true ∧ acq = false) ∨ (i = .fenceAcq f ∧ rel = false ∧ acq = true)) →
    let c := s.cur.core
    let sc := f.var.toNat % 8
    let s1 := if rel then s.release c sc else s
    let now := (rel = false ∨ s.nothingPending c sc = true) ∧ (acq = false ∨ sc ≠ 4)
    let fresh (u t : State) : Prop := ∀ pa,
      (isWindow pa = false → (∀ w ∈ (u.core c).ms.pend, w.pa ≠ pa) → mget 0 (t.core c).ms.snap pa = u.seenByte c pa) ∧
      (isWindow pa = true → (∀ w ∈ (u.core c).ms.pend, w.pa ≠ pa) → mfind (t.core c).ms.remote pa = none)
    s.Ready [] →
    (s.me.timed = true → s.Waits i 0xA 0) ∧
    (s.me.timed = false → s.ordered c = false → s.Waits i 0xA 0) ∧
    (s.me.timed = false → s.ordered c = true → now → s.Issues i (if acq then s1.acquire c sc else s1)) ∧
    (s.me.timed = false → s.ordered c = true → ¬now → ∃ t at_, s.Issues i t ∧ s1.cyc ≤ at_ ∧ t.mem = s1.mem ∧
      (t.core c).ms.hold = some (.boundary (if rel then some sc else none) (if acq then some sc else none) at_)) ∧
    (s.me.timed = false → s.ordered c = true → rel = true → ∃ t, exec i s = .next t ∧ (t.core c).ms.pend = []) ∧
    (fresh s (s.acquire c sc) ∧ ((s.acquire c sc).core c).ms.pend = (s.core c).ms.pend ∧ (s.acquire c sc).mem = s.mem ∧
      ∀ d, d ≠ c → (s.acquire c sc).core d = s.core d)

/-- R235, R236, R238, R239, R278: when the boundary K stands behind is complete its acquire is taken and K goes on; a release that waited for earlier
atomics takes effect once they are performed; and a semaphore increment applies when its release is complete.
Choices of the model that it rests on: log entries 4 and 13. -/
def Claims.BoundariesComplete : Prop :=
  ∀ (s : State) (c : Nat), c < 128 →
    (∀ r rs, (s.core c).ms.rels = r :: rs → (∀ g ∈ (s.core c).ms.gacc, g.id < r.1 → g.todo = none) →
      (∀ w ∈ (s.core c).ms.pend, w.ser < r.1 → s.extentBlocked w.pa 1 true = false) →
      ∃ t, exec (.boundaryComplete c) s = .next t ∧ (t.core c).ms.rels = rs ∧ ∀ w ∈ (t.core c).ms.pend, r.1 ≤ w.ser) ∧
    ((s.core c).ms.rels = [] →
    (∀ rel acq at_, (s.core c).ms.hold = some (.boundary rel acq at_) → at_ ≤ s.cyc → (rel ≠ some 4 ∨ s.domainBusy c = false) →
      (acq ≠ some 4 ∨ (s.core c).atomicOut = false) → (acq = none ∨ s.ordered c = true) →
      exec (.boundaryComplete c) s = .next ((match acq with
        | some sc => s.acquire c sc
        | none => s).letGo c)) ∧
    (∀ sc at_, (s.core c).ms.hold = some (.acqAt sc at_) → at_ ≤ s.cyc →
      exec (.boundaryComplete c) s = .next ((s.acquire c sc).modMs c (fun m => { m with hold := none }))) ∧
    (∀ a r, (s.core c).ms.hold = none → (s.core c).ms.semAdds = a :: r → a.at_ ≤ s.cyc → (a.wide = false ∨ s.domainBusy c = false) →
      ∃ t, exec (.boundaryComplete c) s = .next t ∧ (t.core c).ms.semAdds = r ∧
        mget 0 (t.core c).im.sems a.sem = Nat.min 65535 (mget 0 (s.core c).im.sems a.sem + a.n) ∧
        ((t.core c).im.semov = (if 65535 < mget 0 (s.core c).im.sems a.sem + a.n then (s.core c).im.semov ||| BitVec.ofNat 64 (2 ^ a.sem)
          else (s.core c).im.semov))))

/-- R278: `sacq` and `sacq.try` with enough on the semaphore take n of it and an acquire; with too little `sacq` waits and the try form writes false;
`srel` releases at once, or behind K's earlier atomics, and adds n later; a domain acquire, or one that would wait for atomics, raises the timing fault in
a timed segment.
Choices of the model that it rests on: log entries 13 and 62. -/
def Claims.SemaphoresAreTakenAndReleased : Prop :=
  ∀ (s : State) (f : MgtF),
    let c := s.cur.core
    let k := f.idx.toNat
    let n := f.n.toNat
    let sc := f.var.toNat % 8
    s.Ready [] →
    (s.me.timed = true → sc = 4 → s.Waits (.sacq f) 0xA 0) ∧
    ((s.me.timed = false ∨ sc ≠ 4) → mget 0 s.me.im.sems k < n → s.Waits (.sacq f) 5 k) ∧
    (mget 0 s.me.im.sems k < n → s.Issues (.sacqTry f) (s.wrPred 1 f.pa false)) ∧
    (s.me.timed = true → (sc = 4 ∨ s.ordered c = false) → n ≤ mget 0 s.me.im.sems k → s.Waits (.sacq f) 0xA 0 ∧ s.Waits (.sacqTry f) 0xA 0) ∧
    (s.me.timed = false ∨ (sc ≠ 4 ∧ s.ordered c = true) → n ≤ mget 0 s.me.im.sems k →
      ∃ t, s.Issues (.sacq f) t ∧ s.Issues (.sacqTry f) (t.wrPred 1 f.pa true) ∧
        mget 0 t.me.im.sems k = mget 0 s.me.im.sems k - n ∧ (∀ j, j ≠ k → mget 0 t.me.im.sems j = mget 0 s.me.im.sems j) ∧
        (sc ≠ 4 → s.ordered c = true → t.me.ms.hold = some (.acqAt sc (s.cyc + 1))) ∧
        ((sc = 4 ∨ s.ordered c = false) → ∃ at_, s.cyc ≤ at_ ∧ t.me.ms.hold = some (.boundary none (some sc) at_))) ∧
    (∃ t at_, s.Issues (.srel f) t ∧ (s.releaseNext c sc).cyc + 1 ≤ at_ ∧
      (t.core c).ms.semAdds = ((s.releaseNext c sc).core c).ms.semAdds ++
        [{ sem := k, n := n, at_ := at_, wide := sc == 4, ser := s.serial }] ∧
      (s.ordered c = true → (t.core c).ms.pend = []) ∧
      (s.ordered c = false → (t.core c).ms.pend = (s.core c).ms.pend ∧ (t.core c).ms.rels = (s.core c).ms.rels ++ [(s.serial, sc)]))

/-- R278: `sacq.m` reads its word at the home and goes on when it is at least B; below it, it waits; `srel.m` is performed as an atomic; a predicate
destination raises 0x0B, a misaligned address 0x40, and a timed segment the timing fault.
Choices of the model that it rests on: log entries 13 and 62. -/
def Claims.MemorySemaphores : Prop :=
  ∀ (s : State) (f : MgtF),
    let va := s.rd f.a
    let sc := f.var.toNat % 8
    s.Ready [f.a, f.b] →
    (f.pa ≠ 0 → s.Traps (.sacqM f) 0xB 0 ∧ s.Traps (.srelM f) 0xB 0) ∧
    (f.pa = 0 → va.toNat % 8 ≠ 0 → s.Traps (.sacqM f) 0x40 0 ∧ s.Traps (.srelM f) 0x40 0) ∧
    (f.pa = 0 → va.toNat % 8 = 0 → s.me.timed = true → s.Waits (.sacqM f) 0xA 0) ∧
    (f.pa = 0 → va.toNat % 8 = 0 → s.me.timed = false → ∀ s1 p, s.Reaches 2 va 8 s1 [p] → s1.paKind p.pa = .home → s1.extentBlocked p.pa 8 false = false →
        s1.homeBad s.cur.core 0 p.pa 8 = false → s1.ordered s.cur.core = true →
      ((s.rd f.b).toNat ≤ s1.homeNat p.pa 8 → sc ≠ 4 → s.Issues (.sacqM f) (s1.acquire s.cur.core sc)) ∧
      ((s.rd f.b).toNat ≤ s1.homeNat p.pa 8 → sc = 4 → ∃ t at_, s.Issues (.sacqM f) t ∧
        (t.core s.cur.core).ms.hold = some (.boundary none (some 4) at_)) ∧
      (s1.homeNat p.pa 8 < (s.rd f.b).toNat → ∃ t, exec (.sacqM f) s = .next t ∧ t.mem = s.mem ∧
        (t.mySeq.waiting.map (fun w => w.kind)) = some 5) ∧
      (s.me.ms.loadsOut < 16 → sc ≠ 4 → ∃ t, s.Issues (.srelM f) t ∧ (t.core s.cur.core).ms.pend = [] ∧
        ∃ id, (t.core s.cur.core).ms.hold = some (.response id none) ∧ ∃ g ∈ (t.core s.cur.core).ms.gacc,
          g.id = id ∧ g.kind = 2 ∧ g.pa = p.pa ∧ g.dst = none))

/-- R259, R347: `tlbinv` and `tlbinv.all` drop the context's translations (of the page of A, or all) in every core and stream and stand among
at most eight that have not completed; one completes, within 4,096 cycles when they are performed, once no access that was translated before it is outstanding; `tlbsync` and `efence` go on when nothing is left to wait for.
Choices of the model that it rests on: log entries 15 and 17. -/
def Obligations.InvalidationAndErrorFences : Prop :=
  ∀ (s : State) (f : MgtF) (c : Nat),
    let covered (va : Option Word) (e : TlbEnt) : Prop := e.ctx = s.me.ctx ∧ (∀ v, va = some v → e.covers s.me.ctx v = true)
    (∀ (i : Instr) (va : Option Word), ((i = .tlbinv f ∧ va = some (s.rd f.a) ∧ s.Ready [f.a]) ∨ (i = .tlbinvAll f ∧ va = none ∧ s.Ready [])) →
      (8 ≤ s.me.ms.tlbi.length → s.Waits i 0xA 0) ∧
      (s.me.ms.tlbi.length < 8 → ∃ t at_, s.Issues i t ∧ s.cyc + 1 ≤ at_ ∧ at_ ≤ s.cyc + 4096 ∧
        t.me.ms.tlbi = s.me.ms.tlbi ++ [{ at_ := at_, olds := (s.invalidate s.me.ctx va).translated s.me.ctx, va := va, ctx := s.me.ctx }] ∧
        (∀ p ∈ t.cores, ∀ e ∈ p.2.ms.tlb, ¬covered va e) ∧ (∀ p ∈ t.stlb, ∀ e ∈ p.2, ¬covered va e) ∧
        (∀ c' e, e ∈ (s.core c').ms.tlb → ¬covered va e → e ∈ (t.core c').ms.tlb))) ∧
    (∀ x, c < 128 → (s.core c).ms.tlbi.find? (fun t => decide (t.at_ ≤ s.cyc) && !s.olderAccess t.ctx t.olds) = some x →
      exec (.tlbinvComplete c) s = .next (s.modMs c (fun m => { m with tlbi := m.tlbi.erase x }))) ∧
    (s.Ready [] →
      (s.me.timed = false → s.me.ms.tlbi = [] → s.Issues (.tlbsync f) s) ∧
      ((s.me.timed = true ∨ s.me.ms.tlbi ≠ []) → s.Waits (.tlbsync f) 0xA 0) ∧
      (s.me.timed = false → (∀ g ∈ s.me.ms.gacc, g.kind = 1) → s.me.ms.rels = [] → s.domainBusy s.cur.core = false → s.Issues (.efence f) s) ∧
      ((s.me.timed = true ∨ (∃ g ∈ s.me.ms.gacc, g.kind ≠ 1) ∨ s.me.ms.rels ≠ [] ∨ s.domainBusy s.cur.core = true) → s.Waits (.efence f) 0xA 0))

/-- R114, R244: `ltrig` in a unit of a launch with a trigger, not yet triggered, makes a module-scope release and the unit counts as triggered
from its completion on; outside a launch, without a trigger or a second time it does nothing.
Choices of the model that it rests on: log entry 4. -/
def Claims.LtrigTriggersItsUnit : Prop :=
  ∀ (s : State) (f : MgtF),
    s.Ready [] →
    ((s.me.im.seg = none ∨ s.launchOf s.cur.core = none) → s.Issues (.ltrig f) s) ∧
    (∀ g l u, s.me.im.seg = some g → s.launchOf s.cur.core = some l → l.units[g.unit]? = some u →
      ((l.tren = false ∨ u.triggered.isSome = true) → s.Issues (.ltrig f) s) ∧
      (l.tren = true → u.triggered = none → ∃ t at_, s.Issues (.ltrig f) t ∧ (s.releaseNext s.cur.core 3).cyc ≤ at_ ∧
        (s.ordered s.cur.core = true → (t.core s.cur.core).ms.pend = []) ∧
        (s.ordered s.cur.core = false → (t.core s.cur.core).ms.rels = (s.core s.cur.core).ms.rels ++ [(s.serial, 3)]) ∧
        t.launches = (((s.releaseNext s.cur.core 3).modUnit l.id g.unit (fun u => { u with triggered := some at_ })).launches)))

/-! ## Loads, stores and atomics -/

/-- R229, R230, R231: a load or store of scratchpad whose parts pass the checks of R215: the value, extended as the form says, is due after two
cycles, or three when the access splits; a store posts its bytes to its address for the end of the cycle. A misaligned form without the split suffix
raises 0x40, and a part that fails a check the fault of that check; a store makes its claim after these checks, so that one that fails them traps where its
address is claimed.
Choices of the model that it rests on: log entry 20. -/
def Obligations.LocalLoadsAndStores : Prop :=
  ∀ (s : State) (f : MemF),
    let a := (s.rd f.base + f.disp.signExtend 64).toNat
    let nb := 2 ^ f.size.toNat
    let split := 256 < a % 256 + nb
    let legal (rd : Bool) : Prop := ∀ p ∈ splitAt 256 a nb, s.me.checkLocal s.me.ctx s.tstep p.1 p.2 rd = none
    let raw := leNat (s.me.bytes a nb)
    (s.Ready [f.base] →
      (f.var.getLsbD 0 = false → a % nb ≠ 0 → s.Traps (.ldLocal f) 0x40 0) ∧
      ((f.var.getLsbD 0 = true ∨ a % nb = 0) → legal true → s.Issues (.ldLocal f) (s.wr (if split then 3 else 2) f.d
        (if f.sx = 1 then (BitVec.ofNat (8 * nb) raw).signExtend 64 else BitVec.ofNat 64 raw))) ∧
      ((f.var.getLsbD 0 = true ∨ a % nb = 0) → ¬legal true → ∃ p ∈ splitAt 256 a nb, ∃ cause x, s.me.checkLocal s.me.ctx s.tstep p.1 p.2 true = some (cause, x) ∧
        s.Traps (.ldLocal f) cause 0)) ∧
    (∀ i, (i = .stLocal f ∨ i = .stLocalS f) → s.Ready [f.base, f.val] →
      (f.var.getLsbD 0 = false → a % nb ≠ 0 → s.Traps i 0x40 0) ∧
      ((f.var.getLsbD 0 = true ∨ a % nb = 0) → legal false → s.claimed s.cur.core a nb = true → s.Waits i 6 0) ∧
      ((f.var.getLsbD 0 = true ∨ a % nb = 0) → legal false → s.claimed s.cur.core a nb = false →
        s.Issues i (s.posts s.cur.core (.bytes a (leBytes nb (s.rd f.val).toNat) false :: (granules a nb).map (fun g => .zbit g false)))) ∧
      ((f.var.getLsbD 0 = true ∨ a % nb = 0) → ¬legal false → ∃ p ∈ splitAt 256 a nb, ∃ cause x, s.me.checkLocal s.me.ctx s.tstep p.1 p.2 false = some (cause, x) ∧
        s.Traps i cause 0))

/-- R230, R231, R234, R236, R345: a global load or store that translates and finds room issues: the load with what the snapshot holds at the bytes of its
parts, or, where a part is refused, with that cause, and 0x83 where the home's bytes hold an uncorrectable error; the store with its bytes pending at the addresses of its parts and seen by the core's own loads, memory
itself unchanged.
Choices of the model that it rests on: log entries 4, 13 and 14. -/
def Claims.GlobalLoadsAndStores : Prop :=
  ∀ (s : State) (f : MemF) (s1 : State) (ps : List KPiece),
    let va := s.rd f.base + f.disp.signExtend 64
    let nb := 2 ^ f.size.toNat
    let c := s.cur.core
    let places := ps.flatMap (fun p => upTo p.pa p.n)
    (s.Ready [f.base] → f.var.getLsbD 0 = false → va.toNat % nb ≠ 0 → s.Traps (.ldGlobal f) 0x40 0) ∧
    (s.Ready [f.base, f.val] → f.var.getLsbD 0 = false → va.toNat % nb ≠ 0 → s.Traps (.stGlobal f) 0x40 0) ∧
    ((f.var.getLsbD 0 = true ∨ va.toNat % nb = 0) →
      (s.Ready [f.base] → s.Reaches 0 va nb s1 ps → s.me.ms.loadsOut < 16 → s.me.ms.awaitsAtomic ps = false →
        ∃ t g, s.Issues (.ldGlobal f) t ∧ t.mem = s.mem ∧ (t.core c).ms.gacc = (s.core c).ms.gacc ++ [g] ∧
          g.kind = 0 ∧ g.nb = nb ∧ g.sx = f.sx ∧ g.dst = regPlace s.me.im .k f.d.toNat ∧ s.cyc + 1 ≤ g.at_ ∧
          ((∀ p ∈ ps, s1.paKind p.pa = .home ∧ s1.homeBad c 0 p.pa p.n = false ∧ s1.extentBlocked p.pa p.n false = false) →
            g.raw = leNat (places.map (s.core c).ms.loadByte) ∧ g.want = [] ∧ g.err = none ∧ g.late = []) ∧
          ((∀ p ∈ ps, s1.paKind p.pa = .home ∧ s1.me.stashHit p = false) → (∃ p ∈ ps, s1.homeBad c 0 p.pa p.n = true) → g.err = some 0x83) ∧
          ((∀ p ∈ ps, s1.homeBad c 0 p.pa p.n = false) → (∃ p ∈ ps, ∃ x, s1.paKind p.pa = .refused x) →
            ∃ p ∈ ps, ∃ x, s1.paKind p.pa = .refused x ∧ g.err = some x)) ∧
      (s.Ready [f.base, f.val] → s.Reaches 1 va nb s1 ps → s.me.ms.storesOut < 32 →
        ∃ t, s.Issues (.stGlobal f) t ∧ t.mem = s.mem ∧ t.blog = s.blog ∧ (∀ c', c' ≠ c → t.core c' = s.core c') ∧
          (t.core c).ms.pend.map (fun w => (w.pa, w.b)) =
            (s.core c).ms.pend.map (fun w => (w.pa, w.b)) ++ places.zip (leBytes nb (s.rd f.val).toNat) ∧
          ∀ x, x ∉ places → (t.core c).ms.loadByte x = (s.core c).ms.loadByte x))

/-- What Table 11-3 makes of the old value of w bits. -/
def atomicValue (i : Instr) (w old v cv : Nat) : Option Nat :=
  let x := v % 2 ^ w
  let signed (n : Nat) : Int := if n < 2 ^ (w - 1) then n else (n : Int) - 2 ^ w
  match i with
  | .aadd _ => some ((old + x) % 2 ^ w)
  | .amin f => some (if f.var.getLsbD 2 then Nat.min old x else if signed old ≤ signed x then old else x)
  | .amax f => some (if f.var.getLsbD 2 then Nat.max old x else if signed x ≤ signed old then old else x)
  | .aswap _ => some x
  | .acas _ => some (if old = cv % 2 ^ w then x else old)
  | .aand _ => some (old &&& x)
  | .aor _ => some (old ||| x)
  | .ramo _ => some old
  | _ => none

/-- R241, R242, R243: an atomic at an aligned address of this module, with room and no earlier atomic outstanding, is performed when it issues: after the
core's pending writes to its bytes (and, with `.rel`, all of them) the old value is taken for d and the new one stands at the home; with `.rel` or
`.acq` K waits for the response. It follows K's earlier releases (R235, R239). A misaligned one raises 0x40.
Choices of the model that it rests on: log entries 4 and 13. -/
def Obligations.AtomicsArePerformedAtTheHome : Prop :=
  ∀ (s : State) (f : MemF) (i : Instr) (codes : List (BitVec 5)) (s1 : State) (p : KPiece),
    ((i = .aadd f ∨ i = .amin f ∨ i = .amax f ∨ i = .aswap f ∨ i = .aand f ∨ i = .aor f) ∧ codes = [f.base, f.val] ∨
      i = .acas f ∧ codes = [f.base, f.val, f.cv] ∨ i = .ramo f ∧ codes = [f.base]) →
    let va := s.rd f.base + f.disp.signExtend 64
    let nb := 2 ^ f.size.toNat
    let c := s.cur.core
    let rel := f.var.getLsbD 0
    let acq := f.var.getLsbD 1
    let sc := f.scope.toNat
    s.Ready codes → (nb = 4 ∨ nb = 8) →
    (va.toNat % nb ≠ 0 → s.Traps i 0x40 0) ∧
    (va.toNat % nb = 0 → s.Reaches 2 va nb s1 [p] → s1.paKind p.pa = .home → p.n = nb →
      ((rel = false ∧ acq = false) ∨ s.me.timed = false) → (rel = false ∨ (sc ≠ 4 ∧ s1.ordered c = true)) →
      s.me.ms.loadsOut < 16 → (∀ g ∈ s.me.ms.gacc, g.unperformed = false) →
      s1.extentBlocked p.pa nb true = false → s1.homeBad c 2 p.pa nb = false →
      let sr := if rel then s1.release c sc else s1
      sr.releaseAhead c sr.serial = false →
      let s2 := sr.publishHits c p.pa nb sr.serial
      let old := s2.homeNat p.pa nb
      ∃ t g, s.Issues i t ∧ g ∈ (t.core c).ms.gacc ∧ g.kind = 2 ∧ g.pa = p.pa ∧ g.nb = nb ∧ g.todo = none ∧ g.raw = old ∧ g.err = none ∧
        g.dst = regPlace s.me.im .k f.d.toNat ∧ atomicValue i (8 * nb) old (s.rd f.val).toNat (s.rd f.cv).toNat = some (t.homeNat p.pa nb) ∧
        (∀ x, x < p.pa ∨ p.pa + nb ≤ x → t.homeByte x = s2.homeByte x) ∧
        ((rel = true ∨ acq = true) → (t.core c).ms.hold = some (.response g.id (if acq then some sc else none))))

/-- R20, R230, R242, R321, R345, R346: what a load or atomic returns is due at its register on this cycle, in its place by issue, or is written at once
where a trap has stopped the core, sign- or zero-extended, and the access is outstanding no more; a load that was held back by a near-bank command reads
what the command has left, to return on a later cycle, and an atomic that was held back is performed; a refused
one writes zero and its cause becomes K's pending error; a store returns with no effect of its own.
Choices of the model that it rests on: log entries 4 and 14. -/
def Claims.AccessesReturn : Prop :=
  ∀ (s : State) (c : Nat) (g : GAcc), c < 128 →
    let holds (t : State) (v : Word) : Prop := ∀ w r, g.dst = some (w, r) →
      ((s.core c).counting s.cyc = true →
        ∃ x ∈ (t.core c).im.flight, x.due = s.sched c ∧ x.issue = g.issue ∧ x.fx = (if w then .win r v else .reg .k r v)) ∧
      ((s.core c).counting s.cyc = false →
        (w = true → r < 192 → (t.core c).im.wfile.toList.getD r 0 = v) ∧ (w = false → r < 16 → (t.core c).im.k.regs.toList.getD r 0 = v))
    let ext (n : Nat) : Word := if g.sx = 1 then (BitVec.ofNat (8 * g.nb) n).signExtend 64 else BitVec.ofNat 64 n
    let late := g.late.foldl (fun n x => n + (s.homeNat x.1 1) * 256 ^ x.2) g.raw
    ((s.core c).returning s.cyc [0, 1] false = some g → g.free = false → s.lateDone g = true →
      ∃ t, exec (.globalAccessResponse c) s = .next t ∧ t.mem = s.mem ∧ (t.core c).im = (s.core c).im ∧
        ∃ g' ∈ (t.core c).ms.gacc, g'.id = g.id ∧ g'.raw = late ∧ g'.late = [] ∧ g'.at_ = s.cyc + 1) ∧
    ((s.core c).returning s.cyc [0, 1] false = some g → g.free = true →
      ∃ t, exec (.globalAccessResponse c) s = .next t ∧ t.mem = s.mem ∧ (g.kind = 0 → holds t (ext g.raw)) ∧ (g.kind = 1 → (t.core c).im = (s.core c).im) ∧
        (t.core c).ms.gacc = (s.core c).ms.gacc.filter (fun x => !decide (x.id = g.id))) ∧
    ((s.core c).returning s.cyc [2] false = some g →
      ∃ t, exec (.atomicResponse c) s = .next t ∧ holds t (ext g.raw) ∧
        (t.core c).ms.gacc.map (·.id) = ((s.core c).ms.gacc.filter (fun x => !decide (x.id = g.id))).map (·.id)) ∧
    ((s.core c).returning s.cyc [2] false = none → (s.core c).ms.gacc.find? (fun x => x.unperformed) = some g → g.todo ≠ none →
      s.paKind g.pa = .home → s.extentBlocked g.pa g.nb true = false → s.releaseAhead c g.id = false →
      exec (.atomicResponse c) s = .next (s.drainAtomics c 17)) ∧
    (∀ cause, (s.core c).returning s.cyc [0, 2] true = some g → g.err = some cause → (s.core c).bound = true → (s.core c).ctx = g.ctx →
      ∃ t, exec (.errorResponse c) s = .next t ∧ holds t 0 ∧ (∃ e, (t.core c).im.perr = some e ∧
        ((s.core c).im.perr = none → e.cause = cause ∧ e.addr = g.va)) ∧
        (t.core c).ms.gacc.map (·.id) = ((s.core c).ms.gacc.filter (fun x => !decide (x.id = g.id))).map (·.id))

/-! ## Slabs, the renew unit, the stash window and the sweeper -/

/-- R218, R219, R220, R222: the slab instructions on a run that passes their checks: `salloc` claims its slabs on the next cycle and returns the
descriptor, `salloc.z` also queues a zero fill; `sfree` frees them when no operation addresses them, else it waits; `renew` queues a command; `stash`
opens the window. A misaligned run raises 0x40, one beyond the scratchpad 0x41; an empty run has only its semaphore released, and an empty `stash` run is
not checked at all.
Choices of the model that it rests on: log entry 22. -/
def Claims.SlabInstructionsActOnTheirRun : Prop :=
  ∀ (s : State) (f : MovF) (base n : Nat),
    let c := s.cur.core
    let own (b : Slab) : Prop := (b.kind = .live ∨ b.kind = .lost) ∧ b.owner = s.me.ctx
    let mine : Prop := ∀ i, base / 2048 ≤ i → i < base / 2048 + n → own (s.me.slab i)
    let early : Prop := s.me.timed = true ∧ f.start.toNat < s.t + 2
    let fits : Prop := base % 2048 = 0 ∧ (n = 0 ∨ base + n * 2048 ≤ 0x600000)
    let desc : Word := BitVec.ofNat 64 (base + n * 2 ^ 23)
    (base = f.la.toNat → n = f.n.toNat → s.Ready [] →
      (base % 2048 ≠ 0 → s.Traps (.salloc f) 0x40 0 ∧ s.Traps (.sallocZ f) 0x40 0 ∧ (n ≠ 0 → s.Traps (.stash f) 0x40 0)) ∧
      (n = 0 → s.Issues (.stash f) s) ∧
      (base % 2048 = 0 → n ≠ 0 → 0x600000 < base + n * 2048 → s.Traps (.salloc f) 0x41 0 ∧ s.Traps (.sallocZ f) 0x41 0 ∧ s.Traps (.stash f) 0x41 0) ∧
      (fits → n = 0 → s.Issues (.salloc f) s ∧ s.Issues (.sallocZ f) (s.result 2 0 (.sem f.sem.toNat 1))) ∧
      (fits → n ≠ 0 → (∀ i, base / 2048 ≤ i → i < base / 2048 + n → (s.me.slab i).kind = .free ∨ own (s.me.slab i)) →
        s.Issues (.salloc f) ((s.result 1 0 (.slabs 0 (base / 2048) n)).wr 1 f.a desc) ∧
        (early → s.Traps (.sallocZ f) 0x25 0) ∧
        (¬early → ∃ t e, s.Issues (.sallocZ f) t ∧ t.me.units.renew = s.me.units.renew ++ [e] ∧ e.fill = true ∧ e.la = base / 2048 ∧ e.n = n ∧
          e.sem = f.sem.toNat ∧ e.start = f.start.toNat ∧ e.begun = none ∧
          t.me.im.flight = ((s.result 1 0 (.slabs 0 (base / 2048) n)).wr 1 f.a desc).me.im.flight)) ∧
      (fits → n ≠ 0 → (∃ i, base / 2048 ≤ i ∧ i < base / 2048 + n ∧ ¬((s.me.slab i).kind = .free ∨ own (s.me.slab i))) →
        s.Traps (.salloc f) 0x44 0 ∧ s.Traps (.sallocZ f) 0x44 0) ∧
      (fits → n ≠ 0 → (∀ i, base / 2048 ≤ i → i < base / 2048 + n → (s.me.slab i).kind = .live ∧ (s.me.slab i).owner = s.me.ctx) → s.me.stash = none →
        (∀ x ∈ s.me.im.flight, ∀ b m, x.fx ≠ .slabs 2 b m) → s.Issues (.stash f) (s.result 1 0 (.slabs 2 (base / 2048) n)))) ∧
    (∀ i, (i = .sfree f ∧ s.Ready [] ∧ f.var ≠ 2 ∨ i = .sfreeDesc f ∧ s.Ready [f.b] ∧ f.var = 2) → s.slabRun f = some (base, n) → fits →
      (n = 0 → s.Issues i s) ∧
      (n ≠ 0 → ¬mine → s.Traps i 0x41 0) ∧
      (n ≠ 0 → mine → s.addressed c base n = true → s.Waits i 6 0) ∧
      (n ≠ 0 → mine → s.addressed c base n = false → s.Issues i (s.result 1 0 (.slabs 1 (base / 2048) n)))) ∧
    (s.Ready (if f.var = 2 then [f.b] else []) → s.slabRun f = some (base, n) → fits →
      (n = 0 → s.Issues (.renew f) (s.result 2 0 (.sem f.sem.toNat 1))) ∧
      (n ≠ 0 → ¬mine → s.Traps (.renew f) 0x41 0) ∧
      (n ≠ 0 → mine → early → s.Traps (.renew f) 0x25 0) ∧
      (n ≠ 0 → mine → ¬early → ∃ t e, s.Issues (.renew f) t ∧ t.me.units.renew = s.me.units.renew ++ [e] ∧ e.fill = false ∧ e.la = base / 2048 ∧
        e.n = n ∧ e.sem = f.sem.toNat ∧ e.start = f.start.toNat ∧ e.begun = none))

/-- R214, R220, R221: the renew unit begins its first command when its start has come and the slabs pass, rewrites sixteen slabs in sixteen cycles, the
last of which stamps them, and completes a command whose cycles are over, releasing its semaphore. -/
def Claims.RenewUnitRewritesAndCompletes : Prop :=
  ∀ (s : State) (c : Nat) (e : EngCmd) (r : List EngCmd), c < 128 → (s.core c).units.renew = e :: r →
    ((s.core c).lateStart (e :: r) s.cyc = none → e.begun = none → (s.core c).begins e s.cyc = true →
      (e.fill = true ∨ (s.core c).renewFault e s.tstep = none) →
      ∃ t e', exec (.renewUnitCommand c) s = .next t ∧ (t.core c).units.renew = e' :: r ∧ e'.begun = some s.cyc ∧ e'.j = e.j + 1 ∧ e'.nextAt = s.cyc + 1 ∧
        (t.core c).posted = (s.core c).posted ++ e.renewPosts e.j s.tstep) ∧
    ((s.core c).lateStart (e :: r) s.cyc = none → e.begun = none → (s.core c).begins e s.cyc = true → e.fill = false →
      ∀ cause k, (s.core c).renewFault e s.tstep = some (cause, k) →
      ∃ t, exec (.renewUnitCommand c) s = .next t ∧ (t.core c).units.renew = []) ∧
    ((s.core c).lateStart (e :: r) s.cyc = none → e.begun.isSome = true → e.nextAt ≤ s.cyc → e.j < 16 * ((e.n + 15) / 16) →
      ∃ t e', exec (.renewUnitCommand c) s = .next t ∧ (t.core c).units.renew = e' :: r ∧ e'.j = e.j + 1 ∧ e'.nextAt = s.cyc + 1 ∧
        (t.core c).posted = (s.core c).posted ++ e.renewPosts e.j s.tstep ∧
        (e.j % 16 = 15 → ∀ k, k ∈ e.renewRow e.j → .stamp k s.tstep ∈ (t.core c).posted)) ∧
    (e.begun.isSome = true → e.nextAt ≤ s.cyc → 16 * ((e.n + 15) / 16) ≤ e.j →
      ∃ t, exec (.renewUnitComplete c) s = .next t ∧ (t.core c).units.renew = r ∧
        ((s.core c).bound = true → (s.core c).ctx = e.ctx → (s.core c).leaving = false →
          mget 0 (t.core c).im.sems e.sem = Nat.min 65535 (mget 0 (s.core c).im.sems e.sem + 1)))

/-- R222, R223: `stash.close` without a window releases its semaphore, with one begins the close, whose completion returns the slabs live and
unborn, removes the window and releases the semaphore; a missed block is filled into an entry, dirty where it was stored to since, and a clean entry that reaches the retention limit
becomes empty.
Choices of the model that it rests on: log entry 23. -/
def Claims.StashWindowFillsExpiresAndCloses : Prop :=
  ∀ (s : State) (f : MovF) (c : Nat) (st : Stash),
    (s.Ready [] →
      (s.me.timed = true → s.Waits (.stashClose f) 0xA 0) ∧
      (s.me.timed = false → s.me.stash = none → s.Issues (.stashClose f) (s.result 2 0 (.sem f.sem.toNat 1))) ∧
      (s.me.timed = false → s.me.stash = some st → st.ctx = s.me.ctx → st.closing = none → ∃ t at_, s.Issues (.stashClose f) t ∧ s.cyc + 1 ≤ at_ ∧
        t.me.stash = some { st with closing := some (f.sem.toNat, at_) })) ∧
    (c < 128 → (s.core c).stash = some st → st.ctx = (s.core c).ctx →
      (∀ k at_, st.closing = some (k, at_) → at_ ≤ s.cyc → ∃ t, exec (.stashCloseComplete c) s = .next t ∧ (t.core c).stash = none ∧
        (∀ i, st.base ≤ i → i < st.base + st.n → ((t.core c).slab i).kind = .live ∧ ((t.core c).slab i).born = false) ∧
        (∀ i, (i < st.base ∨ st.base + st.n ≤ i) → (t.core c).slab i = (s.core c).slab i)) ∧
      (∀ va r, st.missing = va :: r → ∃ t st', exec (.stashMissFill c) s = .next t ∧ (t.core c).stash = some st' ∧ st'.missing = r ∧
        ∃ i, mfind st'.ents i = some { va := va, ts := s.cyc / 256, order := st.order, dirty := (s.core c).ms.dirtyBytes st.ctx va }) ∧
      (∀ i e, i < 8192 → mfind st.ents i = some e → e.dirty = 0 → e.ts + 1875 ≤ s.cyc / 256 →
        ∃ t, exec (.stashEntryExpire c (8192 * st.ctx + i)) s = .next t ∧ (t.core c).stash = some { st with ents := mdel st.ents i }))

/-- R225: the sweeper: a ring slab and a live slab of a context whose group the stall wire freezes, whatever context the core runs, are rewritten with a new
stamp near their end of life, a dirty stash entry near its expiry is written back, and a slab of a context that does not run here past the limit is marked lost. -/
def Claims.SweeperRenewsAndMarksLost : Prop :=
  ∀ (s : State) (c n : Nat), c < 128 →
    let co := s.core c
    let b := co.slab n
    let age := s.cyc / 256 - b.stamp
    let near := b.born = true ∧ 1875 ≤ age + co.swthr ∧ age ≤ 1875 ∧ b.stamp ≠ s.cyc / 256
    let rewrites (i : Instr) : Prop := ∃ t, exec i s = .next t ∧ (t.core c).slab n = { b with stamp := s.cyc / 256 } ∧
      (∀ m, m ≠ n → (t.core c).slab m = co.slab m) ∧ (t.core c).spad = co.spad
    (b.kind = .ring → near → rewrites (.sweepRingRenew c n)) ∧
    (b.kind = .live → (∃ w ∈ s.wires, w.ctx = b.owner ∧ c ∈ w.cores ∧ w.holds s.cyc = true) → near → rewrites (.sweepFrozenSlabRenew c n)) ∧
    (b.kind = .live → b.born = true → 1875 < age → (co.bound = false ∨ b.owner ≠ co.ctx) →
      ∃ t, exec (.sweepMarkLost c n) s = .next t ∧ (t.core c).slab n = { b with kind := .lost } ∧ ∀ m, m ≠ n → (t.core c).slab m = co.slab m) ∧
    (∀ st e, co.stash = some st → st.ctx = co.ctx → n < 8192 → mfind st.ents n = some e → e.dirty ≠ 0 → 1875 ≤ s.cyc / 256 - e.ts + co.swthr →
      ∃ t, exec (.sweepStashWriteback c (8192 * st.ctx + n)) s = .next t ∧ (t.core c).stash = some { st with ents := mset st.ents n { e with dirty := 0 } })

/-! ## Vector instructions -/

/-- A vector instruction of Table 7-8: its fields, its latency, its source codes in field order with the width a register splat takes, what one cluster
computes from its sources, and what the clusters' outcomes make of its predicate. -/
def vecRow (i : Instr) : Option (VecF × Nat × List (Nat × Nat) × (List Vec → VRes × List Bool) × Option (List Bool → Bool)) :=
  let w (f : VecF) : Nat := typeWidth f.type
  let l (f : VecF) (x y : Nat) : Nat := if f.type.toNat ≤ 4 then x else y
  let r1 (f : VecF) (lat w : Nat) (g : Vec → VRes) : Option (VecF × Nat × List (Nat × Nat) × (List Vec → VRes × List Bool) × Option (List Bool → Bool)) :=
    some (f, lat, [(f.a.toNat, w)], fun x => (g (x.getD 0 0), []), none)
  let r2 (f : VecF) (lat w : Nat) (g : Vec → Vec → VRes) : Option (VecF × Nat × List (Nat × Nat) × (List Vec → VRes × List Bool) × Option (List Bool → Bool)) :=
    some (f, lat, [(f.a.toNat, w), (f.b.toNat, w)], fun x => (g (x.getD 0 0) (x.getD 1 0), []), none)
  let r3 (f : VecF) (lat w : Nat) (g : Vec → Vec → Vec → VRes) : Option (VecF × Nat × List (Nat × Nat) × (List Vec → VRes × List Bool) × Option (List Bool → Bool)) :=
    some (f, lat, [(f.a.toNat, w), (f.b.toNat, w), (f.c.toNat, w)], fun x => (g (x.getD 0 0) (x.getD 1 0) (x.getD 2 0), []), none)
  match i with
  | .vadd f => r2 f (l f 4 1) (w f) (fun a b => vArith .add f a b 0)
  | .vsub f => r2 f (l f 4 1) (w f) (fun a b => vArith .sub f a b 0)
  | .vmul f => r2 f (l f 4 1) (w f) (fun a b => vArith .mul f a b 0)
  | .vfma f => r3 f (l f 4 1) (w f) (vArith .fma f)
  | .vfms f => r3 f (l f 4 1) (w f) (vArith .fms f)
  | .vmin f => r2 f (l f 2 1) (w f) (vPick false f)
  | .vmax f => r2 f (l f 2 1) (w f) (vPick true f)
  | .vabs f => r1 f 1 (w f) (vSign false f)
  | .vneg f => r1 f 1 (w f) (vSign true f)
  | .vcvt f => if w f < typeWidth f.type2 then r2 f 4 (typeWidth f.type2) (vConvert f) else r1 f 4 (typeWidth f.type2) (fun a => vConvert f a 0)
  | .vexp2 f => r1 f 6 (w f) (vFunc exp2Num f)
  | .vlog2 f => r1 f 6 (w f) (vFunc log2Num f)
  | .vrcp f => r1 f 6 (w f) (vFunc rcpNum f)
  | .vrsqrt f => r1 f 6 (w f) (vFunc rsqrtNum f)
  | .vdiv f => r2 f 14 (w f) (vDivide f)
  | .vsqrt f => r1 f 14 (w f) (vRoot f)
  | .vcmp f => some (f, 2, [(f.a.toNat, w f), (f.b.toNat, w f)], fun x => vCompare f (x.getD 0 0) (x.getD 1 0),
      some (fun bs => if f.var.getLsbD 0 then bs.all (fun b => b) else bs.any (fun b => b)))
  | .vsel f => r3 f 1 (w f) (vSelect f)
  | .vred f => r1 f 6 (w f) (vReduce f)
  | .vtopk f => r1 f 10 32 (vTop f)
  | .vbscmp f => some (f, 4, [(f.a.toNat, 8), (f.b.toNat, 8)], fun x => vBytes f (x.getD 0 0) (x.getD 1 0),
      some (fun bs => if f.var.getLsbD 0 then bs.any (fun b => b) else bs.all (fun b => b)))
  | .vcrc f => r2 f 4 32 (vCheck f)
  | .vmix f => r2 f 6 64 vMixer
  | .vmixH f => some (f, 6, [(f.a.toNat, 32), (f.b.toNat, 64)], fun x => (vMixerHigh (x.getD 0 0) (x.getD 1 0), []), none)
  | .vperm f => r2 f 2 (w f) (vPermute f)
  | .vperm2 f => r3 f 2 32 vPermute2
  | .vbcast f => r1 f 1 (w f) (vBroadcast f)
  | .vand f => r2 f 1 32 (fun a b => (a &&& b, 0))
  | .vor f => r2 f 1 32 (fun a b => (a ||| b, 0))
  | .vxor f => r2 f 1 32 (fun a b => (a ^^^ b, 0))
  | .vshl f => r2 f 1 (w f) (vShift 0 f)
  | .vshr f => r2 f 1 (w f) (vShift 1 f)
  | .vsra f => r2 f 1 (w f) (vShift 2 f)
  | .vmov f => r1 f 1 32 (fun a => (a, 0))
  | _ => none

/-- R140, R142 to R144, R146, R151, R152, R156 to R168, R355: a vector instruction whose codes its cluster selection allows, on a core that is not fenced
and with its ports neither short nor full, pops its ports, and each cluster's result of the function above is in flight with its flags, and the predicate of
all outcomes; nothing else of memory, scratchpads or other cores changes. Codes that the selection does not allow raise 0x0B, a fenced core 0x86, a
port that is short or full makes the group wait, and a source that holds an uncorrectable error raises 0x80.
Choices of the model that it rests on: log entries 20, 38 and 60. -/
def Claims.VectorInstructionsComputeTheirRow : Prop :=
  ∀ (s : State) (i : Instr) (f : VecF) (lat : Nat) (srcs : List (Nat × Nat)) (g : List Vec → VRes × List Bool) (p : Option (List Bool → Bool)),
    vecRow i = some (f, lat, srcs, g, p) → s.Ready [] →
    let sel := f.var.toNat / 4
    let ys := if sel = 0 then [false] else if sel = 1 then [true] else [false, true]
    let cs := srcs.map (fun x => x.1)
    let allowed := (∀ x ∈ cs, sourceOk sel x = true) ∧ destOk sel f.d.toNat = true
    let value (y : Bool) : VRes × List Bool :=
      g ((List.range srcs.length).map (fun j => s.me.im.vecSource y cs ys.length j (srcs.getD j (0, 32)).2))
    (32 + s.cur.core ∈ s.fenced → s.Traps i 0x86 0) ∧
    (32 + s.cur.core ∉ s.fenced → ¬allowed → s.Traps i 0xB 0) ∧
    (32 + s.cur.core ∉ s.fenced → allowed → ∀ q, s.me.im.vec.shortPort cs ys.length = some q → s.Waits i 4 q) ∧
    (32 + s.cur.core ∉ s.fenced → allowed → s.me.im.vec.shortPort cs ys.length = none → ∀ q, s.me.im.fullPort f.d.toNat ys.length = some q → s.Waits i 4 q) ∧
    (32 + s.cur.core ∉ s.fenced → allowed → s.me.im.vec.shortPort cs ys.length = none → s.me.im.fullPort f.d.toNat ys.length = none →
      s.me.im.vecFlawed ys cs ys.length = true → s.Traps i 0x80 0) ∧
    (32 + s.cur.core ∉ s.fenced → allowed → s.me.im.vec.shortPort cs ys.length = none → s.me.im.fullPort f.d.toNat ys.length = none →
      s.me.im.vecFlawed ys cs ys.length = false →
      ∃ t, s.Issues i t ∧ t.mem = s.mem ∧ (∀ c, c ≠ s.cur.core → t.core c = s.core c) ∧ t.me.spad = s.me.spad ∧ t.me.posted = s.me.posted ∧
        (∀ q, mget [] t.me.im.vec.ports q = (mget [] s.me.im.vec.ports q).drop (popCount cs q ys.length)) ∧
        (∀ y ∈ ys, ∃ x ∈ t.me.im.flight, x.due = s.t + lat ∧ x.issue = s.t ∧
          x.fx = .vec y (if f.d.toNat < 0x40 then some (s.me.im.vec.phys y (f.d.toNat % 32)) else none) (destPort f.d.toNat) true (value y).1.1 (value y).1.2) ∧
        (∀ h, p = some h → f.p ≠ 0 → ∃ x ∈ t.me.im.flight, x.due = s.t + lat ∧ x.fx = .pred s.cur.sq f.p.toNat (h (ys.flatMap (fun y => (value y).2)))) ∧
        (∀ x ∈ s.me.im.flight, x ∈ t.me.im.flight))

/-- Element i of width w of a vector (R137). -/
def velem (w : Nat) (v : Vec) (i : Nat) : Nat := v.toNat / 2 ^ (w * i) % 2 ^ w

/-- R156, R157, R161, R162, R167, R168: what the elementwise instructions of integer elements compute, element by element; the exact arithmetic wraps, or with
var[0] saturates; `vmin`, `vmax` and `vcmp` compare signed or unsigned elements, and the mask of `vcmp` is all ones where its condition holds. -/
def Claims.VectorIntegerElements : Prop :=
  ∀ (f : VecF) (a b c : Vec) (i w : Nat), (f.type = 5 ∧ w = 32) ∨ (f.type = 6 ∧ w = 8) → i < 2048 / w →
    let x := velem w a i
    let y := velem w b i
    let z := velem w c i
    let si (n : Nat) : Int := if n < 2 ^ (w - 1) then n else (n : Int) - 2 ^ w
    let out (e : Int) (r : Nat) : Prop :=
      (f.var.getLsbD 0 = false → (r : Int) = e % 2 ^ w) ∧
      (f.var.getLsbD 0 = true → si r = if e < -(2 ^ (w - 1)) then -(2 ^ (w - 1)) else if 2 ^ (w - 1) ≤ e then 2 ^ (w - 1) - 1 else e)
    out (si x + si y) (velem w (vArith .add f a b 0).1 i) ∧
    out (si x - si y) (velem w (vArith .sub f a b 0).1 i) ∧
    out (si x * si y) (velem w (vArith .mul f a b 0).1 i) ∧
    out (si x * si y + si z) (velem w (vArith .fma f a b c).1 i) ∧
    out (si x * si y - si z) (velem w (vArith .fms f a b c).1 i) ∧
    out (-(si x)) (velem w (vSign true f a).1 i) ∧
    out (if si x < 0 then -(si x) else si x) (velem w (vSign false f a).1 i) ∧
    (f.var.getLsbD 0 = true → velem w (vPick false f a b).1 i = Nat.min x y ∧ velem w (vPick true f a b).1 i = Nat.max x y) ∧
    (f.var.getLsbD 0 = false → velem w (vPick false f a b).1 i = (if si x ≤ si y then x else y) ∧
      velem w (vPick true f a b).1 i = (if si x ≤ si y then y else x)) ∧
    (let u (n : Nat) : Int := if f.imm.getLsbD 4 then n else si n
     let cc := f.imm.toNat % 16
     let r := (vCompare f a b).2.getD i false
     cc < 6 →
      (r = true ↔ (cc = 0 ∧ u x = u y) ∨ (cc = 1 ∧ u x ≠ u y) ∨ (cc = 2 ∧ u x < u y) ∨ (cc = 3 ∧ u x ≤ u y) ∨ (cc = 4 ∧ u y < u x) ∨ (cc = 5 ∧ u y ≤ u x)) ∧
      velem w (vCompare f a b).1.1 i = (if r then 2 ^ w - 1 else 0) ∧ (vCompare f a b).2.length = 2048 / w) ∧
    velem w (vSelect f a b c).1 i = (if z ≠ 0 then x else y) ∧
    velem w (vShift 0 f a b).1 i = (if y < w then x * 2 ^ y % 2 ^ w else 0) ∧
    velem w (vShift 1 f a b).1 i = (if y < w then x / 2 ^ y else 0) ∧
    si (velem w (vShift 2 f a b).1 i) = (if y < w then si x / (2 ^ y : Nat) else if si x < 0 then -1 else 0) ∧
    velem w (vPermute f a b).1 i = (if y < 2048 / w then velem w a y else 0)

/-- R157, R161: what the floating forms on .f32 that round nothing compute, element by element, of the bits of their operands: `vabs` and `vneg` clear and
invert the sign; `vmin` and `vmax` deliver the operand that compares lower or higher, with −0 below +0; a NaN gives the canonical NaN, or in the number forms
the other operand; and the conditions of `vcmp` compare −0 equal to +0. -/
def Claims.VectorFloatElements : Prop :=
  ∀ (f : VecF) (a b : Vec) (i : Nat), f.type = 0 → i < 64 →
    let x := velem 32 a i
    let y := velem 32 b i
    let nan (n : Nat) : Prop := 0x7F800000 < n % 2 ^ 31
    let key (n : Nat) : Int := if n < 2 ^ 31 then n else 2 ^ 31 - 1 - (n : Int)
    let val (n : Nat) : Int := if n < 2 ^ 31 then n else 2 ^ 31 - (n : Int)
    let cc := f.imm.toNat % 16
    let r := (vCompare f a b).2.getD i false
    velem 32 (vSign false f a).1 i = (if nan x then 0x7FC00000 else x % 2 ^ 31) ∧
    velem 32 (vSign true f a).1 i = (if nan x then 0x7FC00000 else (x + 2 ^ 31) % 2 ^ 32) ∧
    velem 32 (vPick false f a b).1 i =
      (if nan x ∧ (nan y ∨ f.var.getLsbD 0 = false) ∨ nan y ∧ f.var.getLsbD 0 = false then 0x7FC00000
       else if nan x then y else if nan y then x else if key x ≤ key y then x else y) ∧
    velem 32 (vPick true f a b).1 i =
      (if nan x ∧ (nan y ∨ f.var.getLsbD 0 = false) ∨ nan y ∧ f.var.getLsbD 0 = false then 0x7FC00000
       else if nan x then y else if nan y then x else if key x ≤ key y then y else x) ∧
    (vSign false f a).2 = 0 ∧ (vSign true f a).2 = 0 ∧ (vPick false f a b).2 = 0 ∧ (vPick true f a b).2 = 0 ∧
    ((nan x ∨ nan y) → cc < 8 → (r = true ↔ cc = 1 ∨ cc = 6)) ∧
    (¬nan x → ¬nan y → cc < 8 → (r = true ↔ (cc = 0 ∧ val x = val y) ∨ (cc = 1 ∧ val x ≠ val y) ∨ (cc = 2 ∧ val x < val y) ∨ (cc = 3 ∧ val x ≤ val y) ∨
      (cc = 4 ∧ val y < val x) ∨ (cc = 5 ∧ val y ≤ val x) ∨ cc = 7)) ∧
    velem 32 (vCompare f a b).1.1 i = (if r then 2 ^ 32 - 1 else 0)

/-- R148 to R150, R153, R168: `agset` sets a generator on the next cycle, and refuses a zero count with 0x0B; `vld` and `vst` with room, a binding and legal
steps move the generator on, put its steps in progress and take the vectors stored from the port; `vxm` writes the other cluster.
Choices of the model that it rests on: log entry 20. -/
def Obligations.GeneratorsPortsAndCrossMoves : Prop :=
  ∀ (s : State) (fa : AgnF) (fm : MovF) (fs : StoF) (fv : VecF),
    (s.Ready [fa.cr, fa.sr] →
      let n := fa.lv.toNat + 1
      let half (x : Word) (j : Nat) : Nat := x.toNat / 2 ^ (16 * j) % 2 ^ 16
      ((∃ j, j < n ∧ half (s.rd fa.cr) j = 0) → s.Traps (.agset fa) 0xB 0) ∧
      ((∀ j, j < n → half (s.rd fa.cr) j ≠ 0) → s.me.im.agBusy fa.ag.toNat = false → (∀ b, s.me.im.vec.bound fa.port.toNat = some b → s.me.im.agBusy b.1 = false) →
        s.Issues (.agset fa) (s.result 1 0 (.agset fa.ag.toNat
          { base := fa.base.toNat, levels := n, counts := (List.range n).map (half (s.rd fa.cr)),
            strides := (List.range n).map (fun j => (BitVec.ofNat 16 (half (s.rd fa.sr) j)).toInt), idx := List.replicate n 0,
            port := some fa.port.toNat })))) ∧
    (∀ (ub : Bool) (i : Instr), ((ub = false ∧ i = .vld fm) ∨ (ub = true ∧ i = .vldUb fm)) → s.Ready [] →
      let n := fm.n.toNat
      let v := s.me.im.vec
      let a := mget AgSt.init v.ags fm.ag.toNat
      (n = 0 → s.Issues i s) ∧
      (n ≠ 0 → (a.port = none ∨ ∃ p, a.port = some p ∧ 5 < p) → s.Traps i 0xB 0) ∧
      (∀ p, n ≠ 0 → a.port = some p → p ≤ 5 → 16 < (mget [] v.ports p).length + s.me.im.pending p + n → s.Waits i 4 p) ∧
      (∀ p, n ≠ 0 → a.port = some p → p ≤ 5 → (mget [] v.ports p).length + s.me.im.pending p + n ≤ 16 →
        (∀ j, j < n → ∀ la, (a.walk n).1[j]? = some la → s.me.stepFault s.tstep (if ub then 4 else 256) j la true = none) →
        ∃ t steps, s.Issues i t ∧ t.me.im.vec.vlds = v.vlds ++ steps ∧ steps.map (fun x => x.la) = (a.walk n).1 ∧
          (∀ x ∈ steps, x.port = p ∧ x.ub = ub ∧ Nat.max s.t v.vldNext ≤ x.at_ ∧ x.at_ < Nat.max s.t v.vldNext + n ∧ x.enter = x.at_ + (if ub then 6 else 5)) ∧
          mget AgSt.init t.me.im.vec.ags fm.ag.toNat = (a.walk n).2 ∧ t.me.im.vec.vldNext = Nat.max s.t v.vldNext + n)) ∧
    (s.Ready [] →
      let n := fs.n.toNat
      let p := fs.port.toNat
      let v := s.me.im.vec
      (n = 0 → s.Issues (.vst fs) s) ∧
      (n ≠ 0 → (mget [] v.ports p).length < n → s.Waits (.vst fs) 4 p) ∧
      (n ≠ 0 → n ≤ (mget [] v.ports p).length → v.bound p = none → s.Traps (.vst fs) 0xB 0) ∧
      (∀ g a, n ≠ 0 → n ≤ (mget [] v.ports p).length → v.bound p = some (g, a) →
        (∀ la ∈ (a.walk n).1, s.claimed s.cur.core la 256 = false) →
        (∀ la ∈ (a.walk n).1, s.me.stepFault s.tstep 256 0 la false = none) → (∀ i, i < n → VecFlaw.port p i ∉ v.bad) →
        ∃ t steps, s.Issues (.vst fs) t ∧ t.me.im.vec.vsts = v.vsts ++ steps ∧ steps.map (fun x => x.la) = (a.walk n).1 ∧
          steps.map (fun x => x.v) = (mget [] v.ports p).take n ∧ steps.map (fun x => x.at_) = (List.range n).map (fun j => s.t + 1 + j) ∧
          mget [] t.me.im.vec.ports p = (mget [] v.ports p).drop n ∧ mget AgSt.init t.me.im.vec.ags g = (a.walk n).2)) ∧
    (s.Ready [] → 32 + s.cur.core ∉ s.fenced →
      let y := fv.var.toNat / 4 == 1
      (vxmOk y fv.d.toNat fv.a.toNat = false → s.Traps (.vxm fv) 0xB 0) ∧
      (vxmOk y fv.d.toNat fv.a.toNat = true → s.me.im.vecFlawed [!y] [fv.a.toNat] 1 = false → ∃ t, s.Issues (.vxm fv) t ∧ ∃ x ∈ t.me.im.flight, x.due = s.t + 2 ∧
        x.fx = .vec y (if fv.d.toNat < 0x40 then some (s.me.im.vec.phys y (fv.d.toNat % 32)) else none) (destPort fv.d.toNat) true
          (s.me.im.vecSource (!y) [fv.a.toNat] 1 0 32) 0))

/-! ## Results falling due -/

/-- R19, R20, R68, R96, R98: when the schedule counter of a core runs, all that is due on its present cycle takes effect at once and leaves the results in flight;
of several results for one register the last of the list of results remains; a result joins that list where the order of R20 puts it (by due cycle, then by
issue, an `xset` after the others of its cycle), so that in an ordered list the greatest in that order remains, and the list stays ordered; and a group
that waited is armed to be tried.
Choices of the model that it rests on: log entry 17. -/
def Obligations.ResultsTakeEffectWhenDue : Prop :=
  ∀ (s : State) (c : Nat), c < 128 → (s.core c).counting s.cyc = true →
    let co := s.core c
    let now := co.im.flight.filter (fun x => decide (x.due ≤ co.im.sched))
    let before (x y : Flight) : Prop := x.due < y.due ∨ (x.due = y.due ∧ (x.issue < y.issue ∨ (x.issue = y.issue ∧ x.ord ≤ y.ord)))
    let latest (x : Flight) (fx : Word → Fx) : Prop := ∀ y ∈ now, (∃ v, y.fx = fx v) → y = x ∨ ¬before x y
    (co.im.flight.Pairwise before → ∀ x : Flight,
      ((s.pushFlight c x).core c).im.flight.Pairwise before ∧
      ∀ y, y ∈ ((s.pushFlight c x).core c).im.flight ↔ y = x ∨ y ∈ co.im.flight) ∧
    (co.somethingDue = true → co.im.flight.Pairwise before → ∃ t, exec (.resultDue c) s = .next t ∧
      (∀ x ∈ now, ∀ q r v, r < 16 → x.fx = .reg q r v → latest x (.reg q r) → ((t.core c).im.seq q).regs.toList.getD r 0 = v) ∧
      (∀ x ∈ now, ∀ r v, r < 192 → x.fx = .win r v → latest x (.win r) → (t.core c).im.wfile.toList.getD r 0 = v)) ∧
    (co.somethingDue = true → ∃ t, exec (.resultDue c) s = .next t ∧ t.mem = s.mem ∧ (∀ d, d ≠ c → t.core d = s.core d) ∧
      (∀ x ∈ (t.core c).im.flight, co.im.sched < x.due ∨ ∃ p v, x.fx = .port p v) ∧
      (∀ q r, r < 16 → ((t.core c).im.seq q).regs.toList.getD r 0 = ((now.filterMap (fun x => match x.fx with
        | .reg q' r' v => if q' = q ∧ r' = r then some v else none
        | _ => none)).getLast?.getD ((co.im.seq q).regs.toList.getD r 0))) ∧
      (∀ r, r < 192 → (t.core c).im.wfile.toList.getD r 0 = ((now.filterMap (fun x => match x.fx with
        | .win r' v => if r' = r then some v else none
        | _ => none)).getLast?.getD (co.im.wfile.toList.getD r 0))) ∧
      (t.core c).spad = co.spad) ∧
    (∀ q, (co.im.seq q).halted = none → (co.im.seq q).waiting.isSome = true → (co.im.seq q).tried ≠ some s.cyc →
      ∃ t, exec (.waitingGroupIssue c q) s = .next t ∧ ((t.core c).im.seq q).waiting = none ∧ ((t.core c).im.seq q).pc = (co.im.seq q).pc)

/-! ## Matrix arrays -/

/-- The counted commands of the array (Tables 8-5, 8-6): fields, whether the form is illegal, and the local regions with address, length and alignment. -/
def arrRow (i : Instr) : Option (MtxF × Bool × List (Nat × Nat × Nat)) :=
  let aBlk (f : MtxF) : Nat × Nat × Nat := (f.a.toNat, f.kg.toNat * blockSize f.fa.toNat, 512)
  match i with
  | .mma f => some (f, badMma f || decide (f.sp ≠ 0), [aBlk f, bRegion f 16])
  | .mmac f => some (f, badMma { f with isat := 0 } || decide (f.sp ≠ 0) || decide (f.place ≠ 0) || !matFloat f.fa.toNat || matMx f.fa.toNat ||
      matMx f.fb.toNat, [aBlk f, bRegion f 8])
  | .mmas f => some (f, badMma f || decide (f.place ≠ 0) || decide (f.sp = 0) || (decide (f.sp = 1) && decide (f.kg.toNat % 2 ≠ 0)) ||
      (decide (f.sp = 2) && (decide (f.kg.toNat % 4 ≠ 0) || matMx f.fa.toNat)),
      [(f.a.toNat, sparseLength f, if f.sp = 1 then 8 else 128), bRegion f 16])
  | .mmaAtBank f => some (f, badMma f || !(f.fa == 10 || f.fa == 11) || !(f.fb == 10 || f.fb == 11) ||
      !(f.prec == 0 || f.prec.toNat == matPlanes f.fa.toNat) || decide (f.sp ≠ 0), [aBlk f, (f.b.toNat, if f.kg = 0 then 0 else 32, 32)])
  | .amz f => some (f, false, [])
  | .ald f => some (f, false, [(f.a.toNat, 256 * rowSize (aldWidth f.var.toNat), 256)])
  | .aret f => some (f, false, [(f.a.toNat, 256 * rowSize (aretWidth f.var.toNat), 256)])
  | _ => none

/-- The command reads a register (γ, R188). -/
def arrFades (i : Instr) (f : MtxF) : Bool :=
  match i with
  | .amz _ | .ald _ | .aret _ => false
  | _ => f.zfh.getLsbD 1

/-- R173, R175, R177, R179, R187, R188, R199, R355: a counted command of a core that holds the array, with a legal form and regions, joins the array's
queue with γ as it stands and takes one of the lease's count; without the lease it raises 0x61, on a fenced array 0x86, with an illegal form 0x0B, with a
misaligned region 0x40 and with one beyond the scratchpad 0x41; the at-bank form waits in a timed segment. The lease is one of the context that the core
runs, and it is looked at before γ is read; an empty region has its alignment looked at.
Choices of the model that it rests on: log entries 33, 35, 38 and 67. -/
def Obligations.CountedCommandsJoinTheArray : Prop :=
  ∀ (s : State) (i : Instr) (f : MtxF) (bad : Bool) (regions : List (Nat × Nat × Nat)),
    arrRow i = some (f, bad, regions) →
    let q := s.cur.core / 4
    let a := s.arr q
    let holds := a.holder = some s.cur.core ∧ a.lctx = s.me.ctx ∧ (s.headerLease = true ∨ ∃ n, a.count = some n ∧ 1 ≤ n)
    let aligned := ∀ r ∈ regions, r.1 % r.2.2 = 0
    let inside := ∀ r ∈ regions, r.2.1 = 0 ∨ r.1 + r.2.1 ≤ 0x600000
    let early := (∃ g, i = .mmaAtBank g) ∧ s.me.timed = true
    (s.Ready [] → ¬holds → s.Traps i 0x61 0) ∧
    (s.Ready (if arrFades i f then [f.gam] else []) →
    (holds → q ∈ s.fenced → s.Traps i 0x86 0) ∧
    (holds → q ∉ s.fenced → bad = true → s.Traps i 0xB 0) ∧
    (holds → q ∉ s.fenced → bad = false → early → s.Waits i 0xA 0) ∧
    (holds → q ∉ s.fenced → bad = false → ¬early → ¬aligned → s.Traps i 0x40 0) ∧
    (holds → q ∉ s.fenced → bad = false → ¬early → aligned → ¬inside → s.Traps i 0x41 0) ∧
    (holds → q ∉ s.fenced → bad = false → ¬early → aligned → inside → ∃ t x, s.Issues i t ∧ (t.arr q).queue = a.queue ++ [x] ∧
      x.op = i ∧ x.gam = (if arrFades i f then (s.rd f.gam).setWidth 32 else 0) ∧ x.core = s.cur.core ∧ x.ctx = s.me.ctx ∧ x.issue = s.t ∧ x.b = none ∧
      (s.headerLease = true → (t.arr q).holder = a.holder ∧ (t.arr q).count = a.count) ∧
      (∀ n, s.headerLease = false → a.count = some n → 2 ≤ n → (t.arr q).holder = a.holder ∧ (t.arr q).count = some (n - 1)) ∧
      (s.headerLease = false → a.count = some 1 → (t.arr q).holder = none ∧ (t.arr q).freeFrom = s.cyc + 1) ∧
      t.mem = s.mem ∧ t.cores = s.cores))

/-- R173 to R175, R196: `lease` takes its count once granted to its context, does nothing under a header lease, and else ends a lease that its core holds,
asks and waits; `unlease` ends a counted lease;
a free array for which no scan is due grants the request of highest priority that is first in the round-robin order; `aret.w` goes on when no earlier retirement of its tile is
left.
Choices of the model that it rests on: log entry 35. -/
def Obligations.LeasesAreGrantedAndEnded : Prop :=
  ∀ (s : State) (f : MtxF) (fs : StoF) (q : Nat),
    let c := s.cur.core
    let a := s.arr (c / 4)
    (s.Ready [] →
      (s.headerLease = true → s.Issues (.lease f) s ∧ s.Issues (.unlease f) s) ∧
      (s.headerLease = false → s.me.timed = true → s.Waits (.lease f) 0xA 0 ∧ s.Issues (.unlease f) s) ∧
      (s.headerLease = false → s.me.timed = false →
        s.Issues (.unlease f) (s.endCounted c) ∧
        (a.holder = some c → a.count = some 0 → a.lctx = s.me.ctx → s.Issues (.lease f) (s.modArr (c / 4) (fun a => { a with count := some f.n.toNat }))) ∧
        (¬(a.holder = some c ∧ a.count = some 0 ∧ a.lctx = s.me.ctx) → (∀ r ∈ a.reqs, r.core ≠ c) → ∃ t, exec (.lease f) s = .next t ∧
          (t.arr (c / 4)).holder = (if a.holder = some c then none else a.holder) ∧ (t.arr (c / 4)).reqs = a.reqs ++ [{ core := c, prio := s.me.walk.prio, header := false }] ∧ t.mySeq.waiting.isSome = true)) ∧
      ((∀ x ∈ a.queue, x.core = c → x.kind = 6 → x.f.tile.toNat = fs.n.toNat → s.t ≤ x.issue) → s.Issues (.aretW fs) s) ∧
      ((∃ x ∈ a.queue, x.core = c ∧ x.kind = 6 ∧ x.f.tile.toNat = fs.n.toNat ∧ x.issue < s.t) → s.Waits (.aretW fs) 3 fs.n.toNat)) ∧
    (q < 32 → (s.arr q).holder = none → (s.arr q).freeFrom ≤ s.cyc → s.scanDue q = false → (s.arr q).reqs ≠ [] →
      ∃ t r, exec (.leaseGrant q) s = .next t ∧ r ∈ (s.arr q).reqs ∧ (∀ r' ∈ (s.arr q).reqs, r'.prio ≤ r.prio) ∧
        (∀ r' ∈ (s.arr q).reqs, r'.prio = r.prio → (r.core % 4 + 3 - (s.arr q).lastGrant) % 4 ≤ (r'.core % 4 + 3 - (s.arr q).lastGrant) % 4) ∧
        (t.arr q).holder = some r.core ∧ (t.arr q).lctx = (s.core r.core).ctx ∧ (t.arr q).count = (if r.header then none else some 0) ∧ (t.arr q).reqs = (s.arr q).reqs.erase r ∧
        (t.arr q).lastGrant = r.core % 4)

/-- R177, R178, R188, R194, R195, R197, R203: the head command of an array begins when its cycle has come and its checks pass; each group or pair of rows moves it on
by one and sets the cycle of the next; it ends at its end cycle, with its flags raised, its tile's record written and its place in the queue given up. A tile that another
core holds, a stale one and a malformed operand end it with a fault, which drops the core's commands; a group that reads a byte of scratchpad with an
uncorrectable error drops them too, and its context is to be removed with cause 0x82.
Choices of the model that it rests on: log entries 33 and 63. -/
def Claims.ArrayCommandsBeginRunAndEnd : Prop :=
  ∀ (s : State) (q : Nat) (x : ArrCmd) (r : List ArrCmd), q < 32 → (s.arr q).queue = x :: r →
    let n := x.f.tile.toNat
    let t := (s.arr q).tile n
    let ready := x.b = none ∧ s.headReady x = true ∧ (x.timed = true ∨ (s.needsSave q x = false ∧ s.needsRestore q x = false))
    let held := t.held = true ∧ t.holder ≠ x.core % 4
    let stale := x.reads = true ∧ (t.born = false ∨ 1875 < s.cyc / 256 - t.stamp)
    let dropped (u : State) : Prop := ∀ y ∈ (u.arr q).queue, y.core ≠ x.core
    (ready → (held ∨ stale ∨ (s.core x.core).malformedGroup x ≠ none) → ∃ u, exec (.arrayCommandBegin q) s = .next u ∧ dropped u) ∧
    (ready → ¬held → ¬stale → (s.core x.core).malformedGroup x = none → (s.core x.core).arrCheck x s.tstep = none → x.kind ≠ 3 →
      ∃ u y, exec (.arrayCommandBegin q) s = .next u ∧ (u.arr q).queue = y :: r ∧ y.op = x.op ∧ y.b = some (s.arrNow x) ∧ y.rAt = s.arrNow x + 8 ∧ y.g = 0 ∧
        (x.kind ≤ 3 → ((u.arr q).tile n).data = (startTile x.f x.gam t.data).1)) ∧
    (∀ b, x.b = some b → x.e = none → s.arrRuns x = true → x.rAt ≤ s.arrNow x → x.kind ≤ 2 → x.g < x.f.kg.toNat →
      (∀ p ∈ x.groupBytes, (s.core x.core).checkLocal x.ctx s.tstep p.1 p.2 true = none) →
      ∃ u y, exec (.arrayCommandBegin q) s = .next u ∧ (u.arr q).queue = y :: r ∧ y.g = x.g + 1 ∧
        ((s.core x.core).groupRows x = none → y.rAt = x.rAt + (if x.timed then mtxU x.f else 1) ∧ ((u.arr q).tile n).data = t.data) ∧
        (∀ rows, (s.core x.core).groupRows x = some rows → y.rAt = x.rAt + mtxU x.f ∧
          ((u.arr q).tile n).data = (groupTile (x.kind == 1) (matFloat x.f.fa.toNat) (x.f.isat == 1) t.data rows ((s.core x.core).groupCols x)).1)) ∧
    (∀ b, x.b = some b → x.e = none → s.arrRuns x = true → x.rAt ≤ s.arrNow x → x.kind ≤ 2 → x.g < x.f.kg.toNat →
      (∀ p ∈ x.groupBytes, (s.core x.core).checkSlabs x.ctx s.tstep p.1 p.2 true = none) → (∃ p ∈ x.groupBytes, firstBad (s.core x.core).bad p.1 p.2 ≠ none) →
      ∃ u m, exec (.arrayCommandBegin q) s = .next u ∧ dropped u ∧ mfind u.removals x.ctx = some m ∧ m.cause = 0x82) ∧
    (∀ b, x.b = some b → x.e = none → s.arrRuns x = true → x.rAt ≤ s.arrNow x → (x.kind = 5 ∨ x.kind = 6) →
      (x.kind = 5 → firstBad (s.core x.core).bad (x.f.a.toNat + 2 * x.g * rowSize (aldWidth x.f.var.toNat)) (2 * rowSize (aldWidth x.f.var.toNat)) = none) →
      ∃ u y, exec (.arrayCommandBegin q) s = .next u ∧ (u.arr q).queue = y :: r ∧ y.g = x.g + 1 ∧ y.rAt = x.rAt + 1 ∧
        (x.kind = 6 → ((u.arr q).tile n).data = t.data)) ∧
    (∀ e, x.e = some e → s.arrRuns x = true → e ≤ s.arrNow x → x.det = false →
      ∃ u, exec (.arrayCommandEnd q) s = .next u ∧ (u.arr q).queue = r ∧ (u.core x.core).im.vec.fsx = (s.core x.core).im.vec.fsx ||| x.flags ∧
        (x.whole = true → ((u.arr q).tile n).owner = x.ctx ∧ ((u.arr q).tile n).born = true ∧ ((u.arr q).tile n).stamp = s.cyc / 256 ∧
          ((u.arr q).tile n).dirty = true))

/-- R200, R256, R323, R349, R350, R371, R373: the other steps of an array: the last sums of an at-bank command arrive and end it; a tile is saved or restored for the head command,
which puts off its begin by 136 cycles, at whose end the restored tile has its stamp; a dirty tile near its expiry whose owner runs nowhere on the quad is saved, and one of a context whose group the stall wire freezes rewritten in 128 cycles, which stamp it; an uncorrectable
error of a tile replays the commands from its latest marker on, or, where they or the bytes that they read forbid it, has the context of the command that met
it removed with cause 0x82.
Choices of the model that it rests on: log entries 4, 33 and 63. -/
def Claims.ArrayTransfersAndReplay : Prop :=
  ∀ (s : State) (q n : Nat) (x : ArrCmd) (r : List ArrCmd), q < 32 → n < 16 →
    let t := (s.arr q).tile n
    ((s.arr q).queue = x :: r → x.f.tile.toNat = n →
      (x.kind = 3 → x.b.isSome = true → x.e = none → x.f.kg.toNat ≤ x.g → x.bankAt ≤ s.cyc → x.rAt ≤ s.arrNow x → s.arrRuns x = true →
        ∃ u y, exec (.atBankCommand q) s = .next u ∧ (u.arr q).queue = y :: r ∧ y.e = some (s.arrNow x) ∧
          (x.f.kg ≠ 0 → ((u.arr q).tile n).data = (bankTile t.data x.part x.scl).1)) ∧
      (x.timed = false → s.headReady x = true → s.needsSave q x = true → (s.ctxDesc t.owner).isSome = true →
        ∃ u y, exec (.tileSave q n) s = .next u ∧ (u.arr q).queue = y :: r ∧ y.notBefore = s.arrNow x + 136 ∧ ((u.arr q).tile n).dirty = false) ∧
      (x.timed = false → s.headReady x = true → s.needsSave q x = false → s.needsRestore q x = true →
        (x.xfer = false → ∃ u y, exec (.tileRestore q n) s = .next u ∧ (u.arr q).queue = y :: r ∧ y.notBefore = s.arrNow x + 136 ∧ y.xfer = true ∧
          (u.arr q).tile n = t) ∧
        (x.xfer = true → ∃ u y, exec (.tileRestore q n) s = .next u ∧ (u.arr q).queue = y :: r ∧ y.xfer = false ∧
          ((u.arr q).tile n).owner = x.ctx ∧ ((u.arr q).tile n).inuse = true ∧ ((u.arr q).tile n).dirty = false ∧ ((u.arr q).tile n).stamp = s.cyc / 256)) ∧
      (∀ again, x.b.isSome = true →
        let l := if x.marker then some [] else replayed n (s.arr q).window
        ((l = none ∨ x.touched = true ∨ (∃ c, l = some c ∧ ∃ y ∈ c, y.touched = true ∨ s.readsBad y y.ranges = true) ∨
            s.readsBad x x.readSoFar = true ∨ again = true) → ∃ u m, exec (.arrayReplay q n again) s = .next u ∧
          mfind u.removals x.ctx = some m ∧ m.cause = 0x82) ∧
        (∀ c, l = some c → x.touched = false → (∀ y ∈ c, y.touched = false ∧ s.readsBad y y.ranges = false) → s.readsBad x x.readSoFar = false →
          again = false → ∃ u, exec (.arrayReplay q n false) s = .next u ∧
          (u.arr q).tiles = (s.arr q).tiles ∧ (u.core x.core).stops.replays = Nat.max (s.core x.core).stops.replays s.cyc + (replayCycles c + s.againCycles x)))) ∧
    (t.inuse = true → t.dirty = true → t.stale s.tstep = false → (s.ctxDesc t.owner).isSome = true → 1875 ≤ s.cyc / 256 - t.stamp + (s.core (4 * q)).swthr →
      (∀ c, 4 * q ≤ c → c < 4 * q + 4 → ¬((s.core c).bound = true ∧ (s.core c).ctx = t.owner)) →
      ∃ u, exec (.sweepTileSave q n) s = .next u ∧ ((u.arr q).tile n).dirty = false ∧ ((u.arr q).tile n).data = t.data) ∧
    (∀ c, t.inuse = true → t.stale s.tstep = false → t.renewAt = none → 4 * q ≤ c → c < 4 * q + 4 → (∃ w ∈ s.wires, w.ctx = t.owner ∧ w.holds s.cyc = true) →
      1875 ≤ s.cyc / 256 - t.stamp + (s.core c).swthr →
      ∃ u, exec (.sweepFrozenTileRenew q n) s = .next u ∧ (u.arr q).tile n = { t with renewAt := some (s.cyc + 128) }) ∧
    (∀ r, t.renewAt = some r → r ≤ s.cyc →
      ∃ u, exec (.sweepFrozenTileRenew q n) s = .next u ∧ ((u.arr q).tile n).renewAt = none ∧ ((u.arr q).tile n).data = t.data ∧
        (t.inuse = true → t.stale s.tstep = false → ((u.arr q).tile n).stamp = s.cyc / 256))

/-! ## The plane unit and the copy channels -/

/-- R107, R182, R184: `plane` fails its checks in their order, releases its semaphore for no block, and else queues a command; the unit begins it when its start
has come, reads eight rows of a block on each cycle, writes a block on the first cycle after its 32, also where the rows of the next fail there, and on the
cycle after the last write completes and releases the semaphore.
Choices of the model that it rests on: log entry 34. -/
def Claims.PlaneBlocksAreBuilt : Prop :=
  ∀ (s : State) (f : MovF) (c : Nat) (e : EngCmd) (r : List EngCmd),
    (s.Ready [f.a, f.b] →
      let var := f.var.toNat
      let n := f.n.toNat
      let src := (s.rd f.a).toNat
      let stride := (s.rd f.b).toNat
      let la := f.la.toNat
      let dst := n * blockSize var
      let odd := (matMx var = true ∧ n % 2 = 1) ∨ stride % 8 ≠ 0 ∨ stride < planeRow var n
      let aligned := la % 512 = 0 ∧ src % 8 = 0
      let inside := (dst = 0 ∨ la + dst ≤ 0x600000) ∧ ∀ i, i < 256 → planeRow var n = 0 ∨ src + i * stride + planeRow var n ≤ 0x600000
      let apart := ∀ i, i < 256 → overlap la dst (src + i * stride) (planeRow var n) = false
      let early := s.me.timed = true ∧ f.start.toNat < s.t + 2
      (odd → s.Traps (.plane f) 0xB 0) ∧
      (¬odd → ¬aligned → s.Traps (.plane f) 0x40 0) ∧
      (¬odd → aligned → ¬inside → s.Traps (.plane f) 0x41 0) ∧
      (¬odd → aligned → inside → ¬apart → s.Traps (.plane f) 0xB 0) ∧
      (¬odd → aligned → inside → apart → early → s.Traps (.plane f) 0x25 0) ∧
      (¬odd → aligned → inside → apart → ¬early → n = 0 → s.Issues (.plane f) (s.result 2 0 (.sem f.sem.toNat 1))) ∧
      (¬odd → aligned → inside → apart → ¬early → n ≠ 0 → ∃ e, e.var = var ∧ e.la = la ∧ e.a = s.rd f.a ∧ e.b = s.rd f.b ∧ e.n = n ∧
        e.sem = f.sem.toNat ∧ e.start = f.start.toNat ∧ e.begun = none ∧ e.j = 0 ∧ e.buf = [] ∧
        s.Issues (.plane f) (s.modUnits s.cur.core (fun u => { u with plane := u.plane ++ [e] })))) ∧
    (c < 128 → (s.core c).units.plane = e :: r →
      let co := s.core c
      let g := e.j / 32
      let k := e.j % 32
      let dst := e.la + (g - 1) * blockSize e.var
      (co.lateStart (e :: r) s.cyc = none → (e.begun = none ∧ co.begins e s.cyc = true) ∨ (e.begun.isSome = true ∧ e.nextAt ≤ s.cyc ∧ e.j ≤ 32 * e.n) →
        (g < e.n → k ≠ 0 → co.planeBad e g k = none →
          ∃ t e', exec (.planeCommand c) s = .next t ∧ (t.core c).units.plane = e' :: r ∧ e'.begun.isSome = true ∧ e'.nextAt = s.cyc + 1 ∧ e'.j = e.j + 1 ∧
            e'.buf = e.buf ++ (upTo (8 * k) 8).flatMap (fun i => co.bytes (e.rowAt g i) e.rowLen) ∧ (t.core c).posted = co.posted) ∧
        (g < e.n → k ≠ 0 → co.planeBad e g k ≠ none → ∃ t, exec (.planeCommand c) s = .next t ∧ (t.core c).units.plane = r) ∧
        (g < e.n → k = 0 → g ≠ 0 → co.checkLocal e.ctx s.tstep dst (blockSize e.var) false = none →
          (co.planeSource e s.tstep g ≠ none ∨ co.planeBad e g k ≠ none) →
          ∃ t ps, exec (.planeCommand c) s = .next t ∧ (t.core c).units.plane = r ∧
            (t.core c).posted = co.posted ++ .bytes dst (planeBlock e.var (e.rows (g - 1))) false :: ps ∧ ∀ a bs z, .bytes a bs z ∉ ps) ∧
        (g = e.n → k = 0 → g ≠ 0 → co.checkLocal e.ctx s.tstep dst (blockSize e.var) false = none →
          ∃ t e' ps, exec (.planeCommand c) s = .next t ∧ (t.core c).units.plane = e' :: r ∧ e'.nextAt = s.cyc + 1 ∧ e'.j = e.j + 1 ∧ e'.buf = [] ∧
            (t.core c).posted = co.posted ++ .bytes dst (planeBlock e.var (e.rows (g - 1))) false :: ps ∧
            ∀ a bs z, .bytes a bs z ∉ ps)) ∧
      (e.begun.isSome = true → e.nextAt ≤ s.cyc → 32 * e.n < e.j →
        ∃ t, exec (.planeComplete c) s = .next t ∧ (t.core c).units.plane = r ∧
          (co.bound = true → co.ctx = e.ctx → co.leaving = false → mget 0 (t.core c).im.sems e.sem = Nat.min 65535 (mget 0 co.im.sems e.sem + 1))))

/-- R107, R279 to R283: `cpy` joins the commands of the channel its operand names; a command begins with its descriptor read and checked, a malformed one ending it;
a run between local addresses is read and written in one cycle, and counted, the next run following in the order of the descriptor's dimensions; a command whose runs are done completes,
with no write left unacknowledged, and releases its semaphore.
Choices of the model that it rests on: log entries 4 and 27. -/
def Claims.CopiesMoveTheirRuns : Prop :=
  ∀ (s : State) (f : MovF) (c ch : Nat) (e : EngCmd) (r : List EngCmd),
    (s.Ready [f.a, f.b] →
      let early := s.me.timed = true ∧ f.start.toNat < s.t + 2
      let joins (i : Instr) (var : Nat) : Prop := ∃ e, e.var = var ∧ e.la = f.la.toNat ∧ e.a = s.rd f.a ∧ e.b = s.rd f.b ∧ e.sem = f.sem.toNat ∧
        e.start = f.start.toNat ∧ e.begun = none ∧ e.j = 0 ∧
        s.Issues i (s.modUnits s.cur.core (fun u => { u with chans := mset u.chans f.n.toNat (mget [] u.chans f.n.toNat ++ [e]) }))
      (early → s.Traps (.cpyIn f) 0x25 0 ∧ s.Traps (.cpyOut f) 0x25 0) ∧
      (2 ^ 23 ≤ (s.rd f.a).toNat → s.Traps (.cpyLl f) 0xB 0) ∧
      ((s.rd f.a).toNat < 2 ^ 23 → early → s.Traps (.cpyLl f) 0x25 0) ∧
      (¬early → joins (.cpyIn f) 0 ∧ joins (.cpyOut f) 1) ∧
      ((s.rd f.a).toNat < 2 ^ 23 → ¬early → joins (.cpyLl f) 2)) ∧
    (c < 128 → ch < 4 → mget [] (s.core c).units.chans ch = e :: r →
      let co := s.core c
      let d := co.checkLocal e.ctx s.tstep e.b.toNat 128 true
      let bs := co.bytes e.b.toNat 128
      let starts := e.begun = none ∧ co.lateStart (e :: r) s.cyc = none ∧ co.begins e s.cyc = true
      (starts → d = none → e.b.toNat % 128 = 0 → ∀ t, tensorOf bs e.ends.1 e.ends.2 = .ok t →
        ∃ u e', exec (.copyCommand c ch) s = .next u ∧ mget [] (u.core c).units.chans ch = e' :: r ∧ e'.begun = some s.cyc ∧ e'.buf = bs ∧
          (t.empty = true → e'.idx = [] ∧ e'.nextAt = s.cyc) ∧
          (t.empty = false → e'.idx = List.replicate t.dims.length 0 ∧ (e.var = 2 → e'.nextAt = s.cyc + 1) ∧ (e.var ≠ 2 → s.cyc + 1 ≤ e'.nextAt))) ∧
      (starts → (d ≠ none ∨ e.b.toNat % 128 ≠ 0 ∨ ∃ n, tensorOf bs e.ends.1 e.ends.2 = .error n) →
        ∃ u, exec (.copyCommand c ch) s = .next u ∧ mget [] (u.core c).units.chans ch = r) ∧
      (∀ t, e.begun.isSome = true → co.lateStart (e :: r) s.cyc = none → e.idx ≠ [] → e.nextAt ≤ s.cyc → e.fill = false → e.var = 2 → e.wait = .go →
        (∀ q ∈ s.dom.reqs, q.core ≠ 128 + (4 * c + ch)) → tensorOf e.buf e.ends.1 e.ends.2 = .ok t →
        let x := t.run e.la e.a.toNat true true e.idx
        co.checkLocal e.ctx s.tstep x.so x.n true = none → co.checkLocal e.ctx s.tstep x.dt x.n false = none →
        ∃ u e' ps, exec (.copyCommand c ch) s = .next u ∧ mget [] (u.core c).units.chans ch = e' :: r ∧ e'.idx = t.after e.idx x ∧ e'.j = e.j + 1 ∧
          e'.nextAt = s.cyc + 1 ∧ (u.core c).posted = co.posted ++ (writePosts x.dt (co.bytes x.so x.n) ++ ps ++ [.cwp ch x.n e.ctx]) ∧ u.mem = s.mem) ∧
      (e.begun.isSome = true → e.idx = [] → e.nextAt ≤ s.cyc → s.writesOut (4 * c + ch) = false →
        ∃ u, exec (.copyComplete c ch) s = .next u ∧ mget [] (u.core c).units.chans ch = r ∧
          (co.bound = true → co.ctx = e.ctx → co.leaving = false → mget 0 (u.core c).im.sems e.sem = Nat.min 65535 (mget 0 co.im.sems e.sem + 1))))

/-! ## Instructions that place packets -/

/-- The ENG instructions (Table 14-1, R291, R292, R316, R401): fields, packet kind, sub-operation, the commit domain of a job card, whether the entry point
goes along, and whether the form is illegal. -/
def engRow (i : Instr) : Option (EngF × Nat × Nat × Option Nat × Bool × Bool) :=
  let ts (f : EngF) (k : Nat) : Option Nat := if f.var.getLsbD 3 then some k else none
  match i with
  | .ixeGather f => some (f, 0x10, 0, ts f 0, false, false)
  | .ixeScatter f => some (f, 0x11, 0, ts f 0, false, false)
  | .ixeDedup f => some (f, 0x12, 0, ts f 0, false, f.a != 0)
  | .ixeBucket f => some (f, 0x13, 0, ts f 0, false, false)
  | .wlpush f => some (f, 0x14, 0, none, false, false)
  | .wlpop f => some (f, 0x15, 0, none, false, false)
  | .wldin f => some (f, 0x16, 0, none, false, false)
  | .skq f => some (f, 0x18, 0, none, false, false)
  | .skqAdd f => some (f, 0x18, 1, none, false, false)
  | .hrchFill f => some (f, 0x19, 0, none, false, f.c != 0)
  | .hrchEvict f => some (f, 0x19, 1, none, false, f.c != 0)
  | .hrchFlush f => some (f, 0x19, 2, none, false, f.c != 0)
  | .hrchPin f => some (f, 0x19, 3, none, false, f.c != 0)
  | .hrchUnpin f => some (f, 0x19, 4, none, false, f.c != 0)
  | .pool f => some (f, 0x20, 0, some 1, true, false)
  | .supd f => some (f, 0x30, 0, some 2, true, false)
  | .nmc f => some (f, 0x40, 0, ts f 3, true, false)
  | .xchPool f => some (f, 0x50, 0, none, true, false)
  | .xchRed f => some (f, 0x51, 0, none, false, f.ep != 0)
  | _ => none

/-- R271, R273, R275, R291, R292, R316, R401: an ENG instruction with a start offset, a queue that is not bound, an illegal register or entry point field, or a job card of a domain without
a step raises 0x0B; with a full port its group waits; else its packet, made of the four registers and the header of Table 13-1, joins the port, the core
releases at module scope (behind K's earlier atomics), and a job card takes the domain's next timestamp. -/
def Claims.EngInstructionsPlaceTheirPacket : Prop :=
  ∀ (s : State) (i : Instr) (f : EngF) (kind sub : Nat) (card : Option Nat) (ep bad : Bool), engRow i = some (f, kind, sub, card, ep, bad) →
    s.Ready [f.a, f.b, f.c, f.d] → s.cur.core < 128 →
    let jts := mget 0 s.me.im.jts (card.getD 0)
    let step := fld jts.toNat 48 16
    let next := fld jts.toNat 0 48
    let wrong := bad = true ∨ f.start ≠ 0 ∨ mget 0 s.me.im.qb f.q.toNat = 0 ∨ (card.isSome = true ∧ step = 0)
    let past : State → State := match card with
      | none => fun t => t
      | some k => fun t => t.modIm s.cur.core (fun im => { im with jts := mset im.jts k (BitVec.ofNat 64 (step * 2 ^ 48 + (next + step) % 2 ^ 48)) })
    (wrong → s.Traps i 0xB 0) ∧
    (¬wrong → 16 ≤ s.me.units.port.length → s.Waits i 0xA 0) ∧
    (¬wrong → s.me.units.port.length < 16 → ∃ k, k.q = f.q.toNat ∧ k.desc = mget 0 s.me.im.qb f.q.toNat ∧ k.claim = none ∧ k.sent = false ∧ k.at_ = s.cyc + 1 ∧
      pKind k.pkt = kind ∧ pCard k.pkt = card.isSome ∧ pTs k.pkt = (if card.isSome then next else 0) ∧ pf k.pkt 9 2 = 1 ∧ pf k.pkt 12 3 = 3 ∧
      pf k.pkt 16 6 = f.sem.toNat ∧ pCore k.pkt = s.cur.core ∧ pBody k.pkt 0 = s.rd f.a ∧ pBody k.pkt 1 = s.rd f.b ∧ pBody k.pkt 2 = s.rd f.c ∧
      pBody k.pkt 3 = s.rd f.d ∧ pf k.pkt 448 8 = (if ep then f.ep.toNat else 0) ∧ pf k.pkt 456 8 = sub ∧ pf k.pkt 464 48 = 0 ∧
      s.Issues i (past ((s.modUnits s.cur.core (fun u => { u with port := u.port ++ [k] })).releaseNext s.cur.core 3)))

/-- R272, R276: `qpush` places its n packets as the scratchpad holds them, or waits when the port has no room for all; `qfence` places a join packet in each queue named
and releases at module scope, and its form .w, which waits in a timed segment, then holds K until the join word reaches their number.
Choices of the model that it rests on: log entry 28. -/
def Claims.PushesAndFencesPlacePackets : Prop :=
  ∀ (s : State) (f : StoF) (m : MgtF) (s1 : State) (ps : List KPiece),
    (s.Ready [] →
      let la := f.la.toNat
      let n := f.n.toNat
      let local_ := s.me.checkLocal s.me.ctx s.tstep la (64 * n) true
      let bound := mget 0 s.me.im.qb f.q.toNat ≠ 0
      let i := Instr.qpush f
      (n = 0 → s.Issues i s) ∧
      (n ≠ 0 → la % 64 ≠ 0 → s.Traps i 0x40 0) ∧
      (n ≠ 0 → la % 64 = 0 → ∀ cause slab a, local_ = some (cause, slab, a) → s.Traps i cause 0) ∧
      (n ≠ 0 → la % 64 = 0 → local_ = none → ¬bound → s.Traps i 0xB 0) ∧
      (n ≠ 0 → la % 64 = 0 → local_ = none → bound → 16 < s.me.units.port.length + n → s.Waits i 0xA 0) ∧
      (n ≠ 0 → la % 64 = 0 → local_ = none → bound → s.me.units.port.length + n ≤ 16 → ∃ l,
        l.map (fun k => (k.q, k.pkt)) = (pieces 64 (s.me.bytes la (64 * n))).map (fun bs => (f.q.toNat, BitVec.ofNat 512 (leNat bs))) ∧
        (∀ k ∈ l, k.desc = mget 0 s.me.im.qb k.q ∧ k.claim = none ∧ k.at_ = s.cyc + 1) ∧
        s.Issues i (s.modUnits s.cur.core (fun u => { u with port := u.port ++ l })))) ∧
    (s.Ready [m.a] →
      let va := s.rd m.a
      let qs := fenceQueues m
      let bound := ∀ q ∈ qs, mget 0 s.me.im.qb q ≠ 0
      let both (P : Instr → Prop) : Prop := P (.qfence m) ∧ P (.qfenceW m)
      let joins (l : List QPkt) : Prop := l.map (fun k => k.q) = qs ∧ ∀ k ∈ l, pKind k.pkt = 1 ∧ pCard k.pkt = false ∧ pf k.pkt 9 2 = 0 ∧ pf k.pkt 12 3 = 3 ∧
        pBody k.pkt 0 = va ∧ pBody k.pkt 1 = BitVec.ofNat 64 qs.length ∧ k.desc = mget 0 s.me.im.qb k.q
      (qs = [] → both (fun i => s.Issues i s)) ∧
      (qs ≠ [] → va.toNat % 8 ≠ 0 → both (fun i => s.Traps i 0x40 0)) ∧
      (qs ≠ [] → va.toNat % 8 = 0 → ¬bound → both (fun i => s.Traps i 0xB 0)) ∧
      (qs ≠ [] → va.toNat % 8 = 0 → bound → 16 < s.me.units.port.length + qs.length → s.Waits (.qfence m) 0xA 0) ∧
      (qs ≠ [] → va.toNat % 8 = 0 → bound → s.me.units.port.length + qs.length ≤ 16 → ∃ l, joins l ∧
        s.Issues (.qfence m) ((s.modUnits s.cur.core (fun u => { u with port := u.port ++ l })).releaseNext s.cur.core 3)) ∧
      (qs ≠ [] → va.toNat % 8 = 0 → bound → s.me.timed = true → s.Waits (.qfenceW m) 0xA 0) ∧
      (qs ≠ [] → va.toNat % 8 = 0 → bound → s.me.timed = false → s.Reaches 0 va 8 s1 ps → s1.me.units.port.length + qs.length ≤ 16 → ∃ l,
        l.map (fun k => (k.q, k.pkt)) = qs.map (fun q => (q, packet 1 0 0 3 0 0 0 va.toNat qs.length 0 0 0)) ∧
        s.Issues (.qfenceW m) (((s1.modUnits s1.cur.core (fun u => { u with port := u.port ++ l })).releaseNext s1.cur.core 3).modMs s1.cur.core (fun m =>
          { m with hold := some (.join va ((ps.map (fun p => p.pa)).headD 0) qs.length s1.mySeq.index) })))
    )

/-! ## Queues: the port, the front ends, commit and completion -/

/-- R262, R276, R284: a null and a signal packet end at once; a join packet adds one to its word and then waits until the word has reached the target; a
copy packet reads its descriptor once and moves a run of its tensor at a time.
Choices of the model that it rests on: log entries 16 and 28. -/
def Claims.PacketsWithoutAnEngineRun : Prop :=
  ∀ (s : State) (w : Nat) (x : Work), s.Working w x →
    let g := s.workAgent x
    let va := pBody x.pkt 0
    let dva := pBody x.pkt 2
    (pKind x.pkt = 0 → s.WorkEnds (.nullPacket w) w x 0 [] []) ∧
    (pKind x.pkt = 3 → s.WorkEnds (.signalPacket w) w x 0 [] []) ∧
    (pKind x.pkt = 1 →
      (va.toNat % 8 ≠ 0 → s.WorkEnds (.joinPacket w) w x 0x40 [] []) ∧
      (∀ old t, va.toNat % 8 = 0 → x.joined = false → s.gatomic g 0x54 va 1 = .ok old t →
        ∃ u, exec (.joinPacket w) s = .next u ∧ mfind u.works w = some { x with joined := true } ∧ u.mem = t.mem) ∧
      (∀ bs t, va.toNat % 8 = 0 → x.joined = true → s.gread g va 8 = .ok bs t → (pBody x.pkt 1).toNat ≤ leNat bs → s.WorkEnds (.joinPacket w) w x 0 [] []) ∧
      (∀ bs t, va.toNat % 8 = 0 → x.joined = true → s.gread g va 8 = .ok bs t → leNat bs < (pBody x.pkt 1).toNat →
        ∃ u, exec (.joinPacket w) s = .next u ∧ mfind u.works w = some { x with at_ := t.cyc + 1 } ∧ u.mem = t.mem)) ∧
    (pKind x.pkt = 2 →
      (dva.toNat % 128 ≠ 0 → s.WorkEnds (.copyPacket w) w x 0x64 [] []) ∧
      (∀ bs t, dva.toNat % 128 = 0 → ((x.buf = [] ∧ s.gread g dva 128 = .ok bs t) ∨ (x.buf ≠ [] ∧ bs = x.buf ∧ t = s)) →
        let t0 := if x.buf = [] then t.setWork w { x with buf := bs } else t
        (∀ n, tensorOf bs va.toNat (pBody x.pkt 1).toNat = .error n → s.WorkEnds (.copyPacket w) w x 0x64 [] []) ∧
        (∀ ts, tensorOf bs va.toNat (pBody x.pkt 1).toNat = .ok ts →
          let idx := if x.run = 0 then List.replicate ts.dims.length 0 else x.pos
          let r := ts.run va.toNat (pBody x.pkt 1).toNat false false idx
          (ts.empty = true → s.WorkEnds (.copyPacket w) w x 0 [] []) ∧
          (∀ data t1 ps t2, ts.empty = false → t0.gread { g with down := ts.down (fun d => d.ss) } (BitVec.ofNat 64 r.so) r.n = .ok data t1 →
            t1.reach { g with down := ts.down (fun d => d.ds) } 1 (BitVec.ofNat 64 r.dt) r.n = .ok ps t2 →
            (ts.after idx r = [] → s.WorkEnds (.copyPacket w) w x 0 [] []) ∧
            (ts.after idx r ≠ [] → ∃ u, exec (.copyPacket w) s = .next u ∧ u.mem = (t2.writeParts g.id g.ctx 3 ps data).mem ∧
              ∃ y, mfind u.works w = some y ∧ y.run = x.run + 1 ∧ y.pos = ts.after idx r ∧ y.stage = .taken))))) 

/-- R263, R268, R269, R275: a job card whose work is done performs its writes when its turn to commit comes, and the commit point goes past it; a packet whose writes stand
completes, which moves ridx past the packets completed in slot order and releases its semaphore; a failed one stops its queue.
Choices of the model that it rests on: log entries 16 and 30. -/
def Claims.PacketsCommitAndComplete : Prop :=
  ∀ (s : State) (w : Nat) (x : Work), mfind s.works w = some x → x.at_ ≤ s.cyc →
    let cls := cardClass (pKind x.pkt)
    (isCard x.pkt = true → x.stage = .performed → (x.cause = 0x65 ∨ pTs x.pkt ≤ s.cp x.ctx cls) → s.commitHeld x = false →
      (s.badPost x = none → ∃ u, exec (.jobCardCommit w) s = .next u ∧ mfind u.works w = some { x with stage := .committed } ∧
        (x.out = [] → x.posts = [] → x.frames = [] → (x.cause = 0x65 ∨ pTs x.pkt ≠ s.cp x.ctx cls) → u.mem = s.mem) ∧
        (x.out = [] → x.posts = [] → x.frames = [] → x.cause ≠ 0x65 → pTs x.pkt = s.cp x.ctx cls → s.ctxDesc x.ctx ≠ none →
          u.cp x.ctx cls = (s.cp x.ctx cls + 1) % 2 ^ 48)) ∧
      (∀ cause a, s.badPost x = some (cause, a) → x.cause = 0 → ∃ u y, exec (.jobCardCommit w) s = .next u ∧ mfind u.works w = some y ∧
        y.stage = .taken ∧ y.cause = cause ∧ y.out = [] ∧ y.posts = [] ∧ u.mem = s.mem)) ∧
    (x.stage = .committed → x.wait = .go → pf x.pkt 9 2 ≠ 2 → (∀ r ∈ s.dom.reqs, r.core ≠ 128 + (1024 + x.q)) →
      (∀ a ∈ s.dom.answers, a.agent ≠ 1024 + x.q) →
      (x.cause = 0 → ∃ u, exec (.packetComplete w) s = .next u ∧ mfind u.works w = none ∧ (∀ v, v ≠ w → mfind u.works v = mfind s.works v) ∧
        (pf x.pkt 9 2 = 1 → (s.core (pCore x.pkt)).bound = true → (s.core (pCore x.pkt)).ctx = x.ctx → (s.core (pCore x.pkt)).leaving = false →
          mget 0 (u.core (pCore x.pkt)).im.sems (pf x.pkt 16 6) = Nat.min 65535 (mget 0 (s.core (pCore x.pkt)).im.sems (pf x.pkt 16 6) + 1)) ∧
        (∀ f, s.front x.q = some f → x.idx = f.ridx → f.done = [] →
          ∃ g, u.front x.q = some g ∧ g.ridx = f.ridx + 1 ∧ g.done = [] ∧ u.homeNat (f.desc + 16) 8 = (f.ridx + 1) % 2 ^ 64)) ∧
      (x.cause ≠ 0 → ∀ f, s.front x.q = some f →
        ∃ u, exec (.packetComplete w) s = .next u ∧ mfind u.works w = none ∧ u.homeNat (f.desc + 32) 1 % 4 = 1 ∧ u.homeNat (f.desc + 35) 1 = x.cause % 256))

/-- R264, R265, R266, R269, R273, R380, R381, R446: the queue port claims a slot of its oldest packet's queue and writes the packet, with its lap, when the slot is free; a front end
takes the packet at its place when the lap is right and no queue it serves comes before, stops its queue when it is neither that nor the one before; an entry is attached when its descriptor
passes its checks, and detached, while the management core manages the dies; a tail write moves widx on, never back, as signed numbers; a restart clears the stopped state.
Choices of the model that it rests on: log entries 4 and 29. -/
def Obligations.QueuesMovePackets : Prop :=
  ∀ (s : State) (c q d n : Nat) (k : QPkt) (r : List QPkt) (f : Front) (v : Word),
    (c < 128 → (s.core c).units.port = k :: r → (s.core c).ms.rels = [] → k.at_ ≤ s.cyc → k.sent = false → k.wait = .go →
      (∀ x ∈ s.dom.reqs, x.core ≠ 128 + (2048 + c)) → (∀ a ∈ s.dom.answers, a.agent ≠ 2048 + c) →
      let g := s.portAgent c k
      (∀ i bs s0 s1, k.claim = none → (s.portTlb c).gread g k.desc 64 = .ok bs s0 → s0.gatomic g 0x54 (k.desc + 8) 1 = .ok i s1 →
        ∃ u, exec (.queuePortWrite c) s = .next u ∧ (u.core c).units.port = { k with claim := some i, at_ := s.cyc } :: r ∧ u.mem = s1.mem) ∧
      (∀ i bs s1, k.claim = some i → (s.portTlb c).gread g k.desc 64 = .ok bs s1 → descRidx bs + 2 ^ descLsize bs ≤ i →
        ∃ u, exec (.queuePortWrite c) s = .next u ∧ (u.core c).units.port = { k with at_ := s.cyc + 1 } :: r ∧ u.mem = s.mem) ∧
      (∀ i bs s1 pa s2, k.claim = some i → (s.portTlb c).gread g k.desc 64 = .ok bs s1 → i < descRidx bs + 2 ^ descLsize bs →
        s1.reach g 1 (slotVa (descBase bs) (descLsize bs) i) 64 = .ok [(pa, 64)] s2 → s2.paKind pa = .home → s2.paKind (pa + 8) = .home →
        ∃ u, exec (.queuePortWrite c) s = .next u ∧ (u.core c).units.port = r ∧
          u.homeBytes pa 64 = leBytes 64 (withLap k.pkt (lapOf i (descLsize bs))).toNat ∧
          (∀ a, a < pa ∨ pa + 64 ≤ a → u.homeByte a = s2.homeByte a) ∧
          { core := c, ctx := k.ctx, launch := k.launch, desc := k.desc, slot := i, kind := pKind k.pkt, failed := false } ∈ u.placed)) ∧
    (q < 512 → s.front q = some f →
      let e := s.qent q
      let i := s.nextSlot q f
      let g := f.agent q e.ctx .go false 0
      let open_ := e.v = true ∧ s.running e.ctx = true ∧ (f.engine = 6 → s.jrnl.jctl.getLsbD 0 = true) ∧ s.queueState f = 0 ∧ i < f.widx ∧ f.at_ ≤ s.cyc ∧
        f.wait = .go ∧ f.fresh = true ∧ (f.engine = 0 → (s.freeChan (q / 256)).isSome = true) ∧ mget 0 (s.die (q / 256)).takeAt f.engine ≤ s.cyc ∧
        (∀ q2 ∈ s.aheadOf q f, s.frontTry q2 = none) ∧ (∀ x ∈ s.dom.reqs, x.core ≠ 128 + g.id) ∧ ∀ p ∈ s.works, p.2.q ≠ q
      (∀ bs t, open_ → s.gread g (slotVa f.base.toNat f.lsize i) 64 = .ok bs t →
        let p := BitVec.ofNat 512 (leNat bs)
        (pf p 32 32 = lapOf i f.lsize → malformed p f.engine f.unit = false → pCard p = false →
          ∃ u x, exec (.frontEndTake q) s = .next u ∧ mfind u.works t.serial = some x ∧ x = { newWork q i e.ctx p 0 x.at_ with chan := x.chan } ∧
            s.cyc + 1 ≤ x.at_ ∧ u.mem = t.mem ∧
            ∃ h, u.front q = some h ∧ h.at_ = s.cyc + 1 ∧ h.ridx = f.ridx) ∧
        (pf p 32 32 ≠ lapOf i f.lsize → pf p 32 32 ≠ (lapOf i f.lsize + 2 ^ 32 - 1) % 2 ^ 32 →
          ∃ u, exec (.frontEndTake q) s = .next u ∧ u.homeNat (f.desc + 32) 1 % 4 = 1 ∧ u.homeNat (f.desc + 35) 1 = 0x63)) ∧
      (s.queueState f = 1 → ∃ u, exec (.queueRestart q) s = .next u ∧ u.queueState f = 0 ∧ ∀ a, a ≠ f.desc + 32 → u.homeByte a = s.homeByte a)) ∧
    (d < 2 → n < 256 →
      let q := 256 * d + n
      let e := s.qent q
      let desc := v &&& ~~~63#64
      (s.managed = true → v.getLsbD 0 = false → ∃ u, exec (.queueTableAttach d n v) s = .next u ∧ (u.qent q).v = false ∧ (u.qent q).desc = desc ∧ u.front q = none) ∧
      (s.managed = false → exec (.queueTableAttach d n v) s = .next s) ∧
      (s.managed = true → v.getLsbD 0 = true → ∃ u, exec (.queueTableAttach d n v) s = .next u ∧ (u.qent q).v = (s.attachFront d e.ctx desc).isSome ∧
        (u.qent q).desc = desc ∧ u.front q = (s.attachFront d e.ctx desc).map (fun x => x.1)) ∧
      (s.front q = some f → ∃ u, exec (.queueTailWrite d n v) s = .next u ∧ 
        u.homeNat f.wpa 8 = (if (BitVec.ofNat 64 (s.homeNat f.wpa 8)).toInt < v.toInt then v.toNat else s.homeNat f.wpa 8) ∧
        ∀ a, a < f.wpa ∨ f.wpa + 8 ≤ a → u.homeByte a = s.homeByte a))

/-! ## The embedding engines -/

/-- R285 to R290, R293: the index engine: a packet that names a descriptor has it read before its work; a gather writes the rows of its list, each padded to eight bytes, to its place; a scatter reads its rows without their pad bytes and writes them, the later of two entries of a row last; a
dedup writes how many distinct rows its list has, each with its number of entries, in rising order, and, from 8 + 8n bytes on, the index of each entry's row among them; a bucket
writes its entries by home, with the sizes of the ten buckets and the entries' places. Each writes its record; a table, list or row that fails its checks leaves a failed record and no other write.
Choices of the model that it rests on: log entries 16 and 31. -/
def Claims.IndexPacketsDoTheirWork : Prop :=
  (∀ (s : State) (w : Nat) (x : Work) (i : Instr) (bs : List Byte) (t : State),
    (i, pKind x.pkt) ∈ [(Instr.indexGather w, 0x10), (.indexScatter w, 0x11), (.indexBucket w, 0x13)] → mfind s.works w = some x → s.lateCard x = x →
    x.needsDesc = true → x.wait = .go → (∀ r ∈ s.dom.reqs, r.core ≠ 128 + (1024 + x.q)) → s.gread (s.workAgent x) (pBody x.pkt 0) 64 = .ok bs t →
    ∃ u, exec i s = .next u ∧ mfind u.works w = some { x with buf := bs } ∧ u.mem = t.mem) ∧
  ∀ (s : State) (w : Nat) (x : Work), s.Working w x →
    let place := pBody x.pkt 2
    let fails (i : Instr) (kinds : List Nat) (far : Bool) : Prop := ∀ cause k va s1, s.tableList x kinds far = .fail cause k va s1 → s.WorkFails i w x cause s1
    (pKind x.pkt = 0x10 → fails (.indexGather w) [0] false ∧ ∀ t l hs s1, s.tableList x [0] false = .ok (t, l, hs) s1 →
      let rows := (rowsOf l hs).map (fun p => s1.rowBytesNow x.ctx t p.1 p.2)
      ∀ wr s2, s1.pput x place (rows.flatMap (fun r => r.1 ++ List.replicate ((t.rb + 7) / 8 * 8 - t.rb) 0)) = .ok wr s2 →
        s.WorkPlaces (.indexGather w) w x s2 wr l.n 0 (rows.filter (fun r => r.2)).length) ∧
    (pKind x.pkt = 0x11 → fails (.indexScatter w) [1] false ∧ ∀ t l hs s1, s.tableList x [1] false = .ok (t, l, hs) s1 →
      let pad := (t.rb + 7) / 8 * 8
      ∀ bs s2 r s3, engMap (fun k _ s => (s.pread x (place + BitVec.ofNat 64 (k * pad)) t.rb).at k) 0 l.ents s1 = .ok bs s2 → s2.recordPut x (recordBytes l.n 0 0 0) = .ok r s3 →
        let rows := ((rowsOf l hs).zip bs).map (fun p => (rowKey t.tid p.1.1 p.1.2, p.2))
        s.WorkEnds (.indexScatter w) w x 0 r.1 r.2 ∧
        ∃ u y, exec (.indexScatter w) s = .next u ∧ mfind u.works w = some y ∧ y.frames = rows ∧
          (pCard x.pkt = false → r = ([], []) → u.mem = (rows.foldl (fun s p => s.rowWrite x.ctx p.1 p.2) s3).mem) ∧
          (pCard x.pkt = true → u.mem = s.mem)) ∧
    (pKind x.pkt = 0x12 →
      (∀ cause k va s1, s.eList x = .fail cause k va s1 → s.WorkFails (.indexDedup w) w x cause s1) ∧
      ∀ l s1, s.eList x = .ok l s1 →
        ((∃ e ∈ l.ents, e.2 ≠ 0) → s.WorkFails (.indexDedup w) w x 0x77 s1) ∧
        ∀ us : List Nat, (∀ e ∈ l.ents, e.2 = 0) → us.Pairwise (fun a b => a < b) → (∀ r, r ∈ us ↔ ∃ e ∈ l.ents, e.1 = r) →
          ∀ wr s2 pos s3, s1.pput x place (leBytes 8 us.length ++
              us.flatMap (fun r => leBytes 8 (r + (l.ents.filter (fun e => e.1 == r)).length * 2 ^ 32))) = .ok wr s2 →
            s2.pput x (place + BitVec.ofNat 64 (8 + 8 * l.n)) (l.ents.flatMap (fun e => leBytes 4 (us.findIdx (fun y => y == e.1)))) = .ok pos s3 →
            s.WorkPlaces (.indexDedup w) w x s3 (joinWrites [wr, pos]) us.length 0 0) ∧
    (pKind x.pkt = 0x13 → fails (.indexBucket w) [0] true ∧ ∀ t l hs s1, s.tableList x [0] true = .ok (t, l, hs) s1 →
      let es := ((l.ents.zip hs).zip (upTo 0 l.n)).map (fun p => (bucketOf p.1.2, p.1.1, p.2))
      let inB (b : Nat) := es.filter (fun e => decide (e.1 = b))
      ∀ wr s2, s1.pput x place ((upTo 0 10).flatMap (fun b => leBytes 4 (inB b).length) ++
          (upTo 0 10).flatMap (fun b => (inB b).flatMap (fun e => leBytes 8 (e.2.1.1 + e.2.1.2 * 2 ^ 32))) ++
          (upTo 0 10).flatMap (fun b => (inB b).flatMap (fun e => leBytes 4 e.2.2))) = .ok wr s2 →
        s.WorkPlaces (.indexBucket w) w x s2 wr l.n 0 0)

/-- The estimates of rows fed one after another, each read after its own feed (R300). -/
def fedEstimates (tid : Nat) : Die → List Nat → List Nat
  | _, [] => []
  | d, r :: rs => (d.feed tid r).estimate tid r :: fedEstimates tid (d.feed tid r) rs

/-- R297, R299, R300: a sketch query writes the estimate of each entry, one that adds after feeding it; a feed raises the row's four counters by one, up to 65,535; at each multiple
of the period the counters halve.
Choices of the model that it rests on: log entry 58. -/
def Claims.SketchesCountAndDecay : Prop :=
  ∀ (s : State) (w : Nat) (x : Work) (d tid row : Nat) (di : Die),
    (s.Working w x → pKind x.pkt = 0x18 → ∀ t l hs s1, s.tableList x [0] false = .ok (t, l, hs) s1 →
      let die := s1.die (dieOf (s1.workAgent x).core)
      (∀ wr s2, pSub x.pkt = 0 → s1.pput x (pBody x.pkt 2) (l.ents.flatMap (fun e => leBytes 4 (die.estimate t.tid e.1))) = .ok wr s2 →
        s.WorkPlaces (.sketchQuery w) w x s2 wr l.n 0 0) ∧
      (∀ wr s2, pSub x.pkt = 1 → s1.pput x (pBody x.pkt 2) ((fedEstimates t.tid die (l.ents.map (fun e => e.1))).flatMap (leBytes 4)) = .ok wr s2 →
        s.WorkPlaces (.sketchQueryAdd w) w x s2 wr l.n 0 0)) ∧
    (∀ k, mget 0 (di.feed tid row).sketch k = if k ∈ sketchKeys tid row then Nat.min 65535 (mget 0 di.sketch k + 1) else mget 0 di.sketch k) ∧
    (d < 2 → fld (s.die d).skcfg.toNat 16 20 ≠ 0 → s.tstep % fld (s.die d).skcfg.toNat 16 20 = 0 → (s.die d).decayed ≠ s.tstep →
      ∃ u, exec (.sketchDecay d) s = .next u ∧ (u.die d).decayed = s.tstep ∧ (∀ k, mget 0 (u.die d).sketch k = mget 0 (s.die d).sketch k / 2) ∧
        (∀ e, e ≠ d → u.die e = s.die e) ∧ u.mem = s.mem)

/-- R301 to R304: the hot-row cache: a fill takes a way of the row's set and copies the row there; a dirty frame is written back to the row's home; an `hrch` packet does its operation on each row
of its list in order, and its record says how many counted. An eviction frees the frame, a pin needs fewer than seven pinned ways, an unpin
counts the frames that were pinned.
Choices of the model that it rests on: log entry 58. -/
def Claims.HotRowsAreKept : Prop :=
  ∀ (s : State) (w d n m : Nat) (x : Work) (t : ETable) (row home : Nat) (p : Nat × Frame),
    (∀ (i : Instr) (k : Nat), (i, k) ∈ [(Instr.hotrowFill w, 0), (.hotrowEvict w, 1), (.hotrowFlush w, 2), (.hotrowPin w, 3), (.hotrowUnpin w, 4)] →
      s.Working w x → (∀ p ∈ s.frames, s.frameHeld p.1 = false) → pKind x.pkt = 0x19 → pSub x.pkt = k →
      (∀ cause j va s1, s.tableList x [0] false = .fail cause j va s1 → s.WorkFails i w x cause s1) ∧
      ∀ t l hs s1 r s2 a s3, s.tableList x [0] false = .ok (t, l, hs) s1 →
        s1.recordPut x (recordBytes (s1.hotRows k (s1.engineDie x) x.ctx t (rowsOf l hs)).1 0 0 0) = .ok r s2 → s2.tableList x [0] false = .ok a s3 →
        s.WorkEnds i w x 0 r.1 r.2 ∧
        ∃ u, exec i s = .next u ∧ u.frames = (s3.hotRows k (s2.engineDie x) x.ctx a.1 (rowsOf a.2.1 a.2.2)).2.frames) ∧
    (s.resident x.ctx t.tid row = some p →
      (s.hotRow 1 d x.ctx t row home).1 = true ∧ mfind (s.hotRow 1 d x.ctx t row home).2.frames p.1 = none ∧
      (((s.ways (p.1 / 8)).filter (fun y => y.2.pin)).length < 7 → p.2.pin = false →
        (s.hotRow 3 d x.ctx t row home).1 = true ∧ mfind (s.hotRow 3 d x.ctx t row home).2.frames p.1 = some { p.2 with pin := true }) ∧
      (7 ≤ ((s.ways (p.1 / 8)).filter (fun y => y.2.pin)).length → p.2.pin = false → s.hotRow 3 d x.ctx t row home = (false, s)) ∧
      (s.hotRow 4 d x.ctx t row home).1 = p.2.pin ∧ mfind (s.hotRow 4 d x.ctx t row home).2.frames p.1 = some { p.2 with pin := false }) ∧
    (s.resident x.ctx t.tid row = none → (s.hotRow 1 d x.ctx t row home).1 = false ∧ (s.hotRow 2 d x.ctx t row home).1 = false ∧
      (s.hotRow 4 d x.ctx t row home).1 = false) ∧
    (∀ f, m < 8 → mfind s.frames (8 * n + m) = some f → f.valid = true → f.dirty = true → s.frameHeld (8 * n + m) = false →
      ∃ u, exec (.frameWriteBack n m) s = .next u ∧ u.frames = mset s.frames (8 * n + m) { f with dirty := false } ∧
        u.homeBytes f.home f.rb = s.homeBytes (s.frameAt (8 * n + m)) f.rb ∧ ∀ a, a < f.home ∨ f.home + f.rb ≤ a → u.homeByte a = s.homeByte a) ∧
    (∀ r i, d < 2 → s.fills.find? (fun f => decide (f.die = d) && !s.extentBlocked f.home f.rb false && !s.victimHeld f) = some r → s.hr ≠ 0 → r.rb ≤ s.frameSize → s.resident r.ctx r.tid r.row = none →
      s.victim d (s.hotSet r.tid r.row) = some i → mfind s.frames i = none →
      ∃ u f, exec (.frameFill d) s = .next u ∧ u.fills = s.fills.erase r ∧ mfind u.frames i = some f ∧ f.valid = true ∧ f.dirty = false ∧ f.pin = false ∧
        f.ctx = r.ctx ∧ f.tid = r.tid ∧ f.row = r.row ∧ f.home = r.home ∧ u.homeBytes (s.frameAt i) r.rb = s.homeBytes r.home r.rb)

/-- R294, R295: work-lists: a push appends its coordinates behind the tail, unless the ring would overflow; a dedup push appends those whose bits are clear, the first of equal ones, and
sets their bits; a pop moves up to 64 entries from the head to its place and the head past them; none while another command is in the middle of its step on the
same list.
Choices of the model that it rests on: log entries 16 and 31. -/
def Claims.WorkListsPushAndPop : Prop :=
  ∀ (s : State) (w : Nat) (x : Work), s.Working w x → s.listBusy w x = false →
    let kind (i : Instr) : Option Nat := match i with
      | .worklistPush _ => some 0x14
      | .worklistPop _ => some 0x15
      | .worklistDedupPush _ => some 0x16
      | _ => none
    (∀ i cause k va s1, i ∈ [Instr.worklistPush w, .worklistPop w, .worklistDedupPush w] → kind i = some (pKind x.pkt) → s.wlist x = .fail cause k va s1 →
      s.WorkFails i w x cause s1) ∧
    (∀ l s1 cs s2, pKind x.pkt = 0x14 → s.wlist x = .ok l s1 → s1.pushed x = .ok cs s2 →
      (2 ^ l.lcap < l.tail - l.head + cs.length → s.WorkFails (.worklistPush w) w x 0x73 s2) ∧
      (l.tail - l.head + cs.length ≤ 2 ^ l.lcap → ∀ ws s3 tw s4,
        engMap (fun k c s => s.gput x (l.entry (l.tail + k)) (leBytes 8 c)) 0 cs s2 = .ok ws s3 →
        s3.gput x (pBody x.pkt 0 + 24) (leBytes 8 (l.tail + cs.length)) = .ok tw s4 →
        s.WorkPlaces (.worklistPush w) w x s4 (joinWrites (ws ++ [tw])) cs.length 0 0)) ∧
    (∀ l s1 cs s2, pKind x.pkt = 0x16 → s.wlist x = .ok l s1 → s1.pushed x = .ok cs s2 →
      ((∃ c ∈ cs, l.u ≤ c) → s.WorkFails (.worklistDedupPush w) w x 0x74 s2) ∧
      ((∀ c ∈ cs, c < l.u) → l.bitmap = 0 → s.WorkFails (.worklistDedupPush w) w x 0x74 s2) ∧
      (∀ ms s3, (∀ c ∈ cs, c < l.u) → l.bitmap ≠ 0 →
        let bs := nubBy (fun a b => a == b) (cs.map (fun c => c / 8))
        engMap (fun _ b s => s.gread (s.workAgent x) (BitVec.ofNat 64 (l.bitmap + b)) 1) 0 bs s2 = .ok ms s3 →
        ∀ byte : Nat → Nat, bs.map byte = ms.map leNat →
        let new := (nubBy (fun a b => a == b) cs).filter (fun c => !bit (byte (c / 8)) (c % 8))
        (2 ^ l.lcap < l.tail - l.head + new.length → s.WorkFails (.worklistDedupPush w) w x 0x73 s3) ∧
        (l.tail - l.head + new.length ≤ 2 ^ l.lcap → ∀ wr s4 ws s5, s3.appendList x l new = .ok wr s4 →
          engMap (fun _ b s => s.gput x (BitVec.ofNat 64 (l.bitmap + b))
              (leBytes 1 (new.foldl (fun a c => if c / 8 = b then a + 2 ^ (c % 8) else a) (byte b)))) 0
            (nubBy (fun a b => a == b) (new.map (fun c => c / 8))) s4 = .ok ws s5 →
          s.WorkPlaces (.worklistDedupPush w) w x s5 (joinWrites (wr :: ws)) new.length 0 0))) ∧
    (∀ l s1, pKind x.pkt = 0x15 → s.wlist x = .ok l s1 →
      let m := (pBody x.pkt 2).toNat
      let k := Nat.min m (l.tail - l.head)
      (64 < m → s.WorkFails (.worklistPop w) w x 0x77 s1) ∧
      (m ≤ 64 → ∀ es s2 wr s3 hw s4, engMap (fun _ i s => s.gread (s.workAgent x) (l.entry i) 8) 0 (upTo l.head k) s1 = .ok es s2 →
        s2.pput x (pBody x.pkt 1) es.flatten = .ok wr s3 → s3.gput x (pBody x.pkt 0 + 16) (leBytes 8 (l.head + k)) = .ok hw s4 →
        s.WorkPlaces (.worklistPop w) w x s4 (joinWrites [wr, hw]) k 0 0))

/-! ## Pooling, scatter-update, near-bank -/

/-- R285 to R289, R302, R305 to R307: pooling: the row service returns the exact partials of each bag and column and what else the record needs, or finds the card to fail (an entry point that
is not installed 0x70, and only then a list that the bags do not divide 0x77); the units take the rows' commands in order, as far as each has room, and once they have taken
all the card writes each partial's value, encoded once, and its record.
Choices of the model that it rests on: log entries 9, 16 and 31. -/
def Obligations.PoolingSumsRows : Prop :=
  ∀ (s : State) (w : Nat) (x : Work), s.Working w x → pKind x.pkt = 0x20 →
    let ep := pEp x.pkt
    let v (i : Nat) : Nat := x.pos.getD i 0
    (x.joined = false → ∀ t s1 l s2, s.eTable x = .ok t s1 → s1.eList x = .ok l s2 →
      let known := ep < 2 ∨ s2.stores.poolEps.contains ep = true
      let failed (cause : Nat) : Prop := ∃ u y, exec (.poolingRowService w) s = .next u ∧ mfind u.works w = some y ∧ y.joined = true ∧ y.cause = cause ∧
        y.stage = .taken
      (¬known → failed 0x70) ∧
      (known → l.n % (l.bags + 1) ≠ 0 → failed 0x77) ∧
      (∀ cause k va s3, known → l.n % (l.bags + 1) = 0 → s2.rowPlaces x t l [0] false = .fail cause k va s3 → failed cause) ∧
      (∀ hs s3, known → l.n % (l.bags + 1) = 0 → s2.rowPlaces x t l [0] false = .ok hs s3 →
        let rows := (rowsOf l hs).map (fun p => s3.rowBytesNow x.ctx t p.1 p.2)
        let es := (l.ents.zip rows).map (fun p => (if l.wt then some (decodeF fp32 p.1.2) else none, (rowValues t p.2.1).1))
        let per := l.n / (l.bags + 1)
        ∃ u y, exec (.poolingRowService w) s = .next u ∧ mfind u.works w = some y ∧ y.joined = true ∧ y.cause = 0 ∧ y.stage = .taken ∧ y.pkt = x.pkt ∧
          y.parts = (upTo 0 (l.bags + 1)).flatMap (fun b => (bagPartials t.d l.e ((es.drop (b * per)).take per)).1.map Wf.pack) ∧
          y.pos.take 5 = [l.n, l.bags, b2n l.fmt, t.d, (rows.filter (fun r => r.2)).length] ∧ y.rows = (s3.serveRows s3.cyc (poolUnits x s3)).2.2)) ∧
    (∀ u r, x.joined = true → x.rows = u :: r → s.unitFull u.1 = false →
      ∃ v y, exec (.poolingRowService w) s = .next v ∧ mfind v.works w = some y ∧ y.rows <:+ r ∧ y.parts = x.parts ∧ x.at_ ≤ y.at_ ∧ v.mem = s.mem) ∧
    (x.joined = true → x.rows = [] →
      let f := if v 2 = 1 then bf16 else fp32
      let rs := x.parts.map (fun p => poolOut ep (v 0 / (v 1 + 1)) f (wfUnpack p))
      (∀ wr s1, s.pput x (pBody x.pkt 2) (rs.flatMap (fun r => leBytes (f.width / 8) r.1)) = .ok wr s1 →
        s.WorkPlaces (.poolCard w) w x s1 wr (v 0) (rs.foldl (fun f r => f ||| r.2) (BitVec.ofNat 6 (v 5))) (v 4)) ∧
      (∀ cause k va s1, s.pput x (pBody x.pkt 2) (rs.flatMap (fun r => leBytes (f.width / 8) r.1)) = .fail cause k va s1 →
        s.WorkFails (.poolCard w) w x cause s1))

/-- The entry points of scatter-update (R309). -/
def supdRow (i : Instr) : Option (Nat × (Nat → Prop)) :=
  match i with
  | .supdSgd w => some (w, fun e => e = 0)
  | .supdMomentum w => some (w, fun e => e = 1)
  | .supdAdagrad w => some (w, fun e => e = 2)
  | .supdAdam w => some (w, fun e => e = 3)
  | .supdInstalled w => some (w, fun e => 4 ≤ e)
  | _ => none

/-- R308 to R310: a scatter-update card of an entry point that is not there fails with 0x70, one whose table lacks the state rows it needs or has another row
format with 0x75; else each distinct row, in the order of its first entry, takes the value its entry point gives it from its gradients, summed exactly and encoded once, its old weights and its state
row, and the card's row and state writes wait for its commit.
Choices of the model that it rests on: log entries 9, 16 and 31. -/
def Obligations.ScatterUpdatesTheirRows : Prop :=
  ∀ (s : State) (i : Instr) (w : Nat) (eps : Nat → Prop) (x : Work), supdRow i = some (w, eps) → s.Working w x → pKind x.pkt = 0x30 → eps (pEp x.pkt) →
    let ep := pEp x.pkt
    (∀ cause k va s1, s.eTable x = .fail cause k va s1 → s.WorkFails i w x cause s1) ∧
    ∀ t s1 l s2, s.eTable x = .ok t s1 → s1.eList x = .ok l s2 →
      let known := ep < 4 ∨ s2.stores.updEps.contains ep = true
      let state := if ep = 0 ∨ 4 ≤ ep then 0 else if ep = 1 then 4 * t.d else if ep = 2 then 4 else 4 * t.d + 4
      let fits := t.rf < 2 ∧ (ep = 0 ∨ t.sbase ≠ 0) ∧ state ≤ t.sstride
      (¬known → s.WorkFails i w x 0x70 s2) ∧
      (known → ¬fits → s.WorkFails i w x 0x75 s2) ∧
      (∀ hs s3 gb s4, known → fits → s2.rowPlaces x t l [0, 1] false = .ok hs s3 →
        let gw := if l.fmt then 2 else 4
        s3.pread x (pBody x.pkt 2) (l.n * t.d * gw) = .ok gb s4 →
        let grads := (pieces (t.d * gw) gb).map (fun b => (elemsOf (8 * gw) t.d b).map (decodeF (if l.fmt then bf16 else fp32)))
        let rows := nubBy (fun a b => a.1 == b.1) (rowsOf l hs)
        ∀ rs s5 r s6, engMap (fun _ p s => s.updateRow x t l grads p.1 p.2) 0 rows s4 = .ok rs s5 →
          s5.recordPut x (recordBytes rows.length (rs.foldl (fun f r => f ||| r.2.2) 0) 0 0) = .ok r s6 →
          s.WorkEnds i w x 0 ((joinWrites (rs.map (fun r => r.2.1))).1 ++ r.1) ((joinWrites (rs.map (fun r => r.2.1))).2 ++ r.2) ∧
          ∃ u y, exec i s = .next u ∧ mfind u.works w = some y ∧ y.frames = rs.map (fun r => r.1)) ∧
      (∀ ws gs, ep = 0 → (updateStep ep t fp32 ws gs []).1 =
        (ws.zip gs).map (fun p => (stepSub fp32 (decodeF fp32 p.1) (decodeF fp32 (t.h.getD 0 0).toNat) (decodeF fp32 p.2)).v))

/-- The entry points of the near-bank units (R319, R326), with what each does to its operand. -/
def nearRow (i : Instr) (ep : Nat) : Option (Nat × Bool × (NbJob → State → NbOut)) :=
  match i with
  | .nearBankMatvec w => some (w, ep == 0, nbMatvec)
  | .nearBankColsum w => some (w, ep == 1, nbColsum)
  | .nearBankFill w => some (w, ep == 2, nbFill)
  | .nearBankStripe w => some (w, ep == 3, nbStripe)
  | .nearBankMicroprogram w => some (w, decide (4 ≤ ep), nbMicro ep)
  | _ => none

/-- R312 to R322: the front end dispatches a near-bank command whose descriptor and operand pass, to a unit with room, with its input, scales and extent, and logs a rejected
operand; the unit acts on the operand, a fixed entry point once the places of its record and output have been found, and is busy for its unit cycles; the command then ends
with its output, count and flags, or with its failure, whose record stands where its place is valid. Whole modules of near-bank words load, while the management core manages the dies,
only when no unit holds a command, and only from an image that is verified.
Choices of the model that it rests on: log entries 4, 10 and 32. -/
def Claims.NearBankCommandsRun : Prop :=
  ∀ (s : State) (i : Instr) (w : Nat) (x : Work) (f : NbJob → State → NbOut) (words : List (BitVec 192)) (entries : List (BitVec 16)),
    (s.Working w x → pKind x.pkt = 0x40 →
      (∀ j t, nbDispatch x s = .ok (.ok j) t → t.unitFull (nearUnit j.pa) = false → (∀ y ∈ t.works, y.2.nbUndone = false) →
        ∃ u y, exec (.nearBankDispatch w) s = .next u ∧ mfind u.works w = some y ∧ y.stage = .dispatched ∧ y.at_ = t.cyc ∧ y.pkt = x.pkt ∧
          mfind y.frames 1 = some j.input ∧ mfind y.frames 2 = some j.scales ∧ y.nbUndone = true ∧
          y.ext = some (j.pa, j.call.extent, t.entryWrites (pEp x.pkt))) ∧
      (∀ r pa va t, nbDispatch x s = .ok (.error (r, pa, va)) t →
        let d := dieOf (t.workAgent x).core
        ∃ u, exec (.nearBankDispatch w) s = .next u ∧ (u.die d).rlogN = (t.die d).rlogN + 1 ∧ ∃ e, mfind (u.die d).rlog ((t.die d).rlogN % 64) = some e ∧
          e.reason = r ∧ e.va = BitVec.ofNat 64 va ∧ e.ctx = x.ctx)) ∧
    (nearRow i (pEp x.pkt) = some (w, true, f) → x.wait = .go → mfind s.works w = some x → pKind x.pkt = 0x40 → x.stage = .dispatched → x.at_ ≤ s.cyc → ∀ j, x.nbJob = some j →
      (x.cause = 0 → x.nbUndone = true → ∀ t, ((4 ≤ pEp x.pkt ∧ t = s) ∨ (pEp x.pkt < 4 ∧ ∃ p, s.nbPlaces x j = .ok p t)) →
        let o := f j t
        let free := (o.st.unitHeld (nearUnit j.pa)).foldl Nat.max o.st.cyc
        ∃ u y, exec i s = .next u ∧ u.mem = o.st.mem ∧ mfind u.works w = some y ∧ y.at_ = free + 4 * o.ucy ∧ y.stage = .dispatched ∧
          y.frames = x.frames ++ [(4, o.out), (5, leBytes 8 o.count), (6, leBytes 8 o.flags.toNat), (7, leBytes 8 o.cause)]) ∧
      (x.cause = 0 → x.nbUndone = false → leNat (mget [] x.frames 7) = 0 → ∀ r s1 o s2, s.recordPut x (List.replicate 16 0) = .ok r s1 →
        s1.pput x (pBody x.pkt 2) (List.replicate j.call.outlen 0) = .ok o s2 →
        let rec_ := rebyte r (recordBytes (leNat (mget [] x.frames 5)) (BitVec.ofNat 6 (leNat (mget [] x.frames 6))) 0 0)
        let out := rebyte o (mget [] x.frames 4)
        s.WorkEnds i w x 0 (out.1 ++ rec_.1) (out.2 ++ rec_.2)) ∧
      (∀ cause r s1, cause ≠ 0 → (x.cause = cause ∨ (x.cause = 0 ∧ x.nbUndone = false ∧ leNat (mget [] x.frames 7) = cause)) →
        s.recordPut x (recordBytes 0 0 cause 0) = .ok r s1 → s.WorkEnds i w x cause r.1 r.2)) ∧
    (s.managed = false → exec (.controlStoreLoad words entries) s = .next s) ∧
    ((∀ y ∈ s.works, y.2.stage ≠ .dispatched) → (∀ p ∈ s.nbHeld, ∀ e ∈ p.2, e ≤ s.cyc) → Config.storeVerified words entries = false →
      exec (.controlStoreLoad words entries) s = .next s) ∧
    (s.managed = true → (∀ y ∈ s.works, y.2.stage ≠ .dispatched) → (∀ p ∈ s.nbHeld, ∀ e ∈ p.2, e ≤ s.cyc) → Config.storeVerified words entries = true →
      (words.length ≤ 256 → entries.length ≤ 252 → (∀ x ∈ words, microLegal x = true) → (∀ e ∈ entries, e.toNat / 2 ^ 9 % 64 = 0) →
        ∃ u, exec (.controlStoreLoad words entries) s = .next u ∧ (∀ k, mget 0 u.stores.words k = words.getD k 0) ∧
          (∀ k, mget 0 u.stores.entries (4 + k) = entries.getD k 0) ∧ u.mem = s.mem) ∧
      ((∃ x ∈ words, microLegal x = false) → ∃ u, exec (.controlStoreLoad words entries) s = .next u ∧ u.stores = s.stores ∧
        ∃ r, (u.die 0).trapWait = (s.die 0).trapWait ++ [r] ∧ r.cause = 0x7B ∧ r.cls = 2))

/-- R313, R319: what the fixed entry points compute: matvec gives each column the sum of the products of the input and the column's elements, taken modulo 2³² when
neither saturation nor scales are asked for; fill writes the 8 bytes of its argument over the rows' elements; stripe writes its input's rows into the stripes of 256 bytes, with zeros behind
them. Each takes 32 unit cycles and 8 for each stripe.
Choices of the model that it rests on: log entry 32. -/
def Claims.NearBankEntryPointsCompute : Prop :=
  ∀ (j : NbJob) (s : State),
    let c := j.call
    let ucy := 32 + 8 * c.r * c.u
    let col (i : Nat) : Int := (((j.input.map (fun b => sgn 8 b.toNat)).zip (upTo 0 c.r)).map (fun p => p.1 * sgn (matWidth c.fmt) ((j.row s p.2).getD i 0))).foldl (fun a b => a + b) 0
    (c.isat = false → c.ofmt = false → (nbMatvec j s).out = (upTo 0 c.c).flatMap (fun i => leBytes 4 (BitVec.ofInt 32 (col i)).toNat)) ∧
    (nbMatvec j s).count = c.c ∧ (nbMatvec j s).ucy = ucy ∧ (nbMatvec j s).st = s ∧
    (nbColsum j s).count = c.c ∧ (nbColsum j s).ucy = ucy ∧ (nbColsum j s).st = s ∧
    (∀ u k m, u < c.u → k < c.r → m < 256 → 256 * u + m < c.rowLen →
      (nbFill j s).st.homeByte (j.stripe u k + m) = (leBytes 8 c.arg0).getD (m % 8) 0) ∧
    (∀ a, (∀ u k, u < c.u → k < c.r → a < j.stripe u k ∨ j.stripe u k + 256 ≤ a) → (nbFill j s).st.homeByte a = s.homeByte a ∧ (nbStripe j s).st.homeByte a = s.homeByte a) ∧
    (nbFill j s).count = c.r * c.rowLen ∧ (nbFill j s).ucy = ucy ∧
    (j.input.length = c.r * c.rowLen → ∀ u k m, u < c.u → k < c.r → m < 256 → c.rowLen ≤ 256 * c.u →
      (nbStripe j s).st.homeByte (j.stripe u k + m) = if 256 * u + m < c.rowLen then j.input.getD (k * c.rowLen + 256 * u + m) 0 else 0) ∧
    (nbStripe j s).count = c.r * c.rowLen ∧ (nbStripe j s).ucy = ucy

/-! ## The exchange engine and the journal -/

/-- R400 to R404: a packet for pooling over shards keeps its map and list and asks the owners of other modules' shards for their tables; once all partials are there and none reports a failure it writes what they
merge to, a value a bag and column. A packet for a collective contributes its values to the other members of the group; once theirs are there, and alike, it writes each sum, encoded once; where one has not come within
a millisecond of the first, or a member has left before it contributed, the collective fails with 0xA3.
Choices of the model that it rests on: log entries 4 and 52. -/
def Obligations.ExchangePoolsAndReduces : Prop :=
  ∀ (s : State) (w : Nat) (x : Work), s.Working w x →
    (pKind x.pkt = 0x50 →
      (∀ mb s1 lb s2, x.pos = [] → s.shardBytes x = .ok mb s1 → s1.listBytes x = .ok lb s2 →
        ∃ u y, exec (.exchangePool w) s = .next u ∧ mfind u.works w = some y ∧ y.frames = [(0, mb), (1, lb)] ∧ y.pos = [1] ∧ y.stage = .taken ∧
          ∀ h ∈ s2.shards y, h.2.owner ≠ s2.dom.modid → .tableAsk h.2.owner x.q x.idx h.1 x.ctx h.2.desc ∈ u.outbox) ∧
      (∀ d own s1 wr s2, x.pos = [2, d] → (∀ k ∈ s.farShards x, ∃ a ∈ s.partialsFor x, a.1 = k) → (∀ a ∈ s.partialsFor x, a.2.2.2.1 = 0) →
        s.ownParts x = .ok own s1 →
        let l := x.keptList
        let nv := own.any (fun p => p.2) || (s.partialsFor x).any (fun a => a.2.2.1)
        let merged := (own.map (fun p => p.1) ++ (s.partialsFor x).map (fun a => a.2.1.map wfUnpack)).foldl
          (fun acc ps => (acc.zip ps).map (fun p => wfMerge p.1 p.2)) (List.replicate ((l.bags + 1) * d) (wfZero l.e))
        let f := if l.fmt then bf16 else fp32
        let rs := merged.map (poolOut (pEp x.pkt) (l.n / (l.bags + 1)) f)
        s1.pput x (pBody x.pkt 2) (rs.flatMap (fun r => leBytes (f.width / 8) r.1)) = .ok wr s2 →
        s.WorkPlaces (.exchangePool w) w x s2 wr l.n (rs.foldl (fun f r => f ||| r.2) (nvIf nv)) 0)) ∧
    (pKind x.pkt = 0x51 → s.redBehind w x = false →
      (x.pos = [] → (bit s.dom.dgrp.toNat 0 = false ∨ s.firstContrib x + oneMs ≤ s.cyc) →
        ∃ u y, exec (.exchangeReduce w) s = .next u ∧ mfind u.works w = some y ∧ y.cause = 0xA3 ∧ y.stage = .taken) ∧
      (∀ c s1, x.pos = [] → bit s.dom.dgrp.toNat 0 = true → s.cyc < s.firstContrib x + oneMs → s.redSource x = .ok c s1 →
        ∃ u y, exec (.exchangeReduce w) s = .next u ∧ mfind u.works w = some y ∧ y.frames = c.keep ∧ y.pos = 1 :: (s1.otherRanks ++ s1.departed x.ctx) ∧ y.since = s1.cyc ∧
          y.cause = (if s1.dom.doomed.contains (x.ctx, 0) then 0xA3 else 0) ∧
          ∀ r ∈ s1.otherRanks, .contribute r x.ctx c.num c.n c.e c.fmt c.vals s1.sgen ∈ u.outbox) ∧
      (∀ aw ds, x.pos = 1 :: aw → aw.map (fun r => s.contrib x.ctx r) = ds.map some → (∀ d ∈ ds, d.unlike x.contrib = false) →
        let c := x.contrib
        let f := if c.fmt = 1 then bf16 else fp32
        let rs := (upTo 0 c.n).map (fun j =>
          wfOut ((c :: ds).foldl (fun p d => wfMerge p (wfIn (decodeF f (d.vals.getD j 0).toNat) c.e)) (wfZero c.e)) f)
        c.unlike c = false → ∀ wr s1, s.pput x (pBody x.pkt 2) (rs.flatMap (fun r => leBytes (f.width / 8) r.1)) = .ok wr s1 →
        ∃ n, s.WorkPlaces (.exchangeReduce w) w x { s1 with draws := s1.draws + 1 } wr n (rs.foldl (fun f r => f ||| r.2) 0) 0) ∧
      (∀ aw, x.pos = 1 :: aw → (∃ r ∈ aw, s.contrib x.ctx r = none) → s.firstContrib x + oneMs ≤ s.cyc →
        exec (.collectiveTimeout w) s = .next (s.setWork w { x with cause := 0xA3 })))

/-- R410, R411, R412: an appended record holds the given bits, the index, the stamp and the context, with a right CRC, and waits for the engine; the engine takes the oldest one, which then
stands in the ring's memory and is sent to the partner, unless that is lost; a packet of kind 0x60 appends its record and is done once the partner holds it.
Choices of the model that it rests on: log entry 53. -/
def Claims.RecordsAreAppended : Prop :=
  ∀ (s : State) (core ctx v w : Nat) (x : Work),
    (ctx < 1024 →
      let j := s.jrnl
      let r := (s.append core ctx v).1
      let t := (s.append core ctx v).2
      rJidx r = j.jidx % 2 ^ 64 ∧ rStamp r = s.sgen % 2 ^ 32 ∧ rCtx r = ctx ∧ crcGood r = true ∧ rf r 0 832 = v % 2 ^ 832 ∧
      t.jrnl.jidx = j.jidx + 1 ∧ t.jrnl.ring = j.ring ++ [(j.jidx, r)] ∧
      (∃ q, t.jrnl.queue = j.queue ++ [q] ∧ q.ix = j.jidx ∧ q.bits = r ∧ q.core = core ∧ s.cyc ≤ q.at_) ∧ t.mem = s.mem ∧ t.outbox = s.outbox) ∧
    (∀ q qs, s.jrnl.queue = q :: qs → s.jrnl.en = true → s.plat.thermal = false → q.at_ ≤ s.cyc →
      let j := s.jrnl
      let pa := j.jring.toNat + 128 * (q.ix % 2 ^ j.lsize)
      s.extentBlocked pa 128 true = false →
      ∃ t, s.takeRecord = some t ∧ t.homeBytes pa 128 = leBytes 128 q.bits.toNat ∧ (∀ a, a < pa ∨ pa + 128 ≤ a → t.homeByte a = s.homeByte a) ∧
        t.jrnl.queue = qs ∧ t.jrnl.ring = j.ring ∧
        (j.lost = false → t.outbox = s.outbox ++ [.journal j.partner q.bits]) ∧ (j.lost = true → t.outbox = s.outbox)) ∧
    (s.Working w x → pKind x.pkt = 0x60 → x.ctx < 1024 →
      (∀ bs s1, x.pos = [] → s.jrnl.full = false → s.pread x (pBody x.pkt 0) 128 = .ok bs s1 →
        ∃ u, exec (.journalAppendPacket w) s = .next u ∧ mfind u.works w = some { x with pos := [1, s.jrnl.jidx % 2 ^ 64] } ∧ u.jrnl.jidx = s.jrnl.jidx + 1) ∧
      (∀ k, x.pos = [1, k] → k < s.jrnl.acked → s.WorkEnds (.journalAppendPacket w) w x 0 [] []))

/-- R72, R413, R414, R415, R418, R420, R421: the instructions of the journal. A draw outside an open step gives the mixture of its key and counter; in one it is counted, and must be that of the staging record, else cause 0xB2; in
replay it gives the record's. `jrnl.seq` opens a step, `.gen`, `.tok` and `.rt` stage, or give what was recorded, `.app` appends the record, or checks it against the recorded one, else cause 0xB0,
and `.ckpt` releases at domain scope and appends a checkpoint record; both wait while the ring is full, or the engine has not taken 64 records of the core. Forms that need an open step
raise 0x0B without one, and wait while it is loaded.
Choices of the model that it rests on: log entry 53. -/
def Claims.JournalInstructionsStageAndDraw : Prop :=
  ∀ (s : State) (f : MgtF),
    let g := s.me.im.stg
    let stage (h : Staging → Staging) : State := s.modIm s.cur.core (fun im => { im with stg := h im.stg })
    let raises (i : Instr) (cause : Nat) : Prop := ∃ info : TrapInfo, info.cause = cause ∧ info.status = 0 ∧ exec i s = .next (s.trapHere info)
    let stuck := s.jrnl.full = true ∨ s.jrnl.crowded s.cur.core = true
    let a := s.rd f.a
    let b := s.rd f.b
    let drawn (s : State) (z ctr : Word) : State :=
      let hi := z.toNat / 2 ^ 32
      let v : Word := if f.var.toNat % 4 = 0 then z else if f.var.toNat % 4 = 1 then BitVec.ofNat 64 hi
        else BitVec.ofNat 64 (hi * ((s.rd f.c).toNat % 2 ^ 32) / 2 ^ 32)
      if f.var.getLsbD 3 ∧ f.b ≠ f.d then (s.wr 4 f.d v).wr 4 f.b (ctr + 1) else s.wr 4 f.d v
    let counted := stage (fun g => { g with ndraw := g.ndraw + 1 })
    (s.Ready ([f.a, f.b] ++ (if f.var.toNat % 4 = 2 then [f.c] else [])) →
      (g.opened = false → s.Issues (.gdraw f) (drawn s (sorrel a b) b)) ∧
      (g.opened = true → g.loading s.cyc = true → s.Waits (.gdraw f) 0xA 0) ∧
      (g.opened = true → g.loading s.cyc = false → g.replay = false → a = g.key → b = g.ctr + BitVec.ofNat 64 g.ndraw →
        s.Issues (.gdraw f) (drawn counted (sorrel a b) b)) ∧
      (g.opened = true → g.loading s.cyc = false → g.replay = false → ¬(a = g.key ∧ b = g.ctr + BitVec.ofNat 64 g.ndraw) → raises (.gdraw f) 0xB2) ∧
      (g.opened = true → g.loading s.cyc = false → g.replay = true →
        let ctr := BitVec.ofNat 64 (rCtr g.jrec) + BitVec.ofNat 64 g.ndraw
        s.Issues (.gdraw f) (drawn counted (sorrel (BitVec.ofNat 64 (rKey g.jrec)) ctr) ctr))) ∧
    (s.Ready [f.a, f.b] →
      (2 ^ 32 ≤ a.toNat ∨ 2 ^ 32 ≤ b.toNat → s.Traps (.jrnlSeq f) 0xB 0) ∧
      (a.toNat < 2 ^ 32 → b.toNat < 2 ^ 32 →
        let fresh : Staging := { Staging.init with opened := true, seqn := BitVec.ofNat 32 a.toNat, step := BitVec.ofNat 32 b.toNat, unemitted := g.unemitted,
                                                   lastRec := g.lastRec, lastRep := g.lastRep }
        (s.replaying s.me.ctx = false → s.Issues (.jrnlSeq f) (stage (fun _ => fresh))) ∧
        (s.replaying s.me.ctx = true → s.me.timed = true → s.Waits (.jrnlSeq f) 0xA 0) ∧
        (s.replaying s.me.ctx = true → s.me.timed = false → ∃ t, s.Issues (.jrnlSeq f) t ∧ s.cyc + 1 ≤ t.me.im.stg.loadAt ∧
          t.me.im.stg.replay = (s.jrnl.stored s.me.ctx a.toNat b.toNat).isSome ∧
          ∀ r, s.jrnl.stored s.me.ctx a.toNat b.toNat = some r → t.me.im.stg.jrec = r))) ∧
    (s.Ready [f.a, f.b] →
      (g.opened = false → s.Traps (.jrnlGen f) 0xB 0) ∧
      (g.opened = true → g.loading s.cyc = true → s.Waits (.jrnlGen f) 0xA 0) ∧
      (g.opened = true → g.loading s.cyc = false → s.Issues (.jrnlGen f) (if g.replay then s else stage (fun g => { g with key := a, ctr := b })))) ∧
    (s.Ready [f.a] →
      let n := f.idx.toNat
      (g.opened = false → s.Traps (.jrnlTok f) 0xB 0 ∧ s.Traps (.jrnlRt f) 0xB 0 ∧ s.Traps (.jrnlApp f) 0xB 0) ∧
      (8 ≤ n → s.Traps (.jrnlRt f) 0xB 0) ∧
      (g.opened = true → g.loading s.cyc = true → s.Waits (.jrnlTok f) 0xA 0 ∧ s.Waits (.jrnlApp f) 0xA 0 ∧ (n < 8 → s.Waits (.jrnlRt f) 0xA 0)) ∧
      (g.opened = true → g.loading s.cyc = false → g.replay = false →
        s.Issues (.jrnlTok f) ((stage (fun g => { g with token := a.setWidth 32 })).wr 1 f.d ((a.setWidth 32).setWidth 64)) ∧
        (n < 8 → s.Issues (.jrnlRt f) ((stage (fun g => { g with rt := mset g.rt n a, nrt := Nat.max g.nrt (n + 1) })).wr 1 f.d a)) ∧
        (stuck → s.Waits (.jrnlApp f) 0xA 0) ∧
        (¬stuck → ∃ t, s.Issues (.jrnlApp f) t ∧ t.jrnl = (s.append s.cur.core s.me.ctx ({ g with digest := a }).bits).2.jrnl ∧ t.me.im.stg.opened = false ∧
          t.me.im.stg.unemitted = true ∧ t.me.im.stg.lastRec = (s.append s.cur.core s.me.ctx ({ g with digest := a }).bits).1)) ∧
      (g.opened = true → g.loading s.cyc = false → g.replay = true →
        s.Issues (.jrnlTok f) (s.wr 1 f.d (BitVec.ofNat 64 (rToken g.jrec))) ∧
        (n < 8 → s.Issues (.jrnlRt f) (s.wr 1 f.d (BitVec.ofNat 64 (rRt g.jrec n)))) ∧
        (a.toNat ≠ rDigest g.jrec ∨ g.ndraw % 2 ^ 16 ≠ rNdraw g.jrec → raises (.jrnlApp f) 0xB0) ∧
        (a.toNat = rDigest g.jrec → g.ndraw % 2 ^ 16 = rNdraw g.jrec →
          s.Issues (.jrnlApp f) (stage (fun g => { g with opened := false, unemitted := true, lastRec := g.jrec, lastRep := true }))))) ∧
    (s.Ready [f.a, f.b, f.c] →
      let fresh := a.toNat < 2 ^ 32 ∧ b.toNat < 2 ^ 32 ∧ ∀ y, s.jrnl.lastCkpt s.me.ctx a.toNat = some y → y < b.toNat
      (s.me.timed = true → s.Waits (.jrnlCkpt f) 0xA 0) ∧
      (s.me.timed = false → ¬fresh → s.Traps (.jrnlCkpt f) 0xB 0) ∧
      (s.me.timed = false → fresh → (stuck ∨ s.ordered s.cur.core = false) → s.Waits (.jrnlCkpt f) 0xA 0) ∧
      (s.me.timed = false → fresh → ¬stuck → s.ordered s.cur.core = true → ∃ t at_, s.Issues (.jrnlCkpt f) t ∧ s.cyc ≤ at_ ∧ t.me.ms.hold = some (.boundary (some 4) none at_) ∧
        ∃ r, t.jrnl.ring = s.jrnl.ring ++ [(s.jrnl.jidx, r)] ∧ rKind r = 1 ∧ rSeq r = a.toNat ∧ rStep r = b.toNat ∧ rKey r = (s.rd f.c).toNat))

/-- R416, R417, R426: `emit` queues an emission, which waits for the partner to hold its record; the oldest emission of a core is then written at its home and releases its
semaphore; `jrnl.rep` sends its digest to the replica, and equal digests of the two release the semaphore.
Choices of the model that it rests on: log entries 53 and 54. -/
def Obligations.EmissionsAndReplicaDigests : Prop :=
  ∀ (s : State) (f : MgtF) (c step : Nat) (digest : Word) (e : Emission) (s1 : State) (ps : List KPiece),
    let va := s.rd f.a
    let g := s.me.im.stg
    let room := s.jrnl.en = true ∧ s.jrnl.outstanding s.cur.core < 16
    (s.Ready [f.a] →
      (g.unemitted = false → s.Traps (.emit f) 0xB 0) ∧
      (g.unemitted = true → va.toNat % 32 ≠ 0 → s.Traps (.emit f) 0x40 0) ∧
      (g.unemitted = true → va.toNat % 32 = 0 → ¬room → s.Waits (.emit f) 0xA 0) ∧
      (g.unemitted = true → va.toNat % 32 = 0 → room → s.Reaches 1 va 32 s1 ps →
        ∃ t e, s.Issues (.emit f) t ∧ t.jrnl.emissions = s1.jrnl.emissions ++ [e] ∧ e.va = va ∧ e.pa = (ps.map (fun p => p.pa)).headD 0 ∧
          e.bits = g.lastRec ∧ e.sem = f.idx.toNat ∧ e.core = s.cur.core ∧ e.sent = false ∧ t.me.im.stg.unemitted = false)) ∧
    (c < 128 → s.jrnl.emissions.find? (fun e => decide (e.core = c)) = some e → e.sent = false → s.jrnl.retracted.contains (e.ctx, rSeq e.bits) = false →
      s.jrnl.en = true → s.jrnl.lost = false → s.plat.thermal = false → (e.waits = true → rJidx e.bits < s.jrnl.acked) → s.paKind e.pa = .home → s.extentBlocked e.pa 32 true = false →
      ∃ u, exec (.emissionPerform c) s = .next u ∧ u.homeBytes e.pa 32 = s.emissionBytes e.bits ∧ (∀ a, a < e.pa ∨ e.pa + 32 ≤ a → u.homeByte a = s.homeByte a) ∧
        u.jrnl.emissions = s.jrnl.emissions.erase e ∧
        ((s.core c).bound = true → (s.core c).ctx = e.ctx → (s.core c).leaving = false →
          mget 0 (u.core c).im.sems e.sem = Nat.min 65535 (mget 0 (s.core c).im.sems e.sem + 1))) ∧
    (s.Ready [f.a, f.b] →
      let peer := s.jrnl.peerReps.find? (fun p => decide (p.1 = s.me.ctx) && decide (p.2.1 = (s.rd f.b).toNat))
      (¬room → s.Waits (.jrnlRep f) 0xA 0) ∧
      (room → peer = none → ∃ t r, s.Issues (.jrnlRep f) t ∧ t.jrnl.reps = s.jrnl.reps ++ [r] ∧ r.core = s.cur.core ∧ r.ctx = s.me.ctx ∧
        r.step = (s.rd f.b).toNat ∧ r.digest = va ∧ r.sem = f.idx.toNat ∧
        (s.jrnl.replica ≠ 0xFFFF → t.outbox = s.outbox ++ [.replica s.jrnl.replica s.me.ctx (s.rd f.b).toNat va])) ∧
      (∀ p, room → peer = some p → p.2.2 = va → s.me.bound = true → s.me.leaving = false →
        ∃ t, s.Issues (.jrnlRep f) t ∧ t.jrnl.peerReps = s.jrnl.peerReps.erase p ∧ t.jrnl.reps = s.jrnl.reps ∧
          mget 0 t.me.im.sems f.idx.toNat = Nat.min 65535 (mget 0 s.me.im.sems f.idx.toNat + 1))) ∧
    (s.plat.thermal = false →
      (s.jrnl.reps.find? (fun r => decide (r.ctx = c) && decide (r.step = step)) = none →
        ∃ u, exec (.replicaDigestArrival c step digest) s = .next u ∧ u.jrnl.peerReps = s.jrnl.peerReps ++ [(c, step, digest)] ∧ u.mem = s.mem) ∧
      (∀ r, s.jrnl.reps.find? (fun r => decide (r.ctx = c) && decide (r.step = step)) = some r →
        ∃ u, exec (.replicaDigestArrival c step digest) s = .next u ∧ u.jrnl.reps = s.jrnl.reps.erase r ∧
          (r.digest ≠ digest → ∃ n, (r.ctx, r.step, n + 1) ∈ u.jrnl.disputes)))

/-- R410, R411, R417 to R419, R422, R425, R427: the other side of the journal: as partner the module keeps and acknowledges a record whose CRC is right, up to the first that it lacks, and cuts its store by the checkpoints that it has acknowledged; an acknowledgment of the partner lets the ring be
truncated, and one that brings nothing new has a record sent again; a partner that does not acknowledge for 256 µs, or leaves the domain, is lost, and a new one is sent what the engine has taken of the ring; JCTL is written while the engine is off; a replay store puts a context in replay; a suspect sequence is confirmed or
retracted, which the hosts and the other modules of the domain are told; a dispute of replicas is resolved by the scans, or by a third module.
Choices of the model that it rests on: log entries 45 (the 0xB6 of a tie counts in the log of die 0), 53 and 54. -/
def Obligations.JournalPartnersAndDisputes : Prop :=
  ∀ (s : State) (src upto m ctx q gen : Nat) (r : BitVec 1024) (jctl jring : Word) (recs : List (BitVec 1024)) (diverge : Option Nat)
    (failHere failPeer minority tie : Bool),
    let j := s.jrnl
    let others := (nubBy (fun a b => a == b) s.dom.members).filter (fun r => decide (r ≠ s.dom.modid))
    (s.inDomain = true →
      (crcGood r = true → ∃ u ack, exec (.journalRecordReceive src r) s = .next u ∧ u.outbox = s.outbox ++ [.journalAck src ack] ∧
        (mfind j.keptPos src = none → ack = rJidx r + 1) ∧
        (∀ n, mfind j.keptPos src = some { next := some n, ahead := [] } →
          (rJidx r = n → ack = n + 1 ∧ mfind u.jrnl.keptPos src = some { next := some (n + 1), ahead := [] }) ∧
          (n < rJidx r → ack = n ∧ mfind u.jrnl.keptPos src = some { next := some n, ahead := [rJidx r] })) ∧
        (∀ x ∈ mget [] u.jrnl.kept src, x = r ∨ x ∈ mget [] j.kept src) ∧
        ∀ x, (x = r ∨ (x ∈ mget [] j.kept src ∧ rJidx x ≠ rJidx r)) → x ∈ mget [] u.jrnl.kept src ∨
          ∃ c, (c = r ∨ c ∈ mget [] j.kept src) ∧ rKind c = 1 ∧ rJidx c < ack ∧ rCtx c = rCtx x ∧ rSeq c = rSeq x ∧ (rKey c = 0 ∨ rStep x < rStep c)) ∧
      (crcGood r = false → ∀ p, mfind j.keptPos src = some p →
        exec (.journalRecordReceive src r) s = .next (s.send (.journalAck src (p.next.getD 0))))) ∧
    (src ≠ j.partner → exec (.journalAckReceive ⟨src, upto⟩) s = .next s) ∧
    (src = j.partner → j.lost = false → s.plat.thermal = false → upto ≤ j.acked → ∃ u, exec (.journalAckReceive ⟨src, upto⟩) s = .next u ∧ u.jrnl = j ∧
      (u.outbox = s.outbox ∨ ∃ x ∈ j.ring, j.acked ≤ x.1 ∧ x.1 < j.taken ∧ u.outbox = s.outbox ++ [.journal j.partner x.2])) ∧
    (src = j.partner → j.lost = false → s.plat.thermal = false → j.acked < upto →
      ∃ u, exec (.journalAckReceive ⟨src, upto⟩) s = .next u ∧ u.jrnl.acked = Nat.min upto j.taken ∧
        (∀ x ∈ u.jrnl.ring, x ∈ j.ring) ∧
        (∀ x ∈ j.ring, x ∉ u.jrnl.ring → ∃ c ∈ j.ring, rKind c.2 = 1 ∧ rCtx c.2 = rCtx x.2 ∧ rSeq c.2 = rSeq x.2 ∧ (rKey c.2 = 0 ∨ rStep x.2 < rStep c.2))) ∧
    (j.en = true → j.lost = false → s.plat.thermal = false →
      ((j.acked < j.taken ∧ j.ackAt + 768000 ≤ s.cyc) ∨ (s.dom.members ≠ [] ∧ j.partner ∉ s.dom.members)) →
      ∃ u, exec .partnerLost s = .next u ∧ u.jrnl = { j with lost := true } ∧ (u.die 0).elogN = (s.die 0).elogN + 1 ∧ (u.die 1).elogN = (s.die 1).elogN + 1) ∧
    (j.lost = true → m < 2 ^ 16 → s.plat.thermal = false → ∃ u, exec (.partnerReassign m) s = .next u ∧ u.jrnl.lost = false ∧ u.jrnl.partner = m ∧ u.jrnl.ackAt = s.cyc ∧
      u.outbox = s.outbox ++ (j.ring.filter (fun x => decide (x.1 < j.taken))).map (fun x => .journal m x.2) ∧ u.jrnl.ring = j.ring) ∧
    (let v : Word := jctl &&& 0xFFFFFFFFFF000001
     let lsize := v.toNat / 2 ^ 24 % 256
     let legal := 10 ≤ lsize ∧ lsize ≤ 24 ∧ jring.toNat % 4096 = 0 ∧ jring.toNat + 128 * 2 ^ lsize ≤ 0x6000000000
     s.firmware = true → j.en = false → (v.getLsbD 0 = true → legal) →
       ∃ u, exec (.jctlWrite jctl jring) s = .next u ∧ u.jrnl = { j with jctl := v, jring := jring, ackAt := s.cyc }) ∧
    (ctx < 1024 → s.managed = true → ∃ u, exec (.replayStoreInstall ctx recs) s = .next u ∧ mfind u.jrnl.stores ctx = (if recs = [] then none else some recs) ∧
      ∀ d, d ≠ ctx → mfind u.jrnl.stores d = mfind j.stores d) ∧
    ((∃ x ∈ j.ring, rCtx x.2 = ctx ∧ rSeq x.2 = q ∧ rKind x.2 = 0 ∧ gen - 1 ≤ rStamp x.2) →
      (diverge = none → ∃ u, exec (.scanFailureReplay ctx q gen diverge) s = .next u ∧
        u.outbox = s.outbox ++ [.confirmNotice none s.dom.modid q gen, .hostEvent 0, .hostEvent 1] ++
          others.map (fun d => .confirmNotice (some d) s.dom.modid q gen) ∧ u.jrnl = j) ∧
      (∀ st, diverge = some st → ∃ u, exec (.scanFailureReplay ctx q gen diverge) s = .next u ∧
        u.outbox = s.outbox ++ [.retractNotice none s.dom.modid q st, .hostEvent 0, .hostEvent 1] ++
          others.map (fun d => .retractNotice (some d) s.dom.modid q st) ∧ (ctx, q) ∈ u.jrnl.retracted ∧
        ∀ x, x ∈ u.jrnl.ring ↔ x ∈ j.ring ∧ ¬(rCtx x.2 = ctx ∧ rSeq x.2 = q ∧ st ≤ rStep x.2))) ∧
    (∀ st x, x ∈ mget [] (j.retractKept src q st).kept src ↔ x ∈ mget [] j.kept src ∧ ¬(rSeq x = q ∧ st ≤ rStep x)) ∧
    (∀ d, j.disputes.find? (fun d => decide (d.1 = ctx)) = some d →
      ∃ u, exec (.replicaResolution ctx failHere failPeer minority tie) s = .next u ∧
        ((failHere = true ∨ failPeer = true ∨ 2 ≤ d.2.2) → u.jrnl.disputes = j.disputes.erase d) ∧
        (failHere = false → failPeer = false → d.2.2 < 2 → u.jrnl.disputes = j.disputes) ∧
        (failHere = false → failPeer = false → 2 ≤ d.2.2 → tie = true → (u.die 0).elogN = (s.die 0).elogN + 1) ∧
        (failHere = false → failPeer = false → 2 ≤ d.2.2 → tie = false → minority = true → ∃ y, mfind u.removals ctx = some y ∧ y.cause = 0xB5))

/-! ## The timetable -/

/-- R363 to R367: the walk of a core: it enters the first row behind its own that qualifies, with that row's budget and priority, and a switch or a gang's wait before it, the busy bit of its core set unless it first has to wait for
its gang; a core that waits at a gang row which no longer qualifies goes on; a core stopped by a trap sets its context's stop bit; in its row a core starts the next segment while the budget lasts, with what dispatch read of it, at schedule cycle 0, reports one that it cannot dispatch, and
goes on with one that a trap had stopped; on a core that enters a gang row it waits for the other cores of the gang. The first segment of a unit waits until the core's
earlier atomics and releases are performed (R235, R244). No segment is begun while a scan of the core is due (R351).
Choices of the model that it rests on: log entries 21, 39 and 48. -/
def Claims.DispatchWalksTheTimetable : Prop :=
  ∀ (s : State) (c : Nat), c < 128 →
    let co := s.core c
    let w := co.walk
    let d := dieOf c
    (∀ i, w.phase = .idle → co.bound = false → s.nextRow c = some i →
      ∃ u, exec (.dispatch c) s = .next u ∧ (u.core c).walk.row = i ∧ (u.core c).walk.budget = rowBudget (s.row d i) ∧ (u.core c).walk.prio = rowPrio (s.row d i) ∧
        (u.core c).walk.fresh = true ∧ (rowGang (s.row d i) = false → (u.rowLease d i).busy.getLsbD (c % 64) = true) ∧
        (rowGang (s.row d i) = true → (u.rowLease d i).busy = (s.rowLease d i).busy) ∧
        (u.core c).walk.phase = (if rowGang (s.row d i) then .gangWait i else .load (rowCtx (s.row d i)) (s.cyc + 2048))) ∧
    (∀ i, w.phase = .gangWait i → s.qualifies c i = false → exec (.dispatch c) s = .next (s.advance c)) ∧
    (∀ x f, w.phase = .running → co.stops.stop = .stopped x f → s.recordsSent c = true → mfind s.removals co.ctx = none → s.ctxDesc co.ctx ≠ none →
      ∃ u, exec (.dispatch c) s = .next u ∧ u.stopBit co.ctx c = true) ∧
    (∀ at_ n, w.phase = .advance at_ → at_ ≤ s.cyc → s.scanDue (32 + c) = false → co.bound = true → mfind s.removals co.ctx = none → (s.rowLease d w.row).retire = false →
      s.mayRun co.ctx c = some n → (w.fresh = true ∨ s.nextCost co.ctx c n ≤ w.budget) →
      (∀ g, n = .again g → g.lease = false →
        ∃ u, exec (.dispatch c) s = .next u ∧ (u.core c).walk.phase = (if w.gang then .gangStart true else .resume) ∧ (u.core c).walk.budget = w.budget - g.cost ∧ (u.core c).im = co.im) ∧
      (∀ l k ld t, n = .unit l k → (l.firstOf k = false ∨ s.ordered c = true) → s.readSegment c co.ctx (l.header k) = .ok ld t → ld.lease = false →
        ∃ u g, exec (.dispatch c) s = .next u ∧ (u.core c).walk.phase = (if w.gang then .gangStart false else .running) ∧
          (u.core c).im.seg = some g ∧ g = { l.segFor k ld with num := g.num } ∧ (u.core c).im.sched = 0 ∧
          (u.core c).im.k.pc = (ld.streams.getD 0 (0, [])).1 ∧ (u.core c).im.k.buf = (ld.streams.getD 0 (0, [])).2 ∧
          (u.core c).im.l.buf = (ld.streams.getD 1 (0, [])).2 ∧ (u.core c).im.c.buf = (ld.streams.getD 2 (0, [])).2 ∧
          (u.core c).im.s.buf = (ld.streams.getD 3 (0, [])).2 ∧ (u.core c).walk.budget = w.budget - s.nextCost co.ctx c n) ∧
      (∀ l k cause r va t, n = .unit l k → (l.firstOf k = false ∨ s.ordered c = true) → s.readSegment c co.ctx (l.header k) = .fail cause r va t →
        ∃ u x, exec (.dispatch c) s = .next u ∧ (u.die d).trapWait = (t.die d).trapWait ++ [x] ∧ x.cause = cause ∧ x.status = BitVec.ofNat 32 r ∧ x.cls = 0 ∧
          x.seg = l.header k ∧ (t.ctxDesc co.ctx ≠ none → u.stopBit co.ctx c = true)))

/-- R175, R343, R366, R368, R369, R376, R379: what else a core's way holds: a segment whose array is granted, with no tile to move, starts, and one that a trap had stopped goes on; a core drained of its context writes the
image away, and one whose load time is over takes its context's image; the cores of a gang enter their row together, each setting its busy bit, and begin on one cycle once each of them is ready; a semaphore release that waits is made where the semaphore now stands; a retiring row
that no core is in takes its pending record.
Choices of the model that it rests on: log entries 37 and 40. -/
def Claims.CoresSwitchContexts : Prop :=
  ∀ (s : State) (c d i ctx k : Nat),
    (c < 128 →
      let co := s.core c
      (∀ at_ again, co.walk.phase = .leaseWait at_ again → at_ ≤ s.cyc → (s.arr (c / 4)).holder = some c → (s.arr (c / 4)).count = none →
        (∀ x ∈ (s.arr (c / 4)).queue, x.core = c ∧ x.det = false) → s.nextTransfer c = none →
        ∃ u, exec (.dispatchLeaseGrant c) s = .next u ∧ (u.core c).walk.phase = (if co.walk.gang then .gangStart again else if again then .resume else .running) ∧ u.mem = s.mem) ∧
      (co.bound = true → co.ctx = ctx → co.walk.phase = .resume →
        exec (.resume ctx c) s = .next (s.modWalk c (fun w => { w with phase := .running }))) ∧
      (∀ at_ nx, co.walk.phase = .drain at_ nx → at_ ≤ s.cyc → co.drained = true →
        ∃ u, exec (.switch c) s = .next u ∧ (u.core c).bound = false ∧ (∃ n, mfind u.images (imageKey co.ctx c) = some { s.imageOut c with token := n }) ∧
          (∀ a, s.cimg co.ctx = some a → ∀ k, k < 64 → u.homeNat (a + c * 0x40000 + 2 * k) 2 = mget 0 co.im.sems k % 65536) ∧
          (nx = none → (u.core c).walk.phase = .idle) ∧
          (∀ e tag, nx = some (e, tag) → (u.core c).walk.phase = .load tag (Nat.max e (s.cyc + 2048)))) ∧
      (∀ tag at_, co.walk.phase = .load tag at_ → at_ ≤ s.cyc → mfind s.removals tag = none → ∀ im, s.imageOf tag c = im → s.entered.contains (imageKey tag c) = true →
        ∃ u, exec (.switch c) s = .next u ∧ (u.core c).bound = true ∧ (u.core c).ctx = tag ∧ (u.core c).im.k = im.k ∧ (u.core c).im.l = im.l ∧ (u.core c).im.c = im.c ∧
          (u.core c).im.s = im.s ∧ (u.core c).im.seg = im.seg ∧ (u.core c).im.sched = im.sched ∧ (u.core c).walk.phase = .advance s.cyc ∧
          mfind u.images (imageKey tag c) = none ∧
          (∀ a, s.cimg tag = some a → ∀ k, k < 64 → mget 0 (u.core c).im.sems k = s.homeNat (a + c * 0x40000 + 2 * k) 2)) ∧
      ((ctx, c, k) ∈ s.relQ → (∀ a n, co.walk.phase ≠ .drain a n) → (∀ a n, co.walk.phase ≠ .load a n) → k < 64 →
        ∃ u, exec (.semaphoreImageRelease ctx c k) s = .next u ∧ u.relQ = s.relQ.erase (ctx, c, k) ∧
          (co.bound = true → co.ctx = ctx → mget 0 (u.core c).im.sems k = Nat.min 65535 (mget 0 co.im.sems k + 1)) ∧
          (¬(co.bound = true ∧ co.ctx = ctx) → ∀ a, s.cimg ctx = some a →
            u.homeNat (a + c * 0x40000 + 2 * k) 2 = Nat.min 65535 (s.homeNat (a + c * 0x40000 + 2 * k) 2 + 1)))) ∧
    (d < 2 → i < 512 →
      let r := s.row d i
      let cs := ((upTo 0 64).filter (fun c => r.getLsbD (128 + c))).map (fun c => 64 * d + c)
      let stays (c : Nat) : Prop := (s.core c).bound = true ∧ (s.core c).ctx = rowCtx r ∧ (s.core c).stops.stop = .run
      (cs ≠ [] → (∀ c ∈ cs, (s.core c).walk.phase = .gangWait i) → (∀ c ∈ cs, (s.core c).bound = true → ¬stays c → (s.core c).drained = true) →
        ∃ u e, exec (.gangEntry d i) s = .next u ∧
          e = s.cyc + (if (∃ c ∈ cs, (s.core c).bound = true ∧ ¬stays c) then 4096 else if (∀ c ∈ cs, stays c) then 0 else 2048) ∧
          ∀ c ∈ cs, (stays c → (u.core c).walk.phase = .advance e) ∧
            ((s.core c).bound = true → ¬stays c → (u.core c).walk.phase = .drain (s.cyc + 2048) (some (e, rowCtx r))) ∧
            ((s.core c).bound = false → (u.core c).walk.phase = .load (rowCtx r) e) ∧ (u.core c).walk.gang = true ∧ (u.rowLease d i).busy.getLsbD (c % 64) = true) ∧
      ((∃ c ∈ cs, (s.core c).walk.phase ≠ .gangWait i) → s.gangReady d i ≠ [] →
        ∃ u, exec (.gangEntry d i) s = .next u ∧ ∀ c ∈ s.gangReady d i, (u.core c).walk.gang = false ∧
          ((u.core c).walk.phase = .running ∨ (u.core c).walk.phase = .resume)) ∧
      ((∀ p ∈ s.cores, p.2.walk.left = []) → (s.rowLease d i).retire = true → (s.rowLease d i).busy = 0 →
        (s.plat.bootStep = 6 ∨ (s.rowLease d i).pend = false) →
        ∃ u, exec (.rowLoad d i) s = .next u ∧ u.row d i = BitVec.ofNat 256 ((if (s.rowLease d i).pend then mget 0 (s.die d).pending i else 0).toNat / 2 ^ 81 * 2 ^ 81) ∧
          (u.rowLease d i).retire = false ∧ (u.rowLease d i).pend = false ∧ ∀ j, j ≠ i → u.row d j = s.row d j))

/-- R360, R361, R362, R375, R376, R382: what the management core writes: the walk's control, bind records, the lease table, the slab and translation commands, which are ignored while one is busy, and registers that
have no behaviour of their own; a write of register and queue space that is not of eight bytes, or to an offset that names no word, receives an error response. While the management core does not manage the dies (before step 3 of the boot order, in recovery, and in a thermal shutdown: R436, R440) none of them has an effect.
Choices of the model that it rests on: log entries 39 and 46. -/
def Obligations.ManagementWritesTakeEffect : Prop :=
  ∀ (s : State) (d i : Nat) (v : Word) (r : BitVec 256) (num : Nat), d < 2 →
    (s.managed = false → ∀ x ∈ [Instr.ttctlWrite d v, .slabcmdRenew d v, .slabcmdFree d v, .slabcmdClaim d v, .tlbcmdPage d v, .tlbcmdContext d v,
      .registerWrite d num v], exec x s = .next s) ∧
    (s.managed = false → i < 512 → (∀ p, exec (.bindRecordWrite d i p r) s = .next s) ∧ exec (.leaseTableWrite d i v) s = .next s) ∧
    (s.managed = true →
    ((v.getLsbD 0 = true → s.plat.bootStep = 6) → ∃ u, exec (.ttctlWrite d v) s = .next u ∧ (u.die d).ttctl = v &&& 0x3FF) ∧
    (i < 512 →
      let kept := BitVec.ofNat 256 (r.toNat / 2 ^ 81 * 2 ^ 81)
      (∃ u, exec (.bindRecordWrite d i true r) s = .next u ∧ mget 0 (u.die d).pending i = kept ∧ (u.die d).rows = (s.die d).rows) ∧
      (s.plat.bootStep = 6 ∨ rowKind kept = false →
        ∃ u, exec (.bindRecordWrite d i false r) s = .next u ∧ u.row d i = kept ∧ (∀ j, j ≠ i → u.row d j = s.row d j) ∧ (u.die d).pending = (s.die d).pending) ∧
      (s.plat.bootStep ≠ 6 → rowKind kept = true → exec (.bindRecordWrite d i false r) s = .next s) ∧
      (∃ u, exec (.leaseTableWrite d i v) s = .next u ∧ (u.rowLease d i).retire = v.getLsbD 0 ∧ (u.rowLease d i).pend = v.getLsbD 1 ∧
        (u.rowLease d i).busy = (s.rowLease d i).busy)) ∧
    (let first := fld v.toNat 22 12
     let n := fld v.toNat 34 12
     let c := 64 * d + fld v.toNat 56 6
     let ctx := fld v.toNat 46 10
     let ks := upTo first (Nat.min n (3072 - first))
     let busy := s.cyc < (s.die d).slabBusy
     let b (k : Nat) := (s.core c).slab k
     let each (P : Instr → Prop) : Prop := (fld v.toNat 62 2 = 1 → P (.slabcmdRenew d v)) ∧ (fld v.toNat 62 2 = 2 → P (.slabcmdFree d v)) ∧
       (fld v.toNat 62 2 = 3 → P (.slabcmdClaim d v))
     (busy → each (fun i => exec i s = .next s)) ∧
     (¬busy → fld v.toNat 62 2 = 1 → ∃ u, exec (.slabcmdRenew d v) s = .next u ∧
       ∀ x, x ∈ (u.die d).slabRen ↔ x ∈ (s.die d).slabRen ∨ ∃ k ∈ ks, (b k).kind = .live ∧ (b k).owner = ctx ∧ (b k).born = true ∧
         s.tstep - (b k).stamp ≤ 1875 ∧
         x = (s.cyc + 16 * (ks.filter (fun j => (s.core c).slabcmdRenews ctx j s.tstep && decide (j < k ∧ j % 16 = k % 16))).length + 15, c, k, ctx)) ∧
     (¬busy → fld v.toNat 62 2 = 2 → ∃ u, exec (.slabcmdFree d v) s = .next u ∧
       ∀ k, ((u.core c).slab k).kind = (if k ∈ ks ∧ (b k).own ctx = true then .free else (b k).kind)) ∧
     (¬busy → fld v.toNat 62 2 = 3 →
       let ok := n ≤ 3072 - first ∧ ∀ k ∈ ks, (b k).kind = .free ∨ ((b k).kind = .live ∧ (b k).owner = ctx)
       (ok → ∃ u, exec (.slabcmdClaim d v) s = .next u ∧ (u.die d).slabcmd.getLsbD 1 = false ∧
         ∀ k, (u.core c).slab k = (if k ∈ ks ∧ (b k).kind = .free then { b k with kind := .live, owner := ctx, born := false } else b k)) ∧
       (¬ok → ∃ u, exec (.slabcmdClaim d v) s = .next u ∧ (u.die d).slabcmd.getLsbD 1 = true ∧ u.cores = s.cores))) ∧
    (let ctx := fld v.toNat 2 10
     let va : Word := ((BitVec.ofNat 44 (fld v.toNat 12 44)).signExtend 52).setWidth 64 <<< 12
     let drops (i : Instr) (va : Option Word) : Prop := ∃ u, exec i s = .next u ∧ s.cyc + 1 ≤ (u.die d).tlbBusy ∧ (u.die d).tlbcmd.toNat / 2 ^ 62 = fld v.toNat 62 2 ∧
       ∀ c, (u.core c).ms.tlb = dropTlb (s.core c).ms.tlb ctx va
     (fld v.toNat 62 2 = 1 → s.tlbcmdBusy d = true → exec (.tlbcmdPage d v) s = .next s) ∧
     (fld v.toNat 62 2 = 2 → s.tlbcmdBusy d = true → exec (.tlbcmdContext d v) s = .next s) ∧
     (fld v.toNat 62 2 = 1 → s.tlbcmdBusy d = false → drops (.tlbcmdPage d v) (some va)) ∧
     (fld v.toNat 62 2 = 2 → s.tlbcmdBusy d = false → drops (.tlbcmdContext d v) none)) ∧
    (∃ u, exec (.registerWrite d 0x48 v) s = .next u ∧ (u.die d).skcfg = v &&& 0xFFFFFFFFF) ∧
    (∃ u, exec (.registerWrite 0 0x49 v) s = .next u ∧ u.hrcfg = v &&& 0xFFF) ∧
    (i < 128 → 160 ≤ v.toNat % 2048 → v.toNat % 2048 ≤ 1024 → ∃ u, exec (.registerWrite i 0x2D v) s = .next u ∧ (u.core i).swthr = v.toNat % 2048) ∧
    (0x100 ≤ num → num < 0x200 → ∃ u, exec (.registerWrite d num v) s = .next u ∧ (u.qent (256 * d + (num - 0x100))).ctx = v.toNat % 1024) ∧
    (i < 34 → ∃ u, exec (.registerWrite i 0x200 v) s = .next u ∧ mfind u.plat.vfs i = some { ctx := v.toNat % 1024, slots := [] }) ∧
    (let base := 0xF000000000000 + 0x100000000 * d
     (∀ k, s.plat.bootStep = 6 → i < 512 → 2 ≤ k → k < 4 → ∃ u, exec (.registerWrite 8 (base + 32 * i + 8 * k) v) s = .next u ∧ fld (u.row d i).toNat (64 * k) 64 = v.toNat ∧
       (∀ j, j ≠ i → u.row d j = s.row d j) ∧ (u.die d).pending = (s.die d).pending) ∧
     (v.getLsbD 0 = false → ∃ u, exec (.registerWrite 8 (base + 0xA000) v) s = .next u ∧ (u.die d).ttctl = v &&& 0x3FF) ∧
     (∀ off width, off < 0x100000000 → (width ≠ 8 ∨ blockWord off = none) → ∃ u, exec (.registerWrite width (base + off) v) s = .next u ∧ u.cores = s.cores ∧
       u.mem = s.mem ∧ (u.die (errDie 0 (base + off) 0x47)).elogN = (s.die (errDie 0 (base + off) 0x47)).elogN + 1)))

/-! ## Traps, removals, scans, faults of translation -/

/-- R23, R337, R339, R340: taking a trap keeps a record with what Table 17-1 says, sets the trap cycle, and changes no register, no result in flight, no program counter, no memory and no other core; the
core stops behind that cycle and hands its records to its die, in the order of schedule cycle and sequencer; they enter the trap queue, while it has room, as the 64 bytes of Table 17-1, the one that reports K's pending error clearing it, and firmware takes the oldest.
Choices of the model that it rests on: log entry 61. -/
def Claims.TrapsAreRecordedAndStopTheCore : Prop :=
  ∀ (s : State) (info : TrapInfo) (c d : Nat),
    (let t := s.trapHere info
     let co := s.me
     (∃ r : TrapRec, t.me.stops.recs = co.stops.recs ++ [r] ∧ r.cause = info.cause ∧ r.addr = info.addr ∧ r.status = info.status ∧ r.cls = info.cls ∧
       r.engine = info.engine ∧ r.uidx = info.uidx ∧ r.seq = s.cur.sq.code ∧ r.ctx = co.ctx ∧ r.sched = s.t ∧ r.tstep = s.cyc / 256 ∧ r.cmd = s.mySeq.index ∧
       r.die = s.cur.core / 64 ∧ r.core = s.cur.core % 64 ∧ r.more = 0 ∧ ∀ g, co.im.seg = some g → r.seg = g.hdr) ∧
     t.me.im = co.im.setSeq s.cur.sq { s.mySeq with tried := some s.cyc, pin := none } ∧ t.me.spad = co.spad ∧ t.me.ms = co.ms ∧ t.me.units = co.units ∧
     (co.stops.stop = .run → t.me.stops.stop = .trapped s.t s.cyc (decide (info.cls ≠ 1))) ∧ t.mem = s.mem ∧ t.blog = s.blog ∧
     (∀ c, c ≠ s.cur.core → t.core c = s.core c) ∧ (∀ x f, co.stops.stop = .trapped x s.cyc f → ∃ g, t.me.stops.stop = .trapped x s.cyc g)) ∧
    (∀ x at_ f, c < 128 → (s.core c).stops.stop = .trapped x at_ f → at_ < s.cyc →
      ∃ u l, exec (.trapStop c) s = .next u ∧ (u.core c).stops.stop = .stopped x f ∧ (u.core c).stops.recs = [] ∧ (u.die (c / 64)).trapWait = (s.die (c / 64)).trapWait ++ l ∧
        l.length = (s.core c).stops.recs.length ∧ (∀ r ∈ (s.core c).stops.recs, { r with npend := (s.core c).flush.npend } ∈ l) ∧
        l.Pairwise (fun a b => recLe a b = true) ∧ u.mem = s.mem) ∧
    (∀ r rest, d < 2 → (s.die d).trapWait = r :: rest → (s.die d).trapq.length < 1024 →
      (r.pend = false → ∃ u, exec (.trapRecordEnqueue d) s = .next u ∧ (u.die d).trapq = (s.die d).trapq ++ [r.bits] ∧ (u.die d).trapWait = rest ∧
        u.cores = s.cores ∧ u.mem = s.mem) ∧
      (let c := 64 * d + r.core
       r.pend = true → (s.core c).bound = true → (s.core c).ctx = r.ctx →
         ∃ u, exec (.trapRecordEnqueue d) s = .next u ∧ (u.die d).trapq = (s.die d).trapq ++ [{ r with more := (s.core c).im.more }.bits] ∧
           (u.core c).im.perr = none ∧ (u.core c).im.more = 0 ∧ (u.die d).trapWait = rest ∧ u.mem = s.mem)) ∧
    (∀ r : TrapRec, fld r.bits.toNat 448 64 = r.seg.toNat ∧ fld r.bits.toNat 384 64 = r.addr.toNat ∧ fld r.bits.toNat 320 64 = r.tstep % 2 ^ 64 ∧
      fld r.bits.toNat 256 64 = r.sched % 2 ^ 64 ∧ fld r.bits.toNat 224 32 = r.status.toNat ∧ fld r.bits.toNat 208 16 = r.cmd % 2 ^ 16 ∧
      fld r.bits.toNat 200 8 = r.cause % 2 ^ 8 ∧ fld r.bits.toNat 196 4 = r.engine % 2 ^ 4 ∧ fld r.bits.toNat 190 6 = r.uidx % 2 ^ 6 ∧
      fld r.bits.toNat 188 2 = r.seq % 4 ∧ fld r.bits.toNat 186 2 = r.cls % 4 ∧ fld r.bits.toNat 176 10 = r.ctx % 2 ^ 10 ∧ fld r.bits.toNat 175 1 = r.die % 2 ∧
      fld r.bits.toNat 169 6 = r.core % 2 ^ 6 ∧ fld r.bits.toNat 160 9 = r.npend % 2 ^ 9 ∧ fld r.bits.toNat 152 8 = r.more % 2 ^ 8 ∧ fld r.bits.toNat 0 152 = 0) ∧
    (∀ r rest, d < 2 → (s.die d).trapq = r :: rest →
      ∃ u, exec (.trapQueueTake d) s = .next u ∧ (u.die d).trapq = rest ∧ (u.die d).trapWait = (s.die d).trapWait ∧ u.cores = s.cores ∧ u.mem = s.mem)

/-- R95, R98, R99, R346: the end of a segment: once nothing of it is left and its cycle has come, it ends and the core is to advance, or K's pending error is raised first; an untimed one that reaches twice its cost overruns
with cause 0x21, a timed one that reaches its cost unhalted with 0x22, once, in a record of class 1.
Choices of the model that it rests on: log entries 17 and 43. -/
def Claims.SegmentsEndAndOverrun : Prop :=
  ∀ (s : State) (c : Nat) (g : Seg), c < 128 → (s.core c).im.seg = some g → (s.core c).counting s.cyc = true →
    let co := s.core c
    (∀ e, s.segmentEndAt c g = some e → e ≤ co.im.sched → co.stops.stop = .run →
      (co.im.perr = none → ∃ u, exec (.segmentEnd c) s = .next u ∧ (u.core c).im.seg = none ∧ (u.core c).walk.phase = .advance s.cyc ∧ (u.core c).bound = true ∧
        (u.core c).ctx = co.ctx ∧ ((s.arr (c / 4)).holder = some c → (s.arr (c / 4)).lctx = co.ctx → (u.arr (c / 4)).holder = none)) ∧
      (∀ p, co.im.perr = some p → ∃ u r, exec (.segmentEnd c) s = .next u ∧ (u.core c).im.seg = some g ∧ (u.core c).im.perr = some p ∧
        (u.core c).stops.recs = co.stops.recs ++ [r] ∧ r.cause = p.cause ∧ r.cls = 2 ∧ r.pend = true ∧ r.addr = p.addr ∧ r.status = p.status)) ∧
    (let over_ (i : Instr) (cause : Nat) : Prop := ∃ u r, exec i s = .next u ∧ (u.core c).stops.recs = co.stops.recs ++ [r] ∧ r.cause = cause ∧ r.cls = 1 ∧
       r.sched = co.im.sched ∧ (u.core c).im.seg = some { g with overrun := true } ∧ u.mem = s.mem
     (g.timed = false → g.overrun = false → 2 * g.cost ≤ co.im.sched → over_ (.overrunUntimed c) 0x21) ∧
     (g.timed = true → g.overrun = false → g.cost ≤ co.im.sched → co.im.notHalted ≠ 0 → over_ (.overrunTimed c) 0x22))

/-- R351 to R358: removing a context, by firmware while it manages the dies (R436, R440): its cores stop, and its steps follow one another as its work drains; a step whose bound expires has its unit reset, with cause 0x87; after the
eighth nothing of it is left, and a record of class 3 says so; the removal ends once that record has entered its queue. A scanned unit gains a generation, or is fenced with a suspect notice, and returns to service once it
has passed again.
Choices of the model that it rests on: log entries 42 and 44. -/
def Obligations.RemovalsAndScansProceed : Prop :=
  ∀ (s : State) (ctx unit : Nat) (r : Removal),
    (s.managed = false → exec (.contextRemoval ctx) s = .next s) ∧
    (s.managed = true → ctx < 1024 → mfind s.removals ctx = none →
      ∃ u x, exec (.contextRemoval ctx) s = .next u ∧ mfind u.removals ctx = some x ∧ x.step = 1 ∧ x.deadline = s.cyc + 65536 ∧ x.cause = 0 ∧
        ∀ c, (s.core c).bound = true → (s.core c).ctx = ctx → ∃ n, (u.core c).stops.stop = .stopped n true) ∧
    (mfind s.removals ctx = some r →
      (s.managed = true → r.step = 0 → ∃ u, exec (.contextRemoval ctx) s = .next u ∧ mfind u.removals ctx = some { r with step := 1, deadline := s.cyc + 65536 }) ∧
      (1 ≤ r.step → r.step < 8 → s.inFlightAt ctx r.step = none →
        ∃ u, exec (.removalStep ctx) s = .next u ∧ mfind u.removals ctx = some { r with step := r.step + 1, deadline := s.cyc + removalBound (r.step + 1) }) ∧
      (r.step = 8 → s.inFlightAt ctx 8 = none →
        ∃ u x d, exec (.removalStep ctx) s = .next u ∧ mfind u.removals ctx = some { r with step := 9, deadline := s.cyc + removalBound 9 } ∧ (∀ c, ¬((u.core c).bound = true ∧ (u.core c).ctx = ctx)) ∧
          (∀ l ∈ u.launches, l.ctx ≠ ctx) ∧ (∀ p ∈ u.images, p.1 / 128 ≠ ctx) ∧ (u.die d).trapWait = (s.die d).trapWait ++ [x] ∧ x.cause = r.cause ∧ x.cls = 3 ∧
          x.ctx = ctx ∧ x.status = r.status) ∧
      (r.step = 9 → s.lastWaits ctx = false → ∃ u, exec (.removalStep ctx) s = .next u ∧ mfind u.removals ctx = none ∧ u.mem = s.mem) ∧
      (∀ e, 1 ≤ r.step → r.deadline ≤ s.cyc → s.inFlightAt ctx r.step = some e →
        ∃ u x, exec (.removalBoundExpire ctx) s = .next u ∧ mfind u.removals ctx = some x ∧ x.cause = 0x87 ∧ x.engine = e.code ∧ x.unit = e.uidx ∧ x.step = r.step)) ∧
    (unit < 160 → s.scanDue unit = true → s.unitDrained unit = true →
      let k := mget 0 s.gens unit
      (∃ u, exec (.rotationScanSlot unit true) s = .next u ∧ mget 0 u.gens unit = mget 0 s.gens unit + 1 ∧ (∀ v, v ≠ unit → mget 0 u.gens v = mget 0 s.gens v) ∧
        mget 0 u.scans unit = mget 0 s.scans unit + 1 ∧ u.fenced = s.fenced) ∧
      (∃ u, exec (.rotationScanSlot unit false) s = .next u ∧ unit ∈ u.fenced ∧ unit ∉ u.healed ∧ u.gens = s.gens ∧
        .suspectNotice none s.dom.modid unit (k - 1) k (s.cyc / 256) ∈ u.outbox ∧
        ∀ p ∈ s.dom.stamps, k ≤ p.2 + 1 → p.2 ≤ k → p.1 ≠ s.dom.modid → .suspectNotice (some p.1) s.dom.modid unit (k - 1) k (s.cyc / 256) ∈ u.outbox)) ∧
    (unit < 160 → unit ∈ s.fenced → unit ∈ s.healed → ∃ u, exec (.unitReturnToService unit) s = .next u ∧ unit ∉ u.fenced ∧
      (∀ v, v ≠ unit → (v ∈ u.fenced ↔ v ∈ s.fenced)) ∧ u.cores = s.cores)

/-- R249 to R257, R260, R445: a walk that succeeds fills K's translations and frees its access, one that fails leaves it at a fault record, or to try again; a stream's prefetch keeps the next page's translation, or
nothing; the cores of a group that run its context freeze 48 cycles after its wire is asserted and go on 48 after it is deasserted; software's answer to a record settles it, or releases the wires that wait for no other; at the thaw each record of the wire that has been answered is free again, and K's access at it translates afresh or its group
traps with the record's cause; a walk does not read an entry that a near-bank command holds (R321); a page that is not pinned moves,
with its contents, and its translations are dropped.
Choices of the model that it rests on: log entries 4, 15 and 59. -/
def Obligations.TranslationFaultsAreSettled : Prop :=
  ∀ (s : State) (c ch d i ctx : Nat) (va newPa : Word),
    (∀ va kind part at_ interval, c < 128 →
      let co := s.core c
      (co.ms.hold = some (.walk va kind part at_ interval false none) → at_ ≤ s.cyc → s.walkTurn (dieOf c) c = true → s.walkHeld co.ptbase va = false → s.walkFails c co.ptbase va = none →
        ∀ e, s.walkPage co.ctx co.ptbase va kind = .ok e →
        ∃ u, exec (.pageWalkComplete c) s = .next u ∧ (u.core c).ms.tlb = tlbTouch co.ms.tlb e ∧ (u.core c).ms.hold = none ∧ u.mem = s.mem) ∧
      (co.ms.hold = some (.walk va kind part at_ interval false none) → at_ ≤ s.cyc → s.walkTurn (dieOf c) c = true → s.walkHeld co.ptbase va = false → s.walkFails c co.ptbase va = none →
        ∀ x, s.walkPage co.ctx co.ptbase va kind = .error x →
        ∃ u at2 i2 b j, exec (.pageWalkComplete c) s = .next u ∧ (u.core c).ms.hold = some (.walk va kind part at2 i2 b j)) ∧
      (co.ms.hold = some (.walk va kind part at_ interval true none) → at_ ≤ s.cyc → s.walkHeld co.ptbase va = false → s.walkFails c co.ptbase va = none → ∀ e, s.walkPage co.ctx co.ptbase va kind = .ok e →
        ∃ u, exec (.faultRefusalRetry c) s = .next u ∧ (u.core c).ms.tlb = tlbTouch co.ms.tlb e ∧ (u.core c).ms.hold = none ∧ u.mem = s.mem)) ∧
    (c < 128 → ch < 4 → mfind s.pfetch (4 * c + ch) = some (ctx, va) → s.walkTurn (agentDie (4 * c + ch)) (1024 + (4 * c + ch)) = true → s.walkHeld (s.rootOf ctx) va = false →
      let l := mget [] s.stlb (4 * c + ch)
      ∃ u, exec (.prefetchWalk c ch) s = .next u ∧ mfind u.pfetch (4 * c + ch) = none ∧ u.mem = s.mem ∧ u.cores = s.cores ∧
        ((∀ e ∈ l, e.covers ctx va = false) → ∀ e, s.walkPage ctx (s.rootOf ctx) va 0 = .ok e → mget [] u.stlb (4 * c + ch) = l.take 1 ++ [e])) ∧
    (∀ w, s.wires[i]? = some w →
      (w.holds s.cyc = true → (∃ c ∈ s.wireCores w, (s.core c).stops.frozen = false) →
        ∃ u, exec (.groupFreeze i) s = .next u ∧ (∀ c ∈ s.wireCores w, (u.core c).stops.frozen = true) ∧ (∀ c, c ∉ s.wireCores w → u.core c = s.core c) ∧ u.mem = s.mem) ∧
      (∀ t, w.u = some t → t + 48 ≤ s.cyc → s.wires = [w] →
        ∃ u, exec (.groupThaw i) s = .next u ∧ u.wires = [] ∧ (∀ c ∈ w.cores, (u.core c).stops.frozen = false) ∧ u.mem = s.mem ∧
          (∀ d j r, mfind (s.die d).fbuf j = some r →
            mfind (u.die d).fbuf j = some (if (d, j) ∈ w.recs ∧ (r.state = 2 ∨ r.state = 3) then { r with state := 0 } else r)) ∧
          (∀ c va kind part at_ n b j r, (s.core c).ms.hold = some (.walk va kind part at_ n b (some j)) → (dieOf c, j) ∈ w.recs → mfind (s.die (dieOf c)).fbuf j = some r →
            (r.state = 2 ∨ r.state = 3) → (u.core c).ms.hold = none ∧ (u.core c).im.k.pc = (s.core c).im.k.pc ∧
              (r.state = 2 → (u.core c).stops.recs = (s.core c).stops.recs) ∧
              (r.state = 3 → s.mdefEntry c va = none → ∃ x, (u.core c).stops.recs = (s.core c).stops.recs ++ [x] ∧ x.cause = r.cause ∧ x.addr = r.va)))) ∧
    (d < 2 → i < 4096 →
      (∀ r, mfind (s.die d).fbuf i = some r → r.state ≠ 1 → exec (.faultRetryWrite d i) s = .next s ∧ exec (.faultDeliverWrite d i) s = .next s) ∧
      (∀ r, mfind (s.die d).fbuf i = some r → r.state = 1 → (∀ w ∈ s.wires, (d, i) ∉ w.recs) → (∃ u, exec (.faultRetryWrite d i) s = .next u ∧
          ∃ x, mfind (u.die d).fbuf i = some x ∧ x.state = 0) ∧ ∃ u, exec (.faultDeliverWrite d i) s = .next u ∧ ∃ x, mfind (u.die d).fbuf i = some x ∧ x.state = 0) ∧
      (∀ r w, mfind (s.die d).fbuf i = some r → r.state = 1 → s.wires = [w] → w.recs = [(d, i)] → w.u = none →
        (∃ u, exec (.faultRetryWrite d i) s = .next u ∧ mfind (u.die d).fbuf i = some { r with state := 2 } ∧ u.wires = [{ w with u := some s.cyc }]) ∧
        (∃ u, exec (.faultDeliverWrite d i) s = .next u ∧ mfind (u.die d).fbuf i = some { r with state := 3 } ∧ u.wires = [{ w with u := some s.cyc }]))) ∧
    (∀ a e lvl, canonical va = true → s.leafAt va 4 (fld (s.rootOf ctx).toNat 12 40 * 4096) = some (a, e, lvl) → lvl < 3 → bit e 9 = false →
      newPa.toNat % 2 ^ (if lvl = 2 then 30 else if lvl = 1 then 21 else 12) = 0 → s.paKind newPa.toNat = .home → s.managed = true →
      (bit e 8 = true → exec (.pageMigration ctx va newPa) s = .next s) ∧
      (bit e 8 = false → (a + 8 ≤ newPa.toNat ∨ newPa.toNat + 2 ^ (if lvl = 2 then 30 else if lvl = 1 then 21 else 12) ≤ a) → ∃ u, exec (.pageMigration ctx va newPa) s = .next u ∧ (∀ c, (u.core c).ms.tlb = dropTlb (s.core c).ms.tlb ctx (some va)) ∧
        u.homeNat a 8 = (e - fld e 12 40 * 4096 + newPa.toNat % 2 ^ 52) % 2 ^ 64))

/-! ## The domain, the group, checkpoints -/

/-- R389, R395, R396, R398, R399, R345: the target's side of the domain: a well-formed request in its turn is performed at its home and answered, one for no memory of this module answered with
cause 0x47, one that reads an uncorrectable error with cause 0x83, and a malformed one logged, in the log of die 0; an atomic is performed once for each identifier; a skip takes the place of its request; a write that
comes again is acknowledged as it was the first time.
Choices of the model that it rests on: log entry 50. -/
def Obligations.DomainRequestsAreServed : Prop :=
  ∀ (s : State) (h : BitVec 384) (bs : List Byte), s.inDomain = true → hDst h = s.dom.modid →
    let m := hSrc h
    let p := s.peer m
    let next := (p.next + 1) % 2 ^ 32
    let inTurn := hMalformed h = false ∧ hPseq h = p.next ∧ p.waiting = [] ∧ p.skipped = []
    let pa := hPa h
    let answer (op cause : Nat) (val : Word) (rid : Nat) (data : List Byte) : Msg :=
      .domain (domainHdr op 0 0 0 0 (hCtx h) s.dom.modid m data.length (s.sgen % 2 ^ 32) rid 0 cause (hPseq h) val 0) data
    (inTurn → hOp h = 1 →
      (s.targetRefuses pa (hLen h) = false → s.requestHeld h [] = false →
        (firstBad s.bad pa (hLen h) = none → ∃ u, exec (.domainReadRequest h) s = .next u ∧ u.outbox = s.outbox ++ [answer 9 0 0 0 (s.homeBytes pa (hLen h))] ∧
          u.mem = s.mem ∧ (u.peer m).next = next) ∧
        (firstBad s.bad pa (hLen h) ≠ none → ∃ u, exec (.domainReadRequest h) s = .next u ∧
          u.outbox = s.outbox ++ [answer 9 0x83 0 0 (List.replicate (hLen h) 0)] ∧ u.mem = s.mem)) ∧
      (s.targetRefuses pa (hLen h) = true → ∃ u, exec (.domainReadRequest h) s = .next u ∧
        u.outbox = s.outbox ++ [answer 9 0x47 0 0 (List.replicate (hLen h) 0)] ∧ u.mem = s.mem)) ∧
    (inTurn → hOp h = 2 → bs.length = hLen h →
      (s.targetRefuses pa bs.length = false → s.requestHeld h bs = false → ∃ u, exec (.domainWriteRequest h bs) s = .next u ∧ u.outbox = s.outbox ++ [answer 10 0 0 0 []] ∧
        u.homeBytes pa bs.length = bs ∧ (∀ a, a < pa ∨ pa + bs.length ≤ a → u.homeByte a = s.homeByte a) ∧ (u.peer m).next = next) ∧
      (s.targetRefuses pa bs.length = true → ∃ u, exec (.domainWriteRequest h bs) s = .next u ∧ u.outbox = s.outbox ++ [answer 10 0x47 0 0 []] ∧ u.mem = s.mem ∧
        hPseq h ∈ (u.peer m).refused)) ∧
    (inTurn → hOp h = 3 →
      let rid := h.toNat / 2 ^ 160 % 2 ^ 32
      let n := hSize h
      let old := s.homeNat pa n
      (∀ x, p.ids.find? (fun x => decide (x.1 = rid)) = some x → ∃ u, exec (.domainAtomicRequest h) s = .next u ∧ u.outbox = s.outbox ++ [answer 11 0 x.2.1 rid []] ∧
        u.mem = s.mem) ∧
      (p.ids.find? (fun x => decide (x.1 = rid)) = none → s.targetRefuses pa n = false → s.requestHeld h [] = false → firstBad s.bad pa n = none →
        ∃ u, exec (.domainAtomicRequest h) s = .next u ∧ u.outbox = s.outbox ++ [answer 11 0 (BitVec.ofNat 64 old) rid []] ∧
          (∀ v, atomicNew (h.toNat / 2 ^ 8 % 256) (h.toNat / 2 ^ 4 % 2) (8 * n) old (hVal h) (h.toNat / 2 ^ 320 % 2 ^ 64) = some v →
            u.homeBytes pa n = leBytes n v) ∧
          (atomicNew (h.toNat / 2 ^ 8 % 256) (h.toNat / 2 ^ 4 % 2) (8 * n) old (hVal h) (h.toNat / 2 ^ 320 % 2 ^ 64) = none → u.mem = s.mem) ∧
          (rid, BitVec.ofNat 64 old, s.cyc) ∈ (u.peer m).ids)) ∧
    (hMalformed h = true → ∃ u, (exec (.domainReadRequest h) s = .next u ∧ exec (.domainAtomicRequest h) s = .next u ∧ exec (.domainWriteRequest h bs) s = .next u ∧
      exec (.domainSkip h) s = .next u) ∧ u.mem = s.mem ∧ (u.die 0).elogN = (s.die 0).elogN + 1) ∧
    (hMalformed h = false → hOp h = 2 → bs.length = hLen h → hPseq h ≠ p.next → ahead (hPseq h) p.next = false → p.skipped.contains (hPseq h) = false →
      ∃ u, exec (.domainWriteRequest h bs) s = .next u ∧ u.outbox = s.outbox ++ [answer 10 (if p.refused.contains (hPseq h) then 0x47 else 0) 0 0 []] ∧ u.mem = s.mem) ∧
    (inTurn → hOp h = 12 → ∃ u, exec (.domainSkip h) s = .next u ∧ u.outbox = s.outbox ++ [answer 10 0 0 0 []] ∧ (u.peer m).next = next ∧ u.mem = s.mem)

/-- R236, R242, R243, R395 to R399: the source's side: a response ends the request it answers and brings its data to the access, or its cause; one that is
malformed, or for another module, is discarded and logged with cause 0x63; a request unanswered for 64 µs is sent again, up to eleven times, and
then ended with cause 0xA1 and skipped.
Choices of the model that it rests on: log entry 50. -/
def Claims.DomainResponsesArrive : Prop :=
  ∀ (s : State) (h : BitVec 384) (bs : List Byte) (r : DReq) (m n : Nat),
    (∀ x ∈ [(Instr.domainReadResponse h bs, 9), (.domainWriteAck h, 10), (.domainAtomicResponse h, 11)], s.badResponse h x.2 = true →
      ∃ u, exec x.1 s = .next u ∧ (u.die 0).elogN = (s.die 0).elogN + 1 ∧ u.dom = s.dom ∧ u.mem = s.mem ∧ u.cores = s.cores) ∧
    (s.badResponse h 9 = false → s.asked h [1] = some r → r.skip = false →
      ∃ u, exec (.domainReadResponse h bs) s = .next u ∧ u.dom.reqs.map (·.hdr) = (s.dom.reqs.erase r).map (·.hdr) ∧ u.mem = s.mem ∧
        (128 ≤ r.core → u.dom.reqs = s.dom.reqs.erase r ∧ ({ agent := r.core - 128, pa := r.acc, bytes := bs, cause := hCause h } : Answer) ∈ u.dom.answers)) ∧
    (s.badResponse h 10 = false → s.asked h [2] = some r → (r.skip = true ∨ hCause h = 0) → exec (.domainWriteAck h) s = .next { s with dom := { s.dom with reqs := s.dom.reqs.erase r } }) ∧
    (s.badResponse h 10 = false → s.asked h [2] = some r → r.skip = false → hCause h ≠ 0 → 128 ≤ r.core →
      ∃ u, exec (.domainWriteAck h) s = .next u ∧ ({ agent := r.core - 128, pa := r.acc, bytes := [], cause := hCause h } : Answer) ∈ u.dom.answers) ∧
    (s.badResponse h 11 = false → s.asked h [3] = some r → r.skip = false → 128 ≤ r.core →
      ∃ u, exec (.domainAtomicResponse h) s = .next u ∧ u.dom.reqs = s.dom.reqs.erase r ∧ u.mem = s.mem ∧
        ({ agent := r.core - 128, pa := r.acc, bytes := leBytes 8 (hVal h), cause := hCause h } : Answer) ∈ u.dom.answers) ∧
    (s.dom.reqs.find? (fun r => decide (r.target = m) && decide (r.pseq = n) && decide (r.sentAt + 192000 ≤ s.cyc)) = some r →
      (r.skip = false → r.tries < 12 → ∃ u, exec (.domainResendTimeout m n) s = .next u ∧ u.outbox = s.outbox ++ [.domain r.hdr r.data] ∧
        { r with tries := r.tries + 1, sentAt := s.cyc } ∈ u.dom.reqs) ∧
      (r.skip = true → ∃ u, exec (.domainResendTimeout m n) s = .next u ∧ u.outbox = s.outbox ++ [.domain (skipHdr r) []] ∧ { r with sentAt := s.cyc } ∈ u.dom.reqs) ∧
      (r.skip = false → 12 ≤ r.tries → 128 ≤ r.core → ∃ u a, exec (.domainResendTimeout m n) s = .next u ∧ u.outbox = s.outbox ++ [.domain (skipHdr r) []] ∧
        { r with skip := true, sentAt := s.cyc } ∈ u.dom.reqs ∧ a ∈ u.dom.answers ∧ a.agent = r.core - 128 ∧ a.cause = 0xA1))

/-- R389 to R393, R404, R405: membership changes and a group forms only while no context is bound, the group's counters being set to a common cycle; a member whose phase error passes 4 cycles leaves, its group register
cleared; a launch with M levels starts at its time-step; the checkpoint of a module without live slabs, dirty tiles and frames holds its memory, and a restore puts memory back. Firmware does these only while it manages the dies (R436, R440).
Choices of the model that it rests on: log entry 49. -/
def Obligations.GroupsFormAndMemoryIsRestored : Prop :=
  ∀ (s : State) (m : Nat) (ms : List Nat) (g : Word) (largest phase rank lead id : Nat) (cells : List (Nat × Byte)),
    (s.managed = false → ∀ x ∈ [Instr.domainMembershipChange m ms, .groupFormation g largest, .wholeMemoryCheckpoint, .wholeMemoryRestore cells],
      exec x s = .next s) ∧
    (s.managed = true → s.unbound = true → m < 64 → ms.length ≤ 64 → (∀ x ∈ ms, x < 64) → ms.Nodup →
      (m ∈ ms → exec (.domainMembershipChange m ms) s = .next { s with dom := { s.dom with modid := m, members := ms } }) ∧
      (m ∉ ms → exec (.domainMembershipChange m ms) s = .next { s with dom := { s.dom with modid := 0, members := [] } })) ∧
    (let n := fld g.toNat 16 8
     s.managed = true → s.unbound = true → g.getLsbD 0 = true → 1 ≤ n → n ≤ 64 → fld g.toNat 8 8 < n → s.dom.modid ∈ s.dom.members →
       fld g.toNat 24 16 ∈ s.dom.members → n ≤ s.dom.members.length →
       ∃ u, exec (.groupFormation g largest) s = .next u ∧ u.dom.dgrp = g &&& 0xFFFFFFFF01 ∧ u.cyc = (Nat.max largest s.cyc + 255) / 256 * 256 + 16384 ∧ u.mem = s.mem ∧ u.cores = s.cores) ∧
    ((s.dom.dgrp.getLsbD 0 = false ∨ phase ≤ 4) → exec (.linkRetrain phase) s = .next s) ∧
    (s.dom.dgrp.getLsbD 0 = true → 4 < phase → ∃ u, exec (.linkRetrain phase) s = .next u ∧ u.dom.dgrp = 0 ∧ u.mem = s.mem) ∧
    (let d := s.dom.dgrp.toNat
     let me := fld d 8 8
     let n := fld d 16 8
     s.dom.dgrp.getLsbD 0 = true → rank < n → lead < 64 → ∃ u, exec (.groupLeave rank lead) s = .next u ∧ u.mem = s.mem ∧
       (rank = me ∨ n ≤ 1 → u.dom.dgrp = 0) ∧
       (rank ≠ me → 2 ≤ n → me < n → u.dom.dgrp.getLsbD 0 = true ∧ fld u.dom.dgrp.toNat 8 8 = (if rank < me then me - 1 else me) ∧ fld u.dom.dgrp.toNat 16 8 = n - 1 ∧
         fld u.dom.dgrp.toNat 24 16 = lead)) ∧
    (∀ l, s.launches.find? (fun l => decide (l.id = id)) = some l → l.started = false → l.startTs ≤ s.tstep →
      (s.dom.dgrp.getLsbD 0 = true → s.dom.dgrp &&& ~~~0xFF00 = l.grp → ∃ u, exec (.mLevelStart id) s = .next u ∧ (∀ x ∈ u.launches, x.id = id → x.started = true) ∧ u.cores = s.cores) ∧
      (s.dom.dgrp.getLsbD 0 = false ∨ s.dom.dgrp &&& ~~~0xFF00 ≠ l.grp → ∃ u, exec (.mLevelStart id) s = .next u ∧ ∀ x ∈ u.launches, x.id ≠ id)) ∧
    (s.managed = true → (∀ p ∈ s.cores, p.2.bound = false ∧ ∀ b ∈ p.2.slabs, ¬(b.2.kind = .live ∧ b.2.born = true)) → (∀ p ∈ s.arrays, ∀ t ∈ p.2.tiles, ¬(t.2.inuse = true ∧ t.2.dirty = true)) →
      (∀ p ∈ s.frames, ¬(p.2.valid = true ∧ p.2.dirty = true)) →
      exec .wholeMemoryCheckpoint s = .next (s.send (.checkpoint (s.mem.filter (fun c => decide (s.paKind c.1 = .home)))))) ∧
    (s.managed = true → s.unbound = true → mrising cells = true → ∃ u, exec (.wholeMemoryRestore cells) s = .next u ∧
      ∀ a, mget 0 u.mem a = (if s.paKind a = .home then mget 0 cells a else mget 0 s.mem a))

/-- R242, R388, R397, R398: a domain atomic of K that waits for the rate, with no earlier release of its core still to come (R235), is sent once fewer than 4,096 have been in the last millisecond; an uncorrectable error of the link between the dies
ends K's oldest load across it with cause 0x83, or, where there is none, is met by the core's next access that crosses it.
Choices of the model that it rests on: log entries 50, 63 and 69. -/
def Claims.HeldAtomicsAndLinkErrors : Prop :=
  ∀ (s : State) (c m : Nat) (g : GAcc),
    (c < 128 → (s.core c).ms.gacc.find? (fun g => decide (g.kind = 0) && decide (g.err = none) && g.want.isEmpty && decide (s.paKind g.pa = .home) &&
        decide (homeDie g.pa ≠ c / 64)) = some g →
      ∃ u, exec (.d2dUncorrectableError c) s = .next u ∧ (∃ x ∈ (u.core c).ms.gacc, x = { g with err := some 0x83 }) ∧ u.mem = s.mem ∧ (u.core c).im = (s.core c).im) ∧
    (c < 128 → (s.core c).ms.gacc.find? (fun g => decide (g.kind = 0) && decide (g.err = none) && g.want.isEmpty && decide (s.paKind g.pa = .home) &&
        decide (homeDie g.pa ≠ c / 64)) = none →
      ∃ u, exec (.d2dUncorrectableError c) s = .next u ∧ c ∈ u.linkErr ∧ u.cores = s.cores ∧ u.mem = s.mem) ∧
    (∀ x todo off, s.dom.held.find? (fun x => decide (x.1 = m)) = some x → s.sentRecently m < 4096 → x.2.1 = c →
      (s.core c).ms.gacc.find? (fun g => g.unperformed) = some g → g.todo = some todo → s.releaseAhead c g.id = false → s.paKind g.pa = .window m off →
      (∀ w ∈ (s.core c).ms.pend, w.within g.pa g.nb = false) → ∃ u, exec (.domainAtomicRateRelease m) s = .next u ∧ x ∉ u.dom.held ∧ (m, s.cyc) ∈ u.dom.sent ∧ u.mem = s.mem ∧
        (∀ y ∈ (u.core c).ms.gacc, y.id = g.id → y.todo = none) ∧ u.outbox.length = s.outbox.length + 1)

/-! ## Hosts, boot, resets, thermal shutdown -/

/-- R407 to R409, R345, R360, R381: the hosts: a write, a read or an atomic of a function goes to the memory its window gives it, an address that it gives none is answered with a completer abort, and one whose
access receives an error response is also logged, with engine 10; a doorbell moves the tail of the queue it is granted, and a read of its slot returns prog; the management core reads the words of register and queue space, and an
access that names none is logged; a takeover moves the other port's bindings, at once or when that link goes down.
Choices of the model that it rests on: log entry 55. -/
def Obligations.HostAccessesArePerformed : Prop :=
  ∀ (s : State) (port fn slot aop size : Nat) (addr v cv : Word) (bs : List Byte) (consent : Bool), port < 2 → fn < 17 →
    (s.barUp port fn = true →
      let fits := 0 < bs.length ∧ bs.length ≤ 512 ∧ addr.toNat % 4096 + bs.length ≤ 4096
      let sized := aop < 3 ∧ (size = 4 ∨ size = 8) ∧ addr.toNat % size = 0
      (s.plat.thermal = false →
        (∀ pa ctx, fits → s.hostPlace port fn 1 addr bs.length = some (pa, .home, ctx) → s.extentBlocked pa bs.length true = false →
          ∃ u, exec (.hostWrite port fn addr bs) s = .next u ∧ u.homeBytes pa bs.length = bs ∧ (∀ a, a < pa ∨ pa + bs.length ≤ a → u.homeByte a = s.homeByte a) ∧
            u.cores = s.cores) ∧
        (fits → s.hostPlace port fn 1 addr bs.length = none → exec (.hostWrite port fn addr bs) s = .next (s.send (.completerAbort port fn))) ∧
        (∀ pa ctx, sized → s.hostPlace port fn 2 addr size = some (pa, .home, ctx) → s.extentBlocked pa size true = false → firstBad s.bad pa size = none →
          ∃ u, exec (.hostAtomicOp port fn addr aop size v cv) s = .next u ∧ u.outbox = s.outbox ++ [.hostData port fn (BitVec.ofNat 64 (s.homeNat pa size))] ∧
            (∀ x, atomicNew (if aop = 0 then 0x54 else if aop = 1 then 0x57 else 0x58) 0 (8 * size) (s.homeNat pa size) v.toNat cv.toNat = some x →
              u.homeBytes pa size = leBytes size x)) ∧
        (∀ pa ctx cause, fits → s.hostPlace port fn 1 addr bs.length = some (pa, .refused cause, ctx) →
          ∃ u, exec (.hostWrite port fn addr bs) s = .next u ∧ u.outbox = s.outbox ++ [.completerAbort port fn] ∧ u.mem = s.mem ∧
            (u.die (errDie 0 pa cause)).elogN = (s.die (errDie 0 pa cause)).elogN + 1) ∧
        (∀ pa ctx, sized → s.hostPlace port fn 2 addr size = some (pa, .home, ctx) → s.extentBlocked pa size true = false → firstBad s.bad pa size ≠ none →
          ∃ u, exec (.hostAtomicOp port fn addr aop size v cv) s = .next u ∧ u.outbox = s.outbox ++ [.completerAbort port fn] ∧ u.mem = s.mem ∧
            (u.die (homeDie pa)).elogN = (s.die (homeDie pa)).elogN + 1) ∧
        (sized → s.hostPlace port fn 2 addr size = none → exec (.hostAtomicOp port fn addr aop size v cv) s = .next (s.send (.completerAbort port fn))) ∧
        (∀ b q f, slot < 64 → mfind s.plat.vfs (17 * port + fn) = some b → mfind b.slots slot = some q → s.front q = some f →
          ∃ u, exec (.doorbellWrite port fn slot v) s = .next u ∧ u.homeNat f.wpa 8 = (if (BitVec.ofNat 64 (s.homeNat f.wpa 8)).toInt < v.toInt then v.toNat else s.homeNat f.wpa 8)) ∧
        (slot < 64 → mfind s.plat.vfs (17 * port + fn) = none → exec (.doorbellWrite port fn slot v) s = .next (s.send (.completerAbort port fn)))) ∧
      (s.plat.thermal = true →
        (fits → s.hostHeld port fn 1 addr bs.length = false → exec (.hostWrite port fn addr bs) s = .next (s.send (.completerAbort port fn))) ∧
        (sized → s.hostHeld port fn 2 addr size = false → exec (.hostAtomicOp port fn addr aop size v cv) s = .next (s.send (.completerAbort port fn))) ∧
        (slot < 64 → exec (.doorbellWrite port fn slot v) s = .next s))) ∧
    (let reads (m : PeerMsg) (x : Msg) : Prop := ∀ t, t ≤ s.cyc → s.dom.answers = [] → s.dom.inbox = [(t, m)] →
       s.serveHosts.outbox = s.outbox ++ [x] ∧ s.serveHosts.dom.inbox = [] ∧ s.serveHosts.mem = s.mem ∧ s.serveHosts.cores = s.cores
     (s.barUp port fn = true → s.plat.thermal = false → 0 < size → addr.toNat % 4096 + size ≤ 4096 →
       (∀ pa ctx, s.hostPlace port fn 0 addr size = some (pa, .home, ctx) → (∀ w ∈ s.works, w.2.ext = none) → firstBad s.bad pa size = none →
         reads (.hostRead port fn addr size) (.hostBytes port fn (s.homeBytes pa size))) ∧
       (s.hostPlace port fn 0 addr size = none → reads (.hostRead port fn addr size) (.completerAbort port fn)) ∧
       (∀ b q, mfind s.plat.vfs (17 * port + fn) = some b → mfind b.slots slot = some q → reads (.slotRead port fn slot) (.hostData port fn (s.progRead q))) ∧
       (mfind s.plat.vfs (17 * port + fn) = none → reads (.slotRead port fn slot) (.completerAbort port fn))) ∧
     (s.barUp port fn = true → s.plat.thermal = true → reads (.hostRead port fn addr size) (.completerAbort port fn))) ∧
    (s.plat.recovery = false → 3 ≤ s.plat.bootStep →
      ((consent = true ∨ mget true s.plat.linkUp (1 - port) = false) → ∃ u, exec (.mailboxTakeover port consent) s = .next u ∧ u.plat.takeover = none ∧
        u.plat.vfs = takeBindings s.plat.vfs port ∧ u.mem = s.mem) ∧
      (consent = false → mget true s.plat.linkUp (1 - port) = true → ∃ u, exec (.mailboxTakeover port consent) s = .next u ∧ u.plat.takeover = some port ∧
        u.plat.vfs = s.plat.vfs)) ∧
    (∃ u, exec (.hostLinkDown port) s = .next u ∧ mget true u.plat.linkUp port = false ∧
      (s.plat.takeover = some (1 - port) → u.plat.takeover = none ∧ u.plat.vfs = takeBindings s.plat.vfs (1 - port)) ∧
      (s.plat.takeover ≠ some (1 - port) → u.plat.vfs = s.plat.vfs) ∧ u.mem = s.mem)

/-- R352, R434 to R438: boot: the configuration record, then the management firmware, is accepted from copy A or B, as the flash held it at the reset (R437), and measured, or the module enters recovery; training, the stores and the
first scans follow in their steps; boot ends only once every unit has passed one. The mailbox writes a copy in flash, and quotes the measurement, signed with a nonce.
Choices of the model that it rests on: log entries 10 and 56. -/
def Obligations.BootProceedsByAcceptedRecords : Prop :=
  ∀ (s : State) (kind k secver : Nat) (body bs : List Byte) (copyB : Bool) (nonce : BitVec 256),
    let p := s.plat
    (p.recovery = false → p.thermal = false →
      (p.bootStep = 2 →
        (p.minsec = [] → p.choose 0 = some (secver, body) → ∃ u, exec (.bootRecordAccept 0) s = .next u ∧ u.plat.floor = Nat.max p.floor secver ∧
          u.plat.measure = measureNext p.measure body ∧ u.plat.bootStep = 2 ∧ (1 ≤ k → k ≤ 4 → mget 0 u.plat.minsec k = Config.minSecver body k)) ∧
        (p.minsec ≠ [] → p.choose 1 = some (secver, body) → ∃ u, exec (.bootRecordAccept 1) s = .next u ∧ u.plat.bootStep = 3 ∧ u.plat.measure = measureNext p.measure body) ∧
        ((kind = 0 ∧ p.minsec = [] ∨ kind = 1 ∧ p.minsec ≠ []) → p.choose kind = none → ∃ u, exec (.bootRecordAccept kind) s = .next u ∧ u.plat.recovery = true ∧
          u.plat.bootStep = 2 ∧ u.plat.measure = p.measure)) ∧
      (p.bootStep = 3 → ∃ u, exec .firmwareTraining s = .next u ∧ u.plat.bootStep = 4 ∧ u.plat.measure = p.measure) ∧
      (p.bootStep = 4 → p.choose 2 = none → ∃ u, exec .bootStoreLoad s = .next u ∧ u.plat.recovery = true ∧ u.plat.bootStep = 4) ∧
      (∀ b2 b3 b4 v2 v3 v4, p.bootStep = 4 → p.choose 2 = some (v2, b2) → p.choose 3 = some (v3, b3) → p.choose 4 = some (v4, b4) →
        ∃ u, exec .bootStoreLoad s = .next u ∧ u.plat.bootStep = 5 ∧ u.plat.recovery = false ∧ u.plat.measure = measureNext (measureNext (measureNext p.measure b2) b3) b4 ∧
          u.stores.poolEps = (Config.poolImage b3).1 ∧ u.stores.updEps = (Config.poolImage b3).2) ∧
      (p.bootStep = 5 → (∀ n, n < 160 → n ∈ s.fenced → mget 0 s.gens n ≠ 0) →
        ∃ u, exec .bootScan s = .next u ∧ u.plat.bootStep = 6 ∧ ∀ n, n < 160 → mget 0 u.gens n = (if mget 0 s.gens n = 0 then 1 else mget 0 s.gens n)) ∧
      (p.bootStep = 5 → (∃ n, n < 160 ∧ n ∈ s.fenced ∧ mget 0 s.gens n = 0) → (∃ n, n < 160 ∧ n ∉ s.fenced ∧ mget 0 s.gens n = 0) →
        ∃ u, exec .bootScan s = .next u ∧ u.plat.bootStep = 5 ∧ ∀ n, n < 160 → mget 0 u.gens n = (if mget 0 s.gens n = 0 ∧ n ∉ s.fenced then 1 else mget 0 s.gens n))) ∧
    ((p.recovery = true ∨ 3 ≤ p.bootStep) →
      (kind ≤ 4 → ∃ u, exec (.mailboxRecordWrite copyB kind bs) s = .next u ∧ mget [] u.plat.flash (2 * kind + (if copyB then 1 else 0)) = bs ∧
        (∀ k, k ≠ 2 * kind + (if copyB then 1 else 0) → mget [] u.plat.flash k = mget [] p.flash k) ∧ u.plat.boot = p.boot ∧ u.mem = s.mem) ∧
      exec (.attestationQuote nonce) s = .next (s.send (.quote p.measure (quoteSign p.measure nonce)))) ∧
    (∀ c b, p.accepts kind bs = some (c, b) → c = leNat (bs.take 128) / 2 ^ 64 % 2 ^ 32 ∧ p.need kind ≤ c ∧ leNat (bs.take 128) % 2 ^ 32 = 0x5253564C ∧
      leNat (bs.take 128) / 2 ^ 32 % 256 = kind ∧ b = (bs.drop 128).take (leNat (bs.take 128) / 2 ^ 96 % 2 ^ 32) ∧ sha256 b = (bs.drop 16).take 32 ∧
      sha256 (beBytes 32 (Config.recordKey bs).1 ++ beBytes 32 (Config.recordKey bs).2) = Config.romKeyHash ∧
      ecdsaVerify (Config.recordKey bs) (bs.take 64) (beNat ((bs.drop 64).take 32)) (beNat ((bs.drop 96).take 32)) = true)

/-- R434, R436, R439 to R441: resets and the thermal shutdown: a module reset, and that of a port's physical function, leaves the machine as after reset, with the flash and its floor, unless the dies are hot, when it waits for their
cooling; the reset of a virtual function removes its context; a shutdown leaves compute dies and memories without state, and ends by cooling.
Choices of the model that it rests on: log entries 47 and 57. -/
def Obligations.ResetsAndShutdownTakeEffect : Prop :=
  ∀ (s : State) (port fn : Nat) (hot : Bool), port < 2 → fn < 17 →
    let fresh (u : State) : Prop := u.cyc = State.reset.cyc ∧ u.cores = State.reset.cores ∧ u.mem = State.reset.mem ∧ u.dies = State.reset.dies ∧ u.arrays = State.reset.arrays ∧
      u.gens = State.reset.gens ∧ u.works = State.reset.works ∧ u.launches = State.reset.launches ∧ u.plat.bootStep = 2 ∧ u.plat.flash = s.plat.flash ∧ u.plat.boot = s.plat.flash ∧ u.plat.floor = s.plat.floor ∧
      u.plat.recovery = false ∧ u.plat.thermal = false
    let cool := s.plat.thermal = false ∨ s.plat.hot = false
    (cool → (∃ u, exec .moduleReset s = .next u ∧ fresh u) ∧ ∃ u, exec (.functionLevelReset port 0) s = .next u ∧ fresh u) ∧
    (¬cool → ∃ u, exec .moduleReset s = .next u ∧ exec (.functionLevelReset port 0) s = .next u ∧ u.plat.resetReq = true ∧ u.cyc = s.cyc ∧ u.plat.thermal = true) ∧
    (∀ b, 0 < fn → mfind s.plat.vfs (17 * port + fn) = some b → mfind s.removals b.ctx = none →
      ∃ u x, exec (.functionLevelReset port fn) s = .next u ∧ mfind u.removals b.ctx = some x ∧ x.step = 1 ∧ x.deadline = s.cyc + 65536) ∧
    (0 < fn → mfind s.plat.vfs (17 * port + fn) = none → exec (.functionLevelReset port fn) s = .next s) ∧
    (s.plat.thermal = false → ∃ u, exec (.thermalShutdown hot) s = .next u ∧ u.plat.thermal = true ∧ u.plat.hot = hot ∧ u.cores = [] ∧ u.mem = [] ∧ u.works = [] ∧ u.stores.words = [] ∧ u.stores.entries = [] ∧ u.cyc = s.cyc ∧
      u.plat.flash = s.plat.flash ∧ ∀ ctx ∈ s.boundContexts, ∃ r : TrapRec, r.cause = 0x88 ∧ r.cls = 3 ∧ r.ctx = ctx ∧ .record 0 r.bits ∈ u.outbox ∧ .record 1 r.bits ∈ u.outbox) ∧
    (s.plat.thermal = true →
      (s.plat.resetReq = true → ∃ u, exec .thermalShutdownExit s = .next u ∧ fresh u) ∧
      (s.plat.resetReq = false → s.plat.hot = true → ∃ u, exec .thermalShutdownExit s = .next u ∧ u.plat.hot = false ∧ u.plat.thermal = true ∧ u.mem = s.mem))

/-! ## Frames -/

/-- What a register group may write: its registers, its predicates, and whether it steers a loop. -/
def registerDests (i : Instr) : Option (List (BitVec 5) × List (BitVec 4) × Bool) :=
  match i with
  | .and f | .andImm f | .or f | .orImm f | .xor f | .xorImm f | .shl f | .shlImm f | .shr f | .shrImm f | .sra f | .sraImm f | .mul f | .mulImm f
  | .mulhs f | .mulhu f | .min f | .max f | .lui f | .sel f | .li f | .mov f => some ([f.d], [], false)
  | .add f | .addImm f | .sub f | .subImm f => some ([f.d], [f.pb], false)
  | .cmp f | .cmpImm f => some ([], [f.pa, f.pb], false)
  | .lmix f | .crc32c f | .mfs f => some ([f.d], [], false)
  | .br _ | .jmp _ => some ([], [], false)
  | .loop _ | .lbr _ => some ([], [], true)
  | _ => none

/-- A result that lies within these destinations of a sequencer. -/
def Sys2Proof.Machine.State.ownResult (s : State) (ds : List (BitVec 5) × List (BitVec 4) × Bool) (fx : Fx) : Prop :=
  match fx with
  | .reg q r _ => q = s.cur.sq ∧ ∃ d ∈ ds.1, regPlace s.me.im q d.toNat = some (false, r)
  | .win r _ => s.cur.sq = .k ∧ ∃ d ∈ ds.1, regPlace s.me.im .k d.toNat = some (true, r)
  | .pred q p _ => q = s.cur.sq ∧ p ≠ 0 ∧ ((∃ d ∈ ds.2.1, d.toNat = p) ∨ (ds.2.2 = true ∧ 8 ≤ p))
  | .loop q _ _ | .rotate q _ => q = s.cur.sq ∧ ds.2.2 = true
  | _ => False

/-- The registers, predicates, accumulators and special registers of a core that results write stand as they are. -/
def sameRegisters (a b : Core) : Prop :=
  b.im.wfile = a.im.wfile ∧ (∀ q, (b.im.seq q).regs = (a.im.seq q).regs ∧ (b.im.seq q).preds = (a.im.seq q).preds ∧ (b.im.seq q).lc = (a.im.seq q).lc ∧
    (b.im.seq q).ec = (a.im.seq q).ec ∧ (b.im.seq q).table = (a.im.seq q).table ∧ (b.im.seq q).macros = (a.im.seq q).macros) ∧
  b.im.wbase = a.im.wbase ∧ b.im.wres = a.im.wres ∧ b.im.wspl = a.im.wspl ∧ b.im.spcap = a.im.spcap ∧ b.im.vec = a.im.vec ∧ b.im.tkmap = a.im.tkmap ∧
  b.im.tkcnt = a.im.tkcnt ∧ b.im.sems = a.im.sems ∧ b.im.semov = a.im.semov ∧ b.im.qb = a.im.qb ∧ b.im.cwp = a.im.cwp ∧ b.im.jts = a.im.jts ∧
  b.im.rid = a.im.rid ∧ b.im.seg = a.im.seg ∧ b.im.sched = a.im.sched

/-- R16, R19, R50 to R56, R63, R64, R67, R73, R74: the frame of the groups that only compute: whether they issue, wait or trap, they change no memory, no
scratchpad, no other core and no other sequencer, and no register, predicate or special register as they issue; what they put in flight writes their own
destinations, and what was in flight stays there. -/
def Obligations.RegisterGroupsChangeOnlyTheirResults : Prop :=
  ∀ (s t : State) (i : Instr) (ds : List (BitVec 5) × List (BitVec 4) × Bool), registerDests i = some ds → exec i s = .next t →
    let a := s.core s.cur.core
    let b := t.core s.cur.core
    t.mem = s.mem ∧ t.blog = s.blog ∧ t.dom = s.dom ∧ t.launches = s.launches ∧ t.works = s.works ∧ t.dies = s.dies ∧ t.outbox = s.outbox ∧ t.cyc = s.cyc ∧
    (∀ d, d ≠ s.cur.core → t.core d = s.core d) ∧
    b.spad = a.spad ∧ b.zbits = a.zbits ∧ b.slabs = a.slabs ∧ b.posted = a.posted ∧ b.units = a.units ∧ b.ms = a.ms ∧ b.stash = a.stash ∧ b.walk = a.walk ∧
    sameRegisters a b ∧ (∀ q, q ≠ s.cur.sq → b.im.seq q = a.im.seq q) ∧
    (∀ x ∈ a.im.flight, x ∈ b.im.flight) ∧ (∀ x ∈ b.im.flight, x ∈ a.im.flight ∨ x.issue = s.t ∧ x.sq = s.cur.sq ∧ s.ownResult ds x.fx)

/-- R154, R183, R230, R234: the frame of scratchpad stores and of loads: a store to the scratchpad leaves every byte outside its own, in its core as at the end of the cycle and in
every other core, and all of memory; a load, and a global store, leaves all scratchpads, and memory at its homes, as they are: the store's bytes become visible there with a later release (R234). No register is written as they issue.
Choices of the model that it rests on: log entry 13. -/
def Obligations.LoadsAndStoresLeaveOtherBytes : Prop :=
  ∀ (s t : State) (f : MemF) (i : Instr),
    (i = .stLocal f ∨ i = .stLocalS f ∨ i = .ldLocal f ∨ i = .stGlobal f ∨ i = .ldGlobal f) → exec i s = .next t →
    let la := (s.rd f.base + f.disp.signExtend 64).toNat
    let nb := 2 ^ f.size.toNat
    let a := s.core s.cur.core
    let b := t.core s.cur.core
    (∀ x, t.homeByte x = s.homeByte x) ∧ (∀ d, d ≠ s.cur.core → t.core d = s.core d) ∧ sameRegisters a b ∧ b.spad = a.spad ∧ t.cyc = s.cyc ∧
    ((i = .stLocal f ∨ i = .stLocalS f) → (∀ x, (x < la ∨ la + nb ≤ x) → mget 0 b.commit.spad x = mget 0 a.commit.spad x) ∧ b.ms = a.ms) ∧
    (¬(i = .stLocal f ∨ i = .stLocalS f) → b.posted = a.posted)

/-! ## The machine as a whole -/

/-- R12, R16, R17, R44: a step in which no input and no event of the module comes first issues the group of the next sequencer. The template that its word names, amended as the
words of the group say, is decoded, and the step is that of the instruction it stands for, if the guard is true; with a false one control goes past the group; a guard that holds an uncorrectable error traps (R348). A group with an
issue fault traps with its cause. With nothing left to issue the cycle ends. An input that can take place, or else an event, is the step itself.
Choices of the model that it rests on: log entries 5, 6 and 7. -/
def Obligations.StepRunsTheDecodedGroup : Prop :=
  ∀ (s : State) (c : Nat) (sq : Seq),
    let q := (s.core c).im.seq sq
    let here (u : Cur) : Prop := u.core = c ∧ u.sq = sq ∧ u.first = q.pc ∧ u.inmac = false
    (∀ t, inputStep s = some t → step s = .next t) ∧
    (∀ t, inputStep s = none → firstEnabled s s.candidates = some t → step s = .next t) ∧
    (inputStep s = none → firstEnabled s s.candidates = none →
      (s.nextIssue = some (c, sq) → q.waiting = none →
        (∀ i u, (s.core c).fetch c sq = .run i u → (s.withCur u).flawedGuard = false → step s = exec i (s.withCur u)) ∧
        (∀ u, (s.core c).fetch c sq = .skip u → (s.withCur u).flawedGuard = false → step s = .next (s.withCur u).skipGroup) ∧
        (∀ i u, ((s.core c).fetch c sq = .run i u ∨ (s.core c).fetch c sq = .skip u) → u.core = c → ((s.core c).im.perr = none ∨ sq ≠ .k) → u.sq = sq →
          (s.withCur u).flawedGuard = true → ∃ info : TrapInfo, info.cause = 0x80 ∧ info.cls = 0 ∧ step s = .next ((s.withCur u).trapHere info)) ∧
        (∀ cause w fsel r u, (s.core c).fetch c sq = .bad cause w fsel r u → u.core = c → ((s.core c).im.perr = none ∨ sq ≠ .k) → u.sq = sq →
          ∃ info : TrapInfo, info.cause = cause ∧ info.cls = 0 ∧ step s = .next ((s.withCur u).trapHere info)) ∧
        (∀ w sl i, (s.core c).im.flaws = [] → q.mpos = none → q.inStream q.pc = true → q.streamGroup = { carries := [], main := some w } → patchT w < 62 → patchF w = 0 →
          mget Slot.empty q.table (patchT w) = sl → sl.loading = false → sl.reason = 0 → decodeTemplate sq sl.t = .ok i → (fmtOf i).isSome = true →
          (guardTrue q sl.t = true → ∃ u, here u ∧ u.nxt = q.pc + 4 ∧ step s = exec i (s.withCur u)) ∧
          (guardTrue q sl.t = false → ∃ u, here u ∧ u.nxt = q.pc + 4 ∧ step s = .next (s.withCur u).skipGroup)) ∧
        (∀ w sl b i j m cs, (s.core c).im.flaws = [] → q.mpos = none → q.inStream q.pc = true → q.streamGroup = { carries := cs, main := some w } → patchT w < 62 →
          mget Slot.empty q.table (patchT w) = sl → sl.loading = false → sl.reason = 0 → decodeTemplate sq sl.t = .ok j → fmtOf j = some m →
          structureFault q.streamGroup (some m) = none → patchF w < 30 → (patchF w = 0 ∨ (fmtField m (patchF w)).isSome = true) → highFault q.streamGroup w m = none →
          guardTrue q sl.t = true → amend m sl.t q.streamGroup w = .ok b → decodeTemplate sq b = .ok i →
          ∃ u, here u ∧ u.nxt = q.pc + BitVec.ofNat 64 (4 * (cs.length + 1)) ∧ step s = exec i (s.withCur u))) ∧
      (s.nextIssue = none → (∀ t, firstEnabled s s.lateCandidates = some t → step s = .next t) ∧
        (firstEnabled s s.lateCandidates = none → step s = .next s.endCycle ∧ s.endCycle.cyc = s.cyc + 1)))

/-- R16: a group whose guard is false takes its issue cycle and does nothing else: control goes past it, and no register, predicate, memory or result in flight changes, and no
trap is raised. The guard p0 with sense 0 is always true, and with sense 1 always false. -/
def Obligations.FalseGuardsGoPastTheGroup : Prop :=
  (∀ (q : SeqSt) (b : Template), guardOf b = 0 → (senseOf b = 0 → guardTrue q b = true) ∧ (senseOf b = 1 → guardTrue q b = false)) ∧
  ∀ (s : State) (c : Nat) (sq : Seq) (u : Cur), inputStep s = none → firstEnabled s s.candidates = none → s.nextIssue = some (c, sq) →
    ((s.core c).im.seq sq).waiting = none → (s.core c).fetch c sq = .skip u → (s.withCur u).flawedGuard = false → ((s.core c).im.perr = none ∨ sq ≠ .k) →
    ∃ t, step s = .next t ∧ t.mem = s.mem ∧ t.blog = s.blog ∧ t.outbox = s.outbox ∧ t.cyc = s.cyc ∧ (∀ d, d ≠ c → t.core d = s.core d) ∧
      (let a := s.core c
       let b := t.core c
       sameRegisters a b ∧ b.im.flight = a.im.flight ∧ b.spad = a.spad ∧ b.posted = a.posted ∧ b.ms = a.ms ∧ b.stops = a.stops ∧ b.im.perr = a.im.perr ∧
       (∀ q, q ≠ sq → b.im.seq q = a.im.seq q) ∧ (b.im.seq sq).last = some a.im.sched ∧ (b.im.seq sq).halted = (a.im.seq sq).halted ∧
       ((a.im.seq sq).mpos = none → (b.im.seq sq).pc = (a.im.seq sq).pc + BitVec.ofNat 64 (4 * u.entries) ∧ (b.im.seq sq).mpos = none))

/-- Tables 2-4, 2-11 to 2-21: words written out, bit field by bit field, from the encodings, and the instructions they stand for. -/
def Obligations.WordsDecodeToTheirInstruction : Prop :=
  let word (cls : BitVec 2) (code : BitVec 8) (guard : BitVec 4) (sense : BitVec 1) (fields : BitVec 104) : Template := cls ++ code ++ cls ++ guard ++ sense ++ 0#7 ++ fields
  decodeTemplate .k (word 0 0xF3 0 0 (0#45 ++ 0#4 ++ 0#4 ++ 1#4 ++ 5#32 ++ 0#5 ++ 9#5 ++ 8#5)) = .ok (.addImm { d := 8, a := 9, b := 0, imm := 5, var := 1, pa := 0, pb := 0 }) ∧
  decodeTemplate .l (word 1 0xF6 3 1 (0#45 ++ 2#4 ++ 1#4 ++ 6#4 ++ 0#32 ++ 4#5 ++ 3#5 ++ 0#5)) = .ok (.cmp { d := 0, a := 3, b := 4, imm := 0, var := 6, pa := 1, pb := 2 }) ∧
  decodeTemplate .k (word 0 0xFC 0 0 (0#44 ++ 0#4 ++ 0#4 ++ 1#16 ++ 0#8 ++ 0#6 ++ 0#2 ++ 0#5 ++ 0#5 ++ 0#5 ++ 0#5)) =
    .ok (.tkput { d := 0, a := 0, b := 0, c := 0, seq := 0, slot := 0, idx := 0, n := 1, var := 0, pa := 0 }) ∧
  decodeTemplate .s (word 3 0xF9 0 0 (0#33 ++ 0#4 ++ 0#4 ++ 0#2 ++ 0#32 ++ 7#5 ++ 0xFFFFFE#24)) = .ok (.jmp { off := 0xFFFFFE, a := 7, cnt := 0, frame := 0, var := 0, pa := 0 }) ∧
  decodeTemplate .k (word 1 0xF3 0 0 0) = .error .wrongClass ∧ decodeTemplate .k (word 0 0x4B 0 0 0) = .error .reservedOpcode ∧
  decodeTemplate .k (word 0 0xF3 0 0 (1#45 ++ 0#59)) = .error .formatRsv ∧ decodeTemplate .k (word 0 0xF3 0 0 (0#45 ++ 0#4 ++ 0#4 ++ 3#4 ++ 0#47)) = .error .fieldValue ∧
  decodeCall (62#6 ++ 5#5 ++ 3#5 ++ 0x1234#16) 1 2 3 = some (.macroCall 5 3 0x1234 1 2 3)

/-- R36 to R40, R30, R31: decoding and encoding agree: what a well-formed instruction of a class is encoded as, under any guard, is decoded as that instruction and that guard, and every well-formed
instruction has such a template; a template that is decoded is the only one of its instruction and guard. The same holds of the call words. -/
def Obligations.DecodingAndEncodingAgree : Prop :=
  (∀ (cls : Seq) (g : BitVec 4) (sn : BitVec 1) (i : Instr), wellFormed cls i = true → ∃ b, encode cls g sn i = some b ∧ decodeTemplate cls b = .ok i ∧ guardOf b = g ∧ senseOf b = sn) ∧
  (∀ (cls : Seq) (b : Template) (i : Instr), decodeTemplate cls b = .ok i → wellFormed cls i = true ∧ encode cls (guardOf b) (senseOf b) i = some b) ∧
  (∀ (m idle : BitVec 5) (p0 p1 p2 p3 : BitVec 16), ∃ w, encodeCall (.macroCall m idle p0 p1 p2 p3) = some w ∧ decodeCall w p1 p2 p3 = some (.macroCall m idle p0 p1 p2 p3)) ∧
  (∀ (w : Half) (p1 p2 p3 : BitVec 16) (i : Instr), decodeCall w p1 p2 p3 = some i → encodeCall i = some w)

/-- Every step keeps memory in its canonical form: rising addresses, no zero byte listed (log 1); so equal memories are equal data. -/
def Obligations.EveryStepKeepsMemoryCanonical : Prop := ∀ s t : State, Memory.wf s.mem = true → step s = .next t → Memory.wf t.mem = true

/-- R7, R10, R93: what reset leaves: %cyc at zero; of a core the registers g, l and w at the value the model names (log 2), p0 set and every other predicate false, no sequencer with a patch
stream; %tkmap as its table gives it; no core bound, and memory in its canonical form. -/
def Obligations.ResetLeavesTheMachine : Prop :=
  let s := State.reset
  s.cyc = 0 ∧ s.tstep = 0 ∧ s.plat.bootStep = 2 ∧ Memory.wf s.mem = true ∧ (∀ a, s.homeByte a = 0) ∧
  ∀ c, let co := s.core c
    co.bound = false ∧ co.im.seg = none ∧ co.im.tkmap = 0x0E09030C02080104 ∧ co.im.wbase = 0 ∧ co.im.wres = 24 ∧ co.im.wspl = 0 ∧ s.specialRead c 0x10 = some 0 ∧ s.specialRead c 0x13 = some 0 ∧
    (∀ q, (co.im.seq q).halted.isSome = true ∧ (co.im.seq q).pred 0 = true ∧ (∀ p, 1 ≤ p → p < 16 → (co.im.seq q).pred p = false) ∧ ∀ r, co.im.reg q r = 0)

/-! ## Statements of two parts -/

/-- R50, R54: `add`, `sub` and `cmp`; both of the statements it joins. -/
def Obligations.SumsAndComparisons : Prop := Claims.AddAndSubSaturateAndFlag ∧ Claims.CompareWritesConditionAndComplement

/-- R24, R55, R56, R75, R76: transfers of control, and what ends it; both of the statements it joins.
Choices of the model that they rest on: log entry 67. -/
def Obligations.BranchesHaltsAndTraps : Prop := Claims.BranchesTransferToACheckedTarget ∧ Claims.HaltAndTrapStopTheSequencer

/-- R58 to R61, R63, R64: `loop` enters its body or leaves at once, and `lbr` counts, rotates and branches; a call moves the register window and spills
what does not fit, and a return moves it back and fills; the four statements it joins.
Choices of the model that they rest on: log entries 18, 19 and 67. -/
def Obligations.LoopsCallsAndReturns : Prop :=
  Claims.LoopEntersOrLeaves ∧ Claims.LbrCountsRotatesAndBranches ∧ Claims.CallMovesTheWindow ∧ Claims.RetMovesTheWindowBack

/-- R66 to R69, R73, R74, R102, R141, R270, R397: reads and writes of special registers, and the other instructions of fixed latency; the statements it
joins. -/
def Obligations.SpecialRegistersSlotsAndChecks : Prop :=
  Claims.MfsReadsSpecialRegisters ∧ Claims.MtsWritesSpecialRegisters ∧ Claims.OtherFixedLatencyInstructions

/-- R102 to R105: tokens, alignment within a core, and of a group of cores; the statements it joins. -/
def Obligations.TokensAndAlignment : Prop :=
  Claims.TokensAreAddedAndTaken ∧ Claims.AlignFeedsTheParkedSequencers ∧ Claims.GalignHoldsReleasesAndBreaks

/-- R218 to R220, R222, R223: the slab instructions, and the stash window; both of the statements it joins. -/
def Obligations.SlabsAndTheStashWindow : Prop := Claims.SlabInstructionsActOnTheirRun ∧ Claims.StashWindowFillsExpiresAndCloses

/-- R278: the semaphores of a core, and those of memory; both of the statements it joins. -/
def Obligations.SemaphoresOfCoresAndOfMemory : Prop := Claims.SemaphoresAreTakenAndReleased ∧ Claims.MemorySemaphores

/-- R234, R236, R238, R240, R278: phases and fences, and the completion of boundaries; both of the statements it joins. -/
def Obligations.BoundariesArePublishedAndCompleted : Prop := Claims.BoundariesReleaseAndAcquire ∧ Claims.BoundariesComplete

/-- R110 to R114, R244: launches, their completion, and their triggers; both of the statements it joins. -/
def Obligations.LaunchesTriggerAndComplete : Prop := Claims.LaunchesAreAcceptedAndComplete ∧ Claims.LtrigTriggersItsUnit

/-- R214, R220, R221, R225: the renew unit and the sweeper; both of the statements it joins. -/
def Obligations.SlabsAreRenewed : Prop := Claims.RenewUnitRewritesAndCompletes ∧ Claims.SweeperRenewsAndMarksLost

/-- R31, R33, R34, R41, R42, R70, R71: loads of template slots, and definitions and calls of macros; both of the statements it joins.
Choices of the model that they rest on: log entries 4, 25 and 67. -/
def Obligations.TemplatesAndMacrosAreDefined : Prop := Claims.TldWritesTemplateSlots ∧ Claims.MacrosAreDefinedAndCalled

/-- R271 to R273, R275, R276, R291, R292, R316, R401: what instructions place at the queue port; both of the statements it joins. -/
def Obligations.PacketsArePlaced : Prop := Claims.EngInstructionsPlaceTheirPacket ∧ Claims.PushesAndFencesPlacePackets

/-- R262, R263, R268, R269, R275, R276, R284: packets that need no engine, and the commit and completion of all; both of the statements it joins. -/
def Obligations.PacketsRunToTheirCompletion : Prop := Claims.PacketsWithoutAnEngineRun ∧ Claims.PacketsCommitAndComplete

/-- R297, R299 to R304: the sketch and the hot-row cache; both of the statements it joins. -/
def Obligations.SketchesAndHotRows : Prop := Claims.SketchesCountAndDecay ∧ Claims.HotRowsAreKept

/-- R312 to R322: the near-bank units: their commands, and what the fixed entry points compute; both of the statements it joins. -/
def Obligations.NearBankUnitsCompute : Prop := Claims.NearBankCommandsRun ∧ Claims.NearBankEntryPointsCompute

/-- R72, R411 to R415, R418, R420, R421: the journal: its instructions, and its records; both of the statements it joins. -/
def Obligations.RecordsAreStagedAndAppended : Prop := Claims.RecordsAreAppended ∧ Claims.JournalInstructionsStageAndDraw

/-- R236, R242, R243, R388, R395 to R399: responses of other modules, atomics held for the rate, and errors of the link between the dies; both of
the statements it joins. -/
def Obligations.DomainAnswersAndHeldAtomics : Prop := Claims.DomainResponsesArrive ∧ Claims.HeldAtomicsAndLinkErrors

/-- R177, R178, R188, R194, R195, R197, R200, R203, R256, R323, R349, R350, R371, R373: the matrix arrays: their commands, transfers and replay;
both of the statements it joins. -/
def Obligations.ArraysRunTheirCommands : Prop := Claims.ArrayCommandsBeginRunAndEnd ∧ Claims.ArrayTransfersAndReplay

/-- R230, R231, R234, R236, R242, R345, R346: global accesses of K, and what returns; both of the statements it joins. -/
def Obligations.GlobalAccessesIssueAndReturn : Prop := Claims.GlobalLoadsAndStores ∧ Claims.AccessesReturn

/-- R140, R142 to R144, R146, R151, R152, R156 to R168, R355: the vector instructions, and their integer and floating elements; the statements it joins. -/
def Obligations.VectorInstructionsCompute : Prop :=
  Claims.VectorInstructionsComputeTheirRow ∧ Claims.VectorIntegerElements ∧ Claims.VectorFloatElements

/-- R175, R343, R363 to R369, R376, R379: the walk of the timetable and the switch of contexts; both of the statements it joins. -/
def Obligations.CoresWalkTheTimetable : Prop := Claims.DispatchWalksTheTimetable ∧ Claims.CoresSwitchContexts

/-- R23, R95, R98, R99, R337, R339, R340, R346: traps, and the ends of segments; both of the statements it joins. -/
def Obligations.SegmentsEndAndTrapsStop : Prop := Claims.TrapsAreRecordedAndStopTheCore ∧ Claims.SegmentsEndAndOverrun

/-- R285 to R290, R293 to R295: the index engine's packets and work-lists; both of the statements it joins. -/
def Obligations.ListsAndIndexPacketsWork : Prop := Claims.IndexPacketsDoTheirWork ∧ Claims.WorkListsPushAndPop

/-- R107, R182, R184, R279 to R283: the plane unit and the copy channels; both of the statements it joins. -/
def Obligations.PlaneBlocksAndCopies : Prop := Claims.PlaneBlocksAreBuilt ∧ Claims.CopiesMoveTheirRuns

/-! ## Where each form completes: for each, conditions on the state and the operands alone under which it answers a next state. Each restates nothing
of the others' results beyond what tells that its effect took place. -/

/-- The form answers a next state, of which this holds. -/
def Sys2Proof.Machine.State.Completes (s : State) (i : Instr) (P : State → Prop) : Prop := ∃ t, exec i s = .next t ∧ P t

/-- R234, R238, R240, R278: where boundaries and semaphores complete: `phase` and `fence` of an untimed segment with no earlier atomic to wait for, `sacq` and `sacq.try` with
enough on their semaphore, `srel` always, `sacq.m` and `srel.m` at an aligned address of this module; and a boundary that K stands behind.
Choices of the model that it rests on: log entries 4, 13 and 62. -/
def Obligations.BoundaryAndSemaphoreFormsComplete : Prop :=
  ∀ (s : State) (f : MgtF) (s1 : State) (p : KPiece) (c at_ : Nat),
    let here := s.cur.core
    let k := f.idx.toNat
    let n := f.n.toNat
    let has := mget 0 s.me.im.sems k
    (s.Ready [] → s.me.timed = false → s.ordered here = true →
      (∃ t, s.Issues (.phase f) t) ∧ (∃ t, s.Issues (.fenceRel f) t) ∧ (∃ t, s.Issues (.fenceAcq f) t) ∧
      (n ≤ has → ∃ t, s.Issues (.sacq f) t ∧ s.Issues (.sacqTry f) (t.wrPred 1 f.pa true) ∧ mget 0 t.me.im.sems k = has - n)) ∧
    (s.Ready [] → has < n → s.Issues (.sacqTry f) (s.wrPred 1 f.pa false)) ∧
    (s.Ready [] → ∃ t, s.Issues (.srel f) t ∧ ∃ a ∈ (t.core here).ms.semAdds, a.sem = k ∧ a.n = n) ∧
    (s.Ready [f.a, f.b] → f.pa = 0 → (s.rd f.a).toNat % 8 = 0 → s.me.timed = false → f.var.toNat % 8 ≠ 4 → s.Reaches 2 (s.rd f.a) 8 s1 [p] →
      s1.paKind p.pa = .home → s1.extentBlocked p.pa 8 false = false → s1.extentBlocked p.pa 8 true = false → s1.homeBad here 0 p.pa 8 = false →
      s1.ordered here = true →
      ((s.rd f.b).toNat ≤ s1.homeNat p.pa 8 → ∃ t, s.Issues (.sacqM f) t) ∧
      (s.me.ms.loadsOut < 16 → ∃ t, s.Issues (.srelM f) t ∧ ∃ g ∈ (t.core here).ms.gacc, g.kind = 2 ∧ g.pa = p.pa)) ∧
    (c < 128 → (s.core c).ms.rels = [] → (s.core c).ms.hold = some (.boundary (some 3) none at_) → at_ ≤ s.cyc →
      s.Completes (.boundaryComplete c) (fun t => (t.core c).ms.hold = none))

/-- R230, R236, R242, R243, R345: where accesses to memory issue and return: a load, store or atomic of K at an aligned address that translates, with room for it; and what returns to the
core.
Choices of the model that it rests on: log entries 4, 13 and 14. -/
def Obligations.GlobalAccessFormsComplete : Prop :=
  ∀ (s : State) (f : MemF) (s1 : State) (p : KPiece) (c : Nat) (g : GAcc) (cause : Nat),
    let va := s.rd f.base + f.disp.signExtend 64
    let nb := 2 ^ f.size.toNat
    let gone (t : State) : Prop := (t.core c).ms.gacc.map (·.id) = ((s.core c).ms.gacc.filter (fun x => !decide (x.id = g.id))).map (·.id)
    (va.toNat % nb = 0 →
      (s.Ready [f.base] → s.Reaches 0 va nb s1 [p] → s.me.ms.loadsOut < 16 → s.me.ms.awaitsAtomic [p] = false →
        ∃ t g, s.Issues (.ldGlobal f) t ∧ (t.core s.cur.core).ms.gacc = s.me.ms.gacc ++ [g] ∧ g.kind = 0) ∧
      (s.Ready [f.base, f.val] → s.Reaches 1 va nb s1 [p] → s.me.ms.storesOut < 32 →
        ∃ t, s.Issues (.stGlobal f) t ∧ s.me.ms.pend.length < (t.core s.cur.core).ms.pend.length) ∧
      (∀ i, i ∈ [Instr.aadd f, .amin f, .amax f, .aswap f, .acas f, .aand f, .aor f, .ramo f] →
        s.Ready [f.base, f.val, f.cv] → (nb = 4 ∨ nb = 8) → s.Reaches 2 va nb s1 [p] → s1.paKind p.pa = .home → p.n = nb → f.var.toNat % 4 = 0 →
        s.me.ms.loadsOut < 16 → (∀ g ∈ s.me.ms.gacc, g.unperformed = false) → s1.extentBlocked p.pa nb true = false →
        s1.homeBad s.cur.core 2 p.pa nb = false → s1.releaseAhead s.cur.core s1.serial = false →
        ∃ t g, s.Issues i t ∧ g ∈ (t.core s.cur.core).ms.gacc ∧ g.kind = 2 ∧ g.pa = p.pa ∧ g.todo = none ∧ g.err = none)) ∧
    (c < 128 →
      ((s.core c).returning s.cyc [0, 1] false = some g → g.free = true → s.Completes (.globalAccessResponse c) gone) ∧
      ((s.core c).returning s.cyc [2] false = some g → s.Completes (.atomicResponse c) gone) ∧
      ((s.core c).returning s.cyc [0, 2] true = some g → g.err = some cause → (s.core c).bound = true → (s.core c).ctx = g.ctx →
        s.Completes (.errorResponse c) (fun t => gone t ∧ (t.core c).im.perr.isSome = true)))

/-- A packet of the embedding engines, or of the pooling or scatter-update units: its kind, what its event asks of it, and the work whose results it places. -/
def packetRow (i : Instr) (x : Work) : Option (Nat × Nat × Prop × (Work → State → EngR Res)) :=
  let ep := pEp x.pkt
  match i with
  | .indexGather w => some (w, 0x10, True, gatherWork)
  | .indexScatter w => some (w, 0x11, True, scatterWork)
  | .indexDedup w => some (w, 0x12, True, dedupWork)
  | .indexBucket w => some (w, 0x13, True, bucketWork)
  | .worklistPush w => some (w, 0x14, True, wlpushWork)
  | .worklistPop w => some (w, 0x15, True, wlpopWork)
  | .worklistDedupPush w => some (w, 0x16, True, wldinWork)
  | .sketchQuery w => some (w, 0x18, pSub x.pkt = 0, sketchWork false)
  | .sketchQueryAdd w => some (w, 0x18, pSub x.pkt = 1, sketchWork true)
  | .hotrowFill w => some (w, 0x19, pSub x.pkt = 0, hotWork)
  | .hotrowEvict w => some (w, 0x19, pSub x.pkt = 1, hotWork)
  | .hotrowFlush w => some (w, 0x19, pSub x.pkt = 2, hotWork)
  | .hotrowPin w => some (w, 0x19, pSub x.pkt = 3, hotWork)
  | .hotrowUnpin w => some (w, 0x19, pSub x.pkt = 4, hotWork)
  | .poolCard w => some (w, 0x20, x.joined = true, poolWork)
  | .supdSgd w => some (w, 0x30, ep = 0, supdWork)
  | .supdMomentum w => some (w, 0x30, ep = 1, supdWork)
  | .supdAdagrad w => some (w, 0x30, ep = 2, supdWork)
  | .supdAdam w => some (w, 0x30, ep = 3, supdWork)
  | .supdInstalled w => some (w, 0x30, 4 ≤ ep, supdWork)
  | _ => none

/-- R262, R266, R268, R275, R276, R285 to R310, R312 to R320, R400 to R404, R411: where packets complete: one whose work succeeds and whose record has a place ends with cause 0, its writes and its record's to be
performed; the others run, commit and complete.
Choices of the model that it rests on: log entries 4, 9, 10, 16, 28, 30, 31, 32, 52, 53 and 58. -/
def Obligations.PacketFormsComplete : Prop :=
  ∀ (s : State) (w : Nat) (x : Work),
    (∀ i kind (asks : Prop) body, packetRow i x = some (w, kind, asks, body) → s.Working w x → pKind x.pkt = kind → asks →
      ∀ r s1, body x s = .ok r s1 → ∀ wr s2, s1.recordPut x (recordBytes r.count r.flags 0 r.hits) = .ok wr s2 →
      s.WorkEnds i w x 0 (r.writes.1 ++ wr.1) (r.writes.2 ++ wr.2)) ∧
    (s.Working w x →
      (pKind x.pkt = 0 → s.WorkEnds (.nullPacket w) w x 0 [] []) ∧
      (pKind x.pkt = 3 → s.WorkEnds (.signalPacket w) w x 0 [] []) ∧
      (∀ bs t, pKind x.pkt = 1 → (pBody x.pkt 0).toNat % 8 = 0 → x.joined = true → s.gread (s.workAgent x) (pBody x.pkt 0) 8 = .ok bs t →
        (pBody x.pkt 1).toNat ≤ leNat bs → s.WorkEnds (.joinPacket w) w x 0 [] []) ∧
      (∀ ts, pKind x.pkt = 2 → (pBody x.pkt 2).toNat % 128 = 0 → x.buf ≠ [] → tensorOf x.buf (pBody x.pkt 0).toNat (pBody x.pkt 1).toNat = .ok ts → ts.empty = true →
        s.WorkEnds (.copyPacket w) w x 0 [] []) ∧
      (∀ r t, pKind x.pkt = 0x20 → x.joined = false → poolParts x s = .ok r t →
        s.Completes (.poolingRowService w) (fun u => ∃ y, mfind u.works w = some y ∧ y.joined = true ∧ y.cause = 0 ∧ y.parts = r.1.map Wf.pack ∧ y.pos = r.2)) ∧
      (∀ j t, pKind x.pkt = 0x40 → nbDispatch x s = .ok (.ok j) t → t.unitFull (nearUnit j.pa) = false → (∀ y ∈ t.works, y.2.nbUndone = false) →
        s.Completes (.nearBankDispatch w) (fun u => ∃ y, mfind u.works w = some y ∧ y.stage = .dispatched)) ∧
      (∀ mb s1 lb s2, pKind x.pkt = 0x50 → x.pos = [] → s.shardBytes x = .ok mb s1 → s1.listBytes x = .ok lb s2 →
        s.Completes (.exchangePool w) (fun u => ∃ y, mfind u.works w = some y ∧ y.frames = [(0, mb), (1, lb)])) ∧
      (∀ d s1, pKind x.pkt = 0x51 → s.redBehind w x = false → x.pos = [] → bit s.dom.dgrp.toNat 0 = true → s.cyc < s.firstContrib x + oneMs →
        s.redSource x = .ok d s1 → s.Completes (.exchangeReduce w) (fun u => ∃ y, mfind u.works w = some y ∧ y.frames = d.keep)) ∧
      (∀ aw, pKind x.pkt = 0x51 → s.redBehind w x = false → x.pos = 1 :: aw → (∃ r ∈ aw, s.contrib x.ctx r = none) → s.firstContrib x + oneMs ≤ s.cyc →
        s.Completes (.collectiveTimeout w) (fun u => mfind u.works w = some { x with cause := 0xA3 })) ∧
      (∀ k, pKind x.pkt = 0x60 → x.pos = [1, k] → k < s.jrnl.acked → s.WorkEnds (.journalAppendPacket w) w x 0 [] [])) ∧
    (∀ i f, nearRow i (pEp x.pkt) = some (w, true, f) → mfind s.works w = some x → pKind x.pkt = 0x40 → x.stage = .dispatched → x.at_ ≤ s.cyc → x.nbUndone = true →
      ∀ j, x.nbJob = some j → s.Completes i (fun u => u.mem = (f j s).st.mem ∧ ∃ y, mfind u.works w = some y ∧ y.stage = .dispatched ∧ y.nbUndone = false)) ∧
    (mfind s.works w = some x → x.at_ ≤ s.cyc →
      (isCard x.pkt = true → x.stage = .performed → pTs x.pkt ≤ s.cp x.ctx (cardClass (pKind x.pkt)) → s.commitHeld x = false → s.badPost x = none →
        s.Completes (.jobCardCommit w) (fun u => mfind u.works w = some { x with stage := .committed })) ∧
      (x.stage = .committed → x.wait = .go → pf x.pkt 9 2 ≠ 2 → x.cause = 0 → (∀ r ∈ s.dom.reqs, r.core ≠ 128 + (1024 + x.q)) →
        (∀ a ∈ s.dom.answers, a.agent ≠ 1024 + x.q) → s.Completes (.packetComplete w) (fun u => mfind u.works w = none))) ∧
    (∀ d, d < 2 → fld (s.die d).skcfg.toNat 16 20 ≠ 0 → s.tstep % fld (s.die d).skcfg.toNat 16 20 = 0 → (s.die d).decayed ≠ s.tstep →
      s.Completes (.sketchDecay d) (fun u => (u.die d).decayed = s.tstep)) ∧
    (∀ n m f, m < 8 → mfind s.frames (8 * n + m) = some f → f.valid = true → f.dirty = true → s.frameHeld (8 * n + m) = false →
      s.Completes (.frameWriteBack n m) (fun u => u.homeBytes f.home f.rb = s.homeBytes (s.frameAt (8 * n + m)) f.rb)) ∧
    (∀ d r i, d < 2 → s.fills.find? (fun f => decide (f.die = d) && !s.extentBlocked f.home f.rb false && !s.victimHeld f) = some r → s.hr ≠ 0 → r.rb ≤ s.frameSize →
      s.resident r.ctx r.tid r.row = none → s.victim d (s.hotSet r.tid r.row) = some i → mfind s.frames i = none →
      s.Completes (.frameFill d) (fun u => ∃ f, mfind u.frames i = some f ∧ f.valid = true ∧ f.row = r.row)) ∧
    (∀ words entries, s.managed = true → (∀ y ∈ s.works, y.2.stage ≠ .dispatched) → (∀ p ∈ s.nbHeld, ∀ e ∈ p.2, e ≤ s.cyc) → words.length ≤ 256 → entries.length ≤ 252 → (∀ x ∈ words, microLegal x = true) →
      (∀ e ∈ entries, e.toNat / 2 ^ 9 % 64 = 0) → Config.storeVerified words entries = true →
      s.Completes (.controlStoreLoad words entries) (fun u => ∀ k, mget 0 u.stores.words k = words.getD k 0))

/-- R105, R114, R197, R200, R220 to R225, R239, R281 to R283, R349, R371: where the events of a core, its array and its slabs complete.
Choices of the model that it rests on: log entries 4, 23, 25, 26, 27, 33, 34, 35, 36 and 63. -/
def Obligations.UnitFormsComplete : Prop :=
  ∀ (s : State) (c n q : Nat) (e : EngCmd) (r : List EngCmd), c < 128 →
    let co := s.core c
    (co.units.renew = e :: r → co.lateStart (e :: r) s.cyc = none → e.begun = none → e.fill = true → co.begins e s.cyc = true →
      s.Completes (.renewUnitCommand c) (fun u => ∃ e', (u.core c).units.renew = e' :: r ∧ e'.begun = some s.cyc)) ∧
    (co.units.renew = e :: r → e.begun.isSome = true → e.nextAt ≤ s.cyc → 16 * ((e.n + 15) / 16) ≤ e.j →
      s.Completes (.renewUnitComplete c) (fun u => (u.core c).units.renew = r)) ∧
    (co.units.plane = e :: r → co.lateStart (e :: r) s.cyc = none → e.begun.isSome = true → e.nextAt ≤ s.cyc → e.j / 32 < e.n → e.j % 32 ≠ 0 →
      co.planeBad e (e.j / 32) (e.j % 32) = none → s.Completes (.planeCommand c) (fun u => ∃ e', (u.core c).units.plane = e' :: r ∧ e'.j = e.j + 1)) ∧
    (co.units.plane = e :: r → e.begun.isSome = true → e.nextAt ≤ s.cyc → 32 * e.n < e.j →
      s.Completes (.planeComplete c) (fun u => (u.core c).units.plane = r)) ∧
    (n < 4 → mget [] co.units.chans n = e :: r →
      (∀ t, e.begun = none → co.lateStart (e :: r) s.cyc = none → co.begins e s.cyc = true → e.b.toNat % 128 = 0 → co.checkLocal e.ctx s.tstep e.b.toNat 128 true = none →
        tensorOf (co.bytes e.b.toNat 128) e.ends.1 e.ends.2 = .ok t → t.empty = true →
        s.Completes (.copyCommand c n) (fun u => ∃ e', mget [] (u.core c).units.chans n = e' :: r ∧ e'.begun = some s.cyc)) ∧
      (e.begun.isSome = true → e.idx = [] → e.nextAt ≤ s.cyc → s.writesOut (4 * c + n) = false →
        s.Completes (.copyComplete c n) (fun u => mget [] (u.core c).units.chans n = r))) ∧
    (∀ st, co.stash = some st → st.ctx = co.ctx →
      (∀ k at_, st.closing = some (k, at_) → at_ ≤ s.cyc → s.Completes (.stashCloseComplete c) (fun u => (u.core c).stash = none)) ∧
      (∀ va m, st.missing = va :: m → s.Completes (.stashMissFill c) (fun u => ∃ st', (u.core c).stash = some st' ∧ st'.missing = m)) ∧
      (∀ e, n < 8192 → mfind st.ents n = some e → e.dirty = 0 → e.ts + 1875 ≤ s.cyc / 256 →
        s.Completes (.stashEntryExpire c (8192 * st.ctx + n)) (fun u => (u.core c).stash = some { st with ents := mdel st.ents n })) ∧
      (∀ e, n < 8192 → mfind st.ents n = some e → e.dirty ≠ 0 → 1875 ≤ s.cyc / 256 - e.ts + co.swthr →
        s.Completes (.sweepStashWriteback c (8192 * st.ctx + n)) (fun u => (u.core c).stash = some { st with ents := mset st.ents n { e with dirty := 0 } }))) ∧
    (let b := co.slab n
     let age := s.cyc / 256 - b.stamp
     let near := b.born = true ∧ 1875 ≤ age + co.swthr ∧ age ≤ 1875 ∧ b.stamp ≠ s.cyc / 256
     (b.kind = .ring → near → s.Completes (.sweepRingRenew c n) (fun u => ((u.core c).slab n).stamp = s.cyc / 256)) ∧
     (b.kind = .live → near → s.wireFreezes b.owner c = true →
       s.Completes (.sweepFrozenSlabRenew c n) (fun u => ((u.core c).slab n).stamp = s.cyc / 256)) ∧
     (b.kind = .live → b.born = true → 1875 < age → co.bound = false → s.Completes (.sweepMarkLost c n) (fun u => ((u.core c).slab n).kind = .lost))) ∧
    (∀ g at_ tm m, co.ms.hold = some (.tld g n (tm :: m) at_) → at_ ≤ s.cyc → co.tableTime s.cyc = true →
      s.Completes (.tldSlotWrite c) (fun u => (mget Slot.empty ((u.core c).im.seq g).table n).t = tm)) ∧
    (∀ desc tab at_ d ls i u, co.ms.hold = some (.launch desc tab at_ false) → at_ ≤ s.cyc → co.counting s.cyc = true → s.ordered c = true → s.acceptsAhead c = false →
      s.launchRead co.ctx desc tab = some (d, ls) → countsOf 3 ls = [] → ((s.release c 3).core c).im.perr = none →
      ((s.release c 3).core c).fetch c .k = .run i u →
      s.Completes (.launchAcceptance c) (fun t => t.launches.length = (s.release c 3).launches.length + 1)) ∧
    (∀ g mm es at_ i u, co.ms.hold = some (.mdef g mm es at_) → at_ ≤ s.cyc → co.counting s.cyc = true → bodyRejects es = none → co.im.perr = none →
      (co.im.seq g).inside mm = false → co.fetch c .k = .run i u → u.core = c → u.sq = .k →
      s.Completes (.mdefBodyCheck c) (fun u => mfind ((u.core c).im.seq g).macros mm = some (es.map entryOf))) ∧
    (∀ g j a, co.stops.galign = some (g, j) → latest ((s.groupOf c).map (fun m => s.arrival (s.launchOf c) m j)) = some a → a + 41 ≤ s.cyc →
      s.Completes (.galignRelease c) (fun u => ∀ m ∈ s.groupOf c, (u.core m).stops.galign = none)) ∧
    (∀ m, s.memberBroken c = true → m ∈ s.groupOf c → m ≠ c → (s.core m).stops.galign.isSome = true → (s.core m).stops.stop = .run → (s.groupOf c).Nodup →
      s.Completes (.galignBreak c) (fun u => (u.core m).stops.galign = none)) ∧
    (co.counting s.cyc = true → co.somethingDue = true → s.Completes (.resultDue c) (fun u => u.mem = s.mem)) ∧
    (∀ g, co.counting s.cyc = true → (co.im.seq g).halted = none → (co.im.seq g).waiting.isSome = true → (co.im.seq g).tried ≠ some s.cyc →
      s.Completes (.waitingGroupIssue c g) (fun u => ((u.core c).im.seq g).waiting = none)) ∧
    (∀ l, s.launches.find? (fun l => decide (l.id = n)) = some l → l.origin = none → s.launchWrites l = false →
      (l.unitsDone = true → s.launchBusy n = false → l.tren = false → s.Completes (.launchComplete n) (fun u => ∀ x ∈ u.launches, x.id ≠ n)) ∧
      (l.tren = true → l.trigDone = false → l.triggered s.cyc = true →
        s.Completes (.launchTriggerRelease n) (fun u => ∀ x ∈ u.launches, x.id = n → x.trigDone = true))) ∧
    (q < 32 → (s.arr q).holder = none → (s.arr q).freeFrom ≤ s.cyc → s.scanDue q = false → (s.arr q).reqs ≠ [] →
      s.Completes (.leaseGrant q) (fun u => (u.arr q).holder.isSome = true)) ∧
    (∀ x m, q < 32 → (s.arr q).queue = x :: m →
      (∀ b, x.b = some b → x.e = none → s.arrRuns x = true → x.rAt ≤ s.arrNow x → x.kind = 5 → (∀ l, (s.core x.core).anyBad l = false) →
        s.Completes (.arrayCommandBegin q) (fun u => ∃ y, (u.arr q).queue = y :: m ∧ y.g = x.g + 1)) ∧
      (∀ b, x.e = some b → s.arrRuns x = true → b ≤ s.arrNow x → x.det = false → s.Completes (.arrayCommandEnd q) (fun u => (u.arr q).queue = m)) ∧
      (x.kind = 3 → x.b.isSome = true → x.e = none → x.f.kg.toNat ≤ x.g → x.bankAt ≤ s.cyc → x.rAt ≤ s.arrNow x → s.arrRuns x = true →
        s.Completes (.atBankCommand q) (fun u => ∃ y, (u.arr q).queue = y :: m ∧ y.e = some (s.arrNow x))) ∧
      (n < 16 → x.f.tile.toNat = n → x.timed = false → s.headReady x = true →
        (s.needsSave q x = true → (s.ctxDesc ((s.arr q).tile n).owner).isSome = true →
          s.Completes (.tileSave q n) (fun u => ((u.arr q).tile n).dirty = false)) ∧
        (s.needsSave q x = false → s.needsRestore q x = true → x.xfer = false →
          s.Completes (.tileRestore q n) (fun u => ∃ y, (u.arr q).queue = y :: m ∧ y.xfer = true))) ∧
      (∀ w, n < 16 → x.f.tile.toNat = n → x.b.isSome = true → x.marker = false → replayed n (s.arr q).window = some w → x.touched = false →
        (∀ y ∈ w, y.touched = false ∧ s.readsBad y y.ranges = false) → s.readsBad x x.readSoFar = false →
        s.Completes (.arrayReplay q n false) (fun u => (u.arr q).tiles = (s.arr q).tiles))) ∧
    (∀ a, q < 32 → n < 16 → ((s.arr q).tile n).renewAt = some a → a ≤ s.cyc →
      s.Completes (.sweepFrozenTileRenew q n) (fun u => ((u.arr q).tile n).renewAt = none)) ∧
    (let t := (s.arr q).tile n
     q < 32 → n < 16 → t.inuse = true → t.dirty = true → t.stale s.tstep = false → (s.ctxDesc t.owner).isSome = true →
      1875 ≤ s.cyc / 256 - t.stamp + (s.core (4 * q)).swthr → (∀ c, 4 * q ≤ c → c < 4 * q + 4 → (s.core c).bound = false) →
      s.Completes (.sweepTileSave q n) (fun u => ((u.arr q).tile n).dirty = false))

/-- R95, R99, R175, R254 to R260, R324, R339, R343, R351 to R358, R360 to R369, R375, R376, R379 to R382: where the events of the timetable, of traps and removals, of translation and of the management
core complete.
Choices of the model that it rests on: log entries 15, 17, 29, 39, 40, 42, 43, 44, 46, 48, 59 and 61. -/
def Obligations.TimetableFormsComplete : Prop :=
  ∀ (s : State) (c d i ctx : Nat) (v : Word) (r : BitVec 256), c < 128 → d < 2 → i < 512 →
    let co := s.core c
    let w := co.walk
    (∀ n, w.phase = .idle → co.bound = false → s.nextRow c = some n → s.Completes (.dispatch c) (fun u => (u.core c).walk.row = n)) ∧
    (∀ at_, w.phase = .leaseWait at_ false → w.gang = false → at_ ≤ s.cyc → (s.arr (c / 4)).holder = some c → (s.arr (c / 4)).count = none → (s.arr (c / 4)).queue = [] →
      s.nextTransfer c = none → s.Completes (.dispatchLeaseGrant c) (fun u => (u.core c).walk.phase = .running)) ∧
    (co.bound = true → w.phase = .resume → s.Completes (.resume co.ctx c) (fun u => (u.core c).walk.phase = .running)) ∧
    (∀ at_, w.phase = .drain at_ none → at_ ≤ s.cyc → co.drained = true → s.Completes (.switch c) (fun u => (u.core c).bound = false)) ∧
    (let row := s.row d i
     let cs := ((upTo 0 64).filter (fun c => row.getLsbD (128 + c))).map (fun c => 64 * d + c)
     cs ≠ [] → (∀ c ∈ cs, (s.core c).walk.phase = .gangWait i ∧ (s.core c).bound = false) →
      s.Completes (.gangEntry d i) (fun u => ∀ c ∈ cs, (u.core c).walk.phase = .load (rowCtx row) (s.cyc + 2048))) ∧
    (∀ k, (ctx, c, k) ∈ s.relQ → (∀ a n, w.phase ≠ .drain a n) → (∀ a n, w.phase ≠ .load a n) → k < 64 →
      s.Completes (.semaphoreImageRelease ctx c k) (fun u => u.relQ = s.relQ.erase (ctx, c, k))) ∧
    ((∀ p ∈ s.cores, p.2.walk.left = []) → (s.rowLease d i).retire = true → (s.rowLease d i).busy = 0 → (s.plat.bootStep = 6 ∨ (s.rowLease d i).pend = false) →
      s.Completes (.rowLoad d i) (fun u => (u.rowLease d i).retire = false)) ∧
    (s.managed = true →
    (v.getLsbD 0 = false → s.Completes (.ttctlWrite d v) (fun u => (u.die d).ttctl = v &&& 0x3FF)) ∧
    s.Completes (.bindRecordWrite d i true r) (fun u => mget 0 (u.die d).pending i = BitVec.ofNat 256 (r.toNat / 2 ^ 81 * 2 ^ 81)) ∧
    s.Completes (.leaseTableWrite d i v) (fun u => (u.rowLease d i).retire = v.getLsbD 0) ∧
    ((s.die d).slabBusy ≤ s.cyc →
      (fld v.toNat 62 2 = 1 → s.Completes (.slabcmdRenew d v) (fun u => u.mem = s.mem)) ∧
      (fld v.toNat 62 2 = 2 → s.Completes (.slabcmdFree d v) (fun u => u.mem = s.mem)) ∧
      (fld v.toNat 62 2 = 3 → s.Completes (.slabcmdClaim d v) (fun u => u.mem = s.mem))) ∧
    (s.tlbcmdBusy d = false →
      (fld v.toNat 62 2 = 1 → s.Completes (.tlbcmdPage d v) (fun u => s.cyc + 1 ≤ (u.die d).tlbBusy)) ∧
      (fld v.toNat 62 2 = 2 → s.Completes (.tlbcmdContext d v) (fun u => s.cyc + 1 ≤ (u.die d).tlbBusy))) ∧
    s.Completes (.registerWrite d 0x48 v) (fun u => (u.die d).skcfg = v &&& 0xFFFFFFFFF) ∧
    (i < 256 → v.getLsbD 0 = false → s.Completes (.queueTableAttach d i v) (fun u => (u.qent (256 * d + i)).v = false))) ∧
    (∀ f, i < 256 → s.front (256 * d + i) = some f → s.Completes (.queueTailWrite d i v) (fun u => ∀ a, a < f.wpa ∨ f.wpa + 8 ≤ a → u.homeByte a = s.homeByte a)) ∧
    (∀ f, s.front i = some f → s.queueState f = 1 → s.Completes (.queueRestart i) (fun u => u.queueState f = 0)) ∧
    (∀ x at_ f, co.stops.stop = .trapped x at_ f → at_ < s.cyc → s.Completes (.trapStop c) (fun u => (u.core c).stops.stop = .stopped x f)) ∧
    (∀ t ts, (s.die d).trapWait = t :: ts → t.pend = false → (s.die d).trapq.length < 1024 →
      s.Completes (.trapRecordEnqueue d) (fun u => (u.die d).trapq = (s.die d).trapq ++ [t.bits])) ∧
    (∀ t ts, (s.die d).trapq = t :: ts → s.Completes (.trapQueueTake d) (fun u => (u.die d).trapq = ts)) ∧
    (∀ g, co.im.seg = some g → co.counting s.cyc = true →
      (∀ e, s.segmentEndAt c g = some e → e ≤ co.im.sched → co.stops.stop = .run → co.im.perr = none →
        s.Completes (.segmentEnd c) (fun u => (u.core c).im.seg = none)) ∧
      (g.timed = false → g.overrun = false → 2 * g.cost ≤ co.im.sched →
        s.Completes (.overrunUntimed c) (fun u => (u.core c).im.seg = some { g with overrun := true })) ∧
      (g.timed = true → g.overrun = false → g.cost ≤ co.im.sched → co.im.notHalted ≠ 0 →
        s.Completes (.overrunTimed c) (fun u => (u.core c).im.seg = some { g with overrun := true }))) ∧
    (s.managed = true → ctx < 1024 → mfind s.removals ctx = none → s.Completes (.contextRemoval ctx) (fun u => (mfind u.removals ctx).isSome = true)) ∧
    (∀ x, mfind s.removals ctx = some x → 1 ≤ x.step →
      (x.step < 8 → s.inFlightAt ctx x.step = none →
        s.Completes (.removalStep ctx) (fun u => (mfind u.removals ctx).map (fun y => y.step) = some (x.step + 1))) ∧
      (∀ e, x.deadline ≤ s.cyc → s.inFlightAt ctx x.step = some e →
        s.Completes (.removalBoundExpire ctx) (fun u => (mfind u.removals ctx).map (fun y => y.cause) = some 0x87))) ∧
    (i < 160 → s.scanDue i = true → s.unitDrained i = true →
      s.Completes (.rotationScanSlot i true) (fun u => mget 0 u.gens i = mget 0 s.gens i + 1)) ∧
    (i < 160 → i ∈ s.fenced → i ∈ s.healed → s.Completes (.unitReturnToService i) (fun u => i ∉ u.fenced)) ∧
    (∀ va kind part at_ n e, co.ms.hold = some (.walk va kind part at_ n false none) → at_ ≤ s.cyc → s.walkTurn (dieOf c) c = true → s.walkHeld co.ptbase va = false → s.walkFails c co.ptbase va = none →
      s.walkPage co.ctx co.ptbase va kind = .ok e → s.Completes (.pageWalkComplete c) (fun u => (u.core c).ms.hold = none)) ∧
    (∀ va kind part at_ n e, co.ms.hold = some (.walk va kind part at_ n true none) → at_ ≤ s.cyc → s.walkHeld co.ptbase va = false → s.walkFails c co.ptbase va = none →
      s.walkPage co.ctx co.ptbase va kind = .ok e → s.Completes (.faultRefusalRetry c) (fun u => (u.core c).ms.hold = none)) ∧
    (∀ ch, ch < 4 → mfind s.pfetch (4 * c + ch) = some (ctx, v) → s.walkTurn (agentDie (4 * c + ch)) (1024 + (4 * c + ch)) = true → s.walkHeld (s.rootOf ctx) v = false →
      s.Completes (.prefetchWalk c ch) (fun u => mfind u.pfetch (4 * c + ch) = none)) ∧
    (∀ x, s.wires[i]? = some x →
      (x.holds s.cyc = true → (∃ c ∈ s.wireCores x, (s.core c).stops.frozen = false) →
        s.Completes (.groupFreeze i) (fun u => ∀ c ∈ s.wireCores x, (u.core c).stops.frozen = true)) ∧
      (∀ t, x.u = some t → t + 48 ≤ s.cyc → s.wires = [x] → s.Completes (.groupThaw i) (fun u => u.wires = [] ∧ (∀ c ∈ x.cores, (u.core c).stops.frozen = false) ∧
        ∀ d j r, (d, j) ∈ x.recs → mfind (s.die d).fbuf j = some r → (r.state = 2 ∨ r.state = 3) → mfind (u.die d).fbuf j = some { r with state := 0 }))) ∧
    (∀ x, mfind (s.die d).fbuf i = some x → x.state = 1 → (∀ y ∈ s.wires, (d, i) ∉ y.recs) →
      s.Completes (.faultRetryWrite d i) (fun u => (mfind (u.die d).fbuf i).map (fun y => y.state) = some 0) ∧
      s.Completes (.faultDeliverWrite d i) (fun u => (mfind (u.die d).fbuf i).map (fun y => y.state) = some 0)) ∧
    (∀ va a e, canonical va = true → s.leafAt va 4 (fld (s.rootOf ctx).toNat 12 40 * 4096) = some (a, e, 0) → bit e 9 = false → bit e 8 = false →
      s.managed = true → v.toNat % 4096 = 0 → s.paKind v.toNat = .home → (a + 8 ≤ v.toNat ∨ v.toNat + 4096 ≤ a) →
      s.Completes (.pageMigration ctx va v) (fun u => u.homeNat a 8 = (e - fld e 12 40 * 4096 + v.toNat % 2 ^ 52) % 2 ^ 64))

/-- R389 to R399, R404, R405, R407 to R413, R417 to R419, R422, R425 to R427, R434 to R441: where the events of the domain, the hosts, the journal, boot and the platform complete.
Choices of the model that it rests on: log entries 10, 47, 49, 50, 53, 54, 55, 56, 57, 63 and 69. -/
def Obligations.ModuleFormsComplete : Prop :=
  ∀ (s : State) (h : BitVec 384) (bs : List Byte) (m n c : Nat) (v : Word) (r : BitVec 1024) (e : Emission),
    let inTurn := s.inDomain = true ∧ hDst h = s.dom.modid ∧ hMalformed h = false ∧ hPseq h = (s.peer (hSrc h)).next ∧ (s.peer (hSrc h)).waiting = [] ∧
      (s.peer (hSrc h)).skipped = []
    let served (u : State) : Prop := (u.peer (hSrc h)).next = (hPseq h + 1) % 2 ^ 32
    let outboxGrows (u : State) : Prop := s.outbox.length < u.outbox.length
    (inTurn →
      (hOp h = 1 → s.targetRefuses (hPa h) (hLen h) = false → s.requestHeld h [] = false → firstBad s.bad (hPa h) (hLen h) = none → s.Completes (.domainReadRequest h) served) ∧
      (hOp h = 2 → bs.length = hLen h → s.targetRefuses (hPa h) bs.length = false → s.requestHeld h bs = false → s.Completes (.domainWriteRequest h bs) served) ∧
      (hOp h = 3 → (s.peer (hSrc h)).ids.find? (fun x => decide (x.1 = h.toNat / 2 ^ 160 % 2 ^ 32)) = none → s.targetRefuses (hPa h) (hSize h) = false →
        s.requestHeld h [] = false → firstBad s.bad (hPa h) (hSize h) = none → s.Completes (.domainAtomicRequest h) outboxGrows) ∧
      (hOp h = 12 → s.Completes (.domainSkip h) served)) ∧
    (∀ q, q.skip = false →
      (s.badResponse h 9 = false → s.asked h [1] = some q → s.Completes (.domainReadResponse h bs) (fun u => u.dom.reqs.map (·.hdr) = (s.dom.reqs.erase q).map (·.hdr))) ∧
      (s.badResponse h 10 = false → s.asked h [2] = some q → hCause h = 0 → s.Completes (.domainWriteAck h) (fun u => u.dom.reqs = s.dom.reqs.erase q)) ∧
      (s.badResponse h 11 = false → s.asked h [3] = some q → 128 ≤ q.core → s.Completes (.domainAtomicResponse h) (fun u => u.dom.reqs = s.dom.reqs.erase q)) ∧
      (s.dom.reqs.find? (fun r => decide (r.target = m) && decide (r.pseq = n) && decide (r.sentAt + 192000 ≤ s.cyc)) = some q → q.tries < 12 →
        s.Completes (.domainResendTimeout m n) outboxGrows)) ∧
    (s.managed = true → s.unbound = true → m < 64 → s.Completes (.domainMembershipChange m [m]) (fun u => u.dom.modid = m ∧ u.dom.members = [m])) ∧
    (s.managed = true → s.unbound = true → v.getLsbD 0 = true → fld v.toNat 16 8 = 1 → fld v.toNat 8 8 = 0 → s.dom.modid ∈ s.dom.members →
      fld v.toNat 24 16 ∈ s.dom.members → s.Completes (.groupFormation v n) (fun u => u.dom.dgrp = v &&& 0xFFFFFFFF01)) ∧
    (s.dom.dgrp.getLsbD 0 = true → 4 < n → s.Completes (.linkRetrain n) (fun u => u.dom.dgrp = 0)) ∧
    (s.dom.dgrp.getLsbD 0 = true → n = fld s.dom.dgrp.toNat 8 8 → n < fld s.dom.dgrp.toNat 16 8 → m < 64 → s.Completes (.groupLeave n m) (fun u => u.dom.dgrp = 0)) ∧
    (∀ l, s.launches.find? (fun l => decide (l.id = n)) = some l → l.started = false → l.startTs ≤ s.tstep → s.dom.dgrp.getLsbD 0 = true → groupId s.dom.dgrp = l.grp →
      s.Completes (.mLevelStart n) (fun u => ∀ x ∈ u.launches, x.id = n → x.started = true)) ∧
    (c < 128 → s.Completes (.d2dUncorrectableError c) (fun u => u.mem = s.mem)) ∧
    (∀ g x todo off, s.dom.held.find? (fun x => decide (x.1 = m)) = some x → s.sentRecently m < 4096 → x.2.1 = c → c < 128 →
      (s.core c).ms.gacc.find? (fun g => g.unperformed) = some g → g.todo = some todo → s.paKind g.pa = .window m off → (s.core c).ms.pend = [] → s.releaseAhead c g.id = false →
      s.Completes (.domainAtomicRateRelease m) (fun u => x ∉ u.dom.held)) ∧
    (s.managed = true → (∀ p ∈ s.cores, p.2.bound = false ∧ ∀ b ∈ p.2.slabs, ¬(b.2.kind = .live ∧ b.2.born = true)) → (∀ p ∈ s.arrays, ∀ t ∈ p.2.tiles, ¬(t.2.inuse = true ∧ t.2.dirty = true)) →
      (∀ p ∈ s.frames, ¬(p.2.valid = true ∧ p.2.dirty = true)) → s.Completes .wholeMemoryCheckpoint outboxGrows) ∧
    (s.managed = true → s.unbound = true → s.Completes (.wholeMemoryRestore []) (fun u => ∀ a, s.paKind a = .home → mget 0 u.mem a = 0)) ∧
    (m < 2 → n < 17 → s.plat.thermal = false →
      (∀ pa ctx, s.barUp m n = true → 0 < bs.length → bs.length ≤ 512 → v.toNat % 4096 + bs.length ≤ 4096 → s.hostPlace m n 1 v bs.length = some (pa, .home, ctx) →
        s.extentBlocked pa bs.length true = false → s.Completes (.hostWrite m n v bs) (fun u => u.homeBytes pa bs.length = bs)) ∧
      (∀ pa ctx x y, s.barUp m n = true → v.toNat % 8 = 0 → s.hostPlace m n 2 v 8 = some (pa, .home, ctx) → s.extentBlocked pa 8 true = false → firstBad s.bad pa 8 = none →
        s.Completes (.hostAtomicOp m n v 0 8 x y) outboxGrows) ∧
      (∀ b q f slot, s.barUp m n = true → slot < 64 → mfind s.plat.vfs (17 * m + n) = some b → mfind b.slots slot = some q → s.front q = some f →
        s.Completes (.doorbellWrite m n slot v) (fun u => (BitVec.ofNat 64 (s.homeNat f.wpa 8)).toInt < v.toInt → u.homeNat f.wpa 8 = v.toNat)) ∧
      s.Completes .moduleReset (fun u => u.cyc = 0 ∧ u.plat.flash = s.plat.flash) ∧
      s.Completes (.functionLevelReset m 0) (fun u => u.cyc = 0 ∧ u.plat.flash = s.plat.flash) ∧
      s.Completes (.thermalShutdown true) (fun u => u.plat.thermal = true)) ∧
    (m < 2 → s.Completes (.hostLinkDown m) (fun u => mget true u.plat.linkUp m = false)) ∧
    (m < 2 → s.plat.recovery = false → 3 ≤ s.plat.bootStep → s.Completes (.mailboxTakeover m true) (fun u => u.plat.takeover = none)) ∧
    (s.plat.thermal = true → s.plat.resetReq = false → s.plat.hot = true → s.Completes .thermalShutdownExit (fun u => u.plat.hot = false)) ∧
    (3 ≤ s.plat.bootStep →
      (n ≤ 4 → s.Completes (.mailboxRecordWrite false n bs) (fun u => mget [] u.plat.flash (2 * n) = bs)) ∧
      (∀ nonce, s.Completes (.attestationQuote nonce) outboxGrows)) ∧
    (s.plat.recovery = false → s.plat.thermal = false →
      (∀ b, s.plat.bootStep = 2 → s.plat.minsec = [] → s.plat.choose 0 = some (n, b) → s.Completes (.bootRecordAccept 0) (fun u => u.plat.floor = Nat.max s.plat.floor n)) ∧
      (s.plat.bootStep = 3 → s.Completes .firmwareTraining (fun u => u.plat.bootStep = 4)) ∧
      (∀ b2 b3 b4 v2 v3 v4, s.plat.bootStep = 4 → s.plat.choose 2 = some (v2, b2) → s.plat.choose 3 = some (v3, b3) → s.plat.choose 4 = some (v4, b4) →
        s.Completes .bootStoreLoad (fun u => u.plat.bootStep = 5)) ∧
      (s.plat.bootStep = 5 → (∀ n, n < 160 → n ∈ s.fenced → mget 0 s.gens n ≠ 0) → s.Completes .bootScan (fun u => u.plat.bootStep = 6))) ∧
    (s.inDomain = true → crcGood r = true → s.Completes (.journalRecordReceive m r) outboxGrows) ∧
    (s.jrnl.lost = false → s.plat.thermal = false → s.jrnl.acked < n → s.Completes (.journalAckReceive ⟨s.jrnl.partner, n⟩) (fun u => u.jrnl.acked = Nat.min n s.jrnl.taken)) ∧
    (c < 128 → s.jrnl.emissions.find? (fun e => decide (e.core = c)) = some e → e.sent = false → e.waits = false → s.jrnl.retracted.contains (e.ctx, rSeq e.bits) = false →
      s.jrnl.en = true → s.jrnl.lost = false → s.plat.thermal = false → s.paKind e.pa = .home → s.extentBlocked e.pa 32 true = false →
      s.Completes (.emissionPerform c) (fun u => u.homeBytes e.pa 32 = s.emissionBytes e.bits)) ∧
    (s.jrnl.en = true → s.jrnl.lost = false → s.plat.thermal = false → s.jrnl.acked < s.jrnl.taken → s.jrnl.ackAt + 768000 ≤ s.cyc →
      s.Completes .partnerLost (fun u => u.jrnl.lost = true)) ∧
    (s.jrnl.lost = true → m < 2 ^ 16 → s.plat.thermal = false → s.Completes (.partnerReassign m) (fun u => u.jrnl.partner = m ∧ u.jrnl.lost = false)) ∧
    (s.plat.thermal = false → s.jrnl.reps = [] → s.Completes (.replicaDigestArrival m n v) (fun u => u.jrnl.peerReps = s.jrnl.peerReps ++ [(m, n, v)])) ∧
    (∀ d, s.jrnl.disputes.find? (fun d => decide (d.1 = m)) = some d → s.Completes (.replicaResolution m true false false false) (fun u => u.jrnl.disputes = s.jrnl.disputes.erase d)) ∧
    (s.managed = true → m < 1024 → s.Completes (.replayStoreInstall m [r]) (fun u => mfind u.jrnl.stores m = some [r])) ∧
    ((∃ x ∈ s.jrnl.ring, rCtx x.2 = m ∧ rSeq x.2 = n ∧ rKind x.2 = 0 ∧ c - 1 ≤ rStamp x.2) → s.Completes (.scanFailureReplay m n c none) outboxGrows) ∧
    (s.firmware = true → s.jrnl.en = false → v.getLsbD 0 = false → ∀ j, s.Completes (.jctlWrite v j) (fun u => u.jrnl.jring = j))
end

