-- ==== Sys2Proof/Laws/Maps.lean ====
section
/-! SUPPORT. Sparse maps: what a key reads after a key was set or taken out, and that the operations keep the canonical form. -/
namespace Sys2Proof.Machine

theorem mget_mset {α : Type} (d : α) (m : Map α) (a b : Nat) (x : α) : mget d (mset m a x) b = if b = a then x else mget d m b := by
  induction m with
  | nil => simp [mset, mget, mfind]; split <;> simp_all [eq_comm]
  | cons p r ih =>
    obtain ⟨k, v⟩ := p
    simp only [mget] at ih
    simp only [mset]
    split
    · simp only [mget, mfind]; by_cases h : b = a
      · simp [h]
      · simp [h, Ne.symm h]
    · split
      · subst_vars; simp only [mget, mfind]; by_cases h : b = k <;> simp [h, eq_comm]
      · simp only [mget, mfind]
        by_cases hk : k = b
        · subst hk; simp_all [eq_comm]
        · simp [hk, ih]

@[simp] theorem mget_mset_same {α : Type} (d : α) (m : Map α) (a : Nat) (x : α) : mget d (mset m a x) a = x := by simp [mget_mset]

theorem mset_mset {α : Type} (m : Map α) (a : Nat) (x y : α) : mset (mset m a x) a y = mset m a y := by
  induction m with
  | nil => simp [mset]
  | cons p r ih =>
    obtain ⟨k, v⟩ := p
    simp only [mset]
    split
    · simp [mset]
    · split
      · simp [mset]
      · simp_all [mset]

theorem mget_mset_ne {α : Type} (d : α) (m : Map α) (a b : Nat) (x : α) (h : b ≠ a) : mget d (mset m a x) b = mget d m b := by
  simp [mget_mset, h]

theorem mget_mdel {α : Type} (d : α) (m : Map α) (a b : Nat) : mget d (mdel m a) b = if b = a then d else mget d m b := by
  induction m with
  | nil => simp [mdel, mget, mfind]
  | cons p r ih =>
    obtain ⟨k, v⟩ := p
    simp only [mget] at ih
    simp only [mdel]
    split
    · rename_i h; subst h; rw [mget, ih, mget, mfind]; by_cases h : b = k <;> simp [h, eq_comm]
    · simp only [mget, mfind]
      by_cases hk : k = b
      · subst hk; simp_all
      · simp [hk, ih]

theorem mget_mput {α : Type} [DecidableEq α] (d : α) (m : Map α) (a b : Nat) (x : α) :
    mget d (mput d m a x) b = if b = a then x else mget d m b := by
  unfold mput
  split
  · rename_i h; subst h; exact mget_mdel _ m a b
  · exact mget_mset d m a b x

/-! ### The canonical form -/

/-- The first key of a map, if any, is above a bound. -/
def mabove {α : Type} (k : Nat) (m : Map α) : Prop := ∀ p ∈ m, k < p.1

theorem mrising_cons {α : Type} (k : Nat) (v : α) (r : Map α) : mrising ((k, v) :: r) = true ↔ mabove k r ∧ mrising r = true := by
  induction r generalizing k v with
  | nil => simp [mrising, mabove]
  | cons p r ih =>
    obtain ⟨k', v'⟩ := p
    simp only [mrising, Bool.and_eq_true, decide_eq_true_eq]
    constructor
    · intro ⟨h1, h2⟩
      refine ⟨?_, h2⟩
      intro p hp
      rcases List.mem_cons.mp hp with rfl | hp
      · exact h1
      · exact Nat.lt_trans h1 (((ih k' v').mp h2).1 p hp)
    · intro ⟨h1, h2⟩
      exact ⟨h1 _ (List.mem_cons_self ..), h2⟩

theorem mem_mset {α : Type} {m : Map α} {a : Nat} {x : α} {p : Nat × α} (h : p ∈ mset m a x) : p = (a, x) ∨ p ∈ m := by
  induction m with
  | nil => simpa [mset] using h
  | cons q r ih =>
    obtain ⟨k, v⟩ := q
    simp only [mset] at h
    split at h
    · simpa using h
    · split at h
      · simp at h ⊢; rcases h with h | h <;> simp [h]
      · simp at h ⊢
        rcases h with h | h
        · simp [h]
        · rcases ih h with h | h <;> simp [h]

theorem mem_mdel {α : Type} {m : Map α} {a : Nat} {p : Nat × α} (h : p ∈ mdel m a) : p ∈ m := by
  induction m with
  | nil => simp [mdel] at h
  | cons q r ih =>
    obtain ⟨k, v⟩ := q
    simp only [mdel] at h
    split at h
    · exact List.mem_cons_of_mem _ (ih h)
    · rcases List.mem_cons.mp h with h | h
      · simp [h]
      · exact List.mem_cons_of_mem _ (ih h)

theorem mrising_mset {α : Type} (m : Map α) (a : Nat) (x : α) (h : mrising m = true) : mrising (mset m a x) = true := by
  induction m with
  | nil => rfl
  | cons q r ih =>
    obtain ⟨k, v⟩ := q
    have h' := (mrising_cons k v r).mp h
    simp only [mset]
    split
    · rename_i hlt
      refine (mrising_cons a x _).mpr ⟨?_, h⟩
      intro p hp
      rcases List.mem_cons.mp hp with rfl | hp
      · exact hlt
      · exact Nat.lt_trans hlt (h'.1 p hp)
    · split
      · rename_i he; subst he; exact (mrising_cons _ x r).mpr h'
      · rename_i h1 h2
        refine (mrising_cons k v _).mpr ⟨?_, ih h'.2⟩
        intro p hp
        rcases mem_mset hp with rfl | hp
        · simp only []; omega
        · exact h'.1 p hp

theorem mrising_mdel {α : Type} (m : Map α) (a : Nat) (h : mrising m = true) : mrising (mdel m a) = true := by
  induction m with
  | nil => rfl
  | cons q r ih =>
    obtain ⟨k, v⟩ := q
    have h' := (mrising_cons k v r).mp h
    simp only [mdel]
    split
    · exact ih h'.2
    · exact (mrising_cons k v _).mpr ⟨fun p hp => h'.1 p (mem_mdel hp), ih h'.2⟩

/-- A put keeps the canonical form. -/
theorem mwf_mput {α : Type} [DecidableEq α] (d : α) (m : Map α) (a : Nat) (x : α) (h : mwf d m = true) : mwf d (mput d m a x) = true := by
  simp only [mwf, Bool.and_eq_true, List.all_eq_true, decide_eq_true_eq] at h ⊢
  unfold mput
  split
  · exact ⟨mrising_mdel _ _ h.1, fun p hp => h.2 p (mem_mdel hp)⟩
  · rename_i hx
    refine ⟨mrising_mset _ _ _ h.1, fun p hp => ?_⟩
    rcases mem_mset hp with rfl | hp
    · exact hx
    · exact h.2 p hp

end Sys2Proof.Machine
end

