-- ==== Sys2Proof/Laws/State.lean ====
section
/-! SUPPORT. What each update of the state leaves of it, field by field, and what a part reads after it was changed. -/
namespace Sys2Proof.Machine

/-! ### setCore -/

@[simp] theorem State.setCore_cyc (s : State) (c : Nat) (x : Core) : (s.setCore c x).cyc = s.cyc := rfl
@[simp] theorem State.setCore_arrays (s : State) (c : Nat) (x : Core) : (s.setCore c x).arrays = s.arrays := rfl
@[simp] theorem State.setCore_dies (s : State) (c : Nat) (x : Core) : (s.setCore c x).dies = s.dies := rfl
@[simp] theorem State.setCore_mem (s : State) (c : Nat) (x : Core) : (s.setCore c x).mem = s.mem := rfl
@[simp] theorem State.setCore_blog (s : State) (c : Nat) (x : Core) : (s.setCore c x).blog = s.blog := rfl
@[simp] theorem State.setCore_images (s : State) (c : Nat) (x : Core) : (s.setCore c x).images = s.images := rfl
@[simp] theorem State.setCore_archive (s : State) (c : Nat) (x : Core) : (s.setCore c x).archive = s.archive := rfl
@[simp] theorem State.setCore_launches (s : State) (c : Nat) (x : Core) : (s.setCore c x).launches = s.launches := rfl
@[simp] theorem State.setCore_entryDone (s : State) (c : Nat) (x : Core) : (s.setCore c x).entryDone = s.entryDone := rfl
@[simp] theorem State.setCore_works (s : State) (c : Nat) (x : Core) : (s.setCore c x).works = s.works := rfl
@[simp] theorem State.setCore_frames (s : State) (c : Nat) (x : Core) : (s.setCore c x).frames = s.frames := rfl
@[simp] theorem State.setCore_fills (s : State) (c : Nat) (x : Core) : (s.setCore c x).fills = s.fills := rfl
@[simp] theorem State.setCore_hrcfg (s : State) (c : Nat) (x : Core) : (s.setCore c x).hrcfg = s.hrcfg := rfl
@[simp] theorem State.setCore_wires (s : State) (c : Nat) (x : Core) : (s.setCore c x).wires = s.wires := rfl
@[simp] theorem State.setCore_removals (s : State) (c : Nat) (x : Core) : (s.setCore c x).removals = s.removals := rfl
@[simp] theorem State.setCore_gens (s : State) (c : Nat) (x : Core) : (s.setCore c x).gens = s.gens := rfl
@[simp] theorem State.setCore_fenced (s : State) (c : Nat) (x : Core) : (s.setCore c x).fenced = s.fenced := rfl
@[simp] theorem State.setCore_healed (s : State) (c : Nat) (x : Core) : (s.setCore c x).healed = s.healed := rfl
@[simp] theorem State.setCore_scans (s : State) (c : Nat) (x : Core) : (s.setCore c x).scans = s.scans := rfl
@[simp] theorem State.setCore_usedBy (s : State) (c : Nat) (x : Core) : (s.setCore c x).usedBy = s.usedBy := rfl
@[simp] theorem State.setCore_usedCkpt (s : State) (c : Nat) (x : Core) : (s.setCore c x).usedCkpt = s.usedCkpt := rfl
@[simp] theorem State.setCore_entered (s : State) (c : Nat) (x : Core) : (s.setCore c x).entered = s.entered := rfl
@[simp] theorem State.setCore_stores (s : State) (c : Nat) (x : Core) : (s.setCore c x).stores = s.stores := rfl
@[simp] theorem State.setCore_jrnl (s : State) (c : Nat) (x : Core) : (s.setCore c x).jrnl = s.jrnl := rfl
@[simp] theorem State.setCore_dom (s : State) (c : Nat) (x : Core) : (s.setCore c x).dom = s.dom := rfl
@[simp] theorem State.setCore_plat (s : State) (c : Nat) (x : Core) : (s.setCore c x).plat = s.plat := rfl
@[simp] theorem State.setCore_inputs (s : State) (c : Nat) (x : Core) : (s.setCore c x).inputs = s.inputs := rfl
@[simp] theorem State.setCore_outbox (s : State) (c : Nat) (x : Core) : (s.setCore c x).outbox = s.outbox := rfl
@[simp] theorem State.setCore_relQ (s : State) (c : Nat) (x : Core) : (s.setCore c x).relQ = s.relQ := rfl
@[simp] theorem State.setCore_placed (s : State) (c : Nat) (x : Core) : (s.setCore c x).placed = s.placed := rfl
@[simp] theorem State.setCore_nbHeld (s : State) (c : Nat) (x : Core) : (s.setCore c x).nbHeld = s.nbHeld := rfl
@[simp] theorem State.setCore_stlb (s : State) (c : Nat) (x : Core) : (s.setCore c x).stlb = s.stlb := rfl
@[simp] theorem State.setCore_pfetch (s : State) (c : Nat) (x : Core) : (s.setCore c x).pfetch = s.pfetch := rfl
@[simp] theorem State.setCore_descs (s : State) (c : Nat) (x : Core) : (s.setCore c x).descs = s.descs := rfl
@[simp] theorem State.setCore_bad (s : State) (c : Nat) (x : Core) : (s.setCore c x).bad = s.bad := rfl
@[simp] theorem State.setCore_strikes (s : State) (c : Nat) (x : Core) : (s.setCore c x).strikes = s.strikes := rfl
@[simp] theorem State.setCore_linkErr (s : State) (c : Nat) (x : Core) : (s.setCore c x).linkErr = s.linkErr := rfl
@[simp] theorem State.setCore_draws (s : State) (c : Nat) (x : Core) : (s.setCore c x).draws = s.draws := rfl
@[simp] theorem State.setCore_serial (s : State) (c : Nat) (x : Core) : (s.setCore c x).serial = s.serial := rfl
@[simp] theorem State.setCore_cur (s : State) (c : Nat) (x : Core) : (s.setCore c x).cur = s.cur := rfl

/-! ### modCore -/

@[simp] theorem State.modCore_cyc (s : State) (c : Nat) (f : Core → Core) : (s.modCore c f).cyc = s.cyc := rfl
@[simp] theorem State.modCore_arrays (s : State) (c : Nat) (f : Core → Core) : (s.modCore c f).arrays = s.arrays := rfl
@[simp] theorem State.modCore_dies (s : State) (c : Nat) (f : Core → Core) : (s.modCore c f).dies = s.dies := rfl
@[simp] theorem State.modCore_mem (s : State) (c : Nat) (f : Core → Core) : (s.modCore c f).mem = s.mem := rfl
@[simp] theorem State.modCore_blog (s : State) (c : Nat) (f : Core → Core) : (s.modCore c f).blog = s.blog := rfl
@[simp] theorem State.modCore_images (s : State) (c : Nat) (f : Core → Core) : (s.modCore c f).images = s.images := rfl
@[simp] theorem State.modCore_archive (s : State) (c : Nat) (f : Core → Core) : (s.modCore c f).archive = s.archive := rfl
@[simp] theorem State.modCore_launches (s : State) (c : Nat) (f : Core → Core) : (s.modCore c f).launches = s.launches := rfl
@[simp] theorem State.modCore_entryDone (s : State) (c : Nat) (f : Core → Core) : (s.modCore c f).entryDone = s.entryDone := rfl
@[simp] theorem State.modCore_works (s : State) (c : Nat) (f : Core → Core) : (s.modCore c f).works = s.works := rfl
@[simp] theorem State.modCore_frames (s : State) (c : Nat) (f : Core → Core) : (s.modCore c f).frames = s.frames := rfl
@[simp] theorem State.modCore_fills (s : State) (c : Nat) (f : Core → Core) : (s.modCore c f).fills = s.fills := rfl
@[simp] theorem State.modCore_hrcfg (s : State) (c : Nat) (f : Core → Core) : (s.modCore c f).hrcfg = s.hrcfg := rfl
@[simp] theorem State.modCore_wires (s : State) (c : Nat) (f : Core → Core) : (s.modCore c f).wires = s.wires := rfl
@[simp] theorem State.modCore_removals (s : State) (c : Nat) (f : Core → Core) : (s.modCore c f).removals = s.removals := rfl
@[simp] theorem State.modCore_gens (s : State) (c : Nat) (f : Core → Core) : (s.modCore c f).gens = s.gens := rfl
@[simp] theorem State.modCore_fenced (s : State) (c : Nat) (f : Core → Core) : (s.modCore c f).fenced = s.fenced := rfl
@[simp] theorem State.modCore_healed (s : State) (c : Nat) (f : Core → Core) : (s.modCore c f).healed = s.healed := rfl
@[simp] theorem State.modCore_scans (s : State) (c : Nat) (f : Core → Core) : (s.modCore c f).scans = s.scans := rfl
@[simp] theorem State.modCore_usedBy (s : State) (c : Nat) (f : Core → Core) : (s.modCore c f).usedBy = s.usedBy := rfl
@[simp] theorem State.modCore_usedCkpt (s : State) (c : Nat) (f : Core → Core) : (s.modCore c f).usedCkpt = s.usedCkpt := rfl
@[simp] theorem State.modCore_entered (s : State) (c : Nat) (f : Core → Core) : (s.modCore c f).entered = s.entered := rfl
@[simp] theorem State.modCore_stores (s : State) (c : Nat) (f : Core → Core) : (s.modCore c f).stores = s.stores := rfl
@[simp] theorem State.modCore_jrnl (s : State) (c : Nat) (f : Core → Core) : (s.modCore c f).jrnl = s.jrnl := rfl
@[simp] theorem State.modCore_dom (s : State) (c : Nat) (f : Core → Core) : (s.modCore c f).dom = s.dom := rfl
@[simp] theorem State.modCore_plat (s : State) (c : Nat) (f : Core → Core) : (s.modCore c f).plat = s.plat := rfl
@[simp] theorem State.modCore_inputs (s : State) (c : Nat) (f : Core → Core) : (s.modCore c f).inputs = s.inputs := rfl
@[simp] theorem State.modCore_outbox (s : State) (c : Nat) (f : Core → Core) : (s.modCore c f).outbox = s.outbox := rfl
@[simp] theorem State.modCore_relQ (s : State) (c : Nat) (f : Core → Core) : (s.modCore c f).relQ = s.relQ := rfl
@[simp] theorem State.modCore_placed (s : State) (c : Nat) (f : Core → Core) : (s.modCore c f).placed = s.placed := rfl
@[simp] theorem State.modCore_nbHeld (s : State) (c : Nat) (f : Core → Core) : (s.modCore c f).nbHeld = s.nbHeld := rfl
@[simp] theorem State.modCore_stlb (s : State) (c : Nat) (f : Core → Core) : (s.modCore c f).stlb = s.stlb := rfl
@[simp] theorem State.modCore_pfetch (s : State) (c : Nat) (f : Core → Core) : (s.modCore c f).pfetch = s.pfetch := rfl
@[simp] theorem State.modCore_descs (s : State) (c : Nat) (f : Core → Core) : (s.modCore c f).descs = s.descs := rfl
@[simp] theorem State.modCore_bad (s : State) (c : Nat) (f : Core → Core) : (s.modCore c f).bad = s.bad := rfl
@[simp] theorem State.modCore_strikes (s : State) (c : Nat) (f : Core → Core) : (s.modCore c f).strikes = s.strikes := rfl
@[simp] theorem State.modCore_linkErr (s : State) (c : Nat) (f : Core → Core) : (s.modCore c f).linkErr = s.linkErr := rfl
@[simp] theorem State.modCore_draws (s : State) (c : Nat) (f : Core → Core) : (s.modCore c f).draws = s.draws := rfl
@[simp] theorem State.modCore_serial (s : State) (c : Nat) (f : Core → Core) : (s.modCore c f).serial = s.serial := rfl
@[simp] theorem State.modCore_cur (s : State) (c : Nat) (f : Core → Core) : (s.modCore c f).cur = s.cur := rfl

/-! ### modIm -/

@[simp] theorem State.modIm_cyc (s : State) (c : Nat) (f : Image → Image) : (s.modIm c f).cyc = s.cyc := rfl
@[simp] theorem State.modIm_arrays (s : State) (c : Nat) (f : Image → Image) : (s.modIm c f).arrays = s.arrays := rfl
@[simp] theorem State.modIm_dies (s : State) (c : Nat) (f : Image → Image) : (s.modIm c f).dies = s.dies := rfl
@[simp] theorem State.modIm_mem (s : State) (c : Nat) (f : Image → Image) : (s.modIm c f).mem = s.mem := rfl
@[simp] theorem State.modIm_blog (s : State) (c : Nat) (f : Image → Image) : (s.modIm c f).blog = s.blog := rfl
@[simp] theorem State.modIm_images (s : State) (c : Nat) (f : Image → Image) : (s.modIm c f).images = s.images := rfl
@[simp] theorem State.modIm_archive (s : State) (c : Nat) (f : Image → Image) : (s.modIm c f).archive = s.archive := rfl
@[simp] theorem State.modIm_launches (s : State) (c : Nat) (f : Image → Image) : (s.modIm c f).launches = s.launches := rfl
@[simp] theorem State.modIm_entryDone (s : State) (c : Nat) (f : Image → Image) : (s.modIm c f).entryDone = s.entryDone := rfl
@[simp] theorem State.modIm_works (s : State) (c : Nat) (f : Image → Image) : (s.modIm c f).works = s.works := rfl
@[simp] theorem State.modIm_frames (s : State) (c : Nat) (f : Image → Image) : (s.modIm c f).frames = s.frames := rfl
@[simp] theorem State.modIm_fills (s : State) (c : Nat) (f : Image → Image) : (s.modIm c f).fills = s.fills := rfl
@[simp] theorem State.modIm_hrcfg (s : State) (c : Nat) (f : Image → Image) : (s.modIm c f).hrcfg = s.hrcfg := rfl
@[simp] theorem State.modIm_wires (s : State) (c : Nat) (f : Image → Image) : (s.modIm c f).wires = s.wires := rfl
@[simp] theorem State.modIm_removals (s : State) (c : Nat) (f : Image → Image) : (s.modIm c f).removals = s.removals := rfl
@[simp] theorem State.modIm_gens (s : State) (c : Nat) (f : Image → Image) : (s.modIm c f).gens = s.gens := rfl
@[simp] theorem State.modIm_fenced (s : State) (c : Nat) (f : Image → Image) : (s.modIm c f).fenced = s.fenced := rfl
@[simp] theorem State.modIm_healed (s : State) (c : Nat) (f : Image → Image) : (s.modIm c f).healed = s.healed := rfl
@[simp] theorem State.modIm_scans (s : State) (c : Nat) (f : Image → Image) : (s.modIm c f).scans = s.scans := rfl
@[simp] theorem State.modIm_usedBy (s : State) (c : Nat) (f : Image → Image) : (s.modIm c f).usedBy = s.usedBy := rfl
@[simp] theorem State.modIm_usedCkpt (s : State) (c : Nat) (f : Image → Image) : (s.modIm c f).usedCkpt = s.usedCkpt := rfl
@[simp] theorem State.modIm_entered (s : State) (c : Nat) (f : Image → Image) : (s.modIm c f).entered = s.entered := rfl
@[simp] theorem State.modIm_stores (s : State) (c : Nat) (f : Image → Image) : (s.modIm c f).stores = s.stores := rfl
@[simp] theorem State.modIm_jrnl (s : State) (c : Nat) (f : Image → Image) : (s.modIm c f).jrnl = s.jrnl := rfl
@[simp] theorem State.modIm_dom (s : State) (c : Nat) (f : Image → Image) : (s.modIm c f).dom = s.dom := rfl
@[simp] theorem State.modIm_plat (s : State) (c : Nat) (f : Image → Image) : (s.modIm c f).plat = s.plat := rfl
@[simp] theorem State.modIm_inputs (s : State) (c : Nat) (f : Image → Image) : (s.modIm c f).inputs = s.inputs := rfl
@[simp] theorem State.modIm_outbox (s : State) (c : Nat) (f : Image → Image) : (s.modIm c f).outbox = s.outbox := rfl
@[simp] theorem State.modIm_relQ (s : State) (c : Nat) (f : Image → Image) : (s.modIm c f).relQ = s.relQ := rfl
@[simp] theorem State.modIm_placed (s : State) (c : Nat) (f : Image → Image) : (s.modIm c f).placed = s.placed := rfl
@[simp] theorem State.modIm_nbHeld (s : State) (c : Nat) (f : Image → Image) : (s.modIm c f).nbHeld = s.nbHeld := rfl
@[simp] theorem State.modIm_stlb (s : State) (c : Nat) (f : Image → Image) : (s.modIm c f).stlb = s.stlb := rfl
@[simp] theorem State.modIm_pfetch (s : State) (c : Nat) (f : Image → Image) : (s.modIm c f).pfetch = s.pfetch := rfl
@[simp] theorem State.modIm_descs (s : State) (c : Nat) (f : Image → Image) : (s.modIm c f).descs = s.descs := rfl
@[simp] theorem State.modIm_bad (s : State) (c : Nat) (f : Image → Image) : (s.modIm c f).bad = s.bad := rfl
@[simp] theorem State.modIm_strikes (s : State) (c : Nat) (f : Image → Image) : (s.modIm c f).strikes = s.strikes := rfl
@[simp] theorem State.modIm_linkErr (s : State) (c : Nat) (f : Image → Image) : (s.modIm c f).linkErr = s.linkErr := rfl
@[simp] theorem State.modIm_draws (s : State) (c : Nat) (f : Image → Image) : (s.modIm c f).draws = s.draws := rfl
@[simp] theorem State.modIm_serial (s : State) (c : Nat) (f : Image → Image) : (s.modIm c f).serial = s.serial := rfl
@[simp] theorem State.modIm_cur (s : State) (c : Nat) (f : Image → Image) : (s.modIm c f).cur = s.cur := rfl

/-! ### modVec -/

@[simp] theorem State.modVec_cyc (s : State) (c : Nat) (f : VecSt → VecSt) : (s.modVec c f).cyc = s.cyc := rfl
@[simp] theorem State.modVec_arrays (s : State) (c : Nat) (f : VecSt → VecSt) : (s.modVec c f).arrays = s.arrays := rfl
@[simp] theorem State.modVec_dies (s : State) (c : Nat) (f : VecSt → VecSt) : (s.modVec c f).dies = s.dies := rfl
@[simp] theorem State.modVec_mem (s : State) (c : Nat) (f : VecSt → VecSt) : (s.modVec c f).mem = s.mem := rfl
@[simp] theorem State.modVec_blog (s : State) (c : Nat) (f : VecSt → VecSt) : (s.modVec c f).blog = s.blog := rfl
@[simp] theorem State.modVec_images (s : State) (c : Nat) (f : VecSt → VecSt) : (s.modVec c f).images = s.images := rfl
@[simp] theorem State.modVec_archive (s : State) (c : Nat) (f : VecSt → VecSt) : (s.modVec c f).archive = s.archive := rfl
@[simp] theorem State.modVec_launches (s : State) (c : Nat) (f : VecSt → VecSt) : (s.modVec c f).launches = s.launches := rfl
@[simp] theorem State.modVec_entryDone (s : State) (c : Nat) (f : VecSt → VecSt) : (s.modVec c f).entryDone = s.entryDone := rfl
@[simp] theorem State.modVec_works (s : State) (c : Nat) (f : VecSt → VecSt) : (s.modVec c f).works = s.works := rfl
@[simp] theorem State.modVec_frames (s : State) (c : Nat) (f : VecSt → VecSt) : (s.modVec c f).frames = s.frames := rfl
@[simp] theorem State.modVec_fills (s : State) (c : Nat) (f : VecSt → VecSt) : (s.modVec c f).fills = s.fills := rfl
@[simp] theorem State.modVec_hrcfg (s : State) (c : Nat) (f : VecSt → VecSt) : (s.modVec c f).hrcfg = s.hrcfg := rfl
@[simp] theorem State.modVec_wires (s : State) (c : Nat) (f : VecSt → VecSt) : (s.modVec c f).wires = s.wires := rfl
@[simp] theorem State.modVec_removals (s : State) (c : Nat) (f : VecSt → VecSt) : (s.modVec c f).removals = s.removals := rfl
@[simp] theorem State.modVec_gens (s : State) (c : Nat) (f : VecSt → VecSt) : (s.modVec c f).gens = s.gens := rfl
@[simp] theorem State.modVec_fenced (s : State) (c : Nat) (f : VecSt → VecSt) : (s.modVec c f).fenced = s.fenced := rfl
@[simp] theorem State.modVec_healed (s : State) (c : Nat) (f : VecSt → VecSt) : (s.modVec c f).healed = s.healed := rfl
@[simp] theorem State.modVec_scans (s : State) (c : Nat) (f : VecSt → VecSt) : (s.modVec c f).scans = s.scans := rfl
@[simp] theorem State.modVec_usedBy (s : State) (c : Nat) (f : VecSt → VecSt) : (s.modVec c f).usedBy = s.usedBy := rfl
@[simp] theorem State.modVec_usedCkpt (s : State) (c : Nat) (f : VecSt → VecSt) : (s.modVec c f).usedCkpt = s.usedCkpt := rfl
@[simp] theorem State.modVec_entered (s : State) (c : Nat) (f : VecSt → VecSt) : (s.modVec c f).entered = s.entered := rfl
@[simp] theorem State.modVec_stores (s : State) (c : Nat) (f : VecSt → VecSt) : (s.modVec c f).stores = s.stores := rfl
@[simp] theorem State.modVec_jrnl (s : State) (c : Nat) (f : VecSt → VecSt) : (s.modVec c f).jrnl = s.jrnl := rfl
@[simp] theorem State.modVec_dom (s : State) (c : Nat) (f : VecSt → VecSt) : (s.modVec c f).dom = s.dom := rfl
@[simp] theorem State.modVec_plat (s : State) (c : Nat) (f : VecSt → VecSt) : (s.modVec c f).plat = s.plat := rfl
@[simp] theorem State.modVec_inputs (s : State) (c : Nat) (f : VecSt → VecSt) : (s.modVec c f).inputs = s.inputs := rfl
@[simp] theorem State.modVec_outbox (s : State) (c : Nat) (f : VecSt → VecSt) : (s.modVec c f).outbox = s.outbox := rfl
@[simp] theorem State.modVec_relQ (s : State) (c : Nat) (f : VecSt → VecSt) : (s.modVec c f).relQ = s.relQ := rfl
@[simp] theorem State.modVec_placed (s : State) (c : Nat) (f : VecSt → VecSt) : (s.modVec c f).placed = s.placed := rfl
@[simp] theorem State.modVec_nbHeld (s : State) (c : Nat) (f : VecSt → VecSt) : (s.modVec c f).nbHeld = s.nbHeld := rfl
@[simp] theorem State.modVec_stlb (s : State) (c : Nat) (f : VecSt → VecSt) : (s.modVec c f).stlb = s.stlb := rfl
@[simp] theorem State.modVec_pfetch (s : State) (c : Nat) (f : VecSt → VecSt) : (s.modVec c f).pfetch = s.pfetch := rfl
@[simp] theorem State.modVec_descs (s : State) (c : Nat) (f : VecSt → VecSt) : (s.modVec c f).descs = s.descs := rfl
@[simp] theorem State.modVec_bad (s : State) (c : Nat) (f : VecSt → VecSt) : (s.modVec c f).bad = s.bad := rfl
@[simp] theorem State.modVec_strikes (s : State) (c : Nat) (f : VecSt → VecSt) : (s.modVec c f).strikes = s.strikes := rfl
@[simp] theorem State.modVec_linkErr (s : State) (c : Nat) (f : VecSt → VecSt) : (s.modVec c f).linkErr = s.linkErr := rfl
@[simp] theorem State.modVec_draws (s : State) (c : Nat) (f : VecSt → VecSt) : (s.modVec c f).draws = s.draws := rfl
@[simp] theorem State.modVec_serial (s : State) (c : Nat) (f : VecSt → VecSt) : (s.modVec c f).serial = s.serial := rfl
@[simp] theorem State.modVec_cur (s : State) (c : Nat) (f : VecSt → VecSt) : (s.modVec c f).cur = s.cur := rfl

/-! ### modMs -/

@[simp] theorem State.modMs_cyc (s : State) (c : Nat) (f : MemSide → MemSide) : (s.modMs c f).cyc = s.cyc := rfl
@[simp] theorem State.modMs_arrays (s : State) (c : Nat) (f : MemSide → MemSide) : (s.modMs c f).arrays = s.arrays := rfl
@[simp] theorem State.modMs_dies (s : State) (c : Nat) (f : MemSide → MemSide) : (s.modMs c f).dies = s.dies := rfl
@[simp] theorem State.modMs_mem (s : State) (c : Nat) (f : MemSide → MemSide) : (s.modMs c f).mem = s.mem := rfl
@[simp] theorem State.modMs_blog (s : State) (c : Nat) (f : MemSide → MemSide) : (s.modMs c f).blog = s.blog := rfl
@[simp] theorem State.modMs_images (s : State) (c : Nat) (f : MemSide → MemSide) : (s.modMs c f).images = s.images := rfl
@[simp] theorem State.modMs_archive (s : State) (c : Nat) (f : MemSide → MemSide) : (s.modMs c f).archive = s.archive := rfl
@[simp] theorem State.modMs_launches (s : State) (c : Nat) (f : MemSide → MemSide) : (s.modMs c f).launches = s.launches := rfl
@[simp] theorem State.modMs_entryDone (s : State) (c : Nat) (f : MemSide → MemSide) : (s.modMs c f).entryDone = s.entryDone := rfl
@[simp] theorem State.modMs_works (s : State) (c : Nat) (f : MemSide → MemSide) : (s.modMs c f).works = s.works := rfl
@[simp] theorem State.modMs_frames (s : State) (c : Nat) (f : MemSide → MemSide) : (s.modMs c f).frames = s.frames := rfl
@[simp] theorem State.modMs_fills (s : State) (c : Nat) (f : MemSide → MemSide) : (s.modMs c f).fills = s.fills := rfl
@[simp] theorem State.modMs_hrcfg (s : State) (c : Nat) (f : MemSide → MemSide) : (s.modMs c f).hrcfg = s.hrcfg := rfl
@[simp] theorem State.modMs_wires (s : State) (c : Nat) (f : MemSide → MemSide) : (s.modMs c f).wires = s.wires := rfl
@[simp] theorem State.modMs_removals (s : State) (c : Nat) (f : MemSide → MemSide) : (s.modMs c f).removals = s.removals := rfl
@[simp] theorem State.modMs_gens (s : State) (c : Nat) (f : MemSide → MemSide) : (s.modMs c f).gens = s.gens := rfl
@[simp] theorem State.modMs_fenced (s : State) (c : Nat) (f : MemSide → MemSide) : (s.modMs c f).fenced = s.fenced := rfl
@[simp] theorem State.modMs_healed (s : State) (c : Nat) (f : MemSide → MemSide) : (s.modMs c f).healed = s.healed := rfl
@[simp] theorem State.modMs_scans (s : State) (c : Nat) (f : MemSide → MemSide) : (s.modMs c f).scans = s.scans := rfl
@[simp] theorem State.modMs_usedBy (s : State) (c : Nat) (f : MemSide → MemSide) : (s.modMs c f).usedBy = s.usedBy := rfl
@[simp] theorem State.modMs_usedCkpt (s : State) (c : Nat) (f : MemSide → MemSide) : (s.modMs c f).usedCkpt = s.usedCkpt := rfl
@[simp] theorem State.modMs_entered (s : State) (c : Nat) (f : MemSide → MemSide) : (s.modMs c f).entered = s.entered := rfl
@[simp] theorem State.modMs_stores (s : State) (c : Nat) (f : MemSide → MemSide) : (s.modMs c f).stores = s.stores := rfl
@[simp] theorem State.modMs_jrnl (s : State) (c : Nat) (f : MemSide → MemSide) : (s.modMs c f).jrnl = s.jrnl := rfl
@[simp] theorem State.modMs_dom (s : State) (c : Nat) (f : MemSide → MemSide) : (s.modMs c f).dom = s.dom := rfl
@[simp] theorem State.modMs_plat (s : State) (c : Nat) (f : MemSide → MemSide) : (s.modMs c f).plat = s.plat := rfl
@[simp] theorem State.modMs_inputs (s : State) (c : Nat) (f : MemSide → MemSide) : (s.modMs c f).inputs = s.inputs := rfl
@[simp] theorem State.modMs_outbox (s : State) (c : Nat) (f : MemSide → MemSide) : (s.modMs c f).outbox = s.outbox := rfl
@[simp] theorem State.modMs_relQ (s : State) (c : Nat) (f : MemSide → MemSide) : (s.modMs c f).relQ = s.relQ := rfl
@[simp] theorem State.modMs_placed (s : State) (c : Nat) (f : MemSide → MemSide) : (s.modMs c f).placed = s.placed := rfl
@[simp] theorem State.modMs_nbHeld (s : State) (c : Nat) (f : MemSide → MemSide) : (s.modMs c f).nbHeld = s.nbHeld := rfl
@[simp] theorem State.modMs_stlb (s : State) (c : Nat) (f : MemSide → MemSide) : (s.modMs c f).stlb = s.stlb := rfl
@[simp] theorem State.modMs_pfetch (s : State) (c : Nat) (f : MemSide → MemSide) : (s.modMs c f).pfetch = s.pfetch := rfl
@[simp] theorem State.modMs_descs (s : State) (c : Nat) (f : MemSide → MemSide) : (s.modMs c f).descs = s.descs := rfl
@[simp] theorem State.modMs_bad (s : State) (c : Nat) (f : MemSide → MemSide) : (s.modMs c f).bad = s.bad := rfl
@[simp] theorem State.modMs_strikes (s : State) (c : Nat) (f : MemSide → MemSide) : (s.modMs c f).strikes = s.strikes := rfl
@[simp] theorem State.modMs_linkErr (s : State) (c : Nat) (f : MemSide → MemSide) : (s.modMs c f).linkErr = s.linkErr := rfl
@[simp] theorem State.modMs_draws (s : State) (c : Nat) (f : MemSide → MemSide) : (s.modMs c f).draws = s.draws := rfl
@[simp] theorem State.modMs_serial (s : State) (c : Nat) (f : MemSide → MemSide) : (s.modMs c f).serial = s.serial := rfl
@[simp] theorem State.modMs_cur (s : State) (c : Nat) (f : MemSide → MemSide) : (s.modMs c f).cur = s.cur := rfl

/-! ### modStops -/

@[simp] theorem State.modStops_cyc (s : State) (c : Nat) (f : Stops → Stops) : (s.modStops c f).cyc = s.cyc := rfl
@[simp] theorem State.modStops_arrays (s : State) (c : Nat) (f : Stops → Stops) : (s.modStops c f).arrays = s.arrays := rfl
@[simp] theorem State.modStops_dies (s : State) (c : Nat) (f : Stops → Stops) : (s.modStops c f).dies = s.dies := rfl
@[simp] theorem State.modStops_mem (s : State) (c : Nat) (f : Stops → Stops) : (s.modStops c f).mem = s.mem := rfl
@[simp] theorem State.modStops_blog (s : State) (c : Nat) (f : Stops → Stops) : (s.modStops c f).blog = s.blog := rfl
@[simp] theorem State.modStops_images (s : State) (c : Nat) (f : Stops → Stops) : (s.modStops c f).images = s.images := rfl
@[simp] theorem State.modStops_archive (s : State) (c : Nat) (f : Stops → Stops) : (s.modStops c f).archive = s.archive := rfl
@[simp] theorem State.modStops_launches (s : State) (c : Nat) (f : Stops → Stops) : (s.modStops c f).launches = s.launches := rfl
@[simp] theorem State.modStops_entryDone (s : State) (c : Nat) (f : Stops → Stops) : (s.modStops c f).entryDone = s.entryDone := rfl
@[simp] theorem State.modStops_works (s : State) (c : Nat) (f : Stops → Stops) : (s.modStops c f).works = s.works := rfl
@[simp] theorem State.modStops_frames (s : State) (c : Nat) (f : Stops → Stops) : (s.modStops c f).frames = s.frames := rfl
@[simp] theorem State.modStops_fills (s : State) (c : Nat) (f : Stops → Stops) : (s.modStops c f).fills = s.fills := rfl
@[simp] theorem State.modStops_hrcfg (s : State) (c : Nat) (f : Stops → Stops) : (s.modStops c f).hrcfg = s.hrcfg := rfl
@[simp] theorem State.modStops_wires (s : State) (c : Nat) (f : Stops → Stops) : (s.modStops c f).wires = s.wires := rfl
@[simp] theorem State.modStops_removals (s : State) (c : Nat) (f : Stops → Stops) : (s.modStops c f).removals = s.removals := rfl
@[simp] theorem State.modStops_gens (s : State) (c : Nat) (f : Stops → Stops) : (s.modStops c f).gens = s.gens := rfl
@[simp] theorem State.modStops_fenced (s : State) (c : Nat) (f : Stops → Stops) : (s.modStops c f).fenced = s.fenced := rfl
@[simp] theorem State.modStops_healed (s : State) (c : Nat) (f : Stops → Stops) : (s.modStops c f).healed = s.healed := rfl
@[simp] theorem State.modStops_scans (s : State) (c : Nat) (f : Stops → Stops) : (s.modStops c f).scans = s.scans := rfl
@[simp] theorem State.modStops_usedBy (s : State) (c : Nat) (f : Stops → Stops) : (s.modStops c f).usedBy = s.usedBy := rfl
@[simp] theorem State.modStops_usedCkpt (s : State) (c : Nat) (f : Stops → Stops) : (s.modStops c f).usedCkpt = s.usedCkpt := rfl
@[simp] theorem State.modStops_entered (s : State) (c : Nat) (f : Stops → Stops) : (s.modStops c f).entered = s.entered := rfl
@[simp] theorem State.modStops_stores (s : State) (c : Nat) (f : Stops → Stops) : (s.modStops c f).stores = s.stores := rfl
@[simp] theorem State.modStops_jrnl (s : State) (c : Nat) (f : Stops → Stops) : (s.modStops c f).jrnl = s.jrnl := rfl
@[simp] theorem State.modStops_dom (s : State) (c : Nat) (f : Stops → Stops) : (s.modStops c f).dom = s.dom := rfl
@[simp] theorem State.modStops_plat (s : State) (c : Nat) (f : Stops → Stops) : (s.modStops c f).plat = s.plat := rfl
@[simp] theorem State.modStops_inputs (s : State) (c : Nat) (f : Stops → Stops) : (s.modStops c f).inputs = s.inputs := rfl
@[simp] theorem State.modStops_outbox (s : State) (c : Nat) (f : Stops → Stops) : (s.modStops c f).outbox = s.outbox := rfl
@[simp] theorem State.modStops_relQ (s : State) (c : Nat) (f : Stops → Stops) : (s.modStops c f).relQ = s.relQ := rfl
@[simp] theorem State.modStops_placed (s : State) (c : Nat) (f : Stops → Stops) : (s.modStops c f).placed = s.placed := rfl
@[simp] theorem State.modStops_nbHeld (s : State) (c : Nat) (f : Stops → Stops) : (s.modStops c f).nbHeld = s.nbHeld := rfl
@[simp] theorem State.modStops_stlb (s : State) (c : Nat) (f : Stops → Stops) : (s.modStops c f).stlb = s.stlb := rfl
@[simp] theorem State.modStops_pfetch (s : State) (c : Nat) (f : Stops → Stops) : (s.modStops c f).pfetch = s.pfetch := rfl
@[simp] theorem State.modStops_descs (s : State) (c : Nat) (f : Stops → Stops) : (s.modStops c f).descs = s.descs := rfl
@[simp] theorem State.modStops_bad (s : State) (c : Nat) (f : Stops → Stops) : (s.modStops c f).bad = s.bad := rfl
@[simp] theorem State.modStops_strikes (s : State) (c : Nat) (f : Stops → Stops) : (s.modStops c f).strikes = s.strikes := rfl
@[simp] theorem State.modStops_linkErr (s : State) (c : Nat) (f : Stops → Stops) : (s.modStops c f).linkErr = s.linkErr := rfl
@[simp] theorem State.modStops_draws (s : State) (c : Nat) (f : Stops → Stops) : (s.modStops c f).draws = s.draws := rfl
@[simp] theorem State.modStops_serial (s : State) (c : Nat) (f : Stops → Stops) : (s.modStops c f).serial = s.serial := rfl
@[simp] theorem State.modStops_cur (s : State) (c : Nat) (f : Stops → Stops) : (s.modStops c f).cur = s.cur := rfl

/-! ### modUnits -/

@[simp] theorem State.modUnits_cyc (s : State) (c : Nat) (f : Units → Units) : (s.modUnits c f).cyc = s.cyc := rfl
@[simp] theorem State.modUnits_arrays (s : State) (c : Nat) (f : Units → Units) : (s.modUnits c f).arrays = s.arrays := rfl
@[simp] theorem State.modUnits_dies (s : State) (c : Nat) (f : Units → Units) : (s.modUnits c f).dies = s.dies := rfl
@[simp] theorem State.modUnits_mem (s : State) (c : Nat) (f : Units → Units) : (s.modUnits c f).mem = s.mem := rfl
@[simp] theorem State.modUnits_blog (s : State) (c : Nat) (f : Units → Units) : (s.modUnits c f).blog = s.blog := rfl
@[simp] theorem State.modUnits_images (s : State) (c : Nat) (f : Units → Units) : (s.modUnits c f).images = s.images := rfl
@[simp] theorem State.modUnits_archive (s : State) (c : Nat) (f : Units → Units) : (s.modUnits c f).archive = s.archive := rfl
@[simp] theorem State.modUnits_launches (s : State) (c : Nat) (f : Units → Units) : (s.modUnits c f).launches = s.launches := rfl
@[simp] theorem State.modUnits_entryDone (s : State) (c : Nat) (f : Units → Units) : (s.modUnits c f).entryDone = s.entryDone := rfl
@[simp] theorem State.modUnits_works (s : State) (c : Nat) (f : Units → Units) : (s.modUnits c f).works = s.works := rfl
@[simp] theorem State.modUnits_frames (s : State) (c : Nat) (f : Units → Units) : (s.modUnits c f).frames = s.frames := rfl
@[simp] theorem State.modUnits_fills (s : State) (c : Nat) (f : Units → Units) : (s.modUnits c f).fills = s.fills := rfl
@[simp] theorem State.modUnits_hrcfg (s : State) (c : Nat) (f : Units → Units) : (s.modUnits c f).hrcfg = s.hrcfg := rfl
@[simp] theorem State.modUnits_wires (s : State) (c : Nat) (f : Units → Units) : (s.modUnits c f).wires = s.wires := rfl
@[simp] theorem State.modUnits_removals (s : State) (c : Nat) (f : Units → Units) : (s.modUnits c f).removals = s.removals := rfl
@[simp] theorem State.modUnits_gens (s : State) (c : Nat) (f : Units → Units) : (s.modUnits c f).gens = s.gens := rfl
@[simp] theorem State.modUnits_fenced (s : State) (c : Nat) (f : Units → Units) : (s.modUnits c f).fenced = s.fenced := rfl
@[simp] theorem State.modUnits_healed (s : State) (c : Nat) (f : Units → Units) : (s.modUnits c f).healed = s.healed := rfl
@[simp] theorem State.modUnits_scans (s : State) (c : Nat) (f : Units → Units) : (s.modUnits c f).scans = s.scans := rfl
@[simp] theorem State.modUnits_usedBy (s : State) (c : Nat) (f : Units → Units) : (s.modUnits c f).usedBy = s.usedBy := rfl
@[simp] theorem State.modUnits_usedCkpt (s : State) (c : Nat) (f : Units → Units) : (s.modUnits c f).usedCkpt = s.usedCkpt := rfl
@[simp] theorem State.modUnits_entered (s : State) (c : Nat) (f : Units → Units) : (s.modUnits c f).entered = s.entered := rfl
@[simp] theorem State.modUnits_stores (s : State) (c : Nat) (f : Units → Units) : (s.modUnits c f).stores = s.stores := rfl
@[simp] theorem State.modUnits_jrnl (s : State) (c : Nat) (f : Units → Units) : (s.modUnits c f).jrnl = s.jrnl := rfl
@[simp] theorem State.modUnits_dom (s : State) (c : Nat) (f : Units → Units) : (s.modUnits c f).dom = s.dom := rfl
@[simp] theorem State.modUnits_plat (s : State) (c : Nat) (f : Units → Units) : (s.modUnits c f).plat = s.plat := rfl
@[simp] theorem State.modUnits_inputs (s : State) (c : Nat) (f : Units → Units) : (s.modUnits c f).inputs = s.inputs := rfl
@[simp] theorem State.modUnits_outbox (s : State) (c : Nat) (f : Units → Units) : (s.modUnits c f).outbox = s.outbox := rfl
@[simp] theorem State.modUnits_relQ (s : State) (c : Nat) (f : Units → Units) : (s.modUnits c f).relQ = s.relQ := rfl
@[simp] theorem State.modUnits_placed (s : State) (c : Nat) (f : Units → Units) : (s.modUnits c f).placed = s.placed := rfl
@[simp] theorem State.modUnits_nbHeld (s : State) (c : Nat) (f : Units → Units) : (s.modUnits c f).nbHeld = s.nbHeld := rfl
@[simp] theorem State.modUnits_stlb (s : State) (c : Nat) (f : Units → Units) : (s.modUnits c f).stlb = s.stlb := rfl
@[simp] theorem State.modUnits_pfetch (s : State) (c : Nat) (f : Units → Units) : (s.modUnits c f).pfetch = s.pfetch := rfl
@[simp] theorem State.modUnits_descs (s : State) (c : Nat) (f : Units → Units) : (s.modUnits c f).descs = s.descs := rfl
@[simp] theorem State.modUnits_bad (s : State) (c : Nat) (f : Units → Units) : (s.modUnits c f).bad = s.bad := rfl
@[simp] theorem State.modUnits_strikes (s : State) (c : Nat) (f : Units → Units) : (s.modUnits c f).strikes = s.strikes := rfl
@[simp] theorem State.modUnits_linkErr (s : State) (c : Nat) (f : Units → Units) : (s.modUnits c f).linkErr = s.linkErr := rfl
@[simp] theorem State.modUnits_draws (s : State) (c : Nat) (f : Units → Units) : (s.modUnits c f).draws = s.draws := rfl
@[simp] theorem State.modUnits_serial (s : State) (c : Nat) (f : Units → Units) : (s.modUnits c f).serial = s.serial := rfl
@[simp] theorem State.modUnits_cur (s : State) (c : Nat) (f : Units → Units) : (s.modUnits c f).cur = s.cur := rfl

/-! ### modWalk -/

@[simp] theorem State.modWalk_cyc (s : State) (c : Nat) (f : Walk → Walk) : (s.modWalk c f).cyc = s.cyc := rfl
@[simp] theorem State.modWalk_arrays (s : State) (c : Nat) (f : Walk → Walk) : (s.modWalk c f).arrays = s.arrays := rfl
@[simp] theorem State.modWalk_dies (s : State) (c : Nat) (f : Walk → Walk) : (s.modWalk c f).dies = s.dies := rfl
@[simp] theorem State.modWalk_mem (s : State) (c : Nat) (f : Walk → Walk) : (s.modWalk c f).mem = s.mem := rfl
@[simp] theorem State.modWalk_blog (s : State) (c : Nat) (f : Walk → Walk) : (s.modWalk c f).blog = s.blog := rfl
@[simp] theorem State.modWalk_images (s : State) (c : Nat) (f : Walk → Walk) : (s.modWalk c f).images = s.images := rfl
@[simp] theorem State.modWalk_archive (s : State) (c : Nat) (f : Walk → Walk) : (s.modWalk c f).archive = s.archive := rfl
@[simp] theorem State.modWalk_launches (s : State) (c : Nat) (f : Walk → Walk) : (s.modWalk c f).launches = s.launches := rfl
@[simp] theorem State.modWalk_entryDone (s : State) (c : Nat) (f : Walk → Walk) : (s.modWalk c f).entryDone = s.entryDone := rfl
@[simp] theorem State.modWalk_works (s : State) (c : Nat) (f : Walk → Walk) : (s.modWalk c f).works = s.works := rfl
@[simp] theorem State.modWalk_frames (s : State) (c : Nat) (f : Walk → Walk) : (s.modWalk c f).frames = s.frames := rfl
@[simp] theorem State.modWalk_fills (s : State) (c : Nat) (f : Walk → Walk) : (s.modWalk c f).fills = s.fills := rfl
@[simp] theorem State.modWalk_hrcfg (s : State) (c : Nat) (f : Walk → Walk) : (s.modWalk c f).hrcfg = s.hrcfg := rfl
@[simp] theorem State.modWalk_wires (s : State) (c : Nat) (f : Walk → Walk) : (s.modWalk c f).wires = s.wires := rfl
@[simp] theorem State.modWalk_removals (s : State) (c : Nat) (f : Walk → Walk) : (s.modWalk c f).removals = s.removals := rfl
@[simp] theorem State.modWalk_gens (s : State) (c : Nat) (f : Walk → Walk) : (s.modWalk c f).gens = s.gens := rfl
@[simp] theorem State.modWalk_fenced (s : State) (c : Nat) (f : Walk → Walk) : (s.modWalk c f).fenced = s.fenced := rfl
@[simp] theorem State.modWalk_healed (s : State) (c : Nat) (f : Walk → Walk) : (s.modWalk c f).healed = s.healed := rfl
@[simp] theorem State.modWalk_scans (s : State) (c : Nat) (f : Walk → Walk) : (s.modWalk c f).scans = s.scans := rfl
@[simp] theorem State.modWalk_usedBy (s : State) (c : Nat) (f : Walk → Walk) : (s.modWalk c f).usedBy = s.usedBy := rfl
@[simp] theorem State.modWalk_usedCkpt (s : State) (c : Nat) (f : Walk → Walk) : (s.modWalk c f).usedCkpt = s.usedCkpt := rfl
@[simp] theorem State.modWalk_entered (s : State) (c : Nat) (f : Walk → Walk) : (s.modWalk c f).entered = s.entered := rfl
@[simp] theorem State.modWalk_stores (s : State) (c : Nat) (f : Walk → Walk) : (s.modWalk c f).stores = s.stores := rfl
@[simp] theorem State.modWalk_jrnl (s : State) (c : Nat) (f : Walk → Walk) : (s.modWalk c f).jrnl = s.jrnl := rfl
@[simp] theorem State.modWalk_dom (s : State) (c : Nat) (f : Walk → Walk) : (s.modWalk c f).dom = s.dom := rfl
@[simp] theorem State.modWalk_plat (s : State) (c : Nat) (f : Walk → Walk) : (s.modWalk c f).plat = s.plat := rfl
@[simp] theorem State.modWalk_inputs (s : State) (c : Nat) (f : Walk → Walk) : (s.modWalk c f).inputs = s.inputs := rfl
@[simp] theorem State.modWalk_outbox (s : State) (c : Nat) (f : Walk → Walk) : (s.modWalk c f).outbox = s.outbox := rfl
@[simp] theorem State.modWalk_relQ (s : State) (c : Nat) (f : Walk → Walk) : (s.modWalk c f).relQ = s.relQ := rfl
@[simp] theorem State.modWalk_placed (s : State) (c : Nat) (f : Walk → Walk) : (s.modWalk c f).placed = s.placed := rfl
@[simp] theorem State.modWalk_nbHeld (s : State) (c : Nat) (f : Walk → Walk) : (s.modWalk c f).nbHeld = s.nbHeld := rfl
@[simp] theorem State.modWalk_stlb (s : State) (c : Nat) (f : Walk → Walk) : (s.modWalk c f).stlb = s.stlb := rfl
@[simp] theorem State.modWalk_pfetch (s : State) (c : Nat) (f : Walk → Walk) : (s.modWalk c f).pfetch = s.pfetch := rfl
@[simp] theorem State.modWalk_descs (s : State) (c : Nat) (f : Walk → Walk) : (s.modWalk c f).descs = s.descs := rfl
@[simp] theorem State.modWalk_bad (s : State) (c : Nat) (f : Walk → Walk) : (s.modWalk c f).bad = s.bad := rfl
@[simp] theorem State.modWalk_strikes (s : State) (c : Nat) (f : Walk → Walk) : (s.modWalk c f).strikes = s.strikes := rfl
@[simp] theorem State.modWalk_linkErr (s : State) (c : Nat) (f : Walk → Walk) : (s.modWalk c f).linkErr = s.linkErr := rfl
@[simp] theorem State.modWalk_draws (s : State) (c : Nat) (f : Walk → Walk) : (s.modWalk c f).draws = s.draws := rfl
@[simp] theorem State.modWalk_serial (s : State) (c : Nat) (f : Walk → Walk) : (s.modWalk c f).serial = s.serial := rfl
@[simp] theorem State.modWalk_cur (s : State) (c : Nat) (f : Walk → Walk) : (s.modWalk c f).cur = s.cur := rfl

/-! ### modSeq -/

@[simp] theorem State.modSeq_cyc (s : State) (c : Nat) (q : Seq) (f : SeqSt → SeqSt) : (s.modSeq c q f).cyc = s.cyc := rfl
@[simp] theorem State.modSeq_arrays (s : State) (c : Nat) (q : Seq) (f : SeqSt → SeqSt) : (s.modSeq c q f).arrays = s.arrays := rfl
@[simp] theorem State.modSeq_dies (s : State) (c : Nat) (q : Seq) (f : SeqSt → SeqSt) : (s.modSeq c q f).dies = s.dies := rfl
@[simp] theorem State.modSeq_mem (s : State) (c : Nat) (q : Seq) (f : SeqSt → SeqSt) : (s.modSeq c q f).mem = s.mem := rfl
@[simp] theorem State.modSeq_blog (s : State) (c : Nat) (q : Seq) (f : SeqSt → SeqSt) : (s.modSeq c q f).blog = s.blog := rfl
@[simp] theorem State.modSeq_images (s : State) (c : Nat) (q : Seq) (f : SeqSt → SeqSt) : (s.modSeq c q f).images = s.images := rfl
@[simp] theorem State.modSeq_archive (s : State) (c : Nat) (q : Seq) (f : SeqSt → SeqSt) : (s.modSeq c q f).archive = s.archive := rfl
@[simp] theorem State.modSeq_launches (s : State) (c : Nat) (q : Seq) (f : SeqSt → SeqSt) : (s.modSeq c q f).launches = s.launches := rfl
@[simp] theorem State.modSeq_entryDone (s : State) (c : Nat) (q : Seq) (f : SeqSt → SeqSt) : (s.modSeq c q f).entryDone = s.entryDone := rfl
@[simp] theorem State.modSeq_works (s : State) (c : Nat) (q : Seq) (f : SeqSt → SeqSt) : (s.modSeq c q f).works = s.works := rfl
@[simp] theorem State.modSeq_frames (s : State) (c : Nat) (q : Seq) (f : SeqSt → SeqSt) : (s.modSeq c q f).frames = s.frames := rfl
@[simp] theorem State.modSeq_fills (s : State) (c : Nat) (q : Seq) (f : SeqSt → SeqSt) : (s.modSeq c q f).fills = s.fills := rfl
@[simp] theorem State.modSeq_hrcfg (s : State) (c : Nat) (q : Seq) (f : SeqSt → SeqSt) : (s.modSeq c q f).hrcfg = s.hrcfg := rfl
@[simp] theorem State.modSeq_wires (s : State) (c : Nat) (q : Seq) (f : SeqSt → SeqSt) : (s.modSeq c q f).wires = s.wires := rfl
@[simp] theorem State.modSeq_removals (s : State) (c : Nat) (q : Seq) (f : SeqSt → SeqSt) : (s.modSeq c q f).removals = s.removals := rfl
@[simp] theorem State.modSeq_gens (s : State) (c : Nat) (q : Seq) (f : SeqSt → SeqSt) : (s.modSeq c q f).gens = s.gens := rfl
@[simp] theorem State.modSeq_fenced (s : State) (c : Nat) (q : Seq) (f : SeqSt → SeqSt) : (s.modSeq c q f).fenced = s.fenced := rfl
@[simp] theorem State.modSeq_healed (s : State) (c : Nat) (q : Seq) (f : SeqSt → SeqSt) : (s.modSeq c q f).healed = s.healed := rfl
@[simp] theorem State.modSeq_scans (s : State) (c : Nat) (q : Seq) (f : SeqSt → SeqSt) : (s.modSeq c q f).scans = s.scans := rfl
@[simp] theorem State.modSeq_usedBy (s : State) (c : Nat) (q : Seq) (f : SeqSt → SeqSt) : (s.modSeq c q f).usedBy = s.usedBy := rfl
@[simp] theorem State.modSeq_usedCkpt (s : State) (c : Nat) (q : Seq) (f : SeqSt → SeqSt) : (s.modSeq c q f).usedCkpt = s.usedCkpt := rfl
@[simp] theorem State.modSeq_entered (s : State) (c : Nat) (q : Seq) (f : SeqSt → SeqSt) : (s.modSeq c q f).entered = s.entered := rfl
@[simp] theorem State.modSeq_stores (s : State) (c : Nat) (q : Seq) (f : SeqSt → SeqSt) : (s.modSeq c q f).stores = s.stores := rfl
@[simp] theorem State.modSeq_jrnl (s : State) (c : Nat) (q : Seq) (f : SeqSt → SeqSt) : (s.modSeq c q f).jrnl = s.jrnl := rfl
@[simp] theorem State.modSeq_dom (s : State) (c : Nat) (q : Seq) (f : SeqSt → SeqSt) : (s.modSeq c q f).dom = s.dom := rfl
@[simp] theorem State.modSeq_plat (s : State) (c : Nat) (q : Seq) (f : SeqSt → SeqSt) : (s.modSeq c q f).plat = s.plat := rfl
@[simp] theorem State.modSeq_inputs (s : State) (c : Nat) (q : Seq) (f : SeqSt → SeqSt) : (s.modSeq c q f).inputs = s.inputs := rfl
@[simp] theorem State.modSeq_outbox (s : State) (c : Nat) (q : Seq) (f : SeqSt → SeqSt) : (s.modSeq c q f).outbox = s.outbox := rfl
@[simp] theorem State.modSeq_relQ (s : State) (c : Nat) (q : Seq) (f : SeqSt → SeqSt) : (s.modSeq c q f).relQ = s.relQ := rfl
@[simp] theorem State.modSeq_placed (s : State) (c : Nat) (q : Seq) (f : SeqSt → SeqSt) : (s.modSeq c q f).placed = s.placed := rfl
@[simp] theorem State.modSeq_nbHeld (s : State) (c : Nat) (q : Seq) (f : SeqSt → SeqSt) : (s.modSeq c q f).nbHeld = s.nbHeld := rfl
@[simp] theorem State.modSeq_stlb (s : State) (c : Nat) (q : Seq) (f : SeqSt → SeqSt) : (s.modSeq c q f).stlb = s.stlb := rfl
@[simp] theorem State.modSeq_pfetch (s : State) (c : Nat) (q : Seq) (f : SeqSt → SeqSt) : (s.modSeq c q f).pfetch = s.pfetch := rfl
@[simp] theorem State.modSeq_descs (s : State) (c : Nat) (q : Seq) (f : SeqSt → SeqSt) : (s.modSeq c q f).descs = s.descs := rfl
@[simp] theorem State.modSeq_bad (s : State) (c : Nat) (q : Seq) (f : SeqSt → SeqSt) : (s.modSeq c q f).bad = s.bad := rfl
@[simp] theorem State.modSeq_strikes (s : State) (c : Nat) (q : Seq) (f : SeqSt → SeqSt) : (s.modSeq c q f).strikes = s.strikes := rfl
@[simp] theorem State.modSeq_linkErr (s : State) (c : Nat) (q : Seq) (f : SeqSt → SeqSt) : (s.modSeq c q f).linkErr = s.linkErr := rfl
@[simp] theorem State.modSeq_draws (s : State) (c : Nat) (q : Seq) (f : SeqSt → SeqSt) : (s.modSeq c q f).draws = s.draws := rfl
@[simp] theorem State.modSeq_serial (s : State) (c : Nat) (q : Seq) (f : SeqSt → SeqSt) : (s.modSeq c q f).serial = s.serial := rfl
@[simp] theorem State.modSeq_cur (s : State) (c : Nat) (q : Seq) (f : SeqSt → SeqSt) : (s.modSeq c q f).cur = s.cur := rfl

/-! ### pushFlight -/

@[simp] theorem State.pushFlight_cyc (s : State) (c : Nat) (f : Flight) : (s.pushFlight c f).cyc = s.cyc := rfl
@[simp] theorem State.pushFlight_arrays (s : State) (c : Nat) (f : Flight) : (s.pushFlight c f).arrays = s.arrays := rfl
@[simp] theorem State.pushFlight_dies (s : State) (c : Nat) (f : Flight) : (s.pushFlight c f).dies = s.dies := rfl
@[simp] theorem State.pushFlight_mem (s : State) (c : Nat) (f : Flight) : (s.pushFlight c f).mem = s.mem := rfl
@[simp] theorem State.pushFlight_blog (s : State) (c : Nat) (f : Flight) : (s.pushFlight c f).blog = s.blog := rfl
@[simp] theorem State.pushFlight_images (s : State) (c : Nat) (f : Flight) : (s.pushFlight c f).images = s.images := rfl
@[simp] theorem State.pushFlight_archive (s : State) (c : Nat) (f : Flight) : (s.pushFlight c f).archive = s.archive := rfl
@[simp] theorem State.pushFlight_launches (s : State) (c : Nat) (f : Flight) : (s.pushFlight c f).launches = s.launches := rfl
@[simp] theorem State.pushFlight_entryDone (s : State) (c : Nat) (f : Flight) : (s.pushFlight c f).entryDone = s.entryDone := rfl
@[simp] theorem State.pushFlight_works (s : State) (c : Nat) (f : Flight) : (s.pushFlight c f).works = s.works := rfl
@[simp] theorem State.pushFlight_frames (s : State) (c : Nat) (f : Flight) : (s.pushFlight c f).frames = s.frames := rfl
@[simp] theorem State.pushFlight_fills (s : State) (c : Nat) (f : Flight) : (s.pushFlight c f).fills = s.fills := rfl
@[simp] theorem State.pushFlight_hrcfg (s : State) (c : Nat) (f : Flight) : (s.pushFlight c f).hrcfg = s.hrcfg := rfl
@[simp] theorem State.pushFlight_wires (s : State) (c : Nat) (f : Flight) : (s.pushFlight c f).wires = s.wires := rfl
@[simp] theorem State.pushFlight_removals (s : State) (c : Nat) (f : Flight) : (s.pushFlight c f).removals = s.removals := rfl
@[simp] theorem State.pushFlight_gens (s : State) (c : Nat) (f : Flight) : (s.pushFlight c f).gens = s.gens := rfl
@[simp] theorem State.pushFlight_fenced (s : State) (c : Nat) (f : Flight) : (s.pushFlight c f).fenced = s.fenced := rfl
@[simp] theorem State.pushFlight_healed (s : State) (c : Nat) (f : Flight) : (s.pushFlight c f).healed = s.healed := rfl
@[simp] theorem State.pushFlight_scans (s : State) (c : Nat) (f : Flight) : (s.pushFlight c f).scans = s.scans := rfl
@[simp] theorem State.pushFlight_usedBy (s : State) (c : Nat) (f : Flight) : (s.pushFlight c f).usedBy = s.usedBy := rfl
@[simp] theorem State.pushFlight_usedCkpt (s : State) (c : Nat) (f : Flight) : (s.pushFlight c f).usedCkpt = s.usedCkpt := rfl
@[simp] theorem State.pushFlight_entered (s : State) (c : Nat) (f : Flight) : (s.pushFlight c f).entered = s.entered := rfl
@[simp] theorem State.pushFlight_stores (s : State) (c : Nat) (f : Flight) : (s.pushFlight c f).stores = s.stores := rfl
@[simp] theorem State.pushFlight_jrnl (s : State) (c : Nat) (f : Flight) : (s.pushFlight c f).jrnl = s.jrnl := rfl
@[simp] theorem State.pushFlight_dom (s : State) (c : Nat) (f : Flight) : (s.pushFlight c f).dom = s.dom := rfl
@[simp] theorem State.pushFlight_plat (s : State) (c : Nat) (f : Flight) : (s.pushFlight c f).plat = s.plat := rfl
@[simp] theorem State.pushFlight_inputs (s : State) (c : Nat) (f : Flight) : (s.pushFlight c f).inputs = s.inputs := rfl
@[simp] theorem State.pushFlight_outbox (s : State) (c : Nat) (f : Flight) : (s.pushFlight c f).outbox = s.outbox := rfl
@[simp] theorem State.pushFlight_relQ (s : State) (c : Nat) (f : Flight) : (s.pushFlight c f).relQ = s.relQ := rfl
@[simp] theorem State.pushFlight_placed (s : State) (c : Nat) (f : Flight) : (s.pushFlight c f).placed = s.placed := rfl
@[simp] theorem State.pushFlight_nbHeld (s : State) (c : Nat) (f : Flight) : (s.pushFlight c f).nbHeld = s.nbHeld := rfl
@[simp] theorem State.pushFlight_stlb (s : State) (c : Nat) (f : Flight) : (s.pushFlight c f).stlb = s.stlb := rfl
@[simp] theorem State.pushFlight_pfetch (s : State) (c : Nat) (f : Flight) : (s.pushFlight c f).pfetch = s.pfetch := rfl
@[simp] theorem State.pushFlight_descs (s : State) (c : Nat) (f : Flight) : (s.pushFlight c f).descs = s.descs := rfl
@[simp] theorem State.pushFlight_bad (s : State) (c : Nat) (f : Flight) : (s.pushFlight c f).bad = s.bad := rfl
@[simp] theorem State.pushFlight_strikes (s : State) (c : Nat) (f : Flight) : (s.pushFlight c f).strikes = s.strikes := rfl
@[simp] theorem State.pushFlight_linkErr (s : State) (c : Nat) (f : Flight) : (s.pushFlight c f).linkErr = s.linkErr := rfl
@[simp] theorem State.pushFlight_draws (s : State) (c : Nat) (f : Flight) : (s.pushFlight c f).draws = s.draws := rfl
@[simp] theorem State.pushFlight_serial (s : State) (c : Nat) (f : Flight) : (s.pushFlight c f).serial = s.serial := rfl
@[simp] theorem State.pushFlight_cur (s : State) (c : Nat) (f : Flight) : (s.pushFlight c f).cur = s.cur := rfl

/-! ### result -/

@[simp] theorem State.result_cyc (s : State) (lat ord : Nat) (fx : Fx) : (s.result lat ord fx).cyc = s.cyc := rfl
@[simp] theorem State.result_arrays (s : State) (lat ord : Nat) (fx : Fx) : (s.result lat ord fx).arrays = s.arrays := rfl
@[simp] theorem State.result_dies (s : State) (lat ord : Nat) (fx : Fx) : (s.result lat ord fx).dies = s.dies := rfl
@[simp] theorem State.result_mem (s : State) (lat ord : Nat) (fx : Fx) : (s.result lat ord fx).mem = s.mem := rfl
@[simp] theorem State.result_blog (s : State) (lat ord : Nat) (fx : Fx) : (s.result lat ord fx).blog = s.blog := rfl
@[simp] theorem State.result_images (s : State) (lat ord : Nat) (fx : Fx) : (s.result lat ord fx).images = s.images := rfl
@[simp] theorem State.result_archive (s : State) (lat ord : Nat) (fx : Fx) : (s.result lat ord fx).archive = s.archive := rfl
@[simp] theorem State.result_launches (s : State) (lat ord : Nat) (fx : Fx) : (s.result lat ord fx).launches = s.launches := rfl
@[simp] theorem State.result_entryDone (s : State) (lat ord : Nat) (fx : Fx) : (s.result lat ord fx).entryDone = s.entryDone := rfl
@[simp] theorem State.result_works (s : State) (lat ord : Nat) (fx : Fx) : (s.result lat ord fx).works = s.works := rfl
@[simp] theorem State.result_frames (s : State) (lat ord : Nat) (fx : Fx) : (s.result lat ord fx).frames = s.frames := rfl
@[simp] theorem State.result_fills (s : State) (lat ord : Nat) (fx : Fx) : (s.result lat ord fx).fills = s.fills := rfl
@[simp] theorem State.result_hrcfg (s : State) (lat ord : Nat) (fx : Fx) : (s.result lat ord fx).hrcfg = s.hrcfg := rfl
@[simp] theorem State.result_wires (s : State) (lat ord : Nat) (fx : Fx) : (s.result lat ord fx).wires = s.wires := rfl
@[simp] theorem State.result_removals (s : State) (lat ord : Nat) (fx : Fx) : (s.result lat ord fx).removals = s.removals := rfl
@[simp] theorem State.result_gens (s : State) (lat ord : Nat) (fx : Fx) : (s.result lat ord fx).gens = s.gens := rfl
@[simp] theorem State.result_fenced (s : State) (lat ord : Nat) (fx : Fx) : (s.result lat ord fx).fenced = s.fenced := rfl
@[simp] theorem State.result_healed (s : State) (lat ord : Nat) (fx : Fx) : (s.result lat ord fx).healed = s.healed := rfl
@[simp] theorem State.result_scans (s : State) (lat ord : Nat) (fx : Fx) : (s.result lat ord fx).scans = s.scans := rfl
@[simp] theorem State.result_usedBy (s : State) (lat ord : Nat) (fx : Fx) : (s.result lat ord fx).usedBy = s.usedBy := rfl
@[simp] theorem State.result_usedCkpt (s : State) (lat ord : Nat) (fx : Fx) : (s.result lat ord fx).usedCkpt = s.usedCkpt := rfl
@[simp] theorem State.result_entered (s : State) (lat ord : Nat) (fx : Fx) : (s.result lat ord fx).entered = s.entered := rfl
@[simp] theorem State.result_stores (s : State) (lat ord : Nat) (fx : Fx) : (s.result lat ord fx).stores = s.stores := rfl
@[simp] theorem State.result_jrnl (s : State) (lat ord : Nat) (fx : Fx) : (s.result lat ord fx).jrnl = s.jrnl := rfl
@[simp] theorem State.result_dom (s : State) (lat ord : Nat) (fx : Fx) : (s.result lat ord fx).dom = s.dom := rfl
@[simp] theorem State.result_plat (s : State) (lat ord : Nat) (fx : Fx) : (s.result lat ord fx).plat = s.plat := rfl
@[simp] theorem State.result_inputs (s : State) (lat ord : Nat) (fx : Fx) : (s.result lat ord fx).inputs = s.inputs := rfl
@[simp] theorem State.result_outbox (s : State) (lat ord : Nat) (fx : Fx) : (s.result lat ord fx).outbox = s.outbox := rfl
@[simp] theorem State.result_relQ (s : State) (lat ord : Nat) (fx : Fx) : (s.result lat ord fx).relQ = s.relQ := rfl
@[simp] theorem State.result_placed (s : State) (lat ord : Nat) (fx : Fx) : (s.result lat ord fx).placed = s.placed := rfl
@[simp] theorem State.result_nbHeld (s : State) (lat ord : Nat) (fx : Fx) : (s.result lat ord fx).nbHeld = s.nbHeld := rfl
@[simp] theorem State.result_stlb (s : State) (lat ord : Nat) (fx : Fx) : (s.result lat ord fx).stlb = s.stlb := rfl
@[simp] theorem State.result_pfetch (s : State) (lat ord : Nat) (fx : Fx) : (s.result lat ord fx).pfetch = s.pfetch := rfl
@[simp] theorem State.result_descs (s : State) (lat ord : Nat) (fx : Fx) : (s.result lat ord fx).descs = s.descs := rfl
@[simp] theorem State.result_bad (s : State) (lat ord : Nat) (fx : Fx) : (s.result lat ord fx).bad = s.bad := rfl
@[simp] theorem State.result_strikes (s : State) (lat ord : Nat) (fx : Fx) : (s.result lat ord fx).strikes = s.strikes := rfl
@[simp] theorem State.result_linkErr (s : State) (lat ord : Nat) (fx : Fx) : (s.result lat ord fx).linkErr = s.linkErr := rfl
@[simp] theorem State.result_draws (s : State) (lat ord : Nat) (fx : Fx) : (s.result lat ord fx).draws = s.draws := rfl
@[simp] theorem State.result_serial (s : State) (lat ord : Nat) (fx : Fx) : (s.result lat ord fx).serial = s.serial := rfl
@[simp] theorem State.result_cur (s : State) (lat ord : Nat) (fx : Fx) : (s.result lat ord fx).cur = s.cur := rfl

/-! ### retire -/

@[simp] theorem State.retire_cyc (s : State) : (s.retire).cyc = s.cyc := rfl
@[simp] theorem State.retire_arrays (s : State) : (s.retire).arrays = s.arrays := rfl
@[simp] theorem State.retire_dies (s : State) : (s.retire).dies = s.dies := rfl
@[simp] theorem State.retire_mem (s : State) : (s.retire).mem = s.mem := rfl
@[simp] theorem State.retire_blog (s : State) : (s.retire).blog = s.blog := rfl
@[simp] theorem State.retire_images (s : State) : (s.retire).images = s.images := rfl
@[simp] theorem State.retire_archive (s : State) : (s.retire).archive = s.archive := rfl
@[simp] theorem State.retire_launches (s : State) : (s.retire).launches = s.launches := rfl
@[simp] theorem State.retire_entryDone (s : State) : (s.retire).entryDone = s.entryDone := rfl
@[simp] theorem State.retire_works (s : State) : (s.retire).works = s.works := rfl
@[simp] theorem State.retire_frames (s : State) : (s.retire).frames = s.frames := rfl
@[simp] theorem State.retire_fills (s : State) : (s.retire).fills = s.fills := rfl
@[simp] theorem State.retire_hrcfg (s : State) : (s.retire).hrcfg = s.hrcfg := rfl
@[simp] theorem State.retire_wires (s : State) : (s.retire).wires = s.wires := rfl
@[simp] theorem State.retire_removals (s : State) : (s.retire).removals = s.removals := rfl
@[simp] theorem State.retire_gens (s : State) : (s.retire).gens = s.gens := rfl
@[simp] theorem State.retire_fenced (s : State) : (s.retire).fenced = s.fenced := rfl
@[simp] theorem State.retire_healed (s : State) : (s.retire).healed = s.healed := rfl
@[simp] theorem State.retire_scans (s : State) : (s.retire).scans = s.scans := rfl
@[simp] theorem State.retire_usedBy (s : State) : (s.retire).usedBy = s.usedBy := rfl
@[simp] theorem State.retire_usedCkpt (s : State) : (s.retire).usedCkpt = s.usedCkpt := rfl
@[simp] theorem State.retire_entered (s : State) : (s.retire).entered = s.entered := rfl
@[simp] theorem State.retire_stores (s : State) : (s.retire).stores = s.stores := rfl
@[simp] theorem State.retire_jrnl (s : State) : (s.retire).jrnl = s.jrnl := rfl
@[simp] theorem State.retire_dom (s : State) : (s.retire).dom = s.dom := rfl
@[simp] theorem State.retire_plat (s : State) : (s.retire).plat = s.plat := rfl
@[simp] theorem State.retire_inputs (s : State) : (s.retire).inputs = s.inputs := rfl
@[simp] theorem State.retire_outbox (s : State) : (s.retire).outbox = s.outbox := rfl
@[simp] theorem State.retire_relQ (s : State) : (s.retire).relQ = s.relQ := rfl
@[simp] theorem State.retire_placed (s : State) : (s.retire).placed = s.placed := rfl
@[simp] theorem State.retire_nbHeld (s : State) : (s.retire).nbHeld = s.nbHeld := rfl
@[simp] theorem State.retire_stlb (s : State) : (s.retire).stlb = s.stlb := rfl
@[simp] theorem State.retire_pfetch (s : State) : (s.retire).pfetch = s.pfetch := rfl
@[simp] theorem State.retire_descs (s : State) : (s.retire).descs = s.descs := rfl
@[simp] theorem State.retire_bad (s : State) : (s.retire).bad = s.bad := rfl
@[simp] theorem State.retire_strikes (s : State) : (s.retire).strikes = s.strikes := rfl
@[simp] theorem State.retire_linkErr (s : State) : (s.retire).linkErr = s.linkErr := rfl
@[simp] theorem State.retire_draws (s : State) : (s.retire).draws = s.draws := rfl
@[simp] theorem State.retire_serial (s : State) : (s.retire).serial = s.serial := rfl
@[simp] theorem State.retire_cur (s : State) : (s.retire).cur = s.cur := rfl

/-! ### retireTo -/

@[simp] theorem State.retireTo_cyc (s : State) (a : Word) (d : Nat) : (s.retireTo a d).cyc = s.cyc := rfl
@[simp] theorem State.retireTo_arrays (s : State) (a : Word) (d : Nat) : (s.retireTo a d).arrays = s.arrays := rfl
@[simp] theorem State.retireTo_dies (s : State) (a : Word) (d : Nat) : (s.retireTo a d).dies = s.dies := rfl
@[simp] theorem State.retireTo_mem (s : State) (a : Word) (d : Nat) : (s.retireTo a d).mem = s.mem := rfl
@[simp] theorem State.retireTo_blog (s : State) (a : Word) (d : Nat) : (s.retireTo a d).blog = s.blog := rfl
@[simp] theorem State.retireTo_images (s : State) (a : Word) (d : Nat) : (s.retireTo a d).images = s.images := rfl
@[simp] theorem State.retireTo_archive (s : State) (a : Word) (d : Nat) : (s.retireTo a d).archive = s.archive := rfl
@[simp] theorem State.retireTo_launches (s : State) (a : Word) (d : Nat) : (s.retireTo a d).launches = s.launches := rfl
@[simp] theorem State.retireTo_entryDone (s : State) (a : Word) (d : Nat) : (s.retireTo a d).entryDone = s.entryDone := rfl
@[simp] theorem State.retireTo_works (s : State) (a : Word) (d : Nat) : (s.retireTo a d).works = s.works := rfl
@[simp] theorem State.retireTo_frames (s : State) (a : Word) (d : Nat) : (s.retireTo a d).frames = s.frames := rfl
@[simp] theorem State.retireTo_fills (s : State) (a : Word) (d : Nat) : (s.retireTo a d).fills = s.fills := rfl
@[simp] theorem State.retireTo_hrcfg (s : State) (a : Word) (d : Nat) : (s.retireTo a d).hrcfg = s.hrcfg := rfl
@[simp] theorem State.retireTo_wires (s : State) (a : Word) (d : Nat) : (s.retireTo a d).wires = s.wires := rfl
@[simp] theorem State.retireTo_removals (s : State) (a : Word) (d : Nat) : (s.retireTo a d).removals = s.removals := rfl
@[simp] theorem State.retireTo_gens (s : State) (a : Word) (d : Nat) : (s.retireTo a d).gens = s.gens := rfl
@[simp] theorem State.retireTo_fenced (s : State) (a : Word) (d : Nat) : (s.retireTo a d).fenced = s.fenced := rfl
@[simp] theorem State.retireTo_healed (s : State) (a : Word) (d : Nat) : (s.retireTo a d).healed = s.healed := rfl
@[simp] theorem State.retireTo_scans (s : State) (a : Word) (d : Nat) : (s.retireTo a d).scans = s.scans := rfl
@[simp] theorem State.retireTo_usedBy (s : State) (a : Word) (d : Nat) : (s.retireTo a d).usedBy = s.usedBy := rfl
@[simp] theorem State.retireTo_usedCkpt (s : State) (a : Word) (d : Nat) : (s.retireTo a d).usedCkpt = s.usedCkpt := rfl
@[simp] theorem State.retireTo_entered (s : State) (a : Word) (d : Nat) : (s.retireTo a d).entered = s.entered := rfl
@[simp] theorem State.retireTo_stores (s : State) (a : Word) (d : Nat) : (s.retireTo a d).stores = s.stores := rfl
@[simp] theorem State.retireTo_jrnl (s : State) (a : Word) (d : Nat) : (s.retireTo a d).jrnl = s.jrnl := rfl
@[simp] theorem State.retireTo_dom (s : State) (a : Word) (d : Nat) : (s.retireTo a d).dom = s.dom := rfl
@[simp] theorem State.retireTo_plat (s : State) (a : Word) (d : Nat) : (s.retireTo a d).plat = s.plat := rfl
@[simp] theorem State.retireTo_inputs (s : State) (a : Word) (d : Nat) : (s.retireTo a d).inputs = s.inputs := rfl
@[simp] theorem State.retireTo_outbox (s : State) (a : Word) (d : Nat) : (s.retireTo a d).outbox = s.outbox := rfl
@[simp] theorem State.retireTo_relQ (s : State) (a : Word) (d : Nat) : (s.retireTo a d).relQ = s.relQ := rfl
@[simp] theorem State.retireTo_placed (s : State) (a : Word) (d : Nat) : (s.retireTo a d).placed = s.placed := rfl
@[simp] theorem State.retireTo_nbHeld (s : State) (a : Word) (d : Nat) : (s.retireTo a d).nbHeld = s.nbHeld := rfl
@[simp] theorem State.retireTo_stlb (s : State) (a : Word) (d : Nat) : (s.retireTo a d).stlb = s.stlb := rfl
@[simp] theorem State.retireTo_pfetch (s : State) (a : Word) (d : Nat) : (s.retireTo a d).pfetch = s.pfetch := rfl
@[simp] theorem State.retireTo_descs (s : State) (a : Word) (d : Nat) : (s.retireTo a d).descs = s.descs := rfl
@[simp] theorem State.retireTo_bad (s : State) (a : Word) (d : Nat) : (s.retireTo a d).bad = s.bad := rfl
@[simp] theorem State.retireTo_strikes (s : State) (a : Word) (d : Nat) : (s.retireTo a d).strikes = s.strikes := rfl
@[simp] theorem State.retireTo_linkErr (s : State) (a : Word) (d : Nat) : (s.retireTo a d).linkErr = s.linkErr := rfl
@[simp] theorem State.retireTo_draws (s : State) (a : Word) (d : Nat) : (s.retireTo a d).draws = s.draws := rfl
@[simp] theorem State.retireTo_serial (s : State) (a : Word) (d : Nat) : (s.retireTo a d).serial = s.serial := rfl
@[simp] theorem State.retireTo_cur (s : State) (a : Word) (d : Nat) : (s.retireTo a d).cur = s.cur := rfl

/-! ### post -/

@[simp] theorem State.post_cyc (s : State) (c : Nat) (p : Post) : (s.post c p).cyc = s.cyc := rfl
@[simp] theorem State.post_arrays (s : State) (c : Nat) (p : Post) : (s.post c p).arrays = s.arrays := rfl
@[simp] theorem State.post_dies (s : State) (c : Nat) (p : Post) : (s.post c p).dies = s.dies := rfl
@[simp] theorem State.post_mem (s : State) (c : Nat) (p : Post) : (s.post c p).mem = s.mem := rfl
@[simp] theorem State.post_blog (s : State) (c : Nat) (p : Post) : (s.post c p).blog = s.blog := rfl
@[simp] theorem State.post_images (s : State) (c : Nat) (p : Post) : (s.post c p).images = s.images := rfl
@[simp] theorem State.post_archive (s : State) (c : Nat) (p : Post) : (s.post c p).archive = s.archive := rfl
@[simp] theorem State.post_launches (s : State) (c : Nat) (p : Post) : (s.post c p).launches = s.launches := rfl
@[simp] theorem State.post_entryDone (s : State) (c : Nat) (p : Post) : (s.post c p).entryDone = s.entryDone := rfl
@[simp] theorem State.post_works (s : State) (c : Nat) (p : Post) : (s.post c p).works = s.works := rfl
@[simp] theorem State.post_frames (s : State) (c : Nat) (p : Post) : (s.post c p).frames = s.frames := rfl
@[simp] theorem State.post_fills (s : State) (c : Nat) (p : Post) : (s.post c p).fills = s.fills := rfl
@[simp] theorem State.post_hrcfg (s : State) (c : Nat) (p : Post) : (s.post c p).hrcfg = s.hrcfg := rfl
@[simp] theorem State.post_wires (s : State) (c : Nat) (p : Post) : (s.post c p).wires = s.wires := rfl
@[simp] theorem State.post_removals (s : State) (c : Nat) (p : Post) : (s.post c p).removals = s.removals := rfl
@[simp] theorem State.post_gens (s : State) (c : Nat) (p : Post) : (s.post c p).gens = s.gens := rfl
@[simp] theorem State.post_fenced (s : State) (c : Nat) (p : Post) : (s.post c p).fenced = s.fenced := rfl
@[simp] theorem State.post_healed (s : State) (c : Nat) (p : Post) : (s.post c p).healed = s.healed := rfl
@[simp] theorem State.post_scans (s : State) (c : Nat) (p : Post) : (s.post c p).scans = s.scans := rfl
@[simp] theorem State.post_usedBy (s : State) (c : Nat) (p : Post) : (s.post c p).usedBy = s.usedBy := rfl
@[simp] theorem State.post_usedCkpt (s : State) (c : Nat) (p : Post) : (s.post c p).usedCkpt = s.usedCkpt := rfl
@[simp] theorem State.post_entered (s : State) (c : Nat) (p : Post) : (s.post c p).entered = s.entered := rfl
@[simp] theorem State.post_stores (s : State) (c : Nat) (p : Post) : (s.post c p).stores = s.stores := rfl
@[simp] theorem State.post_jrnl (s : State) (c : Nat) (p : Post) : (s.post c p).jrnl = s.jrnl := rfl
@[simp] theorem State.post_dom (s : State) (c : Nat) (p : Post) : (s.post c p).dom = s.dom := rfl
@[simp] theorem State.post_plat (s : State) (c : Nat) (p : Post) : (s.post c p).plat = s.plat := rfl
@[simp] theorem State.post_inputs (s : State) (c : Nat) (p : Post) : (s.post c p).inputs = s.inputs := rfl
@[simp] theorem State.post_outbox (s : State) (c : Nat) (p : Post) : (s.post c p).outbox = s.outbox := rfl
@[simp] theorem State.post_relQ (s : State) (c : Nat) (p : Post) : (s.post c p).relQ = s.relQ := rfl
@[simp] theorem State.post_placed (s : State) (c : Nat) (p : Post) : (s.post c p).placed = s.placed := rfl
@[simp] theorem State.post_nbHeld (s : State) (c : Nat) (p : Post) : (s.post c p).nbHeld = s.nbHeld := rfl
@[simp] theorem State.post_stlb (s : State) (c : Nat) (p : Post) : (s.post c p).stlb = s.stlb := rfl
@[simp] theorem State.post_pfetch (s : State) (c : Nat) (p : Post) : (s.post c p).pfetch = s.pfetch := rfl
@[simp] theorem State.post_descs (s : State) (c : Nat) (p : Post) : (s.post c p).descs = s.descs := rfl
@[simp] theorem State.post_bad (s : State) (c : Nat) (p : Post) : (s.post c p).bad = s.bad := rfl
@[simp] theorem State.post_strikes (s : State) (c : Nat) (p : Post) : (s.post c p).strikes = s.strikes := rfl
@[simp] theorem State.post_linkErr (s : State) (c : Nat) (p : Post) : (s.post c p).linkErr = s.linkErr := rfl
@[simp] theorem State.post_draws (s : State) (c : Nat) (p : Post) : (s.post c p).draws = s.draws := rfl
@[simp] theorem State.post_serial (s : State) (c : Nat) (p : Post) : (s.post c p).serial = s.serial := rfl
@[simp] theorem State.post_cur (s : State) (c : Nat) (p : Post) : (s.post c p).cur = s.cur := rfl

/-! ### posts -/

@[simp] theorem State.posts_cyc (s : State) (c : Nat) (ps : List Post) : (s.posts c ps).cyc = s.cyc := rfl
@[simp] theorem State.posts_arrays (s : State) (c : Nat) (ps : List Post) : (s.posts c ps).arrays = s.arrays := rfl
@[simp] theorem State.posts_dies (s : State) (c : Nat) (ps : List Post) : (s.posts c ps).dies = s.dies := rfl
@[simp] theorem State.posts_mem (s : State) (c : Nat) (ps : List Post) : (s.posts c ps).mem = s.mem := rfl
@[simp] theorem State.posts_blog (s : State) (c : Nat) (ps : List Post) : (s.posts c ps).blog = s.blog := rfl
@[simp] theorem State.posts_images (s : State) (c : Nat) (ps : List Post) : (s.posts c ps).images = s.images := rfl
@[simp] theorem State.posts_archive (s : State) (c : Nat) (ps : List Post) : (s.posts c ps).archive = s.archive := rfl
@[simp] theorem State.posts_launches (s : State) (c : Nat) (ps : List Post) : (s.posts c ps).launches = s.launches := rfl
@[simp] theorem State.posts_entryDone (s : State) (c : Nat) (ps : List Post) : (s.posts c ps).entryDone = s.entryDone := rfl
@[simp] theorem State.posts_works (s : State) (c : Nat) (ps : List Post) : (s.posts c ps).works = s.works := rfl
@[simp] theorem State.posts_frames (s : State) (c : Nat) (ps : List Post) : (s.posts c ps).frames = s.frames := rfl
@[simp] theorem State.posts_fills (s : State) (c : Nat) (ps : List Post) : (s.posts c ps).fills = s.fills := rfl
@[simp] theorem State.posts_hrcfg (s : State) (c : Nat) (ps : List Post) : (s.posts c ps).hrcfg = s.hrcfg := rfl
@[simp] theorem State.posts_wires (s : State) (c : Nat) (ps : List Post) : (s.posts c ps).wires = s.wires := rfl
@[simp] theorem State.posts_removals (s : State) (c : Nat) (ps : List Post) : (s.posts c ps).removals = s.removals := rfl
@[simp] theorem State.posts_gens (s : State) (c : Nat) (ps : List Post) : (s.posts c ps).gens = s.gens := rfl
@[simp] theorem State.posts_fenced (s : State) (c : Nat) (ps : List Post) : (s.posts c ps).fenced = s.fenced := rfl
@[simp] theorem State.posts_healed (s : State) (c : Nat) (ps : List Post) : (s.posts c ps).healed = s.healed := rfl
@[simp] theorem State.posts_scans (s : State) (c : Nat) (ps : List Post) : (s.posts c ps).scans = s.scans := rfl
@[simp] theorem State.posts_usedBy (s : State) (c : Nat) (ps : List Post) : (s.posts c ps).usedBy = s.usedBy := rfl
@[simp] theorem State.posts_usedCkpt (s : State) (c : Nat) (ps : List Post) : (s.posts c ps).usedCkpt = s.usedCkpt := rfl
@[simp] theorem State.posts_entered (s : State) (c : Nat) (ps : List Post) : (s.posts c ps).entered = s.entered := rfl
@[simp] theorem State.posts_stores (s : State) (c : Nat) (ps : List Post) : (s.posts c ps).stores = s.stores := rfl
@[simp] theorem State.posts_jrnl (s : State) (c : Nat) (ps : List Post) : (s.posts c ps).jrnl = s.jrnl := rfl
@[simp] theorem State.posts_dom (s : State) (c : Nat) (ps : List Post) : (s.posts c ps).dom = s.dom := rfl
@[simp] theorem State.posts_plat (s : State) (c : Nat) (ps : List Post) : (s.posts c ps).plat = s.plat := rfl
@[simp] theorem State.posts_inputs (s : State) (c : Nat) (ps : List Post) : (s.posts c ps).inputs = s.inputs := rfl
@[simp] theorem State.posts_outbox (s : State) (c : Nat) (ps : List Post) : (s.posts c ps).outbox = s.outbox := rfl
@[simp] theorem State.posts_relQ (s : State) (c : Nat) (ps : List Post) : (s.posts c ps).relQ = s.relQ := rfl
@[simp] theorem State.posts_placed (s : State) (c : Nat) (ps : List Post) : (s.posts c ps).placed = s.placed := rfl
@[simp] theorem State.posts_nbHeld (s : State) (c : Nat) (ps : List Post) : (s.posts c ps).nbHeld = s.nbHeld := rfl
@[simp] theorem State.posts_stlb (s : State) (c : Nat) (ps : List Post) : (s.posts c ps).stlb = s.stlb := rfl
@[simp] theorem State.posts_pfetch (s : State) (c : Nat) (ps : List Post) : (s.posts c ps).pfetch = s.pfetch := rfl
@[simp] theorem State.posts_descs (s : State) (c : Nat) (ps : List Post) : (s.posts c ps).descs = s.descs := rfl
@[simp] theorem State.posts_bad (s : State) (c : Nat) (ps : List Post) : (s.posts c ps).bad = s.bad := rfl
@[simp] theorem State.posts_strikes (s : State) (c : Nat) (ps : List Post) : (s.posts c ps).strikes = s.strikes := rfl
@[simp] theorem State.posts_linkErr (s : State) (c : Nat) (ps : List Post) : (s.posts c ps).linkErr = s.linkErr := rfl
@[simp] theorem State.posts_draws (s : State) (c : Nat) (ps : List Post) : (s.posts c ps).draws = s.draws := rfl
@[simp] theorem State.posts_serial (s : State) (c : Nat) (ps : List Post) : (s.posts c ps).serial = s.serial := rfl
@[simp] theorem State.posts_cur (s : State) (c : Nat) (ps : List Post) : (s.posts c ps).cur = s.cur := rfl

/-! ### modArr -/

@[simp] theorem State.modArr_cyc (s : State) (a : Nat) (f : ArrSt → ArrSt) : (s.modArr a f).cyc = s.cyc := rfl
@[simp] theorem State.modArr_cores (s : State) (a : Nat) (f : ArrSt → ArrSt) : (s.modArr a f).cores = s.cores := rfl
@[simp] theorem State.modArr_dies (s : State) (a : Nat) (f : ArrSt → ArrSt) : (s.modArr a f).dies = s.dies := rfl
@[simp] theorem State.modArr_mem (s : State) (a : Nat) (f : ArrSt → ArrSt) : (s.modArr a f).mem = s.mem := rfl
@[simp] theorem State.modArr_blog (s : State) (a : Nat) (f : ArrSt → ArrSt) : (s.modArr a f).blog = s.blog := rfl
@[simp] theorem State.modArr_images (s : State) (a : Nat) (f : ArrSt → ArrSt) : (s.modArr a f).images = s.images := rfl
@[simp] theorem State.modArr_archive (s : State) (a : Nat) (f : ArrSt → ArrSt) : (s.modArr a f).archive = s.archive := rfl
@[simp] theorem State.modArr_launches (s : State) (a : Nat) (f : ArrSt → ArrSt) : (s.modArr a f).launches = s.launches := rfl
@[simp] theorem State.modArr_entryDone (s : State) (a : Nat) (f : ArrSt → ArrSt) : (s.modArr a f).entryDone = s.entryDone := rfl
@[simp] theorem State.modArr_works (s : State) (a : Nat) (f : ArrSt → ArrSt) : (s.modArr a f).works = s.works := rfl
@[simp] theorem State.modArr_frames (s : State) (a : Nat) (f : ArrSt → ArrSt) : (s.modArr a f).frames = s.frames := rfl
@[simp] theorem State.modArr_fills (s : State) (a : Nat) (f : ArrSt → ArrSt) : (s.modArr a f).fills = s.fills := rfl
@[simp] theorem State.modArr_hrcfg (s : State) (a : Nat) (f : ArrSt → ArrSt) : (s.modArr a f).hrcfg = s.hrcfg := rfl
@[simp] theorem State.modArr_wires (s : State) (a : Nat) (f : ArrSt → ArrSt) : (s.modArr a f).wires = s.wires := rfl
@[simp] theorem State.modArr_removals (s : State) (a : Nat) (f : ArrSt → ArrSt) : (s.modArr a f).removals = s.removals := rfl
@[simp] theorem State.modArr_gens (s : State) (a : Nat) (f : ArrSt → ArrSt) : (s.modArr a f).gens = s.gens := rfl
@[simp] theorem State.modArr_fenced (s : State) (a : Nat) (f : ArrSt → ArrSt) : (s.modArr a f).fenced = s.fenced := rfl
@[simp] theorem State.modArr_healed (s : State) (a : Nat) (f : ArrSt → ArrSt) : (s.modArr a f).healed = s.healed := rfl
@[simp] theorem State.modArr_scans (s : State) (a : Nat) (f : ArrSt → ArrSt) : (s.modArr a f).scans = s.scans := rfl
@[simp] theorem State.modArr_usedBy (s : State) (a : Nat) (f : ArrSt → ArrSt) : (s.modArr a f).usedBy = s.usedBy := rfl
@[simp] theorem State.modArr_usedCkpt (s : State) (a : Nat) (f : ArrSt → ArrSt) : (s.modArr a f).usedCkpt = s.usedCkpt := rfl
@[simp] theorem State.modArr_entered (s : State) (a : Nat) (f : ArrSt → ArrSt) : (s.modArr a f).entered = s.entered := rfl
@[simp] theorem State.modArr_stores (s : State) (a : Nat) (f : ArrSt → ArrSt) : (s.modArr a f).stores = s.stores := rfl
@[simp] theorem State.modArr_jrnl (s : State) (a : Nat) (f : ArrSt → ArrSt) : (s.modArr a f).jrnl = s.jrnl := rfl
@[simp] theorem State.modArr_dom (s : State) (a : Nat) (f : ArrSt → ArrSt) : (s.modArr a f).dom = s.dom := rfl
@[simp] theorem State.modArr_plat (s : State) (a : Nat) (f : ArrSt → ArrSt) : (s.modArr a f).plat = s.plat := rfl
@[simp] theorem State.modArr_inputs (s : State) (a : Nat) (f : ArrSt → ArrSt) : (s.modArr a f).inputs = s.inputs := rfl
@[simp] theorem State.modArr_outbox (s : State) (a : Nat) (f : ArrSt → ArrSt) : (s.modArr a f).outbox = s.outbox := rfl
@[simp] theorem State.modArr_relQ (s : State) (a : Nat) (f : ArrSt → ArrSt) : (s.modArr a f).relQ = s.relQ := rfl
@[simp] theorem State.modArr_placed (s : State) (a : Nat) (f : ArrSt → ArrSt) : (s.modArr a f).placed = s.placed := rfl
@[simp] theorem State.modArr_nbHeld (s : State) (a : Nat) (f : ArrSt → ArrSt) : (s.modArr a f).nbHeld = s.nbHeld := rfl
@[simp] theorem State.modArr_stlb (s : State) (a : Nat) (f : ArrSt → ArrSt) : (s.modArr a f).stlb = s.stlb := rfl
@[simp] theorem State.modArr_pfetch (s : State) (a : Nat) (f : ArrSt → ArrSt) : (s.modArr a f).pfetch = s.pfetch := rfl
@[simp] theorem State.modArr_descs (s : State) (a : Nat) (f : ArrSt → ArrSt) : (s.modArr a f).descs = s.descs := rfl
@[simp] theorem State.modArr_bad (s : State) (a : Nat) (f : ArrSt → ArrSt) : (s.modArr a f).bad = s.bad := rfl
@[simp] theorem State.modArr_strikes (s : State) (a : Nat) (f : ArrSt → ArrSt) : (s.modArr a f).strikes = s.strikes := rfl
@[simp] theorem State.modArr_linkErr (s : State) (a : Nat) (f : ArrSt → ArrSt) : (s.modArr a f).linkErr = s.linkErr := rfl
@[simp] theorem State.modArr_draws (s : State) (a : Nat) (f : ArrSt → ArrSt) : (s.modArr a f).draws = s.draws := rfl
@[simp] theorem State.modArr_serial (s : State) (a : Nat) (f : ArrSt → ArrSt) : (s.modArr a f).serial = s.serial := rfl
@[simp] theorem State.modArr_cur (s : State) (a : Nat) (f : ArrSt → ArrSt) : (s.modArr a f).cur = s.cur := rfl

/-! ### modDie -/

@[simp] theorem State.modDie_cyc (s : State) (d : Nat) (f : Die → Die) : (s.modDie d f).cyc = s.cyc := rfl
@[simp] theorem State.modDie_cores (s : State) (d : Nat) (f : Die → Die) : (s.modDie d f).cores = s.cores := rfl
@[simp] theorem State.modDie_arrays (s : State) (d : Nat) (f : Die → Die) : (s.modDie d f).arrays = s.arrays := rfl
@[simp] theorem State.modDie_mem (s : State) (d : Nat) (f : Die → Die) : (s.modDie d f).mem = s.mem := rfl
@[simp] theorem State.modDie_blog (s : State) (d : Nat) (f : Die → Die) : (s.modDie d f).blog = s.blog := rfl
@[simp] theorem State.modDie_images (s : State) (d : Nat) (f : Die → Die) : (s.modDie d f).images = s.images := rfl
@[simp] theorem State.modDie_archive (s : State) (d : Nat) (f : Die → Die) : (s.modDie d f).archive = s.archive := rfl
@[simp] theorem State.modDie_launches (s : State) (d : Nat) (f : Die → Die) : (s.modDie d f).launches = s.launches := rfl
@[simp] theorem State.modDie_entryDone (s : State) (d : Nat) (f : Die → Die) : (s.modDie d f).entryDone = s.entryDone := rfl
@[simp] theorem State.modDie_works (s : State) (d : Nat) (f : Die → Die) : (s.modDie d f).works = s.works := rfl
@[simp] theorem State.modDie_frames (s : State) (d : Nat) (f : Die → Die) : (s.modDie d f).frames = s.frames := rfl
@[simp] theorem State.modDie_fills (s : State) (d : Nat) (f : Die → Die) : (s.modDie d f).fills = s.fills := rfl
@[simp] theorem State.modDie_hrcfg (s : State) (d : Nat) (f : Die → Die) : (s.modDie d f).hrcfg = s.hrcfg := rfl
@[simp] theorem State.modDie_wires (s : State) (d : Nat) (f : Die → Die) : (s.modDie d f).wires = s.wires := rfl
@[simp] theorem State.modDie_removals (s : State) (d : Nat) (f : Die → Die) : (s.modDie d f).removals = s.removals := rfl
@[simp] theorem State.modDie_gens (s : State) (d : Nat) (f : Die → Die) : (s.modDie d f).gens = s.gens := rfl
@[simp] theorem State.modDie_fenced (s : State) (d : Nat) (f : Die → Die) : (s.modDie d f).fenced = s.fenced := rfl
@[simp] theorem State.modDie_healed (s : State) (d : Nat) (f : Die → Die) : (s.modDie d f).healed = s.healed := rfl
@[simp] theorem State.modDie_scans (s : State) (d : Nat) (f : Die → Die) : (s.modDie d f).scans = s.scans := rfl
@[simp] theorem State.modDie_usedBy (s : State) (d : Nat) (f : Die → Die) : (s.modDie d f).usedBy = s.usedBy := rfl
@[simp] theorem State.modDie_usedCkpt (s : State) (d : Nat) (f : Die → Die) : (s.modDie d f).usedCkpt = s.usedCkpt := rfl
@[simp] theorem State.modDie_entered (s : State) (d : Nat) (f : Die → Die) : (s.modDie d f).entered = s.entered := rfl
@[simp] theorem State.modDie_stores (s : State) (d : Nat) (f : Die → Die) : (s.modDie d f).stores = s.stores := rfl
@[simp] theorem State.modDie_jrnl (s : State) (d : Nat) (f : Die → Die) : (s.modDie d f).jrnl = s.jrnl := rfl
@[simp] theorem State.modDie_dom (s : State) (d : Nat) (f : Die → Die) : (s.modDie d f).dom = s.dom := rfl
@[simp] theorem State.modDie_plat (s : State) (d : Nat) (f : Die → Die) : (s.modDie d f).plat = s.plat := rfl
@[simp] theorem State.modDie_inputs (s : State) (d : Nat) (f : Die → Die) : (s.modDie d f).inputs = s.inputs := rfl
@[simp] theorem State.modDie_outbox (s : State) (d : Nat) (f : Die → Die) : (s.modDie d f).outbox = s.outbox := rfl
@[simp] theorem State.modDie_relQ (s : State) (d : Nat) (f : Die → Die) : (s.modDie d f).relQ = s.relQ := rfl
@[simp] theorem State.modDie_placed (s : State) (d : Nat) (f : Die → Die) : (s.modDie d f).placed = s.placed := rfl
@[simp] theorem State.modDie_nbHeld (s : State) (d : Nat) (f : Die → Die) : (s.modDie d f).nbHeld = s.nbHeld := rfl
@[simp] theorem State.modDie_stlb (s : State) (d : Nat) (f : Die → Die) : (s.modDie d f).stlb = s.stlb := rfl
@[simp] theorem State.modDie_pfetch (s : State) (d : Nat) (f : Die → Die) : (s.modDie d f).pfetch = s.pfetch := rfl
@[simp] theorem State.modDie_descs (s : State) (d : Nat) (f : Die → Die) : (s.modDie d f).descs = s.descs := rfl
@[simp] theorem State.modDie_bad (s : State) (d : Nat) (f : Die → Die) : (s.modDie d f).bad = s.bad := rfl
@[simp] theorem State.modDie_strikes (s : State) (d : Nat) (f : Die → Die) : (s.modDie d f).strikes = s.strikes := rfl
@[simp] theorem State.modDie_linkErr (s : State) (d : Nat) (f : Die → Die) : (s.modDie d f).linkErr = s.linkErr := rfl
@[simp] theorem State.modDie_draws (s : State) (d : Nat) (f : Die → Die) : (s.modDie d f).draws = s.draws := rfl
@[simp] theorem State.modDie_serial (s : State) (d : Nat) (f : Die → Die) : (s.modDie d f).serial = s.serial := rfl
@[simp] theorem State.modDie_cur (s : State) (d : Nat) (f : Die → Die) : (s.modDie d f).cur = s.cur := rfl

/-! ### send -/

@[simp] theorem State.send_cyc (s : State) (m : Msg) : (s.send m).cyc = s.cyc := rfl
@[simp] theorem State.send_cores (s : State) (m : Msg) : (s.send m).cores = s.cores := rfl
@[simp] theorem State.send_arrays (s : State) (m : Msg) : (s.send m).arrays = s.arrays := rfl
@[simp] theorem State.send_dies (s : State) (m : Msg) : (s.send m).dies = s.dies := rfl
@[simp] theorem State.send_mem (s : State) (m : Msg) : (s.send m).mem = s.mem := rfl
@[simp] theorem State.send_blog (s : State) (m : Msg) : (s.send m).blog = s.blog := rfl
@[simp] theorem State.send_images (s : State) (m : Msg) : (s.send m).images = s.images := rfl
@[simp] theorem State.send_archive (s : State) (m : Msg) : (s.send m).archive = s.archive := rfl
@[simp] theorem State.send_launches (s : State) (m : Msg) : (s.send m).launches = s.launches := rfl
@[simp] theorem State.send_entryDone (s : State) (m : Msg) : (s.send m).entryDone = s.entryDone := rfl
@[simp] theorem State.send_works (s : State) (m : Msg) : (s.send m).works = s.works := rfl
@[simp] theorem State.send_frames (s : State) (m : Msg) : (s.send m).frames = s.frames := rfl
@[simp] theorem State.send_fills (s : State) (m : Msg) : (s.send m).fills = s.fills := rfl
@[simp] theorem State.send_hrcfg (s : State) (m : Msg) : (s.send m).hrcfg = s.hrcfg := rfl
@[simp] theorem State.send_wires (s : State) (m : Msg) : (s.send m).wires = s.wires := rfl
@[simp] theorem State.send_removals (s : State) (m : Msg) : (s.send m).removals = s.removals := rfl
@[simp] theorem State.send_gens (s : State) (m : Msg) : (s.send m).gens = s.gens := rfl
@[simp] theorem State.send_fenced (s : State) (m : Msg) : (s.send m).fenced = s.fenced := rfl
@[simp] theorem State.send_healed (s : State) (m : Msg) : (s.send m).healed = s.healed := rfl
@[simp] theorem State.send_scans (s : State) (m : Msg) : (s.send m).scans = s.scans := rfl
@[simp] theorem State.send_usedBy (s : State) (m : Msg) : (s.send m).usedBy = s.usedBy := rfl
@[simp] theorem State.send_usedCkpt (s : State) (m : Msg) : (s.send m).usedCkpt = s.usedCkpt := rfl
@[simp] theorem State.send_entered (s : State) (m : Msg) : (s.send m).entered = s.entered := rfl
@[simp] theorem State.send_stores (s : State) (m : Msg) : (s.send m).stores = s.stores := rfl
@[simp] theorem State.send_jrnl (s : State) (m : Msg) : (s.send m).jrnl = s.jrnl := rfl
@[simp] theorem State.send_plat (s : State) (m : Msg) : (s.send m).plat = s.plat := rfl
@[simp] theorem State.send_inputs (s : State) (m : Msg) : (s.send m).inputs = s.inputs := rfl
@[simp] theorem State.send_relQ (s : State) (m : Msg) : (s.send m).relQ = s.relQ := rfl
@[simp] theorem State.send_placed (s : State) (m : Msg) : (s.send m).placed = s.placed := rfl
@[simp] theorem State.send_nbHeld (s : State) (m : Msg) : (s.send m).nbHeld = s.nbHeld := rfl
@[simp] theorem State.send_stlb (s : State) (m : Msg) : (s.send m).stlb = s.stlb := rfl
@[simp] theorem State.send_pfetch (s : State) (m : Msg) : (s.send m).pfetch = s.pfetch := rfl
@[simp] theorem State.send_descs (s : State) (m : Msg) : (s.send m).descs = s.descs := rfl
@[simp] theorem State.send_bad (s : State) (m : Msg) : (s.send m).bad = s.bad := rfl
@[simp] theorem State.send_strikes (s : State) (m : Msg) : (s.send m).strikes = s.strikes := rfl
@[simp] theorem State.send_linkErr (s : State) (m : Msg) : (s.send m).linkErr = s.linkErr := rfl
@[simp] theorem State.send_draws (s : State) (m : Msg) : (s.send m).draws = s.draws := rfl
@[simp] theorem State.send_serial (s : State) (m : Msg) : (s.send m).serial = s.serial := rfl
@[simp] theorem State.send_cur (s : State) (m : Msg) : (s.send m).cur = s.cur := rfl

/-! ### postRecord -/

@[simp] theorem State.postRecord_cyc (s : State) (d : Nat) (r : TrapRec) : (s.postRecord d r).cyc = s.cyc := rfl
@[simp] theorem State.postRecord_cores (s : State) (d : Nat) (r : TrapRec) : (s.postRecord d r).cores = s.cores := rfl
@[simp] theorem State.postRecord_arrays (s : State) (d : Nat) (r : TrapRec) : (s.postRecord d r).arrays = s.arrays := rfl
@[simp] theorem State.postRecord_mem (s : State) (d : Nat) (r : TrapRec) : (s.postRecord d r).mem = s.mem := rfl
@[simp] theorem State.postRecord_blog (s : State) (d : Nat) (r : TrapRec) : (s.postRecord d r).blog = s.blog := rfl
@[simp] theorem State.postRecord_images (s : State) (d : Nat) (r : TrapRec) : (s.postRecord d r).images = s.images := rfl
@[simp] theorem State.postRecord_archive (s : State) (d : Nat) (r : TrapRec) : (s.postRecord d r).archive = s.archive := rfl
@[simp] theorem State.postRecord_launches (s : State) (d : Nat) (r : TrapRec) : (s.postRecord d r).launches = s.launches := rfl
@[simp] theorem State.postRecord_entryDone (s : State) (d : Nat) (r : TrapRec) : (s.postRecord d r).entryDone = s.entryDone := rfl
@[simp] theorem State.postRecord_works (s : State) (d : Nat) (r : TrapRec) : (s.postRecord d r).works = s.works := rfl
@[simp] theorem State.postRecord_frames (s : State) (d : Nat) (r : TrapRec) : (s.postRecord d r).frames = s.frames := rfl
@[simp] theorem State.postRecord_fills (s : State) (d : Nat) (r : TrapRec) : (s.postRecord d r).fills = s.fills := rfl
@[simp] theorem State.postRecord_hrcfg (s : State) (d : Nat) (r : TrapRec) : (s.postRecord d r).hrcfg = s.hrcfg := rfl
@[simp] theorem State.postRecord_wires (s : State) (d : Nat) (r : TrapRec) : (s.postRecord d r).wires = s.wires := rfl
@[simp] theorem State.postRecord_removals (s : State) (d : Nat) (r : TrapRec) : (s.postRecord d r).removals = s.removals := rfl
@[simp] theorem State.postRecord_gens (s : State) (d : Nat) (r : TrapRec) : (s.postRecord d r).gens = s.gens := rfl
@[simp] theorem State.postRecord_fenced (s : State) (d : Nat) (r : TrapRec) : (s.postRecord d r).fenced = s.fenced := rfl
@[simp] theorem State.postRecord_healed (s : State) (d : Nat) (r : TrapRec) : (s.postRecord d r).healed = s.healed := rfl
@[simp] theorem State.postRecord_scans (s : State) (d : Nat) (r : TrapRec) : (s.postRecord d r).scans = s.scans := rfl
@[simp] theorem State.postRecord_usedBy (s : State) (d : Nat) (r : TrapRec) : (s.postRecord d r).usedBy = s.usedBy := rfl
@[simp] theorem State.postRecord_usedCkpt (s : State) (d : Nat) (r : TrapRec) : (s.postRecord d r).usedCkpt = s.usedCkpt := rfl
@[simp] theorem State.postRecord_entered (s : State) (d : Nat) (r : TrapRec) : (s.postRecord d r).entered = s.entered := rfl
@[simp] theorem State.postRecord_stores (s : State) (d : Nat) (r : TrapRec) : (s.postRecord d r).stores = s.stores := rfl
@[simp] theorem State.postRecord_jrnl (s : State) (d : Nat) (r : TrapRec) : (s.postRecord d r).jrnl = s.jrnl := rfl
@[simp] theorem State.postRecord_dom (s : State) (d : Nat) (r : TrapRec) : (s.postRecord d r).dom = s.dom := rfl
@[simp] theorem State.postRecord_plat (s : State) (d : Nat) (r : TrapRec) : (s.postRecord d r).plat = s.plat := rfl
@[simp] theorem State.postRecord_inputs (s : State) (d : Nat) (r : TrapRec) : (s.postRecord d r).inputs = s.inputs := rfl
@[simp] theorem State.postRecord_outbox (s : State) (d : Nat) (r : TrapRec) : (s.postRecord d r).outbox = s.outbox := rfl
@[simp] theorem State.postRecord_relQ (s : State) (d : Nat) (r : TrapRec) : (s.postRecord d r).relQ = s.relQ := rfl
@[simp] theorem State.postRecord_placed (s : State) (d : Nat) (r : TrapRec) : (s.postRecord d r).placed = s.placed := rfl
@[simp] theorem State.postRecord_nbHeld (s : State) (d : Nat) (r : TrapRec) : (s.postRecord d r).nbHeld = s.nbHeld := rfl
@[simp] theorem State.postRecord_stlb (s : State) (d : Nat) (r : TrapRec) : (s.postRecord d r).stlb = s.stlb := rfl
@[simp] theorem State.postRecord_pfetch (s : State) (d : Nat) (r : TrapRec) : (s.postRecord d r).pfetch = s.pfetch := rfl
@[simp] theorem State.postRecord_descs (s : State) (d : Nat) (r : TrapRec) : (s.postRecord d r).descs = s.descs := rfl
@[simp] theorem State.postRecord_bad (s : State) (d : Nat) (r : TrapRec) : (s.postRecord d r).bad = s.bad := rfl
@[simp] theorem State.postRecord_strikes (s : State) (d : Nat) (r : TrapRec) : (s.postRecord d r).strikes = s.strikes := rfl
@[simp] theorem State.postRecord_linkErr (s : State) (d : Nat) (r : TrapRec) : (s.postRecord d r).linkErr = s.linkErr := rfl
@[simp] theorem State.postRecord_draws (s : State) (d : Nat) (r : TrapRec) : (s.postRecord d r).draws = s.draws := rfl
@[simp] theorem State.postRecord_serial (s : State) (d : Nat) (r : TrapRec) : (s.postRecord d r).serial = s.serial := rfl
@[simp] theorem State.postRecord_cur (s : State) (d : Nat) (r : TrapRec) : (s.postRecord d r).cur = s.cur := rfl

/-! ### Cores, arrays and dies -/

@[simp] theorem State.core_setCore (s : State) (c c' : Nat) (x : Core) : (s.setCore c x).core c' = if c' = c then x else s.core c' := by
  simp only [State.core, State.setCore, mget_mset]

@[simp] theorem State.core_modCore (s : State) (c c' : Nat) (f : Core → Core) :
    (s.modCore c f).core c' = if c' = c then f (s.core c) else s.core c' := by
  simp only [State.modCore, State.core_setCore]

theorem State.core_modIm (s : State) (c c' : Nat) (f : Image → Image) :
    (s.modIm c f).core c' = if c' = c then { s.core c with im := f (s.core c).im } else s.core c' := by
  simp only [State.modIm, State.core_modCore]

theorem State.core_modMs (s : State) (c c' : Nat) (f : MemSide → MemSide) :
    (s.modMs c f).core c' = if c' = c then { s.core c with ms := f (s.core c).ms } else s.core c' := by
  simp only [State.modMs, State.core_modCore]

theorem State.core_modStops (s : State) (c c' : Nat) (f : Stops → Stops) :
    (s.modStops c f).core c' = if c' = c then { s.core c with stops := f (s.core c).stops } else s.core c' := by
  simp only [State.modStops, State.core_modCore]

theorem State.core_modUnits (s : State) (c c' : Nat) (f : Units → Units) :
    (s.modUnits c f).core c' = if c' = c then { s.core c with units := f (s.core c).units } else s.core c' := by
  simp only [State.modUnits, State.core_modCore]

theorem State.core_modWalk (s : State) (c c' : Nat) (f : Walk → Walk) :
    (s.modWalk c f).core c' = if c' = c then { s.core c with walk := f (s.core c).walk } else s.core c' := by
  simp only [State.modWalk, State.core_modCore]

theorem State.core_modSeq (s : State) (c c' : Nat) (q : Seq) (f : SeqSt → SeqSt) :
    (s.modSeq c q f).core c' =
      if c' = c then { s.core c with im := (s.core c).im.setSeq q (f ((s.core c).im.seq q)) } else s.core c' := by
  simp only [State.modSeq, State.core_modIm]

@[simp] theorem State.core_modArr (s : State) (a c : Nat) (f : ArrSt → ArrSt) : (s.modArr a f).core c = s.core c := rfl

@[simp] theorem State.core_modDie (s : State) (d c : Nat) (f : Die → Die) : (s.modDie d f).core c = s.core c := rfl

@[simp] theorem State.core_send (s : State) (c : Nat) (m : Msg) : (s.send m).core c = s.core c := rfl

@[simp] theorem State.arr_modArr (s : State) (a a' : Nat) (f : ArrSt → ArrSt) :
    (s.modArr a f).arr a' = if a' = a then f (s.arr a) else s.arr a' := by
  simp only [State.arr, State.modArr, mget_mset]

@[simp] theorem State.arr_modCore (s : State) (c a : Nat) (f : Core → Core) : (s.modCore c f).arr a = s.arr a := rfl

@[simp] theorem State.die_modDie (s : State) (d d' : Nat) (f : Die → Die) :
    (s.modDie d f).die d' = if d' = d then f (s.die d) else s.die d' := by
  simp only [State.die, State.modDie, mget_mset]

@[simp] theorem State.die_modCore (s : State) (c d : Nat) (f : Core → Core) : (s.modCore c f).die d = s.die d := rfl

/-! ### Sequencers -/

@[simp] theorem Image.seq_setSeq (im : Image) (q q' : Seq) (x : SeqSt) : (im.setSeq q x).seq q' = if q' = q then x else im.seq q' := by
  cases q <;> cases q' <;> rfl

@[simp] theorem Image.setSeq_wfile (im : Image) (q : Seq) (x : SeqSt) : (im.setSeq q x).wfile = im.wfile := by cases q <;> rfl
@[simp] theorem Image.setSeq_wbase (im : Image) (q : Seq) (x : SeqSt) : (im.setSeq q x).wbase = im.wbase := by cases q <;> rfl
@[simp] theorem Image.setSeq_wres (im : Image) (q : Seq) (x : SeqSt) : (im.setSeq q x).wres = im.wres := by cases q <;> rfl
@[simp] theorem Image.setSeq_wspl (im : Image) (q : Seq) (x : SeqSt) : (im.setSeq q x).wspl = im.wspl := by cases q <;> rfl
@[simp] theorem Image.setSeq_spcap (im : Image) (q : Seq) (x : SeqSt) : (im.setSeq q x).spcap = im.spcap := by cases q <;> rfl
@[simp] theorem Image.setSeq_vec (im : Image) (q : Seq) (x : SeqSt) : (im.setSeq q x).vec = im.vec := by cases q <;> rfl
@[simp] theorem Image.setSeq_tkmap (im : Image) (q : Seq) (x : SeqSt) : (im.setSeq q x).tkmap = im.tkmap := by cases q <;> rfl
@[simp] theorem Image.setSeq_tkcnt (im : Image) (q : Seq) (x : SeqSt) : (im.setSeq q x).tkcnt = im.tkcnt := by cases q <;> rfl
@[simp] theorem Image.setSeq_sems (im : Image) (q : Seq) (x : SeqSt) : (im.setSeq q x).sems = im.sems := by cases q <;> rfl
@[simp] theorem Image.setSeq_semov (im : Image) (q : Seq) (x : SeqSt) : (im.setSeq q x).semov = im.semov := by cases q <;> rfl
@[simp] theorem Image.setSeq_qb (im : Image) (q : Seq) (x : SeqSt) : (im.setSeq q x).qb = im.qb := by cases q <;> rfl
@[simp] theorem Image.setSeq_cwp (im : Image) (q : Seq) (x : SeqSt) : (im.setSeq q x).cwp = im.cwp := by cases q <;> rfl
@[simp] theorem Image.setSeq_jts (im : Image) (q : Seq) (x : SeqSt) : (im.setSeq q x).jts = im.jts := by cases q <;> rfl
@[simp] theorem Image.setSeq_rid (im : Image) (q : Seq) (x : SeqSt) : (im.setSeq q x).rid = im.rid := by cases q <;> rfl
@[simp] theorem Image.setSeq_stg (im : Image) (q : Seq) (x : SeqSt) : (im.setSeq q x).stg = im.stg := by cases q <;> rfl
@[simp] theorem Image.setSeq_flight (im : Image) (q : Seq) (x : SeqSt) : (im.setSeq q x).flight = im.flight := by cases q <;> rfl
@[simp] theorem Image.setSeq_seg (im : Image) (q : Seq) (x : SeqSt) : (im.setSeq q x).seg = im.seg := by cases q <;> rfl
@[simp] theorem Image.setSeq_sched (im : Image) (q : Seq) (x : SeqSt) : (im.setSeq q x).sched = im.sched := by cases q <;> rfl
@[simp] theorem Image.setSeq_garrive (im : Image) (q : Seq) (x : SeqSt) : (im.setSeq q x).garrive = im.garrive := by cases q <;> rfl
@[simp] theorem Image.setSeq_perr (im : Image) (q : Seq) (x : SeqSt) : (im.setSeq q x).perr = im.perr := by cases q <;> rfl
@[simp] theorem Image.setSeq_more (im : Image) (q : Seq) (x : SeqSt) : (im.setSeq q x).more = im.more := by cases q <;> rfl
@[simp] theorem Image.setSeq_hold (im : Image) (q : Seq) (x : SeqSt) : (im.setSeq q x).hold = im.hold := by cases q <;> rfl
@[simp] theorem Image.setSeq_held (im : Image) (q : Seq) (x : SeqSt) : (im.setSeq q x).held = im.held := by cases q <;> rfl
@[simp] theorem Image.setSeq_heldArr (im : Image) (q : Seq) (x : SeqSt) : (im.setSeq q x).heldArr = im.heldArr := by cases q <;> rfl
@[simp] theorem Image.setSeq_flaws (im : Image) (q : Seq) (x : SeqSt) : (im.setSeq q x).flaws = im.flaws := by cases q <;> rfl
@[simp] theorem Image.setSeq_token (im : Image) (q : Seq) (x : SeqSt) : (im.setSeq q x).token = im.token := by cases q <;> rfl

end Sys2Proof.Machine
end

