-- ==== Sys2Proof/Laws/Memory.lean ====
section
/-! SUPPORT. Memory: what a byte reads after a write, and that the memory operations keep the canonical form. -/
namespace Sys2Proof.Machine

/-! ### Bytes put into a list of cells -/

theorem memPut_wf (bs : List Byte) (m : List Host.Cell) (pa : Nat) (h : Memory.wf m = true) : Memory.wf (memPut m pa bs) = true := by
  induction bs generalizing m pa with
  | nil => exact h
  | cons b r ih => exact ih _ _ (mwf_mput 0 m pa b h)

/-- A fold of single puts keeps the canonical form. -/
theorem foldl_mput_wf {β : Type} (addr : β → Nat) (val : β → Byte) (l : List β) (m : List Host.Cell) (h : Memory.wf m = true) :
    Memory.wf (l.foldl (fun m e => mput 0 m (addr e) (val e)) m) = true := by
  induction l generalizing m with
  | nil => exact h
  | cons e r ih => exact ih _ (mwf_mput 0 m _ _ h)

/-- A fold of puts of which some are left out keeps the canonical form. -/
theorem foldl_mput_if_wf {β : Type} (p : β → Prop) [DecidablePred p] (addr : β → Nat) (val : β → Byte) (l : List β)
    (m : List Host.Cell) (h : Memory.wf m = true) :
    Memory.wf (l.foldl (fun m e => if p e then mput 0 m (addr e) (val e) else m) m) = true := by
  induction l generalizing m with
  | nil => exact h
  | cons e r ih =>
    refine ih _ ?_
    dsimp only; split
    · exact mwf_mput 0 m _ _ h
    · exact h

theorem filter_wf (p : Host.Cell → Bool) (m : List Host.Cell) (h : Memory.wf m = true) : Memory.wf (m.filter p) = true := by
  simp only [Memory.wf, mwf, Bool.and_eq_true, List.all_eq_true, decide_eq_true_eq] at h ⊢
  refine ⟨?_, fun q hq => h.2 q (List.mem_filter.mp hq).1⟩
  induction m with
  | nil => rfl
  | cons q r ih =>
    obtain ⟨k, v⟩ := q
    have h' := (mrising_cons k v r).mp h.1
    have ihr := ih ⟨h'.2, fun q hq => h.2 q (List.mem_cons_of_mem _ hq)⟩
    rw [List.filter_cons]
    split
    · exact (mrising_cons k v _).mpr ⟨fun q hq => h'.1 q (List.mem_filter.mp hq).1, ihr⟩
    · exact ihr

/-- A byte after several bytes were put: the byte put there, or what stood there. -/
theorem mget_memPut (bs : List Byte) (m : List Host.Cell) (pa a : Nat) :
    mget 0 (memPut m pa bs) a = if pa ≤ a ∧ a < pa + bs.length then bs.getD (a - pa) 0 else mget 0 m a := by
  induction bs generalizing m pa with
  | nil => rw [if_neg (by simp)]; rfl
  | cons b r ih =>
    simp only [memPut, ih, mget_mput, List.length_cons]
    by_cases h1 : a = pa
    · subst h1
      rw [if_neg (by omega), if_pos rfl, if_pos (by omega)]
      simp
    · by_cases h2 : pa + 1 ≤ a ∧ a < pa + 1 + r.length
      · rw [if_pos h2, if_pos (by omega)]
        obtain ⟨n, hn⟩ : ∃ n, a - pa = n + 1 := ⟨a - pa - 1, by omega⟩
        rw [hn, List.getD_cons_succ, show a - (pa + 1) = n by omega]
      · rw [if_neg h2, if_neg h1, if_neg (by omega)]

/-! ### What the front ends observe changes only them -/

@[simp] theorem State.observeDie_mem (s : State) (d lo n : Nat) : (s.observeDie d lo n).mem = s.mem := by
  unfold State.observeDie; split <;> rfl

@[simp] theorem State.observeDie_blog (s : State) (d lo n : Nat) : (s.observeDie d lo n).blog = s.blog := by
  unfold State.observeDie; split <;> rfl

@[simp] theorem State.observeDie_cores (s : State) (d lo n : Nat) : (s.observeDie d lo n).cores = s.cores := by
  unfold State.observeDie; split <;> rfl

@[simp] theorem State.observeArrays_mem (s : State) (lo n : Nat) : (s.observeArrays lo n).mem = s.mem := by
  unfold State.observeArrays; split <;> rfl

@[simp] theorem State.observeArrays_blog (s : State) (lo n : Nat) : (s.observeArrays lo n).blog = s.blog := by
  unfold State.observeArrays; split <;> rfl

@[simp] theorem State.observeArrays_cores (s : State) (lo n : Nat) : (s.observeArrays lo n).cores = s.cores := by
  unfold State.observeArrays; split <;> rfl

@[simp] theorem State.observe_mem (s : State) (lo n : Nat) : (s.observe lo n).mem = s.mem := by simp [State.observe]

@[simp] theorem State.observe_blog (s : State) (lo n : Nat) : (s.observe lo n).blog = s.blog := by simp [State.observe]

@[simp] theorem State.observe_cores (s : State) (lo n : Nat) : (s.observe lo n).cores = s.cores := by simp [State.observe]

/-! ### Writes at the home -/

theorem State.homeWrite_mem (s : State) (pa : Nat) (bs : List Byte) : (s.homeWrite pa bs).mem = memPut s.mem pa bs := by
  simp [State.homeWrite]

theorem State.homeWrite_blog (s : State) (pa : Nat) (bs : List Byte) :
    (s.homeWrite pa bs).blog = s.blog.filter (fun e => !(decide (pa ≤ e.pa) && decide (e.pa < pa + bs.length))) := by
  simp [State.homeWrite]

@[simp] theorem State.homeWrite_cores (s : State) (pa : Nat) (bs : List Byte) : (s.homeWrite pa bs).cores = s.cores := by
  simp [State.homeWrite]

/-- The narrow publications for an address that a filter leaves. -/
theorem blogFind_foldl_filter (l : List PWrite) (p : PWrite → Bool) (a : Nat) (acc : Option Byte)
    (h : ∀ e ∈ l, e.pa = a → p e = true) :
    (l.filter p).foldl (fun acc e => if e.pa = a then some e.b else acc) acc =
      l.foldl (fun acc e => if e.pa = a then some e.b else acc) acc := by
  induction l generalizing acc with
  | nil => rfl
  | cons e r ih =>
    have hr := fun acc => ih acc (fun x hx => h x (List.mem_cons_of_mem _ hx))
    rw [List.filter_cons]
    by_cases he : e.pa = a
    · rw [if_pos (h e (List.mem_cons_self ..) he), List.foldl_cons, List.foldl_cons]; exact hr _
    · split
      · rw [List.foldl_cons, List.foldl_cons]; exact hr _
      · rw [List.foldl_cons, if_neg he]; exact hr _

theorem blogFind_foldl_none (l : List PWrite) (a : Nat) (acc : Option Byte) (h : ∀ e ∈ l, e.pa ≠ a) :
    l.foldl (fun acc e => if e.pa = a then some e.b else acc) acc = acc := by
  induction l generalizing acc with
  | nil => rfl
  | cons e r ih =>
    rw [List.foldl_cons, if_neg (h e (List.mem_cons_self ..))]
    exact ih _ (fun x hx => h x (List.mem_cons_of_mem _ hx))

/-- READ AFTER WRITE (R233, R235): after a write at the home the coherence-latest value of a byte is the byte written there, or, outside the
bytes written, what it was. -/
theorem State.homeByte_homeWrite (s : State) (pa : Nat) (bs : List Byte) (a : Nat) :
    (s.homeWrite pa bs).homeByte a = if pa ≤ a ∧ a < pa + bs.length then bs.getD (a - pa) 0 else s.homeByte a := by
  unfold State.homeByte
  rw [State.homeWrite_blog, State.homeWrite_mem]
  by_cases h : pa ≤ a ∧ a < pa + bs.length
  · have hn : blogFind (s.blog.filter (fun e => !(decide (pa ≤ e.pa) && decide (e.pa < pa + bs.length)))) a = none := by
      unfold blogFind
      refine blogFind_foldl_none _ a none (fun e he hea => ?_)
      have hp := (List.mem_filter.mp he).2
      rw [hea] at hp
      simp [h.1, h.2] at hp
    rw [hn, if_pos h]
    simp only [mget_memPut, if_pos h]
  · have hf : blogFind (s.blog.filter (fun e => !(decide (pa ≤ e.pa) && decide (e.pa < pa + bs.length)))) a = blogFind s.blog a := by
      unfold blogFind
      refine blogFind_foldl_filter _ _ a none (fun e _ hea => ?_)
      rw [hea]
      simp only [Bool.not_eq_true', Bool.and_eq_false_iff, decide_eq_false_iff_not]
      omega
    rw [hf, if_neg h, mget_memPut, if_neg h]

theorem State.homeWrite_wf (s : State) (pa : Nat) (bs : List Byte) (h : Memory.wf s.mem = true) :
    Memory.wf (s.homeWrite pa bs).mem = true := by
  rw [State.homeWrite_mem]; exact memPut_wf bs s.mem pa h

theorem State.homeWrites_wf (l : List (Nat × Byte)) (s : State) (h : Memory.wf s.mem = true) :
    Memory.wf (s.homeWrites l).mem = true := by
  induction l generalizing s with
  | nil => exact h
  | cons p r ih => obtain ⟨a, b⟩ := p; exact ih _ (s.homeWrite_wf a [b] h)

/-! ### Publication -/

theorem State.promote_wf (s : State) (e : PWrite) (h : Memory.wf s.mem = true) : Memory.wf (s.promote e).mem = true := by
  simp only [State.promote, State.observe_mem]; exact mwf_mput 0 s.mem e.pa e.b h

@[simp] theorem State.tagReq_mem (s : State) (va : Word) (origin : Nat) : (s.tagReq va origin).mem = s.mem := by
  unfold State.tagReq; split <;> rfl

@[simp] theorem State.domainSend_mem (s : State) (target op aop u size scope ctx len rid pa : Nat) (val cv : Word) (data : List Byte)
    (core acc : Nat) : (s.domainSend target op aop u size scope ctx len rid pa val cv data core acc).mem = s.mem := by
  simp only [State.domainSend, State.send_mem]; split <;> rfl

/-- What an error response to an access of K changes is no memory. -/
@[simp] theorem State.linkMet_mem (s : State) (c pa cause : Nat) : (s.linkMet c pa cause).mem = s.mem := by
  unfold State.linkMet; split <;> rfl

@[simp] theorem State.setPending_mem (s : State) (c ctx : Nat) (e : PErr) : (s.setPending c ctx e).mem = s.mem := by
  unfold State.setPending; split <;> rfl

@[simp] theorem State.accessError_mem (s : State) (c pa : Nat) (va : Word) (ctx cause kind origin : Nat) :
    (s.accessError c pa va ctx cause kind origin).mem = s.mem := by
  simp [State.accessError, State.logError]

theorem State.publish1_wf (s : State) (scope : Nat) (w : PWrite) (h : Memory.wf s.mem = true) :
    Memory.wf (s.publish1 scope w).mem = true := by
  unfold State.publish1
  split
  · split
    · exact s.homeWrite_wf w.pa [w.b] h
    · simpa using h
  · simpa using h
  · simpa using h

theorem State.publishSome_wf (n : Nat) (s : State) (scope : Nat) (ws : List PWrite) (h : Memory.wf s.mem = true) :
    Memory.wf (s.publishSome scope n ws).mem = true := by
  induction n generalizing s ws with
  | zero => simpa [State.publishSome] using h
  | succ n ih =>
    cases ws with
    | nil => simpa [State.publishSome] using h
    | cons w r =>
      simp only [State.publishSome]
      split
      · exact ih _ _ (by simpa using h)
      · exact ih _ _ (s.publish1_wf scope w h)
      · split
        · exact ih _ _ (by simpa using h)
        · exact ih _ _ (s.publish1_wf scope w h)

theorem State.publishAll_wf (s : State) (scope : Nat) (ws : List PWrite) (h : Memory.wf s.mem = true) :
    Memory.wf (s.publishAll scope ws).mem = true := by
  unfold State.publishAll
  split
  · exact h
  · exact s.publishSome_wf ws.length scope ws h

theorem foldl_promote_wf (l : List PWrite) (s : State) (h : Memory.wf s.mem = true) :
    Memory.wf (l.foldl (fun s e => s.promote e) s).mem = true := by
  induction l generalizing s with
  | nil => exact h
  | cons e r ih => exact ih _ (s.promote_wf e h)

theorem State.widen_wf (s : State) (c scope : Nat) (h : Memory.wf s.mem = true) : Memory.wf (s.widen c scope).mem = true := by
  unfold State.widen
  split
  · exact foldl_promote_wf _ s h
  · exact h

/-- A release keeps memory canonical. -/
theorem State.release_wf (s : State) (c scope : Nat) (h : Memory.wf s.mem = true) : Memory.wf (s.release c scope).mem = true := by
  simpa [State.release] using (s.widen c scope).publishAll_wf scope _ (s.widen_wf c scope h)

@[simp] theorem State.acquire_mem (s : State) (c scope : Nat) : (s.acquire c scope).mem = s.mem := by
  simp only [State.acquire, State.modMs_mem]; split <;> rfl

theorem State.publishHits_wf (s : State) (c pa nb id : Nat) (h : Memory.wf s.mem = true) : Memory.wf (s.publishHits c pa nb id).mem = true := by
  simpa [State.publishHits] using s.publishAll_wf 3 _ h

theorem State.atomicPerform_wf (s : State) (c pa nb : Nat) (f : Nat → Option Nat) (h : Memory.wf s.mem = true) :
    Memory.wf (s.atomicPerform c pa nb f).2.mem = true := by
  unfold State.atomicPerform
  simp only [State.modMs_mem]
  split
  · exact s.homeWrite_wf _ _ h
  · exact h

/-- Plain stores of a core leave memory at its homes as it is. -/
@[simp] theorem State.storeBytes_mem (s : State) (c pa : Nat) (va : Word) (origin : Nat) (bs : List Byte) :
    (s.storeBytes c pa va origin bs).mem = s.mem := rfl

theorem imageSemUpdate_wf (s : State) (cimg c k n : Nat) (h : Memory.wf s.mem = true) :
    Memory.wf (imageSemUpdate s cimg c k n).mem = true := by
  unfold imageSemUpdate
  dsimp only
  split
  · exact State.homeWrite_wf _ _ _ (s.homeWrite_wf _ _ h)
  · exact s.homeWrite_wf _ _ h

/-- What reset leaves is canonical. -/
theorem reset_mem_wf : Memory.wf State.reset.mem = true := rfl

end Sys2Proof.Machine
end

