-- ==== Sys2Proof/Laws/Engines.lean ====
section
/-! SUPPORT. Translation and the accesses of engines: what they leave of memory, and how pieces of an engine's work follow one another. -/
namespace Sys2Proof.Machine

/-! ### Translation changes no memory -/

@[simp] theorem State.streamFill_mem (s : State) (agent : Nat) (e : TlbEnt) (down : Bool) : (s.streamFill agent e down).mem = s.mem := by
  unfold State.streamFill; dsimp only; split <;> simp [State.queueWalk]

theorem State.stream_mem {s s' : State} {agent ctx kind : Nat} {root va : Word} {down : Bool} {e : TlbEnt}
    (h : s.stream agent ctx root va kind down = .ok (e, s')) : s'.mem = s.mem := by
  unfold State.stream at h
  dsimp only at h
  split at h
  · cases h; split <;> simp
  · split at h
    · cases h
    · cases h; simp

theorem State.translateAll_mem {agent ctx kind : Nat} {root : Word} {down : Bool} (l : List (Nat × Nat)) {s s' : State}
    {ps : List (Nat × Nat)} (h : s.translateAll agent ctx root kind down l = .ok (ps, s')) : s'.mem = s.mem := by
  induction l generalizing s s' ps with
  | nil => simp only [State.translateAll] at h; cases h; rfl
  | cons p r ih =>
    obtain ⟨va, n⟩ := p
    simp only [State.translateAll] at h
    split at h
    · cases h
    · rename_i ent s1 h1
      split at h
      · cases h
      · rename_i ps' s2 h2
        cases h
        rw [ih h2, State.stream_mem h1]

theorem State.demand_mem {s s' : State} {agent ctx kind n : Nat} {down : Bool} {va : Word} {ps : List (Nat × Nat)}
    (h : s.demand agent ctx kind down va n = .ok (ps, s')) : s'.mem = s.mem := by
  unfold State.demand at h
  dsimp only at h
  split at h
  · cases h
  · exact State.translateAll_mem _ h

/-- A translation answers as many parts as it is given, each of the length it had. -/
theorem State.translateAll_lengths {agent ctx kind : Nat} {root : Word} {down : Bool} (l : List (Nat × Nat)) {s s' : State}
    {ps : List (Nat × Nat)} (h : s.translateAll agent ctx root kind down l = .ok (ps, s')) : ps.map (fun p => p.2) = l.map (fun p => p.2) := by
  induction l generalizing s s' ps with
  | nil => simp only [State.translateAll] at h; cases h; rfl
  | cons p r ih =>
    obtain ⟨va, n⟩ := p
    simp only [State.translateAll] at h
    split at h
    · cases h
    · split at h
      · cases h
      · rename_i ps' s2 h2
        cases h
        simp [ih h2]

theorem State.placeFault_mem {s s' : State} {d i : Nat} {n : FaultRec} (h : s.placeFault d n = some (i, s')) : s'.mem = s.mem := by
  unfold State.placeFault at h
  split at h
  · cases h; rfl
  · split at h
    · cases h; rfl
    · cases h

@[simp] theorem State.assertWire_mem (s : State) (ctx : Nat) (cores : List Nat) (d i : Nat) : (s.assertWire ctx cores d i).mem = s.mem := by
  unfold State.assertWire; split <;> rfl

theorem State.faultCore_mem (s : State) (c ctx unit uidx kind interval : Nat) (va : Word) (e : TrFail) :
    (s.faultCore c ctx unit uidx kind interval va e).2.mem = s.mem := by
  unfold State.faultCore
  split
  · rename_i h
    dsimp only
    split
    · simpa using State.placeFault_mem h
    · exact State.placeFault_mem h
  · rfl

/-- Going before the walkers of a die changes no memory. -/
@[simp] theorem State.walkGate_mem (s : State) (d agent ctx kind : Nat) (va : Word) (n : Nat) : (s.walkGate d agent ctx kind va n).2.mem = s.mem := by
  unfold State.walkGate
  dsimp only
  split
  · rfl
  · split
    · dsimp only; split <;> simp [State.walkOver]
    · simp only [State.walkWait]; split <;> simp [State.queueWalk]

/-- An engine's access of a core that is translated leaves memory as it is. -/
theorem State.engineAccess_ok_mem {s s' : State} {c agent ctx unit uidx kind n : Nat} {down : Bool} {w : FWait} {va : Word}
    {ps : List (Nat × Nat)} (h : s.engineAccess c agent ctx unit uidx kind down w va n = .ok ps s') : s'.mem = s.mem := by
  simp only [State.engineAccess] at h
  split at h
  · cases h
  · split at h
    · rename_i h2; split at h
      · cases h
      · cases h; simpa using State.demand_mem h2
    · split at h <;> cases h

/-- One that comes to stand leaves it as it is, too. -/
theorem State.engineAccess_stand_mem {s s' : State} {c agent ctx unit uidx kind n : Nat} {down : Bool} {w w' : FWait} {va : Word}
    (h : s.engineAccess c agent ctx unit uidx kind down w va n = .stand w' s') : s'.mem = s.mem := by
  simp only [State.engineAccess] at h
  split at h
  · cases h; simp
  · split at h
    · rename_i h2; split at h
      · cases h; simpa using State.demand_mem h2
      · cases h
    · split at h
      · cases h
      · cases h; rw [State.faultCore_mem]; simp

/-! ### Reads and writes of translated parts -/

theorem State.writeParts_wf (agent ctx scope : Nat) (ps : List (Nat × Nat)) (s : State) (bs : List Byte) (h : Memory.wf s.mem = true) :
    Memory.wf (s.writeParts agent ctx scope ps bs).mem = true := by
  induction ps generalizing s bs with
  | nil => simpa [State.writeParts] using h
  | cons p r ih =>
    obtain ⟨pa, n⟩ := p
    simp only [State.writeParts]
    refine ih _ _ ?_
    split
    · simpa using h
    · exact s.homeWrite_wf pa _ h

/-! ### Pieces of an engine's work -/

@[simp] theorem EngR.ok_andThen {α β : Type} (a : α) (s : State) (f : α → State → EngR β) : (EngR.ok a s).andThen f = f a s := rfl

@[simp] theorem EngR.fail_andThen {α β : Type} (cause run : Nat) (addr : Word) (s : State) (f : α → State → EngR β) :
    (EngR.fail cause run addr s : EngR α).andThen f = .fail cause run addr s := rfl

theorem EngR.andThen_assoc {α β γ : Type} (x : EngR α) (f : α → State → EngR β) (g : β → State → EngR γ) :
    (x.andThen f).andThen g = x.andThen (fun a s => (f a s).andThen g) := by cases x <;> rfl

/-- A piece of work that goes on with a value: the first piece had one, and the rest went on from it. -/
theorem EngR.andThen_ok {α β : Type} {x : EngR α} {f : α → State → EngR β} {b : β} {t : State} :
    x.andThen f = .ok b t ↔ ∃ a s, x = .ok a s ∧ f a s = .ok b t := by
  cases x <;> simp [EngR.andThen, and_assoc]

/-- Work on a list answers one value for each element. -/
theorem engMap_length {α β : Type} (f : Nat → α → State → EngR β) (l : List α) (i : Nat) (s t : State) (bs : List β)
    (h : engMap f i l s = .ok bs t) : bs.length = l.length := by
  induction l generalizing i s t bs with
  | nil => simp only [engMap] at h; cases h; rfl
  | cons a r ih =>
    simp only [engMap, EngR.andThen_ok] at h
    obtain ⟨b, s1, _, bs', s2, h2, h3⟩ := h
    cases h3
    simp [ih _ _ _ _ h2]

end Sys2Proof.Machine
end

