-- ==== Sys2Proof/Laws/Ops.lean ====
section
/-! SUPPORT. What the shared operations of issue can do. -/
namespace Sys2Proof.Machine

/-- A group that can issue ends as its effect says. -/
theorem issue_of_ready {s : State} {codes : List (BitVec 5)} (act : State → Act) (h : s.Ready codes) :
    issue s codes act = .next (s.settleAct (act s)) := by
  simp [issue, h.1, finish, State.settle, h.2.1, h.2.2]

/-- Issue always answers a next state. -/
theorem issue_next (s : State) (codes : List (BitVec 5)) (act : State → Act) : ∃ t, issue s codes act = .next t := ⟨_, rfl⟩

theorem settleAct_done (s t : State) : s.settleAct (.done t) = t.retire := rfl

theorem settleAct_jump (s t : State) (a : Word) (d : Nat) : s.settleAct (.jump t a d) = t.retireTo a d := rfl

theorem settleAct_trap (s : State) (t : TrapInfo) : s.settleAct (.trap t) = s.trapHere t := rfl

theorem settleAct_fail (s s' : State) (t : TrapInfo) : s.settleAct (.fail s' t) = s'.trapHere t := rfl

/-- The operation trap ends as a trap of class 0 with its cause. -/
theorem settleAct_opTrap (s s' : State) (cause : Nat) :
    ∃ info : TrapInfo, info.cause = cause ∧ info.cls = 0 ∧ s.settleAct (s'.opTrap cause) = s.trapHere info := ⟨_, rfl, rfl, rfl⟩

/-! ### Results in flight -/

theorem mem_insertBy {α : Type} (le : α → α → Bool) (a x : α) (l : List α) : x ∈ insertBy le a l ↔ x = a ∨ x ∈ l := by
  induction l with
  | nil => simp [insertBy]
  | cons b r ih =>
    simp only [insertBy]
    split
    · simp [ih]; grind
    · simp

theorem State.setCore_setCore (s : State) (c : Nat) (x y : Core) : (s.setCore c x).setCore c y = s.setCore c y := by
  simp only [State.setCore, mset_mset]

theorem State.modCore_modCore (s : State) (c : Nat) (f g : Core → Core) : (s.modCore c f).modCore c g = s.modCore c (fun x => g (f x)) := by
  simp only [State.modCore, State.setCore_setCore, State.core_setCore, if_true]

theorem State.modIm_modIm (s : State) (c : Nat) (f g : Image → Image) : (s.modIm c f).modIm c g = s.modIm c (fun x => g (f x)) := by
  simp only [State.modIm, State.modCore_modCore]

/-- The flight that a result of the present group is. -/
def State.flightOf (s : State) (lat ord : Nat) (fx : Fx) : Flight := { due := s.t + lat, issue := s.t, ord := ord, sq := s.cur.sq, fx := fx }

theorem State.result_eq (s : State) (lat ord : Nat) (fx : Fx) :
    s.result lat ord fx = s.modIm s.cur.core (fun im => { im with flight := insertBy flightLe (s.flightOf lat ord fx) im.flight }) := rfl

theorem State.me_modIm (s : State) (f : Image → Image) : (s.modIm s.cur.core f).me = { s.me with im := f s.me.im } := by
  simp [State.me, State.core_modIm]

theorem State.me_result (s : State) (lat ord : Nat) (fx : Fx) :
    (s.result lat ord fx).me = { s.me with im := { s.me.im with flight := insertBy flightLe (s.flightOf lat ord fx) s.me.im.flight } } := by
  rw [State.result_eq, State.me_modIm]

theorem State.t_result (s : State) (lat ord : Nat) (fx : Fx) : (s.result lat ord fx).t = s.t := by
  simp only [State.t, State.me_result]

/-- Several results of one latency. -/
def State.results (s : State) (lat : Nat) (l : List Fx) : State := l.foldl (fun s fx => s.result lat 0 fx) s

theorem State.results_flight (lat : Nat) (l : List Fx) (s : State) :
    (s.results lat l) = s.modIm s.cur.core (fun im =>
      { im with flight := l.foldl (fun fl fx => insertBy flightLe (s.flightOf lat 0 fx) fl) im.flight }) ∨ l = [] := by
  induction l generalizing s with
  | nil => exact .inr rfl
  | cons fx r ih =>
    left
    have e : s.results lat (fx :: r) = (s.result lat 0 fx).results lat r := rfl
    rw [e]
    rcases ih (s.result lat 0 fx) with h | h
    · rw [h]
      simp only [State.result_cur, State.flightOf, State.t_result]
      rw [State.result_eq, State.modIm_modIm]; rfl
    · subst h; rfl

theorem mem_foldl_insertBy {α β : Type} (le : α → α → Bool) (g : β → α) (x : α) (l : List β) (fl : List α) :
    x ∈ l.foldl (fun fl b => insertBy le (g b) fl) fl ↔ x ∈ fl ∨ ∃ b ∈ l, x = g b := by
  induction l generalizing fl with
  | nil => simp
  | cons b r ih => simp [ih, mem_insertBy]; grind

/-- Results put in flight by one group are all that they change. -/
theorem State.results_putsInFlight (s : State) (lat : Nat) (l : List Fx) (hl : l ≠ []) (P : Fx → Prop) (hP : ∀ fx, P fx ↔ fx ∈ l) :
    s.PutsInFlight (s.results lat l) (s.t + lat) P := by
  rcases State.results_flight lat l s with h | h
  · rw [h]
    refine ⟨?_, ?_⟩
    · rw [State.me_modIm]; rfl
    · intro x
      rw [State.me_modIm]
      simp only [mem_foldl_insertBy, State.flightOf, hP]
      constructor
      · rintro (h | ⟨fx, h1, rfl⟩)
        · exact .inl h
        · exact .inr ⟨rfl, rfl, rfl, rfl, h1⟩
      · rintro (h | ⟨h1, h2, h3, h4, h5⟩)
        · exact .inl h
        · exact .inr ⟨x.fx, h5, by cases x; simp_all⟩
  · exact absurd h hl

end Sys2Proof.Machine
end

