-- ==== Sys2Proof/Laws/Steps.lean ====
section
/-! SUPPORT. What a step, an event and the end of a group can do, each said once. -/
namespace Sys2Proof.Machine

/-! ### Events -/

theorem event_next {n : String} {a : Option State} {t : State} : event n a = .next t ↔ a = some t := by
  cases a <;> simp [event, idleEvent]

theorem coreEvent_next {n : String} {c : Nat} {a : Option State} {t : State} : coreEvent n c a = .next t ↔ c < 128 ∧ a = some t := by
  unfold coreEvent
  split
  · rename_i h; simp [event_next, h]
  · rename_i h; simp [h]

/-- An event never faults. -/
theorem event_not_fault (n : String) (a : Option State) (f : Fault) : event n a ≠ .fault f := by
  cases a <;> simp [event, idleEvent]

/-! ### How a group ends -/

/-- The end of a group as its act says, where K has no pending error. -/
theorem settle_of_none {s : State} (a : Act) (h : s.pendingHere = none) : s.settle a = s.settleAct a := by
  simp only [State.settle, h]

/-- A pending error of K is raised instead of the effect of a group that would issue (R346). -/
theorem settle_done_pending {s : State} {e : PErr} (t : State) (h : s.pendingHere = some e) : s.settle (.done t) = s.raisePending e := by
  simp only [State.settle, h]

theorem endCounted_mem (s : State) (c : Nat) : (s.endCounted c).mem = s.mem := by unfold State.endCounted; split <;> rfl

theorem endCounted_cores (s : State) (c : Nat) : (s.endCounted c).cores = s.cores := by unfold State.endCounted; split <;> rfl

theorem endCounted_cyc (s : State) (c : Nat) : (s.endCounted c).cyc = s.cyc := by unfold State.endCounted; split <;> rfl

/-- Taking a trap writes no memory. -/
theorem takeTrap_mem (s : State) (c : Nat) (q : Seq) (t : TrapInfo) (cmd more : Nat) : (s.takeTrap c q t cmd more).mem = s.mem := by
  unfold State.takeTrap
  split
  · simp [endCounted_mem]
  · simp

/-- Taking a trap touches no other core. -/
theorem takeTrap_core_ne (s : State) (c c' : Nat) (q : Seq) (t : TrapInfo) (cmd more : Nat) (h : c' ≠ c) :
    (s.takeTrap c q t cmd more).core c' = s.core c' := by
  unfold State.takeTrap
  split
  · simp [State.core_modSeq, State.core_modStops, h]
    simp [State.core, endCounted_cores]
  · simp [State.core_modSeq, State.core_modStops, h]

theorem trapHere_mem (s : State) (t : TrapInfo) : (s.trapHere t).mem = s.mem := takeTrap_mem ..

theorem raisePending_mem (s : State) (e : PErr) : (s.raisePending e).mem = s.mem := by simp [State.raisePending]

/-- The memory that the end of a group leaves is the one its act leaves, or the one before it. -/
theorem settleAct_mem (s : State) (a : Act) :
    (s.settleAct a).mem = s.mem ∨ ∃ s' : State, (s.settleAct a).mem = s'.mem ∧
      ((a = .done s') ∨ (∃ x d, a = .jump s' x d) ∨ (∃ k o l, a = .wait s' k o l) ∨ (∃ t, a = .fail s' t) ∨ (∃ t, a = .trapDone s' t) ∨
        ∃ e, a = .pend s' e) := by
  cases a with
  | done s' => exact .inr ⟨s', by simp [State.settleAct], .inl rfl⟩
  | jump s' x d => exact .inr ⟨s', by simp [State.settleAct], .inr (.inl ⟨x, d, rfl⟩)⟩
  | wait s' k o l =>
    simp only [State.settleAct]
    split
    · exact .inl (trapHere_mem ..)
    · exact .inr ⟨s', by simp, .inr (.inr (.inl ⟨k, o, l, rfl⟩))⟩
  | trap t => exact .inl (trapHere_mem ..)
  | fail s' t => exact .inr ⟨s', trapHere_mem .., .inr (.inr (.inr (.inl ⟨t, rfl⟩)))⟩
  | trapDone s' t => exact .inr ⟨s', by simp [State.settleAct, takeTrap_mem], .inr (.inr (.inr (.inr (.inl ⟨t, rfl⟩))))⟩
  | pend s' e => exact .inr ⟨s', by simp [State.settleAct, raisePending_mem], .inr (.inr (.inr (.inr (.inr ⟨e, rfl⟩))))⟩

/-! ### One step -/

/-- What is found enabled is the outcome of one of the events offered. -/
theorem firstEnabled_some {s t : State} {l : List Ev} (h : firstEnabled s l = some t) : ∃ e ∈ l, e s = .next t := by
  induction l with
  | nil => simp [firstEnabled] at h
  | cons e r ih =>
    simp only [firstEnabled] at h
    split at h
    · rename_i u hu; exact ⟨e, List.mem_cons_self .., by rw [hu]; simpa using h⟩
    · obtain ⟨e', he, hn⟩ := ih h
      exact ⟨e', List.mem_cons_of_mem _ he, hn⟩

/-- An input taken is the first one, its cycle has come, and the step is its meaning. -/
theorem inputStep_some {s t : State} (h : inputStep s = some t) :
    ∃ at_ i r, s.inputs = (at_, i) :: r ∧ at_ ≤ s.cyc ∧ exec i { s with inputs := r } = .next t := by
  unfold inputStep at h
  split at h
  · simp at h
  · rename_i at_ i r he
    split at h
    · rename_i hc
      obtain ⟨e, hm, hn⟩ := firstEnabled_some h
      rw [List.mem_singleton] at hm; subst hm
      exact ⟨at_, i, r, he, hc, hn⟩
    · simp at h

/-- Everything a step can do that answers a next state: an input, an event, the issue of a group, or the end of the cycle. -/
theorem step_cases {s t : State} (h : step s = .next t) :
    (∃ at_ i r, s.inputs = (at_, i) :: r ∧ at_ ≤ s.cyc ∧ exec i { s with inputs := r } = .next t) ∨
    (∃ e ∈ s.candidates, e s = .next t) ∨
    (∃ c sq, s.nextIssue = some (c, sq) ∧ issueStep s c sq = .next t) ∨
    (∃ e ∈ s.lateCandidates, e s = .next t) ∨
    t = s.endCycle := by
  unfold step at h
  split at h
  · rename_i u hu; cases h; exact .inl (inputStep_some hu)
  · split at h
    · rename_i u hu; cases h; exact .inr (.inl (firstEnabled_some hu))
    · split at h
      · rename_i c sq hn; exact .inr (.inr (.inl ⟨c, sq, hn, h⟩))
      · split at h
        · rename_i u hu; cases h; exact .inr (.inr (.inr (.inl (firstEnabled_some hu))))
        · cases h; exact .inr (.inr (.inr (.inr rfl)))

/-- Everything the fetched group of a sequencer can do: it traps, waits, is gone past, has a guard
with an uncorrectable error (R348), or is executed. -/
theorem issueGroup_cases {s t : State} {c : Nat} {sq : Seq} (h : issueGroup s c sq = .next t) :
    (∃ cause word fsel reason u, (s.core c).fetch c sq = .bad cause word fsel reason u ∧
      finish (s.withCur u) (fetchTrap cause word fsel reason u) = .next t) ∨
    (∃ kind obj u, (s.core c).fetch c sq = .hold kind obj u ∧ finish (s.withCur u) (.wait (s.withCur u) kind obj 0) = .next t) ∨
    (∃ u, (s.core c).fetch c sq = .skip u ∧ (s.withCur u).skipGroup = t) ∨
    (∃ u, (s.withCur u).flawedGuard = true ∧ finish (s.withCur u) flawTrap = .next t) ∨
    (∃ i u, (s.core c).fetch c sq = .run i u ∧ exec i (s.withCur u) = .next t) := by
  unfold issueGroup at h
  split at h
  · exact .inl ⟨_, _, _, _, _, ‹_›, h⟩
  · exact .inr (.inl ⟨_, _, _, ‹_›, h⟩)
  · split at h
    · exact .inr (.inr (.inr (.inl ⟨_, ‹_›, h⟩)))
    · cases h; exact .inr (.inr (.inl ⟨_, ‹_›, rfl⟩))
  · split at h
    · exact .inr (.inr (.inr (.inl ⟨_, ‹_›, h⟩)))
    · exact .inr (.inr (.inr (.inr ⟨_, _, ‹_›, h⟩)))

/-- The turn of a sequencer arms a group that waited, or is that of its fetched group. -/
theorem issueStep_cases {s t : State} {c : Nat} {sq : Seq} (h : issueStep s c sq = .next t) :
    execWaitingGroupIssue c sq s = .next t ∨ issueGroup s c sq = .next t := by
  unfold issueStep at h
  split at h
  · split at h
    · rename_i u hu; cases h; exact .inl hu
    · exact .inr h
  · exact .inr h

end Sys2Proof.Machine
end

