-- ==== Sys2Proof/Tests/Slice0.lean ====
section
/-! SUPPORT. Tests: words of the manual and what they decode to, terms that the checks refuse, and one step of each kind on a small
state. Each test of a step holds the hypotheses of a statement's clause at a concrete state, and says what the step then does, by hand from the rule. -/
namespace Sys2Proof.Tests
set_option Elab.async false
open Sys2Proof Sys2Proof.Machine

/-- Core 0 running an untimed segment of context 0. -/
def co0 : Core := { Core.init with bound := true, im := { Image.init with seg := some fetchSeg }, walk := { Core.init.walk with phase := .running } }

/-- A state whose core 0 is this one, with a group of this sequencer at address 0 at hand; the firmware runs. -/
def st (co : Core) (q : Seq := .k) : State := { State.reset with cores := [(0, co)], cur := { Cur.init with sq := q }, plat := { Platform.init with bootStep := 3 } }

/-- The core with its image changed. -/
def imOf (f : Image → Image) : Core := { co0 with im := f co0.im }

/-- The core with its K sequencer changed. -/
def kOf (f : SeqSt → SeqSt) : Core := imOf (fun im => { im with k := f im.k })

/-- The core in a timed segment. -/
def timedCo (co : Core) : Core := { co with im := { co.im with seg := some { fetchSeg with timed := true } } }

/-- g1 of K holds this value. -/
def g1 (co : Core) (v : Word) : Core := { co with im := { co.im with k := { co.im.k with regs := co.im.k.regs.set! 1 v } } }

/-- g2 of K holds this value. -/
def g2 (co : Core) (v : Word) : Core := { co with im := { co.im with k := { co.im.k with regs := co.im.k.regs.set! 2 v } } }

/-- The state after an outcome has a property. -/
def after (o : Host.Outcome State Fault Refusal) (p : State → Bool) : Bool :=
  match o with
  | .next t => p t
  | _ => false

/-- The cause and class of the last trap that core 0 took. -/
def caught (o : Host.Outcome State Fault Refusal) : Option (Nat × Nat) :=
  match o with
  | .next t => ((t.core 0).stops.recs.getLast?).map (fun r => (r.cause, r.cls))
  | _ => none

/-- What a sequencer of core 0 waits for. -/
def waits (o : Host.Outcome State Fault Refusal) (q : Seq := .k) : Option (Nat × Nat) :=
  match o with
  | .next t => (((t.core 0).im.seq q).waiting).map (fun w => (w.kind, w.obj))
  | _ => none

/-- What core 0 has in flight. -/
def flights (o : Host.Outcome State Fault Refusal) : List (Nat × Fx) :=
  match o with
  | .next t => (t.core 0).im.flight.map (fun x => (x.due, x.fx))
  | _ => []

/-- The pc of a sequencer of core 0 after an outcome. -/
def pcAfter (o : Host.Outcome State Fault Refusal) (q : Seq := .k) : Option Word :=
  match o with
  | .next t => some ((t.core 0).im.seq q).pc
  | _ => none

def regF : RegF := { d := 0, a := 0, b := 0, imm := 0, var := 0, pa := 0, pb := 0 }
def ctlF : CtlF := { off := 0, a := 0, cnt := 0, frame := 0, var := 0, pa := 0 }
def mgtF : MgtF := { d := 0, a := 0, b := 0, c := 0, seq := 0, slot := 0, idx := 0, n := 0, var := 0, pa := 0 }

/-! ### Integer instructions -/

theorem test_and_to_g0_writes_nothing : (st co0).Ready [1, 8] ∧ (st co0).intRow (.and { regF with a := 1, b := 8 }) = some ([1, 8], 0, 0) ∧
    flights (exec (.and { regF with a := 1, b := 8 }) (st co0)) = [] := by decide

theorem test_sra_by_a_negative_count_fills_with_the_sign : flights (exec (.sraImm { regF with d := 2, a := 1, imm := 0xFFFFFFFF }) (st (g1 co0 (-8)))) =
    [(1, .reg .k 2 (-1))] := by decide

theorem test_mulhs_of_minus_one : flights (exec (.mulhs { regF with d := 8, a := 1, b := 2 }) (st (g2 (g1 co0 (-1)) 5))) = [(1, .win 0 (-1))] := by decide

theorem test_lui_keeps_the_low_half : flights (exec (.lui { regF with d := 1, a := 1, imm := 0x12345678 }) (st (g1 co0 (-16)))) =
    [(1, .reg .k 1 0x12345678FFFFFFF0)] := by decide

theorem test_add_saturates_signed : (st (g1 co0 0x7FFFFFFFFFFFFFFF)).Ready [1] ∧
    flights (exec (.addImm { regF with d := 2, a := 1, imm := 1, var := 1, pb := 3 }) (st (g1 co0 0x7FFFFFFFFFFFFFFF))) =
      [(1, .reg .k 2 0x7FFFFFFFFFFFFFFF), (1, .pred .k 3 true)] := by decide

theorem test_sub_saturates_unsigned : (st (g1 co0 3)).Ready [1] ∧
    flights (exec (.subImm { regF with d := 2, a := 1, imm := 4, var := 2, pb := 3 }) (st (g1 co0 3))) = [(1, .reg .k 2 0), (1, .pred .k 3 true)] := by decide

/-- The example of R54. -/
theorem test_cmp_lt_of_minus_five : (st (g2 (g1 co0 (-5)) 3)).Ready [1, 2] ∧
    flights (exec (.cmp { regF with a := 1, b := 2, var := 2, pa := 1, pb := 2 }) (st (g2 (g1 co0 (-5)) 3))) = [(1, .pred .k 1 true), (1, .pred .k 2 false)] := by
  decide

/-- The same bits read unsigned (R54). -/
theorem test_cmp_ltu_of_minus_five : flights (exec (.cmp { regF with a := 1, b := 2, var := 6, pa := 1, pb := 2 }) (st (g2 (g1 co0 (-5)) 3))) =
    [(1, .pred .k 1 false), (1, .pred .k 2 true)] := by decide

/-- A use of the condition's boundary: var 9, equal operands. -/
theorem test_cmp_geu_of_equals : (st co0).Ready [1] ∧ (9 : BitVec 4).toNat < 10 ∧
    flights (exec (.cmpImm { regF with a := 1, var := 9, pa := 1, pb := 1 }) (st co0)) = [(1, .pred .k 1 true), (1, .pred .k 1 false)] := by decide

/-! ### Control transfers -/

/-- A stream of three words, the second of which is this. -/
def stream (w : Half) : Core := kOf (fun k => { k with buf := [0, w, 0] })

theorem test_br_backward_out_of_the_stream : (st (stream 0)).Ready [] ∧ (((0 : Word) + (-1 : BitVec 24).signExtend 64 * 4).toNat % 4 = 0) ∧
    (st (stream 0)).mySeq.inStream (-4) = false ∧ caught (exec (.br { ctlF with off := -1 }) (st (stream 0))) = some (9, 0) ∧
    caught (exec (.br { ctlF with off := 3 }) (st (stream 0))) = some (9, 0) := by decide

theorem test_br_to_the_last_word : (st (stream 0)).mySeq.inStream 8 = true ∧ pcAfter (exec (.br { ctlF with off := 2 }) (st (stream 0))) = some 8 := by decide

theorem test_jmp_to_an_unaligned_address : (st (g1 (stream 0) 2)).Ready [1] ∧ caught (exec (.jmp { ctlF with a := 1 }) (st (g1 (stream 0) 2))) = some (0xB, 0) := by
  decide

/-- A slot that holds `entry 1`, and a stream that names it at its second word. -/
def callee (im : Image → Image) : Core :=
  let co := kOf (fun k => { k with buf := [0, 0x00000000, 0], table := [(0, { t := (encode .k 0 0 (.entry { ctlF with frame := 1 })).getD 0, reason := 0, loading := false })] })
  { co with im := im co.im }

theorem test_entry_does_nothing : (st co0).Ready [] ∧ flights (exec (.entry ctlF) (st co0)) = [] ∧ pcAfter (exec (.entry ctlF) (st co0)) = some 4 := by decide

theorem test_call_needs_an_entry : (st (stream 0)).Ready [] ∧ (st (stream 0)).mySeq.entryFrame 4 = none ∧
    caught (exec (.call { ctlF with off := 1 }) (st (stream 0))) = some (0xB, 0) := by decide

theorem test_call_moves_the_window : (st (callee id)).mySeq.entryFrame 4 = some 1 ∧
    flights (exec (.call { ctlF with off := 1 }) (st (callee id))) =
      (upTo 0 7).map (fun n => (1, Fx.win (24 + n) 0)) ++ [(1, .win 31 5), (1, .window 8 32 0)] := by decide

theorem test_call_beyond_the_ring : (st (callee (fun im => { im with wres := 192 }))).mySeq.entryFrame 4 = some 1 ∧
    caught (exec (.call { ctlF with off := 1 }) (st (callee (fun im => { im with wres := 192 })))) = some (0xB, 0) := by decide

theorem test_call_spills_in_a_timed_segment :
    caught (exec (.call { ctlF with off := 1 }) (st (timedCo (callee (fun im => { im with wres := 192, spcap := 8 }))))) = some (0x20, 0) := by decide

theorem test_call_that_spills_delays_its_target :
    after (exec (.call { ctlF with off := 1 }) (st (callee (fun im => { im with wres := 192, spcap := 8 })))) (fun t =>
      t.me.im.k.pc == 4 && t.me.im.k.delay == 2 && t.me.im.flight.contains { due := 3, issue := 0, ord := 0, sq := .k, fx := .window 8 192 8 }) = true := by decide

/-- A frame of 8 of a caller whose link (in w23, frame 1) names the stream's last word. -/
def returning (wres wspl : Nat) : Core := g1 { callee id with im := { (callee id).im with wres := wres, wspl := wspl } } 9

theorem test_ret_without_a_caller : (st (returning 24 0)).Ready [1] ∧ caught (exec (.ret { ctlF with a := 1 }) (st (returning 24 0))) = some (0xB, 0) := by decide

theorem test_ret_moves_the_window_back : (st (returning 32 0)).mySeq.inStream 8 = true ∧
    flights (exec (.ret { ctlF with a := 1 }) (st (returning 32 0))) = [(1, .window 184 24 0)] ∧ pcAfter (exec (.ret { ctlF with a := 1 }) (st (returning 32 0))) = some 8 := by
  decide

theorem test_ret_fills_in_a_timed_segment : caught (exec (.ret { ctlF with a := 1 }) (st (timedCo (returning 24 8)))) = some (0x20, 0) := by decide

theorem test_ret_out_of_the_stream : (st (g1 (returning 32 0) 13)).mySeq.inStream 12 = false ∧
    caught (exec (.ret { ctlF with a := 1 }) (st (g1 (returning 32 0) 13))) = some (9, 0) := by decide

theorem test_loop_with_no_iterations_leaves : (st (stream 0)).Ready [] ∧ pcAfter (exec (.loop { ctlF with off := 2 }) (st (stream 0))) = some 8 ∧
    flights (exec (.loop { ctlF with off := 2 }) (st (stream 0))) = [] := by decide

theorem test_loop_sets_its_stages : (flights (exec (.loop { ctlF with off := 2, cnt := 0xFFFFFFFF, var := 3 }) (st (stream 0)))).contains (1, .loop .k 0xFFFFFFFE 4) = true ∧
    (flights (exec (.loop { ctlF with off := 2, cnt := 1 }) (st (stream 0)))).contains (1, .pred .k 8 true) = true := by decide

theorem test_loop_of_too_many : (st (g1 (stream 0) 0x100000000)).Ready [1] ∧
    caught (exec (.loop { ctlF with off := 2, a := 1, var := 8 }) (st (g1 (stream 0) 0x100000000))) = some (0xB, 0) ∧
    caught (exec (.loop { ctlF with off := 3 }) (st (stream 0))) = some (9, 0) := by decide

/-- A loop's exit is unaligned only where its group is. -/
theorem test_loop_and_lbr_at_an_unaligned_address :
    caught (exec (.loop ctlF) { st (stream 0) with cur := { Cur.init with first := 2 } }) = some (0xB, 0) ∧
    caught (exec (.lbr ctlF) { st (stream 0) with cur := { Cur.init with first := 2 } }) = some (0xB, 0) := by decide

def looping (lc : Half) (ec : BitVec 4) : Core := kOf (fun k => { k with buf := [0, 0, 0], lc := lc, ec := ec })

theorem test_lbr_counts_an_iteration : pcAfter (exec (.lbr { ctlF with off := 2 }) (st (looping 1 2))) = some 8 ∧
    flights (exec (.lbr { ctlF with off := 2 }) (st (looping 1 2))) = [(1, .loop .k 0 2), (1, .rotate .k true)] := by decide

theorem test_lbr_counts_the_epilogue : flights (exec (.lbr { ctlF with off := 2 }) (st (looping 0 2))) = [(1, .loop .k 0 1), (1, .rotate .k false)] ∧
    pcAfter (exec (.lbr { ctlF with off := 2 }) (st (looping 0 1))) = some 4 ∧ caught (exec (.lbr { ctlF with off := 3 }) (st (looping 0 1))) = some (9, 0) := by decide

theorem test_halt_marks_the_next_cycle : (st co0).Ready [] ∧ after (exec (.halt mgtF) (st co0)) (fun t => t.me.im.k.halted == some 1) = true := by decide

theorem test_trap_records_its_number : (st (g1 co0 7)).Ready [1] ∧ caught (exec (.trap { mgtF with a := 1, n := 5 }) (st (g1 co0 7))) = some (0, 1) ∧
    pcAfter (exec (.trap { mgtF with a := 1, n := 5 }) (st (g1 co0 7))) = some 4 := by decide

/-! ### Tokens and alignment -/

/-- Queue 0 of the reset binding is K's to put and L's to take (R102); it holds this many tokens. -/
def tokens (n : Nat) : Core := imOf (fun im => { im with tkcnt := im.tkcnt.set! 0 n })

theorem test_tkput_up_to_the_limit : (st (tokens 250)).Ready [] ∧ flights (exec (.tkput { mgtF with n := 5 }) (st (tokens 250))) = [(1, .tokens 0 5)] ∧
    waits (exec (.tkput { mgtF with n := 6 }) (st (tokens 250))) = some (2, 0) := by decide

theorem test_tkput_at_another_sequencer : caught (exec (.tkput { mgtF with n := 1 }) (st (tokens 0) .l)) = some (0xB, 0) ∧
    caught (exec (.tkget { mgtF with n := 1 }) (st (tokens 0))) = some (0xB, 0) ∧ caught (exec (.tkgetTry { mgtF with n := 1 }) (st (tokens 0))) = some (0xB, 0) := by decide

theorem test_tkget_takes_what_there_is : flights (exec (.tkget { mgtF with n := 5 }) (st (tokens 5) .l)) = [(1, .take 0 5)] ∧
    waits (exec (.tkget { mgtF with n := 6 }) (st (tokens 5) .l)) .l = some (1, 0) := by decide

theorem test_tkget_try_says_whether : flights (exec (.tkgetTry { mgtF with n := 6, pa := 1 }) (st (tokens 5) .l)) = [(1, .pred .l 1 false)] ∧
    flights (exec (.tkgetTry { mgtF with n := 5, pa := 1 }) (st (tokens 5) .l)) = [(1, .take 0 5), (1, .pred .l 1 true)] := by decide

theorem test_align_in_a_timed_segment : (st (timedCo co0)).Ready [] ∧ caught (exec (.align mgtF) (st (timedCo co0))) = some (0xB, 0) := by decide

/-- L is parked at a `tkget` that lacks 3. -/
def parked (fl : List Flight) : Core := imOf (fun im => { im with flight := fl, l := { im.l with halted := none, waiting := some { kind := 1, obj := 0, lacks := 3 } } })

theorem test_align_feeds_what_lacks : waits (exec (.align { mgtF with n := 7 }) (st (parked [{ due := 5, issue := 0, ord := 0, sq := .l, fx := .pred .l 1 true }]))) =
    some (0, 0) := by decide

theorem test_align_gives_the_tokens : flights (exec (.align { mgtF with n := 7 }) (st (parked []))) = [(1, .tokens 0 3)] := by decide

theorem test_galign_arrives : (st co0).Ready [] ∧ after (exec (.galign mgtF) (st co0)) (fun t => t.me.stops.galign == some (1, 0) && t.me.im.garrive == 1) = true := by decide

/-- A launch of context 0 whose units run on cores 0 and 1. -/
def lunit (c : Nat) : LUnit := { core := c, coords := [], nextSeg := 1, nextTrip := 0, started := true, ended := false, endCyc := 0, triggered := none }
def launch0 (us : List LUnit) : Launch :=
  { id := 0, ctx := 0, core := 0, csem := 1, tsem := 2, tren := true, trigDone := false, nseg := 1, kaddr := 0, levels := [(1, 2)], units := us, entry := false,
    startTs := 0, started := true, remote := [], trigRemote := [], origin := none, grp := 0x20001 }

/-- Cores 0 and 1, which wait at the `galign` of number 0 since cycles a and b. -/
def aligned (a b : Nat) (f : Core → Core) (cyc : Nat) : State :=
  let w (n : Nat) : Core := { co0 with stops := { co0.stops with galign := some (n, 0), gpc := 64 } }
  { State.reset with cores := [(0, w a), (1, f (w b))], launches := [launch0 [lunit 0, lunit 1]], cyc := cyc }

/-- R105: released on the 41st cycle after the last arrival, on cycle 19. -/
theorem test_galign_releases_after_41 : (aligned 10 20 id 60).groupOf 0 = [0, 1] ∧
    latest (((aligned 10 20 id 60).groupOf 0).map (fun m => (aligned 10 20 id 60).arrival ((aligned 10 20 id 60).launchOf 0) m 0)) = some 19 ∧
    after (exec (.galignRelease 0) (aligned 10 20 id 60)) (fun t => (t.core 1).stops.galign.isNone && (t.core 0).stops.galign.isNone) = true ∧
    exec (.galignRelease 0) (aligned 10 20 id 59) = .refused (.notEnabled "GALIGN_RELEASE") := by refine ⟨by decide, by decide, by decide, rfl⟩

theorem test_galign_breaks : (aligned 10 20 (fun c => { c with stops := { c.stops with stop := .stopped 3 true } }) 30).memberBroken 1 = true ∧
    ((aligned 10 20 (fun c => { c with stops := { c.stops with stop := .stopped 3 true } }) 30).groupOf 1).Nodup ∧
    caught (exec (.galignBreak 1) (aligned 10 20 (fun c => { c with stops := { c.stops with stop := .stopped 3 true } }) 30)) = some (0x23, 0) := by decide

/-! ### Special registers -/

theorem test_mfs_reads_the_core_number : (st co0).Ready [] ∧ (0x00, 0) ∈ (st co0).registerRow 0 ∧ (0x21, 24) ∈ (st co0).registerRow 0 ∧
    flights (exec (.mfs { mgtF with d := 1, idx := 0x21 }) (st co0)) = [(1, .reg .k 1 24)] := by decide

theorem test_mfs_of_an_unassigned_number : caught (exec (.mfs { mgtF with d := 1, idx := 0x27 }) (st co0)) = some (0xB, 0) ∧
    caught (exec (.mfs { mgtF with d := 1, idx := 0x4E }) (st co0)) = some (0xB, 0) ∧ (st co0).specialRead 0 0x4D ≠ none := by decide

theorem test_mts_of_a_read_only_register : (st co0).Ready [1] ∧ caught (exec (.mts { mgtF with a := 1, idx := 0x23 }) (st co0)) = some (8, 0) ∧
    caught (exec (.mts { mgtF with a := 1, idx := 0x4D }) (st co0)) = some (8, 0) := by decide

theorem test_mts_lc_at_its_limit : flights (exec (.mts { mgtF with a := 1, idx := 0x24 }) (st (g1 co0 0xFFFFFFFF))) = [(1, .lcW 0xFFFFFFFF)] ∧
    caught (exec (.mts { mgtF with a := 1, idx := 0x24 }) (st (g1 co0 0x100000000))) = some (0xB, 0) := by decide

theorem test_mts_ec_at_its_limit : flights (exec (.mts { mgtF with a := 1, idx := 0x25 }) (st (g1 co0 8))) = [(1, .ecW 8)] ∧
    caught (exec (.mts { mgtF with a := 1, idx := 0x25 }) (st (g1 co0 9))) = some (0xB, 0) := by decide

theorem test_mts_of_queues_and_others : flights (exec (.mts { mgtF with a := 1, idx := 0x3F }) (st (g1 co0 64))) = [(1, .special 0x3F 64)] ∧
    caught (exec (.mts { mgtF with a := 1, idx := 0x30 }) (st (g1 co0 32))) = some (0xB, 0) ∧
    flights (exec (.mts { mgtF with a := 1, idx := 0x26 }) (st (g1 co0 6))) = [(1, .predAll 7)] ∧
    flights (exec (.mts { mgtF with a := 1, idx := 0x2F }) (st (g1 co0 6))) = [(1, .special 0x2F 6)] ∧
    flights (exec (.mts { mgtF with a := 1, idx := 0x47 }) (st (g1 co0 6))) = [(1, .special 0x47 6)] := by decide

theorem test_mts_rid_at_its_limit : flights (exec (.mts { mgtF with a := 1, idx := 0x4C }) (st (g1 co0 0x1FFFFFF))) = [(1, .special 0x4C 0x1FFFFFF)] ∧
    caught (exec (.mts { mgtF with a := 1, idx := 0x4C }) (st (g1 co0 0x2000000))) = some (0xB, 0) := by decide

theorem test_mts_fclr : flights (exec (.mtsFclr { mgtF with a := 1, idx := 0x2A }) (st (g1 co0 6))) = [(1, .fclr 6)] := by decide

theorem test_mts_tkmap : flights (exec (.mtsTkmap { mgtF with a := 1, idx := 0x28 }) (st (g1 co0 0x0F))) = [(1, .special 0x28 0x0F)] ∧
    caught (exec (.mtsTkmap { mgtF with a := 1, idx := 0x28 }) (st (g1 co0 0x10))) = some (0xB, 0) ∧
    caught (exec (.mtsTkmap { mgtF with a := 1, idx := 0x28 }) (st (tokens 1))) = some (0xB, 0) := by decide

theorem test_xset_is_due_after_two : (st (g1 co0 9)).Ready [1] ∧ flights (exec (.xset { mgtF with d := 4, a := 1, seq := 1 }) (st (g1 co0 9))) = [(2, .reg .l 4 9)] := by decide

theorem test_tset_joins_its_halves : (st (g2 (g1 co0 1) 2)).Ready [1, 2] ∧
    flights (exec (.tset { mgtF with a := 1, b := 2, seq := 3, slot := 61 }) (st (g2 (g1 co0 1) 2))) = [(2, .slot .s 61 0x20000000000000001)] := by decide

/-- R72 by hand, with key 2 and counter 1. -/
theorem test_lmix_key_and_counter : flights (exec (.lmix { mgtF with d := 3, a := 1, b := 2 }) (st (g2 (g1 co0 1) 2))) = [(4, .reg .k 3 0xBEF0F9347926620C)] := by
  decide +kernel

/-- The published check value of CRC-32C, by the example of R74: its two steps. -/
theorem test_crc32c_check_value :
    flights (exec (.crc32c { mgtF with d := 3, a := 1, b := 2, var := 3 }) (st (g2 (g1 co0 0xFFFFFFFF) 0x3837363534333231))) = [(2, .reg .k 3 0x9F787F65)] ∧
    flights (exec (.crc32c { mgtF with d := 3, a := 1, b := 2 }) (st (g2 (g1 co0 0x9F787F65) 0x39))) = [(2, .reg .k 3 (0xE3069283 ^^^ 0xFFFFFFFF))] := by decide +kernel

/-! ### Templates, macros and launches -/

/-- Slabs 0 to n - 1 are live, born and of context 0. -/
def slabbed (n : Nat) (co : Core) : Core := { co with slabs := (upTo 0 n).map (fun i => (i, { kind := .live, owner := 0, born := true, stamp := 0 })) }

/-- The core's scratchpad holds these cells. -/
def spad (cells : List Host.Cell) (co : Core) : Core := { co with spad := cells }

theorem test_tld_of_no_slots : (st co0).Ready [1] ∧ flights (exec (.tld { mgtF with a := 1 }) (st co0)) = [] ∧ pcAfter (exec (.tld { mgtF with a := 1 }) (st co0)) = some 4 := by decide

theorem test_tld_operand_checks : caught (exec (.tld { mgtF with a := 1, n := 2, slot := 61 }) (st co0)) = some (0xB, 0) ∧
    caught (exec (.tld { mgtF with a := 1, n := 1, slot := 61 }) (st (g1 co0 8))) = some (0x40, 0) := by decide

theorem test_tld_from_scratchpad : (st (slabbed 1 co0)).me.checkLocal 0 0 0 16 true = none ∧
    after (exec (.tld { mgtF with a := 1, n := 1, slot := 61, var := 1 }) (st (slabbed 1 co0))) (fun t => (mget Slot.empty t.me.im.k.table 61).loading) = true := by decide

/-- The core translates the first gigabyte of context 0 to physical 0. -/
def tlbd (co : Core) : Core := { co with ms := { co.ms with tlb := [{ ctx := 0, vbase := 0, lg := 30, pbase := 0, attr := 15 }] } }

theorem test_tld_from_global_memory : (match (st (tlbd co0)).tableRead 0 16 with
      | .value bs _ => bs == List.replicate 16 0
      | _ => false) = true ∧
    after (exec (.tld { mgtF with a := 1, n := 1 }) (st (tlbd co0))) (fun t => t.me.ms.hold.isSome) = true := by decide

/-- K holds a `tld` of L's slot 5 of two templates, the first of them `li l2, 7`. -/
def loadingSlots : Core :=
  { co0 with ms := { co0.ms with hold := some (.tld .l 5 [(encode .l 0 0 (.li { regF with d := 2, imm := 7 })).getD 0, 0] 3) } }

theorem test_tld_slot_write : (st loadingSlots).core 0 = loadingSlots ∧ loadingSlots.tableTime 3 = true ∧
    after (exec (.tldSlotWrite 0) { st loadingSlots with cyc := 3 }) (fun t => (mget Slot.empty (t.core 0).im.l.table 5).reason == 0) = true ∧
    exec (.tldSlotWrite 0) { st loadingSlots with cyc := 2 } = .refused (.notEnabled "TLD_SLOT_WRITE") := by refine ⟨rfl, by decide, by decide, rfl⟩

theorem test_mdef_alignment : (st (g1 co0 4)).Ready [1] ∧ caught (exec (.mdef { mgtF with a := 1 }) (st (g1 co0 4))) = some (0x40, 0) := by decide

/-- A body of one entry, the last, in the scratchpad: slot 3, no amendment. -/
def bodyWord : Word := 0x80C000000

theorem test_mdef_reads_its_body : (match State.readBody true 0 32 [] (st (spad [(3, 0x0C), (4, 8)] (slabbed 1 co0))) with
      | .body es _ => es == [bodyWord]
      | _ => false) = true ∧ (st (spad [(3, 0x0C), (4, 8)] (slabbed 1 co0))).trappedInside .k 7 = false ∧
    after (exec (.mdef { mgtF with a := 1, idx := 7, var := 1 }) (st (spad [(3, 0x0C), (4, 8)] (slabbed 1 co0)))) (fun t => t.me.ms.hold.isSome) = true := by decide

/-- K stands behind an `mdef` of L's macro 7 with this body; its stream has its `mdef` at slot 0. -/
def defining (es : List Word) : Core :=
  { kOf (fun k => { k with buf := [0], table := [(0, { t := (encode .k 0 0 (.mdef { mgtF with a := 1, idx := 7, seq := 1, var := 1 })).getD 0, reason := 0, loading := false })] }) with
    ms := { co0.ms with hold := some (.mdef .l 7 es 3) } }

theorem test_mdef_installs : bodyRejects [bodyWord] = none ∧ (match (defining [bodyWord]).fetch 0 .k with
      | .run _ u => u.core == 0 && u.sq == .k
      | _ => false) = true ∧
    after (exec (.mdefBodyCheck 0) { st (defining [bodyWord]) with cyc := 3 }) (fun t => t.me.ms.hold.isNone &&
      mfind (t.core 0).im.l.macros 7 == some [{ last := true, psrc := 0, word := 0x0C000000 }]) = true := by decide

theorem test_mdef_rejects : bodyRejects [0x8F8000000] = some 0 ∧ caught (exec (.mdefBodyCheck 0) { st (defining [0x8F8000000]) with cyc := 3 }) = some (5, 0) := by decide

theorem test_macro_call : (st co0).pendingHere = none ∧ mfind (st co0).mySeq.macros 7 = none ∧ caught (exec (.macroCall 7 0 1 2 3 4) (st co0)) = some (5, 0) ∧
    after (exec (.macroCall 7 3 1 2 3 4) (st (kOf (fun k => { k with macros := [(7, [entryOf bodyWord])] })))) (fun t =>
      t.mySeq.mpos == some { m := 7, next := 0, p0 := 1, p1 := 2, p2 := 3, p3 := 4, body := [entryOf bodyWord], idle := 3, ret := 4 }) = true := by decide

theorem test_launch_alignment : (st (g1 co0 16)).Ready [1] ∧ caught (exec (.launch { mgtF with a := 1 }) (st (g1 co0 16))) = some (0x40, 0) := by decide

/-- A descriptor at 0: kaddr 0, ltab 64, nseg 1, csem 1; at 64 a loop table of one X level of 2. -/
def launchMem : List Host.Cell := [(8, 64), (16, 1), (18, 1), (64, 1), (72, 2), (76, 1)]
/-- Its row of die 0's timetable binds context 0 to cores 0 and 1. -/
def row0 : BitVec 256 := BitVec.ofNat 256 (2 ^ 81 + 3 * 2 ^ 128)
def launchSt (co : Core) : State := { st { co with ms := { co.ms with snap := launchMem } } with mem := launchMem, dies := [(0, { Die.init with rows := [(0, row0)] })] }

theorem test_launch_reads : (match (launchSt (tlbd co0)).tableRead 0 32 with
      | .value bs _ => (launchDesc bs).isSome && loopLevels (leBytes 8 1) == some 1
      | _ => false) = true ∧
    after (exec (.launch { mgtF with a := 1 }) (launchSt (tlbd co0))) (fun t => t.me.ms.hold.isSome) = true := by decide

/-- K stands behind a `launch` that has read this descriptor and table; its stream has it at slot 0. -/
def launching (desc tab : List Byte) : Core :=
  { kOf (fun k => { k with buf := [0], table := [(0, { t := (encode .k 0 0 (.launch { mgtF with a := 1 })).getD 0, reason := 0, loading := false })] }) with
    ms := { co0.ms with hold := some (.launch desc tab 3 false) } }
def desc0 : List Byte := leBytes 32 (64 * 2 ^ 64 + 2 ^ 128 + 2 ^ 144)
def tab0 : List Byte := leBytes 16 (1 + 2 ^ 64 * (2 + 2 ^ 32))

theorem test_launch_accepted : ((launchSt (launching desc0 tab0)).launchRead 0 desc0 tab0).isSome = true ∧
    after (exec (.launchAcceptance 0) { launchSt (launching desc0 tab0) with cyc := 3 }) (fun t =>
      t.launches.map (fun l => (l.csem, l.levels, l.units.map (fun u => u.core))) == [(1, [(1, 2)], [0, 1])]) = true := by decide

/-- nseg 0 (R110). -/
theorem test_launch_refused : ((launchSt (launching (leBytes 32 0) tab0)).launchRead 0 (leBytes 32 0) tab0) = none ∧
    caught (exec (.launchAcceptance 0) { launchSt (launching (leBytes 32 0) tab0) with cyc := 3 }) = some (0xB, 0) := by decide

def ended (l : Launch) : Launch := { l with units := l.units.map (fun u => { u with ended := true, triggered := some 5 }) }

theorem test_launch_completes : (ended { launch0 [lunit 0] with tren := false }).unitsDone = true ∧
    (({ st co0 with launches := [ended { launch0 [lunit 0] with tren := false }] } : State).launchBusy 0) = false ∧
    after (exec (.launchComplete 0) { st co0 with launches := [ended { launch0 [lunit 0] with tren := false }] }) (fun t =>
      t.launches.isEmpty && mget 0 (t.core 0).im.sems 1 == 1) = true := by decide

theorem test_launch_trigger_release : (ended (launch0 [lunit 0])).triggered 5 = true ∧
    after (exec (.launchTriggerRelease 0) { st co0 with launches := [ended (launch0 [lunit 0])], cyc := 5 }) (fun t => mget 0 (t.core 0).im.sems 2 == 1) = true ∧
    exec (.launchTriggerRelease 0) { st co0 with launches := [ended (launch0 [lunit 0])], cyc := 4 } = .refused (.notEnabled "LAUNCH_TRIGGER_RELEASE") := by
  refine ⟨by decide, by decide, rfl⟩

/-! ### Boundaries, semaphores and fences -/

theorem test_phase_with_nothing_pending : (st co0).Ready [] ∧ (st co0).nothingPending 0 3 = true ∧ pcAfter (exec (.phase { mgtF with var := 3 }) (st co0)) = some 4 := by decide

theorem test_phase_in_a_timed_segment : caught (exec (.phase { mgtF with var := 3 }) (st (timedCo co0))) = some (0x20, 0) := by decide

/-- One byte pending at physical 5. -/
def pendingByte (co : Core) : Core := { co with ms := { co.ms with pend := [{ pa := 5, b := 7, core := 0, scope := 0, ser := 0, va := 5, origin := 0, ctx := 0 }] } }

theorem test_fence_publishes : (st (pendingByte co0)).nothingPending 0 3 = false ∧
    after (exec (.fenceRel { mgtF with var := 3 }) (st (pendingByte co0))) (fun t => t.mem == [(5, 7)] && t.me.ms.pend.isEmpty && t.me.ms.hold.isSome) = true := by decide

theorem test_acquire_sees_memory : after (exec (.fenceAcq { mgtF with var := 11 }) { st co0 with mem := [(5, 7)] }) (fun t => t.me.ms.snap == [(5, 7)]) = true := by decide

theorem test_boundary_completes : after (exec (.boundaryComplete 0) { st { co0 with ms := { co0.ms with hold := some (.boundary (some 3) (some 3) 9) } } with mem := [(5, 7)], cyc := 9 })
      (fun t => (t.core 0).ms.hold.isNone && (t.core 0).ms.snap == [(5, 7)]) = true ∧
    after (exec (.boundaryComplete 0) { st { co0 with ms := { co0.ms with hold := some (.acqAt 3 9) } } with mem := [(5, 7)], cyc := 9 })
      (fun t => (t.core 0).ms.hold.isNone && (t.core 0).ms.snap == [(5, 7)]) = true := by decide

/-- A semaphore at its greatest value overflows (R262). -/
theorem test_semaphore_increment_applies :
    after (exec (.boundaryComplete 0) { st { imOf (fun im => { im with sems := [(3, 65534)] }) with ms := { co0.ms with semAdds := [{ sem := 3, n := 2, at_ := 9, wide := false, ser := 0 }] } } with
      cyc := 9 }) (fun t => mget 0 (t.core 0).im.sems 3 == 65535 && (t.core 0).im.semov == 8) = true := by decide

def sem3 (n : Nat) : Core := imOf (fun im => { im with sems := [(3, n)] })

theorem test_sacq_takes : (st (sem3 2)).Ready [] ∧
    after (exec (.sacq { mgtF with idx := 3, n := 2, var := 3 }) (st (sem3 2))) (fun t => mget 0 t.me.im.sems 3 == 0 && t.me.ms.hold == some (.acqAt 3 1)) = true ∧
    waits (exec (.sacq { mgtF with idx := 3, n := 3, var := 3 }) (st (sem3 2))) = some (5, 3) := by decide

theorem test_sacq_try_says_whether : flights (exec (.sacqTry { mgtF with idx := 3, n := 3, var := 3, pa := 1 }) (st (sem3 2))) = [(1, .pred .k 1 false)] ∧
    flights (exec (.sacqTry { mgtF with idx := 3, n := 2, var := 3, pa := 1 }) (st (sem3 2))) = [(1, .pred .k 1 true)] := by decide

theorem test_sacq_of_domain_scope_in_a_timed_segment : caught (exec (.sacq { mgtF with idx := 3, n := 2, var := 4 }) (st (timedCo (sem3 2)))) = some (0x20, 0) := by decide

theorem test_srel_releases : after (exec (.srel { mgtF with idx := 3, n := 2, var := 3 }) (st (pendingByte co0))) (fun t =>
    t.me.ms.pend.isEmpty && t.me.ms.semAdds.map (fun a => (a.sem, a.n, a.wide)) == [(3, 2, false)]) = true := by decide

theorem test_memory_semaphore_checks : (st (g1 (tlbd co0) 8)).Ready [1, 2] ∧ caught (exec (.sacqM { mgtF with a := 1, b := 2, pa := 1 }) (st (g1 co0 8))) = some (0xB, 0) ∧
    caught (exec (.sacqM { mgtF with a := 1, b := 2 }) (st (g1 co0 4))) = some (0x40, 0) ∧
    caught (exec (.sacqM { mgtF with a := 1, b := 2 }) (st (timedCo (g1 co0 8)))) = some (0x20, 0) := by decide

/-- K reaches the word at 8 at once. -/
theorem test_sacq_m_reaches : (st (g2 (g1 (tlbd co0) 8) 1)).Reaches 2 8 8 (st (g2 (g1 (tlbd co0) 8) 1)) [{ pa := 8, va := 8, n := 8, stash := false, cached := false }] :=
  ⟨_, [(8, { ctx := 0, vbase := 0, lg := 30, pbase := 0, attr := 15 })], rfl, rfl, rfl⟩

theorem test_sacq_m_at_its_bound : waits (exec (.sacqM { mgtF with a := 1, b := 2, var := 11 }) (st (g2 (g1 (tlbd co0) 8) 1))) = some (5, 0) ∧
    pcAfter (exec (.sacqM { mgtF with a := 1, b := 2, var := 11 }) { st (g2 (g1 (tlbd co0) 8) 1) with mem := [(8, 1)] }) = some 4 := by decide

theorem test_srel_m_adds : after (exec (.srelM { mgtF with a := 1, b := 2, var := 11 }) (st (g2 (g1 (tlbd co0) 8) 1))) (fun t => t.homeNat 8 8 == 1 && t.me.ms.hold.isSome) = true := by decide

/-- Eight incomplete invalidations of all. -/
def invs (n : Nat) : Core := { tlbd co0 with ms := { (tlbd co0).ms with tlbi := List.replicate n { at_ := 4, olds := [], va := none, ctx := 0 } } }

theorem test_tlbinv_drops : (st (invs 7)).Ready [1] ∧ after (exec (.tlbinv { mgtF with a := 1 }) (st (invs 7))) (fun t => t.me.ms.tlb.isEmpty && t.me.ms.tlbi.length == 8) = true ∧
    waits (exec (.tlbinvAll mgtF) (st (invs 8))) = some (0xA, 0) := by decide

theorem test_tlbinv_completes : after (exec (.tlbinvComplete 0) { st (invs 1) with cyc := 4 }) (fun t => (t.core 0).ms.tlbi.isEmpty) = true ∧
    pcAfter (exec (.tlbsync mgtF) (st (invs 0))) = some 4 ∧ waits (exec (.tlbsync mgtF) (st (invs 1))) = some (0xA, 0) := by decide

def load0 : GAcc :=
  { id := 1, kind := 0, dst := some (false, 1), raw := 0x80, nb := 1, sx := 1, va := 5, pa := 5, at_ := 9, ctx := 0, err := none, origin := 0, want := [], todo := none, issue := 0, cached := true, late := [] }
def loadsOut (gs : List GAcc) : Core := { co0 with ms := { co0.ms with gacc := gs } }

theorem test_efence_waits_for_loads : pcAfter (exec (.efence mgtF) (st (loadsOut [{ load0 with kind := 1 }]))) = some 4 ∧
    waits (exec (.efence mgtF) (st (loadsOut [load0]))) = some (0xA, 0) := by decide

theorem test_ltrig : (st (pendingByte co0)).Ready [] ∧ pcAfter (exec (.ltrig mgtF) (st (pendingByte co0))) = some 4 := by decide

/-! ### Loads, stores and atomics -/

def memF : MemF := { d := 0, base := 0, val := 0, disp := 0, size := 0, sx := 0, scope := 0, cv := 0, var := 0 }
def live1 (co : Core) : Core := spad [(254, 0x80), (255, 0xFF), (256, 1), (2047, 9)] (slabbed 1 co)

theorem test_ld_local_sign_extends : (st (live1 co0)).Ready [0] ∧ splitAt 256 254 2 = [(254, 2)] ∧ (st (live1 co0)).me.checkLocal 0 0 254 2 true = none ∧
    flights (exec (.ldLocal { memF with d := 1, disp := 254, size := 1, sx := 1 }) (st (live1 co0))) = [(2, .reg .k 1 0xFFFFFFFFFFFFFF80)] := by decide +kernel

theorem test_ld_local_split_takes_three : splitAt 256 254 4 = [(254, 2), (256, 2)] ∧
    flights (exec (.ldLocal { memF with d := 1, disp := 254, size := 2, var := 1 }) (st (live1 co0))) = [(3, .reg .k 1 0x1FF80)] := by decide +kernel

theorem test_ld_local_checks : caught (exec (.ldLocal { memF with d := 1, disp := 254, size := 2 }) (st (live1 co0))) = some (0x40, 0) ∧
    caught (exec (.ldLocal { memF with d := 1, disp := 2048 }) (st (live1 co0))) = some (0x41, 0) ∧
    (st (live1 co0)).me.checkLocal 0 0 2048 1 true = some (0x41, 1, 2048) := by decide +kernel

theorem test_st_local_posts : (st (live1 (g1 co0 0x1234))).Ready [0, 1] ∧ (st (live1 co0)).claimed 0 2046 2 = false ∧
    after (exec (.stLocal { memF with val := 1, disp := 2046, size := 1 }) (st (live1 (g1 co0 0x1234)))) (fun t =>
      t.me.posted == [.bytes 2046 [0x34, 0x12] false, .zbit 3 false] && t.me.commit.bytes 2046 2 == [0x34, 0x12] && t.me.commit.bytes 2045 1 == [0]) = true := by
  decide +kernel

theorem test_st_local_checks : caught (exec (.stLocalS { memF with val := 1, disp := 2047, size := 1 }) (st (live1 co0))) = some (0x40, 0) ∧
    caught (exec (.stLocalS { memF with val := 1, disp := 2048, size := 1 }) (st (live1 co0))) = some (0x41, 0) := by decide +kernel

/-- A copy of slab 0's first bytes is in progress. -/
def cmd0 : EngCmd :=
  { var := 0, la := 0, a := 0, b := 0, n := 1, sem := 1, start := 0, issue := 0, timed := false, ctx := 0, cmdIdx := 0, begun := none, j := 0, nextAt := 0, fill := false,
    idx := [], buf := [], written := [], wait := .go, seg := 0, launch := 0 }

/-- K reaches the bytes at g1 at once: two lines, where the access splits. -/
theorem test_global_reach_of_two_lines : (st (g1 (tlbd co0) 254)).Reaches 0 254 4
    ((st (g1 (tlbd co0) 254))) [{ pa := 254, va := 254, n := 2, stash := false, cached := false }, { pa := 256, va := 256, n := 2, stash := false, cached := false }] :=
  ⟨_, [(254, { ctx := 0, vbase := 0, lg := 30, pbase := 0, attr := 15 }), (256, { ctx := 0, vbase := 0, lg := 30, pbase := 0, attr := 15 })], rfl, rfl, rfl⟩

theorem test_ld_global_takes_the_snapshot : (st (g1 (tlbd co0) 254)).paKind 254 = .home ∧
    after (exec (.ldGlobal { memF with d := 2, base := 1, size := 2, var := 1 })
      { st { g1 (tlbd co0) 254 with ms := { (tlbd co0).ms with snap := [(254, 1), (257, 2)] } } with mem := [(254, 9)] }) (fun t =>
        t.me.ms.gacc.map (fun g => (g.kind, g.raw, g.dst)) == [(0, 0x02000001, some (false, 2))]) = true := by decide +kernel

theorem test_global_alignment : caught (exec (.ldGlobal { memF with d := 2, base := 1, size := 2 }) (st (g1 (tlbd co0) 254))) = some (0x40, 0) ∧
    caught (exec (.stGlobal { memF with val := 2, base := 1, size := 2 }) (st (g1 (tlbd co0) 254))) = some (0x40, 0) := by decide +kernel

theorem test_st_global_is_pending : after (exec (.stGlobal { memF with val := 2, base := 1, size := 1 }) (st (g2 (g1 (tlbd co0) 8) 0x1234))) (fun t =>
    t.mem.isEmpty && t.me.ms.pend.map (fun w => (w.pa, w.b)) == [(8, 0x34), (9, 0x12)] && t.me.ms.loadByte 9 == 0x12) = true := by decide +kernel

theorem test_refused_load : (st { g1 co0 8 with ms := { co0.ms with tlb := [{ ctx := 0, vbase := 0, lg := 30, pbase := 0x6000000000, attr := 15 }] } }).paKind 0x6000000008 = .refused 0x47 ∧
    after (exec (.ldGlobal { memF with d := 2, base := 1 })
      (st { g1 co0 8 with ms := { co0.ms with tlb := [{ ctx := 0, vbase := 0, lg := 30, pbase := 0x6000000000, attr := 15 }] } })) (fun t =>
        t.me.ms.gacc.map (fun g => g.err) == [some 0x47]) = true := by decide +kernel

/-- The old value and what stands at the word after it, of an atomic on the word at 8, which holds this value. -/
def atomic (i : Instr) (old b : Word) : Option (Nat × Nat) :=
  match exec i { st (g2 (g1 (tlbd co0) 8) b) with mem := memPut [] 8 (leBytes 8 old.toNat) } with
  | .next t => (t.me.ms.gacc.head?).map (fun g => (g.raw, t.homeNat 8 8))
  | _ => none

theorem test_aadd_wraps_its_size : (st (g2 (g1 (tlbd co0) 8) 1)).Ready [1, 2] ∧
    atomic (.aadd { memF with d := 3, base := 1, val := 2, size := 2, scope := 3 }) 0x5FFFFFFFF 1 = some (0xFFFFFFFF, 0x500000000) := by decide +kernel

theorem test_amin_amax_by_sign : atomic (.amin { memF with d := 3, base := 1, val := 2, size := 3, scope := 3 }) 5 (-1) = some (5, 2 ^ 64 - 1) ∧
    atomic (.amin { memF with d := 3, base := 1, val := 2, size := 3, scope := 3, var := 4 }) 5 (-1) = some (5, 5) ∧
    atomic (.amax { memF with d := 3, base := 1, val := 2, size := 3, scope := 3 }) 5 (-1) = some (5, 5) := by decide +kernel

theorem test_acas_and_others : atomic (.acas { memF with d := 3, base := 1, val := 2, cv := 2, size := 3, scope := 3 }) 6 6 = some (6, 6) ∧
    atomic (.aswap { memF with d := 3, base := 1, val := 2, size := 3, scope := 3 }) 6 9 = some (6, 9) ∧
    atomic (.aand { memF with d := 3, base := 1, val := 2, size := 3, scope := 3 }) 6 3 = some (6, 2) ∧
    atomic (.aor { memF with d := 3, base := 1, val := 2, size := 3, scope := 3 }) 6 3 = some (6, 7) ∧
    atomic (.ramo { memF with d := 3, base := 1, size := 3, scope := 3 }) 6 3 = some (6, 6) ∧
    caught (exec (.aadd { memF with base := 1, val := 2, size := 3 }) (st (g1 (tlbd co0) 4))) = some (0x40, 0) := by decide +kernel

theorem test_atomic_release_publishes : after (exec (.aadd { memF with d := 3, base := 1, val := 2, size := 3, scope := 3, var := 3 }) (st (g2 (g1 (tlbd (pendingByte co0)) 8) 1))) (fun t =>
    t.me.ms.pend.isEmpty && t.homeByte 5 == 7 && (match t.me.ms.hold with
      | some (.response _ (some 3)) => true
      | _ => false)) = true := by decide +kernel

theorem test_load_returns_extended : (loadsOut [load0]).returning 9 [0, 1] false = some load0 ∧ load0.free = true ∧
    after (exec (.globalAccessResponse 0) { st (loadsOut [load0]) with cyc := 9 }) (fun t =>
      t.me.im.flight.map (fun x => (x.due, x.fx)) == [(0, .reg .k 1 0xFFFFFFFFFFFFFF80)] && t.me.ms.gacc.isEmpty) = true := by
  decide +kernel

theorem test_atomic_returns : (loadsOut [{ load0 with kind := 2, nb := 8 }]).returning 9 [2] false = some { load0 with kind := 2, nb := 8 } ∧
    after (exec (.atomicResponse 0) { st (loadsOut [{ load0 with kind := 2, nb := 8 }]) with cyc := 9 }) (fun t =>
      t.me.im.flight.map (fun x => x.fx) == [.reg .k 1 0x80]) = true := by decide +kernel

theorem test_refused_access_returns_zero : (loadsOut [{ load0 with err := some 0x47 }]).returning 9 [0, 2] true = some { load0 with err := some 0x47 } ∧
    after (exec (.errorResponse 0) { st (g1 (loadsOut [{ load0 with err := some 0x47 }]) 5) with cyc := 9 }) (fun t =>
      t.me.im.flight.map (fun x => x.fx) == [.reg .k 1 0] && t.me.im.perr.map (fun e => e.cause) == some 0x47) = true := by decide +kernel

/-! ### Slabs -/

def movF : MovF := { la := 0, a := 0, b := 0, n := 0, ag := 0, type := 0, sem := 0, start := 0, var := 0 }

theorem test_salloc_claims : (st co0).Ready [] ∧ (st co0).me.slab 3071 = Slab.init ∧
    flights (exec (.salloc { movF with la := 0x5FF800, n := 1, a := 1 }) (st co0)) = [(1, .slabs 0 3071 1), (1, .reg .k 1 (0x5FF800 + 2 ^ 23))] ∧
    caught (exec (.salloc { movF with la := 0x5FF800, n := 2 }) (st co0)) = some (0x41, 0) ∧ caught (exec (.salloc { movF with la := 1024, n := 1 }) (st co0)) = some (0x40, 0) := by
  decide +kernel

theorem test_salloc_of_a_slab_taken :
    caught (exec (.salloc { movF with n := 2 }) (st { co0 with slabs := [(1, { kind := .live, owner := 5, born := true, stamp := 0 })] })) = some (0x44, 0) ∧
    caught (exec (.sallocZ { movF with n := 2 }) (st { co0 with slabs := [(1, { kind := .live, owner := 5, born := true, stamp := 0 })] })) = some (0x44, 0) := by decide +kernel

theorem test_salloc_z_queues_a_fill : flights (exec (.sallocZ movF) (st co0)) = [(2, .sem 0 1)] ∧
    after (exec (.sallocZ { movF with n := 1, start := 2, sem := 4 }) (st (timedCo co0))) (fun t => t.me.units.renew.map (fun e => (e.fill, e.n, e.sem)) == [(true, 1, 4)]) = true ∧
    caught (exec (.sallocZ { movF with n := 1, start := 1 }) (st (timedCo co0))) = some (0x25, 0) := by decide +kernel

theorem test_sfree_frees : (st (slabbed 2 co0)).slabRun { movF with n := 2 } = some (0, 2) ∧ (st (slabbed 2 co0)).addressed 0 0 2 = false ∧
    flights (exec (.sfree { movF with n := 2 }) (st (slabbed 2 co0))) = [(1, .slabs 1 0 2)] ∧ caught (exec (.sfree { movF with n := 3 }) (st (slabbed 2 co0))) = some (0x41, 0) ∧
    waits (exec (.sfree { movF with n := 2 }) (st { slabbed 2 co0 with units := { co0.units with renew := [cmd0] } })) = some (6, 0) := by decide +kernel

theorem test_sfree_by_descriptor : (st (g1 (slabbed 2 co0) (2048 + 2 ^ 23))).slabRun { movF with b := 1, var := 2 } = some (2048, 1) ∧
    flights (exec (.sfreeDesc { movF with b := 1, var := 2 }) (st (g1 (slabbed 2 co0) (2048 + 2 ^ 23)))) = [(1, .slabs 1 1 1)] := by decide +kernel

theorem test_renew_queues : flights (exec (.renew { movF with sem := 3 }) (st co0)) = [(2, .sem 3 1)] ∧
    after (exec (.renew { movF with n := 2 }) (st (slabbed 2 co0))) (fun t => t.me.units.renew.map (fun e => (e.fill, e.n)) == [(false, 2)]) = true ∧
    caught (exec (.renew { movF with n := 3 }) (st (slabbed 2 co0))) = some (0x41, 0) ∧ caught (exec (.renew { movF with n := 2 }) (st (timedCo (slabbed 2 co0)))) = some (0x25, 0) := by
  decide +kernel

/-- The renew unit with one command. -/
def renewing (e : EngCmd) (n : Nat) : Core := { slabbed n co0 with units := { co0.units with renew := [e] } }

theorem test_renew_begins_and_stamps : (renewing cmd0 1).lateStart [cmd0] 2 = none ∧ (renewing cmd0 1).begins cmd0 2 = true ∧ (renewing cmd0 1).renewFault cmd0 0 = none ∧
    after (exec (.renewUnitCommand 0) { st (renewing cmd0 1) with cyc := 2 }) (fun t => t.me.units.renew.map (fun e => (e.begun, e.j, e.nextAt)) == [(some 2, 1, 3)]) = true ∧
    after (exec (.renewUnitCommand 0) { st (renewing { cmd0 with begun := some 2, j := 15, nextAt := 17 } 1) with cyc := 17 }) (fun t => t.me.posted == [.stamp 0 0]) = true := by
  decide +kernel

theorem test_renew_of_a_slab_gone : (renewing cmd0 0).renewFault cmd0 0 = some (0x41, 0) ∧
    after (exec (.renewUnitCommand 0) { st (renewing cmd0 0) with cyc := 2 }) (fun t => t.me.units.renew.isEmpty) = true := by decide +kernel

theorem test_renew_completes : after (exec (.renewUnitComplete 0) { st (renewing { cmd0 with begun := some 2, j := 16, nextAt := 18 } 1) with cyc := 18 }) (fun t =>
    t.me.units.renew.isEmpty && mget 0 t.me.im.sems 1 == 1) = true := by decide +kernel

def window (ents : Map StashEnt) (missing : List Nat) (closing : Option (Nat × Nat)) : Stash :=
  { base := 0, n := 2, ctx := 0, ents := ents, order := 5, closing := closing, missing := missing }
def stashed (s : Stash) : Core := { co0 with windows := [(0, s)], slabs := (upTo 0 3).map (fun i => (i, { kind := if i < 2 then .stash else .live, owner := 0, born := true, stamp := 0 })) }

theorem test_stash_opens : flights (exec (.stash { movF with n := 2 }) (st (slabbed 2 co0))) = [(1, .slabs 2 0 2)] ∧
    caught (exec (.stash { movF with la := 1024, n := 2 }) (st (slabbed 2 co0))) = some (0x40, 0) := by decide +kernel

theorem test_stash_close_begins : flights (exec (.stashClose { movF with sem := 2 }) (st co0)) = [(2, .sem 2 1)] ∧ caught (exec (.stashClose movF) (st (timedCo co0))) = some (0x20, 0) ∧
    after (exec (.stashClose { movF with sem := 2 }) (st (stashed (window [] [] none)))) (fun t =>
      (t.me.stash.bind (fun s => s.closing)).map (fun x => x.1) == some 2) = true := by decide +kernel

theorem test_stash_closes : after (exec (.stashCloseComplete 0) { st (stashed (window [] [] (some (2, 7)))) with cyc := 7 }) (fun t =>
    t.me.stash.isNone && (t.me.slab 1).kind == .live && !(t.me.slab 1).born && (t.me.slab 2).born && mget 0 t.me.im.sems 2 == 1) = true := by decide +kernel

theorem test_stash_fills_and_expires : after (exec (.stashMissFill 0) (st (stashed (window [] [256] none)))) (fun t =>
      (t.me.stash.map (fun s => (s.missing, s.ents.map (fun e => e.2.va)))) == some ([], [256])) = true ∧
    after (exec (.stashEntryExpire 0 0) { st (stashed (window [(0, { va := 256, ts := 0, order := 1, dirty := 0 })] [] none)) with cyc := 256 * 1875 }) (fun t =>
      (t.me.stash.map (fun s => s.ents)) == some []) = true := by decide +kernel

/-- Slab 4, of this kind, was stamped at time-step 0. -/
def aging (k : SlabKind) : Core := { co0 with slabs := [(4, { kind := k, owner := 0, born := true, stamp := 0 })] }

theorem test_sweeper_renews_a_ring : after (exec (.sweepRingRenew 0 4) { st (aging .ring) with cyc := 256 * 1619 }) (fun t => (t.me.slab 4).stamp == 1619) = true ∧
    exec (.sweepRingRenew 0 4) { st (aging .ring) with cyc := 256 * 1618 } = .refused (.notEnabled "SWEEP_RING_RENEW") := ⟨by decide +kernel, rfl⟩

theorem test_sweeper_renews_frozen_slabs : after (exec (.sweepFrozenSlabRenew 0 4) { st (aging .live) with cyc := 256 * 1875, wires := [{ ctx := 0, cores := [0], f := 0, u := none, recs := [] }] }) (fun t =>
    (t.me.slab 4).stamp == 1875) = true := by decide +kernel

theorem test_sweeper_marks_lost : after (exec (.sweepMarkLost 0 4) { st { aging .live with ctx := 3 } with cyc := 256 * 1876 }) (fun t => (t.me.slab 4).kind == .lost) = true ∧
    exec (.sweepMarkLost 0 4) { st { aging .live with ctx := 3 } with cyc := 256 * 1875 } = .refused (.notEnabled "SWEEP_MARK_LOST") := ⟨by decide +kernel, rfl⟩

theorem test_sweeper_writes_back : after (exec (.sweepStashWriteback 0 0) { st (stashed (window [(0, { va := 256, ts := 0, order := 1, dirty := 3 })] [] none)) with cyc := 256 * 1619 })
    (fun t => (t.me.stash.map (fun s => s.ents.map (fun e => e.2.dirty))) == some [0]) = true := by decide +kernel

/-! ### Words of the manual -/

/-- The template is decoded, in the table of this class, as this instruction. -/
def reads (cls : Seq) (b : Template) (i : Instr) : Bool :=
  match decodeTemplate cls b with
  | .ok j => decide (j = i)
  | .error _ => false

/-- Why a template is rejected. -/
def rejected (cls : Seq) (b : Template) : Option Reject :=
  match decodeTemplate cls b with
  | .ok _ => none
  | .error r => some r

def vecF : VecF := { d := 0, a := 0, b := 0, c := 0, type := 0, type2 := 0, rnd := 0, p := 0, imm := 0, var := 0 }
def engF : EngF := { a := 0, b := 0, c := 0, d := 0, sem := 0, q := 0, ep := 0, start := 0, var := 0 }
def mtxF : MtxF :=
  { tile := 0, a := 0, b := 0, kg := 0, fa := 0, fb := 0, prec := 0, zfh := 0, gam := 0, place := 0, sp := 0, isat := 0, n := 0, var := 0 }
def agnF : AgnF := { ag := 0, base := 0, lv := 0, cr := 0, sr := 0, port := 0, var := 0 }
def stoF : StoF := { port := 0, la := 0, a := 0, n := 0, type := 0, q := 0, var := 0 }

/-- The templates of the manual in the REG format: the example of R36, that of R54 and Table 4-4. -/
theorem test_words_of_reg : reads .k 0x3C800000000000000000000000002108 (.add { regF with d := 8, a := 8, b := 8 }) = true ∧
    reads .k 0x3D800000000000000109000000003160 (.cmp { regF with a := 11, b := 12, var := 2, pa := 1, pb := 2 }) = true ∧
    reads .k 0x3C000000000000000000000000028008 (.li { regF with d := 8, imm := 5 }) = true ∧
    reads .k 0x3C80000000000000000000000000250A (.add { regF with d := 10, a := 8, b := 9 }) = true := by decide +kernel

/-- R59 and R103: the CTL format, and tokens of two classes. -/
theorem test_words_of_ctl_and_tokens : reads .k 0x08800000000000002000000000000000 (.entry { ctlF with frame := 1 }) = true ∧
    reads .k 0x3F000000000000000000001000000000 (.tkput { mgtF with n := 1 }) = true ∧
    reads .l 0x7F100000000000000000001010000000 (.tkput { mgtF with idx := 1, n := 1 }) = true ∧
    reads .k 0x3F800000000000000000000000000000 (.halt mgtF) = true := by decide +kernel

/-- Chapters 11, 12, 13, 17 and 21: boundaries, invalidation, semaphores, traps. -/
theorem test_words_of_mgt : reads .k 0x0E800000000000000030000000000000 (.phase { mgtF with var := 3 }) = true ∧
    reads .k 0x0EC00000000000000030000000000000 (.fenceRel { mgtF with var := 3 }) = true ∧ reads .k 0x0EC000000000000000B0000000000000 (.fenceAcq { mgtF with var := 11 }) = true ∧
    reads .k 0x11400000000000000000000000000160 (.tlbinv { mgtF with a := 11 }) = true ∧ reads .k 0x11400000000000000010000000000000 (.tlbinvAll { mgtF with var := 1 }) = true ∧
    reads .k 0x11800000000000000000000000000000 (.tlbsync mgtF) = true ∧ reads .k 0x0F400000000000000030001050000000 (.sacq { mgtF with idx := 5, n := 1, var := 3 }) = true ∧
    reads .k 0x0F000000000000000000000000000000 (.efence mgtF) = true ∧ reads .k 0x0FC00000000000000000005000000000 (.trap { mgtF with n := 5 }) = true ∧
    reads .k 0x0F8000000000000000B00000000011E0 (.srelM { mgtF with a := 15, b := 4, var := 11 }) = true ∧
    reads .k 0x0F4000000000000000B00000000041E0 (.sacqM { mgtF with a := 15, b := 16, var := 11 }) = true := by decide +kernel

/-- Chapters 21 and 22: the journal. -/
theorem test_words_of_the_journal : reads .k 0x11000000000000000000000000000200 (.jrnlSeq { mgtF with a := 16 }) = true ∧
    reads .k 0x11000000000000000010000000000200 (.jrnlGen { mgtF with a := 16, var := 1 }) = true ∧
    reads .k 0x11000000000000000020000000000207 (.jrnlTok { mgtF with d := 7, a := 16, var := 2 }) = true ∧
    reads .k 0x1100000000000000003000000000020F (.jrnlRt { mgtF with d := 15, a := 16, var := 3 }) = true ∧
    reads .k 0x11000000000000000040000000000200 (.jrnlApp { mgtF with a := 16, var := 4 }) = true ∧
    reads .k 0x11000000000000000060000000000200 (.jrnlRep { mgtF with a := 16, var := 6 }) = true ∧
    (reads .k 0x11040000000000000050000000012920 (.jrnlCkpt { mgtF with a := 9, b := 10, c := 2, var := 5 }) && guardOf 0x11040000000000000050000000012920 == 4) = true ∧
    reads .k 0x1000000000000000000000000000300D (.gdraw { mgtF with d := 13, b := 12 }) = true ∧
    reads .k 0x10C00000000000000000000010000280 (.emit { mgtF with a := 20, idx := 1 }) = true := by decide +kernel

/-- Chapters 10, 11 and 13: the MEM and MOV formats. -/
theorem test_words_of_mem_and_mov : reads .k 0x14400000000000000401000007FF0009 (.ldLocal { memF with d := 9, disp := 0xFFE, size := 2, var := 1 }) = true ∧
    reads .k 0x1500000000000000040D8000000025AA (.aadd { memF with d := 10, base := 13, val := 9, size := 3, scope := 3, var := 1 }) = true ∧
    reads .l 0x41900000004000000500000202801000 (.sallocZ { movF with la := 0x1000, a := 5, n := 1, sem := 5, var := 1 }) = true ∧
    reads .l 0x40D00000008000000300000020801000 (.cpyLl { movF with la := 0x1000, a := 1, b := 2, sem := 3, var := 2 }) = true ∧
    reads .l 0x40D00000004000000400000021800800 (.cpyOut { movF with la := 0x800, a := 3, b := 2, sem := 4, var := 1 }) = true ∧
    reads .l 0x40D00000000000000100000030800000 (.cpyIn { movF with a := 1, b := 3, sem := 1 }) = true ∧
    reads .l 0x41100000000000000200000420810800 (.plane { movF with la := 0x10800, a := 1, b := 2, n := 2, sem := 2 }) = true ∧
    reads .l 0x40100000000000000000000620008000 (.agset { agnF with base := 0x1000, cr := 2, sr := 3 }) = true := by decide +kernel

/-- Chapters 7 to 9: the VEC format. -/
theorem test_words_of_vec : reads .c 0x80200000000000000000000000106004 (.vadd { vecF with d := 4, a := 0x40, b := 0x41 }) = true ∧
    reads .c 0x80A000000000000000000000001A7481 (.vmul { vecF with d := 1, a := 0x69, b := 0x69 }) = true ∧
    reads .c 0x80E00000000000002000000000608084 (.vfma { vecF with d := 4, a := 1, b := 2, c := 3, var := 8 }) = true ∧
    reads .c 0x80E0000000000000000000000C00C0E6 (.vfma { vecF with d := 0x66, a := 1, b := 3, c := 0x60 }) = true ∧
    reads .c 0x862000000000000010000000900810A2 (.vperm { vecF with d := 0x22, a := 0x21, b := 0x20, type := 9, var := 4 }) = true ∧
    reads .c 0x85E00000000000001000000090000221 (.vxm { vecF with d := 0x21, a := 4, type := 9, var := 4 }) = true := by decide +kernel

/-- Chapters 8, 16 and 19: the MTX format. -/
theorem test_words_of_mtx : reads .c 0x90200000020000000000000000000000 (.lease { mtxF with n := 2 }) = true ∧
    reads .c 0x90A00000000021044004014000000001 (.mma { mtxF with tile := 1, b := 0x2800, kg := 1, fa := 1, fb := 1, prec := 4, zfh := 4 }) = true ∧
    reads .c 0x90A0000000002004001010C000108000 (.mma { mtxF with a := 0x10800, b := 0x21800, kg := 4, fb := 1, zfh := 4 }) = true ∧
    reads .c 0x90A000000000D8044004048000000001 (.mma { mtxF with tile := 1, b := 0x9000, kg := 1, fa := 1, fb := 1, zfh := 3, gam := 3 }) = true ∧
    reads .c 0x91E00000000000000000000000100001 (.aret { mtxF with tile := 1, a := 0x10000 }) = true ∧
    reads .c 0x91E000120000000000000000002D0002 (.aret { mtxF with tile := 2, a := 0x2D000, var := 9 }) = true := by decide +kernel

/-- Chapters 14 to 16 and 20: the ENG format. -/
theorem test_words_of_eng : reads .k 0x19000000000000000000000040262D49 (.pool { engF with a := 9, b := 10, c := 11, d := 12, sem := 2, ep := 1 }) = true ∧
    reads .k 0x19400000000000000000000004662D49 (.supd { engF with a := 9, b := 10, c := 11, d := 12, sem := 6, q := 1 }) = true ∧
    reads .k 0x19800000000000000000000008762D49 (.nmc { engF with a := 9, b := 10, c := 11, d := 12, sem := 7, q := 2 }) = true ∧
    reads .k 0x19800000000000020000000008762D49 (.nmc { engF with a := 9, b := 10, c := 11, d := 12, sem := 7, q := 2, var := 8 }) = true ∧
    reads .k 0x19C0000000000000400000000C862D49 (.xchRed { engF with a := 9, b := 10, c := 11, d := 12, sem := 8, q := 3, var := 1 }) = true := by decide +kernel

/-- The STO format, from Tables 2-20 and 2-21 bit by bit: `vst pt6, 3`, and `aret.w acc5`. -/
theorem test_words_of_sto : reads .s (3#2 ++ 0x00#8 ++ 3#2 ++ 0#5 ++ 0#7 ++ 0#53 ++ 0#4 ++ 0#4 ++ 0#4 ++ 3#8 ++ 0#5 ++ 0#23 ++ 6#3) (.vst { stoF with port := 6, n := 3 }) = true ∧
    reads .s (3#2 ++ 0x02#8 ++ 3#2 ++ 0#5 ++ 0#7 ++ 0#53 ++ 0#4 ++ 0#4 ++ 0#4 ++ 5#8 ++ 0#5 ++ 0#23 ++ 0#3) (.aretW { stoF with n := 5 }) = true := by decide +kernel

/-! ### Ill-formed terms, one for each check -/

/-- Every check of WellFormed refuses a term (R37 to R40, R49): a register code beyond a class's, a local address, vector source and destination codes, cluster selection, types,
formats and values of single instructions. -/
theorem test_register_codes_are_checked : wellFormed .l (.mov { regF with d := 16 }) = false ∧ wellFormed .k (.mov { regF with d := 16 }) = true ∧
    wellFormed .l (.br { ctlF with a := 16 }) = false ∧ wellFormed .l (.tkput { mgtF with a := 16 }) = false ∧ wellFormed .s (.stLocalS { memF with val := 16 }) = false ∧
    wellFormed .l (.agset { agnF with cr := 16 }) = false ∧ wellFormed .l (.plane { movF with a := 16 }) = false ∧ wellFormed .c (.mma { mtxF with gam := 16, kg := 1 }) = false ∧
    wellFormed .s (.qpush { stoF with a := 16, n := 1 }) = false := by decide +kernel

theorem test_local_addresses_are_checked : wellFormed .l (.salloc { movF with la := 0x600000 }) = false ∧ wellFormed .l (.salloc { movF with la := 0x5FFFFF }) = true ∧
    wellFormed .l (.agset { agnF with base := 0x600000 }) = false ∧ wellFormed .c (.amz { mtxF with a := 0x600000 }) = false ∧
    wellFormed .s (.qpush { stoF with la := 0x600000 }) = false := by decide +kernel

theorem test_vector_codes_are_checked : wellFormed .c (.vadd { vecF with a := 0x66 }) = false ∧ wellFormed .c (.vadd { vecF with b := 0x78 }) = false ∧
    wellFormed .c (.vadd { vecF with d := 0x40 }) = false ∧ wellFormed .c (.vadd { vecF with d := 0x7F }) = true ∧ wellFormed .c (.vadd { vecF with var := 12 }) = false := by
  decide +kernel

theorem test_vector_types_are_checked : wellFormed .c (.vadd { vecF with type := 7 }) = false ∧ wellFormed .c (.vrcp { vecF with type := 5 }) = false ∧
    wellFormed .c (.vcmp { vecF with imm := 6, type := 5 }) = false ∧ wellFormed .c (.vperm { vecF with type := 8 }) = false := by decide +kernel

theorem test_matrix_fields_are_checked : wellFormed .c (.mma { mtxF with fa := 1, prec := 9 }) = false ∧ wellFormed .c (.mma { mtxF with fa := 1, prec := 8 }) = true := by decide +kernel

theorem test_classes_are_checked : wellFormed .l (.aadd memF) = false ∧ wellFormed .k (.vadd vecF) = false ∧ wellFormed .s (.mma mtxF) = false ∧ wellFormed .k (.resultDue 0) = false := by
  decide +kernel

theorem test_variants_are_checked : wellFormed .k (.cmp { regF with var := 10 }) = false ∧ wellFormed .k (.add { regF with var := 3 }) = false ∧ wellFormed .k (.min { regF with var := 2 }) = false ∧
    wellFormed .k (.tkput { mgtF with idx := 8 }) = false ∧ wellFormed .k (.tkput { mgtF with n := 256 }) = false ∧ wellFormed .k (.fenceRel { mgtF with var := 5 }) = false ∧
    wellFormed .k (.emit { mgtF with idx := 64 }) = false ∧ wellFormed .s (.vst { stoF with port := 5 }) = false ∧ wellFormed .k (.ldLocal { memF with size := 3, var := 2 }) = false := by
  decide +kernel

theorem test_templates_are_rejected_by_reason : rejected .k 0x7C000000000000000000000000000000 = some .wrongClass ∧ rejected .k 0x1FC00000000000000000000000000000 = some .reservedOpcode ∧
    rejected .k 0x3C000100000000000000000000000000 = some .headerRsv ∧ rejected .k 0x3C000000000000000800000000000000 = some .formatRsv ∧
    rejected .k 0x3D800000000000000005000000000000 = some .fieldValue := by decide +kernel

/-! ### Vector instructions -/

/-- Cluster vectors: x1, x2 in X, y1 in Y, and ports. -/
def vecs (x1 x2 : Nat) (ports : List (Nat × List Vec)) : Core :=
  imOf (fun im => { im with vec := { im.vec with regs := [(1, BitVec.ofNat 2048 x1), (2, BitVec.ofNat 2048 x2), (33, 7)], ports := ports } })

theorem test_vadd_wraps_each_element : (st (vecs (2 ^ 31 + 5 * 2 ^ 32) (2 ^ 31 + 2 ^ 32) []) .c).Ready [] ∧
    flights (exec (.vadd { vecF with d := 3, a := 1, b := 2, type := 5 }) (st (vecs (2 ^ 31 + 5 * 2 ^ 32) (2 ^ 31 + 2 ^ 32) []) .c)) =
      [(1, .vec false (some 3) none true (6 * 2 ^ 32) 0)] := by decide +kernel

theorem test_vadd_dual_of_a_port : flights (exec (.vadd { vecF with d := 0x7F, a := 0x60, b := 1, type := 6, var := 8 }) (st (vecs 3 0 [(0, [0xFF, 0x80])]) .c)) =
      [(1, .vec false none none true 2 0), (1, .vec true none none true 0x87 0)] ∧
    after (exec (.vadd { vecF with d := 0x7F, a := 0x60, b := 1, type := 6, var := 8 }) (st (vecs 3 0 [(0, [0xFF, 0x80])]) .c)) (fun t =>
      mget [] t.me.im.vec.ports 0 == []) = true := by decide +kernel

theorem test_vector_codes_ports_and_fence : caught (exec (.vadd { vecF with d := 0x20, a := 1, b := 2, type := 5 }) (st (vecs 0 0 []) .c)) = some (0xB, 0) ∧
    waits (exec (.vadd { vecF with d := 3, a := 0x60, b := 0x60, type := 5 }) (st (vecs 0 0 [(0, [1])]) .c)) .c = some (4, 0) ∧
    waits (exec (.vadd { vecF with d := 0x66, a := 1, b := 2, type := 5 }) (st (vecs 0 0 [(6, List.replicate 16 0)]) .c)) .c = some (4, 6) ∧
    caught (exec (.vadd { vecF with d := 3, a := 1, b := 2, type := 5 }) { st (vecs 0 0 []) .c with fenced := [32] }) = some (0x86, 0) := by decide +kernel

theorem test_vcmp_of_all_elements : (flights (exec (.vcmp { vecF with d := 4, a := 1, b := 2, type := 5, p := 2 }) (st (vecs 0 0 []) .c))).filterMap
    (fun x => match x.2 with
      | .pred q p v => some (x.1, q, p, v)
      | _ => none) = [(2, .c, 2, true)] ∧ vecRow (.vcmp { vecF with d := 4, a := 1, b := 2, type := 5, p := 2 }) ≠ none := by
  refine ⟨by decide +kernel, by simp [vecRow]⟩

/-- R156: an element that leaves the format wraps, and with var[0] saturates. -/
theorem test_vector_integers : velem 8 (vArith .sub { vecF with type := 6 } 0x80 1 0).1 0 = 0x7F ∧
    velem 8 (vArith .sub { vecF with type := 6, var := 1 } 0x80 1 0).1 0 = 0x80 ∧
    velem 32 (vArith .fma { vecF with type := 5 } (3 * 2 ^ 2016) (5 * 2 ^ 2016) (2 ^ 2016)).1 63 = 16 ∧
    velem 8 (vShift 1 { vecF with type := 6 } 0x80 7).1 0 = 1 ∧ velem 8 (vShift 1 { vecF with type := 6 } 0x80 8).1 0 = 0 ∧
    velem 8 (vPermute { vecF with type := 6 } (9 * 2 ^ 2040) 0xFF).1 0 = 9 ∧ velem 32 (vPermute { vecF with type := 5 } 9 64).1 0 = 0 := by decide +kernel

/-! ### Generators, ports and cross moves -/

def gen (p : Nat) (cs : List Nat) (ss : List Int) : AgSt := { base := 0, levels := cs.length, counts := cs, strides := ss, idx := cs.map (fun _ => 0), port := some p }
def gens (co : Core) (ags : Map AgSt) (ports : List (Nat × List Vec)) : Core := { co with im := { co.im with vec := { co.im.vec with ags := ags, ports := ports } } }

theorem test_agset_next_cycle : (st (g2 (g1 co0 0x00020003) 0xFFFF0100) .l).Ready [1, 2] ∧
    flights (exec (.agset { agnF with ag := 2, base := 0x40, lv := 1, cr := 1, sr := 2, port := 3 })
      { st (imOf (fun im => { im with l := { im.l with regs := (im.l.regs.set! 1 0x00020003).set! 2 0xFFFF0100 } })) .l with cyc := 9 }) =
      [(1, .agset 2 { base := 0x40, levels := 2, counts := [3, 2], strides := [256, -1], idx := [0, 0], port := some 3 })] ∧
    caught (exec (.agset { agnF with ag := 2, lv := 1, cr := 1, sr := 2 }) (st (imOf (fun im => { im with l := { im.l with regs := im.l.regs.set! 1 3 } })) .l)) = some (0xB, 0) := by
  decide +kernel

theorem test_vld_walks_its_generator : (st (gens (slabbed 2 co0) [(1, gen 2 [2, 2] [64, 256])] []) .l).Ready [] ∧
    after (exec (.vld { movF with ag := 1, n := 3 }) (st (gens (slabbed 2 co0) [(1, gen 2 [2, 2] [64, 256])] []) .l)) (fun t =>
      t.me.im.vec.vlds.map (fun x => (x.la, x.at_, x.enter, x.port)) == [(0, 0, 5, 2), (256, 1, 6, 2), (1024, 2, 7, 2)] && t.me.im.vec.vldNext == 3 &&
        (mget AgSt.init t.me.im.vec.ags 1).idx == [1, 1]) = true := by decide +kernel

theorem test_vld_stops : waits (exec (.vld { movF with ag := 1, n := 1 }) (st (gens (slabbed 2 co0) [(1, gen 2 [2] [64])] [(2, List.replicate 16 0)]) .l)) .l = some (4, 2) ∧
    caught (exec (.vld { movF with ag := 1, n := 1 }) (st (gens (slabbed 2 co0) [(1, gen 6 [2] [256])] []) .l)) = some (0xB, 0) ∧
    pcAfter (exec (.vld { movF with ag := 1, n := 0 }) (st co0 .l)) .l = some 4 ∧
    caught (exec (.vldUb { movF with ag := 1, n := 1 }) (st (gens (slabbed 2 co0) [(1, { gen 2 [2] [64] with base := 2 })] []) .l)) = some (0x40, 0) ∧
    after (exec (.vldUb { movF with ag := 1, n := 1 }) (st (gens (slabbed 3 co0) [(1, { gen 2 [2] [64] with base := 4 })] []) .l)) (fun t =>
      t.me.im.vec.vlds.map (fun x => (x.la, x.enter)) == [(4, 6)]) = true := by decide +kernel

theorem test_vst_takes_from_its_port : (st (gens (slabbed 1 co0) [(1, gen 6 [8] [64])] [(6, [5, 6, 7])]) .s).Ready [] ∧
    after (exec (.vst { stoF with port := 6, n := 2 }) (st (gens (slabbed 1 co0) [(1, gen 6 [8] [64])] [(6, [5, 6, 7])]) .s)) (fun t =>
      t.me.im.vec.vsts.map (fun x => (x.la, x.at_, x.v)) == [(0, 1, 5), (256, 2, 6)] && mget [] t.me.im.vec.ports 6 == [7]) = true ∧
    waits (exec (.vst { stoF with port := 6, n := 4 }) (st (gens (slabbed 1 co0) [(1, gen 6 [8] [64])] [(6, [5, 6, 7])]) .s)) .s = some (4, 6) ∧
    caught (exec (.vst { stoF with port := 6, n := 1 }) (st (gens (slabbed 1 co0) [] [(6, [5])]) .s)) = some (0xB, 0) ∧
    pcAfter (exec (.vst { stoF with port := 6, n := 0 }) (st co0 .s)) .s = some 4 := by decide +kernel

theorem test_vxm_crosses : flights (exec (.vxm { vecF with d := 0x21, a := 1, type := 9, var := 4 }) (st (vecs 9 0 []) .c)) =
      [(2, .vec true (some 33) none true 9 0)] ∧
    caught (exec (.vxm { vecF with d := 1, a := 1, type := 9, var := 4 }) (st (vecs 9 0 []) .c)) = some (0xB, 0) := by decide +kernel

/-! ### Results falling due -/

/-- R19, R20: of two results for g1 due now the one issued last remains; one due later stays in flight. -/
theorem test_results_due : (imOf (fun im => { im with flight := [⟨0, 0, 0, .k, .reg .k 1 5⟩, ⟨0, 0, 1, .k, .reg .k 1 6⟩, ⟨1, 0, 0, .k, .reg .k 1 7⟩] })).counting 0 = true ∧
    after (exec (.resultDue 0) (st (imOf (fun im => { im with flight := [⟨0, 0, 0, .k, .reg .k 1 5⟩, ⟨0, 0, 1, .k, .reg .k 1 6⟩, ⟨1, 0, 0, .k, .reg .k 1 7⟩] })))) (fun t =>
      (t.core 0).im.k.regs.toList.getD 1 0 == 6 && (t.core 0).im.flight == [⟨1, 0, 0, .k, .reg .k 1 7⟩]) = true := by decide +kernel

theorem test_nothing_due : exec (.resultDue 0) (st co0) = .refused (.notEnabled "RESULT_DUE") := rfl

theorem test_waiting_group_is_tried : after (exec (.waitingGroupIssue 0 .k) (st (kOf (fun k => { k with halted := none, waiting := some ⟨1, 0, 0⟩, tried := some 3 })))) (fun t =>
    (t.core 0).im.k.waiting == none) = true := by decide +kernel

/-! ### Matrix arrays -/

def arrSt (co : Core) (a : ArrSt) : State := { st co .c with arrays := [(0, a)] }
def leased (n : Nat) : ArrSt := { ArrSt.init with holder := some 0, count := some n }
def arrCmd (i : Instr) : ArrCmd :=
  { op := i, gam := 0, core := 0, ctx := 0, issue := 0, timed := false, cmdIdx := 0, seg := 0, b := none, g := 0, rAt := 0, e := none, flags := 0,
    wrec := [], touched := false, notBefore := 0, xfer := false, bankAt := 0, part := [], wts := [], scl := [], wait := .go, det := false }
/-- Of the quad's array, the head command. -/
def head (o : Host.Outcome State Fault Refusal) (p : ArrCmd → Bool) : Bool := after o (fun t => ((t.arr 0).queue.head?).any p)
/-- Core 0 at schedule cycle n. -/
def atCycle (n : Nat) : Core := imOf (fun im => { im with sched := n })
/-- `mma` of one group of blocks of format 1, in full. -/
def mma1 : MtxF := { mtxF with kg := 1, fa := 1, fb := 1, b := 0x4000 }
/-- A tile that holds values of context 0. -/
def tile0 : Tile := { Tile.init with born := true, inuse := true, dirty := true }

theorem test_mma_joins_with_its_last_count : after (exec (.mma mma1) (arrSt co0 (leased 1))) (fun t =>
      ((t.arr 0).queue.map (fun x => x.op) == [.mma mma1]) && (t.arr 0).holder == none && (t.arr 0).freeFrom == 1) = true ∧
    after (exec (.mma mma1) (arrSt co0 (leased 2))) (fun t => (t.arr 0).holder == some 0 && (t.arr 0).count == some 1) = true ∧
    after (exec (.mma mma1) (arrSt (imOf (fun im => { im with seg := some { fetchSeg with lease := true } })) { ArrSt.init with holder := some 0 })) (fun t =>
      (t.arr 0).queue.length == 1 && (t.arr 0).holder == some 0) = true := by decide +kernel

theorem test_mma_stops : caught (exec (.mma mma1) (arrSt co0 ArrSt.init)) = some (0x61, 0) ∧
    caught (exec (.mma mma1) { arrSt co0 (leased 1) with fenced := [0] }) = some (0x86, 0) ∧
    caught (exec (.mma { mma1 with fb := 10 }) (arrSt co0 (leased 1))) = some (0xB, 0) ∧
    caught (exec (.mma { mma1 with a := 256 }) (arrSt co0 (leased 1))) = some (0x40, 0) ∧
    caught (exec (.mma { mma1 with a := 0x5FFE00 }) (arrSt co0 (leased 1))) = some (0x41, 0) ∧
    waits (exec (.mmaAtBank { mtxF with fa := 10, fb := 10 }) (arrSt co0 (leased 1))) .c = none ∧
    caught (exec (.mmaAtBank { mtxF with fa := 10, fb := 10 }) (arrSt (timedCo co0) (leased 1))) = some (0x20, 0) := by decide +kernel

theorem test_region_that_ends_the_scratchpad : after (exec (.ald { mtxF with a := 0x5C0000 }) (arrSt co0 (leased 1))) (fun t => (t.arr 0).queue.length == 1) = true ∧
    caught (exec (.ald { mtxF with a := 0x5C0100 }) (arrSt co0 (leased 1))) = some (0x41, 0) := by decide +kernel

theorem test_lease_asks_and_takes : (arrSt co0 ArrSt.init).headerLease = false ∧
    after (exec (.lease { mtxF with n := 3 }) (arrSt co0 ArrSt.init)) (fun t => (t.arr 0).reqs == [⟨0, 0, false⟩] && ((t.core 0).im.c.waiting).isSome) = true ∧
    after (exec (.lease { mtxF with n := 3 }) (arrSt co0 (leased 0))) (fun t => (t.arr 0).count == some 3 && (t.core 0).im.c.pc == 4) = true ∧
    after (exec (.unlease { mtxF with n := 0 }) (arrSt co0 (leased 2))) (fun t => (t.arr 0).holder == none) = true := by decide +kernel

theorem test_lease_under_a_header_and_timed : pcAfter (exec (.lease mtxF) (arrSt (imOf (fun im => { im with seg := some { fetchSeg with lease := true } })) ArrSt.init)) .c = some 4 ∧
    caught (exec (.lease mtxF) (arrSt (timedCo co0) ArrSt.init)) = some (0x20, 0) ∧
    pcAfter (exec (.unlease mtxF) (arrSt (timedCo co0) ArrSt.init)) .c = some 4 := by decide +kernel

/-- R174: of two requests of one priority the one next in the round, after core 1, is granted. -/
theorem test_lease_grant : after (exec (.leaseGrant 0) (arrSt co0 { ArrSt.init with reqs := [⟨0, 1, false⟩, ⟨1, 1, true⟩, ⟨2, 1, true⟩, ⟨3, 0, false⟩], lastGrant := 1 })) (fun t =>
    (t.arr 0).holder == some 2 && (t.arr 0).count == none && (t.arr 0).reqs.length == 3 && (t.arr 0).lastGrant == 2) = true := by decide +kernel

theorem test_aret_w : pcAfter (exec (.aretW { stoF with n := 1 }) (arrSt (atCycle 3) { ArrSt.init with queue := [arrCmd (.aret { mtxF with tile := 2 })] })) .c = some 4 ∧
    waits (exec (.aretW { stoF with n := 2 }) (arrSt (atCycle 3) { ArrSt.init with queue := [arrCmd (.aret { mtxF with tile := 2 })] })) .c = some (3, 2) := by decide +kernel

theorem test_command_begins : (arrSt (atCycle 2) { ArrSt.init with queue := [arrCmd (.mma { mma1 with zfh := 4 })] }).headReady (arrCmd (.mma { mma1 with zfh := 4 })) = true ∧
    (atCycle 2).malformedGroup (arrCmd (.mma { mma1 with zfh := 4 })) = none ∧
    head (exec (.arrayCommandBegin 0) (arrSt (atCycle 2) { ArrSt.init with queue := [arrCmd (.mma { mma1 with zfh := 4 })] })) (fun y =>
      y.b == some 2 && y.rAt == 10 && y.g == 0) = true := by decide +kernel

/-- R197, R172: a tile held by another core, and one never written, stop the command. -/
theorem test_command_faults : (arrCmd (.mma mma1)).reads = true ∧
    after (exec (.arrayCommandBegin 0) (arrSt (atCycle 2) { ArrSt.init with queue := [arrCmd (.mma mma1)] })) (fun t =>
      (t.arr 0).queue == [] && ((t.core 0).stops.recs.map (fun r => r.cause)) == [0x42]) = true ∧
    after (exec (.arrayCommandBegin 0) (arrSt (atCycle 2) { ArrSt.init with queue := [arrCmd (.mma mma1)], tiles := [(0, { tile0 with held := true, holder := 1 })] })) (fun t =>
      (t.arr 0).queue == [] && ((t.core 0).stops.recs.map (fun r => r.cause)) == [0x62]) = true := by decide +kernel

/-- R203: a group whose blocks of A are all zero is skipped. -/
theorem test_group_skipped :
    let x := { arrCmd (.mma { mma1 with zfh := 4 }) with b := some 2, rAt := 10 }
    let co := { slabbed 40 (atCycle 10) with zbits := (upTo 0 64).map (fun g => (g, true)) }
    x.groupBytes.all (fun p => (co.checkLocal 0 0 p.1 p.2 true).isNone) = true ∧ co.groupRows x = none ∧
    head (exec (.arrayCommandBegin 0) (arrSt co { ArrSt.init with queue := [x] })) (fun y => y.g == 1 && y.rAt == 11) = true := by decide +kernel

/-- A group whose blocks are not marked zero has rows. -/
theorem test_group_rows : ((slabbed 40 (atCycle 10)).groupRows { arrCmd (.mma { mma1 with zfh := 4 }) with b := some 2, rAt := 10 }).isSome = true := by decide +kernel

theorem test_rows_of_a_tile_move : head (exec (.arrayCommandBegin 0) (arrSt (slabbed 140 (atCycle 10)) { ArrSt.init with tiles := [(0, tile0)], queue := [{ arrCmd (.aret mtxF) with b := some 2, rAt := 10 }] })) (fun y => y.g == 1 && y.rAt == 11) = true := by decide +kernel

theorem test_command_ends : after (exec (.arrayCommandEnd 0) (arrSt (atCycle 9) { ArrSt.init with queue := [{ arrCmd (.mma mma1) with b := some 2, e := some 9, flags := 1 }, arrCmd (.amz mtxF)] })) (fun t =>
      (t.arr 0).queue == [arrCmd (.amz mtxF)] && (t.core 0).im.vec.fsx == 1 && ((t.arr 0).tile 0).born && ((t.arr 0).tile 0).dirty) = true := by decide +kernel

theorem test_at_bank_sums_arrive : head (exec (.atBankCommand 0) (arrSt (atCycle 9) { ArrSt.init with queue := [{ arrCmd (.mmaAtBank mtxF) with b := some 2, rAt := 9 }] })) (fun y =>
    y.e == some 9) = true := by decide +kernel

/-- A context has a descriptor at 0x1000. -/
def described (s : State) (mem : List Host.Cell) (ctx : Nat := 0) : State :=
  { s with dies := [(0, { Die.init with rows := [(0, BitVec.ofNat 256 (2 ^ 81 + ctx * 2 ^ 86 + 0x1000 * 2 ^ 192))] })], mem := mem }

theorem test_tile_is_saved : (arrSt (atCycle 2) { ArrSt.init with queue := [arrCmd (.amz mtxF)], tiles := [(0, { tile0 with owner := 1 })] }).needsSave 0 (arrCmd (.amz mtxF)) = true ∧
    after (exec (.tileSave 0 0) (described (arrSt (atCycle 2) { ArrSt.init with queue := [arrCmd (.amz mtxF)], tiles := [(0, { tile0 with owner := 1 })] }) [] 1)) (fun t =>
      ((t.arr 0).queue.map (fun x => x.notBefore)) == [138] && !((t.arr 0).tile 0).dirty) = true := by decide +kernel

theorem test_tile_is_restored :
    let s := described (arrSt (atCycle 2) { ArrSt.init with queue := [arrCmd (.mma mma1)] }) [(0x1050, 1)]
    s.needsRestore 0 (arrCmd (.mma mma1)) = true ∧
    after (exec (.tileRestore 0 0) s) (fun t => ((t.arr 0).queue.map (fun x => (x.notBefore, x.xfer))) == [(138, true)] && !((t.arr 0).tile 0).inuse) = true ∧
    (let u := described (arrSt (atCycle 138) { ArrSt.init with queue := [{ arrCmd (.mma mma1) with xfer := true, notBefore := 138 }] }) [(0x1050, 1)]
     after (exec (.tileRestore 0 0) u) (fun t => ((t.arr 0).queue.map (fun x => x.xfer)) == [false] && ((t.arr 0).tile 0).inuse && ((t.arr 0).tile 0).owner == 0) = true) := by
  decide +kernel

theorem test_tile_swept : (tile0.stale 1875 = false) ∧
    after (exec (.sweepTileSave 0 3) { described (arrSt co0 { ArrSt.init with tiles := [(3, { tile0 with owner := 5 })] }) [] 5 with cyc := 480000 }) (fun t => !((t.arr 0).tile 3).dirty) = true ∧
    after (exec (.sweepFrozenTileRenew 0 3) { arrSt co0 { ArrSt.init with tiles := [(3, tile0)] } with cyc := 480000, wires := [{ ctx := 0, cores := [0], f := 0, u := none, recs := [] }] }) (fun t =>
      ((t.arr 0).tile 3).renewAt == some 480128) = true ∧
    after (exec (.sweepFrozenTileRenew 0 3) { arrSt co0 { ArrSt.init with tiles := [(3, { tile0 with renewAt := some 480000 })] } with cyc := 480000 }) (fun t =>
      ((t.arr 0).tile 3).stamp == 1875 && ((t.arr 0).tile 3).renewAt == none) = true := by decide +kernel

theorem test_replay : after (exec (.arrayReplay 0 0 false) (arrSt (atCycle 9) { ArrSt.init with queue := [{ arrCmd (.amz mtxF) with b := some 2 }] })) (fun t =>
      (t.core 0).stops.replays == 7 && t.removals == []) = true ∧
    after (exec (.arrayReplay 0 0 false) (arrSt (atCycle 9) { ArrSt.init with queue := [{ arrCmd (.mma mma1) with b := some 2 }], window := [arrCmd (.amz mtxF)] })) (fun t =>
      (t.core 0).stops.replays == 15 && (t.die 0).trapWait.map (fun r => r.cause) == [0x81]) = true ∧
    after (exec (.arrayReplay 0 0 false) (arrSt (atCycle 9) { ArrSt.init with queue := [{ arrCmd (.mma mma1) with b := some 2 }] })) (fun t =>
      t.removals.map (fun p => (p.1, p.2.cause)) == [(0, 0x82)]) = true := by decide +kernel

/-! ### The plane unit and the copy channels -/

/-- What the units of core 0 hold. -/
def planeQ (o : Host.Outcome State Fault Refusal) (p : List EngCmd → List Post → Bool) : Bool := after o (fun t => p (t.core 0).units.plane (t.core 0).posted)
def planeF : MovF := { movF with a := 1, b := 2, n := 1, sem := 4, type := 0 }
def planing (e : EngCmd) : Core := { slabbed 16 co0 with units := { co0.units with plane := [e] } }

theorem test_plane_is_queued : (st (g2 (g1 co0 0x8000) 8) .l).Ready [1, 2] ∧ planeRow 0 1 = 64 ∧
    planeQ (exec (.plane planeF) (st (imOf (fun im => { im with l := { im.l with regs := (im.l.regs.set! 1 0x8000).set! 2 64 } })) .l)) (fun l _ =>
      l.map (fun e => (e.a, e.b, e.n, e.sem, e.j)) == [(0x8000, 64, 1, 4, 0)]) = true ∧
    flights (exec (.plane { planeF with n := 0 }) (st (imOf (fun im => { im with l := { im.l with regs := (im.l.regs.set! 1 0x8000).set! 2 64 } })) .l)) = [(2, .sem 4 1)] := by
  decide +kernel

theorem test_plane_checks_in_order :
    let at_ (src stride : Word) (co : Core) : State := st { co with im := { co.im with l := { co.im.l with regs := (co.im.l.regs.set! 1 src).set! 2 stride } } } .l
    caught (exec (.plane { planeF with la := 8 }) (at_ 0x2000 4 co0)) = some (0xB, 0) ∧ caught (exec (.plane { planeF with la := 8 }) (at_ 0x2000 64 co0)) = some (0x40, 0) ∧
    caught (exec (.plane { planeF with la := 0x5FFE00 }) (at_ 0x2000 64 co0)) = some (0x41, 0) ∧
    caught (exec (.plane { planeF with la := 0x2000 }) (at_ 0x2000 64 co0)) = some (0xB, 0) ∧
    caught (exec (.plane { planeF with start := 1 }) (at_ 0x20000 64 (timedCo co0))) = some (0x25, 0) := by decide +kernel

def planeCmd : EngCmd := { cmd0 with var := 0, la := 0, a := 0x4000, b := 8, n := 1, sem := 4 }

theorem test_plane_reads_eight_rows : (planing { planeCmd with begun := some 2, j := 1, nextAt := 3, buf := [] }).planeBad planeCmd 0 1 = none ∧
    planeQ (exec (.planeCommand 0) { st (planing { planeCmd with begun := some 2, j := 1, nextAt := 3 }) with cyc := 3 }) (fun l _ =>
      l.map (fun e => (e.j, e.nextAt, e.buf.length == 8 * planeRow 0 1)) == [(2, 4, true)]) = true := by decide +kernel

theorem test_plane_writes_its_block : (planing { planeCmd with begun := some 2, j := 32, nextAt := 34 }).checkLocal 0 0 0 (blockSize 0) false = none ∧
    after (exec (.planeCommand 0) { st (planing { planeCmd with begun := some 2, j := 32, nextAt := 34 }) with cyc := 34 }) (fun t =>
      (t.core 0).units.plane.map (fun e => (e.j, e.nextAt)) == [(33, 35)]) = true := by decide +kernel

theorem test_plane_completes : after (exec (.planeComplete 0) { st (planing { planeCmd with begun := some 2, j := 33, nextAt := 35 }) with cyc := 35 }) (fun t =>
    (t.core 0).units.plane == [] && mget 0 (t.core 0).im.sems 4 == 1) = true := by decide +kernel

theorem test_inconsistent_rows : planeQ (exec (.planeCommand 0) { st { planing { planeCmd with var := 5, n := 2, begun := some 2, j := 1, nextAt := 3 } with
      spad := [(0x4000 + 8 * 8 + 1, 1)] } with cyc := 3 }) (fun l _ => l == []) = true := by decide +kernel

def copying (e : EngCmd) (cells : List Host.Cell) : State := { st (spad cells { slabbed 4 co0 with units := { co0.units with chans := [(1, [e])] } }) with cyc := 5 }
/-- Of channel 1, the command. -/
def channel (o : Host.Outcome State Fault Refusal) (p : EngCmd → Bool) : Bool := after o (fun t => ((mget [] (t.core 0).units.chans 1).head?).any p)
/-- A descriptor of one dimension of two elements of a byte, strides 1. -/
def tensor2 : List Byte := leBytes 32 1 ++ leBytes 12 (2 + 2 ^ 32 + 2 ^ 64) ++ List.replicate 84 0
def llCmd : EngCmd := { cmd0 with var := 2, la := 0, a := 0x200, b := 0x400, sem := 4 }

theorem test_cpy_joins_its_channel : after (exec (.cpyOut { movF with n := 1, a := 1, b := 2, la := 64 }) (st co0 .l)) (fun t =>
      (mget [] (t.core 0).units.chans 1).map (fun e => (e.var, e.la)) == [(1, 64)]) = true ∧
    caught (exec (.cpyLl { movF with n := 1, a := 1 }) (st (imOf (fun im => { im with l := { im.l with regs := im.l.regs.set! 1 0x800000 } })) .l)) = some (0xB, 0) ∧
    caught (exec (.cpyIn { movF with n := 1, start := 1 }) (st (timedCo co0) .l)) = some (0x25, 0) := by decide +kernel

theorem test_copy_begins :
    let cells := (((upTo 0 128).zip tensor2).filter (fun p => p.2 != 0)).map (fun p => (0x400 + p.1, p.2))
    channel (exec (.copyCommand 0 1) (copying llCmd cells)) (fun e => e.begun == some 5 && e.idx == [0] && e.nextAt == 6) = true ∧
    channel (exec (.copyCommand 0 1) (copying { llCmd with b := 0x404 } cells)) (fun _ => true) = false ∧
    after (exec (.copyCommand 0 1) (copying llCmd [])) (fun t => mget [] (t.core 0).units.chans 1 == []) = true := by decide +kernel

theorem test_copy_moves_a_run :
    let e := { llCmd with begun := some 5, idx := [0], nextAt := 5, buf := tensor2 }
    after (exec (.copyCommand 0 1) (copying e [(0, 7), (1, 8)])) (fun t =>
      (mget [] (t.core 0).units.chans 1).map (fun e => (e.idx, e.j, e.nextAt)) == [([], 1, 6)] && (t.core 0).commit.bytes 0x200 2 == [7, 8]) = true := by decide +kernel

theorem test_copy_completes : after (exec (.copyComplete 0 1) (copying { llCmd with begun := some 3, j := 1, nextAt := 5 } [])) (fun t =>
    mget [] (t.core 0).units.chans 1 == [] && mget 0 (t.core 0).im.sems 4 == 1) = true := by decide +kernel

/-! ### Packets -/

/-- K with registers g1 and queue registers. -/
def queued (port : List QPkt) (qb : Map Word) (co : Core) : Core := { co with im := { co.im with qb := qb }, units := { co.units with port := port } }
def pkt0 : QPkt := { q := 0, desc := 64, pkt := 0, claim := none, sent := false, slot := 0, at_ := 0, wait := .go, origin := 0, ctx := 0, launch := 0 }
/-- The packets at the port of core 0. -/
def port0 (o : Host.Outcome State Fault Refusal) : List (Nat × Nat × Nat × Word) :=
  match o with
  | .next t => (t.core 0).units.port.map (fun k => (k.q, pKind k.pkt, pTs k.pkt, pBody k.pkt 0))
  | _ => []

theorem test_eng_places_its_packet : (st (queued [] [(1, 64)] (g1 co0 9))).Ready [1, 0, 0, 0] ∧
    port0 (exec (.ixeGather { engF with a := 1, q := 1, sem := 5 }) (st (queued [] [(1, 64)] (g1 co0 9)))) = [(1, 0x10, 0, 9)] ∧
    port0 (exec (.pool { engF with a := 1, q := 1, var := 8 }) (st (queued [] [(1, 64)] { g1 co0 9 with im := { (g1 co0 9).im with jts := [(1, BitVec.ofNat 64 (2 ^ 49 + 2 ^ 48 - 1))] } }))) =
      [(1, 0x20, 2 ^ 48 - 1, 9)] ∧
    after (exec (.pool { engF with a := 1, q := 1, var := 8 }) (st (queued [] [(1, 64)] { g1 co0 9 with im := { (g1 co0 9).im with jts := [(1, BitVec.ofNat 64 (2 ^ 49 + 2 ^ 48 - 1))] } }))) (fun t =>
      mget 0 t.me.im.jts 1 == BitVec.ofNat 64 (2 ^ 49 + 1)) = true := by decide +kernel

theorem test_eng_stops : caught (exec (.ixeGather { engF with q := 2 }) (st (queued [] [(1, 64)] co0))) = some (0xB, 0) ∧
    caught (exec (.ixeDedup { engF with q := 1, a := 1 }) (st (queued [] [(1, 64)] co0))) = some (0xB, 0) ∧
    caught (exec (.nmc { engF with q := 1, start := 1 }) (st (queued [] [(1, 64)] co0))) = some (0xB, 0) ∧
    caught (exec (.ixeGather { engF with q := 1, var := 8 }) (st (queued [] [(1, 64)] { co0 with im := { co0.im with jts := [] } }))) = some (0xB, 0) ∧
    waits (exec (.ixeGather { engF with q := 1 }) (st (queued (List.replicate 16 pkt0) [(1, 64)] co0))) = some (0xA, 0) ∧
    (port0 (exec (.ixeGather { engF with q := 1 }) (st (queued (List.replicate 15 pkt0) [(1, 64)] co0)))).length = 16 := by decide +kernel

theorem test_qpush : port0 (exec (.qpush { stoF with la := 64, n := 2, q := 1 }) (st (queued [] [(1, 64)] (spad [(64, 3), (128, 1), (152, 9)] (slabbed 1 co0))))) = [(1, 3, 0, 0), (1, 1, 0, 9)] ∧
    pcAfter (exec (.qpush { stoF with q := 1 }) (st co0)) = some 4 ∧
    caught (exec (.qpush { stoF with la := 32, n := 1, q := 1 }) (st (queued [] [(1, 64)] (slabbed 1 co0)))) = some (0x40, 0) ∧
    caught (exec (.qpush { stoF with la := 2048, n := 1, q := 1 }) (st (queued [] [(1, 64)] (slabbed 1 co0)))) = some (0x41, 0) ∧
    caught (exec (.qpush { stoF with n := 1, q := 1 }) (st (slabbed 1 co0))) = some (0xB, 0) ∧
    waits (exec (.qpush { stoF with n := 2, q := 1 }) (st (queued (List.replicate 15 pkt0) [(1, 64)] (slabbed 1 co0)))) = some (0xA, 0) := by decide +kernel

theorem test_qfence : port0 (exec (.qfence { mgtF with a := 1, n := 5 }) (st (queued [] [(0, 64), (2, 128)] (g1 co0 8)))) = [(0, 1, 0, 8), (2, 1, 0, 8)] ∧
    pcAfter (exec (.qfence mgtF) (st co0)) = some 4 ∧
    caught (exec (.qfence { mgtF with a := 1, n := 1 }) (st (queued [] [(0, 64)] (g1 co0 4)))) = some (0x40, 0) ∧
    caught (exec (.qfence { mgtF with a := 1, n := 2 }) (st (queued [] [(0, 64)] (g1 co0 8)))) = some (0xB, 0) ∧
    waits (exec (.qfence { mgtF with a := 1, n := 1 }) (st (queued (List.replicate 16 pkt0) [(0, 64)] (g1 co0 8)))) = some (0xA, 0) ∧
    caught (exec (.qfenceW { mgtF with a := 1, n := 1 }) (st (queued [] [(0, 64)] (timedCo (g1 co0 8))))) = some (0x20, 0) := by decide +kernel

theorem test_qfence_w_holds : after (exec (.qfenceW { mgtF with a := 1, n := 1 }) (st (queued [] [(0, 64)] (tlbd (g1 co0 8))))) (fun t =>
    t.me.ms.hold == some (.join 8 8 1 0) && t.me.units.port.length == 1) = true := by decide +kernel

/-- A packet of these bits taken from queue 0; the streams of die 0's engines hold a translation of the first GiB, over this memory. -/
def withBuf (mem : List Host.Cell) (x : Work) : Work :=
  match descVa x.pkt with
  | some va => if va.toNat % 64 = 0 then { x with buf := (upTo va.toNat 64).map (fun a => mget 0 mem a) } else x
  | none => x
/-- A module at work on packet 3, whose descriptor it has read. -/
def working (x : Work) (mem : List Host.Cell) : State :=
  { st co0 with works := [(3, withBuf mem x)], mem := mem, stlb := (544 :: upTo 672 8).map (fun k => (k, [{ ctx := 0, vbase := 0, lg := 30, pbase := 0, attr := 15 }])) }
def work0 (p : BitVec 512) : Work := newWork 0 0 0 p 0 0
/-- Of packet 3: its stage and its cause. -/
def ended3 (o : Host.Outcome State Fault Refusal) : Option (WStage × Nat) :=
  match o with
  | .next t => (mfind t.works 3).map (fun y => (y.stage, y.cause))
  | _ => none

theorem test_null_and_signal : mfind (working (work0 0) []).works 3 = some (work0 0) ∧ ended3 (exec (.nullPacket 3) (working (work0 0) [])) = some (.committed, 0) ∧
    ended3 (exec (.signalPacket 3) (working (work0 3) [])) = some (.committed, 0) := by decide +kernel

theorem test_join_counts_and_waits :
    let p := packet 1 0 0 3 0 0 0 8 2 0 0 0
    after (exec (.joinPacket 3) (working (work0 p) [(8, 1)])) (fun t => (mfind t.works 3).any (fun y => y.joined) && t.homeNat 8 8 == 2) = true ∧
    ended3 (exec (.joinPacket 3) (working { work0 p with joined := true } [(8, 2)])) = some (.committed, 0) ∧
    after (exec (.joinPacket 3) (working { work0 p with joined := true } [(8, 1)])) (fun t => (mfind t.works 3).any (fun y => y.at_ == 1)) = true ∧
    ended3 (exec (.joinPacket 3) (working (work0 (packet 1 0 0 3 0 0 0 4 2 0 0 0)) [])) = some (.committed, 0x40) := by decide +kernel

theorem test_copy_packet :
    let cells := ((((upTo 0 128).zip tensor2).filter (fun p => p.2 != 0)).map (fun p => (0x400 + p.1, p.2)))
    ended3 (exec (.copyPacket 3) (working (work0 (packet 2 0 0 3 0 0 0 0 0x200 0x400 0 0)) ((0, 7) :: cells))) = some (.committed, 0) ∧
    after (exec (.copyPacket 3) (working (work0 (packet 2 0 0 3 0 0 0 0 0x200 0x400 0 0)) ((0, 7) :: cells))) (fun t => t.homeBytes 0x200 2 == [7, 0]) = true ∧
    ended3 (exec (.copyPacket 3) (working (work0 (packet 2 0 0 3 0 0 0 0 0x200 0x404 0 0)) cells)) = some (.committed, 0x64) ∧
    ended3 (exec (.copyPacket 3) (working (work0 (packet 2 0 0 3 0 0 0 0 0x200 0x400 0 0)) [])) = some (.committed, 0x64) := by decide +kernel

def front0 : Front := { engine := 1, unit := 0, lsize := 4, base := 0x1000, wpa := 0x808, widx := 3, ridx := 0, done := [], at_ := 0, wait := .go, fresh := true }
/-- Queue 0 of die 0 attached, for context 0, over this memory. -/
def attached (f : Front) (works : Map Work) (mem : List Host.Cell) : State :=
  { working (work0 0) mem with works := works, dies := [(0, { Die.init with fronts := [(0, f)], qtab := [(0, { v := true, desc := 0x800, ctx := 0, saved := false, prog := 0 })] })] }

theorem test_card_commits : after (exec (.jobCardCommit 3) (described (working { work0 (packet 0x20 1 0 0 0 0 0 0 0 0 0 0) with stage := .performed } []) [])) (fun t =>
      (mfind t.works 3).any (fun y => y.stage == .committed) && t.cp 0 1 == 1) = true := by decide +kernel

theorem test_packet_completes : after (exec (.packetComplete 3) (attached front0 [(3, { work0 (packet 3 0 1 0 5 0 0 0 0 0 0 0) with stage := .committed })] [])) (fun t =>
      t.works == [] && mget 0 (t.core 0).im.sems 5 == 1 && (t.front 0).any (fun g => g.ridx == 1) && t.homeNat 0x810 8 == 1) = true ∧
    after (exec (.packetComplete 3) (attached front0 [(3, { work0 (packet 3 0 1 0 5 0 0 0 0 0 0 0) with stage := .committed, cause := 0x64 })] [])) (fun t =>
      t.homeNat 0x820 1 == 1 && t.homeNat 0x823 1 == 0x64) = true := by decide +kernel

/-- The queue descriptor at 64: base 0x1000, 16 slots, widx 2. -/
def queueMem : List Host.Cell := [(65, 0x10), (72, 2), (88, 4)]

theorem test_port_claims_and_writes : after (exec (.queuePortWrite 0) { st (queued [pkt0] [] (tlbd co0)) with mem := queueMem }) (fun t =>
      (t.core 0).units.port.map (fun k => k.claim) == [some 2] && t.homeNat 72 8 == 3) = true ∧
    after (exec (.queuePortWrite 0) { st (queued [{ pkt0 with pkt := 3, claim := some 2 }] [] (tlbd co0)) with mem := queueMem }) (fun t =>
      (t.core 0).units.port == [] && t.homeNat 0x1080 4 == 3 && t.homeNat 0x1084 4 == 1) = true ∧
    after (exec (.queuePortWrite 0) { st (queued [{ pkt0 with pkt := 3, claim := some 16 }] [] (tlbd co0)) with mem := queueMem }) (fun t =>
      (t.core 0).units.port.map (fun k => (k.claim, k.at_)) == [(some 16, 1)]) = true := by decide +kernel

theorem test_front_end_takes : after (exec (.frontEndTake 0) (attached front0 [] [(0x1000, 3), (0x1004, 1)])) (fun t =>
      t.works.map (fun p => (p.2.q, p.2.idx, p.2.cause)) == [(0, 0, 0)]) = true ∧
    after (exec (.frontEndTake 0) (attached front0 [] [(0x1000, 3), (0x1004, 7)])) (fun t => t.homeNat 0x820 1 == 1 && t.homeNat 0x823 1 == 0x63) = true := by decide +kernel

theorem test_queue_commands : after (exec (.queueRestart 0) (attached front0 [] [(0x820, 1)])) (fun t => t.homeNat 0x820 1 == 0) = true ∧
    after (exec (.queueTailWrite 0 0 5) (attached front0 [] [(0x808, 7)])) (fun t => t.homeNat 0x808 8 == 7) = true ∧
    after (exec (.queueTailWrite 0 0 9) (attached front0 [] [(0x808, 7)])) (fun t => t.homeNat 0x808 8 == 9) = true ∧
    after (exec (.queueTableAttach 0 0 0x840) (attached front0 [] [])) (fun t => t.front 0 == none && !(t.qent 0).v && (t.qent 0).desc == 0x840) = true ∧
    after (exec (.queueTableAttach 0 0 0x841) (attached front0 [] [])) (fun t => !(t.qent 0).v && (t.qent 0).desc == 0x840) = true := by decide +kernel

/-! ### The embedding engines -/

/-- Numbers of some bytes put in memory. -/
def filled : List (Nat × Nat × Nat) → List Host.Cell
  | [] => []
  | (a, n, v) :: r => memPut (filled r) a (leBytes n v)

/-- A packet of this kind and sub-operation over the table at 0x40, the list at 0x100, the place 0x2000 and the record at 0x3000. -/
def epkt (kind sub : Nat) : BitVec 512 := packet kind 0 0 0 0 0 0 0x40 0x100 0x2000 0x3000 (sub * 2 ^ 8)
/-- A table of four rows of 32 binary32 columns at 0x1000, and a list of these entries. -/
def emem (ents : List Nat) (more : List (Nat × Nat × Nat)) : List Host.Cell :=
  filled (more ++ [(0x40, 8, 0x1000), (0x48, 4, 128), (0x4C, 4, 4), (0x50, 2, 32), (0x100, 8, ents.length)] ++ ((upTo 0 ents.length).zip ents).map (fun p => (0x108 + 8 * p.1, 8, p.2)))
/-- What a packet's work ends with: its cause, and a number of its global writes at an address. -/
def workWrites (o : Host.Outcome State Fault Refusal) : Option (Nat × List (Nat × Nat)) :=
  match o with
  | .next t => (mfind t.works 3).map (fun y => (y.cause, y.out.map (fun p => (p.1, leNat p.2))))
  | _ => none

theorem test_gather : (match (working (work0 (epkt 0x10 0)) (emem [2] [])).tableList (work0 (epkt 0x10 0)) [0] false with
      | .ok a _ => a.1.rb == 128 && a.2.2 == [0x1100]
      | _ => false) = true ∧
    after (exec (.indexGather 3) (working (work0 (epkt 0x10 0)) (emem [2, 1] [(0x1100, 4, 9), (0x10FC, 4, 8)]))) (fun t =>
      t.homeNat 0x2000 4 == 9 && t.homeNat 0x20FC 4 == 8 && t.homeNat 0x3000 8 == 2) = true ∧
    workWrites (exec (.indexGather 3) (working (work0 (epkt 0x10 0)) (emem [4] []))) = some (0x71, [(0x3000, 0x71 * 2 ^ 72)]) := by decide +kernel

theorem test_scatter_last_entry_stands : after (exec (.indexScatter 3) (working (work0 (epkt 0x11 0)) (emem [2, 2] [(0x2000, 4, 5), (0x2080, 4, 6)]))) (fun t =>
      t.homeNat 0x1100 4 == 6) = true := by decide +kernel

theorem test_dedup : after (exec (.indexDedup 3) (working (work0 (epkt 0x12 0)) (emem [3, 1, 3] []))) (fun t =>
      t.homeNat 0x2000 8 == 2 && t.homeNat 0x2008 8 == 1 + 2 ^ 32 && t.homeNat 0x2010 8 == 3 + 2 * 2 ^ 32 && t.homeNat 0x2020 4 == 1 && t.homeNat 0x2024 4 == 0 &&
        t.homeNat 0x2028 4 == 1) = true ∧
    workWrites (exec (.indexDedup 3) (working (work0 (epkt 0x12 0)) (emem [3 + 2 ^ 32] []))) = some (0x77, [(0x3000, 0x77 * 2 ^ 72)]) := by decide +kernel

theorem test_bucket : after (exec (.indexBucket 3) (working (work0 (epkt 0x13 0)) (emem [3] []))) (fun t =>
      t.homeNat (0x2000 + 4 * bucketOf 0x1180) 4 == 1 && t.homeNat 0x2028 8 == 3 && t.homeNat 0x3000 8 == 1) = true := by decide +kernel

theorem test_sketch_feeds : after (exec (.sketchQueryAdd 3) (working (work0 (epkt 0x18 1)) (emem [3, 3] []))) (fun t =>
      t.homeNat 0x2000 4 == 1 && t.homeNat 0x2004 4 == 2) = true ∧
    after (exec (.sketchQuery 3) (working (work0 (epkt 0x18 0)) (emem [3] []))) (fun t => t.homeNat 0x2000 4 == 0 && t.homeNat 0x3000 8 == 1) = true := by decide +kernel

theorem test_sketch_decays : after (exec (.sketchDecay 0) { st co0 with dies := [(0, { Die.init with skcfg := 0x10000, decayed := 1, sketch := [(5, 3)] })] }) (fun t =>
    mget 0 (t.die 0).sketch 5 == 1 && (t.die 0).decayed == 0) = true := by decide +kernel

/-- The cache holds one GiB of frames, and row 3 of table 0 in way 2 of its set, dirty or not. -/
def cached (dirty : Bool) (works : Map Work) (mem : List Host.Cell) : State :=
  let s := { working (work0 0) mem with works := works.map (fun (p : Nat × Work) => (p.1, withBuf mem p.2)), hrcfg := 8 }
  { s with frames := [(8 * s.hotSet 0 3 + 2, { valid := true, dirty := dirty, pin := false, ctx := 0, tid := 0, row := 3, home := 0x1180, rb := 128 })] }

theorem test_hot_rows : ((cached false [] []).resident 0 0 3).isSome = true ∧ (cached false [] []).resident 0 0 2 = none ∧
    after (exec (.hotrowPin 3) (cached false [(3, work0 (packet 0x19 0 0 0 0 0 0 0x40 0x100 0 0x3000 (3 * 2 ^ 8)))] (emem [3] [(0x52, 1, 0x10)]))) (fun t =>
      t.frames.all (fun p => p.2.pin) && t.homeNat 0x3000 8 == 1) = true ∧
    after (exec (.hotrowEvict 3) (cached false [(3, work0 (packet 0x19 0 0 0 0 0 0 0x40 0x100 0 0x3000 (2 ^ 8)))] (emem [3, 2] [(0x52, 1, 0x10)]))) (fun t =>
      t.frames == [] && t.homeNat 0x3000 8 == 1) = true := by decide +kernel

theorem test_frame_write_back : (let s := cached true [] [(0x1180, 5)]
    after (exec (.frameWriteBack (s.hotSet 0 3) 2) s) (fun t => t.homeNat 0x1180 1 == 0 && t.frames.all (fun p => !p.2.dirty))) = true := by decide +kernel

theorem test_frame_fill : (let s := { cached false [] [(0x1100, 5)] with fills := [{ die := 0, ctx := 0, tid := 0, row := 2, home := 0x1100, rb := 128 }] }
    after (exec (.frameFill 0) s) (fun t => t.fills == [] && (t.resident 0 0 2).any (fun p => t.homeNat (t.frameAt p.1) 1 == 5 && !p.2.dirty))) = true := by decide +kernel

/-- A work-list at 0x40 with its ring of 16 at 0x400, at this head and tail, with a bitmap at 0x500 of 16 coordinates. -/
def wmem (head tail : Nat) (more : List (Nat × Nat × Nat)) : List Host.Cell :=
  filled ([(0x40, 8, 0x400), (0x48, 1, 4), (0x50, 8, head), (0x58, 8, tail), (0x60, 8, 0x500), (0x68, 4, 16)] ++ more)
def wpkt (kind n : Nat) : BitVec 512 := packet kind 0 0 0 0 0 0 0x40 0x100 n 0x3000 0

theorem test_worklist_push : after (exec (.worklistPush 3) (working (work0 (wpkt 0x14 2)) (wmem 3 15 [(0x100, 8, 7), (0x108, 8, 8)]))) (fun t =>
      t.homeNat 0x478 8 == 7 && t.homeNat 0x400 8 == 8 && t.homeNat 0x58 8 == 17) = true ∧
    workWrites (exec (.worklistPush 3) (working (work0 (wpkt 0x14 2)) (wmem 0 15 []))) = some (0x73, [(0x3000, 0x73 * 2 ^ 72)]) ∧
    workWrites (exec (.worklistPush 3) (working (work0 (wpkt 0x14 2)) (wmem 1 0 []))) = some (0x74, [(0x3000, 0x74 * 2 ^ 72)]) := by decide +kernel

theorem test_worklist_dedup_push : after (exec (.worklistDedupPush 3) (working (work0 (wpkt 0x16 3)) (wmem 0 0 [(0x500, 1, 2), (0x100, 8, 1), (0x108, 8, 9), (0x110, 8, 9)]))) (fun t =>
      t.homeNat 0x400 8 == 9 && t.homeNat 0x58 8 == 1 && t.homeNat 0x500 2 == 0x202) = true ∧
    workWrites (exec (.worklistDedupPush 3) (working (work0 (wpkt 0x16 1)) (wmem 0 0 [(0x100, 8, 16)]))) = some (0x74, [(0x3000, 0x74 * 2 ^ 72)]) := by decide +kernel

theorem test_worklist_pop : after (exec (.worklistPop 3) (working (work0 (packet 0x15 0 0 0 0 0 0 0x40 0x2000 64 0x3000 0)) (wmem 1 3 [(0x408, 8, 5), (0x410, 8, 6)]))) (fun t =>
      t.homeNat 0x2000 8 == 5 && t.homeNat 0x2008 8 == 6 && t.homeNat 0x50 8 == 3) = true ∧
    workWrites (exec (.worklistPop 3) (working (work0 (packet 0x15 0 0 0 0 0 0 0x40 0x2000 65 0x3000 0)) (wmem 1 3 []))) = some (0x77, [(0x3000, 0x77 * 2 ^ 72)]) := by decide +kernel

/-! ### Pooling, scatter-update, near-bank -/

/-- A job card of timestamp 0. -/
def cpkt (kind ep : Nat) : BitVec 512 := packet kind 1 0 0 0 0 0 0x40 0x100 0x2000 0x3000 ep

theorem test_pool_sums_a_bag : after (exec (.poolingRowService 3) (working (work0 (cpkt 0x20 0)) (emem [1, 2] [(0x1080, 4, 0x3F800000), (0x1100, 4, 0x40000000)]))) (fun t =>
      (mfind t.works 3).any (fun y => y.joined && y.cause == 0 && y.parts.length == 32 && y.pos.take 5 == [2, 0, 0, 32, 0] &&
        (poolOut 0 2 fp32 (wfUnpack (y.parts.getD 0 0))).1 == 0x40400000)) = true ∧
    after (exec (.poolingRowService 3) (working (work0 (cpkt 0x20 9)) (emem [1] []))) (fun t => (mfind t.works 3).any (fun y => y.cause == 0x70)) = true ∧
    after (exec (.poolingRowService 3) (working (work0 (cpkt 0x20 0)) (emem [1] [(0x102, 2, 0x10)]))) (fun t => (mfind t.works 3).any (fun y => y.cause == 0x77)) = true := by
  decide +kernel

theorem test_pool_card_writes : workWrites (exec (.poolCard 3) (working { work0 (cpkt 0x20 0) with joined := true, pos := [2, 0, 0, 32, 0, 0], parts := [(wfZero 0).pack] } [])) =
    some (0, [(0x2000, 0), (0x3000, 2)]) := by decide +kernel

theorem test_supd_sgd : (match exec (.supdSgd 3) (working (work0 (cpkt 0x30 0)) (emem [1] [(0x1080, 4, 0x40400000), (0x64, 4, 0x3F800000), (0x2000, 4, 0x3F800000)])) with
      | .next t => (mfind t.works 3).map (fun y => (y.cause, y.frames.map (fun r => (r.1, leNat r.2))))
      | _ => none) = some (0, [(rowKey 0 1 0x1080, 0x40000000)]) ∧
    workWrites (exec (.supdMomentum 3) (working (work0 (cpkt 0x30 1)) (emem [1] []))) = some (0x75, [(0x3000, 0x75 * 2 ^ 72)]) ∧
    workWrites (exec (.supdInstalled 3) (working (work0 (cpkt 0x30 9)) (emem [1] []))) = some (0x70, [(0x3000, 0x70 * 2 ^ 72)]) := by decide +kernel

/-- An image that is verified is loaded, or rejected whole; whether one is verified is no fact of the model (log 10). -/
theorem test_control_store : exec (.controlStoreLoad [] [5]) (st co0) = .next (if Config.storeVerified [] [5] then (st co0).loadStore [] [5] else st co0) ∧
    mget 0 ((st co0).loadStore [] [5]).stores.entries 4 = 5 ∧ microLegal (BitVec.allOnes 192) = false ∧
    (((st co0).loadStore [BitVec.allOnes 192] []).die 0).trapWait.map (fun r => (r.cause, r.cls)) = [(0x7B, 2)] := by
  refine ⟨rfl, by decide +kernel, by decide +kernel, by decide +kernel⟩

/-- A command of 16 rows of 32 signed bytes at 0x200000. -/
def call0 : Call := { w := 0x200000, sc := 0, r := 16, c := 32, fmt := 10, isat := false, ofmt := false, arg0 := 0, arg1 := 0, inlen := 16, outlen := 128 }
def job (inp : List Byte) : NbJob := { call := call0, input := inp, scales := [], pa := 0x200000 }

/-- R319: 2 times the first row's element and −1 times the second's. -/
theorem test_matvec : (nbMatvec (job ([2, 0xFF] ++ List.replicate 14 0)) { st co0 with mem := filled [(0x200000, 1, 3), (0x200100, 1, 9)] }).out.take 4 = leBytes 4 (2 ^ 32 - 3) ∧
    (nbMatvec (job []) (st co0)).ucy = 160 := by decide +kernel

/-- One row alone. -/
def row1 (inp : List Byte) (arg : Nat) : NbJob := { job inp with call := { call0 with r := 1, arg0 := arg } }

theorem test_fill_and_stripe : (nbFill (row1 [] 0x0706050403020100) (st co0)).st.homeByte 0x20001F = 7 ∧ (nbFill (row1 [] 0x0706050403020100) (st co0)).st.homeByte 0x200020 = 0 ∧
    (nbStripe (row1 ((upTo 0 32).map (fun i => BitVec.ofNat 8 i)) 0) (st co0)).st.homeByte 0x20001F = 0x1F := by decide +kernel

/-- The descriptor of that command at 0x40, dispatched; the operand's page grants near-bank access (bit 7). -/
def nmem : List Host.Cell := filled [(0x40, 8, 0x200000), (0x50, 4, 16), (0x54, 4, 32), (0x58, 1, 10), (0x70, 4, 16), (0x74, 4, 128)]
def npkt : BitVec 512 := packet 0x40 0 0 0 0 0 0 0x40 0x100 0x400 0x3000 0
def nearing (attr : BitVec 10) : State := { working (work0 npkt) nmem with stlb := (upTo 672 8).map (fun k => (k, [{ ctx := 0, vbase := 0, lg := 30, pbase := 0, attr := attr }])) }

theorem test_near_bank_dispatch : (match nbDispatch (work0 npkt) (nearing 0xFF) with
      | .ok (.ok j) t => j.input == List.replicate 16 0 && j.pa == 0x200000 && !t.unitFull (nearUnit j.pa)
      | _ => false) = true ∧
    after (exec (.nearBankDispatch 3) (nearing 0xFF)) (fun t => (mfind t.works 3).any (fun y => y.stage == .dispatched && y.nbUndone)) = true ∧
    after (exec (.nearBankDispatch 3) (nearing 15)) (fun t => (t.die 0).rlogN == 1 && (mfind (t.die 0).rlog 0).any (fun e => e.reason == 2 && e.va == 0x200000)) = true := by
  decide +kernel

theorem test_near_bank_acts_and_ends :
    let x := { work0 npkt with stage := .dispatched, frames := (job (List.replicate 16 1)).store }
    x.nbUndone = true ∧ x.nbJob.isSome = true ∧
    after (exec (.nearBankMatvec 3) { nearing 0xFF with works := [(3, x)] }) (fun t => (mfind t.works 3).any (fun y => y.at_ == 640 && leNat (mget [] y.frames 5) == 32)) = true ∧
    workWrites (exec (.nearBankMatvec 3) { nearing 0xFF with works := [(3, { x with frames := x.frames ++ [(4, [1, 2, 3]), (5, leBytes 8 32), (6, leBytes 8 0), (7, leBytes 8 0x7A)] })] }) =
      some (0x7A, [(0x3000, 0x7A * 2 ^ 72)]) := by decide +kernel

/-! ### The exchange engine -/

def xpkt (kind : Nat) : BitVec 512 := packet kind 0 0 0 0 0 0 0x40 0x100 0x2000 0x3000 0
/-- A member of a group of two, of rank 0. -/
def grouped (x : Work) (mem : List Host.Cell) (inbox : List (Nat × PeerMsg)) : State :=
  { working x mem with dom := { Domain.init with members := [0, 1], dgrp := 0x20001, inbox := inbox } }

theorem test_reduce_contributes : after (exec (.exchangeReduce 3) (grouped (work0 (xpkt 0x51)) (filled [(0x100, 8, 1), (0x108, 4, 0x3F800000)]) [])) (fun t =>
      (mfind t.works 3).any (fun y => y.pos == [1, 1]) && t.outbox == [.contribute 1 0 0x40 1 0 0 [0x3F800000] 0]) = true ∧
    after (exec (.exchangeReduce 3) (working (work0 (xpkt 0x51)) [])) (fun t => (mfind t.works 3).any (fun y => y.cause == 0xA3)) = true := by decide +kernel

theorem test_reduce_sums : (match exec (.exchangeReduce 3) (grouped { work0 (xpkt 0x51) with pos := [1, 1], frames := [(0, [1]), (3, leBytes 4 0x3F800000)] } []
        [(0, .contribution 1 0 0x40 1 0 0 [0x40000000])]) with
      | .next t => (mfind t.works 3).map (fun y => (y.cause, y.out.head?.map (fun p => (p.1, leNat p.2))))
      | _ => none) = some (0, some (0x2000, 0x40400000)) := by decide +kernel

theorem test_collective_timeout : after (exec (.collectiveTimeout 3) { grouped { work0 (xpkt 0x51) with pos := [1, 1] } [] [] with cyc := oneMs }) (fun t =>
    (mfind t.works 3).any (fun y => y.cause == 0xA3)) = true := by decide +kernel

/-- A map of two shards of a table of 4 rows, split at row 2, owned by modules 0 and 1, and a list of row 3. -/
theorem test_exchange_pool_asks :
    let mem := filled [(0x40, 1, 2), (0x60, 4, 0), (0x64, 4, 2), (0x80, 4, 2), (0x84, 4, 2), (0x100, 8, 1), (0x108, 8, 3)]
    (match (grouped (work0 (xpkt 0x50)) mem []).listBytes (work0 (xpkt 0x50)) with
      | .ok lb _ => lb.length == 16
      | _ => false) = true := by decide +kernel

/-! ### The journal -/

/-- The journal engine on, with its ring of 1,024 records at 0x40000 and partner 1. -/
def jon (j : Journal) : Journal := { j with jctl := BitVec.ofNat 64 (1 + 10 * 2 ^ 24 + 2 ^ 48), jring := 0x40000 }
def journaling (co : Core) (j : Journal) : State := { st co with jrnl := jon j }
/-- K with this staging record. -/
def staged (f : Staging → Staging) (co : Core) : Core := { co with im := { co.im with stg := f co.im.stg } }
def opened (g : Staging) : Staging := { g with opened := true }
/-- A step record of sequence 1, step 2. -/
def rec12 : BitVec 1024 := BitVec.ofNat 1024 (1 + 2 * 2 ^ 32)

/-- A record with a right CRC (Table 21-2). -/
theorem test_crc_of_a_sealed_record : crcGood (sealRec 1) = true := by
  have h : crcOf 120 1 < 2 ^ 32 := by unfold crcOf; exact BitVec.isLt _
  have e : (sealRec 1).toNat = 1 + crcOf 120 1 * 2 ^ 960 := by
    have h1 : (1 : Nat) % 2 ^ 960 = 1 := by decide +kernel
    rw [sealRec, h1, BitVec.toNat_ofNat, Nat.mod_eq_of_lt]
    omega
  have m : (1 + crcOf 120 1 * 2 ^ 960) % 2 ^ 960 = 1 := by omega
  have f : (1 + crcOf 120 1 * 2 ^ 960) / 2 ^ 960 % 2 ^ 32 = crcOf 120 1 := by omega
  rw [crcGood, rf, e, m, fld, f, decide_eq_true_eq]

theorem test_append : (jon Journal.init).lsize = 10 ∧ (jon Journal.init).full = false ∧ (journaling co0 Journal.init).jrnl.lost = false := by decide +kernel

theorem test_append_packet : (match (working (work0 (packet 0x60 0 0 0 0 0 0 0x100 0 0 0 0)) []).pread (work0 (packet 0x60 0 0 0 0 0 0 0x100 0 0 0 0)) 0x100 128 with
      | .ok bs _ => bs.length == 128
      | _ => false) = true ∧
    ended3 (exec (.journalAppendPacket 3) { working { work0 (packet 0x60 0 0 0 0 0 0 0x100 0 0 0 0) with pos := [1, 0] } [] with jrnl := jon { Journal.init with jidx := 1, acked := 1 } }) =
      some (.committed, 0) := by decide +kernel

theorem test_gdraw : flights (exec (.gdraw { mgtF with d := 3, a := 1, b := 2 }) (st (g2 (g1 co0 1) 2))) = [(4, .reg .k 3 (sorrel 1 2))] ∧
    after (exec (.gdraw { mgtF with d := 3, a := 1, b := 2 }) (st (staged (fun g => opened { g with key := 1, ctr := 1, ndraw := 1 }) (g2 (g1 co0 1) 2)))) (fun t => t.me.im.stg.ndraw == 2) = true ∧
    caught (exec (.gdraw { mgtF with d := 3, a := 1, b := 2 }) (st (staged opened (g2 (g1 co0 1) 2)))) = some (0xB2, 0) ∧
    waits (exec (.gdraw { mgtF with d := 3, a := 1, b := 2 }) (st (staged (fun g => opened { g with loadAt := 1 }) co0))) = some (0xA, 0) ∧
    flights (exec (.gdraw { mgtF with d := 3, a := 1, b := 2 }) (st (staged (fun g => opened { g with replay := true }) co0))) = [(4, .reg .k 3 (sorrel 0 0))] := by decide +kernel

theorem test_jrnl_seq : after (exec (.jrnlSeq { mgtF with a := 1, b := 2 }) (st (g2 (g1 co0 7) 9))) (fun t => t.me.im.stg.opened && t.me.im.stg.seqn == 7 && t.me.im.stg.step == 9) = true ∧
    caught (exec (.jrnlSeq { mgtF with a := 1, b := 2 }) (st (g1 co0 0x100000000))) = some (0xB, 0) ∧
    (let s := { st (g2 (g1 co0 1) 2) with jrnl := { Journal.init with stores := [(0, [rec12])] } }
     s.replaying 0 = true ∧ s.jrnl.stored 0 1 2 = some rec12 ∧ s.me.timed = false) ∧
    caught (exec (.jrnlSeq { mgtF with a := 1, b := 2 }) { st (timedCo co0) with jrnl := { Journal.init with stores := [(0, [rec12])] } }) = some (0x20, 0) := by decide +kernel

theorem test_jrnl_stages : after (exec (.jrnlGen { mgtF with a := 1, b := 2 }) (st (staged opened (g2 (g1 co0 7) 9)))) (fun t => t.me.im.stg.key == 7 && t.me.im.stg.ctr == 9) = true ∧
    flights (exec (.jrnlTok { mgtF with d := 3, a := 1 }) (st (staged opened (g1 co0 0x500000007)))) = [(1, .reg .k 3 7)] ∧
    after (exec (.jrnlRt { mgtF with d := 3, a := 1, idx := 7 }) (st (staged opened (g1 co0 5)))) (fun t => t.me.im.stg.nrt == 8 && mget 0 t.me.im.stg.rt 7 == 5) = true ∧
    caught (exec (.jrnlRt { mgtF with a := 1, idx := 8 }) (st (staged opened co0))) = some (0xB, 0) ∧ caught (exec (.jrnlTok mgtF) (st co0)) = some (0xB, 0) ∧
    caught (exec (.jrnlGen mgtF) (st co0)) = some (0xB, 0) ∧
    waits (exec (.jrnlTok mgtF) (st (staged (fun g => opened { g with loadAt := 1 }) co0))) = some (0xA, 0) ∧
    flights (exec (.jrnlTok { mgtF with d := 3, a := 1 }) (st (staged (fun g => opened { g with replay := true, jrec := BitVec.ofNat 1024 (9 * 2 ^ 64) }) co0))) = [(1, .reg .k 3 9)] := by
  decide +kernel

theorem test_jrnl_app : (journaling (staged opened (g1 co0 5)) Journal.init).Ready [1] ∧ pcAfter (exec (.jrnlApp { mgtF with a := 1 }) (journaling (staged opened (g1 co0 5)) Journal.init)) = some 4 ∧
    waits (exec (.jrnlApp { mgtF with a := 1 }) (st (staged opened co0))) = some (0xA, 0) ∧
    caught (exec (.jrnlApp { mgtF with a := 1 }) (st (staged (fun g => opened { g with replay := true }) (g1 co0 5)))) = some (0xB0, 0) ∧
    after (exec (.jrnlApp { mgtF with a := 1 }) (st (staged (fun g => opened { g with replay := true }) co0))) (fun t => t.me.im.stg.lastRep && t.me.im.stg.unemitted) = true := by
  decide +kernel

theorem test_jrnl_ckpt : caught (exec (.jrnlCkpt mgtF) (st (timedCo co0))) = some (0x20, 0) ∧
    caught (exec (.jrnlCkpt { mgtF with a := 1 }) (journaling (g1 co0 0x100000000) Journal.init)) = some (0xB, 0) ∧
    caught (exec (.jrnlCkpt { mgtF with a := 1, b := 2 }) (journaling (g2 (g1 co0 1) 2) { Journal.init with ckpts := [(0, 1, 2)] })) = some (0xB, 0) ∧
    waits (exec (.jrnlCkpt { mgtF with a := 1, b := 2 }) (st (g2 (g1 co0 1) 2))) = some (0xA, 0) ∧
    (jon { Journal.init with ckpts := [(0, 1, 2)] }).lastCkpt 0 1 = some 2 ∧ caught (exec (.jrnlCkpt { mgtF with a := 1, b := 2 }) (journaling (g2 (g1 co0 1) 3) { Journal.init with ckpts := [(0, 1, 2)] })) = none := by
  decide +kernel

theorem test_emit : caught (exec (.emit { mgtF with a := 1 }) (journaling co0 Journal.init)) = some (0xB, 0) ∧
    caught (exec (.emit { mgtF with a := 1 }) (journaling (staged (fun g => { g with unemitted := true }) (g1 co0 16)) Journal.init)) = some (0x40, 0) ∧
    waits (exec (.emit { mgtF with a := 1 }) (st (staged (fun g => { g with unemitted := true }) co0))) = some (0xA, 0) ∧
    after (exec (.emit { mgtF with a := 1, idx := 6 }) (journaling (staged (fun g => { g with unemitted := true, lastRec := rec12 }) (tlbd (g1 co0 32))) Journal.init)) (fun t =>
      t.jrnl.emissions.map (fun e => (e.va, e.pa, e.bits, e.sem)) == [(32, 32, rec12, 6)] && !t.me.im.stg.unemitted) = true := by decide +kernel

def em0 : Emission := { va := 32, pa := 32, bits := rec12, sem := 6, waits := true, core := 0, ctx := 0, origin := 0, sent := false }

theorem test_emission_performed : after (exec (.emissionPerform 0) (journaling co0 { Journal.init with jidx := 1, acked := 1, emissions := [em0] })) (fun t =>
    t.homeNat 32 8 == 1 + 2 * 2 ^ 32 && mget 0 (t.core 0).im.sems 6 == 1 && t.jrnl.emissions == []) = true := by decide +kernel

theorem test_jrnl_rep : waits (exec (.jrnlRep mgtF) (st co0)) = some (0xA, 0) ∧
    after (exec (.jrnlRep { mgtF with a := 1, b := 2 }) (journaling (g2 (g1 co0 7) 9) Journal.init)) (fun t => t.outbox == [.replica 0 0 9 7] && t.jrnl.reps.length == 1) = true ∧
    after (exec (.jrnlRep { mgtF with a := 1, b := 2, idx := 3 }) (journaling (g2 (g1 co0 7) 9) { Journal.init with peerReps := [(0, 9, 7)] })) (fun t =>
      mget 0 t.me.im.sems 3 == 1 && t.jrnl.peerReps == []) = true := by decide +kernel

theorem test_replica_digest : after (exec (.replicaDigestArrival 0 9 7) (journaling co0 Journal.init)) (fun t => t.jrnl.peerReps == [(0, 9, 7)]) = true ∧
    after (exec (.replicaDigestArrival 0 9 7) (journaling co0 { Journal.init with reps := [⟨0, 0, 9, 8, 3, 0⟩] })) (fun t =>
      t.jrnl.reps == [] && t.jrnl.disputes == [(0, 9, 1)]) = true := by decide +kernel

theorem test_partner_is_in_a_domain : (grouped (work0 0) [] []).inDomain = true := by decide +kernel

theorem test_acknowledgment_truncates : after (exec (.journalAckReceive ⟨1, 2⟩) (journaling co0 { Journal.init with jidx := 2, ring := [(0, rec12), (1, BitVec.ofNat 1024 (1 + 3 * 2 ^ 32 + 2 ^ 104 + 2 ^ 128))] })) (fun t => t.jrnl.acked == 2 && t.jrnl.ring.map (fun x => x.1) == [1]) = true := by decide +kernel

theorem test_partner_lost_and_reassigned : after (exec .partnerLost { journaling co0 { Journal.init with jidx := 1 } with cyc := 768000 }) (fun t => t.jrnl.lost && (t.die 1).elogN == 1) = true ∧
    after (exec (.partnerReassign 5) (journaling co0 { Journal.init with jidx := 1, lost := true, ring := [(0, rec12)] })) (fun t => t.jrnl.partner == 5 && t.outbox == [.journal 5 rec12]) = true := by
  decide +kernel

theorem test_jctl_write : after (exec (.jctlWrite (1 + 10 * 2 ^ 24) 0x40000) (st co0)) (fun t => t.jrnl.en && t.jrnl.jring == 0x40000) = true ∧
    after (exec (.jctlWrite (1 + 9 * 2 ^ 24) 0x40000) (st co0)) (fun t => t.jrnl.en) = false := by decide +kernel

theorem test_suspect_sequences : after (exec (.replayStoreInstall 3 [rec12]) (st co0)) (fun t => mfind t.jrnl.stores 3 == some [rec12]) = true ∧
    after (exec (.scanFailureReplay 0 1 1 none) (journaling co0 { Journal.init with ring := [(0, rec12)] })) (fun t => t.outbox == [.confirmNotice none 0 1 1, .hostEvent 0, .hostEvent 1]) = true ∧
    after (exec (.scanFailureReplay 0 1 1 (some 2)) (journaling co0 { Journal.init with ring := [(0, rec12)] })) (fun t => t.jrnl.ring == [] && t.jrnl.retracted == [(0, 1)]) = true ∧
    after (exec (.replicaResolution 0 false false true false) (journaling co0 { Journal.init with disputes := [(0, 9, 2)] })) (fun t =>
      t.jrnl.disputes == [] && t.removals.map (fun p => p.2.cause) == [0xB5]) = true ∧
    after (exec (.replicaResolution 0 false false true false) (journaling co0 { Journal.init with disputes := [(0, 9, 1)] })) (fun t => t.jrnl.disputes == [(0, 9, 1)]) = true := by
  decide +kernel

/-! ### The timetable -/

/-- Page tables at 0x10000 that map the first GiB to itself, with these attribute bits. -/
def pages (attr : Nat) : List (Nat × Nat × Nat) := [(0x10000, 8, 0x11001), (0x11000, 8, 0x12001), (0x12000, 8, attr)]
/-- A current row of context 0 for core 0, of budget 100, with its descriptor at 0x1000; the walk enabled. -/
def row00 : BitVec 256 := BitVec.ofNat 256 (2 ^ 81 + 5 * 2 ^ 83 + 100 * 2 ^ 96 + 2 ^ 128 + 0x1000 * 2 ^ 192)
def walking (co : Core) (ls : List Launch) (mem : List (Nat × Nat × Nat)) : State :=
  { st co with launches := ls, mem := filled (pages 15 ++ mem ++ [(0x1018, 8, 0x10000)]), dies := [(0, { Die.init with rows := [(0, row00)], ttctl := 1 })], scans := [(32, 1)], plat := { Platform.init with bootStep := 6 } }
/-- A launch whose one unit, on core 0, is at its first segment, whose header is at 0x100. -/
def launch1 : Launch := { launch0 [{ lunit 0 with nextSeg := 0 }] with kaddr := 0x100 }
/-- Core 0 with no segment, bound to context 0 with its tables, in a phase. -/
def phased (p : Phase) : Core := { co0 with ptbase := 0x10000, im := { co0.im with seg := none }, walk := { co0.walk with phase := p, fresh := false, budget := 100 } }

theorem test_walk_enters_a_row : (walking Core.init [launch1] []).nextRow 0 = some 0 ∧
    after (exec (.dispatch 0) (walking Core.init [launch1] [])) (fun t =>
      (t.core 0).walk.budget == 100 && (t.core 0).walk.prio == 5 && (t.core 0).walk.phase == .load 0 2048 && ((t.rowLease 0 0).busy.getLsbD 0)) = true := by decide +kernel

theorem test_segment_is_dispatched : (match (walking (phased (.advance 0)) [launch1] [(0x100, 4, 10)]).readSegment 0 0 0x100 with
      | .ok ld _ => ld.cost == 10 && !ld.lease
      | _ => false) = true ∧
    after (exec (.dispatch 0) (walking (phased (.advance 0)) [launch1] [(0x100, 4, 10)])) (fun t =>
      (t.core 0).walk.phase == .running && (t.core 0).walk.budget == 90 && (t.core 0).im.seg.any (fun g => g.cost == 10 && g.hdr == 0x100)) = true ∧
    after (exec (.dispatch 0) (walking (phased (.advance 0)) [launch1] [])) (fun t => (t.die 0).trapWait.map (fun r => (r.cause, r.status, r.seg)) == [(0xC, 2, 0x100)] && t.stopBit 0 0) = true := by
  decide +kernel

theorem test_stopped_segment_goes_on : after (exec (.dispatch 0) (walking { phased (.advance 0) with im := { co0.im with seg := some { fetchSeg with cost := 10 } } } [] [])) (fun t =>
      (t.core 0).walk.phase == .resume && (t.core 0).walk.budget == 90) = true ∧
    after (exec (.resume 0 0) (st (phased .resume))) (fun t => (t.core 0).walk.phase == .running) = true := by decide +kernel

theorem test_stopped_core_sets_its_bit : after (exec (.dispatch 0) (walking { co0 with stops := { co0.stops with stop := .stopped 3 true } } [] [])) (fun t => t.stopBit 0 0) = true := by
  decide +kernel

theorem test_lease_granted_to_dispatch : after (exec (.dispatchLeaseGrant 0) (arrSt (phased (.leaseWait 0 false)) { ArrSt.init with holder := some 0 })) (fun t =>
    (t.core 0).walk.phase == .running) = true := by decide +kernel

theorem test_switch : (phased (.drain 0 (some (5, 7)))).drained = true ∧
    after (exec (.switch 0) (st (phased (.drain 0 (some (5, 7)))))) (fun t => !(t.core 0).bound && (t.core 0).walk.phase == .load 7 2048 && (mfind t.images (imageKey 0 0)).isSome) = true ∧
    after (exec (.switch 0) (st (phased (.drain 0 none)))) (fun t => (t.core 0).walk.phase == .idle) = true ∧
    after (exec (.switch 0) { walking { Core.init with walk := { Core.init.walk with phase := .load 0 0 } } [] [(0x1090, 8, 0x20000), (0x20006, 2, 9)] with
      images := [(imageKey 0 0, { co0.im with sched := 4 })] }) (fun t =>
        (t.core 0).bound && (t.core 0).im.sched == 4 && (t.core 0).walk.phase == .advance 0 && mget 0 (t.core 0).im.sems 3 == 9) = true := by decide +kernel

theorem test_releases_find_their_semaphore : after (exec (.semaphoreImageRelease 0 0 3) { st co0 with relQ := [(0, 0, 3)] }) (fun t =>
      t.relQ == [] && mget 0 (t.core 0).im.sems 3 == 1) = true ∧
    after (exec (.semaphoreImageRelease 0 0 3) { walking Core.init [] [(0x1090, 8, 0x20000), (0x20006, 2, 9)] with relQ := [(0, 0, 3)] }) (fun t => t.homeNat 0x20006 2 == 10) = true := by
  decide +kernel

theorem test_gang_enters : after (exec (.gangEntry 0 0) (walking { Core.init with walk := { Core.init.walk with phase := .gangWait 0 } } [] [])) (fun t =>
    (t.core 0).walk.phase == .load 0 2048) = true := by decide +kernel

theorem test_row_retires : after (exec (.rowLoad 0 0) { st co0 with dies := [(0, { Die.init with rows := [(0, row00)], pending := [(0, BitVec.ofNat 256 (2 ^ 81 + 5))], leases := [(0, ⟨0, true, true⟩)] })], plat := { Platform.init with bootStep := 6 } }) (fun t =>
    t.row 0 0 == BitVec.ofNat 256 (2 ^ 81) && !(t.rowLease 0 0).retire) = true := by decide +kernel

/-! ### What the management core writes -/

/-- A slab command: operation, context 0, slabs from first on, of core 0. -/
def slabWord (op first n : Nat) : Word := BitVec.ofNat 64 (first * 2 ^ 22 + n * 2 ^ 34 + op * 2 ^ 62)

theorem test_management_writes : after (exec (.ttctlWrite 0 0xFFFE) (st co0)) (fun t => (t.die 0).ttctl == 0x3FE) = true ∧
    after (exec (.bindRecordWrite 1 511 false (BitVec.ofNat 256 (2 ^ 81 + 1))) { st co0 with plat := { Platform.init with bootStep := 6 } }) (fun t => t.row 1 511 == BitVec.ofNat 256 (2 ^ 81)) = true ∧
    after (exec (.leaseTableWrite 0 3 3) (st co0)) (fun t => (t.rowLease 0 3).retire && (t.rowLease 0 3).pend) = true ∧
    after (exec (.registerWrite 0 0x48 7) (st co0)) (fun t => (t.die 0).skcfg == 7) = true ∧ after (exec (.registerWrite 0 0x49 7) (st co0)) (fun t => t.hrcfg == 7) = true ∧
    after (exec (.registerWrite 127 0x2D 160) (st co0)) (fun t => (t.core 127).swthr == 160) = true ∧
    after (exec (.registerWrite 1 0x1FF 9) (st co0)) (fun t => (t.qent 511).ctx == 9) = true ∧
    after (exec (.registerWrite 33 0x200 9) (st co0)) (fun t => mfind t.plat.vfs 33 == some { ctx := 9, slots := [] }) = true := by decide +kernel

theorem test_slab_commands : after (exec (.slabcmdRenew 0 (slabWord 1 0 2)) { st (slabbed 1 co0) with cyc := 480000 }) (fun t => (t.die 0).slabRen == [(480015, 0, 0, 0)]) = true ∧
    after (exec (.slabcmdFree 0 (slabWord 2 0 2)) (st (slabbed 1 co0))) (fun t => ((t.core 0).slab 0).kind == .free) = true ∧
    after (exec (.slabcmdClaim 0 (slabWord 3 1 2)) (st (slabbed 1 co0))) (fun t => ((t.core 0).slab 2).kind == .live && !((t.core 0).slab 2).born && !(t.die 0).slabcmd.getLsbD 1) = true ∧
    after (exec (.slabcmdClaim 0 (slabWord 3 3071 2)) (st co0)) (fun t => (t.die 0).slabcmd.getLsbD 1) = true ∧
    after (exec (.slabcmdClaim 0 (slabWord 3 3071 1)) (st co0)) (fun t => (t.die 0).slabcmd.getLsbD 1) = false ∧
    after (exec (.slabcmdFree 0 (slabWord 2 0 2)) { st (slabbed 1 co0) with dies := [(0, { Die.init with slabBusy := 1 })] }) (fun t => ((t.core 0).slab 0).kind == .live) = true := by decide +kernel

theorem test_translation_commands : after (exec (.tlbcmdContext 0 (BitVec.ofNat 64 (2 * 2 ^ 62))) (st (tlbd co0))) (fun t => (t.core 0).ms.tlb == []) = true ∧
    after (exec (.tlbcmdPage 0 (BitVec.ofNat 64 (2 ^ 62))) (st (tlbd co0))) (fun t => (t.core 0).ms.tlb == []) = true ∧
    after (exec (.tlbcmdPage 0 (BitVec.ofNat 64 (2 ^ 62))) { st (tlbd co0) with dies := [(0, { Die.init with tlbBusy := 1 })] }) (fun t => (t.core 0).ms.tlb.length == 1) = true := by decide +kernel

/-! ### Traps, removals, scans, faults of translation -/

def info0 : TrapInfo := { cause := 0xB, status := 7, addr := 9, cls := 0, engine := 0, uidx := 0 }
/-- A record of a trap that core 0 took. -/
def rec0 : TrapRec :=
  { seg := 0, addr := 0, tstep := 0, sched := 2, status := 0, cmd := 0, cause := 0xB, engine := 0, uidx := 0, seq := 0, cls := 0, ctx := 0, die := 0, core := 0, npend := 0, more := 0, waits := false, pend := false }

theorem test_trap_is_recorded : ((st (atCycle 7)).trapHere info0).me.stops.recs.map (fun r => (r.cause, r.status, r.addr, r.sched)) = [(0xB, 7, 9, 7)] ∧
    ((st (atCycle 7)).trapHere info0).me.stops.stop = .trapped 7 0 true ∧ ((st (atCycle 7)).trapHere info0).me.im.k.regs = co0.im.k.regs := by decide +kernel

theorem test_trap_stops_the_core : after (exec (.trapStop 0) { st { co0 with stops := { co0.stops with stop := .trapped 2 3 true, recs := [rec0] } } with cyc := 4 }) (fun t =>
      (t.core 0).stops.stop == .stopped 2 true && (t.core 0).stops.recs == [] && (t.die 0).trapWait == [rec0]) = true ∧
    after (exec (.trapRecordEnqueue 0) { st co0 with dies := [(0, { Die.init with trapWait := [rec0] })] }) (fun t => (t.die 0).trapq == [rec0.bits] && (t.die 0).trapWait == []) = true ∧
    after (exec (.trapQueueTake 0) { st co0 with dies := [(0, { Die.init with trapq := [rec0.bits] })] }) (fun t => (t.die 0).trapq == []) = true := by decide +kernel

/-- Every sequencer of core 0 halted. -/
def haltedCo : Core := imOf (fun im => { im with sched := 3, seg := some { fetchSeg with cost := 3 } })
def unhalted (timed : Bool) (n : Nat) : Core := imOf (fun im => { im with k := { im.k with halted := none }, sched := n, seg := some { fetchSeg with cost := 3, timed := timed } })

theorem test_segment_ends : (st haltedCo).segmentEndAt 0 { fetchSeg with cost := 3 } = some 0 ∧
    after (exec (.segmentEnd 0) (st haltedCo)) (fun t => (t.core 0).im.seg == none && (t.core 0).walk.phase == .advance 0) = true ∧
    after (exec (.segmentEnd 0) (st { haltedCo with im := { haltedCo.im with perr := some ⟨0x47, 0, 0, 0, 5, 0, false, 0⟩ } })) (fun t =>
      (t.core 0).stops.recs.map (fun r => (r.cause, r.cls, r.addr)) == [(0x47, 2, 5)]) = true := by decide +kernel

theorem test_overruns : after (exec (.overrunUntimed 0) (st (unhalted false 6))) (fun t => (t.core 0).stops.recs.map (fun r => (r.cause, r.cls, r.sched)) == [(0x21, 1, 6)]) = true ∧
    after (exec (.overrunTimed 0) (st (unhalted true 3))) (fun t => (t.core 0).stops.recs.map (fun r => (r.cause, r.cls, r.sched)) == [(0x22, 1, 3)]) = true := by decide +kernel

theorem test_refused_overrun : exec (.overrunUntimed 0) (st (unhalted false 5)) = .refused (.notEnabled "OVERRUN_UNTIMED") := rfl

def removing (step deadline : Nat) (s : State) : State := { s with removals := [(0, { step := step, deadline := deadline, cause := 0x82, engine := 0, unit := 0, status := 0 })] }

theorem test_removal : after (exec (.contextRemoval 0) (st co0)) (fun t => (mfind t.removals 0).any (fun x => x.step == 1 && x.deadline == 65536) && (t.core 0).stops.stop == .stopped 0 true) = true ∧
    after (exec (.contextRemoval 0) (removing 0 0 (st co0))) (fun t => (mfind t.removals 0).any (fun x => x.step == 1)) = true ∧
    (removing 1 9 (st co0)).inFlightAt 0 1 = none ∧
    after (exec (.removalStep 0) (removing 1 9 (st co0))) (fun t => (mfind t.removals 0).any (fun x => x.step == 2)) = true ∧
    after (exec (.removalStep 0) (removing 8 9 (st Core.init))) (fun t => (mfind t.removals 0).any (fun x => x.step == 9) && (t.die 0).trapWait.map (fun r => (r.cause, r.cls)) == [(0x82, 3)]) = true ∧
    after (exec (.removalStep 0) (removing 9 9 (st Core.init))) (fun t => t.removals == []) = true ∧
    after (exec (.removalBoundExpire 0) (removing 1 0 (st (loadsOut [load0])))) (fun t => (mfind t.removals 0).any (fun x => x.cause == 0x87 && x.step == 1)) = true := by decide +kernel

def scanning (s : State) : State := { s with plat := { Platform.init with bootStep := 6 } }

theorem test_scans : (scanning (st Core.init)).scanDue 0 = true ∧ (scanning (st Core.init)).unitDrained 0 = true ∧
    after (exec (.rotationScanSlot 0 true) (scanning (st Core.init))) (fun t => mget 0 t.gens 0 == 1 && t.fenced == []) = true ∧
    after (exec (.rotationScanSlot 0 false) (scanning (st Core.init))) (fun t => t.fenced == [0] && t.outbox.contains (.suspectNotice none 0 0 0 0 0)) = true ∧
    after (exec (.unitReturnToService 159) { st Core.init with fenced := [159, 3], healed := [159] }) (fun t => t.fenced == [3]) = true := by decide +kernel

/-- K walks for a read at 8, over these tables. -/
def walker (attr : Nat) (refused : Bool) : State :=
  { st { co0 with ptbase := 0x10000, ms := { co0.ms with hold := some (.walk 8 0 0 0 16 refused none) } } with mem := filled (pages attr) }

theorem test_walks : after (exec (.pageWalkComplete 0) (walker 15 false)) (fun t => (t.core 0).ms.tlb.length == 1 && (t.core 0).ms.hold == none) = true ∧
    after (exec (.pageWalkComplete 0) (walker 0 false)) (fun t => (t.core 0).ms.hold == some (.walk 8 0 0 0 64 false (some 0)) && (t.die 0).fbuf.length == 1) = true ∧
    after (exec (.faultRefusalRetry 0) (walker 15 true)) (fun t => (t.core 0).ms.tlb.length == 1 && (t.core 0).ms.hold == none) = true := by decide +kernel

theorem test_prefetch : after (exec (.prefetchWalk 0 1) { walker 15 false with pfetch := [(1, (0, 0x2000))] }) (fun t =>
    t.pfetch == [] && (mget [] t.stlb 1).length == 1) = true := by decide +kernel

def wire0 : Wire := { ctx := 0, cores := [0], f := 0, u := none, recs := [(0, 3)] }
def frec : FaultRec := { va := 0, tstep := 0, ctx := 0, cause := 0, level := 0, reason := 0, kind := 0, die := 0, core := 0, unit := 0, uidx := 0, joined := 0, state := 1 }

theorem test_group_freezes_and_thaws : after (exec (.groupFreeze 0) { st co0 with wires := [wire0], cyc := 48 }) (fun t => (t.core 0).stops.frozen) = true ∧
    after (exec (.groupThaw 0) { st { co0 with stops := { co0.stops with frozen := true } } with wires := [{ wire0 with u := some 0, recs := [] }], cyc := 48 }) (fun t =>
      t.wires == [] && !(t.core 0).stops.frozen) = true := by decide +kernel

theorem test_fault_records_are_settled : after (exec (.faultRetryWrite 0 3) { st co0 with dies := [(0, { Die.init with fbuf := [(3, frec)] })] }) (fun t =>
      (mfind (t.die 0).fbuf 3).any (fun r => r.state == 0)) = true ∧
    after (exec (.faultDeliverWrite 0 3) { st co0 with dies := [(0, { Die.init with fbuf := [(3, frec)] })], wires := [wire0], cyc := 9 }) (fun t =>
      (mfind (t.die 0).fbuf 3).any (fun r => r.state == 3) && t.wires == [{ wire0 with u := some 9 }]) = true ∧
    after (exec (.faultRetryWrite 0 3) { st co0 with dies := [(0, { Die.init with fbuf := [(3, { frec with state := 2 })] })] }) (fun t =>
      (mfind (t.die 0).fbuf 3).any (fun r => r.state == 2)) = true := by decide +kernel

theorem test_page_migration : (walker 15 false).leafAt 0 4 0x10000 = some (0x12000, 15, 2) ∧ canonical 0 = true ∧ (walker 15 false).paKind 0x40000000 = .home ∧
    (exec (.pageMigration 0 0 0x40000000) (walker 0x10F false)) = .next (walker 0x10F false) := by
  refine ⟨by decide +kernel, by decide +kernel, by decide +kernel, rfl⟩

/-! ### The domain, the group, checkpoints -/

/-- A request from module 1 of this operation, at 0x40. -/
def dhdr (op aop size len rid : Nat) (v : Word) : BitVec 384 := domainHdr op aop 0 size 3 0 1 0 len 0 rid 0x40 0 1 v 0
def domained (d : Domain → Domain) (mem : List Host.Cell) : State := { st co0 with dom := d { Domain.init with members := [0, 1] }, mem := mem }
def peered : State := domained id [(0x40, 5)]
/-- The operations and causes of the answers sent. -/
def answersOf (o : Host.Outcome State Fault Refusal) : List (Nat × Nat × List Byte) :=
  match o with
  | .next t => t.outbox.filterMap (fun m => match m with
      | .domain h d => some (hOp h, hCause h, d)
      | _ => none)
  | _ => []

theorem test_domain_requests : hMalformed (dhdr 1 0 0 2 0 0) = false ∧ hPseq (dhdr 1 0 0 2 0 0) = 1 ∧ peered.inDomain = true ∧
    answersOf (exec (.domainReadRequest (dhdr 1 0 0 2 0 0)) peered) = [(9, 0, [5, 0])] ∧
    after (exec (.domainWriteRequest (dhdr 2 0 0 2 0 0) [7, 8]) peered) (fun t => t.homeNat 0x40 2 == 0x807 && (t.peer 1).next == 2) = true ∧
    after (exec (.domainAtomicRequest (dhdr 3 0x54 2 0 77 3)) peered) (fun t => t.homeNat 0x40 4 == 8 && (t.peer 1).ids == [(77, 5, 0)]) = true ∧
    answersOf (exec (.domainSkip (dhdr 12 0 0 0 0 0)) peered) = [(10, 0, [])] := by decide +kernel

theorem test_domain_refusals : after (exec (.domainAtomicRequest (dhdr 3 0x54 2 0 77 3)) (domained (fun d => { d with peers := [(1, ⟨1, [], [], [(77, 9, 0)], []⟩)] }) [(0x40, 5)])) (fun t =>
      t.homeNat 0x40 4 == 5) = true ∧
    answersOf (exec (.domainReadRequest (domainHdr 1 0 0 0 3 0 1 0 2 0 0 0x6000000000 0 1 0 0)) peered) = [(9, 0x47, [0, 0])] ∧
    hMalformed (dhdr 5 0 0 2 0 0) = true ∧ after (exec (.domainSkip (dhdr 5 0 0 2 0 0)) peered) (fun t => (t.die 0).elogN == 1) = true := by decide +kernel

/-- A request of queue 0's engine to module 1, with its answer. -/
def dreq (op : Nat) : DReq :=
  { target := 1, pseq := 1, hdr := domainHdr op 0 0 0 3 0 0 1 2 0 0 0x40 0 1 0 0, data := [], core := 1152, acc := 0x40, tries := 1, sentAt := 0, skip := false, va := 0, origin := 0 }
def asking (op : Nat) (f : DReq → DReq) : State := domained (fun d => { d with reqs := [f (dreq op)] }) []

theorem test_domain_responses : after (exec (.domainReadResponse (dhdr 9 0 0 2 0 0) [3, 4]) (asking 1 id)) (fun t => t.dom.reqs == [] && t.dom.answers == [⟨1024, 0x40, [3, 4], 0⟩]) = true ∧
    after (exec (.domainWriteAck (dhdr 10 0 0 0 0 0)) (asking 2 id)) (fun t => t.dom.reqs == []) = true ∧
    after (exec (.domainWriteAck (domainHdr 10 0 0 0 3 0 1 0 0 0 0 0x40 0x47 1 0 0)) (asking 2 id)) (fun t => t.dom.answers == [⟨1024, 0x40, [], 0x47⟩]) = true ∧
    after (exec (.domainAtomicResponse (dhdr 11 0 0 0 0 6)) (asking 3 id)) (fun t => t.dom.answers == [⟨1024, 0x40, leBytes 8 6, 0⟩]) = true := by decide +kernel

theorem test_domain_resends : after (exec (.domainResendTimeout 1 1) { asking 1 id with cyc := 192000 }) (fun t => t.dom.reqs == [{ dreq 1 with tries := 2, sentAt := 192000 }] && t.outbox.length == 1) = true ∧
    after (exec (.domainResendTimeout 1 1) { asking 1 (fun r => { r with tries := 12 }) with cyc := 192000 }) (fun t =>
      t.dom.reqs.all (fun r => r.skip) && t.dom.answers.map (fun a => (a.agent, a.cause)) == [(1024, 0xA1)]) = true ∧
    after (exec (.domainResendTimeout 1 1) { asking 1 (fun r => { r with skip := true }) with cyc := 192000 }) (fun t => t.dom.reqs.all (fun r => r.sentAt == 192000)) = true := by decide +kernel

/-- An atomic of K in module 1's window that waits for the rate; and the link's error on a load of die 1's memory. -/
def heldAtomic : GAcc := { load0 with kind := 2, pa := 0x8040000000040, todo := some (0x54, 0, 3, 0), want := [], err := none }

theorem test_held_atomics_and_link : (st co0).paKind 0x8040000000040 = .refused 0xA0 ∧ (domained id []).paKind 0x8040000000040 = .window 1 0x40 ∧ heldAtomic.unperformed = true ∧
    after (exec (.domainAtomicRateRelease 1) { domained (fun d => { d with held := [(1, 0, 0)] }) [] with cores := [(0, { co0 with ms := { co0.ms with gacc := [heldAtomic] } })] }) (fun t =>
      t.dom.held == [] && t.outbox.length == 1) = true := by decide +kernel

/-- An address whose home is the other die. -/
def farLoad : GAcc := { load0 with kind := 0, err := none, want := [], pa := ((upTo 0 64).map (fun i => 256 * i)).find? (fun a => homeDie a != 0) |>.getD 0 }

theorem test_link_error : homeDie farLoad.pa ≠ 0 ∧
    after (exec (.d2dUncorrectableError 0) (st { co0 with ms := { co0.ms with gacc := [farLoad] } })) (fun t => (t.core 0).ms.gacc.map (fun g => g.err) == [some 0x83]) = true := by decide +kernel

/-- The module with its firmware running, and nothing else. -/
def on_ : State := { State.reset with plat := { Platform.init with bootStep := 3 } }

theorem test_groups : (State.reset).unbound = true ∧ after (exec (.domainMembershipChange 63 [0, 63]) on_) (fun t => t.dom.modid == 63 && t.dom.members == [0, 63]) = true ∧
    after (exec (.groupFormation 0x20001 1000) { on_ with dom := { Domain.init with members := [0, 1] } }) (fun t => t.dom.dgrp == 0x20001 && t.cyc == 1024 + 16384) = true ∧
    after (exec (.linkRetrain 5) { State.reset with dom := { Domain.init with dgrp := 0x20001 } }) (fun t => t.dom.dgrp == 0) = true ∧
    after (exec (.groupLeave 0 1) { State.reset with dom := { Domain.init with dgrp := 0x20101 } }) (fun t => fld t.dom.dgrp.toNat 8 8 == 0 && fld t.dom.dgrp.toNat 16 8 == 1 && fld t.dom.dgrp.toNat 24 16 == 1) = true ∧
    after (exec (.groupLeave 1 0) { State.reset with dom := { Domain.init with dgrp := 0x20101 } }) (fun t => t.dom.dgrp == 0) = true := by decide +kernel

theorem test_link_within_its_phase : exec (.linkRetrain 4) State.reset = .next State.reset := rfl

theorem test_m_level_start : after (exec (.mLevelStart 0) { State.reset with launches := [{ launch1 with started := false }] }) (fun t => t.launches == []) = true ∧
    after (exec (.mLevelStart 0) { State.reset with launches := [{ launch1 with started := false }], dom := { Domain.init with dgrp := 0x20001 } }) (fun t => t.launches.all (fun l => l.started)) = true := by
  decide +kernel

theorem test_checkpoint_and_restore : after (exec .wholeMemoryCheckpoint { on_ with mem := [(0x40, 5)] }) (fun t => t.outbox == [.checkpoint [(0x40, 5)]]) = true ∧
    after (exec (.wholeMemoryRestore [(0x41, 6)]) { on_ with mem := [(0x40, 5)] }) (fun t => t.mem == [(0x41, 6)]) = true := by decide +kernel

/-! ### Hosts, boot, resets, thermal shutdown -/

/-- Both ports are up. -/
def hosted (p : Platform → Platform) (mem : List Host.Cell) : State := { st co0 with plat := p { Platform.init with bootStep := 6 }, mem := mem }

theorem test_host_writes : (hosted id []).barUp 1 0 = true ∧ after (exec (.hostWrite 1 0 0x40 [1, 2]) (hosted id [])) (fun t => t.homeNat 0x40 2 == 0x201) = true ∧
    after (exec (.hostWrite 1 1 0x40 [1, 2]) (hosted id [])) (fun t => t.outbox == [.completerAbort 1 1]) = true ∧
    after (exec (.hostWrite 0 0 0x40 [1]) (hosted (fun p => { p with thermal := true }) [])) (fun t => t.outbox == [.completerAbort 0 0]) = true ∧
    after (exec (.hostAtomicOp 0 0 0x40 0 4 3 0) (hosted id [(0x40, 5)])) (fun t => t.homeNat 0x40 4 == 8 && t.outbox == [.hostData 0 0 5]) = true ∧
    after (exec (.hostAtomicOp 0 16 0x40 0 4 3 0) (hosted id [])) (fun t => t.outbox == [.completerAbort 0 16]) = true := by decide +kernel

theorem test_doorbell : after (exec (.doorbellWrite 0 1 63 9) { attached front0 [] [(0x808, 7)] with plat := { Platform.init with bootStep := 6, vfs := [(1, { ctx := 0, slots := [(63, 0)] })] } }) (fun t =>
      t.homeNat 0x808 8 == 9) = true ∧
    after (exec (.doorbellWrite 0 1 63 9) (hosted id [])) (fun t => t.outbox == [.completerAbort 0 1]) = true := by decide +kernel

theorem test_takeover : after (exec (.mailboxTakeover 0 true) (hosted (fun p => { p with vfs := [(18, { ctx := 5, slots := [] })] }) [])) (fun t =>
      t.plat.takeover == none && t.plat.vfs.map (fun x => x.2.ctx) == [5] && (mfind t.plat.vfs 1).isSome) = true ∧
    after (exec (.mailboxTakeover 0 false) (hosted id [])) (fun t => t.plat.takeover == some 0) = true ∧
    after (exec (.hostLinkDown 1) (hosted (fun p => { p with takeover := some 0, vfs := [(18, { ctx := 5, slots := [] })] }) [])) (fun t =>
      t.plat.takeover == none && (mfind t.plat.vfs 1).isSome && mget true t.plat.linkUp 1 == false) = true := by decide +kernel

/-- R436: with no copy in flash the module enters recovery. -/
theorem test_boot_without_records : Platform.init.choose 0 = none ∧ after (exec (.bootRecordAccept 0) State.reset) (fun t => t.plat.recovery && t.plat.bootStep == 2) = true ∧
    after (exec .firmwareTraining (hosted (fun p => { p with bootStep := 3 }) [])) (fun t => t.plat.bootStep == 4) = true ∧
    after (exec .bootStoreLoad (hosted (fun p => { p with bootStep := 4 }) [])) (fun t => t.plat.recovery) = true ∧
    after (exec .bootScan (hosted (fun p => { p with bootStep := 5 }) [])) (fun t => t.plat.bootStep == 6 && mget 0 t.gens 159 == 1) = true ∧
    after (exec (.mailboxRecordWrite true 4 [1, 2]) (hosted id [])) (fun t => mget [] t.plat.flash 9 == [1, 2]) = true := by decide +kernel

theorem test_quote : exec (.attestationQuote 5) (hosted id []) = .next ((hosted id []).send (.quote 0 (quoteSign 0 5))) := rfl

theorem test_resets : after (exec .moduleReset (hosted (fun p => { p with flash := [(0, [9])], floor := 3 }) [(5, 6)])) (fun t =>
      t.mem == [] && t.cores == [] && t.plat.bootStep == 2 && t.plat.floor == 3 && mget [] t.plat.flash 0 == [9]) = true ∧
    after (exec .moduleReset (hosted (fun p => { p with thermal := true, hot := true }) [])) (fun t => t.plat.resetReq && t.plat.thermal) = true ∧
    after (exec (.functionLevelReset 0 0) (hosted id [(5, 6)])) (fun t => t.mem == []) = true ∧
    after (exec (.functionLevelReset 0 1) (hosted (fun p => { p with vfs := [(1, { ctx := 5, slots := [] })] }) [])) (fun t => (mfind t.removals 5).any (fun x => x.step == 1)) = true := by decide +kernel

theorem test_thermal_shutdown : after (exec (.thermalShutdown true) (hosted id [(5, 6)])) (fun t => t.plat.thermal && t.plat.hot && t.mem == [] && t.cores == [] && t.outbox.length == 2) = true ∧
    after (exec .thermalShutdownExit (hosted (fun p => { p with thermal := true, hot := true }) [])) (fun t => !t.plat.hot && t.plat.thermal) = true ∧
    after (exec .thermalShutdownExit (hosted (fun p => { p with thermal := true, resetReq := true }) [])) (fun t => !t.plat.thermal && t.plat.bootStep == 2) = true := by decide +kernel

/-! ### The machine as a whole -/

/-- K of core 0 at a stream whose one word is `halt` of slot 0, whose guard has this sense. -/
def running (sense : BitVec 1) : State :=
  { st (kOf (fun k => { k with halted := none, buf := [0x00000000], table := [(0, { t := ((encode .k 0 sense (.halt mgtF)).getD 0), reason := 0, loading := false })] })) with
    plat := { Platform.init with bootStep := 6 } }

theorem test_step_runs_the_group : inputStep (running 0) = none ∧ firstEnabled (running 0) (running 0).candidates = none ∧ (running 0).nextIssue = some (0, .k) ∧
    (match ((running 0).core 0).fetch 0 .k with
      | .run i _ => i == .halt mgtF
      | _ => false) = true ∧ after (step (running 0)) (fun t => (t.core 0).im.k.halted == some 1) = true := by decide +kernel

theorem test_step_goes_past_a_false_guard : (match ((running 1).core 0).fetch 0 .k with
      | .skip _ => true
      | _ => false) = true ∧ after (step (running 1)) (fun t => (t.core 0).im.k.halted == none && (t.core 0).im.k.pc == 4) = true := by decide +kernel

/-- After its last group the cycle ends. -/
theorem test_cycle_ends : (st (unhalted false 5)).nextIssue = some (0, .k) ∧
    (let s := st (imOf (fun im => { im with flight := [⟨9, 0, 0, .k, .reg .k 1 5⟩] }))
     s.nextIssue = none ∧ inputStep s = none ∧ s.endCycle.cyc = 1) := by decide +kernel

/-- An instruction of each frame leaves what it does not name. -/
theorem test_frames : registerDests (.add { regF with d := 3, a := 1 }) ≠ none ∧
    after (exec (.add { regF with d := 3, a := 1 }) (st (g1 (slabbed 1 co0) 7))) (fun t => t.me.spad == [] && t.me.posted == [] && t.me.im.k.regs == (g1 co0 7).im.k.regs && t.me.im.flight.length == 1) = true := by
  refine ⟨by simp [registerDests], by decide +kernel⟩

theorem test_reset_is_ready : (st co0).Ready [] ∧ Memory.wf State.reset.mem = true ∧ Memory.wf [(3, 1), (3, 2)] = false ∧ Memory.wf [(3, 0)] = false := by decide +kernel

/-! ## The word that is placed is the first to run -/

/-- The decoder's reading of a word, and that the very next step executes it. -/
def firstStepRuns (nbits w : Nat) (i : Instr) : Bool :=
  decide (decodeTableWord nbits w = some i) &&
    (match step (State.reset.withFetchWord nbits w), exec i (State.reset.withFetchWord nbits w) with
     | .next a, .next b => decide (a = b)
     | _, _ => false)

/-- A call word (R31): F at [25:21], I at [20:16], V at [15:0]; with an idle count. -/
theorem test_first_step_call : firstStepRuns 32 0xF8E31234 (.macroCall 7 3 0x1234 0 0 0) = true := by decide +kernel

/-- The templates of the examples of R54 and R59. -/
theorem test_first_step_template :
    firstStepRuns 128 0x3D800000000000000109000000003160 (.cmp { d := 0, a := 11, b := 12, imm := 0, var := 2, pa := 1, pb := 2 }) = true ∧
    firstStepRuns 128 0x08800000000000002000000000000000 (.entry { off := 0, a := 0, cnt := 0, frame := 1, var := 0, pa := 0 }) = true := by
  decide +kernel

/-! ### Errors, orders and completions -/

/-- The core with these registers in error. -/
def erring (fs : List RegFlaw) (co : Core) : Core := { co with im := { co.im with flaws := fs } }
/-- A domain atomic of K that has not been performed. -/
def owing (co : Core) : Core := { co with ms := { co.ms with gacc := [{ load0 with id := 1, kind := 2, nb := 8, todo := some (0x54, 0, 1, 0) }] } }

/-- R348: a register in error that is read, and one that is not. -/
theorem test_register_in_error : (st (erring [.reg .k 1] co0)).flawed [1] = true ∧ (st (erring [.reg .k 1] co0)).interlock [1] = none ∧
    caught (exec (.mov { regF with d := 2, a := 1 }) (st (erring [.reg .k 1] co0))) = some (0x80, 0) ∧
    flights (exec (.mov { regF with d := 2, a := 3 }) (st (erring [.reg .k 1] co0))) = [(1, .reg .k 2 0)] ∧
    caught (exec (.sel { regF with pa := 4 }) (st (erring [.pred .k 4] co0))) = some (0x80, 0) := by decide

/-- R348: a port entry in error. -/
theorem test_port_in_error :
    let co := imOf (fun im => { im with vec := { im.vec with ports := [(0, [0])], bad := [.port 0 0] } })
    caught (exec (.vmov { vecF with a := 0x60 }) (st co .c)) = some (0x80, 0) := by decide +kernel

/-- A load of a home that holds an uncorrectable error (R345). -/
theorem test_home_in_error : ({ st (g1 (tlbd co0) 8) with bad := [8] } : State).homeBad 0 0 8 1 = true ∧
    after (exec (.ldGlobal { memF with d := 2, base := 1 }) { st (g1 (tlbd co0) 8) with bad := [8] }) (fun t => t.me.ms.gacc.map (fun g => g.err) == [some 0x83]) = true := by
  decide +kernel

/-- R235: a fence waits for an earlier atomic, a release of `srel` stands behind it, and is made when it has been performed. -/
theorem test_boundaries_behind_atomics : (st (owing co0)).ordered 0 = false ∧ waits (exec (.fenceRel { mgtF with var := 3 }) (st (owing co0))) = some (0xA, 0) ∧
    after (exec (.srel { mgtF with idx := 3, n := 1, var := 3 }) { st (owing (pendingByte co0)) with serial := 2 }) (fun t => t.me.ms.rels == [(2, 3)] && t.me.ms.pend.length == 1) = true ∧
    after (exec (.boundaryComplete 0) (st { pendingByte co0 with ms := { (pendingByte co0).ms with rels := [(2, 3)] } })) (fun t =>
      (t.core 0).ms.rels == [] && (t.core 0).ms.pend == [] && t.homeByte 5 == 7) = true := by decide

/-- R278: a try with too little on its semaphore never waits. -/
theorem test_sacq_try_of_domain_scope_with_too_little :
    flights (exec (.sacqTry { mgtF with idx := 3, n := 3, var := 4, pa := 1 }) (st (timedCo (sem3 2)))) = [(1, .pred .k 1 false)] ∧
    caught (exec (.sacqTry { mgtF with idx := 3, n := 2, var := 4, pa := 1 }) (st (timedCo (sem3 2)))) = some (0x20, 0) := by decide

/-- R34, R71: L's macro 7 is defined again while L is inside it: the old body stands until L is out. -/
theorem test_mdef_while_inside :
    let inside (q : SeqSt) : SeqSt := { q with mpos := some { m := 7, next := 0, p0 := 0, p1 := 0, p2 := 0, p3 := 0, body := [entryOf 1], idle := 0, ret := 4 }, macros := [(7, [entryOf 1])] }
    let co := { defining [bodyWord] with im := { (defining [bodyWord]).im with l := inside (defining [bodyWord]).im.l } }
    (co.im.seq .l).inside 7 = true ∧ after (exec (.mdefBodyCheck 0) { st co with cyc := 3 }) (fun t => t.me.ms.hold.isNone &&
      (t.core 0).im.l.redef == some [entryOf bodyWord] && mfind (t.core 0).im.l.macros 7 == some [entryOf 1]) = true := by decide

/-- R41: the slots of a `tld` are marked as it begins. -/
theorem test_tld_marks_its_slots : after (exec (.tld { mgtF with a := 1, n := 2, slot := 5, seq := 1, var := 1 }) (st (slabbed 1 co0))) (fun t =>
    (mget Slot.empty t.me.im.l.table 5).loading && (mget Slot.empty t.me.im.l.table 6).loading && !(mget Slot.empty t.me.im.l.table 7).loading) = true := by decide

theorem test_launch_of_one_module : ((launchSt (launching desc0 tab0)).launchRead 0 desc0 tab0).map (fun x => countsOf 3 x.2) = some [] ∧
    (launchSt (launching desc0 tab0)).ordered 0 = true ∧ (((launchSt (launching desc0 tab0)).release 0 3).core 0).im.perr = none := by decide

/-! ### Packets -/

/-- The table descriptor of `emem`, once read. -/
def desc64 : List Byte := (working (work0 (epkt 0x10 0)) (emem [2] [])).homeBytes 0x40 64
/-- What a statement about a packet at work asks of it. -/
theorem test_packet_at_work : (working { work0 (epkt 0x10 0) with buf := desc64 } (emem [2] [])).Working 3 { work0 (epkt 0x10 0) with buf := desc64 } := by
  refine ⟨rfl, rfl, by decide, rfl, rfl, by decide, by decide +kernel, by decide, ?_⟩
  decide

/-- A gather's work, and the place of its record. -/
theorem test_gather_work : (match gatherWork (work0 (epkt 0x10 0)) (working (work0 (epkt 0x10 0)) (emem [2] [])) with
      | .ok r s1 => (match s1.recordPut (work0 (epkt 0x10 0)) (recordBytes r.count r.flags 0 r.hits) with
        | .ok _ _ => r.count == 1
        | _ => false)
      | _ => false) = true ∧ ended3 (exec (.indexGather 3) (working (work0 (epkt 0x10 0)) (emem [2] []))) = some (.committed, 0) := by decide +kernel

def hotPkt (k : Nat) : BitVec 512 := packet 0x19 0 0 0 0 0 0 0x40 0x100 0 0x3000 (k * 2 ^ 8)
def hotRun (i : Instr) (k : Nat) (p : State → Bool) : Bool := after (exec i (cached false [(3, work0 (hotPkt k))] (emem [2] [(0x52, 1, 0x10)]))) p
theorem test_hot_row_operations :
    hotRun (.hotrowFill 3) 0 (fun t => (t.resident 0 0 2).isSome && t.homeNat 0x3000 8 == 1) = true ∧ hotRun (.hotrowFlush 3) 2 (fun t => t.homeNat 0x3000 8 == 0) = true ∧
    hotRun (.hotrowUnpin 3) 4 (fun t => t.homeNat 0x3000 8 == 0) = true := by decide +kernel

theorem test_installed_and_stateful_updates :
    workWrites (exec (.supdAdagrad 3) (working (work0 (cpkt 0x30 2)) (emem [1] []))) = some (0x75, [(0x3000, 0x75 * 2 ^ 72)]) ∧
    workWrites (exec (.supdAdam 3) (working (work0 (cpkt 0x30 3)) (emem [1] []))) = some (0x75, [(0x3000, 0x75 * 2 ^ 72)]) := by decide +kernel

/-- R319: the other fixed entry points, dispatched, act. -/
theorem test_near_bank_entry_points :
    let x (ep : Nat) := { work0 (packet 0x40 0 0 0 0 0 0 0x40 0x100 0x400 0x3000 ep) with stage := .dispatched, frames := (job (List.replicate 16 1)).store }
    let acts (i : Instr) (ep : Nat) : Bool := after (exec i { nearing 0xFF with works := [(3, x ep)] }) (fun t => (mfind t.works 3).any (fun y => !y.nbUndone && y.stage == .dispatched))
    acts (.nearBankColsum 3) 1 = true ∧ acts (.nearBankFill 3) 2 = true ∧ acts (.nearBankStripe 3) 3 = true := by decide +kernel

/-- R313: sixteen commands fill a unit. -/
theorem test_near_bank_room : ({ st co0 with nbHeld := [(5, List.replicate 16 9)] } : State).unitFull 5 = true ∧
    ({ st co0 with nbHeld := [(5, List.replicate 15 9)] } : State).unitFull 5 = false ∧ ({ st co0 with nbHeld := [(5, List.replicate 16 9)], cyc := 9 } : State).unitFull 5 = false := by
  decide

/-- A copy packet of a tensor without elements, whose descriptor has been read. -/
theorem test_copy_packet_of_nothing :
    let bs : List Byte := leBytes 32 1 ++ leBytes 12 (0 + 2 ^ 32 + 2 ^ 64) ++ List.replicate 84 0
    let x := { work0 (packet 2 0 0 3 0 0 0 0 0x200 0x400 0 0) with buf := bs }
    (match tensorOf bs 0 0x200 with
      | .ok t => t.empty
      | .error _ => false) = true ∧ ended3 (exec (.copyPacket 3) (working x [])) = some (.committed, 0) := by decide +kernel

/-! ### The module -/

/-- R346: the record that reports K's pending error clears it as it enters its queue, with the errors counted till then. -/
theorem test_record_of_a_pending_error :
    after (exec (.trapRecordEnqueue 0) { st (imOf (fun im => { im with perr := some ⟨0x47, 0, 0, 0, 5, 0, false, 0⟩, more := 3 })) with
      dies := [(0, { Die.init with trapWait := [{ rec0 with pend := true }] })] }) (fun t =>
        (t.core 0).im.perr == none && (t.core 0).im.more == 0 && (t.die 0).trapq.map (fun b => fld b.toNat 152 8) == [3]) = true := by decide +kernel

/-- R354: every recipient of a result with the suspect generations has its notice. -/
theorem test_suspects_are_told : after (exec (.rotationScanSlot 0 false) (let s := scanning (st Core.init); { s with gens := [(0, 4)], dom := { s.dom with stamps := [(3, 3), (5, 2), (6, 4)] } })) (fun t =>
    t.outbox.contains (.suspectNotice (some 3) 0 0 3 4 0) && t.outbox.contains (.suspectNotice (some 6) 0 0 3 4 0) && !t.outbox.contains (.suspectNotice (some 5) 0 0 3 4 0)) = true := by
  decide +kernel

/-- R360: an eight-byte write of a row's third word, and a write of another width. -/
theorem test_block_writes : after (exec (.registerWrite 8 (0xF000000000000 + 32 * 1 + 24) 7) (st co0)) (fun t => fld (t.row 0 1).toNat 192 64 == 7) = true ∧
    after (exec (.registerWrite 4 (0xF000000000000 + 24) 7) (st co0)) (fun t => (t.die 0).elogN == 1 && t.row 0 0 == 0) = true := by decide +kernel

/-- R397: a read of bytes in error is answered with 0x83, one of bytes that a command holds waits. -/
theorem test_domain_read_in_error : answersOf (exec (.domainReadRequest (dhdr 1 0 0 2 0 0)) { peered with bad := [0x40] }) = [(9, 0x83, [0, 0])] := by decide +kernel

/-- R381: a tail that is negative as a signed number does not move a queue's tail. -/
theorem test_tail_is_signed : after (exec (.queueTailWrite 0 0 0x8000000000000000) (attached front0 [] [(0x808, 7)])) (fun t => t.homeNat 0x808 8 == 7) = true := by decide +kernel

theorem test_member_of_no_domain : after (exec (.domainMembershipChange 3 [1, 2]) (st Core.init)) (fun t => t.dom.modid == 0 && t.dom.members == []) = true := by decide +kernel

theorem test_group_of_one : after (exec (.groupFormation 0x10001 5) { st Core.init with dom := { Domain.init with members := [0] } }) (fun t => t.dom.dgrp == 0x10001 && t.cyc == 16640) = true := by
  decide +kernel

/-- R366: the cores of a gang begin on one cycle, when each of them is ready. -/
theorem test_gang_begins : after (exec (.gangEntry 0 0) (walking { phased (.gangStart false) with walk := { (phased (.gangStart false)).walk with gang := true } } [] [])) (fun t =>
    (t.core 0).walk.phase == .running && !(t.core 0).walk.gang) = true := by decide +kernel

/-- R352: the scans of boot are each unit's first. -/
theorem test_boot_scan : after (exec .bootScan { st Core.init with plat := { Platform.init with bootStep := 5 } }) (fun t =>
    mget 0 t.gens 159 == 1 && !t.scanDue 0 && !t.scanDue 159) = true := by decide +kernel

/-! ### The rest of what statements ask for -/

/-- A frozen core whose K stands at fault record 3, in this state. -/
def thawing (state : Nat) : State :=
  { st { co0 with stops := { co0.stops with frozen := true }, ms := { co0.ms with hold := some (.walk 8 0 0 0 16 false (some 3)) } } with
    dies := [(0, { Die.init with fbuf := [(3, { frec with state := state, cause := 0x43 })] })], wires := [{ wire0 with u := some 0 }], cyc := 48 }

/-- R257: the thaw of a wire with records: an answered one is free again, and K translates afresh, or traps with its cause; one that is not answered stands. -/
theorem test_thaw_settles_its_records :
    after (exec (.groupThaw 0) (thawing 2)) (fun t => t.wires == [] && !(t.core 0).stops.frozen && (mfind (t.die 0).fbuf 3).any (fun r => r.state == 0) &&
      (t.core 0).ms.hold == none && (t.core 0).stops.recs == []) = true ∧
    caught (exec (.groupThaw 0) (thawing 3)) = some (0x43, 0) ∧
    after (exec (.groupThaw 0) (thawing 1)) (fun t => (mfind (t.die 0).fbuf 3).any (fun r => r.state == 1) && (t.core 0).ms.hold.isSome) = true := by decide +kernel

/-- R436, R440: before step 3 of the boot order, and in a thermal shutdown, the management core writes nothing. -/
theorem test_unmanaged : State.reset.managed = false ∧ (hosted (fun p => { p with thermal := true }) []).managed = false ∧ exec (.ttctlWrite 0 6) State.reset = .next State.reset ∧
    exec (.bindRecordWrite 0 1 false row00) State.reset = .next State.reset ∧ exec (.contextRemoval 3) State.reset = .next State.reset := by
  refine ⟨by decide, by decide, rfl, rfl, rfl⟩

/-- R436: no record that binds a context is written before boot has ended. -/
theorem test_bound_only_after_boot : rowKind row00 = true ∧ exec (.bindRecordWrite 0 1 false row00) (st co0) = .next (st co0) := by
  refine ⟨by decide +kernel, rfl⟩

/-- R395: a response with a reserved bit set is discarded and counted; a repeated write is acknowledged as it was the first time. -/
theorem test_responses_are_checked : (asking 1 id).badResponse (dhdr 9 0 0 2 0 0 ||| 0x20) 9 = true ∧ (asking 1 id).badResponse (dhdr 9 0 0 2 0 0) 9 = false ∧
    after (exec (.domainReadResponse (dhdr 9 0 0 2 0 0 ||| 0x20) [3, 4]) (asking 1 id)) (fun t => (t.die 0).elogN == 1 && t.dom.reqs.length == 1) = true ∧
    answersOf (exec (.domainWriteRequest (dhdr 2 0 0 2 0 0) [7, 8]) (domained (fun d => { d with peers := [(1, ⟨2, [], [], [], [1]⟩)] }) [])) = [(10, 0x47, [])] := by decide +kernel

/-- R408, R381: what hosts read. -/
theorem test_host_reads :
    let s (m : PeerMsg) : State := { hosted (fun p => { p with vfs := [(1, { ctx := 0, slots := [(2, 0)] })] }) [(0x41, 5)] with dom := { Domain.init with inbox := [(0, m)] } }
    (s (.hostRead 0 0 0x40 2)).serveHosts.outbox = [.hostBytes 0 0 [0, 5]] ∧ (s (.slotRead 0 1 2)).serveHosts.outbox = [.hostData 0 1 0] ∧
    (s (.slotRead 0 2 2)).serveHosts.outbox = [.completerAbort 0 2] ∧ (s (.hostRead 0 5 0x40 2)).serveHosts.outbox = [.completerAbort 0 5] := by decide +kernel

/-- R345, R407: an atomic of a host that meets an uncorrectable error is logged. -/
theorem test_host_errors : after (exec (.hostAtomicOp 0 0 0x40 0 4 3 0) { hosted id [(0x40, 5)] with bad := [0x41] }) (fun t =>
    t.outbox == [.completerAbort 0 0] && (t.die (homeDie 0x40)).elogN == 1 && t.homeNat 0x40 4 == 5) = true := by decide +kernel

/-- R436: boot waits for a unit that has failed its scan. -/
theorem test_boot_scan_waits : after (exec .bootScan { st Core.init with plat := { Platform.init with bootStep := 5 }, fenced := [7] }) (fun t =>
    t.plat.bootStep == 5 && mget 0 t.gens 6 == 1 && mget 0 t.gens 7 == 0) = true := by decide +kernel

/-- FIPS 180-4's example of SHA-256, of the message "abc". -/
theorem test_sha256 : beNat (sha256 [0x61, 0x62, 0x63]) = 0xBA7816BF8F01CFEA414140DE5DAE2223B00361A396177A9CB410FF61F20015AD := by decide +kernel

/-- R434: the base point of P-256 lies on its curve. -/
theorem test_base_point_on_curve : (g256.map (fun p => onCurve p)).getD false = true := by decide +kernel

/-- R321: a load that was held back reads what the command has left. -/
theorem test_held_back_load :
    let s : State := { st (loadsOut [{ load0 with pa := 0x40, nb := 2, raw := 0x80, late := [(0x41, 1)], at_ := 0 }]) with mem := [(0x41, 3)] }
    ((s.core 0).returning 0 [0, 1] false).any (fun g => !g.free && s.lateDone g) = true ∧
    after (exec (.globalAccessResponse 0) s) (fun t => (t.core 0).ms.gacc.map (fun g => (g.raw, g.late.isEmpty, g.at_)) == [(0x380, true, 1)]) = true := by decide +kernel

/-- R20: a result that was issued earlier stands before one that was issued later, whichever came first. -/
theorem test_flight_keeps_its_order :
    let s := (st (imOf (fun im => { im with flight := [⟨4, 2, 0, .k, .reg .k 1 5⟩] }))).pushFlight 0 ⟨4, 1, 0, .k, .reg .k 1 9⟩
    (s.core 0).im.flight.map (fun x => x.issue) = [1, 2] := by decide +kernel

/-- R222: an empty run of `stash` is not checked. -/
theorem test_empty_stash : pcAfter (exec (.stash { movF with la := 1024, n := 0 }) (st co0)) = some 4 := by decide +kernel

/-- R414: `jrnl.app` waits behind 64 records of its core. -/
theorem test_crowded_journal :
    let full : List JTake := (upTo 0 64).map (fun i => { ix := i, bits := 0, core := 0, at_ := 9 })
    let j := jon { Journal.init with queue := full, jidx := 64 }
    j.crowded 0 = true ∧ j.crowded 1 = false ∧ j.taken = 0 ∧ waits (exec (.jrnlApp { mgtF with a := 1 }) { st (staged opened (g1 co0 5)) with jrnl := j }) = some (0xA, 0) := by decide +kernel

/-- R411: the engine takes a record: it stands in the ring, and goes to the partner. -/
theorem test_record_is_taken : ((journaling co0 { Journal.init with queue := [⟨0, rec12, 0, 0⟩], jidx := 1, ring := [(0, rec12)] }).takeRecord).any (fun t =>
    t.homeNat 0x40000 8 == 1 + 2 * 2 ^ 32 && t.jrnl.queue == [] && t.outbox == [.journal 1 rec12]) = true := by decide +kernel

/-- R366: a core that waits at a gang row which no longer qualifies goes on. -/
theorem test_gang_row_gone : (walking (phased (.gangWait 1)) [] []).qualifies 0 1 = false ∧
    after (exec (.dispatch 0) (walking (phased (.gangWait 1)) [] [])) (fun t => (t.core 0).walk.phase != .gangWait 1) = true := by decide +kernel

/-- R295: another command is in the middle of its step on the same list. -/
theorem test_list_is_free : (working (work0 (epkt 0x14 0)) []).listBusy 3 (work0 (epkt 0x14 0)) = false ∧ (∀ p ∈ (cached false [] []).frames, (cached false [] []).frameHeld p.1 = false) := by
  decide +kernel

/-- R285: a packet reads its descriptor before its work. -/
theorem test_descriptor_is_read :
    let s := { working (work0 (epkt 0x10 0)) (emem [2] []) with works := [(3, work0 (epkt 0x10 0))] }
    (work0 (epkt 0x10 0)).needsDesc = true ∧ after (exec (.indexGather 3) s) (fun t => (mfind t.works 3).any (fun y => y.buf.length == 64 && y.stage == .taken)) = true := by decide +kernel

/-- R404: a collective of which a member has left without contributing fails. -/
theorem test_doomed_collective :
    let s := grouped (work0 (xpkt 0x51)) (filled [(0x100, 8, 1), (0x108, 4, 0x3F800000)]) []
    after (exec (.exchangeReduce 3) { s with dom := { s.dom with doomed := [(0, 0)] } }) (fun t => (mfind t.works 3).any (fun y => y.cause == 0xA3 && y.pos == [1, 1])) = true := by decide +kernel

/-- R307, R313: a card whose rows the units take as they have room. -/
theorem test_rows_wait_for_room :
    let x : Work := { work0 (cpkt 0x20 0) with buf := desc64, joined := true, rows := [(5, 4), (6, 4)] }
    let s : State := { working x [] with works := [(3, x)], nbHeld := [(6, List.replicate 16 9)] }
    s.unitFull 5 = false ∧ s.unitFull 6 = true ∧ after (exec (.poolingRowService 3) s) (fun t => (mfind t.works 3).any (fun y => y.rows == [(6, 4)])) = true := by decide +kernel

/-- R34, R344: the lease is of the context it was granted to. -/
theorem test_lease_of_another_context :
    let s : State := { st co0 .c with arrays := [(0, { (State.reset.arr 0) with holder := some 0, count := some 1, lctx := 5 })] }
    after (exec (.lease { mtxF with n := 2 }) s) (fun t => (t.arr 0).holder == none && (t.arr 0).reqs.length == 1) = true := by decide +kernel

/-- R184: a block is written on its cycle, also where the rows of the next one fail there. -/
theorem test_plane_block_is_kept :
    let e : EngCmd := { planeCmd with n := 2, begun := some 2, j := 32, nextAt := 34 }
    let co : Core := { planing e with bad := [0x4040] }
    co.planeSource e 0 1 ≠ none ∧ planeQ (exec (.planeCommand 0) { st co with cyc := 34 }) (fun l p => l == [] && p.any (fun x => match x with
      | .bytes a _ _ => a == 0
      | _ => false)) = true := by decide +kernel

/-- R349: a group that reads a byte with an uncorrectable error: the command goes, and its context is to be removed. -/
theorem test_group_in_error :
    let x := { arrCmd (.mma { mma1 with zfh := 4 }) with b := some 2, rAt := 10 }
    let co := { slabbed 40 (atCycle 10) with bad := [0] }
    x.groupBytes.any (fun p => (firstBad co.bad p.1 p.2).isSome) = true ∧ x.groupBytes.all (fun p => (co.checkSlabs 0 0 p.1 p.2 true).isNone) = true ∧
    after (exec (.arrayCommandBegin 0) (arrSt co { ArrSt.init with queue := [x] })) (fun t => (t.arr 0).queue == [] && t.removals.map (fun p => (p.1, p.2.cause)) == [(0, 0x82)]) = true := by
  decide +kernel

/-- R411: how far a partner holds a module's journal; only the partner's own acknowledgment counts (R422). -/
theorem test_partner_keeps :
    (KeptPos.accept (some ⟨some 0, []⟩) 0) = ⟨some 1, []⟩ ∧ KeptPos.upto (some ⟨some 5, [7]⟩) = 5 ∧ (KeptPos.accept (some ⟨some 5, []⟩) 7).next = some 5 ∧
    after (exec (.journalAckReceive ⟨2, 5⟩) (journaling co0 { Journal.init with jidx := 5 })) (fun t => t.jrnl.acked == 0 && t.outbox == []) = true := by decide +kernel

end Sys2Proof.Tests
end

