-- ==== Sys2Proof/Proofs/FalseGuard.lean ====
section
/-! PROOFS. A group whose guard is false: the step that goes past it, what that leaves of the sequencer's macros, and the
call whose body was redefined in the meantime (R16, R34, R71). -/
namespace Sys2Proof.Machine

/-! ### The step that goes past the group -/

/-- With nothing else enabled, the step is the turn of the sequencer that is next. -/
theorem step_of_nextIssue {s : State} {c : Nat} {sq : Seq} (hin : inputStep s = none) (hev : firstEnabled s s.candidates = none)
    (hnext : s.nextIssue = some (c, sq)) : step s = issueStep s c sq := by
  simp only [step, hin, hev, hnext]

theorem issueStep_of_not_waiting {s : State} {c : Nat} {sq : Seq} (hw : ((s.core c).im.seq sq).waiting = none) :
    issueStep s c sq = issueGroup s c sq := by
  simp [issueStep, hw]

theorem issueGroup_of_skip {s : State} {c : Nat} {sq : Seq} {u : Cur} (hf : (s.core c).fetch c sq = .skip u)
    (hg : (s.withCur u).flawedGuard = false) : issueGroup s c sq = .next (s.withCur u).skipGroup := by
  simp [issueGroup, hf, hg]

/-- A false guard is gone past as a group is that had its effect, where K has no pending error. -/
theorem skipGroup_of_none {s : State} (h : s.pendingHere = none) : s.skipGroup = s.retire :=
  settle_of_none _ h

theorem pendingHere_of_ne_k {s : State} (h : s.cur.sq ≠ .k) : s.pendingHere = none := by
  simp [State.pendingHere, h]

/-! ### The macros of a sequencer that goes past its group -/

theorem seq_retire (s : State) :
    (s.retire.core s.cur.core).im.seq s.cur.sq = (s.mySeq.issued s.t).advance s.cur := by
  simp [State.retire, State.core_modSeq, State.mySeq, State.me]

/-- Past the last entry of a call whose body has been redefined meanwhile, the new body stands in the place of the old one (R71): also where the
guard of that entry was false. -/
theorem macros_advance_of_redef {q : SeqSt} {u : Cur} {m : MPos} {es : List MEntry} (hu : u.inmac = true) (hm : q.mpos = some m)
    (hr : q.redef = some es) (hlast : m.body.length ≤ u.entry + u.entries) : (q.advance u).macros = mset q.macros m.m es := by
  simp [SeqSt.advance, SeqSt.leave, hu, hm, hr, hlast]

theorem macros_retire_of_redef {s : State} {m : MPos} {es : List MEntry} (hu : s.cur.inmac = true) (hm : s.mySeq.mpos = some m)
    (hr : s.mySeq.redef = some es) (hlast : m.body.length ≤ s.cur.entry + s.cur.entries) :
    ((s.retire.core s.cur.core).im.seq s.cur.sq).macros = mset s.mySeq.macros m.m es := by
  rw [seq_retire]
  exact macros_advance_of_redef (q := s.mySeq.issued s.t) hu hm hr hlast

/-! ### A redefined call whose last entry has a false guard -/

/-- The entry of the body that the call runs: slot 0, no amendment, the last. -/
def calledEntry : MEntry := { last := true, psrc := 0, word := 0 }

/-- The entry of the body that an `mdef` has read since: slot 3. -/
def newEntry : MEntry := { last := true, psrc := 0, word := 0x0C000000 }

/-- A `halt` under p0 with sense 1, which never executes (R16). -/
def neverHalt : Template :=
  (Sys2Proof.encode .l 0 1 (.halt { d := 0, a := 0, b := 0, c := 0, seq := 0, slot := 0, idx := 0, n := 0, var := 0, pa := 0 })).getD 0

/-- L at the one entry of its call of number 7 of its macros: slot 0 holds a group that never executes, and that body is to be replaced once the call is over (R71). -/
def redefinedCall : SeqSt :=
  { SeqSt.init with
    halted := none,
    table := [(0, { t := neverHalt, reason := 0, loading := false })],
    macros := [(7, [calledEntry])],
    mpos := some { m := 7, next := 0, p0 := 0, p1 := 0, p2 := 0, p3 := 0, body := [calledEntry], idle := 0, ret := 4 },
    redef := some [newEntry] }

/-- The module with core 0 in an untimed segment, whose L is at that entry. -/
def redefinedCallState : State :=
  { State.reset with
    cores := [(0, { Core.init with
      bound := true, im := { Image.init with seg := some fetchSeg, l := redefinedCall }, walk := { Core.init.walk with phase := .running } })],
    plat := { Platform.init with bootStep := 6 } }

/-- The group at hand of L there. -/
def redefinedCallCur : Cur :=
  { core := 0, sq := .l, first := 0, nxt := 0, word := 0, fsel := 0, slot := 0, inmac := true, entry := 0, entries := 1, macro_ := 7, earliest := 0 }

/-- L is the next to issue there. -/
theorem redefinedCallState_issues : inputStep redefinedCallState = none ∧ firstEnabled redefinedCallState redefinedCallState.candidates = none ∧
    redefinedCallState.nextIssue = some (0, .l) ∧ ((redefinedCallState.core 0).im.seq .l).waiting = none := by
  decide +kernel

/-- The guard of its group is false. -/
theorem redefinedCallState_fetch : (redefinedCallState.core 0).fetch 0 .l = .skip redefinedCallCur := rfl

/-- Its step gives number 7 of the macros the new body. -/
theorem step_redefinedCallState : ∃ t, step redefinedCallState = .next t ∧ ((t.core 0).im.seq .l).macros = [(7, [newEntry])] := by
  obtain ⟨hin, hev, hnext, hw⟩ := redefinedCallState_issues
  have hstep : step redefinedCallState = .next (redefinedCallState.withCur redefinedCallCur).skipGroup :=
    (step_of_nextIssue hin hev hnext).trans ((issueStep_of_not_waiting hw).trans (issueGroup_of_skip redefinedCallState_fetch rfl))
  rw [skipGroup_of_none (pendingHere_of_ne_k (by decide))] at hstep
  exact ⟨_, hstep, macros_retire_of_redef (s := redefinedCallState.withCur redefinedCallCur) rfl rfl rfl (by decide)⟩

end Sys2Proof.Machine

namespace Sys2Proof.Proofs
open Sys2Proof.Machine

/-- Refutes O26: a false guard still issues its group, so at the last entry of a call (R34) the call is over, and the body that an `mdef` has
read meanwhile takes the place of the old one (R71). `sameRegisters` asks for the same macros; `redefinedCallState` is a state where they differ. -/
theorem not_falseGuardsGoPastTheGroup : ¬ Obligations.FalseGuardsGoPastTheGroup := by
  unfold Obligations.FalseGuardsGoPastTheGroup
  intro h
  obtain ⟨hin, hev, hnext, hw⟩ := redefinedCallState_issues
  obtain ⟨t, hstep, -, -, -, -, -, ⟨-, hseqs, -⟩, -⟩ :=
    h.2 redefinedCallState 0 .l redefinedCallCur hin hev hnext hw redefinedCallState_fetch rfl (.inl rfl)
  obtain ⟨t', hstep', hnew⟩ := step_redefinedCallState
  obtain ⟨-, -, -, -, -, hkept⟩ := hseqs .l
  obtain rfl : t' = t := by simpa [hstep'] using hstep
  rw [hnew] at hkept
  exact absurd hkept (by decide)

end Sys2Proof.Proofs
end

