-- ==== Sys2Proof/Proofs/IntegerResults.lean ====
section
/-! PROOFS. The integer instructions: the machine's operations on words are those of the manual's table, each instruction issues with the
registers and the value of its row, and a group that reads an uncorrectable error traps (R50 to R53, R348). -/
namespace Sys2Proof.Machine

/-! ### The operations on words -/

theorem shlWord_eq_mul_pow (a b : Word) : shlWord a b = if b.toNat < 64 then BitVec.ofNat 64 (a.toNat * 2 ^ b.toNat) else 0 := by
  unfold shlWord
  congr 1
  exact BitVec.eq_of_toNat_eq (by simp [Nat.shiftLeft_eq])

theorem shrWord_eq_div_pow (a b : Word) : shrWord a b = if b.toNat < 64 then BitVec.ofNat 64 (a.toNat / 2 ^ b.toNat) else 0 := by
  unfold shrWord
  congr 1
  rw [← Nat.shiftRight_eq_div_pow, ← BitVec.toNat_ushiftRight, BitVec.ofNat_toNat, BitVec.setWidth_eq]

/-- The arithmetic shift divides the signed value, rounding down; from a count of 64 on it gives 64 copies of the sign (R51). -/
theorem sraWord_eq_div_pow (a b : Word) : sraWord a b =
    if b.toNat < 64 then BitVec.ofInt 64 (a.toInt / (2 ^ b.toNat : Nat))
    else if a.toInt < 0 then BitVec.ofNat 64 (2 ^ 64 - 1) else 0 := by
  unfold sraWord
  congr 1
  rw [← Int.shiftRight_eq_div_pow, ← BitVec.toInt_sshiftRight, BitVec.ofInt_toInt]

theorem mul_eq_ofNat_mul (a b : Word) : a * b = BitVec.ofNat 64 (a.toNat * b.toNat) :=
  BitVec.eq_of_toNat_eq (by simp)

/-- Two halves as one word, by value. -/
theorem append_low_half_eq_ofNat (hi : Half) (lo : Word) :
    (hi ++ lo.extractLsb' 0 32 : Word) = BitVec.ofNat 64 (hi.toNat * 2 ^ 32 + lo.toNat % 2 ^ 32) := by
  refine BitVec.eq_of_toNat_eq ?_
  have hlow : lo.toNat % 2 ^ 32 < 2 ^ 32 := Nat.mod_lt _ (by decide)
  rw [BitVec.toNat_append, BitVec.extractLsb'_toNat, Nat.shiftRight_zero, ← Nat.shiftLeft_add_eq_or_of_lt hlow, Nat.shiftLeft_eq, BitVec.toNat_ofNat]
  omega

/-- A sequencer's predicate as the manual reads it: p0 is true (R7). -/
theorem SeqSt.pred_toNat (q : SeqSt) (p : BitVec 4) : q.pred p.toNat = true ↔ p = 0 ∨ q.preds.getLsbD p.toNat = true := by
  simp [SeqSt.pred, BitVec.toNat_eq]

/-! ### What each instruction issues -/

/-- The instruction issues as a group that reads these codes, and its effect is v in d one cycle later; a `sel` has it where its predicate
holds no uncorrectable error. -/
def State.WritesAtIssue (s : State) (i : Instr) (codes : List (BitVec 5)) (d : BitVec 5) (v : Word) : Prop :=
  ∃ act : State → Act, exec i s = issue s codes act ∧
    ((∀ f, i = .sel f → s.flawedPred f.pa.toNat = false) → act s = .done (s.wr 1 d v))

/-- The instructions of Table 3-2 differ in their operation and in their second operand alone. -/
theorem writesAtIssue_of_execInt {s : State} {i : Instr} {v : Word} (k : Snd) (op : Word → Word → Word) (f : RegF)
    (hi : exec i s = execInt k op f s) (hv : op (s.rd f.a) (s.snd k f) = v) : s.WritesAtIssue i (sndRegs k f) f.d v :=
  ⟨actInt k op f, hi, fun _ => hv ▸ rfl⟩

theorem writesAtIssue_lui (s : State) (f : RegF) :
    s.WritesAtIssue (.lui f) [f.a] f.d (BitVec.ofNat 64 (f.imm.toNat * 2 ^ 32 + (s.rd f.a).toNat % 2 ^ 32)) :=
  ⟨_, show execLui f s = _ from rfl, fun _ => by rw [append_low_half_eq_ofNat]⟩

theorem writesAtIssue_sel (s : State) (f : RegF) :
    s.WritesAtIssue (.sel f) [f.a, f.b] f.d (if f.pa = 0 ∨ s.mySeq.preds.getLsbD f.pa.toNat = true then s.rd f.a else s.rd f.b) :=
  ⟨_, show execSel f s = _ from rfl, fun hpred => by simp only [hpred f rfl, SeqSt.pred_toNat, Bool.false_eq_true, if_false]⟩

/-- Every row of the table is what its instruction does. -/
theorem writesAtIssue_of_intRow {s : State} {i : Instr} {codes : List (BitVec 5)} {d : BitVec 5} {v : Word}
    (h : s.intRow i = some (codes, d, v)) : s.WritesAtIssue i codes d v := by
  cases i with
  | and f => cases h; exact writesAtIssue_of_execInt .reg (· &&& ·) f rfl rfl
  | andImm f => cases h; exact writesAtIssue_of_execInt .imm (· &&& ·) f rfl rfl
  | or f => cases h; exact writesAtIssue_of_execInt .reg (· ||| ·) f rfl rfl
  | orImm f => cases h; exact writesAtIssue_of_execInt .imm (· ||| ·) f rfl rfl
  | xor f => cases h; exact writesAtIssue_of_execInt .reg (· ^^^ ·) f rfl rfl
  | xorImm f => cases h; exact writesAtIssue_of_execInt .imm (· ^^^ ·) f rfl rfl
  | shl f => cases h; exact writesAtIssue_of_execInt .reg shlWord f rfl (shlWord_eq_mul_pow _ _)
  | shlImm f => cases h; exact writesAtIssue_of_execInt .imm shlWord f rfl (shlWord_eq_mul_pow _ _)
  | shr f => cases h; exact writesAtIssue_of_execInt .reg shrWord f rfl (shrWord_eq_div_pow _ _)
  | shrImm f => cases h; exact writesAtIssue_of_execInt .imm shrWord f rfl (shrWord_eq_div_pow _ _)
  | sra f => cases h; exact writesAtIssue_of_execInt .reg sraWord f rfl (sraWord_eq_div_pow _ _)
  | sraImm f => cases h; exact writesAtIssue_of_execInt .imm sraWord f rfl (sraWord_eq_div_pow _ _)
  | mul f => cases h; exact writesAtIssue_of_execInt .reg (· * ·) f rfl (mul_eq_ofNat_mul _ _)
  | mulImm f => cases h; exact writesAtIssue_of_execInt .imm (· * ·) f rfl (mul_eq_ofNat_mul _ _)
  | mulhs f => cases h; exact writesAtIssue_of_execInt .reg mulhsWord f rfl rfl
  | mulhu f => cases h; exact writesAtIssue_of_execInt .reg mulhuWord f rfl rfl
  | min f => cases h; exact writesAtIssue_of_execInt .reg (minWord f.var) f rfl rfl
  | max f => cases h; exact writesAtIssue_of_execInt .reg (maxWord f.var) f rfl rfl
  | lui f => cases h; exact writesAtIssue_lui s f
  | sel f => cases h; exact writesAtIssue_sel s f
  | li f => cases h; exact ⟨_, show execLi f s = _ from rfl, fun _ => rfl⟩
  | mov f => cases h; exact ⟨_, show execMov f s = _ from rfl, fun _ => rfl⟩
  | _ => cases h

/-! ### How the group ends -/

/-- A group that reads a register with an uncorrectable error traps, whatever its effect would be (R348). -/
theorem issue_of_flawed {s : State} {codes : List (BitVec 5)} (act : State → Act) (hlock : s.interlock codes = none)
    (hpend : s.pendingHere = none) (hflaw : s.flawed codes = true) : issue s codes act = .next (s.settleAct flawTrap) := by
  simp only [issue, hlock, hflaw, if_true, finish, settle_of_none _ hpend]

theorem State.WritesAtIssue.issues {s : State} {i : Instr} {codes : List (BitVec 5)} {d : BitVec 5} {v : Word} (h : s.WritesAtIssue i codes d v)
    (hready : s.Ready codes) (hpred : ∀ f, i = .sel f → s.flawedPred f.pa.toNat = false) : s.Issues i (s.wr 1 d v) := by
  obtain ⟨act, hexec, hact⟩ := h
  rw [State.Issues, hexec, issue_of_ready act hready, hact hpred, settleAct_done]

theorem State.WritesAtIssue.traps {s : State} {i : Instr} {codes : List (BitVec 5)} {d : BitVec 5} {v : Word} (h : s.WritesAtIssue i codes d v)
    (hlock : s.interlock codes = none) (hpend : s.pendingHere = none) (hflaw : s.flawed codes = true) : s.Traps i 0x80 0 := by
  obtain ⟨act, hexec, -⟩ := h
  exact ⟨_, rfl, rfl, hexec.trans (issue_of_flawed act hlock hpend hflaw)⟩

end Sys2Proof.Machine

namespace Sys2Proof.Proofs
open Sys2Proof.Machine

/-- Settles O1: every row of the table is what its instruction issues, so a group that can issue ends with the row's value due in d, and one that
reads a register in error traps. -/
theorem integerInstructionsWriteTheirValue : Obligations.IntegerInstructionsWriteTheirValue := by
  unfold Obligations.IntegerInstructionsWriteTheirValue
  intro s i codes d v hrow
  have hwrites : s.WritesAtIssue i codes d v := writesAtIssue_of_intRow hrow
  exact ⟨hwrites.issues, hwrites.traps⟩

end Sys2Proof.Proofs
end

