-- ==== Sys2Proof/Proofs/Encoding.lean ====
section
/-! PROOFS. Templates and instructions: a template is its header and its payload, the fields of each format are read from the payload and
packed into it, and each instruction and its code name one another (R36 to R40, R30, R31). -/
namespace Sys2Proof

/-! ### A template is its header and its payload -/

/-- The template of a class with this code, guard and sense, over these bits of its format (R36). -/
def assemble (cls : Seq) (code : Nat) (guard : BitVec 4) (sense : BitVec 1) (payload : BitVec 104) : Template :=
  BitVec.ofNat 2 cls.code ++ BitVec.ofNat 8 code ++ BitVec.ofNat 2 cls.code ++ guard ++ sense ++ (0 : BitVec 7) ++ payload

/-- The bits of a template that its format lays out. -/
def payloadOf (b : Template) : BitVec 104 := b.extractLsb' 0 104

theorem encode_of_encodeOp {i : Instr} {code : Nat} {p : BitVec 104} (cls : Seq) (g : BitVec 4) (sn : BitVec 1)
    (h : encodeOp i = some (code, p)) : encode cls g sn i = some (assemble cls code g sn p) := by
  simp only [encode, h, assemble]

section assemble
variable (cls : Seq) (code : Nat) (g : BitVec 4) (sn : BitVec 1) (p : BitVec 104)
open BitVec (extractLsb'_append_eq_of_le extractLsb'_append_eq_right extractLsb'_append_eq_left)

theorem payloadOf_assemble : payloadOf (assemble cls code g sn p) = p := extractLsb'_append_eq_right

theorem rsv_assemble : (assemble cls code g sn p).extractLsb' 104 7 = 0 :=
  (extractLsb'_append_eq_of_le (by decide)).trans extractLsb'_append_eq_right

theorem senseOf_assemble : senseOf (assemble cls code g sn p) = sn :=
  (extractLsb'_append_eq_of_le (by decide)).trans <| (extractLsb'_append_eq_of_le (by decide)).trans extractLsb'_append_eq_right

theorem guardOf_assemble : guardOf (assemble cls code g sn p) = g :=
  (extractLsb'_append_eq_of_le (by decide)).trans <| (extractLsb'_append_eq_of_le (by decide)).trans <|
    (extractLsb'_append_eq_of_le (by decide)).trans extractLsb'_append_eq_right

/-- Above the guard stand the class, the code and the class again. -/
theorem header_assemble (start len : Nat) :
    (assemble cls code g sn p).extractLsb' (start + 116) len =
      (BitVec.ofNat 2 cls.code ++ BitVec.ofNat 8 code ++ BitVec.ofNat 2 cls.code).extractLsb' start len :=
  (extractLsb'_append_eq_of_le (by omega)).trans <| (extractLsb'_append_eq_of_le (by omega)).trans <|
    (extractLsb'_append_eq_of_le (by omega)).trans <| (extractLsb'_append_eq_of_le (by omega)).trans (by congr 1)

theorem lowClass_assemble : (assemble cls code g sn p).extractLsb' 116 2 = BitVec.ofNat 2 cls.code :=
  (header_assemble cls code g sn p 0 2).trans extractLsb'_append_eq_right

theorem code_assemble : (assemble cls code g sn p).extractLsb' 118 8 = BitVec.ofNat 8 code :=
  (header_assemble cls code g sn p 2 8).trans <| (extractLsb'_append_eq_of_le (by decide)).trans extractLsb'_append_eq_right

theorem highClass_assemble : (assemble cls code g sn p).extractLsb' 126 2 = BitVec.ofNat 2 cls.code :=
  (header_assemble cls code g sn p 10 2).trans <| (extractLsb'_append_eq_of_le (by decide)).trans extractLsb'_append_eq_left

end assemble

/-- Every template is made of its own parts. -/
theorem assemble_parts (b : Template) :
    b.extractLsb' 126 2 ++ b.extractLsb' 118 8 ++ b.extractLsb' 116 2 ++ guardOf b ++ senseOf b ++ b.extractLsb' 104 7 ++ payloadOf b = b := by
  simp only [guardOf, senseOf, payloadOf, BitVec.extractLsb'_append_extractLsb'_eq_extractLsb', BitVec.extractLsb'_eq_self]

theorem Seq.ofNat_code_toNat (cls : Seq) : (BitVec.ofNat 2 cls.code).toNat = cls.code := by cases cls <;> rfl

/-! ### The fields of each format -/

theorem append_inj {v w : Nat} {x x' : BitVec v} {y y' : BitVec w} (h : x ++ y = x' ++ y') : x = x' ∧ y = y' :=
  ⟨by simpa only [BitVec.extractLsb'_append_eq_left] using congrArg (BitVec.extractLsb' w v) h,
    by simpa only [BitVec.extractLsb'_append_eq_right] using congrArg (BitVec.extractLsb' 0 w) h⟩

theorem packReg_inj {f g : RegF} (h : packReg f = packReg g) : f = g := by
  obtain ⟨h, hd⟩ := append_inj h
  obtain ⟨h, ha⟩ := append_inj h
  obtain ⟨h, hb⟩ := append_inj h
  obtain ⟨h, himm⟩ := append_inj h
  obtain ⟨h, hvar⟩ := append_inj h
  obtain ⟨hpb, hpa⟩ := append_inj h
  cases f; cases g; simp_all only

theorem packReg_parseReg (b : Template) : packReg (parseReg b) = b.extractLsb' 0 59 := by
  simp only [packReg, parseReg, BitVec.extractLsb'_append_extractLsb'_eq_extractLsb']

theorem packCtl_inj {f g : CtlF} (h : packCtl f = packCtl g) : f = g := by
  obtain ⟨h, hoff⟩ := append_inj h
  obtain ⟨h, ha⟩ := append_inj h
  obtain ⟨h, hcnt⟩ := append_inj h
  obtain ⟨h, hframe⟩ := append_inj h
  obtain ⟨hpa, hvar⟩ := append_inj h
  cases f; cases g; simp_all only

theorem packCtl_parseCtl (b : Template) : packCtl (parseCtl b) = b.extractLsb' 0 71 := by
  simp only [packCtl, parseCtl, BitVec.extractLsb'_append_extractLsb'_eq_extractLsb']

theorem packMgt_inj {f g : MgtF} (h : packMgt f = packMgt g) : f = g := by
  obtain ⟨h, hd⟩ := append_inj h
  obtain ⟨h, ha⟩ := append_inj h
  obtain ⟨h, hb⟩ := append_inj h
  obtain ⟨h, hc⟩ := append_inj h
  obtain ⟨h, hseq⟩ := append_inj h
  obtain ⟨h, hslot⟩ := append_inj h
  obtain ⟨h, hidx⟩ := append_inj h
  obtain ⟨h, hn⟩ := append_inj h
  obtain ⟨hpa, hvar⟩ := append_inj h
  cases f; cases g; simp_all only

theorem packMgt_parseMgt (b : Template) : packMgt (parseMgt b) = b.extractLsb' 0 60 := by
  simp only [packMgt, parseMgt, BitVec.extractLsb'_append_extractLsb'_eq_extractLsb']

theorem packMem_inj {f g : MemF} (h : packMem f = packMem g) : f = g := by
  obtain ⟨h, hd⟩ := append_inj h
  obtain ⟨h, hbase⟩ := append_inj h
  obtain ⟨h, hval⟩ := append_inj h
  obtain ⟨h, hdisp⟩ := append_inj h
  obtain ⟨h, hsize⟩ := append_inj h
  obtain ⟨h, hsx⟩ := append_inj h
  obtain ⟨h, hscope⟩ := append_inj h
  obtain ⟨hvar, hcv⟩ := append_inj h
  cases f; cases g; simp_all only

theorem packMem_parseMem (b : Template) : packMem (parseMem b) = b.extractLsb' 0 62 := by
  simp only [packMem, parseMem, BitVec.extractLsb'_append_extractLsb'_eq_extractLsb']

theorem packEng_inj {f g : EngF} (h : packEng f = packEng g) : f = g := by
  obtain ⟨h, ha⟩ := append_inj h
  obtain ⟨h, hb⟩ := append_inj h
  obtain ⟨h, hc⟩ := append_inj h
  obtain ⟨h, hd⟩ := append_inj h
  obtain ⟨h, hsem⟩ := append_inj h
  obtain ⟨h, hq⟩ := append_inj h
  obtain ⟨h, hep⟩ := append_inj h
  obtain ⟨hvar, hstart⟩ := append_inj h
  cases f; cases g; simp_all only

theorem packEng_parseEng (b : Template) : packEng (parseEng b) = b.extractLsb' 0 66 := by
  simp only [packEng, parseEng, BitVec.extractLsb'_append_extractLsb'_eq_extractLsb']

theorem packAgn_inj {f g : AgnF} (h : packAgn f = packAgn g) : f = g := by
  obtain ⟨h, hag⟩ := append_inj h
  obtain ⟨h, hbase⟩ := append_inj h
  obtain ⟨h, hlv⟩ := append_inj h
  obtain ⟨h, hcr⟩ := append_inj h
  obtain ⟨h, hsr⟩ := append_inj h
  obtain ⟨hvar, hport⟩ := append_inj h
  cases f; cases g; simp_all only

theorem packAgn_parseAgn (b : Template) : packAgn (parseAgn b) = b.extractLsb' 0 45 := by
  simp only [packAgn, parseAgn, BitVec.extractLsb'_append_extractLsb'_eq_extractLsb']

theorem packMov_inj {f g : MovF} (h : packMov f = packMov g) : f = g := by
  obtain ⟨h, hla⟩ := append_inj h
  obtain ⟨h, ha⟩ := append_inj h
  obtain ⟨h, hb⟩ := append_inj h
  obtain ⟨h, hn⟩ := append_inj h
  obtain ⟨h, hag⟩ := append_inj h
  obtain ⟨h, htype⟩ := append_inj h
  obtain ⟨h, hsem⟩ := append_inj h
  obtain ⟨hvar, hstart⟩ := append_inj h
  cases f; cases g; simp_all only

theorem packMov_parseMov (b : Template) : packMov (parseMov b) = b.extractLsb' 0 90 := by
  simp only [packMov, parseMov, BitVec.extractLsb'_append_extractLsb'_eq_extractLsb']

theorem packVec_inj {f g : VecF} (h : packVec f = packVec g) : f = g := by
  obtain ⟨h, hd⟩ := append_inj h
  obtain ⟨h, ha⟩ := append_inj h
  obtain ⟨h, hb⟩ := append_inj h
  obtain ⟨h, hc⟩ := append_inj h
  obtain ⟨h, htype⟩ := append_inj h
  obtain ⟨h, htype2⟩ := append_inj h
  obtain ⟨h, hrnd⟩ := append_inj h
  obtain ⟨h, hp⟩ := append_inj h
  obtain ⟨hvar, himm⟩ := append_inj h
  cases f; cases g; simp_all only

theorem packVec_parseVec (b : Template) : packVec (parseVec b) = b.extractLsb' 0 62 := by
  simp only [packVec, parseVec, BitVec.extractLsb'_append_extractLsb'_eq_extractLsb']

theorem packMtx_inj {f g : MtxF} (h : packMtx f = packMtx g) : f = g := by
  obtain ⟨h, htile⟩ := append_inj h
  obtain ⟨h, ha⟩ := append_inj h
  obtain ⟨h, hb⟩ := append_inj h
  obtain ⟨h, hkg⟩ := append_inj h
  obtain ⟨h, hfa⟩ := append_inj h
  obtain ⟨h, hfb⟩ := append_inj h
  obtain ⟨h, hprec⟩ := append_inj h
  obtain ⟨h, hzfh⟩ := append_inj h
  obtain ⟨h, hgam⟩ := append_inj h
  obtain ⟨h, hplace⟩ := append_inj h
  obtain ⟨h, hsp⟩ := append_inj h
  obtain ⟨h, hisat⟩ := append_inj h
  obtain ⟨hvar, hn⟩ := append_inj h
  cases f; cases g; simp_all only

theorem packMtx_parseMtx (b : Template) : packMtx (parseMtx b) = b.extractLsb' 0 101 := by
  simp only [packMtx, parseMtx, BitVec.extractLsb'_append_extractLsb'_eq_extractLsb']

theorem packSto_inj {f g : StoF} (h : packSto f = packSto g) : f = g := by
  obtain ⟨h, hport⟩ := append_inj h
  obtain ⟨h, hla⟩ := append_inj h
  obtain ⟨h, ha⟩ := append_inj h
  obtain ⟨h, hn⟩ := append_inj h
  obtain ⟨h, htype⟩ := append_inj h
  obtain ⟨hvar, hq⟩ := append_inj h
  cases f; cases g; simp_all only

theorem packSto_parseSto (b : Template) : packSto (parseSto b) = b.extractLsb' 0 51 := by
  simp only [packSto, parseSto, BitVec.extractLsb'_append_extractLsb'_eq_extractLsb']

/-- The low bits of a template are those of its payload. -/
theorem extractLsb'_of_payload {b : Template} {n : Nat} {x : BitVec n} (hn : n ≤ 104) (h : payloadOf b = x.setWidth 104) :
    b.extractLsb' 0 n = x := by
  rw [← BitVec.extractLsb'_extractLsb'_of_le (len' := 104) (by omega), show b.extractLsb' 0 104 = _ from h,
    BitVec.extractLsb'_setWidth_of_le (by omega), BitVec.extractLsb'_eq_self]

theorem parseReg_of_payload {b : Template} {f : RegF} (h : payloadOf b = (packReg f).setWidth 104) : parseReg b = f :=
  packReg_inj ((packReg_parseReg b).trans (extractLsb'_of_payload (by decide) h))

theorem parseCtl_of_payload {b : Template} {f : CtlF} (h : payloadOf b = (packCtl f).setWidth 104) : parseCtl b = f :=
  packCtl_inj ((packCtl_parseCtl b).trans (extractLsb'_of_payload (by decide) h))

theorem parseMgt_of_payload {b : Template} {f : MgtF} (h : payloadOf b = (packMgt f).setWidth 104) : parseMgt b = f :=
  packMgt_inj ((packMgt_parseMgt b).trans (extractLsb'_of_payload (by decide) h))

theorem parseMem_of_payload {b : Template} {f : MemF} (h : payloadOf b = (packMem f).setWidth 104) : parseMem b = f :=
  packMem_inj ((packMem_parseMem b).trans (extractLsb'_of_payload (by decide) h))

theorem parseEng_of_payload {b : Template} {f : EngF} (h : payloadOf b = (packEng f).setWidth 104) : parseEng b = f :=
  packEng_inj ((packEng_parseEng b).trans (extractLsb'_of_payload (by decide) h))

theorem parseAgn_of_payload {b : Template} {f : AgnF} (h : payloadOf b = (packAgn f).setWidth 104) : parseAgn b = f :=
  packAgn_inj ((packAgn_parseAgn b).trans (extractLsb'_of_payload (by decide) h))

theorem parseMov_of_payload {b : Template} {f : MovF} (h : payloadOf b = (packMov f).setWidth 104) : parseMov b = f :=
  packMov_inj ((packMov_parseMov b).trans (extractLsb'_of_payload (by decide) h))

theorem parseVec_of_payload {b : Template} {f : VecF} (h : payloadOf b = (packVec f).setWidth 104) : parseVec b = f :=
  packVec_inj ((packVec_parseVec b).trans (extractLsb'_of_payload (by decide) h))

theorem parseMtx_of_payload {b : Template} {f : MtxF} (h : payloadOf b = (packMtx f).setWidth 104) : parseMtx b = f :=
  packMtx_inj ((packMtx_parseMtx b).trans (extractLsb'_of_payload (by decide) h))

theorem parseSto_of_payload {b : Template} {f : StoF} (h : payloadOf b = (packSto f).setWidth 104) : parseSto b = f :=
  packSto_inj ((packSto_parseSto b).trans (extractLsb'_of_payload (by decide) h))

/-! ### Every instruction that a template encodes -/

/-- The instruction has a code and a payload of its format, and a template of the class with these is decoded as it. -/
def HasTemplate (cls : Seq) (i : Instr) : Prop :=
  ∃ code p m, encodeOp i = some (code, p) ∧ fmtOf i = some m ∧ code < 256 ∧ p.toNat < 2 ^ fmtWidth m ∧
    ∀ b, payloadOf b = p → decodeOp cls code b = some i

theorem hasTemplate_of_pack {cls : Seq} {i : Instr} {m : Fmt} {code : Nat} {x : BitVec (fmtWidth m)}
    (henc : encodeOp i = some (code, x.setWidth 104)) (hfmt : fmtOf i = some m) (hcode : code < 256)
    (hdec : ∀ b, payloadOf b = x.setWidth 104 → decodeOp cls code b = some i) : HasTemplate cls i := by
  refine ⟨code, _, m, henc, hfmt, hcode, ?_, hdec⟩
  rw [BitVec.toNat_setWidth]
  exact (Nat.mod_le _ _).trans_lt x.isLt

theorem msb_eq_false_of_le_four {v : BitVec 4} (h : v.toNat ≤ 4) : v.msb = false := by
  rw [BitVec.msb_eq_decide, decide_eq_false]
  omega

theorem msb_eq_true_of_eight_le {v : BitVec 4} (h : 8 ≤ v.toNat) : v.msb = true := by
  rw [BitVec.msb_eq_decide, decide_eq_true h]

theorem hasTemplate_of_wellFormed {cls : Seq} {i : Instr} (h : wellFormed cls i = true) : HasTemplate cls i := by
  obtain ⟨hcls, hfields⟩ := (Bool.and_eq_true _ _).mp h
  cases i
  case and f | andImm f | or f | orImm f | xor f | xorImm f | shl f | shlImm f | shr f | shrImm f | sra f | sraImm f | mul f | mulImm f |
      mulhs f | mulhu f | min f | max f | lui f | sel f =>
    cases eq_of_beq hcls
    refine hasTemplate_of_pack (m := .reg) (x := packReg f) rfl rfl (by decide) (fun b hb => ?_)
    cases parseReg_of_payload hb
    rfl
  case li f | mov f | add f | addImm f | sub f | subImm f | cmp f | cmpImm f =>
    refine hasTemplate_of_pack (m := .reg) (x := packReg f) rfl rfl (by decide) (fun b hb => ?_)
    cases parseReg_of_payload hb
    cases cls <;> rfl
  case br f | jmp f | loop f | lbr f =>
    refine hasTemplate_of_pack (m := .ctl) (x := packCtl f) rfl rfl (by decide) (fun b hb => ?_)
    cases parseCtl_of_payload hb
    cases cls <;> rfl
  case call f | ret f | entry f =>
    cases eq_of_beq hcls
    refine hasTemplate_of_pack (m := .ctl) (x := packCtl f) rfl rfl (by decide) (fun b hb => ?_)
    cases parseCtl_of_payload hb
    rfl
  case tkput f | halt f =>
    refine hasTemplate_of_pack (m := .mgt) (x := packMgt f) rfl rfl (by decide) (fun b hb => ?_)
    cases parseMgt_of_payload hb
    cases cls <;> rfl
  case tkget f | tkgetTry f =>
    refine hasTemplate_of_pack (m := .mgt) (x := packMgt f) rfl rfl (by decide) (fun b hb => ?_)
    rw [← parseMgt_of_payload hb] at hfields ⊢
    refine (?_ : decodeOp _ _ b = some (pickTkget (parseMgt b))).trans (congrArg some ?_)
    · cases cls <;> rfl
    · simp_all [fieldsOk, pickTkget]
  case tset f | tld f | mdef f | mfs f | xset f | align f | galign f | ltrig f | launch f | phase f | efence f | trap f | gdraw f |
      lmix f | crc32c f | emit f | tlbsync f =>
    cases eq_of_beq hcls
    refine hasTemplate_of_pack (m := .mgt) (x := packMgt f) rfl rfl (by decide) (fun b hb => ?_)
    cases parseMgt_of_payload hb
    rfl
  case mts f | mtsFclr f | mtsTkmap f =>
    cases eq_of_beq hcls
    refine hasTemplate_of_pack (m := .mgt) (x := packMgt f) rfl rfl (by decide) (fun b hb => ?_)
    rw [← parseMgt_of_payload hb] at hfields ⊢
    refine (?_ : decodeOp _ _ b = some (pickMts (parseMgt b))).trans (congrArg some ?_)
    · rfl
    · simp_all [fieldsOk, pickMts]
  case fenceRel f | fenceAcq f =>
    cases eq_of_beq hcls
    refine hasTemplate_of_pack (m := .mgt) (x := packMgt f) rfl rfl (by decide) (fun b hb => ?_)
    rw [← parseMgt_of_payload hb] at hfields ⊢
    refine (?_ : decodeOp _ _ b = some (pickFence (parseMgt b))).trans (congrArg some ?_)
    · rfl
    · simp_all [fieldsOk, pickFence, msb_eq_false_of_le_four, msb_eq_true_of_eight_le]
  case sacq f | sacqTry f | sacqM f =>
    cases eq_of_beq hcls
    refine hasTemplate_of_pack (m := .mgt) (x := packMgt f) rfl rfl (by decide) (fun b hb => ?_)
    rw [← parseMgt_of_payload hb] at hfields ⊢
    refine (?_ : decodeOp _ _ b = some (pickSacq (parseMgt b))).trans (congrArg some ?_)
    · rfl
    · simp_all [fieldsOk, pickSacq, msb_eq_false_of_le_four, msb_eq_true_of_eight_le]
  case srel f | srelM f =>
    cases eq_of_beq hcls
    refine hasTemplate_of_pack (m := .mgt) (x := packMgt f) rfl rfl (by decide) (fun b hb => ?_)
    rw [← parseMgt_of_payload hb] at hfields ⊢
    refine (?_ : decodeOp _ _ b = some (pickSrel (parseMgt b))).trans (congrArg some ?_)
    · rfl
    · simp_all [fieldsOk, pickSrel, msb_eq_false_of_le_four, msb_eq_true_of_eight_le]
  case jrnlSeq f | jrnlGen f | jrnlTok f | jrnlRt f | jrnlApp f | jrnlCkpt f | jrnlRep f =>
    cases eq_of_beq hcls
    refine hasTemplate_of_pack (m := .mgt) (x := packMgt f) rfl rfl (by decide) (fun b hb => ?_)
    rw [← parseMgt_of_payload hb] at hfields ⊢
    refine (?_ : decodeOp _ _ b = some (pickJrnl (parseMgt b))).trans (congrArg some ?_)
    · rfl
    · simp_all [fieldsOk, pickJrnl]
  case tlbinv f | tlbinvAll f =>
    cases eq_of_beq hcls
    refine hasTemplate_of_pack (m := .mgt) (x := packMgt f) rfl rfl (by decide) (fun b hb => ?_)
    rw [← parseMgt_of_payload hb] at hfields ⊢
    refine (?_ : decodeOp _ _ b = some (pickTlbinv (parseMgt b))).trans (congrArg some ?_)
    · rfl
    · simp_all [fieldsOk, pickTlbinv]
  case qfence f | qfenceW f =>
    cases eq_of_beq hcls
    refine hasTemplate_of_pack (m := .mgt) (x := packMgt f) rfl rfl (by decide) (fun b hb => ?_)
    rw [← parseMgt_of_payload hb] at hfields ⊢
    refine (?_ : decodeOp _ _ b = some (pickQfence (parseMgt b))).trans (congrArg some ?_)
    · rfl
    · simp_all [fieldsOk, pickQfence]
  case ldGlobal f | ldLocal f | stGlobal f | stLocal f | aadd f | amin f | amax f | aswap f | acas f | aand f | aor f | ramo f =>
    cases eq_of_beq hcls
    refine hasTemplate_of_pack (m := .mem) (x := packMem f) rfl rfl (by decide) (fun b hb => ?_)
    cases parseMem_of_payload hb
    rfl
  case stLocalS f =>
    cases eq_of_beq hcls
    refine hasTemplate_of_pack (m := .mem) (x := packMem f) rfl rfl (by decide) (fun b hb => ?_)
    cases parseMem_of_payload hb
    rfl
  case ixeGather f | ixeScatter f | ixeDedup f | ixeBucket f =>
    cases eq_of_beq hcls
    refine hasTemplate_of_pack (m := .eng) (x := packEng f) rfl rfl (by decide) (fun b hb => ?_)
    rw [← parseEng_of_payload hb] at hfields ⊢
    refine (?_ : decodeOp _ _ b = some (pickIxe (parseEng b))).trans (congrArg some ?_)
    · rfl
    · simp_all [fieldsOk, pickIxe]
  case wlpush f | wlpop f | wldin f | pool f | supd f | nmc f =>
    cases eq_of_beq hcls
    refine hasTemplate_of_pack (m := .eng) (x := packEng f) rfl rfl (by decide) (fun b hb => ?_)
    cases parseEng_of_payload hb
    rfl
  case xchPool f | xchRed f =>
    cases eq_of_beq hcls
    refine hasTemplate_of_pack (m := .eng) (x := packEng f) rfl rfl (by decide) (fun b hb => ?_)
    rw [← parseEng_of_payload hb] at hfields ⊢
    refine (?_ : decodeOp _ _ b = some (pickXch (parseEng b))).trans (congrArg some ?_)
    · rfl
    · simp_all [fieldsOk, pickXch]
  case skq f | skqAdd f =>
    cases eq_of_beq hcls
    refine hasTemplate_of_pack (m := .eng) (x := packEng f) rfl rfl (by decide) (fun b hb => ?_)
    rw [← parseEng_of_payload hb] at hfields ⊢
    refine (?_ : decodeOp _ _ b = some (pickSkq (parseEng b))).trans (congrArg some ?_)
    · rfl
    · simp_all [fieldsOk, pickSkq]
  case hrchFill f | hrchEvict f | hrchFlush f | hrchPin f | hrchUnpin f =>
    cases eq_of_beq hcls
    refine hasTemplate_of_pack (m := .eng) (x := packEng f) rfl rfl (by decide) (fun b hb => ?_)
    rw [← parseEng_of_payload hb] at hfields ⊢
    refine (?_ : decodeOp _ _ b = some (pickHrch (parseEng b))).trans (congrArg some ?_)
    · rfl
    · simp_all [fieldsOk, pickHrch]
  case agset f =>
    cases eq_of_beq hcls
    refine hasTemplate_of_pack (m := .agn) (x := packAgn f) rfl rfl (by decide) (fun b hb => ?_)
    cases parseAgn_of_payload hb
    rfl
  case vld f | vldUb f | plane f | renew f =>
    cases eq_of_beq hcls
    refine hasTemplate_of_pack (m := .mov) (x := packMov f) rfl rfl (by decide) (fun b hb => ?_)
    cases parseMov_of_payload hb
    rfl
  case cpyIn f | cpyOut f | cpyLl f =>
    cases eq_of_beq hcls
    refine hasTemplate_of_pack (m := .mov) (x := packMov f) rfl rfl (by decide) (fun b hb => ?_)
    rw [← parseMov_of_payload hb] at hfields ⊢
    refine (?_ : decodeOp _ _ b = some (pickCpy (parseMov b))).trans (congrArg some ?_)
    · rfl
    · simp_all [fieldsOk, pickCpy]
  case salloc f | sallocZ f =>
    cases eq_of_beq hcls
    refine hasTemplate_of_pack (m := .mov) (x := packMov f) rfl rfl (by decide) (fun b hb => ?_)
    rw [← parseMov_of_payload hb] at hfields ⊢
    refine (?_ : decodeOp _ _ b = some (pickSalloc (parseMov b))).trans (congrArg some ?_)
    · rfl
    · simp_all [fieldsOk, pickSalloc]
  case sfree f | sfreeDesc f =>
    cases eq_of_beq hcls
    refine hasTemplate_of_pack (m := .mov) (x := packMov f) rfl rfl (by decide) (fun b hb => ?_)
    rw [← parseMov_of_payload hb] at hfields ⊢
    refine (?_ : decodeOp _ _ b = some (pickSfree (parseMov b))).trans (congrArg some ?_)
    · rfl
    · simp_all [fieldsOk, pickSfree]
  case stash f | stashClose f =>
    cases eq_of_beq hcls
    refine hasTemplate_of_pack (m := .mov) (x := packMov f) rfl rfl (by decide) (fun b hb => ?_)
    rw [← parseMov_of_payload hb] at hfields ⊢
    refine (?_ : decodeOp _ _ b = some (pickStash (parseMov b))).trans (congrArg some ?_)
    · rfl
    · simp_all [fieldsOk, pickStash]
  case vadd f | vsub f | vmul f | vfma f | vfms f | vmin f | vmax f | vabs f | vneg f | vcvt f | vexp2 f | vlog2 f | vrcp f | vrsqrt f |
      vdiv f | vsqrt f | vcmp f | vsel f | vred f | vtopk f | vbscmp f | vcrc f | vxm f | vbcast f | vand f | vor f | vxor f | vshl f |
      vshr f | vsra f | vmov f =>
    cases eq_of_beq hcls
    refine hasTemplate_of_pack (m := .vec) (x := packVec f) rfl rfl (by decide) (fun b hb => ?_)
    cases parseVec_of_payload hb
    rfl
  case vmix f | vmixH f =>
    cases eq_of_beq hcls
    refine hasTemplate_of_pack (m := .vec) (x := packVec f) rfl rfl (by decide) (fun b hb => ?_)
    rw [← parseVec_of_payload hb] at hfields ⊢
    refine (?_ : decodeOp _ _ b = some (pickVmix (parseVec b))).trans (congrArg some ?_)
    · rfl
    · simp_all [fieldsOk, pickVmix]
  case vperm f | vperm2 f =>
    cases eq_of_beq hcls
    refine hasTemplate_of_pack (m := .vec) (x := packVec f) rfl rfl (by decide) (fun b hb => ?_)
    rw [← parseVec_of_payload hb] at hfields ⊢
    refine (?_ : decodeOp _ _ b = some (pickVperm (parseVec b))).trans (congrArg some ?_)
    · rfl
    · simp_all [fieldsOk, pickVperm]
  case vst f | aretW f | qpush f =>
    cases eq_of_beq hcls
    refine hasTemplate_of_pack (m := .sto) (x := packSto f) rfl rfl (by decide) (fun b hb => ?_)
    cases parseSto_of_payload hb
    rfl
  case lease f | unlease f | mmac f | mmas f | amz f | ald f | aret f =>
    cases eq_of_beq hcls
    refine hasTemplate_of_pack (m := .mtx) (x := packMtx f) rfl rfl (by decide) (fun b hb => ?_)
    cases parseMtx_of_payload hb
    rfl
  case mma f | mmaAtBank f =>
    cases eq_of_beq hcls
    refine hasTemplate_of_pack (m := .mtx) (x := packMtx f) rfl rfl (by decide) (fun b hb => ?_)
    rw [← parseMtx_of_payload hb] at hfields ⊢
    refine (?_ : decodeOp _ _ b = some (pickMma (parseMtx b))).trans (congrArg some ?_)
    · rfl
    · simp_all [fieldsOk, pickMma]
  all_goals exact absurd hcls Bool.false_ne_true

/-! ### Every instruction that is decoded -/

/-- The class executes the instruction, and its code and its fields are those of the template. -/
def CodedAs (b : Template) (cls : Seq) (code : Nat) (i : Instr) : Prop :=
  classOk cls i = true ∧ ∃ m, fmtOf i = some m ∧ encodeOp i = some (code, (b.extractLsb' 0 (fmtWidth m)).setWidth 104)

theorem codedAs_of_pack {b : Template} {cls : Seq} {code : Nat} {i : Instr} {m : Fmt} {x : BitVec (fmtWidth m)}
    (hx : x = b.extractLsb' 0 (fmtWidth m)) (hcls : classOk cls i = true) (hfmt : fmtOf i = some m)
    (henc : encodeOp i = some (code, x.setWidth 104)) : CodedAs b cls code i :=
  ⟨hcls, m, hfmt, hx ▸ henc⟩

theorem codedAs_pickTkget (b : Template) (cls : Seq) : CodedAs b cls 0xFD (pickTkget (parseMgt b)) := by
  unfold pickTkget
  repeat' split
  all_goals exact codedAs_of_pack (m := .mgt) (packMgt_parseMgt b) rfl rfl rfl

theorem codedAs_pickMts (b : Template) : CodedAs b .k 0x34 (pickMts (parseMgt b)) := by
  unfold pickMts
  repeat' split
  all_goals exact codedAs_of_pack (m := .mgt) (packMgt_parseMgt b) rfl rfl rfl

theorem codedAs_pickFence (b : Template) : CodedAs b .k 0x3B (pickFence (parseMgt b)) := by
  unfold pickFence
  repeat' split
  all_goals exact codedAs_of_pack (m := .mgt) (packMgt_parseMgt b) rfl rfl rfl

theorem codedAs_pickSacq (b : Template) : CodedAs b .k 0x3D (pickSacq (parseMgt b)) := by
  unfold pickSacq
  repeat' split
  all_goals exact codedAs_of_pack (m := .mgt) (packMgt_parseMgt b) rfl rfl rfl

theorem codedAs_pickSrel (b : Template) : CodedAs b .k 0x3E (pickSrel (parseMgt b)) := by
  unfold pickSrel
  repeat' split
  all_goals exact codedAs_of_pack (m := .mgt) (packMgt_parseMgt b) rfl rfl rfl

theorem codedAs_pickJrnl (b : Template) : CodedAs b .k 0x44 (pickJrnl (parseMgt b)) := by
  unfold pickJrnl
  repeat' split
  all_goals exact codedAs_of_pack (m := .mgt) (packMgt_parseMgt b) rfl rfl rfl

theorem codedAs_pickTlbinv (b : Template) : CodedAs b .k 0x45 (pickTlbinv (parseMgt b)) := by
  unfold pickTlbinv
  repeat' split
  all_goals exact codedAs_of_pack (m := .mgt) (packMgt_parseMgt b) rfl rfl rfl

theorem codedAs_pickQfence (b : Template) : CodedAs b .k 0x47 (pickQfence (parseMgt b)) := by
  unfold pickQfence
  repeat' split
  all_goals exact codedAs_of_pack (m := .mgt) (packMgt_parseMgt b) rfl rfl rfl

theorem codedAs_pickIxe (b : Template) : CodedAs b .k 0x60 (pickIxe (parseEng b)) := by
  unfold pickIxe
  repeat' split
  all_goals exact codedAs_of_pack (m := .eng) (packEng_parseEng b) rfl rfl rfl

theorem codedAs_pickXch (b : Template) : CodedAs b .k 0x67 (pickXch (parseEng b)) := by
  unfold pickXch
  repeat' split
  all_goals exact codedAs_of_pack (m := .eng) (packEng_parseEng b) rfl rfl rfl

theorem codedAs_pickSkq (b : Template) : CodedAs b .k 0x68 (pickSkq (parseEng b)) := by
  unfold pickSkq
  repeat' split
  all_goals exact codedAs_of_pack (m := .eng) (packEng_parseEng b) rfl rfl rfl

theorem codedAs_pickHrch (b : Template) : CodedAs b .k 0x69 (pickHrch (parseEng b)) := by
  unfold pickHrch
  repeat' split
  all_goals exact codedAs_of_pack (m := .eng) (packEng_parseEng b) rfl rfl rfl

theorem codedAs_pickCpy (b : Template) : CodedAs b .l 0x03 (pickCpy (parseMov b)) := by
  unfold pickCpy
  repeat' split
  all_goals exact codedAs_of_pack (m := .mov) (packMov_parseMov b) rfl rfl rfl

theorem codedAs_pickSalloc (b : Template) : CodedAs b .l 0x06 (pickSalloc (parseMov b)) := by
  unfold pickSalloc
  repeat' split
  all_goals exact codedAs_of_pack (m := .mov) (packMov_parseMov b) rfl rfl rfl

theorem codedAs_pickSfree (b : Template) : CodedAs b .l 0x07 (pickSfree (parseMov b)) := by
  unfold pickSfree
  repeat' split
  all_goals exact codedAs_of_pack (m := .mov) (packMov_parseMov b) rfl rfl rfl

theorem codedAs_pickStash (b : Template) : CodedAs b .l 0x08 (pickStash (parseMov b)) := by
  unfold pickStash
  repeat' split
  all_goals exact codedAs_of_pack (m := .mov) (packMov_parseMov b) rfl rfl rfl

theorem codedAs_pickVmix (b : Template) : CodedAs b .c 0x16 (pickVmix (parseVec b)) := by
  unfold pickVmix
  repeat' split
  all_goals exact codedAs_of_pack (m := .vec) (packVec_parseVec b) rfl rfl rfl

theorem codedAs_pickVperm (b : Template) : CodedAs b .c 0x18 (pickVperm (parseVec b)) := by
  unfold pickVperm
  repeat' split
  all_goals exact codedAs_of_pack (m := .vec) (packVec_parseVec b) rfl rfl rfl

theorem codedAs_pickMma (b : Template) : CodedAs b .c 0x42 (pickMma (parseMtx b)) := by
  unfold pickMma
  repeat' split
  all_goals exact codedAs_of_pack (m := .mtx) (packMtx_parseMtx b) rfl rfl rfl

theorem codedAs_of_decodeCommon {cls : Seq} {code : Nat} {b : Template} {i : Instr} (h : decodeCommon code b = some i) : CodedAs b cls code i := by
  unfold decodeCommon at h
  split at h
  iterate 8 (next => cases h; exact codedAs_of_pack (m := .reg) (packReg_parseReg b) rfl rfl rfl)
  iterate 4 (next => cases h; exact codedAs_of_pack (m := .ctl) (packCtl_parseCtl b) rfl rfl rfl)
  next => cases h; exact codedAs_of_pack (m := .mgt) (packMgt_parseMgt b) rfl rfl rfl
  next => cases h; exact codedAs_pickTkget b cls
  next => cases h; exact codedAs_of_pack (m := .mgt) (packMgt_parseMgt b) rfl rfl rfl
  next => cases h

theorem codedAs_of_decodeK {code : Nat} {b : Template} {i : Instr} (h : decodeK code b = some i) : CodedAs b .k code i := by
  unfold decodeK at h
  split at h
  iterate 20 (next => cases h; exact codedAs_of_pack (m := .reg) (packReg_parseReg b) rfl rfl rfl)
  iterate 3 (next => cases h; exact codedAs_of_pack (m := .ctl) (packCtl_parseCtl b) rfl rfl rfl)
  iterate 4 (next => cases h; exact codedAs_of_pack (m := .mgt) (packMgt_parseMgt b) rfl rfl rfl)
  next => cases h; exact codedAs_pickMts b
  iterate 6 (next => cases h; exact codedAs_of_pack (m := .mgt) (packMgt_parseMgt b) rfl rfl rfl)
  next => cases h; exact codedAs_pickFence b
  next => cases h; exact codedAs_of_pack (m := .mgt) (packMgt_parseMgt b) rfl rfl rfl
  next => cases h; exact codedAs_pickSacq b
  next => cases h; exact codedAs_pickSrel b
  iterate 5 (next => cases h; exact codedAs_of_pack (m := .mgt) (packMgt_parseMgt b) rfl rfl rfl)
  next => cases h; exact codedAs_pickJrnl b
  next => cases h; exact codedAs_pickTlbinv b
  next => cases h; exact codedAs_of_pack (m := .mgt) (packMgt_parseMgt b) rfl rfl rfl
  next => cases h; exact codedAs_pickQfence b
  iterate 12 (next => cases h; exact codedAs_of_pack (m := .mem) (packMem_parseMem b) rfl rfl rfl)
  next => cases h; exact codedAs_pickIxe b
  iterate 6 (next => cases h; exact codedAs_of_pack (m := .eng) (packEng_parseEng b) rfl rfl rfl)
  next => cases h; exact codedAs_pickXch b
  next => cases h; exact codedAs_pickSkq b
  next => cases h; exact codedAs_pickHrch b
  next => exact codedAs_of_decodeCommon h

theorem codedAs_of_decodeL {code : Nat} {b : Template} {i : Instr} (h : decodeL code b = some i) : CodedAs b .l code i := by
  unfold decodeL at h
  split at h
  next => cases h; exact codedAs_of_pack (m := .agn) (packAgn_parseAgn b) rfl rfl rfl
  iterate 2 (next => cases h; exact codedAs_of_pack (m := .mov) (packMov_parseMov b) rfl rfl rfl)
  next => cases h; exact codedAs_pickCpy b
  iterate 2 (next => cases h; exact codedAs_of_pack (m := .mov) (packMov_parseMov b) rfl rfl rfl)
  next => cases h; exact codedAs_pickSalloc b
  next => cases h; exact codedAs_pickSfree b
  next => cases h; exact codedAs_pickStash b
  next => exact codedAs_of_decodeCommon h

theorem codedAs_of_decodeC {code : Nat} {b : Template} {i : Instr} (h : decodeC code b = some i) : CodedAs b .c code i := by
  unfold decodeC at h
  split at h
  iterate 22 (next => cases h; exact codedAs_of_pack (m := .vec) (packVec_parseVec b) rfl rfl rfl)
  next => cases h; exact codedAs_pickVmix b
  next => cases h; exact codedAs_of_pack (m := .vec) (packVec_parseVec b) rfl rfl rfl
  next => cases h; exact codedAs_pickVperm b
  iterate 8 (next => cases h; exact codedAs_of_pack (m := .vec) (packVec_parseVec b) rfl rfl rfl)
  iterate 2 (next => cases h; exact codedAs_of_pack (m := .mtx) (packMtx_parseMtx b) rfl rfl rfl)
  next => cases h; exact codedAs_pickMma b
  iterate 5 (next => cases h; exact codedAs_of_pack (m := .mtx) (packMtx_parseMtx b) rfl rfl rfl)
  next => exact codedAs_of_decodeCommon h

theorem codedAs_of_decodeS {code : Nat} {b : Template} {i : Instr} (h : decodeS code b = some i) : CodedAs b .s code i := by
  unfold decodeS at h
  split at h
  next => cases h; exact codedAs_of_pack (m := .sto) (packSto_parseSto b) rfl rfl rfl
  next => cases h; exact codedAs_of_pack (m := .mem) (packMem_parseMem b) rfl rfl rfl
  iterate 2 (next => cases h; exact codedAs_of_pack (m := .sto) (packSto_parseSto b) rfl rfl rfl)
  next => exact codedAs_of_decodeCommon h

theorem codedAs_of_decodeOp {cls : Seq} {code : Nat} {b : Template} {i : Instr} (h : decodeOp cls code b = some i) : CodedAs b cls code i := by
  cases cls with
  | k => exact codedAs_of_decodeK h
  | l => exact codedAs_of_decodeL h
  | c => exact codedAs_of_decodeC h
  | s => exact codedAs_of_decodeS h

/-! ### Templates -/

theorem fmtRsvOk_of_payload {b : Template} {i : Instr} {m : Fmt} (hm : fmtOf i = some m) (h : (payloadOf b).toNat < 2 ^ fmtWidth m) :
    fmtRsvOk i b = true := by
  simp only [fmtRsvOk, hm]
  exact decide_eq_true (Nat.div_eq_of_lt h)

/-- With no bit above the fields of the format, the payload is the fields. -/
theorem payload_of_fmtRsvOk {b : Template} {i : Instr} {m : Fmt} (hm : fmtOf i = some m) (h : fmtRsvOk i b = true) :
    (b.extractLsb' 0 (fmtWidth m)).setWidth 104 = payloadOf b := by
  simp only [fmtRsvOk, hm, decide_eq_true_eq] at h
  have hw : fmtWidth m ≤ 104 := by cases m <;> decide
  have hlt : (payloadOf b).toNat < 2 ^ fmtWidth m := (Nat.div_eq_zero_iff_lt (Nat.two_pow_pos _)).mp h
  refine BitVec.eq_of_toNat_eq ?_
  rw [← BitVec.extractLsb'_extractLsb'_of_le (len' := 104) (by omega), show b.extractLsb' 0 104 = payloadOf b from rfl, BitVec.toNat_setWidth,
    BitVec.extractLsb'_toNat, Nat.shiftRight_zero, Nat.mod_eq_of_lt hlt, Nat.mod_eq_of_lt (payloadOf b).isLt]

theorem decodeTemplate_eq_ok {cls : Seq} {b : Template} {i : Instr} : decodeTemplate cls b = .ok i ↔
    ((b.extractLsb' 116 2).toNat = cls.code ∧ (b.extractLsb' 126 2).toNat = cls.code) ∧ decodeOp cls (b.extractLsb' 118 8).toNat b = some i ∧
      b.extractLsb' 104 7 = 0 ∧ fmtRsvOk i b = true ∧ fieldsOk cls i = true := by
  unfold decodeTemplate
  split
  · rename_i hne
    exact ⟨(fun h => nomatch h), fun ⟨⟨hlow, hhigh⟩, _⟩ => hne.elim (absurd hlow) (absurd hhigh)⟩
  · rename_i heq
    push Not at heq
    cases hop : decodeOp cls (b.extractLsb' 118 8).toNat b with
    | none => simp
    | some j =>
      simp only [heq, and_self, true_and, Option.some.injEq]
      constructor
      · intro h
        split at h
        · cases h
        · split at h
          · cases h
          · split at h
            · cases h
              simp_all
            · cases h
      · rintro ⟨rfl, hrsv, hfmt, hok⟩
        simp [hrsv, hfmt, hok]

/-- The template of an instruction that has one is decoded as it, under its guard. -/
theorem decodeTemplate_encode {cls : Seq} {i : Instr} (h : wellFormed cls i = true) (g : BitVec 4) (sn : BitVec 1) :
    ∃ b, encode cls g sn i = some b ∧ decodeTemplate cls b = .ok i ∧ guardOf b = g ∧ senseOf b = sn := by
  obtain ⟨code, p, m, henc, hfmt, hcode, hp, hdec⟩ := hasTemplate_of_wellFormed h
  obtain ⟨-, hfields⟩ := (Bool.and_eq_true _ _).mp h
  have hpay := payloadOf_assemble cls code g sn p
  have hcode' : ((assemble cls code g sn p).extractLsb' 118 8).toNat = code := by
    rw [code_assemble, BitVec.toNat_ofNat, Nat.mod_eq_of_lt hcode]
  refine ⟨assemble cls code g sn p, encode_of_encodeOp cls g sn henc, decodeTemplate_eq_ok.mpr ⟨⟨?_, ?_⟩, ?_, rsv_assemble .., ?_, hfields⟩,
    guardOf_assemble .., senseOf_assemble ..⟩
  · rw [lowClass_assemble, Seq.ofNat_code_toNat]
  · rw [highClass_assemble, Seq.ofNat_code_toNat]
  · rw [hcode']
    exact hdec _ hpay
  · exact fmtRsvOk_of_payload hfmt ((congrArg BitVec.toNat hpay).trans_lt hp)

/-- A template that is decoded is the one that its instruction and its guard are encoded as. -/
theorem encode_of_decodeTemplate {cls : Seq} {b : Template} {i : Instr} (h : decodeTemplate cls b = .ok i) :
    wellFormed cls i = true ∧ encode cls (guardOf b) (senseOf b) i = some b := by
  obtain ⟨⟨hlow, hhigh⟩, hop, hrsv, hfmt, hfields⟩ := decodeTemplate_eq_ok.mp h
  obtain ⟨hcls, m, hm, henc⟩ := codedAs_of_decodeOp hop
  refine ⟨(Bool.and_eq_true _ _).mpr ⟨hcls, hfields⟩, ?_⟩
  rw [payload_of_fmtRsvOk hm hfmt] at henc
  rw [encode_of_encodeOp cls _ _ henc]
  have hclass {x : BitVec 2} (hx : x.toNat = cls.code) : BitVec.ofNat 2 cls.code = x := by rw [← hx, BitVec.ofNat_toNat, BitVec.setWidth_eq]
  conv_rhs => rw [← assemble_parts b]
  rw [assemble, hclass hlow, ← hclass hhigh, hclass hlow, BitVec.ofNat_toNat, BitVec.setWidth_eq, hrsv]

/-! ### Call words -/

theorem patchT_encodedCall (m idle : BitVec 5) (p0 : BitVec 16) : patchT (BitVec.ofNat 6 62 ++ m ++ idle ++ p0) = 62 := by
  refine congrArg BitVec.toNat (?_ : _ = BitVec.ofNat 6 62)
  exact (BitVec.extractLsb'_append_eq_of_le (by decide)).trans <|
    (BitVec.extractLsb'_append_eq_of_le (by decide)).trans BitVec.extractLsb'_append_eq_left

theorem decodeCall_encodedCall (m idle : BitVec 5) (p0 p1 p2 p3 : BitVec 16) :
    decodeCall (BitVec.ofNat 6 62 ++ m ++ idle ++ p0) p1 p2 p3 = some (.macroCall m idle p0 p1 p2 p3) := by
  have hm : (BitVec.ofNat 6 62 ++ m ++ idle ++ p0).extractLsb' 21 5 = m :=
    (BitVec.extractLsb'_append_eq_of_le (by decide)).trans <|
      (BitVec.extractLsb'_append_eq_of_le (by decide)).trans BitVec.extractLsb'_append_eq_right
  have hidle : (BitVec.ofNat 6 62 ++ m ++ idle ++ p0).extractLsb' 16 5 = idle :=
    (BitVec.extractLsb'_append_eq_of_le (by decide)).trans BitVec.extractLsb'_append_eq_right
  have hp0 : patchV (BitVec.ofNat 6 62 ++ m ++ idle ++ p0) = p0 := BitVec.extractLsb'_append_eq_right
  rw [decodeCall, if_pos (patchT_encodedCall m idle p0)]
  exact congrArg some (by rw [hp0]; exact congrArg₂ (fun x y => Instr.macroCall x y p0 p1 p2 p3) hm hidle)

theorem encodeCall_of_decodeCall {w : Half} {p1 p2 p3 : BitVec 16} {i : Instr} (h : decodeCall w p1 p2 p3 = some i) : encodeCall i = some w := by
  unfold decodeCall at h
  split at h
  · rename_i hT
    cases h
    have hop : BitVec.ofNat 6 62 = w.extractLsb' 26 6 := BitVec.eq_of_toNat_eq hT.symm
    simp only [encodeCall, hop, patchV, BitVec.extractLsb'_append_extractLsb'_eq_extractLsb', BitVec.extractLsb'_eq_self]
  · cases h

end Sys2Proof

namespace Sys2Proof.Proofs
open Sys2Proof

/-- Settles O28: every well-formed instruction has a code and a payload that are decoded as it, every decoded instruction has the code and the
fields of its template, and a template is its header and its payload. -/
theorem decodingAndEncodingAgree : Obligations.DecodingAndEncodingAgree := by
  unfold Obligations.DecodingAndEncodingAgree
  exact ⟨fun _ g sn _ h => decodeTemplate_encode h g sn, fun _ _ _ h => encode_of_decodeTemplate h,
    fun m idle p0 p1 p2 p3 => ⟨_, rfl, decodeCall_encodedCall m idle p0 p1 p2 p3⟩, fun _ _ _ _ _ h => encodeCall_of_decodeCall h⟩

end Sys2Proof.Proofs
end

