-- ==== Sys2Proof/Proofs/SumsCompares.lean ====
section
/-! PROOFS. `add`, `sub` and `cmp`: a sum or difference wraps or saturates and its overflow is flagged, and a compare has the outcome of
its condition (R50, R54). -/
namespace Sys2Proof.Machine

/-! ### Sums that wrap, and sums that saturate -/

/-- The result and the overflow that the manual gives an exact signed sum x and unsigned sum u; w is the sum modulo 2^64. -/
def SumSpec (var : BitVec 4) (x u : Int) (w v : Word) (o : Bool) : Prop :=
  (var = 0 → v = w ∧ (o = true ↔ ¬(-(2 ^ 63) ≤ x ∧ x < 2 ^ 63))) ∧
  (var = 1 → (o = true ↔ ¬(-(2 ^ 63) ≤ x ∧ x < 2 ^ 63)) ∧ (-(2 ^ 63) ≤ x ∧ x < 2 ^ 63 → v.toInt = x) ∧
    (x < -(2 ^ 63) → v.toInt = -(2 ^ 63)) ∧ (2 ^ 63 ≤ x → v.toInt = 2 ^ 63 - 1)) ∧
  (var = 2 → (o = true ↔ ¬(0 ≤ u ∧ u < 2 ^ 64)) ∧ (0 ≤ u ∧ u < 2 ^ 64 → (v.toNat : Int) = u) ∧ (u < 0 → v = 0) ∧
    (2 ^ 64 ≤ u → v.toNat = 2 ^ 64 - 1))

theorem toInt_ofInt_of_range {x : Int} (h : -(2 ^ 63) ≤ x ∧ x < 2 ^ 63) : (BitVec.ofInt 64 x).toInt = x :=
  BitVec.toInt_ofInt_eq_self (by decide) h.1 h.2

theorem toNat_ofInt_of_range {u : Int} (h : 0 ≤ u ∧ u < 2 ^ 64) : ((BitVec.ofInt 64 u).toNat : Int) = u := by
  rw [BitVec.toNat_ofInt]
  omega

theorem saturate_spec (var : BitVec 4) (x u : Int) (w : Word) (hw : BitVec.ofInt 64 u = w) :
    SumSpec var x u w (saturate var x u).1 (saturate var x u).2 := by
  refine ⟨?_, ?_, ?_⟩
  · rintro rfl
    simp only [saturate, if_true, hw, true_and, Bool.or_eq_true, decide_eq_true_eq]
    omega
  · rintro rfl
    simp only [saturate, if_neg (show ¬(1 : BitVec 4) = 0 by decide), if_true]
    split
    · have hmax : (BitVec.ofNat 64 (2 ^ 63 - 1)).toInt = 2 ^ 63 - 1 := by decide
      simp only [Bool.or_eq_true, decide_eq_true_eq]
      exact ⟨by omega, fun _ => by omega, fun _ => by omega, fun _ => hmax⟩
    · split
      · have hmin : (BitVec.ofNat 64 (2 ^ 63)).toInt = -(2 ^ 63) := by decide
        simp only [Bool.or_eq_true, decide_eq_true_eq]
        exact ⟨by omega, fun _ => by omega, fun _ => hmin, fun _ => by omega⟩
      · have hx := toInt_ofInt_of_range (x := x) (by omega)
        simp only [Bool.or_eq_true, decide_eq_true_eq]
        exact ⟨by omega, fun _ => hx, fun _ => by omega, fun _ => by omega⟩
  · rintro rfl
    simp only [saturate, if_neg (show ¬(2 : BitVec 4) = 0 by decide), if_neg (show ¬(2 : BitVec 4) = 1 by decide)]
    split
    · have hmax : (BitVec.ofNat 64 (2 ^ 64 - 1)).toNat = 2 ^ 64 - 1 := by decide
      simp only [Bool.or_eq_true, decide_eq_true_eq]
      exact ⟨by omega, fun _ => by omega, fun _ => by omega, fun _ => hmax⟩
    · split
      · simp only [Bool.or_eq_true, decide_eq_true_eq]
        exact ⟨by omega, fun _ => by omega, fun _ => trivial, fun _ => by omega⟩
      · have hu := toNat_ofInt_of_range (u := u) (by omega)
        simp only [Bool.or_eq_true, decide_eq_true_eq]
        exact ⟨by omega, fun _ => hu, fun _ => by omega, fun _ => by omega⟩

theorem ofInt_add_toNat (a b : Word) : BitVec.ofInt 64 ((a.toNat : Int) + b.toNat) = a + b := by
  rw [BitVec.ofInt_add, BitVec.ofInt_natCast, BitVec.ofInt_natCast, BitVec.ofNat_toNat, BitVec.ofNat_toNat, BitVec.setWidth_eq, BitVec.setWidth_eq]

theorem ofInt_sub_toNat (a b : Word) : BitVec.ofInt 64 ((a.toNat : Int) - b.toNat) = a - b := by
  rw [Int.sub_eq_add_neg, BitVec.ofInt_add, BitVec.ofInt_neg, BitVec.ofInt_natCast, BitVec.ofInt_natCast, BitVec.ofNat_toNat, BitVec.ofNat_toNat,
    BitVec.setWidth_eq, BitVec.setWidth_eq, ← BitVec.sub_eq_add_neg]

/-- A group whose effect is a state issues with it. -/
theorem State.issues_of_done {s t : State} {i : Instr} {codes : List (BitVec 5)} {act : State → Act} (hexec : exec i s = issue s codes act)
    (hready : s.Ready codes) (hact : act s = .done t) : s.Issues i t := by
  rw [State.Issues, hexec, issue_of_ready act hready, hact, settleAct_done]

theorem condHolds_iff {var : BitVec 4} (h : var.toNat < 10) (a b : Word) : condHolds var a b = true ↔
    (var = 0 ∧ a = b) ∨ (var = 1 ∧ a ≠ b) ∨ (var = 2 ∧ a.toInt < b.toInt) ∨ (var = 3 ∧ a.toInt ≤ b.toInt) ∨ (var = 4 ∧ a.toInt > b.toInt) ∨
    (var = 5 ∧ a.toInt ≥ b.toInt) ∨ (var = 6 ∧ a.toNat < b.toNat) ∨ (var = 7 ∧ a.toNat ≤ b.toNat) ∨ (var = 8 ∧ a.toNat > b.toNat) ∨
    (var = 9 ∧ a.toNat ≥ b.toNat) := by
  have hcases : ∀ v : BitVec 4, v.toNat < 10 → v = 0 ∨ v = 1 ∨ v = 2 ∨ v = 3 ∨ v = 4 ∨ v = 5 ∨ v = 6 ∨ v = 7 ∨ v = 8 ∨ v = 9 := by decide
  rcases hcases var h with rfl | rfl | rfl | rfl | rfl | rfl | rfl | rfl | rfl | rfl <;> simp [condHolds]

end Sys2Proof.Machine

namespace Sys2Proof.Proofs
open Sys2Proof.Machine

theorem addAndSubSaturateAndFlag : Claims.AddAndSubSaturateAndFlag := by
  unfold Claims.AddAndSubSaturateAndFlag
  rintro s f i codes b neg hform hready -
  have hadd (y : Word) := saturate_spec f.var ((s.rd f.a).toInt + y.toInt) _ _ (ofInt_add_toNat (s.rd f.a) y)
  have hsub (y : Word) := saturate_spec f.var ((s.rd f.a).toInt - y.toInt) _ _ (ofInt_sub_toNat (s.rd f.a) y)
  rcases hform with ⟨rfl, rfl, rfl, rfl⟩ | ⟨rfl, rfl, rfl, rfl⟩ | ⟨rfl, rfl, rfl, rfl⟩ | ⟨rfl, rfl, rfl, rfl⟩
  · exact ⟨_, _, State.issues_of_done (show _ = execAdd f s from rfl) hready rfl, hadd _⟩
  · exact ⟨_, _, State.issues_of_done (show _ = execAddImm f s from rfl) hready rfl, hadd _⟩
  · exact ⟨_, _, State.issues_of_done (show _ = execSub f s from rfl) hready rfl, hsub _⟩
  · exact ⟨_, _, State.issues_of_done (show _ = execSubImm f s from rfl) hready rfl, hsub _⟩

theorem compareWritesConditionAndComplement : Claims.CompareWritesConditionAndComplement := by
  unfold Claims.CompareWritesConditionAndComplement
  refine ⟨fun cls f hvar => ?_, fun s f imm r hready hvar hr => ?_⟩
  · have hbad : decide (f.var.toNat ≤ 9) = false := decide_eq_false (by omega)
    simp [wellFormed, fieldsOk, hbad]
  · rw [← condHolds_iff hvar, Bool.coe_iff_coe] at hr
    cases imm with
    | false => exact hr ▸ State.issues_of_done (show _ = execCmp f s from rfl) hready rfl
    | true => exact hr ▸ State.issues_of_done (show _ = execCmpImm f s from rfl) hready rfl

/-- Settles O31: the exact sum wraps or saturates by the cases of var, and a compare has the outcome of its condition. -/
theorem sumsAndComparisons : Obligations.SumsAndComparisons := by
  unfold Obligations.SumsAndComparisons
  exact ⟨addAndSubSaturateAndFlag, compareWritesConditionAndComplement⟩

end Sys2Proof.Proofs
end

