-- ==== Sys2Proof/Proofs/Transfers.lean ====
section
/-! PROOFS. Transfers of control and what ends a sequencer: a transfer goes to its target when that passes its check, and else traps; hardware
loops, calls and returns put their results in flight as they transfer (R55 to R64, R75, R76). -/
namespace Sys2Proof.Machine

/-! ### How a group that can issue ends -/

/-- A group whose effect is a transfer jumps. -/
theorem State.jumps_of_jump {s t : State} {i : Instr} {codes : List (BitVec 5)} {act : State → Act} {target : Word} {delay : Nat}
    (hexec : exec i s = issue s codes act) (hready : s.Ready codes) (hact : act s = .jump t target delay) : s.Jumps i t target delay := by
  rw [State.Jumps, hexec, issue_of_ready act hready, hact, settleAct_jump]

theorem State.traps_of_opTrap {s : State} {i : Instr} {codes : List (BitVec 5)} {act : State → Act} {cause : Nat}
    (hexec : exec i s = issue s codes act) (hready : s.Ready codes) (hact : act s = s.opTrap cause) : s.Traps i cause 0 := by
  obtain ⟨info, hcause, hcls, htrap⟩ := settleAct_opTrap s s cause
  refine ⟨info, hcause, hcls, ?_⟩
  rw [hexec, issue_of_ready act hready, hact]
  exact congrArg Host.Outcome.next htrap

/-- A group whose effect is to wait waits. -/
theorem State.waits_of_wait {s : State} {i : Instr} {codes : List (BitVec 5)} {act : State → Act} {kind obj lacks : Nat}
    (hexec : exec i s = issue s codes act) (hready : s.Ready codes) (hact : act s = .wait s kind obj lacks) : s.Waits i kind obj := by
  rw [State.Waits, hexec, issue_of_ready act hready, hact]
  unfold State.settleAct
  split
  · exact ⟨_, rfl, rfl, rfl⟩
  · exact ⟨lacks, rfl⟩

/-! ### The check of a target -/

theorem and_three_eq_zero_iff (target : Word) : target &&& 3 = 0 ↔ target.toNat % 4 = 0 := by
  rw [← BitVec.toNat_inj, BitVec.toNat_and]
  exact Eq.congr_left (Nat.and_two_pow_sub_one_eq_mod target.toNat 2)

theorem targetFault_of_unaligned {q : SeqSt} {target : Word} (h : target.toNat % 4 ≠ 0) : q.targetFault target = some 0xB :=
  if_pos (mt (and_three_eq_zero_iff target).mp h)

theorem targetFault_of_aligned {q : SeqSt} {target : Word} (h : target.toNat % 4 = 0) :
    q.targetFault target = if q.inStream target then none else some 9 :=
  if_neg (not_not_intro ((and_three_eq_zero_iff target).mpr h))

theorem checked_of_unaligned {s : State} {target : Word} (a : Act) (h : target.toNat % 4 ≠ 0) : s.checked target a = s.opTrap 0xB := by
  simp only [State.checked, targetFault_of_unaligned h]

theorem checked_of_outside {s : State} {target : Word} (a : Act) (h : target.toNat % 4 = 0) (hout : s.mySeq.inStream target = false) :
    s.checked target a = s.opTrap 9 := by
  simp [State.checked, targetFault_of_aligned h, hout]

theorem checked_of_inStream {s : State} {target : Word} (a : Act) (h : target.toNat % 4 = 0) (hin : s.mySeq.inStream target = true) :
    s.checked target a = a := by
  simp [State.checked, targetFault_of_aligned h, hin]

/-- What the check of its target makes of a transfer: it traps, or goes on. -/
theorem State.checked_issue {s : State} {i : Instr} {codes : List (BitVec 5)} {act : State → Act} {target : Word} {a : Act}
    (hexec : exec i s = issue s codes act) (hready : s.Ready codes) (hact : act s = s.checked target a) :
    (target.toNat % 4 ≠ 0 → s.Traps i 0xB 0) ∧ (target.toNat % 4 = 0 → s.mySeq.inStream target = false → s.Traps i 9 0) ∧
    (target.toNat % 4 = 0 → s.mySeq.inStream target = true → act s = a) :=
  ⟨fun h => State.traps_of_opTrap hexec hready (hact.trans (checked_of_unaligned a h)),
    fun h hout => State.traps_of_opTrap hexec hready (hact.trans (checked_of_outside a h hout)),
    fun h hin => hact.trans (checked_of_inStream a h hin)⟩

/-! ### Lists of numbers -/

theorem mem_upTo {a n x : Nat} : x ∈ upTo a n ↔ a ≤ x ∧ x < a + n := by
  induction n generalizing a with
  | zero => simp [upTo]
  | succ n ih =>
    simp only [upTo, List.mem_cons, ih]
    omega

theorem firstSome_eq_none {α β : Type} {f : α → Option β} {l : List α} : firstSome f l = none ↔ ∀ a ∈ l, f a = none := by
  induction l with
  | nil => simp [firstSome]
  | cons a r ih =>
    cases ha : f a with
    | some b => simp [firstSome, ha]
    | none => simp [firstSome, ha, ih]

/-! ### Several results of one group -/

theorem results_append (s : State) (lat : Nat) (l l' : List Fx) : (s.results lat l).results lat l' = s.results lat (l ++ l') :=
  (List.foldl_append ..).symm

theorem foldl_result_eq_results {β : Type} (s : State) (lat : Nat) (g : β → Fx) (l : List β) :
    l.foldl (fun s b => s.result lat 0 (g b)) s = s.results lat (l.map g) := by
  rw [State.results, List.foldl_map]

theorem result_eq_results (s : State) (lat : Nat) (fx : Fx) : s.result lat 0 fx = s.results lat [fx] := rfl

/-- Results that the state, in what results leave of it, tells. -/
theorem foldl_result_of_invariant {β : Type} {lat : Nat} {g : State → β → Fx}
    (hg : ∀ (s : State) (fx : Fx) (b : β), g (s.result lat 0 fx) b = g s b) (l : List β) (s : State) :
    l.foldl (fun s b => s.result lat 0 (g s b)) s = s.results lat (l.map (g s)) := by
  induction l generalizing s with
  | nil => rfl
  | cons b r ih =>
    rw [List.foldl_cons, ih, funext (hg s (g s b))]
    rfl

/-- The eight stage predicates of a loop: p8 set, the others false (R63). -/
theorem stageStart_eq_results (s : State) : s.stageStart = s.results 1 (.pred s.cur.sq 8 true :: (upTo 9 7).map (fun p => .pred s.cur.sq p false)) := rfl

theorem toNat_and_three (x : Word) : (x &&& 3).toNat = x.toNat % 4 := by
  rw [BitVec.toNat_and]
  exact Nat.and_two_pow_sub_one_eq_mod x.toNat 2

theorem aligned_and_not_three (x : Word) : (x &&& ~~~(3 : Word)).toNat % 4 = 0 := by
  rw [← and_three_eq_zero_iff, BitVec.and_assoc, show ~~~(3 : Word) &&& 3 = 0 by decide]
  exact BitVec.and_zero

theorem ceilDiv_four (n : Nat) : ceilDiv n 4 = (n + 3) / 4 := rfl

/-- What fills a frame reads of the spill ring is not what a result changes. -/
theorem ring_result (s : State) (lat ord : Nat) (fx : Fx) (off n : Nat) :
    (s.result lat ord fx).me.bytes ((s.result lat ord fx).me.ringAddr off) n = s.me.bytes (s.me.ringAddr off) n := by
  rw [State.me_result]
  rfl

theorem t_posts (s : State) (ps : List Post) : (s.posts s.cur.core ps).t = s.t := by
  simp [State.t, State.me, State.posts]

/-! ### Calls and returns -/

/-- Both forms of `call` do the same at their target. -/
theorem exec_call (s : State) (f : CtlF) : ∃ act : State → Act, exec (.call f) s = issue s (if f.var = 0 then [] else [f.a]) act ∧
    act s = actCall ((if f.var = 0 then s.cur.first else s.rd f.a) + f.off.signExtend 64 * 4) s := by
  have hexec : exec (.call f) s = execCall f s := rfl
  rw [hexec]
  unfold execCall
  split
  · exact ⟨_, rfl, rfl⟩
  · exact ⟨_, rfl, rfl⟩

/-- What a call puts in flight: the fresh registers of the callee, the link and the window. -/
theorem doCall_eq (s : State) (target : Word) (frame sp : Nat) :
    let im := s.me.im
    let nb := (im.wbase + 8 * frame) % 192
    let s1 := if sp = 0 then s else s.posts s.cur.core (writePosts (s.me.ringAddr (8 * im.wspl)) (s.me.spilled sp))
    s.doCall target frame sp = .jump (s1.results (1 + ceilDiv sp 4)
      ((upTo (24 - 8 * frame) (8 * frame - 1)).map (fun n => .win ((nb + n) % 192) 0) ++
        [.win ((nb + 23) % 192) (s.cur.nxt + BitVec.ofNat 64 frame), .window nb (im.wres - sp + 8 * frame) (im.wspl + sp)]))
      target (ceilDiv sp 4) := by
  intro im nb s1
  simp only [State.doCall, foldl_result_eq_results]
  simp only [result_eq_results, results_append, List.append_assoc]
  rfl

/-- What a return over a frame of fr registers fills: the k of them that were spilled, and the window (R60). -/
def State.refills (s : State) (fr k : Nat) : List Fx :=
  let im := s.me.im
  (upTo 0 k).map (fun i => .win ((im.wbase + 384 + 24 - im.wres - k + i) % 192)
    (BitVec.ofNat 64 (leNat (s.me.bytes (s.me.ringAddr (8 * (im.wspl - k + i))) 8)))) ++
  [.window ((im.wbase + 192 - fr) % 192) (im.wres + k - fr) (im.wspl - k)]

/-- A return by its link: the frame and the target that it names, and the checks in their order. -/
theorem actRet_eq (a : BitVec 5) (s : State) :
    let im := s.me.im
    let fr := 8 * ((s.rd a).toNat % 4)
    let k := 24 + fr - im.wres
    actRet a s = if im.wres + im.wspl < 24 + fr then s.opTrap 0xB else s.checked (s.rd a &&& ~~~3)
      (if k ≠ 0 ∧ s.me.timed then .wait s 9 0 0
       else match firstSome (fun i => firstBad s.me.bad (s.me.ringAddr (8 * (im.wspl - k + i))) 8) (upTo 0 k) with
        | some x => memTrap 0x80 x (memStatus 0 0 0 0 (x / 2048))
        | none => .jump (s.results (1 + ceilDiv k 4) (s.refills fr k)) (s.rd a &&& ~~~3) (ceilDiv k 4)) := by
  intro im fr k
  have hfr : 8 * (s.rd a &&& 3).toNat = fr := by rw [toNat_and_three]
  have hfold (lat : Nat) : (upTo 0 k).foldl (fun s i => s.result lat 0 (.win ((im.wbase + 384 + 24 - im.wres - k + i) % 192)
      (BitVec.ofNat 64 (leNat (s.me.bytes (s.me.ringAddr (8 * (im.wspl - k + i))) 8))))) s = s.results lat _ :=
    foldl_result_of_invariant (g := fun s i => Fx.win ((im.wbase + 384 + 24 - im.wres - k + i) % 192)
      (BitVec.ofNat 64 (leNat (s.me.bytes (s.me.ringAddr (8 * (im.wspl - k + i))) 8))))
      (fun s fx i => by simp only [ring_result]) _ s
  unfold actRet
  rw [hfr]
  simp only [State.refills, ← results_append, ← result_eq_results]
  simp only [hfold, k, im] <;> rfl

end Sys2Proof.Machine

namespace Sys2Proof.Proofs
open Sys2Proof.Machine

theorem branchesTransferToACheckedTarget : Claims.BranchesTransferToACheckedTarget := by
  unfold Claims.BranchesTransferToACheckedTarget
  intro s f reg
  cases reg with
  | false =>
    intro i target hready
    have hexec : exec i s = issue s [] _ := show execBr f s = _ from rfl
    obtain ⟨hodd, hout, hin⟩ := State.checked_issue (target := target) hexec hready rfl
    exact ⟨hodd, hout, fun h h' => State.jumps_of_jump hexec hready (hin h h')⟩
  | true =>
    intro i target hready
    have hexec : exec i s = issue s [f.a] _ := show execJmp f s = _ from rfl
    obtain ⟨hodd, hout, hin⟩ := State.checked_issue (target := target) hexec hready rfl
    exact ⟨hodd, hout, fun h h' => State.jumps_of_jump hexec hready (hin h h')⟩

theorem haltAndTrapStopTheSequencer : Claims.HaltAndTrapStopTheSequencer := by
  unfold Claims.HaltAndTrapStopTheSequencer
  refine fun s f => ⟨fun hready => ?_, fun hready => ?_⟩
  · exact State.jumps_of_jump (show _ = execHalt f s from rfl) hready rfl
  · exact (issue_of_ready _ hready : execTrap f s = _)

/-- Settles O32: a transfer is its check and then its jump; `halt` is a jump to its own place, and `trap` issues and then takes its trap. -/
theorem branchesHaltsAndTraps : Obligations.BranchesHaltsAndTraps := by
  unfold Obligations.BranchesHaltsAndTraps
  exact ⟨branchesTransferToACheckedTarget, haltAndTrapStopTheSequencer⟩

theorem loopEntersOrLeaves : Claims.LoopEntersOrLeaves := by
  unfold Claims.LoopEntersOrLeaves
  intro s f exit reg n hready
  have hexec : exec (.loop f) s = issue s _ (actLoop f) := show execLoop f s = _ from rfl
  obtain ⟨hodd, hout, hin⟩ := State.checked_issue (target := exit) hexec hready rfl
  have hsmall (hn : n < 2 ^ 32) : ¬(reg = true ∧ 2 ^ 32 ≤ n) := fun hbig => absurd hn (Nat.not_lt.mpr hbig.2)
  refine ⟨hodd, hout, fun h h' => ⟨fun hn => ?_, fun hn => ?_, fun hpos hn => ?_⟩⟩
  · have hreg : reg = true := by
      by_contra hne
      have hcnt : n = f.cnt.toNat := if_neg hne
      exact absurd f.cnt.isLt (by omega)
    exact State.traps_of_opTrap hexec hready ((hin h h').trans (if_pos ⟨hreg, hn⟩))
  · exact State.jumps_of_jump hexec hready ((hin h h').trans ((if_neg (hsmall (hn ▸ by decide))).trans (if_pos hn)))
  · have hact := (hin h h').trans ((if_neg (hsmall hn)).trans (if_neg (Nat.ne_of_gt hpos)))
    rw [stageStart_eq_results, result_eq_results, results_append] at hact
    refine ⟨_, State.issues_of_done hexec hready hact, State.results_putsInFlight _ _ _ (by simp) _ (fun fx => ?_)⟩
    simp only [List.cons_append, List.mem_cons, List.mem_append, List.mem_map, mem_upTo, List.not_mem_nil, or_false]
    constructor
    · rintro (rfl | rfl | ⟨p, hlo, hhi, rfl⟩)
      · exact .inr (.inr rfl)
      · exact .inl rfl
      · exact .inr (.inl ⟨p, ⟨hlo, by omega⟩, rfl⟩)
    · rintro (rfl | ⟨p, ⟨hlo, hhi⟩, rfl⟩ | rfl)
      · exact .inr (.inl rfl)
      · exact .inr (.inr ⟨p, hlo, by omega, rfl⟩)
      · exact .inl rfl

theorem lbrCountsRotatesAndBranches : Claims.LbrCountsRotatesAndBranches := by
  unfold Claims.LbrCountsRotatesAndBranches
  intro s f target q both hready
  have hexec : exec (.lbr f) s = issue s [] (actLbr f) := show execLbr f s = _ from rfl
  obtain ⟨hodd, hout, hin⟩ := State.checked_issue (target := target) hexec hready rfl
  have hboth (lc : Half) (ec : BitVec 4) (x : Bool) :
      s.PutsInFlight ((s.result 1 0 (.loop s.cur.sq lc ec)).result 1 0 (.rotate s.cur.sq x)) (s.t + 1) (both lc ec x) :=
    State.results_putsInFlight s 1 [.loop s.cur.sq lc ec, .rotate s.cur.sq x] (by simp) _ (fun fx => by simp [both])
  refine ⟨hodd, hout, fun h h' => ⟨fun hlc => ?_, fun hlc hec => ?_, fun hlc hec => ?_⟩⟩
  · exact ⟨_, State.jumps_of_jump hexec hready ((hin h h').trans (if_pos hlc)), hboth ..⟩
  · have hact := (hin h h').trans ((if_neg (not_not_intro hlc)).trans (if_pos hec))
    exact ⟨_, State.jumps_of_jump hexec hready hact, hlc ▸ hboth q.lc _ _⟩
  · have hact := (hin h h').trans ((if_neg (not_not_intro hlc)).trans (if_neg (Nat.not_lt.mpr hec)))
    exact ⟨_, State.issues_of_done hexec hready hact, hlc ▸ hboth q.lc _ _⟩

theorem callMovesTheWindow : Claims.CallMovesTheWindow := by
  unfold Claims.CallMovesTheWindow
  refine fun s f => ⟨fun hready => State.issues_of_done (show _ = execEntry f s from rfl) hready rfl, ?_⟩
  intro im target hready halign hstream
  obtain ⟨act, hexec, hact⟩ := exec_call s f
  replace hact := hact.trans (checked_of_inStream _ halign hstream)
  refine ⟨fun hentry => State.traps_of_opTrap hexec hready (by rw [hact, hentry]), ?_⟩
  intro frame hentry hframe hlo hhi sp lat
  rw [hentry] at hact
  have hcaps (hcap : sp = 0 ∨ im.wspl + sp ≤ im.spcap) : ¬(sp ≠ 0 ∧ im.spcap < im.wspl + sp) :=
    fun h => hcap.elim h.1 (Nat.not_le.mpr h.2)
  refine ⟨fun hsp hcap => ?_, fun hsp hcap htimed => ?_, fun hroom => ?_⟩
  · exact State.traps_of_opTrap hexec hready (hact.trans (if_pos ⟨Nat.ne_of_gt hsp, hcap⟩))
  · exact State.waits_of_wait hexec hready
      (hact.trans ((if_neg (hcaps (.inr hcap))).trans (if_pos ⟨Nat.ne_of_gt hsp, .inl htimed⟩)))
  · intro s1
    have hwait : ¬(sp ≠ 0 ∧ (s.me.timed = true ∨
        (upTo 0 sp).any (fun i => s.me.winBusy ((im.wbase + 192 + 24 - im.wres + i) % 192)) = true)) := by
      rintro ⟨hsp, hblock⟩
      obtain ⟨-, htimed, hfree⟩ := hroom.resolve_left hsp
      simp only [List.any_eq_true, mem_upTo, htimed, Bool.false_eq_true, false_or] at hblock
      obtain ⟨i, ⟨-, hi⟩, hbusy⟩ := hblock
      simp [(hfree i (by omega)).1] at hbusy
    have hflaw : ¬(upTo 0 sp).any (fun i => im.flaws.contains (.win ((im.wbase + 192 + 24 - im.wres + i) % 192))) = true := by
      simp only [List.any_eq_true, mem_upTo, List.contains_iff_mem]
      rintro ⟨i, ⟨-, hi⟩, hmem⟩
      obtain ⟨-, -, hfree⟩ := hroom.resolve_left (by omega)
      exact (hfree i (by omega)).2 hmem
    have hcall := hact.trans ((if_neg (hcaps (hroom.imp_right And.left))).trans ((if_neg hwait).trans ((if_neg hflaw).trans (doCall_eq ..))))
    refine ⟨_, State.jumps_of_jump hexec hready hcall, ?_⟩
    have ht : s1.t = s.t := by
      simp only [s1]
      split
      · rfl
      · exact t_posts ..
    have hcur : s1.cur = s.cur := by
      simp only [s1]
      split <;> rfl
    rw [show s.t + 1 + lat = s1.t + (1 + ceilDiv sp 4) by rw [ht, ceilDiv_four, Nat.add_assoc]]
    refine State.results_putsInFlight s1 _ _ (by simp) _ (fun fx => ?_)
    simp only [Nat.mod_add_mod, List.mem_append, List.mem_map, mem_upTo, List.mem_cons, List.not_mem_nil, or_false]
    constructor
    · rintro (rfl | rfl | ⟨n, hge, hle, rfl⟩)
      · exact .inr (.inr rfl)
      · exact .inr (.inl rfl)
      · exact .inl ⟨n, ⟨hge, by omega⟩, rfl⟩
    · rintro (⟨n, ⟨hge, hlt⟩, rfl⟩ | rfl | rfl)
      · exact .inr (.inr ⟨n, hge, by omega, rfl⟩)
      · exact .inr (.inl rfl)
      · exact .inl rfl

theorem retMovesTheWindowBack : Claims.RetMovesTheWindowBack := by
  unfold Claims.RetMovesTheWindowBack
  intro s f im target fr k lat hready
  have hexec : exec (.ret f) s = issue s [f.a] (actRet f.a) := show execRet f s = _ from rfl
  have halign : target.toNat % 4 = 0 := aligned_and_not_three _
  have hact := actRet_eq f.a s
  refine ⟨fun hlow => ?_, fun hframe hout => ?_, fun hframe hin hk htimed => ?_, fun hframe hin hfill hgood => ?_⟩
  · exact State.traps_of_opTrap hexec hready (hact.trans (if_pos hlow))
  all_goals replace hact := hact.trans (if_neg (Nat.not_lt.mpr hframe))
  · exact State.traps_of_opTrap hexec hready (hact.trans (checked_of_outside _ halign hout))
  all_goals replace hact := hact.trans (checked_of_inStream _ halign hin)
  · exact State.waits_of_wait hexec hready (hact.trans (if_pos ⟨Nat.ne_of_gt hk, htimed⟩))
  · have hgo : ¬(k ≠ 0 ∧ s.me.timed = true) := fun h => hfill.elim h.1 (fun hf => by simp [hf] at h)
    have hbad : firstSome (fun i => firstBad s.me.bad (s.me.ringAddr (8 * (im.wspl - k + i))) 8) (upTo 0 k) = none :=
      firstSome_eq_none.mpr (fun i hi => hgood i (by have := mem_upTo.mp hi; omega))
    replace hact := hact.trans (if_neg hgo)
    rw [hbad] at hact
    refine ⟨_, State.jumps_of_jump hexec hready hact, ?_⟩
    rw [show s.t + 1 + lat = s.t + (1 + ceilDiv k 4) by rw [ceilDiv_four, Nat.add_assoc]]
    refine State.results_putsInFlight s _ _ (by simp [State.refills]) _ (fun fx => ?_)
    simp only [State.refills, List.mem_append, List.mem_map, mem_upTo, List.mem_singleton]
    constructor
    · rintro (rfl | ⟨j, hj, rfl⟩)
      · exact .inr rfl
      · exact .inl ⟨j, ⟨Nat.zero_le j, hj.trans_eq (Nat.zero_add k).symm⟩, rfl⟩
    · rintro (⟨j, ⟨-, hj⟩, rfl⟩ | rfl)
      · exact .inr ⟨j, hj.trans_eq (Nat.zero_add k), rfl⟩
      · exact .inl rfl

/-- Settles O33: each transfer is its check, then the results that it puts in flight and its jump. -/
theorem loopsCallsAndReturns : Obligations.LoopsCallsAndReturns := by
  unfold Obligations.LoopsCallsAndReturns
  exact ⟨loopEntersOrLeaves, lbrCountsRotatesAndBranches, callMovesTheWindow, retMovesTheWindowBack⟩

end Sys2Proof.Proofs
end

