-- ==== Sys2Proof/Proofs/WordsAndReset.lean ====
section
/-! PROOFS. Words written out from the encodings, and the state after reset (R7, R10, R36 to R40, R93). -/
namespace Sys2Proof.Machine

/-- Each core after reset is as a module reset leaves it. -/
theorem core_reset (c : Nat) : State.reset.core c = Core.init := rfl

theorem homeByte_reset (a : Nat) : State.reset.homeByte a = 0 := rfl

theorem seq_init (q : Seq) : Image.init.seq q = SeqSt.init := by cases q <;> rfl

theorem getD_replicate_zero (n r : Nat) : (Vector.replicate n (0 : Word)).toList.getD r 0 = 0 := by
  rw [Vector.toList_replicate, List.getD_eq_getElem?_getD, List.getElem?_getD_replicate_default_eq]

/-- At context creation every register of every sequencer reads zero (log 2). -/
theorem reg_init (q : Seq) (r : Nat) : Image.init.reg q r = 0 := by
  unfold Image.reg
  split
  · rfl
  · exact getD_replicate_zero 192 _
  · rw [seq_init]
    exact getD_replicate_zero 16 _

/-- At context creation p0 alone is true. -/
theorem pred_init (p : Nat) (hpos : 1 ≤ p) (hlt : p < 16) : SeqSt.init.pred p = false := by
  have hlist : ∀ p : Fin 16, 1 ≤ p.val → SeqSt.init.pred p.val = false := by decide
  exact hlist ⟨p, hlt⟩ hpos

theorem specialRead_cyc (s : State) (c : Nat) : s.specialRead c 0x10 = some (BitVec.ofNat 64 s.cyc) := by
  simp [State.specialRead]

theorem specialRead_flags (s : State) (c : Nat) :
    s.specialRead c 0x13 = some (BitVec.ofNat 64 ((s.core c).im.vec.fsy.toNat * 256 + (s.core c).im.vec.fsx.toNat)) := by
  simp [State.specialRead]

end Sys2Proof.Machine

namespace Sys2Proof.Proofs
open Sys2Proof.Machine

/-- Settles O27: each word is evaluated. -/
theorem wordsDecodeToTheirInstruction : Obligations.WordsDecodeToTheirInstruction := by
  unfold Obligations.WordsDecodeToTheirInstruction
  exact ⟨rfl, rfl, rfl, rfl, rfl, rfl, rfl, rfl, rfl⟩

/-- Settles O30: the maps of the module are empty at reset, so each of their keys reads as its default. -/
theorem resetLeavesTheMachine : Obligations.ResetLeavesTheMachine := by
  unfold Obligations.ResetLeavesTheMachine
  refine ⟨rfl, rfl, rfl, reset_mem_wf, homeByte_reset, fun c => ⟨rfl, rfl, rfl, rfl, rfl, rfl, specialRead_cyc _ c, (specialRead_flags _ c).trans (by rw [core_reset]; decide), fun q => ?_⟩⟩
  rw [core_reset, show Core.init.im = Image.init from rfl, seq_init]
  exact ⟨rfl, rfl, pred_init, reg_init q⟩

end Sys2Proof.Proofs
end

