-- ==== Sys2Proof/Proofs/FetchedGroup.lean ====
section
/-! PROOFS. A group whose slot a standing `tld` of K is to write waits, though the slot holds a valid template and is not being written yet (R41). -/
namespace Sys2Proof.Machine

/-! ### A group that waits, and one that has issued -/

theorem issueGroup_of_hold {s : State} {c : Nat} {sq : Seq} {u : Cur} {kind obj : Nat} (hf : (s.core c).fetch c sq = .hold kind obj u) :
    issueGroup s c sq = finish (s.withCur u) (.wait (s.withCur u) kind obj 0) := by
  simp only [issueGroup, hf]

theorem settle_wait_untimed {s : State} {kind obj lacks : Nat} (hp : s.pendingHere = none) (ht : s.me.timed = false) :
    s.settle (.wait s kind obj lacks) = s.modSeq s.cur.core s.cur.sq (fun q =>
      { q with waiting := some { kind := kind, obj := obj, lacks := lacks }, tried := some s.cyc }) := by
  rw [settle_of_none _ hp, State.settleAct, ht]
  rfl

theorem seq_modSeq_same (s : State) (c : Nat) (sq : Seq) (f : SeqSt → SeqSt) :
    ((s.modSeq c sq f).core c).im.seq sq = f ((s.core c).im.seq sq) := by
  simp [State.core_modSeq]

theorem waiting_advance (q : SeqSt) (u : Cur) : (q.advance u).waiting = q.waiting := by
  unfold SeqSt.advance
  split
  · split
    · split <;> rfl
    · rfl
  · rfl

theorem waiting_retire (s : State) : ((s.retire.core s.cur.core).im.seq s.cur.sq).waiting = none := by
  rw [seq_retire, waiting_advance]
  rfl

/-- An `li` of another sequencer than K always issues. -/
theorem exec_li_of_ne_k (s : State) (f : RegF) (h : s.cur.sq ≠ .k) : exec (.li f) s = .next (s.wr 1 f.d (immWord f.imm)).retire := by
  have hready : s.Ready [] := ⟨rfl, pendingHere_of_ne_k h, rfl⟩
  exact State.issues_of_done (show _ = execLi f s from rfl) hready rfl

theorem wr_cur (s : State) (lat : Nat) (d : BitVec 5) (v : Word) : (s.wr lat d v).cur = s.cur := by
  unfold State.wr
  split <;> rfl

/-! ### L at a slot that K is to write -/

/-- A `tld` of K that writes slot 0 of L. -/
def standingTld : MgtF := { d := 0, a := 0, b := 0, c := 0, seq := 1, slot := 0, idx := 0, n := 1, var := 0, pa := 0 }

/-- The group of L: `li l1, 0`. -/
def plainLi : RegF := { d := 1, a := 0, b := 0, imm := 0, var := 0, pa := 0, pb := 0 }

/-- Slot 0 of L, which holds that group's template. -/
def plainSlot : Slot := { t := (Sys2Proof.encode .l 0 0 (.li plainLi)).getD 0, reason := 0, loading := false }

/-- L at a word that names slot 0. -/
def slotUser : SeqSt := { SeqSt.init with halted := none, buf := [0], table := [(0, plainSlot)] }

/-- K at that `tld`, which waits for its templates. -/
def slotWriter : SeqSt :=
  { SeqSt.init with halted := none, waiting := some { kind := 7, obj := 0, lacks := 0 }, pin := some (.tld standingTld, 0) }

/-- The module with core 0 in an untimed segment, K standing and L next to issue. -/
def slotTakenState : State :=
  { State.reset with
    cores := [(0, { Core.init with
      bound := true, im := { Image.init with seg := some fetchSeg, k := slotWriter, l := slotUser }, walk := { Core.init.walk with phase := .running } })],
    plat := { Platform.init with bootStep := 6 } }

/-- The group at hand of L there. -/
def slotTakenCur : Cur :=
  { core := 0, sq := .l, first := 0, nxt := 4, word := 0, fsel := 0, slot := 0, inmac := false, entry := 0, entries := 1, macro_ := 0, earliest := 0 }

theorem slotTakenState_issues : inputStep slotTakenState = none ∧ firstEnabled slotTakenState slotTakenState.candidates = none ∧
    slotTakenState.nextIssue = some (0, .l) ∧ ((slotTakenState.core 0).im.seq .l).waiting = none := by
  decide +kernel

theorem slotTakenState_fetch : (slotTakenState.core 0).fetch 0 .l = .hold 7 0 slotTakenCur := rfl

/-- Its step has L wait. -/
theorem step_slotTakenState : ∃ t, step slotTakenState = .next t ∧ ((t.core 0).im.seq .l).waiting ≠ none := by
  obtain ⟨hin, hev, hnext, hw⟩ := slotTakenState_issues
  have hstep := (step_of_nextIssue hin hev hnext).trans ((issueStep_of_not_waiting hw).trans (issueGroup_of_hold slotTakenState_fetch))
  rw [finish, settle_wait_untimed (pendingHere_of_ne_k (by decide)) rfl] at hstep
  refine ⟨_, hstep, ?_⟩
  exact (congrArg SeqSt.waiting (seq_modSeq_same _ 0 .l _)).trans_ne (Option.some_ne_none _)

end Sys2Proof.Machine

namespace Sys2Proof.Proofs
open Sys2Proof.Machine

/-- Refutes O25: the slot that a word names may hold a valid template and be the target of a `tld` of K that still waits for its templates (R41); its
group then waits, while the statement asks for the step of its instruction. `slotTakenState` is such a state. -/
theorem not_stepRunsTheDecodedGroup : ¬ Obligations.StepRunsTheDecodedGroup := by
  unfold Obligations.StepRunsTheDecodedGroup
  intro h
  obtain ⟨hin, hev, hnext, hw⟩ := slotTakenState_issues
  obtain ⟨-, -, hissue⟩ := h slotTakenState 0 .l
  obtain ⟨-, -, -, -, hplain, -⟩ := (hissue hin hev).1 hnext hw
  obtain ⟨u, ⟨hcore, hsq, -, -⟩, -, hexec⟩ :=
    (hplain 0 plainSlot (.li plainLi) rfl rfl rfl rfl (by decide) rfl rfl rfl rfl rfl rfl).1 rfl
  obtain ⟨t, hstep, hwaits⟩ := step_slotTakenState
  have hne : (slotTakenState.withCur u).cur.sq ≠ .k := by
    rw [show (slotTakenState.withCur u).cur.sq = .l from hsq]
    decide
  rw [hexec, exec_li_of_ne_k _ _ hne] at hstep
  obtain rfl := (Host.Outcome.next.inj hstep)
  have hnone := waiting_retire ((slotTakenState.withCur u).wr 1 plainLi.d (immWord plainLi.imm))
  rw [wr_cur, show (slotTakenState.withCur u).cur = u from rfl, hcore, hsq] at hnone
  exact hwaits hnone

end Sys2Proof.Proofs
end

