-- ==== Sys2Proof/Proofs/GalignRelease.lean ====
section
/-! PROOFS. The release of a `galign` lets the cores go on that wait at it: a member of the group that has finished its units of the launch has
arrived by that, and may already wait at the `galign` of a later launch, which the release leaves alone (R105, R365). -/
namespace Sys2Proof.Machine

/-- A unit of a launch on a core, ended or not. -/
def unitOn (c : Nat) (ended : Bool) : LUnit :=
  { core := c, coords := [], nextSeg := 1, nextTrip := 0, started := true, ended := ended, endCyc := 5, triggered := none }

/-- A launch with these units. -/
def launchWith (id : Nat) (us : List LUnit) : Launch :=
  { id := id, ctx := 0, core := 0, csem := 0, tsem := 0, tren := false, trigDone := false, nseg := 1, kaddr := 0, levels := [(1, 2)], units := us,
    entry := false, startTs := 0, started := true, remote := [], trigRemote := [], origin := none, grp := 0 }

/-- A core in a segment of a launch that waits at its `galign` of number 0 since a cycle. -/
def galignWaiter (id since : Nat) : Core :=
  { Core.init with bound := true, im := { Image.init with seg := some { fetchSeg with launch := id } },
                   stops := { Core.init.stops with galign := some (since, 0) } }

/-- Core 0 waits at the `galign` of launch 0, whose unit on core 1 has ended; core 1 waits at the `galign` of launch 1. -/
def twoGaligns : State :=
  { State.reset with
    cyc := 60, cores := [(0, galignWaiter 0 10), (1, galignWaiter 1 20)],
    launches := [launchWith 0 [unitOn 0 false, unitOn 1 true], launchWith 1 [unitOn 0 false, unitOn 1 false]] }

theorem twoGaligns_group : twoGaligns.groupOf 0 = [0, 1] := by decide

theorem twoGaligns_arrived :
    latest ((twoGaligns.groupOf 0).map (fun m => twoGaligns.arrival (twoGaligns.launchOf 0) m 0)) = some 9 := by decide

/-- Only core 0 goes on. -/
theorem galignRelease_twoGaligns :
    exec (.galignRelease 0) twoGaligns = .next (twoGaligns.modStops 0 (fun st => { st with galign := none })) := rfl

/-- After the release, whatever state is meant, core 1 still waits. -/
theorem galign_kept_of_release {t : State} (h : exec (.galignRelease 0) twoGaligns = .next t) : (t.core 1).stops.galign ≠ none := by
  rw [galignRelease_twoGaligns] at h
  cases h
  rw [State.core_modStops, if_neg (by decide)]
  decide

/-- A command of a unit with nothing to do. -/
def idleCmd : EngCmd :=
  { var := 0, la := 0, a := 0, b := 0, n := 0, sem := 0, start := 0, issue := 0, timed := false, ctx := 0, cmdIdx := 0, begun := none, j := 0,
    nextAt := 0, fill := false, idx := [], buf := [], written := [], wait := .go, seg := 0, launch := 0 }

end Sys2Proof.Machine

namespace Sys2Proof.Proofs
open Sys2Proof.Machine

/-- Refutes O35: a core of the group that has ended its units of the launch has arrived, and may wait at the `galign` of another launch; the release does
not end that wait, as the statement asks. `twoGaligns` is such a state. -/
theorem not_tokensAndAlignment : ¬ Obligations.TokensAndAlignment := by
  unfold Obligations.TokensAndAlignment Claims.GalignHoldsReleasesAndBreaks
  rintro ⟨-, -, hgalign⟩
  obtain ⟨-, hrelease, -⟩ := hgalign twoGaligns { d := 0, a := 0, b := 0, c := 0, seq := 0, slot := 0, idx := 0, n := 0, var := 0, pa := 0 } 0 0
  obtain ⟨t, hexec, hall, -⟩ := hrelease 10 0 9 (by decide) rfl twoGaligns_arrived (by decide)
  exact galign_kept_of_release hexec (hall 1 (by rw [twoGaligns_group]; decide))

/-- Refutes O58: the same release of a `galign` leaves the wait of a member at the `galign` of another launch, where the statement has none left. -/
theorem not_unitFormsComplete : ¬ Obligations.UnitFormsComplete := by
  unfold Obligations.UnitFormsComplete
  intro h
  obtain ⟨-, -, -, -, -, -, -, -, -, -, hrelease, -⟩ := h twoGaligns 0 0 0 idleCmd [] (by decide)
  obtain ⟨t, hexec, hall⟩ := hrelease 10 0 9 rfl twoGaligns_arrived (by decide)
  exact galign_kept_of_release hexec (hall 1 (by rw [twoGaligns_group]; decide))

end Sys2Proof.Proofs
end

