-- ==== Sys2Proof/Proofs/SpecialRegisters.lean ====
section
/-! PROOFS. Special registers are read and written as their table says, and the other instructions of fixed latency issue with their results
(R66 to R69, R73, R74, R102, R141, R270, R397). -/
namespace Sys2Proof.Machine

/-! ### Reads -/

/-- Each row of the table is what its register reads. -/
theorem specialRead_of_row {s : State} {c n v : Nat} (h : (n, v) ∈ s.registerRow c) : s.specialRead c n = some (BitVec.ofNat 64 v) := by
  have hrows : ∀ p ∈ s.registerRow c, s.specialRead c p.1 = some (BitVec.ofNat 64 p.2) := by
    simp [State.registerRow, State.specialRead, State.tstep, tstepOf, dieOf]
  exact hrows _ h

/-- Numbers that no chapter assigns. -/
theorem specialRead_unassigned {s : State} {c n : Nat}
    (h : (0x04 ≤ n ∧ n ≤ 0x07) ∨ (0x14 ≤ n ∧ n ≤ 0x1F) ∨ n = 0x27 ∨ 0x4E ≤ n) : s.specialRead c n = none := by
  unfold State.specialRead
  rw [if_neg (by omega), if_neg (by omega), if_neg (by omega), if_neg (by omega)]
  split <;> try omega
  rfl

/-! ### Writes -/

/-- A number that software may not write. -/
theorem mtsCheck_readOnly {im : Image} {n : Nat} {v : Word} (h : n < 0x24 ∨ n = 0x27 ∨ n = 0x29 ∨ (0x2B ≤ n ∧ n ≤ 0x2E) ∨
    (0x40 ≤ n ∧ n ≤ 0x43) ∨ (0x48 ≤ n ∧ n ≤ 0x4B) ∨ 0x4D ≤ n) : im.mtsCheck n v = .readOnly := by
  unfold Image.mtsCheck
  rw [if_neg (by omega), if_neg (by omega)]
  split <;> try omega
  rfl

theorem mtsCheck_queue {im : Image} {n : Nat} {v : Word} (h : 0x30 ≤ n ∧ n ≤ 0x3F) :
    im.mtsCheck n v = if v.toNat % 64 = 0 then .ok (.special n v) else .illegal := if_pos h

theorem mtsCheck_step {im : Image} {n : Nat} {v : Word} (h : 0x44 ≤ n ∧ n ≤ 0x47) : im.mtsCheck n v = .ok (.special n v) := by
  unfold Image.mtsCheck
  rw [if_neg (by omega), if_pos h]

/-- The map of the token queues may change: they are all empty, and no sequencer is parked at one (R102). -/
def Image.tkmapFree (im : Image) : Bool :=
  im.tkcnt.toList.all (fun c => c == 0) &&
    [im.k, im.l, im.c, im.s].all (fun q =>
      match q.waiting with
      | some w => decide (w.kind ≠ 1)
      | none => true)

theorem mtsCheck_tkmap (im : Image) (v : Word) :
    im.mtsCheck 0x28 v = if im.tkmapFree && decide (v &&& 0xF0F0F0F0F0F0F0F0 = 0) then .ok (.special 0x28 v) else .illegal := rfl

theorem tkmapFree_iff (im : Image) : im.tkmapFree = true ↔
    (∀ q, q < 8 → im.tkcnt.toList.getD q 0 = 0) ∧ ∀ q w, (im.seq q).waiting = some w → w.kind ≠ 1 := by
  have hall : (∀ x ∈ im.tkcnt.toList, x = 0) ↔ ∀ q, q < 8 → im.tkcnt.toList.getD q 0 = 0 := by
    simp only [List.forall_mem_iff_getElem, Vector.length_toList]
    refine forall₂_congr (fun q hq => ?_)
    rw [List.getD_eq_getElem _ _ (by simpa using hq)]
  have hparked (q : SeqSt) : (match q.waiting with
      | some w => decide (w.kind ≠ 1)
      | none => true) = true ↔ ∀ w, q.waiting = some w → w.kind ≠ 1 := by
    cases q.waiting <;> simp
  simp only [Image.tkmapFree, Bool.and_eq_true, List.all_eq_true, beq_iff_eq, hall, List.mem_cons, List.not_mem_nil, or_false,
    forall_eq_or_imp, forall_eq, hparked]
  refine and_congr_right (fun _ => ⟨fun ⟨hk, hl, hc, hs⟩ q => ?_, fun h => ⟨h .k, h .l, h .c, h .s⟩⟩)
  cases q with
  | k => exact hk
  | l => exact hl
  | c => exact hc
  | s => exact hs

theorem actMts_readOnly {s : State} {f : MgtF} (h : s.me.im.mtsCheck f.idx.toNat (s.rd f.a) = .readOnly) : actMts f s = s.opTrap 8 := by
  simp only [actMts, h]

theorem actMts_illegal {s : State} {f : MgtF} (h : s.me.im.mtsCheck f.idx.toNat (s.rd f.a) = .illegal) : actMts f s = s.opTrap 0xB := by
  simp only [actMts, h]

theorem actMts_ok {s : State} {f : MgtF} {fx : Fx} (h : s.me.im.mtsCheck f.idx.toNat (s.rd f.a) = .ok fx) :
    actMts f s = .done (s.result 1 0 fx) := by
  simp only [actMts, h]

end Sys2Proof.Machine

namespace Sys2Proof.Proofs
open Sys2Proof.Machine

theorem mfsReadsSpecialRegisters : Claims.MfsReadsSpecialRegisters := by
  unfold Claims.MfsReadsSpecialRegisters
  intro s f hready
  have hexec : exec (.mfs f) s = issue s [] _ := show execMfs f s = _ from rfl
  have hsome (v : Word) (h : s.specialRead s.cur.core f.idx.toNat = some v) : s.Issues (.mfs f) (s.wr 1 f.d v) :=
    State.issues_of_done hexec hready (by simp only [h])
  refine ⟨fun v hrow => hsome _ (specialRead_of_row hrow), hsome, fun hnone => ?_⟩
  refine State.traps_of_opTrap hexec hready ?_
  simp only [specialRead_unassigned (hnone.imp_right (Or.imp_right (Or.imp_left (congrArg BitVec.toNat))))]

theorem mtsWritesSpecialRegisters : Claims.MtsWritesSpecialRegisters := by
  unfold Claims.MtsWritesSpecialRegisters
  intro s f n a writes hready
  have hexec : exec (.mts f) s = issue s [f.a] (actMts f) := show execMts f s = _ from rfl
  have hfclr : exec (.mtsFclr f) s = issue s [f.a] (actMts { f with idx := 0x2A }) := show execMtsFclr f s = _ from rfl
  have htkmap : exec (.mtsTkmap f) s = issue s [f.a] (actMts { f with idx := 0x28 }) := show execMtsTkmap f s = _ from rfl
  have hok {fx : Fx} (h : s.me.im.mtsCheck n a = .ok fx) : writes (.mts f) fx := State.issues_of_done hexec hready (actMts_ok h)
  have hillegal (h : s.me.im.mtsCheck n a = .illegal) : s.Traps (.mts f) 0xB 0 := State.traps_of_opTrap hexec hready (actMts_illegal h)
  have hmap (h : (s.me.im.tkmapFree && decide (a &&& 0xF0F0F0F0F0F0F0F0 = 0)) = false) : s.Traps (.mtsTkmap f) 0xB 0 :=
    State.traps_of_opTrap htkmap hready (actMts_illegal ((mtsCheck_tkmap _ a).trans (by rw [h]; rfl)))
  refine ⟨fun h => ?_, fun h hv => ?_, fun h hv => ?_, fun h hv => ?_, fun h hv => ?_, fun h => ?_, fun h => ?_, fun h h' hv => ?_,
    fun h h' hv => ?_, fun h h' => ?_, fun h hv => ?_, fun h hv => ?_, ?_, fun hempty hfree => ⟨fun hv => ?_, fun hv => ?_⟩, ?_, ?_⟩
  · exact State.traps_of_opTrap hexec hready (actMts_readOnly (mtsCheck_readOnly h))
  · exact hok (by rw [h]; exact if_pos hv)
  · exact hillegal (by rw [h]; exact if_neg (Nat.not_lt.mpr hv))
  · exact hok (by rw [h]; exact if_pos hv)
  · exact hillegal (by rw [h]; exact if_neg (Nat.not_le.mpr hv))
  · exact hok (by rw [h]; rfl)
  · exact hok (by rw [h]; rfl)
  · exact hok ((mtsCheck_queue ⟨h, h'⟩).trans (if_pos hv))
  · exact hillegal ((mtsCheck_queue ⟨h, h'⟩).trans (if_neg hv))
  · exact hok (mtsCheck_step ⟨h, h'⟩)
  · exact hok (by rw [h]; exact if_pos hv)
  · exact hillegal (by rw [h]; exact if_neg (Nat.not_lt.mpr hv))
  · exact State.issues_of_done hfclr hready rfl
  · refine State.issues_of_done htkmap hready (actMts_ok ((mtsCheck_tkmap _ a).trans (if_pos ?_)))
    rw [(tkmapFree_iff _).mpr ⟨hempty, hfree⟩, decide_eq_true hv]
    rfl
  · exact hmap (by rw [decide_eq_false hv, Bool.and_false])
  · rintro ⟨q, hq, hne⟩
    refine hmap (Bool.and_eq_false_imp.mpr fun h => ?_)
    exact absurd (((tkmapFree_iff _).mp h).1 q hq) hne
  · rintro ⟨q, w, -, hw, hkind⟩
    refine hmap (Bool.and_eq_false_imp.mpr fun h => ?_)
    exact absurd hkind (((tkmapFree_iff _).mp h).2 q w hw)

theorem otherFixedLatencyInstructions : Claims.OtherFixedLatencyInstructions := by
  unfold Claims.OtherFixedLatencyInstructions
  refine ⟨fun b => ⟨rfl, rfl⟩, fun cls f h => ?_, fun cls f h => ?_, fun s f => ⟨fun hready => ?_, fun hready => ?_, fun hready => ?_, fun hready => ?_⟩⟩
  · obtain ⟨hcls, hfields⟩ := (Bool.and_eq_true _ _).mp h
    exact ⟨eq_of_beq hcls, of_decide_eq_true ((Bool.and_eq_true _ _).mp hfields).2⟩
  · obtain ⟨hcls, hfields⟩ := (Bool.and_eq_true _ _).mp h
    exact ⟨eq_of_beq hcls, of_decide_eq_true ((Bool.and_eq_true _ _).mp hfields).2⟩
  · exact State.issues_of_done (show _ = execXset f s from rfl) hready rfl
  · exact State.issues_of_done (show _ = execTset f s from rfl) hready rfl
  · exact State.issues_of_done (show _ = execLmix f s from rfl) hready rfl
  · exact State.issues_of_done (show _ = execCrc32c f s from rfl) hready rfl

/-- Settles O34: reads and writes go by the table of special registers, and each other instruction issues with its result. -/
theorem specialRegistersSlotsAndChecks : Obligations.SpecialRegistersSlotsAndChecks := by
  unfold Obligations.SpecialRegistersSlotsAndChecks
  exact ⟨mfsReadsSpecialRegisters, mtsWritesSpecialRegisters, otherFixedLatencyInstructions⟩

end Sys2Proof.Proofs
end

