-- ==== Sys2Proof/Proofs/RedefinedMacros.lean ====
section
/-! PROOFS. A group that is the last entry of a macro call, of whichever instruction, ends the call as it issues; a body that an `mdef` has read meanwhile
then takes the place of the old one (R34, R71), so the macros of a sequencer can change as a group issues that computes, loads or stores. -/
namespace Sys2Proof.Machine

/-- The call of `redefinedCallState` is at its last entry, on a core whose first slab is live. -/
def redefinedCallAt : State :=
  (redefinedCallState.withCur redefinedCallCur).modCore 0 (fun co => { co with slabs := [(0, { kind := .live, owner := 0, born := true, stamp := 0 })] })

/-- Where the call's last group has its effect and leaves the sequencer as it is, the macros are the new ones once it has issued. -/
theorem macros_retire_redefinedCallAt {t : State} (hcur : t.cur = redefinedCallCur) (hseq : t.mySeq = redefinedCall) :
    ((t.retire.core 0).im.seq .l).macros = [(7, [newEntry])] := by
  have hmacros := macros_retire_of_redef (s := t) (m := { m := 7, next := 0, p0 := 0, p1 := 0, p2 := 0, p3 := 0, body := [calledEntry], idle := 0, ret := 4 })
    (es := [newEntry]) (by rw [hcur]; rfl) (by rw [hseq]; rfl) (by rw [hseq]; rfl) (by rw [hcur]; decide)
  rw [hcur, hseq] at hmacros
  exact hmacros

/-- The macros before. -/
theorem macros_redefinedCallAt : ((redefinedCallAt.core 0).im.seq .l).macros = [(7, [calledEntry])] := rfl

/-- A comparison whose outcome goes nowhere issues there. -/
theorem cmp_redefinedCallAt : redefinedCallAt.Issues (.cmp { d := 0, a := 0, b := 0, imm := 0, var := 0, pa := 0, pb := 0 }) redefinedCallAt := rfl

/-- A load of the first byte of the scratchpad. -/
def firstByteLoad : MemF := { d := 1, base := 0, val := 0, disp := 0, size := 0, sx := 0, var := 0, cv := 0, scope := 0 }

/-- It issues there. -/
theorem ldLocal_redefinedCallAt : redefinedCallAt.Issues (.ldLocal firstByteLoad) (redefinedCallAt.wr 2 1 0) := rfl

end Sys2Proof.Machine

namespace Sys2Proof.Proofs
open Sys2Proof.Machine

/-- Refutes O23: a group that only computes and is the last entry of a call gives the sequencer the body that an `mdef` has read, where the statement has its
macros stand as they are. `redefinedCallAt` is such a state. -/
theorem not_registerGroupsChangeOnlyTheirResults : ¬ Obligations.RegisterGroupsChangeOnlyTheirResults := by
  unfold Obligations.RegisterGroupsChangeOnlyTheirResults
  intro h
  obtain ⟨-, -, -, -, -, -, -, -, -, -, -, -, -, -, -, -, -, ⟨-, hseqs, -⟩, -⟩ := h redefinedCallAt _ _ _ rfl cmp_redefinedCallAt
  obtain ⟨-, -, -, -, -, hkept⟩ := hseqs .l
  rw [show redefinedCallAt.cur.core = 0 from rfl, macros_retire_redefinedCallAt rfl rfl, macros_redefinedCallAt] at hkept
  exact absurd hkept (by decide)

/-- Refutes O24: a load that is the last entry of a call gives the sequencer the body that an `mdef` has read, where the statement has its macros stand as
they are. `redefinedCallAt` is such a state. -/
theorem not_loadsAndStoresLeaveOtherBytes : ¬ Obligations.LoadsAndStoresLeaveOtherBytes := by
  unfold Obligations.LoadsAndStoresLeaveOtherBytes
  intro h
  obtain ⟨-, -, ⟨-, hseqs, -⟩, -⟩ := h redefinedCallAt _ firstByteLoad _ (.inr (.inr (.inl rfl))) ldLocal_redefinedCallAt
  obtain ⟨-, -, -, -, -, hkept⟩ := hseqs .l
  rw [show redefinedCallAt.cur.core = 0 from rfl, macros_retire_redefinedCallAt rfl rfl, macros_redefinedCallAt] at hkept
  exact absurd hkept (by decide)

end Sys2Proof.Proofs
end

