-- ==== Sys2Proof/Proofs/LocalAccesses.lean ====
section
/-! PROOFS. Loads and stores of scratchpad: numbers as bytes, the parts of an access, and the checks that each part passes or fails (R215, R229 to
R231). -/
namespace Sys2Proof.Machine

/-! ### Numbers and bytes -/

@[simp] theorem length_upTo (a n : Nat) : (upTo a n).length = n := by
  induction n generalizing a with
  | zero => rfl
  | succ n ih => simp [upTo, ih]

@[simp] theorem length_leBytes (n v : Nat) : (leBytes n v).length = n := by
  induction n generalizing v with
  | zero => rfl
  | succ n ih => simp [leBytes, ih]

theorem sgn_eq_toInt {w : Nat} (hw : 0 < w) (n : Nat) : sgn w n = (BitVec.ofNat w n).toInt := by
  obtain ⟨k, rfl⟩ : ∃ k, w = k + 1 := ⟨w - 1, by omega⟩
  rw [BitVec.toInt_eq_toNat_cond, BitVec.toNat_ofNat, sgn, Nat.add_sub_cancel]
  have hpow : 2 ^ (k + 1) = 2 * 2 ^ k := by rw [Nat.pow_succ, Nat.mul_comm]
  refine if_congr ?_ rfl rfl
  rw [hpow]
  omega

/-- A loaded value as a sign extension. -/
theorem extendLoad_eq {n : Nat} (hn : 0 < n) (sx : BitVec 1) (v : Nat) :
    extendLoad n sx v = if sx = 1 then (BitVec.ofNat (8 * n) v).signExtend 64 else BitVec.ofNat 64 v := by
  rw [extendLoad, sgn_eq_toInt (by omega)]
  rfl

theorem firstSome_eq_some {α β : Type} {f : α → Option β} {l : List α} {b : β} (h : firstSome f l = some b) : ∃ a ∈ l, f a = some b := by
  induction l with
  | nil => cases h
  | cons a r ih =>
    simp only [firstSome] at h
    cases ha : f a with
    | some b' => rw [ha] at h; exact ⟨a, List.mem_cons_self, ha.trans h⟩
    | none =>
      rw [ha] at h
      obtain ⟨a', hmem, heq⟩ := ih h
      exact ⟨a', List.mem_cons_of_mem _ hmem, heq⟩

/-- The first answer is that of an element, where one answers. -/
theorem exists_firstSome {α β : Type} {f : α → Option β} {l : List α} {a : α} (ha : a ∈ l) (h : f a ≠ none) :
    ∃ a' ∈ l, ∃ b, f a' = some b ∧ firstSome f l = some b := by
  obtain ⟨b, hb⟩ := Option.ne_none_iff_exists'.mp (fun hnone : firstSome f l = none => h (firstSome_eq_none.mp hnone a ha))
  obtain ⟨a', hmem, heq⟩ := firstSome_eq_some hb
  exact ⟨a', hmem, b, heq, hb⟩

/-! ### How a group that can issue ends -/

theorem State.traps_of_trap {s : State} {i : Instr} {codes : List (BitVec 5)} {act : State → Act} {info : TrapInfo}
    (hexec : exec i s = issue s codes act) (hready : s.Ready codes) (hact : act s = .trap info) : s.Traps i info.cause info.cls :=
  ⟨info, rfl, rfl, by rw [hexec, issue_of_ready act hready, hact, settleAct_trap]⟩

theorem State.traps_of_memTrap {s : State} {i : Instr} {codes : List (BitVec 5)} {act : State → Act} {cause addr : Nat} {status : Half}
    (hexec : exec i s = issue s codes act) (hready : s.Ready codes) (hact : act s = memTrap cause addr status) : s.Traps i cause 0 :=
  State.traps_of_trap hexec hready hact

/-! ### The parts of an access -/

theorem splitAt_pos {bound a n : Nat} (hb : 0 < bound) (hn : 0 < n) : ∀ p ∈ splitAt bound a n, 0 < p.2 := by
  have hmod := Nat.mod_lt a hb
  unfold splitAt
  dsimp only
  split
  · simpa using hn
  · simp only [List.mem_cons, List.not_mem_nil, or_false, forall_eq_or_imp, forall_eq]
    omega

theorem one_lt_length_splitAt (a n : Nat) : 1 < (splitAt 256 a n).length ↔ 256 < a % 256 + n := by
  unfold splitAt
  dsimp only
  split
  · simp only [List.length_cons, List.length_nil]; omega
  · simp only [List.length_cons, List.length_nil]; omega

/-- A part that ends beyond the scratchpad fails the checks of R215 with that. -/
theorem checkLocal_beyond (co : Core) (ctx ts : Nat) (rd : Bool) {la n : Nat} (hn : 0 < n) (h : 0x5FFFFF < la + n - 1) :
    ∃ x, co.checkLocal ctx ts la n rd = some (0x41, x) := by
  have hslabs : co.checkSlabs ctx ts la n rd = some (0x41, Nat.max la 0x600000 / 2048 % 4096, Nat.max la 0x600000) := by
    rw [Core.checkSlabs, if_neg (by omega), if_pos h]
  exact ⟨_, by rw [Core.checkLocal, hslabs]⟩

/-- An access all of whose parts pass their checks has no fault. -/
theorem accessFault_of_legal {co : Core} {ts a n : Nat} {rd : Bool} (hn : 0 < n)
    (h : ∀ p ∈ splitAt 256 a n, co.checkLocal co.ctx ts p.1 p.2 rd = none) : co.accessFault ts a n rd = none := by
  have hinside : (splitAt 256 a n).find? (fun p => decide (0x5FFFFF < p.1 + p.2 - 1)) = none := by
    refine List.find?_eq_none.mpr (fun p hp hbeyond => ?_)
    obtain ⟨x, hx⟩ := checkLocal_beyond co co.ctx ts rd (splitAt_pos (by decide) hn p hp) (of_decide_eq_true hbeyond)
    rw [h p hp] at hx
    cases hx
  simp only [Core.accessFault, hinside]
  exact firstSome_eq_none.mpr (fun p hp => by rw [h p hp]; rfl)

/-- The fault of an access is that of a part. -/
theorem accessFault_some {co : Core} {ts a n : Nat} {rd : Bool} (hn : 0 < n)
    (h : ¬∀ p ∈ splitAt 256 a n, co.checkLocal co.ctx ts p.1 p.2 rd = none) :
    ∃ p ∈ splitAt 256 a n, ∃ cause x addr status, co.checkLocal co.ctx ts p.1 p.2 rd = some (cause, x) ∧
      co.accessFault ts a n rd = some (cause, addr, status) := by
  unfold Core.accessFault
  dsimp only
  split
  · next p hfind =>
    have hp := List.mem_of_find?_eq_some hfind
    obtain ⟨x, hx⟩ := checkLocal_beyond co co.ctx ts rd (splitAt_pos (by decide) hn p hp) (by simpa using List.find?_some hfind)
    exact ⟨p, hp, _, x, _, _, hx, rfl⟩
  · obtain ⟨q, hq, hfails⟩ : ∃ q ∈ splitAt 256 a n, co.checkLocal co.ctx ts q.1 q.2 rd ≠ none := by simpa using h
    obtain ⟨p, hp, y, hbad, hy⟩ := exists_firstSome hq
      (f := fun p => (co.checkLocal co.ctx ts p.1 p.2 rd).map (fun x => (x.1, p.1, memStatus 0 (if p.1 = a then 0 else 1) 0 0 x.2.1)))
      (by simpa using hfails)
    obtain ⟨⟨cause, x⟩, hx, rfl⟩ := Option.map_eq_some_iff.mp hbad
    exact ⟨p, hp, cause, x, _, _, hx, hy⟩

/-! ### The effects of loads and stores -/

section
variable {s : State} {f : MemF}

theorem actLdLocal_misaligned (hvar : f.var.getLsbD 0 = false) (h : (s.memAddr f).toNat % sizeBytes f.size ≠ 0) :
    actLdLocal f s = memTrap 0x40 (s.memAddr f).toNat (memStatus 0 0 0 0 0) :=
  if_pos ⟨hvar, h⟩

theorem actLdLocal_fault (h : f.var.getLsbD 0 = true ∨ (s.memAddr f).toNat % sizeBytes f.size = 0) {cause addr : Nat} {status : Half}
    (hfault : s.me.accessFault s.tstep (s.memAddr f).toNat (sizeBytes f.size) true = some (cause, addr, status)) :
    actLdLocal f s = memTrap cause addr status := by
  have haligned : ¬(f.var.getLsbD 0 = false ∧ (s.memAddr f).toNat % sizeBytes f.size ≠ 0) := by simpa [imp_iff_not_or] using h
  simp only [actLdLocal, if_neg haligned, hfault]

theorem actLdLocal_done (h : f.var.getLsbD 0 = true ∨ (s.memAddr f).toNat % sizeBytes f.size = 0)
    (hfault : s.me.accessFault s.tstep (s.memAddr f).toNat (sizeBytes f.size) true = none) :
    actLdLocal f s = .done (s.wr (if 1 < (splitAt 256 (s.memAddr f).toNat (sizeBytes f.size)).length then 3 else 2) f.d
      (extendLoad (sizeBytes f.size) f.sx (leNat (s.me.bytes (s.memAddr f).toNat (sizeBytes f.size))))) := by
  have haligned : ¬(f.var.getLsbD 0 = false ∧ (s.memAddr f).toNat % sizeBytes f.size ≠ 0) := by simpa [imp_iff_not_or] using h
  simp only [actLdLocal, if_neg haligned, hfault]

theorem actStLocal_misaligned (hvar : f.var.getLsbD 0 = false) (h : (s.memAddr f).toNat % sizeBytes f.size ≠ 0) :
    actStLocal f s = memTrap 0x40 (s.memAddr f).toNat (memStatus 0 0 0 0 0) :=
  if_pos ⟨hvar, h⟩

theorem actStLocal_fault (h : f.var.getLsbD 0 = true ∨ (s.memAddr f).toNat % sizeBytes f.size = 0) {cause addr : Nat} {status : Half}
    (hfault : s.me.accessFault s.tstep (s.memAddr f).toNat (sizeBytes f.size) false = some (cause, addr, status)) :
    actStLocal f s = memTrap cause addr status := by
  have haligned : ¬(f.var.getLsbD 0 = false ∧ (s.memAddr f).toNat % sizeBytes f.size ≠ 0) := by simpa [imp_iff_not_or] using h
  simp only [actStLocal, if_neg haligned, hfault]

/-- A store that no check stops waits for a claim of its bytes, or posts them. -/
theorem actStLocal_legal (h : f.var.getLsbD 0 = true ∨ (s.memAddr f).toNat % sizeBytes f.size = 0)
    (hfault : s.me.accessFault s.tstep (s.memAddr f).toNat (sizeBytes f.size) false = none) :
    actStLocal f s = if s.claimed s.cur.core (s.memAddr f).toNat (sizeBytes f.size) then .wait s 6 0 0
      else .done (s.posts s.cur.core (writePosts (s.memAddr f).toNat (leBytes (sizeBytes f.size) (s.rd f.val).toNat))) := by
  have haligned : ¬(f.var.getLsbD 0 = false ∧ (s.memAddr f).toNat % sizeBytes f.size ≠ 0) := by simpa [imp_iff_not_or] using h
  simp only [actStLocal, if_neg haligned, hfault]

end

end Sys2Proof.Machine

namespace Sys2Proof.Proofs
open Sys2Proof.Machine

/-- Settles O3: a misaligned access, and one with a part that fails its checks, traps; else a load has its value in flight, and a store waits for a claim of
its bytes or posts them. -/
theorem localLoadsAndStores : Obligations.LocalLoadsAndStores := by
  unfold Obligations.LocalLoadsAndStores
  intro s f a nb split legal raw
  have hnb : 0 < nb := Nat.two_pow_pos _
  refine ⟨fun hready => ?_, fun i hi hready => ?_⟩
  · have hexec : exec (.ldLocal f) s = issue s [f.base] (actLdLocal f) := show _ = execLdLocal f s from rfl
    refine ⟨fun hvar h => State.traps_of_memTrap hexec hready (actLdLocal_misaligned hvar h), fun h hlegal => ?_, fun h hbad => ?_⟩
    · have hdone := actLdLocal_done h (accessFault_of_legal hnb hlegal)
      simp only [one_lt_length_splitAt, extendLoad_eq (show 0 < sizeBytes f.size from hnb)] at hdone
      exact State.issues_of_done hexec hready hdone
    · obtain ⟨p, hp, cause, x, addr, status, hcheck, hfault⟩ := accessFault_some hnb hbad
      exact ⟨p, hp, cause, x, hcheck, State.traps_of_memTrap hexec hready (actLdLocal_fault h hfault)⟩
  · have hexec : exec i s = issue s [f.base, f.val] (actStLocal f) := by
      obtain rfl | rfl := hi
      · exact show _ = execStLocal f s from rfl
      · exact show _ = execStLocalS f s from rfl
    refine ⟨fun hvar h => State.traps_of_memTrap hexec hready (actStLocal_misaligned hvar h), fun h hlegal hclaimed => ?_,
      fun h hlegal hclaimed => ?_, fun h hbad => ?_⟩
    · exact State.waits_of_wait hexec hready ((actStLocal_legal h (accessFault_of_legal hnb hlegal)).trans (if_pos hclaimed))
    · have hdone := (actStLocal_legal h (accessFault_of_legal hnb hlegal)).trans (if_neg (by simp only [Bool.not_eq_true]; exact hclaimed))
      simp only [writePosts, length_leBytes] at hdone
      exact State.issues_of_done hexec hready hdone
    · obtain ⟨p, hp, cause, x, addr, status, hcheck, hfault⟩ := accessFault_some hnb hbad
      exact ⟨p, hp, cause, x, hcheck, State.traps_of_memTrap hexec hready (actStLocal_fault h hfault)⟩

end Sys2Proof.Proofs
end

