-- ==== Sys2Proof/Proofs/Publication.lean ====
section
/-! PROOFS. What the publication of a core's writes leaves of the state: of each core all but its pending error, and what the checks of later accesses
read (R234, R238, R345, R346). -/
namespace Sys2Proof.Machine

/-! ### Cores but for their pending errors -/

/-- A core with this pending error and count of further ones. -/
def Core.withError (co : Core) (e : Option PErr) (more : Nat) : Core := { co with im := { co.im with perr := e, more := more } }

/-- Each core of t is that of s, but for its pending error. -/
def State.SameCores (s t : State) : Prop := ∀ c, ∃ e more, t.core c = (s.core c).withError e more

/-- What publications leave as it is: cores but for their pending errors, time, the physical map, what home agents hold back; and an access that no
uncorrectable error stops meets none afterwards. -/
structure State.Publishes (s t : State) : Prop where
  cores : s.SameCores t
  cyc : t.cyc = s.cyc
  cur : t.cur = s.cur
  map : ∀ pa, t.paKind pa = s.paKind pa
  held : ∀ own pa n w, t.extentHeld own pa n w = s.extentHeld own pa n w
  good : ∀ c k pa n, s.homeBad c k pa n = false → t.homeBad c k pa n = false

theorem SameCores.of_cores {s t : State} (h : t.cores = s.cores) : s.SameCores t :=
  fun c => ⟨(s.core c).im.perr, (s.core c).im.more, by rw [State.core, h]; rfl⟩

theorem State.SameCores.trans {s t u : State} (h : s.SameCores t) (h' : t.SameCores u) : s.SameCores u := fun c => by
  obtain ⟨e, m, ht⟩ := h c
  obtain ⟨e', m', hu⟩ := h' c
  exact ⟨e', m', by rw [hu, ht]; rfl⟩

theorem State.SameCores.ms {s t : State} (h : s.SameCores t) (c : Nat) : (t.core c).ms = (s.core c).ms := by
  obtain ⟨e, m, ht⟩ := h c
  rw [ht]; rfl

theorem State.SameCores.sems {s t : State} (h : s.SameCores t) (c : Nat) : (t.core c).im.sems = (s.core c).im.sems := by
  obtain ⟨e, m, ht⟩ := h c
  rw [ht]; rfl

theorem State.SameCores.semov {s t : State} (h : s.SameCores t) (c : Nat) : (t.core c).im.semov = (s.core c).im.semov := by
  obtain ⟨e, m, ht⟩ := h c
  rw [ht]; rfl

theorem State.Publishes.refl (s : State) : s.Publishes s :=
  ⟨SameCores.of_cores rfl, rfl, rfl, fun _ => rfl, fun _ _ _ _ => rfl, fun _ _ _ _ h => h⟩

theorem State.Publishes.trans {s t u : State} (h : s.Publishes t) (h' : t.Publishes u) : s.Publishes u :=
  ⟨h.cores.trans h'.cores, h'.cyc.trans h.cyc, h'.cur.trans h.cur, fun pa => (h'.map pa).trans (h.map pa),
    fun own pa n w => (h'.held own pa n w).trans (h.held own pa n w), fun c k pa n hs => h'.good c k pa n (h.good c k pa n hs)⟩

/-! ### Errors at homes -/

theorem foldl_firstBad_eq_none {l : List Nat} {a n : Nat} {m : Option Nat} :
    l.foldl (fun m x => if a ≤ x ∧ x < a + n then (match m with
      | some y => some (Nat.min x y)
      | none => some x) else m) m = none ↔ m = none ∧ ∀ x ∈ l, ¬(a ≤ x ∧ x < a + n) := by
  induction l generalizing m with
  | nil => simp
  | cons x r ih =>
    rw [List.foldl_cons, ih, List.forall_mem_cons]
    by_cases hx : a ≤ x ∧ x < a + n
    · rw [if_pos hx]
      cases m <;> simp [hx]
    · rw [if_neg hx]
      simp only [hx, not_false_eq_true, true_and]

theorem firstBad_eq_none {l : List Nat} {a n : Nat} : firstBad l a n = none ↔ ∀ x ∈ l, ¬(a ≤ x ∧ x < a + n) :=
  foldl_firstBad_eq_none.trans (by simp)

/-- Fewer errors stop no more accesses. -/
theorem homeBad_of_subset {s t : State} (hbad : t.bad ⊆ s.bad) (hlink : t.linkErr ⊆ s.linkErr) {c k pa n : Nat}
    (h : s.homeBad c k pa n = false) : t.homeBad c k pa n = false := by
  rw [State.homeBad, Bool.or_eq_false_iff, Bool.and_eq_false_iff, Bool.and_eq_false_iff] at h ⊢
  refine ⟨h.1.imp_right (fun hs => ?_), h.2.imp_left (fun hs => ?_)⟩
  · rw [Option.isSome_eq_false_iff, Option.isNone_iff_eq_none, firstBad_eq_none] at hs ⊢
    exact fun x hx => hs x (hbad hx)
  · simp only [List.contains_eq_mem, decide_eq_false_iff_not] at hs ⊢
    exact fun hc => hs (hlink hc)

/-! ### The pieces of a publication -/

/-- What a state needs to share with one that a publication leaves. -/
theorem publishes_of_fields {s t : State} (hcores : s.SameCores t) (hcyc : t.cyc = s.cyc) (hcur : t.cur = s.cur) (hhr : t.hrcfg = s.hrcfg)
    (hmembers : t.dom.members = s.dom.members) (hmodid : t.dom.modid = s.dom.modid) (hworks : t.works = s.works)
    (harrays : t.arrays = s.arrays) (hbad : t.bad ⊆ s.bad) (hlink : t.linkErr ⊆ s.linkErr) : s.Publishes t where
  cores := hcores
  cyc := hcyc
  cur := hcur
  map pa := by simp only [State.paKind, State.hr, hhr, hmembers, hmodid]
  held own pa n w := by simp only [State.extentHeld, hworks, harrays]
  good _ _ _ _ := homeBad_of_subset hbad hlink

/-- The mark of an array that bytes which a command in its window has read were written changes nothing that home agents hold back. -/
theorem touchHome_queue_held (a : ArrSt) (lo n pa k : Nat) : ((a.touchHome lo n).queue.any (fun x =>
      match x.b, x.wrec with
      | some _, (q, m) :: _ => overlap pa k q m
      | _, _ => false)) = a.queue.any (fun x =>
      match x.b, x.wrec with
      | some _, (q, m) :: _ => overlap pa k q m
      | _, _ => false) := by
  simp only [ArrSt.touchHome, List.any_map]
  refine congrArg (fun f => a.queue.any f) (funext fun x => ?_)
  cases h : x.wrec.any (fun r => decide (lo < r.1 + r.2) && decide (r.1 < lo + n)) with
  | true => simp only [Function.comp_apply, h, if_true]
  | false => simp only [Function.comp_apply, h, Bool.false_eq_true, if_false]

theorem extentHeld_observeArrays (s : State) (lo k : Nat) (own : Option Nat) (pa n : Nat) (w : Bool) :
    (s.observeArrays lo k).extentHeld own pa n w = s.extentHeld own pa n w := by
  unfold State.observeArrays
  split
  · simp only [State.extentHeld, List.any_map]
    congr 2
    refine congrArg (fun f => s.arrays.any f) (funext fun p => ?_)
    exact touchHome_queue_held p.2 lo k pa n
  · rfl

theorem observeArrays_publishes (s : State) (lo n : Nat) : s.Publishes (s.observeArrays lo n) where
  cores := SameCores.of_cores (by simp)
  cyc := by unfold State.observeArrays; split <;> rfl
  cur := by unfold State.observeArrays; split <;> rfl
  map pa := by unfold State.observeArrays; split <;> rfl
  held := extentHeld_observeArrays s lo n
  good c k pa m h := by unfold State.observeArrays; split <;> exact h

theorem observeDie_publishes (s : State) (d lo n : Nat) : s.Publishes (s.observeDie d lo n) := by
  unfold State.observeDie
  split
  · exact publishes_of_fields (SameCores.of_cores rfl) rfl rfl rfl rfl rfl rfl rfl (List.Subset.refl _) (List.Subset.refl _)
  · exact State.Publishes.refl s

theorem observe_publishes (s : State) (lo n : Nat) : s.Publishes (s.observe lo n) :=
  ((observeDie_publishes s 0 lo n).trans (observeDie_publishes _ 1 lo n)).trans (observeArrays_publishes _ lo n)

/-- Bytes and narrow publications are not what the later accesses of a core are checked by. -/
theorem setBytes_publishes (s : State) (mem : List Host.Cell) (blog : List PWrite) (p : Nat → Bool) :
    s.Publishes { s with mem := mem, bad := s.bad.filter p, blog := blog } :=
  publishes_of_fields (SameCores.of_cores rfl) rfl rfl rfl rfl rfl rfl rfl (List.filter_subset_self _) (List.Subset.refl _)

theorem setMem_publishes (s : State) (mem : List Host.Cell) (blog : List PWrite) : s.Publishes { s with mem := mem, blog := blog } :=
  publishes_of_fields (SameCores.of_cores rfl) rfl rfl rfl rfl rfl rfl rfl (List.Subset.refl _) (List.Subset.refl _)

theorem homeWrite_publishes (s : State) (pa : Nat) (bs : List Byte) : s.Publishes (s.homeWrite pa bs) := by
  unfold State.homeWrite
  exact (setBytes_publishes s _ _ _).trans (observe_publishes _ _ _)

theorem promote_publishes (s : State) (e : PWrite) : s.Publishes (s.promote e) := by
  unfold State.promote
  exact (setMem_publishes s _ _).trans (observe_publishes _ _ _)

theorem send_publishes (s : State) (m : Msg) : s.Publishes (s.send m) := by
  refine publishes_of_fields (SameCores.of_cores rfl) rfl rfl rfl ?_ ?_ rfl rfl (List.Subset.refl _) (List.Subset.refl _)
  · unfold State.send; dsimp only; split <;> rfl
  · unfold State.send; dsimp only; split <;> rfl

theorem domainSend_publishes (s : State) (target op aop u size scope ctx len rid pa : Nat) (val cv : Word) (data : List Byte) (core acc : Nat) :
    s.Publishes (s.domainSend target op aop u size scope ctx len rid pa val cv data core acc) := by
  unfold State.domainSend
  dsimp only
  refine State.Publishes.trans ?_ (send_publishes _ _)
  split
  · exact publishes_of_fields (SameCores.of_cores rfl) rfl rfl rfl rfl rfl rfl rfl (List.Subset.refl _) (List.Subset.refl _)
  · exact publishes_of_fields (SameCores.of_cores rfl) rfl rfl rfl rfl rfl rfl rfl (List.Subset.refl _) (List.Subset.refl _)

theorem tagReq_publishes (s : State) (va : Word) (origin : Nat) : s.Publishes (s.tagReq va origin) := by
  unfold State.tagReq
  split
  · exact publishes_of_fields (SameCores.of_cores rfl) rfl rfl rfl rfl rfl rfl rfl (List.Subset.refl _) (List.Subset.refl _)
  · exact State.Publishes.refl s

theorem addError_eq (im : Image) (e : PErr) : ∃ p more, im.addError e = { im with perr := p, more := more } := by
  unfold Image.addError
  split
  · exact ⟨some e, im.more, rfl⟩
  · exact ⟨im.perr, _, rfl⟩

theorem setPending_publishes (s : State) (c ctx : Nat) (e : PErr) : s.Publishes (s.setPending c ctx e) := by
  unfold State.setPending
  split
  · refine publishes_of_fields (fun d => ?_) rfl rfl rfl rfl rfl rfl rfl (List.Subset.refl _) (List.Subset.refl _)
    obtain ⟨p, more, hadd⟩ := addError_eq (s.core c).im e
    by_cases hd : d = c
    · subst hd
      exact ⟨p, more, by rw [State.core_modIm, if_pos rfl, hadd]; rfl⟩
    · exact ⟨(s.core d).im.perr, (s.core d).im.more, by rw [State.core_modIm, if_neg hd]; rfl⟩
  · exact publishes_of_fields (SameCores.of_cores rfl) rfl rfl rfl rfl rfl rfl rfl (List.Subset.refl _) (List.Subset.refl _)

theorem linkMet_publishes (s : State) (c pa cause : Nat) : s.Publishes (s.linkMet c pa cause) := by
  unfold State.linkMet
  split
  · exact publishes_of_fields (SameCores.of_cores rfl) rfl rfl rfl rfl rfl rfl rfl (List.Subset.refl _) (List.filter_subset_self _)
  · exact State.Publishes.refl s

theorem logError_publishes (s : State) (d : Nat) (e : ErrEnt) : s.Publishes (s.logError d e) :=
  publishes_of_fields (SameCores.of_cores rfl) rfl rfl rfl rfl rfl rfl rfl (List.Subset.refl _) (List.Subset.refl _)

theorem accessError_publishes (s : State) (c pa : Nat) (va : Word) (ctx cause kind origin : Nat) :
    s.Publishes (s.accessError c pa va ctx cause kind origin) :=
  ((linkMet_publishes s c pa cause).trans (logError_publishes _ _ _)).trans (setPending_publishes _ c ctx _)

/-! ### Publications -/

theorem publish1_publishes (s : State) (scope : Nat) (w : PWrite) : s.Publishes (s.publish1 scope w) := by
  unfold State.publish1
  split
  · split
    · exact homeWrite_publishes s w.pa [w.b]
    · exact (setMem_publishes s s.mem _).trans (observe_publishes _ _ _)
  · exact (domainSend_publishes ..).trans (tagReq_publishes ..)
  · exact accessError_publishes ..

theorem publishSome_publishes (s : State) (scope n : Nat) (ws : List PWrite) : s.Publishes (s.publishSome scope n ws) := by
  induction n generalizing s ws with
  | zero => rw [State.publishSome]; exact State.Publishes.refl s
  | succ n ih =>
    cases ws with
    | nil => rw [State.publishSome]; exacts [State.Publishes.refl s, by simp]
    | cons w r =>
      simp only [State.publishSome]
      split
      · exact ((domainSend_publishes ..).trans (tagReq_publishes ..)).trans (ih _ _)
      · exact (publish1_publishes s scope w).trans (ih _ _)
      · split
        · exact (accessError_publishes ..).trans (ih _ _)
        · exact (publish1_publishes s scope w).trans (ih _ _)

theorem publishAll_publishes (s : State) (scope : Nat) (ws : List PWrite) : s.Publishes (s.publishAll scope ws) := by
  unfold State.publishAll
  split
  · exact State.Publishes.refl s
  · exact (publishSome_publishes s scope ws.length ws).trans
      (publishes_of_fields (SameCores.of_cores rfl) rfl rfl rfl rfl rfl rfl rfl (List.Subset.refl _) (List.Subset.refl _))

theorem foldl_promote_publishes (l : List PWrite) (s : State) : s.Publishes (l.foldl (fun s e => s.promote e) s) := by
  induction l generalizing s with
  | nil => exact State.Publishes.refl s
  | cons e r ih => exact (promote_publishes s e).trans (ih _)

theorem widen_publishes (s : State) (c scope : Nat) : s.Publishes (s.widen c scope) := by
  unfold State.widen
  split
  · exact foldl_promote_publishes _ s
  · exact publishes_of_fields (SameCores.of_cores rfl) rfl rfl rfl rfl rfl rfl rfl (List.Subset.refl _) (List.Subset.refl _)

/-- A release is a publication, after which the core has no writes pending. -/
theorem release_eq (s : State) (c scope : Nat) : ∃ u, s.Publishes u ∧ s.release c scope = u.modMs c (fun m => { m with pend := [] }) :=
  ⟨_, (widen_publishes s c scope).trans (publishAll_publishes _ scope _), rfl⟩

theorem releaseOlder_eq (s : State) (c scope ser : Nat) : ∃ u, s.Publishes u ∧
    s.releaseOlder c scope ser = u.modMs c (fun m => { m with pend := m.pend.filter (fun w => !decide (w.ser < ser)) }) :=
  ⟨_, (widen_publishes s c scope).trans (publishAll_publishes _ scope _), rfl⟩

theorem publishHits_eq (s : State) (c pa nb id : Nat) : ∃ u, s.Publishes u ∧
    s.publishHits c pa nb id = u.modMs c (fun m => { m with pend := m.pend.filter (fun w => !(w.within pa nb && decide (w.ser < id))) }) :=
  ⟨_, publishAll_publishes s 3 _, rfl⟩

end Sys2Proof.Machine
end

