-- ==== Sys2Proof/Proofs/Boundaries.lean ====
section
/-! PROOFS. Boundaries, semaphores and invalidations: what a release, an acquire and the atomics that are performed behind them change of their core, and
where they complete (R234 to R243, R259, R277, R278, R347). -/
namespace Sys2Proof.Machine

/-! ### The core past its group -/

theorem ms_modSeq (s : State) (c d : Nat) (q : Seq) (f : SeqSt → SeqSt) : ((s.modSeq c q f).core d).ms = (s.core d).ms := by
  rw [State.core_modSeq]
  split
  · next h => rw [h]
  · rfl

theorem ms_retire (s : State) (d : Nat) : (s.retire.core d).ms = (s.core d).ms := ms_modSeq ..

theorem ms_modMs (s : State) (c : Nat) (f : MemSide → MemSide) : ((s.modMs c f).core c).ms = f (s.core c).ms := by
  rw [State.core_modMs, if_pos rfl]

/-- The state past a wait in an untimed segment. -/
theorem exec_wait_untimed {s u : State} {i : Instr} {codes : List (BitVec 5)} {act : State → Act} {kind obj lacks : Nat}
    (hexec : exec i s = issue s codes act) (hready : s.Ready codes) (htimed : s.me.timed = false) (hact : act s = .wait u kind obj lacks) :
    exec i s = .next (u.modSeq s.cur.core s.cur.sq (fun q => { q with waiting := some { kind := kind, obj := obj, lacks := lacks }, tried := some s.cyc })) := by
  rw [hexec, issue_of_ready act hready, hact, State.settleAct, htimed, if_neg Bool.false_ne_true]

/-! ### A new snapshot -/

/-- What an acquire finds at an address is what its core sees there (R236, R238). -/
theorem mget_visible (s : State) (c pa : Nat) : mget 0 (s.visible c) pa = s.seenByte c pa := by
  unfold State.visible State.seenByte
  generalize s.mem = m
  induction s.blog generalizing m with
  | nil => rfl
  | cons e r ih =>
    rw [List.foldl_cons, List.foldl_cons, ih]
    congr 1
    by_cases hseen : e.seenBy c s.cyc = true
    · rw [if_pos hseen, mget_mput]
      refine if_congr ⟨fun h => ⟨h.symm, hseen⟩, fun h => h.1.symm⟩ rfl rfl
    · rw [if_neg hseen, if_neg (fun h => hseen h.2)]

theorem mget_foldl_mput_of_ne {β : Type} (addr : β → Nat) (val : β → Byte) {l : List β} {m : List Host.Cell} {pa : Nat}
    (h : ∀ w ∈ l, addr w ≠ pa) : mget 0 (l.foldl (fun m w => mput 0 m (addr w) (val w)) m) pa = mget 0 m pa := by
  induction l generalizing m with
  | nil => rfl
  | cons w r ih =>
    rw [List.foldl_cons, ih (fun w' hw' => h w' (List.mem_cons_of_mem _ hw')), mget_mput, if_neg (Ne.symm (h w List.mem_cons_self))]

theorem mfind_mset {α : Type} (m : Map α) (a b : Nat) (x : α) : mfind (mset m a x) b = if b = a then some x else mfind m b := by
  induction m with
  | nil =>
    rw [mset, mfind]
    exact if_congr eq_comm rfl rfl
  | cons p r ih =>
    obtain ⟨k, v⟩ := p
    rw [mset]
    split
    · next hlt =>
      rw [mfind]
      exact if_congr eq_comm rfl rfl
    · split
      · next heq =>
        subst heq
        rw [mfind, mfind]
        by_cases hb : b = a
        · rw [if_pos hb, if_pos hb.symm]
        · rw [if_neg hb, if_neg (Ne.symm hb), if_neg (Ne.symm hb)]
      · next hne =>
        rw [mfind, mfind, ih]
        by_cases hb : b = a
        · rw [if_pos hb, if_pos hb, if_neg (by omega)]
        · rw [if_neg hb, if_neg hb]

theorem mfind_foldl_mset_of_ne {β : Type} (addr : β → Nat) (val : β → Byte) {l : List β} {m : Map Byte} {pa : Nat}
    (h : ∀ w ∈ l, addr w ≠ pa) : mfind (l.foldl (fun m w => mset m (addr w) (val w)) m) pa = mfind m pa := by
  induction l generalizing m with
  | nil => rfl
  | cons w r ih =>
    rw [List.foldl_cons, ih (fun w' hw' => h w' (List.mem_cons_of_mem _ hw')), mfind_mset, if_neg (Ne.symm (h w List.mem_cons_self))]

theorem core_l2Clear (s : State) (d : Nat) : s.l2Clear.core d = s.core d := rfl

/-- An acquire gives its core a new snapshot, and nothing else of another core or of memory. -/
theorem core_acquire (s : State) (c scope d : Nat) : (s.acquire c scope).core d = if d = c then { s.core c with ms := { (s.core c).ms with
      snap := ((s.core c).ms.pend.filter (fun w => !isWindow w.pa)).foldl (fun m w => mput 0 m w.pa w.b) (s.visible c),
      remote := ((s.core c).ms.pend.filter (fun w => isWindow w.pa)).foldl (fun m w => mset m w.pa w.b) [],
      lines := [], gacc := (s.core c).ms.gacc.map (fun g => g.hide g.pa g.nb) } } else s.core d := by
  unfold State.acquire
  dsimp only
  split
  · rw [State.core_modMs, core_l2Clear, core_l2Clear]
  · rw [State.core_modMs]

theorem pend_acquire (s : State) (c scope : Nat) : ((s.acquire c scope).core c).ms.pend = (s.core c).ms.pend := by
  rw [core_acquire, if_pos rfl]

/-- The new snapshot: bytes of this module as the core sees them at home, and nothing of other modules (R236). -/
theorem acquire_fresh (s : State) (c scope pa : Nat) :
    (isWindow pa = false → (∀ w ∈ (s.core c).ms.pend, w.pa ≠ pa) → mget 0 ((s.acquire c scope).core c).ms.snap pa = s.seenByte c pa) ∧
    (isWindow pa = true → (∀ w ∈ (s.core c).ms.pend, w.pa ≠ pa) → mfind ((s.acquire c scope).core c).ms.remote pa = none) := by
  rw [core_acquire, if_pos rfl]
  refine ⟨fun _ h => ?_, fun _ h => ?_⟩
  · exact (mget_foldl_mput_of_ne _ _ (fun w hw => h w (List.mem_of_mem_filter hw))).trans (mget_visible s c pa)
  · exact mfind_foldl_mset_of_ne _ _ (fun w hw => h w (List.mem_of_mem_filter hw))

/-! ### Atomics performed -/

/-- The same access, further on its way. -/
def GAcc.SameAccess (g h : GAcc) : Prop := h.id = g.id ∧ h.kind = g.kind ∧ h.pa = g.pa ∧ h.dst = g.dst

/-- What atomics that are performed leave: the core's accesses, on their way; no more writes pending than before; all else of the core but its snapshot and
pending error. -/
structure State.Drains (s : State) (c : Nat) (t : State) : Prop where
  cyc : t.cyc = s.cyc
  cur : t.cur = s.cur
  im : ∃ e more, (t.core c).im = { (s.core c).im with perr := e, more := more }
  ms : ∃ (f : GAcc → GAcc) (p : PWrite → Bool) (snap : List Host.Cell), (∀ g : GAcc, g.SameAccess (f g)) ∧
    (t.core c).ms = { (s.core c).ms with gacc := (s.core c).ms.gacc.map f, pend := (s.core c).ms.pend.filter p, snap := snap }

theorem State.Publishes.drains {s t : State} (h : s.Publishes t) (c : Nat) : s.Drains c t where
  cyc := h.cyc
  cur := h.cur
  im := by
    obtain ⟨e, more, hc⟩ := h.cores c
    exact ⟨e, more, by rw [hc]; rfl⟩
  ms := ⟨id, fun _ => true, (s.core c).ms.snap, fun g => ⟨rfl, rfl, rfl, rfl⟩, by rw [h.cores.ms]; simp⟩

theorem State.Drains.refl (s : State) (c : Nat) : s.Drains c s := (State.Publishes.refl s).drains c

theorem State.Drains.trans {s t u : State} {c : Nat} (h : s.Drains c t) (h' : t.Drains c u) : s.Drains c u where
  cyc := h'.cyc.trans h.cyc
  cur := h'.cur.trans h.cur
  im := by
    obtain ⟨e, m, ht⟩ := h.im
    obtain ⟨e', m', hu⟩ := h'.im
    exact ⟨e', m', by rw [hu, ht]⟩
  ms := by
    obtain ⟨f, p, snap, hf, ht⟩ := h.ms
    obtain ⟨f', p', snap', hf', hu⟩ := h'.ms
    refine ⟨f' ∘ f, fun w => p' w && p w, snap', fun g => ?_, by rw [hu, ht]; simp [List.filter_filter]⟩
    obtain ⟨hid, hkind, hpa, hdst⟩ := hf g
    obtain ⟨hid', hkind', hpa', hdst'⟩ := hf' (f g)
    exact ⟨hid'.trans hid, hkind'.trans hkind, hpa'.trans hpa, hdst'.trans hdst⟩

theorem drains_modAcc (s : State) (c id : Nat) {f : GAcc → GAcc} (hf : ∀ g : GAcc, g.SameAccess (f g)) : s.Drains c (s.modAcc c id f) where
  cyc := rfl
  cur := rfl
  im := ⟨_, _, by rw [State.modAcc, State.core_modMs, if_pos rfl]⟩
  ms := by
    refine ⟨fun g => if g.id = id then f g else g, fun _ => true, (s.core c).ms.snap, fun g => ?_, ?_⟩
    · by_cases h : g.id = id
      · simpa only [if_pos h] using hf g
      · simp only [if_neg h, GAcc.SameAccess, and_self]
    · rw [State.modAcc, ms_modMs]
      simp

theorem drains_dropPend (s : State) (c : Nat) (p : PWrite → Bool) : s.Drains c (s.modMs c (fun m => { m with pend := m.pend.filter p })) where
  cyc := rfl
  cur := rfl
  im := ⟨_, _, by rw [State.core_modMs, if_pos rfl]⟩
  ms := ⟨id, p, (s.core c).ms.snap, fun g => ⟨rfl, rfl, rfl, rfl⟩, by rw [ms_modMs]; simp⟩

theorem drains_setSnap (s : State) (c : Nat) (snap : MemSide → List Host.Cell) : s.Drains c (s.modMs c (fun m => { m with snap := snap m })) where
  cyc := rfl
  cur := rfl
  im := ⟨_, _, by rw [State.core_modMs, if_pos rfl]⟩
  ms := ⟨id, fun _ => true, snap (s.core c).ms, fun g => ⟨rfl, rfl, rfl, rfl⟩, by rw [ms_modMs]; simp⟩

theorem setDomain_publishes (s : State) (dom : Domain) (hmembers : dom.members = s.dom.members) (hmodid : dom.modid = s.dom.modid) :
    s.Publishes { s with dom := dom } :=
  publishes_of_fields (SameCores.of_cores rfl) rfl rfl rfl hmembers hmodid rfl rfl (List.Subset.refl _) (List.Subset.refl _)

theorem drains_publishHits (s : State) (c pa nb id : Nat) : s.Drains c (s.publishHits c pa nb id) :=
  ((publishAll_publishes s 3 _).drains c).trans (drains_dropPend _ c _)

theorem drains_atomicPerform (s : State) (c pa nb : Nat) (f : Nat → Option Nat) : s.Drains c (s.atomicPerform c pa nb f).2 := by
  unfold State.atomicPerform
  dsimp only
  refine State.Drains.trans (State.Publishes.drains ?_ c) (drains_setSnap _ c _)
  split
  · exact homeWrite_publishes ..
  · exact State.Publishes.refl s

theorem drains_sendAtomic (s : State) (c m off : Nat) (g : GAcc) (aop u : Nat) (v cv : Word) : s.Drains c (s.sendAtomic c m off g aop u v cv) := by
  unfold State.sendAtomic
  refine State.Drains.trans ?_ (drains_modAcc _ c g.id (fun _ => ⟨rfl, rfl, rfl, rfl⟩))
  refine State.Publishes.drains (State.Publishes.trans (domainSend_publishes s m 3 aop u (if g.nb = 4 then 2 else 3) g.scope g.ctx 0 g.raw off v cv [] c g.id) ?_) c
  refine setDomain_publishes _ _ ?_ ?_ <;> rfl

theorem drains_drainAtomics (c n : Nat) (s : State) : s.Drains c (s.drainAtomics c n) := by
  induction n generalizing s with
  | zero => exact State.Drains.refl s c
  | succ n ih =>
    unfold State.drainAtomics
    split
    · exact State.Drains.refl s c
    · next g _ =>
      split
      · exact State.Drains.refl s c
      · next aop u v cv _ =>
        split
        · exact State.Drains.refl s c
        · split
          · refine State.Drains.trans ?_ (ih _)
            refine drains_modAcc s c g.id ?_
            exact fun _ => ⟨rfl, rfl, rfl, rfl⟩
          · split
            · exact State.Drains.refl s c
            · split
              · refine State.Drains.trans ?_ (ih _)
                refine ((linkMet_publishes s c g.pa 0x83).drains c).trans (drains_modAcc _ c g.id ?_)
                exact fun _ => ⟨rfl, rfl, rfl, rfl⟩
              · refine State.Drains.trans ?_ (ih _)
                refine ((drains_publishHits s c g.pa g.nb g.id).trans (drains_atomicPerform _ c g.pa g.nb _)).trans (drains_modAcc _ c g.id ?_)
                exact fun _ => ⟨rfl, rfl, rfl, rfl⟩
          · split
            · refine State.Publishes.drains ?_ c
              refine setDomain_publishes s _ ?_ ?_ <;> rfl
            · exact (drains_publishHits s c g.pa g.nb g.id).trans (drains_sendAtomic ..)

theorem State.Drains.pend_subset {s t : State} {c : Nat} (h : s.Drains c t) : (t.core c).ms.pend ⊆ (s.core c).ms.pend := by
  obtain ⟨f, p, snap, -, hms⟩ := h.ms
  rw [hms]
  exact List.filter_subset_self _

/-! ### Releases -/

theorem pend_release (s : State) (c scope : Nat) : ((s.release c scope).core c).ms.pend = [] := by
  obtain ⟨u, -, hu⟩ := release_eq s c scope
  rw [hu, ms_modMs]

/-- What a release leaves of its core, but for its pending error, and of time. -/
theorem ms_release (s : State) (c scope : Nat) : ((s.release c scope).core c).ms = { (s.core c).ms with pend := [] } := by
  obtain ⟨u, hpub, hu⟩ := release_eq s c scope
  rw [hu, ms_modMs, hpub.cores.ms]

theorem cyc_release (s : State) (c scope : Nat) : (s.release c scope).cyc = s.cyc := by
  obtain ⟨u, hpub, hu⟩ := release_eq s c scope
  rw [hu]
  exact hpub.cyc

theorem cur_release (s : State) (c scope : Nat) : (s.release c scope).cur = s.cur := by
  obtain ⟨u, hpub, hu⟩ := release_eq s c scope
  rw [hu]
  exact hpub.cur

/-- A release that may take place now, and one that stands behind K's atomics (R235). -/
theorem releaseNext_of_ordered {s : State} {c : Nat} (scope : Nat) (h : s.ordered c = true) : s.releaseNext c scope = s.release c scope := if_pos h

theorem ms_releaseNext_of_not_ordered {s : State} {c : Nat} (scope : Nat) (h : s.ordered c = false) :
    ((s.releaseNext c scope).core c).ms = { (s.core c).ms with rels := (s.core c).ms.rels ++ [(s.serial, scope)] } := by
  rw [State.releaseNext, if_neg (by simp [h]), ms_modMs]
  rfl

theorem later_le (s : State) (n : Nat) : s.cyc + n ≤ (s.later n).1 := Nat.le_add_right _ _

end Sys2Proof.Machine
end

