-- ==== Sys2Proof/Proofs/Phases.lean ====
section
/-! PROOFS. `phase` and `fence`, and where their boundaries complete; invalidation of translations (R234 to R240, R259, R278, R347). -/
namespace Sys2Proof.Machine

/-! ### phase and fence -/

/-- The scope that a boundary releases or acquires at, where it does. -/
def scopeIf (b : Bool) (sc : Nat) : Option Nat := if b then some sc else none

/-- A boundary has nothing to wait for (R240). -/
def State.boundaryNow (s : State) (rel acq : Option Nat) : Bool :=
  (match rel with
   | some sc => s.nothingPending s.cur.core sc
   | none => true) && acq != some 4

/-- The release of a boundary. -/
def State.boundaryRelease (s : State) (rel : Option Nat) : State :=
  match rel with
  | some sc => s.release s.cur.core sc
  | none => s

/-- The acquire of a boundary. -/
def State.boundaryAcquire (s : State) (c : Nat) (acq : Option Nat) : State :=
  match acq with
  | some sc => s.acquire c sc
  | none => s

theorem actBoundary_wait {s : State} (rel acq : Option Nat) (h : s.me.timed = true ∨ s.ordered s.cur.core = false) :
    actBoundary rel acq s = .wait s 0xA 0 0 := if_pos h

theorem actBoundary_now {s : State} {rel acq : Option Nat} (h : ¬(s.me.timed = true ∨ s.ordered s.cur.core = false))
    (hnow : s.boundaryNow rel acq = true) : actBoundary rel acq s = .done ((s.boundaryRelease rel).boundaryAcquire s.cur.core acq) :=
  (if_neg h).trans (if_pos hnow)

theorem actBoundary_later {s : State} {rel acq : Option Nat} (h : ¬(s.me.timed = true ∨ s.ordered s.cur.core = false))
    (hnow : s.boundaryNow rel acq = false) : actBoundary rel acq s = .done (((s.boundaryRelease rel).later 0).2.modMs s.cur.core (fun m =>
      { m with hold := some (.boundary rel acq ((s.boundaryRelease rel).later 0).1) })) :=
  (if_neg h).trans (if_neg (by rw [Bool.not_eq_true]; exact hnow))

theorem boundaryNow_scopeIf (s : State) (rel acq : Bool) (sc : Nat) : s.boundaryNow (scopeIf rel sc) (scopeIf acq sc) = true ↔
    (rel = false ∨ s.nothingPending s.cur.core sc = true) ∧ (acq = false ∨ sc ≠ 4) := by
  cases rel <;> cases acq <;> simp [State.boundaryNow, scopeIf]

theorem boundaryRelease_scopeIf (s : State) (rel : Bool) (sc : Nat) :
    s.boundaryRelease (scopeIf rel sc) = if rel then s.release s.cur.core sc else s := by
  cases rel <;> rfl

/-- Each of the three instructions is a boundary. -/
theorem exec_boundary {s : State} {f : MgtF} {rel acq : Bool} {i : Instr}
    (hi : (i = .phase f ∧ rel = true ∧ acq = true) ∨ (i = .fenceRel f ∧ rel = true ∧ acq = false) ∨ (i = .fenceAcq f ∧ rel = false ∧ acq = true)) :
    exec i s = issue s [] (actBoundary (scopeIf rel (f.var.toNat % 8)) (scopeIf acq (f.var.toNat % 8))) := by
  obtain ⟨rfl, rfl, rfl⟩ | ⟨rfl, rfl, rfl⟩ | ⟨rfl, rfl, rfl⟩ := hi
  · exact show _ = execPhase f s from rfl
  · exact show _ = execFenceRel f s from rfl
  · exact show _ = execFenceAcq f s from rfl

/-- The pending writes of a core are gone once a boundary with a release has issued. -/
theorem pend_boundaryRelease (s : State) (sc : Nat) : ((s.boundaryRelease (some sc)).core s.cur.core).ms.pend = [] :=
  pend_release s s.cur.core sc

/-! ### Boundaries that complete -/

theorem exec_boundaryComplete_of_release {s t : State} {c : Nat} (hc : c < 128) (h : s.releaseDone c = some t) :
    exec (.boundaryComplete c) s = .next t := by
  rw [show exec (.boundaryComplete c) s = execBoundaryComplete c s from rfl, execBoundaryComplete, h, coreEvent_next]
  exact ⟨hc, rfl⟩

theorem releaseDone_of_nil {s : State} {c : Nat} (h : (s.core c).ms.rels = []) : s.releaseDone c = none := by
  rw [State.releaseDone, h]

theorem exec_boundaryComplete_of_boundary {s t : State} {c : Nat} (hc : c < 128) (hrels : (s.core c).ms.rels = []) (h : s.boundaryDone c = some t) :
    exec (.boundaryComplete c) s = .next t := by
  rw [show exec (.boundaryComplete c) s = execBoundaryComplete c s from rfl, execBoundaryComplete, releaseDone_of_nil hrels, h, coreEvent_next]
  exact ⟨hc, rfl⟩

theorem exec_boundaryComplete_of_semAdd {s t : State} {c : Nat} (hc : c < 128) (hrels : (s.core c).ms.rels = []) (hhold : (s.core c).ms.hold = none)
    (h : s.semAddDone c = some t) : exec (.boundaryComplete c) s = .next t := by
  rw [show exec (.boundaryComplete c) s = execBoundaryComplete c s from rfl, execBoundaryComplete, releaseDone_of_nil hrels,
    show s.boundaryDone c = none by rw [State.boundaryDone, hhold], coreEvent_next]
  exact ⟨hc, h⟩

/-- A release that nothing holds back any more takes effect. -/
theorem releaseDone_of_ready {s : State} {c : Nat} {r : Nat × Nat} {rs : List (Nat × Nat)} (hrels : (s.core c).ms.rels = r :: rs)
    (hgacc : ∀ g ∈ (s.core c).ms.gacc, g.id < r.1 → g.todo = none)
    (hpend : ∀ w ∈ (s.core c).ms.pend, w.ser < r.1 → s.extentBlocked w.pa 1 true = false) :
    s.releaseDone c = some (((s.releaseOlder c r.2 r.1).modMs c (fun m => { m with rels := rs })).drainAtomics c 17) := by
  rw [State.releaseDone, hrels]
  refine if_neg ?_
  simp only [Bool.or_eq_true, List.any_eq_true, Bool.and_eq_true, decide_eq_true_eq, not_or, not_exists, not_and]
  exact ⟨fun g hg htodo hid => by simp [hgacc g hg hid] at htodo, fun w hw hser => by simp [hpend w hw hser]⟩

/-- The releases that still wait, and the writes pending, once the oldest has taken effect. -/
theorem ms_releaseDone {s : State} {c : Nat} (r : Nat × Nat) (rs : List (Nat × Nat)) :
    let t := ((s.releaseOlder c r.2 r.1).modMs c (fun m => { m with rels := rs })).drainAtomics c 17
    (t.core c).ms.rels = rs ∧ ∀ w ∈ (t.core c).ms.pend, r.1 ≤ w.ser := by
  intro t
  obtain ⟨u, -, hu⟩ := releaseOlder_eq s c r.2 r.1
  have hdrains := drains_drainAtomics c 17 ((s.releaseOlder c r.2 r.1).modMs c (fun m => { m with rels := rs }))
  constructor
  · obtain ⟨f, p, snap, -, hms⟩ := hdrains.ms
    rw [hms, ms_modMs]
  · intro w hw
    have hw' := hdrains.pend_subset hw
    rw [ms_modMs, hu, ms_modMs] at hw'
    simpa using (List.mem_filter.mp hw').2

theorem semUp_eq (cnt n : Nat) : semUp cnt n = (Nat.min 65535 (cnt + n), decide (65535 < cnt + n)) := by
  rw [semUp]
  split
  · next h => rw [decide_eq_true h, show Nat.min 65535 (cnt + n) = 65535 from Nat.min_eq_left h.le]
  · next h => rw [decide_eq_false h, show Nat.min 65535 (cnt + n) = cnt + n from Nat.min_eq_right (Nat.le_of_not_lt h)]

/-- A release on a semaphore stops at 65,535, and says so. -/
theorem semRelease_spec (im : Image) (k n : Nat) : mget 0 (im.semRelease k n).sems k = Nat.min 65535 (mget 0 im.sems k + n) ∧
    (im.semRelease k n).semov = if 65535 < mget 0 im.sems k + n then im.semov ||| BitVec.ofNat 64 (2 ^ k) else im.semov := by
  simp only [Image.semRelease, semUp_eq, mget_mput, if_true, decide_eq_true_eq, and_self]

end Sys2Proof.Machine

namespace Sys2Proof.Proofs
open Sys2Proof.Machine

theorem boundariesReleaseAndAcquire : Claims.BoundariesReleaseAndAcquire := by
  unfold Claims.BoundariesReleaseAndAcquire
  intro s f rel acq i hi c sc s1 now fresh hready
  have hexec := exec_boundary (s := s) hi
  have hrelease : s.boundaryRelease (scopeIf rel sc) = s1 := boundaryRelease_scopeIf s rel sc
  have hnow : s.boundaryNow (scopeIf rel sc) (scopeIf acq sc) = true ↔ now := boundaryNow_scopeIf s rel acq sc
  have hdone (htimed : s.me.timed = false) (hord : s.ordered c = true) : ¬(s.me.timed = true ∨ s.ordered s.cur.core = false) := by
    simp only [htimed, show s.ordered s.cur.core = true from hord, Bool.false_eq_true, or_self, not_false_eq_true, Bool.true_eq_false]
  have hissues (htimed : s.me.timed = false) (hord : s.ordered c = true) (h : now) : s.Issues i (if acq then s1.acquire c sc else s1) := by
    refine State.issues_of_done hexec hready ((actBoundary_now (hdone htimed hord) (hnow.mpr h)).trans ?_)
    rw [hrelease]
    cases acq <;> rfl
  have hstands (htimed : s.me.timed = false) (hord : s.ordered c = true) (h : ¬now) : s.Issues i ((s1.later 0).2.modMs c (fun m =>
      { m with hold := some (.boundary (scopeIf rel sc) (scopeIf acq sc) (s1.later 0).1) })) := by
    refine State.issues_of_done hexec hready ((actBoundary_later (hdone htimed hord) ?_).trans (by rw [hrelease]))
    simpa using mt hnow.mp h
  refine ⟨fun h => ?_, fun _ h => ?_, hissues, fun htimed hord h => ?_, fun htimed hord h => ?_, acquire_fresh s c sc, pend_acquire s c sc,
    State.acquire_mem s c sc, fun d hd => ?_⟩
  · exact State.waits_of_wait hexec hready (actBoundary_wait _ _ (.inl h))
  · exact State.waits_of_wait hexec hready (actBoundary_wait _ _ (.inr h))
  · refine ⟨_, _, hstands htimed hord h, later_le s1 0, rfl, ?_⟩
    rw [ms_modMs]
    rfl
  · subst h
    by_cases hn : now
    · refine ⟨_, hissues htimed hord hn, ?_⟩
      rw [ms_retire]
      cases acq
      · exact pend_release s c sc
      · exact (pend_acquire _ c sc).trans (pend_release s c sc)
    · refine ⟨_, hstands htimed hord hn, ?_⟩
      rw [ms_retire, ms_modMs]
      exact pend_release s c sc
  · rw [core_acquire, if_neg hd]

theorem boundariesComplete : Claims.BoundariesComplete := by
  unfold Claims.BoundariesComplete
  intro s c hc
  refine ⟨fun r rs hrels hgacc hpend => ?_, fun hrels => ⟨fun rel acq at_ hhold hat hrel hacq hord => ?_, fun sc at_ hhold hat => ?_,
    fun a r hhold hadds hat hwide => ?_⟩⟩
  · exact ⟨_, exec_boundaryComplete_of_release hc (releaseDone_of_ready hrels hgacc hpend), ms_releaseDone r rs⟩
  · refine exec_boundaryComplete_of_boundary hc hrels ?_
    simp only [State.boundaryDone, hhold]
    exact if_pos ⟨hat, hrel, hacq, hord⟩
  · refine exec_boundaryComplete_of_boundary hc hrels ?_
    simp only [State.boundaryDone, hhold, if_pos hat]
  · have hdone : s.semAddDone c = some (((s.modMs c (fun m => { m with semAdds := r })).modIm c (fun im => im.semRelease a.sem a.n)).drainAtomics c 17) := by
      simp only [State.semAddDone, hadds]
      exact if_pos ⟨hat, hwide, by rw [hrels]; rfl⟩
    have hdrains := drains_drainAtomics c 17 ((s.modMs c (fun m => { m with semAdds := r })).modIm c (fun im => im.semRelease a.sem a.n))
    obtain ⟨f, p, snap, -, hms⟩ := hdrains.ms
    obtain ⟨e, more, him⟩ := hdrains.im
    refine ⟨_, exec_boundaryComplete_of_semAdd hc hrels hhold hdone, ?_, ?_⟩
    · rw [hms, State.core_modIm, if_pos rfl, ms_modMs]
    · rw [him, State.core_modIm, if_pos rfl, State.core_modMs, if_pos rfl]
      exact semRelease_spec (s.core c).im a.sem a.n

/-- Settles O38: a boundary that nothing keeps from issuing has released and acquired as it issues, and completes at once or once what it waits for has come. -/
theorem boundariesArePublishedAndCompleted : Obligations.BoundariesArePublishedAndCompleted := by
  unfold Obligations.BoundariesArePublishedAndCompleted
  exact ⟨boundariesReleaseAndAcquire, boundariesComplete⟩

end Sys2Proof.Proofs
end

