-- ==== Sys2Proof/Proofs/Invalidation.lean ====
section
/-! PROOFS. Invalidations drop the context's translations everywhere and complete once the accesses translated before them are performed; `tlbsync` and
`efence` wait for what is left (R258, R259, R347). -/
namespace Sys2Proof.Machine

/-! ### Maps of which each value is changed -/

theorem mfind_map {α β : Type} (f : α → β) (m : Map α) (a : Nat) : mfind (m.map (fun p => (p.1, f p.2))) a = (mfind m a).map f := by
  induction m with
  | nil => rfl
  | cons p r ih =>
    obtain ⟨k, v⟩ := p
    rw [List.map_cons, mfind, mfind, ih]
    split <;> rfl

/-! ### What an invalidation drops -/

/-- A translation that an invalidation drops: of the context, and of the page where one is named. -/
def TlbEnt.dropped (e : TlbEnt) (ctx : Nat) (va : Option Word) : Prop := e.ctx = ctx ∧ ∀ v, va = some v → e.covers ctx v = true

theorem mem_dropTlb {l : List TlbEnt} {ctx : Nat} {va : Option Word} {e : TlbEnt} : e ∈ dropTlb l ctx va ↔ e ∈ l ∧ ¬e.dropped ctx va := by
  unfold dropTlb TlbEnt.dropped
  rw [List.mem_filter]
  refine and_congr_right (fun _ => ?_)
  cases va with
  | none => simp
  | some v =>
    simp only [Bool.not_eq_true', Option.some.injEq, forall_eq', not_and, Bool.not_eq_true]
    refine ⟨fun h _ => h, fun h => ?_⟩
    by_cases hctx : e.ctx = ctx
    · exact h hctx
    · simp [TlbEnt.covers, hctx]

/-- A core after an invalidation: its translations are dropped; a core that the module does not list has none. -/
theorem core_invalidate (s : State) (ctx : Nat) (va : Option Word) (c : Nat) :
    (s.invalidate ctx va).core c = (s.core c).dropped s.cyc ctx va ∨ (s.invalidate ctx va).core c = Core.init ∧ s.core c = Core.init := by
  have hfind : mfind (s.invalidate ctx va).cores c = (mfind s.cores c).map (fun co => co.dropped s.cyc ctx va) :=
    mfind_map (fun co : Core => co.dropped s.cyc ctx va) s.cores c
  rw [State.core, mget, hfind, State.core, mget]
  cases mfind s.cores c with
  | some co => exact .inl rfl
  | none => exact .inr ⟨rfl, rfl⟩

theorem tlb_invalidate (s : State) (ctx : Nat) (va : Option Word) (c : Nat) :
    ((s.invalidate ctx va).core c).ms.tlb = dropTlb (s.core c).ms.tlb ctx va := by
  obtain h | ⟨h, h'⟩ := core_invalidate s ctx va c
  · rw [h]; rfl
  · rw [h, h']; rfl

theorem tlbi_invalidate (s : State) (ctx : Nat) (va : Option Word) (c : Nat) : ((s.invalidate ctx va).core c).ms.tlbi = (s.core c).ms.tlbi := by
  obtain h | ⟨h, h'⟩ := core_invalidate s ctx va c
  · rw [h]; rfl
  · rw [h, h']

theorem not_dropped_of_mem_cores {s : State} {ctx : Nat} {va : Option Word} {p : Nat × Core} (hp : p ∈ (s.invalidate ctx va).cores) {e : TlbEnt}
    (he : e ∈ p.2.ms.tlb) : ¬e.dropped ctx va := by
  obtain ⟨q, -, rfl⟩ := List.mem_map.mp hp
  exact (mem_dropTlb.mp he).2

theorem not_dropped_of_mem_stlb {s : State} {ctx : Nat} {va : Option Word} {p : Nat × List TlbEnt} (hp : p ∈ (s.invalidate ctx va).stlb) {e : TlbEnt}
    (he : e ∈ p.2) : ¬e.dropped ctx va := by
  obtain ⟨q, -, rfl⟩ := List.mem_map.mp hp
  exact (mem_dropTlb.mp he).2

/-! ### tlbinv -/

/-- The invalidation that a `tlbinv` of the present group leaves to complete. -/
def State.invalidation (s : State) (va : Option Word) : TlbInv :=
  { at_ := s.cyc + 1 + (((s.invalidate s.me.ctx va).later 1).1 - (s.cyc + 1)) % 4095, olds := (s.invalidate s.me.ctx va).translated s.me.ctx, va := va,
    ctx := s.me.ctx }

/-- The state once a `tlbinv` of the present group has had its effect. -/
def State.invalidating (s : State) (va : Option Word) : State :=
  ((s.invalidate s.me.ctx va).later 1).2.modMs s.cur.core (fun m => { m with tlbi := m.tlbi ++ [s.invalidation va] })

theorem actTlbinv_full {s : State} (va : Option Word) (h : 8 ≤ s.me.ms.tlbi.length) : actTlbinv va s = .wait s 0xA 0 0 := if_pos h

theorem actTlbinv_done {s : State} (va : Option Word) (h : s.me.ms.tlbi.length < 8) : actTlbinv va s = .done (s.invalidating va) :=
  if_neg (Nat.not_le.mpr h)

theorem ms_invalidating (s : State) (va : Option Word) (c : Nat) : ((s.invalidating va).core c).ms =
    if c = s.cur.core then { ((s.invalidate s.me.ctx va).core c).ms with tlbi := ((s.invalidate s.me.ctx va).core c).ms.tlbi ++ [s.invalidation va] }
    else ((s.invalidate s.me.ctx va).core c).ms := by
  rw [State.invalidating, State.core_modMs]
  by_cases h : c = s.cur.core
  · subst h
    rw [if_pos rfl, if_pos rfl]
    rfl
  · rw [if_neg h, if_neg h]
    rfl

theorem tlb_invalidating (s : State) (va : Option Word) (c : Nat) : ((s.invalidating va).core c).ms.tlb = dropTlb (s.core c).ms.tlb s.me.ctx va := by
  rw [ms_invalidating, apply_ite MemSide.tlb, ite_self, tlb_invalidate]

theorem tlbi_invalidating (s : State) (va : Option Word) : (s.invalidating va).me.ms.tlbi = s.me.ms.tlbi ++ [s.invalidation va] := by
  rw [State.me, show (s.invalidating va).cur = s.cur from rfl, ms_invalidating, if_pos rfl, tlbi_invalidate]
  rfl

theorem not_dropped_invalidating {s : State} {va : Option Word} {p : Nat × Core} (hp : p ∈ (s.invalidating va).cores) {e : TlbEnt} (he : e ∈ p.2.ms.tlb) :
    ¬e.dropped s.me.ctx va := by
  obtain rfl | hp := mem_mset hp
  · have htlb : e ∈ ((s.invalidate s.me.ctx va).core s.cur.core).ms.tlb := he
    rw [tlb_invalidate] at htlb
    exact (mem_dropTlb.mp htlb).2
  · exact not_dropped_of_mem_cores hp he

theorem exec_tlbinv {s : State} {f : MgtF} {i : Instr} {va : Option Word}
    (h : (i = .tlbinv f ∧ va = some (s.rd f.a) ∧ s.Ready [f.a]) ∨ (i = .tlbinvAll f ∧ va = none ∧ s.Ready [])) :
    ∃ codes act, exec i s = issue s codes act ∧ s.Ready codes ∧ act s = actTlbinv va s := by
  obtain ⟨rfl, rfl, hready⟩ | ⟨rfl, rfl, hready⟩ := h
  · exact ⟨_, _, show _ = execTlbinv f s from rfl, hready, rfl⟩
  · exact ⟨_, _, show _ = execTlbinvAll f s from rfl, hready, rfl⟩

end Sys2Proof.Machine

namespace Sys2Proof.Proofs
open Sys2Proof.Machine

/-- Settles O2: an invalidation drops what it covers everywhere and stands with the accesses translated before it, which it waits for; `tlbsync` and `efence`
go on or wait as their conditions say. -/
theorem invalidationAndErrorFences : Obligations.InvalidationAndErrorFences := by
  unfold Obligations.InvalidationAndErrorFences
  intro s f c covered
  refine ⟨fun i va hi => ?_, fun x hc hx => ?_, fun hready => ?_⟩
  · obtain ⟨codes, act, hexec, hready, hact⟩ := exec_tlbinv hi
    refine ⟨fun hfull => State.waits_of_wait hexec hready (hact.trans (actTlbinv_full va hfull)), fun hroom => ?_⟩
    refine ⟨s.invalidating va, (s.invalidation va).at_, State.issues_of_done hexec hready (hact.trans (actTlbinv_done va hroom)), Nat.le_add_right _ _, ?_,
      tlbi_invalidating s va, fun p hp e he => not_dropped_invalidating hp he, fun p hp e he => not_dropped_of_mem_stlb hp he, fun c' e he hkeep => ?_⟩
    · have hmod := Nat.mod_lt (((s.invalidate s.me.ctx va).later 1).1 - (s.cyc + 1)) (show 0 < 4095 by decide)
      simp only [State.invalidation]
      omega
    · rw [tlb_invalidating]
      exact mem_dropTlb.mpr ⟨he, hkeep⟩
  · rw [show exec (.tlbinvComplete c) s = execTlbinvComplete c s from rfl, execTlbinvComplete, hx, coreEvent_next]
    exact ⟨hc, rfl⟩
  · have hsync : exec (.tlbsync f) s = issue s [] _ := show execTlbsync f s = _ from rfl
    have hfence : exec (.efence f) s = issue s [] _ := show execEfence f s = _ from rfl
    have ⟨_, hpend, _⟩ := hready
    refine ⟨fun htimed htlbi => ?_, fun h => ?_, fun htimed hgacc hrels hdom => ?_, fun h => ?_⟩
    · exact State.issues_of_done hsync hready (if_neg (by simp [htimed, htlbi]))
    · exact State.waits_of_wait hsync hready (if_pos h)
    · refine State.issues_of_done hfence hready ((if_neg (by simp [htimed])).trans (if_neg ?_))
      simpa [hpend, hrels, hdom] using hgacc
    · obtain htimed | h := h
      · exact State.waits_of_wait hfence hready (if_pos htimed)
      · by_cases htimed : s.me.timed = true
        · exact State.waits_of_wait hfence hready (if_pos htimed)
        · refine State.waits_of_wait hfence hready ((if_neg htimed).trans (if_pos ?_))
          simpa [hpend, or_assoc] using h

end Sys2Proof.Proofs
end

