-- ==== Sys2Proof/Proofs/Semaphores.lean ====
section
/-! PROOFS. Accesses of K that translate at once; semaphores of a core and of memory, and where they and the boundaries complete (R231, R234 to R243,
R251, R278). -/
namespace Sys2Proof.Machine

/-! ### Accesses that translate at once -/

theorem modMs_modMs (s : State) (c : Nat) (f g : MemSide → MemSide) : (s.modMs c f).modMs c g = s.modMs c (fun m => g (f m)) := by
  simp only [State.modMs, State.modCore_modCore]

theorem modMs_congr {s : State} {c : Nat} {f g : MemSide → MemSide} (h : f (s.core c).ms = g (s.core c).ms) : s.modMs c f = s.modMs c g := by
  simp only [State.modMs, State.modCore, h]

/-- A translation that is done has moved the core's translations, and nothing else. -/
theorem kTranslate_ok {c kind : Nat} {parts : List Word} {i : Nat} {s t : State} {es : List (Nat × TlbEnt)} (h : s.kTranslate c kind i parts = .ok t es) :
    t = s ∨ ∃ l, t = s.modMs c (fun m => { m with tlb := l }) := by
  induction parts generalizing i s t es with
  | nil =>
    simp only [State.kTranslate] at h
    cases h
    exact .inl rfl
  | cons va r ih =>
    simp only [State.kTranslate] at h
    split at h
    · cases h
    · split at h
      · next e _ =>
        split at h
        · split at h
          · next s2 ps hrest =>
            cases h
            obtain rfl | ⟨l, rfl⟩ := ih hrest
            · exact .inr ⟨_, modMs_congr rfl⟩
            · exact .inr ⟨l, by rw [modMs_modMs]⟩
          · next hne => exact absurd h (hne _ _)
        · cases h
      · cases h

/-- An access that translates at once leaves a state in which only its core's translations have moved, and what K stood behind is over. -/
theorem reaches_eq {s s1 : State} {kind n : Nat} {va : Word} {ps : List KPiece} (h : s.Reaches kind va n s1 ps) :
    ∃ l, s1 = s.modMs s.cur.core (fun m => { m with tlb := l, hold := none }) := by
  obtain ⟨s0, es, htr, rfl, -⟩ := h
  obtain rfl | ⟨l, rfl⟩ := kTranslate_ok htr
  · exact ⟨(s0.core s0.cur.core).ms.tlb, modMs_congr rfl⟩
  · exact ⟨l, modMs_modMs ..⟩

theorem kAccess_of_reaches {s s1 : State} {kind n : Nat} {va : Word} {ps : List KPiece} (h : s.Reaches kind va n s1 ps) (k : State → List KPiece → Act) :
    s.kAccess kind va n k = k s1 ps := by
  obtain ⟨s0, es, htr, rfl, rfl⟩ := h
  simp only [State.kAccess, htr]

section
variable {s s1 : State} {kind n : Nat} {va : Word} {ps : List KPiece}

theorem cur_of_reaches (h : s.Reaches kind va n s1 ps) : s1.cur = s.cur := by
  obtain ⟨l, rfl⟩ := reaches_eq h; rfl

theorem mem_of_reaches (h : s.Reaches kind va n s1 ps) : s1.mem = s.mem := by
  obtain ⟨l, rfl⟩ := reaches_eq h; rfl

theorem cyc_of_reaches (h : s.Reaches kind va n s1 ps) : s1.cyc = s.cyc := by
  obtain ⟨l, rfl⟩ := reaches_eq h; rfl

theorem me_of_reaches (h : s.Reaches kind va n s1 ps) : ∃ l, s1.me = { s.me with ms := { s.me.ms with tlb := l, hold := none } } := by
  obtain ⟨l, rfl⟩ := reaches_eq h
  exact ⟨l, by rw [State.me, State.core_modMs]; exact if_pos rfl⟩

theorem rd_of_reaches (h : s.Reaches kind va n s1 ps) (r : BitVec 5) : s1.rd r = s.rd r := by
  obtain ⟨l, hme⟩ := me_of_reaches h
  rw [State.rd, State.rd, hme, cur_of_reaches h]

theorem timed_of_reaches (h : s.Reaches kind va n s1 ps) : s1.me.timed = s.me.timed := by
  obtain ⟨l, hme⟩ := me_of_reaches h
  rw [hme]; rfl

theorem loadsOut_of_reaches (h : s.Reaches kind va n s1 ps) : s1.me.ms.loadsOut = s.me.ms.loadsOut := by
  obtain ⟨l, hme⟩ := me_of_reaches h
  rw [hme]; rfl

end

/-! ### Semaphores of a core -/

/-- The state in which a semaphore instruction has taken its count and stands behind its acquire. -/
def State.semTaken (s : State) (f : MgtF) : State := (s.semTake f.idx.toNat f.n.toNat).semAcquire (scopeOf f)

theorem core_semTake (s : State) (k n : Nat) : (s.semTake k n).core s.cur.core =
    { s.me with im := { s.me.im with sems := mput 0 s.me.im.sems k (mget 0 s.me.im.sems k - n) } } := by
  rw [State.semTake, State.core_modIm, if_pos rfl]
  rfl

theorem ordered_semTake (s : State) (k n : Nat) : (s.semTake k n).ordered s.cur.core = s.ordered s.cur.core := by
  rw [State.ordered, core_semTake]
  rfl

theorem im_modMs (s : State) (c d : Nat) (f : MemSide → MemSide) : ((s.modMs c f).core d).im = (s.core d).im := by
  rw [State.core_modMs]
  split
  · next h => rw [h]
  · rfl

theorem im_semAcquire (s : State) (sc : Nat) : (s.semAcquire sc).me.im = s.me.im := by
  unfold State.semAcquire State.me
  split
  · exact im_modMs ..
  · exact im_modMs ..

theorem sems_semTaken (s : State) (f : MgtF) (j : Nat) : mget 0 (s.semTaken f).me.im.sems j =
    if j = f.idx.toNat then mget 0 s.me.im.sems j - f.n.toNat else mget 0 s.me.im.sems j := by
  rw [State.semTaken, im_semAcquire, State.me, show (s.semTake f.idx.toNat f.n.toNat).cur = s.cur from rfl, core_semTake, mget_mput]
  split
  · next h => rw [h]
  · rfl

theorem cur_semAcquire (s : State) (sc : Nat) : (s.semAcquire sc).cur = s.cur := by
  unfold State.semAcquire
  split <;> rfl

/-- What K stands behind after a semaphore instruction: an acquire on the next cycle, or a boundary. -/
theorem hold_semAcquire (s : State) (sc : Nat) :
    (sc ≠ 4 → s.ordered s.cur.core = true → (s.semAcquire sc).me.ms.hold = some (.acqAt sc (s.cyc + 1))) ∧
    ((sc = 4 ∨ s.ordered s.cur.core = false) → ∃ at_, s.cyc ≤ at_ ∧ (s.semAcquire sc).me.ms.hold = some (.boundary none (some sc) at_)) := by
  rw [State.me, cur_semAcquire]
  constructor
  · intro hsc hord
    rw [State.semAcquire, if_neg (by simp [hsc, hord]), ms_modMs]
  · intro h
    rw [State.semAcquire, if_pos h]
    dsimp only
    rw [ms_modMs]
    exact ⟨_, later_le s 0, rfl⟩

section
variable {s : State} {f : MgtF}

theorem actSacq_timed (htimed : s.me.timed = true) (hsc : scopeOf f = 4) : actSacq f s = .wait s 0xA 0 0 := if_pos ⟨htimed, hsc⟩

theorem actSacq_few (h : s.me.timed = false ∨ scopeOf f ≠ 4) (hfew : mget 0 s.me.im.sems f.idx.toNat < f.n.toNat) :
    actSacq f s = .wait s 5 f.idx.toNat 0 := by
  refine (if_neg ?_).trans (if_pos hfew)
  rintro ⟨htimed, hsc⟩
  obtain h | h := h
  · exact absurd htimed (by simp [h])
  · exact h hsc

theorem actSacq_behindAtomics (htimed : s.me.timed = true) (hsc : scopeOf f ≠ 4) (hmany : f.n.toNat ≤ mget 0 s.me.im.sems f.idx.toNat)
    (hord : s.ordered s.cur.core = false) : actSacq f s = .wait s 0xA 0 0 :=
  (if_neg (fun h => hsc h.2)).trans ((if_neg (Nat.not_lt.mpr hmany)).trans (if_pos ⟨htimed, hord⟩))

theorem actSacq_done (h : s.me.timed = false ∨ (scopeOf f ≠ 4 ∧ s.ordered s.cur.core = true)) (hmany : f.n.toNat ≤ mget 0 s.me.im.sems f.idx.toNat) :
    actSacq f s = .done (s.semTaken f) := by
  refine (if_neg ?_).trans ((if_neg (Nat.not_lt.mpr hmany)).trans (if_neg ?_))
  · rintro ⟨htimed, hsc⟩
    obtain h | ⟨h, -⟩ := h
    · simp [htimed] at h
    · exact h hsc
  · rintro ⟨htimed, hord⟩
    obtain h | ⟨-, h⟩ := h
    · simp [htimed] at h
    · simp [hord] at h

theorem actSacqTry_few (hfew : mget 0 s.me.im.sems f.idx.toNat < f.n.toNat) : actSacqTry f s = .done (s.wrPred 1 f.pa false) := if_pos hfew

theorem actSacqTry_wait (htimed : s.me.timed = true) (h : scopeOf f = 4 ∨ s.ordered s.cur.core = false)
    (hmany : f.n.toNat ≤ mget 0 s.me.im.sems f.idx.toNat) : actSacqTry f s = .wait s 0xA 0 0 :=
  (if_neg (Nat.not_lt.mpr hmany)).trans (if_pos ⟨htimed, h⟩)

theorem actSacqTry_done (h : s.me.timed = false ∨ (scopeOf f ≠ 4 ∧ s.ordered s.cur.core = true)) (hmany : f.n.toNat ≤ mget 0 s.me.im.sems f.idx.toNat) :
    actSacqTry f s = .done ((s.semTaken f).wrPred 1 f.pa true) := by
  refine (if_neg (Nat.not_lt.mpr hmany)).trans (if_neg ?_)
  rintro ⟨htimed, hsc⟩
  obtain h | ⟨hne, hord⟩ := h
  · simp [htimed] at h
  · obtain h | h := hsc
    · exact hne h
    · simp [hord] at h

end

/-- The state in which an `srel` of the present group has released, or its release stands behind atomics, and its increment stands behind that. -/
def State.semReleased (s : State) (f : MgtF) : State :=
  ((s.releaseNext s.cur.core (scopeOf f)).later 1).2.modMs s.cur.core (fun m =>
    { m with semAdds := m.semAdds ++ [{ sem := f.idx.toNat, n := f.n.toNat, at_ := ((s.releaseNext s.cur.core (scopeOf f)).later 1).1,
                                        wide := scopeOf f == 4, ser := s.serial }] })

theorem ms_semReleased (s : State) (f : MgtF) : ((s.semReleased f).core s.cur.core).ms =
    { ((s.releaseNext s.cur.core (scopeOf f)).core s.cur.core).ms with semAdds := ((s.releaseNext s.cur.core (scopeOf f)).core s.cur.core).ms.semAdds ++
        [{ sem := f.idx.toNat, n := f.n.toNat, at_ := ((s.releaseNext s.cur.core (scopeOf f)).later 1).1, wide := scopeOf f == 4, ser := s.serial }] } := by
  rw [State.semReleased, ms_modMs]
  rfl

theorem srel_issues {s : State} {f : MgtF} (hready : s.Ready []) : s.Issues (.srel f) (s.semReleased f) :=
  State.issues_of_done (show _ = execSrel f s from rfl) hready rfl

/-! ### Semaphores of memory -/

theorem homeRead_home {s : State} {va : Word} {pa : Nat} (scope : Nat) (hkind : s.paKind pa = .home) (hext : s.extentBlocked pa 8 false = false)
    (hbad : s.homeBad s.cur.core 0 pa 8 = false) : s.homeRead va pa scope = .value (s.homeNat pa 8) s := by
  simp [State.homeRead, hkind, hext, hbad]

section
variable {s : State} {f : MgtF}

theorem actSacqM_predicate (h : f.pa ≠ 0) : actSacqM f s = s.opTrap 0xB := if_pos h

theorem actSacqM_misaligned (hpa : f.pa = 0) (h : (s.rd f.a).toNat % 8 ≠ 0) : actSacqM f s = memTrap 0x40 (s.rd f.a).toNat (memStatus 0 0 1 0 0) :=
  (if_neg (not_not_intro hpa)).trans (if_pos h)

theorem actSacqM_timed (hpa : f.pa = 0) (h : (s.rd f.a).toNat % 8 = 0) (htimed : s.me.timed = true) : actSacqM f s = .wait s 0xA 0 0 :=
  (if_neg (not_not_intro hpa)).trans ((if_neg (not_not_intro h)).trans (if_pos htimed))

/-- A `sacq.m` whose word is read at its home: it waits for the count, or for K's earlier atomics, or goes on with its acquire. -/
theorem actSacqM_home {s1 : State} {p : KPiece} (hpa : f.pa = 0) (h : (s.rd f.a).toNat % 8 = 0) (htimed : s.me.timed = false)
    (hreach : s.Reaches 2 (s.rd f.a) 8 s1 [p]) (hkind : s1.paKind p.pa = .home) (hext : s1.extentBlocked p.pa 8 false = false)
    (hbad : s1.homeBad s.cur.core 0 p.pa 8 = false) : actSacqM f s =
      if s1.homeNat p.pa 8 < (s.rd f.b).toNat then .wait s1 5 0 0
      else if s1.ordered s.cur.core = false then .wait s1 0xA 0 0
      else if scopeOf f = 4 then .done (s1.semAcquire 4)
      else .done (s1.acquire s.cur.core (scopeOf f)) := by
  have hread := homeRead_home (va := s.rd f.a) (scopeOf f) hkind hext (by rw [cur_of_reaches hreach]; exact hbad)
  refine (if_neg (not_not_intro hpa)).trans ((if_neg (not_not_intro h)).trans ((if_neg (by simp [htimed])).trans ?_))
  rw [kAccess_of_reaches hreach]
  simp only [List.map_cons, List.map_nil, List.headD_cons, hread, rd_of_reaches hreach, cur_of_reaches hreach]

end

/-! ### Atomics that wait for their answer -/

/-- An access of K put among those that have not returned. -/
theorem ms_pushAcc (s : State) (c : Nat) (g : GAcc) : ((s.pushAcc c g).core c).ms =
    { (s.core c).ms with gacc := (s.core c).ms.gacc ++ [{ g with old := (s.core c).staleAcc }] } := by
  rw [State.pushAcc, ms_modMs]

theorem space_of_home {s : State} {pa : Nat} (h : s.paKind pa = .home) : pa < 0xF000000000000 := by
  unfold State.paKind at h
  split at h
  · cases h
  · split at h
    · next hmem =>
      simp only [inHbm, inCap, Bool.or_eq_true, Bool.and_eq_true, decide_eq_true_eq] at hmem
      omega
    · split at h
      · dsimp only at h
        split at h <;> cases h
      · cases h

/-- A home address stays one where the map is the same. -/
theorem paKind_release (s : State) (c sc pa : Nat) : (s.release c sc).paKind pa = s.paKind pa := by
  obtain ⟨u, hpub, hu⟩ := release_eq s c sc
  rw [hu, ← hpub.map pa]
  rfl

end Sys2Proof.Machine
end

