-- ==== Sys2Proof/Proofs/Atomics.lean ====
section
/-! PROOFS. Atomics at a home of this module: how one is issued, and what its performing leaves at the home (R235, R241 to R243). -/
namespace Sys2Proof.Machine

/-! ### Bytes at their homes -/

theorem getElem_upTo {a n i : Nat} (h : i < (upTo a n).length) : (upTo a n)[i] = a + i := by
  induction n generalizing a i with
  | zero => simp [upTo] at h
  | succ n ih =>
    cases i with
    | zero => rfl
    | succ i =>
      have hi : i < (upTo (a + 1) n).length := by simpa [upTo] using h
      exact (ih hi).trans (by omega)

theorem leNat_lt (l : List Byte) : leNat l < 256 ^ l.length := by
  induction l with
  | nil => exact Nat.one_pos
  | cons b r ih =>
    have hb : b.toNat < 256 := b.isLt
    rw [leNat, List.length_cons, Nat.pow_succ]
    omega

theorem leNat_leBytes (n v : Nat) : leNat (leBytes n v) = v % 256 ^ n := by
  induction n generalizing v with
  | zero => rw [Nat.pow_zero, Nat.mod_one]; rfl
  | succ n ih =>
    have hmod : v % (256 * 256 ^ n) = v % 256 + 256 * (v / 256 % 256 ^ n) := Nat.mod_mul
    rw [leBytes, leNat, ih, BitVec.toNat_ofNat, show 256 ^ (n + 1) = 256 * 256 ^ n from Nat.pow_succ', hmod]

theorem homeNat_lt (s : State) (pa n : Nat) : s.homeNat pa n < 256 ^ n := by
  have h := leNat_lt (s.homeBytes pa n)
  rwa [State.homeBytes, List.length_map, length_upTo] at h

theorem homeBytes_homeWrite (s : State) (pa : Nat) (bs : List Byte) : (s.homeWrite pa bs).homeBytes pa bs.length = bs := by
  refine List.ext_getElem (by simp [State.homeBytes]) (fun i hi hi' => ?_)
  simp only [State.homeBytes, List.getElem_map, getElem_upTo, State.homeByte_homeWrite]
  rw [if_pos ⟨by omega, by omega⟩, Nat.add_sub_cancel_left, List.getD_eq_getElem _ _ hi']

theorem homeNat_homeWrite (s : State) (pa n : Nat) {v : Nat} (h : v < 256 ^ n) : (s.homeWrite pa (leBytes n v)).homeNat pa n = v := by
  have hbytes := homeBytes_homeWrite s pa (leBytes n v)
  rw [length_leBytes] at hbytes
  rw [State.homeNat, hbytes, leNat_leBytes, Nat.mod_eq_of_lt h]

/-! ### What publication reads and writes of homes -/

/-- What a publication at module scope reads, and what it writes, of homes. -/
structure HomeView where
  mem : List Host.Cell
  blog : List PWrite
  bad : List Nat
  linkErr : List Nat
  hrcfg : Word
  members : List Nat
  modid : Nat

/-- The homes of a state. -/
def State.homeView (s : State) : HomeView :=
  { mem := s.mem, blog := s.blog, bad := s.bad, linkErr := s.linkErr, hrcfg := s.hrcfg, members := s.dom.members, modid := s.dom.modid }

/-- Homes after a write. -/
def HomeView.write (v : HomeView) (pa : Nat) (bs : List Byte) : HomeView :=
  { v with mem := memPut v.mem pa bs, bad := v.bad.filter (fun a => !(decide (pa ≤ a) && decide (a < pa + bs.length))),
           blog := v.blog.filter (fun e => !(decide (pa ≤ e.pa) && decide (e.pa < pa + bs.length))) }

/-- Homes after an error on the link has been met. -/
def HomeView.met (v : HomeView) (c pa cause : Nat) : HomeView :=
  { v with linkErr := if cause = 0x83 ∧ homeDie pa ≠ dieOf c then v.linkErr.filter (fun x => decide (x ≠ c)) else v.linkErr }

theorem homeView_observeDie (s : State) (d lo n : Nat) : (s.observeDie d lo n).homeView = s.homeView := by
  unfold State.observeDie; split <;> rfl

theorem homeView_observeArrays (s : State) (lo n : Nat) : (s.observeArrays lo n).homeView = s.homeView := by
  unfold State.observeArrays; split <;> rfl

theorem homeView_observe (s : State) (lo n : Nat) : (s.observe lo n).homeView = s.homeView := by
  rw [State.observe, homeView_observeArrays, homeView_observeDie, homeView_observeDie]

theorem homeView_homeWrite (s : State) (pa : Nat) (bs : List Byte) : (s.homeWrite pa bs).homeView = s.homeView.write pa bs := by
  rw [State.homeWrite, homeView_observe]
  rfl

theorem homeView_domainSend (s : State) (target op aop u size scope ctx len rid pa : Nat) (val cv : Word) (data : List Byte) (core acc : Nat) :
    (s.domainSend target op aop u size scope ctx len rid pa val cv data core acc).homeView = s.homeView := by
  unfold State.domainSend State.send
  dsimp only [Msg.recipient]
  split <;> rfl

theorem homeView_tagReq (s : State) (va : Word) (origin : Nat) : (s.tagReq va origin).homeView = s.homeView := by
  unfold State.tagReq
  split <;> rfl

theorem homeView_linkMet (s : State) (c pa cause : Nat) : (s.linkMet c pa cause).homeView = s.homeView.met c pa cause := by
  unfold State.linkMet HomeView.met
  split <;> rfl

theorem homeView_setPending (s : State) (c ctx : Nat) (e : PErr) : (s.setPending c ctx e).homeView = s.homeView := by
  unfold State.setPending
  split <;> rfl

theorem homeView_accessError (s : State) (c pa : Nat) (va : Word) (ctx cause kind origin : Nat) :
    (s.accessError c pa va ctx cause kind origin).homeView = s.homeView.met c pa cause := by
  rw [State.accessError, homeView_setPending, ← homeView_linkMet]
  rfl

theorem paKind_congr {s t : State} (h : s.homeView = t.homeView) (pa : Nat) : s.paKind pa = t.paKind pa := by
  have hhr : s.hrcfg = t.hrcfg := congrArg HomeView.hrcfg h
  have hmembers : s.dom.members = t.dom.members := congrArg HomeView.members h
  have hmodid : s.dom.modid = t.dom.modid := congrArg HomeView.modid h
  simp only [State.paKind, State.hr, hhr, hmembers, hmodid]

theorem homeBad_congr {s t : State} (h : s.homeView = t.homeView) (c k pa n : Nat) : s.homeBad c k pa n = t.homeBad c k pa n := by
  have hbad : s.bad = t.bad := congrArg HomeView.bad h
  have hlink : s.linkErr = t.linkErr := congrArg HomeView.linkErr h
  simp only [State.homeBad, hbad, hlink]

theorem homeByte_congr {s t : State} (h : s.homeView = t.homeView) (pa : Nat) : s.homeByte pa = t.homeByte pa := by
  have hmem : s.mem = t.mem := congrArg HomeView.mem h
  have hblog : s.blog = t.blog := congrArg HomeView.blog h
  simp only [State.homeByte, hmem, hblog]

theorem homeNat_congr {s t : State} (h : s.homeView = t.homeView) (pa n : Nat) : s.homeNat pa n = t.homeNat pa n := by
  simp only [State.homeNat, State.homeBytes, funext (homeByte_congr h)]

/-- Publications at module scope of states with the same homes leave the same homes. -/
theorem homeView_publishSome {s t : State} (h : s.homeView = t.homeView) (n : Nat) (ws : List PWrite) :
    (s.publishSome 3 n ws).homeView = (t.publishSome 3 n ws).homeView := by
  induction n generalizing s t ws with
  | zero => simpa only [State.publishSome] using h
  | succ n ih =>
    cases ws with
    | nil => simpa only [State.publishSome] using h
    | cons w r =>
      simp only [State.publishSome, paKind_congr h, homeBad_congr h]
      cases hkind : t.paKind w.pa with
      | window m off =>
        refine ih ?_ _
        rw [homeView_tagReq, homeView_tagReq, homeView_domainSend, homeView_domainSend, h]
      | refused cause =>
        refine ih ?_ _
        simp only [State.publish1, paKind_congr h, hkind, homeView_accessError, h]
      | home =>
        dsimp only
        split
        · refine ih ?_ _
          rw [homeView_accessError, homeView_accessError, h]
        · refine ih ?_ _
          simp only [State.publish1, paKind_congr h, hkind, Nat.le_refl, if_true, homeView_homeWrite, h]

theorem homeView_publishAll {s t : State} (h : s.homeView = t.homeView) (ws : List PWrite) :
    (s.publishAll 3 ws).homeView = (t.publishAll 3 ws).homeView := by
  unfold State.publishAll
  split
  · exact h
  · exact homeView_publishSome h _ _

theorem homeView_publishHits {s t : State} (h : s.homeView = t.homeView) {c : Nat} (hpend : (s.core c).ms.pend = (t.core c).ms.pend) (pa nb id : Nat) :
    (s.publishHits c pa nb id).homeView = (t.publishHits c pa nb id).homeView := by
  have hall := homeView_publishAll h ((t.core c).ms.pend.filter (fun w => w.within pa nb && decide (w.ser < id)))
  rw [State.publishHits, State.publishHits, hpend]
  exact hall

/-! ### An atomic that is performed -/

theorem drainAtomics_of_none {s : State} {c : Nat} (n : Nat) (h : ∀ g ∈ (s.core c).ms.gacc, g.unperformed = false) : s.drainAtomics c n = s := by
  cases n with
  | zero => rfl
  | succ n =>
    have hfind : (s.core c).ms.gacc.find? (fun g => g.unperformed) = none := List.find?_eq_none.mpr (fun g hg => by simp [h g hg])
    simp only [State.drainAtomics, hfind]

/-- The access once it has been performed with this old value. -/
def GAcc.performed (g : GAcc) (old at_ : Nat) : GAcc := { g with todo := none, raw := old, at_ := at_ }

/-- An atomic of a core performed at its home: the core's earlier writes to its bytes are published, the old value is read and the new one stands. -/
def State.performAtomic (s : State) (c : Nat) (g : GAcc) (aop u : Nat) (v cv : Word) : State :=
  let r := (s.publishHits c g.pa g.nb g.id).atomicPerform c g.pa g.nb (fun old => atomicNew aop u (8 * g.nb) old v.toNat cv.toNat)
  r.2.modAcc c g.id (fun x => x.performed r.1 (Nat.max x.at_ (s.cyc + 1)))

theorem ms_publishHits (s : State) (c pa nb id : Nat) : ((s.publishHits c pa nb id).core c).ms =
    { (s.core c).ms with pend := (s.core c).ms.pend.filter (fun w => !(w.within pa nb && decide (w.ser < id))) } := by
  obtain ⟨u, hpub, hu⟩ := publishHits_eq s c pa nb id
  rw [hu, ms_modMs, hpub.cores.ms]

theorem ms_atomicPerform (s : State) (c pa nb : Nat) (f : Nat → Option Nat) :
    ∃ snap, ((s.atomicPerform c pa nb f).2.core c).ms = { (s.core c).ms with snap := snap } := by
  unfold State.atomicPerform
  dsimp only
  split
  · exact ⟨_, by rw [ms_modMs, (homeWrite_publishes ..).cores.ms]⟩
  · exact ⟨_, by rw [ms_modMs]⟩

/-- The accesses of a core of which one has been performed. -/
theorem gacc_performAtomic (s : State) (c : Nat) (g : GAcc) (aop u : Nat) (v cv : Word) : ∃ old,
    old = (s.publishHits c g.pa g.nb g.id).homeNat g.pa g.nb ∧ ((s.performAtomic c g aop u v cv).core c).ms.gacc =
      (s.core c).ms.gacc.map (fun x => if x.id = g.id then x.performed old (Nat.max x.at_ (s.cyc + 1)) else x) := by
  obtain ⟨snap, hms⟩ := ms_atomicPerform (s.publishHits c g.pa g.nb g.id) c g.pa g.nb (fun old => atomicNew aop u (8 * g.nb) old v.toNat cv.toNat)
  refine ⟨_, rfl, ?_⟩
  rw [State.performAtomic, State.modAcc, ms_modMs, hms, ms_publishHits]
  rfl

theorem unperformed_performed {g : GAcc} {old at_ : Nat} (h : g.unperformed = false) : (g.performed old at_).unperformed = false := by
  simp only [GAcc.unperformed, GAcc.performed, Bool.and_eq_false_iff, Bool.or_eq_false_iff] at h ⊢
  exact h.imp_right (fun h => ⟨rfl, h.2⟩)

/-- The only atomic that waits is performed, where nothing holds it back. -/
theorem drainAtomics_one {s : State} {c : Nat} {g : GAcc} {aop u : Nat} {v cv : Word} (n : Nat) {gs : List GAcc}
    (hgacc : (s.core c).ms.gacc = gs ++ [g]) (hgs : ∀ x ∈ gs, x.unperformed = false) (hkind : g.kind = 2) (htodo : g.todo = some (aop, u, v, cv))
    (hwant : g.want = []) (hrel : s.releaseAhead c g.id = false) (hpa : s.paKind g.pa = .home) (hext : s.extentBlocked g.pa g.nb true = false)
    (hbad : s.homeBad c 2 g.pa g.nb = false) : s.drainAtomics c (n + 1) = s.performAtomic c g aop u v cv := by
  have hfind : (s.core c).ms.gacc.find? (fun g => g.unperformed) = some g := by
    rw [hgacc, List.find?_append, List.find?_eq_none.mpr (fun x hx => by simp [hgs x hx])]
    simp [GAcc.unperformed, hkind, htodo]
  have hdone : s.drainAtomics c (n + 1) = (s.performAtomic c g aop u v cv).drainAtomics c n := by
    rw [State.drainAtomics]
    simp only [hfind, htodo, hrel, hpa, hext, hbad, Bool.false_eq_true, if_false]
    rfl
  rw [hdone]
  refine drainAtomics_of_none n (fun x hx => ?_)
  obtain ⟨old, -, hgaccs⟩ := gacc_performAtomic s c g aop u v cv
  rw [hgaccs, hgacc] at hx
  obtain ⟨y, hy, rfl⟩ := List.mem_map.mp hx
  have hwaits : y.unperformed = false ∨ y = g := by
    obtain hy | hy := List.mem_append.mp hy
    · exact .inl (hgs y hy)
    · exact .inr (List.mem_singleton.mp hy)
  by_cases hid : y.id = g.id
  · rw [if_pos hid]
    obtain hy | rfl := hwaits
    · exact unperformed_performed hy
    · simp [GAcc.unperformed, GAcc.performed, hwant]
  · rw [if_neg hid]
    obtain hy | rfl := hwaits
    · exact hy
    · exact absurd rfl hid

/-! ### An atomic that issues -/

/-- A core's atomic of these fields at a home, as it is issued: its number is the next of the module, and it waits to be performed. -/
def State.homeAtomic (s : State) (va : Word) (nb aop u : Nat) (sx : BitVec 1) (v cv : Word) (dst : Option (Bool × Nat)) (scope pa : Nat) : GAcc :=
  { id := s.serial, kind := 2, dst := dst, raw := 0, nb := nb, sx := sx, va := va, pa := pa, at_ := (s.later 1).1, ctx := s.me.ctx, err := none,
    origin := s.mySeq.index, want := [], todo := some (aop, u, v, cv), issue := s.t, cached := false, late := [], scope := scope }

/-- The core's stash entry of the block goes, and the access stands among those that have not returned. -/
def State.queueAtomic (s : State) (c : Nat) (va : Word) (g : GAcc) : State :=
  { ((s.modCore c (fun co => co.stashDrop va)).later 1).2 with serial := s.serial + 1 }.pushAcc c g

/-- K stands behind the answer of its atomic, where it asks for a release or an acquire. -/
def State.behindAtomic (s : State) (c id : Nat) (wait : Bool) (acq : Option Nat) : State :=
  if wait then s.modMs c (fun m => { m with hold := some (.response id acq) }) else s

/-- An atomic at a home, with room and nothing to wait for, releases where it asks for that, and is then queued behind the core's others, which are
performed as far as they can be. -/
theorem actAtomicAt_home {s s1 : State} {va v cv : Word} {nb aop u scope : Nat} {sx : BitVec 1} {dst : Option (Bool × Nat)} {rel acq : Option Nat} {p : KPiece}
    (halign : va.toNat % nb = 0) (hreach : s.Reaches 2 va nb s1 [p]) (hkind : s1.paKind p.pa = .home)
    (htimed : s.me.timed = false ∨ (rel = none ∧ acq = none)) (hroom : s.me.ms.loadsOut < 16)
    (hrel : ∀ sc, rel = some sc → sc ≠ 4 ∧ s1.ordered s.cur.core = true) :
    let g := { s1.homeAtomic va nb aop u sx v cv dst scope p.pa with
      id := (s1.boundaryRelease rel).serial, at_ := ((s1.boundaryRelease rel).later 1).1 }
    actAtomicAt va nb aop u sx v cv dst scope rel acq s =
      .done ((((s1.boundaryRelease rel).queueAtomic s.cur.core va g).drainAtomics s.cur.core 17).behindAtomic s.cur.core g.id
        (rel.isSome || acq.isSome) acq) := by
  intro g
  have hspace : decide (0xF000000000000 ≤ p.pa) = false := decide_eq_false (Nat.not_le.mpr (space_of_home hkind))
  have hwait : ¬(s1.me.timed = true ∧ (rel.isSome = true ∨ acq.isSome = true)) := by
    rw [timed_of_reaches hreach]
    obtain h | ⟨rfl, rfl⟩ := htimed
    · simp [h]
    · simp
  have hfull : ¬(16 ≤ s1.me.ms.loadsOut ∨ rel.isSome = true ∧ s1.ordered s.cur.core = false) := by
    rw [loadsOut_of_reaches hreach]
    rintro (h | ⟨h, hord⟩)
    · omega
    · obtain ⟨sc, hsc⟩ := Option.isSome_iff_exists.mp h
      simp [(hrel sc hsc).2] at hord
  have hdomain : rel ≠ some 4 := fun h => (hrel 4 h).1 rfl
  unfold actAtomicAt
  rw [if_neg (not_not_intro halign), kAccess_of_reaches hreach]
  cases rel with
  | none =>
    have hhome : ((s1.modCore s.cur.core (fun co => co.stashDrop va)).later 1).2.paKind p.pa = .home := hkind
    simp only [List.map_cons, List.map_nil, List.headD_cons, hspace, Bool.false_eq_true, if_false, hwait, hfull, hdomain, false_and, hhome]
    cases acq <;> rfl
  | some sc =>
    have hhome : (((s1.release s.cur.core sc).modCore s.cur.core (fun co => co.stashDrop va)).later 1).2.paKind p.pa = .home :=
      (paKind_release s1 s.cur.core sc p.pa).trans hkind
    simp only [List.map_cons, List.map_nil, List.headD_cons, hspace, Bool.false_eq_true, if_false, hwait, hfull, hdomain, false_and, hhome]
    simp only [g, State.boundaryRelease, cur_of_reaches hreach]
    cases acq <;> rfl

/-! ### What an atomic that issues leaves -/

theorem ms_stashDrop (co : Core) (va : Word) : (co.stashDrop va).ms = co.ms := by
  unfold Core.stashDrop
  split <;> rfl

/-- The core's side of memory once an atomic stands among its accesses. -/
theorem ms_queueAtomic (s : State) (c : Nat) (va : Word) (g : GAcc) : ∃ old, ((s.queueAtomic c va g).core c).ms =
    { (s.core c).ms with gacc := (s.core c).ms.gacc ++ [{ g with old := old }] } := by
  have hcore : ({ ((s.modCore c (fun co => co.stashDrop va)).later 1).2 with serial := s.serial + 1 } : State).core c = (s.core c).stashDrop va :=
    (State.core_modCore s c c (fun co => co.stashDrop va)).trans (if_pos rfl)
  exact ⟨((s.core c).stashDrop va).staleAcc, by rw [State.queueAtomic, ms_pushAcc, hcore, ms_stashDrop]⟩

/-- What the release of an atomic leaves of what the atomic is checked by. -/
theorem boundaryRelease_keeps (s : State) (rel : Option Nat) : ((s.boundaryRelease rel).core s.cur.core).ms.gacc = (s.core s.cur.core).ms.gacc ∧
    (∀ pa, (s.boundaryRelease rel).paKind pa = s.paKind pa) ∧ (∀ pa n w, (s.boundaryRelease rel).extentBlocked pa n w = s.extentBlocked pa n w) ∧
    ∀ c k pa n, s.homeBad c k pa n = false → (s.boundaryRelease rel).homeBad c k pa n = false := by
  cases rel with
  | none => exact ⟨rfl, fun _ => rfl, fun _ _ _ => rfl, fun _ _ _ _ h => h⟩
  | some sc =>
    obtain ⟨u, hpub, hu⟩ := release_eq s s.cur.core sc
    simp only [State.boundaryRelease, hu]
    exact ⟨by rw [ms_modMs, hpub.cores.ms], hpub.map, hpub.held none, hpub.good⟩

/-- What an atomic does at its home: the value it gives, and no other byte. -/
theorem atomicPerform_home (s : State) (c pa nb : Nat) (f : Nat → Option Nat) (hf : ∀ v, f (s.homeNat pa nb) = some v → v < 256 ^ nb) :
    (s.atomicPerform c pa nb f).2.homeNat pa nb = (f (s.homeNat pa nb)).getD (s.homeNat pa nb) ∧
    ∀ x, (x < pa ∨ pa + nb ≤ x) → (s.atomicPerform c pa nb f).2.homeByte x = s.homeByte x := by
  unfold State.atomicPerform
  dsimp only
  cases hv : f (s.homeNat pa nb) with
  | none => exact ⟨rfl, fun _ _ => rfl⟩
  | some v =>
    refine ⟨homeNat_homeWrite s pa nb (hf v hv), fun x hx => (State.homeByte_homeWrite s pa _ x).trans (if_neg ?_)⟩
    rw [length_leBytes]
    omega

theorem gacc_behindAtomic (s : State) (c id : Nat) (wait : Bool) (acq : Option Nat) :
    ((s.behindAtomic c id wait acq).core c).ms.gacc = (s.core c).ms.gacc := by
  unfold State.behindAtomic
  split
  · rw [ms_modMs]
  · rfl

theorem homeView_behindAtomic (s : State) (c id : Nat) (wait : Bool) (acq : Option Nat) : (s.behindAtomic c id wait acq).homeView = s.homeView := by
  unfold State.behindAtomic
  split <;> rfl

/-- An atomic that issues with nothing in its way is performed at once (R242): its access has the old value, the new one stands at the home, and no
other byte has changed there since the core's earlier writes to it were published. -/
theorem atomicAt_performs {s s1 : State} {va v cv : Word} {nb aop u scope : Nat} {sx : BitVec 1} {dst : Option (Bool × Nat)} {rel acq : Option Nat} {p : KPiece}
    (halign : va.toNat % nb = 0) (hreach : s.Reaches 2 va nb s1 [p]) (hkind : s1.paKind p.pa = .home)
    (htimed : s.me.timed = false ∨ (rel = none ∧ acq = none)) (hroom : s.me.ms.loadsOut < 16)
    (hrel : ∀ sc, rel = some sc → sc ≠ 4 ∧ s1.ordered s.cur.core = true) (hgacc : ∀ g ∈ s.me.ms.gacc, g.unperformed = false)
    (hext : s1.extentBlocked p.pa nb true = false) (hbad : s1.homeBad s.cur.core 2 p.pa nb = false)
    (hahead : (s1.boundaryRelease rel).releaseAhead s.cur.core (s1.boundaryRelease rel).serial = false)
    (hnew : ∀ x old, old < 256 ^ nb → atomicNew aop u (8 * nb) old v.toNat cv.toNat = some x → x < 256 ^ nb) :
    let s2 := (s1.boundaryRelease rel).publishHits s.cur.core p.pa nb (s1.boundaryRelease rel).serial
    let old := s2.homeNat p.pa nb
    ∃ t g, actAtomicAt va nb aop u sx v cv dst scope rel acq s = .done t ∧ g ∈ (t.core s.cur.core).ms.gacc ∧ g.kind = 2 ∧ g.pa = p.pa ∧ g.nb = nb ∧
      g.todo = none ∧ g.raw = old ∧ g.err = none ∧ g.dst = dst ∧ t.homeNat p.pa nb = (atomicNew aop u (8 * nb) old v.toNat cv.toNat).getD old ∧
      (∀ x, (x < p.pa ∨ p.pa + nb ≤ x) → t.homeByte x = s2.homeByte x) ∧
      ((rel.isSome || acq.isSome) = true → (t.core s.cur.core).ms.hold = some (.response g.id acq)) := by
  intro s2 old
  have hdone := actAtomicAt_home (aop := aop) (u := u) (sx := sx) (v := v) (cv := cv) (dst := dst) (scope := scope) (acq := acq) halign hreach hkind htimed hroom hrel
  obtain ⟨hgaccr, hmapr, hheldr, hgoodr⟩ := boundaryRelease_keeps s1 rel
  have hcur := cur_of_reaches hreach
  generalize hsr : s1.boundaryRelease rel = sr at *
  generalize hg : ({ s1.homeAtomic va nb aop u sx v cv dst scope p.pa with id := sr.serial, at_ := (sr.later 1).1 } : GAcc) = g at hdone
  have hfields : g.id = sr.serial ∧ g.kind = 2 ∧ g.pa = p.pa ∧ g.nb = nb ∧ g.want = [] ∧ g.err = none ∧ g.dst = dst ∧ g.todo = some (aop, u, v, cv) := by
    rw [← hg]
    exact ⟨rfl, rfl, rfl, rfl, rfl, rfl, rfl, rfl⟩
  obtain ⟨hid, hkindg, hpag, hnbg, hwant, herr, hdst, htodo⟩ := hfields
  obtain ⟨stale, hms⟩ := ms_queueAtomic sr s.cur.core va g
  have hview : (sr.queueAtomic s.cur.core va g).homeView = sr.homeView := rfl
  have hgaccX : ((sr.queueAtomic s.cur.core va g).core s.cur.core).ms.gacc = s.me.ms.gacc ++ [{ g with old := stale }] := by
    obtain ⟨l, hme⟩ := me_of_reaches hreach
    rw [hms]
    simp only [← hcur, hgaccr]
    exact congrArg (fun co : Core => co.ms.gacc ++ [{ g with old := stale }]) hme
  have hdrain : (sr.queueAtomic s.cur.core va g).drainAtomics s.cur.core 17 =
      (sr.queueAtomic s.cur.core va g).performAtomic s.cur.core { g with old := stale } aop u v cv := by
    refine drainAtomics_one 16 hgaccX hgacc hkindg htodo hwant ?_ ?_ ?_ ?_
    · have hrels : (sr.queueAtomic s.cur.core va g).releaseAhead s.cur.core g.id = sr.releaseAhead s.cur.core g.id := by
        simp only [State.releaseAhead, hms]
        rfl
      exact hrels.trans (hid ▸ hahead)
    · exact (paKind_congr hview _).trans ((congrArg _ hpag).trans ((hmapr p.pa).trans hkind))
    · simp only [hpag, hnbg]
      exact (hheldr p.pa nb true).trans hext
    · simp only [hpag, hnbg]
      exact (homeBad_congr hview _ _ _ _).trans (hgoodr _ _ _ _ hbad)
  dsimp only at hdone
  rw [hdrain] at hdone
  obtain ⟨old', hold', hgaccs⟩ := gacc_performAtomic (sr.queueAtomic s.cur.core va g) s.cur.core { g with old := stale } aop u v cv
  simp only [hpag, hnbg, hid] at hold'
  have hpub : ((sr.queueAtomic s.cur.core va g).publishHits s.cur.core p.pa nb sr.serial).homeView = s2.homeView := by
    simp only [s2, hsr]
    exact homeView_publishHits hview (by rw [hms]) p.pa nb sr.serial
  obtain rfl : old' = old := hold'.trans (homeNat_congr hpub p.pa nb)
  obtain ⟨hvalue, hothers⟩ := atomicPerform_home ((sr.queueAtomic s.cur.core va g).publishHits s.cur.core p.pa nb sr.serial) s.cur.core p.pa nb
    (fun old => atomicNew aop u (8 * nb) old v.toNat cv.toNat) (fun x hx => hnew x _ (homeNat_lt _ _ _) hx)
  rw [homeNat_congr hpub p.pa nb] at hvalue
  refine ⟨_, ({ g with old := stale } : GAcc).performed old (Nat.max g.at_ ((sr.queueAtomic s.cur.core va g).cyc + 1)), hdone, ?_, hkindg, hpag, hnbg,
    rfl, rfl, herr, hdst, ?_, fun x hx => ?_, fun hwait => ?_⟩
  · rw [gacc_behindAtomic, hgaccs, hgaccX]
    refine List.mem_map.mpr ⟨{ g with old := stale }, List.mem_append_right _ (List.mem_singleton_self _), ?_⟩
    exact if_pos rfl
  · refine (homeNat_congr (homeView_behindAtomic ..) _ _).trans ?_
    simp only [State.performAtomic, hpag, hnbg, hid]
    exact hvalue
  · refine (homeByte_congr (homeView_behindAtomic ..) _).trans (Eq.trans ?_ (homeByte_congr hpub x))
    simp only [State.performAtomic, hpag, hnbg, hid]
    exact hothers x hx
  · rw [State.behindAtomic, if_pos hwait, ms_modMs]
    rfl

end Sys2Proof.Machine
end

