-- ==== Sys2Proof/Proofs/AtomicForms.lean ====
section
/-! PROOFS. The atomic instructions and the semaphores of memory are atomics at a home; where boundaries and semaphores complete (R241, R242, R278). -/
namespace Sys2Proof.Machine

/-! ### Table 11-3 -/

/-- The operation of an atomic instruction, and its fields. -/
def atomicOp : Instr → Option (Nat × MemF)
  | .aadd f => some (0x54, f)
  | .amin f => some (0x55, f)
  | .amax f => some (0x56, f)
  | .aswap f => some (0x57, f)
  | .acas f => some (0x58, f)
  | .aand f => some (0x59, f)
  | .aor f => some (0x5A, f)
  | .ramo f => some (0x5B, f)
  | _ => none

/-- A number of w bits read as two's complement, by its sign bit. -/
theorem sgn_of_lt {w n : Nat} (h : n < 2 ^ w) : sgn w n = if n < 2 ^ (w - 1) then (n : Int) else (n : Int) - 2 ^ w := by
  rw [sgn, Nat.mod_eq_of_lt h, Nat.cast_pow]
  rfl

/-- What stands after an atomic, where no value is written what stood there. -/
theorem atomicValue_eq {i : Instr} {aop : Nat} {f : MemF} (hi : atomicOp i = some (aop, f)) {w old : Nat} (v cv : Nat) (hold : old < 2 ^ w) :
    atomicValue i w old v cv = some ((atomicNew aop (b2n (f.var.getLsbD 2)) w old v cv).getD old) := by
  have hv : v % 2 ^ w < 2 ^ w := Nat.mod_lt _ (Nat.two_pow_pos w)
  have hunsigned : b2n (f.var.getLsbD 2) = 1 ↔ f.var.getLsbD 2 = true := by cases f.var.getLsbD 2 <;> decide
  cases i with
  | aadd | aswap | aand | aor | ramo => cases hi; rfl
  | amin =>
    cases hi
    simp only [atomicValue, atomicNew, Option.getD_some, hunsigned, sgn_of_lt hold, sgn_of_lt hv]
    cases f.var.getLsbD 2 <;> simp [Nat.min_def]
  | amax =>
    cases hi
    simp only [atomicValue, atomicNew, Option.getD_some, hunsigned, sgn_of_lt hold, sgn_of_lt hv]
    cases f.var.getLsbD 2
    · simp
    · simp only [if_true, decide_eq_true_eq]
      exact congrArg some ((Nat.max_comm old (v % 2 ^ w)).trans Nat.max_def)
  | acas =>
    cases hi
    simp only [atomicValue, atomicNew]
    split <;> rfl
  | _ => cases hi

/-- The new value has no more bits than the operand. -/
theorem atomicNew_lt {aop u w old v cv x : Nat} (hold : old < 2 ^ w) (h : atomicNew aop u w old v cv = some x) : x < 2 ^ w := by
  have hv : v % 2 ^ w < 2 ^ w := Nat.mod_lt _ (Nat.two_pow_pos w)
  have hif {p : Prop} [Decidable p] {a b : Nat} (ha : a < 2 ^ w) (hb : b < 2 ^ w) : (if p then a else b) < 2 ^ w := by
    split
    · exact ha
    · exact hb
  unfold atomicNew at h
  dsimp only at h
  split at h
  · cases h; exact Nat.mod_lt _ (Nat.two_pow_pos w)
  · cases h; exact hif hold hv
  · cases h; exact hif hold hv
  · cases h; exact hv
  · split at h
    · cases h; exact hv
    · cases h
  · cases h; exact Nat.and_lt_two_pow _ hv
  · cases h; exact Nat.or_lt_two_pow hold hv
  · cases h

/-- K goes on. -/
theorem hold_letGo (s : State) (c : Nat) : ((s.letGo c).core c).ms.hold = none := by
  rw [State.letGo, ms_modSeq, ms_modMs]

/-- Each atomic instruction is an atomic of its operation. -/
theorem exec_atomic {s : State} {i : Instr} {aop : Nat} {f : MemF} (hi : atomicOp i = some (aop, f)) :
    exec i s = issue s (match i with
      | .acas f => [f.base, f.val, f.cv]
      | .ramo f => [f.base]
      | _ => [f.base, f.val]) (actAtomic aop f) := by
  cases i with
  | aadd => cases hi; exact show _ = execAadd f s from rfl
  | amin => cases hi; exact show _ = execAmin f s from rfl
  | amax => cases hi; exact show _ = execAmax f s from rfl
  | aswap => cases hi; exact show _ = execAswap f s from rfl
  | acas => cases hi; exact show _ = execAcas f s from rfl
  | aand => cases hi; exact show _ = execAand f s from rfl
  | aor => cases hi; exact show _ = execAor f s from rfl
  | ramo => cases hi; exact show _ = execRamo f s from rfl
  | _ => cases hi

theorem pow_bytes (n : Nat) : 256 ^ n = 2 ^ (8 * n) := by rw [Nat.pow_mul]

/-- The value that an atomic instruction leaves fits its operand. -/
theorem atomicNew_lt_bytes (aop u nb v cv : Nat) (x old : Nat) (hold : old < 256 ^ nb) (h : atomicNew aop u (8 * nb) old v cv = some x) : x < 256 ^ nb := by
  rw [pow_bytes] at hold ⊢
  exact atomicNew_lt hold h

theorem actAtomicAt_misaligned {s : State} {va v cv : Word} {nb aop u scope : Nat} {sx : BitVec 1} {dst : Option (Bool × Nat)} {rel acq : Option Nat}
    (h : va.toNat % nb ≠ 0) : actAtomicAt va nb aop u sx v cv dst scope rel acq s = memTrap 0x40 va.toNat (memStatus 0 0 1 0 0) := if_pos h

/-! ### srel.m -/

/-- The effect of `srel.m` is an atomic's (R278). -/
theorem exec_srelM {s : State} {f : MgtF} : exec (.srelM f) s = issue s [f.a, f.b] (fun s =>
    if f.pa ≠ 0 then s.opTrap 0xB
    else actAtomicAt (s.rd f.a) 8 0x54 0 0 (s.rd f.b) 0 none (scopeOf f) (some (scopeOf f)) none s) := show _ = execSrelM f s from rfl

theorem ms_behindAtomic (s : State) (c id : Nat) (acq : Option Nat) :
    ((s.behindAtomic c id true acq).core c).ms = { (s.core c).ms with hold := some (.response id acq) } := by
  rw [State.behindAtomic, if_pos rfl, ms_modMs]

/-- An `srel.m` at its home issues: it has released, and K stands behind the answer of its atomic. -/
theorem srelM_issues {s s1 : State} {f : MgtF} {p : KPiece} (hready : s.Ready [f.a, f.b]) (hpa : f.pa = 0) (halign : (s.rd f.a).toNat % 8 = 0)
    (htimed : s.me.timed = false) (hreach : s.Reaches 2 (s.rd f.a) 8 s1 [p]) (hkind : s1.paKind p.pa = .home) (hord : s1.ordered s.cur.core = true)
    (hroom : s.me.ms.loadsOut < 16) (hsc : scopeOf f ≠ 4) : ∃ t, s.Issues (.srelM f) t ∧ (t.core s.cur.core).ms.pend = [] ∧
      ∃ id, (t.core s.cur.core).ms.hold = some (.response id none) ∧ ∃ g ∈ (t.core s.cur.core).ms.gacc,
        g.id = id ∧ g.kind = 2 ∧ g.pa = p.pa ∧ g.dst = none := by
  have hdone := actAtomicAt_home (aop := 0x54) (u := 0) (sx := 0) (v := s.rd f.b) (cv := 0) (dst := none) (scope := scopeOf f) (rel := some (scopeOf f))
    (acq := none) halign hreach hkind (.inl htimed) hroom (fun sc h => by cases h; exact ⟨hsc, hord⟩)
  dsimp only at hdone
  refine ⟨_, State.issues_of_done exec_srelM hready ((if_neg (not_not_intro hpa)).trans hdone), ?_⟩
  have hpend : ((s1.boundaryRelease (some (scopeOf f))).core s.cur.core).ms.pend = [] := by
    rw [← cur_of_reaches hreach]
    exact pend_release ..
  generalize s1.boundaryRelease (some (scopeOf f)) = sr at hpend ⊢
  generalize hg : ({ s1.homeAtomic _ _ _ _ _ _ _ _ _ _ with id := sr.serial, at_ := _ } : GAcc) = g
  have hfields : g.id = sr.serial ∧ g.kind = 2 ∧ g.pa = p.pa ∧ g.dst = none := by
    rw [← hg]
    exact ⟨rfl, rfl, rfl, rfl⟩
  obtain ⟨hgid, hgkind, hgpa, hgdst⟩ := hfields
  obtain ⟨stale, hms⟩ := ms_queueAtomic sr s.cur.core (s.rd f.a) g
  obtain ⟨h, q, snap, hsame, hmsd⟩ := (drains_drainAtomics s.cur.core 17 (sr.queueAtomic s.cur.core (s.rd f.a) g)).ms
  obtain ⟨hid, hk, hp, hd⟩ := hsame { g with old := stale }
  simp only [Option.isSome_some, Bool.true_or, ms_behindAtomic, hmsd, hms, hpend]
  refine ⟨rfl, sr.serial, rfl, h { g with old := stale }, ?_, hid.trans hgid, hk.trans hgkind, hp.trans hgpa, hd.trans hgdst⟩
  simp

end Sys2Proof.Machine

namespace Sys2Proof.Proofs
open Sys2Proof.Machine

/-- Settles O4: a misaligned atomic traps, and one with nothing in its way is performed as it issues. -/
theorem atomicsArePerformedAtTheHome : Obligations.AtomicsArePerformedAtTheHome := by
  unfold Obligations.AtomicsArePerformedAtTheHome
  intro s f i codes s1 p hi va nb c rel acq sc hready hnb
  obtain ⟨aop, hop, hexec⟩ : ∃ aop, atomicOp i = some (aop, f) ∧ exec i s = issue s codes (actAtomic aop f) := by
    obtain ⟨rfl | rfl | rfl | rfl | rfl | rfl, rfl⟩ | ⟨rfl, rfl⟩ | ⟨rfl, rfl⟩ := hi
    all_goals exact ⟨_, rfl, exec_atomic rfl⟩
  refine ⟨fun h => State.traps_of_memTrap hexec hready (actAtomicAt_misaligned h), ?_⟩
  intro halign hreach hkind hpn htimed hrel hroom hgacc hext hbad sr hahead s2 old
  have hsr : s1.boundaryRelease (scopeIf rel sc) = sr := by
    rw [boundaryRelease_scopeIf, cur_of_reaches hreach]
  obtain ⟨t, g, hdone, hg⟩ := atomicAt_performs (aop := aop) (u := b2n (f.var.getLsbD 2)) (sx := if f.size = 2 then f.sx else 0) (v := s.rd f.val)
    (cv := s.rd f.cv) (dst := regPlace s.me.im .k f.d.toNat) (scope := sc) (rel := scopeIf rel sc) (acq := scopeIf acq sc) halign hreach hkind
    (by
      obtain ⟨hr, ha⟩ | h := htimed
      · exact .inr ⟨by rw [hr]; rfl, by rw [ha]; rfl⟩
      · exact .inl h)
    hroom
    (fun sc' hsc' => by
      obtain hr | hr := hrel
      · rw [hr] at hsc'; cases hsc'
      · cases hrel' : rel with
        | false => rw [hrel'] at hsc'; cases hsc'
        | true => rw [hrel'] at hsc'; cases hsc'; exact hr)
    hgacc hext hbad (by rw [hsr]; exact hahead) (fun x old => atomicNew_lt_bytes _ _ _ _ _ x old)
  simp only [hsr] at hg
  obtain ⟨hmem, hk, hpa, hgn, htodo, hraw, herr, hdst, hvalue, hothers, hhold⟩ := hg
  refine ⟨t, g, State.issues_of_done hexec hready hdone, hmem, hk, hpa, hgn, htodo, hraw, herr, hdst, ?_, hothers, fun h => hhold ?_⟩
  · rw [atomicValue_eq hop _ _ (by rw [← pow_bytes]; exact homeNat_lt _ _ _), hvalue]
  · obtain h | h := h
    · rw [h]; rfl
    · rw [h]; exact Bool.or_true _

theorem semaphoresAreTakenAndReleased : Claims.SemaphoresAreTakenAndReleased := by
  unfold Claims.SemaphoresAreTakenAndReleased
  intro s f c k n sc hready
  have hacq : exec (.sacq f) s = issue s [] (actSacq f) := show _ = execSacq f s from rfl
  have htry : exec (.sacqTry f) s = issue s [] (actSacqTry f) := show _ = execSacqTry f s from rfl
  refine ⟨fun htimed hsc => ?_, fun h hfew => ?_, fun hfew => ?_, fun htimed h hmany => ?_, fun h hmany => ?_, ?_⟩
  · exact State.waits_of_wait hacq hready (actSacq_timed htimed hsc)
  · exact State.waits_of_wait hacq hready (actSacq_few h hfew)
  · exact State.issues_of_done htry hready (actSacqTry_few hfew)
  · refine ⟨State.waits_of_wait (lacks := 0) hacq hready ?_, State.waits_of_wait htry hready (actSacqTry_wait htimed h hmany)⟩
    by_cases hsc : scopeOf f = 4
    · exact actSacq_timed htimed hsc
    · exact actSacq_behindAtomics htimed hsc hmany (h.resolve_left hsc)
  · refine ⟨s.semTaken f, State.issues_of_done hacq hready (actSacq_done h hmany), State.issues_of_done htry hready (actSacqTry_done h hmany), ?_,
      fun j hj => ?_, fun hsc hord => ?_, fun hsc => ?_⟩
    · rw [sems_semTaken, if_pos rfl]
    · rw [sems_semTaken, if_neg hj]
    · exact (hold_semAcquire _ _).1 hsc ((ordered_semTake ..).trans hord)
    · exact (hold_semAcquire _ _).2 (hsc.imp_right (ordered_semTake ..).trans)
  · refine ⟨s.semReleased f, _, srel_issues hready, later_le _ 1, by rw [ms_semReleased]; rfl, fun hord => ?_, fun hord => ?_⟩
    · rw [ms_semReleased, releaseNext_of_ordered _ hord]
      exact pend_release s c _
    · rw [ms_semReleased, ms_releaseNext_of_not_ordered _ hord]
      exact ⟨rfl, rfl⟩

theorem memorySemaphores : Claims.MemorySemaphores := by
  unfold Claims.MemorySemaphores
  intro s f va sc hready
  have hacq : exec (.sacqM f) s = issue s [f.a, f.b] (actSacqM f) := show _ = execSacqM f s from rfl
  refine ⟨fun hpa => ⟨State.traps_of_opTrap hacq hready (actSacqM_predicate hpa), State.traps_of_opTrap exec_srelM hready (if_pos hpa)⟩,
    fun hpa h => ⟨State.traps_of_memTrap hacq hready (actSacqM_misaligned hpa h),
      State.traps_of_memTrap exec_srelM hready ((if_neg (not_not_intro hpa)).trans (actAtomicAt_misaligned h))⟩,
    fun hpa h htimed => State.waits_of_wait hacq hready (actSacqM_timed hpa h htimed), ?_⟩
  intro hpa halign htimed s1 p hreach hkind hext hbad hord
  have hhome := actSacqM_home hpa halign htimed hreach hkind hext hbad
  have hordered : ¬s1.ordered s.cur.core = false := by simp [hord]
  refine ⟨fun hmany hsc => ?_, fun hmany hsc => ?_, fun hfew => ?_, fun hroom hsc => ?_⟩
  · exact State.issues_of_done hacq hready (hhome.trans ((if_neg (Nat.not_lt.mpr hmany)).trans ((if_neg hordered).trans (if_neg hsc))))
  · obtain ⟨at_, -, hhold⟩ := (hold_semAcquire s1 4).2 (.inl rfl)
    rw [State.me, cur_semAcquire, cur_of_reaches hreach] at hhold
    exact ⟨_, at_, State.issues_of_done hacq hready (hhome.trans ((if_neg (Nat.not_lt.mpr hmany)).trans ((if_neg hordered).trans (if_pos hsc)))), hhold⟩
  · refine ⟨_, exec_wait_untimed hacq hready htimed (hhome.trans (if_pos hfew)), (State.modSeq_mem ..).trans (mem_of_reaches hreach), ?_⟩
    rw [State.mySeq, State.me, State.modSeq_cur, cur_of_reaches hreach, State.core_modSeq, if_pos rfl, Image.seq_setSeq, if_pos rfl]
    rfl
  · exact srelM_issues hready hpa halign htimed hreach hkind hord hroom hsc

/-- Settles O37: the semaphores of a core are taken, refused and released as their counts say, and those of memory are read and added to at their homes. -/
theorem semaphoresOfCoresAndOfMemory : Obligations.SemaphoresOfCoresAndOfMemory := by
  unfold Obligations.SemaphoresOfCoresAndOfMemory
  exact ⟨semaphoresAreTakenAndReleased, memorySemaphores⟩

/-- Settles O55: under these conditions on state and operands each of the forms issues or completes. -/
theorem boundaryAndSemaphoreFormsComplete : Obligations.BoundaryAndSemaphoreFormsComplete := by
  unfold Obligations.BoundaryAndSemaphoreFormsComplete
  intro s f s1 p c at_ here k n has
  refine ⟨fun hready htimed hord => ?_, fun hready hfew => ?_, fun hready => ?_, fun hready hpa halign htimed hsc hreach hkind hext hextw hbad hord => ?_,
    fun hc hrels hhold hat => ?_⟩
  · have hissues {rel acq : Bool} {i : Instr} (hexec : exec i s = issue s [] (actBoundary (scopeIf rel (f.var.toNat % 8)) (scopeIf acq (f.var.toNat % 8)))) :
        ∃ t, s.Issues i t := by
      have hgo : ¬(s.me.timed = true ∨ s.ordered s.cur.core = false) := by simp [htimed, show s.ordered s.cur.core = true from hord]
      cases hnow : s.boundaryNow (scopeIf rel (f.var.toNat % 8)) (scopeIf acq (f.var.toNat % 8)) with
      | true => exact ⟨_, State.issues_of_done hexec hready (actBoundary_now hgo hnow)⟩
      | false => exact ⟨_, State.issues_of_done hexec hready (actBoundary_later hgo hnow)⟩
    refine ⟨hissues (rel := true) (acq := true) (exec_boundary (.inl ⟨rfl, rfl, rfl⟩)), hissues (rel := true) (acq := false) (exec_boundary (.inr (.inl ⟨rfl, rfl, rfl⟩))),
      hissues (rel := false) (acq := true) (exec_boundary (.inr (.inr ⟨rfl, rfl, rfl⟩))), fun hmany => ?_⟩
    obtain ⟨-, -, -, -, htaken, -⟩ := semaphoresAreTakenAndReleased s f hready
    obtain ⟨t, hacq, htry, hcount, -⟩ := htaken (.inl htimed) hmany
    exact ⟨t, hacq, htry, hcount⟩
  · exact State.issues_of_done (show _ = execSacqTry f s from rfl) hready (actSacqTry_few hfew)
  · refine ⟨s.semReleased f, srel_issues hready, ?_⟩
    rw [ms_semReleased]
    exact ⟨_, List.mem_append_right _ (List.mem_singleton_self _), rfl, rfl⟩
  · obtain ⟨-, -, -, hhome⟩ := memorySemaphores s f hready
    obtain ⟨hgoes, -, -, hreleases⟩ := hhome hpa halign htimed s1 p hreach hkind hext hbad hord
    refine ⟨fun hmany => ⟨_, hgoes hmany hsc⟩, fun hroom => ?_⟩
    obtain ⟨t, hissues, -, id, -, g, hg, -, hk, hp, -⟩ := hreleases hroom hsc
    exact ⟨t, hissues, g, hg, hk, hp⟩
  · obtain ⟨-, hcompletes⟩ := boundariesComplete s c hc
    obtain ⟨hdone, -⟩ := hcompletes hrels
    refine ⟨_, hdone _ _ _ hhold hat (.inl (by decide)) (.inl (by decide)) (.inl rfl), ?_⟩
    exact hold_letGo s c

end Sys2Proof.Proofs
end

