-- ==== Sys2Proof/Proofs/Launches.lean ====
section
/-! PROOFS. Launches: the group that asks for one stands until it is accepted, an accepted one joins the module's launches, and its semaphores are
released when its units have ended or are all triggered (R110 to R114, R244). -/
namespace Sys2Proof.Machine

/-! ### Traps that an event takes -/

theorem core_takeTrap_k (s : State) (c : Nat) (t : TrapInfo) (cmd more : Nat) : ∃ im st, (s.takeTrap c .k t cmd more).core c =
    { s.core c with im := im, stops := { (s.core c).stops with recs := (s.core c).stops.recs ++ [s.record c .k t cmd more], stop := st } } := by
  simp only [State.takeTrap, reduceCtorEq, if_false, State.core_modSeq, State.core_modStops, if_true]
  exact ⟨_, _, rfl⟩

/-- Of a trap that an event raises at K, its core holds a record with the cause, and its memory side is as it was. -/
theorem takeTrap_k_records (s : State) (c : Nat) (t : TrapInfo) (cmd more : Nat) : ((s.takeTrap c .k t cmd more).core c).ms = (s.core c).ms ∧
    ∃ r ∈ ((s.takeTrap c .k t cmd more).core c).stops.recs, r.cause = t.cause := by
  obtain ⟨im, st, h⟩ := core_takeTrap_k s c t cmd more
  rw [h]
  exact ⟨rfl, _, List.mem_append_right _ (List.mem_singleton_self _), rfl⟩

/-! ### launch -/

theorem launchGet_value {s s' : State} {va : Word} {n : Nat} {bs : List Byte} (h : s.tableRead va n = .value bs s') (k : List Byte → State → Act) :
    s.launchGet va n k = k bs s' := by rw [State.launchGet, h]

theorem actLaunch_misaligned {s : State} {f : MgtF} (h : (s.standOp (s.rd f.a)).toNat % 32 ≠ 0) :
    actLaunch f s = memTrap 0x40 (s.standOp (s.rd f.a)).toNat (memStatus 0 0 1 0 0) := if_pos h

/-- A launch whose descriptor and loop table have been read stands with them. -/
theorem actLaunch_read {s s1 s2 s3 : State} {f : MgtF} {desc h es : List Byte} {d : LDesc} {n : Nat} (halign : (s.standOp (s.rd f.a)).toNat % 32 = 0)
    (htimed : s.me.timed = false) (hdesc : s.tableRead (s.standOp (s.rd f.a)) 32 = .value desc s1) (hd : launchDesc desc = some d)
    (hhead : s1.tableRead d.ltab 8 = .value h s2) (hn : loopLevels h = some n) (hes : s2.tableRead (d.ltab + 8) (8 * n) = .value es s3) :
    actLaunch f s = Act.pinned (.launch f) (s.standOp (s.rd f.a)) (s3.launchWait desc (h ++ es)) := by
  rw [actLaunch, if_neg (not_not_intro halign), if_neg (by rw [htimed]; exact Bool.false_ne_true), launchGet_value hdesc, hd]
  dsimp only
  rw [launchGet_value hhead, hn]
  dsimp only
  rw [launchGet_value hes]

/-! ### Acceptance -/

/-- A launch may be accepted or refused on this cycle. -/
structure State.LaunchDue (s : State) (c : Nat) (desc tab : List Byte) (rel : Bool) : Prop where
  core : c < 128
  held : ∃ at_, (s.core c).ms.hold = some (.launch desc tab at_ rel) ∧ at_ ≤ s.cyc
  counting : (s.core c).counting s.cyc = true
  ordered : s.ordered c = true
  first : s.acceptsAhead c = false

theorem launchAcceptance_rejects {s : State} {c : Nat} {desc tab : List Byte} {rel : Bool} (h : s.LaunchDue c desc tab rel)
    (hread : s.launchRead (s.core c).ctx desc tab = none) :
    exec (.launchAcceptance c) s = .next ((s.modMs c (fun m => { m with hold := none })).takeTrap c .k
      { cause := 0xB, status := s.groupStatus c, addr := 0, cls := 0, engine := 0, uidx := 0 } (s.core c).im.k.index 0) := by
  obtain ⟨at_, hhold, hat⟩ := h.held
  have hgate : at_ ≤ s.cyc ∧ (s.core c).counting s.cyc = true ∧ s.ordered c = true ∧ s.acceptsAhead c = false :=
    ⟨hat, h.counting, h.ordered, h.first⟩
  rw [show exec (.launchAcceptance c) s = execLaunchAcceptance c s from rfl, execLaunchAcceptance, coreEvent_next]
  refine ⟨h.core, ?_⟩
  simp only [hhold, if_pos hgate, hread]

theorem launchAcceptance_accepts {s s1 : State} {c : Nat} {desc tab : List Byte} {rel : Bool} (h : s.LaunchDue c desc tab rel)
    {d : LDesc} {ls : List (Nat × Nat)} (hread : s.launchRead (s.core c).ctx desc tab = some (d, ls))
    (hs1 : s1 = if rel then s else s.release c (if countsOf 3 ls = [] then 3 else 4)) (hbusy : countsOf 3 ls = [] ∨ s1.domainBusy c = false) :
    exec (.launchAcceptance c) s = .next (s1.issueHeld c (fun s' => s'.accept (s.core c).ctx c false d ls desc tab)) := by
  obtain ⟨at_, hhold, hat⟩ := h.held
  have hgate : at_ ≤ s.cyc ∧ (s.core c).counting s.cyc = true ∧ s.ordered c = true ∧ s.acceptsAhead c = false :=
    ⟨hat, h.counting, h.ordered, h.first⟩
  have hscope : (if !(countsOf 3 ls).isEmpty then 4 else 3) = if countsOf 3 ls = [] then 3 else 4 := by
    cases countsOf 3 ls <;> rfl
  have hgo : ¬(!(countsOf 3 ls).isEmpty && s1.domainBusy c) = true := by
    rcases hbusy with hnil | hidle
    · simp [hnil]
    · simp [hidle]
  rw [show exec (.launchAcceptance c) s = execLaunchAcceptance c s from rfl, execLaunchAcceptance, coreEvent_next]
  refine ⟨h.core, ?_⟩
  simp only [hhold, if_pos hgate, hread, hscope, ← hs1]
  rw [if_neg hgo]

/-- The group that stood for its reads has issued, with this effect. -/
theorem issueHeld_of_run {s : State} {c : Nat} {i : Instr} {u : Cur} (act : State → State) (hperr : (s.core c).im.perr = none)
    (hfetch : (s.core c).fetch c .k = .run i u) :
    s.issueHeld c act = ((act (s.modMs c (fun ms => { ms with hold := none }))).withCur u).retire := by
  rw [State.issueHeld, hperr, hfetch]
  rfl

/-! ### Triggers -/

theorem actLtrig_outside {s : State} (h : s.me.im.seg = none ∨ s.launchOf s.cur.core = none) : actLtrig s = .done s := by
  unfold actLtrig
  rcases h with h | h
  · rw [h]
  · rw [h]
    cases s.me.im.seg <;> rfl

theorem actLtrig_idle {s : State} {g : Seg} {l : Launch} {u : LUnit} (hseg : s.me.im.seg = some g) (hl : s.launchOf s.cur.core = some l)
    (hu : l.units[g.unit]? = some u) (h : l.tren = false ∨ u.triggered.isSome = true) : actLtrig s = .done s := by
  have hcond : ¬(l.tren && u.triggered.isNone) = true := by
    rcases h with h | h
    · simp [h]
    · simp [Option.isNone_eq_false_iff.mpr h]
  simp only [actLtrig, hseg, hl, hu, if_neg hcond]

/-- The state of a trigger: behind its release, the unit triggered at its completion. -/
def State.triggerUnit (s : State) (id unit : Nat) : State :=
  ((s.releaseNext s.cur.core 3).later 0).2.modUnit id unit (fun u => { u with triggered := some ((s.releaseNext s.cur.core 3).later 0).1 })

theorem actLtrig_triggers {s : State} {g : Seg} {l : Launch} {u : LUnit} (hseg : s.me.im.seg = some g) (hl : s.launchOf s.cur.core = some l)
    (hu : l.units[g.unit]? = some u) (htren : l.tren = true) (hfirst : u.triggered = none) :
    actLtrig s = .done (s.triggerUnit l.id g.unit) := by
  have hcond : (l.tren && u.triggered.isNone) = true := by simp [htren, hfirst]
  simp only [actLtrig, hseg, hl, hu, if_pos hcond]
  rfl

theorem ms_triggerUnit (s : State) (id unit : Nat) : ((s.triggerUnit id unit).core s.cur.core).ms = ((s.releaseNext s.cur.core 3).core s.cur.core).ms := rfl

end Sys2Proof.Machine

namespace Sys2Proof.Proofs
open Sys2Proof.Machine

theorem launchesAreAcceptedAndComplete : Claims.LaunchesAreAcceptedAndComplete := by
  unfold Claims.LaunchesAreAcceptedAndComplete
  intro s f c id
  have hexec : exec (.launch f) s = issue s [f.a] (actLaunch f) := show _ = execLaunch f s from rfl
  refine ⟨fun hready halign => State.traps_of_memTrap hexec hready (actLaunch_misaligned halign), ?_, ?_, ?_⟩
  · intro hready halign htimed desc s1 hdesc d hd h s2 hhead n hn es s3 hes
    refine ⟨_, (s3.later 1).1, exec_wait_untimed hexec hready htimed (actLaunch_read halign htimed hdesc hd hhead hn hes), Nat.le_add_right .., ?_⟩
    rw [ms_modSeq, ms_modSeq, ms_modMs]
  · intro desc tab at_ rel hc hhold hat hcounting hordered hfirst
    have hdue : s.LaunchDue c desc tab rel := ⟨hc, ⟨at_, hhold, hat⟩, hcounting, hordered, hfirst⟩
    refine ⟨fun hread => ⟨_, launchAcceptance_rejects hdue hread, ?_, ?_⟩, ?_⟩
    · rw [(takeTrap_k_records ..).1, ms_modMs]
    · exact (takeTrap_k_records ..).2
    · intro d ls hread s1 hs1 hbusy hperr i u hfetch
      refine ⟨_, launchAcceptance_accepts hdue hread hs1 hbusy, ?_⟩
      rw [issueHeld_of_run _ hperr hfetch]
      exact ⟨_, rfl, rfl, rfl, rfl, rfl, rfl, rfl, rfl⟩
  · intro l hl horigin
    refine ⟨fun hunits hbusy htrig hwrites => ⟨_, ?_, rfl⟩, fun htren hnot htriggered hwrites => ?_⟩
    · rw [show exec (.launchComplete id) s = execLaunchComplete id s from rfl, execLaunchComplete, event_next, hl]
      have hcond : (l.unitsDone && !s.launchBusy id && (!l.tren || l.trigDone) && !s.launchWrites l) = true := by
        cases hren : l.tren <;> simp_all
      simp only [if_pos hcond, horigin]
    · rw [show exec (.launchTriggerRelease id) s = execLaunchTriggerRelease id s from rfl, execLaunchTriggerRelease, event_next, hl]
      simp only [htren, hnot, htriggered, hwrites, Bool.not_false, Bool.and_self, if_true, horigin]

theorem ltrigTriggersItsUnit : Claims.LtrigTriggersItsUnit := by
  unfold Claims.LtrigTriggersItsUnit
  intro s f hready
  have hexec : exec (.ltrig f) s = issue s [] actLtrig := show _ = execLtrig f s from rfl
  refine ⟨fun h => State.issues_of_done hexec hready (actLtrig_outside h), fun g l u hseg hl hu =>
    ⟨fun h => State.issues_of_done hexec hready (actLtrig_idle hseg hl hu h), fun htren hfirst =>
      ⟨_, ((s.releaseNext s.cur.core 3).later 0).1, State.issues_of_done hexec hready (actLtrig_triggers hseg hl hu htren hfirst), Nat.le_add_right .., ?_, ?_, rfl⟩⟩⟩
  · intro hordered
    rw [ms_triggerUnit, releaseNext_of_ordered _ hordered, pend_release]
  · intro hordered
    rw [ms_triggerUnit, ms_releaseNext_of_not_ordered _ hordered]

/-- Settles O39, by its two claims: on launches, and on their triggers. -/
theorem launchesTriggerAndComplete : Obligations.LaunchesTriggerAndComplete := by
  unfold Obligations.LaunchesTriggerAndComplete
  exact ⟨launchesAreAcceptedAndComplete, ltrigTriggersItsUnit⟩

end Sys2Proof.Proofs
end

