-- ==== Sys2Proof/Proofs/Tables.lean ====
section
/-! PROOFS. Template slots and macros: what a `tld` and its slot writes leave in the table, and what an `mdef`, its check and a call leave of the
store of macros (R31 to R34, R41, R42, R70, R71). -/
namespace Sys2Proof.Machine

/-! ### Pieces -/

theorem length_piecesAux {α : Type} {n : Nat} (hn : 0 < n) (k : Nat) : ∀ (fuel : Nat) (l : List α), l.length = n * k → k ≤ fuel →
    (piecesAux n fuel l).length = k := by
  induction k with
  | zero =>
    intro fuel l hl _
    obtain rfl : l = [] := List.eq_nil_of_length_eq_zero (by simpa using hl)
    cases fuel <;> rfl
  | succ k ih =>
    intro fuel l hl hfuel
    obtain ⟨fuel, rfl⟩ : ∃ m, fuel = m + 1 := ⟨fuel - 1, by omega⟩
    match l, hl with
    | [], hl => exact absurd hl (Nat.mul_pos hn (Nat.succ_pos k)).ne
    | x :: r, hl =>
      rw [piecesAux, List.length_cons, ih fuel]
      · rw [List.length_drop, hl, Nat.mul_succ, Nat.add_sub_cancel]
      · omega
      · rintro ⟨⟩

theorem length_pieces {α : Type} {n k : Nat} (hn : 0 < n) {l : List α} (hl : l.length = n * k) : (pieces n l).length = k :=
  length_piecesAux hn k _ l hl (hl ▸ Nat.le_mul_of_pos_left k hn)

theorem length_templatesOf_bytes (co : Core) (a n : Nat) : (templatesOf (co.bytes a (16 * n))).length = n := by
  rw [templatesOf, List.length_map, length_pieces (k := n) (by decide)]
  rw [Core.bytes, List.length_map, length_upTo]

/-! ### Sequencers -/

theorem seq_modSeq (s : State) (c : Nat) (q q' : Seq) (f : SeqSt → SeqSt) :
    ((s.modSeq c q f).core c).im.seq q' = if q' = q then f ((s.core c).im.seq q) else (s.core c).im.seq q' := by
  rw [State.core_modSeq, if_pos rfl, Image.seq_setSeq]

theorem table_advance (q : SeqSt) (u : Cur) : (q.advance u).table = q.table := by
  unfold SeqSt.advance
  split
  · split
    · split <;> rfl
    · rfl
  · rfl

/-- Retiring a group leaves every template table as it is. -/
theorem table_retire (s : State) (q : Seq) : (s.retire.me.im.seq q).table = (s.me.im.seq q).table := by
  refine (congrArg SeqSt.table (seq_modSeq s s.cur.core s.cur.sq q _)).trans ?_
  split
  · next h => rw [table_advance, h]; rfl
  · rfl

theorem seq_modMs (s : State) (c : Nat) (q : Seq) (f : MemSide → MemSide) : ((s.modMs c f).core c).im.seq q = (s.core c).im.seq q := by
  rw [im_modMs]

/-- K going on leaves every template table as it is. -/
theorem table_letGo (s : State) (c : Nat) (q : Seq) : (((s.letGo c).core c).im.seq q).table = ((s.core c).im.seq q).table := by
  rw [State.letGo, seq_modSeq, seq_modMs, seq_modMs]
  split
  · next h => rw [h]
  · rfl

/-! ### tld -/

theorem mget_foldl_mset {α : Type} (d : α) (g : α → α) (l : List Nat) (m : Map α) (j : Nat) :
    (j ∈ l → ∃ x, mget d (l.foldl (fun m i => mset m i (g (mget d m i))) m) j = g x) ∧
    (j ∉ l → mget d (l.foldl (fun m i => mset m i (g (mget d m i))) m) j = mget d m j) := by
  induction l generalizing m with
  | nil => exact ⟨fun h => absurd h List.not_mem_nil, fun _ => rfl⟩
  | cons i r ih =>
    rw [List.foldl_cons]
    refine ⟨fun h => ?_, fun h => ?_⟩
    · by_cases hr : j ∈ r
      · exact (ih _).1 hr
      · obtain rfl : j = i := (List.mem_cons.mp h).resolve_right hr
        exact ⟨_, by rw [(ih _).2 hr, mget_mset_same]⟩
    · rw [(ih _).2 (fun hr => h (List.mem_cons_of_mem _ hr)), mget_mset_ne _ _ _ _ _ (fun hj => h (List.mem_cons.mpr (Or.inl hj)))]

theorem markLoading_loading (q : SeqSt) {slot n i : Nat} (hi : i < n) : (mget Slot.empty (q.markLoading slot n true).table (slot + i)).loading = true := by
  have hmem : slot + i ∈ upTo slot n := mem_upTo.mpr ⟨Nat.le_add_right .., Nat.add_lt_add_left hi slot⟩
  obtain ⟨x, hx⟩ := (mget_foldl_mset Slot.empty (fun x => { x with loading := true }) (upTo slot n) q.table (slot + i)).1 hmem
  rw [SeqSt.markLoading, hx]

theorem startLoad_hold (s : State) (q : Seq) (slot : Nat) (ts : List Template) (at_ : Nat) :
    (s.startLoad q slot ts at_).me.ms.hold = some (.tld q slot ts at_) := congrArg MemSide.hold (ms_modMs ..)

theorem startLoad_loading (s : State) (q : Seq) (slot : Nat) (ts : List Template) (at_ : Nat) {i : Nat} (hi : i < ts.length) :
    (mget Slot.empty ((s.startLoad q slot ts at_).me.im.seq q).table (slot + i)).loading = true := by
  have hseq : (s.startLoad q slot ts at_).me.im.seq q = (s.me.im.seq q).markLoading slot ts.length true := by
    refine (seq_modMs (s.modSeq s.cur.core q _) s.cur.core q _).trans ?_
    rw [seq_modSeq, if_pos rfl]
    rfl
  rw [hseq, markLoading_loading _ hi]

section
variable {s : State} {f : MgtF}

theorem actTld_none (h : f.n.toNat = 0) : actTld f s = .done s := if_pos h

theorem actTld_range (hn : 0 < f.n.toNat) (h : 62 < f.slot.toNat + f.n.toNat) : actTld f s = s.opTrap 0xB :=
  (if_neg hn.ne').trans (if_pos h)

variable (hn : 0 < f.n.toNat) (hrange : f.slot.toNat + f.n.toNat ≤ 62)
include hn hrange

theorem actTld_misaligned (h : (s.standOp (s.rd f.a)).toNat % 16 ≠ 0) :
    actTld f s = memTrap 0x40 (s.standOp (s.rd f.a)).toNat (memStatus 0 0 (if f.var = 1 then 0 else 1) 0 0) :=
  (if_neg hn.ne').trans ((if_neg (Nat.not_lt.mpr hrange)).trans (if_pos h))

variable (halign : (s.standOp (s.rd f.a)).toNat % 16 = 0) (htimed : s.me.timed = false)
include halign htimed

theorem actTld_local (hvar : f.var = 1)
    (hlegal : s.me.checkLocal s.me.ctx s.tstep (s.standOp (s.rd f.a)).toNat (16 * f.n.toNat) true = none) :
    actTld f s = .done (({ s with draws := s.draws + 1 } : State).startLoad (Seq.ofCode f.seq.toNat) f.slot.toNat
      (templatesOf (s.me.bytes (s.standOp (s.rd f.a)).toNat (16 * f.n.toNat))) (s.cyc + 1 + Config.latency s.draws % 2)) := by
  rw [actTld, if_neg hn.ne', if_neg (Nat.not_lt.mpr hrange), if_neg (not_not_intro halign), if_neg (by rw [htimed]; exact Bool.false_ne_true), if_pos hvar,
    hlegal]

theorem actTld_global (hvar : f.var ≠ 1) {bs : List Byte} {s' : State} (hread : s.tableRead (s.standOp (s.rd f.a)) (16 * f.n.toNat) = .value bs s') :
    actTld f s = .done ((s'.later 1).2.startLoad (Seq.ofCode f.seq.toNat) f.slot.toNat (templatesOf bs) (s'.later 1).1) := by
  rw [actTld, if_neg hn.ne', if_neg (Nat.not_lt.mpr hrange), if_neg (not_not_intro halign), if_neg (by rw [htimed]; exact Bool.false_ne_true), if_neg hvar,
    hread]
  rfl

end

/-- The next slot of a table is written. -/
theorem exec_tldSlotWrite {s : State} {c slot at_ : Nat} {q : Seq} {tm : Template} {r : List Template} (hc : c < 128)
    (hhold : (s.core c).ms.hold = some (.tld q slot (tm :: r) at_)) (hat : at_ ≤ s.cyc) (htime : (s.core c).tableTime s.cyc = true) :
    exec (.tldSlotWrite c) s = .next (if r.isEmpty then (s.writeSlot c q slot tm).letGo c
      else ({ s.writeSlot c q slot tm with draws := (s.writeSlot c q slot tm).draws + 1 } : State).modMs c (fun m =>
        { m with hold := some (.tld q (slot + 1) r (at_ + Config.latency (s.writeSlot c q slot tm).draws % 2)) })) := by
  rw [show exec (.tldSlotWrite c) s = execTldSlotWrite c s from rfl, execTldSlotWrite, coreEvent_next]
  refine ⟨hc, ?_⟩
  have hgate : at_ ≤ s.cyc ∧ (s.core c).tableTime s.cyc = true := ⟨hat, htime⟩
  simp only [hhold, if_pos hgate]
  rw [apply_ite some]

theorem table_writeSlot (s : State) (c : Nat) (q : Seq) (slot : Nat) (t : Template) :
    mget Slot.empty (((s.writeSlot c q slot t).core c).im.seq q).table slot = { t := t, reason := slotReason q t, loading := false } := by
  rw [State.writeSlot, seq_modSeq, if_pos rfl, mget_mset_same]

/-! ### mdef -/

theorem readBody_local_state {a : Word} {k : Nat} : ∀ {es es' : List Word} {s s' : State}, State.readBody true a k es s = .body es' s' → s' = s := by
  induction k with
  | zero =>
    rintro es es' s s' ⟨⟩
    rfl
  | succ k ih =>
    intro es es' s s' h
    rw [State.readBody, if_pos rfl] at h
    split at h
    · cases h
    · dsimp only at h
      split at h
      · cases h
        rfl
      · exact ih h

theorem actMdef_misaligned {s : State} {f : MgtF} (h : (s.standOp (s.rd f.a)).toNat % 8 ≠ 0) :
    actMdef f s = memTrap 0x40 (s.standOp (s.rd f.a)).toNat (memStatus 0 0 (if decide (f.var = 1) then 0 else 1) 0 0) := if_pos h

theorem actMdef_body {s s' : State} {f : MgtF} {es : List Word} (halign : (s.standOp (s.rd f.a)).toNat % 8 = 0) (htimed : s.me.timed = false)
    (hinside : s.trappedInside (Seq.ofCode f.seq.toNat) f.idx.toNat = false)
    (hbody : State.readBody (decide (f.var = 1)) (s.standOp (s.rd f.a)) 32 [] s = .body es s') :
    ∃ t at_, actMdef f s = Act.pinned (.mdef f) (s.standOp (s.rd f.a)) (.wait t 0xA 0 0) ∧
      (t.core s.cur.core).ms.hold = some (.mdef (Seq.ofCode f.seq.toNat) f.idx.toNat es at_) ∧
      (f.var = 1 → s'.cyc ≤ at_ ∧ at_ ≤ s'.cyc + 34) ∧ (f.var ≠ 1 → s'.cyc + 1 ≤ at_) := by
  rw [actMdef, if_neg (not_not_intro halign), if_neg (by rw [htimed]; exact Bool.false_ne_true), if_neg (by rw [hinside]; exact Bool.false_ne_true), hbody]
  by_cases hvar : f.var = 1
  · rw [decide_eq_true hvar] at hbody
    obtain rfl := readBody_local_state hbody
    have hlat := Nat.mod_lt (Config.latency s'.draws) (show 0 < 35 by decide)
    simp only [decide_eq_true hvar, if_true]
    exact ⟨_, _, rfl, congrArg MemSide.hold (ms_modMs ..), fun _ => ⟨Nat.le_add_right .., by omega⟩, fun h => absurd hvar h⟩
  · simp only [decide_eq_false hvar, Bool.false_eq_true, if_false]
    exact ⟨_, _, rfl, congrArg MemSide.hold (ms_modMs ..), fun h => absurd h hvar, fun _ => Nat.le_add_right ..⟩

/-- A body that stands for its check, which may take place on this cycle. -/
structure State.BodyDue (s : State) (c : Nat) (q : Seq) (m : Nat) (es : List Word) : Prop where
  core : c < 128
  held : ∃ at_, (s.core c).ms.hold = some (.mdef q m es at_) ∧ at_ ≤ s.cyc
  counting : (s.core c).counting s.cyc = true

theorem exec_mdefBodyCheck {s : State} {c m : Nat} {q : Seq} {es : List Word} (h : s.BodyDue c q m es) :
    exec (.mdefBodyCheck c) s = .next (match bodyRejects es with
      | some j => ((s.modMs c (fun ms => { ms with hold := none })).modSeq c .k (fun q => { q with waiting := none })).takeTrap c .k
          { cause := 5, status := s.rejectStatus c m j, addr := 0, cls := 0, engine := 0, uidx := 0 } (s.core c).im.k.index 0
      | none => s.issueHeld c (fun s => s.modSeq c q (fun x => x.define m (es.map entryOf)))) := by
  obtain ⟨at_, hhold, hat⟩ := h.held
  have hgate : at_ ≤ s.cyc ∧ (s.core c).counting s.cyc = true := ⟨hat, h.counting⟩
  rw [show exec (.mdefBodyCheck c) s = execMdefBodyCheck c s from rfl, execMdefBodyCheck, coreEvent_next]
  refine ⟨h.core, ?_⟩
  simp only [hhold, if_pos hgate]
  cases bodyRejects es <;> rfl

theorem macros_define_outside {q : SeqSt} {m : Nat} (es : List MEntry) (h : q.inside m = false) : mfind (q.define m es).macros m = some es := by
  rw [SeqSt.define, if_neg (by rw [h]; exact Bool.false_ne_true), mfind_mset, if_pos rfl]

/-- Leaving other macros keeps what each of the macros is defined as. -/
theorem macros_advance_outside {q : SeqSt} {m : Nat} (u : Cur) (h : q.inside m = false) : mfind (q.advance u).macros m = mfind q.macros m := by
  have hleave : mfind q.leave.macros m = mfind q.macros m := by
    unfold SeqSt.leave
    dsimp only
    split
    · next p es hp hes =>
      have hne : p.m ≠ m := by simpa [SeqSt.inside, hp] using h
      rw [mfind_mset, if_neg (Ne.symm hne)]
    · rfl
  unfold SeqSt.advance
  split
  · split
    · split
      · exact hleave
      · rfl
    · rfl
  · rfl

theorem inside_define (q : SeqSt) (m j : Nat) (es : List MEntry) : (q.define m es).inside j = q.inside j := by
  unfold SeqSt.define
  split <;> rfl

theorem core_withCur (s : State) (u : Cur) (c : Nat) : (s.withCur u).core c = s.core c := rfl

/-- A sequencer after the body it is in has been redefined while the group of K at u retires. -/
theorem seq_retire_define {s : State} {c m : Nat} {q : Seq} {u : Cur} (es : List MEntry) (hcore : u.core = c) (hsq : u.sq = .k) :
    ∃ t, ((((s.modSeq c q (fun x => x.define m es)).withCur u).retire).core c).im.seq q =
      if q = .k then ((((s.core c).im.seq q).define m es).issued t).advance u else ((s.core c).im.seq q).define m es := by
  obtain ⟨hc, hq⟩ : ((s.modSeq c q (fun x => x.define m es)).withCur u).cur.core = c ∧ ((s.modSeq c q (fun x => x.define m es)).withCur u).cur.sq = .k :=
    ⟨hcore, hsq⟩
  refine ⟨((s.modSeq c q (fun x => x.define m es)).withCur u).t, ?_⟩
  rw [State.retire, hc, hq, seq_modSeq]
  have hcore : ((s.modSeq c q (fun x => x.define m es)).withCur u).core c = (s.modSeq c q (fun x => x.define m es)).core c := rfl
  rw [hcore, seq_modSeq, seq_modSeq, if_pos rfl]
  by_cases hk : q = .k
  · subst hk
    rfl
  · rw [if_neg hk, if_neg hk]

end Sys2Proof.Machine

namespace Sys2Proof.Proofs
open Sys2Proof.Machine

theorem tldWritesTemplateSlots : Claims.TldWritesTemplateSlots := by
  unfold Claims.TldWritesTemplateSlots
  intro s f c
  have hexec : exec (.tld f) s = issue s [f.a] (actTld f) := show _ = execTld f s from rfl
  refine ⟨fun hready => ⟨fun h => State.issues_of_done hexec hready (actTld_none h), fun hn h => State.traps_of_opTrap hexec hready (actTld_range hn h),
    fun hn hrange h => State.traps_of_memTrap hexec hready (actTld_misaligned hn hrange h), ?_, ?_⟩, ?_⟩
  · intro hn hrange halign htimed hvar hlegal
    have hlat := Nat.mod_lt (Config.latency s.draws) (show 0 < 2 by decide)
    refine ⟨_, State.issues_of_done hexec hready (actTld_local hn hrange halign htimed hvar hlegal), ⟨s.cyc + 1 + Config.latency s.draws % 2,
      Nat.le_add_right .., by omega, (congrArg MemSide.hold (ms_retire ..)).trans (startLoad_hold ..)⟩, fun i hi => ?_⟩
    rw [table_retire, startLoad_loading _ _ _ _ _ (by rwa [length_templatesOf_bytes])]
  · intro hn hrange halign htimed hvar bs s' hread
    exact ⟨_, (s'.later 1).1, State.issues_of_done hexec hready (actTld_global hn hrange halign htimed hvar hread), Nat.le_add_right ..,
      (congrArg MemSide.hold (ms_retire ..)).trans (startLoad_hold ..)⟩
  · intro q slot tm r at_ hc hhold hat htime
    refine ⟨_, exec_tldSlotWrite hc hhold hat htime, ?_⟩
    cases r with
    | nil => exact ⟨by rw [if_pos List.isEmpty_nil, table_letGo, table_writeSlot], fun _ => hold_letGo .., fun h => absurd rfl h⟩
    | cons t' r =>
      have hlat := Nat.mod_lt (Config.latency (s.writeSlot c q slot tm).draws) (show 0 < 2 by decide)
      rw [if_neg (by simp)]
      refine ⟨?_, fun h => absurd h (List.cons_ne_nil _ _), fun _ => ⟨_, Nat.le_add_right .., ?_, congrArg MemSide.hold (ms_modMs ..)⟩⟩
      · rw [seq_modMs]
        exact table_writeSlot ..
      · omega

theorem macrosAreDefinedAndCalled : Claims.MacrosAreDefinedAndCalled := by
  unfold Claims.MacrosAreDefinedAndCalled
  intro s f c m idle p0 p1 p2 p3
  have hexec : exec (.mdef f) s = issue s [f.a] (actMdef f) := show _ = execMdef f s from rfl
  refine ⟨fun hready h => State.traps_of_memTrap hexec hready (actMdef_misaligned h), ?_, ?_, ?_, ?_⟩
  · intro hready halign htimed hinside es s' hbody
    obtain ⟨t, at_, hact, hhold, hloc, hglob⟩ := actMdef_body halign htimed hinside hbody
    refine ⟨_, at_, exec_wait_untimed hexec hready htimed hact, hloc, hglob, ?_⟩
    rw [ms_modSeq, ms_modSeq, hhold]
  · intro q mm es at_ hc hhold hat hcounting
    have hdue : s.BodyDue c q mm es := ⟨hc, ⟨at_, hhold, hat⟩, hcounting⟩
    refine ⟨fun j hj => ?_, fun hok hperr u i hfetch hcore hsq => ?_⟩
    · rw [exec_mdefBodyCheck hdue, hj]
      refine ⟨_, rfl, ?_, (takeTrap_k_records ..).2⟩
      rw [(takeTrap_k_records ..).1, ms_modSeq, ms_modMs]
    · rw [exec_mdefBodyCheck hdue, hok, issueHeld_of_run _ hperr hfetch]
      obtain ⟨t, hseq⟩ := seq_retire_define (s := s.modMs c (fun ms => { ms with hold := none })) (m := mm) (q := q) (es.map entryOf) hcore hsq
      rw [seq_modMs] at hseq
      refine ⟨_, rfl, ?_, fun hout => ?_, fun hin hq => ?_⟩
      · rw [ms_retire, core_withCur, ms_modSeq, ms_modMs]
      · rw [hseq]
        split
        · exact (macros_advance_outside (q := (((s.core c).im.seq q).define mm (es.map entryOf)).issued t) u ((inside_define ..).trans hout)).trans
            (macros_define_outside _ hout)
        · exact macros_define_outside _ hout
      · rw [hseq, if_neg hq, SeqSt.define, if_pos hin]
        exact ⟨rfl, rfl⟩
  · intro hpend hnone
    rw [State.Traps, show exec (.macroCall m idle p0 p1 p2 p3) s = execMacroCall m idle p0 p1 p2 p3 s from rfl, execMacroCall, hnone]
    exact ⟨_, rfl, rfl, by rw [finish, settle_of_none _ hpend, settleAct_trap]⟩
  · intro hpend body hbody
    rw [show exec (.macroCall m idle p0 p1 p2 p3) s = execMacroCall m idle p0 p1 p2 p3 s from rfl, execMacroCall, hbody, hpend]
    exact ⟨_, rfl, congrArg SeqSt.mpos ((seq_modSeq ..).trans (if_pos rfl))⟩

/-- Settles O41, by its two claims: on template slots, and on macros. -/
theorem templatesAndMacrosAreDefined : Obligations.TemplatesAndMacrosAreDefined := by
  unfold Obligations.TemplatesAndMacrosAreDefined
  exact ⟨tldWritesTemplateSlots, macrosAreDefinedAndCalled⟩

end Sys2Proof.Proofs
end

