-- ==== Sys2Proof/Proofs/Slabs.lean ====
section
/-! PROOFS. Slabs: what the instructions on a run do when its checks pass, and what the renew unit, the stash window and the sweeper write (R214,
R218 to R225). -/
namespace Sys2Proof.Machine

/-! ### Runs -/

theorem runFault_misaligned {base n : Nat} (h : base % 2048 ≠ 0) : runFault base n = some (memTrap 0x40 base (memStatus 0 0 0 0 0)) := if_pos h

theorem runFault_beyond {base n : Nat} (h : base % 2048 = 0) (hn : n ≠ 0) (hout : 0x600000 < base + n * 2048) :
    runFault base n = some (memTrap 0x41 base (memStatus 0 0 0 0 (base / 2048))) :=
  (if_neg (not_not_intro h)).trans (if_pos ⟨hn, by omega⟩)

theorem runFault_fits {base n : Nat} (h : base % 2048 = 0) (hin : n = 0 ∨ base + n * 2048 ≤ 0x600000) : runFault base n = none :=
  (if_neg (not_not_intro h)).trans (if_neg (by omega))

theorem badSlab_none {co : Core} {b n : Nat} {ok : Slab → Bool} (h : ∀ i, b ≤ i → i < b + n → ok (co.slab i) = true) : co.badSlab b n ok = none := by
  rw [Core.badSlab, List.find?_eq_none]
  intro i hi
  obtain ⟨hlo, hhi⟩ := mem_upTo.mp hi
  simp [h i hlo hhi]

theorem badSlab_some {co : Core} {b n : Nat} {ok : Slab → Bool} (h : ∃ i, b ≤ i ∧ i < b + n ∧ ok (co.slab i) = false) :
    ∃ i, co.badSlab b n ok = some i := by
  obtain ⟨i, hlo, hhi, hok⟩ := h
  exact Option.isSome_iff_exists.mp (List.find?_isSome.mpr ⟨i, mem_upTo.mpr ⟨hlo, hhi⟩, by simp [hok]⟩)

theorem own_iff {b : Slab} {ctx : Nat} : b.own ctx = true ↔ (b.kind = .live ∨ b.kind = .lost) ∧ b.owner = ctx := by
  simp [Slab.own]

theorem own_slabs {co : Core} {ctx b n : Nat} (h : ∀ i, b ≤ i → i < b + n → ((co.slab i).kind = .live ∨ (co.slab i).kind = .lost) ∧ (co.slab i).owner = ctx) :
    co.badSlab b n (fun x => x.own ctx) = none := badSlab_none (fun i hlo hhi => own_iff.mpr (h i hlo hhi))

theorem foreign_slab {co : Core} {ctx b n : Nat}
    (h : ¬∀ i, b ≤ i → i < b + n → ((co.slab i).kind = .live ∨ (co.slab i).kind = .lost) ∧ (co.slab i).owner = ctx) :
    ∃ i, co.badSlab b n (fun x => x.own ctx) = some i := by
  obtain ⟨i, hi⟩ := not_forall.mp h
  obtain ⟨hlo, hi⟩ := Classical.not_imp.mp hi
  obtain ⟨hhi, hi⟩ := Classical.not_imp.mp hi
  exact badSlab_some ⟨i, hlo, hhi, Bool.eq_false_iff.mpr (fun ho => hi (own_iff.mp ho))⟩

theorem earlyStart_iff {s : State} {start : Nat} : s.earlyStart start = true ↔ s.me.timed = true ∧ start < s.t + 2 := by
  simp [State.earlyStart]

theorem me_wr (s : State) (lat : Nat) (r : BitVec 5) (v : Word) : ∃ l, (s.wr lat r v).me = { s.me with im := { s.me.im with flight := l } } := by
  unfold State.wr
  split
  · exact ⟨_, State.me_result ..⟩
  · exact ⟨s.me.im.flight, rfl⟩

theorem cur_wr (s : State) (lat : Nat) (r : BitVec 5) (v : Word) : (s.wr lat r v).cur = s.cur := by
  unfold State.wr
  split <;> rfl

/-! ### salloc and stash -/

section
variable {s : State} {f : MovF} {z : Bool}

theorem actSalloc_runFault {x : Act} (h : runFault f.la.toNat f.n.toNat = some x) : actSalloc z f s = x := by
  rw [actSalloc, h]

theorem actStash_runFault {x : Act} (hn : f.n.toNat ≠ 0) (h : runFault f.la.toNat f.n.toNat = some x) : actStash f s = x := by
  rw [actStash, if_neg hn, h]

/-- The slabs of the run claimed, and its descriptor in d. -/
def State.claims (s : State) (f : MovF) : State :=
  (s.result 1 0 (.slabs 0 (f.la.toNat / 2048) f.n.toNat)).wr 1 f.a (BitVec.ofNat 64 (f.la.toNat + f.n.toNat * 2 ^ 23))

/-- The zero fill of a run that is claimed. -/
def State.zeroFill (s : State) (f : MovF) : EngCmd := s.command 1 (f.la.toNat / 2048) 0 0 f.n.toNat f.sem.toNat f.start.toNat true

variable (hfits : runFault f.la.toNat f.n.toNat = none)
include hfits

theorem actSalloc_empty (hn : f.n.toNat = 0) : actSalloc z f s = .done (if z then s.result 2 0 (.sem f.sem.toNat 1) else s) := by
  rw [actSalloc, hfits]
  exact if_pos hn

theorem actSalloc_taken {i : Nat} (hn : f.n.toNat ≠ 0)
    (hbad : s.me.badSlab (f.la.toNat / 2048) f.n.toNat (fun b => decide (b.kind = .free) || b.own s.me.ctx) = some i) :
    actSalloc z f s = memTrap 0x44 (i * 2048) (memStatus 0 0 0 0 0) := by
  simp only [actSalloc, hfits, if_neg hn, hbad]

theorem actSalloc_claims (hn : f.n.toNat ≠ 0)
    (hok : s.me.badSlab (f.la.toNat / 2048) f.n.toNat (fun b => decide (b.kind = .free) || b.own s.me.ctx) = none) :
    actSalloc z f s = if z && s.earlyStart f.start.toNat then startTrap
      else .done (if z then (s.claims f).modUnits s.cur.core (fun u => { u with renew := u.renew ++ [s.zeroFill f] }) else s.claims f) := by
  simp only [actSalloc, hfits, if_neg hn, hok]
  rfl

theorem actStash_opens (hn : f.n.toNat ≠ 0)
    (hlive : ∀ i, f.la.toNat / 2048 ≤ i → i < f.la.toNat / 2048 + f.n.toNat → (s.me.slab i).kind = .live ∧ (s.me.slab i).owner = s.me.ctx)
    (hnone : s.me.stash = none) (hflight : ∀ x ∈ s.me.im.flight, ∀ b m, x.fx ≠ .slabs 2 b m) :
    actStash f s = .done (s.result 1 0 (.slabs 2 (f.la.toNat / 2048) f.n.toNat)) := by
  have hslabs : firstSome (fun i =>
      let b := s.me.slab i
      if (b.kind ≠ .live ∧ b.kind ≠ .lost) ∨ b.owner ≠ s.me.ctx then some (0x41, i)
      else if b.kind = .lost then some (0x43, i)
      else none) (upTo (f.la.toNat / 2048) f.n.toNat) = none := by
    refine firstSome_eq_none.mpr (fun i hi => ?_)
    obtain ⟨hkind, howner⟩ := hlive i (mem_upTo.mp hi).1 (mem_upTo.mp hi).2
    simp [hkind, howner]
  have hopen : ¬(s.me.stash.isSome ∨ s.me.im.flight.any (fun x => match x.fx with
      | .slabs 2 _ _ => true
      | _ => false) = true) := by
    rw [hnone, List.any_eq_true]
    rintro (h | ⟨x, hx, h⟩)
    · cases h
    · split at h
      · next heq => exact hflight x hx _ _ heq
      · cases h
  simp only [actStash, if_neg hn, hfits, hslabs]
  exact if_neg hopen

end

theorem units_claims (s : State) (f : MovF) : ∃ l, (s.claims f).me = { s.me with im := { s.me.im with flight := l } } := by
  obtain ⟨l, hl⟩ := me_wr (s.result 1 0 (.slabs 0 (f.la.toNat / 2048) f.n.toNat)) 1 f.a (BitVec.ofNat 64 (f.la.toNat + f.n.toNat * 2 ^ 23))
  exact ⟨l, by rw [State.claims, hl, State.me_result]⟩

theorem cur_claims (s : State) (f : MovF) : (s.claims f).cur = s.cur := cur_wr ..

/-- A claimed run's zero fill stands last among the commands of the renew unit. -/
theorem me_claims_filled (s : State) (f : MovF) (g : Units → Units) :
    ((s.claims f).modUnits s.cur.core g).me = { (s.claims f).me with units := g s.me.units } := by
  obtain ⟨l, hl⟩ := units_claims s f
  have hcur := cur_claims s f
  have hme : (s.claims f).core s.cur.core = (s.claims f).me := by rw [State.me, hcur]
  rw [State.me, show ((s.claims f).modUnits s.cur.core g).cur = s.cur from hcur, State.core_modUnits, if_pos rfl, hme, hl]

/-! ### sfree and renew -/

section
variable {s : State} {f : MovF} {base n : Nat} (hrun : s.slabRun f = some (base, n)) (hfits : runFault base n = none)
include hrun hfits

theorem actSfree_empty (hn : n = 0) : actSfree f s = .done s := by
  simp only [actSfree, hrun, hfits, if_pos hn]

theorem actSfree_foreign {i : Nat} (hn : n ≠ 0) (hbad : s.me.badSlab (base / 2048) n (fun b => b.own s.me.ctx) = some i) :
    actSfree f s = memTrap 0x41 (i * 2048) (memStatus 0 0 0 0 i) := by
  simp only [actSfree, hrun, hfits, if_neg hn, hbad]

theorem actSfree_own (hn : n ≠ 0) (hok : s.me.badSlab (base / 2048) n (fun b => b.own s.me.ctx) = none) :
    actSfree f s = if s.addressed s.cur.core base n then .wait s 6 0 0 else .done (s.result 1 0 (.slabs 1 (base / 2048) n)) := by
  simp only [actSfree, hrun, hfits, if_neg hn, hok]

theorem actRenew_empty (hn : n = 0) : actRenew f s = .done (s.result 2 0 (.sem f.sem.toNat 1)) := by
  simp only [actRenew, hrun, hfits, if_pos hn]

theorem actRenew_foreign {i : Nat} (hn : n ≠ 0) (hbad : s.me.badSlab (base / 2048) n (fun b => b.own s.me.ctx) = some i) :
    actRenew f s = memTrap 0x41 (i * 2048) (memStatus 0 0 0 0 i) := by
  simp only [actRenew, hrun, hfits, if_neg hn, hbad]

theorem actRenew_own (hn : n ≠ 0) (hok : s.me.badSlab (base / 2048) n (fun b => b.own s.me.ctx) = none) :
    actRenew f s = if s.earlyStart f.start.toNat then startTrap
      else .done (s.modUnits s.cur.core (fun u =>
        { u with renew := u.renew ++ [s.command 0 (base / 2048) 0 0 n f.sem.toNat f.start.toNat false] })) := by
  simp only [actRenew, hrun, hfits, if_neg hn, hok]

end

theorem traps_startTrap {s : State} {i : Instr} {codes : List (BitVec 5)} {act : State → Act} (hexec : exec i s = issue s codes act)
    (hready : s.Ready codes) (hact : act s = startTrap) : s.Traps i 0x25 0 :=
  let ⟨info, hcause, hcls, h⟩ : ∃ info : TrapInfo, info.cause = 0x25 ∧ info.cls = 0 ∧ act s = .trap info := ⟨timingTrap 0x25 0 0, rfl, rfl, hact⟩
  ⟨info, hcause, hcls, by rw [hexec, issue_of_ready act hready, h, settleAct_trap]⟩

end Sys2Proof.Machine

namespace Sys2Proof.Proofs
open Sys2Proof.Machine

theorem slabInstructionsActOnTheirRun : Claims.SlabInstructionsActOnTheirRun := by
  unfold Claims.SlabInstructionsActOnTheirRun
  intro s f base n
  have hsalloc : exec (.salloc f) s = issue s [] (actSalloc false f) := show _ = execSalloc f s from rfl
  have hsallocZ : exec (.sallocZ f) s = issue s [] (actSalloc true f) := show _ = execSallocZ f s from rfl
  have hstash : exec (.stash f) s = issue s [] (actStash f) := show _ = execStash f s from rfl
  refine ⟨?_, ?_, ?_⟩
  · rintro rfl rfl hready
    refine ⟨fun h => ?_, fun hn => State.issues_of_done hstash hready (if_pos hn), fun h hn hout => ?_, fun hfits hn => ?_, fun hfits hn hown => ?_,
      fun hfits hn hbad => ?_, fun hfits hn hlive hnone hflight => ?_⟩
    · have hrun := runFault_misaligned (n := f.n.toNat) h
      exact ⟨State.traps_of_memTrap hsalloc hready (actSalloc_runFault hrun), State.traps_of_memTrap hsallocZ hready (actSalloc_runFault hrun),
        fun hn => State.traps_of_memTrap hstash hready (actStash_runFault hn hrun)⟩
    · have hrun := runFault_beyond h hn hout
      exact ⟨State.traps_of_memTrap hsalloc hready (actSalloc_runFault hrun), State.traps_of_memTrap hsallocZ hready (actSalloc_runFault hrun),
        State.traps_of_memTrap hstash hready (actStash_runFault hn hrun)⟩
    · have hrun := runFault_fits hfits.1 hfits.2
      exact ⟨State.issues_of_done hsalloc hready (actSalloc_empty hrun hn), State.issues_of_done hsallocZ hready (actSalloc_empty hrun hn)⟩
    · have hrun := runFault_fits hfits.1 hfits.2
      have hok := badSlab_none (co := s.me) (ok := fun b => decide (b.kind = .free) || b.own s.me.ctx) (fun i hlo hhi => by
        rcases hown i hlo hhi with h | h
        · simp [h]
        · simp [own_iff.mpr h])
      refine ⟨State.issues_of_done hsalloc hready (actSalloc_claims hrun hn hok), fun hearly => traps_startTrap hsallocZ hready ?_, fun hearly => ?_⟩
      · rw [actSalloc_claims hrun hn hok, earlyStart_iff.mpr hearly]
        rfl
      · have hnot : s.earlyStart f.start.toNat = false := Bool.eq_false_iff.mpr (fun h => hearly (earlyStart_iff.mp h))
        have hact := actSalloc_claims (z := true) hrun hn hok
        simp only [hnot, Bool.and_false, Bool.false_eq_true, if_false, if_true] at hact
        refine ⟨_, s.zeroFill f, State.issues_of_done hsallocZ hready hact, ?_, rfl, rfl, rfl, rfl, rfl, rfl, ?_⟩
        · exact congrArg (fun co : Core => co.units.renew) (me_claims_filled s f _)
        · change _ = (s.claims f).me.im.flight
          rw [me_claims_filled]
    · have hrun := runFault_fits hfits.1 hfits.2
      obtain ⟨i, hlo, hhi, hi⟩ := hbad
      obtain ⟨j, hj⟩ := badSlab_some (co := s.me) (ok := fun b => decide (b.kind = .free) || b.own s.me.ctx) ⟨i, hlo, hhi, by
        rw [Bool.or_eq_false_iff]
        exact ⟨decide_eq_false (fun h => hi (Or.inl h)), Bool.eq_false_iff.mpr (fun h => hi (Or.inr (own_iff.mp h)))⟩⟩
      exact ⟨State.traps_of_memTrap hsalloc hready (actSalloc_taken hrun hn hj), State.traps_of_memTrap hsallocZ hready (actSalloc_taken hrun hn hj)⟩
    · exact State.issues_of_done hstash hready (actStash_opens (runFault_fits hfits.1 hfits.2) hn hlive hnone hflight)
  · intro i hi hslabs hfits
    obtain ⟨codes, hready, hexec⟩ : ∃ codes, s.Ready codes ∧ exec i s = issue s codes (actSfree f) := by
      rcases hi with ⟨rfl, hready, -⟩ | ⟨rfl, hready, -⟩
      · exact ⟨_, hready, show _ = execSfree f s from rfl⟩
      · exact ⟨_, hready, show _ = execSfreeDesc f s from rfl⟩
    have hrun := runFault_fits hfits.1 hfits.2
    refine ⟨fun hn => State.issues_of_done hexec hready (actSfree_empty hslabs hrun hn), fun hn hmine => ?_, fun hn hmine haddr => ?_, fun hn hmine haddr => ?_⟩
    · obtain ⟨j, hj⟩ := foreign_slab hmine
      exact State.traps_of_memTrap hexec hready (actSfree_foreign hslabs hrun hn hj)
    · exact State.waits_of_wait hexec hready ((actSfree_own hslabs hrun hn (own_slabs hmine)).trans (if_pos haddr))
    · exact State.issues_of_done hexec hready ((actSfree_own hslabs hrun hn (own_slabs hmine)).trans (if_neg (by rw [haddr]; exact Bool.false_ne_true)))
  · intro hready hslabs hfits
    have hexec : exec (.renew f) s = issue s (if f.var = 2 then [f.b] else []) (actRenew f) := show _ = execRenew f s from rfl
    have hrun := runFault_fits hfits.1 hfits.2
    refine ⟨fun hn => State.issues_of_done hexec hready (actRenew_empty hslabs hrun hn), fun hn hmine => ?_, fun hn hmine hearly => ?_, fun hn hmine hearly => ?_⟩
    · obtain ⟨j, hj⟩ := foreign_slab hmine
      exact State.traps_of_memTrap hexec hready (actRenew_foreign hslabs hrun hn hj)
    · exact traps_startTrap hexec hready ((actRenew_own hslabs hrun hn (own_slabs hmine)).trans (if_pos (earlyStart_iff.mpr hearly)))
    · refine ⟨_, s.command 0 (base / 2048) 0 0 n f.sem.toNat f.start.toNat false, State.issues_of_done hexec hready
        ((actRenew_own hslabs hrun hn (own_slabs hmine)).trans (if_neg (fun h => hearly (earlyStart_iff.mp h)))), ?_, rfl, rfl, rfl, rfl, rfl, rfl⟩
      exact congrArg (fun co : Core => co.units.renew) ((State.core_modUnits ..).trans (if_pos rfl))

end Sys2Proof.Proofs
end

