-- ==== Sys2Proof/Proofs/SlabUnits.lean ====
section
/-! PROOFS. The renew unit, the stash window and the sweeper, cycle by cycle (R214, R220 to R223, R225, R245). -/
namespace Sys2Proof.Machine

/-! ### Faults of units -/

theorem units_setPending (s : State) (c d ctx : Nat) (e : PErr) : ((s.setPending c ctx e).core d).units = (s.core d).units := by
  unfold State.setPending
  split
  · rw [State.core_modIm]
    split
    · next h => rw [h]
    · rfl
  · rfl

theorem units_takeTrap (s : State) (c d : Nat) (q : Seq) (t : TrapInfo) (cmd more : Nat) : ((s.takeTrap c q t cmd more).core d).units = (s.core d).units := by
  have hcore : ∀ u : State, u.cores = s.cores → (u.core d).units = (s.core d).units := fun u h => by rw [State.core, h]; rfl
  unfold State.takeTrap
  rw [State.core_modSeq, State.core_modStops, State.core_modStops]
  have hend : ∀ x, ((if q = .c then s.endCounted c else s).core x) = s.core x := fun x => by
    split
    · rw [State.core, endCounted_cores]; rfl
    · rfl
  by_cases hd : d = c
  · simp only [hd, if_true, hend]
  · simp only [if_neg hd, hend]

/-- A fault that a unit finds leaves what the units hold. -/
theorem units_unitFault (s : State) (c ctx d : Nat) (q : Seq) (seg cmd : Nat) (t : TrapInfo) :
    ((s.unitFault c ctx q seg cmd t).core d).units = (s.core d).units := by
  unfold State.unitFault
  dsimp only
  split
  · split
    · exact units_takeTrap ..
    · exact units_setPending ..
  · exact units_setPending ..

/-! ### The renew unit -/

/-- The renew unit rewrites on with the first of its commands. -/
def State.renewGo (s : State) (c : Nat) (r : List EngCmd) (e : EngCmd) : State :=
  (s.posts c (e.renewPosts e.j s.tstep)).modUnits c (fun u => { u with renew := { e with j := e.j + 1, nextAt := s.cyc + 1 } :: r })

section
variable {s : State} {c : Nat} {e : EngCmd} {r : List EngCmd} (hrenew : (s.core c).units.renew = e :: r) (hlate : (s.core c).lateStart (e :: r) s.cyc = none)
include hrenew hlate

theorem renewStep_begins (hbegun : e.begun = none) (hbegins : (s.core c).begins e s.cyc = true) :
    s.renewStep c = match (if e.fill then none else (s.core c).renewFault e s.tstep) with
      | some (cause, k) => some ((s.modUnits c (fun u => { u with renew := [] })).commandFault c e 3 0 cause (k * 2048) (memStatus 0 0 0 0 k))
      | none => some (s.renewGo c r { e with begun := some s.cyc }) := by
  unfold State.renewStep
  simp only [hrenew, hlate, hbegun, if_pos hbegins]
  rfl

theorem renewStep_rewrites (hbegun : e.begun.isSome = true) (hat : e.nextAt ≤ s.cyc) (hj : e.j < e.renewCycles) :
    s.renewStep c = some (s.renewGo c r e) := by
  obtain ⟨b, hb⟩ := Option.isSome_iff_exists.mp hbegun
  unfold State.renewStep
  simp only [hrenew, hlate, hb, if_pos (And.intro hat hj), State.renewGo]

end

theorem core_renewGo (s : State) (c : Nat) (r : List EngCmd) (e : EngCmd) : (s.renewGo c r e).core c = { s.core c with
    posted := (s.core c).posted ++ e.renewPosts e.j s.tstep,
    units := { (s.core c).units with renew := { e with j := e.j + 1, nextAt := s.cyc + 1 } :: r } } := by
  rw [State.renewGo, State.core_modUnits, if_pos rfl, State.posts, State.core_modCore, if_pos rfl]

/-- On the last cycle of a row each slab of it is stamped. -/
theorem stamp_mem_renewPosts {e : EngCmd} {x ts k : Nat} (hx : x % 16 = 15) (hk : k ∈ e.renewRow x) : .stamp k ts ∈ e.renewPosts x ts := by
  rw [EngCmd.renewPosts, List.mem_flatMap]
  exact ⟨k, hk, List.mem_append_right _ (by rw [if_pos hx]; exact List.mem_singleton_self _)⟩

theorem exec_renewUnitCommand {s t : State} {c : Nat} (hc : c < 128) (h : s.renewStep c = some t) : exec (.renewUnitCommand c) s = .next t := by
  rw [show exec (.renewUnitCommand c) s = execRenewUnitCommand c s from rfl, execRenewUnitCommand, coreEvent_next]
  exact ⟨hc, h⟩

theorem exec_renewUnitComplete {s : State} {c : Nat} {e : EngCmd} {r : List EngCmd} (hc : c < 128) (hrenew : (s.core c).units.renew = e :: r)
    (hbegun : e.begun.isSome = true) (hat : e.nextAt ≤ s.cyc) (hj : e.renewCycles ≤ e.j) :
    exec (.renewUnitComplete c) s = .next ((s.modUnits c (fun u => { u with renew := r })).signalSem c e.ctx e.sem) := by
  rw [show exec (.renewUnitComplete c) s = execRenewUnitComplete c s from rfl, execRenewUnitComplete, coreEvent_next, hrenew]
  exact ⟨hc, if_pos ⟨hbegun, hat, hj⟩⟩

/-- A release aimed at a semaphore changes of each core no more than its semaphores. -/
theorem core_signalSem (s : State) (c ctx k d : Nat) : ∃ im, (s.signalSem c ctx k).core d = { s.core d with im := im } := by
  unfold State.signalSem
  dsimp only
  split
  · rw [State.core_modIm]
    split
    · next h => exact ⟨_, by rw [h]⟩
    · exact ⟨_, rfl⟩
  · exact ⟨_, rfl⟩

/-- A release aimed at a semaphore of the context that runs adds one there. -/
theorem sem_signalSem {s : State} {c ctx k : Nat} (hbound : (s.core c).bound = true) (hctx : (s.core c).ctx = ctx) (hleaving : (s.core c).leaving = false) :
    mget 0 ((s.signalSem c ctx k).core c).im.sems k = Nat.min 65535 (mget 0 (s.core c).im.sems k + 1) := by
  unfold State.signalSem
  rw [if_pos ⟨hbound, hctx, hleaving⟩, State.core_modIm, if_pos rfl]
  exact (semRelease_spec _ k 1).1

/-! ### The stash window -/

theorem stash_setStash {co : Core} {st : Stash} (h : st.ctx = co.ctx) : (co.setStash st).stash = some st := by
  rw [Core.stash, Core.setStash, h]
  exact (mfind_mset ..).trans (if_pos rfl)

theorem mfind_mdel_same {α : Type} (m : Map α) (a : Nat) : mfind (mdel m a) a = none := by
  induction m with
  | nil => rfl
  | cons p r ih =>
    obtain ⟨k, v⟩ := p
    rw [mdel]
    split
    · exact ih
    · next h => rw [mfind, if_neg h, ih]

/-- What many puts leave at a key: what is put there by its own value, or what was there. -/
theorem mget_foldl_mput {α : Type} [DecidableEq α] (d : α) (g : Nat → α) (l : List Nat) (m : Map α) (j : Nat) :
    mget d (l.foldl (fun m i => mput d m i (g i)) m) j = if j ∈ l then g j else mget d m j := by
  induction l generalizing m with
  | nil => rfl
  | cons i r ih =>
    rw [List.foldl_cons, ih, mget_mput]
    by_cases hr : j ∈ r
    · rw [if_pos hr, if_pos (List.mem_cons_of_mem _ hr)]
    · rw [if_neg hr]
      by_cases hj : j = i
      · rw [if_pos hj, if_pos (List.mem_cons.mpr (Or.inl hj)), hj]
      · rw [if_neg hj, if_neg (fun h => (List.mem_cons.mp h).elim hj hr)]

theorem slab_endStash (co : Core) (st : Stash) (i : Nat) : (co.endStash st).slab i =
    if i ∈ upTo st.base st.n then { co.slab i with kind := .live, born := false } else co.slab i :=
  mget_foldl_mput Slab.init (fun i => { co.slab i with kind := .live, born := false }) _ _ i

theorem stash_endStash {co : Core} {st : Stash} (h : st.ctx = co.ctx) : (co.endStash st).stash = none := by
  rw [Core.stash, Core.endStash, h]
  exact mfind_mdel_same ..

/-- Of a core's windows that of the context it runs comes first. -/
theorem firstSome_allWindows {β : Type} {co : Core} {st : Stash} (hst : co.stash = some st) {f : Stash → Option β} {b : β} (h : f st = some b) :
    firstSome f co.allWindows = some b := by
  rw [Core.allWindows, hst]
  simp only [firstSome, h]

section
variable {s : State} {c : Nat} {st : Stash} (hc : c < 128) (hst : (s.core c).stash = some st)
include hc hst

theorem exec_stashCloseComplete {k at_ : Nat} (hclosing : st.closing = some (k, at_)) (hat : at_ ≤ s.cyc) :
    exec (.stashCloseComplete c) s = .next ((s.modCore c (fun co => co.endStash st)).signalSem c st.ctx k) := by
  have hclosed : st.closed s.cyc = some (st, k) := by
    rw [Stash.closed, hclosing]
    exact if_pos hat
  rw [show exec (.stashCloseComplete c) s = execStashCloseComplete c s from rfl, execStashCloseComplete, coreEvent_next,
    firstSome_allWindows hst (f := fun st => st.closed s.cyc) hclosed]
  exact ⟨hc, rfl⟩

theorem exec_stashMissFill {va : Nat} {r : List Nat} (hmissing : st.missing = va :: r) : exec (.stashMissFill c) s =
    .next (s.modCore c (fun co => co.setStash (st.fill va s.tstep (co.ms.dirtyBytes st.ctx va)))) := by
  have hhead : (st.missing.head?.map (fun va => (st, va))) = some (st, va) := by
    rw [hmissing]
    rfl
  rw [show exec (.stashMissFill c) s = execStashMissFill c s from rfl, execStashMissFill, coreEvent_next,
    firstSome_allWindows hst (f := fun st => st.missing.head?.map (fun va => (st, va))) hhead]
  exact ⟨hc, rfl⟩

end

/-- The entry of this number of the window of the context that the core runs. -/
theorem entryAt_stash {co : Core} {st : Stash} {e : StashEnt} {i : Nat} (hst : co.stash = some st) (hctx : st.ctx = co.ctx) (hi : i < 8192)
    (he : mfind st.ents i = some e) : co.entryAt (8192 * st.ctx + i) = some (st, e) := by
  have hdiv : (8192 * st.ctx + i) / 8192 = co.ctx := by omega
  have hmod : (8192 * st.ctx + i) % 8192 = i := by omega
  rw [Core.entryAt, hdiv, hmod, ← Core.stash, hst]
  simp [he]

theorem exec_stashEntryExpire {s : State} {c i : Nat} {st : Stash} {e : StashEnt} (hc : c < 128) (hst : (s.core c).stash = some st) (hctx : st.ctx = (s.core c).ctx)
    (hi : i < 8192) (he : mfind st.ents i = some e) (hclean : e.dirty = 0) (hage : e.ts + 1875 ≤ s.cyc / 256) :
    exec (.stashEntryExpire c (8192 * st.ctx + i)) s = .next (s.modCore c (fun co => co.setStash { st with ents := mdel st.ents i })) := by
  have hgate : e.dirty = 0 ∧ e.ts + retention ≤ s.tstep := ⟨hclean, hage⟩
  have hmod : (8192 * st.ctx + i) % 8192 = i := by omega
  rw [show exec (.stashEntryExpire c (8192 * st.ctx + i)) s = execStashEntryExpire c (8192 * st.ctx + i) s from rfl, execStashEntryExpire,
    coreEvent_next, entryAt_stash hst hctx hi he]
  simp only [if_pos hgate, hmod, and_true]
  exact hc

theorem exec_sweepStashWriteback {s : State} {c i : Nat} {st : Stash} {e : StashEnt} (hc : c < 128) (hst : (s.core c).stash = some st)
    (hctx : st.ctx = (s.core c).ctx) (hi : i < 8192) (he : mfind st.ents i = some e) (hdirty : e.dirty ≠ 0)
    (hage : 1875 ≤ s.cyc / 256 - e.ts + (s.core c).swthr) : exec (.sweepStashWriteback c (8192 * st.ctx + i)) s =
      .next (s.modCore c (fun co => co.setStash { st with ents := mset st.ents i { e with dirty := 0 } })) := by
  have hgate : e.dirty ≠ 0 ∧ retention ≤ s.tstep - e.ts + (s.core c).swthr := ⟨hdirty, hage⟩
  have hmod : (8192 * st.ctx + i) % 8192 = i := by omega
  rw [show exec (.sweepStashWriteback c (8192 * st.ctx + i)) s = execSweepStashWriteback c (8192 * st.ctx + i) s from rfl, execSweepStashWriteback,
    coreEvent_next, entryAt_stash hst hctx hi he]
  simp only [if_pos hgate, hmod, and_true]
  exact hc

/-! ### The sweeper -/

theorem slab_setSlab (s : State) (c n m : Nat) (b : Slab) : ((s.modCore c (fun co => { co with slabs := mput Slab.init co.slabs n b })).core c).slab m =
    if m = n then b else (s.core c).slab m := by
  rw [State.core_modCore, if_pos rfl]
  exact mget_mput ..

/-- A slab that the sweeper rewrites has a new stamp; the others, and the scratchpad's bytes, are as they were. -/
theorem rewriteSlab_spec (s : State) (c n : Nat) : ((s.rewriteSlab c n).core c).slab n = { (s.core c).slab n with stamp := s.tstep } ∧
    (∀ m, m ≠ n → ((s.rewriteSlab c n).core c).slab m = (s.core c).slab m) ∧ ((s.rewriteSlab c n).core c).spad = (s.core c).spad := by
  have hslab := fun m => slab_setSlab s c n m { (s.core c).slab n with stamp := s.tstep }
  refine ⟨(hslab n).trans (if_pos rfl), fun m hm => (hslab m).trans (if_neg hm), ?_⟩
  rw [State.rewriteSlab, State.core_modCore, if_pos rfl]

theorem near_iff {b : Slab} {h ts : Nat} : b.near h ts = true ↔ b.born = true ∧ 1875 ≤ ts - b.stamp + h := by
  rw [Slab.near, Bool.and_eq_true, decide_eq_true_eq, decide_eq_true_eq, retention]

end Sys2Proof.Machine

namespace Sys2Proof.Proofs
open Sys2Proof.Machine

theorem renewUnitRewritesAndCompletes : Claims.RenewUnitRewritesAndCompletes := by
  unfold Claims.RenewUnitRewritesAndCompletes
  intro s c e r hc hrenew
  refine ⟨fun hlate hbegun hbegins hok => ?_, fun hlate hbegun hbegins hfill cause k hfault => ?_, fun hlate hbegun hat hj => ?_, fun hbegun hat hj => ?_⟩
  · have hnone : (if e.fill then none else (s.core c).renewFault e s.tstep) = none := by
      rcases hok with h | h
      · rw [if_pos h]
      · rw [h, ite_self]
    refine ⟨s.renewGo c r { e with begun := some s.cyc }, { e with begun := some s.cyc, j := e.j + 1, nextAt := s.cyc + 1 }, exec_renewUnitCommand hc ?_, ?_⟩
    · rw [renewStep_begins hrenew hlate hbegun hbegins, hnone]
    · rw [core_renewGo]
      exact ⟨rfl, rfl, rfl, rfl, rfl⟩
  · have hsome : (if e.fill then none else (s.core c).renewFault e s.tstep) = some (cause, k) := by
      rw [hfill, hfault]
      rfl
    refine ⟨_, exec_renewUnitCommand hc (by rw [renewStep_begins hrenew hlate hbegun hbegins, hsome]), ?_⟩
    rw [State.commandFault, units_unitFault, State.core_modUnits, if_pos rfl]
  · refine ⟨s.renewGo c r e, { e with j := e.j + 1, nextAt := s.cyc + 1 }, exec_renewUnitCommand hc (renewStep_rewrites hrenew hlate hbegun hat hj), ?_⟩
    rw [core_renewGo]
    exact ⟨rfl, rfl, rfl, rfl, fun hlast k hk => List.mem_append_right _ (stamp_mem_renewPosts hlast hk)⟩
  · refine ⟨_, exec_renewUnitComplete hc hrenew hbegun hat hj, ?_, fun hbound hctx hleaving => ?_⟩
    · obtain ⟨im, him⟩ := core_signalSem (s.modUnits c (fun u => { u with renew := r })) c e.ctx e.sem c
      rw [him, State.core_modUnits, if_pos rfl]
    · have hcore : (s.modUnits c (fun u => { u with renew := r })).core c = { s.core c with units := { (s.core c).units with renew := r } } := by
        rw [State.core_modUnits, if_pos rfl]
      rw [sem_signalSem (by rw [hcore]; exact hbound) (by rw [hcore]; exact hctx) (by rw [hcore]; exact hleaving), hcore]

theorem stashWindowFillsExpiresAndCloses : Claims.StashWindowFillsExpiresAndCloses := by
  unfold Claims.StashWindowFillsExpiresAndCloses
  intro s f c st
  refine ⟨fun hready => ?_, fun hc hst hctx => ⟨fun k at_ hclosing hat => ?_, fun va r hmissing => ?_, fun i e hi he hclean hage => ?_⟩⟩
  · have hexec : exec (.stashClose f) s = issue s [] (actStashClose f) := show _ = execStashClose f s from rfl
    refine ⟨fun htimed => State.waits_of_wait hexec hready (if_pos htimed), fun htimed hnone => State.issues_of_done hexec hready ?_,
      fun htimed hst hctx hopen => ⟨(s.later 1).2.modCore s.cur.core (fun co => co.setStash { st with closing := some (f.sem.toNat, (s.later 1).1) }),
        (s.later 1).1, State.issues_of_done hexec hready ?_, Nat.le_add_right .., ?_⟩⟩
    · rw [actStashClose, if_neg (by rw [htimed]; exact Bool.false_ne_true), hnone]
    · simp only [actStashClose, htimed, Bool.false_eq_true, if_false, hst, hopen]
    · have hme : ((s.later 1).2.modCore s.cur.core (fun co => co.setStash { st with closing := some (f.sem.toNat, (s.later 1).1) })).me =
          s.me.setStash { st with closing := some (f.sem.toNat, (s.later 1).1) } := (State.core_modCore ..).trans (if_pos rfl)
      rw [hme]
      exact stash_setStash hctx
  · obtain ⟨im, him⟩ := core_signalSem (s.modCore c (fun co => co.endStash st)) c st.ctx k c
    rw [State.core_modCore, if_pos rfl] at him
    refine ⟨_, exec_stashCloseComplete hc hst hclosing hat, ?_, fun i hlo hhi => ?_, fun i hout => ?_⟩
    · rw [him]
      exact stash_endStash hctx
    · rw [him]
      change ((s.core c).endStash st |>.slab i).kind = _ ∧ ((s.core c).endStash st |>.slab i).born = _
      rw [slab_endStash, if_pos (mem_upTo.mpr ⟨hlo, hhi⟩)]
      exact ⟨rfl, rfl⟩
    · rw [him]
      exact (slab_endStash ..).trans (if_neg (fun h => by have := mem_upTo.mp h; omega))
  · refine ⟨_, st.fill va s.tstep ((s.core c).ms.dirtyBytes st.ctx va), exec_stashMissFill hc hst hmissing, ?_, ?_, st.victim, (mfind_mset ..).trans (if_pos rfl)⟩
    · rw [State.core_modCore, if_pos rfl]
      exact stash_setStash hctx
    · rw [Stash.fill, hmissing]
      exact List.erase_cons_head ..
  · refine ⟨_, exec_stashEntryExpire hc hst hctx hi he hclean hage, ?_⟩
    rw [State.core_modCore, if_pos rfl]
    exact stash_setStash hctx

theorem sweeperRenewsAndMarksLost : Claims.SweeperRenewsAndMarksLost := by
  unfold Claims.SweeperRenewsAndMarksLost
  intro s c n hc
  refine ⟨fun hring hnear => ?_, fun hlive hwire hnear => ?_, fun hlive hborn hage hout => ?_, fun st e hst hctx hn he hdirty hage => ?_⟩
  · obtain ⟨hborn, hend, hyoung, hstamp⟩ := hnear
    refine ⟨_, ?_, rewriteSlab_spec s c n⟩
    rw [show exec (.sweepRingRenew c n) s = execSweepRingRenew c n s from rfl, execSweepRingRenew, coreEvent_next]
    exact ⟨hc, if_pos ⟨hring, near_iff.mpr ⟨hborn, hend⟩, hstamp, hyoung⟩⟩
  · obtain ⟨hborn, hend, hyoung, hstamp⟩ := hnear
    have hfreezes : s.wireFreezes ((s.core c).slab n).owner c = true := by
      obtain ⟨w, hw, hctx, hcore, hholds⟩ := hwire
      rw [State.wireFreezes, List.any_eq_true]
      exact ⟨w, hw, by simp [hctx, hcore, hholds]⟩
    refine ⟨_, ?_, rewriteSlab_spec s c n⟩
    rw [show exec (.sweepFrozenSlabRenew c n) s = execSweepFrozenSlabRenew c n s from rfl, execSweepFrozenSlabRenew, coreEvent_next]
    exact ⟨hc, if_pos ⟨hlive, hfreezes, near_iff.mpr ⟨hborn, hend⟩, hstamp, hyoung⟩⟩
  · have hnot : ¬((s.core c).bound ∧ ((s.core c).slab n).owner = (s.core c).ctx) := by
      rintro ⟨hbound, howner⟩
      rcases hout with h | h
      · rw [h] at hbound
        cases hbound
      · exact h howner
    refine ⟨_, ?_, (slab_setSlab ..).trans (if_pos rfl), fun m hm => (slab_setSlab ..).trans (if_neg hm)⟩
    rw [show exec (.sweepMarkLost c n) s = execSweepMarkLost c n s from rfl, execSweepMarkLost, coreEvent_next]
    exact ⟨hc, if_pos ⟨hlive, hborn, hage, hnot⟩⟩
  · refine ⟨_, exec_sweepStashWriteback hc hst hctx hn he hdirty hage, ?_⟩
    rw [State.core_modCore, if_pos rfl]
    exact stash_setStash hctx

/-- Settles O36, by its two claims: on the slab instructions, and on the stash window. -/
theorem slabsAndTheStashWindow : Obligations.SlabsAndTheStashWindow := by
  unfold Obligations.SlabsAndTheStashWindow
  exact ⟨slabInstructionsActOnTheirRun, stashWindowFillsExpiresAndCloses⟩

/-- Settles O40, by its two claims: on the renew unit, and on the sweeper. -/
theorem slabsAreRenewed : Obligations.SlabsAreRenewed := by
  unfold Obligations.SlabsAreRenewed
  exact ⟨renewUnitRewritesAndCompletes, sweeperRenewsAndMarksLost⟩

end Sys2Proof.Proofs
end

