-- ==== Sys2Proof/Proofs/Leases.lean ====
section
/-! PROOFS. Leases of the arrays and the commands they count: what a counted command meets before it joins its array's queue, and how leases are asked
for, granted and ended (R173 to R175, R177, R179, R187, R196, R199). -/
namespace Sys2Proof.Machine

/-! ### Counted commands -/

/-- The form computes at the banks, and waits in a timed segment (R199). -/
def atBankForm : Instr → Bool
  | .mmaAtBank _ => true
  | _ => false

theorem atBankForm_iff {i : Instr} : atBankForm i = true ↔ ∃ g, i = .mmaAtBank g := by
  constructor
  · intro h
    unfold atBankForm at h
    split at h
    · exact ⟨_, rfl⟩
    · cases h
  · rintro ⟨g, rfl⟩
    rfl

/-- The γ that a counted command joins its queue with. -/
def State.gammaOf (s : State) (i : Instr) (f : MtxF) : Half := if arrFades i f then (s.rd f.gam).setWidth 32 else 0

/-- How a counted command ends, all forms alike. -/
def State.countedAct (s : State) (i : Instr) (f : MtxF) (bad : Bool) (regions : List (Nat × Nat × Nat)) : Act :=
  if s.mayCount = false then arrTrap (arrOf s.cur.core) 0x61 f.tile.toNat
  else if s.fenced.contains (arrOf s.cur.core) then fencedTrap 1 (arrOf s.cur.core)
  else if bad then s.opTrap 0xB
  else if atBankForm i && s.me.timed then .wait s 0xA 0 0
  else
    match regionFault regions with
    | some x => x
    | none => .done (s.counted i (s.gammaOf i f))

/-- The register codes that a counted command reads. -/
def State.countedReads (s : State) (i : Instr) (f : MtxF) : List (BitVec 5) := if arrFades i f && s.mayCount then [f.gam] else []

theorem actCounted_eq {s : State} {i : Instr} {f : MtxF} {bad : Bool} {regions : List (Nat × Nat × Nat)} (h : atBankForm i = false) :
    actCounted i f.tile.toNat bad regions (s.gammaOf i f) s = s.countedAct i f bad regions := by
  unfold actCounted State.countedAct
  rw [h]
  rfl

theorem exec_counted {s : State} {i : Instr} {f : MtxF} {bad : Bool} {regions : List (Nat × Nat × Nat)} (h : arrRow i = some (f, bad, regions)) :
    ∃ act : State → Act, exec i s = issue s (s.countedReads i f) act ∧ act s = s.countedAct i f bad regions := by
  unfold arrRow at h
  split at h <;> cases h
  · exact ⟨_, show _ = execMma _ s from rfl, actCounted_eq (i := .mma _) rfl⟩
  · exact ⟨_, show _ = execMmac _ s from rfl, actCounted_eq (i := .mmac _) rfl⟩
  · exact ⟨_, show _ = execMmas _ s from rfl, actCounted_eq (i := .mmas _) rfl⟩
  · refine ⟨_, show _ = execMmaAtBank _ s from rfl, ?_⟩
    dsimp only
    unfold State.countedAct actCounted
    split
    · rfl
    · split
      · rfl
      · split
        · rfl
        · rfl
  · exact ⟨_, show _ = execAmz _ s from rfl, actCounted_eq (i := .amz _) rfl⟩
  · exact ⟨_, show _ = execAld _ s from rfl, actCounted_eq (i := .ald _) rfl⟩
  · exact ⟨_, show _ = execAret _ s from rfl, actCounted_eq (i := .aret _) rfl⟩

/-- The core holds the array for a counted command (R173, R175). -/
theorem mayCount_iff {s : State} : s.mayCount = true ↔ (s.arr (s.cur.core / 4)).holder = some s.cur.core ∧ (s.arr (s.cur.core / 4)).lctx = s.me.ctx ∧
    (s.headerLease = true ∨ ∃ n, (s.arr (s.cur.core / 4)).count = some n ∧ 1 ≤ n) := by
  simp only [State.mayCount, arrOf, Bool.and_eq_true, Bool.or_eq_true, and_assoc]
  refine and_congr decide_eq_true_iff (and_congr decide_eq_true_iff (or_congr Iff.rfl ?_))
  cases h : (s.arr (s.cur.core / 4)).count with
  | none => simp
  | some n => simp

theorem regionFault_misaligned {l : List (Nat × Nat × Nat)} (h : ¬∀ r ∈ l, r.1 % r.2.2 = 0) :
    ∃ r : Nat × Nat × Nat, regionFault l = some (memTrap 0x40 r.1 (memStatus 0 0 0 0 0)) := by
  simp only [not_forall] at h
  obtain ⟨r, hr, hbad⟩ := h
  obtain ⟨r', hr'⟩ := Option.isSome_iff_exists.mp (List.find?_isSome (p := fun r : Nat × Nat × Nat => decide (r.1 % r.2.2 ≠ 0)).mpr
    ⟨r, hr, decide_eq_true hbad⟩)
  exact ⟨r', by rw [regionFault, hr']⟩

theorem regionFault_aligned {l : List (Nat × Nat × Nat)} (h : ∀ r ∈ l, r.1 % r.2.2 = 0) :
    regionFault l = (l.find? (fun r => decide (0 < r.2.1) && decide (0x5FFFFF < r.1 + r.2.1 - 1))).map (fun r =>
      memTrap 0x41 r.1 (memStatus 0 0 0 0 (r.1 / 2048))) := by
  have hnone : l.find? (fun r => decide (r.1 % r.2.2 ≠ 0)) = none := List.find?_eq_none.mpr (fun r hr => by simp [h r hr])
  rw [regionFault, hnone]

theorem regionFault_beyond {l : List (Nat × Nat × Nat)} (h : ∀ r ∈ l, r.1 % r.2.2 = 0) (hout : ¬∀ r ∈ l, r.2.1 = 0 ∨ r.1 + r.2.1 ≤ 0x600000) :
    ∃ r : Nat × Nat × Nat, regionFault l = some (memTrap 0x41 r.1 (memStatus 0 0 0 0 (r.1 / 2048))) := by
  simp only [not_forall] at hout
  obtain ⟨r, hr, hbad⟩ := hout
  have hp : (decide (0 < r.2.1) && decide (0x5FFFFF < r.1 + r.2.1 - 1)) = true := by
    rw [Bool.and_eq_true, decide_eq_true_eq, decide_eq_true_eq]
    omega
  obtain ⟨r', hr'⟩ := Option.isSome_iff_exists.mp (List.find?_isSome
    (p := fun r : Nat × Nat × Nat => decide (0 < r.2.1) && decide (0x5FFFFF < r.1 + r.2.1 - 1)).mpr ⟨r, hr, hp⟩)
  exact ⟨r', by rw [regionFault_aligned h, hr']; rfl⟩

theorem regionFault_none {l : List (Nat × Nat × Nat)} (h : ∀ r ∈ l, r.1 % r.2.2 = 0) (hin : ∀ r ∈ l, r.2.1 = 0 ∨ r.1 + r.2.1 ≤ 0x600000) :
    regionFault l = none := by
  rw [regionFault_aligned h, Option.map_eq_none_iff, List.find?_eq_none]
  intro r hr
  have := hin r hr
  rw [Bool.and_eq_true, decide_eq_true_eq, decide_eq_true_eq]
  omega

/-- What an array's lease is after one counted command more. -/
def ArrSt.countOne (a : ArrSt) (c cyc : Nat) : ArrSt :=
  match a.count with
  | some n => if n ≤ 1 then a.endLease c cyc else { a with count := some (n - 1) }
  | none => a

theorem arr_countOne (s : State) : s.countOne.arr (s.cur.core / 4) =
    if s.headerLease then s.arr (s.cur.core / 4) else (s.arr (s.cur.core / 4)).countOne s.cur.core s.cyc := by
  unfold State.countOne
  split
  · rfl
  · rw [arrOf, State.arr_modArr, if_pos rfl]
    rfl

theorem queue_countOne (a : ArrSt) (c cyc : Nat) : (a.countOne c cyc).queue = a.queue := by
  unfold ArrSt.countOne ArrSt.endLease
  split
  · split
    · dsimp only
      split <;> rfl
    · rfl
  · rfl

/-- The array after a counted command has joined its queue: its lease, and its queue. -/
theorem arr_counted (s : State) (i : Instr) (gam : Half) : ∃ x : ArrCmd,
    (s.counted i gam).arr (s.cur.core / 4) = { s.countOne.arr (s.cur.core / 4) with queue := (s.arr (s.cur.core / 4)).queue ++ [x] } ∧
    x.op = i ∧ x.gam = gam ∧ x.core = s.cur.core ∧ x.ctx = s.me.ctx ∧ x.issue = s.t ∧ x.b = none := by
  have hqueue : (s.countOne.arr (s.cur.core / 4)).queue = (s.arr (s.cur.core / 4)).queue := by
    rw [arr_countOne]
    split
    · rfl
    · exact queue_countOne ..
  rw [← hqueue]
  exact ⟨_, (State.arr_modArr ..).trans (if_pos rfl), rfl, rfl, rfl, rfl, rfl, rfl⟩

theorem countOne_frame (s : State) : s.countOne.mem = s.mem ∧ s.countOne.cores = s.cores := by
  unfold State.countOne
  split <;> exact ⟨rfl, rfl⟩

/-! ### Leases -/

theorem arr_modSeq (s : State) (c q : Nat) (sq : Seq) (f : SeqSt → SeqSt) : (s.modSeq c sq f).arr q = s.arr q := rfl

/-- A lease that is asked for: any that the core holds ends, and its request stands last. -/
theorem endLease_asks {a : ArrSt} {c : Nat} (cyc : Nat) (h : ∀ r ∈ a.reqs, r.core ≠ c) :
    (a.endLease c cyc).holder = (if a.holder = some c then none else a.holder) ∧ (a.endLease c cyc).reqs = a.reqs := by
  have hkeep : a.reqs.filter (fun r => !decide (r.core = c) || r.header) = a.reqs :=
    List.filter_eq_self.mpr (fun r hr => by simp [h r hr])
  unfold ArrSt.endLease
  dsimp only
  rw [hkeep]
  split
  · exact ⟨rfl, rfl⟩
  · exact ⟨rfl, rfl⟩

/-- The request r goes before r' in the order in which an array grants them (R174). -/
def ArrSt.before (a : ArrSt) (r r' : LeaseReq) : Prop := r'.prio ≤ r.prio ∧ (r'.prio = r.prio → a.turn r.core ≤ a.turn r'.core)

theorem before_trans {a : ArrSt} {x y z : LeaseReq} (hxy : a.before x y) (hyz : a.before y z) : a.before x z :=
  ⟨hyz.1.trans hxy.1, fun h => by
    obtain ⟨hxy, hxy'⟩ := hxy
    obtain ⟨hyz, hyz'⟩ := hyz
    have hp : y.prio = x.prio := by omega
    exact (hxy' hp).trans (hyz' (by omega))⟩

/-- The request that an array grants of those behind one that it would grant. -/
theorem choice_fold (a : ArrSt) (l : List LeaseReq) (x : LeaseReq) : ∃ r, r ∈ x :: l ∧ (∀ r' ∈ x :: l, a.before r r') ∧
    l.foldl (fun b r =>
      match b with
      | none => some r
      | some x => if x.prio < r.prio ∨ (x.prio = r.prio ∧ a.turn r.core < a.turn x.core) then some r else some x) (some x) = some r := by
  induction l generalizing x with
  | nil => exact ⟨x, List.mem_singleton_self _, fun r' hr' => by obtain rfl := List.mem_singleton.mp hr'; exact ⟨le_rfl, fun _ => le_rfl⟩, rfl⟩
  | cons y l ih =>
    rw [List.foldl_cons]
    dsimp only
    by_cases hy : x.prio < y.prio ∨ (x.prio = y.prio ∧ a.turn y.core < a.turn x.core)
    · obtain ⟨r, hr, hmax, hfold⟩ := ih y
      have hyx : a.before y x := ⟨by omega, fun h => by omega⟩
      rw [if_pos hy]
      refine ⟨r, List.mem_cons_of_mem _ hr, fun r' hr' => ?_, hfold⟩
      rcases List.mem_cons.mp hr' with rfl | hr'
      · exact before_trans (hmax y List.mem_cons_self) hyx
      · exact hmax r' hr'
    · obtain ⟨r, hr, hmax, hfold⟩ := ih x
      have hxy : a.before x y := ⟨by omega, fun h => by omega⟩
      rw [if_neg hy]
      refine ⟨r, ?_, fun r' hr' => ?_, hfold⟩
      · rcases List.mem_cons.mp hr with rfl | hr
        · exact List.mem_cons_self
        · exact List.mem_cons_of_mem _ (List.mem_cons_of_mem _ hr)
      · rcases List.mem_cons.mp hr' with rfl | hr'
        · exact hmax _ List.mem_cons_self
        · rcases List.mem_cons.mp hr' with rfl | hr'
          · exact before_trans (hmax x List.mem_cons_self) hxy
          · exact hmax r' (List.mem_cons_of_mem _ hr')

/-- The request that an array grants goes before all the others. -/
theorem choice_spec {a : ArrSt} (h : a.reqs ≠ []) : ∃ r, a.choice = some r ∧ r ∈ a.reqs ∧ ∀ r' ∈ a.reqs, a.before r r' := by
  rw [ArrSt.choice]
  match hreqs : a.reqs with
  | [] => exact absurd hreqs h
  | x :: l =>
    obtain ⟨r, hr, hmax, hfold⟩ := choice_fold a l x
    exact ⟨r, hfold, hr, hmax⟩

end Sys2Proof.Machine

namespace Sys2Proof.Proofs
open Sys2Proof.Machine

/-- Settles O7: the checks of a counted command in their order, then its array after it. -/
theorem countedCommandsJoinTheArray : Obligations.CountedCommandsJoinTheArray := by
  unfold Obligations.CountedCommandsJoinTheArray
  intro s i f bad regions hrow
  obtain ⟨act, hexec, hact⟩ := exec_counted (s := s) hrow
  refine ⟨fun hready hnot => ?_, fun hready => ?_⟩
  · have hmay : s.mayCount = false := Bool.eq_false_iff.mpr (fun h => hnot (mayCount_iff.mp h))
    have hreads : s.countedReads i f = [] := by rw [State.countedReads, hmay, Bool.and_false]; rfl
    rw [hreads] at hexec
    exact State.traps_of_trap hexec hready (hact.trans (if_pos hmay))
  have hheld (hholds : (s.arr (s.cur.core / 4)).holder = some s.cur.core ∧ (s.arr (s.cur.core / 4)).lctx = s.me.ctx ∧
      (s.headerLease = true ∨ ∃ n, (s.arr (s.cur.core / 4)).count = some n ∧ 1 ≤ n)) :
      exec i s = issue s (if arrFades i f then [f.gam] else []) act ∧ act s = (if s.fenced.contains (arrOf s.cur.core) then fencedTrap 1 (arrOf s.cur.core)
        else if bad then s.opTrap 0xB
        else if atBankForm i && s.me.timed then .wait s 0xA 0 0
        else
          match regionFault regions with
          | some x => x
          | none => .done (s.counted i (s.gammaOf i f))) := by
    have hmay := mayCount_iff.mpr hholds
    refine ⟨?_, hact.trans (if_neg (by rw [hmay]; exact Bool.noConfusion))⟩
    rw [hexec, State.countedReads, hmay, Bool.and_true]
  have hfree (h : s.cur.core / 4 ∉ s.fenced) : ¬(s.fenced.contains (arrOf s.cur.core)) = true := by simpa [arrOf] using h
  have hrun (hearly : ¬((∃ g, i = .mmaAtBank g) ∧ s.me.timed = true)) : ¬(atBankForm i && s.me.timed) = true :=
    fun h => hearly ((Bool.and_eq_true_iff.mp h).imp_left atBankForm_iff.mp)
  refine ⟨fun hholds hfenced => ?_, fun hholds hok hbad => ?_, fun hholds hok hbad hearly => ?_, fun hholds hok hbad hearly halign => ?_,
    fun hholds hok hbad hearly halign hout => ?_, fun hholds hok hbad hearly halign hin => ?_⟩
  all_goals
    obtain ⟨hexec, hact⟩ := hheld hholds
  · exact State.traps_of_trap hexec hready (hact.trans (if_pos (by simpa [arrOf] using hfenced)))
  all_goals
    rw [if_neg (hfree hok)] at hact
  · exact State.traps_of_opTrap hexec hready (hact.trans (if_pos hbad))
  all_goals
    rw [hbad, if_neg Bool.false_ne_true] at hact
  · exact State.waits_of_wait hexec hready (hact.trans (if_pos (Bool.and_eq_true_iff.mpr (hearly.imp_left atBankForm_iff.mpr))))
  all_goals
    rw [if_neg (hrun hearly)] at hact
  · obtain ⟨r, hr⟩ := regionFault_misaligned halign
    rw [hr] at hact
    exact State.traps_of_memTrap hexec hready hact
  · obtain ⟨r, hr⟩ := regionFault_beyond halign hout
    rw [hr] at hact
    exact State.traps_of_memTrap hexec hready hact
  · rw [regionFault_none halign hin] at hact
    obtain ⟨x, hx, hop, hgam, hcore, hctx, hissue, hb⟩ := arr_counted s i (s.gammaOf i f)
    obtain ⟨hholder, -, -⟩ := hholds
    refine ⟨_, x, State.issues_of_done hexec hready hact, by rw [hx], hop, hgam, hcore, hctx, hissue, hb, fun hheader => ?_, fun n hheader hcount hn => ?_,
      fun hheader hcount => ?_, (countOne_frame s).1, (countOne_frame s).2⟩
    · rw [hx, arr_countOne, if_pos hheader]
      exact ⟨rfl, rfl⟩
    · rw [hx, arr_countOne, hheader, if_neg Bool.false_ne_true, ArrSt.countOne, hcount]
      simp only [if_neg (show ¬n ≤ 1 by omega), and_self]
    · rw [hx, arr_countOne, hheader, if_neg Bool.false_ne_true, ArrSt.countOne, hcount]
      simp only [ArrSt.endLease, hholder, le_refl, if_true, and_self]

/-- Settles O8: the cases of `lease` and `unlease`, and the request that goes before all others at a grant. -/
theorem leasesAreGrantedAndEnded : Obligations.LeasesAreGrantedAndEnded := by
  unfold Obligations.LeasesAreGrantedAndEnded
  intro s f fs q
  have hlease : exec (.lease f) s = issue s [] (actLease f) := show _ = execLease f s from rfl
  have hunlease : exec (.unlease f) s = issue s [] (fun s => .done (if s.headerLease || s.me.timed then s else s.endCounted s.cur.core)) :=
    show _ = execUnlease f s from rfl
  have haretW : exec (.aretW fs) s = issue s [] (fun s => if (s.arr (arrOf s.cur.core)).queue.any (fun x => decide (x.core = s.cur.core) &&
      decide (x.kind = 6) && decide (x.f.tile.toNat = fs.n.toNat) && decide (x.issue < s.t)) then .wait s 3 fs.n.toNat 0 else .done s) :=
    show _ = execAretW fs s from rfl
  refine ⟨fun hready => ⟨fun hheader => ⟨State.issues_of_done hlease hready (if_pos hheader), State.issues_of_done hunlease hready ?_⟩,
    fun hheader htimed => ⟨State.waits_of_wait (lacks := 0) hlease hready ?_, State.issues_of_done hunlease hready ?_⟩, fun hheader htimed => ?_,
    fun hnone => State.issues_of_done haretW hready (if_neg ?_), fun hsome => State.waits_of_wait haretW hready (if_pos ?_)⟩, ?_⟩
  · rw [hheader]
    rfl
  · rw [actLease, hheader, htimed]
    rfl
  · rw [htimed, Bool.or_true]
    rfl
  · have hnotHeader : ¬s.headerLease = true := by rw [hheader]; exact Bool.false_ne_true
    have hnotTimed : ¬s.me.timed = true := by rw [htimed]; exact Bool.false_ne_true
    refine ⟨State.issues_of_done hunlease hready ?_, fun hholder hcount hctx => State.issues_of_done hlease hready ?_, fun hnot hreqs => ?_⟩
    · rw [hheader, htimed]
      rfl
    · exact (if_neg hnotHeader).trans ((if_neg hnotTimed).trans (if_pos ⟨hholder, hcount, hctx⟩))
    · have hnone : ¬(s.arr (arrOf s.cur.core)).reqs.any (fun r => decide (r.core = s.cur.core)) = true := by
        simpa [arrOf] using hreqs
      refine ⟨_, exec_wait_untimed hlease hready htimed ((if_neg hnotHeader).trans ((if_neg hnotTimed).trans ((if_neg hnot).trans (if_neg hnone)))), ?_, ?_, ?_⟩
      · rw [arr_modSeq, arrOf, State.arr_modArr, if_pos rfl]
        exact (endLease_asks s.cyc hreqs).1
      · rw [arr_modSeq, arrOf, State.arr_modArr, if_pos rfl]
        exact congrArg (· ++ _) (endLease_asks s.cyc hreqs).2
      · exact congrArg (fun q : SeqSt => q.waiting.isSome) ((seq_modSeq ..).trans (if_pos rfl))
  · rw [List.any_eq_true]
    rintro ⟨x, hx, hmatch⟩
    simp only [Bool.and_eq_true, decide_eq_true_eq] at hmatch
    obtain ⟨⟨⟨hcore, hkind⟩, htile⟩, hissue⟩ := hmatch
    exact absurd hissue (Nat.not_lt.mpr (hnone x hx hcore hkind htile))
  · obtain ⟨x, hx, hcore, hkind, htile, hissue⟩ := hsome
    rw [List.any_eq_true]
    exact ⟨x, hx, by simp only [hcore, hkind, htile, decide_true, Bool.and_self, decide_eq_true hissue]⟩
  · intro hq hholder hfree hscan hreqs
    obtain ⟨r, hchoice, hr, hmax⟩ := choice_spec hreqs
    have hgate : (s.arr q).holder = none ∧ (s.arr q).freeFrom ≤ s.cyc ∧ s.scanDue q = false := ⟨hholder, hfree, hscan⟩
    have hgrant : ∃ t, exec (.leaseGrant q) s = .next t ∧ t.arr q = { s.arr q with
        holder := some r.core, count := if r.header then none else some 0, reqs := (s.arr q).reqs.erase r, lastGrant := r.core % 4,
        lctx := (s.core r.core).ctx } := by
      rw [show exec (.leaseGrant q) s = execLeaseGrant q s from rfl, execLeaseGrant, if_neg (by omega)]
      simp only [if_pos hgate, hchoice]
      refine ⟨_, rfl, ?_⟩
      rw [arr_modSeq, State.arr_modArr, if_pos rfl]
    obtain ⟨t, hexec, harr⟩ := hgrant
    refine ⟨t, r, hexec, hr, fun r' hr' => (hmax r' hr').1, fun r' hr' => (hmax r' hr').2, ?_⟩
    rw [harr]
    exact ⟨rfl, rfl, rfl, rfl, rfl⟩

end Sys2Proof.Proofs
end

