-- ==== Sys2Proof/Proofs/DueResults.lean ====
section
/-! PROOFS. Results falling due: the order of those in flight, and what they leave in registers: of several for one register the last (R19, R20, R68,
R96, R98). -/
namespace Sys2Proof.Machine

/-! ### The order of results in flight -/

/-- The order of R20. -/
def Flight.before (x y : Flight) : Prop := x.due < y.due ∨ (x.due = y.due ∧ (x.issue < y.issue ∨ (x.issue = y.issue ∧ x.ord ≤ y.ord)))

theorem flightLe_iff {x y : Flight} : flightLe x y = true ↔ x.before y := by
  simp [flightLe, Flight.before]

theorem before_total {x y : Flight} (h : ¬x.before y) : y.before x := by
  unfold Flight.before at *
  omega

theorem flight_before_trans {x y z : Flight} (h : x.before y) (h' : y.before z) : x.before z := by
  unfold Flight.before at *
  omega

/-- A result put in its place keeps the list in order. -/
theorem pairwise_insertBy {x : Flight} {l : List Flight} (h : l.Pairwise Flight.before) : (insertBy flightLe x l).Pairwise Flight.before := by
  induction l with
  | nil => exact List.pairwise_singleton _ _
  | cons a r ih =>
    obtain ⟨ha, hr⟩ := List.pairwise_cons.mp h
    rw [insertBy]
    split
    · next hle =>
      refine List.pairwise_cons.mpr ⟨fun y hy => ?_, ih hr⟩
      rcases (mem_insertBy _ _ _ _).mp hy with rfl | hy
      · exact flightLe_iff.mp hle
      · exact ha y hy
    · next hle =>
      have hxa : x.before a := before_total (fun hc => hle (flightLe_iff.mpr hc))
      refine List.pairwise_cons.mpr ⟨fun y hy => ?_, h⟩
      rcases List.mem_cons.mp hy with rfl | hy
      · exact hxa
      · exact flight_before_trans hxa (ha y hy)

/-! ### The last write remains -/

/-- What the writes of a list leave: the value of the last, or what was there. -/
theorem foldl_eq_getLast {σ β α : Type} {step : σ → β → σ} {proj : σ → α} {w : β → Option α} (h : ∀ s b, proj (step s b) = (w b).getD (proj s))
    (l : List β) (s : σ) : proj (l.foldl step s) = (l.filterMap w).getLast?.getD (proj s) := by
  induction l generalizing s with
  | nil => rfl
  | cons b r ih =>
    rw [List.foldl_cons, ih, h]
    cases hw : w b with
    | none => rw [List.filterMap_cons_none hw]; rfl
    | some v => rw [List.filterMap_cons_some hw, List.getLast?_cons]; rfl

/-- In an ordered list the write that none other of its kind follows is the last. -/
theorem getLast_filterMap {α : Type} {w : Flight → Option α} {l : List Flight} {x : Flight} {v : α} (hl : l.Pairwise Flight.before) (hx : x ∈ l)
    (hv : w x = some v) (hlatest : ∀ y ∈ l, (w y).isSome → y = x ∨ ¬x.before y) : (l.filterMap w).getLast? = some v := by
  induction l with
  | nil => cases hx
  | cons a r ih =>
    obtain ⟨ha, hr⟩ := List.pairwise_cons.mp hl
    by_cases hxr : x ∈ r
    · have hlast := ih hr hxr (fun y hy => hlatest y (List.mem_cons_of_mem _ hy))
      cases hw : w a with
      | none => rw [List.filterMap_cons_none hw, hlast]
      | some v' => rw [List.filterMap_cons_some hw, List.getLast?_cons, hlast]; rfl
    · obtain rfl : x = a := (List.mem_cons.mp hx).resolve_right hxr
      rw [List.filterMap_cons_some hv, List.getLast?_cons]
      cases hlast : (r.filterMap w).getLast? with
      | none => rfl
      | some v' =>
        obtain ⟨y, hy, hyv⟩ := List.mem_filterMap.mp (List.mem_of_getLast? hlast)
        rcases hlatest y (List.mem_cons_of_mem _ hy) (by rw [hyv]; rfl) with rfl | hnot
        · exact absurd hy hxr
        · exact absurd (ha y hy) hnot

/-! ### What a result writes -/

/-- The value a result gives a register of a sequencer. -/
def Fx.regValue (q : Seq) (r : Nat) : Fx → Option Word
  | .reg q' r' v => if q' = q ∧ r' = r then some v else none
  | _ => none

/-- The value a result gives a window register. -/
def Fx.winValue (r : Nat) : Fx → Option Word
  | .win r' v => if r' = r then some v else none
  | _ => none

theorem getD_vput {n : Nat} (v : Vector Word n) (i r : Nat) (x : Word) (hr : r < n) :
    (vput v i x).toList.getD r 0 = if i = r then x else v.toList.getD r 0 := by
  rw [vput, List.getD_eq_getElem _ _ (by simpa using hr), List.getD_eq_getElem _ _ (by simpa using hr), Vector.getElem_toList, Vector.getElem_toList,
    Vector.getElem_setIfInBounds]

theorem seq_putSpecial (im : Image) (n : Nat) (v : Word) (q : Seq) : (im.putSpecial n v).seq q = im.seq q ∧ (im.putSpecial n v).wfile = im.wfile := by
  unfold Image.putSpecial
  repeat' split
  all_goals exact ⟨by cases q <;> rfl, rfl⟩

theorem regs_setSeq {im : Image} {q : Seq} {x : SeqSt} (h : x.regs = (im.seq q).regs) (q' : Seq) : ((im.setSeq q x).seq q').regs = (im.seq q').regs := by
  rw [Image.seq_setSeq]
  split
  · next hq => rw [h, hq]
  · rfl

theorem regs_putPred (q : SeqSt) (p : Nat) (v : Bool) : (q.putPred p v).regs = q.regs := by
  unfold SeqSt.putPred
  split <;> rfl

/-- A result writes the register it names, and no other. -/
theorem regs_apply (im : Image) (fx : Fx) (q : Seq) {r : Nat} (hr : r < 16) :
    ((im.apply fx).seq q).regs.toList.getD r 0 = (fx.regValue q r).getD ((im.seq q).regs.toList.getD r 0) := by
  have hkeep : ∀ im' : Image, (im'.seq q).regs = (im.seq q).regs → (im'.seq q).regs.toList.getD r 0 = (im.seq q).regs.toList.getD r 0 :=
    fun im' h => by rw [h]
  cases fx with
  | reg q' r' v =>
    rw [Image.apply, Image.seq_setSeq, Fx.regValue]
    by_cases hq : q' = q
    · subst hq
      rw [if_pos rfl, SeqSt.put, getD_vput _ _ _ _ hr]
      by_cases hr' : r' = r
      · rw [if_pos hr', if_pos ⟨rfl, hr'⟩]; rfl
      · rw [if_neg hr', if_neg (fun h => hr' h.2)]; rfl
    · rw [if_neg (Ne.symm hq), if_neg (fun h => hq h.1)]; rfl
  | pred q' p v => exact hkeep _ (regs_setSeq (regs_putPred ..) q)
  | loop q' lc ec => exact hkeep _ (regs_setSeq (q := q') (x := { im.seq q' with lc := lc, ec := ec }) rfl q)
  | slot q' n t => exact hkeep _ (by refine regs_setSeq (q := q') ?_ q; rfl)
  | special n v => exact hkeep _ (congrArg SeqSt.regs (seq_putSpecial im n v q).1)
  | rotate q' x =>
    have hrot : ((im.setSeq q' ((im.seq q').rotated x)).seq q).regs = (im.seq q).regs := regs_setSeq (q := q') (x := (im.seq q').rotated x) rfl q
    refine hkeep _ (Eq.trans ?_ hrot)
    unfold Image.apply
    dsimp only
    split
    · cases q <;> rfl
    · rfl
  | vec y k port queue v f => exact hkeep _ (by cases q <;> rfl)
  | win r v => exact hkeep _ (by cases q <;> rfl)
  | predAll v => exact hkeep _ (by cases q <;> rfl)
  | lcW v => exact hkeep _ (by cases q <;> rfl)
  | ecW v => exact hkeep _ (by cases q <;> rfl)
  | window b rc sc => exact hkeep _ (by cases q <;> rfl)
  | tokens k n => exact hkeep _ (by cases q <;> rfl)
  | take k n => exact hkeep _ (by cases q <;> rfl)
  | agset g a => exact hkeep _ (by cases q <;> rfl)
  | sem k n => exact hkeep _ (by cases q <;> rfl)
  | slabs op b n => rfl
  | fclr v => exact hkeep _ (by cases q <;> rfl)
  | port p v => exact hkeep _ (by cases q <;> rfl)

/-- A result writes the window register it names, and no other. -/
theorem wfile_apply (im : Image) (fx : Fx) {r : Nat} (hr : r < 192) :
    (im.apply fx).wfile.toList.getD r 0 = (fx.winValue r).getD (im.wfile.toList.getD r 0) := by
  have hkeep : ∀ im' : Image, im'.wfile = im.wfile → im'.wfile.toList.getD r 0 = im.wfile.toList.getD r 0 := fun im' h => by rw [h]
  cases fx with
  | win r' v =>
    rw [Image.apply, Fx.winValue, getD_vput _ _ _ _ hr]
    by_cases hr' : r' = r
    · rw [if_pos hr', if_pos hr']; rfl
    · rw [if_neg hr', if_neg hr']; rfl
  | reg q v => exact hkeep _ (Image.setSeq_wfile ..)
  | pred q p v => exact hkeep _ (Image.setSeq_wfile ..)
  | loop q lc ec => exact hkeep _ (Image.setSeq_wfile ..)
  | slot q n t => exact hkeep _ (Image.setSeq_wfile ..)
  | special n v => exact hkeep _ (seq_putSpecial im n v .k).2
  | rotate q x =>
    refine hkeep _ ?_
    unfold Image.apply
    dsimp only
    split <;> exact Image.setSeq_wfile ..
  | predAll v => rfl
  | lcW v => rfl
  | ecW v => rfl
  | window b rc sc => rfl
  | tokens k n => rfl
  | take k n => rfl
  | agset g a => rfl
  | sem k n => rfl
  | slabs op b n => rfl
  | fclr v => rfl
  | vec y k port queue v f => rfl
  | port p v => rfl

theorem regs_take (q : Seq) {r : Nat} (hr : r < 16) (im : Image) (x : Flight) :
    ((im.take x.fx).seq q).regs.toList.getD r 0 = (x.fx.regValue q r).getD ((im.seq q).regs.toList.getD r 0) := by
  rw [← regs_apply im x.fx q hr, Image.take]
  split
  · rfl
  · cases q <;> rfl

theorem wfile_take {r : Nat} (hr : r < 192) (im : Image) (x : Flight) :
    (im.take x.fx).wfile.toList.getD r 0 = (x.fx.winValue r).getD (im.wfile.toList.getD r 0) := by
  rw [← wfile_apply im x.fx hr, Image.take]
  split <;> rfl

/-- What falls due leaves: whatever a clear of flags does not write, the last write of it remains, though clears come first (R141). -/
theorem applyDue_eq_getLast {α : Type} {proj : Image → α} {w : Fx → Option α} (hw : ∀ im (x : Flight), proj (im.take x.fx) = (w x.fx).getD (proj im))
    (hclear : ∀ fx, fx.isClear = true → w fx = none) (hflight : ∀ (im : Image) l, proj { im with flight := l } = proj im) (im : Image) (t : Nat) :
    proj (im.applyDue t) = ((im.flight.filter (fun x => decide (x.due ≤ t))).filterMap (fun x => w x.fx)).getLast?.getD (proj im) := by
  rw [Image.applyDue, hflight, foldl_eq_getLast hw, foldl_eq_getLast hw]
  generalize im.flight.filter (fun x => decide (x.due ≤ t)) = now
  have hnone : (now.filter (fun x => x.fx.isClear)).filterMap (fun x => w x.fx) = [] := by
    rw [List.filterMap_eq_nil_iff]
    exact fun x hx => hclear x.fx (List.mem_filter.mp hx).2
  have hrest : (now.filter (fun x => !x.fx.isClear)).filterMap (fun x => w x.fx) = now.filterMap (fun x => w x.fx) := by
    rw [List.filterMap_filter]
    refine List.filterMap_congr (fun x _ => ?_)
    cases hc : x.fx.isClear with
    | true => simp [hclear x.fx hc]
    | false => simp
  rw [hnone, hrest]
  rfl

theorem regValue_of_isClear (q : Seq) (r : Nat) (fx : Fx) (h : fx.isClear = true) : fx.regValue q r = none := by
  cases fx <;> first | rfl | cases h

theorem winValue_of_isClear (r : Nat) (fx : Fx) (h : fx.isClear = true) : fx.winValue r = none := by
  cases fx <;> first | rfl | cases h

/-! ### The core after what falls due -/

theorem claimSlab_keeps (co : Core) (n : Nat) : (co.claimSlab n).im = co.im ∧ (co.claimSlab n).spad = co.spad := by
  unfold Core.claimSlab
  dsimp only
  split <;> exact ⟨rfl, rfl⟩

theorem foldl_keeps {β : Type} {step : Core → β → Core} (h : ∀ co b, (step co b).im = co.im ∧ (step co b).spad = co.spad) (l : List β) (co : Core) :
    (l.foldl step co).im = co.im ∧ (l.foldl step co).spad = co.spad := by
  induction l generalizing co with
  | nil => exact ⟨rfl, rfl⟩
  | cons b r ih => exact ⟨(ih _).1.trans (h co b).1, (ih _).2.trans (h co b).2⟩

/-- What slab instructions do leaves the context's state and the scratchpad's bytes. -/
theorem slabOps_keeps (co : Core) (l : List Flight) : (co.slabOps l).im = co.im ∧ (co.slabOps l).spad = co.spad := by
  refine foldl_keeps (fun co x => ?_) l co
  split
  · unfold Core.slabOp
    split
    · exact foldl_keeps claimSlab_keeps _ co
    · split
      · exact foldl_keeps (step := Core.freeSlab) (fun _ _ => ⟨rfl, rfl⟩) _ co
      · exact ⟨rfl, rfl⟩
  · exact ⟨rfl, rfl⟩

/-- The vector that a step of a generator puts in flight to its port. -/
def Core.stepRead (co : Core) (x : VldStep) : Flight :=
  { due := x.enter, issue := x.issue, ord := 0, sq := .l, fx := .port x.port (BitVec.ofNat 2048 (leNat (co.bytes x.la 256))) }

/-- The steps of generators put vectors in flight to ports, and change else only the vector state. -/
theorem readSteps_eq (co : Core) : ∃ v l, co.readSteps = { co with im := { co.im with vec := v, flight := l } } ∧
    ∀ x ∈ l, x ∈ co.im.flight ∨ ∃ p v, x.fx = .port p v := by
  have hfold (now : List VldStep) (im : Image) : ∃ l, now.foldl (fun i x =>
      { i with flight := insertBy flightLe (co.stepRead x) i.flight }) im = { im with flight := l } ∧ ∀ x ∈ l, x ∈ im.flight ∨ ∃ p v, x.fx = .port p v := by
    induction now generalizing im with
    | nil => exact ⟨im.flight, rfl, fun x hx => Or.inl hx⟩
    | cons y r ih =>
      rw [List.foldl_cons]
      obtain ⟨l, hl, hmem⟩ := ih { im with flight := insertBy flightLe (co.stepRead y) im.flight }
      refine ⟨l, hl, fun x hx => ?_⟩
      rcases hmem x hx with hx | hx
      · rcases (mem_insertBy _ _ _ _).mp hx with rfl | hx
        · exact Or.inr ⟨_, _, rfl⟩
        · exact Or.inl hx
      · exact Or.inr hx
  obtain ⟨l, hl, hmem⟩ := hfold (co.im.vec.vlds.filter (fun x => decide (x.at_ ≤ co.im.sched)))
    { co.im with vec := { co.im.vec with vlds := co.im.vec.vlds.filter (fun x => !decide (x.at_ ≤ co.im.sched)) } }
  refine ⟨{ co.im.vec with vlds := co.im.vec.vlds.filter (fun x => !decide (x.at_ ≤ co.im.sched)) }, l, ?_, hmem⟩
  exact congrArg (fun im => { co with im := im }) hl

theorem writeSteps_eq (co : Core) : ∃ v ps, co.writeSteps = { co with im := { co.im with vec := v }, posted := ps } := ⟨_, _, rfl⟩

/-- The core after what falls due: of its image what the due results leave, but for the segment's end, its vector state and the vectors that enter
flight; its scratchpad as it was. -/
theorem due_eq (co : Core) : ∃ sg v l, co.due.im = { co.im.applyDue co.im.sched with seg := sg, vec := v, flight := l } ∧ co.due.spad = co.spad ∧
    ∀ x ∈ l, co.im.sched < x.due ∨ ∃ p v, x.fx = .port p v := by
  unfold Core.due
  dsimp only
  generalize (co.im.seg.map (fun g => if co.resultDueNow then { g with lastEnd := Nat.max g.lastEnd co.im.sched } else g)) = sg
  generalize hops : (({ co with im := { co.im.applyDue co.im.sched with seg := sg } } : Core).slabOps
    (co.im.flight.filter (fun x => decide (x.due ≤ co.im.sched)))) = a
  have hkeep := slabOps_keeps ({ co with im := { co.im.applyDue co.im.sched with seg := sg } } : Core)
    (co.im.flight.filter (fun x => decide (x.due ≤ co.im.sched)))
  rw [hops] at hkeep
  obtain ⟨him, hspad⟩ := hkeep
  obtain ⟨v, l, hread, hmem⟩ := readSteps_eq a
  obtain ⟨v', ps, hwrite⟩ := writeSteps_eq a.readSteps
  refine ⟨sg, v', l, ?_, ?_, fun x hx => ?_⟩
  · rw [hwrite, hread]
    dsimp only
    rw [him]
  · rw [hwrite, hread]
    exact hspad
  · rcases hmem x hx with hx | hx
    · rw [him] at hx
      have hnot := List.of_mem_filter hx
      exact Or.inl (by simpa using hnot)
    · exact Or.inr hx

/-- A register after what falls due holds the value of the last due result for it. -/
theorem regs_due (co : Core) (q : Seq) {r : Nat} (hr : r < 16) : (co.due.im.seq q).regs.toList.getD r 0 =
    ((co.im.flight.filter (fun x => decide (x.due ≤ co.im.sched))).filterMap (fun x => x.fx.regValue q r)).getLast?.getD
      ((co.im.seq q).regs.toList.getD r 0) := by
  obtain ⟨sg, v, l, him, -, -⟩ := due_eq co
  rw [him]
  refine Eq.trans ?_ (applyDue_eq_getLast (proj := fun im => (im.seq q).regs.toList.getD r 0) (w := fun fx => fx.regValue q r) (regs_take q hr)
    (regValue_of_isClear q r) (fun im l => by cases q <;> rfl) co.im co.im.sched)
  cases q <;> rfl

/-- A window register after what falls due holds the value of the last due result for it. -/
theorem wfile_due (co : Core) {r : Nat} (hr : r < 192) : co.due.im.wfile.toList.getD r 0 =
    ((co.im.flight.filter (fun x => decide (x.due ≤ co.im.sched))).filterMap (fun x => x.fx.winValue r)).getLast?.getD (co.im.wfile.toList.getD r 0) := by
  obtain ⟨sg, v, l, him, -, -⟩ := due_eq co
  rw [him]
  exact applyDue_eq_getLast (proj := fun im => im.wfile.toList.getD r 0) (w := fun fx => fx.winValue r) (wfile_take hr) (winValue_of_isClear r)
    (fun im l => rfl) co.im co.im.sched

theorem regValue_isSome {fx : Fx} {q : Seq} {r : Nat} (h : (fx.regValue q r).isSome) : ∃ v, fx = .reg q r v := by
  unfold Fx.regValue at h
  split at h
  · split at h
    · next hqr => exact ⟨_, by rw [hqr.1, hqr.2]⟩
    · cases h
  · cases h

theorem winValue_isSome {fx : Fx} {r : Nat} (h : (fx.winValue r).isSome) : ∃ v, fx = .win r v := by
  unfold Fx.winValue at h
  split at h
  · split at h
    · next hr => exact ⟨_, by rw [hr]⟩
    · cases h
  · cases h

end Sys2Proof.Machine

namespace Sys2Proof.Proofs
open Sys2Proof.Machine

/-- Settles O6: results join the list in its order, so the last due result for a register is the latest. -/
theorem resultsTakeEffectWhenDue : Obligations.ResultsTakeEffectWhenDue := by
  unfold Obligations.ResultsTakeEffectWhenDue
  intro s c hc hcounting
  have hexec (hdue : (s.core c).somethingDue = true) : exec (.resultDue c) s = .next (s.modCore c Core.due) := by
    rw [show exec (.resultDue c) s = execResultDue c s from rfl, execResultDue, coreEvent_next]
    exact ⟨hc, if_pos (by rw [hcounting, hdue]; rfl)⟩
  have hcore : (s.modCore c Core.due).core c = (s.core c).due := (State.core_modCore ..).trans (if_pos rfl)
  refine ⟨fun horder x => ?_, fun hdue horder => ⟨_, hexec hdue, ?_⟩, fun hdue => ⟨_, hexec hdue, rfl, ?_⟩, fun q hhalted hwaiting htried => ?_⟩
  · have hflight : ((s.pushFlight c x).core c).im.flight = insertBy flightLe x (s.core c).im.flight :=
      congrArg (fun co : Core => co.im.flight) ((State.core_modIm ..).trans (if_pos rfl))
    rw [hflight]
    exact ⟨pairwise_insertBy horder, fun y => mem_insertBy ..⟩
  · have hnow := horder.filter (fun x => decide (x.due ≤ (s.core c).im.sched))
    rw [hcore]
    refine ⟨fun x hx q r v hr hfx hlatest => ?_, fun x hx r v hr hfx hlatest => ?_⟩
    · rw [regs_due _ _ hr, getLast_filterMap hnow hx (v := v) (by rw [hfx]; exact if_pos ⟨rfl, rfl⟩)
        (fun y hy hsome => hlatest y hy (regValue_isSome hsome))]
      rfl
    · rw [wfile_due _ hr, getLast_filterMap hnow hx (v := v) (by rw [hfx]; exact if_pos rfl)
        (fun y hy hsome => hlatest y hy (winValue_isSome hsome))]
      rfl
  · obtain ⟨sg, v, l, him, hspad, hmem⟩ := due_eq (s.core c)
    refine ⟨fun d hd => (State.core_modCore ..).trans (if_neg hd), ?_⟩
    rw [hcore]
    refine ⟨fun x hx => hmem x ?_, fun q r hr => regs_due _ _ hr, fun r hr => wfile_due _ hr, hspad⟩
    rw [him] at hx
    exact hx
  · refine ⟨s.modSeq c q (fun q => { q with waiting := none }), ?_, ?_⟩
    · rw [show exec (.waitingGroupIssue c q) s = execWaitingGroupIssue c q s from rfl, execWaitingGroupIssue, coreEvent_next]
      exact ⟨hc, if_pos (by rw [hcounting, hhalted, hwaiting]; simpa using htried)⟩
    · rw [seq_modSeq, if_pos rfl]
      exact ⟨rfl, rfl⟩

end Sys2Proof.Proofs
end

