-- ==== Sys2Proof/Proofs/Generators.lean ====
section
/-! PROOFS. Address generators, the ports they feed and drain, and moves between clusters (R148 to R153, R168). -/
namespace Sys2Proof.Machine

/-! ### Lists of steps -/

theorem upTo_zero_eq_range (n : Nat) : upTo 0 n = List.range n := by
  refine List.ext_getElem (by rw [length_upTo, List.length_range]) (fun i hi hi' => ?_)
  rw [getElem_upTo, List.getElem_range, Nat.zero_add]

theorem length_walk (a : AgSt) (n : Nat) : (a.walk n).1.length = n := by
  induction n generalizing a with
  | zero => rfl
  | succ n ih => exact congrArg (· + 1) (ih _)

theorem walkFault_none {co : Core} {ts al : Nat} {rd : Bool} {las : List Nat}
    (h : ∀ j la, las[j]? = some la → co.stepFault ts al (if rd then j else 0) la rd = none) : co.walkFault ts al rd las = none := by
  refine firstSome_eq_none.mpr (fun x hx => ?_)
  obtain ⟨j, hj, hget⟩ := List.getElem_of_mem hx
  have hlas : j < las.length := by
    rw [List.length_zip] at hj
    omega
  have hx1 : x.1 = las[j] := by rw [← hget, List.getElem_zip]
  have hx2 : x.2 = j := by rw [← hget, List.getElem_zip, getElem_upTo, Nat.zero_add]
  rw [hx1, hx2]
  exact h j _ (List.getElem?_eq_getElem hlas)

/-! ### agset -/

section
variable {s : State} {f : AgnF}

/-- The 16-bit fields of a register, as many as a generator has levels. -/
def levelFields (f : AgnF) (w : Word) : List Nat := (List.range (f.lv.toNat + 1)).map (fun j => w.toNat / 2 ^ (16 * j) % 2 ^ 16)

theorem fields_eq (f : AgnF) (w : Word) : (upTo 0 (f.lv.toNat + 1)).map (fun j => fld w.toNat (16 * j) 16) = levelFields f w := by
  rw [upTo_zero_eq_range]
  rfl

theorem strides_eq (f : AgnF) (w : Word) : (levelFields f w).map (sgn 16) =
    (List.range (f.lv.toNat + 1)).map (fun j => (BitVec.ofNat 16 (w.toNat / 2 ^ (16 * j) % 2 ^ 16)).toInt) := by
  rw [levelFields, List.map_map]
  exact List.map_congr_left (fun j _ => sgn_eq_toInt (by decide) _)

theorem actAgset_zero (h : ∃ j, j < f.lv.toNat + 1 ∧ (s.rd f.cr).toNat / 2 ^ (16 * j) % 2 ^ 16 = 0) : actAgset f s = s.opTrap 0xB := by
  unfold actAgset
  simp only [fields_eq]
  obtain ⟨j, hj, hzero⟩ := h
  refine if_pos (List.any_eq_true.mpr ⟨0, ?_, rfl⟩)
  rw [levelFields, List.mem_map]
  exact ⟨j, List.mem_range.mpr hj, hzero⟩

theorem actAgset_done (h : ∀ j, j < f.lv.toNat + 1 → (s.rd f.cr).toNat / 2 ^ (16 * j) % 2 ^ 16 ≠ 0) (hidle : s.me.im.agBusy f.ag.toNat = false)
    (hbound : ∀ b, s.me.im.vec.bound f.port.toNat = some b → s.me.im.agBusy b.1 = false) :
    actAgset f s = .done (s.result 1 0 (.agset f.ag.toNat
      { base := f.base.toNat, levels := f.lv.toNat + 1, counts := levelFields f (s.rd f.cr), strides := (levelFields f (s.rd f.sr)).map (sgn 16),
        idx := List.replicate (f.lv.toNat + 1) 0, port := some f.port.toNat })) := by
  have hcounts : ¬(levelFields f (s.rd f.cr)).any (fun c => c == 0) = true := by
    rw [List.any_eq_true]
    rintro ⟨c, hc, hzero⟩
    obtain ⟨j, hj, rfl⟩ := List.mem_map.mp hc
    exact h j (List.mem_range.mp hj) (by simpa using hzero)
  have hother : ¬(s.me.im.agBusy f.ag.toNat || (match s.me.im.vec.bound f.port.toNat with
      | some b => s.me.im.agBusy b.1
      | none => false)) = true := by
    rw [hidle, Bool.false_or]
    split
    · next b hb => rw [hbound b hb]; exact Bool.false_ne_true
    · exact Bool.false_ne_true
  unfold actAgset
  simp only [fields_eq, if_neg hcounts]
  exact if_neg hother

end

/-! ### vld -/

/-- The steps that a `vld` puts in progress. -/
def vldSteps (ub : Bool) (g p first issue : Nat) (las : List Nat) (n : Nat) : List VldStep :=
  (las.zip (upTo 0 n)).map (fun x =>
    { at_ := first + x.2, ag := g, port := p, la := x.1, ub := ub, enter := first + x.2 + (if ub then 6 else 5), issue := issue })

theorem vldSteps_la {ub : Bool} {g p first issue n : Nat} {las : List Nat} (h : las.length = n) :
    (vldSteps ub g p first issue las n).map (fun x => x.la) = las := by
  rw [vldSteps, List.map_map]
  exact List.map_fst_zip (by rw [length_upTo, h])

theorem vldSteps_spec {ub : Bool} {g p first issue n : Nat} {las : List Nat} : ∀ x ∈ vldSteps ub g p first issue las n, x.port = p ∧ x.ub = ub ∧
    first ≤ x.at_ ∧ x.at_ < first + n ∧ x.enter = x.at_ + (if ub then 6 else 5) := by
  intro x hx
  obtain ⟨y, hy, rfl⟩ := List.mem_map.mp hx
  have hy2 := mem_upTo.mp (List.of_mem_zip hy).2
  exact ⟨rfl, rfl, Nat.le_add_right .., by dsimp only; omega, rfl⟩

section
variable {s : State} {f : MovF} {ub : Bool}

theorem actVld_none (h : f.n.toNat = 0) : actVld ub f s = .done s := if_pos h

theorem actVld_unbound (hn : f.n.toNat ≠ 0) (h : (mget AgSt.init s.me.im.vec.ags f.ag.toNat).port = none ∨
    ∃ p, (mget AgSt.init s.me.im.vec.ags f.ag.toNat).port = some p ∧ 5 < p) : actVld ub f s = s.opTrap 0xB := by
  unfold actVld
  rcases h with h | ⟨p, h, hp⟩
  · simp only [if_neg hn, h]
  · simp only [if_neg hn, h, if_pos hp]

variable {p : Nat} (hn : f.n.toNat ≠ 0) (hport : (mget AgSt.init s.me.im.vec.ags f.ag.toNat).port = some p) (hp : p ≤ 5)
include hn hport hp

theorem actVld_full (h : 16 < (mget [] s.me.im.vec.ports p).length + s.me.im.pending p + f.n.toNat) : actVld ub f s = .wait s 4 p 0 := by
  unfold actVld
  simp only [if_neg hn, hport, if_neg (Nat.not_lt.mpr hp), if_pos h]

theorem actVld_done (h : (mget [] s.me.im.vec.ports p).length + s.me.im.pending p + f.n.toNat ≤ 16)
    (hlegal : s.me.walkFault s.tstep (if ub then 4 else 256) true ((mget AgSt.init s.me.im.vec.ags f.ag.toNat).walk f.n.toNat).1 = none) :
    actVld ub f s = .done (s.modVec s.cur.core (fun v =>
      { v with
        ags := mset v.ags f.ag.toNat ((mget AgSt.init s.me.im.vec.ags f.ag.toNat).walk f.n.toNat).2,
        vlds := v.vlds ++ vldSteps ub f.ag.toNat p (Nat.max s.t s.me.im.vec.vldNext) s.t ((mget AgSt.init s.me.im.vec.ags f.ag.toNat).walk f.n.toNat).1 f.n.toNat,
        vldNext := Nat.max s.t s.me.im.vec.vldNext + f.n.toNat })) := by
  unfold actVld
  simp only [if_neg hn, hport, if_neg (Nat.not_lt.mpr hp), if_neg (Nat.not_lt.mpr h), hlegal]
  rfl

end

theorem vec_modVec (s : State) (f : VecSt → VecSt) : (s.modVec s.cur.core f).me.im.vec = f s.me.im.vec :=
  congrArg (fun co : Core => co.im.vec) ((State.core_modIm ..).trans (if_pos rfl))

/-! ### vst -/

/-- The writes that a `vst` has outstanding. -/
def vstSteps (g t : Nat) (vs : List Vec) (las : List Nat) (n : Nat) : List VstStep :=
  (vs.zip (las.zip (upTo 0 n))).map (fun x => { at_ := t + 1 + x.2.2, ag := g, la := x.2.1, v := x.1 })

theorem vstSteps_spec {g t n : Nat} {vs : List Vec} {las : List Nat} (hvs : vs.length = n) (hlas : las.length = n) :
    (vstSteps g t vs las n).map (fun x => x.la) = las ∧ (vstSteps g t vs las n).map (fun x => x.v) = vs ∧
    (vstSteps g t vs las n).map (fun x => x.at_) = (List.range n).map (fun j => t + 1 + j) := by
  have hzip : (las.zip (upTo 0 n)).length = n := by rw [List.length_zip, length_upTo, hlas, Nat.min_self]
  simp only [vstSteps, List.map_map]
  refine ⟨?_, List.map_fst_zip (by rw [hvs, hzip]), ?_⟩
  · exact (List.map_map (l := vs.zip (las.zip (upTo 0 n))) (f := Prod.snd) (g := Prod.fst)).symm.trans
      ((congrArg _ (List.map_snd_zip (by rw [hvs, hzip]))).trans (List.map_fst_zip (by rw [length_upTo, hlas])))
  · refine (List.map_map (l := vs.zip (las.zip (upTo 0 n))) (f := Prod.snd) (g := fun y => t + 1 + y.2)).symm.trans ?_
    rw [List.map_snd_zip (by rw [hvs, hzip])]
    refine (List.map_map (l := las.zip (upTo 0 n)) (f := Prod.snd) (g := fun j => t + 1 + j)).symm.trans ?_
    rw [List.map_snd_zip (by rw [length_upTo, hlas]), upTo_zero_eq_range]

section
variable {s : State} {f : StoF}

theorem actVst_none (h : f.n.toNat = 0) : actVst f s = .done s := if_pos h

theorem actVst_short (hn : f.n.toNat ≠ 0) (h : (mget [] s.me.im.vec.ports f.port.toNat).length < f.n.toNat) :
    actVst f s = .wait s 4 f.port.toNat 0 := (if_neg hn).trans (if_pos h)

variable (hn : f.n.toNat ≠ 0) (hroom : f.n.toNat ≤ (mget [] s.me.im.vec.ports f.port.toNat).length)
include hn hroom

theorem actVst_unbound (h : s.me.im.vec.bound f.port.toNat = none) : actVst f s = s.opTrap 0xB := by
  unfold actVst
  simp only [if_neg hn, if_neg (Nat.not_lt.mpr hroom), h]

theorem actVst_done {g : Nat} {a : AgSt} (h : s.me.im.vec.bound f.port.toNat = some (g, a)) (hclaim : ∀ la ∈ (a.walk f.n.toNat).1, s.claimed s.cur.core la 256 = false)
    (hlegal : s.me.walkFault s.tstep 256 false (a.walk f.n.toNat).1 = none) (hbad : ∀ i, i < f.n.toNat → VecFlaw.port f.port.toNat i ∉ s.me.im.vec.bad) :
    actVst f s = .done (s.modVec s.cur.core (fun v =>
      { v with
        ags := mset v.ags g (a.walk f.n.toNat).2, ports := mset v.ports f.port.toNat ((mget [] s.me.im.vec.ports f.port.toNat).drop f.n.toNat),
        bad := v.bad.filterMap (VecFlaw.popped f.port.toNat f.n.toNat),
        vsts := v.vsts ++ vstSteps g s.t ((mget [] s.me.im.vec.ports f.port.toNat).take f.n.toNat) (a.walk f.n.toNat).1 f.n.toNat })) := by
  have hfree : ¬(a.walk f.n.toNat).1.any (fun la => s.claimed s.cur.core la 256) = true := by
    rw [List.any_eq_true]
    rintro ⟨la, hla, hc⟩
    rw [hclaim la hla] at hc
    cases hc
  have hgood : ¬(upTo 0 f.n.toNat).any (fun i => s.me.im.vec.bad.contains (.port f.port.toNat i)) = true := by
    rw [List.any_eq_true]
    rintro ⟨i, hi, hc⟩
    exact hbad i (by have := mem_upTo.mp hi; omega) (List.contains_iff_mem.mp hc)
  unfold actVst
  simp only [if_neg hn, if_neg (Nat.not_lt.mpr hroom), h, if_neg hfree, hlegal, if_neg hgood]
  rfl

end

/-! ### vxm -/

/-- A late group raises the flag of its clusters alone (R141). -/
theorem raiseTF_keeps (s : State) (ys : List Bool) : (s.raiseTF ys).cur = s.cur ∧ (s.raiseTF ys).t = s.t ∧
    ∀ y n, (s.raiseTF ys).me.im.vec.phys y n = s.me.im.vec.phys y n := by
  unfold State.raiseTF
  split
  · refine ⟨rfl, ?_, fun y n => ?_⟩
    · rw [State.t, State.modVec, State.me_modIm]
      rfl
    · rw [vec_modVec]
      rfl
  · exact ⟨rfl, rfl, fun _ _ => rfl⟩

/-- A result put in flight is there, due after its latency. -/
theorem result_mem_flight (s : State) (lat ord : Nat) (fx : Fx) :
    { due := s.t + lat, issue := s.t, ord := ord, sq := s.cur.sq, fx := fx } ∈ (s.result lat ord fx).me.im.flight := by
  rw [State.me_result]
  exact (mem_insertBy _ _ _ _).mpr (Or.inl rfl)

/-- The state in which the result of a `vxm` is in flight to its cluster. -/
def State.crossMoved (s : State) (f : VecF) : State :=
  (s.raiseTF [f.var.toNat / 4 == 1]).vecResult 2 f.d.toNat (f.var.toNat / 4 == 1) (s.me.im.vecSource (!(f.var.toNat / 4 == 1)) [f.a.toNat] 1 0 32, 0)

theorem crossMoved_flight (s : State) (f : VecF) : ∃ x ∈ (s.crossMoved f).me.im.flight, x.due = s.t + 2 ∧ x.fx = .vec (f.var.toNat / 4 == 1)
    (if f.d.toNat < 0x40 then some (s.me.im.vec.phys (f.var.toNat / 4 == 1) (f.d.toNat % 32)) else none) (destPort f.d.toNat) true
    (s.me.im.vecSource (!(f.var.toNat / 4 == 1)) [f.a.toNat] 1 0 32) 0 := by
  obtain ⟨-, ht, hphys⟩ := raiseTF_keeps s [f.var.toNat / 4 == 1]
  refine ⟨_, result_mem_flight (s.raiseTF [f.var.toNat / 4 == 1]) 2 0 _, congrArg (· + 2) ht, ?_⟩
  simp only [hphys]

end Sys2Proof.Machine

namespace Sys2Proof.Proofs
open Sys2Proof.Machine

/-- Settles O5: of each form the checks in their order, then the steps of its generator. -/
theorem generatorsPortsAndCrossMoves : Obligations.GeneratorsPortsAndCrossMoves := by
  unfold Obligations.GeneratorsPortsAndCrossMoves
  intro s fa fm fs fv
  refine ⟨fun hready => ?_, fun ub i hi hready => ?_, fun hready => ?_, fun hready hfenced => ?_⟩
  · have hexec : exec (.agset fa) s = issue s [fa.cr, fa.sr] (actAgset fa) := show _ = execAgset fa s from rfl
    refine ⟨fun hzero => State.traps_of_opTrap hexec hready (actAgset_zero hzero), fun hcounts hidle hbound => ?_⟩
    have hdone := actAgset_done hcounts hidle hbound
    rw [strides_eq] at hdone
    exact State.issues_of_done hexec hready hdone
  · have hexec : exec i s = issue s [] (actVld ub fm) := by
      rcases hi with ⟨rfl, rfl⟩ | ⟨rfl, rfl⟩
      · exact show _ = execVld fm s from rfl
      · exact show _ = execVldUb fm s from rfl
    refine ⟨fun hn => State.issues_of_done hexec hready (actVld_none hn), fun hn hunbound => State.traps_of_opTrap hexec hready (actVld_unbound hn hunbound),
      fun p hn hport hp hfull => State.waits_of_wait hexec hready (actVld_full hn hport hp hfull), fun p hn hport hp hroom hlegal => ?_⟩
    have hfault := walkFault_none (co := s.me) (ts := s.tstep) (al := if ub then 4 else 256) (rd := true)
      (las := ((mget AgSt.init s.me.im.vec.ags fm.ag.toNat).walk fm.n.toNat).1) (fun j la hla => hlegal j (by
        have hlt := (List.getElem?_eq_some_iff.mp hla).1
        rwa [length_walk] at hlt) la hla)
    refine ⟨_, vldSteps ub fm.ag.toNat p (Nat.max s.t s.me.im.vec.vldNext) s.t ((mget AgSt.init s.me.im.vec.ags fm.ag.toNat).walk fm.n.toNat).1 fm.n.toNat,
      State.issues_of_done hexec hready (actVld_done hn hport hp hroom hfault), ?_⟩
    rw [vec_modVec]
    exact ⟨rfl, vldSteps_la (length_walk ..), vldSteps_spec, mget_mset_same .., rfl⟩
  · have hexec : exec (.vst fs) s = issue s [] (actVst fs) := show _ = execVst fs s from rfl
    refine ⟨fun hn => State.issues_of_done hexec hready (actVst_none hn), fun hn hshort => State.waits_of_wait hexec hready (actVst_short hn hshort),
      fun hn hroom hnone => State.traps_of_opTrap hexec hready (actVst_unbound hn hroom hnone), fun g a hn hroom hbound hclaim hlegal hbad => ?_⟩
    have hfault := walkFault_none (co := s.me) (ts := s.tstep) (al := 256) (rd := false) (las := (a.walk fs.n.toNat).1)
      (fun j la hla => hlegal la (List.mem_of_getElem? hla))
    have hspec := vstSteps_spec (g := g) (t := s.t) (vs := (mget [] s.me.im.vec.ports fs.port.toNat).take fs.n.toNat) (las := (a.walk fs.n.toNat).1)
      (n := fs.n.toNat) (by rw [List.length_take, Nat.min_eq_left hroom]) (length_walk ..)
    refine ⟨_, vstSteps g s.t ((mget [] s.me.im.vec.ports fs.port.toNat).take fs.n.toNat) (a.walk fs.n.toNat).1 fs.n.toNat,
      State.issues_of_done hexec hready (actVst_done hn hroom hbound hclaim hfault hbad), ?_⟩
    rw [vec_modVec]
    exact ⟨rfl, hspec.1, hspec.2.1, hspec.2.2, mget_mset_same .., mget_mset_same ..⟩
  · have hunfenced : ¬s.fenced.contains (32 + s.cur.core) = true := by simpa using hfenced
    refine ⟨fun hbad => State.traps_of_opTrap (show exec (.vxm fv) s = execVxm fv s from rfl) hready ?_, fun hok hgood => ?_⟩
    · dsimp only
      rw [if_neg hunfenced, if_neg (by rw [hbad]; exact Bool.false_ne_true)]
    · refine ⟨s.crossMoved fv, State.issues_of_done (show exec (.vxm fv) s = execVxm fv s from rfl) hready ?_, crossMoved_flight s fv⟩
      dsimp only
      rw [if_neg hunfenced, if_pos hok, if_neg (by rw [hgood]; exact Bool.false_ne_true)]
      rfl

end Sys2Proof.Proofs
end

