-- ==== Sys2Proof/Proofs/Packets.lean ====
section
/-! PROOFS. Packets as instructions place them: the fields of a packet, the room of the queue port, and the ENG instructions, `qpush` and `qfence`
(R271 to R273, R276, R291, R292). -/
namespace Sys2Proof.Machine

/-! ### The fields of a packet -/

section PacketFields

variable {kind tsv cmpl scope sem core ts a b c d e : Nat}

/-- A packet's number where each field fits its place (Table 13-1). -/
theorem toNat_packet (hkind : kind < 256) (htsv : tsv < 2) (hcmpl : cmpl < 4) (hscope : scope < 8) (hsem : sem < 64) (hcore : core < 128)
    (hts : ts < 2 ^ 64) (ha : a < 2 ^ 64) (hb : b < 2 ^ 64) (hc : c < 2 ^ 64) (hd : d < 2 ^ 64) (he : e < 2 ^ 64) :
    (packet kind tsv cmpl scope sem core ts a b c d e).toNat = kind + tsv * 2 ^ 8 + cmpl * 2 ^ 9 + scope * 2 ^ 12 + sem * 2 ^ 16 +
      (core % 64) * 2 ^ 22 + (core / 64) * 2 ^ 28 + ts * 2 ^ 64 + a * 2 ^ 192 + b * 2 ^ 256 + c * 2 ^ 320 + d * 2 ^ 384 + e * 2 ^ 448 := by
  rw [packet, BitVec.toNat_ofNat, Nat.mod_eq_of_lt hts, Nat.mod_eq_of_lt ha, Nat.mod_eq_of_lt hb, Nat.mod_eq_of_lt hc, Nat.mod_eq_of_lt hd,
    Nat.mod_eq_of_lt he]
  exact Nat.mod_eq_of_lt (by omega)

/-- The fields of a packet are those it was made of. -/
theorem fields_packet (hkind : kind < 256) (htsv : tsv < 2) (hcmpl : cmpl < 4) (hscope : scope < 8) (hsem : sem < 64) (hcore : core < 128)
    (hts : ts < 2 ^ 64) (ha : a < 2 ^ 64) (hb : b < 2 ^ 64) (hc : c < 2 ^ 64) (hd : d < 2 ^ 64) (he : e < 2 ^ 64) :
    let p := packet kind tsv cmpl scope sem core ts a b c d e
    pKind p = kind ∧ p.toNat / 2 ^ 8 % 2 = tsv ∧ pf p 9 2 = cmpl ∧ pf p 12 3 = scope ∧ pf p 16 6 = sem ∧ pCore p = core ∧ pTs p = ts ∧
      pf p 192 64 = a ∧ pf p 256 64 = b ∧ pf p 320 64 = c ∧ pf p 384 64 = d ∧ pf p 448 8 = e % 256 ∧ pf p 456 8 = e / 256 % 256 ∧
      pf p 464 48 = e / 2 ^ 16 := by
  intro p
  have hp : p.toNat = _ := toNat_packet hkind htsv hcmpl hscope hsem hcore hts ha hb hc hd he
  refine ⟨?_, ?_, ?_, ?_, ?_, ?_, ?_, ?_, ?_, ?_, ?_, ?_, ?_, ?_⟩ <;> simp only [pKind, pCore, pTs, pf, fld, hp] <;> omega

end PacketFields

/-- The job card bit as a number. -/
theorem pCard_iff (p : BitVec 512) : pCard p = decide (p.toNat / 2 ^ 8 % 2 = 1) := by
  rw [pCard, BitVec.getLsbD, Nat.testBit_eq_decide_div_mod_eq]

/-! ### The room of the port -/

/-- The port of the present core with packets more. -/
def State.withPackets (s : State) (l : List QPkt) : State := s.modUnits s.cur.core (fun u => { u with port := u.port ++ l })

theorem place_full {s : State} {l : List (Nat × BitVec 512)} (k : State → Act) (h : 16 < s.me.units.port.length + l.length) :
    s.place l k = .wait s 0xA 0 0 := if_pos h

theorem place_room {s : State} {l : List (Nat × BitVec 512)} (k : State → Act) (h : s.me.units.port.length + l.length ≤ 16) :
    s.place l k = k (s.withPackets (l.map (fun x => s.portPkt x.1 x.2))) := if_neg (Nat.not_lt.mpr h)

/-! ### ENG instructions -/

/-- The packet of an ENG instruction. -/
def State.engPacket (s : State) (kind sub : Nat) (card : Option Nat) (ep : Bool) (f : EngF) : BitVec 512 :=
  packet kind (b2n card.isSome) 1 3 f.sem.toNat s.cur.core (if card.isSome then fld (mget 0 s.me.im.jts (card.getD 0)).toNat 0 48 else 0)
    (s.rd f.a).toNat (s.rd f.b).toNat (s.rd f.c).toNat (s.rd f.d).toNat ((if ep then f.ep.toNat else 0) + sub * 256)

/-- The next timestamp of a job card's domain, taken (R273). -/
def State.nextCard (s : State) (jts : Word) (card : Option Nat) (t : State) : State :=
  match card with
  | none => t
  | some k => t.modIm s.cur.core (fun im =>
      { im with jts := mset im.jts k (BitVec.ofNat 64 (fld jts.toNat 48 16 * 2 ^ 48 + (fld jts.toNat 0 48 + fld jts.toNat 48 16) % 2 ^ 48)) })

/-- An ENG instruction is refused (R271, R273). -/
def State.engRefused (s : State) (card : Option Nat) (f : EngF) : Prop :=
  f.start ≠ 0 ∨ mget 0 s.me.im.qb f.q.toNat = 0 ∨ (card.isSome = true ∧ fld (mget 0 s.me.im.jts (card.getD 0)).toNat 48 16 = 0)

theorem actEng_refused {s : State} {card : Option Nat} {f : EngF} (kind sub : Nat) (ep : Bool) (h : s.engRefused card f) :
    actEng kind sub card ep f s = s.opTrap 0xB := if_pos h

theorem actEng_placed {s : State} {card : Option Nat} {f : EngF} (kind sub : Nat) (ep : Bool) (h : ¬s.engRefused card f) :
    actEng kind sub card ep f s = s.place [(f.q.toNat, s.engPacket kind sub card ep f)]
      (fun t => .done (s.nextCard (mget 0 s.me.im.jts (card.getD 0)) card (t.releaseNext s.cur.core 3))) := by
  refine (if_neg h).trans ?_
  cases card with
  | none => rfl
  | some k => rfl

/-- Every row of Table 14-1 is executed as an ENG instruction whose form, where it is illegal, raises 0x0B. -/
theorem exec_eng {i : Instr} {f : EngF} {kind sub : Nat} {card : Option Nat} {ep bad : Bool} (h : engRow i = some (f, kind, sub, card, ep, bad)) (s : State) :
    kind < 256 ∧ sub < 256 ∧
    ∃ act : State → Act, exec i s = issue s (engReads f) act ∧ act s = if bad then s.opTrap 0xB else actEng kind sub card ep f s := by
  unfold engRow at h
  split at h <;> cases h
  · exact ⟨by decide, by decide, _, show _ = execIxeGather _ s from rfl, rfl⟩
  · exact ⟨by decide, by decide, _, show _ = execIxeScatter _ s from rfl, rfl⟩
  · exact ⟨by decide, by decide, _, show _ = execIxeDedup _ s from rfl, (if_congr bne_iff_ne rfl rfl).symm⟩
  · exact ⟨by decide, by decide, _, show _ = execIxeBucket _ s from rfl, rfl⟩
  · exact ⟨by decide, by decide, _, show _ = execWlpush _ s from rfl, rfl⟩
  · exact ⟨by decide, by decide, _, show _ = execWlpop _ s from rfl, rfl⟩
  · exact ⟨by decide, by decide, _, show _ = execWldin _ s from rfl, rfl⟩
  · exact ⟨by decide, by decide, _, show _ = execSkq _ s from rfl, rfl⟩
  · exact ⟨by decide, by decide, _, show _ = execSkqAdd _ s from rfl, rfl⟩
  · exact ⟨by decide, by decide, _, show _ = execHrchFill _ s from rfl, (if_congr bne_iff_ne rfl rfl).symm⟩
  · exact ⟨by decide, by decide, _, show _ = execHrchEvict _ s from rfl, (if_congr bne_iff_ne rfl rfl).symm⟩
  · exact ⟨by decide, by decide, _, show _ = execHrchFlush _ s from rfl, (if_congr bne_iff_ne rfl rfl).symm⟩
  · exact ⟨by decide, by decide, _, show _ = execHrchPin _ s from rfl, (if_congr bne_iff_ne rfl rfl).symm⟩
  · exact ⟨by decide, by decide, _, show _ = execHrchUnpin _ s from rfl, (if_congr bne_iff_ne rfl rfl).symm⟩
  · exact ⟨by decide, by decide, _, show _ = execPool _ s from rfl, rfl⟩
  · exact ⟨by decide, by decide, _, show _ = execSupd _ s from rfl, rfl⟩
  · exact ⟨by decide, by decide, _, show _ = execNmc _ s from rfl, rfl⟩
  · exact ⟨by decide, by decide, _, show _ = execXchPool _ s from rfl, rfl⟩
  · exact ⟨by decide, by decide, _, show _ = execXchRed _ s from rfl, (if_congr bne_iff_ne rfl rfl).symm⟩

theorem fld_lt (n lo w : Nat) : fld n lo w < 2 ^ w := Nat.mod_lt _ (Nat.two_pow_pos w)

/-- The fields of an ENG instruction's packet (Table 13-1, R291, R292). -/
theorem fields_engPacket {s : State} {kind sub : Nat} (card : Option Nat) (ep : Bool) (f : EngF) (hkind : kind < 256) (hsub : sub < 256)
    (hcore : s.cur.core < 128) :
    let p := s.engPacket kind sub card ep f
    pKind p = kind ∧ pCard p = card.isSome ∧
      pTs p = (if card.isSome then fld (mget 0 s.me.im.jts (card.getD 0)).toNat 0 48 else 0) ∧ pf p 9 2 = 1 ∧ pf p 12 3 = 3 ∧
      pf p 16 6 = f.sem.toNat ∧ pCore p = s.cur.core ∧ pBody p 0 = s.rd f.a ∧ pBody p 1 = s.rd f.b ∧ pBody p 2 = s.rd f.c ∧
      pBody p 3 = s.rd f.d ∧ pf p 448 8 = (if ep then f.ep.toNat else 0) ∧ pf p 456 8 = sub ∧ pf p 464 48 = 0 := by
  intro p
  have hts : (if card.isSome then fld (mget 0 s.me.im.jts (card.getD 0)).toNat 0 48 else 0) < 2 ^ 64 := by
    have := fld_lt (mget 0 s.me.im.jts (card.getD 0)).toNat 0 48
    split <;> omega
  have hep : (if ep then f.ep.toNat else 0) < 256 := by
    have := f.ep.isLt
    split <;> omega
  have hcard : b2n card.isSome < 2 := by cases card <;> simp [b2n]
  obtain ⟨h1, h2, h3, h4, h5, h6, h7, h8, h9, h10, h11, h12, h13, h14⟩ := fields_packet (kind := kind) (tsv := b2n card.isSome) (cmpl := 1)
    (scope := 3) (sem := f.sem.toNat) (core := s.cur.core) (ts := _) (e := (if ep then f.ep.toNat else 0) + sub * 256) hkind hcard (by omega) (by omega)
    f.sem.isLt hcore hts (s.rd f.a).isLt (s.rd f.b).isLt (s.rd f.c).isLt (s.rd f.d).isLt (by omega)
  refine ⟨h1, ?_, h7, h3, h4, h5, h6, ?_, ?_, ?_, ?_, h12.trans (by omega), h13.trans (by omega), h14.trans (by omega)⟩
  · rw [pCard_iff, show p.toNat / 2 ^ 8 % 2 = _ from h2]
    cases card <;> rfl
  · rw [pBody, show pf p (192 + 64 * 0) 64 = _ from h8, BitVec.ofNat_toNat, BitVec.setWidth_eq]
  · rw [pBody, show pf p (192 + 64 * 1) 64 = _ from h9, BitVec.ofNat_toNat, BitVec.setWidth_eq]
  · rw [pBody, show pf p (192 + 64 * 2) 64 = _ from h10, BitVec.ofNat_toNat, BitVec.setWidth_eq]
  · rw [pBody, show pf p (192 + 64 * 3) 64 = _ from h11, BitVec.ofNat_toNat, BitVec.setWidth_eq]

theorem engInstructionsPlaceTheirPacket : Claims.EngInstructionsPlaceTheirPacket := by
  intro s i f kind sub card ep bad hrow hready hcore jts step next wrong past
  obtain ⟨hkind, hsub, act, hexec, hact⟩ := exec_eng hrow s
  have hreads : s.Ready (engReads f) := hready
  have hright : ¬wrong → bad = false ∧ ¬s.engRefused card f := fun h =>
    ⟨Bool.eq_false_iff.mpr (fun hb => h (Or.inl hb)), fun hr => h (Or.inr hr)⟩
  refine ⟨fun hwrong => ?_, fun hok hfull => ?_, fun hok hroom => ?_⟩
  · refine State.traps_of_opTrap hexec hreads (hact.trans ?_)
    split
    · rfl
    · next hbad => exact actEng_refused kind sub ep (hwrong.resolve_left hbad)
  · obtain ⟨hbad, hplace⟩ := hright hok
    refine State.waits_of_wait hexec hreads (lacks := 0) (hact.trans ?_)
    rw [hbad, if_neg Bool.false_ne_true, actEng_placed kind sub ep hplace]
    exact place_full _ (by simp only [List.length_singleton]; omega)
  · obtain ⟨hbad, hplace⟩ := hright hok
    refine ⟨s.portPkt f.q.toNat (s.engPacket kind sub card ep f), rfl, rfl, rfl, rfl, rfl, ?_⟩
    obtain ⟨h1, h2, h3, h4, h5, h6, h7, h8, h9, h10, h11, h12, h13, h14⟩ := fields_engPacket card ep f hkind hsub hcore
    refine ⟨h1, h2, h3, h4, h5, h6, h7, h8, h9, h10, h11, h12, h13, h14, ?_⟩
    refine State.issues_of_done hexec hreads (hact.trans ?_)
    rw [hbad, if_neg Bool.false_ne_true, actEng_placed kind sub ep hplace, place_room _ (by simp only [List.length_singleton]; omega)]
    cases card with
    | none => rfl
    | some k => rfl

/-! ### qpush and qfence -/

theorem qpushActs (s : State) (f : StoF) (hready : s.Ready []) :
    let la := f.la.toNat
    let n := f.n.toNat
    let local_ := s.me.checkLocal s.me.ctx s.tstep la (64 * n) true
    let bound := mget 0 s.me.im.qb f.q.toNat ≠ 0
    let i := Instr.qpush f
    (n = 0 → s.Issues i s) ∧
    (n ≠ 0 → la % 64 ≠ 0 → s.Traps i 0x40 0) ∧
    (n ≠ 0 → la % 64 = 0 → ∀ cause slab a, local_ = some (cause, slab, a) → s.Traps i cause 0) ∧
    (n ≠ 0 → la % 64 = 0 → local_ = none → ¬bound → s.Traps i 0xB 0) ∧
    (n ≠ 0 → la % 64 = 0 → local_ = none → bound → 16 < s.me.units.port.length + n → s.Waits i 0xA 0) ∧
    (n ≠ 0 → la % 64 = 0 → local_ = none → bound → s.me.units.port.length + n ≤ 16 → ∃ l,
      l.map (fun k => (k.q, k.pkt)) = (pieces 64 (s.me.bytes la (64 * n))).map (fun bs => (f.q.toNat, BitVec.ofNat 512 (leNat bs))) ∧
      (∀ k ∈ l, k.desc = mget 0 s.me.im.qb k.q ∧ k.claim = none ∧ k.at_ = s.cyc + 1) ∧
      s.Issues i (s.withPackets l)) := by
  intro la n local_ bound i
  have hexec : exec i s = issue s [] (actQpush f) := show _ = execQpush f s from rfl
  have hlen : n ≠ 0 → ((pieces 64 (s.me.bytes la (64 * n))).map (fun bs => (f.q.toNat, BitVec.ofNat 512 (leNat bs)))).length = n := by
    intro _
    rw [List.length_map]
    exact length_pieces (by decide) (by simp [Core.bytes, length_upTo, Nat.mul_comm])
  refine ⟨fun h0 => ?_, fun h0 hmis => ?_, fun h0 hal cause slab a hbad => ?_, fun h0 hal hloc hq => ?_, fun h0 hal hloc hq hfull => ?_,
    fun h0 hal hloc hq hroom => ?_⟩
  · exact State.issues_of_done hexec hready (if_pos h0)
  · exact State.traps_of_memTrap hexec hready ((if_neg h0).trans (if_pos hmis))
  · refine State.traps_of_memTrap hexec hready (addr := a) (status := memStatus 0 0 0 0 slab) ?_
    refine (if_neg h0).trans ((if_neg (not_not_intro hal)).trans ?_)
    rw [show s.me.checkLocal _ _ _ _ _ = _ from hbad]
  · refine State.traps_of_opTrap hexec hready ?_
    refine (if_neg h0).trans ((if_neg (not_not_intro hal)).trans ?_)
    rw [show s.me.checkLocal _ _ _ _ _ = _ from hloc]
    exact if_pos (not_not.mp hq)
  · refine State.waits_of_wait hexec hready (lacks := 0) ?_
    refine (if_neg h0).trans ((if_neg (not_not_intro hal)).trans ?_)
    rw [show s.me.checkLocal _ _ _ _ _ = _ from hloc]
    refine (if_neg hq).trans (place_full _ ?_)
    rw [hlen h0]
    exact hfull
  · refine ⟨((pieces 64 (s.me.bytes la (64 * n))).map (fun bs => (f.q.toNat, BitVec.ofNat 512 (leNat bs)))).map (fun x => s.portPkt x.1 x.2),
      ?_, ?_, ?_⟩
    · rw [List.map_map]
      exact (List.map_congr_left (fun x _ => rfl)).trans (List.map_id _)
    · intro k hk
      obtain ⟨x, -, rfl⟩ := List.mem_map.mp hk
      exact ⟨rfl, rfl, rfl⟩
    · refine State.issues_of_done hexec hready ?_
      refine (if_neg h0).trans ((if_neg (not_not_intro hal)).trans ?_)
      rw [show s.me.checkLocal _ _ _ _ _ = _ from hloc]
      refine (if_neg hq).trans (place_room _ ?_)
      rw [hlen h0]
      exact hroom

/-- The join packet of a `qfence` (R276). -/
def joinPacket (va : Word) (target : Nat) : BitVec 512 := packet 1 0 0 3 0 0 0 va.toNat target 0 0 0

theorem fields_joinPacket (va : Word) {n : Nat} (hn : n < 2 ^ 64) : pKind (joinPacket va n) = 1 ∧ pCard (joinPacket va n) = false ∧
    pf (joinPacket va n) 9 2 = 0 ∧ pf (joinPacket va n) 12 3 = 3 ∧ pBody (joinPacket va n) 0 = va ∧
    pBody (joinPacket va n) 1 = BitVec.ofNat 64 n := by
  obtain ⟨h1, h2, h3, h4, -, -, -, h8, h9, -⟩ := fields_packet (kind := 1) (tsv := 0) (cmpl := 0) (scope := 3) (sem := 0) (core := 0) (ts := 0)
    (a := va.toNat) (b := n) (c := 0) (d := 0) (e := 0) (by omega) (by omega) (by omega) (by omega) (by omega) (by omega) (by omega) va.isLt hn
    (by omega) (by omega) (by omega)
  refine ⟨h1, ?_, h3, h4, ?_, ?_⟩
  · rw [pCard_iff, joinPacket, h2]
    rfl
  · rw [pBody, joinPacket, show pf _ (192 + 64 * 0) 64 = _ from h8, BitVec.ofNat_toNat, BitVec.setWidth_eq]
  · rw [pBody, joinPacket, show pf _ (192 + 64 * 1) 64 = _ from h9]

theorem length_fenceQueues_lt (m : MgtF) : (fenceQueues m).length < 2 ^ 64 := by
  have h := List.length_filter_le (fun q => m.n.getLsbD q) (upTo 0 16)
  rw [length_upTo] at h
  exact lt_of_le_of_lt h (by decide)

/-- The packets that a `qfence` places in the port. -/
def State.joinPackets (s : State) (m : MgtF) (va : Word) : List QPkt :=
  ((fenceQueues m).map (fun q => (q, joinPacket va (fenceQueues m).length))).map (fun x => s.portPkt x.1 x.2)

theorem joinPackets_map (s : State) (m : MgtF) (va : Word) : (s.joinPackets m va).map (fun k => (k.q, k.pkt)) =
    (fenceQueues m).map (fun q => (q, joinPacket va (fenceQueues m).length)) := by
  rw [State.joinPackets, List.map_map]
  exact (List.map_congr_left (fun x _ => rfl)).trans (List.map_id _)

theorem any_unbound_eq_false {s : State} {qs : List Nat} (h : ∀ q ∈ qs, mget 0 s.me.im.qb q ≠ 0) :
    qs.any (fun q => mget 0 s.me.im.qb q == 0) = false := by
  simpa [List.any_eq_false] using h

theorem any_unbound_eq_true {s : State} {qs : List Nat} (h : ¬∀ q ∈ qs, mget 0 s.me.im.qb q ≠ 0) :
    qs.any (fun q => mget 0 s.me.im.qb q == 0) = true := by
  simpa [List.any_eq_true] using h

theorem qfenceActs (s : State) (m : MgtF) (s1 : State) (ps : List KPiece) (hready : s.Ready [m.a]) :
    let va := s.rd m.a
    let qs := fenceQueues m
    let bound := ∀ q ∈ qs, mget 0 s.me.im.qb q ≠ 0
    let both (P : Instr → Prop) : Prop := P (.qfence m) ∧ P (.qfenceW m)
    let joins (l : List QPkt) : Prop := l.map (fun k => k.q) = qs ∧ ∀ k ∈ l, pKind k.pkt = 1 ∧ pCard k.pkt = false ∧ pf k.pkt 9 2 = 0 ∧
      pf k.pkt 12 3 = 3 ∧ pBody k.pkt 0 = va ∧ pBody k.pkt 1 = BitVec.ofNat 64 qs.length ∧ k.desc = mget 0 s.me.im.qb k.q
    (qs = [] → both (fun i => s.Issues i s)) ∧
    (qs ≠ [] → va.toNat % 8 ≠ 0 → both (fun i => s.Traps i 0x40 0)) ∧
    (qs ≠ [] → va.toNat % 8 = 0 → ¬bound → both (fun i => s.Traps i 0xB 0)) ∧
    (qs ≠ [] → va.toNat % 8 = 0 → bound → 16 < s.me.units.port.length + qs.length → s.Waits (.qfence m) 0xA 0) ∧
    (qs ≠ [] → va.toNat % 8 = 0 → bound → s.me.units.port.length + qs.length ≤ 16 → ∃ l, joins l ∧
      s.Issues (.qfence m) ((s.withPackets l).releaseNext s.cur.core 3)) ∧
    (qs ≠ [] → va.toNat % 8 = 0 → bound → s.me.timed = true → s.Waits (.qfenceW m) 0xA 0) ∧
    (qs ≠ [] → va.toNat % 8 = 0 → bound → s.me.timed = false → s.Reaches 0 va 8 s1 ps → s1.me.units.port.length + qs.length ≤ 16 → ∃ l,
      l.map (fun k => (k.q, k.pkt)) = qs.map (fun q => (q, packet 1 0 0 3 0 0 0 va.toNat qs.length 0 0 0)) ∧
      s.Issues (.qfenceW m) (((s1.withPackets l).releaseNext s1.cur.core 3).modMs s1.cur.core (fun m =>
        { m with hold := some (.join va ((ps.map (fun p => p.pa)).headD 0) qs.length s1.mySeq.index) }))) := by
  intro va qs bound both joins
  have hexec : exec (.qfence m) s = issue s [m.a] (actQfence false m) := show _ = execQfence m s from rfl
  have hexecW : exec (.qfenceW m) s = issue s [m.a] (actQfence true m) := show _ = execQfenceW m s from rfl
  have hne : qs ≠ [] → ¬(qs.isEmpty = true) := fun h he => h (List.isEmpty_iff.mp he)
  have hlen : (qs.map (fun q => (q, joinPacket va qs.length))).length = qs.length := List.length_map _
  refine ⟨fun h0 => ?_, fun h0 hmis => ?_, fun h0 hal hq => ?_, fun h0 hal hq hfull => ?_, fun h0 hal hq hroom => ?_, fun h0 hal hq htimed => ?_,
    fun h0 hal hq huntimed hreach hroom => ?_⟩
  · have he : qs.isEmpty = true := List.isEmpty_iff.mpr h0
    exact ⟨State.issues_of_done hexec hready (if_pos he), State.issues_of_done hexecW hready (if_pos he)⟩
  · exact ⟨State.traps_of_memTrap hexec hready ((if_neg (hne h0)).trans (if_pos hmis)),
      State.traps_of_memTrap hexecW hready ((if_neg (hne h0)).trans (if_pos hmis))⟩
  · have hun := any_unbound_eq_true hq
    exact ⟨State.traps_of_opTrap hexec hready ((if_neg (hne h0)).trans ((if_neg (not_not_intro hal)).trans (if_pos hun))),
      State.traps_of_opTrap hexecW hready ((if_neg (hne h0)).trans ((if_neg (not_not_intro hal)).trans (if_pos hun)))⟩
  · have hun := any_unbound_eq_false hq
    refine State.waits_of_wait hexec hready (lacks := 0) ?_
    refine (if_neg (hne h0)).trans ((if_neg (not_not_intro hal)).trans ((if_neg (ne_true_of_eq_false hun)).trans ((if_neg Bool.false_ne_true).trans ?_)))
    exact place_full _ (lt_of_lt_of_eq hfull (congrArg _ hlen.symm))
  · have hun := any_unbound_eq_false hq
    refine ⟨s.joinPackets m va, ⟨?_, ?_⟩, State.issues_of_done hexec hready ?_⟩
    · have h := congrArg (List.map Prod.fst) (joinPackets_map s m va)
      simpa [List.map_map, Function.comp_def] using h
    · intro k hk
      rw [State.joinPackets, List.map_map] at hk
      obtain ⟨q, -, rfl⟩ := List.mem_map.mp hk
      obtain ⟨h1, h2, h3, h4, h5, h6⟩ := fields_joinPacket va (length_fenceQueues_lt m)
      exact ⟨h1, h2, h3, h4, h5, h6, rfl⟩
    · refine (if_neg (hne h0)).trans ((if_neg (not_not_intro hal)).trans ((if_neg (ne_true_of_eq_false hun)).trans ((if_neg Bool.false_ne_true).trans ?_)))
      exact place_room _ (le_of_eq_of_le (congrArg _ hlen) hroom)
  · have hun := any_unbound_eq_false hq
    refine State.waits_of_wait hexecW hready (lacks := 0) ?_
    exact (if_neg (hne h0)).trans ((if_neg (not_not_intro hal)).trans ((if_neg (ne_true_of_eq_false hun)).trans ((if_pos rfl).trans (if_pos htimed))))
  · have hun := any_unbound_eq_false hq
    refine ⟨s1.joinPackets m va, joinPackets_map s1 m va, State.issues_of_done hexecW hready ?_⟩
    refine (if_neg (hne h0)).trans ((if_neg (not_not_intro hal)).trans ((if_neg (ne_true_of_eq_false hun)).trans ((if_pos rfl).trans
      ((if_neg (ne_true_of_eq_false huntimed)).trans ((kAccess_of_reaches hreach _).trans ?_)))))
    exact place_room _ (le_of_eq_of_le (congrArg _ hlen) hroom)

theorem pushesAndFencesPlacePackets : Claims.PushesAndFencesPlacePackets :=
  fun s f m s1 ps => ⟨qpushActs s f, qfenceActs s m s1 ps⟩

end Sys2Proof.Machine

namespace Sys2Proof.Proofs
open Sys2Proof.Machine

/-- Settles O42: the instructions that place packets make them of their registers and header, and place them where the port has room. -/
theorem packetsArePlaced : Obligations.PacketsArePlaced :=
  ⟨engInstructionsPlaceTheirPacket, pushesAndFencesPlacePackets⟩

end Sys2Proof.Proofs
end

