-- ==== Sys2Proof/Proofs/AgentAccesses.lean ====
section
/-! PROOFS. Accesses of agents: what the translation of an access moves, what a write at its home marks, and what reads and atomics that end with a value
leave (R250, R252, R264, R274, R350). -/
namespace Sys2Proof.Machine

/-! ### Maps -/

theorem mfind_mdel {α : Type} (m : Map α) (a b : Nat) : mfind (mdel m a) b = if b = a then none else mfind m b := by
  induction m with
  | nil => rw [mdel, mfind]; split <;> rfl
  | cons p r ih =>
    obtain ⟨k, v⟩ := p
    rw [mdel]
    split
    · next h =>
      rw [ih, mfind, h]
      split
      · rfl
      · next hb => rw [if_neg (fun h' => hb h'.symm)]
    · next h =>
      rw [mfind, ih, mfind]
      split
      · next hb => rw [if_neg (fun h' => h (hb.trans h'))]
      · rfl

theorem mfind_map_snd {α β : Type} (m : Map α) (f : α → β) (a : Nat) :
    mfind (m.map (fun p => (p.1, f p.2))) a = (mfind m a).map f := by
  induction m with
  | nil => rfl
  | cons p r ih =>
    obtain ⟨k, v⟩ := p
    rw [List.map_cons, mfind, mfind, ih]
    split <;> rfl

theorem mget_of_mfind {α : Type} {d x : α} {m : Map α} {a : Nat} (h : mfind m a = some x) : mget d m a = x := by
  rw [mget, h]; rfl

/-! ### What a translation moves -/

/-- What translating an access may move: the streams' translations, and the walks before the walkers of a die. -/
structure State.Walks (s t : State) : Prop where
  state : ∃ st pf ds, t = { s with stlb := st, pfetch := pf, dies := ds }
  die : ∀ d, ∃ q a, t.die d = { s.die d with walkq := q, walkAsk := a }

namespace State.Walks

theorem refl (s : State) : s.Walks s := ⟨⟨s.stlb, s.pfetch, s.dies, rfl⟩, fun d => ⟨(s.die d).walkq, (s.die d).walkAsk, rfl⟩⟩

theorem trans {s t u : State} (h : s.Walks t) (h' : t.Walks u) : s.Walks u where
  state := by
    obtain ⟨_, _, _, rfl⟩ := h.state
    obtain ⟨st, pf, ds, rfl⟩ := h'.state
    exact ⟨st, pf, ds, rfl⟩
  die d := by
    obtain ⟨_, _, ht⟩ := h.die d
    obtain ⟨q, a, hu⟩ := h'.die d
    exact ⟨q, a, by rw [hu, ht]⟩

variable {s t : State}

theorem cyc (h : s.Walks t) : t.cyc = s.cyc := by obtain ⟨_, _, _, rfl⟩ := h.state; rfl
theorem mem (h : s.Walks t) : t.mem = s.mem := by obtain ⟨_, _, _, rfl⟩ := h.state; rfl
theorem works (h : s.Walks t) : t.works = s.works := by obtain ⟨_, _, _, rfl⟩ := h.state; rfl
theorem dom (h : s.Walks t) : t.dom = s.dom := by obtain ⟨_, _, _, rfl⟩ := h.state; rfl
theorem serial (h : s.Walks t) : t.serial = s.serial := by obtain ⟨_, _, _, rfl⟩ := h.state; rfl
theorem draws (h : s.Walks t) : t.draws = s.draws := by obtain ⟨_, _, _, rfl⟩ := h.state; rfl
theorem cores (h : s.Walks t) : t.cores = s.cores := by obtain ⟨_, _, _, rfl⟩ := h.state; rfl
theorem placed (h : s.Walks t) : t.placed = s.placed := by obtain ⟨_, _, _, rfl⟩ := h.state; rfl
theorem arrays (h : s.Walks t) : t.arrays = s.arrays := by obtain ⟨_, _, _, rfl⟩ := h.state; rfl
theorem frames (h : s.Walks t) : t.frames = s.frames := by obtain ⟨_, _, _, rfl⟩ := h.state; rfl
theorem homeView (h : s.Walks t) : t.homeView = s.homeView := by obtain ⟨_, _, _, rfl⟩ := h.state; rfl
theorem core (h : s.Walks t) (c : Nat) : t.core c = s.core c := by rw [State.core, State.core, h.cores]

theorem fronts (h : s.Walks t) (d : Nat) : (t.die d).fronts = (s.die d).fronts := by
  obtain ⟨_, _, hd⟩ := h.die d
  rw [hd]

theorem qent (h : s.Walks t) (q : Nat) : t.qent q = s.qent q := by
  obtain ⟨_, _, hd⟩ := h.die (q / 256)
  rw [State.qent, State.qent, hd]

end State.Walks

theorem walks_of_walkers (s : State) (d : Nat) (f : Die → Die) (h : ∃ q a, f (s.die d) = { s.die d with walkq := q, walkAsk := a }) :
    s.Walks (s.modDie d f) where
  state := ⟨s.stlb, s.pfetch, _, rfl⟩
  die d' := by
    rw [State.die_modDie]
    split
    · next hd => rw [hd]; exact h
    · exact ⟨(s.die d').walkq, (s.die d').walkAsk, rfl⟩

theorem walks_streams (s : State) (st : Map (List TlbEnt)) (pf : Map (Nat × Word)) : s.Walks { s with stlb := st, pfetch := pf } :=
  ⟨⟨st, pf, s.dies, rfl⟩, fun d => ⟨(s.die d).walkq, (s.die d).walkAsk, rfl⟩⟩

theorem queueWalk_walks (s : State) (d key : Nat) : s.Walks (s.queueWalk d key) := walks_of_walkers s d _ ⟨_, _, rfl⟩

theorem streamFill_walks (s : State) (agent : Nat) (e : TlbEnt) (down : Bool) : s.Walks (s.streamFill agent e down) := by
  unfold State.streamFill
  dsimp only
  split
  · exact (walks_streams s _ _).trans (queueWalk_walks _ _ _)
  · exact walks_streams s _ s.pfetch

theorem stream_walks {s t : State} {agent ctx kind : Nat} {root va : Word} {down : Bool} {e : TlbEnt}
    (h : s.stream agent ctx root va kind down = .ok (e, t)) : s.Walks t := by
  unfold State.stream at h
  dsimp only at h
  split at h
  · split at h <;> cases h
    · exact State.Walks.refl s
    · exact streamFill_walks s _ _ _
  · split at h <;> cases h
    exact streamFill_walks s _ _ _

theorem translateAll_walks {agent ctx kind : Nat} {root : Word} {down : Bool} (l : List (Nat × Nat)) {s t : State} {ps : List (Nat × Nat)}
    (h : s.translateAll agent ctx root kind down l = .ok (ps, t)) : s.Walks t := by
  induction l generalizing s ps with
  | nil =>
    cases h
    exact State.Walks.refl _
  | cons p r ih =>
    obtain ⟨va, n⟩ := p
    rw [State.translateAll] at h
    split at h
    · cases h
    · next hs =>
      split at h <;> cases h
      next hr => exact (stream_walks hs).trans (ih hr)

theorem demand_walks {s t : State} {agent ctx kind n : Nat} {va : Word} {down : Bool} {ps : List (Nat × Nat)}
    (h : s.demand agent ctx kind down va n = .ok (ps, t)) : s.Walks t := by
  unfold State.demand at h
  dsimp only at h
  split at h
  · cases h
  · exact translateAll_walks _ h

theorem walkGate_walks (s : State) (d agent ctx kind : Nat) (va : Word) (n : Nat) : s.Walks (s.walkGate d agent ctx kind va n).2 := by
  unfold State.walkGate
  dsimp only
  split
  · exact State.Walks.refl s
  · split
    · dsimp only
      split
      · exact walks_of_walkers s _ _ ⟨_, _, rfl⟩
      · exact State.Walks.refl s
    · dsimp only
      unfold State.walkWait
      dsimp only
      split
      · exact walks_of_walkers s _ _ ⟨_, _, rfl⟩
      · exact (queueWalk_walks s _ _).trans (walks_of_walkers _ _ _ ⟨_, _, rfl⟩)

theorem engineAccess_walks {s t : State} {c agent ctx unit uidx kind n : Nat} {down : Bool} {w : FWait} {va : Word} {ps : List (Nat × Nat)}
    (h : s.engineAccess c agent ctx unit uidx kind down w va n = .ok ps t) : s.Walks t := by
  unfold State.engineAccess at h
  dsimp only at h
  split at h
  · cases h
  · split at h
    · next hd =>
      split at h <;> cases h
      exact (walkGate_walks s _ _ _ _ _ _).trans (demand_walks hd)
    · split at h <;> cases h

theorem frontAccess_walks {s t : State} {d agent ctx unit uidx kind n : Nat} {down : Bool} {w : FWait} {va : Word} {ps : List (Nat × Nat)}
    (h : s.frontAccess d agent ctx unit uidx kind down w va n = .ok ps t) : s.Walks t := by
  unfold State.frontAccess at h
  dsimp only at h
  split at h
  · cases h
  · split at h
    · next hd =>
      cases h
      exact (walkGate_walks s _ _ _ _ _ _).trans (demand_walks hd)
    · split at h
      · cases h
      · split at h <;> cases h

theorem reach_walks {s t : State} {g : Agent} {kind n : Nat} {va : Word} {ps : List (Nat × Nat)} (h : s.reach g kind va n = .ok ps t) : s.Walks t := by
  unfold State.reach at h
  split at h
  · cases h
  · split at h
    · cases h
    · dsimp only at h
      split at h
      · cases h
      · cases h
      · next hr =>
        split at h
        · cases h
        · generalize (if 1024 ≤ g.id then some (g.id - 1024) else none) = own at h
          split at h <;> cases h
          split at hr
          · exact engineAccess_walks hr
          · exact frontAccess_walks hr

/-- A read whose parts end with their bytes changes nothing. -/
theorem readParts_ok {s t : State} {agent ctx : Nat} (ps : List (Nat × Nat)) {bs : List Byte} (h : s.readParts agent ctx ps = .ok bs t) : t = s := by
  induction ps generalizing bs with
  | nil => cases h; rfl
  | cons p r ih =>
    obtain ⟨pa, n⟩ := p
    have hmore : ∀ x y, (match s.readParts agent ctx r with
        | .ok b s' => ERead.ok (x ++ b) s'
        | e => e) = ERead.ok y t → t = s := by
      intro x y hxy
      split at hxy
      · next hr => cases hxy; exact ih hr
      · next hne => exact absurd hxy (hne _ _)
    rw [State.readParts] at h
    dsimp only at h
    split at h
    · cases h
    · exact hmore _ _ h
    · split at h
      · split at h
        · cases h
        · exact hmore _ _ h
      · split at h <;> cases h

theorem takeParts_ok {s t : State} {g : Agent} {va : Word} {ps : List (Nat × Nat)} {bs : List Byte} (h : s.takeParts g va ps = .ok bs t) : t = s := by
  unfold State.takeParts at h
  split at h
  · next hr => cases h; exact readParts_ok ps hr
  · cases h
  · cases h

theorem andThen_ok {α β : Type} {x : EngR α} {f : α → State → EngR β} {b : β} {t : State} :
    x.andThen f = .ok b t ↔ ∃ a s, x = .ok a s ∧ f a s = .ok b t := by
  constructor
  · intro h
    cases x with
    | ok a s => exact ⟨a, s, rfl, h⟩
    | stand => cases h
    | wait => cases h
    | fail => cases h
  · rintro ⟨a, s, rfl, h⟩
    exact h

theorem gread_walks {s t : State} {g : Agent} {n : Nat} {va : Word} {bs : List Byte} (h : s.gread g va n = .ok bs t) : s.Walks t := by
  obtain ⟨ps, u, hr, hp⟩ := andThen_ok.mp h
  rw [takeParts_ok hp]
  exact reach_walks hr

/-! ### What a write at its home marks -/

/-- What a write at homes may change: memory with its errors and narrow publications, the tails that front ends have observed, and the marks of at-bank
commands that have read. -/
structure State.Wrote (s t : State) : Prop where
  state : ∃ m bd bl ds ar, t = { s with mem := m, bad := bd, blog := bl, dies := ds, arrays := ar }
  die : ∀ d, ∃ fr, t.die d = { s.die d with fronts := fr }
  front : ∀ d i, ∃ v : Front → Nat, mfind (t.die d).fronts i = (mfind (s.die d).fronts i).map (fun f => { f with widx := v f })

namespace State.Wrote

theorem refl (s : State) : s.Wrote s where
  state := ⟨s.mem, s.bad, s.blog, s.dies, s.arrays, rfl⟩
  die d := ⟨(s.die d).fronts, rfl⟩
  front d i := ⟨fun f => f.widx, by cases mfind (s.die d).fronts i <;> rfl⟩

theorem trans {s t u : State} (h : s.Wrote t) (h' : t.Wrote u) : s.Wrote u where
  state := by
    obtain ⟨_, _, _, _, _, rfl⟩ := h.state
    obtain ⟨m, bd, bl, ds, ar, rfl⟩ := h'.state
    exact ⟨m, bd, bl, ds, ar, rfl⟩
  die d := by
    obtain ⟨_, ht⟩ := h.die d
    obtain ⟨fr, hu⟩ := h'.die d
    exact ⟨fr, by rw [hu, ht]⟩
  front d i := by
    obtain ⟨v, ht⟩ := h.front d i
    obtain ⟨v', hu⟩ := h'.front d i
    exact ⟨fun f => v' { f with widx := v f }, by rw [hu, ht, Option.map_map]; rfl⟩

variable {s t : State}

theorem cyc (h : s.Wrote t) : t.cyc = s.cyc := by obtain ⟨_, _, _, _, _, rfl⟩ := h.state; rfl
theorem works (h : s.Wrote t) : t.works = s.works := by obtain ⟨_, _, _, _, _, rfl⟩ := h.state; rfl
theorem dom (h : s.Wrote t) : t.dom = s.dom := by obtain ⟨_, _, _, _, _, rfl⟩ := h.state; rfl
theorem serial (h : s.Wrote t) : t.serial = s.serial := by obtain ⟨_, _, _, _, _, rfl⟩ := h.state; rfl
theorem draws (h : s.Wrote t) : t.draws = s.draws := by obtain ⟨_, _, _, _, _, rfl⟩ := h.state; rfl
theorem cores (h : s.Wrote t) : t.cores = s.cores := by obtain ⟨_, _, _, _, _, rfl⟩ := h.state; rfl
theorem stlb (h : s.Wrote t) : t.stlb = s.stlb := by obtain ⟨_, _, _, _, _, rfl⟩ := h.state; rfl
theorem placed (h : s.Wrote t) : t.placed = s.placed := by obtain ⟨_, _, _, _, _, rfl⟩ := h.state; rfl
theorem descs (h : s.Wrote t) : t.descs = s.descs := by obtain ⟨_, _, _, _, _, rfl⟩ := h.state; rfl
theorem hrcfg (h : s.Wrote t) : t.hrcfg = s.hrcfg := by obtain ⟨_, _, _, _, _, rfl⟩ := h.state; rfl
theorem fills (h : s.Wrote t) : t.fills = s.fills := by obtain ⟨_, _, _, _, _, rfl⟩ := h.state; rfl
theorem frames (h : s.Wrote t) : t.frames = s.frames := by obtain ⟨_, _, _, _, _, rfl⟩ := h.state; rfl
theorem core (h : s.Wrote t) (c : Nat) : t.core c = s.core c := by rw [State.core, State.core, h.cores]

theorem paKind (h : s.Wrote t) (pa : Nat) : t.paKind pa = s.paKind pa := by
  obtain ⟨_, _, _, _, _, rfl⟩ := h.state; rfl

theorem qent (h : s.Wrote t) (q : Nat) : t.qent q = s.qent q := by
  obtain ⟨_, hd⟩ := h.die (q / 256)
  rw [State.qent, State.qent, hd]

theorem ctxDesc (h : s.Wrote t) (ctx : Nat) : t.ctxDesc ctx = s.ctxDesc ctx := by
  obtain ⟨_, h0⟩ := h.die 0
  obtain ⟨_, h1⟩ := h.die 1
  unfold State.ctxDesc
  simp only [h.descs, h0, h1]

end State.Wrote

theorem observeDie_wrote (s : State) (d lo n : Nat) : s.Wrote (s.observeDie d lo n) := by
  unfold State.observeDie
  split
  · refine ⟨⟨s.mem, s.bad, s.blog, _, s.arrays, rfl⟩, fun d' => ?_, fun d' i => ?_⟩
    · rw [State.die_modDie]
      split
      · next h => rw [h]; exact ⟨_, rfl⟩
      · exact ⟨(s.die d').fronts, rfl⟩
    · rw [State.die_modDie]
      split
      · next h =>
        refine ⟨fun f => (f.observe lo n (s.homeNat f.wpa 8)).widx, ?_⟩
        rw [h]
        refine (mfind_map_snd (s.die d).fronts (fun f => f.observe lo n (s.homeNat f.wpa 8)) i).trans ?_
        refine congrArg (fun g => Option.map g _) (funext fun f => ?_)
        by_cases hm : lo < f.wpa + 8 ∧ f.wpa < lo + n
        · simp only [Front.observe, if_pos hm]
        · simp only [Front.observe, if_neg hm]
      · exact (State.Wrote.refl s).front d' i
  · exact State.Wrote.refl s

theorem observeArrays_wrote (s : State) (lo n : Nat) : s.Wrote (s.observeArrays lo n) := by
  unfold State.observeArrays
  split
  · exact ⟨⟨s.mem, s.bad, s.blog, s.dies, _, rfl⟩, (State.Wrote.refl s).die, (State.Wrote.refl s).front⟩
  · exact State.Wrote.refl s

theorem observe_wrote (s : State) (lo n : Nat) : s.Wrote (s.observe lo n) :=
  ((observeDie_wrote s 0 lo n).trans (observeDie_wrote _ 1 lo n)).trans (observeArrays_wrote _ lo n)

theorem homeWrite_wrote (s : State) (pa : Nat) (bs : List Byte) : s.Wrote (s.homeWrite pa bs) := by
  unfold State.homeWrite
  refine State.Wrote.trans ?_ (observe_wrote _ pa bs.length)
  exact ⟨⟨_, _, _, s.dies, s.arrays, rfl⟩, (State.Wrote.refl s).die, (State.Wrote.refl s).front⟩

/-- What an atomic of an agent leaves that ends with a value. -/
theorem gatomic_wrote {s t : State} {g : Agent} {aop old : Nat} {va v : Word} (h : s.gatomic g aop va v = .ok old t) : ∃ u, s.Walks u ∧ u.Wrote t := by
  obtain ⟨ps, u, hr, hp⟩ := andThen_ok.mp h
  refine ⟨u, reach_walks hr, ?_⟩
  dsimp only at hp
  split at hp
  · split at hp
    · split at hp <;> cases hp
      exact State.Wrote.refl _
    · split at hp
      · cases hp
      · split at hp <;> cases hp
  · cases hp
    split
    · exact homeWrite_wrote u _ _
    · exact State.Wrote.refl _

/-! ### Front ends -/

/-- A fresh front end is as it stands in its die. -/
theorem front_of_fresh {s : State} {q : Nat} {f : Front} (h : mfind (s.die (q / 256)).fronts (q % 256) = some f) (hf : f.fresh = true) :
    s.front q = some f := by
  rw [State.front, h, Option.map_some, if_pos hf]

theorem retranslated_eq (s : State) (q : Nat) (f : Front) : ∃ pa, s.retranslated q f = { f with wpa := pa } := by
  unfold State.retranslated
  dsimp only
  split
  · split
    · exact ⟨_, rfl⟩
    · exact ⟨f.wpa, rfl⟩
  · exact ⟨f.wpa, rfl⟩

/-- A front end is one of its die, where it may have found the page of its descriptor again. -/
theorem front_eq_some {s : State} {q : Nat} {f : Front} (h : s.front q = some f) :
    ∃ g pa, mfind (s.die (q / 256)).fronts (q % 256) = some g ∧ f = { g with wpa := pa } ∧ (g.fresh = true → f = g) := by
  rw [State.front, Option.map_eq_some_iff] at h
  obtain ⟨g, hg, rfl⟩ := h
  refine ⟨g, ?_⟩
  by_cases hf : g.fresh = true
  · exact ⟨g.wpa, hg, if_pos hf, fun _ => if_pos hf⟩
  · obtain ⟨pa, hpa⟩ := retranslated_eq s q g
    exact ⟨pa, hg, (if_neg hf).trans hpa, fun h => absurd h hf⟩

/-- Where a front end finds the page of its descriptor depends on the queue table and on what its translator reads alone. -/
theorem front_congr {s t : State} {q : Nat} (hdie : (t.die (q / 256)).fronts = (s.die (q / 256)).fronts)
    (h : ∀ f : Front, t.retranslated q f = s.retranslated q f) : t.front q = s.front q := by
  rw [State.front, State.front, hdie]
  exact congrArg (fun g => Option.map g _) (funext fun f => by rw [h])

end Sys2Proof.Machine
end

