-- ==== Sys2Proof/Proofs/QueueMoves.lean ====
section
/-! PROOFS. Queues: the queue port claims and writes a slot, a front end takes the packet at its place or stops, entries are attached and detached, tails
are written, stopped queues restart (R264 to R266, R269, R273, R380, R381, R446). -/
namespace Sys2Proof.Machine

/-! ### Requests of an agent -/

theorem no_request {s : State} {n : Nat} (h : ∀ r ∈ s.dom.reqs, r.core ≠ n) : s.dom.reqs.any (fun r => decide (r.core = n) && !r.skip) = false := by
  simp only [List.any_eq_false, Bool.and_eq_true, decide_eq_true_eq, not_and]
  exact fun r hr hn => absurd hn (h r hr)

theorem writesOut_eq_false {s : State} {agent : Nat} (h : ∀ r ∈ s.dom.reqs, r.core ≠ 128 + agent) : s.writesOut agent = false := by
  simp only [State.writesOut, List.any_eq_false, Bool.and_eq_true, decide_eq_true_eq, not_and]
  exact fun r hr ⟨hn, _⟩ => absurd hn (h r hr)

theorem resume_go {α : Type} {w : FWait} (h : w = .go) (s : State) (k : EngR α) : w.resume s k = some k := by
  rw [h]; rfl

/-! ### The bytes of a slot -/

theorem length_drop_take_leBytes (n : Nat) : ((leBytes 64 n).drop 8).length = 56 ∧ ((leBytes 64 n).take 8).length = 8 := by
  rw [List.length_drop, List.length_take, length_leBytes]
  exact ⟨rfl, rfl⟩

/-- A slot is written (R446): its bytes behind the first eight, and then these. -/
def State.slotWrite (s : State) (pa : Nat) (bs : List Byte) : State := (s.homeWrite (pa + 8) (bs.drop 8)).homeWrite pa (bs.take 8)

theorem slotWrite_wrote (s : State) (pa : Nat) (bs : List Byte) : s.Wrote (s.slotWrite pa bs) :=
  (homeWrite_wrote s _ _).trans (homeWrite_wrote _ _ _)

/-- All of a slot stands there once it is written. -/
theorem homeByte_slotWrite (s : State) (pa n a : Nat) : (s.slotWrite pa (leBytes 64 n)).homeByte a =
    if pa ≤ a ∧ a < pa + 64 then (leBytes 64 n).getD (a - pa) 0 else s.homeByte a := by
  obtain ⟨hdrop, htake⟩ := length_drop_take_leBytes n
  rw [State.slotWrite, State.homeByte_homeWrite, State.homeByte_homeWrite, hdrop, htake]
  by_cases hlow : pa ≤ a ∧ a < pa + 8
  · rw [if_pos hlow, if_pos ⟨hlow.1, by omega⟩, List.getD_eq_getElem?_getD, List.getD_eq_getElem?_getD, List.getElem?_take_of_lt (by omega)]
  · rw [if_neg hlow]
    by_cases hhigh : pa + 8 ≤ a ∧ a < pa + 8 + 56
    · rw [if_pos hhigh, if_pos ⟨by omega, by omega⟩, List.getD_eq_getElem?_getD, List.getD_eq_getElem?_getD, List.getElem?_drop]
      congr 2
      omega
    · rw [if_neg hhigh, if_neg (by omega)]

theorem writeParts_slot {s : State} (agent ctx scope n : Nat) {pa : Nat} (hhome : s.paKind pa = .home) (hhome8 : s.paKind (pa + 8) = .home) :
    (s.writeParts agent ctx scope [(pa + 8, 56)] ((leBytes 64 n).drop 8)).writeParts agent ctx scope [(pa, 8)] ((leBytes 64 n).take 8) =
      s.slotWrite pa (leBytes 64 n) := by
  obtain ⟨hdrop, htake⟩ := length_drop_take_leBytes n
  simp only [State.writeParts, hhome8, List.take_of_length_le (Nat.le_of_eq hdrop), (homeWrite_wrote _ _ _).paKind, hhome,
    List.take_of_length_le (Nat.le_of_eq htake), State.slotWrite]

theorem homeBytes_of_homeByte {s : State} {pa : Nat} {bs : List Byte} (h : ∀ a, pa ≤ a → a < pa + bs.length → s.homeByte a = bs.getD (a - pa) 0) :
    s.homeBytes pa bs.length = bs := by
  refine List.ext_getElem (by rw [State.homeBytes, List.length_map, length_upTo]) (fun i hi hi' => ?_)
  simp only [State.homeBytes, List.getElem_map, getElem_upTo]
  rw [h _ (by omega) (by omega), Nat.add_sub_cancel_left, List.getD_eq_getElem _ _ hi']

/-! ### The queue port -/

section QueuePort

variable {s : State} {c : Nat} {k : QPkt} {r : List QPkt}

theorem exec_portWrite (hc : c < 128) (hport : (s.core c).units.port = k :: r) (hrels : (s.core c).ms.rels = []) (hat : k.at_ ≤ s.cyc)
    (hsent : k.sent = false) (hwait : k.wait = .go) (hreqs : ∀ x ∈ s.dom.reqs, x.core ≠ 128 + (2048 + c)) {t t' : State}
    (hwork : (s.portTlb c).portWork c k = .ok t t') : exec (.queuePortWrite c) s = .next (t.portTlbBack c) := by
  rw [show exec (.queuePortWrite c) s = execQueuePortWrite c s from rfl, execQueuePortWrite, coreEvent_next]
  refine ⟨hc, ?_⟩
  have hgo : ¬(s.cyc < k.at_ ∨ (s.core c).ms.rels ≠ [] ∨ s.dom.reqs.any (fun r => decide (r.core = 128 + (2048 + c)) && !r.skip) = true) := by
    rw [no_request hreqs, hrels]
    simp only [Nat.not_lt.mpr hat, ne_eq, not_true_eq_false, Bool.false_eq_true, or_self, not_false_eq_true]
  rw [State.portStep, hport]
  dsimp only
  rw [if_neg hgo, hsent, if_neg Bool.false_ne_true, resume_go hwait, hwork]

theorem units_portTlbBack (t : State) : ((t.portTlbBack c).core c).units = (t.core c).units := by
  simp only [State.portTlbBack, State.core, State.modMs, State.modCore, State.setCore, mget_mset_same]

theorem port_setPortHead {t : State} {k' x : QPkt} (h : (t.core c).units.port = x :: r) : ((t.setPortHead c k').core c).units.port = k' :: r := by
  rw [State.setPortHead, State.core_modUnits, if_pos rfl]
  dsimp only
  rw [h]

theorem port_popPort {t : State} {x : QPkt} (h : (t.core c).units.port = x :: r) : ((t.popPort c).core c).units.port = r := by
  simp only [State.popPort, State.forget, State.core, State.modUnits, State.modCore, State.setCore, mget_mset_same]
  exact congrArg (List.drop 1) h

theorem queuePortActs (hc : c < 128) (hport : (s.core c).units.port = k :: r) (hrels : (s.core c).ms.rels = []) (hat : k.at_ ≤ s.cyc)
    (hsent : k.sent = false) (hwait : k.wait = .go) (hreqs : ∀ x ∈ s.dom.reqs, x.core ≠ 128 + (2048 + c)) :
    let g := s.portAgent c k
    (∀ i bs s0 s1, k.claim = none → (s.portTlb c).gread g k.desc 64 = .ok bs s0 → s0.gatomic g 0x54 (k.desc + 8) 1 = .ok i s1 →
      ∃ u, exec (.queuePortWrite c) s = .next u ∧ (u.core c).units.port = { k with claim := some i, at_ := s.cyc } :: r ∧ u.mem = s1.mem) ∧
    (∀ i bs s1, k.claim = some i → (s.portTlb c).gread g k.desc 64 = .ok bs s1 → descRidx bs + 2 ^ descLsize bs ≤ i →
      ∃ u, exec (.queuePortWrite c) s = .next u ∧ (u.core c).units.port = { k with at_ := s.cyc + 1 } :: r ∧ u.mem = s.mem) ∧
    (∀ i bs s1 pa s2, k.claim = some i → (s.portTlb c).gread g k.desc 64 = .ok bs s1 → i < descRidx bs + 2 ^ descLsize bs →
      s1.reach g 1 (slotVa (descBase bs) (descLsize bs) i) 64 = .ok [(pa, 64)] s2 → s2.paKind pa = .home → s2.paKind (pa + 8) = .home →
      ∃ u, exec (.queuePortWrite c) s = .next u ∧ (u.core c).units.port = r ∧
        u.homeBytes pa 64 = leBytes 64 (withLap k.pkt (lapOf i (descLsize bs))).toNat ∧
        (∀ a, a < pa ∨ pa + 64 ≤ a → u.homeByte a = s2.homeByte a) ∧
        { core := c, ctx := k.ctx, launch := k.launch, desc := k.desc, slot := i, kind := pKind k.pkt, failed := false } ∈ u.placed) := by
  intro g
  have hexec := fun {t t' : State} => exec_portWrite (t := t) (t' := t') hc hport hrels hat hsent hwait hreqs
  have hstart : ∀ t, (s.portTlb c).Walks t → (t.core c).units.port = k :: r := fun t h => by rw [h.core]; exact hport
  have hg : (s.portTlb c).portAgent c k = g := rfl
  refine ⟨fun i bs s0 s1 hclaim hread hatomic => ?_, fun i bs s1 hclaim hread hfull => ?_, fun i bs s1 pa s2 hclaim hread hfree hreach hhome hhome8 => ?_⟩
  · have hwork : (s.portTlb c).portWork c k = .ok ((s1.forget g.id).setPortHead c { k with claim := some i, at_ := s.cyc, wait := .go }) s1 := by
      rw [State.portWork, hg, hclaim]
      dsimp only
      rw [hread, EngR.andThen, hatomic]
      rfl
    obtain ⟨u, hu, hwrote⟩ := gatomic_wrote hatomic
    have hs1 : (s1.core c).units.port = k :: r := by
      rw [hwrote.core]
      exact hstart u ((gread_walks hread).trans hu)
    refine ⟨_, hexec hwork, ?_, rfl⟩
    rw [units_portTlbBack, port_setPortHead (t := s1.forget g.id) hs1, hwait]
  · have hwork : (s.portTlb c).portWork c k = .ok ((s1.forget g.id).setPortHead c { k with at_ := s.cyc + 1, wait := .go }) s1 := by
      rw [State.portWork, hg, hclaim]
      dsimp only
      rw [hread, EngR.andThen, if_pos hfull]
      rfl
    have hwalks := gread_walks hread
    refine ⟨_, hexec hwork, ?_, hwalks.mem⟩
    rw [units_portTlbBack, port_setPortHead (t := s1.forget g.id) (hstart s1 hwalks), hwait]
  · have hwalks := (gread_walks hread).trans (reach_walks hreach)
    have hwrote := slotWrite_wrote s2 pa (leBytes 64 (withLap k.pkt (lapOf i (descLsize bs))).toNat)
    have hslot := homeByte_slotWrite s2 pa (withLap k.pkt (lapOf i (descLsize bs))).toNat
    have hwork : (s.portTlb c).portWork c k =
        .ok (((s2.slotWrite pa (leBytes 64 (withLap k.pkt (lapOf i (descLsize bs))).toNat)).forget g.id).placed1 c k i) s2 := by
      rw [State.portWork, hg, hclaim]
      dsimp only
      rw [hread, EngR.andThen, if_neg (Nat.not_le.mpr hfree), hreach]
      have hacked : ((s2.slotWrite pa (leBytes 64 (withLap k.pkt (lapOf i (descLsize bs))).toNat)).forget g.id).writesOut g.id = false := by
        refine writesOut_eq_false (fun x hx => hreqs x ?_)
        rwa [State.forget, hwrote.dom, hwalks.dom] at hx
      simp only [EngR.andThen, List.map, List.headD, writeParts_slot _ _ _ _ hhome hhome8, hacked, Bool.false_eq_true, if_false]
    generalize s2.slotWrite pa (leBytes 64 (withLap k.pkt (lapOf i (descLsize bs))).toNat) = s3 at hwrote hslot hwork
    have hplaced : ∀ a, (((s3.forget g.id).placed1 c k i).portTlbBack c).homeByte a = s3.homeByte a := fun a => rfl
    refine ⟨_, hexec hwork, ?_, ?_, fun a ha => ?_, List.mem_append_right _ (List.mem_singleton_self _)⟩
    · rw [units_portTlbBack]
      refine port_popPort (t := s3.forget g.id) (x := k) ?_
      exact (congrArg (fun co : Core => co.units.port) (hwrote.core c)).trans (hstart s2 hwalks)
    · have hbytes := homeBytes_of_homeByte (s := (((s3.forget g.id).placed1 c k i).portTlbBack c)) (pa := pa)
        (bs := leBytes 64 (withLap k.pkt (lapOf i (descLsize bs))).toNat) (fun a ha ha' => ?_)
      · rwa [length_leBytes] at hbytes
      · rw [length_leBytes] at ha'
        rw [hplaced, hslot, if_pos ⟨ha, ha'⟩]
    · rw [hplaced, hslot, if_neg (by omega)]

end QueuePort

/-! ### Stopping and restarting -/

theorem homeNat_one (s : State) (a : Nat) : s.homeNat a 1 = (s.homeByte a).toNat := by
  simp only [State.homeNat, State.homeBytes, upTo, List.map_cons, List.map_nil, leNat]
  omega

theorem homeByte_homeWrite_one (s : State) (a : Nat) (b : Byte) (x : Nat) : (s.homeWrite a [b]).homeByte x = if x = a then b else s.homeByte x := by
  rw [State.homeByte_homeWrite]
  by_cases h : x = a
  · rw [if_pos h, if_pos ⟨by omega, by simp only [List.length_singleton]; omega⟩, h, Nat.sub_self]
    rfl
  · rw [if_neg h, if_neg (by simp only [List.length_singleton]; omega)]

theorem stopQueue_eq {s : State} {q : Nat} {f : Front} (h : s.front q = some f) (i cause : Nat) (st : Half) (addr : Word) :
    ∃ ws, s.stopQueue q i cause st addr = { (s.homeWrite (f.desc + 32) [BitVec.ofNat 8 (s.homeNat (f.desc + 32) 1 / 4 * 4 + 1)]).homeWrite (f.desc + 35)
      (leBytes 13 (cause + st.toNat * 2 ^ 8 + addr.toNat * 2 ^ 40)) with works := ws } := by
  unfold State.stopQueue
  rw [h]
  exact ⟨_, rfl⟩

theorem homeByte_withWorks (s : State) (ws : Map Work) (a : Nat) : State.homeByte { s with works := ws } a = s.homeByte a := rfl

/-- A stopped queue is in state 1 and holds the cause (R269). -/
theorem homeNat_stopQueue {s : State} {q : Nat} {f : Front} (h : s.front q = some f) (i cause : Nat) (st : Half) (addr : Word) :
    (s.stopQueue q i cause st addr).homeNat (f.desc + 32) 1 % 4 = 1 ∧ (s.stopQueue q i cause st addr).homeNat (f.desc + 35) 1 = cause % 256 := by
  obtain ⟨ws, hstop⟩ := stopQueue_eq h i cause st addr
  have hlt := homeNat_lt s (f.desc + 32) 1
  constructor
  · rw [homeNat_one, hstop, homeByte_withWorks, State.homeByte_homeWrite, if_neg (by omega), homeByte_homeWrite_one, if_pos rfl, BitVec.toNat_ofNat]
    omega
  · rw [homeNat_one, hstop, homeByte_withWorks, State.homeByte_homeWrite, if_pos ⟨Nat.le_refl _, by rw [length_leBytes]; omega⟩, Nat.sub_self, leBytes, List.getD_cons_zero,
      BitVec.toNat_ofNat]
    omega

theorem queueRestarts {s : State} {q : Nat} {f : Front} (hq : q < 512) (hfront : s.front q = some f) (hstopped : s.queueState f = 1) :
    ∃ u, exec (.queueRestart q) s = .next u ∧ u.queueState f = 0 ∧ ∀ a, a ≠ f.desc + 32 → u.homeByte a = s.homeByte a := by
  refine ⟨s.homeWrite (f.desc + 32) [BitVec.ofNat 8 (s.homeNat (f.desc + 32) 1 / 4 * 4)], ?_, ?_, fun a ha => ?_⟩
  · rw [show exec (.queueRestart q) s = execQueueRestart q s from rfl, execQueueRestart, if_neg (Nat.not_le.mpr hq), event_next, hfront]
    exact if_pos hstopped
  · have hlt := homeNat_lt s (f.desc + 32) 1
    rw [State.queueState, homeNat_one, homeByte_homeWrite_one, if_pos rfl, BitVec.toNat_ofNat]
    omega
  · rw [homeByte_homeWrite_one, if_neg ha]

/-! ### Front ends -/

theorem die_setFront (s : State) (q : Nat) (f : Front) (d : Nat) :
    (s.setFront q f).die d = if d = q / 256 then { s.die (q / 256) with fronts := mset (s.die (q / 256)).fronts (q % 256) f } else s.die d :=
  State.die_modDie ..

theorem front_setFront {s : State} {q : Nat} {f : Front} (h : f.fresh = true) : (s.setFront q f).front q = some f := by
  refine front_of_fresh ?_ h
  rw [die_setFront, if_pos rfl, mfind_mset, if_pos rfl]

theorem qent_setFront (s : State) (q : Nat) (f : Front) (q2 : Nat) : (s.setFront q f).qent q2 = s.qent q2 := by
  rw [State.qent, State.qent, die_setFront]
  split
  · next h => rw [h]
  · rfl

section FrontEnds

variable {s t : State} {q : Nat} {f : Front} {bs : List Byte}

/-- The front end of a queue may read the slot at its place (R264, R266, R273, R377). -/
def State.frontOpen (s : State) (q : Nat) (f : Front) : Prop :=
  (s.qent q).v = true ∧ s.running (s.qent q).ctx = true ∧ (f.engine = 6 → s.jrnl.jctl.getLsbD 0 = true) ∧ s.queueState f = 0 ∧ s.nextSlot q f < f.widx ∧
    f.at_ ≤ s.cyc ∧ f.wait = .go ∧ f.fresh = true ∧ (f.engine = 0 → (s.freeChan (q / 256)).isSome = true) ∧
    mget 0 (s.die (q / 256)).takeAt f.engine ≤ s.cyc ∧ (∀ q2 ∈ s.aheadOf q f, s.frontTry q2 = none) ∧
    (∀ x ∈ s.dom.reqs, x.core ≠ 128 + (f.agent q (s.qent q).ctx .go false 0).id) ∧ ∀ p ∈ s.works, p.2.q ≠ q

/-- What a front end does with the packet it has read (R266, R267). -/
def State.frontActs (s t1 : State) (q i : Nat) (f : Front) (p : BitVec 512) : Option State :=
  if pf p 32 32 = (lapOf i f.lsize + 2 ^ 32 - 1) % 2 ^ 32 then
    (if t1.dom = s.dom then none else some (t1.setFront q { f with at_ := s.cyc + 64, wait := .go }))
  else if pf p 32 32 ≠ lapOf i f.lsize then some ((t1.setFront q { f with wait := .go }).stopQueue q i 0x63 0 0)
  else if t1.orderAllows q (pCard p) = false ∨ (2 ≤ f.engine ∧ pCard p = true ∧ t1.packetFrozen q i = true) then
    (if t1.dom = s.dom then none else some (t1.setFront q { f with at_ := s.cyc + 64, wait := .go }))
  else
    some (((t1.setFront q { f with wait := .go, at_ := s.cyc + 1 }).takePacket q i f p).modDie (q / 256) (fun d =>
      { d with lastTake := mset d.lastTake f.engine (q % 256), takeAt := if 2 ≤ f.engine then mset d.takeAt f.engine (s.cyc + 64) else d.takeAt }))

theorem orderAllows_of_noWork (h : ∀ p ∈ s.works, p.2.q ≠ q) (card : Bool) : s.orderAllows q card = true := by
  simp only [State.orderAllows, List.all_eq_true, Bool.or_eq_true, decide_eq_true_eq]
  exact fun p hp => Or.inl (h p hp)

theorem frontTry_open (hfront : s.front q = some f) (hopen : s.frontOpen q f)
    (hread : s.gread (f.agent q (s.qent q).ctx .go false 0) (slotVa f.base.toNat f.lsize (s.nextSlot q f)) 64 = .ok bs t) :
    s.frontTry q = s.frontActs (t.forget (f.agent q (s.qent q).ctx .go false 0).id) q (s.nextSlot q f) f (BitVec.ofNat 512 (leNat bs)) := by
  obtain ⟨hv, hrun, hjrnl, hstate, hplace, hat, hwait, hfresh, hchan, -, -, hreqs, hworks⟩ := hopen
  have hgo : ¬((s.qent q).v = false ∨ s.running (s.qent q).ctx = false ∨ (f.engine = 6 ∧ s.jrnl.jctl.getLsbD 0 = false) ∨ s.cyc < f.at_) := by
    rintro (h | h | ⟨h, hj⟩ | h)
    · exact Bool.false_ne_true (h.symm.trans hv)
    · exact Bool.false_ne_true (h.symm.trans hrun)
    · exact Bool.false_ne_true (hj.symm.trans (hjrnl h))
    · omega
  have hfailed : s.works.any (fun w => decide (w.2.q = q) && decide (w.2.stage = .committed) && decide (w.2.cause ≠ 0)) = false := by
    simp only [List.any_eq_false, Bool.and_eq_true, decide_eq_true_eq]
    exact fun w hw hq => hworks w hw hq.1.1
  have hgo2 : ¬(s.queueState f ≠ 0 ∨ f.widx ≤ s.nextSlot q f ∨
      s.dom.reqs.any (fun r => decide (r.core = 128 + (f.agent q (s.qent q).ctx .go false 0).id) && !r.skip) = true ∨ s.orderAllows q true = false ∨
      (f.engine = 0 ∧ (s.freeChan (q / 256)).isNone = true) ∨
      s.works.any (fun w => decide (w.2.q = q) && decide (w.2.stage = .committed) && decide (w.2.cause ≠ 0)) = true) := by
    rw [no_request hreqs, orderAllows_of_noWork hworks, hfailed]
    rintro (h | h | h | h | ⟨h, hn⟩ | h)
    · exact h hstate
    · omega
    · exact Bool.false_ne_true h
    · exact Bool.false_ne_true h.symm
    · have := hchan h
      rw [Option.isNone_iff_eq_none] at hn
      rw [hn] at this
      exact Bool.false_ne_true this
    · exact Bool.false_ne_true h
  rw [State.frontTry, hfront]
  dsimp only
  rw [if_neg hgo, if_neg (fun h => Bool.false_ne_true (h.symm.trans hfresh)), hwait, if_neg hgo2, resume_go rfl, hread]
  rfl

theorem exec_frontTake (hq : q < 512) (hfront : s.front q = some f) (hopen : s.frontOpen q f) {u : State} (htry : s.frontTry q = some u) :
    exec (.frontEndTake q) s = .next u := by
  obtain ⟨-, -, -, -, -, -, -, -, -, htake, hahead, -, -⟩ := hopen
  rw [show exec (.frontEndTake q) s = execFrontEndTake q s from rfl, execFrontEndTake, if_neg (Nat.not_le.mpr hq), event_next, State.frontStep, hfront]
  dsimp only
  rw [if_neg (Nat.not_lt.mpr htake), htry]
  refine if_pos ?_
  rw [List.all_eq_true]
  exact fun q2 h2 => Option.isNone_iff_eq_none.mpr (hahead q2 h2)

/-- A well-formed packet that is no job card is taken as it was read. -/
theorem takePacket_wellFormed (s : State) (q i : Nat) {f : Front} {p : BitVec 512} (hform : malformed p f.engine f.unit = false) (hcard : pCard p = false) :
    ∃ x, s.takePacket q i f p = { (s.later 1).2 with works := mset s.works s.serial x, serial := s.serial + 1 } ∧
      x = { newWork q i (s.qent q).ctx p 0 x.at_ with chan := x.chan } ∧ s.cyc + 1 ≤ x.at_ := by
  have hcard' : isCard p = false := by rw [isCard, hcard]; rfl
  refine ⟨{ newWork q i (s.qent q).ctx p 0 (s.later 1).1 with chan := if pKind p = 2 then (s.freeChan (q / 256)).getD 0 else 0 }, ?_, rfl, ?_⟩
  · unfold State.takePacket
    simp only [hform, hcard', Bool.false_and, Bool.false_eq_true, if_false]
    rfl
  · exact Nat.le_add_right _ _

theorem frontEndTakes (hq : q < 512) (hfront : s.front q = some f) (hopen : s.frontOpen q f)
    (hread : s.gread (f.agent q (s.qent q).ctx .go false 0) (slotVa f.base.toNat f.lsize (s.nextSlot q f)) 64 = .ok bs t) :
    let p := BitVec.ofNat 512 (leNat bs)
    let i := s.nextSlot q f
    (pf p 32 32 = lapOf i f.lsize → malformed p f.engine f.unit = false → pCard p = false →
      ∃ u x, exec (.frontEndTake q) s = .next u ∧ mfind u.works t.serial = some x ∧ x = { newWork q i (s.qent q).ctx p 0 x.at_ with chan := x.chan } ∧
        s.cyc + 1 ≤ x.at_ ∧ u.mem = t.mem ∧ ∃ h, u.front q = some h ∧ h.at_ = s.cyc + 1 ∧ h.ridx = f.ridx) ∧
    (pf p 32 32 ≠ lapOf i f.lsize → pf p 32 32 ≠ (lapOf i f.lsize + 2 ^ 32 - 1) % 2 ^ 32 →
      ∃ u, exec (.frontEndTake q) s = .next u ∧ u.homeNat (f.desc + 32) 1 % 4 = 1 ∧ u.homeNat (f.desc + 35) 1 = 0x63) := by
  intro p i
  have htry := frontTry_open hfront hopen hread
  have hwalks := gread_walks hread
  have hlap : lapOf i f.lsize < 2 ^ 32 := Nat.mod_lt _ (Nat.two_pow_pos 32)
  have hopen' := hopen
  obtain ⟨-, -, -, -, -, -, -, hfresh, -, -, -, -, hworks⟩ := hopen'
  constructor
  · intro hp hform hcard
    have horder : (t.forget (f.agent q (s.qent q).ctx .go false 0).id).orderAllows q (pCard p) = true :=
      orderAllows_of_noWork (fun x hx => hworks x (by rwa [← hwalks.works])) _
    have hgo : ¬((t.forget (f.agent q (s.qent q).ctx .go false 0).id).orderAllows q (pCard p) = false ∨
        (2 ≤ f.engine ∧ pCard p = true ∧ (t.forget (f.agent q (s.qent q).ctx .go false 0).id).packetFrozen q i = true)) := by
      rw [horder, hcard]
      simp
    have hnext : pf p 32 32 ≠ (lapOf i f.lsize + 2 ^ 32 - 1) % 2 ^ 32 := by omega
    have htaken := htry.trans ((if_neg hnext).trans ((if_neg (not_not_intro hp)).trans (if_neg hgo)))
    obtain ⟨x, htake, hx, hat⟩ := takePacket_wellFormed
      ((t.forget (f.agent q (s.qent q).ctx .go false 0).id).setFront q { f with wait := .go, at_ := s.cyc + 1 }) q i hform hcard
    rw [htake] at htaken
    rw [qent_setFront, show State.qent (State.forget _ _) _ = _ from hwalks.qent q] at hx
    refine ⟨_, x, exec_frontTake hq hfront hopen htaken, (mfind_mset ..).trans (if_pos rfl), hx, hwalks.cyc ▸ hat, rfl,
      { f with wait := .go, at_ := s.cyc + 1 }, front_of_fresh ?_ hfresh, rfl, rfl⟩
    rw [State.die_modDie, if_pos rfl]
    exact (congrArg (fun d : Die => mfind d.fronts (q % 256)) ((die_setFront ..).trans (if_pos rfl))).trans ((mfind_mset ..).trans (if_pos rfl))
  · intro hne hne'
    have hstopped := htry.trans ((if_neg hne').trans (if_pos hne))
    obtain ⟨hstate, hcause⟩ := homeNat_stopQueue
      (s := ((t.forget (f.agent q (s.qent q).ctx .go false 0).id).setFront q { f with wait := .go })) (f := { f with wait := .go })
      (front_setFront hfresh) i 0x63 0 0
    exact ⟨_, exec_frontTake hq hfront hopen hstopped, hstate, hcause⟩

end FrontEnds

/-! ### Entries and tails -/

theorem qent_setQent (s : State) (q : Nat) (e : QEnt) : (s.setQent q e).qent q = e := by
  rw [State.qent, State.setQent, State.die_modDie, if_pos rfl]
  exact mget_mset_same ..

theorem fronts_setQent (s : State) (q : Nat) (e : QEnt) (d : Nat) : ((s.setQent q e).die d).fronts = (s.die d).fronts := by
  rw [State.setQent, State.die_modDie]
  split
  · next h => rw [h]
  · rfl

theorem front_eq_none {s : State} {q : Nat} (h : mfind (s.die (q / 256)).fronts (q % 256) = none) : s.front q = none := by
  rw [State.front, h]; rfl

/-- The queue with its entry written and its front end taken away (R380). -/
def State.detached (s : State) (q : Nat) (desc : Word) : State :=
  (s.setQent q { s.qent q with v := false, desc := desc }).modDie (q / 256) (fun d => { d with fronts := mdel d.fronts (q % 256) })

theorem qent_detached (s : State) (q : Nat) (desc : Word) : (s.detached q desc).qent q = { s.qent q with v := false, desc := desc } := by
  rw [State.qent, State.detached, State.die_modDie, if_pos rfl]
  exact qent_setQent s q _

theorem fronts_detached (s : State) (q : Nat) (desc : Word) : mfind ((s.detached q desc).die (q / 256)).fronts (q % 256) = none := by
  rw [State.detached, State.die_modDie, if_pos rfl]
  exact mfind_mdel_same _ _

theorem attach_off {s : State} {q : Nat} {v : Word} (h : v.getLsbD 0 = false) : s.attach q v = s.detached q (v &&& ~~~63#64) := by
  unfold State.attach
  dsimp only
  rw [h, if_neg Bool.false_ne_true]
  rfl

theorem attach_none {s : State} {q : Nat} {v : Word} (h : v.getLsbD 0 = true)
    (hf : s.attachFront (q / 256) (s.qent q).ctx (v &&& ~~~63#64) = none) : ∃ e, s.attach q v = (s.detached q (v &&& ~~~63#64)).logError (q / 256) e := by
  unfold State.attach
  dsimp only
  rw [h, if_pos rfl, hf]
  exact ⟨_, rfl⟩

theorem attach_some {s : State} {q : Nat} {v : Word} {f : Front} {t : TlbEnt} (h : v.getLsbD 0 = true)
    (hf : s.attachFront (q / 256) (s.qent q).ctx (v &&& ~~~63#64) = some (f, t)) :
    s.attach q v = (((s.detached q (v &&& ~~~63#64)).setQent q { s.qent q with v := true, desc := v &&& ~~~63#64, saved := false }).setFront q f).streamFill
      (f.tlb q false 0) t false := by
  unfold State.attach
  dsimp only
  rw [h, if_pos rfl, hf]
  rfl

/-- A front end that is attached has found its page afresh. -/
theorem fresh_attachFront {s : State} {die ctx : Nat} {desc : Word} {f : Front} {t : TlbEnt} (h : s.attachFront die ctx desc = some (f, t)) :
    f.fresh = true := by
  unfold State.attachFront at h
  split at h
  · cases h
  · dsimp only at h
    split at h
    · rw [Option.map_eq_some_iff] at h
      obtain ⟨f', hf', heq⟩ := h
      cases heq
      unfold frontOf at hf'
      dsimp only at hf'
      split at hf' <;> cases hf'
      rfl
    · cases h

theorem qent_logError (s : State) (d : Nat) (e : ErrEnt) (q : Nat) : (s.logError d e).qent q = s.qent q := by
  rw [State.qent, State.qent, State.logError, State.die_modDie]
  split
  · next h => rw [h]
  · rfl

theorem fronts_logError (s : State) (d : Nat) (e : ErrEnt) (d' : Nat) : ((s.logError d e).die d').fronts = (s.die d').fronts := by
  rw [State.logError, State.die_modDie]
  split
  · next h => rw [h]
  · rfl

theorem entryWrites {s : State} {d n : Nat} (v : Word) (hd : d < 2) (hn : n < 256) :
    let q := 256 * d + n
    let desc := v &&& ~~~63#64
    (s.managed = true → v.getLsbD 0 = false →
      ∃ u, exec (.queueTableAttach d n v) s = .next u ∧ (u.qent q).v = false ∧ (u.qent q).desc = desc ∧ u.front q = none) ∧
    (s.managed = false → exec (.queueTableAttach d n v) s = .next s) ∧
    (s.managed = true → v.getLsbD 0 = true → ∃ u, exec (.queueTableAttach d n v) s = .next u ∧
      (u.qent q).v = (s.attachFront d (s.qent q).ctx desc).isSome ∧ (u.qent q).desc = desc ∧
      u.front q = (s.attachFront d (s.qent q).ctx desc).map (fun x => x.1)) := by
  intro q desc
  have hexec : exec (.queueTableAttach d n v) s = .next (if s.managed then s.attach q v else s) :=
    show execQueueTableAttach d n v s = _ from if_neg (by omega)
  have hdie : q / 256 = d := by omega
  refine ⟨fun hm hv => ?_, fun hm => ?_, fun hm hv => ?_⟩
  · refine ⟨_, hexec.trans (by rw [hm, if_pos rfl, attach_off hv]), ?_, ?_, front_eq_none (fronts_detached s q desc)⟩
    · rw [qent_detached]
    · rw [qent_detached]
  · rw [hexec, hm, if_neg Bool.false_ne_true]
  · cases hf : s.attachFront d (s.qent q).ctx desc with
    | none =>
      obtain ⟨e, he⟩ := attach_none (s := s) (q := q) hv (by rw [hdie]; exact hf)
      refine ⟨_, hexec.trans (by rw [hm, if_pos rfl, he]), ?_, ?_, front_eq_none ?_⟩
      · rw [qent_logError, qent_detached]; rfl
      · rw [qent_logError, qent_detached]
      · rw [fronts_logError]
        exact fronts_detached s q desc
    | some ft =>
      obtain ⟨f, t⟩ := ft
      refine ⟨_, hexec.trans (by rw [hm, if_pos rfl, attach_some hv (by rw [hdie]; exact hf)]), ?_, ?_, ?_⟩
      · rw [(streamFill_walks _ _ _ _).qent, qent_setFront, qent_setQent]; rfl
      · rw [(streamFill_walks _ _ _ _).qent, qent_setFront, qent_setQent]
      · refine front_of_fresh ?_ (fresh_attachFront hf)
        rw [(streamFill_walks _ _ _ _).fronts, die_setFront, if_pos rfl, mfind_mset, if_pos rfl]

theorem tailWrites {s : State} {d n : Nat} {f : Front} (v : Word) (hd : d < 2) (hn : n < 256) (hfront : s.front (256 * d + n) = some f) :
    ∃ u, exec (.queueTailWrite d n v) s = .next u ∧
      u.homeNat f.wpa 8 = (if (BitVec.ofNat 64 (s.homeNat f.wpa 8)).toInt < v.toInt then v.toNat else s.homeNat f.wpa 8) ∧
      ∀ a, a < f.wpa ∨ f.wpa + 8 ≤ a → u.homeByte a = s.homeByte a := by
  have hexec : exec (.queueTailWrite d n v) s = .next (s.tailWrite (256 * d + n) v) := show execQueueTailWrite d n v s = _ from if_neg (by omega)
  refine ⟨_, hexec, ?_⟩
  rw [State.tailWrite, hfront]
  dsimp only
  split
  · refine ⟨homeNat_homeWrite s f.wpa 8 v.isLt, fun a ha => ?_⟩
    rw [State.homeByte_homeWrite, length_leBytes, if_neg (by omega)]
  · exact ⟨rfl, fun _ _ => rfl⟩

end Sys2Proof.Machine

namespace Sys2Proof.Proofs
open Sys2Proof.Machine

/-- Settles O9: the steps of the queue port and of the front ends, from what their accesses leave as it is. -/
theorem queuesMovePackets : Obligations.QueuesMovePackets := by
  unfold Obligations.QueuesMovePackets
  intro s c q d n k r f v
  refine ⟨fun hc hport hrels hat hsent hwait hreqs _ => queuePortActs hc hport hrels hat hsent hwait hreqs, fun hq hfront => ⟨?_, ?_⟩, fun hd hn => ?_⟩
  · exact fun bs t hopen hread => frontEndTakes hq hfront hopen hread
  · exact queueRestarts hq hfront
  · obtain ⟨hoff, hidle, hon⟩ := entryWrites (s := s) v hd hn
    exact ⟨hoff, hidle, hon, tailWrites v hd hn⟩

end Sys2Proof.Proofs
end

