-- ==== Sys2Proof/Proofs/PacketWork.lean ====
section
/-! PROOFS. The work of packets: how it ends, packets that need no engine, commit and completion (R262, R263, R268, R269, R275, R276, R284). -/
namespace Sys2Proof.Machine

/-! ### What performing writes leaves -/

section Performing

variable {α : Type} {φ : State → α}

/-- What a write at its home and a request to another module leave, the writes of an engine leave. -/
theorem writeParts_keeps (hhome : ∀ s pa bs, φ (State.homeWrite s pa bs) = φ s)
    (hsend : ∀ s target op aop u size scope ctx len rid pa val cv data core acc,
      φ (State.domainSend s target op aop u size scope ctx len rid pa val cv data core acc) = φ s)
    (agent ctx scope : Nat) (ps : List (Nat × Nat)) (s : State) (bs : List Byte) : φ (s.writeParts agent ctx scope ps bs) = φ s := by
  induction ps generalizing s bs with
  | nil => rfl
  | cons p r ih =>
    rw [State.writeParts, ih]
    split
    · exact hsend ..
    · exact hhome ..

theorem foldl_state_keeps {β : Type} (f : State → β → State) (h : ∀ s b, φ (f s b) = φ s) (l : List β) (s : State) : φ (l.foldl f s) = φ s := by
  induction l generalizing s with
  | nil => rfl
  | cons b r ih => rw [List.foldl_cons, ih, h]

theorem performWork_keeps (hhome : ∀ s pa bs, φ (State.homeWrite s pa bs) = φ s)
    (hsend : ∀ s target op aop u size scope ctx len rid pa val cv data core acc,
      φ (State.domainSend s target op aop u size scope ctx len rid pa val cv data core acc) = φ s)
    (hposts : ∀ s c ps, φ (State.posts s c ps) = φ s) (s : State) (x : Work) : φ (s.performWork x) = φ s := by
  have hout := foldl_state_keeps (fun s (p : Nat × List Byte) => s.writeParts (1024 + x.q) x.ctx (pf x.pkt 12 3) [(p.1, p.2.length)] p.2)
    (fun s p => writeParts_keeps hhome hsend _ _ _ _ s p.2) x.out s
  have hposted := foldl_state_keeps (fun s (p : Nat × Nat × List Byte) => s.posts p.1 (writePosts p.2.1 p.2.2)) (fun s p => hposts s _ _) x.posts
  unfold State.performWork
  dsimp only
  split
  · rw [foldl_state_keeps _ (fun s c => hposts s _ _), hposted, hout]
  · rw [hposted, hout]

end Performing

theorem domainSend_works (s : State) (target op aop u size scope ctx len rid pa : Nat) (val cv : Word) (data : List Byte) (core acc : Nat) :
    (s.domainSend target op aop u size scope ctx len rid pa val cv data core acc).works = s.works := by
  unfold State.domainSend State.send
  dsimp only [Msg.recipient]
  split <;> rfl

theorem domainSend_frames (s : State) (target op aop u size scope ctx len rid pa : Nat) (val cv : Word) (data : List Byte) (core acc : Nat) :
    (s.domainSend target op aop u size scope ctx len rid pa val cv data core acc).frames = s.frames := by
  unfold State.domainSend State.send
  dsimp only [Msg.recipient]
  split <;> rfl

theorem domainSend_cyc (s : State) (target op aop u size scope ctx len rid pa : Nat) (val cv : Word) (data : List Byte) (core acc : Nat) :
    (s.domainSend target op aop u size scope ctx len rid pa val cv data core acc).cyc = s.cyc := by
  unfold State.domainSend State.send
  dsimp only [Msg.recipient]
  split <;> rfl

theorem writeParts_cyc (s : State) (agent ctx scope : Nat) (ps : List (Nat × Nat)) (bs : List Byte) :
    (s.writeParts agent ctx scope ps bs).cyc = s.cyc :=
  writeParts_keeps (fun s pa bs => (homeWrite_wrote s pa bs).cyc) domainSend_cyc _ _ _ ps s bs

theorem performWork_works (s : State) (x : Work) : (s.performWork x).works = s.works :=
  performWork_keeps (fun s pa bs => (homeWrite_wrote s pa bs).works) domainSend_works (fun _ _ _ => rfl) s x

theorem performWork_frames (s : State) (x : Work) : (s.performWork x).frames = s.frames :=
  performWork_keeps (fun s pa bs => (homeWrite_wrote s pa bs).frames) domainSend_frames (fun _ _ _ => rfl) s x

theorem performWork_nothing (s : State) {x : Work} (hout : x.out = []) (hposts : x.posts = []) : s.performWork x = s := by
  unfold State.performWork
  rw [hout, hposts]
  dsimp only [List.foldl, List.map, nubBy]
  split <;> rfl

/-! ### How work ends -/

theorem workReady_of_working {s : State} {w : Nat} {x : Work} (h : s.Working w x) : s.workReady x = true := by
  obtain ⟨-, hstage, hat, -, -, hcard, hfrozen, -, hreqs⟩ := h
  have hturn : s.cardTurn x = true := by
    rw [State.cardTurn]
    cases hc : isCard x.pkt with
    | true => simp [hcard hc]
    | false => rfl
  rw [State.workReady, hstage, hturn, hfrozen, no_request hreqs]
  simpa using hat

/-- The packet as its work leaves it. -/
theorem find_workDone (s : State) (w : Nat) (x : Work) (e : Effect) : ∃ y, mfind (s.workDone w x e).works w = some y ∧
    y = { x with stage := (if isCard x.pkt then .performed else .committed), out := e.out, posts := e.posts, frames := e.frames, cause := e.cause,
                 errstat := y.errstat, erraddr := e.erraddr, wait := .go, at_ := y.at_ } ∧ s.cyc + 1 ≤ y.at_ := by
  unfold State.workDone
  dsimp only
  split
  · exact ⟨_, (mfind_mset ..).trans (if_pos rfl), rfl, Nat.le_add_right _ _⟩
  · exact ⟨_, (mfind_mset ..).trans (if_pos rfl), rfl, Nat.le_add_right _ _⟩

theorem workEnds_of_done {s t : State} {i : Instr} {w : Nat} {x x' : Work} {e : Effect} (hexec : exec i s = .next (t.workDone w x' e))
    (hcyc : t.cyc = s.cyc) (hpkt : x'.pkt = x.pkt) (hq : x'.q = x.q) (hidx : x'.idx = x.idx) : s.WorkEnds i w x e.cause e.out e.posts := by
  obtain ⟨y, hy, heq, hat⟩ := find_workDone t w x' e
  refine ⟨_, y, hexec, hy, ?_, ?_, ?_, ?_, ?_, ?_, ?_, by rwa [← hcyc]⟩ <;> rw [heq]
  · rw [hpkt]
  · exact hpkt
  · exact hq
  · exact hidx

/-! ### Packets without an engine -/

section NoEngine

variable {s : State} {w : Nat} {x : Work}

theorem doWork_working (h : s.Working w x) (kinds : Nat → Bool) (hkind : kinds (pKind x.pkt) = true) (f : Work → State → EngR Effect) :
    s.doWork w kinds f = match f x s with
      | .ok e t => some (t.workDone w x e)
      | .wait t => some t
      | .stand v t => some (t.setWork w { x with wait := v })
      | .fail cause run va t => some (t.workDone w x (failEffect x cause run va)) := by
  have hready := workReady_of_working h
  obtain ⟨hfind, -, -, -, hwait, -⟩ := h
  rw [State.doWork, hfind]
  dsimp only
  rw [hkind, hready, Bool.and_self, if_pos rfl, resume_go hwait]
  cases f x s <;> rfl

theorem nullPacket_ends (h : s.Working w x) (hkind : pKind x.pkt = 0) : s.WorkEnds (.nullPacket w) w x 0 [] [] := by
  refine workEnds_of_done (t := s) (x' := x) (e := Effect.none) ?_ rfl rfl rfl rfl
  rw [show exec (.nullPacket w) s = execNullPacket w s from rfl, execNullPacket, event_next, doWork_working h _ (by rw [hkind]; rfl)]

theorem signalPacket_ends (h : s.Working w x) (hkind : pKind x.pkt = 3) : s.WorkEnds (.signalPacket w) w x 0 [] [] := by
  refine workEnds_of_done (t := s) (x' := x) (e := Effect.none) ?_ rfl rfl rfl rfl
  rw [show exec (.signalPacket w) s = execSignalPacket w s from rfl, execSignalPacket, event_next, doWork_working h _ (by rw [hkind]; rfl)]

theorem exec_joinPacket (h : s.Working w x) (hkind : pKind x.pkt = 1) (u : State) : exec (.joinPacket w) s = .next u ↔
    (match joinWork w x s with
      | .ok (some e) t => some (t.workDone w x e)
      | .ok none t => some t
      | .wait t => some t
      | .stand v t => some (t.setWork w { x with wait := v })
      | .fail cause run va t => some (t.workDone w x (failEffect x cause run va))) = some u := by
  have hready := workReady_of_working h
  obtain ⟨hfind, -, -, -, hwait, -⟩ := h
  rw [show exec (.joinPacket w) s = execJoinPacket w s from rfl, execJoinPacket, event_next, hfind]
  dsimp only
  rw [if_pos ⟨hkind, hready⟩, resume_go hwait]
  rcases joinWork w x s with ⟨_ | _, _⟩ | _ | _ | _ <;> rfl

theorem joinPacketActs (h : s.Working w x) (hkind : pKind x.pkt = 1) :
    let g := s.workAgent x
    let va := pBody x.pkt 0
    (va.toNat % 8 ≠ 0 → s.WorkEnds (.joinPacket w) w x 0x40 [] []) ∧
    (∀ old t, va.toNat % 8 = 0 → x.joined = false → s.gatomic g 0x54 va 1 = .ok old t →
      ∃ u, exec (.joinPacket w) s = .next u ∧ mfind u.works w = some { x with joined := true } ∧ u.mem = t.mem) ∧
    (∀ bs t, va.toNat % 8 = 0 → x.joined = true → s.gread g va 8 = .ok bs t → (pBody x.pkt 1).toNat ≤ leNat bs →
      s.WorkEnds (.joinPacket w) w x 0 [] []) ∧
    (∀ bs t, va.toNat % 8 = 0 → x.joined = true → s.gread g va 8 = .ok bs t → leNat bs < (pBody x.pkt 1).toNat →
      ∃ u, exec (.joinPacket w) s = .next u ∧ mfind u.works w = some { x with at_ := t.cyc + 1 } ∧ u.mem = t.mem) := by
  intro g va
  obtain ⟨-, -, -, -, hwait, -⟩ := id h
  refine ⟨fun hmis => ?_, fun old t hal hj hat => ?_, fun bs t hal hj hread hge => ?_, fun bs t hal hj hread hlt => ?_⟩
  · refine workEnds_of_done (t := s) (x' := x) (e := failEffect x 0x40 0 va) ?_ rfl rfl rfl rfl
    rw [exec_joinPacket h hkind, joinWork, if_pos hmis]
  · refine ⟨(t.forget g.id).setWork w { x with joined := true, wait := .go }, ?_, ?_, rfl⟩
    · rw [exec_joinPacket h hkind, joinWork, if_neg (not_not_intro hal), if_pos hj, hat]
      rfl
    · exact (mfind_mset ..).trans ((if_pos rfl).trans (by rw [hwait]))
  · refine workEnds_of_done (t := t) (x' := x) (e := Effect.none) ?_ (gread_walks hread).cyc rfl rfl rfl
    rw [exec_joinPacket h hkind, joinWork, if_neg (not_not_intro hal), if_neg (by rw [hj]; simp), hread]
    dsimp only [EngR.andThen]
    rw [if_pos hge]
  · refine ⟨(t.forget g.id).setWork w { x with at_ := t.cyc + 1, wait := .go }, ?_, ?_, rfl⟩
    · rw [exec_joinPacket h hkind, joinWork, if_neg (not_not_intro hal), if_neg (by rw [hj]; simp), hread]
      dsimp only [EngR.andThen]
      rw [if_neg (Nat.not_le.mpr hlt)]
    · exact (mfind_mset ..).trans ((if_pos rfl).trans (by rw [hwait]))

/-! ### Copy packets -/

theorem exec_copyPacket (h : s.Working w x) (hkind : pKind x.pkt = 2) (u : State) : exec (.copyPacket w) s = .next u ↔
    (match copyWork w x s with
      | .ok (some e) t => some (t.workDone w (mget x t.works w) e)
      | .ok none t => some t
      | .wait t => some t
      | .stand v t => some (t.setWork w { (mget x t.works w) with wait := v })
      | .fail cause run va t => some (t.workDone w x (failEffect x cause (Nat.max run x.run) va))) = some u := by
  have hready := workReady_of_working h
  obtain ⟨hfind, -, -, -, hwait, -⟩ := h
  rw [show exec (.copyPacket w) s = execCopyPacket w s from rfl, execCopyPacket, event_next, hfind]
  dsimp only
  rw [if_pos ⟨hkind, hready⟩, resume_go hwait]
  rcases copyWork w x s with ⟨_ | _, _⟩ | _ | _ | _ <;> rfl

/-- What a copy packet does once its descriptor has been read. -/
def copyRun (w : Nat) (x : Work) (g : Agent) (bs : List Byte) (s : State) : EngR (Option Effect) :=
  let src := (pBody x.pkt 0).toNat
  let dst := (pBody x.pkt 1).toNat
  match tensorOf bs src dst with
  | .error dim => .ok (some { Effect.none with cause := 0x64, errstat := engStatus 2 dim 0 }) s
  | .ok t =>
    if t.empty then .ok (some Effect.none) s
    else
      let idx := if x.run = 0 then List.replicate t.dims.length 0 else x.pos
      let r := t.run src dst false false idx
      let s0 := if x.buf.isEmpty then s.setWork w { x with buf := bs } else s
      (((s0.gread { g with down := t.down (fun d => d.ss) } (BitVec.ofNat 64 r.so) r.n).andThen (fun data s =>
        (s.reach { g with down := t.down (fun d => d.ds) } 1 (BitVec.ofNat 64 r.dt) r.n).andThen (fun ps s => .ok (data, ps) s))).at x.run).andThen (fun d s =>
          let away := (d.2.filter (fun p => isWindow p.1)).map (fun p => (p.1, x.run, BitVec.ofNat 64 r.dt))
          let y : Work := { x with buf := bs, run := x.run + 1, pos := t.after idx r, at_ := s.cyc + 1, wait := .go, sent := x.sent ++ away }
          let s1 := ((s.writeParts g.id g.ctx 3 d.2 d.1).forgetData g.id).setWork w y
          match t.after idx r with
          | [] => .ok (some Effect.none) s1
          | _ => .ok none s1)

theorem copyWork_read {bs : List Byte} {t : State} (hal : (pBody x.pkt 2).toNat % 128 = 0)
    (hread : (x.buf = [] ∧ s.gread (s.workAgent x) (pBody x.pkt 2) 128 = .ok bs t) ∨ (x.buf ≠ [] ∧ bs = x.buf ∧ t = s)) :
    copyWork w x s = copyRun w x (s.workAgent x) bs t := by
  unfold copyWork
  dsimp only
  rw [if_neg (not_not_intro hal)]
  obtain ⟨hbuf, hr⟩ | ⟨hbuf, rfl, rfl⟩ := hread
  · rw [if_pos (List.isEmpty_iff.mpr hbuf), hr]
    rfl
  · rw [if_neg (fun h => hbuf (List.isEmpty_iff.mp h))]
    rfl

theorem copyPacketActs (h : s.Working w x) (hkind : pKind x.pkt = 2) :
    let g := s.workAgent x
    let va := pBody x.pkt 0
    let dva := pBody x.pkt 2
    (dva.toNat % 128 ≠ 0 → s.WorkEnds (.copyPacket w) w x 0x64 [] []) ∧
    (∀ bs t, dva.toNat % 128 = 0 → ((x.buf = [] ∧ s.gread g dva 128 = .ok bs t) ∨ (x.buf ≠ [] ∧ bs = x.buf ∧ t = s)) →
      let t0 := if x.buf = [] then t.setWork w { x with buf := bs } else t
      (∀ n, tensorOf bs va.toNat (pBody x.pkt 1).toNat = .error n → s.WorkEnds (.copyPacket w) w x 0x64 [] []) ∧
      (∀ ts, tensorOf bs va.toNat (pBody x.pkt 1).toNat = .ok ts →
        let idx := if x.run = 0 then List.replicate ts.dims.length 0 else x.pos
        let r := ts.run va.toNat (pBody x.pkt 1).toNat false false idx
        (ts.empty = true → s.WorkEnds (.copyPacket w) w x 0 [] []) ∧
        (∀ data t1 ps t2, ts.empty = false → t0.gread { g with down := ts.down (fun d => d.ss) } (BitVec.ofNat 64 r.so) r.n = .ok data t1 →
          t1.reach { g with down := ts.down (fun d => d.ds) } 1 (BitVec.ofNat 64 r.dt) r.n = .ok ps t2 →
          (ts.after idx r = [] → s.WorkEnds (.copyPacket w) w x 0 [] []) ∧
          (ts.after idx r ≠ [] → ∃ u, exec (.copyPacket w) s = .next u ∧ u.mem = (t2.writeParts g.id g.ctx 3 ps data).mem ∧
            ∃ y, mfind u.works w = some y ∧ y.run = x.run + 1 ∧ y.pos = ts.after idx r ∧ y.stage = .taken)))) := by
  intro g va dva
  obtain ⟨hfind, hstage, -⟩ := id h
  refine ⟨fun hmis => ?_, fun bs t hal hread => ?_⟩
  · refine workEnds_of_done (t := s) (x' := x) (e := failEffect x 0x64 (Nat.max 0 x.run) 0) ?_ rfl rfl rfl rfl
    rw [exec_copyPacket h hkind, copyWork]
    dsimp only
    rw [if_pos hmis]
  intro t0
  have hwork := copyWork_read (w := w) hal hread
  have ht : t.cyc = s.cyc ∧ t.works = s.works := by
    obtain ⟨-, hr⟩ | ⟨-, -, rfl⟩ := hread
    · exact ⟨(gread_walks hr).cyc, (gread_walks hr).works⟩
    · exact ⟨rfl, rfl⟩
  have hmget : mget x t.works w = x := by rw [ht.2]; exact mget_of_mfind hfind
  refine ⟨fun n hbad => ?_, fun ts hok => ?_⟩
  · refine workEnds_of_done (t := t) (x' := x) (e := { Effect.none with cause := 0x64, errstat := engStatus 2 n 0 }) ?_ ht.1 rfl rfl rfl
    rw [exec_copyPacket h hkind, hwork, copyRun]
    dsimp only
    rw [hbad]
    dsimp only
    rw [hmget]
  intro idx r
  refine ⟨fun hempty => ?_, fun data t1 ps t2 hfull hdata hps => ?_⟩
  · refine workEnds_of_done (t := t) (x' := x) (e := Effect.none) ?_ ht.1 rfl rfl rfl
    rw [exec_copyPacket h hkind, hwork, copyRun]
    dsimp only
    rw [hok]
    dsimp only
    rw [if_pos hempty]
    dsimp only
    rw [hmget]
  have ht0 : t0 = if x.buf.isEmpty then t.setWork w { x with buf := bs } else t := if_congr List.isEmpty_iff.symm rfl rfl
  have hcyc : t2.cyc = s.cyc := by
    rw [(reach_walks hps).cyc, (gread_walks hdata).cyc, ht0]
    split <;> exact ht.1
  obtain ⟨y, hrun, hypkt, hyq, hyidx, hystage, hyrun, hypos⟩ : ∃ y : Work, copyRun w x g bs t = (match ts.after idx r with
        | [] => .ok (some Effect.none) (((t2.writeParts g.id g.ctx 3 ps data).forgetData g.id).setWork w y)
        | _ => .ok none (((t2.writeParts g.id g.ctx 3 ps data).forgetData g.id).setWork w y)) ∧ y.pkt = x.pkt ∧ y.q = x.q ∧ y.idx = x.idx ∧
      y.stage = x.stage ∧ y.run = x.run + 1 ∧ y.pos = ts.after idx r := by
    refine ⟨{ x with buf := bs, run := x.run + 1, pos := ts.after idx r, at_ := t2.cyc + 1, wait := .go,
                     sent := x.sent ++ (ps.filter (fun p => isWindow p.1)).map (fun p => (p.1, x.run, BitVec.ofNat 64 r.dt)) },
      ?_, rfl, rfl, rfl, rfl, rfl, rfl⟩
    unfold copyRun
    dsimp only
    rw [hok]
    dsimp only
    rw [if_neg (ne_true_of_eq_false hfull), ← ht0, hdata]
    dsimp only [EngR.andThen]
    rw [hps]
    rfl
  have hcyc' : (((t2.writeParts g.id g.ctx 3 ps data).forgetData g.id).setWork w y).cyc = s.cyc := (writeParts_cyc t2 _ _ _ ps data).trans hcyc
  refine ⟨fun hlast => ?_, fun hmore => ?_⟩
  · refine workEnds_of_done (t := ((t2.writeParts g.id g.ctx 3 ps data).forgetData g.id).setWork w y) (x' := y) (e := Effect.none) ?_ hcyc' hypkt hyq hyidx
    rw [exec_copyPacket h hkind, hwork, hrun, hlast]
    dsimp only
    rw [show mget x (State.setWork _ w y).works w = y from mget_mset_same ..]
  · refine ⟨((t2.writeParts g.id g.ctx 3 ps data).forgetData g.id).setWork w y, ?_, rfl, y, (mfind_mset ..).trans (if_pos rfl), hyrun, hypos,
      hystage.trans hstage⟩
    rw [exec_copyPacket h hkind, hwork, hrun]
    cases ha : ts.after idx r with
    | nil => exact absurd ha hmore
    | cons => rfl

end NoEngine

end Sys2Proof.Machine
end

