-- ==== Sys2Proof/Proofs/PacketCompletion.lean ====
section
/-! PROOFS. The commit of job cards, and how packets complete or fail: what each step leaves of the packets' list, of their queue and of the semaphores
(R263, R268, R269, R275). -/
namespace Sys2Proof.Machine

/-! ### Walks read page tables alone -/

section WalkCongr

variable {s t : State}

theorem leaf_congr (h : ∀ pa, t.walkNat pa = s.walkNat pa) (ctx : Nat) (va : Word) (tab lvl e kind : Nat) :
    t.leaf ctx va tab lvl e kind = s.leaf ctx va tab lvl e kind := by
  simp only [State.leaf, h]

theorem walkFrom_congr (h : ∀ pa, t.walkNat pa = s.walkNat pa) (ctx : Nat) (va : Word) (kind lvl tab : Nat) :
    t.walkFrom ctx va kind lvl tab = s.walkFrom ctx va kind lvl tab := by
  induction lvl generalizing tab with
  | zero => simp only [State.walkFrom, h, leaf_congr h]
  | succ n ih => simp only [State.walkFrom, h, leaf_congr h, ih]

theorem walkPage_congr (h : ∀ pa, t.walkNat pa = s.walkNat pa) (ctx : Nat) (ptbase va : Word) (kind : Nat) :
    t.walkPage ctx ptbase va kind = s.walkPage ctx ptbase va kind := by
  simp only [State.walkPage, walkFrom_congr h]

end WalkCongr

/-- Where a front end finds the page of its descriptor depends on translations, page tables and the physical map alone. -/
theorem retranslated_congr {s t : State} {q : Nat} (hqent : t.qent q = s.qent q) (hstlb : t.stlb = s.stlb) (hroot : ∀ ctx, t.rootOf ctx = s.rootOf ctx)
    (hwalk : ∀ pa, t.walkNat pa = s.walkNat pa) (hmap : ∀ pa, t.paKind pa = s.paKind pa) (f : Front) : t.retranslated q f = s.retranslated q f := by
  simp only [State.retranslated, hqent, hstlb, hroot, walkPage_congr hwalk, hmap]

/-- The front end of a queue whatever packets there are, and whatever agents have been answered. -/
theorem front_withWorks (s : State) (ws : Map Work) (ans : List Answer) (q : Nat) :
    State.front { s with works := ws, dom := { s.dom with answers := ans } } q = s.front q :=
  front_congr rfl (retranslated_congr rfl rfl (fun _ => rfl) (fun _ => rfl) (fun _ => rfl))

theorem front_of_find {s : State} {q : Nat} {g : Front} (h : mfind (s.die (q / 256)).fronts (q % 256) = some g) :
    ∃ pa, s.front q = some { g with wpa := pa } := by
  rw [State.front, h, Option.map_some]
  split
  · exact ⟨g.wpa, rfl⟩
  · obtain ⟨pa, hpa⟩ := retranslated_eq s q g
    exact ⟨pa, by rw [hpa]⟩

/-- A number read where it was written, as far as its bytes hold it. -/
theorem homeNat_homeWrite_mod (s : State) (pa n v : Nat) : (s.homeWrite pa (leBytes n v)).homeNat pa n = v % 256 ^ n := by
  have hbytes := homeBytes_homeWrite s pa (leBytes n v)
  rw [length_leBytes] at hbytes
  rw [State.homeNat, hbytes, leNat_leBytes]

/-! ### Commit -/

section Commit

variable {s : State} {w : Nat} {x : Work}

theorem exec_commit (hfind : mfind s.works w = some x) (hat : x.at_ ≤ s.cyc) (hcard : isCard x.pkt = true) (hstage : x.stage = .performed)
    (hturn : x.cause = 0x65 ∨ pTs x.pkt ≤ s.cp x.ctx (cardClass (pKind x.pkt))) (hheld : s.commitHeld x = false) (u : State) :
    exec (.jobCardCommit w) s = .next u ↔
      (match s.badPost x with
       | some (cause, addr) =>
         if x.cause = 0 then
           some (s.setWork w { x with stage := .taken, cause := cause, errstat := engStatus (pKind x.pkt) 0 0, erraddr := BitVec.ofNat 64 addr,
                                      out := [], posts := [], frames := [] })
         else some (s.commitCard w { x with posts := [] } (cardClass (pKind x.pkt)))
       | none => some (s.commitCard w x (cardClass (pKind x.pkt)))) = some u := by
  have hcond : (isCard x.pkt && decide (x.stage = .performed) && decide (x.at_ ≤ s.cyc) && s.cardTurn x && !s.commitHeld x) = true := by
    have : s.cardTurn x = true := by
      simp only [State.cardTurn, Bool.or_eq_true, decide_eq_true_eq]
      exact hturn.elim (fun h => Or.inl (Or.inr h)) Or.inr
    simp [hcard, hstage, hat, this, hheld]
  rw [show exec (.jobCardCommit w) s = execJobCardCommit w s from rfl, execJobCardCommit, event_next, hfind]
  dsimp only
  rw [if_pos hcond] <;> rfl

theorem find_commitCard (s : State) (w : Nat) (x : Work) (cls : Nat) : mfind (s.commitCard w x cls).works w = some { x with stage := .committed } := by
  unfold State.commitCard
  dsimp only
  have hset : ∀ t : State, mfind (t.setWork w { x with stage := .committed }).works w = some { x with stage := .committed } :=
    fun t => (mfind_mset ..).trans (if_pos rfl)
  split
  · exact hset _
  · unfold State.advanceCp
    split
    · rw [(homeWrite_wrote _ _ _).works, hset]
    · exact hset _

/-- A card with no writes of its own leaves its stage, and where it is its turn the commit point behind it. -/
theorem commitCard_nothing (cls : Nat) (hout : x.out = []) (hposts : x.posts = []) (hframes : x.frames = []) :
    s.commitCard w x cls = if x.cause = 0x65 ∨ pTs x.pkt ≠ s.cp x.ctx cls then s.setWork w { x with stage := .committed }
      else (s.setWork w { x with stage := .committed }).advanceCp x.ctx cls := by
  unfold State.commitCard
  rw [hframes]
  dsimp only [List.foldl]
  rw [performWork_nothing s hout hposts]

/-- The commit point goes past a card. -/
theorem cp_advanceCp {ctx cls a : Nat} (h : s.ctxDesc ctx = some a) : (s.advanceCp ctx cls).cp ctx cls = (s.cp ctx cls + 1) % 2 ^ 48 := by
  have hadv : s.advanceCp ctx cls = s.homeWrite (a + 0x30 + 8 * cls) (leBytes 8 ((s.cp ctx cls + 1) % 2 ^ 48)) := by
    rw [State.advanceCp, h]
  have hlt : (s.cp ctx cls + 1) % 2 ^ 48 < 2 ^ 48 := Nat.mod_lt _ (Nat.two_pow_pos 48)
  rw [hadv, State.cp, (homeWrite_wrote _ _ _).ctxDesc, h]
  dsimp only
  rw [homeNat_homeWrite s _ 8 (lt_trans hlt (by decide)), Nat.mod_eq_of_lt hlt]

theorem jobCardCommits (hfind : mfind s.works w = some x) (hat : x.at_ ≤ s.cyc) (hcard : isCard x.pkt = true) (hstage : x.stage = .performed)
    (hturn : x.cause = 0x65 ∨ pTs x.pkt ≤ s.cp x.ctx (cardClass (pKind x.pkt))) (hheld : s.commitHeld x = false) :
    let cls := cardClass (pKind x.pkt)
    (s.badPost x = none → ∃ u, exec (.jobCardCommit w) s = .next u ∧ mfind u.works w = some { x with stage := .committed } ∧
      (x.out = [] → x.posts = [] → x.frames = [] → (x.cause = 0x65 ∨ pTs x.pkt ≠ s.cp x.ctx cls) → u.mem = s.mem) ∧
      (x.out = [] → x.posts = [] → x.frames = [] → x.cause ≠ 0x65 → pTs x.pkt = s.cp x.ctx cls → s.ctxDesc x.ctx ≠ none →
        u.cp x.ctx cls = (s.cp x.ctx cls + 1) % 2 ^ 48)) ∧
    (∀ cause a, s.badPost x = some (cause, a) → x.cause = 0 → ∃ u y, exec (.jobCardCommit w) s = .next u ∧ mfind u.works w = some y ∧
      y.stage = .taken ∧ y.cause = cause ∧ y.out = [] ∧ y.posts = [] ∧ u.mem = s.mem) := by
  intro cls
  have hexec := exec_commit hfind hat hcard hstage hturn hheld
  refine ⟨fun hgood => ⟨s.commitCard w x cls, ?_, find_commitCard s w x cls, fun hout hposts hframes hlate => ?_,
    fun hout hposts hframes hcause hts hdesc => ?_⟩, fun cause a hbad hcause => ?_⟩
  · rw [hexec, hgood]
  · rw [commitCard_nothing cls hout hposts hframes, if_pos hlate]
    rfl
  · obtain ⟨a, ha⟩ := Option.ne_none_iff_exists'.mp hdesc
    rw [commitCard_nothing cls hout hposts hframes, if_neg (fun h => h.elim hcause (fun h' => h' hts))]
    exact cp_advanceCp (s := s.setWork w { x with stage := .committed }) ha
  · refine ⟨s.setWork w { x with stage := .taken, cause := cause, errstat := engStatus (pKind x.pkt) 0 0, erraddr := BitVec.ofNat 64 a, out := [], posts := [],
                                 frames := [] }, _, ?_, (mfind_mset ..).trans (if_pos rfl), rfl, rfl, rfl, rfl, rfl⟩
    rw [hexec, hbad]
    exact if_pos hcause

end Commit

/-! ### Completion -/

section Completion

variable {s : State} {w : Nat} {x : Work}

/-- A packet none of whose writes was answered with an error is signalled as it stands. -/
theorem packetAnswered_unanswered (w : Nat) (h : ∀ a ∈ s.dom.answers, a.agent ≠ 1024 + x.q) : ∃ sig ans,
    s.packetAnswered w x = ({ x with signalled := sig }, { s with dom := { s.dom with answers := ans } }) := by
  unfold State.packetAnswered
  split
  · exact ⟨x.signalled, s.dom.answers, rfl⟩
  · have hnone : s.dom.answers.find? (fun a => decide (a.agent = 1024 + x.q) && decide (a.cause ≠ 0)) = none := by
      refine List.find?_eq_none.mpr (fun a ha => ?_)
      simp [h a ha]
    dsimp only
    rw [hnone]
    exact ⟨true, _, rfl⟩

/-- The state in which a packet that has ended leaves the list of packets. -/
def State.dropWork (s : State) (w : Nat) (ans : List Answer) : State := { s with works := mdel s.works w, dom := { s.dom with answers := ans } }

theorem exec_complete (hfind : mfind s.works w = some x) (hat : x.at_ ≤ s.cyc) (hstage : x.stage = .committed) (hwait : x.wait = .go)
    (hword : pf x.pkt 9 2 ≠ 2) (hreqs : ∀ r ∈ s.dom.reqs, r.core ≠ 128 + (1024 + x.q)) (hans : ∀ a ∈ s.dom.answers, a.agent ≠ 1024 + x.q) :
    ∃ sig ans, exec (.packetComplete w) s = .next (if x.cause ≠ 0 then
        State.failPacket { s with dom := { s.dom with answers := ans } } w { x with signalled := sig } x.cause x.errstat x.erraddr
      else (((s.dropWork w ans).advanceRidx x.q x.idx).signalHeader x.ctx x.pkt).unplace x.q x.idx) := by
  obtain ⟨sig, ans, hanswered⟩ := packetAnswered_unanswered w hans
  refine ⟨sig, ans.filter (fun a => !decide (a.agent = 1024 + x.q)), ?_⟩
  have hcond : x.stage = .committed ∧ x.at_ ≤ s.cyc ∧ s.writesOut (1024 + x.q) = false ∧
      s.dom.reqs.any (fun r => decide (r.core = 128 + (1024 + x.q)) && !r.skip) = false :=
    ⟨hstage, hat, writesOut_eq_false hreqs, no_request hreqs⟩
  have hacked : State.writesOut { s with dom := { s.dom with answers := ans } } (1024 + x.q) = false := writesOut_eq_false hreqs
  rw [show exec (.packetComplete w) s = execPacketComplete w s from rfl, execPacketComplete, event_next, hfind]
  dsimp only
  rw [if_pos hcond, hanswered]
  dsimp only
  rw [hacked, if_neg Bool.false_ne_true, State.signalWord, if_neg hword, resume_go hwait]
  dsimp only
  split <;> rfl

theorem signalHeader_eq (s : State) (ctx : Nat) (p : BitVec 512) : ∃ cs rq, s.signalHeader ctx p = { s with cores := cs, relQ := rq } := by
  unfold State.signalHeader
  split
  · unfold State.signalSem
    dsimp only
    split
    · exact ⟨_, s.relQ, rfl⟩
    · exact ⟨s.cores, _, rfl⟩
  · exact ⟨s.cores, s.relQ, rfl⟩

theorem unplace_eq (s : State) (q i : Nat) : ∃ pl, s.unplace q i = { s with placed := pl } := by
  unfold State.unplace
  split
  · exact ⟨_, rfl⟩
  · exact ⟨s.placed, rfl⟩

theorem advanceRidx_eq {f : Front} {q i : Nat} (hfront : s.front q = some f) (hi : i = f.ridx) (hdone : f.done = []) :
    s.advanceRidx q i = (s.setFront q { f with ridx := f.ridx + 1, done := [] }).homeWrite (f.desc + 16) (leBytes 8 (f.ridx + 1)) := by
  have hnext : (((upTo f.ridx ((i :: f.done).length + 1)).find? (fun j => !(i :: f.done).contains j)).getD f.ridx) = f.ridx + 1 := by
    rw [hdone, hi]
    simp [upTo, List.find?]
  have hrest : (i :: f.done).filter (fun j => decide (f.ridx + 1 ≤ j)) = [] := by
    rw [hdone, hi]
    simp
  unfold State.advanceRidx
  rw [hfront]
  dsimp only
  rw [hnext, hrest, if_neg (by omega)]

theorem advanceRidx_wrote (s : State) (q i : Nat) : (s.advanceRidx q i).works = s.works ∧ (s.advanceRidx q i).cores = s.cores := by
  unfold State.advanceRidx
  split
  · exact ⟨rfl, rfl⟩
  · dsimp only
    split
    · exact ⟨rfl, rfl⟩
    · exact ⟨(homeWrite_wrote _ _ _).works, (homeWrite_wrote _ _ _).cores⟩

theorem mfind_filter_none {α : Type} {m : Map α} {a : Nat} (p : Nat × α → Bool) (h : mfind m a = none) : mfind (m.filter p) a = none := by
  induction m with
  | nil => rfl
  | cons e r ih =>
    obtain ⟨k, v⟩ := e
    rw [mfind] at h
    split at h
    · cases h
    · next hne =>
      rw [List.filter_cons]
      split
      · rw [mfind, if_neg hne]
        exact ih h
      · exact ih h

/-- A queue that stops gives back packets that have not begun. -/
theorem works_stopQueue (s : State) (q i cause : Nat) (st : Half) (addr : Word) : ∃ p, (s.stopQueue q i cause st addr).works = s.works.filter p := by
  unfold State.stopQueue
  split
  · exact ⟨fun _ => true, (List.filter_eq_self.mpr (fun _ _ => rfl)).symm⟩
  · dsimp only
    rw [(homeWrite_wrote _ _ _).works, (homeWrite_wrote _ _ _).works]
    exact ⟨_, rfl⟩

theorem reportPacket_keeps (s : State) (q i cause engine unit : Nat) (st : Half) (addr : Word) :
    (s.reportPacket q i cause engine unit st addr).works = s.works ∧ (s.reportPacket q i cause engine unit st addr).homeView = s.homeView := by
  unfold State.reportPacket
  split
  · rw [homeView_setPending]
    unfold State.failPlaced State.setPending
    constructor
    · split <;> split <;> rfl
    · split <;> rfl
  · exact ⟨rfl, rfl⟩

theorem packetFails {f : Front} {sig : Bool} {ans : List Answer} {u : State} (hfront : s.front x.q = some f)
    (hu : u = State.failPacket { s with dom := { s.dom with answers := ans } } w { x with signalled := sig } x.cause x.errstat x.erraddr) :
    mfind u.works w = none ∧ u.homeNat (f.desc + 32) 1 % 4 = 1 ∧ u.homeNat (f.desc + 35) 1 = x.cause % 256 := by
  have hdrop : (s.dropWork w ans).front x.q = some f := (front_withWorks s _ _ _).trans hfront
  obtain ⟨hstate, hcause⟩ := homeNat_stopQueue hdrop x.idx x.cause x.errstat x.erraddr
  obtain ⟨engine, unit, hfail⟩ : ∃ engine unit, u = (((s.dropWork w ans).stopQueue x.q x.idx x.cause x.errstat x.erraddr).signalHeader x.ctx
      x.pkt).reportPacket x.q x.idx x.cause engine unit x.errstat x.erraddr := ⟨_, _, hu⟩
  have hgone : mfind ((s.dropWork w ans).stopQueue x.q x.idx x.cause x.errstat x.erraddr).works w = none := by
    obtain ⟨p, hp⟩ := works_stopQueue (s.dropWork w ans) x.q x.idx x.cause x.errstat x.erraddr
    rw [hp]
    exact mfind_filter_none p (mfind_mdel_same s.works w)
  generalize (s.dropWork w ans).stopQueue x.q x.idx x.cause x.errstat x.erraddr = t at hfail hstate hcause hgone
  obtain ⟨cs, rq, hsignal⟩ := signalHeader_eq t x.ctx x.pkt
  rw [hsignal] at hfail
  obtain ⟨hworks, hview⟩ := reportPacket_keeps { t with cores := cs, relQ := rq } x.q x.idx x.cause engine unit x.errstat x.erraddr
  rw [← hfail] at hworks hview
  have hview' : u.homeView = t.homeView := hview
  refine ⟨?_, ?_, ?_⟩
  · rw [hworks]
    exact hgone
  · rw [homeNat_congr hview', hstate]
  · rw [homeNat_congr hview', hcause]

theorem packetCompletes {ans : List Answer} {u : State}
    (hu : u = (((s.dropWork w ans).advanceRidx x.q x.idx).signalHeader x.ctx x.pkt).unplace x.q x.idx) :
    mfind u.works w = none ∧ (∀ v, v ≠ w → mfind u.works v = mfind s.works v) ∧
      (pf x.pkt 9 2 = 1 → (s.core (pCore x.pkt)).bound = true → (s.core (pCore x.pkt)).ctx = x.ctx → (s.core (pCore x.pkt)).leaving = false →
        mget 0 (u.core (pCore x.pkt)).im.sems (pf x.pkt 16 6) = Nat.min 65535 (mget 0 (s.core (pCore x.pkt)).im.sems (pf x.pkt 16 6) + 1)) ∧
      (∀ f, s.front x.q = some f → x.idx = f.ridx → f.done = [] →
        ∃ g, u.front x.q = some g ∧ g.ridx = f.ridx + 1 ∧ g.done = [] ∧ u.homeNat (f.desc + 16) 8 = (f.ridx + 1) % 2 ^ 64) := by
  obtain ⟨cs, rq, hsignal⟩ := signalHeader_eq ((s.dropWork w ans).advanceRidx x.q x.idx) x.ctx x.pkt
  obtain ⟨pl, hplaced⟩ := unplace_eq (((s.dropWork w ans).advanceRidx x.q x.idx).signalHeader x.ctx x.pkt) x.q x.idx
  obtain ⟨hworks, hcores⟩ := advanceRidx_wrote (s.dropWork w ans) x.q x.idx
  have hu' := hu.trans hplaced
  have huworks : u.works = mdel s.works w := by
    rw [hu', hsignal]
    exact hworks
  refine ⟨?_, fun v hv => ?_, fun hsem hbound hctx hleaving => ?_, fun f hfront hidx hdone => ?_⟩
  · rw [huworks, mfind_mdel_same]
  · rw [huworks, mfind_mdel, if_neg hv]
  · have hcore : ((s.dropWork w ans).advanceRidx x.q x.idx).core (pCore x.pkt) = s.core (pCore x.pkt) := by
      rw [State.core, hcores]
      rfl
    have hucore : u.core (pCore x.pkt) = (((s.dropWork w ans).advanceRidx x.q x.idx).signalSem (pCore x.pkt) x.ctx (pf x.pkt 16 6)).core (pCore x.pkt) := by
      rw [hu', State.signalHeader, if_pos hsem]
      rfl
    rw [hucore, sem_signalSem (by rw [hcore]; exact hbound) (by rw [hcore]; exact hctx) (by rw [hcore]; exact hleaving), hcore]
  · have hadv := advanceRidx_eq ((front_withWorks s (mdel s.works w) ans x.q).trans hfront) hidx hdone
    change (s.dropWork w ans).advanceRidx x.q x.idx = _ at hadv
    rw [hsignal, hadv] at hu'
    obtain ⟨v, hv⟩ := (homeWrite_wrote ((s.dropWork w ans).setFront x.q { f with ridx := f.ridx + 1, done := [] }) (f.desc + 16)
      (leBytes 8 (f.ridx + 1))).front (x.q / 256) (x.q % 256)
    rw [die_setFront, if_pos rfl] at hv
    have hfind : mfind (u.die (x.q / 256)).fronts (x.q % 256) = some { f with ridx := f.ridx + 1, done := [], widx := v { f with ridx := f.ridx + 1, done := [] } } := by
      rw [hu']
      refine hv.trans ?_
      rw [mfind_mset, if_pos rfl]
      rfl
    obtain ⟨pa, hpa⟩ := front_of_find hfind
    refine ⟨_, hpa, rfl, rfl, ?_⟩
    rw [hu']
    exact homeNat_homeWrite_mod _ (f.desc + 16) 8 (f.ridx + 1)

end Completion

theorem packetsCommitAndComplete : Claims.PacketsCommitAndComplete := by
  intro s w x hfind hat cls
  refine ⟨fun hcard hstage hturn hheld => jobCardCommits hfind hat hcard hstage hturn hheld, fun hstage hwait hword hreqs hans => ?_⟩
  obtain ⟨sig, ans, hexec⟩ := exec_complete hfind hat hstage hwait hword hreqs hans
  refine ⟨fun hcause => ⟨_, hexec, ?_⟩, fun hcause f hfront => ⟨_, hexec, ?_⟩⟩
  · exact packetCompletes (if_neg (not_not_intro hcause))
  · exact packetFails hfront (if_pos hcause)

end Sys2Proof.Machine

namespace Sys2Proof.Proofs
open Sys2Proof.Machine

/-- Settles O43: how the work of packets without an engine goes, and how packets commit, complete and fail. -/
theorem packetsRunToTheirCompletion : Obligations.PacketsRunToTheirCompletion :=
  ⟨fun _ _ _ h => ⟨nullPacket_ends h, signalPacket_ends h, joinPacketActs h, copyPacketActs h⟩, packetsCommitAndComplete⟩

end Sys2Proof.Proofs
end

