-- ==== Sys2Proof/Proofs/AgentFrame.lean ====
section
/-! PROOFS. What no access of an agent moves, however it ends: time, the packets, memory (R252, R274, R285 to R290). -/
namespace Sys2Proof.Machine

/-- What an agent's access leaves of a die: all but the walks before its walkers, its fault records and its error log. -/
def Die.Left (d e : Die) : Prop := ∃ q a fb n l, e = { d with walkq := q, walkAsk := a, fbuf := fb, elogN := n, elog := l }

/-- What agents' accesses leave, whether they end, stand or fail: it does not depend on the walks, fault records and error logs of dies, and not on
streams, wires, errors of the link, and requests. -/
structure AgentFrame {β : Type} (φ : State → β) : Prop where
  dies : ∀ (s : State) ds, (∀ d, (s.die d).Left (mget Die.init ds d)) → φ { s with dies := ds } = φ s
  streams : ∀ (s : State) st pf, φ { s with stlb := st, pfetch := pf } = φ s
  wires : ∀ (s : State) ws, φ { s with wires := ws } = φ s
  link : ∀ (s : State) l, φ { s with linkErr := l } = φ s
  send : ∀ (s : State) target op aop u size scope ctx len rid pa val cv data core acc,
    φ (s.domainSend target op aop u size scope ctx len rid pa val cv data core acc) = φ s

theorem agentFrame_cyc : AgentFrame State.cyc :=
  ⟨fun _ _ _ => rfl, fun _ _ _ => rfl, fun _ _ => rfl, fun _ _ => rfl, domainSend_cyc⟩

theorem agentFrame_works : AgentFrame State.works :=
  ⟨fun _ _ _ => rfl, fun _ _ _ => rfl, fun _ _ => rfl, fun _ _ => rfl, domainSend_works⟩

theorem agentFrame_mem : AgentFrame State.mem :=
  ⟨fun _ _ _ => rfl, fun _ _ _ => rfl, fun _ _ => rfl, fun _ _ => rfl, State.domainSend_mem⟩

/-- The state in which a piece of an engine's work ends. -/
def EngR.state {α : Type} : EngR α → State
  | .ok _ s => s
  | .stand _ s => s
  | .wait s => s
  | .fail _ _ _ s => s

/-- A translation ends in a state with the same frame. -/
def Tr.Keeps {β : Type} (φ : State → β) (s : State) : Tr → Prop
  | .ok _ t => φ t = φ s
  | .stand _ t => φ t = φ s
  | .bad _ _ => True

section Accesses

variable {β : Type} {φ : State → β} (h : AgentFrame φ)
include h

theorem AgentFrame.walks {s t : State} (ht : s.Walks t) : φ t = φ s := by
  obtain ⟨st, pf, ds, rfl⟩ := ht.state
  refine (h.dies { s with stlb := st, pfetch := pf } ds (fun d => ?_)).trans (h.streams s st pf)
  obtain ⟨q, a, hd⟩ := ht.die d
  exact ⟨q, a, _, _, _, hd⟩

theorem AgentFrame.modDie (s : State) (d : Nat) {f : Die → Die} (hf : (s.die d).Left (f (s.die d))) : φ (s.modDie d f) = φ s := by
  refine h.dies s _ (fun e => ?_)
  have hdie := State.die_modDie s d e f
  rw [State.die, State.modDie] at hdie
  dsimp only at hdie
  rw [hdie]
  split
  · next he => rw [he]; exact hf
  · exact ⟨_, _, _, _, _, rfl⟩

theorem AgentFrame.logError (s : State) (d : Nat) (e : ErrEnt) : φ (s.logError d e) = φ s := h.modDie s d ⟨_, _, _, _, _, rfl⟩

theorem AgentFrame.linkMet (s : State) (c pa cause : Nat) : φ (s.linkMet c pa cause) = φ s := by
  unfold State.linkMet
  split
  · exact h.link s _
  · rfl

theorem AgentFrame.engineError (s : State) (c pa : Nat) (va : Word) (ctx cause engine : Nat) : φ (s.engineError c pa va ctx cause engine) = φ s := by
  unfold State.engineError
  split
  · split
    · exact h.logError s _ _
    · rfl
  · exact (h.logError _ _ _).trans (h.linkMet s c pa cause)

theorem AgentFrame.placeFault {s t : State} {d i : Nat} {n : FaultRec} (hp : s.placeFault d n = some (i, t)) : φ t = φ s := by
  unfold State.placeFault at hp
  split at hp
  · cases hp
    exact h.modDie s d ⟨_, _, _, _, _, rfl⟩
  · split at hp <;> cases hp
    exact h.modDie s d ⟨_, _, _, _, _, rfl⟩

theorem AgentFrame.assertWire (s : State) (ctx : Nat) (cores : List Nat) (d i : Nat) : φ (s.assertWire ctx cores d i) = φ s := by
  unfold State.assertWire
  split
  · exact h.wires s _
  · exact h.wires s _

theorem AgentFrame.faultCore (s : State) (c ctx unit uidx kind interval : Nat) (va : Word) (e : TrFail) :
    φ (s.faultCore c ctx unit uidx kind interval va e).2 = φ s := by
  unfold State.faultCore
  split
  · next hp =>
    dsimp only
    split
    · rw [h.assertWire, h.placeFault hp]
    · exact h.placeFault hp
  · rfl

theorem AgentFrame.engineAccess (s : State) (c agent ctx unit uidx kind : Nat) (down : Bool) (w : FWait) (va : Word) (n : Nat) :
    (s.engineAccess c agent ctx unit uidx kind down w va n).Keeps φ s := by
  have hgate := h.walks (walkGate_walks s (dieOf c) agent ctx kind va n)
  unfold State.engineAccess
  dsimp only
  split
  · exact hgate
  · split
    · next hd =>
      have hok := (h.walks (demand_walks hd)).trans hgate
      split
      · exact hok
      · exact hok
    · split
      · exact True.intro
      · exact (h.faultCore _ _ _ _ _ _ _ _ _).trans hgate

theorem AgentFrame.frontAccess (s : State) (d agent ctx unit uidx kind : Nat) (down : Bool) (w : FWait) (va : Word) (n : Nat) :
    (s.frontAccess d agent ctx unit uidx kind down w va n).Keeps φ s := by
  have hgate := h.walks (walkGate_walks s d agent ctx kind va n)
  unfold State.frontAccess
  dsimp only
  split
  · exact hgate
  · split
    · next hd => exact (h.walks (demand_walks hd)).trans hgate
    · split
      · exact True.intro
      · split
        · next hp => exact (h.placeFault hp).trans hgate
        · exact hgate

omit h in
theorem keeps_andThen {α γ : Type} {s : State} {x : EngR α} {f : α → State → EngR γ} (hx : φ x.state = φ s)
    (hf : ∀ a t, x = .ok a t → φ (f a t).state = φ t) : φ (x.andThen f).state = φ s := by
  cases x with
  | ok a t => exact (hf a t rfl).trans hx
  | stand => exact hx
  | wait => exact hx
  | fail => exact hx

omit h in
theorem state_at {α : Type} (x : EngR α) (i : Nat) : (x.at i).state = x.state := by
  unfold EngR.at
  split <;> rfl

omit h in
theorem keeps_engMap {α γ : Type} {f : Nat → α → State → EngR γ} (hf : ∀ i a t, φ (f i a t).state = φ t) (i : Nat) (l : List α) (s : State) :
    φ (engMap f i l s).state = φ s := by
  induction l generalizing i s with
  | nil => rfl
  | cons a r ih =>
    rw [engMap]
    exact keeps_andThen (hf i a s) (fun b t _ => keeps_andThen (ih (i + 1) t) (fun _ _ _ => rfl))

theorem AgentFrame.reach (s : State) (g : Agent) (kind : Nat) (va : Word) (n : Nat) : φ (s.reach g kind va n).state = φ s := by
  have hr : Tr.Keeps φ s (if g.wire then s.engineAccess g.core g.tlb g.ctx g.unit g.uidx kind g.down g.wait va n
      else s.frontAccess (dieOf g.core) g.tlb g.ctx g.unit g.uidx kind g.down g.wait va n) := by
    split
    · exact h.engineAccess _ _ _ _ _ _ _ _ _ _ _
    · exact h.frontAccess _ _ _ _ _ _ _ _ _ _ _
  unfold State.reach
  split
  · rfl
  · split
    · exact h.engineError _ _ _ _ _ _ _
    · dsimp only
      generalize (if g.wire then s.engineAccess g.core g.tlb g.ctx g.unit g.uidx kind g.down g.wait va n
        else s.frontAccess (dieOf g.core) g.tlb g.ctx g.unit g.uidx kind g.down g.wait va n) = r at hr
      cases r with
      | bad => rfl
      | stand => exact hr
      | ok ps t =>
        dsimp only
        split
        · exact (h.engineError _ _ _ _ _ _ _).trans hr
        · generalize (if 1024 ≤ g.id then some (g.id - 1024) else none) = own
          split
          · exact hr
          · exact hr

theorem AgentFrame.readParts_wait {s t : State} {agent ctx : Nat} (ps : List (Nat × Nat)) (hw : s.readParts agent ctx ps = .wait t) : φ t = φ s := by
  induction ps with
  | nil => cases hw
  | cons p r ih =>
    obtain ⟨pa, n⟩ := p
    have hmore : ∀ x, (match s.readParts agent ctx r with
        | .ok b s' => ERead.ok (x ++ b) s'
        | e => e) = ERead.wait t → φ t = φ s := by
      intro x hx
      split at hx
      · cases hx
      · exact ih hx
    rw [State.readParts] at hw
    dsimp only at hw
    split at hw
    · cases hw
    · exact hmore _ hw
    · split at hw
      · split at hw
        · cases hw
        · exact hmore _ hw
      · split at hw <;> cases hw
        · rfl
        · exact h.send _ _ _ _ _ _ _ _ _ _ _ _ _ _ _ _

theorem AgentFrame.takeParts (s : State) (g : Agent) (va : Word) (ps : List (Nat × Nat)) : φ (s.takeParts g va ps).state = φ s := by
  unfold State.takeParts
  split
  · next hr => rw [readParts_ok ps hr]; rfl
  · next hr => exact h.readParts_wait ps hr
  · exact h.engineError _ _ _ _ _ _ _

theorem AgentFrame.gread (s : State) (g : Agent) (va : Word) (n : Nat) : φ (s.gread g va n).state = φ s :=
  keeps_andThen (h.reach s g 0 va n) (fun ps t _ => h.takeParts t g va ps)

theorem AgentFrame.pread (s : State) (x : Work) (p : Word) (n : Nat) : φ (s.pread x p n).state = φ s := by
  unfold State.pread
  split
  · rfl
  · split
    · dsimp only
      split <;> rfl
    · exact h.gread s _ p n

theorem AgentFrame.gput (s : State) (x : Work) (va : Word) (bs : List Byte) : φ (s.gput x va bs).state = φ s := by
  unfold State.gput
  split
  · rfl
  · exact keeps_andThen (h.reach s _ 1 va _) (fun _ _ _ => rfl)

theorem AgentFrame.pput (s : State) (x : Work) (p : Word) (bs : List Byte) : φ (s.pput x p bs).state = φ s := by
  unfold State.pput
  split
  · rfl
  · split
    · split <;> rfl
    · exact h.gput s x p bs

theorem AgentFrame.eTableAt (s : State) (g : Agent) (va : Word) : φ (s.eTableAt g va).state = φ s := by
  unfold State.eTableAt
  split
  · rfl
  · refine keeps_andThen (h.gread s g va 64) (fun bs t _ => ?_)
    split <;> rfl

theorem AgentFrame.eTable (s : State) (x : Work) : φ (s.eTable x).state = φ s := by
  unfold State.eTable
  split
  · exact h.eTableAt s _ _
  · split <;> rfl

theorem AgentFrame.eList (s : State) (x : Work) : φ (s.eList x).state = φ s := by
  unfold State.eList
  dsimp only
  split
  · rfl
  · refine keeps_andThen (h.pread s x _ 8) (fun hb t _ => ?_)
    split
    · rfl
    · exact keeps_andThen (h.pread t x _ _) (fun _ _ _ => rfl)

theorem AgentFrame.rowPlaceFor (s : State) (g : Agent) (t : ETable) (kinds : List Nat) (anyHome : Bool) (k row : Nat) :
    φ (s.rowPlaceFor g t kinds anyHome k row).state = φ s := by
  have hfold : ∀ (look : Nat → State → EngR Nat), (∀ kind u, φ (look kind u).state = φ u) → ∀ (l : List Nat) (r : EngR Nat), φ r.state = φ s →
      φ (l.foldl (fun r kind => r.andThen (fun _ s => look kind s)) r).state = φ s := by
    intro look hlook l
    induction l with
    | nil => exact fun r hr => hr
    | cons kind l ih => exact fun r hr => ih _ (keeps_andThen hr (fun _ u _ => hlook kind u))
  unfold State.rowPlaceFor
  refine hfold _ (fun kind u => ?_) kinds _ rfl
  dsimp only
  have hr : Tr.Keeps φ u (if g.wire then u.engineAccess g.core g.tlb g.ctx g.unit g.uidx kind false g.wait (BitVec.ofNat 64 (t.base + row * t.stride)) 1
      else u.frontAccess (dieOf g.core) g.tlb g.ctx g.unit g.uidx kind false g.wait (BitVec.ofNat 64 (t.base + row * t.stride)) 1) := by
    split
    · exact h.engineAccess _ _ _ _ _ _ _ _ _ _ _
    · exact h.frontAccess _ _ _ _ _ _ _ _ _ _ _
  generalize (if g.wire then u.engineAccess g.core g.tlb g.ctx g.unit g.uidx kind false g.wait (BitVec.ofNat 64 (t.base + row * t.stride)) 1
    else u.frontAccess (dieOf g.core) g.tlb g.ctx g.unit g.uidx kind false g.wait (BitVec.ofNat 64 (t.base + row * t.stride)) 1) = r at hr
  cases r with
  | bad => rfl
  | stand v u' => exact (congrArg φ (state_at (.stand v u') k)).trans hr
  | ok ps u' =>
    dsimp only
    split
    · exact hr
    · next hs =>
      have hs2 := (h.walks (stream_walks hs)).trans hr
      split
      · exact hs2
      · generalize (if anyHome then [] else [((ps.map (fun p => p.1)).headD 0, t.rb), ((ps.map (fun p => p.1)).headD 0 + t.rb - 1, 1)]) = qs
        split
        · exact (h.engineError _ _ _ _ _ _ _).trans hs2
        · generalize (if anyHome then [] else [((ps.map (fun p => p.1)).headD 0, t.rb)]) = rs
          split
          · exact hs2
          · exact hs2

theorem AgentFrame.rowPlaces (s : State) (x : Work) (t : ETable) (l : EList) (kinds : List Nat) (anyHome : Bool) :
    φ (s.rowPlaces x t l kinds anyHome).state = φ s := by
  refine keeps_engMap (fun k e u => ?_) 0 l.ents s
  split
  · rfl
  · split
    · rfl
    · exact h.rowPlaceFor u _ t kinds anyHome k e.1

theorem AgentFrame.tableList (s : State) (x : Work) (kinds : List Nat) (anyHome : Bool) : φ (s.tableList x kinds anyHome).state = φ s :=
  keeps_andThen (h.eTable s x) (fun t u _ => keeps_andThen (h.eList u x) (fun l v _ => keeps_andThen (h.rowPlaces v x t l kinds anyHome)
    (fun _ _ _ => rfl)))

theorem AgentFrame.recordPut (s : State) (x : Work) (bs : List Byte) : φ (s.recordPut x bs).state = φ s := by
  unfold State.recordPut
  dsimp only
  split
  · rfl
  · split
    · split
      · rfl
      · exact h.pput s _ _ bs
    · exact h.pput s _ _ bs

omit h in
theorem keeps_of_ok {α : Type} {s t : State} {x : EngR α} {a : α} (hx : φ x.state = φ s) (hok : x = .ok a t) : φ t = φ s := by
  rw [hok] at hx
  exact hx

omit h in
theorem keeps_of_fail {α : Type} {s t : State} {x : EngR α} {c k : Nat} {va : Word} (hx : φ x.state = φ s) (hfail : x = .fail c k va t) :
    φ t = φ s := by
  rw [hfail] at hx
  exact hx

end Accesses

end Sys2Proof.Machine
end

