-- ==== Sys2Proof/Proofs/EmbedWork.lean ====
section
/-! PROOFS. The work of the packets that leave a record, and the index engine's among them (R285 to R290, R293). -/
namespace Sys2Proof.Machine

/-! ### Packets with a record -/

theorem embedDone_rows_cyc (ctx : Nat) (l : List (Nat × List Byte)) (s : State) : (l.foldl (fun s p => s.rowWrite ctx p.1 p.2) s).cyc = s.cyc := by
  refine foldl_state_keeps (φ := State.cyc) _ (fun s p => ?_) l s
  unfold State.rowWrite
  dsimp only
  split <;> exact (homeWrite_wrote _ _ _).cyc

/-- The packet as it ends with its record. -/
theorem workEnds_of_embed {s t : State} {i : Instr} {w : Nat} {x : Work} {e : Effect} (hexec : exec i s = .next (t.embedDone w x e)) (hcyc : t.cyc = s.cyc) :
    s.WorkEnds i w x e.cause e.out e.posts := by
  unfold State.embedDone at hexec
  refine workEnds_of_done hexec ?_ rfl rfl rfl
  split
  · exact hcyc
  · exact (embedDone_rows_cyc _ _ _).trans hcyc

section Embed

variable {s : State} {w : Nat} {x : Work} {name : String} {kinds : Work → Bool} {body : Work → State → EngR Res} {after : Work → State → State} {i : Instr}

theorem lateCard_of_working (h : s.Working w x) : s.lateCard x = x := by
  obtain ⟨-, -, -, -, -, hcard, -⟩ := h
  rw [State.lateCard]
  cases hc : isCard x.pkt with
  | true => simp [hcard hc]
  | false => rfl

theorem listBusy_of_not_onList (hlist : onList x.pkt = false) : s.listBusy w x = false := by
  rw [State.listBusy, hlist]; rfl

theorem doEmbed_working (h : s.Working w x) (hkind : kinds x = true) (hbusy : s.listBusy w x = false) :
    s.doEmbed w kinds body after = match s.withRecord x body with
      | .ok e t => some ((if e.cause = 0 then after x t else t).embedDone w x e)
      | .wait t => some (if onList x.pkt then t.setWork w { x with joined := true } else t)
      | .stand v t => some (t.setWork w { x with wait := v })
      | .fail cause run va t => some (t.workDone w x (failEffect x cause run va)) := by
  have hready := workReady_of_working h
  have hlate := lateCard_of_working h
  obtain ⟨hfind, -, -, -, hwait, -, -, hdesc, -⟩ := h
  rw [State.doEmbed, hfind]
  dsimp only
  rw [hlate, hdesc, hkind, hready, hbusy, hwait]
  rfl

theorem withRecord_ok (h : s.Working w x) {r : Res} {s1 s2 : State} {wr : Writes} (hbody : body x s = .ok r s1)
    (hrec : s1.recordPut x (recordBytes r.count r.flags 0 r.hits) = .ok wr s2) : s.withRecord x body =
      .ok { out := r.writes.1 ++ wr.1, posts := r.writes.2 ++ wr.2, frames := r.rows, cause := 0, errstat := 0, erraddr := 0 } s2 := by
  obtain ⟨-, -, -, hcause, hwait, -⟩ := h
  rw [State.withRecord]
  dsimp only
  rw [if_neg (not_not_intro hcause), hwait]
  dsimp only
  rw [hbody]
  dsimp only
  rw [hrec]

theorem withRecord_fail (h : s.Working w x) {cause run : Nat} {va : Word} {s1 s2 : State} {wr : Writes} (hbody : body x s = .fail cause run va s1)
    (hrec : s1.recordPut x (recordBytes 0 0 cause 0) = .ok wr s2) : ∃ st, s.withRecord x body =
      .ok { out := wr.1, posts := wr.2, frames := [], cause := cause, errstat := st, erraddr := va } s2 := by
  obtain ⟨-, -, -, hcause, hwait, -⟩ := h
  refine ⟨if x.cause ≠ 0 then 0 else engStatus (pKind x.pkt) 0 run, ?_⟩
  rw [State.withRecord]
  dsimp only
  rw [if_neg (not_not_intro hcause), hwait]
  dsimp only
  rw [hbody]
  dsimp only
  rw [State.recordPutAny, hrec]
  rfl

variable (h : s.Working w x) (hexec : exec i s = event name (s.doEmbed w kinds body after)) (hkind : kinds x = true) (hbusy : s.listBusy w x = false)
include h hexec hkind hbusy

/-- The state that a packet leaves whose work succeeds. -/
theorem exec_embed_ok {r : Res} {s1 s2 : State} {wr : Writes} (hbody : body x s = .ok r s1)
    (hrec : s1.recordPut x (recordBytes r.count r.flags 0 r.hits) = .ok wr s2) :
    exec i s = .next ((after x s2).embedDone w x
      { out := r.writes.1 ++ wr.1, posts := r.writes.2 ++ wr.2, frames := r.rows, cause := 0, errstat := 0, erraddr := 0 }) := by
  rw [hexec, event_next, doEmbed_working h hkind hbusy, withRecord_ok h hbody hrec]
  dsimp only
  rw [if_pos rfl]

/-- A packet whose work succeeds ends with its writes and its record. -/
theorem embed_places (hafter : ∀ t, (after x t).cyc = t.cyc) {r : Res} {s1 : State} (hbody : body x s = .ok r s1) (hcyc : s1.cyc = s.cyc) :
    s.WorkPlaces i w x s1 r.writes r.count r.flags r.hits := by
  intro wr s2 hrec
  have ht := keeps_of_ok (agentFrame_cyc.recordPut s1 x _) hrec
  exact workEnds_of_embed (exec_embed_ok h hexec hkind hbusy hbody hrec) ((hafter s2).trans (ht.trans hcyc))

/-- A packet whose work fails ends with its record alone. -/
theorem embed_fails (hafter : ∀ t, (after x t).cyc = t.cyc) {cause run : Nat} {va : Word} {s1 : State} (hbody : body x s = .fail cause run va s1)
    (hcyc : s1.cyc = s.cyc) : s.WorkFails i w x cause s1 := by
  intro wr s2 hrec
  have ht := keeps_of_ok (agentFrame_cyc.recordPut s1 x _) hrec
  obtain ⟨st, hrecord⟩ := withRecord_fail (body := body) h hbody hrec
  refine workEnds_of_embed (t := if cause = 0 then after x s2 else s2)
    (e := { out := wr.1, posts := wr.2, frames := [], cause := cause, errstat := st, erraddr := va }) ?_ ?_
  · rw [hexec, event_next, doEmbed_working h hkind hbusy, hrecord]
  · split
    · exact (hafter s2).trans (ht.trans hcyc)
    · exact ht.trans hcyc

end Embed

theorem andThen_fail {α β : Type} {x : EngR α} (f : α → State → EngR β) {c k : Nat} {va : Word} {t : State} (h : x = .fail c k va t) :
    x.andThen f = .fail c k va t := by
  rw [h]; rfl

theorem andThen_of_ok {α β : Type} {x : EngR α} (f : α → State → EngR β) {a : α} {t : State} (h : x = .ok a t) : x.andThen f = f a t := by
  rw [h]; rfl

/-! ### Feeding the sketch -/

theorem feedRow_eq (s : State) (die ctx : Nat) (t : ETable) (row home : Nat) : ∃ ds fl, s.feedRow die ctx t row home = { s with dies := ds, fills := fl } := by
  unfold State.feedRow
  dsimp only
  split
  · exact ⟨_, _, rfl⟩
  · exact ⟨_, s.fills, rfl⟩

theorem feedAll_cyc (x : Work) (s : State) : (feedAll x s).cyc = s.cyc := by
  unfold feedAll
  split
  · next hlist =>
    refine Eq.trans ?_ (keeps_of_ok (agentFrame_cyc.tableList s x [0] false) hlist)
    refine foldl_state_keeps (φ := State.cyc) _ (fun s p => ?_) _ _
    obtain ⟨_, _, h⟩ := feedRow_eq s (dieOf (State.workAgent _ x).core) x.ctx _ p.1 p.2
    rw [h]
  · rfl

/-! ### The length of what is read -/

theorem length_pageParts (fuel va n : Nat) : ((pageParts fuel va n).map (fun p => p.2)).sum ≤ n := by
  induction fuel generalizing va n with
  | zero => exact Nat.zero_le n
  | succ f ih =>
    rw [pageParts]
    split
    · exact Nat.zero_le n
    · have hk : Nat.min n (4096 - va % 4096) ≤ n := Nat.min_le_left _ _
      have := ih (va + Nat.min n (4096 - va % 4096)) (n - Nat.min n (4096 - va % 4096))
      simp only [List.map_cons, List.sum_cons]
      omega

theorem lengths_translateAll {agent ctx kind : Nat} {root : Word} {down : Bool} (l : List (Nat × Nat)) {s t : State} {ps : List (Nat × Nat)}
    (h : s.translateAll agent ctx root kind down l = .ok (ps, t)) : ps.map (fun p => p.2) = l.map (fun p => p.2) := by
  induction l generalizing s ps with
  | nil => cases h; rfl
  | cons p r ih =>
    obtain ⟨va, n⟩ := p
    rw [State.translateAll] at h
    split at h
    · cases h
    · split at h <;> cases h
      next hr => rw [List.map_cons, List.map_cons, ih hr]

theorem length_demand {s t : State} {agent ctx kind n : Nat} {va : Word} {down : Bool} {ps : List (Nat × Nat)}
    (h : s.demand agent ctx kind down va n = .ok (ps, t)) : (ps.map (fun p => p.2)).sum ≤ n := by
  unfold State.demand at h
  dsimp only at h
  split at h
  · cases h
  · rw [lengths_translateAll _ h]
    exact length_pageParts _ _ n

theorem length_reach {s t : State} {g : Agent} {kind n : Nat} {va : Word} {ps : List (Nat × Nat)} (h : s.reach g kind va n = .ok ps t) :
    (ps.map (fun p => p.2)).sum ≤ n := by
  unfold State.reach at h
  split at h
  · cases h
  · split at h
    · cases h
    · dsimp only at h
      split at h
      · cases h
      · cases h
      · next hr =>
        split at h
        · cases h
        · generalize (if 1024 ≤ g.id then some (g.id - 1024) else none) = own at h
          split at h <;> cases h
          split at hr
          · unfold State.engineAccess at hr
            dsimp only at hr
            split at hr
            · cases hr
            · split at hr
              · next hd =>
                split at hr <;> cases hr
                exact length_demand hd
              · split at hr <;> cases hr
          · unfold State.frontAccess at hr
            dsimp only at hr
            split at hr
            · cases hr
            · split at hr
              · next hd => cases hr; exact length_demand hd
              · split at hr
                · cases hr
                · split at hr <;> cases hr

theorem length_readParts {s t : State} {agent ctx : Nat} (ps : List (Nat × Nat)) {bs : List Byte} (h : s.readParts agent ctx ps = .ok bs t) :
    bs.length ≤ (ps.map (fun p => p.2)).sum := by
  induction ps generalizing bs with
  | nil => cases h; exact Nat.le_refl 0
  | cons p r ih =>
    obtain ⟨pa, n⟩ := p
    have hmore : ∀ x : List Byte, x.length ≤ n → ∀ y, (match s.readParts agent ctx r with
        | .ok b s' => ERead.ok (x ++ b) s'
        | e => e) = ERead.ok y t → y.length ≤ n + (r.map (fun p => p.2)).sum := by
      intro x hx y hxy
      split at hxy
      · next hr =>
        cases hxy
        rw [List.length_append]
        exact Nat.add_le_add hx (ih hr)
      · next hne => exact absurd hxy (hne _ _)
    rw [State.readParts] at h
    dsimp only at h
    rw [List.map_cons, List.sum_cons]
    split at h
    · cases h
    · exact hmore _ (by rw [State.homeBytes, List.length_map, length_upTo]) _ h
    · split at h
      · split at h
        · cases h
        · exact hmore _ (List.length_take_le _ _) _ h
      · split at h <;> cases h

theorem length_gread {s t : State} {g : Agent} {n : Nat} {va : Word} {bs : List Byte} (h : s.gread g va n = .ok bs t) : bs.length ≤ n := by
  obtain ⟨ps, u, hr, hp⟩ := andThen_ok.mp h
  unfold State.takeParts at hp
  split at hp
  · next hread => cases hp; exact (length_readParts ps hread).trans (length_reach hr)
  · cases hp
  · cases hp

theorem length_pread {s t : State} {x : Work} {n : Nat} {p : Word} {bs : List Byte} (h : s.pread x p n = .ok bs t) : bs.length ≤ n := by
  unfold State.pread at h
  split at h
  · cases h; exact Nat.zero_le n
  · split at h
    · dsimp only at h
      split at h <;> cases h
      simp [Core.bytes]
    · exact length_gread h

theorem length_piecesAux_le {α : Type} (n k fuel : Nat) (l : List α) (h : l.length ≤ n * k) : (piecesAux n fuel l).length ≤ k := by
  induction fuel generalizing l k with
  | zero => exact Nat.zero_le k
  | succ f ih =>
    match l, h with
    | [], _ => exact Nat.zero_le k
    | a :: r, h =>
      obtain ⟨k, rfl⟩ : ∃ m, k = m + 1 := by
        refine ⟨k - 1, ?_⟩
        rcases k with _ | k
        · simp at h
        · rfl
      have hdrop : ((a :: r).drop n).length ≤ n * k := by
        rw [List.length_drop]
        rw [Nat.mul_succ] at h
        omega
      exact Nat.succ_le_succ (ih k _ hdrop)

/-- A list has no more entries than its header counts. -/
theorem length_eList {s t : State} {x : Work} {l : EList} (h : s.eList x = .ok l t) : l.ents.length ≤ l.n := by
  unfold State.eList at h
  dsimp only at h
  split at h
  · cases h
  · obtain ⟨hb, u, -, h⟩ := andThen_ok.mp h
    split at h
    · cases h
    · obtain ⟨bs, v, hbs, h⟩ := andThen_ok.mp h
      cases h
      rw [List.length_map, List.length_map]
      exact length_piecesAux_le 8 _ _ bs (length_pread hbs)

/-! ### Distinct rows in order -/

theorem mem_nubBy_beq {l : List Nat} {a : Nat} : a ∈ nubBy (fun a b => a == b) l ↔ a ∈ l := by
  induction l with
  | nil => exact Iff.rfl
  | cons b r ih =>
    rw [nubBy, List.mem_cons, List.mem_filter, ih, List.mem_cons]
    by_cases hab : a = b
    · simp [hab]
    · simp [hab, Ne.symm hab]

theorem nodup_nubBy_beq (l : List Nat) : (nubBy (fun a b => a == b) l).Nodup := by
  induction l with
  | nil => exact List.nodup_nil
  | cons b r ih =>
    rw [nubBy, List.nodup_cons]
    refine ⟨fun h => ?_, ih.filter _⟩
    have := (List.mem_filter.mp h).2
    simp at this

theorem pairwise_insert_lt {x : Nat} {l : List Nat} (h : l.Pairwise (fun a b => a < b)) (hx : x ∉ l) :
    (insertBy (fun a b => decide (a ≤ b)) x l).Pairwise (fun a b => a < b) := by
  induction l with
  | nil => exact List.pairwise_singleton _ _
  | cons a r ih =>
    obtain ⟨ha, hr⟩ := List.pairwise_cons.mp h
    rw [List.mem_cons, not_or] at hx
    rw [insertBy]
    split
    · next hle =>
      refine List.pairwise_cons.mpr ⟨fun y hy => ?_, ih hr hx.2⟩
      have hle' := of_decide_eq_true hle
      rcases (mem_insertBy _ _ _ _).mp hy with rfl | hy
      · omega
      · exact ha y hy
    · next hle =>
      have hlt : x < a := Nat.lt_of_not_le (fun h => hle (decide_eq_true h))
      exact List.pairwise_cons.mpr ⟨fun y hy => (List.mem_cons.mp hy).elim (fun h => h ▸ hlt) (fun h => lt_trans hlt (ha y h)), h⟩

theorem sortBy_le_spec (l acc : List Nat) (hacc : acc.Pairwise (fun a b => a < b)) (hnodup : l.Nodup) (hdisj : ∀ a ∈ l, a ∉ acc) :
    (l.foldl (fun acc x => insertBy (fun a b => decide (a ≤ b)) x acc) acc).Pairwise (fun a b => a < b) ∧
      ∀ a, a ∈ l.foldl (fun acc x => insertBy (fun a b => decide (a ≤ b)) x acc) acc ↔ a ∈ l ∨ a ∈ acc := by
  induction l generalizing acc with
  | nil => exact ⟨hacc, fun a => by simp⟩
  | cons b r ih =>
    obtain ⟨hb, hr⟩ := List.nodup_cons.mp hnodup
    rw [List.foldl_cons]
    obtain ⟨hp, hm⟩ := ih _ (pairwise_insert_lt hacc (hdisj b (List.mem_cons_self ..))) hr (fun a ha hin => by
      rcases (mem_insertBy _ _ _ _).mp hin with rfl | hin
      · exact hb ha
      · exact hdisj a (List.mem_cons_of_mem _ ha) hin)
    refine ⟨hp, fun a => ?_⟩
    rw [hm, mem_insertBy, List.mem_cons]
    tauto

/-- The distinct members of a list in rising order are one list. -/
theorem sorted_nub_eq {l us : List Nat} (hus : us.Pairwise (fun a b => a < b)) (hmem : ∀ r, r ∈ us ↔ r ∈ l) :
    sortBy (fun a b => decide (a ≤ b)) (nubBy (fun a b => a == b) l) = us := by
  obtain ⟨hp, hm⟩ := sortBy_le_spec (nubBy (fun a b => a == b) l) [] List.Pairwise.nil (nodup_nubBy_beq l) (fun _ _ h => by cases h)
  refine hp.eq_of_mem_iff hus (fun a => ?_)
  rw [hm, mem_nubBy_beq, hmem]
  simp

end Sys2Proof.Machine
end

