-- ==== Sys2Proof/Proofs/IndexEngine.lean ====
section
/-! PROOFS. The index engine: the descriptor's read, gather, scatter, dedup and bucket (R285, R287, R293). -/
namespace Sys2Proof.Machine

section IndexPackets

variable {s : State} {w : Nat} {x : Work}

theorem listBusy_of_kind {k : Nat} (hkind : pKind x.pkt = k) (hk : k < 0x14 ∨ 0x16 < k) : s.listBusy w x = false := by
  refine listBusy_of_not_onList ?_
  rw [onList, hkind, Bool.and_eq_false_iff, decide_eq_false_iff_not, decide_eq_false_iff_not]
  omega

/-! ### The descriptor -/

theorem readDesc_reads {bs : List Byte} {t : State} (hwait : x.wait = .go) (hreqs : ∀ r ∈ s.dom.reqs, r.core ≠ 128 + (1024 + x.q))
    (hread : s.gread (s.workAgent x) ((descVa x.pkt).getD 0) 64 = .ok bs t) :
    s.readDesc w x = some ((t.forgetData (1024 + x.q)).setWork w { x with buf := bs, wait := .go }) := by
  rw [State.readDesc, no_request hreqs, if_neg Bool.false_ne_true, resume_go hwait, hread]

theorem doEmbed_reads {kinds : Work → Bool} {body : Work → State → EngR Res} {after : Work → State → State} (hfind : mfind s.works w = some x)
    (hlate : s.lateCard x = x) (hdesc : x.needsDesc = true) (hkind : kinds x = true) : s.doEmbed w kinds body after = s.readDesc w x := by
  rw [State.doEmbed, hfind]
  dsimp only
  rw [hlate, hkind, hdesc]
  rfl

theorem indexPacket_reads {i : Instr} {bs : List Byte} {t : State}
    (hi : (i, pKind x.pkt) ∈ [(Instr.indexGather w, 0x10), (.indexScatter w, 0x11), (.indexBucket w, 0x13)]) (hfind : mfind s.works w = some x)
    (hlate : s.lateCard x = x) (hdesc : x.needsDesc = true) (hwait : x.wait = .go) (hreqs : ∀ r ∈ s.dom.reqs, r.core ≠ 128 + (1024 + x.q))
    (hread : s.gread (s.workAgent x) (pBody x.pkt 0) 64 = .ok bs t) :
    ∃ u, exec i s = .next u ∧ mfind u.works w = some { x with buf := bs } ∧ u.mem = t.mem := by
  have hva : ∀ k, k = 0x10 ∨ k = 0x11 ∨ k = 0x13 → pKind x.pkt = k → descVa x.pkt = some (pBody x.pkt 0) := by
    rintro k (rfl | rfl | rfl) hk <;> rw [descVa, hk] <;> rfl
  have hreads : descVa x.pkt = some (pBody x.pkt 0) → s.readDesc w x = some ((t.forgetData (1024 + x.q)).setWork w { x with buf := bs, wait := .go }) :=
    fun h => readDesc_reads hwait hreqs (by rw [h]; exact hread)
  refine ⟨(t.forgetData (1024 + x.q)).setWork w { x with buf := bs, wait := .go }, ?_, (mfind_mset ..).trans ((if_pos rfl).trans (by rw [hwait])), rfl⟩
  simp only [List.mem_cons, Prod.mk.injEq, List.not_mem_nil, or_false] at hi
  obtain ⟨rfl, hk⟩ | ⟨rfl, hk⟩ | ⟨rfl, hk⟩ := hi
  · rw [show exec (.indexGather w) s = execIndexGather w s from rfl, execIndexGather, event_next,
      doEmbed_reads hfind hlate hdesc (by rw [hk]; rfl), hreads (hva _ (Or.inl rfl) hk)]
  · rw [show exec (.indexScatter w) s = execIndexScatter w s from rfl, execIndexScatter, event_next,
      doEmbed_reads hfind hlate hdesc (by rw [hk]; rfl), hreads (hva _ (Or.inr (Or.inl rfl)) hk)]
  · rw [show exec (.indexBucket w) s = execIndexBucket w s from rfl, execIndexBucket, event_next,
      doEmbed_reads hfind hlate hdesc (by rw [hk]; rfl), hreads (hva _ (Or.inr (Or.inr rfl)) hk)]

/-! ### Gather -/

theorem gatherActs (h : s.Working w x) (hkind : pKind x.pkt = 0x10) :
    (∀ cause k va s1, s.tableList x [0] false = .fail cause k va s1 → s.WorkFails (.indexGather w) w x cause s1) ∧
    ∀ t l hs s1, s.tableList x [0] false = .ok (t, l, hs) s1 →
      let rows := (rowsOf l hs).map (fun p => s1.rowBytesNow x.ctx t p.1 p.2)
      ∀ wr s2, s1.pput x (pBody x.pkt 2) (rows.flatMap (fun r => r.1 ++ List.replicate ((t.rb + 7) / 8 * 8 - t.rb) 0)) = .ok wr s2 →
        s.WorkPlaces (.indexGather w) w x s2 wr l.n 0 (rows.filter (fun r => r.2)).length := by
  have hexec : exec (.indexGather w) s = event "INDEX_GATHER" (s.doEmbed w (fun x => pKind x.pkt == 0x10) gatherWork feedAll) :=
    show _ = execIndexGather w s from rfl
  have hkind' : (pKind x.pkt == 0x10) = true := by rw [hkind]; rfl
  have hbusy := listBusy_of_kind (s := s) (w := w) hkind (by decide)
  constructor
  · intro cause k va s1 hfail
    exact embed_fails h hexec hkind' hbusy (feedAll_cyc x) (andThen_fail _ hfail) (keeps_of_fail (agentFrame_cyc.tableList s x _ _) hfail)
  · intro t l hs s1 hlist rows wr s2 hput
    refine embed_places h hexec hkind' hbusy (feedAll_cyc x)
      (r := { writes := wr, rows := [], count := l.n, flags := 0, hits := (rows.filter (fun r => r.2)).length }) ?_ ?_
    · rw [gatherWork, andThen_of_ok _ hlist]
      exact andThen_of_ok _ hput
    · exact (keeps_of_ok (agentFrame_cyc.pput s1 x _ _) hput).trans (keeps_of_ok (agentFrame_cyc.tableList s x _ _) hlist)

/-! ### Scatter -/

theorem keeps_scatterReads {β : Type} {φ : State → β} (hφ : AgentFrame φ) (place : Word) (pad rb : Nat) (l : List (Nat × Nat)) (s : State) :
    φ (engMap (fun k (_ : Nat × Nat) s => (State.pread s x (place + BitVec.ofNat 64 (k * pad)) rb).at k) 0 l s).state = φ s :=
  keeps_engMap (fun k _ u => (congrArg φ (state_at _ k)).trans (hφ.pread u x _ _)) 0 l s

theorem scatterActs (h : s.Working w x) (hkind : pKind x.pkt = 0x11) :
    (∀ cause k va s1, s.tableList x [1] false = .fail cause k va s1 → s.WorkFails (.indexScatter w) w x cause s1) ∧
    ∀ t l hs s1, s.tableList x [1] false = .ok (t, l, hs) s1 →
      let pad := (t.rb + 7) / 8 * 8
      ∀ bs s2 r s3, engMap (fun k _ s => (s.pread x (pBody x.pkt 2 + BitVec.ofNat 64 (k * pad)) t.rb).at k) 0 l.ents s1 = .ok bs s2 →
        s2.recordPut x (recordBytes l.n 0 0 0) = .ok r s3 →
        let rows := ((rowsOf l hs).zip bs).map (fun p => (rowKey t.tid p.1.1 p.1.2, p.2))
        s.WorkEnds (.indexScatter w) w x 0 r.1 r.2 ∧
        ∃ u y, exec (.indexScatter w) s = .next u ∧ mfind u.works w = some y ∧ y.frames = rows ∧
          (pCard x.pkt = false → r = ([], []) → u.mem = (rows.foldl (fun s p => s.rowWrite x.ctx p.1 p.2) s3).mem) ∧
          (pCard x.pkt = true → u.mem = s.mem) := by
  have hexec : exec (.indexScatter w) s = event "INDEX_SCATTER" (s.doEmbed w (fun x => pKind x.pkt == 0x11) scatterWork (fun _ s => s)) :=
    show _ = execIndexScatter w s from rfl
  have hkind' : (pKind x.pkt == 0x11) = true := by rw [hkind]; rfl
  have hbusy := listBusy_of_kind (s := s) (w := w) hkind (by decide)
  have hcardKind : isCard x.pkt = pCard x.pkt := by rw [isCard, hkind]; simp [cardKind]
  constructor
  · intro cause k va s1 hfail
    exact embed_fails h hexec hkind' hbusy (fun _ => rfl) (andThen_fail _ hfail) (keeps_of_fail (agentFrame_cyc.tableList s x _ _) hfail)
  intro t l hs s1 hlist pad bs s2 r s3 hread hrec rows
  have hbody : scatterWork x s = .ok { writes := ([], []), rows := rows, count := l.n, flags := 0, hits := 0 } s2 := by
    rw [scatterWork, andThen_of_ok _ hlist]
    exact andThen_of_ok _ hread
  have hend := exec_embed_ok h hexec hkind' hbusy hbody hrec
  have hframe : ∀ {β : Type} {φ : State → β}, AgentFrame φ → φ s3 = φ s := fun hφ =>
    ((keeps_of_ok (hφ.recordPut s2 x _) hrec).trans (keeps_of_ok (keeps_scatterReads hφ _ _ _ _ s1) hread)).trans
      (keeps_of_ok (hφ.tableList s x _ _) hlist)
  refine ⟨workEnds_of_embed hend (hframe agentFrame_cyc), ?_⟩
  obtain ⟨y, hfind, hy, -⟩ := find_workDone (if isCard x.pkt then s3 else rows.foldl (fun s p => s.rowWrite x.ctx p.1 p.2) s3) w x
    { out := ([] : List (Nat × List Byte)) ++ r.1, posts := [] ++ r.2, frames := rows, cause := 0, errstat := 0, erraddr := 0 }
  refine ⟨_, y, hend, hfind, by rw [hy], fun hcard hr => ?_, fun hcard => ?_⟩
  · unfold State.embedDone State.workDone
    dsimp only
    rw [hcardKind, hcard, if_neg Bool.false_ne_true, if_neg Bool.false_ne_true, hr, performWork_nothing _ rfl rfl]
    rfl
  · unfold State.embedDone State.workDone
    dsimp only
    rw [hcardKind, hcard, if_pos rfl, if_pos rfl]
    exact hframe agentFrame_mem

/-! ### Dedup -/

theorem dedup_noWeights {l : EList} (h : ∀ e ∈ l.ents, e.2 = 0) : (l.ents.zip (upTo 0 l.n)).find? (fun p => decide (p.1.2 ≠ 0)) = none := by
  refine List.find?_eq_none.mpr (fun p hp => ?_)
  simp [h p.1 (List.of_mem_zip hp).1]

theorem find_zip_isSome {α : Type} {l : List α} {n : Nat} {p : α × Nat → Bool} (hlen : l.length ≤ n) {a : α} (ha : a ∈ l) (hp : ∀ k, p (a, k) = true) :
    ∃ q, (l.zip (upTo 0 n)).find? p = some q := by
  obtain ⟨k, hk, rfl⟩ := List.getElem_of_mem ha
  refine Option.isSome_iff_exists.mp (List.find?_isSome.mpr ⟨(l[k], k), ?_, hp k⟩)
  refine List.mem_iff_getElem.mpr ⟨k, ?_, ?_⟩
  · rw [List.length_zip, length_upTo]
    exact lt_min hk (lt_of_lt_of_le hk hlen)
  · rw [List.getElem_zip, getElem_upTo, Nat.zero_add]

theorem dedupActs (h : s.Working w x) (hkind : pKind x.pkt = 0x12) :
    (∀ cause k va s1, s.eList x = .fail cause k va s1 → s.WorkFails (.indexDedup w) w x cause s1) ∧
    ∀ l s1, s.eList x = .ok l s1 →
      ((∃ e ∈ l.ents, e.2 ≠ 0) → s.WorkFails (.indexDedup w) w x 0x77 s1) ∧
      ∀ us : List Nat, (∀ e ∈ l.ents, e.2 = 0) → us.Pairwise (fun a b => a < b) → (∀ r, r ∈ us ↔ ∃ e ∈ l.ents, e.1 = r) →
        ∀ wr s2 pos s3, s1.pput x (pBody x.pkt 2) (leBytes 8 us.length ++
            us.flatMap (fun r => leBytes 8 (r + (l.ents.filter (fun e => e.1 == r)).length * 2 ^ 32))) = .ok wr s2 →
          s2.pput x (pBody x.pkt 2 + BitVec.ofNat 64 (8 + 8 * l.n)) (l.ents.flatMap (fun e => leBytes 4 (us.findIdx (fun y => y == e.1)))) = .ok pos s3 →
          s.WorkPlaces (.indexDedup w) w x s3 (joinWrites [wr, pos]) us.length 0 0 := by
  have hexec : exec (.indexDedup w) s = event "INDEX_DEDUP" (s.doEmbed w (fun x => pKind x.pkt == 0x12) dedupWork (fun _ s => s)) :=
    show _ = execIndexDedup w s from rfl
  have hkind' : (pKind x.pkt == 0x12) = true := by rw [hkind]; rfl
  have hbusy := listBusy_of_kind (s := s) (w := w) hkind (by decide)
  refine ⟨fun cause k va s1 hfail => ?_, fun l s1 hlist => ⟨fun hweight => ?_, fun us hweights hrise hmem wr s2 pos s3 hput hpos => ?_⟩⟩
  · exact embed_fails h hexec hkind' hbusy (fun _ => rfl) (andThen_fail _ hfail) (keeps_of_fail (agentFrame_cyc.eList s x) hfail)
  · obtain ⟨e, he, hne⟩ := hweight
    obtain ⟨q, hq⟩ := find_zip_isSome (p := fun p : (Nat × Nat) × Nat => decide (p.1.2 ≠ 0)) (length_eList hlist) he (fun _ => decide_eq_true hne)
    refine embed_fails h hexec hkind' hbusy (fun _ => rfl) (run := q.2) (va := 0) ?_ (keeps_of_ok (agentFrame_cyc.eList s x) hlist)
    rw [dedupWork, andThen_of_ok _ hlist]
    dsimp only
    rw [hq]
  · have hsorted : sortBy (fun a b => decide (a ≤ b)) (nubBy (fun a b => a == b) (l.ents.map (fun e => e.1))) = us := by
      refine sorted_nub_eq hrise (fun r => ?_)
      rw [hmem, List.mem_map]
    have hcount : ∀ r, ((l.ents.map (fun e => e.1)).filter (fun y => y == r)).length = (l.ents.filter (fun e => e.1 == r)).length := by
      intro r
      rw [List.filter_map, List.length_map]
      rfl
    refine embed_places h hexec hkind' hbusy (fun _ => rfl)
      (r := { writes := joinWrites [wr, pos], rows := [], count := us.length, flags := 0, hits := 0 }) ?_ ?_
    · rw [dedupWork, andThen_of_ok _ hlist]
      dsimp only
      rw [dedup_noWeights hweights]
      dsimp only
      rw [hsorted]
      simp only [hcount, List.flatMap_map]
      exact (andThen_of_ok _ hput).trans (andThen_of_ok _ hpos)
    · exact ((keeps_of_ok (agentFrame_cyc.pput s2 x _ _) hpos).trans (keeps_of_ok (agentFrame_cyc.pput s1 x _ _) hput)).trans
        (keeps_of_ok (agentFrame_cyc.eList s x) hlist)

/-! ### Bucket -/

theorem bucketActs (h : s.Working w x) (hkind : pKind x.pkt = 0x13) :
    (∀ cause k va s1, s.tableList x [0] true = .fail cause k va s1 → s.WorkFails (.indexBucket w) w x cause s1) ∧
    ∀ t l hs s1, s.tableList x [0] true = .ok (t, l, hs) s1 →
      let es := ((l.ents.zip hs).zip (upTo 0 l.n)).map (fun p => (bucketOf p.1.2, p.1.1, p.2))
      let inB (b : Nat) := es.filter (fun e => decide (e.1 = b))
      ∀ wr s2, s1.pput x (pBody x.pkt 2) ((upTo 0 10).flatMap (fun b => leBytes 4 (inB b).length) ++
          (upTo 0 10).flatMap (fun b => (inB b).flatMap (fun e => leBytes 8 (e.2.1.1 + e.2.1.2 * 2 ^ 32))) ++
          (upTo 0 10).flatMap (fun b => (inB b).flatMap (fun e => leBytes 4 e.2.2))) = .ok wr s2 →
        s.WorkPlaces (.indexBucket w) w x s2 wr l.n 0 0 := by
  have hexec : exec (.indexBucket w) s = event "INDEX_BUCKET" (s.doEmbed w (fun x => pKind x.pkt == 0x13) bucketWork (fun _ s => s)) :=
    show _ = execIndexBucket w s from rfl
  have hkind' : (pKind x.pkt == 0x13) = true := by rw [hkind]; rfl
  have hbusy := listBusy_of_kind (s := s) (w := w) hkind (by decide)
  constructor
  · intro cause k va s1 hfail
    exact embed_fails h hexec hkind' hbusy (fun _ => rfl) (andThen_fail _ hfail) (keeps_of_fail (agentFrame_cyc.tableList s x _ _) hfail)
  · intro t l hs s1 hlist es inB wr s2 hput
    refine embed_places h hexec hkind' hbusy (fun _ => rfl) (r := { writes := wr, rows := [], count := l.n, flags := 0, hits := 0 }) ?_ ?_
    · rw [bucketWork, andThen_of_ok _ hlist]
      refine andThen_of_ok _ ?_
      simp only [List.flatMap_map]
      exact hput
    · exact (keeps_of_ok (agentFrame_cyc.pput s1 x _ _) hput).trans (keeps_of_ok (agentFrame_cyc.tableList s x _ _) hlist)

end IndexPackets

theorem indexPacketsDoTheirWork : Claims.IndexPacketsDoTheirWork := by
  refine ⟨fun s w x i bs t hi hfind hlate hdesc hwait hreqs hread => indexPacket_reads hi hfind hlate hdesc hwait hreqs hread, fun s w x h => ?_⟩
  exact ⟨gatherActs h, scatterActs h, dedupActs h, bucketActs h⟩

end Sys2Proof.Machine
end

