-- ==== Sys2Proof/Proofs/WorkLists.lean ====
section
/-! PROOFS. Work-lists: pushes, deduplicating pushes and pops (R294, R295). -/
namespace Sys2Proof.Machine

/-! ### Pieces of work on lists -/

theorem engMap_congr {α β : Type} {f g : Nat → α → State → EngR β} {l : List α} (h : ∀ a ∈ l, ∀ i s, f i a s = g i a s) (i : Nat) (s : State) :
    engMap f i l s = engMap g i l s := by
  induction l generalizing i s with
  | nil => rfl
  | cons a r ih =>
    rw [engMap, engMap, h a (List.mem_cons_self ..)]
    refine congrArg _ (funext fun b => funext fun t => ?_)
    rw [ih (fun c hc => h c (List.mem_cons_of_mem _ hc))]

/-- What a map holds that bytes were put in, where the bytes agree. -/
theorem mget_foldl_bytes {byte : Nat → Nat} (l : List (Nat × List Byte)) (m : Map Nat) (h : ∀ p ∈ l, leNat p.2 = byte p.1) (b : Nat) :
    mget 0 (l.foldl (fun m p => mset m p.1 (leNat p.2)) m) b = if b ∈ l.map (fun p => p.1) then byte b else mget 0 m b := by
  induction l generalizing m with
  | nil => simp
  | cons p r ih =>
    rw [List.foldl_cons, ih _ (fun q hq => h q (List.mem_cons_of_mem _ hq)), mget_mset, h p (List.mem_cons_self ..), List.map_cons]
    by_cases hb : b = p.1
    · simp [hb]
    · simp only [List.mem_cons, hb, false_or, if_false]

/-- The bits that coordinates set in a byte. -/
theorem mget_foldl_bits (cs : List Nat) (m : Map Nat) (b : Nat) :
    mget 0 (cs.foldl (fun m c => mset m (c / 8) (mget 0 m (c / 8) + 2 ^ (c % 8))) m) b =
      cs.foldl (fun a c => if c / 8 = b then a + 2 ^ (c % 8) else a) (mget 0 m b) := by
  induction cs generalizing m with
  | nil => rfl
  | cons c r ih =>
    rw [List.foldl_cons, ih, mget_mset, List.foldl_cons]
    refine congrArg (fun a => List.foldl _ a r) ?_
    by_cases hb : c / 8 = b
    · rw [if_pos hb.symm, if_pos hb, hb]
    · rw [if_neg (Ne.symm hb), if_neg hb]

section WorkLists

variable {s : State} {w : Nat} {x : Work}

/-! ### What a work-list command leaves -/

section Keeps

variable {β : Type} {φ : State → β} (h : AgentFrame φ)
include h

theorem AgentFrame.wlist (s : State) (x : Work) : φ (s.wlist x).state = φ s := by
  unfold State.wlist
  dsimp only
  split
  · rfl
  · refine keeps_andThen (h.reach s _ 2 _ 64) (fun ps t _ => keeps_andThen (h.takeParts t _ _ ps) (fun bs u _ => ?_))
    split <;> rfl

theorem AgentFrame.pushed (s : State) (x : Work) : φ (s.pushed x).state = φ s := by
  unfold State.pushed
  dsimp only
  split
  · rfl
  · exact keeps_andThen (h.pread s x _ _) (fun _ _ _ => rfl)

theorem AgentFrame.appendList (s : State) (x : Work) (l : WList) (cs : List Nat) : φ (s.appendList x l cs).state = φ s :=
  keeps_andThen (keeps_engMap (fun _ _ u => h.gput u x _ _) 0 cs s) (fun _ t _ => keeps_andThen (h.gput t x _ _) (fun _ _ _ => rfl))

end Keeps

/-! ### Pushes -/

variable (h : s.Working w x) (hbusy : s.listBusy w x = false)
include h hbusy

theorem pushActs (hkind : pKind x.pkt = 0x14) {l : WList} {s1 s2 : State} {cs : List Nat} (hlist : s.wlist x = .ok l s1) (hpushed : s1.pushed x = .ok cs s2) :
    (2 ^ l.lcap < l.tail - l.head + cs.length → s.WorkFails (.worklistPush w) w x 0x73 s2) ∧
    (l.tail - l.head + cs.length ≤ 2 ^ l.lcap → ∀ ws s3 tw s4,
      engMap (fun k c s => s.gput x (l.entry (l.tail + k)) (leBytes 8 c)) 0 cs s2 = .ok ws s3 →
      s3.gput x (pBody x.pkt 0 + 24) (leBytes 8 (l.tail + cs.length)) = .ok tw s4 →
      s.WorkPlaces (.worklistPush w) w x s4 (joinWrites (ws ++ [tw])) cs.length 0 0) := by
  have hexec : exec (.worklistPush w) s = event "WORKLIST_PUSH" (s.doEmbed w (fun x => pKind x.pkt == 0x14) wlpushWork (fun _ s => s)) :=
    show _ = execWorklistPush w s from rfl
  have hkind' : (pKind x.pkt == 0x14) = true := by rw [hkind]; rfl
  have hcyc : s2.cyc = s.cyc := (keeps_of_ok (agentFrame_cyc.pushed s1 x) hpushed).trans (keeps_of_ok (agentFrame_cyc.wlist s x) hlist)
  have hbody : wlpushWork x s = if 2 ^ l.lcap < l.tail - l.head + cs.length then .fail 0x73 0 0 s2
      else (s2.appendList x l cs).andThen (fun w s => .ok { writes := w, rows := [], count := cs.length, flags := 0, hits := 0 } s) := by
    rw [wlpushWork, andThen_of_ok _ hlist]
    exact andThen_of_ok _ hpushed
  refine ⟨fun hfull => ?_, fun hroom ws s3 tw s4 hws htw => ?_⟩
  · exact embed_fails h hexec hkind' hbusy (fun _ => rfl) (hbody.trans (if_pos hfull)) hcyc
  · have happend : s2.appendList x l cs = .ok (joinWrites (ws ++ [tw])) s4 := by
      rw [State.appendList, andThen_of_ok _ hws]
      exact andThen_of_ok _ htw
    refine embed_places h hexec hkind' hbusy (fun _ => rfl) (r := { writes := joinWrites (ws ++ [tw]), rows := [], count := cs.length, flags := 0, hits := 0 })
      (hbody.trans ((if_neg (Nat.not_lt.mpr hroom)).trans (andThen_of_ok _ happend))) ?_
    exact (keeps_of_ok (agentFrame_cyc.appendList s2 x l cs) happend).trans hcyc

/-! ### Deduplicating pushes -/

theorem dedupPushActs (hkind : pKind x.pkt = 0x16) {l : WList} {s1 s2 : State} {cs : List Nat} (hlist : s.wlist x = .ok l s1)
    (hpushed : s1.pushed x = .ok cs s2) :
    ((∃ c ∈ cs, l.u ≤ c) → s.WorkFails (.worklistDedupPush w) w x 0x74 s2) ∧
    ((∀ c ∈ cs, c < l.u) → l.bitmap = 0 → s.WorkFails (.worklistDedupPush w) w x 0x74 s2) ∧
    (∀ ms s3, (∀ c ∈ cs, c < l.u) → l.bitmap ≠ 0 →
      let bs := nubBy (fun a b => a == b) (cs.map (fun c => c / 8))
      engMap (fun _ b s => s.gread (s.workAgent x) (BitVec.ofNat 64 (l.bitmap + b)) 1) 0 bs s2 = .ok ms s3 →
      ∀ byte : Nat → Nat, bs.map byte = ms.map leNat →
      let new := (nubBy (fun a b => a == b) cs).filter (fun c => !bit (byte (c / 8)) (c % 8))
      (2 ^ l.lcap < l.tail - l.head + new.length → s.WorkFails (.worklistDedupPush w) w x 0x73 s3) ∧
      (l.tail - l.head + new.length ≤ 2 ^ l.lcap → ∀ wr s4 ws s5, s3.appendList x l new = .ok wr s4 →
        engMap (fun _ b s => s.gput x (BitVec.ofNat 64 (l.bitmap + b))
            (leBytes 1 (new.foldl (fun a c => if c / 8 = b then a + 2 ^ (c % 8) else a) (byte b)))) 0
          (nubBy (fun a b => a == b) (new.map (fun c => c / 8))) s4 = .ok ws s5 →
        s.WorkPlaces (.worklistDedupPush w) w x s5 (joinWrites (wr :: ws)) new.length 0 0)) := by
  have hexec : exec (.worklistDedupPush w) s = event "WORKLIST_DEDUP_PUSH" (s.doEmbed w (fun x => pKind x.pkt == 0x16) wldinWork (fun _ s => s)) :=
    show _ = execWorklistDedupPush w s from rfl
  have hkind' : (pKind x.pkt == 0x16) = true := by rw [hkind]; rfl
  have hcyc : s2.cyc = s.cyc := (keeps_of_ok (agentFrame_cyc.pushed s1 x) hpushed).trans (keeps_of_ok (agentFrame_cyc.wlist s x) hlist)
  have hlegal : (∀ c ∈ cs, c < l.u) → (cs.zip (upTo 0 cs.length)).find? (fun p => decide (l.u ≤ p.1)) = none := by
    intro hall
    refine List.find?_eq_none.mpr (fun p hp => ?_)
    have := hall p.1 (List.of_mem_zip hp).1
    simp only [decide_eq_true_eq]
    omega
  refine ⟨fun hout => ?_, fun hall hmap => ?_, ?_⟩
  · obtain ⟨c, hc, hge⟩ := hout
    obtain ⟨q, hq⟩ := find_zip_isSome (p := fun p : Nat × Nat => decide (l.u ≤ p.1)) (Nat.le_refl cs.length) hc (fun _ => decide_eq_true hge)
    refine embed_fails h hexec hkind' hbusy (fun _ => rfl) (run := q.2) (va := 0) ?_ hcyc
    rw [wldinWork, andThen_of_ok _ hlist]
    refine (andThen_of_ok _ hpushed).trans ?_
    dsimp only
    rw [hq]
  · refine embed_fails h hexec hkind' hbusy (fun _ => rfl) (run := 0) (va := 0) ?_ hcyc
    rw [wldinWork, andThen_of_ok _ hlist]
    refine (andThen_of_ok _ hpushed).trans ?_
    dsimp only
    rw [hlegal hall]
    exact if_pos hmap
  · intro ms s3 hall hmap bs hread byte hbyte new
    have hlen : bs.length = ms.length := by
      have := congrArg List.length hbyte
      rwa [List.length_map, List.length_map] at this
    have hpairs : ∀ p ∈ bs.zip ms, leNat p.2 = byte p.1 := by
      intro p hp
      obtain ⟨k, hk, rfl⟩ := List.getElem_of_mem hp
      rw [List.length_zip] at hk
      have hb : k < bs.length := lt_of_lt_of_le hk (min_le_left _ _)
      have hm : k < ms.length := lt_of_lt_of_le hk (min_le_right _ _)
      have hk' := List.getElem_of_eq hbyte (i := k) (by rwa [List.length_map])
      rw [List.getElem_map, List.getElem_map] at hk'
      rw [List.getElem_zip]
      exact hk'.symm
    have hmget : ∀ b ∈ bs, mget 0 ((bs.zip ms).foldl (fun m p => mset m p.1 (leNat p.2)) ([] : Map Nat)) b = byte b := by
      intro b hb
      rw [mget_foldl_bytes _ _ hpairs, List.map_fst_zip (Nat.le_of_eq hlen), if_pos hb]
    have hnew : (nubBy (fun a b => a == b) cs).filter
        (fun c => !bit (mget 0 ((bs.zip ms).foldl (fun m p => mset m p.1 (leNat p.2)) ([] : Map Nat)) (c / 8)) (c % 8)) = new := by
      refine List.filter_congr (fun c hc => ?_)
      rw [hmget _ (mem_nubBy_beq.mpr (List.mem_map_of_mem (mem_nubBy_beq.mp hc)))]
    have hbody : wldinWork x s = if 2 ^ l.lcap < l.tail - l.head + new.length then .fail 0x73 0 0 s3
        else (s3.appendList x l new).andThen (fun w s => (engMap (fun _ b s => s.gput x (BitVec.ofNat 64 (l.bitmap + b))
            (leBytes 1 (new.foldl (fun a c => if c / 8 = b then a + 2 ^ (c % 8) else a) (byte b)))) 0
          (nubBy (fun a b => a == b) (new.map (fun c => c / 8))) s).andThen (fun ws s =>
            .ok { writes := joinWrites (w :: ws), rows := [], count := new.length, flags := 0, hits := 0 } s)) := by
      rw [wldinWork, andThen_of_ok _ hlist]
      refine (andThen_of_ok _ hpushed).trans ?_
      dsimp only
      rw [hlegal hall]
      refine (if_neg hmap).trans ((andThen_of_ok _ hread).trans ?_)
      rw [hnew]
      refine if_congr Iff.rfl rfl (congrArg _ (funext fun wr => funext fun t => congrArg (fun e => EngR.andThen e _) (engMap_congr (fun b hb i u => ?_) 0 t)))
      rw [mget_foldl_bits, hmget]
      obtain ⟨c, hc, rfl⟩ := List.mem_map.mp (mem_nubBy_beq.mp hb)
      exact mem_nubBy_beq.mpr (List.mem_map_of_mem (mem_nubBy_beq.mp (List.mem_filter.mp hc).1))
    have hcyc3 : s3.cyc = s.cyc := (keeps_of_ok (keeps_engMap (fun _ b u => agentFrame_cyc.gread u _ _ 1) 0 bs s2) hread).trans hcyc
    refine ⟨fun hfull => ?_, fun hroom wr s4 ws s5 happend hws => ?_⟩
    · exact embed_fails h hexec hkind' hbusy (fun _ => rfl) (hbody.trans (if_pos hfull)) hcyc3
    · refine embed_places h hexec hkind' hbusy (fun _ => rfl)
        (r := { writes := joinWrites (wr :: ws), rows := [], count := new.length, flags := 0, hits := 0 })
        (hbody.trans ((if_neg (Nat.not_lt.mpr hroom)).trans ((andThen_of_ok _ happend).trans (andThen_of_ok _ hws)))) ?_
      exact ((keeps_of_ok (keeps_engMap (fun _ b u => agentFrame_cyc.gput u x _ _) 0 _ s4) hws).trans
        (keeps_of_ok (agentFrame_cyc.appendList s3 x l new) happend)).trans hcyc3

/-! ### Pops -/

theorem popActs (hkind : pKind x.pkt = 0x15) {l : WList} {s1 : State} (hlist : s.wlist x = .ok l s1) :
    let m := (pBody x.pkt 2).toNat
    let k := Nat.min m (l.tail - l.head)
    (64 < m → s.WorkFails (.worklistPop w) w x 0x77 s1) ∧
    (m ≤ 64 → ∀ es s2 wr s3 hw s4, engMap (fun _ i s => s.gread (s.workAgent x) (l.entry i) 8) 0 (upTo l.head k) s1 = .ok es s2 →
      s2.pput x (pBody x.pkt 1) es.flatten = .ok wr s3 → s3.gput x (pBody x.pkt 0 + 16) (leBytes 8 (l.head + k)) = .ok hw s4 →
      s.WorkPlaces (.worklistPop w) w x s4 (joinWrites [wr, hw]) k 0 0) := by
  intro m k
  have hexec : exec (.worklistPop w) s = event "WORKLIST_POP" (s.doEmbed w (fun x => pKind x.pkt == 0x15) wlpopWork (fun _ s => s)) :=
    show _ = execWorklistPop w s from rfl
  have hkind' : (pKind x.pkt == 0x15) = true := by rw [hkind]; rfl
  have hcyc : s1.cyc = s.cyc := keeps_of_ok (agentFrame_cyc.wlist s x) hlist
  refine ⟨fun hmany => ?_, fun hfew es s2 wr s3 hw s4 hread hput hhead => ?_⟩
  · refine embed_fails h hexec hkind' hbusy (fun _ => rfl) (run := 0) (va := 0) ?_ hcyc
    rw [wlpopWork, andThen_of_ok _ hlist]
    exact if_pos hmany
  · refine embed_places h hexec hkind' hbusy (fun _ => rfl) (r := { writes := joinWrites [wr, hw], rows := [], count := k, flags := 0, hits := 0 }) ?_ ?_
    · rw [wlpopWork, andThen_of_ok _ hlist]
      exact (if_neg (Nat.not_lt.mpr hfew)).trans ((andThen_of_ok _ hread).trans ((andThen_of_ok _ hput).trans (andThen_of_ok _ hhead)))
    · exact (((keeps_of_ok (agentFrame_cyc.gput s3 x _ _) hhead).trans (keeps_of_ok (agentFrame_cyc.pput s2 x _ _) hput)).trans
        (keeps_of_ok (keeps_engMap (fun _ i u => agentFrame_cyc.gread u _ _ 8) 0 _ s1) hread)).trans hcyc

/-- A command whose work-list cannot be read fails with that. -/
theorem worklist_fails {i : Instr} {cause k : Nat} {va : Word} {s1 : State}
    (hi : (i = .worklistPush w ∧ pKind x.pkt = 0x14) ∨ (i = .worklistPop w ∧ pKind x.pkt = 0x15) ∨ (i = .worklistDedupPush w ∧ pKind x.pkt = 0x16))
    (hfail : s.wlist x = .fail cause k va s1) : s.WorkFails i w x cause s1 := by
  have hcyc : s1.cyc = s.cyc := keeps_of_fail (agentFrame_cyc.wlist s x) hfail
  obtain ⟨rfl, hkind⟩ | ⟨rfl, hkind⟩ | ⟨rfl, hkind⟩ := hi
  · exact embed_fails h (show _ = execWorklistPush w s from rfl) (kinds := fun x => pKind x.pkt == 0x14) (by simp [hkind]) hbusy (fun _ => rfl)
      (andThen_fail _ hfail) hcyc
  · exact embed_fails h (show _ = execWorklistPop w s from rfl) (kinds := fun x => pKind x.pkt == 0x15) (by simp [hkind]) hbusy (fun _ => rfl)
      (andThen_fail _ hfail) hcyc
  · exact embed_fails h (show _ = execWorklistDedupPush w s from rfl) (kinds := fun x => pKind x.pkt == 0x16) (by simp [hkind]) hbusy (fun _ => rfl)
      (andThen_fail _ hfail) hcyc

end WorkLists

theorem workListsPushAndPop : Claims.WorkListsPushAndPop := by
  intro s w x h hbusy kind
  refine ⟨fun i cause k va s1 hi hk hfail => ?_, fun l s1 cs s2 hkind hlist hpushed => pushActs h hbusy hkind hlist hpushed,
    fun l s1 cs s2 hkind hlist hpushed => dedupPushActs h hbusy hkind hlist hpushed, fun l s1 hkind hlist => popActs h hbusy hkind hlist⟩
  refine worklist_fails h hbusy ?_ hfail
  simp only [List.mem_cons, List.not_mem_nil, or_false] at hi
  obtain rfl | rfl | rfl := hi
  · exact Or.inl ⟨rfl, (Option.some.inj hk).symm⟩
  · exact Or.inr (Or.inl ⟨rfl, (Option.some.inj hk).symm⟩)
  · exact Or.inr (Or.inr ⟨rfl, (Option.some.inj hk).symm⟩)

end Sys2Proof.Machine

namespace Sys2Proof.Proofs
open Sys2Proof.Machine

/-- Settles O53: the work of index packets and of work-list commands, piece by piece. -/
theorem listsAndIndexPacketsWork : Obligations.ListsAndIndexPacketsWork :=
  ⟨indexPacketsDoTheirWork, workListsPushAndPop⟩

end Sys2Proof.Proofs
end

