-- ==== Sys2Proof/Proofs/SketchAndFrames.lean ====
section
/-! PROOFS. The sketch and the hot-row cache (R297 to R304). -/
namespace Sys2Proof.Machine

/-! ### The sketch -/

/-- Counters that are each changed once. -/
theorem mget_foldl_mput_each (f : Nat → Nat) (l : List Nat) (hl : l.Nodup) (m : Map Nat) (a : Nat) :
    mget 0 (l.foldl (fun m k => mput 0 m k (f (mget 0 m k))) m) a = if a ∈ l then f (mget 0 m a) else mget 0 m a := by
  induction l generalizing m with
  | nil => rfl
  | cons k r ih =>
    obtain ⟨hk, hr⟩ := List.nodup_cons.mp hl
    rw [List.foldl_cons, ih hr, mget_mput]
    by_cases ha : a = k
    · subst ha
      rw [if_neg hk, if_pos rfl, if_pos (List.mem_cons_self ..)]
    · simp only [List.mem_cons, ha, false_or, if_false]

theorem nodup_sketchKeys (tid row : Nat) : (sketchKeys tid row).Nodup := by
  have hlt : ∀ j, (sorrel (BitVec.ofNat 64 (j + 1)) (BitVec.ofNat 64 (tid * 2 ^ 32 + row))).toNat / 2 ^ 48 < 65536 := fun j => by
    have := (sorrel (BitVec.ofNat 64 (j + 1)) (BitVec.ofNat 64 (tid * 2 ^ 32 + row))).isLt
    omega
  rw [sketchKeys]
  refine List.Nodup.map_on (fun a _ b _ hab => ?_) (by decide)
  have ha := hlt a
  have hb := hlt b
  omega

/-- R299: a feed raises the four counters of the row by one, up to 65,535. -/
theorem sketch_feed (d : Die) (tid row k : Nat) :
    mget 0 (d.feed tid row).sketch k = if k ∈ sketchKeys tid row then Nat.min 65535 (mget 0 d.sketch k + 1) else mget 0 d.sketch k := by
  have h := mget_foldl_mput_each (fun n => Nat.min 65535 (n + 1)) (sketchKeys tid row) (nodup_sketchKeys tid row) d.sketch k
  simp only [Die.feed]
  exact h

theorem foldl_estimates (t : ETable) (l : List (Nat × Nat)) (d : Die) (bs : List Byte) :
    (l.foldl (fun (acc : Die × List Byte) e => (acc.1, acc.2 ++ leBytes 4 (acc.1.estimate t.tid e.1))) (d, bs)).2 =
      bs ++ l.flatMap (fun e => leBytes 4 (d.estimate t.tid e.1)) := by
  induction l generalizing bs with
  | nil => simp
  | cons e r ih => rw [List.foldl_cons, ih, List.flatMap_cons, List.append_assoc]

theorem foldl_fedEstimates (t : ETable) (l : List (Nat × Nat)) (d : Die) (bs : List Byte) :
    (l.foldl (fun (acc : Die × List Byte) e => (acc.1.feed t.tid e.1, acc.2 ++ leBytes 4 ((acc.1.feed t.tid e.1).estimate t.tid e.1))) (d, bs)).2 =
      bs ++ (fedEstimates t.tid d (l.map (fun e => e.1))).flatMap (leBytes 4) := by
  induction l generalizing d bs with
  | nil => simp [fedEstimates]
  | cons e r ih => rw [List.foldl_cons, ih, List.map_cons, fedEstimates, List.flatMap_cons, List.append_assoc]

theorem sketchQueryActs {s : State} {w : Nat} {x : Work} (h : s.Working w x) (hkind : pKind x.pkt = 0x18) {t : ETable} {l : EList} {hs : List Nat} {s1 : State}
    (hlist : s.tableList x [0] false = .ok (t, l, hs) s1) :
    let die := s1.die (dieOf (s1.workAgent x).core)
    (∀ wr s2, pSub x.pkt = 0 → s1.pput x (pBody x.pkt 2) (l.ents.flatMap (fun e => leBytes 4 (die.estimate t.tid e.1))) = .ok wr s2 →
      s.WorkPlaces (.sketchQuery w) w x s2 wr l.n 0 0) ∧
    (∀ wr s2, pSub x.pkt = 1 → s1.pput x (pBody x.pkt 2) ((fedEstimates t.tid die (l.ents.map (fun e => e.1))).flatMap (leBytes 4)) = .ok wr s2 →
      s.WorkPlaces (.sketchQueryAdd w) w x s2 wr l.n 0 0) := by
  intro die
  have hbusy := listBusy_of_kind (s := s) (w := w) hkind (by decide)
  have hcyc : ∀ {bs : List Byte} {wr s2}, s1.pput x (pBody x.pkt 2) bs = .ok wr s2 → s2.cyc = s.cyc := fun hput =>
    (keeps_of_ok (agentFrame_cyc.pput s1 x _ _) hput).trans (keeps_of_ok (agentFrame_cyc.tableList s x _ _) hlist)
  refine ⟨fun wr s2 hsub hput => ?_, fun wr s2 hsub hput => ?_⟩
  · refine embed_places h (show _ = execSketchQuery w s from rfl) (by simp [hkind, hsub]) hbusy (fun _ => rfl)
      (r := { writes := wr, rows := [], count := l.n, flags := 0, hits := 0 }) ?_ (hcyc hput)
    rw [sketchWork, andThen_of_ok _ hlist]
    refine andThen_of_ok _ ?_
    rw [← hput]
    exact congrArg (s1.pput x (pBody x.pkt 2)) (foldl_estimates t l.ents die [])
  · refine embed_places h (show _ = execSketchQueryAdd w s from rfl) (by simp [hkind, hsub]) hbusy (feedAll_cyc x)
      (r := { writes := wr, rows := [], count := l.n, flags := 0, hits := 0 }) ?_ (hcyc hput)
    rw [sketchWork, andThen_of_ok _ hlist]
    refine andThen_of_ok _ ?_
    rw [← hput]
    exact congrArg (s1.pput x (pBody x.pkt 2)) (foldl_fedEstimates t l.ents die [])

theorem sketchDecays {s : State} {d : Nat} (hd : d < 2) (hperiod : fld (s.die d).skcfg.toNat 16 20 ≠ 0)
    (hdue : s.tstep % fld (s.die d).skcfg.toNat 16 20 = 0) (honce : (s.die d).decayed ≠ s.tstep) :
    ∃ u, exec (.sketchDecay d) s = .next u ∧ (u.die d).decayed = s.tstep ∧ (∀ k, mget 0 (u.die d).sketch k = mget 0 (s.die d).sketch k / 2) ∧
      (∀ e, e ≠ d → u.die e = s.die e) ∧ u.mem = s.mem := by
  refine ⟨s.modDie d (fun d => { d with decayed := s.tstep, sketch := d.sketch.map (fun p => (p.1, p.2 / 2)) }), ?_, ?_, fun k => ?_, fun e he => ?_, rfl⟩
  · rw [show exec (.sketchDecay d) s = execSketchDecay d s from rfl, execSketchDecay, if_neg (Nat.not_le.mpr hd), event_next]
    exact if_pos ⟨hperiod, hdue, honce⟩
  · rw [State.die_modDie, if_pos rfl]
  · rw [State.die_modDie, if_pos rfl]
    rw [mget, mget, mfind_map_snd (s.die d).sketch (fun n => n / 2)]
    cases mfind (s.die d).sketch k <;> rfl
  · rw [State.die_modDie, if_neg he]

theorem sketchesCountAndDecay : Claims.SketchesCountAndDecay := by
  intro s w x d tid row di
  exact ⟨fun h hkind t l hs s1 hlist => sketchQueryActs h hkind hlist, sketch_feed di tid row, fun hd hp ht hn => sketchDecays hd hp ht hn⟩

/-! ### Frames -/

theorem writeBack_cyc (s : State) (i : Nat) : (s.writeBack i).2.cyc = s.cyc := by
  unfold State.writeBack
  split
  · split
    · exact (homeWrite_wrote _ _ _).cyc
    · rfl
  · rfl

theorem fillRow_cyc (s : State) (r : FillReq) : (s.fillRow r).cyc = s.cyc := by
  unfold State.fillRow
  split
  · rfl
  · split
    · rfl
    · exact ((homeWrite_wrote _ _ _).cyc).trans (writeBack_cyc s _)

theorem hotRow_cyc (s : State) (sub die ctx : Nat) (t : ETable) (row home : Nat) : (s.hotRow sub die ctx t row home).2.cyc = s.cyc := by
  unfold State.hotRow
  dsimp only
  split
  · exact fillRow_cyc s _
  · split
    · exact writeBack_cyc s _
    · rfl
  · split
    · exact writeBack_cyc s _
    · rfl
  · split
    · split
      · exact fillRow_cyc s _
      · split <;> exact fillRow_cyc s _
    · exact fillRow_cyc s _
  · split <;> rfl

theorem hotRows_cyc (s : State) (sub die ctx : Nat) (t : ETable) (l : List (Nat × Nat)) : (s.hotRows sub die ctx t l).2.cyc = s.cyc := by
  have hfold : ∀ (l : List (Nat × Nat)) (acc : Nat × State), (l.foldl (fun acc p =>
      let r := acc.2.hotRow sub die ctx t p.1 p.2
      (acc.1 + b2n r.1, r.2)) acc).2.cyc = acc.2.cyc := by
    intro l
    induction l with
    | nil => exact fun _ => rfl
    | cons p r ih => exact fun acc => (ih _).trans (hotRow_cyc _ _ _ _ _ _ _)
  unfold State.hotRows
  split
  · rfl
  · exact hfold l (0, s)

theorem hotAfter_cyc (x : Work) (s : State) : (hotAfter x s).cyc = s.cyc := by
  unfold hotAfter
  split
  · next hlist => exact (hotRows_cyc _ _ _ _ _ _).trans (keeps_of_ok (agentFrame_cyc.tableList s x _ _) hlist)
  · rfl

section HotRowPackets

variable {s : State} {w : Nat} {x : Work}

/-- The `hrch` event of an operation, where no frame's write-back is held. -/
theorem exec_hotrow {i : Instr} {k : Nat}
    (hi : (i, k) ∈ [(Instr.hotrowFill w, 0), (.hotrowEvict w, 1), (.hotrowFlush w, 2), (.hotrowPin w, 3), (.hotrowUnpin w, 4)])
    (hfree : ∀ p ∈ s.frames, s.frameHeld p.1 = false) : ∃ name, exec i s =
      event name (s.doEmbed w (fun x => pKind x.pkt == 0x19 && (pSub x.pkt == k || (k == 0 && decide (4 < pSub x.pkt)))) hotWork hotAfter) := by
  have hnone : s.frames.any (fun p => s.frameHeld p.1) = false := by
    simpa [List.any_eq_false] using hfree
  have hevent : ∀ sub, s.hotEvent sub w =
      s.doEmbed w (fun x => pKind x.pkt == 0x19 && (pSub x.pkt == sub || (sub == 0 && decide (4 < pSub x.pkt)))) hotWork hotAfter := fun sub => by
    rw [State.hotEvent, hnone, if_neg Bool.false_ne_true]
  simp only [List.mem_cons, Prod.mk.injEq, List.not_mem_nil, or_false] at hi
  obtain ⟨rfl, rfl⟩ | ⟨rfl, rfl⟩ | ⟨rfl, rfl⟩ | ⟨rfl, rfl⟩ | ⟨rfl, rfl⟩ := hi
  · exact ⟨_, (show exec (.hotrowFill w) s = execHotrowFill w s from rfl).trans (congrArg _ (hevent 0))⟩
  · exact ⟨_, (show exec (.hotrowEvict w) s = execHotrowEvict w s from rfl).trans (congrArg _ (hevent 1))⟩
  · exact ⟨_, (show exec (.hotrowFlush w) s = execHotrowFlush w s from rfl).trans (congrArg _ (hevent 2))⟩
  · exact ⟨_, (show exec (.hotrowPin w) s = execHotrowPin w s from rfl).trans (congrArg _ (hevent 3))⟩
  · exact ⟨_, (show exec (.hotrowUnpin w) s = execHotrowUnpin w s from rfl).trans (congrArg _ (hevent 4))⟩

theorem hotRowPacketActs {i : Instr} {k : Nat}
    (hi : (i, k) ∈ [(Instr.hotrowFill w, 0), (.hotrowEvict w, 1), (.hotrowFlush w, 2), (.hotrowPin w, 3), (.hotrowUnpin w, 4)]) (h : s.Working w x)
    (hfree : ∀ p ∈ s.frames, s.frameHeld p.1 = false) (hkind : pKind x.pkt = 0x19) (hsub : pSub x.pkt = k) :
    (∀ cause j va s1, s.tableList x [0] false = .fail cause j va s1 → s.WorkFails i w x cause s1) ∧
    ∀ t l hs s1 r s2 a s3, s.tableList x [0] false = .ok (t, l, hs) s1 →
      s1.recordPut x (recordBytes (s1.hotRows k (s1.engineDie x) x.ctx t (rowsOf l hs)).1 0 0 0) = .ok r s2 → s2.tableList x [0] false = .ok a s3 →
      s.WorkEnds i w x 0 r.1 r.2 ∧
      ∃ u, exec i s = .next u ∧ u.frames = (s3.hotRows k (s2.engineDie x) x.ctx a.1 (rowsOf a.2.1 a.2.2)).2.frames := by
  obtain ⟨name, hexec⟩ := exec_hotrow hi hfree
  have hkinds : (pKind x.pkt == 0x19 && (pSub x.pkt == k || (k == 0 && decide (4 < pSub x.pkt)))) = true := by simp [hkind, hsub]
  have hbusy := listBusy_of_kind (s := s) (w := w) hkind (by decide)
  refine ⟨fun cause j va s1 hfail => ?_, fun t l hs s1 r s2 a s3 hlist hrec hagain => ?_⟩
  · exact embed_fails h hexec hkinds hbusy (hotAfter_cyc x) (andThen_fail _ hfail) (keeps_of_fail (agentFrame_cyc.tableList s x _ _) hfail)
  have hbody : hotWork x s = .ok { writes := ([], []), rows := [], count := (s1.hotRows k (s1.engineDie x) x.ctx t (rowsOf l hs)).1, flags := 0, hits := 0 } s1 := by
    rw [hotWork, andThen_of_ok _ hlist, hsub]
  have hend := exec_embed_ok h hexec hkinds hbusy hbody hrec
  have hcyc : s2.cyc = s.cyc := (keeps_of_ok (agentFrame_cyc.recordPut s1 x _) hrec).trans (keeps_of_ok (agentFrame_cyc.tableList s x _ _) hlist)
  refine ⟨workEnds_of_embed hend ((hotAfter_cyc x s2).trans hcyc), _, hend, ?_⟩
  have hafter : hotAfter x s2 = (s3.hotRows k (s2.engineDie x) x.ctx a.1 (rowsOf a.2.1 a.2.2)).2 := by
    rw [hotAfter, hagain, hsub]
  have hcard : isCard x.pkt = false := by rw [isCard, hkind]; simp [cardKind]
  rw [hafter]
  unfold State.embedDone State.workDone
  dsimp only
  rw [hcard, if_neg Bool.false_ne_true, if_neg Bool.false_ne_true]
  exact performWork_frames _ _

end HotRowPackets

section Residents

variable {s : State} {d ctx row home : Nat} {t : ETable} {p : Nat × Frame}

theorem fillRow_resident {r : FillReq} (h : (s.resident r.ctx r.tid r.row).isSome = true) : s.fillRow r = s :=
  if_pos (Or.inr (Or.inr h))

theorem hotRow_evict (s : State) (d ctx : Nat) (t : ETable) (row home : Nat) : s.hotRow 1 d ctx t row home = match s.resident ctx t.tid row with
    | some p => (true, { (s.writeBack p.1).2 with frames := mdel (s.writeBack p.1).2.frames p.1 })
    | none => (false, s) := rfl

theorem hotRow_flush (s : State) (d ctx : Nat) (t : ETable) (row home : Nat) : s.hotRow 2 d ctx t row home = match s.resident ctx t.tid row with
    | some p => s.writeBack p.1
    | none => (false, s) := rfl

theorem hotRow_unpin (s : State) (d ctx : Nat) (t : ETable) (row home : Nat) : s.hotRow 4 d ctx t row home = match s.resident ctx t.tid row with
    | some p => (p.2.pin, { s with frames := mset s.frames p.1 { p.2 with pin := false } })
    | none => (false, s) := rfl

/-- A pin of a row that is resident fills nothing. -/
theorem hotRow_pin {s t1 : State} {d ctx row home : Nat} {t : ETable} (h : s.fillRow { die := d, ctx := ctx, tid := t.tid, row := row, home := home, rb := t.rb } = t1) :
    s.hotRow 3 d ctx t row home = match t1.resident ctx t.tid row with
      | some p =>
        if p.2.pin then (true, t1)
        else if 7 ≤ ((t1.ways (p.1 / 8)).filter (fun y => y.2.pin)).length then (false, t1)
        else (true, { t1 with frames := mset t1.frames p.1 { p.2 with pin := true } })
      | none => (false, t1) := by
  rw [← h]
  rfl

theorem residentActs (h : s.resident ctx t.tid row = some p) :
    (s.hotRow 1 d ctx t row home).1 = true ∧ mfind (s.hotRow 1 d ctx t row home).2.frames p.1 = none ∧
    (((s.ways (p.1 / 8)).filter (fun y => y.2.pin)).length < 7 → p.2.pin = false →
      (s.hotRow 3 d ctx t row home).1 = true ∧ mfind (s.hotRow 3 d ctx t row home).2.frames p.1 = some { p.2 with pin := true }) ∧
    (7 ≤ ((s.ways (p.1 / 8)).filter (fun y => y.2.pin)).length → p.2.pin = false → s.hotRow 3 d ctx t row home = (false, s)) ∧
    (s.hotRow 4 d ctx t row home).1 = p.2.pin ∧ mfind (s.hotRow 4 d ctx t row home).2.frames p.1 = some { p.2 with pin := false } := by
  have hfill : s.fillRow { die := d, ctx := ctx, tid := t.tid, row := row, home := home, rb := t.rb } = s := fillRow_resident (by rw [h]; rfl)
  have hevict : s.hotRow 1 d ctx t row home = (true, { (s.writeBack p.1).2 with frames := mdel (s.writeBack p.1).2.frames p.1 }) := by
    rw [hotRow_evict, h]
  have hpin : p.2.pin = false → s.hotRow 3 d ctx t row home = if 7 ≤ ((s.ways (p.1 / 8)).filter (fun y => y.2.pin)).length then (false, s)
      else (true, { s with frames := mset s.frames p.1 { p.2 with pin := true } }) := by
    intro hp
    rw [hotRow_pin hfill, h]
    dsimp only
    rw [hp, if_neg Bool.false_ne_true]
  have hunpin : s.hotRow 4 d ctx t row home = (p.2.pin, { s with frames := mset s.frames p.1 { p.2 with pin := false } }) := by
    rw [hotRow_unpin, h]
  refine ⟨by rw [hevict], ?_, fun hfew hp => ?_, fun hmany hp => ?_, by rw [hunpin], ?_⟩
  · rw [hevict]
    exact mfind_mdel_same _ _
  · rw [hpin hp, if_neg (Nat.not_le.mpr hfew)]
    exact ⟨rfl, (mfind_mset ..).trans (if_pos rfl)⟩
  · rw [hpin hp, if_pos hmany]
  · rw [hunpin]
    exact (mfind_mset ..).trans (if_pos rfl)

theorem notResidentActs (h : s.resident ctx t.tid row = none) :
    (s.hotRow 1 d ctx t row home).1 = false ∧ (s.hotRow 2 d ctx t row home).1 = false ∧ (s.hotRow 4 d ctx t row home).1 = false := by
  rw [hotRow_evict, hotRow_flush, hotRow_unpin, h]
  exact ⟨rfl, rfl, rfl⟩

theorem frameWritesBack {n m : Nat} {f : Frame} (hm : m < 8) (hfind : mfind s.frames (8 * n + m) = some f) (hvalid : f.valid = true)
    (hdirty : f.dirty = true) (hfree : s.frameHeld (8 * n + m) = false) :
    ∃ u, exec (.frameWriteBack n m) s = .next u ∧ u.frames = mset s.frames (8 * n + m) { f with dirty := false } ∧
      u.homeBytes f.home f.rb = s.homeBytes (s.frameAt (8 * n + m)) f.rb ∧ ∀ a, a < f.home ∨ f.home + f.rb ≤ a → u.homeByte a = s.homeByte a := by
  have hlen : (s.homeBytes (s.frameAt (8 * n + m)) f.rb).length = f.rb := by rw [State.homeBytes, List.length_map, length_upTo]
  have hback : s.writeBack (8 * n + m) = (true, { s.homeWrite f.home (s.homeBytes (s.frameAt (8 * n + m)) f.rb) with
      frames := mset s.frames (8 * n + m) { f with dirty := false } }) := by
    unfold State.writeBack
    rw [hfind]
    dsimp only
    rw [hvalid, hdirty]
    rfl
  refine ⟨{ s.homeWrite f.home (s.homeBytes (s.frameAt (8 * n + m)) f.rb) with frames := mset s.frames (8 * n + m) { f with dirty := false } }, ?_, rfl, ?_,
    fun a ha => ?_⟩
  · rw [show exec (.frameWriteBack n m) s = execFrameWriteBack n m s from rfl, execFrameWriteBack, event_next, hback]
    dsimp only
    rw [hfree, decide_eq_true hm]
    rfl
  · have hbytes := homeBytes_homeWrite s f.home (s.homeBytes (s.frameAt (8 * n + m)) f.rb)
    rw [hlen] at hbytes
    exact hbytes
  · refine (State.homeByte_homeWrite s f.home _ a).trans (if_neg ?_)
    rw [hlen]
    omega

/-- A fill of a row into a way that holds nothing. -/
theorem fillRow_empty {r : FillReq} {i : Nat} (hhr : s.hr ≠ 0) (hfits : r.rb ≤ s.frameSize) (hnew : s.resident r.ctx r.tid r.row = none)
    (hway : s.victim r.die (s.hotSet r.tid r.row) = some i) (hempty : mfind s.frames i = none) :
    s.fillRow r = { s.homeWrite (s.frameAt i) (s.homeBytes r.home r.rb) with
      frames := mset s.frames i { valid := true, dirty := false, pin := false, ctx := r.ctx, tid := r.tid, row := r.row, home := r.home, rb := r.rb } } := by
  have hcond : ¬(s.hr = 0 ∨ s.frameSize < r.rb ∨ (s.resident r.ctx r.tid r.row).isSome = true) := by
    rw [hnew]
    rintro (h | h | h)
    · exact hhr h
    · exact absurd hfits (Nat.not_le.mpr h)
    · exact Bool.false_ne_true h
  have hback : s.writeBack i = (false, s) := by
    unfold State.writeBack
    rw [hempty]
  unfold State.fillRow
  rw [if_neg hcond, hway]
  dsimp only
  rw [hback]

theorem frameFills {r : FillReq} {i : Nat} (hd : d < 2)
    (hfill : s.fills.find? (fun f => decide (f.die = d) && !s.extentBlocked f.home f.rb false && !s.victimHeld f) = some r) (hhr : s.hr ≠ 0)
    (hfits : r.rb ≤ s.frameSize) (hnew : s.resident r.ctx r.tid r.row = none) (hway : s.victim d (s.hotSet r.tid r.row) = some i)
    (hempty : mfind s.frames i = none) :
    ∃ u f, exec (.frameFill d) s = .next u ∧ u.fills = s.fills.erase r ∧ mfind u.frames i = some f ∧ f.valid = true ∧ f.dirty = false ∧ f.pin = false ∧
      f.ctx = r.ctx ∧ f.tid = r.tid ∧ f.row = r.row ∧ f.home = r.home ∧ u.homeBytes (s.frameAt i) r.rb = s.homeBytes r.home r.rb := by
  have hdie : r.die = d := by
    have := List.find?_some hfill
    simp only [Bool.and_eq_true, decide_eq_true_eq] at this
    exact this.1.1
  have hfilled := fillRow_empty (s := { s with fills := s.fills.erase r }) (r := r) (i := i) hhr hfits hnew (by rw [hdie]; exact hway) hempty
  refine ⟨State.fillRow { s with fills := s.fills.erase r } r,
    { valid := true, dirty := false, pin := false, ctx := r.ctx, tid := r.tid, row := r.row, home := r.home, rb := r.rb }, ?_, ?_, ?_, rfl, rfl, rfl,
    rfl, rfl, rfl, rfl, ?_⟩
  · rw [show exec (.frameFill d) s = execFrameFill d s from rfl, execFrameFill, if_neg (Nat.not_le.mpr hd), event_next, hfill, Option.map_some]
  · rw [hfilled]
    exact (homeWrite_wrote _ _ _).fills
  · rw [hfilled]
    exact (mfind_mset ..).trans (if_pos rfl)
  · have hbytes := homeBytes_homeWrite { s with fills := s.fills.erase r } (s.frameAt i) (s.homeBytes r.home r.rb)
    rw [show (s.homeBytes r.home r.rb).length = r.rb by rw [State.homeBytes, List.length_map, length_upTo]] at hbytes
    rw [hfilled]
    exact hbytes

end Residents

theorem hotRowsAreKept : Claims.HotRowsAreKept := by
  intro s w d n m x t row home p
  exact ⟨fun i k hi h hfree hkind hsub => hotRowPacketActs hi h hfree hkind hsub, fun h => residentActs h, fun h => notResidentActs h,
    fun f hm hfind hvalid hdirty hfree => frameWritesBack hm hfind hvalid hdirty hfree,
    fun r i hd hfill hhr hfits hnew hway hempty => frameFills hd hfill hhr hfits hnew hway hempty⟩

end Sys2Proof.Machine

namespace Sys2Proof.Proofs
open Sys2Proof.Machine

/-- Settles O44: the counters of the sketch, and the frames of the hot-row cache through fills, write-backs and `hrch` packets. -/
theorem sketchesAndHotRows : Obligations.SketchesAndHotRows :=
  ⟨sketchesCountAndDecay, hotRowsAreKept⟩

end Sys2Proof.Proofs
end

