-- ==== Sys2Proof/Proofs/PoolingAndUpdates.lean ====
section
/-! PROOFS. Pooling's row service and its cards, and scatter-update (R305 to R310, R313). -/
namespace Sys2Proof.Machine

/-! ### Units take the commands of rows -/

theorem serveRows_spec (us : List (Nat × Nat)) (s : State) (e : Nat) : (s.serveRows e us).2.2 <:+ us ∧ e ≤ (s.serveRows e us).1 ∧
    (s.serveRows e us).2.1.mem = s.mem := by
  induction us generalizing s e with
  | nil => exact ⟨List.suffix_refl _, Nat.le_refl _, rfl⟩
  | cons u r ih =>
    rw [State.serveRows]
    split
    · exact ⟨List.suffix_refl _, Nat.le_refl _, rfl⟩
    · obtain ⟨hrest, hend, hmem⟩ := ih (s.unitTakeUpTo u.1 u.2).2 (Nat.max e (s.unitTakeUpTo u.1 u.2).1)
      exact ⟨hrest.trans (List.suffix_cons u r), le_trans (Nat.le_max_left _ _) hend, hmem⟩

/-- A unit with room takes the first command. -/
theorem serveRows_takes {s : State} {e : Nat} {u : Nat × Nat} {r : List (Nat × Nat)} (h : s.unitFull u.1 = false) : (s.serveRows e (u :: r)).2.2 <:+ r := by
  rw [State.serveRows, if_neg (ne_true_of_eq_false h)]
  exact (serveRows_spec r _ _).1

section Pooling

variable {s : State} {w : Nat} {x : Work}

/-! ### The row service -/

/-- The card that the row service has served: its partials, what its record needs, and the commands of rows that are left. -/
def serviced (x : Work) (r : List Wf × List Nat) (v : Nat × State × List (Nat × Nat)) : Work :=
  { x with joined := true, parts := r.1.map Wf.pack, pos := r.2, at_ := v.1, rows := v.2.2, wait := .go }

theorem exec_rowService (h : s.Working w x) (hkind : pKind x.pkt = 0x20) (hjoined : x.joined = false) (u : State) : exec (.poolingRowService w) s = .next u ↔
    (match poolParts x s with
      | .ok r t => some ((feedPool x (t.serveRows t.cyc (poolUnits x t)).2.1).setWork w (serviced x r (t.serveRows t.cyc (poolUnits x t))))
      | .wait t => some t
      | .stand v t => some (t.setWork w { x with wait := v })
      | .fail cause run va t =>
        some (t.setWork w { x with joined := true, cause := cause, errstat := engStatus (pKind x.pkt) 0 run, erraddr := va, wait := .go })) = some u := by
  have hready := workReady_of_working h
  have hlate := lateCard_of_working h
  obtain ⟨hfind, -, -, hcause, hwait, -, -, hdesc, -⟩ := h
  rw [show exec (.poolingRowService w) s = execPoolingRowService w s from rfl, execPoolingRowService, event_next, hfind]
  dsimp only
  rw [hlate, if_neg (fun h => Bool.false_ne_true (hdesc.symm.trans h.2)), if_neg (fun h => Bool.false_ne_true (hjoined.symm.trans h.2.2.1)),
    if_pos ⟨hkind, hcause, hjoined, hready⟩, resume_go hwait]
  cases poolParts x s <;> rfl

/-- What the row service finds of a card, once its table and its list are read. -/
theorem poolParts_eq {t : ETable} {s1 s2 : State} {l : EList} (htable : s.eTable x = .ok t s1) (hlist : s1.eList x = .ok l s2) :
    poolParts x s =
      if 2 ≤ pEp x.pkt ∧ s2.stores.poolEps.contains (pEp x.pkt) = false then .fail 0x70 0 0 s2
      else if l.n % (l.bags + 1) ≠ 0 then .fail 0x77 0 0 s2
      else
        (s2.rowPlaces x t l [0] false).andThen (fun hs s =>
          let rows := (rowsOf l hs).map (fun p => s.rowBytesNow x.ctx t p.1 p.2)
          let vals := rows.map (fun r => rowValues t r.1)
          let es := (l.ents.zip vals).map (fun p => (if l.wt then some (decodeF fp32 p.1.2) else none, p.2.1))
          let per := l.n / (l.bags + 1)
          let bs := (upTo 0 (l.bags + 1)).map (fun b => bagPartials t.d l.e ((es.drop (b * per)).take per))
          let fl := (vals.foldl (fun f v => f ||| v.2) 0) ||| bs.foldl (fun f b => f ||| b.2) 0
          .ok (bs.flatMap (fun b => b.1),
               [l.n, l.bags, b2n l.fmt, t.d, (rows.filter (fun r => r.2)).length, fl.toNat]) s) := by
  rw [poolParts, andThen_of_ok _ htable]
  exact andThen_of_ok _ hlist

theorem rowService_fails (h : s.Working w x) (hkind : pKind x.pkt = 0x20) (hjoined : x.joined = false) {cause run : Nat} {va : Word} {t : State}
    (hfail : poolParts x s = .fail cause run va t) : ∃ u y, exec (.poolingRowService w) s = .next u ∧ mfind u.works w = some y ∧ y.joined = true ∧
      y.cause = cause ∧ y.stage = .taken := by
  obtain ⟨-, hstage, -⟩ := id h
  refine ⟨t.setWork w { x with joined := true, cause := cause, errstat := engStatus (pKind x.pkt) 0 run, erraddr := va, wait := .go }, _, ?_,
    (mfind_mset ..).trans (if_pos rfl), rfl, rfl, hstage⟩
  rw [exec_rowService h hkind hjoined, hfail]

theorem rowService_serves (h : s.Working w x) (hkind : pKind x.pkt = 0x20) (hjoined : x.joined = false) {r : List Wf × List Nat} {t : State}
    (hok : poolParts x s = .ok r t) : ∃ u, exec (.poolingRowService w) s = .next u ∧
      mfind u.works w = some (serviced x r (t.serveRows t.cyc (poolUnits x t))) := by
  refine ⟨(feedPool x (t.serveRows t.cyc (poolUnits x t)).2.1).setWork w (serviced x r (t.serveRows t.cyc (poolUnits x t))), ?_,
    (mfind_mset ..).trans (if_pos rfl)⟩
  rw [exec_rowService h hkind hjoined, hok]

theorem rowServiceActs (h : s.Working w x) (hkind : pKind x.pkt = 0x20) (hjoined : x.joined = false) {t : ETable} {s1 s2 : State} {l : EList}
    (htable : s.eTable x = .ok t s1) (hlist : s1.eList x = .ok l s2) :
    let ep := pEp x.pkt
    let known := ep < 2 ∨ s2.stores.poolEps.contains ep = true
    let failed (cause : Nat) : Prop := ∃ u y, exec (.poolingRowService w) s = .next u ∧ mfind u.works w = some y ∧ y.joined = true ∧ y.cause = cause ∧
      y.stage = .taken
    (¬known → failed 0x70) ∧
    (known → l.n % (l.bags + 1) ≠ 0 → failed 0x77) ∧
    (∀ cause k va s3, known → l.n % (l.bags + 1) = 0 → s2.rowPlaces x t l [0] false = .fail cause k va s3 → failed cause) ∧
    (∀ hs s3, known → l.n % (l.bags + 1) = 0 → s2.rowPlaces x t l [0] false = .ok hs s3 →
      let rows := (rowsOf l hs).map (fun p => s3.rowBytesNow x.ctx t p.1 p.2)
      let es := (l.ents.zip rows).map (fun p => (if l.wt then some (decodeF fp32 p.1.2) else none, (rowValues t p.2.1).1))
      let per := l.n / (l.bags + 1)
      ∃ u y, exec (.poolingRowService w) s = .next u ∧ mfind u.works w = some y ∧ y.joined = true ∧ y.cause = 0 ∧ y.stage = .taken ∧ y.pkt = x.pkt ∧
        y.parts = (upTo 0 (l.bags + 1)).flatMap (fun b => (bagPartials t.d l.e ((es.drop (b * per)).take per)).1.map Wf.pack) ∧
        y.pos.take 5 = [l.n, l.bags, b2n l.fmt, t.d, (rows.filter (fun r => r.2)).length] ∧ y.rows = (s3.serveRows s3.cyc (poolUnits x s3)).2.2) := by
  intro ep known failed
  have hparts := poolParts_eq htable hlist
  have hgo : known → ¬(2 ≤ ep ∧ s2.stores.poolEps.contains ep = false) := fun hk hu =>
    hk.elim (fun h => by omega) (fun h => Bool.false_ne_true (hu.2.symm.trans h))
  refine ⟨fun hun => ?_, fun hk hdiv => ?_, fun cause k va s3 hk hdiv hfail => ?_, ?_⟩
  · have hunknown : 2 ≤ ep ∧ s2.stores.poolEps.contains ep = false := by
      obtain ⟨hge, hc⟩ := not_or.mp hun
      exact ⟨Nat.le_of_not_lt hge, Bool.eq_false_iff.mpr hc⟩
    exact rowService_fails h hkind hjoined (hparts.trans (if_pos hunknown))
  · exact rowService_fails h hkind hjoined (hparts.trans ((if_neg (hgo hk)).trans (if_pos hdiv)))
  · exact rowService_fails h hkind hjoined (hparts.trans ((if_neg (hgo hk)).trans ((if_neg (not_not_intro hdiv)).trans (andThen_fail _ hfail))))
  · intro hs s3 hk hdiv hplaces rows es per
    obtain ⟨-, hstage, -, hcause, -⟩ := id h
    have hok := hparts.trans ((if_neg (hgo hk)).trans ((if_neg (not_not_intro hdiv)).trans (andThen_of_ok _ hplaces)))
    have hes : (l.ents.zip (rows.map (fun r => rowValues t r.1))).map (fun p => (if l.wt then some (decodeF fp32 p.1.2) else none, p.2.1)) = es := by
      rw [List.zip_map_right, List.map_map]
      rfl
    obtain ⟨u, hnext, hfind⟩ := rowService_serves h hkind hjoined hok
    refine ⟨u, _, hnext, hfind, rfl, hcause, hstage, rfl, ?_, rfl, rfl⟩
    change (List.flatMap _ (List.map _ _)).map Wf.pack = _
    rw [List.flatMap_map, List.map_flatMap, hes]

theorem rowService_goesOn (h : s.Working w x) (hkind : pKind x.pkt = 0x20) {u : Nat × Nat} {r : List (Nat × Nat)} (hjoined : x.joined = true)
    (hrows : x.rows = u :: r) (hroom : s.unitFull u.1 = false) :
    ∃ v y, exec (.poolingRowService w) s = .next v ∧ mfind v.works w = some y ∧ y.rows <:+ r ∧ y.parts = x.parts ∧ x.at_ ≤ y.at_ ∧ v.mem = s.mem := by
  have hlate := lateCard_of_working h
  obtain ⟨hfind, hstage, -, hcause, -, -, -, hdesc, -⟩ := h
  have htaken : (s.serveRows x.at_ x.rows).2.2 <:+ r := by
    rw [hrows]
    exact serveRows_takes hroom
  have hmoved : (s.serveRows x.at_ x.rows).2.2 ≠ x.rows := fun heq => by
    rw [heq, hrows] at htaken
    have := htaken.length_le
    rw [List.length_cons] at this
    omega
  obtain ⟨-, hend, hmem⟩ := serveRows_spec x.rows s x.at_
  refine ⟨(s.serveRows x.at_ x.rows).2.1.setWork w { x with rows := (s.serveRows x.at_ x.rows).2.2, at_ := (s.serveRows x.at_ x.rows).1 }, _, ?_,
    (mfind_mset ..).trans (if_pos rfl), htaken, rfl, hend, hmem⟩
  rw [show exec (.poolingRowService w) s = execPoolingRowService w s from rfl, execPoolingRowService, event_next, hfind]
  dsimp only
  rw [hlate, if_neg (fun h => Bool.false_ne_true (hdesc.symm.trans h.2)),
    if_pos ⟨hkind, hcause, hjoined, by rw [hrows]; exact List.cons_ne_nil _ _, hstage⟩, if_neg hmoved]

/-! ### The card -/

theorem poolCardActs (h : s.Working w x) (hkind : pKind x.pkt = 0x20) (hjoined : x.joined = true) (hrows : x.rows = []) :
    let v (i : Nat) : Nat := x.pos.getD i 0
    let f := if v 2 = 1 then bf16 else fp32
    let rs := x.parts.map (fun p => poolOut (pEp x.pkt) (v 0 / (v 1 + 1)) f (wfUnpack p))
    (∀ wr s1, s.pput x (pBody x.pkt 2) (rs.flatMap (fun r => leBytes (f.width / 8) r.1)) = .ok wr s1 →
      s.WorkPlaces (.poolCard w) w x s1 wr (v 0) (rs.foldl (fun f r => f ||| r.2) (BitVec.ofNat 6 (v 5))) (v 4)) ∧
    (∀ cause k va s1, s.pput x (pBody x.pkt 2) (rs.flatMap (fun r => leBytes (f.width / 8) r.1)) = .fail cause k va s1 →
      s.WorkFails (.poolCard w) w x cause s1) := by
  intro v f rs
  have hexec : exec (.poolCard w) s = event "POOL_CARD"
      (s.doEmbed w (fun x => pKind x.pkt == 0x20 && ((x.joined && x.rows.isEmpty) || decide (x.cause ≠ 0))) poolWork (fun _ s => s)) :=
    show _ = execPoolCard w s from rfl
  have hkinds : (pKind x.pkt == 0x20 && ((x.joined && x.rows.isEmpty) || decide (x.cause ≠ 0))) = true := by rw [hkind, hjoined, hrows]; rfl
  have hbusy := listBusy_of_kind (s := s) (w := w) hkind (by decide)
  refine ⟨fun wr s1 hput => ?_, fun cause k va s1 hfail => ?_⟩
  · exact embed_places h hexec hkinds hbusy (fun _ => rfl)
      (r := { writes := wr, rows := [], count := v 0, flags := rs.foldl (fun f r => f ||| r.2) (BitVec.ofNat 6 (v 5)), hits := v 4 })
      (andThen_of_ok _ hput) (keeps_of_ok (agentFrame_cyc.pput s x _ _) hput)
  · exact embed_fails h hexec hkinds hbusy (fun _ => rfl) (andThen_fail _ hfail) (keeps_of_fail (agentFrame_cyc.pput s x _ _) hfail)

/-! ### Scatter-update -/

/-- A packet whose work succeeds keeps the contents of the frames that its work has. -/
theorem embed_frames {i : Instr} {name : String} {kinds : Work → Bool} {body : Work → State → EngR Res} {after : Work → State → State}
    (h : s.Working w x) (hexec : exec i s = event name (s.doEmbed w kinds body after)) (hkinds : kinds x = true) (hbusy : s.listBusy w x = false)
    {r : Res} {s1 s2 : State} {wr : Writes} (hbody : body x s = .ok r s1)
    (hrec : s1.recordPut x (recordBytes r.count r.flags 0 r.hits) = .ok wr s2) :
    ∃ u y, exec i s = .next u ∧ mfind u.works w = some y ∧ y.frames = r.rows := by
  have hend := exec_embed_ok h hexec hkinds hbusy hbody hrec
  rw [State.embedDone] at hend
  obtain ⟨y, hfind, hy, -⟩ := find_workDone _ w x
    { out := r.writes.1 ++ wr.1, posts := r.writes.2 ++ wr.2, frames := r.rows, cause := 0, errstat := 0, erraddr := 0 }
  exact ⟨_, y, hend, hfind, by rw [hy]⟩

/-- The events of scatter-update by their entry points. -/
theorem exec_supd {i : Instr} {eps : Nat → Prop} (h : supdRow i = some (w, eps)) (hep : eps (pEp x.pkt)) (hkind : pKind x.pkt = 0x30) :
    ∃ name kinds, exec i s = event name (s.doEmbed w kinds supdWork (fun _ s => s)) ∧ kinds x = true := by
  unfold supdRow at h
  split at h <;> cases h
  · exact ⟨_, _, show exec (.supdSgd w) s = execSupdSgd w s from rfl, by simp [hkind, show pEp x.pkt = 0 from hep]⟩
  · exact ⟨_, _, show exec (.supdMomentum w) s = execSupdMomentum w s from rfl, by simp [hkind, show pEp x.pkt = 1 from hep]⟩
  · exact ⟨_, _, show exec (.supdAdagrad w) s = execSupdAdagrad w s from rfl, by simp [hkind, show pEp x.pkt = 2 from hep]⟩
  · exact ⟨_, _, show exec (.supdAdam w) s = execSupdAdam w s from rfl, by simp [hkind, show pEp x.pkt = 3 from hep]⟩
  · exact ⟨_, _, show exec (.supdInstalled w) s = execSupdInstalled w s from rfl, by simp [hkind, show 4 ≤ pEp x.pkt from hep]⟩

theorem AgentFrame.updateRow {β : Type} {φ : State → β} (h : AgentFrame φ) (s : State) (x : Work) (t : ETable) (l : EList) (grads : List (List Num)) (row home : Nat) :
    φ (s.updateRow x t l grads row home).state = φ s := by
  unfold State.updateRow
  dsimp only
  refine keeps_andThen ?_ (fun sb u _ => keeps_andThen (h.gput u x _ _) (fun _ _ _ => rfl))
  split
  · rfl
  · exact h.gread s _ _ _

theorem updateRows_cyc {s t : State} {x : Work} {e : ETable} {l : EList} {grads : List (List Num)} {rows : List (Nat × Nat)}
    {rs : List ((Nat × List Byte) × Writes × Flags)}
    (h : engMap (fun _ p s => s.updateRow x e l grads p.1 p.2) 0 rows s = .ok rs t) : t.cyc = s.cyc := by
  have hrow (i : Nat) (p : Nat × Nat) (u : State) : (u.updateRow x e l grads p.1 p.2).state.cyc = u.cyc :=
    agentFrame_cyc.updateRow u x e l grads p.1 p.2
  have hmap := keeps_engMap (φ := State.cyc) hrow 0 rows s
  rw [h] at hmap
  exact hmap

theorem stateBytes_eq (ep d : Nat) : (if 4 ≤ ep then 0 else stateBytes ep d) = (if ep = 0 ∨ 4 ≤ ep then 0 else if ep = 1 then 4 * d else if ep = 2 then 4 else 4 * d + 4) := by
  unfold stateBytes
  split_ifs <;> omega

theorem supdActs {i : Instr} {eps : Nat → Prop} (hrow : supdRow i = some (w, eps)) (h : s.Working w x) (hkind : pKind x.pkt = 0x30) (hep : eps (pEp x.pkt)) :
    let ep := pEp x.pkt
    (∀ cause k va s1, s.eTable x = .fail cause k va s1 → s.WorkFails i w x cause s1) ∧
    ∀ t s1 l s2, s.eTable x = .ok t s1 → s1.eList x = .ok l s2 →
      let known := ep < 4 ∨ s2.stores.updEps.contains ep = true
      let state := if ep = 0 ∨ 4 ≤ ep then 0 else if ep = 1 then 4 * t.d else if ep = 2 then 4 else 4 * t.d + 4
      let fits := t.rf < 2 ∧ (ep = 0 ∨ t.sbase ≠ 0) ∧ state ≤ t.sstride
      (¬known → s.WorkFails i w x 0x70 s2) ∧
      (known → ¬fits → s.WorkFails i w x 0x75 s2) ∧
      (∀ hs s3 gb s4, known → fits → s2.rowPlaces x t l [0, 1] false = .ok hs s3 →
        let gw := if l.fmt then 2 else 4
        s3.pread x (pBody x.pkt 2) (l.n * t.d * gw) = .ok gb s4 →
        let grads := (pieces (t.d * gw) gb).map (fun b => (elemsOf (8 * gw) t.d b).map (decodeF (if l.fmt then bf16 else fp32)))
        let rows := nubBy (fun a b => a.1 == b.1) (rowsOf l hs)
        ∀ rs s5 r s6, engMap (fun _ p s => s.updateRow x t l grads p.1 p.2) 0 rows s4 = .ok rs s5 →
          s5.recordPut x (recordBytes rows.length (rs.foldl (fun f r => f ||| r.2.2) 0) 0 0) = .ok r s6 →
          s.WorkEnds i w x 0 ((joinWrites (rs.map (fun r => r.2.1))).1 ++ r.1) ((joinWrites (rs.map (fun r => r.2.1))).2 ++ r.2) ∧
          ∃ u y, exec i s = .next u ∧ mfind u.works w = some y ∧ y.frames = rs.map (fun r => r.1)) ∧
      (∀ ws gs, ep = 0 → (updateStep ep t fp32 ws gs []).1 =
        (ws.zip gs).map (fun p => (stepSub fp32 (decodeF fp32 p.1) (decodeF fp32 (t.h.getD 0 0).toNat) (decodeF fp32 p.2)).v)) := by
  intro ep
  obtain ⟨name, kinds, hexec, hkinds⟩ := exec_supd (s := s) hrow hep hkind
  have hbusy := listBusy_of_kind (s := s) (w := w) hkind (by decide)
  refine ⟨fun cause k va s1 hfail => ?_, ?_⟩
  · exact embed_fails h hexec hkinds hbusy (fun _ => rfl) (andThen_fail _ hfail) (keeps_of_fail (agentFrame_cyc.eTable s x) hfail)
  intro t s1 l s2 htable hlist known state fits
  have hcyc2 : s2.cyc = s.cyc := (keeps_of_ok (agentFrame_cyc.eList s1 x) hlist).trans (keeps_of_ok (agentFrame_cyc.eTable s x) htable)
  have hknown : known ↔ ¬(4 ≤ ep ∧ s2.stores.updEps.contains ep = false) := by
    rw [not_and_or, Bool.not_eq_false, Nat.not_le]
  have hfits : fits ↔ ¬(2 ≤ t.rf ∨ (ep ≠ 0 ∧ t.sbase = 0) ∨ t.sstride < (if 4 ≤ ep then 0 else stateBytes ep t.d)) := by
    rw [stateBytes_eq, not_or, not_or, not_and_or, not_not, Nat.not_le, Nat.not_lt]
  refine ⟨fun hun => ?_, fun hk hun => ?_, ?_, fun ws gs h0 => ?_⟩
  · refine embed_fails h hexec hkinds hbusy (fun _ => rfl) (run := 0) (va := 0) ?_ hcyc2
    rw [supdWork, andThen_of_ok _ htable]
    exact (andThen_of_ok _ hlist).trans (if_pos (not_not.mp (fun hn => hun (hknown.mpr hn))))
  · refine embed_fails h hexec hkinds hbusy (fun _ => rfl) (run := 0) (va := 0) ?_ hcyc2
    rw [supdWork, andThen_of_ok _ htable]
    exact (andThen_of_ok _ hlist).trans ((if_neg (hknown.mp hk)).trans (if_pos (not_not.mp (fun hn => hun (hfits.mpr hn)))))
  · intro hs s3 gb s4 hk hf hplaces gw hread grads rows rs s5 r s6 hrows hrec
    have hbody : supdWork x s = .ok ⟨joinWrites (rs.map (fun r => r.2.1)), rs.map (fun r => r.1), rows.length,
        rs.foldl (fun f r => f ||| r.2.2) 0, 0⟩ s5 := by
      rw [supdWork, andThen_of_ok _ htable]
      exact (andThen_of_ok _ hlist).trans ((if_neg (hknown.mp hk)).trans ((if_neg (hfits.mp hf)).trans ((andThen_of_ok _ hplaces).trans
        ((andThen_of_ok _ hread).trans (andThen_of_ok _ hrows)))))
    have hupdate : s5.cyc = s4.cyc := updateRows_cyc hrows
    have hcyc5 : s5.cyc = s.cyc := hupdate.trans ((keeps_of_ok (agentFrame_cyc.pread s3 x _ _) hread).trans
      ((keeps_of_ok (agentFrame_cyc.rowPlaces s2 x t l _ _) hplaces).trans hcyc2))
    exact ⟨embed_places h hexec hkinds hbusy (fun _ => rfl) hbody hcyc5 r s6 hrec, embed_frames h hexec hkinds hbusy hbody hrec⟩
  · rw [h0, updateStep]
    dsimp only
    rw [List.zip_map, List.map_map, List.map_map]
    rfl

end Pooling

end Sys2Proof.Machine

namespace Sys2Proof.Proofs
open Sys2Proof.Machine

/-- Settles O10: the row service and the cards of pooling. -/
theorem poolingSumsRows : Obligations.PoolingSumsRows := by
  intro s w x h hkind ep v
  exact ⟨fun hjoined t s1 l s2 htable hlist => rowServiceActs h hkind hjoined htable hlist,
    fun u r hjoined hrows hroom => rowService_goesOn h hkind hjoined hrows hroom, fun hjoined hrows => poolCardActs h hkind hjoined hrows⟩

/-- Settles O11: what a scatter-update card fails with, and what its rows take. -/
theorem scatterUpdatesTheirRows : Obligations.ScatterUpdatesTheirRows :=
  fun _ _ _ _ _ hrow h hkind hep => supdActs hrow h hkind hep

end Sys2Proof.Proofs
end

