-- ==== Sys2Proof/Proofs/NearBankEntries.lean ====
section
/-! PROOFS. What the fixed near-bank entry points compute (R313, R319). -/
namespace Sys2Proof.Machine

/-! ### Sums by groups -/

theorem flatten_piecesAux {α : Type} {n : Nat} (hn : 0 < n) (fuel : Nat) (l : List α) (h : l.length ≤ fuel) : (piecesAux n fuel l).flatten = l := by
  induction fuel generalizing l with
  | zero =>
    rw [List.length_eq_zero_iff.mp (Nat.le_zero.mp h)]
    rfl
  | succ k ih =>
    cases l with
    | nil => rfl
    | cons a r =>
      rw [List.length_cons] at h
      rw [piecesAux, List.flatten_cons, ih, List.take_append_drop]
      · rw [List.length_drop, List.length_cons]
        omega
      · simp

theorem flatten_pieces {α : Type} {n : Nat} (hn : 0 < n) (l : List α) : (pieces n l).flatten = l :=
  flatten_piecesAux hn l.length l (Nat.le_refl _)

theorem foldl_add_eq (l : List Int) (a : Int) : l.foldl (fun a b => a + b) a = a + l.sum := by
  induction l generalizing a with
  | nil => simp
  | cons b r ih => rw [List.foldl_cons, ih, List.sum_cons, Int.add_assoc]

/-- A group of integer products, without saturation, adds modulo 2³². -/
theorem intGroup_wraps (a : Int) (ps : List Int) : intGroup (BitVec.ofInt 32 a) ps false = BitVec.ofInt 32 (a + ps.sum) := by
  rw [intGroup, foldl_add_eq, sgn_eq_toInt (by decide), BitVec.ofNat_toNat, BitVec.setWidth_eq,
    if_neg Bool.false_ne_true, Int.zero_add, BitVec.ofInt_add, BitVec.ofInt_toInt, ← BitVec.ofInt_add]

theorem foldl_intGroup_wraps (gs : List (List Int)) (a : Int) :
    gs.foldl (fun a g => intGroup a g false) (BitVec.ofInt 32 a) = BitVec.ofInt 32 (a + gs.flatten.sum) := by
  induction gs generalizing a with
  | nil => simp
  | cons g r ih => rw [List.foldl_cons, intGroup_wraps, ih, List.flatten_cons, List.sum_append, Int.add_assoc]

/-- The sum of a list's products, group by group, modulo 2³². -/
theorem sum_pieces_wraps (ps : List Int) :
    (pieces 16 ps).foldl (fun a g => intGroup a g false) 0 = BitVec.ofInt 32 (ps.foldl (fun a b => a + b) 0) := by
  rw [show (0 : Half) = BitVec.ofInt 32 0 from rfl, foldl_intGroup_wraps, flatten_pieces (by decide), foldl_add_eq]

theorem sgn_zero (w : Nat) : sgn w 0 = 0 := by
  rw [sgn, Nat.zero_mod, if_pos (by positivity)]
  rfl

/-! ### Several writes at their homes -/

/-- Writes at their homes, in order. -/
def State.putLines (s : State) (ws : List (Nat × List Byte)) : State := ws.foldl (fun s p => s.homeWrite p.1 p.2) s

theorem homeByte_putLines_of_miss (s : State) (ws : List (Nat × List Byte)) (a : Nat) (h : ∀ p ∈ ws, ¬(p.1 ≤ a ∧ a < p.1 + p.2.length)) :
    (s.putLines ws).homeByte a = s.homeByte a := by
  induction ws generalizing s with
  | nil => rfl
  | cons p r ih =>
    obtain ⟨hp, hr⟩ := List.forall_mem_cons.mp h
    exact (ih (s.homeWrite p.1 p.2) hr).trans ((State.homeByte_homeWrite s p.1 p.2 a).trans (if_neg hp))

/-- A byte that some of the writes cover, all of them with one value, has that value. -/
theorem homeByte_putLines_of_hit (s : State) (ws : List (Nat × List Byte)) (a : Nat) (v : Byte) (hhit : ∃ p ∈ ws, p.1 ≤ a ∧ a < p.1 + p.2.length)
    (h : ∀ p ∈ ws, p.1 ≤ a → a < p.1 + p.2.length → p.2.getD (a - p.1) 0 = v) : (s.putLines ws).homeByte a = v := by
  induction ws generalizing s with
  | nil =>
    obtain ⟨_, hp, _⟩ := hhit
    cases hp
  | cons p r ih =>
    obtain ⟨hp, hr⟩ := List.forall_mem_cons.mp h
    by_cases hlater : ∃ q ∈ r, q.1 ≤ a ∧ a < q.1 + q.2.length
    · exact ih (s.homeWrite p.1 p.2) hlater hr
    · have hmiss := homeByte_putLines_of_miss (s.homeWrite p.1 p.2) r a (fun q hq hc => hlater ⟨q, hq, hc⟩)
      obtain ⟨q, hq, hcov⟩ := hhit
      have hfirst : p.1 ≤ a ∧ a < p.1 + p.2.length := by
        rcases List.mem_cons.mp hq with rfl | hqr
        · exact hcov
        · exact absurd ⟨q, hqr, hcov⟩ hlater
      exact hmiss.trans ((State.homeByte_homeWrite s p.1 p.2 a).trans ((if_pos hfirst).trans (hp hfirst.1 hfirst.2)))

theorem foldl_foldl_homeWrite (us ks : List Nat) (f : Nat → Nat → Nat) (g : Nat → Nat → List Byte) (s : State) :
    us.foldl (fun s u => ks.foldl (fun s k => s.homeWrite (f u k) (g u k)) s) s =
      s.putLines (us.flatMap (fun u => ks.map (fun k => (f u k, g u k)))) := by
  rw [State.putLines, List.foldl_flatMap]
  simp only [List.foldl_map]

theorem mem_stripes {us ks : List Nat} {f : Nat → Nat → Nat} {g : Nat → Nat → List Byte} {p : Nat × List Byte} :
    p ∈ us.flatMap (fun u => ks.map (fun k => (f u k, g u k))) ↔ ∃ u ∈ us, ∃ k ∈ ks, p = (f u k, g u k) := by
  simp only [List.mem_flatMap, List.mem_map, eq_comm]

/-! ### Stripes -/

theorem mem_upTo_zero {n x : Nat} : x ∈ upTo 0 n ↔ x < n := by
  rw [mem_upTo, Nat.zero_add, and_iff_right (Nat.zero_le x)]

/-- An address of two stripes lies at one place of one stripe. -/
theorem stripe_inj {r u v k l : Nat} (hk : k < r) (hl : l < r) (h : u * r + k = v * r + l) : u = v ∧ k = l := by
  have hu := congrArg (· / r) h
  have hkl := congrArg (· % r) h
  simp only [Nat.mul_comm _ r, Nat.mul_add_div (Nat.zero_lt_of_lt hk), Nat.div_eq_of_lt hk, Nat.div_eq_of_lt hl, Nat.add_zero,
    Nat.mul_add_mod, Nat.mod_eq_of_lt hk, Nat.mod_eq_of_lt hl] at hu hkl
  exact ⟨hu, hkl⟩

theorem stripe_covers {j : NbJob} {u v k l m n : Nat} (hn : n ≤ 256) (hm : m < 256) (hk : k < j.call.r) (hl : l < j.call.r)
    (h : j.stripe v l ≤ j.stripe u k + m ∧ j.stripe u k + m < j.stripe v l + n) : v = u ∧ l = k := by
  unfold NbJob.stripe at h
  exact stripe_inj hl hk (by omega)

section Entries

variable (j : NbJob) (s : State)

/-! ### matvec -/

theorem matvec_out (hsat : j.call.isat = false) (hfmt : j.call.ofmt = false) : (nbMatvec j s).out =
    (upTo 0 j.call.c).flatMap (fun i => leBytes 4 (BitVec.ofInt 32 ((((j.input.map (fun b => sgn 8 b.toNat)).zip (upTo 0 j.call.r)).map
      (fun p => p.1 * sgn (matWidth j.call.fmt) ((j.row s p.2).getD i 0))).foldl (fun a b => a + b) 0)).toNat) := by
  unfold nbMatvec
  dsimp only
  rw [List.flatMap_map]
  refine List.flatMap_congr (fun i _ => ?_)
  rw [hfmt, hsat, if_neg Bool.false_ne_true]
  dsimp only
  rw [sum_pieces_wraps, List.zip_map_right, List.map_map]
  have hterm : ((fun p : Int × List Int => p.1 * p.2.getD i 0) ∘ Prod.map id (fun k => (j.row s k).map (sgn (matWidth j.call.fmt)))) =
      fun p => p.1 * sgn (matWidth j.call.fmt) ((j.row s p.2).getD i 0) := by
    funext p
    have hget := List.getD_map (j.row s p.2) 0 (n := i) (sgn (matWidth j.call.fmt))
    rw [sgn_zero] at hget
    exact congrArg (p.1 * ·) hget
  rw [hterm]

/-! ### fill -/

/-- The element bytes of a row in its stripe u that fill writes. -/
def NbJob.fillBytes (j : NbJob) (u : Nat) : List Byte :=
  (upTo 0 (Nat.min 256 (j.call.rowLen - 256 * u))).map (fun m => (leBytes 8 j.call.arg0).getD (m % 8) 0)

theorem fill_writes : (nbFill j s).st =
    s.putLines ((upTo 0 j.call.u).flatMap (fun u => (upTo 0 j.call.r).map (fun k => (j.stripe u k, j.fillBytes u)))) :=
  foldl_foldl_homeWrite _ _ j.stripe (fun u _ => j.fillBytes u) s

theorem length_fillBytes (u : Nat) : (j.fillBytes u).length = Nat.min 256 (j.call.rowLen - 256 * u) := by
  rw [NbJob.fillBytes, List.length_map, length_upTo]

theorem fill_element {u k m : Nat} (hu : u < j.call.u) (hk : k < j.call.r) (hm : m < 256) (hrow : 256 * u + m < j.call.rowLen) :
    (nbFill j s).st.homeByte (j.stripe u k + m) = (leBytes 8 j.call.arg0).getD (m % 8) 0 := by
  have hlen (v : Nat) : (j.fillBytes v).length ≤ 256 := by
    rw [length_fillBytes]
    exact Nat.min_le_left _ _
  have hin : m < (j.fillBytes u).length := by
    rw [length_fillBytes]
    exact lt_min hm (by omega)
  rw [fill_writes]
  refine homeByte_putLines_of_hit s _ _ _
    ⟨(j.stripe u k, j.fillBytes u), mem_stripes.mpr ⟨u, mem_upTo_zero.mpr hu, k, mem_upTo_zero.mpr hk, rfl⟩, Nat.le_add_right _ _, by dsimp only; omega⟩
    (fun p hp hlo hhi => ?_)
  obtain ⟨v, -, l, hl, rfl⟩ := mem_stripes.mp hp
  obtain ⟨rfl, rfl⟩ := stripe_covers (hlen v) hm hk (mem_upTo_zero.mp hl) ⟨hlo, hhi⟩
  dsimp only
  rw [Nat.add_sub_cancel_left, List.getD_eq_getElem _ _ hin]
  simp only [NbJob.fillBytes, List.getElem_map, getElem_upTo, Nat.zero_add]

theorem fill_leaves {a : Nat} (h : ∀ u k, u < j.call.u → k < j.call.r → a < j.stripe u k ∨ j.stripe u k + 256 ≤ a) :
    (nbFill j s).st.homeByte a = s.homeByte a := by
  rw [fill_writes]
  refine homeByte_putLines_of_miss s _ a (fun p hp hc => ?_)
  obtain ⟨u, hu, k, hk, rfl⟩ := mem_stripes.mp hp
  have hlen : (j.fillBytes u).length ≤ 256 := by
    rw [length_fillBytes]
    exact Nat.min_le_left _ _
  have := h u k (mem_upTo_zero.mp hu) (mem_upTo_zero.mp hk)
  dsimp only at hc
  omega

/-! ### stripe -/

/-- A row of the input of stripe, with zeros behind it. -/
def NbJob.padded (j : NbJob) (k : Nat) : List Byte :=
  (j.input.drop (k * j.call.rowLen)).take j.call.rowLen ++ List.replicate (256 * j.call.u - j.call.rowLen) 0

theorem stripe_writes : (nbStripe j s).st = s.putLines ((upTo 0 j.call.r).flatMap (fun k => (upTo 0 j.call.u).map
    (fun u => (j.stripe u k, ((j.padded k).drop (256 * u)).take 256)))) :=
  foldl_foldl_homeWrite _ _ (fun k u => j.stripe u k) (fun k u => ((j.padded k).drop (256 * u)).take 256) s

theorem length_rowOfInput (hin : j.input.length = j.call.r * j.call.rowLen) {k : Nat} (hk : k < j.call.r) :
    ((j.input.drop (k * j.call.rowLen)).take j.call.rowLen).length = j.call.rowLen := by
  have hle : (k + 1) * j.call.rowLen ≤ j.call.r * j.call.rowLen := Nat.mul_le_mul_right _ hk
  rw [Nat.succ_mul] at hle
  rw [List.length_take, List.length_drop, hin]
  omega

theorem length_padded (hin : j.input.length = j.call.r * j.call.rowLen) (hfit : j.call.rowLen ≤ 256 * j.call.u) {k : Nat} (hk : k < j.call.r) :
    (j.padded k).length = 256 * j.call.u := by
  rw [NbJob.padded, List.length_append, length_rowOfInput j hin hk, List.length_replicate]
  omega

theorem getD_padded (hin : j.input.length = j.call.r * j.call.rowLen) {k : Nat} (hk : k < j.call.r) (i : Nat) :
    (j.padded k).getD i 0 = if i < j.call.rowLen then j.input.getD (k * j.call.rowLen + i) 0 else 0 := by
  have hlen := length_rowOfInput j hin hk
  rw [NbJob.padded]
  split
  · next hi =>
    rw [List.getD_append _ _ _ _ (by omega)]
    simp only [List.getD_eq_getElem?_getD, List.getElem?_take, List.getElem?_drop, if_pos hi]
  · next hi =>
    rw [List.getD_append_right _ _ _ _ (by omega), List.getD_eq_getElem?_getD, List.getElem?_replicate]
    split <;> rfl

theorem stripe_byte (hin : j.input.length = j.call.r * j.call.rowLen) {u k m : Nat} (hu : u < j.call.u) (hk : k < j.call.r) (hm : m < 256)
    (hfit : j.call.rowLen ≤ 256 * j.call.u) : (nbStripe j s).st.homeByte (j.stripe u k + m) =
      if 256 * u + m < j.call.rowLen then j.input.getD (k * j.call.rowLen + 256 * u + m) 0 else 0 := by
  have hlen := length_padded j hin hfit hk
  have hline : (((j.padded k).drop (256 * u)).take 256).length = 256 := by
    rw [List.length_take, List.length_drop, hlen]
    omega
  rw [stripe_writes]
  refine homeByte_putLines_of_hit s _ _ _ ⟨(j.stripe u k, ((j.padded k).drop (256 * u)).take 256),
    mem_stripes.mpr ⟨k, mem_upTo_zero.mpr hk, u, mem_upTo_zero.mpr hu, rfl⟩, Nat.le_add_right _ _, by dsimp only; omega⟩ (fun p hp hlo hhi => ?_)
  obtain ⟨l, hl, v, -, rfl⟩ := mem_stripes.mp hp
  obtain ⟨rfl, rfl⟩ := stripe_covers (List.length_take_le _ _) hm hk (mem_upTo_zero.mp hl) ⟨hlo, hhi⟩
  dsimp only
  rw [Nat.add_sub_cancel_left, Nat.add_assoc, ← getD_padded j hin hk]
  simp only [List.getD_eq_getElem?_getD, List.getElem?_take, List.getElem?_drop, if_pos hm]

theorem stripe_leaves {a : Nat} (h : ∀ u k, u < j.call.u → k < j.call.r → a < j.stripe u k ∨ j.stripe u k + 256 ≤ a) :
    (nbStripe j s).st.homeByte a = s.homeByte a := by
  rw [stripe_writes]
  refine homeByte_putLines_of_miss s _ a (fun p hp hc => ?_)
  obtain ⟨k, hk, u, hu, rfl⟩ := mem_stripes.mp hp
  have hlen := List.length_take_le 256 ((j.padded k).drop (256 * u))
  have := h u k (mem_upTo_zero.mp hu) (mem_upTo_zero.mp hk)
  dsimp only at hc
  omega

end Entries

end Sys2Proof.Machine

namespace Sys2Proof.Proofs
open Sys2Proof.Machine

theorem nearBankEntryPointsCompute : Claims.NearBankEntryPointsCompute := by
  intro j s
  exact ⟨matvec_out j s, rfl, rfl, rfl, rfl, rfl, rfl, fun u k m => fill_element j s, fun a h => ⟨fill_leaves j s h, stripe_leaves j s h⟩, rfl, rfl,
    fun hin u k m hu hk hm hfit => stripe_byte j s hin hu hk hm hfit, rfl, rfl⟩

end Sys2Proof.Proofs
end

