-- ==== Sys2Proof/Proofs/NearBankCommands.lean ====
section
/-! PROOFS. Near-bank commands and the control store (R312 to R328). -/
namespace Sys2Proof.Machine

/-! ### The rejection log -/

theorem domainSend_dies (s : State) (target op aop u size scope ctx len rid pa : Nat) (val cv : Word) (data : List Byte) (core acc : Nat) :
    (s.domainSend target op aop u size scope ctx len rid pa val cv data core acc).dies = s.dies := by
  unfold State.domainSend State.send
  dsimp only [Msg.recipient]
  split <;> rfl

/-- The rejection log of a die (R318). -/
def State.rejects (d : Nat) (s : State) : Nat × Map RejEnt := ((s.die d).rlogN, (s.die d).rlog)

theorem agentFrame_rejects (d : Nat) : AgentFrame (State.rejects d) where
  dies s ds h := by
    obtain ⟨q, a, fb, n, l, he⟩ := h d
    rw [State.rejects, State.rejects, show State.die { s with dies := ds } d = mget Die.init ds d from rfl, he]
  streams _ _ _ := rfl
  wires _ _ := rfl
  link _ _ := rfl
  send s target op aop u size scope ctx len rid pa val cv data core acc := by
    rw [State.rejects, State.rejects, State.die, State.die, domainSend_dies]

theorem rejects_homeWrite (d : Nat) (s : State) (pa : Nat) (bs : List Byte) : (s.homeWrite pa bs).rejects d = s.rejects d := by
  obtain ⟨fr, hd⟩ := (homeWrite_wrote s pa bs).die d
  rw [State.rejects, State.rejects, hd]

theorem rejects_workDone (d : Nat) (s : State) (w : Nat) (x : Work) (e : Effect) : (s.workDone w x e).rejects d = s.rejects d := by
  unfold State.workDone
  dsimp only
  split
  · rfl
  · exact performWork_keeps (rejects_homeWrite d) (agentFrame_rejects d).send (fun _ _ _ => rfl) _ _

/-- A logged rejection stands in the log of its die. -/
theorem rejects_logReject (s : State) (d va pa ctx reason src core engine : Nat) : (s.logReject d va pa ctx reason src core engine).rejects d =
    ((s.die d).rlogN + 1, mset (s.die d).rlog ((s.die d).rlogN % 64)
      { va := BitVec.ofNat 64 va, bound := BitVec.ofNat 64 (rejectBound reason va), tstep := s.tstep, ctx := ctx, reason := reason, src := src,
        core := core % 64, die := dieOf core }) := by
  unfold State.logReject
  dsimp only
  rw [(agentFrame_rejects d).logError, State.rejects, State.die_modDie, if_pos rfl]

/-! ### Packets that fail -/

theorem AgentFrame.recordPutAny {β : Type} {φ : State → β} (h : AgentFrame φ) (s : State) (x : Work) (bs : List Byte) :
    φ (s.recordPutAny x bs).state = φ s := by
  have hput := h.recordPut s x bs
  unfold State.recordPutAny
  generalize s.recordPut x bs = r at hput
  cases r <;> exact hput

theorem withRecord_of_failed {s : State} {x : Work} (hx : x.cause ≠ 0) (body : Work → State → EngR Res) :
    s.withRecord x body = (s.recordPutAny x (recordBytes 0 0 x.cause 0)).andThen (fun w s =>
      .ok { out := w.1, posts := w.2, frames := [], cause := x.cause, errstat := x.errstat, erraddr := x.erraddr } s) := by
  rw [State.withRecord]
  dsimp only
  rw [if_pos hx, if_pos hx]

section Failing

variable {s : State} {w : Nat} {x : Work} {cause : Nat}

/-- A packet of this chapter that fails keeps its cause; its record, where it can be written, says so. -/
theorem nbFail_records (hc : cause ≠ 0) (run : Nat) (va : Word) {wr : Writes} {t : State} (hrec : s.recordPut x (recordBytes 0 0 cause 0) = .ok wr t) :
    ∃ st, s.nbFail w x cause run va = t.workDone w { x with cause := cause, errstat := engStatus (pKind x.pkt) 0 run, erraddr := va }
      { out := wr.1, posts := wr.2, frames := [], cause := cause, errstat := st, erraddr := va } := by
  have hput : s.recordPut { x with cause := cause, errstat := engStatus (pKind x.pkt) 0 run, erraddr := va } (recordBytes 0 0 cause 0) = .ok wr t := hrec
  refine ⟨engStatus (pKind x.pkt) 0 run, ?_⟩
  rw [State.nbFail]
  dsimp only
  rw [withRecord_of_failed hc, State.recordPutAny, hput]
  rfl

theorem nbFail_rejects (hc : cause ≠ 0) (run : Nat) (va : Word) (d : Nat) : (s.nbFail w x cause run va).rejects d = s.rejects d := by
  rw [State.nbFail]
  dsimp only
  rw [withRecord_of_failed hc]
  generalize { x with cause := cause, errstat := engStatus (pKind x.pkt) 0 run, erraddr := va } = y
  have hput := (agentFrame_rejects d).recordPutAny s y (recordBytes 0 0 y.cause 0)
  generalize s.recordPutAny y (recordBytes 0 0 y.cause 0) = r at hput
  cases r with
  | ok e t => exact (rejects_workDone d _ _ _ _).trans hput
  | stand v t => exact hput
  | wait t => exact hput
  | fail c k a t => exact (rejects_workDone d _ _ _ _).trans hput

/-- A packet that failed before, and whose access may be tried, ends with its cause. -/
theorem nbFailed_ends {i : Instr} {name : String} {y : Work} (hexec : exec i s = event name (s.nbFailed w y)) (hwait : y.wait = .go) (hc : y.cause ≠ 0)
    (hpkt : y.pkt = x.pkt) (hq : y.q = x.q) (hidx : y.idx = x.idx) {wr : Writes} {t : State}
    (hrec : s.recordPut y (recordBytes 0 0 y.cause 0) = .ok wr t) : s.WorkEnds i w x y.cause wr.1 wr.2 := by
  obtain ⟨st, hfail⟩ := nbFail_records (w := w) hc 0 y.erraddr hrec
  refine workEnds_of_done (t := t) (x' := { y with cause := y.cause, errstat := engStatus (pKind y.pkt) 0 0, erraddr := y.erraddr })
    (e := { out := wr.1, posts := wr.2, frames := [], cause := y.cause, errstat := st, erraddr := y.erraddr })
    ?_ (keeps_of_ok (agentFrame_cyc.recordPut s y _) hrec) hpkt hq hidx
  rw [hexec, event_next, State.nbFailed, hwait]
  exact congrArg some hfail

end Failing

/-! ### Dispatch -/

section Dispatch

variable {s t : State} {w : Nat} {x : Work}

/-- A packet whose command the front end has dispatched. -/
def Work.atUnit (x : Work) (t : State) (j : NbJob) : Work :=
  { x with stage := .dispatched, wait := .go, at_ := t.cyc, frames := j.store, ext := some (j.pa, j.call.extent, t.entryWrites (pEp x.pkt)) }

theorem exec_nearBankDispatch (h : s.Working w x) (hkind : pKind x.pkt = 0x40) : exec (.nearBankDispatch w) s = event "NEAR_BANK_DISPATCH"
    (match nbDispatch x s with
      | .ok (.ok j) t =>
        if t.unitFull (nearUnit j.pa) = true ∨ t.works.any (fun w => w.2.nbUndone) = true then none
        else some (((if t.entryWrites (pEp x.pkt) then t.dropFrames j.pa j.call.extent else t).forget (1024 + x.q)).setWork w
          (x.atUnit t j))
      | .ok (.error (r, pa, va)) t =>
        some ((t.logReject (dieOf (t.workAgent x).core) va pa x.ctx r 0 (match t.placer x.q x.idx with
            | some p => p.core
            | none => if pf x.pkt 9 2 = 1 then pCore x.pkt else (t.workAgent x).core) 9).nbFail w { x with wait := .go } 0x48 0
          (BitVec.ofNat 64 (if r = 1 then rejectBound r va else va)))
      | .wait t => some t
      | .stand v t => some (t.setWork w { x with wait := v })
      | .fail cause run va t => some (t.nbFail w x cause run va)) := by
  have hready := workReady_of_working h
  have hlate := lateCard_of_working h
  obtain ⟨hfind, -, -, hcause, hwait, -, -, hdesc, -⟩ := h
  rw [show exec (.nearBankDispatch w) s = execNearBankDispatch w s from rfl, execNearBankDispatch, hfind]
  dsimp only
  rw [hlate, if_neg (fun h => Bool.false_ne_true (hdesc.symm.trans h.2)), if_pos ⟨hkind, hready⟩, if_neg (not_not_intro hcause), resume_go hwait]
  congr 1
  cases nbDispatch x s with
  | ok r t => cases r <;> rfl
  | _ => rfl

theorem nearBank_dispatches (h : s.Working w x) (hkind : pKind x.pkt = 0x40) {j : NbJob} (hd : nbDispatch x s = .ok (.ok j) t)
    (hfull : t.unitFull (nearUnit j.pa) = false) (hdone : ∀ y ∈ t.works, y.2.nbUndone = false) :
    ∃ u, exec (.nearBankDispatch w) s = .next u ∧ mfind u.works w = some (x.atUnit t j) := by
  have hbusy : ¬(t.unitFull (nearUnit j.pa) = true ∨ t.works.any (fun w => w.2.nbUndone) = true) := by
    rintro (hf | ha)
    · exact Bool.false_ne_true (hfull.symm.trans hf)
    · obtain ⟨y, hy, hu⟩ := List.any_eq_true.mp ha
      exact Bool.false_ne_true ((hdone y hy).symm.trans hu)
  refine ⟨((if t.entryWrites (pEp x.pkt) then t.dropFrames j.pa j.call.extent else t).forget (1024 + x.q)).setWork w (x.atUnit t j), ?_,
    (mfind_mset ..).trans (if_pos rfl)⟩
  rw [exec_nearBankDispatch h hkind, event_next, hd]
  dsimp only
  rw [if_neg hbusy]

theorem nearBank_rejects (h : s.Working w x) (hkind : pKind x.pkt = 0x40) {r pa va : Nat} (hd : nbDispatch x s = .ok (.error (r, pa, va)) t) :
    ∃ u, exec (.nearBankDispatch w) s = .next u ∧ (u.die (dieOf (t.workAgent x).core)).rlogN = (t.die (dieOf (t.workAgent x).core)).rlogN + 1 ∧
      ∃ e, mfind (u.die (dieOf (t.workAgent x).core)).rlog ((t.die (dieOf (t.workAgent x).core)).rlogN % 64) = some e ∧
        e.reason = r ∧ e.va = BitVec.ofNat 64 va ∧ e.ctx = x.ctx := by
  have hexec := exec_nearBankDispatch h hkind
  rw [hd] at hexec
  dsimp only at hexec
  generalize hlog : t.logReject _ va pa x.ctx r 0 _ 9 = t' at hexec
  refine ⟨_, hexec.trans (by rw [event_next]), ?_⟩
  have hrejects := nbFail_rejects (s := t') (w := w) (x := { x with wait := .go }) (cause := 0x48) (by decide) 0
    (BitVec.ofNat 64 (if r = 1 then rejectBound r va else va)) (dieOf (t.workAgent x).core)
  rw [← hlog, rejects_logReject, hlog] at hrejects
  obtain ⟨hn, hl⟩ := Prod.mk.inj hrejects
  exact ⟨hn, _, by rw [hl]; exact (mfind_mset ..).trans (if_pos rfl), rfl, rfl, rfl⟩

end Dispatch

/-! ### A unit's work -/

section Performing

variable {s : State} {i : Instr} {w : Nat} {x : Work} {f : NbJob → State → NbOut} {j : NbJob}

/-- The events of near-bank commands by their entry points. -/
theorem exec_nearRow (hrow : nearRow i (pEp x.pkt) = some (w, true, f)) (hfind : mfind s.works w = some x) :
    ∃ name eps, exec i s = event name (s.nbPerform w eps f) ∧ eps (pEp x.pkt) = true := by
  unfold nearRow at hrow
  split at hrow <;> simp only [Option.some.injEq, Prod.mk.injEq, reduceCtorEq] at hrow <;> obtain ⟨rfl, hep, rfl⟩ := hrow
  · exact ⟨"NEAR_BANK_MATVEC", fun e => e == 0, rfl, hep⟩
  · exact ⟨"NEAR_BANK_COLSUM", fun e => e == 1, rfl, hep⟩
  · exact ⟨"NEAR_BANK_FILL", fun e => e == 2, rfl, hep⟩
  · exact ⟨"NEAR_BANK_STRIPE", fun e => e == 3, rfl, hep⟩
  · next v =>
    refine ⟨"NEAR_BANK_MICROPROGRAM", fun e => decide (4 ≤ e), ?_, hep⟩
    rw [show exec (.nearBankMicroprogram v) s = execNearBankMicroprogram v s from rfl, execNearBankMicroprogram, hfind]

variable (hrow : nearRow i (pEp x.pkt) = some (w, true, f)) (hwait : x.wait = .go) (hfind : mfind s.works w = some x) (hkind : pKind x.pkt = 0x40)
  (hstage : x.stage = .dispatched) (hat : x.at_ ≤ s.cyc) (hjob : x.nbJob = some j)
include hrow hwait hfind hkind hstage hat hjob

/-- What a dispatched command does next. -/
theorem exec_near : ∃ name, exec i s = event name
    (if x.cause ≠ 0 then s.nbFailed w x
     else if x.nbUndone then
       match (if pEp x.pkt < 4 then some (s.nbPlaces x j) else some (.ok (([], []), ([], [])) s)) with
       | none => none
       | some (.ok _ t) => some (((f j t).st.unitTake (nearUnit j.pa) (f j t).ucy).2.setWork w (x.nbKeep (f j t) ((f j t).st.unitTake (nearUnit j.pa) (f j t).ucy).1))
       | some (.wait t) => some t
       | some (.stand v t) => some (t.setWork w { x with wait := v })
       | some (.fail cause run va t) => some (t.nbFail w x cause run va)
     else s.nbEnd w x j) := by
  obtain ⟨name, eps, hexec, heps⟩ := exec_nearRow hrow hfind
  refine ⟨name, ?_⟩
  rw [hexec, State.nbPerform, hfind]
  dsimp only
  rw [hjob]
  dsimp only
  rw [if_pos ⟨hkind, hstage, heps, hat⟩, resume_go hwait] <;> rfl

theorem near_acts (hcause : x.cause = 0) (hundone : x.nbUndone = true) {t : State}
    (ht : (4 ≤ pEp x.pkt ∧ t = s) ∨ (pEp x.pkt < 4 ∧ ∃ p, s.nbPlaces x j = .ok p t)) :
    exec i s = .next (((f j t).st.unitTake (nearUnit j.pa) (f j t).ucy).2.setWork w
      (x.nbKeep (f j t) ((f j t).st.unitTake (nearUnit j.pa) (f j t).ucy).1)) := by
  obtain ⟨name, hexec⟩ := exec_near hrow hwait hfind hkind hstage hat hjob
  rw [hexec, event_next, if_neg (not_not_intro hcause), if_pos hundone]
  rcases ht with ⟨hep, rfl⟩ | ⟨hep, p, hp⟩
  · rw [if_neg (by omega)]
  · rw [if_pos hep, hp]

theorem near_ends (hcause : x.cause = 0) (hdone : x.nbUndone = false) (hok : leNat (mget [] x.frames 7) = 0) {r o : Writes} {s1 s2 : State}
    (hrec : s.recordPut x (List.replicate 16 0) = .ok r s1) (hput : s1.pput x (pBody x.pkt 2) (List.replicate j.call.outlen 0) = .ok o s2) :
    s.WorkEnds i w x 0
      ((rebyte o (mget [] x.frames 4)).1 ++ (rebyte r (recordBytes (leNat (mget [] x.frames 5)) (BitVec.ofNat 6 (leNat (mget [] x.frames 6))) 0 0)).1)
      ((rebyte o (mget [] x.frames 4)).2 ++ (rebyte r (recordBytes (leNat (mget [] x.frames 5)) (BitVec.ofNat 6 (leNat (mget [] x.frames 6))) 0 0)).2) := by
  obtain ⟨name, hexec⟩ := exec_near hrow hwait hfind hkind hstage hat hjob
  have hplaces : s.nbPlaces x j = .ok (r, o) s2 := (andThen_of_ok _ hrec).trans (andThen_of_ok _ hput)
  refine workEnds_of_done (t := s2) (x' := x) (e := { out := _, posts := _, frames := [], cause := 0, errstat := engStatus (pKind x.pkt) 0 0, erraddr := 0 })
    ?_ ((keeps_of_ok (agentFrame_cyc.pput s1 x _ _) hput).trans (keeps_of_ok (agentFrame_cyc.recordPut s x _) hrec)) rfl rfl rfl
  rw [hexec, event_next, if_neg (not_not_intro hcause), hdone, if_neg Bool.false_ne_true, State.nbEnd]
  dsimp only
  rw [if_neg (not_not_intro hok), resume_go hwait, hplaces]

theorem near_fails {cause : Nat} (hc : cause ≠ 0) (hfails : x.cause = cause ∨ (x.cause = 0 ∧ x.nbUndone = false ∧ leNat (mget [] x.frames 7) = cause))
    {r : Writes} {s1 : State} (hrec : s.recordPut x (recordBytes 0 0 cause 0) = .ok r s1) : s.WorkEnds i w x cause r.1 r.2 := by
  obtain ⟨name, hexec⟩ := exec_near hrow hwait hfind hkind hstage hat hjob
  rcases hfails with rfl | ⟨hcause, hdone, rfl⟩
  · rw [if_pos hc] at hexec
    exact nbFailed_ends hexec hwait hc rfl rfl rfl hrec
  · rw [if_neg (not_not_intro hcause), hdone, if_neg Bool.false_ne_true, State.nbEnd] at hexec
    dsimp only at hexec
    rw [if_pos hc] at hexec
    exact nbFailed_ends hexec hwait hc rfl rfl rfl hrec

end Performing

/-! ### The control store -/

section Store

variable {s : State} {words : List (BitVec 192)} {entries : List (BitVec 16)}

theorem manage_of_not {s : State} (h : s.managed = false) (a : Option State) : s.manage a = some s := by
  rw [State.manage, h, if_neg Bool.false_ne_true]

theorem manage_of_managed {s : State} (h : s.managed = true) (a : Option State) : s.manage a = a := by
  rw [State.manage, h, if_pos rfl]

/-- While no unit holds a command, an image that is verified is loaded. -/
theorem exec_controlStoreLoad (hworks : ∀ y ∈ s.works, y.2.stage ≠ .dispatched) (hheld : ∀ p ∈ s.nbHeld, ∀ e ∈ p.2, e ≤ s.cyc) :
    exec (.controlStoreLoad words entries) s = event "CONTROL_STORE_LOAD"
      (s.manage (some (if Config.storeVerified words entries then s.loadStore words entries else s))) := by
  have hfree : (s.works.any (fun w => decide (w.2.stage = .dispatched)) || s.nbHeld.any (fun p => p.2.any (fun e => decide (s.cyc < e)))) = false := by
    rw [Bool.or_eq_false_iff, List.any_eq_false, List.any_eq_false]
    refine ⟨fun y hy => by simpa using hworks y hy, fun p hp => ?_⟩
    rw [Bool.not_eq_true, List.any_eq_false]
    exact fun e he => by simpa using hheld p hp e he
  rw [show exec (.controlStoreLoad words entries) s = execControlStoreLoad words entries s from rfl, execControlStoreLoad, hfree, if_neg Bool.false_ne_true]

theorem mget_foldl_zip {α : Type} [DecidableEq α] (d : α) (l : List α) (a n : Nat) (hn : l.length ≤ n) (m : Map α) (k : Nat) :
    mget d ((l.zip (upTo a n)).foldl (fun m p => mput d m p.2 p.1) m) k = if a ≤ k ∧ k < a + l.length then l.getD (k - a) d else mget d m k := by
  induction l generalizing a n m with
  | nil =>
    rw [List.zip_nil_left, if_neg (by simp only [List.length_nil]; omega)]
    rfl
  | cons x r ih =>
    rw [List.length_cons] at hn ⊢
    obtain ⟨n, rfl⟩ : ∃ i, n = i + 1 := ⟨n - 1, by omega⟩
    rw [upTo, List.zip_cons_cons, List.foldl_cons, ih (a + 1) n (by omega), mget_mput]
    rcases Nat.lt_trichotomy k a with hlt | rfl | hgt
    · rw [if_neg (by omega), if_neg (by omega), if_neg (by omega)]
    · rw [if_neg (by omega), if_pos rfl, if_pos (by omega), Nat.sub_self, List.getD_cons_zero]
    · obtain ⟨i, rfl⟩ : ∃ i, k = a + 1 + i := ⟨k - (a + 1), by omega⟩
      by_cases hi : i < r.length
      · rw [if_pos (by omega), if_pos (by omega), Nat.add_sub_cancel_left, show a + 1 + i - a = i + 1 by omega, List.getD_cons_succ]
      · rw [if_neg (by omega), if_neg (by omega), if_neg (by omega)]

theorem mget_zip {α : Type} [DecidableEq α] (d : α) (l : List α) (a n : Nat) (hn : l.length ≤ n) (k : Nat) :
    mget d ((l.zip (upTo a n)).foldl (fun m p => mput d m p.2 p.1) []) (a + k) = l.getD k d := by
  rw [mget_foldl_zip d l a n hn]
  split
  · rw [Nat.add_sub_cancel_left]
  · rw [List.getD_eq_default _ _ (by omega)]
    rfl

theorem loadStore_loads (hw : words.length ≤ 256) (he : entries.length ≤ 252) (hlegal : ∀ x ∈ words, microLegal x = true)
    (hentry : ∀ e ∈ entries, e.toNat / 2 ^ 9 % 64 = 0) : (∀ k, mget 0 (s.loadStore words entries).stores.words k = words.getD k 0) ∧
      (∀ k, mget 0 (s.loadStore words entries).stores.entries (4 + k) = entries.getD k 0) ∧ (s.loadStore words entries).mem = s.mem := by
  have hall : words.all microLegal = true := List.all_eq_true.mpr hlegal
  have hent : entries.all entryLegal = true := List.all_eq_true.mpr (fun e h => decide_eq_true (hentry e h))
  rw [State.loadStore, if_pos ⟨hw, he, hall, hent⟩]
  refine ⟨fun k => ?_, fun k => mget_zip 0 entries 4 252 he k, rfl⟩
  have := mget_zip 0 words 0 256 hw k
  rwa [Nat.zero_add] at this

theorem loadStore_rejects (h : ∃ x ∈ words, microLegal x = false) : (s.loadStore words entries).stores = s.stores ∧
    ∃ r, ((s.loadStore words entries).die 0).trapWait = (s.die 0).trapWait ++ [r] ∧ r.cause = 0x7B ∧ r.cls = 2 := by
  obtain ⟨x, hx, hbad⟩ := h
  have hillegal : ¬(words.length ≤ 256 ∧ entries.length ≤ 252 ∧ words.all microLegal = true ∧ entries.all entryLegal = true) := by
    rintro ⟨-, -, hall, -⟩
    exact Bool.false_ne_true (hbad.symm.trans (List.all_eq_true.mp hall x hx))
  rw [State.loadStore, if_neg hillegal, State.managementRecord, State.postRecord]
  exact ⟨rfl, _, by rw [State.die_modDie, if_pos rfl], rfl, rfl⟩

end Store

end Sys2Proof.Machine

namespace Sys2Proof.Proofs
open Sys2Proof.Machine

theorem nearBankCommandsRun : Claims.NearBankCommandsRun := by
  intro s i w x f words entries
  refine ⟨fun h hkind => ⟨fun j t hd hfull hdone => ?_, fun r pa va t hd => nearBank_rejects h hkind hd⟩,
    fun hrow hwait hfind hkind hstage hat j hjob => ⟨fun hcause hundone t ht => ?_, ?_, ?_⟩, fun hm => ?_, fun hworks hheld hv => ?_,
    fun hm hworks hheld hv => ⟨fun hw he hl hent => ?_, fun hbad => ?_⟩⟩
  · obtain ⟨u, hnext, hfind⟩ := nearBank_dispatches h hkind hd hfull hdone
    exact ⟨u, _, hnext, hfind, rfl, rfl, rfl, rfl, rfl, rfl, rfl⟩
  · exact ⟨_, _, near_acts hrow hwait hfind hkind hstage hat hjob hcause hundone ht, rfl, (mfind_mset ..).trans (if_pos rfl), rfl, hstage, rfl⟩
  · exact fun hcause hdone hok r s1 o s2 hrec hput => near_ends hrow hwait hfind hkind hstage hat hjob hcause hdone hok hrec hput
  · exact fun cause r s1 hc hfails hrec => near_fails hrow hwait hfind hkind hstage hat hjob hc hfails hrec
  · rw [show exec (.controlStoreLoad words entries) s = execControlStoreLoad words entries s from rfl, execControlStoreLoad, event_next, manage_of_not hm]
  · rw [exec_controlStoreLoad hworks hheld, hv, if_neg Bool.false_ne_true, event_next, State.manage]
    split <;> rfl
  · refine ⟨s.loadStore words entries, ?_, loadStore_loads hw he hl hent⟩
    rw [exec_controlStoreLoad hworks hheld, hv, if_pos rfl, manage_of_managed hm, event_next]
  · refine ⟨s.loadStore words entries, ?_, loadStore_rejects hbad⟩
    rw [exec_controlStoreLoad hworks hheld, hv, if_pos rfl, manage_of_managed hm, event_next]

/-- Settles O45: near-bank commands, the control store, and the fixed entry points. -/
theorem nearBankUnitsCompute : Obligations.NearBankUnitsCompute := ⟨nearBankCommandsRun, nearBankEntryPointsCompute⟩

end Sys2Proof.Proofs
end

