-- ==== Sys2Proof/Proofs/WaitingUnit.lean ====
section
/-! PROOFS. A dispatched near-bank command that still has to try an access again acts only once it may (R287, R290, R327). -/
namespace Sys2Proof.Machine

/-- A `fill` of 16 rows of 32 elements of bytes, dispatched, whose access to its record's place may be tried again at cycle 1. -/
def waitingFill : Work where
  q := 0
  idx := 0
  ctx := 0
  pkt := BitVec.ofNat 512 (0x40 + 2 * 2 ^ 448)
  stage := .dispatched
  out := []
  posts := []
  frames := [(0, leBytes 64 (0x200000 + 16 * 2 ^ 128 + 32 * 2 ^ 160 + 10 * 2 ^ 192))]
  cause := 0
  run := 0
  pos := []
  erraddr := 0
  errstat := 0
  at_ := 0
  joined := false
  parts := []
  since := 0
  wait := .backoff 1 1
  chan := 0
  buf := []
  signalled := false
  ext := none

/-- A module with that command, on cycle 0. -/
def waitingFillState : State := { State.reset with works := [(0, waitingFill)] }

/-- Its unit does not act on that cycle. -/
theorem nbPerform_waitingFill : (waitingFillState.nbPerform 0 (fun e => e == 2) nbFill).isNone = true := by decide +kernel

end Sys2Proof.Machine

namespace Sys2Proof.Proofs
open Sys2Proof.Machine

/-- Refutes O57: a near-bank command at a fixed entry point that waits to try its access again does not act on its operand on this cycle, where the statement
has every command act whose unit has not. `waitingFillState` holds one. -/
theorem not_packetFormsComplete : ¬ Obligations.PacketFormsComplete := by
  unfold Obligations.PacketFormsComplete
  intro h
  obtain ⟨-, -, hacts, -⟩ := h waitingFillState 0 waitingFill
  obtain ⟨j, hjob⟩ : ∃ j, waitingFill.nbJob = some j := Option.isSome_iff_exists.mp (by decide +kernel)
  obtain ⟨u, hnext, -⟩ := hacts (.nearBankFill 0) nbFill (by rfl) rfl (by decide +kernel) rfl (Nat.le_refl 0) (by decide +kernel) j hjob
  rw [show exec (.nearBankFill 0) waitingFillState = event "NEAR_BANK_FILL" (waitingFillState.nbPerform 0 (fun e => e == 2) nbFill) from rfl, event_next,
    Option.isNone_iff_eq_none.mp nbPerform_waitingFill] at hnext
  cases hnext

end Sys2Proof.Proofs
end

