-- ==== Sys2Proof/Proofs/MovedTable.lean ====
section
/-! PROOFS. A page that is moved, and that holds the page-table entry that maps it (R260): a narrow write to that entry which is not yet at the home moves
with the page, and the entry that is rewritten is what stands below it. -/
namespace Sys2Proof.Machine

/-- The table at 0 is its own next table at every level, and its entry 1 maps the page at 0; a write to the last byte of that entry stands narrow. -/
def selfMapped : State :=
  { State.reset with
    plat := { Platform.init with bootStep := 6 }
    mem := [(0, 1), (8, 3)]
    blog := [{ pa := 15, b := 1, scope := 0, ctx := 0, core := 0, ser := 0, va := 0, origin := 0 }] }

/-- The entry that maps the page at 0x1000 of context 0. -/
theorem leafAt_selfMapped : selfMapped.leafAt 0x1000 4 (fld (selfMapped.rootOf 0).toNat 12 40 * 4096) = some (8, 3 + 2 ^ 56, 0) := by decide +kernel

/-- What the entry reads once the page has moved to 0x2000. -/
theorem entry_after_migration {u : State} (h : exec (.pageMigration 0 0x1000 0x2000) selfMapped = .next u) : u.homeNat 8 8 = 0x2003 := by
  have heval : (match exec (.pageMigration 0 0x1000 0x2000) selfMapped with
      | .next u => u.homeNat 8 8
      | _ => 0) = 0x2003 := by decide +kernel
  rw [h] at heval
  exact heval

end Sys2Proof.Machine

namespace Sys2Proof.Proofs
open Sys2Proof.Machine

/-- Refutes O17: the page-table entry of a page that is moved does not keep what a narrow write to it held, where the entry lies in that page.
`selfMapped` is such a state. -/
theorem not_translationFaultsAreSettled : ¬ Obligations.TranslationFaultsAreSettled := by
  unfold Obligations.TranslationFaultsAreSettled
  intro h
  obtain ⟨-, -, -, -, hmoves⟩ := h selfMapped 0 0 0 0 0 0x1000 0x2000
  obtain ⟨-, hmoves⟩ := hmoves 8 (3 + 2 ^ 56) 0 (by decide) leafAt_selfMapped (by decide) (by decide) (by decide) (by decide +kernel) (by decide +kernel)
  obtain ⟨u, hnext, -, hentry⟩ := hmoves (by decide) (.inl (by decide))
  rw [entry_after_migration hnext] at hentry
  exact absurd hentry (by decide)

/-- Refutes O59: the same page, whose entry after the migration the statement gives from the entry before. -/
theorem not_timetableFormsComplete : ¬ Obligations.TimetableFormsComplete := by
  unfold Obligations.TimetableFormsComplete
  intro h
  obtain ⟨-, -, -, -, -, -, -, -, -, -, -, -, -, -, -, -, -, -, -, -, -, -, -, hmoves⟩ :=
    h selfMapped 0 0 0 0 0x2000 0 (by decide) (by decide) (by decide)
  obtain ⟨u, hnext, hentry⟩ := hmoves 0x1000 8 (3 + 2 ^ 56) (by decide) leafAt_selfMapped (by decide) (by decide) (by decide +kernel) (by decide)
    (by decide +kernel) (.inl (by decide))
  rw [entry_after_migration hnext] at hentry
  exact absurd hentry (by decide)

end Sys2Proof.Proofs
end

