-- ==== Sys2Proof/Proofs/MovedImage.lean ====
section
/-! PROOFS. A context that leaves a core (R244, R368): the release of its pending writes comes first, and one of them may name another place for its
core images. -/
namespace Sys2Proof.Machine

/-- A pending write of a byte of the pointer to the core images in a descriptor at 0. -/
def imagesWrite : PWrite := { pa := 0x92, b := 1, scope := 0, ctx := 0, core := 0, ser := 0, va := 0, origin := 0 }

/-- A core about to leave context 0, whose semaphore 0 holds 5. -/
def leavingCore : Core :=
  { Core.init with
    bound := true
    im := { Image.init with sems := [(0, 5)] }
    ms := { Core.init.ms with pend := [imagesWrite] }
    walk := { Core.init.walk with phase := .drain 0 none } }

/-- Core 0 is about to leave context 0, whose descriptor and core images stand at 0. -/
def leavingState : State := { State.reset with cores := [(0, leavingCore)], descs := [(0, 0)] }

/-- The image is not written at 0. -/
theorem semaphore_after_switch {u : State} (h : exec (.switch 0) leavingState = .next u) : u.homeNat 0 2 = 0 := by
  have heval : (match exec (.switch 0) leavingState with
      | .next u => u.homeNat 0 2
      | _ => 0) = 0 := by decide +kernel
  rw [h] at heval
  exact heval

end Sys2Proof.Machine

namespace Sys2Proof.Proofs
open Sys2Proof.Machine

/-- Refutes O51: the image of a context that leaves its core is not written where its descriptor named the images before, where a pending write of the
context, which is released first, changes that pointer. `leavingState` is such a state. -/
theorem not_coresWalkTheTimetable : ¬ Obligations.CoresWalkTheTimetable := by
  unfold Obligations.CoresWalkTheTimetable
  rintro ⟨-, hswitch⟩
  obtain ⟨hcore, -⟩ := hswitch leavingState 0 0 0 0 0
  obtain ⟨-, -, hleaves, -⟩ := hcore (by decide)
  obtain ⟨u, hnext, -, -, hsems, -⟩ := hleaves 0 none rfl (Nat.le_refl 0) (by decide +kernel)
  have hsem := hsems 0 (by decide +kernel) 0 (by decide)
  rw [show 0 + 0 * 0x40000 + 2 * 0 = 0 from rfl, semaphore_after_switch hnext] at hsem
  exact absurd hsem (by decide +kernel)

end Sys2Proof.Proofs
end

