-- ==== Sys2Proof/Proofs/DomainTarget.lean ====
section
/-! PROOFS. The target's side of the domain (R395 to R399). A request in its turn of a pair of which nothing waits is performed, and the pair goes on by
one number: the drain that follows finds nothing. What is left are the rules of the ways a request is served. -/
namespace Sys2Proof.Machine

/-! ### What the target keeps for a source -/

@[simp] theorem peer_setPeer (s : State) (m : Nat) (p : DPeer) : (s.setPeer m p).peer m = p := by
  simp [State.peer, State.setPeer]

theorem peer_send (s : State) (x : Msg) (m : Nat) : (s.send x).peer m = s.peer m := by
  unfold State.send State.peer
  dsimp only
  split <;> rfl

theorem peer_homeWrite (s : State) (pa : Nat) (bs : List Byte) (m : Nat) : (s.homeWrite pa bs).peer m = s.peer m := by
  rw [State.peer, (homeWrite_wrote s pa bs).dom, State.peer]

theorem peer_logError (s : State) (d : Nat) (e : ErrEnt) (m : Nat) : (s.logError d e).peer m = s.peer m := rfl

/-- An error response is one more in the log of its die. -/
theorem elogN_logError (s : State) (d : Nat) (e : ErrEnt) : ((s.logError d e).die d).elogN = (s.die d).elogN + 1 := by
  simp [State.logError]

theorem homeView_setPeer (s : State) (m : Nat) (p : DPeer) : (s.setPeer m p).homeView = s.homeView := rfl

theorem homeBytes_congr {s t : State} (h : s.homeView = t.homeView) (pa n : Nat) : s.homeBytes pa n = t.homeBytes pa n := by
  simp only [State.homeBytes, funext (homeByte_congr h)]

theorem homeView_send (s : State) (x : Msg) : (s.send x).homeView = s.homeView := by
  unfold State.send State.homeView
  dsimp only
  split <;> rfl

theorem targetRefuses_congr {s t : State} (h : s.homeView = t.homeView) (pa n : Nat) : s.targetRefuses pa n = t.targetRefuses pa n := by
  simp only [State.targetRefuses, paKind_congr h]

theorem outbox_homeWrite (s : State) (pa : Nat) (bs : List Byte) : (s.homeWrite pa bs).outbox = s.outbox := by
  obtain ⟨_, _, _, _, _, hs⟩ := (homeWrite_wrote s pa bs).state
  rw [hs]

/-! ### The order of a pair -/

/-- Of a pair nothing waits and nothing is skipped: a drain does nothing. -/
theorem drainPeer_of_idle {s : State} {m : Nat} (hwaiting : (s.peer m).waiting = []) (hskipped : (s.peer m).skipped = []) (n : Nat) :
    s.drainPeer m n = s := by
  cases n with
  | zero => rfl
  | succ n => simp [State.drainPeer, hwaiting, hskipped]

/-- A pair goes on by one number. -/
def DPeer.onward (p : DPeer) : DPeer := { p with next := (p.next + 1) % 2 ^ 32 }

/-- The pair of a request's source goes on by one number. -/
def State.onward (s : State) (h : BitVec 384) : State := s.setPeer (hSrc h) (s.peer (hSrc h)).onward

@[simp] theorem peer_onward (s : State) (h : BitVec 384) : (s.onward h).peer (hSrc h) = (s.peer (hSrc h)).onward := peer_setPeer s _ _
theorem homeView_onward (s : State) (h : BitVec 384) : (s.onward h).homeView = s.homeView := rfl

/-- A well-formed request for this module is the next of its pair, of which nothing waits. -/
structure State.InTurn (s : State) (h : BitVec 384) : Prop where
  well : hMalformed h = false
  dst : hDst h = s.dom.modid
  turn : hPseq h = (s.peer (hSrc h)).next
  waiting : (s.peer (hSrc h)).waiting = []
  skipped : (s.peer (hSrc h)).skipped = []

/-- A request in its turn that nothing holds back is performed; the drain that follows does nothing where the pair has no more to wait for. -/
theorem arrive_inTurn {s : State} {h : BitVec 384} {data : List Byte} {op : Nat} (hin : s.InTurn h) (hop : hOp h = op)
    (hlen : op = 2 → data.length = hLen h) (hfree : s.requestHeld h data = false)
    (hwaiting : (((s.onward h).serve h data).peer (hSrc h)).waiting = []) (hskipped : (((s.onward h).serve h data).peer (hSrc h)).skipped = []) :
    s.arrive h data op = (s.onward h).serve h data := by
  have hgood : (hMalformed h || decide (hOp h ≠ op) || decide (hDst h ≠ s.dom.modid) || (decide (op = 2) && decide (data.length ≠ hLen h))) = false := by
    simp only [hin.well, hop, hin.dst, Bool.false_or, ne_eq, not_true_eq_false, decide_false, Bool.and_eq_false_iff, decide_eq_false_iff_not, not_not]
    by_cases h2 : op = 2
    · exact .inr (hlen h2)
    · exact .inl h2
  unfold State.arrive
  dsimp only
  rw [hgood, if_neg Bool.false_ne_true, if_pos ⟨hin.turn, hfree⟩]
  exact drainPeer_of_idle hwaiting hskipped _

/-- A request that its target's map refuses is never held back. -/
theorem requestHeld_of_refused {s : State} {h : BitVec 384} {data : List Byte}
    (href : s.targetRefuses (hPa h) (if hOp h = 1 then hLen h else if hOp h = 2 then data.length else hSize h) = true) : s.requestHeld h data = false := by
  simp [State.requestHeld, href]

/-- An atomic that has been performed is never held back. -/
theorem requestHeld_of_performed {s : State} {h : BitVec 384} {data : List Byte} {x : Nat × Word × Nat} (hop : hOp h = 3)
    (hdone : (s.peer (hSrc h)).ids.find? (fun x => decide (x.1 = fld h.toNat 160 32)) = some x) : s.requestHeld h data = false := by
  have hany : (s.peer (hSrc h)).ids.any (fun x => decide (x.1 = fld h.toNat 160 32)) = true :=
    List.any_eq_true.2 ⟨x, List.mem_of_find?_eq_some hdone, by simpa using List.find?_some hdone⟩
  simp [State.requestHeld, hop, hany]

/-! ### Answers -/

/-- The answer to a request. -/
def State.answerTo (s : State) (h : BitVec 384) (op cause : Nat) (val : Word) (rid : Nat) (data : List Byte) : Msg :=
  .domain (domainHdr op 0 0 0 0 (hCtx h) s.dom.modid (hSrc h) data.length (s.sgen % 2 ^ 32) rid 0 cause (hPseq h) val 0) data

section
variable (s : State) (h : BitVec 384) (op cause : Nat) (val : Word) (rid : Nat) (data : List Byte)

theorem answerTo_homeWrite (pa : Nat) (bs : List Byte) : (s.homeWrite pa bs).answerTo h op cause val rid data = s.answerTo h op cause val rid data := by
  obtain ⟨_, _, _, _, _, hs⟩ := (homeWrite_wrote s pa bs).state
  rw [hs]
  rfl

theorem outbox_respond : (s.respond h op cause val rid data).outbox = s.outbox ++ [s.answerTo h op cause val rid data] := rfl
theorem mem_respond : (s.respond h op cause val rid data).mem = s.mem := rfl
theorem homeView_respond : (s.respond h op cause val rid data).homeView = s.homeView := homeView_send _ _
theorem peer_respond (m : Nat) : (s.respond h op cause val rid data).peer m = s.peer m := peer_send _ _ m
end

/-- The number of the response to a request. -/
def responseOp (h : BitVec 384) : Nat := if hOp h = 1 then 9 else if hOp h = 2 then 10 else 11

/-- The data of an error response: zeros for a read. -/
def errorData (h : BitVec 384) : List Byte := if hOp h = 1 then List.replicate (hLen h) 0 else []

theorem outbox_errorRequest (s : State) (h : BitVec 384) (cause : Nat) :
    (s.errorRequest h cause).outbox = s.outbox ++ [s.answerTo h (responseOp h) cause 0 0 (errorData h)] := by
  rw [State.errorRequest]
  exact outbox_respond _ h (responseOp h) cause 0 0 (errorData h)

theorem mem_errorRequest (s : State) (h : BitVec 384) (cause : Nat) : (s.errorRequest h cause).mem = s.mem := by
  rw [State.errorRequest]
  exact mem_respond _ h (responseOp h) cause 0 0 (errorData h)

theorem peer_errorRequest (s : State) (h : BitVec 384) (cause m : Nat) : (s.errorRequest h cause).peer m = s.peer m := by
  rw [State.errorRequest]
  exact peer_respond _ h (responseOp h) cause 0 0 (errorData h) m

/-! ### Reads -/

theorem peer_serveRead (s : State) (h : BitVec 384) (m : Nat) : (s.serveRead h).peer m = s.peer m := by
  unfold State.serveRead
  split
  · exact peer_errorRequest s h _ m
  split
  · exact peer_errorRequest s h _ m
  · exact peer_respond s h _ _ _ _ _ m

/-- A read in its turn is performed. -/
theorem exec_domainRead {s : State} {h : BitVec 384} (hdom : s.inDomain = true) (hin : s.InTurn h) (hop : hOp h = 1) (hfree : s.requestHeld h [] = false) :
    exec (.domainReadRequest h) s = .next ((s.onward h).serveRead h) := by
  have hserve : (s.onward h).serve h [] = (s.onward h).serveRead h := by simp only [State.serve, hop]
  have harrive := arrive_inTurn (data := []) hin hop (fun h2 => absurd h2 (by decide)) hfree
    (by rw [hserve, peer_serveRead, peer_onward]; exact hin.waiting) (by rw [hserve, peer_serveRead, peer_onward]; exact hin.skipped)
  show Host.Outcome.next (if s.inDomain then s.arrive h [] 1 else s) = _
  rw [if_pos hdom, harrive, hserve]

/-! ### Writes -/

/-- A write that is refused, its number among the refused ones of its pair. -/
def State.refuseWrite (s : State) (h : BitVec 384) : State :=
  (s.setPeer (hSrc h) { s.peer (hSrc h) with refused := hPseq h :: (s.peer (hSrc h)).refused }).refuseRequest h

theorem peer_refuseWrite (s : State) (h : BitVec 384) :
    (s.refuseWrite h).peer (hSrc h) = { s.peer (hSrc h) with refused := hPseq h :: (s.peer (hSrc h)).refused } := by
  rw [State.refuseWrite, State.refuseRequest, peer_errorRequest, peer_setPeer]

/-- A write in its turn that its target's map refuses. -/
theorem exec_domainWrite_refused {s : State} {h : BitVec 384} {bs : List Byte} (hdom : s.inDomain = true) (hin : s.InTurn h) (hop : hOp h = 2)
    (hlen : bs.length = hLen h) (href : s.targetRefuses (hPa h) bs.length = true) :
    exec (.domainWriteRequest h bs) s = .next ((s.onward h).refuseWrite h) := by
  have href1 : (s.onward h).targetRefuses (hPa h) bs.length = true := by rw [targetRefuses_congr (homeView_onward s h), href]
  have hserve : (s.onward h).serve h bs = (s.onward h).refuseWrite h := by
    rw [State.serve, hop]
    exact if_pos href1
  have harrive := arrive_inTurn hin hop (fun _ => hlen) (requestHeld_of_refused (by simpa [hop] using href))
    (by rw [hserve, peer_refuseWrite, peer_onward]; exact hin.waiting) (by rw [hserve, peer_refuseWrite, peer_onward]; exact hin.skipped)
  show Host.Outcome.next (if s.inDomain then s.arrive h bs 2 else s) = _
  rw [if_pos hdom, harrive, hserve]

/-- A write in its turn is performed at its home and acknowledged. -/
theorem exec_domainWrite {s : State} {h : BitVec 384} {bs : List Byte} (hdom : s.inDomain = true) (hin : s.InTurn h) (hop : hOp h = 2)
    (hlen : bs.length = hLen h) (href : s.targetRefuses (hPa h) bs.length = false) (hfree : s.requestHeld h bs = false) :
    exec (.domainWriteRequest h bs) s = .next (((s.onward h).homeWrite (hPa h) bs).respond h 10 0 0 0 []) := by
  have href1 : (s.onward h).targetRefuses (hPa h) bs.length = false := by rw [targetRefuses_congr (homeView_onward s h), href]
  have hserve : (s.onward h).serve h bs = ((s.onward h).homeWrite (hPa h) bs).respond h 10 0 0 0 [] := by
    rw [State.serve, hop]
    exact if_neg (by rw [href1]; decide)
  have harrive := arrive_inTurn hin hop (fun _ => hlen) hfree
    (by rw [hserve, peer_respond, peer_homeWrite, peer_onward]; exact hin.waiting)
    (by rw [hserve, peer_respond, peer_homeWrite, peer_onward]; exact hin.skipped)
  show Host.Outcome.next (if s.inDomain then s.arrive h bs 2 else s) = _
  rw [if_pos hdom, harrive, hserve]

/-! ### Atomics -/

/-- The identifier of an atomic request. -/
def hRid (h : BitVec 384) : Nat := fld h.toNat 160 32

/-- The value an atomic request leaves where its operand was. -/
def hNew (h : BitVec 384) (old : Nat) : Option Nat :=
  atomicNew (fld h.toNat 8 8) (fld h.toNat 4 1) (8 * hSize h) old (hVal h) (fld h.toNat 320 64)

/-- Memory after an atomic request has been performed. -/
def State.atomicDone (s : State) (h : BitVec 384) : State :=
  match hNew h (s.homeNat (hPa h) (hSize h)) with
  | some v => s.homeWrite (hPa h) (leBytes (hSize h) v)
  | none => s

/-- An atomic request performed for the first time. -/
def State.firstAtomic (s : State) (h : BitVec 384) : State :=
  let old := BitVec.ofNat 64 (s.homeNat (hPa h) (hSize h))
  let p := (s.atomicDone h).peer (hSrc h)
  ((s.atomicDone h).setPeer (hSrc h) { p with ids := keepIds s.cyc p.ids (hRid h, old, s.cyc) }).respond h 11 0 old (hRid h) []

theorem mem_keepIds (cyc : Nat) (l : List (Nat × Word × Nat)) (x : Nat × Word × Nat) : x ∈ keepIds cyc l x := by
  unfold keepIds
  split
  · split <;> exact List.mem_cons_self
  · exact List.mem_singleton.2 rfl

theorem peer_atomicDone (s : State) (h : BitVec 384) (m : Nat) : (s.atomicDone h).peer m = s.peer m := by
  unfold State.atomicDone
  split
  · exact peer_homeWrite s _ _ m
  · rfl

theorem outbox_atomicDone (s : State) (h : BitVec 384) : (s.atomicDone h).outbox = s.outbox := by
  unfold State.atomicDone
  split
  · exact outbox_homeWrite s _ _
  · rfl

theorem answerTo_atomicDone (s : State) (h : BitVec 384) (op cause : Nat) (val : Word) (rid : Nat) (data : List Byte) :
    (s.atomicDone h).answerTo h op cause val rid data = s.answerTo h op cause val rid data := by
  unfold State.atomicDone
  split
  · exact answerTo_homeWrite s h op cause val rid data _ _
  · rfl

theorem outbox_firstAtomic (s : State) (h : BitVec 384) : (s.firstAtomic h).outbox =
    s.outbox ++ [s.answerTo h 11 0 (BitVec.ofNat 64 (s.homeNat (hPa h) (hSize h))) (hRid h) []] := by
  have hanswer := answerTo_atomicDone s h 11 0 (BitVec.ofNat 64 (s.homeNat (hPa h) (hSize h))) (hRid h) []
  rw [State.firstAtomic, outbox_respond, ← hanswer, ← outbox_atomicDone s h]
  rfl

theorem peer_firstAtomic (s : State) (h : BitVec 384) : (s.firstAtomic h).peer (hSrc h) =
    { s.peer (hSrc h) with ids := keepIds s.cyc (s.peer (hSrc h)).ids (hRid h, BitVec.ofNat 64 (s.homeNat (hPa h) (hSize h)), s.cyc) } := by
  rw [State.firstAtomic, peer_respond, peer_setPeer, peer_atomicDone]

theorem homeView_firstAtomic (s : State) (h : BitVec 384) : (s.firstAtomic h).homeView = (s.atomicDone h).homeView := by
  rw [State.firstAtomic, homeView_respond, homeView_setPeer]

/-- An atomic in its turn that has been performed is answered as it was then. -/
theorem exec_domainAtomic_again {s : State} {h : BitVec 384} {x : Nat × Word × Nat} (hdom : s.inDomain = true) (hin : s.InTurn h) (hop : hOp h = 3)
    (hdone : (s.peer (hSrc h)).ids.find? (fun x => decide (x.1 = hRid h)) = some x) :
    exec (.domainAtomicRequest h) s = .next ((s.onward h).respond h 11 0 x.2.1 (hRid h) []) := by
  have hdone1 : ((s.onward h).peer (hSrc h)).ids.find? (fun x => decide (x.1 = hRid h)) = some x := by rw [peer_onward]; exact hdone
  have hserve : (s.onward h).serve h [] = (s.onward h).respond h 11 0 x.2.1 (hRid h) [] := by
    rw [State.serve, hop]
    simp only [State.serveAtomic]
    rw [show fld h.toNat 160 32 = hRid h from rfl, hdone1]
  have harrive := arrive_inTurn (data := []) hin hop (fun h2 => absurd h2 (by decide)) (requestHeld_of_performed hop hdone)
    (by rw [hserve, peer_respond, peer_onward]; exact hin.waiting) (by rw [hserve, peer_respond, peer_onward]; exact hin.skipped)
  show Host.Outcome.next (if s.inDomain then s.arrive h [] 3 else s) = _
  rw [if_pos hdom, harrive, hserve]

/-- An atomic in its turn is performed where it has not been before. -/
theorem exec_domainAtomic {s : State} {h : BitVec 384} (hdom : s.inDomain = true) (hin : s.InTurn h) (hop : hOp h = 3)
    (hnew : (s.peer (hSrc h)).ids.find? (fun x => decide (x.1 = hRid h)) = none) (href : s.targetRefuses (hPa h) (hSize h) = false)
    (hfree : s.requestHeld h [] = false) (hgood : firstBad s.bad (hPa h) (hSize h) = none) :
    exec (.domainAtomicRequest h) s = .next ((s.onward h).firstAtomic h) := by
  have hnew1 : ((s.onward h).peer (hSrc h)).ids.find? (fun x => decide (x.1 = hRid h)) = none := by rw [peer_onward]; exact hnew
  have href1 : (s.onward h).targetRefuses (hPa h) (hSize h) = false := by rw [targetRefuses_congr (homeView_onward s h), href]
  have hbad : (firstBad (s.onward h).bad (hPa h) (hSize h)).isSome = false := by
    rw [show (s.onward h).bad = s.bad from rfl, hgood]; rfl
  have hserve : (s.onward h).serve h [] = (s.onward h).firstAtomic h := by
    rw [State.serve, hop]
    simp only [State.serveAtomic]
    rw [show fld h.toNat 160 32 = hRid h from rfl, hnew1]
    dsimp only
    rw [href1, hbad, if_neg Bool.false_ne_true, if_neg Bool.false_ne_true]
    rfl
  have harrive := arrive_inTurn (data := []) hin hop (fun h2 => absurd h2 (by decide)) hfree
    (by rw [hserve, peer_firstAtomic, peer_onward]; exact hin.waiting) (by rw [hserve, peer_firstAtomic, peer_onward]; exact hin.skipped)
  show Host.Outcome.next (if s.inDomain then s.arrive h [] 3 else s) = _
  rw [if_pos hdom, harrive, hserve]

/-! ### Malformed messages, repeats and skips -/

/-- A malformed request of any kind is logged. -/
theorem arrive_malformed {s : State} {h : BitVec 384} (hbad : hMalformed h = true) (data : List Byte) (op : Nat) : s.arrive h data op = s.logMalformed := by
  simp [State.arrive, hbad]

/-- A write that has been performed comes again. -/
theorem arrive_repeat {s : State} {h : BitVec 384} {bs : List Byte} (hwell : hMalformed h = false) (hop : hOp h = 2) (hdst : hDst h = s.dom.modid)
    (hlen : bs.length = hLen h) (hturn : hPseq h ≠ (s.peer (hSrc h)).next) (hpast : ahead (hPseq h) (s.peer (hSrc h)).next = false)
    (hkept : (s.peer (hSrc h)).skipped.contains (hPseq h) = false) :
    s.arrive h bs 2 = s.respond h 10 (if (s.peer (hSrc h)).refused.contains (hPseq h) then 0x47 else 0) 0 0 [] := by
  unfold State.arrive
  dsimp only
  rw [hkept, if_neg (by simp [hwell, hop, hdst, hlen]), if_neg (fun h => hturn h.1), if_neg (by simp [hturn, hpast]), if_neg Bool.false_ne_true, if_pos rfl]

/-- The pair of a skip's source with the skip's number marked. -/
def DPeer.skip (p : DPeer) (n : Nat) : DPeer := { p with skipped := n :: p.skipped, waiting := p.waiting.filter (fun x => hPseq x.1 != n) }

/-- A drain of a pair goes past the number that is skipped. -/
theorem drainPeer_skip {s : State} {m : Nat} {p : DPeer} (hwaiting : p.waiting = []) (hskipped : p.skipped = [p.next]) :
    (s.setPeer m p).drainPeer m 2 = ((s.setPeer m p).setPeer m p.onward) := by
  have hother : (p.next + 1) % 2 ^ 32 ≠ p.next := by omega
  have hstop : p.onward.skipped.contains p.onward.next = false := by
    rw [show p.onward.skipped = [p.next] from hskipped]
    simp only [List.contains_cons, List.contains_nil, Bool.or_false, beq_eq_false_iff_ne]
    exact hother
  have hfirst : p.skipped.contains p.next = true := by simp [hskipped]
  rw [State.drainPeer, peer_setPeer, if_pos hfirst, show ({ p with next := (p.next + 1) % 2 ^ 32 } : DPeer) = p.onward from rfl, State.drainPeer,
    peer_setPeer, if_neg (by rw [hstop]; decide), show p.onward.waiting = [] from hwaiting]
  simp only [List.find?_nil]

/-- A skip in its turn takes the place of its request and is acknowledged. -/
theorem exec_domainSkip {s : State} {h : BitVec 384} (hdom : s.inDomain = true) (hin : s.InTurn h) (hop : hOp h = 12) :
    exec (.domainSkip h) s = .next (((s.setPeer (hSrc h) ((s.peer (hSrc h)).skip (hPseq h))).setPeer (hSrc h)
      ((s.peer (hSrc h)).skip (hPseq h)).onward).respond h 10 0 0 0 []) := by
  have hdrain := drainPeer_skip (s := s) (m := hSrc h) (p := (s.peer (hSrc h)).skip (hPseq h)) (by simp [DPeer.skip, hin.waiting])
    (by rw [DPeer.skip, hin.skipped, hin.turn])
  have hcond : (hPseq h = (s.peer (hSrc h)).next ∨ ahead (hPseq h) (s.peer (hSrc h)).next = true) ∧
      (s.peer (hSrc h)).skipped.contains (hPseq h) = false := ⟨.inl hin.turn, by rw [hin.skipped]; rfl⟩
  show execDomainSkip h s = _
  unfold execDomainSkip
  dsimp only
  rw [if_pos hdom, if_neg (by simp [hin.well, hop, hin.dst]), if_pos hcond]
  rw [show ({ s.peer (hSrc h) with skipped := hPseq h :: (s.peer (hSrc h)).skipped, waiting := (s.peer (hSrc h)).waiting.filter (fun x => hPseq x.1 != hPseq h) } : DPeer) =
    (s.peer (hSrc h)).skip (hPseq h) from rfl, show ((s.peer (hSrc h)).skip (hPseq h)).waiting.length + ((s.peer (hSrc h)).skip (hPseq h)).skipped.length + 1 = 2 from
      by simp [DPeer.skip, hin.waiting, hin.skipped], hdrain]

theorem exec_domainSkip_malformed {s : State} {h : BitVec 384} (hdom : s.inDomain = true) (hbad : hMalformed h = true) :
    exec (.domainSkip h) s = .next s.logMalformed := by
  show execDomainSkip h s = _
  unfold execDomainSkip
  dsimp only
  rw [if_pos hdom, if_pos (by simp [hbad])]

end Sys2Proof.Machine

namespace Sys2Proof.Proofs
open Sys2Proof.Machine

/-- Settles O18: each request is performed by the rule of its kind, after which the pair of its source has nothing left to drain. -/
theorem domainRequestsAreServed : Obligations.DomainRequestsAreServed := by
  unfold Obligations.DomainRequestsAreServed
  intro s h bs hdom hdst
  refine ⟨?_, ?_, ?_, ?_, ?_, ?_⟩
  · rintro ⟨hwell, hturn, hwaiting, hskipped⟩ hop
    have hin : s.InTurn h := ⟨hwell, hdst, hturn, hwaiting, hskipped⟩
    have hrefuses (n : Nat) : (s.onward h).targetRefuses (hPa h) n = s.targetRefuses (hPa h) n := targetRefuses_congr (homeView_onward s h) _ _
    refine ⟨fun href hfree => ⟨fun hgood => ⟨_, exec_domainRead hdom hin hop hfree, ?_⟩, fun hbad => ⟨_, exec_domainRead hdom hin hop hfree, ?_⟩⟩,
      fun href => ⟨_, exec_domainRead hdom hin hop (requestHeld_of_refused (by simpa [hop] using href)), ?_⟩⟩
    · have hok : (firstBad (s.onward h).bad (hPa h) (hLen h)).isSome = false := by rw [show (s.onward h).bad = s.bad from rfl, hgood]; rfl
      rw [State.serveRead, hrefuses, href, hok, if_neg Bool.false_ne_true, if_neg Bool.false_ne_true, peer_respond, peer_onward,
        homeBytes_congr (homeView_onward s h)]
      exact ⟨rfl, rfl, rfl⟩
    · have hok : (firstBad (s.onward h).bad (hPa h) (hLen h)).isSome = true := Option.isSome_iff_ne_none.2 hbad
      rw [State.serveRead, hrefuses, href, hok, if_neg Bool.false_ne_true, if_pos rfl, outbox_errorRequest, mem_errorRequest, responseOp, errorData,
        if_pos hop, if_pos hop]
      exact ⟨rfl, rfl⟩
    · rw [State.serveRead, hrefuses, href, if_pos rfl, State.refuseRequest, outbox_errorRequest, mem_errorRequest, responseOp, errorData,
        if_pos hop, if_pos hop]
      exact ⟨rfl, rfl⟩
  · rintro ⟨hwell, hturn, hwaiting, hskipped⟩ hop hlen
    have hin : s.InTurn h := ⟨hwell, hdst, hturn, hwaiting, hskipped⟩
    refine ⟨fun href hfree => ⟨_, exec_domainWrite hdom hin hop hlen href hfree, ?_, ?_, fun a ha => ?_, ?_⟩,
      fun href => ⟨_, exec_domainWrite_refused hdom hin hop hlen href, ?_, ?_, ?_⟩⟩
    · rw [outbox_respond, answerTo_homeWrite, outbox_homeWrite]
      rfl
    · rw [homeBytes_congr (homeView_respond _ _ _ _ _ _ _), homeBytes_homeWrite]
    · rw [homeByte_congr (homeView_respond _ _ _ _ _ _ _), State.homeByte_homeWrite, if_neg (by omega), homeByte_congr (homeView_onward s h)]
    · rw [peer_respond, peer_homeWrite, peer_onward]
      rfl
    · rw [State.refuseWrite, State.refuseRequest, outbox_errorRequest, responseOp, errorData, if_neg (by omega), if_pos hop, if_neg (by omega)]
      rfl
    · rw [State.refuseWrite, State.refuseRequest, mem_errorRequest]
      rfl
    · rw [peer_refuseWrite]
      exact List.mem_cons_self
  · rintro ⟨hwell, hturn, hwaiting, hskipped⟩ hop
    have hin : s.InTurn h := ⟨hwell, hdst, hturn, hwaiting, hskipped⟩
    have hold : (s.onward h).homeNat (hPa h) (hSize h) = s.homeNat (hPa h) (hSize h) := homeNat_congr (homeView_onward s h) _ _
    refine ⟨fun x hx => ⟨_, exec_domainAtomic_again hdom hin hop hx, rfl, rfl⟩,
      fun hnew href hfree hgood => ⟨_, exec_domainAtomic hdom hin hop hnew href hfree hgood, ?_, fun v hv => ?_, fun hv => ?_, ?_⟩⟩
    · rw [outbox_firstAtomic, hold]
      rfl
    · have hnewv : hNew h ((s.onward h).homeNat (hPa h) (hSize h)) = some v := by rw [hold]; exact hv
      rw [homeBytes_congr (homeView_firstAtomic _ _), State.atomicDone, hnewv]
      have hbytes := homeBytes_homeWrite (s.onward h) (hPa h) (leBytes (hSize h) v)
      rwa [length_leBytes] at hbytes
    · have hnewv : hNew h ((s.onward h).homeNat (hPa h) (hSize h)) = none := by rw [hold]; exact hv
      have hview := homeView_firstAtomic (s.onward h) h
      rw [State.atomicDone, hnewv] at hview
      exact congrArg HomeView.mem hview
    · rw [peer_firstAtomic, hold]
      exact mem_keepIds _ _ _
  · intro hbad
    refine ⟨s.logMalformed, ⟨?_, ?_, ?_, exec_domainSkip_malformed hdom hbad⟩, rfl, elogN_logError s 0 _⟩
    · show Host.Outcome.next (if s.inDomain then s.arrive h [] 1 else s) = _
      rw [if_pos hdom, arrive_malformed hbad]
    · show Host.Outcome.next (if s.inDomain then s.arrive h [] 3 else s) = _
      rw [if_pos hdom, arrive_malformed hbad]
    · show Host.Outcome.next (if s.inDomain then s.arrive h bs 2 else s) = _
      rw [if_pos hdom, arrive_malformed hbad]
  · intro hwell hop hlen hturn hpast hkept
    refine ⟨_, ?_, outbox_respond s h 10 _ 0 0 [], rfl⟩
    show Host.Outcome.next (if s.inDomain then s.arrive h bs 2 else s) = _
    rw [if_pos hdom, arrive_repeat hwell hop hdst hlen hturn hpast hkept]
  · rintro ⟨hwell, hturn, hwaiting, hskipped⟩ hop
    refine ⟨_, exec_domainSkip hdom ⟨hwell, hdst, hturn, hwaiting, hskipped⟩ hop, rfl, ?_, rfl⟩
    rw [peer_respond, peer_setPeer]
    rfl

end Sys2Proof.Proofs
end

