-- ==== Sys2Proof/Proofs/GroupsAndCheckpoints.lean ====
section
/-! PROOFS. Membership, groups, launches with M levels (R389 to R393), and whole-memory checkpoints (R405). -/
namespace Sys2Proof.Machine

theorem bit_eq_getLsbD {w : Nat} (v : BitVec w) (i : Nat) : bit v.toNat i = v.getLsbD i := by
  rw [BitVec.getLsbD, Nat.testBit_eq_decide_div_mod_eq, bit, beq_eq_decide]

/-! ### Errors of a context -/

/-- An error that becomes pending changes cores and images alone. -/
theorem setPending_state (s : State) (c ctx : Nat) (e : PErr) : ∃ cs im, s.setPending c ctx e = { s with cores := cs, images := im } := by
  unfold State.setPending
  split
  · exact ⟨_, s.images, rfl⟩
  · exact ⟨s.cores, _, rfl⟩

/-- An error in every context of the group changes cores and images alone. -/
theorem groupError_state (s : State) (cause : Nat) : ∃ cs im, s.groupError cause = { s with cores := cs, images := im } := by
  unfold State.groupError
  generalize s.boundContexts = l
  induction l generalizing s with
  | nil => exact ⟨s.cores, s.images, rfl⟩
  | cons ctx r ih =>
    rw [List.foldl_cons]
    split
    · next c _ _ =>
      obtain ⟨cs, im, h⟩ := setPending_state s c ctx { cause := cause, engine := 10, uidx := 0, status := 0, addr := 0, cmd := 0, packet := false, seq := 0 }
      rw [State.raiseError, h]
      obtain ⟨cs', im', h'⟩ := ih { s with cores := cs, images := im }
      exact ⟨cs', im', h'⟩
    · exact ih s

/-! ### The group register -/

/-- What a member's %dgrp holds once the member of a rank has left (R392). -/
def leftGroup (g : Word) (rank lead : Nat) : Nat :=
  let me := fld g.toNat 8 8
  if rank = me ∨ fld g.toNat 16 8 ≤ 1 then 0
  else 1 + (if rank < me then me - 1 else me) * 2 ^ 8 + (fld g.toNat 16 8 - 1) * 2 ^ 16 + lead * 2 ^ 24

/-- A member's leaving sets the group register and changes no memory. -/
theorem leaveGroup_spec (s : State) (rank lead : Nat) :
    (s.leaveGroup rank lead).dom.dgrp = BitVec.ofNat 64 (leftGroup s.dom.dgrp rank lead) ∧ (s.leaveGroup rank lead).mem = s.mem := by
  unfold State.leaveGroup
  dsimp only
  obtain ⟨cs, im, h⟩ := groupError_state { (if rank = fld s.dom.dgrp.toNat 8 8 then s else s.collectiveLeave rank) with
    dom := { (if rank = fld s.dom.dgrp.toNat 8 8 then s else s.collectiveLeave rank).dom with
      dgrp := BitVec.ofNat 64 (leftGroup s.dom.dgrp rank lead) } } 0xA4
  rw [leftGroup] at h
  dsimp only at h
  rw [h]
  refine ⟨rfl, ?_⟩
  split <;> rfl

theorem leftGroup_none {g : Word} {rank : Nat} (lead : Nat) (h : rank = fld g.toNat 8 8 ∨ fld g.toNat 16 8 ≤ 1) : leftGroup g rank lead = 0 := if_pos h

/-- The fields of the group register of a member that stays. -/
theorem leftGroup_fields {g : Word} {rank lead : Nat} (hrank : rank ≠ fld g.toNat 8 8) (hn : 2 ≤ fld g.toNat 16 8) (hlead : lead < 64) :
    let v := BitVec.ofNat 64 (leftGroup g rank lead)
    v.getLsbD 0 = true ∧ fld v.toNat 8 8 = (if rank < fld g.toNat 8 8 then fld g.toNat 8 8 - 1 else fld g.toNat 8 8) ∧ fld v.toNat 16 8 = fld g.toNat 16 8 - 1 ∧
      fld v.toNat 24 16 = lead := by
  have hme : fld g.toNat 8 8 < 2 ^ 8 := Nat.mod_lt _ (by decide)
  have hn' : fld g.toNat 16 8 < 2 ^ 8 := Nat.mod_lt _ (by decide)
  have hval : leftGroup g rank lead = 1 + (if rank < fld g.toNat 8 8 then fld g.toNat 8 8 - 1 else fld g.toNat 8 8) * 2 ^ 8 +
      (fld g.toNat 16 8 - 1) * 2 ^ 16 + lead * 2 ^ 24 := if_neg (by omega)
  have hme2 : (if rank < fld g.toNat 8 8 then fld g.toNat 8 8 - 1 else fld g.toNat 8 8) < 2 ^ 8 := by split <;> omega
  dsimp only
  rw [hval]
  generalize (if rank < fld g.toNat 8 8 then fld g.toNat 8 8 - 1 else fld g.toNat 8 8) = m at hme2 ⊢
  generalize fld g.toNat 16 8 = n at hn hn' ⊢
  have hnat : (BitVec.ofNat 64 (1 + m * 2 ^ 8 + (n - 1) * 2 ^ 16 + lead * 2 ^ 24)).toNat = 1 + m * 2 ^ 8 + (n - 1) * 2 ^ 16 + lead * 2 ^ 24 := by
    rw [BitVec.toNat_ofNat, Nat.mod_eq_of_lt (by omega)]
  rw [← bit_eq_getLsbD, hnat]
  refine ⟨?_, ?_, ?_, ?_⟩
  · rw [bit, beq_iff_eq]; omega
  all_goals rw [fld]; omega

/-! ### Maps of distinct keys -/

/-- Entries taken by their keys. -/
theorem mget_filter_key {α : Type} (d : α) (m : Map α) (q : Nat → Bool) (a : Nat) :
    mget d (m.filter (fun c => q c.1)) a = if q a then mget d m a else d := by
  induction m with
  | nil => simp [mget, mfind]
  | cons p r ih =>
    obtain ⟨k, v⟩ := p
    simp only [mget] at ih
    by_cases hk : k = a
    · subst hk
      cases hq : q k
      · simpa [mget, List.filter_cons, hq] using ih
      · simp [mget, hq, mfind]
    · cases hq : q k
      · simpa [mget, List.filter_cons, hq, mfind, hk] using ih
      · simpa [mget, List.filter_cons, hq, mfind, hk] using ih

theorem pairwise_ne_of_mrising {α : Type} {m : Map α} (h : mrising m = true) : m.Pairwise (fun p q => p.1 ≠ q.1) := by
  induction m with
  | nil => exact List.Pairwise.nil
  | cons p r ih =>
    obtain ⟨k, v⟩ := p
    obtain ⟨habove, hr⟩ := (mrising_cons k v r).1 h
    exact List.pairwise_cons.2 ⟨fun q hq => Nat.ne_of_lt (habove q hq), ih hr⟩

theorem mfind_of_ne {α : Type} {m : Map α} {a : Nat} (h : ∀ p ∈ m, p.1 ≠ a) : mfind m a = none := by
  induction m with
  | nil => rfl
  | cons p r ih => rw [mfind, if_neg (h p List.mem_cons_self), ih (fun q hq => h q (List.mem_cons_of_mem _ hq))]

/-- Cells of distinct addresses put into memory. -/
theorem mget_foldl_mput_cells {cells : List Host.Cell} (h : cells.Pairwise (fun p q => p.1 ≠ q.1)) (m : List Host.Cell) (a : Nat) :
    mget 0 (cells.foldl (fun m c => mput 0 m c.1 c.2) m) a = (mfind cells a).getD (mget 0 m a) := by
  induction cells generalizing m with
  | nil => rfl
  | cons c r ih =>
    obtain ⟨hc, hr⟩ := List.pairwise_cons.1 h
    rw [List.foldl_cons, ih hr, mget_mput, mfind]
    by_cases ha : c.1 = a
    · rw [mfind_of_ne (fun p hp => ha ▸ (hc p hp).symm), if_pos ha, if_pos ha.symm]
      rfl
    · rw [if_neg ha, if_neg (Ne.symm ha)]

/-- Memory after a restore: the cells of the checkpoint at the addresses that one holds, and what was there elsewhere. -/
theorem restored_mem {s : State} {cells : List Host.Cell} (h : mrising cells = true) (a : Nat) :
    mget 0 ((cells.filter s.checkpointed).foldl (fun m c => mput 0 m c.1 c.2) (s.mem.filter (fun c => !s.checkpointed c))) a =
      if s.paKind a = .home then mget 0 cells a else mget 0 s.mem a := by
  have hkept := mget_filter_key 0 s.mem (fun a => !decide (s.paKind a = .home)) a
  have hput := mget_filter_key 0 cells (fun a => decide (s.paKind a = .home)) a
  rw [mget_foldl_mput_cells ((pairwise_ne_of_mrising h).filter _)]
  change (mfind (cells.filter (fun c => decide (s.paKind c.1 = .home))) a).getD (mget 0 (s.mem.filter (fun c => !decide (s.paKind c.1 = .home))) a) = _
  rw [hkept]
  by_cases ha : s.paKind a = .home
  · rw [if_neg (by simp [ha]), if_pos ha]
    simpa [mget, ha] using hput
  · rw [if_pos (by simp [ha]), if_neg ha, mfind_of_ne (fun p hp hpa => ?_)]
    · rfl
    · have hhome := (List.mem_filter.1 hp).2
      rw [hpa] at hhome
      exact ha (of_decide_eq_true hhome)

/-! ### Launches with M levels -/

/-- A refused launch is gone. -/
theorem launches_refuseLaunch (s : State) (l : Launch) : (s.refuseLaunch l).launches = s.launches.filter (fun x => decide (x.id ≠ l.id)) := by
  unfold State.refuseLaunch
  dsimp only
  split
  · rfl
  · rw [foldl_state_keeps (φ := State.launches) (fun s r => s.send (.launchRefused r l.id)) (fun _ _ => rfl), State.raiseError]
    obtain ⟨cs, im, h⟩ := setPending_state { s with launches := s.launches.filter (fun x => decide (x.id ≠ l.id)) } l.core l.ctx
      { cause := 0xA5, engine := 0, uidx := 0, status := 0, addr := 0, cmd := 0, packet := false, seq := 0 }
    rw [h]

/-- While firmware does not manage the dies none of its events has an effect. -/
theorem exec_unmanaged {s : State} (h : s.managed = false) (m largest : Nat) (ms : List Nat) (g : Word) (cells : List (Nat × Byte)) :
    ∀ x ∈ [Instr.domainMembershipChange m ms, .groupFormation g largest, .wholeMemoryCheckpoint, .wholeMemoryRestore cells], exec x s = .next s := by
  simp only [List.forall_mem_cons, List.not_mem_nil, false_implies, implies_true, and_true]
  refine ⟨?_, ?_, ?_, ?_⟩
  · show execDomainMembershipChange m ms s = _
    rw [execDomainMembershipChange, manage_of_not h, event_next]
  · show execGroupFormation g largest s = _
    rw [execGroupFormation, h]
    rfl
  · show execWholeMemoryCheckpoint s = _
    rw [execWholeMemoryCheckpoint, manage_of_not h, event_next]
  · show execWholeMemoryRestore cells s = _
    rw [execWholeMemoryRestore, manage_of_not h, event_next]

end Sys2Proof.Machine

namespace Sys2Proof.Proofs
open Sys2Proof.Machine

/-- Settles O19: membership, groups and launches of them, checkpoints and restores. -/
theorem groupsFormAndMemoryIsRestored : Obligations.GroupsFormAndMemoryIsRestored := by
  unfold Obligations.GroupsFormAndMemoryIsRestored
  intro s m ms g largest phase rank lead id cells
  refine ⟨fun h => exec_unmanaged h m largest ms g cells, ?_, ?_, ?_, ?_, ?_, ?_, ?_, ?_⟩
  · intro hman hunb hm hlen hall hnd
    have hcond : (s.unbound && decide (m < 64) && decide (ms.length ≤ 64) && ms.all (fun x => decide (x < 64)) && decide ms.Nodup) = true := by
      simpa [hunb, hm, hlen, hnd] using hall
    have hexec : exec (.domainMembershipChange m ms) s =
        .next { s with dom := { s.dom with modid := if ms.contains m then m else 0, members := if ms.contains m then ms else [] } } := by
      show execDomainMembershipChange m ms s = _
      rw [execDomainMembershipChange, manage_of_managed hman, if_pos hcond, event_next]
    refine ⟨fun hmem => ?_, fun hmem => ?_⟩
    · rw [hexec, if_pos (by simpa using hmem), if_pos (by simpa using hmem)]
    · rw [hexec, if_neg (by simpa using hmem), if_neg (by simpa using hmem)]
  · intro n hman hunb hbit h1 h64 hrank hmod hlead hlen
    refine ⟨s.jump (formationCycle (Nat.max largest s.cyc)) { s.dom with dgrp := g &&& 0xFFFFFFFF01#64 }, ?_, rfl, rfl, rfl, rfl⟩
    have hcond : (s.unbound && bit g.toNat 0 && decide (1 ≤ n) && decide (n ≤ 64) && decide (fld g.toNat 8 8 < n) && s.dom.members.contains s.dom.modid &&
        s.dom.members.contains (fld g.toNat 24 16) && decide (n ≤ s.dom.members.length)) = true := by
      simp [bit_eq_getLsbD, hunb, hbit, h1, h64, hrank, hmod, hlead, hlen]
    show execGroupFormation g largest s = _
    rw [execGroupFormation, hman]
    dsimp only
    rw [if_neg (by decide), if_pos hcond, event_next]
  · intro h
    show Host.Outcome.next _ = _
    have hstays : ¬(bit s.dom.dgrp.toNat 0 = true ∧ 4 < phase) := by
      rw [bit_eq_getLsbD]
      rintro ⟨hb, hp⟩
      exact h.elim (fun h => by rw [h] at hb; exact Bool.false_ne_true hb) (fun h => Nat.not_lt.2 h hp)
    rw [if_neg hstays]
  · intro hbit hphase
    refine ⟨s.leaveGroup (fld s.dom.dgrp.toNat 8 8) 0, ?_, ?_, (leaveGroup_spec s _ 0).2⟩
    · show Host.Outcome.next _ = _
      rw [if_pos ⟨by rw [bit_eq_getLsbD, hbit], hphase⟩]
    · rw [(leaveGroup_spec s _ 0).1, leftGroup_none 0 (.inl rfl)] <;> rfl
  · intro d me n hbit hrank hlead
    obtain ⟨hdgrp, hmem⟩ := leaveGroup_spec s rank lead
    refine ⟨s.leaveGroup rank lead, ?_, hmem, fun h => ?_, fun hne hn _ => ?_⟩
    · show execGroupLeave rank lead s = _
      rw [execGroupLeave, if_pos ⟨by rw [bit_eq_getLsbD, hbit], hrank, hlead⟩, event_next]
    · rw [hdgrp, leftGroup_none lead h] <;> rfl
    · rw [hdgrp]
      exact leftGroup_fields hne hn hlead
  · intro l hl hnot hts
    have hid : l.id = id := by simpa using List.find?_some hl
    have hexec (b : Bool) (hb : (bit s.dom.dgrp.toNat 0 && decide (groupId s.dom.dgrp = l.grp)) = b) : exec (.mLevelStart id) s =
        .next (if b then { s with launches := s.launches.map (fun x => if x.id = id then { x with started := true } else x) }
          else (match l.origin with | some (r, n) => s.send (.launchRefused r n) | none => s).refuseLaunch l) := by
      show execMLevelStart id s = _
      rw [execMLevelStart, hl]
      dsimp only
      rw [if_pos ⟨hnot, hts⟩, event_next, hb] <;> rfl
    refine ⟨fun hbit hgrp => ⟨_, hexec true (by rw [bit_eq_getLsbD, hbit]; exact decide_eq_true hgrp), fun x hx hxid => ?_, rfl⟩,
      fun h => ⟨_, hexec false ?_, ?_⟩⟩
    · obtain ⟨y, _, rfl⟩ := List.mem_map.1 hx
      split
      · rfl
      · next hy => rw [if_neg hy] at hxid; exact absurd hxid hy
    · rw [bit_eq_getLsbD]
      rcases h with h | h
      · rw [h]; rfl
      · rw [Bool.and_eq_false_iff]
        exact .inr (decide_eq_false h)
    · rw [if_neg Bool.false_ne_true, launches_refuseLaunch, hid]
      intro x hx
      exact of_decide_eq_true (List.mem_filter.1 hx).2
  · intro hman hcores harrays hframes
    have hcond : (s.cores.all (fun p => !p.2.bound && p.2.slabs.all (fun b => !(decide (b.2.kind = .live) && b.2.born))) &&
        s.arrays.all (fun p => p.2.tiles.all (fun t => !(t.2.inuse && t.2.dirty))) && s.frames.all (fun p => !(p.2.valid && p.2.dirty))) = true := by
      simp only [Bool.and_eq_true, List.all_eq_true]
      refine ⟨⟨fun p hp => ⟨by rw [(hcores p hp).1]; rfl, fun b hb => ?_⟩, fun p hp t ht => ?_⟩, fun p hp => ?_⟩
      · simpa [imp_iff_not_or] using (hcores p hp).2 b hb
      · simpa [imp_iff_not_or] using harrays p hp t ht
      · simpa [imp_iff_not_or] using hframes p hp
    show execWholeMemoryCheckpoint s = _
    rw [execWholeMemoryCheckpoint, manage_of_managed hman, if_pos hcond, event_next] <;> rfl
  · intro hman hunb hris
    refine ⟨{ s with mem := (cells.filter s.checkpointed).foldl (fun m c => mput 0 m c.1 c.2) (s.mem.filter (fun c => !s.checkpointed c)) }, ?_,
      fun a => restored_mem hris a⟩
    show execWholeMemoryRestore cells s = _
    rw [execWholeMemoryRestore, manage_of_managed hman, if_pos hunb, event_next]

end Sys2Proof.Proofs
end

