-- ==== Sys2Proof/Proofs/DomainSource.lean ====
section
/-! PROOFS. The source's side of the domain (R242, R395 to R399): answers, requests sent again, atomics held for their rate, and errors of the link between the
dies (R388). -/
namespace Sys2Proof.Machine

/-! ### Answers -/

theorem mem_answered (s : State) (r : DReq) (bs : List Byte) (cause : Nat) :
    ({ agent := r.core - 128, pa := r.acc, bytes := bs, cause := cause } : Answer) ∈ (s.answered r bs cause).dom.answers :=
  List.mem_append_right _ (List.mem_singleton.2 rfl)

theorem readData_engine {s : State} {r : DReq} (h : 128 ≤ r.core) (bs : List Byte) (cause : Nat) : s.readData r bs cause = s.answered r bs cause := if_pos h

theorem atomicData_engine {s : State} {r : DReq} (h : 128 ≤ r.core) (v : Word) (cause : Nat) :
    s.atomicData r v cause = s.answered r (leBytes 8 v.toNat) cause := if_pos h

theorem writeDone_engine {s : State} {r : DReq} (h : 128 ≤ r.core) {cause : Nat} (hcause : cause ≠ 0) : s.writeDone r cause = s.answered r [] cause := by
  rw [State.writeDone, if_neg hcause, if_pos h]

theorem hdrs_l2Bar (s : State) (p : DReq → Bool) (pa n : Nat) : (s.l2Bar p pa n).dom.reqs.map (·.hdr) = s.dom.reqs.map (·.hdr) := by
  simp only [State.l2Bar, List.map_map]
  refine List.map_congr_left (fun r _ => ?_)
  simp only [Function.comp]
  split <;> rfl

theorem reqs_l2Fill (s : State) (pa : Nat) (bs : List Byte) : (s.l2Fill pa bs).dom.reqs = s.dom.reqs := by
  unfold State.l2Fill
  split <;> rfl

theorem mem_l2Fill (s : State) (pa : Nat) (bs : List Byte) : (s.l2Fill pa bs).mem = s.mem := by
  unfold State.l2Fill
  split <;> rfl

/-- The data of a read leave the headers of all requests, and memory. -/
theorem readData_keeps (s : State) (r : DReq) (bs : List Byte) (cause : Nat) :
    (s.readData r bs cause).dom.reqs.map (·.hdr) = s.dom.reqs.map (·.hdr) ∧ (s.readData r bs cause).mem = s.mem := by
  unfold State.readData
  split
  · exact ⟨rfl, rfl⟩
  · dsimp only
    rw [State.modMs_dom, State.modMs_mem]
    split
    · rw [hdrs_l2Bar, reqs_l2Fill]
      exact ⟨rfl, mem_l2Fill s _ bs⟩
    · exact ⟨rfl, rfl⟩

/-! ### Requests sent again -/

/-- The request in its place, changed. -/
def State.putReq (s : State) (r x : DReq) : State := { s with dom := { s.dom with reqs := s.dom.reqs.map (fun y => if y = r then x else y) } }

theorem mem_putReq {s : State} {r : DReq} (h : r ∈ s.dom.reqs) (x : DReq) : x ∈ (s.putReq r x).dom.reqs :=
  List.mem_map.2 ⟨r, h, if_pos rfl⟩

/-- A request that another module leaves unanswered for good ends with cause 0xA1 at its engine. -/
theorem resend_ends {s : State} {r : DReq} (hskip : r.skip = false) (htries : 12 ≤ r.tries) (hcore : 128 ≤ r.core) :
    ∃ bs, s.resend r = ((s.putReq r { r with skip := true, sentAt := s.cyc }).send (.domain (skipHdr r) [])).answered r bs 0xA1 := by
  unfold State.resend
  dsimp only
  rw [hskip, if_neg Bool.false_ne_true, if_neg (by omega)]
  split
  · exact ⟨[], readData_engine hcore _ _⟩
  · exact ⟨[], writeDone_engine hcore (by decide)⟩
  · exact ⟨_, atomicData_engine hcore _ _⟩

/-! ### Atomics held for their rate -/

/-- A request is one more message, and leaves the atomics held. -/
theorem domainSend_state (s : State) (target op aop u size scope ctx len rid pa : Nat) (val cv : Word) (data : List Byte) (core acc : Nat) :
    ∃ x dm, s.domainSend target op aop u size scope ctx len rid pa val cv data core acc = { s with outbox := s.outbox ++ [x], dom := dm } ∧
      dm.held = s.dom.held := by
  unfold State.domainSend State.send
  dsimp only [Msg.recipient]
  split <;> exact ⟨_, _, rfl, rfl⟩

theorem publishHits_of_none {s : State} {c pa nb id : Nat} (h : ∀ w ∈ (s.core c).ms.pend, w.within pa nb = false) :
    ∃ cs, s.publishHits c pa nb id = { s with cores := cs } := by
  have hnone : (s.core c).ms.pend.filter (fun w => w.within pa nb && decide (w.ser < id)) = [] :=
    List.filter_eq_nil_iff.2 (fun w hw => by rw [h w hw, Bool.false_and]; exact Bool.false_ne_true)
  rw [State.publishHits, hnone]
  exact ⟨_, rfl⟩

/-- An atomic that is sent is counted in its window, waits for its answer, and is one more message. -/
theorem sendAtomic_spec (s : State) (c m off : Nat) (g : GAcc) (aop u : Nat) (v cv : Word) :
    let t := s.sendAtomic c m off g aop u v cv
    t.dom.held = s.dom.held ∧ (m, s.cyc) ∈ t.dom.sent ∧ t.mem = s.mem ∧ (∀ y ∈ (t.core c).ms.gacc, y.id = g.id → y.todo = none) ∧
      t.outbox.length = s.outbox.length + 1 := by
  obtain ⟨x, dm, hs, hheld⟩ := domainSend_state s m 3 aop u (if g.nb = 4 then 2 else 3) g.scope g.ctx 0 g.raw off v cv [] c g.id
  intro t
  have ht : t = ({ s with outbox := s.outbox ++ [x], dom := { dm with sent := (m, s.cyc) :: dm.sent.filter (fun p => decide (s.cyc < p.2 + oneMs)) } } : State).modAcc
      c g.id (fun g' => { g' with want := [(m, mget 1 s.dom.nextPseq m, 0, g'.nb)], todo := none }) := by
    simp only [t, State.sendAtomic, hs]
  rw [ht]
  refine ⟨hheld, List.mem_cons_self, rfl, fun y hy hid => ?_, by simp [State.modAcc]⟩
  rw [State.modAcc, ms_modMs] at hy
  obtain ⟨z, _, rfl⟩ := List.mem_map.1 hy
  split
  · rfl
  · next hz => rw [if_neg hz] at hid; exact absurd hid hz

/-- The first atomic of a core that waits is sent to its module when nothing holds it back. -/
theorem drainAtomics_window {s : State} {c m off : Nat} {g : GAcc} {aop u : Nat} {v cv : Word} (hfind : (s.core c).ms.gacc.find? (fun g => g.unperformed) = some g)
    (htodo : g.todo = some (aop, u, v, cv)) (hrel : s.releaseAhead c g.id = false) (hkind : s.paKind g.pa = .window m off) (hrate : s.sentRecently m < 4096) (n : Nat) :
    s.drainAtomics c (n + 1) = (s.publishHits c g.pa g.nb g.id).sendAtomic c m off g aop u v cv := by
  rw [State.drainAtomics, hfind]
  dsimp only
  rw [htodo]
  dsimp only
  rw [hrel, if_neg Bool.false_ne_true, hkind]
  dsimp only
  rw [if_neg (by omega)]

/-- One atomic is no longer held for its rate. -/
def State.unholdAtomic (s : State) (x : Nat × Nat × Nat) : State := { s with dom := { s.dom with held := s.dom.held.filter (fun y => !decide (y = x)) } }

end Sys2Proof.Machine

namespace Sys2Proof.Proofs
open Sys2Proof.Machine

theorem domainResponsesArrive : Claims.DomainResponsesArrive := by
  unfold Claims.DomainResponsesArrive
  intro s h bs r m n
  refine ⟨?_, ?_, ?_, ?_, ?_, ?_⟩
  · simp only [List.forall_mem_cons, List.not_mem_nil, false_implies, implies_true, and_true]
    have hlog : (s.logMalformed.die 0).elogN = (s.die 0).elogN + 1 ∧ s.logMalformed.dom = s.dom ∧ s.logMalformed.mem = s.mem ∧ s.logMalformed.cores = s.cores :=
      ⟨elogN_logError s 0 _, rfl, rfl, rfl⟩
    refine ⟨fun hbad => ⟨_, ?_, hlog⟩, fun hbad => ⟨_, ?_, hlog⟩, fun hbad => ⟨_, ?_, hlog⟩⟩
    · exact congrArg Host.Outcome.next (if_pos hbad)
    · exact congrArg Host.Outcome.next (if_pos hbad)
    · exact congrArg Host.Outcome.next (if_pos hbad)
  · intro hgood hasked hskip
    refine ⟨(s.dropReq r).readData r bs (hCause h), ?_, (readData_keeps _ r bs _).1, (readData_keeps _ r bs _).2, fun hcore => ?_⟩
    · show execDomainReadResponse h bs s = _
      rw [execDomainReadResponse, hgood, if_neg Bool.false_ne_true, hasked]
      dsimp only
      rw [hskip, if_neg Bool.false_ne_true]
    · rw [readData_engine hcore]
      exact ⟨rfl, mem_answered _ r bs _⟩
  · intro hgood hasked hdone
    show execDomainWriteAck h s = _
    rw [execDomainWriteAck, hgood, if_neg Bool.false_ne_true, hasked]
    dsimp only
    split
    · rfl
    · next hskip =>
      rw [hdone.resolve_left hskip]
      rfl
  · intro hgood hasked hskip hcause hcore
    refine ⟨(s.dropReq r).writeDone r (hCause h), ?_, ?_⟩
    · show execDomainWriteAck h s = _
      rw [execDomainWriteAck, hgood, if_neg Bool.false_ne_true, hasked]
      dsimp only
      rw [hskip, if_neg Bool.false_ne_true]
    · rw [writeDone_engine hcore hcause]
      exact mem_answered _ r [] _
  · intro hgood hasked hskip hcore
    have hval : (BitVec.ofNat 64 (hVal h)).toNat = hVal h := by
      rw [BitVec.toNat_ofNat, hVal, fld, Nat.mod_mod]
    refine ⟨(s.dropReq r).atomicData r (BitVec.ofNat 64 (hVal h)) (hCause h), ?_, ?_⟩
    · show execDomainAtomicResponse h s = _
      rw [execDomainAtomicResponse, hgood, if_neg Bool.false_ne_true, hasked]
      dsimp only
      rw [hskip, if_neg Bool.false_ne_true]
    · rw [atomicData_engine hcore, hval]
      exact ⟨rfl, rfl, mem_answered _ r _ _⟩
  · intro hfind
    have hmem : r ∈ s.dom.reqs := List.mem_of_find?_eq_some hfind
    have hexec : exec (.domainResendTimeout m n) s = .next (s.resend r) := by
      show execDomainResendTimeout m n s = _
      rw [execDomainResendTimeout, show resendAfter = 192000 from rfl, hfind, Option.map_some, event_next]
    refine ⟨fun hskip htries => ⟨(s.putReq r { r with tries := r.tries + 1, sentAt := s.cyc }).send (.domain r.hdr r.data), ?_, rfl, mem_putReq hmem _⟩,
      fun hskip => ⟨(s.putReq r { r with sentAt := s.cyc }).send (.domain (skipHdr r) []), ?_, rfl, mem_putReq hmem _⟩, fun hskip htries hcore => ?_⟩
    · rw [hexec, State.resend, if_neg (by rw [hskip]; exact Bool.false_ne_true), if_pos htries]
      rfl
    · rw [hexec, State.resend, if_pos hskip]
      rfl
    · obtain ⟨data, hends⟩ := resend_ends (s := s) hskip htries hcore
      exact ⟨_, _, hexec.trans (congrArg _ hends), rfl, mem_putReq hmem _, mem_answered _ r data _, rfl, rfl⟩

theorem heldAtomicsAndLinkErrors : Claims.HeldAtomicsAndLinkErrors := by
  unfold Claims.HeldAtomicsAndLinkErrors
  intro s c m g
  refine ⟨fun hc hfind => ?_, fun hc hfind => ?_, ?_⟩
  · refine ⟨s.modAcc c g.id (fun g => { g with err := some 0x83 }), ?_, ⟨_, ?_, rfl⟩, rfl, ?_⟩
    · show execD2dUncorrectableError c s = _
      rw [execD2dUncorrectableError, show dieOf c = c / 64 from rfl, hfind, coreEvent_next]
      exact ⟨hc, rfl⟩
    · rw [State.modAcc, ms_modMs]
      exact List.mem_map.2 ⟨g, List.mem_of_find?_eq_some hfind, if_pos rfl⟩
    · rw [State.modAcc, State.core_modMs, if_pos rfl]
  · refine ⟨{ s with linkErr := c :: s.linkErr.filter (fun x => decide (x ≠ c)) }, ?_, List.mem_cons_self, rfl, rfl⟩
    show execD2dUncorrectableError c s = _
    rw [execD2dUncorrectableError, show dieOf c = c / 64 from rfl, hfind, coreEvent_next]
    exact ⟨hc, rfl⟩
  · rintro x ⟨aop, u, v, cv⟩ off hheld hrate rfl hfind htodo hrel hkind hpend
    obtain ⟨cs, hpub⟩ := publishHits_of_none (s := s.unholdAtomic x) (id := g.id) hpend
    obtain ⟨hkeeps, hsent, hmem, hgone, hlen⟩ := sendAtomic_spec ((s.unholdAtomic x).publishHits x.2.1 g.pa g.nb g.id) x.2.1 m off g aop u v cv
    refine ⟨((s.unholdAtomic x).publishHits x.2.1 g.pa g.nb g.id).sendAtomic x.2.1 m off g aop u v cv, ?_, ?_, ?_, ?_, hgone, ?_⟩
    · show execDomainAtomicRateRelease m s = _
      rw [execDomainAtomicRateRelease, hheld]
      dsimp only
      rw [if_pos hrate, event_next]
      exact congrArg some (drainAtomics_window (s := s.unholdAtomic x) hfind htodo hrel hkind hrate 16)
    · rw [hkeeps, hpub]
      simp [State.unholdAtomic]
    · rw [hpub] at hsent ⊢
      exact hsent
    · rw [hmem, hpub]
      rfl
    · rw [hlen, hpub]
      rfl

/-- Settles O47: the source's side of the domain, held atomics, and errors of the link between the dies. -/
theorem domainAnswersAndHeldAtomics : Obligations.DomainAnswersAndHeldAtomics := ⟨domainResponsesArrive, heldAtomicsAndLinkErrors⟩

end Sys2Proof.Proofs
end

