-- ==== Sys2Proof/Proofs/HeldInShutdown.lean ====
section
/-! PROOFS. An atomic of a host in a thermal shutdown (R408, R441) that names a module to which as many atomics have been sent as a millisecond admits
(R398): the rate holds it, so that it is not answered with an abort. -/
namespace Sys2Proof.Machine

/-- A module shut down, whose function 1 of port 0 has context 0; the table at 0 is its own next table at every level, and its entry 1 maps the window of module
1, to which 4,096 atomics have gone. -/
def shutWindow : State :=
  { State.reset with
    plat := { Platform.init with bootStep := 6, thermal := true, vfs := [(1, { ctx := 0, slots := [] })] }
    mem := [(0, 1), (8, 0x0F), (13, 0x04), (14, 0x08)]
    dom := { Domain.init with members := [0, 1], sent := List.replicate 4096 (1, 0) } }

/-- Where the atomic goes. -/
theorem hostPlace_shutWindow : shutWindow.hostPlace 0 1 2 0x1000 8 = some (windowBase 1, .window 1 0, 0) := by decide +kernel

/-- The limit of the rate holds it. -/
theorem hostLimited_shutWindow : shutWindow.hostLimited 0 1 0x1000 8 = true := by
  rw [State.hostLimited, hostPlace_shutWindow]
  decide +kernel

end Sys2Proof.Machine

namespace Sys2Proof.Proofs
open Sys2Proof.Machine

/-- Refutes O20: in a thermal shutdown an atomic of a host that the rate of its module holds does not take place, where the statement has it aborted. `shutWindow`
is such a state. -/
theorem not_hostAccessesArePerformed : ¬ Obligations.HostAccessesArePerformed := by
  unfold Obligations.HostAccessesArePerformed
  intro h
  obtain ⟨hup, -⟩ := h shutWindow 0 1 0 0 8 0x1000 0 0 [] false (by decide) (by decide)
  obtain ⟨-, hshut⟩ := hup (by decide)
  obtain ⟨-, haborts, -⟩ := hshut rfl
  have hheld : shutWindow.hostHeld 0 1 2 0x1000 8 = false := by rw [State.hostHeld, hostPlace_shutWindow]
  have hexec := haborts (by decide) hheld
  rw [show exec (.hostAtomicOp 0 1 0x1000 0 8 0 0) shutWindow = execHostAtomicOp 0 1 0x1000 0 8 0 0 shutWindow from rfl, execHostAtomicOp,
    if_neg (by decide), event_next, hostLimited_shutWindow, if_neg (by decide), if_neg (by simp)] at hexec
  exact Option.some_ne_none _ hexec.symm

end Sys2Proof.Proofs
end

