-- ==== Sys2Proof/Proofs/BootAndResets.lean ====
section
/-! PROOFS. Boot and the mailbox (R434 to R438), resets and the thermal shutdown (R439 to R441). -/
namespace Sys2Proof.Machine

/-! ### Records -/

/-- What an accepted record is. -/
theorem accepts_spec {p : Platform} {kind c : Nat} {bs b : List Byte} (h : p.accepts kind bs = some (c, b)) :
    c = fld (leNat (bs.take 128)) 64 32 ∧ p.need kind ≤ c ∧ fld (leNat (bs.take 128)) 0 32 = 0x5253564C ∧ fld (leNat (bs.take 128)) 32 8 = kind ∧
      b = (bs.drop 128).take (fld (leNat (bs.take 128)) 96 32) ∧ sha256 b = (bs.drop 16).take 32 ∧ keyGood (Config.recordKey bs) = true ∧
      signatureGood (Config.recordKey bs) bs = true := by
  unfold Platform.accepts at h
  dsimp only at h
  split at h
  · next hgood =>
    obtain ⟨-, hmagic, hkind, -, hkey, hsig, hsha, hneed⟩ := hgood
    obtain ⟨rfl, rfl⟩ := Prod.mk.inj (Option.some.inj h)
    exact ⟨rfl, hneed, hmagic, hkind, rfl, hsha.symm, hkey, hsig⟩
  · exact absurd h (by simp)

/-- A record that is there is measured. -/
theorem loadRecord_good {s : State} {kind v : Nat} {b : List Byte} (hrec : s.plat.recovery = false) (h : s.plat.choose kind = some (v, b)) :
    (s.loadRecord kind).plat = s.plat.measured b := by
  unfold State.loadRecord State.loadStore
  rw [hrec, if_neg Bool.false_ne_true, h]
  dsimp only
  split
  · split <;> rfl
  · split <;> rfl

theorem stores_loadRecord_pool {s : State} {v : Nat} {b : List Byte} (hrec : s.plat.recovery = false) (h : s.plat.choose 3 = some (v, b)) :
    (s.loadRecord 3).stores.poolEps = (Config.poolImage b).1 ∧ (s.loadRecord 3).stores.updEps = (Config.poolImage b).2 := by
  rw [State.loadRecord, hrec, if_neg Bool.false_ne_true, h]
  exact ⟨rfl, rfl⟩

theorem stores_loadRecord_last {s : State} {v : Nat} {b : List Byte} (hrec : s.plat.recovery = false) (h : s.plat.choose 4 = some (v, b)) :
    (s.loadRecord 4).stores = s.stores := by
  rw [State.loadRecord, hrec, if_neg Bool.false_ne_true, h]
  rfl

theorem loadRecord_none {s : State} {kind : Nat} (hrec : s.plat.recovery = false) (h : s.plat.choose kind = none) :
    s.loadRecord kind = s.modPlat (fun p => { p with recovery := true }) := by
  rw [State.loadRecord, hrec, if_neg Bool.false_ne_true, h]

theorem loadRecord_recovery {s : State} (hrec : s.plat.recovery = true) (kind : Nat) : s.loadRecord kind = s := if_pos hrec

/-- What a configuration record leaves. -/
def Platform.configured (p : Platform) (secver : Nat) (body : List Byte) : Platform :=
  { p.measured body with floor := Nat.max p.floor secver, minsec := recordKinds.map (fun k => (k, Config.minSecver body k)) }

/-- What the firmware's record leaves. -/
def Platform.started (p : Platform) (body : List Byte) : Platform := { p.measured body with bootStep := 3 }

theorem bootStep_configured (p : Platform) (secver : Nat) (body : List Byte) : (p.configured secver body).bootStep = p.bootStep := by
  rw [Platform.configured, Platform.measured]

theorem measure_configured (p : Platform) (secver : Nat) (body : List Byte) : (p.configured secver body).measure = measureNext p.measure body := by
  rw [Platform.configured, Platform.measured]

theorem measure_started (p : Platform) (body : List Byte) : (p.started body).measure = measureNext p.measure body := by
  rw [Platform.started, Platform.measured]

theorem recovery_measured (p : Platform) (body : List Byte) : (p.measured body).recovery = p.recovery := by rw [Platform.measured]
theorem measure_measured (p : Platform) (body : List Byte) : (p.measured body).measure = measureNext p.measure body := by rw [Platform.measured]

/-- The measurement does not bear on which records are accepted. -/
theorem choose_measured (p : Platform) (body : List Byte) (kind : Nat) : (p.measured body).choose kind = p.choose kind := by
  unfold Platform.choose Platform.accepts Platform.need Platform.measured
  rfl

/-- Step 2 of the boot takes the record of its kind: the configuration first, and then the firmware. -/
theorem exec_bootRecordAccept {s : State} {kind : Nat} (hstep : s.plat.bootStep = 2) (hrec : s.plat.recovery = false) (htherm : s.plat.thermal = false)
    (hkind : kind = 0 ∧ s.plat.minsec = [] ∨ kind = 1 ∧ s.plat.minsec ≠ []) :
    exec (.bootRecordAccept kind) s = .next (match s.plat.choose kind with
      | none => s.modPlat (fun p => { p with recovery := true })
      | some (secver, body) => s.modPlat (fun p => if kind = 0 then p.configured secver body else p.started body)) := by
  have hturn : ¬(s.plat.bootStep ≠ 2 ∨ s.plat.recovery = true ∨ s.plat.thermal = true ∨ 1 < kind ∨ (kind = 0) ≠ (s.plat.minsec.isEmpty = true)) := by
    rw [hrec, htherm]
    rcases hkind with ⟨rfl, h⟩ | ⟨rfl, h⟩
    · simp [hstep, h]
    · simp [hstep, List.isEmpty_iff, h]
  show execBootRecordAccept kind s = _
  rw [execBootRecordAccept]
  dsimp only
  rw [if_neg hturn, event_next]
  rfl

theorem mget_minsec (body : List Byte) {k : Nat} (h1 : 1 ≤ k) (h4 : k ≤ 4) :
    mget 0 (recordKinds.map (fun k => (k, Config.minSecver body k))) k = Config.minSecver body k := by
  obtain rfl | rfl | rfl | rfl : k = 1 ∨ k = 2 ∨ k = 3 ∨ k = 4 := by omega
  all_goals rfl

/-- Step 4 of the boot. -/
theorem exec_bootStoreLoad {s : State} (hstep : s.plat.bootStep = 4) (hrec : s.plat.recovery = false) (htherm : s.plat.thermal = false) :
    exec .bootStoreLoad s = .next (if (((s.loadRecord 2).loadRecord 3).loadRecord 4).plat.recovery then ((s.loadRecord 2).loadRecord 3).loadRecord 4
      else (((s.loadRecord 2).loadRecord 3).loadRecord 4).modPlat (fun p => { p with bootStep := 5 })) := by
  show execBootStoreLoad s = _
  rw [execBootStoreLoad, if_pos ⟨hstep, hrec, htherm⟩, event_next]

/-! ### First scans -/

theorem mget_foldl_mset_const {α : Type} (d x : α) (l : List Nat) (m : Map α) (a : Nat) :
    mget d (l.foldl (fun m u => mset m u x) m) a = if a ∈ l then x else mget d m a := by
  induction l generalizing m with
  | nil => rfl
  | cons u r ih =>
    rw [List.foldl_cons, ih, mget_mset]
    by_cases hr : a ∈ r
    · rw [if_pos hr, if_pos (List.mem_cons_of_mem _ hr)]
    · by_cases hu : a = u
      · rw [if_neg hr, if_pos hu, if_pos (hu ▸ List.mem_cons_self)]
      · rw [if_neg hr, if_neg hu, if_neg (by simp [hr, hu])]

theorem mem_unscanned {s : State} {n : Nat} : n ∈ s.unscanned ↔ n < 160 ∧ mget 0 s.gens n = 0 := by
  rw [State.unscanned, List.mem_filter, mem_upTo_zero, decide_eq_true_eq]

/-- The units that pass their first scan now. -/
def State.firstScans (s : State) : List Nat := s.unscanned.filter (fun u => !s.fenced.contains u)

theorem mem_firstScans {s : State} {n : Nat} : n ∈ s.firstScans ↔ n < 160 ∧ mget 0 s.gens n = 0 ∧ n ∉ s.fenced := by
  rw [State.firstScans, List.mem_filter, mem_unscanned, and_assoc]
  simp

/-- The state after the first scans. -/
def State.firstScanned (s : State) : State := { s with gens := s.firstScans.foldl (fun m u => mset m u 1) s.gens }

theorem gens_firstScanned (s : State) {n : Nat} (hn : n < 160) :
    mget 0 s.firstScanned.gens n = if mget 0 s.gens n = 0 ∧ n ∉ s.fenced then 1 else mget 0 s.gens n := by
  rw [State.firstScanned, mget_foldl_mset_const]
  exact if_congr (by rw [mem_firstScans, and_iff_right hn]) rfl rfl

theorem exec_bootScan {s : State} (hstep : s.plat.bootStep = 5) (hrec : s.plat.recovery = false) (htherm : s.plat.thermal = false) :
    exec .bootScan s = event "BOOT_SCAN" (if s.firstScanned.unscanned = [] then
      some ({ s.firstScanned with scans := (upTo 0 160).map (fun u => (u, slotsBegun u s.cyc)) }.modPlat (fun p => { p with bootStep := 6 }))
      else if s.firstScans = [] then none else some s.firstScanned) := by
  show execBootScan s = _
  rw [execBootScan, if_pos ⟨hstep, hrec, htherm⟩]
  rfl

/-- Every unit has passed a scan once those have that no fence keeps. -/
theorem firstScanned_all {s : State} (h : ∀ n, n < 160 → n ∈ s.fenced → mget 0 s.gens n ≠ 0) : s.firstScanned.unscanned = [] := by
  rw [List.eq_nil_iff_forall_not_mem]
  intro n hn
  obtain ⟨hlt, hzero⟩ := mem_unscanned.1 hn
  rw [gens_firstScanned s hlt] at hzero
  split at hzero
  · exact absurd hzero (by decide)
  · next hnot => exact hnot ⟨hzero, fun hf => h n hlt hf hzero⟩

/-! ### The mailbox -/

theorem mailbox_of {s : State} (h : s.plat.recovery = true ∨ 3 ≤ s.plat.bootStep) : s.mailbox = true := by
  simpa [State.mailbox] using h

/-! ### Resets -/

/-- A module reset is asked for while the dies are hot in a shutdown: it waits. -/
theorem askReset_hot {s : State} (ht : s.plat.thermal = true) (hh : s.plat.hot = true) : s.askReset = s.modPlat (fun p => { p with resetReq := true }) := if_pos ⟨ht, hh⟩

theorem askReset_cool {s : State} (h : s.plat.thermal = false ∨ s.plat.hot = false) : s.askReset = s.resetModule :=
  if_neg (fun hh => h.elim (fun h => Bool.false_ne_true (h.symm.trans hh.1)) (fun h => Bool.false_ne_true (h.symm.trans hh.2)))

theorem exec_functionLevelReset {port fn : Nat} (s : State) (hp : port < 2) (hf : fn < 17) : exec (.functionLevelReset port fn) s =
    .next (if fn = 0 then s.askReset
      else match mfind s.plat.vfs (fnKey port fn) with
        | none => s
        | some b => match mfind s.removals b.ctx with
          | some r => if r.step = 0 then s.startRemoval b.ctx r else s
          | none => s.startRemoval b.ctx { step := 1, deadline := 0, cause := 0, engine := 0, unit := 0, status := 0 }) := by
  show execFunctionLevelReset port fn s = _
  rw [execFunctionLevelReset, if_neg (by omega)] <;> rfl

/-- A removal that begins is at its first step. -/
theorem removals_startRemoval (s : State) (ctx : Nat) (r : Removal) :
    mfind (s.startRemoval ctx r).removals ctx = some { r with step := 1, deadline := s.cyc + 65536 } := by
  rw [State.startRemoval]
  dsimp only
  rw [mfind_mset, if_pos rfl]
  rfl

/-! ### Shutdown -/

/-- The record of a lost context. -/
def State.lostRecord (s : State) (ctx : Nat) : TrapRec :=
  { seg := 0, addr := 0, tstep := s.tstep, sched := 0, status := 0, cmd := 0, cause := 0x88, engine := 0, uidx := 0, seq := 0, cls := 3,
    ctx := ctx, die := if (s.boundCores ctx 0).isEmpty ∧ (s.boundCores ctx 1).isEmpty = false then 1 else 0, core := 0, npend := 0, more := 0,
    waits := false, pend := false }

/-- The bytes of that record. -/
def State.lostBits (s : State) (ctx : Nat) : BitVec 512 := (s.lostRecord ctx).bits

/-- A report is four messages. -/
theorem reportLost_eq (s : State) (ctx : Nat) : s.reportLost ctx =
    { s with outbox := s.outbox ++ [.record 0 (s.lostBits ctx)] ++ [.hostEvent 0] ++ [.record 1 (s.lostBits ctx)] ++ [.hostEvent 1] } := by
  rw [State.reportLost, State.lostBits, State.lostRecord]
  dsimp only [List.foldl, State.send, Msg.recipient]

theorem lostBits_withOutbox (s : State) (o : List Msg) (ctx : Nat) : ({ s with outbox := o } : State).lostBits ctx = s.lostBits ctx :=
  congrArg TrapRec.bits rfl

/-- Reports of contexts change the messages alone, and all of them stay. -/
theorem foldl_reportLost (l : List Nat) (s : State) : ∃ o, l.foldl State.reportLost s = { s with outbox := o } ∧ (∀ m ∈ s.outbox, m ∈ o) ∧
    ∀ ctx ∈ l, .record 0 (s.lostBits ctx) ∈ o ∧ .record 1 (s.lostBits ctx) ∈ o := by
  induction l generalizing s with
  | nil => exact ⟨s.outbox, rfl, fun _ h => h, fun _ h => absurd h List.not_mem_nil⟩
  | cons ctx r ih =>
    rw [List.foldl_cons, reportLost_eq]
    obtain ⟨o, ho, hkeep, hrec⟩ :=
      ih { s with outbox := s.outbox ++ [.record 0 (s.lostBits ctx)] ++ [.hostEvent 0] ++ [.record 1 (s.lostBits ctx)] ++ [.hostEvent 1] }
    simp only [lostBits_withOutbox] at hrec
    dsimp only at hkeep
    refine ⟨o, ho, fun m hm => hkeep m (by simp [hm]), fun ctx' hc => ?_⟩
    rcases List.mem_cons.1 hc with rfl | hc
    · exact ⟨hkeep _ (by simp), hkeep _ (by simp)⟩
    · exact hrec ctx' hc

end Sys2Proof.Machine

namespace Sys2Proof.Proofs
open Sys2Proof.Machine

/-- Settles O21: the steps of the boot, what the mailbox writes and quotes, and what an accepted record is. -/
theorem bootProceedsByAcceptedRecords : Obligations.BootProceedsByAcceptedRecords := by
  unfold Obligations.BootProceedsByAcceptedRecords
  intro s kind k secver body bs copyB nonce p
  refine ⟨fun hrec htherm => ⟨fun hstep => ⟨fun hmin hch => ?_, fun hmin hch => ?_, fun hkind hch => ?_⟩, fun hstep => ?_, fun hstep hch => ?_, ?_,
    fun hstep hfenced => ?_, ?_⟩, fun hup => ⟨fun hk => ?_, ?_⟩, ?_⟩
  · refine ⟨s.modPlat (fun p => p.configured secver body), ?_, rfl, measure_configured s.plat secver body, (bootStep_configured s.plat secver body).trans hstep,
      fun h1 h4 => mget_minsec body h1 h4⟩
    rw [exec_bootRecordAccept hstep hrec htherm (.inl ⟨rfl, hmin⟩), hch]
    simp only [if_true]
  · refine ⟨s.modPlat (fun p => p.started body), ?_, rfl, measure_started s.plat body⟩
    rw [exec_bootRecordAccept hstep hrec htherm (.inr ⟨rfl, hmin⟩), hch]
    simp only [if_neg Nat.one_ne_zero]
  · refine ⟨s.modPlat (fun p => { p with recovery := true }), ?_, rfl, hstep, rfl⟩
    rw [exec_bootRecordAccept hstep hrec htherm hkind, hch]
  · refine ⟨s.modPlat (fun p => { p with bootStep := 4 }), ?_, rfl, rfl⟩
    show execFirmwareTraining s = _
    rw [execFirmwareTraining, if_pos ⟨hstep, hrec, htherm⟩, event_next]
  · refine ⟨s.modPlat (fun p => { p with recovery := true }), ?_, rfl, hstep⟩
    rw [exec_bootStoreLoad hstep hrec htherm, loadRecord_none hrec hch, loadRecord_recovery rfl, loadRecord_recovery rfl]
    exact congrArg _ (if_pos rfl)
  · intro b2 b3 b4 v2 v3 v4 hstep h2 h3 h4
    have hp2 : (s.loadRecord 2).plat = s.plat.measured b2 := loadRecord_good hrec h2
    have hr2 : (s.loadRecord 2).plat.recovery = false := by rw [hp2, recovery_measured]; exact hrec
    have hc3 : (s.loadRecord 2).plat.choose 3 = some (v3, b3) := by rw [hp2, choose_measured]; exact h3
    have hp3 : ((s.loadRecord 2).loadRecord 3).plat = (s.plat.measured b2).measured b3 := by rw [loadRecord_good hr2 hc3, hp2]
    have hr3 : ((s.loadRecord 2).loadRecord 3).plat.recovery = false := by rw [hp3, recovery_measured, recovery_measured]; exact hrec
    have hc4 : ((s.loadRecord 2).loadRecord 3).plat.choose 4 = some (v4, b4) := by rw [hp3, choose_measured, choose_measured]; exact h4
    have hp4 : (((s.loadRecord 2).loadRecord 3).loadRecord 4).plat = ((s.plat.measured b2).measured b3).measured b4 := by rw [loadRecord_good hr3 hc4, hp3]
    have hr4 : (((s.loadRecord 2).loadRecord 3).loadRecord 4).plat.recovery = false := by rw [hp4, recovery_measured, recovery_measured, recovery_measured]; exact hrec
    refine ⟨(((s.loadRecord 2).loadRecord 3).loadRecord 4).modPlat (fun p => { p with bootStep := 5 }), ?_, rfl, hr4, ?_, ?_, ?_⟩
    · rw [exec_bootStoreLoad hstep hrec htherm, if_neg (by rw [hr4]; exact Bool.false_ne_true)]
    · show (((s.loadRecord 2).loadRecord 3).loadRecord 4).plat.measure = _
      rw [hp4, measure_measured, measure_measured, measure_measured]
    · show (((s.loadRecord 2).loadRecord 3).loadRecord 4).stores.poolEps = _
      rw [stores_loadRecord_last hr3 hc4, (stores_loadRecord_pool hr2 hc3).1]
    · show (((s.loadRecord 2).loadRecord 3).loadRecord 4).stores.updEps = _
      rw [stores_loadRecord_last hr3 hc4, (stores_loadRecord_pool hr2 hc3).2]
  · refine ⟨{ s.firstScanned with scans := (upTo 0 160).map (fun u => (u, slotsBegun u s.cyc)) }.modPlat (fun p => { p with bootStep := 6 }), ?_, rfl, fun n hn => ?_⟩
    · rw [exec_bootScan hstep hrec htherm, if_pos (firstScanned_all hfenced), event_next]
    · exact (gens_firstScanned s hn).trans (if_congr (and_iff_left_of_imp (fun hz hf => hfenced n hn hf hz)) rfl rfl)
  · rintro hstep ⟨n, hn, hfenced, hzero⟩ ⟨n', hn', hfree, hzero'⟩
    refine ⟨s.firstScanned, ?_, hstep, fun n hn => gens_firstScanned s hn⟩
    have hleft : s.firstScanned.unscanned ≠ [] := by
      refine List.ne_nil_of_mem (mem_unscanned.2 ⟨hn, ?_⟩)
      rw [gens_firstScanned s hn, if_neg (fun h => h.2 hfenced), hzero]
    rw [exec_bootScan hstep hrec htherm, if_neg hleft, if_neg (List.ne_nil_of_mem (mem_firstScans.2 ⟨hn', hzero', hfree⟩)), event_next]
  · have hkey : b2n copyB = if copyB then 1 else 0 := rfl
    refine ⟨s.modPlat (fun p => { p with flash := mput [] p.flash (2 * kind + b2n copyB) bs }), ?_, ?_, fun k hk => ?_, rfl, rfl⟩
    · show execMailboxRecordWrite copyB kind bs s = _
      rw [execMailboxRecordWrite, mailbox_of hup, if_neg (by decide), if_pos hk, event_next]
    · exact (mget_mput [] _ _ _ _).trans (if_pos rfl)
    · exact (mget_mput [] _ _ _ _).trans (if_neg hk)
  · show Host.Outcome.next _ = _
    rw [mailbox_of hup, if_pos rfl]
  · intro c b h
    obtain ⟨hc, hneed, hmagic, hkind, hb, hsha, hkey, hsig⟩ := accepts_spec h
    exact ⟨hc, hneed, by simpa [fld] using hmagic, hkind, hb, hsha, of_decide_eq_true hkey, hsig⟩

/-- Settles O22: resets, the removal of a virtual function's context, and the thermal shutdown. -/
theorem resetsAndShutdownTakeEffect : Obligations.ResetsAndShutdownTakeEffect := by
  unfold Obligations.ResetsAndShutdownTakeEffect
  intro s port fn hot hport hfn fresh cool
  have hfresh : fresh s.resetModule := ⟨rfl, rfl, rfl, rfl, rfl, rfl, rfl, rfl, rfl, rfl, rfl, rfl, rfl, rfl⟩
  have hport0 : exec (.functionLevelReset port 0) s = .next s.askReset := exec_functionLevelReset s hport (by decide)
  refine ⟨fun h => ?_, fun h => ?_, fun b hpos hb hr => ?_, fun hpos hb => ?_, fun hoff => ?_, fun hon => ⟨fun hreq => ?_, fun hreq hhot => ?_⟩⟩
  · rw [hport0, show exec .moduleReset s = .next s.askReset from rfl, askReset_cool h]
    exact ⟨⟨_, rfl, hfresh⟩, _, rfl, hfresh⟩
  · obtain ⟨ht, hh⟩ : s.plat.thermal = true ∧ s.plat.hot = true := by simpa [cool] using h
    rw [hport0, show exec .moduleReset s = .next s.askReset from rfl, askReset_hot ht hh]
    exact ⟨_, rfl, rfl, rfl, rfl, ht⟩
  · refine ⟨_, _, ?_, removals_startRemoval s b.ctx { step := 1, deadline := 0, cause := 0, engine := 0, unit := 0, status := 0 }, rfl, rfl⟩
    rw [exec_functionLevelReset s hport hfn, if_neg (by omega), show fnKey port fn = 17 * port + fn from rfl, hb]
    dsimp only
    rw [hr]
  · rw [exec_functionLevelReset s hport hfn, if_neg (by omega), show fnKey port fn = 17 * port + fn from rfl, hb]
  · obtain ⟨o, ho, -, hrec⟩ := foldl_reportLost s.boundContexts ((s.send (.hostEvent 0)).send (.hostEvent 1))
    refine ⟨(s.boundContexts.foldl State.reportLost ((s.send (.hostEvent 0)).send (.hostEvent 1))).powerDown.modPlat (fun p => { p with thermal := true, hot := hot }), ?_, ?_⟩
    · show execThermalShutdown hot s = _
      rw [execThermalShutdown, hoff, if_neg Bool.false_ne_true, event_next]
    · rw [ho]
      exact ⟨rfl, rfl, rfl, rfl, rfl, rfl, rfl, rfl, rfl, fun ctx hc => ⟨_, rfl, rfl, rfl, hrec ctx hc⟩⟩
  · refine ⟨s.resetModule, ?_, hfresh⟩
    show execThermalShutdownExit s = _
    rw [execThermalShutdownExit, if_pos ⟨hon, .inl hreq⟩, hreq, if_pos rfl, event_next]
  · refine ⟨s.modPlat (fun p => { p with hot := false }), ?_, rfl, hon, rfl⟩
    show execThermalShutdownExit s = _
    rw [execThermalShutdownExit, if_pos ⟨hon, .inr hhot⟩, hreq, if_neg Bool.false_ne_true, event_next]

end Sys2Proof.Proofs
end

