-- ==== Sys2Proof/Proofs/EmissionsAndDigests.lean ====
section
/-! PROOFS. Emissions, replica digests (R416, R417, R426), and the parts of the state that their units leave: the journal engine of what writes memory, and
what a change of the journal engine leaves. -/
namespace Sys2Proof.Machine

/-! ### What leaves the journal engine -/

theorem jrnl_homeWrite (s : State) (pa : Nat) (bs : List Byte) : (s.homeWrite pa bs).jrnl = s.jrnl := by
  obtain ⟨_, _, _, _, _, hs⟩ := (homeWrite_wrote s pa bs).state
  rw [hs]

theorem jrnl_setPending (s : State) (c ctx : Nat) (e : PErr) : (s.setPending c ctx e).jrnl = s.jrnl := by
  obtain ⟨_, _, hs⟩ := setPending_state s c ctx e
  rw [hs]

theorem jrnl_signalSem (s : State) (c ctx k : Nat) : (s.signalSem c ctx k).jrnl = s.jrnl := by
  unfold State.signalSem
  dsimp only
  split <;> rfl

theorem jrnl_setStop (s : State) (ctx c : Nat) : (s.setStop ctx c).jrnl = s.jrnl := by
  unfold State.setStop
  split
  · exact jrnl_homeWrite s _ _
  · rfl

theorem jrnl_stopAll (s : State) (ctx : Nat) : (s.stopAll ctx).jrnl = s.jrnl := foldl_state_keeps (φ := State.jrnl) _ (fun s c => jrnl_setStop s ctx c) _ s

theorem homeView_signalSem (s : State) (c ctx k : Nat) : (s.signalSem c ctx k).homeView = s.homeView := by
  unfold State.signalSem
  dsimp only
  split <;> rfl

theorem modJ_self (s : State) : s.modJ (fun j => j) = s := rfl

/-! ### Emissions -/

theorem length_emissionBytes (s : State) (r : BitVec 1024) : (s.emissionBytes r).length = 32 := length_leBytes _ _

/-- The emission that `emit` queues. -/
def State.newEmission (s : State) (f : MgtF) (g : Staging) (ps : List KPiece) : Emission :=
  { va := s.rd f.a, pa := (ps.map (fun p => p.pa)).headD 0, bits := g.lastRec, sem := f.idx.toNat, waits := !g.lastRep,
    core := s.cur.core, ctx := s.me.ctx, origin := s.mySeq.index, sent := false }

/-- What `emit` does where it has a record to emit, room, and its address translates. -/
theorem actEmit_reaches {s s1 : State} {f : MgtF} {ps : List KPiece} (hun : s.me.im.stg.unemitted = true) (hal : (s.rd f.a).toNat % 32 = 0)
    (hroom : s.jrnl.en = true ∧ s.jrnl.outstanding s.cur.core < 16) (hreach : s.Reaches 1 (s.rd f.a) 32 s1 ps) :
    actEmit f s = .done ((s1.modStg (fun g => { g with unemitted := false })).modJ (fun j =>
      { j with emissions := j.emissions ++ [s1.newEmission f s.me.im.stg ps] })) := by
  unfold actEmit
  dsimp only
  rw [if_neg (by rw [hun]; decide), if_neg (not_not_intro hal), if_neg (by rw [hroom.1]; have := hroom.2; simp; omega), kAccess_of_reaches hreach,
    State.newEmission, rd_of_reaches hreach, cur_of_reaches hreach]

/-- The oldest emission of a core whose address is at home here, and that nothing holds back, is written there. -/
theorem emissionStep_home {s : State} {c : Nat} {e : Emission} (hfind : s.jrnl.emissions.find? (fun e => decide (e.core = c)) = some e) (hsent : e.sent = false)
    (hret : s.jrnl.retracted.contains (e.ctx, rSeq e.bits) = false) (hen : s.jrnl.en = true) (hlost : s.jrnl.lost = false) (hon : s.plat.thermal = false)
    (hacked : e.waits = true → rJidx e.bits < s.jrnl.acked) (hkind : s.paKind e.pa = .home) (hfree : s.extentBlocked e.pa 32 true = false) :
    s.emissionStep c = some (((s.homeWrite e.pa (s.emissionBytes e.bits)).dropEmission e).signalSem c e.ctx e.sem) := by
  have hgo : ¬(s.jrnl.en = false ∨ s.jrnl.lost = true ∨ s.plat.thermal = true ∨ (e.waits = true ∧ s.jrnl.acked ≤ rJidx e.bits)) := by
    rw [hen, hlost, hon]
    simp only [Bool.true_eq_false, Bool.false_eq_true, false_or]
    exact fun h => absurd (hacked h.1) (by omega)
  unfold State.emissionStep
  rw [hfind]
  dsimp only
  rw [hsent, if_neg Bool.false_ne_true, hret, if_neg Bool.false_ne_true, if_neg hgo, hkind]
  dsimp only
  rw [hfree, if_neg Bool.false_ne_true]

theorem homeView_dropEmission (s : State) (e : Emission) : (s.dropEmission e).homeView = s.homeView := rfl
theorem cores_dropEmission (s : State) (e : Emission) : (s.dropEmission e).cores = s.cores := rfl
theorem emissions_dropEmission (s : State) (e : Emission) : (s.dropEmission e).jrnl.emissions = s.jrnl.emissions.erase e := rfl

/-! ### Digests -/

/-- Equal digests release the semaphore and end what was disputed. -/
theorem compareDigests_equal {s : State} {r : RepWait} {digest : Word} (h : r.digest = digest) :
    s.compareDigests r digest = (s.signalSem r.core r.ctx r.sem).modJ (fun j =>
      { j with disputes := j.disputes.filter (fun d => !(decide (d.1 = r.ctx) && decide (d.2.1 = r.step))) }) := if_pos h

/-- A comparison touches the disputes alone of the journal engine; one that differs is a dispute. -/
theorem compareDigests_jrnl (s : State) (r : RepWait) (digest : Word) :
    ∃ ds, (s.compareDigests r digest).jrnl = { s.jrnl with disputes := ds } ∧ (r.digest ≠ digest → ∃ n, (r.ctx, r.step, n + 1) ∈ ds) := by
  unfold State.compareDigests
  split
  · next h =>
    refine ⟨s.jrnl.disputes.filter (fun d => !(decide (d.1 = r.ctx) && decide (d.2.1 = r.step))), ?_, fun hne => absurd h hne⟩
    rw [State.modJ, jrnl_signalSem]
  · dsimp only
    rw [jrnl_stopAll, State.raiseError, jrnl_setPending]
    exact ⟨_, rfl, fun _ => ⟨_, List.mem_cons_self⟩⟩

/-- What `jrnl.rep` sends and keeps. -/
def State.ownDigest (s : State) (f : MgtF) : RepWait :=
  { core := s.cur.core, ctx := s.me.ctx, step := (s.rd f.b).toNat, digest := s.rd f.a, sem := f.idx.toNat, origin := s.mySeq.index }

/-- The digest goes to the replica, if there is one. -/
def State.sendDigest (s : State) (r : RepWait) : State := if s.jrnl.replica = 0xFFFF then s else s.send (.replica s.jrnl.replica r.ctx r.step r.digest)

theorem sendDigest_cores (s : State) (r : RepWait) : (s.sendDigest r).cores = s.cores := by unfold State.sendDigest; split <;> rfl
theorem sendDigest_jrnl (s : State) (r : RepWait) : (s.sendDigest r).jrnl = s.jrnl := by unfold State.sendDigest; split <;> rfl
theorem sendDigest_cur (s : State) (r : RepWait) : (s.sendDigest r).cur = s.cur := by unfold State.sendDigest; split <;> rfl

theorem actJrnlRep_room {s : State} {f : MgtF} (hroom : s.jrnl.en = true ∧ s.jrnl.outstanding s.cur.core < 16) :
    actJrnlRep f s = .done (match s.jrnl.peerReps.find? (fun p => decide (p.1 = s.me.ctx) && decide (p.2.1 = (s.rd f.b).toNat)) with
      | some p => ((s.sendDigest (s.ownDigest f)).modJ (fun j => { j with peerReps := j.peerReps.erase p })).compareDigests (s.ownDigest f) p.2.2
      | none => (s.sendDigest (s.ownDigest f)).modJ (fun j => { j with reps := j.reps ++ [s.ownDigest f] })) := by
  unfold actJrnlRep
  dsimp only
  exact if_neg (by rw [hroom.1]; have := hroom.2; simp; omega)

end Sys2Proof.Machine

namespace Sys2Proof.Proofs
open Sys2Proof.Machine

/-- Settles O13: emissions, and the digests of the two replicas. -/
theorem emissionsAndReplicaDigests : Obligations.EmissionsAndReplicaDigests := by
  unfold Obligations.EmissionsAndReplicaDigests
  intro s f c step digest e s1 ps va g room
  have hemit : exec (.emit f) s = issue s [f.a] (actEmit f) := show execEmit f s = _ from rfl
  have hrep : exec (.jrnlRep f) s = issue s [f.a, f.b] (actJrnlRep f) := show execJrnlRep f s = _ from rfl
  refine ⟨fun hready => ⟨fun hun => ?_, fun hun hal => ?_, fun hun hal hroom => ?_, fun hun hal hroom hreach => ?_⟩, ?_,
    fun hready => ⟨fun hroom => ?_, fun hroom hpeer => ?_, fun p hroom hpeer heq hbound hleaving => ?_⟩, fun hon => ⟨fun hnone => ?_, fun r hfind => ?_⟩⟩
  · exact State.traps_of_opTrap hemit hready (if_pos hun)
  · refine State.traps_of_memTrap hemit hready (addr := (s.rd f.a).toNat) (status := memStatus 0 0 1 0 0) ?_
    exact (if_neg (by rw [show s.me.im.stg.unemitted = true from hun]; decide)).trans (if_pos hal)
  · refine State.waits_of_wait (lacks := 0) hemit hready ?_
    refine (if_neg (by rw [show s.me.im.stg.unemitted = true from hun]; decide)).trans ((if_neg (not_not_intro hal)).trans (if_pos ?_))
    by_cases hen : s.jrnl.en = true
    · exact .inr (Nat.not_lt.1 (fun h => hroom ⟨hen, h⟩))
    · exact .inl (Bool.not_eq_true _ ▸ hen)
  · refine ⟨_, s1.newEmission f g ps, State.issues_of_done hemit hready (actEmit_reaches hun hal hroom hreach), rfl, rd_of_reaches hreach _, rfl, rfl, rfl,
      congrArg Cur.core (cur_of_reaches hreach), rfl, ?_⟩
    show ((s1.modStg (fun g => { g with unemitted := false })).core s1.cur.core).im.stg.unemitted = false
    rw [State.modStg, State.core_modIm, if_pos rfl]
  · intro hc hfind hsent hret hen hlost hon hacked hkind hfree
    refine ⟨((s.homeWrite e.pa (s.emissionBytes e.bits)).dropEmission e).signalSem c e.ctx e.sem, ?_, ?_, fun a ha => ?_, ?_, fun hbound hctx hleaving => ?_⟩
    · rw [show exec (.emissionPerform c) s = execEmissionPerform c s from rfl, execEmissionPerform, coreEvent_next]
      exact ⟨hc, emissionStep_home hfind hsent hret hen hlost hon hacked hkind hfree⟩
    · have hbytes := homeBytes_homeWrite s e.pa (s.emissionBytes e.bits)
      rw [length_emissionBytes] at hbytes
      rw [homeBytes_congr (homeView_signalSem _ _ _ _), homeBytes_congr (homeView_dropEmission _ _), hbytes]
    · rw [homeByte_congr (homeView_signalSem _ _ _ _), homeByte_congr (homeView_dropEmission _ _), State.homeByte_homeWrite, length_emissionBytes,
        if_neg (by omega)]
    · rw [jrnl_signalSem, emissions_dropEmission, jrnl_homeWrite]
    · have hcore : ((s.homeWrite e.pa (s.emissionBytes e.bits)).dropEmission e).core c = s.core c := by
        rw [State.core, cores_dropEmission, (homeWrite_wrote s e.pa _).cores, State.core]
      rw [sem_signalSem (by rw [hcore, hbound]) (by rw [hcore, hctx]) (by rw [hcore, hleaving]), hcore]
  · refine State.waits_of_wait (lacks := 0) hrep hready (if_pos ?_)
    by_cases hen : s.jrnl.en = true
    · exact .inr (Nat.not_lt.1 (fun h => hroom ⟨hen, h⟩))
    · exact .inl (Bool.not_eq_true _ ▸ hen)
  · have hact := actJrnlRep_room (f := f) hroom
    rw [hpeer] at hact
    refine ⟨_, s.ownDigest f, State.issues_of_done hrep hready hact, ?_, rfl, rfl, rfl, rfl, rfl, fun hne => ?_⟩
    · rw [State.modJ, sendDigest_jrnl]
    · rw [State.modJ, State.sendDigest, if_neg hne]
      rfl
  · have hact := actJrnlRep_room (f := f) hroom
    rw [hpeer] at hact
    dsimp only at hact
    rw [compareDigests_equal heq.symm] at hact
    refine ⟨_, State.issues_of_done hrep hready hact, ?_, ?_, ?_⟩
    · rw [State.modJ, jrnl_signalSem, State.modJ, sendDigest_jrnl]
    · rw [State.modJ, jrnl_signalSem, State.modJ, sendDigest_jrnl]
    · have hcore : ((s.sendDigest (s.ownDigest f)).modJ (fun j => { j with peerReps := j.peerReps.erase p })).core s.cur.core = s.me := by
        rw [State.core, State.modJ, sendDigest_cores]
        rfl
      have hsem := sem_signalSem (k := f.idx.toNat) (by rw [hcore]; exact hbound) (by rw [hcore]) (by rw [hcore]; exact hleaving)
      rw [hcore] at hsem
      have hcur (X : State) : ∀ c ctx k, (X.signalSem c ctx k).cur = X.cur := fun c ctx k => by unfold State.signalSem; dsimp only; split <;> rfl
      rw [← hsem]
      exact congrArg (fun u : Cur => mget 0 (State.core _ u.core).im.sems f.idx.toNat) ((hcur _ _ _ _).trans (sendDigest_cur s _))
  · refine ⟨s.modJ (fun j => { j with peerReps := j.peerReps ++ [(c, step, digest)] }), ?_, rfl, rfl⟩
    show execReplicaDigestArrival c step digest s = _
    rw [execReplicaDigestArrival, hon, if_neg Bool.false_ne_true, hnone]
  · obtain ⟨ds, hj, hdiff⟩ := compareDigests_jrnl (s.modJ (fun j => { j with reps := j.reps.erase r })) r digest
    refine ⟨(s.modJ (fun j => { j with reps := j.reps.erase r })).compareDigests r digest, ?_, ?_, fun hne => ?_⟩
    · show execReplicaDigestArrival c step digest s = _
      rw [execReplicaDigestArrival, hon, if_neg Bool.false_ne_true, hfind]
    · rw [hj]
      rfl
    · rw [hj]
      exact hdiff hne

end Sys2Proof.Proofs
end

