-- ==== Sys2Proof/Proofs/PartnersAndDisputes.lean ====
section
/-! PROOFS. The other side of the journal (R410, R411, R417 to R419, R422, R425, R427): partners, JCTL, replay stores, suspect sequences and disputes. -/
namespace Sys2Proof.Machine

/-! ### The store of another module's journal -/

/-- What an acknowledged checkpoint record of a list discards. -/
theorem mem_keptTruncate {l : List (BitVec 1024)} {n : Nat} {x : BitVec 1024} :
    x ∈ keptTruncate l n ↔ x ∈ l ∧ ∀ c ∈ l, rKind c = 1 → rJidx c < n → discards c x = false := by
  unfold keptTruncate
  simp only [List.mem_filter, Bool.not_eq_true', List.any_eq_false, Bool.and_eq_true, decide_eq_true_eq, Bool.not_eq_true]
  exact and_congr_right fun _ => ⟨fun h c hc hk hi => h c ⟨hc, hk, hi⟩, fun h c hc => h c hc.1 hc.2.1 hc.2.2⟩

theorem discards_iff {c x : BitVec 1024} : discards c x = true ↔ rCtx x = rCtx c ∧ rSeq x = rSeq c ∧ (rKey c = 0 ∨ rStep x < rStep c) := by
  simp [discards, and_assoc]

/-- How far the journal of a module goes with a record. -/
def Journal.nextPos (j : Journal) (src : Nat) (r : BitVec 1024) : KeptPos :=
  KeptPos.accept (if rJidx r = 0 ∧ (mget [] j.kept src).contains r = false then none else mfind j.keptPos src) (rJidx r)

theorem keptPos_keep (j : Journal) (src : Nat) (r : BitVec 1024) : mfind (j.keep src r).keptPos src = some (j.nextPos src r) :=
  (mfind_mset ..).trans (if_pos rfl)

theorem kept_keep (j : Journal) (src : Nat) (r : BitVec 1024) : mget [] (j.keep src r).kept src =
    keptTruncate ((mget [] j.kept src).filter (fun x => decide (rJidx x ≠ rJidx r)) ++ [r]) (KeptPos.upto (some (j.nextPos src r))) :=
  mget_mset_same ..

theorem nextPos_first {j : Journal} {src : Nat} {r : BitVec 1024} (h : mfind j.keptPos src = none) :
    j.nextPos src r = { next := some (rJidx r + 1), ahead := [] } := by
  rw [Journal.nextPos, h, ite_self]
  rfl

theorem from_nil (p : KeptPos) (h : p.ahead = []) (n : Nat) : p.from_ n = { next := some n, ahead := [] } := by
  simp [KeptPos.from_, h, firstGap]

/-- The next record in order, and one ahead of it. -/
theorem nextPos_inOrder {j : Journal} {src n : Nat} {r : BitVec 1024} (h : mfind j.keptPos src = some { next := some n, ahead := [] }) :
    (rJidx r = n → j.nextPos src r = { next := some (n + 1), ahead := [] }) ∧
    (n < rJidx r → j.nextPos src r = { next := some n, ahead := [rJidx r] }) := by
  refine ⟨fun heq => ?_, fun hlt => ?_⟩
  · unfold Journal.nextPos
    split
    · next h0 => rw [KeptPos.accept, heq]
    · rw [h, KeptPos.accept, if_neg (by simp)]
      dsimp only
      rw [if_neg (by omega), if_pos heq, from_nil _ rfl]
  · rw [Journal.nextPos, if_neg (by omega), h, KeptPos.accept, if_neg (by simp)]
    dsimp only
    rw [if_neg (by omega), if_neg (by omega), if_neg (by simp)]

/-- A record that comes to the partner. -/
theorem exec_recordReceive {s : State} (hdom : s.inDomain = true) (src : Nat) {r : BitVec 1024} (hcrc : crcGood r = true) :
    exec (.journalRecordReceive src r) s =
      .next ((s.modJ (fun j => j.keep src r)).send (.journalAck src (KeptPos.upto (some (s.jrnl.nextPos src r))))) := by
  show execJournalRecordReceive src r s = _
  rw [execJournalRecordReceive, if_pos hdom]
  dsimp only
  simp only [hcrc, if_true]
  rw [show (s.modJ (fun j => j.keep src r)).jrnl.keptPos = (s.jrnl.keep src r).keptPos from rfl, keptPos_keep]

theorem exec_recordReceive_bad {s : State} (hdom : s.inDomain = true) {src : Nat} {r : BitVec 1024} {p : KeptPos} (hcrc : crcGood r = false)
    (hp : mfind s.jrnl.keptPos src = some p) : exec (.journalRecordReceive src r) s = .next (s.send (.journalAck src (p.next.getD 0))) := by
  show execJournalRecordReceive src r s = _
  rw [execJournalRecordReceive, if_pos hdom]
  have hsame : s.modJ (fun j => if crcGood r then j.keep src r
      else if (mfind j.keptPos src).isNone then { j with keptPos := mset j.keptPos src { next := none, ahead := [] } } else j) = s := by
    rw [State.modJ, hcrc, if_neg Bool.false_ne_true, hp, if_neg (by simp)]
  dsimp only
  rw [hsame, hp]
  rfl

/-! ### Acknowledgments -/

/-- A ring without what its acknowledged checkpoint records discard. -/
theorem mem_truncate_ring {j : Journal} {x : Nat × BitVec 1024} (h : x ∈ j.ring) (hout : x ∉ j.truncate.ring) :
    ∃ c ∈ j.ring, rKind c.2 = 1 ∧ discards c.2 x.2 = true := by
  have hany : ((j.ring.filter (fun r => decide (r.1 < j.acked) && decide (rKind r.2 = 1))).map (fun r => r.2)).any (fun c => discards c x.2) = true := by
    by_contra hn
    exact hout (List.mem_filter.2 ⟨h, by simpa using hn⟩)
  obtain ⟨_, hc, hd⟩ := List.any_eq_true.1 hany
  obtain ⟨c, hc', rfl⟩ := List.mem_map.1 hc
  obtain ⟨hring, hcond⟩ := List.mem_filter.1 hc'
  exact ⟨c, hring, (by simpa using hcond : c.1 < j.acked ∧ rKind c.2 = 1).2, hd⟩

/-- An acknowledgment of the partner in use. -/
theorem exec_ackReceive {s : State} {src upto : Nat} (hsrc : src = s.jrnl.partner) (hlost : s.jrnl.lost = false) (hon : s.plat.thermal = false) :
    exec (.journalAckReceive ⟨src, upto⟩) s = .next (if s.jrnl.acked < upto then
      s.modJ (fun j => ({ j with acked := Nat.min upto j.taken, ackAt := s.cyc }).truncate)
    else match s.jrnl.ring.find? (fun r => decide (s.jrnl.acked ≤ r.1) && decide (r.1 < s.jrnl.taken)) with
      | some r => s.send (.journal s.jrnl.partner r.2)
      | none => s) := by
  show execJournalAckReceive ⟨src, upto⟩ s = _
  exact congrArg Host.Outcome.next (if_neg (by simp [hsrc, hlost, hon]))

/-! ### Notices -/

/-- Messages sent one after another. -/
theorem foldl_send {β : Type} (f : β → Msg) (l : List β) (s : State) :
    (l.foldl (fun s r => s.send (f r)) s).outbox = s.outbox ++ l.map f ∧ (l.foldl (fun s r => s.send (f r)) s).jrnl = s.jrnl := by
  induction l generalizing s with
  | nil => exact ⟨(List.append_nil _).symm, rfl⟩
  | cons b r ih =>
    obtain ⟨ho, hj⟩ := ih (s.send (f b))
    exact ⟨by rw [List.foldl_cons, ho, List.map_cons]; exact List.append_assoc s.outbox [f b] _, by rw [List.foldl_cons, hj]; rfl⟩

/-- The other members of the domain. -/
def State.otherMembers (s : State) : List Nat := (nubBy (fun a b => a == b) s.dom.members).filter (fun r => decide (r ≠ s.dom.modid))

/-- A notice to all: to the hosts, and to the other members. -/
theorem notice_all (s : State) (m : Option Nat → Msg) :
    (s.notice [] m).outbox = s.outbox ++ [m none, .hostEvent 0, .hostEvent 1] ++ s.otherMembers.map (fun d => m (some d)) ∧ (s.notice [] m).jrnl = s.jrnl := by
  obtain ⟨ho, hj⟩ := foldl_send (fun r => m (some r)) s.otherMembers (((s.send (m none)).send (.hostEvent 0)).send (.hostEvent 1))
  refine ⟨Eq.trans ho (congrArg (· ++ _) ?_), hj⟩
  show s.outbox ++ [m none] ++ [.hostEvent 0] ++ [.hostEvent 1] = _
  simp

/-- The journal engine without a sequence's records from a step on. -/
def Journal.retract (j : Journal) (ctx q st : Nat) : Journal :=
  { j with ring := j.ring.filter (fun r => !((decide (rCtx r.2 = ctx) && decide (rSeq r.2 = q)) && decide (st ≤ rStep r.2))), retracted := (ctx, q) :: j.retracted }

theorem mem_retractKept {j : Journal} {src q st : Nat} {x : BitVec 1024} :
    x ∈ mget [] (j.retractKept src q st).kept src ↔ x ∈ mget [] j.kept src ∧ ¬(rSeq x = q ∧ st ≤ rStep x) := by
  unfold Journal.retractKept
  cases h : mfind j.kept src with
  | none => simp [mget, h]
  | some l => simp [mget_of_mfind h, imp_iff_not_or]

/-! ### The partner, JCTL and replay stores -/

theorem elogN_logError_ne (s : State) {d d' : Nat} (h : d' ≠ d) (e : ErrEnt) : ((s.logError d e).die d').elogN = (s.die d').elogN := by
  rw [State.logError, State.die_modDie, if_neg h]

/-- The log entry of a lost partner, in a die's log. -/
def State.logLost (s : State) (d : Nat) : State :=
  s.logError d { pa := 0, va := 0, tstep := s.tstep, ctx := 0, cause := 0xB1, engine := 11, core := 0, die := d }

/-- JCTL with another partner. -/
def jctlOf (jctl : Word) (m : Nat) : Word := BitVec.ofNat 64 (jctl.toNat % 2 ^ 48 + m * 2 ^ 48)

theorem partner_jctlOf (jctl : Word) {m : Nat} (hm : m < 2 ^ 16) : fld (jctlOf jctl m).toNat 48 16 = m := by
  have hlow : jctl.toNat % 2 ^ 48 < 2 ^ 48 := Nat.mod_lt _ (by decide)
  rw [jctlOf, BitVec.toNat_ofNat, fld]
  omega

/-- A new partner is in use. -/
def State.reassigned (s : State) (m : Nat) : State :=
  s.modJ (fun j => { j with lost := false, acked := (s.jrnl.ring.map (fun r => r.1)).foldl Nat.min s.jrnl.jidx, ackAt := s.cyc, jctl := jctlOf j.jctl m })

theorem outbox_modJ (s : State) (f : Journal → Journal) : (s.modJ f).outbox = s.outbox := rfl
theorem jrnl_modJ (s : State) (f : Journal → Journal) : (s.modJ f).jrnl = f s.jrnl := rfl

/-! The fields are read by rewriting: to compare whole states would unfold the numbers of JCTL. -/

theorem jctl_reassigned (s : State) (m : Nat) : (s.reassigned m).jrnl.jctl = jctlOf s.jrnl.jctl m := by rw [State.reassigned, jrnl_modJ]
theorem lost_reassigned (s : State) (m : Nat) : (s.reassigned m).jrnl.lost = false := by rw [State.reassigned, jrnl_modJ]
theorem ackAt_reassigned (s : State) (m : Nat) : (s.reassigned m).jrnl.ackAt = s.cyc := by rw [State.reassigned, jrnl_modJ]
theorem ring_reassigned (s : State) (m : Nat) : (s.reassigned m).jrnl.ring = s.jrnl.ring := by rw [State.reassigned, jrnl_modJ]
theorem outbox_reassigned (s : State) (m : Nat) : (s.reassigned m).outbox = s.outbox := by rw [State.reassigned, outbox_modJ]

theorem exec_partnerReassign {s : State} {m : Nat} (hlost : s.jrnl.lost = true) (hm : m < 2 ^ 16) (hon : s.plat.thermal = false) :
    exec (.partnerReassign m) s =
      .next ((s.jrnl.ring.filter (fun r => decide (r.1 < s.jrnl.taken))).foldl (fun s r => s.send (.journal m r.2)) (s.reassigned m)) := by
  show execPartnerReassign m s = _
  unfold execPartnerReassign
  dsimp only
  rw [if_pos ⟨hlost, hm, hon⟩, event_next]
  simp only [State.reassigned, jctlOf]

/-- Checkpoint records of a new store are noted, which leaves the stores. -/
theorem stores_noteAll (l : List (BitVec 1024)) (ctx : Nat) (j : Journal) : (l.foldl (fun j r =>
    match j.lastCkpt ctx (rSeq r) with
    | some x => j.noteCkpt ctx (rSeq r) (Nat.max x (rStep r))
    | none => j.noteCkpt ctx (rSeq r) (rStep r)) j).stores = j.stores := by
  induction l generalizing j with
  | nil => rfl
  | cons r l ih =>
    rw [List.foldl_cons, ih]
    split <;> rfl

/-! ### Scans and stops -/

theorem elogN_homeWrite (s : State) (pa : Nat) (bs : List Byte) (d : Nat) : ((s.homeWrite pa bs).die d).elogN = (s.die d).elogN := by
  obtain ⟨_, hd⟩ := (homeWrite_wrote s pa bs).die d
  rw [hd]

theorem elogN_stopAll (s : State) (ctx d : Nat) : ((s.stopAll ctx).die d).elogN = (s.die d).elogN := by
  refine foldl_state_keeps (φ := fun s : State => (s.die d).elogN) _ (fun s c => ?_) _ s
  unfold State.setStop
  split
  · exact elogN_homeWrite s _ _ d
  · rfl

theorem jrnl_clearStops (s : State) (ctx : Nat) : (s.clearStops ctx).jrnl = s.jrnl := by
  unfold State.clearStops
  split
  · exact jrnl_homeWrite s _ _
  · rfl

theorem jrnl_notice (s : State) (dsts : List Nat) (m : Option Nat → Msg) : (s.notice dsts m).jrnl = s.jrnl :=
  (foldl_send (fun r => m (some r)) _ _).2

theorem jrnl_scanFail (s : State) (unit : Nat) : (s.scanFail unit).jrnl = s.jrnl := by
  unfold State.scanFail
  dsimp only
  rw [foldl_state_keeps (φ := State.jrnl) _ (fun s x => jrnl_setPending s _ _ _), jrnl_notice]
  rfl

theorem jrnl_scanFailOut (l : List Nat) (s : State) : (l.foldl State.scanFailOut s).jrnl = s.jrnl :=
  foldl_state_keeps (φ := State.jrnl) State.scanFailOut (fun s u => jrnl_scanFail s u) l s

/-- A dispute is over. -/
def State.endDispute (s : State) (d : Nat × Nat × Nat) : State := s.modJ (fun j => { j with disputes := j.disputes.erase d })

theorem disputes_endDispute {s t : State} (h : t.jrnl = s.jrnl) (d : Nat × Nat × Nat) : (t.endDispute d).jrnl.disputes = s.jrnl.disputes.erase d := by
  rw [State.endDispute, State.modJ, h]

/-- A tie that no comparison decides is counted in the log of die 0. -/
def State.logTie (s : State) (ctx : Nat) : State :=
  s.logError 0 { pa := 0, va := 0, tstep := s.tstep, ctx := ctx, cause := 0xB6, engine := 11, core := 0, die := 0 }

/-- The context whose digest is in the minority is to be removed. -/
def State.removeMinority (s : State) (ctx : Nat) : State :=
  { s with removals := mset s.removals ctx { step := 0, deadline := 0, cause := 0xB5, engine := 11, unit := 0, status := 0 } }

theorem exec_replicaResolution {s : State} {ctx : Nat} {d : Nat × Nat × Nat} (hfind : s.jrnl.disputes.find? (fun d => decide (d.1 = ctx)) = some d)
    (failHere failPeer minority tie : Bool) : exec (.replicaResolution ctx failHere failPeer minority tie) s =
    .next (if failHere then
        (if failPeer then ((((s.stopAll ctx).suspectUnits ctx).1.foldl State.scanFailOut ((s.stopAll ctx).suspectUnits ctx).2).clearStops ctx).endDispute d
          else (((s.stopAll ctx).suspectUnits ctx).1.foldl State.scanFailOut ((s.stopAll ctx).suspectUnits ctx).2).endDispute d)
      else if failPeer then ((s.stopAll ctx).clearStops ctx).endDispute d
      else if d.2.2 < 2 then (s.stopAll ctx).clearStops ctx
      else if tie then ((s.stopAll ctx).logTie ctx).endDispute d
      else if minority then ((s.stopAll ctx).removeMinority ctx).endDispute d
      else ((s.stopAll ctx).clearStops ctx).endDispute d) := by
  show execReplicaResolution ctx failHere failPeer minority tie s = _
  rw [execReplicaResolution, event_next, hfind]
  simp only [apply_ite some]
  rfl

end Sys2Proof.Machine

namespace Sys2Proof.Proofs
open Sys2Proof.Machine

/-- Settles O14: the partner's store, acknowledgments, lost and new partners, JCTL, replay stores, suspect sequences and disputes. -/
theorem journalPartnersAndDisputes : Obligations.JournalPartnersAndDisputes := by
  unfold Obligations.JournalPartnersAndDisputes
  intro s src upto m ctx q gen r jctl jring recs diverge failHere failPeer minority tie j others
  refine ⟨fun hdom => ⟨fun hcrc => ?_, fun hcrc p hp => exec_recordReceive_bad hdom hcrc hp⟩, fun hsrc => ?_, fun hsrc hlost hon hup => ?_, fun hsrc hlost hon hup => ?_,
    ?_, ?_, ?_, ?_, fun hsome => ?_, fun st x => mem_retractKept, ?_⟩
  · refine ⟨(s.modJ (fun j => j.keep src r)).send (.journalAck src (KeptPos.upto (some (s.jrnl.nextPos src r)))), KeptPos.upto (some (s.jrnl.nextPos src r)),
      exec_recordReceive hdom src hcrc, rfl, fun hnone => ?_, fun n hn => ⟨fun hr => ?_, fun hr => ?_⟩, ?_, ?_⟩
    · rw [nextPos_first hnone]
      rfl
    · refine ⟨by rw [(nextPos_inOrder hn).1 hr]; rfl, ?_⟩
      rw [← (nextPos_inOrder hn).1 hr]
      exact keptPos_keep s.jrnl src r
    · refine ⟨by rw [(nextPos_inOrder hn).2 hr]; rfl, ?_⟩
      rw [← (nextPos_inOrder hn).2 hr]
      exact keptPos_keep s.jrnl src r
    · intro x hx
      obtain ⟨hx, -⟩ := mem_keptTruncate.1 ((kept_keep s.jrnl src r) ▸ hx)
      rcases List.mem_append.1 hx with hx | hx
      · exact .inr (List.mem_filter.1 hx).1
      · exact .inl (List.mem_singleton.1 hx)
    · intro x hx
      have hin : x ∈ (mget [] j.kept src).filter (fun x => decide (rJidx x ≠ rJidx r)) ++ [r] := by
        rcases hx with rfl | ⟨hx, hne⟩
        · simp
        · exact List.mem_append_left _ (List.mem_filter.2 ⟨hx, decide_eq_true hne⟩)
      by_cases hkept : x ∈ mget [] (s.jrnl.keep src r).kept src
      · exact .inl hkept
      · rw [kept_keep, mem_keptTruncate] at hkept
        push Not at hkept
        obtain ⟨c, hc, hkind, hidx, hdis⟩ := hkept hin
        obtain ⟨hctx, hseq, hstep⟩ := discards_iff.1 (by simpa using hdis)
        refine .inr ⟨c, ?_, hkind, hidx, hctx.symm, hseq.symm, hstep⟩
        rcases List.mem_append.1 hc with hc | hc
        · exact .inr (List.mem_filter.1 hc).1
        · exact .inl (List.mem_singleton.1 hc)
  · show Host.Outcome.next _ = _
    rw [if_pos (.inr (.inr hsrc))]
  · refine ⟨_, exec_ackReceive hsrc hlost hon, ?_⟩
    rw [if_neg (Nat.not_lt.2 hup)]
    split
    · next x hx =>
      have hcond : j.acked ≤ x.1 ∧ x.1 < j.taken := by simpa using List.find?_some hx
      exact ⟨rfl, .inr ⟨x, List.mem_of_find?_eq_some hx, hcond.1, hcond.2, rfl⟩⟩
    · exact ⟨rfl, .inl rfl⟩
  · refine ⟨s.modJ (fun j => ({ j with acked := Nat.min upto j.taken, ackAt := s.cyc }).truncate), ?_, rfl, fun x hx => (List.mem_filter.1 hx).1, fun x hx hout => ?_⟩
    · rw [exec_ackReceive hsrc hlost hon, if_pos hup]
    · obtain ⟨c, hc, hkind, hd⟩ := mem_truncate_ring (j := { s.jrnl with acked := Nat.min upto s.jrnl.taken, ackAt := s.cyc }) hx hout
      obtain ⟨hctx, hseq, hstep⟩ := discards_iff.1 hd
      exact ⟨c, hc, hkind, hctx.symm, hseq.symm, hstep⟩
  · intro hen hlost hon hcase
    have hcond : (j.en && !j.lost && !s.plat.thermal && ((decide (j.acked < j.taken) && decide (j.ackAt + partnerWait ≤ s.cyc)) ||
        (!s.dom.members.isEmpty && !s.dom.members.contains j.partner))) = true := by
      rw [hen, hlost, hon]
      simp only [Bool.not_false, Bool.true_and, Bool.or_eq_true, Bool.and_eq_true, decide_eq_true_eq, Bool.not_eq_true', List.isEmpty_eq_false_iff,
        List.contains_eq_mem, decide_eq_false_iff_not]
      rw [show partnerWait = 768000 from rfl]
      exact hcase
    refine ⟨((s.logLost 0).logLost 1).modJ (fun j => { j with lost := true }), ?_, rfl, ?_, ?_⟩
    · show execPartnerLost s = _
      rw [execPartnerLost, event_next]
      exact if_pos hcond
    · exact (elogN_logError_ne (s.logLost 0) (by decide) _).trans (elogN_logError s 0 _)
    · exact (elogN_logError (s.logLost 0) 1 _).trans (congrArg (· + 1) (elogN_logError_ne s (by decide) _))
  · intro hlost hm hon
    obtain ⟨ho, hj⟩ := foldl_send (fun x : Nat × BitVec 1024 => Msg.journal m x.2) (j.ring.filter (fun r => decide (r.1 < j.taken))) (s.reassigned m)
    rw [outbox_reassigned] at ho
    refine ⟨_, exec_partnerReassign hlost hm hon, ?_, ?_, ?_, ho, ?_⟩
    · rw [hj, lost_reassigned]
    · rw [hj, Journal.partner, jctl_reassigned, partner_jctlOf s.jrnl.jctl hm]
    · rw [hj, ackAt_reassigned]
    · rw [hj, ring_reassigned]
  · intro v lsize legal hfirm hen hlegal
    refine ⟨s.modJ (fun j => { j with jctl := v, jring := jring, ackAt := s.cyc }), ?_, rfl⟩
    have hok : (!v.getLsbD 0 || (decide (10 ≤ lsize) && decide (lsize ≤ 24) && decide (jring.toNat % 4096 = 0) && inHbm jring.toNat &&
        inHbm (jring.toNat + 128 * 2 ^ lsize - 1))) = true := by
      cases hv : v.getLsbD 0 with
      | false => rfl
      | true =>
        obtain ⟨h10, h24, hal, hend⟩ := hlegal hv
        have hpos : 0 < 2 ^ lsize := Nat.two_pow_pos lsize
        simp only [Bool.not_true, Bool.false_or, Bool.and_eq_true, decide_eq_true_eq, inHbm]
        exact ⟨⟨⟨⟨h10, h24⟩, hal⟩, by omega⟩, by omega⟩
    show execJctlWrite jctl jring s = _
    rw [execJctlWrite, event_next]
    dsimp only
    rw [if_neg (by rw [hfirm]; decide), if_neg (show ¬s.jrnl.en = true by rw [show s.jrnl.en = false from hen]; decide)]
    exact if_pos hok
  · intro hctx hman
    have hexec : exec (.replayStoreInstall ctx recs) s = event "REPLAY_STORE_INSTALL" (some (s.modJ (fun j =>
        if recs.isEmpty then { j with stores := mdel j.stores ctx }
        else
          (recs.filter (fun r => decide (rKind r = 1))).foldl (fun j r =>
            match j.lastCkpt ctx (rSeq r) with
            | some x => j.noteCkpt ctx (rSeq r) (Nat.max x (rStep r))
            | none => j.noteCkpt ctx (rSeq r) (rStep r)) { j with stores := mset j.stores ctx recs }))) := by
      show execReplayStoreInstall ctx recs s = _
      rw [execReplayStoreInstall, manage_of_managed hman, if_neg (by omega)] <;> rfl
    refine ⟨_, hexec.trans (event_next.2 rfl), ?_⟩
    cases recs with
    | nil => exact ⟨mfind_mdel_same _ _, fun d hd => (mfind_mdel _ _ _).trans (if_neg hd)⟩
    | cons x l =>
      have hstores := stores_noteAll ((x :: l).filter (fun r => decide (rKind r = 1))) ctx { s.jrnl with stores := mset s.jrnl.stores ctx (x :: l) }
      refine ⟨(congrArg (fun m => mfind m ctx) hstores).trans ?_, fun d hd => (congrArg (fun m => mfind m d) hstores).trans ?_⟩
      · exact (mfind_mset ..).trans (if_pos rfl)
      · exact (mfind_mset ..).trans (if_neg hd)
  · have hany : s.jrnl.ring.any (fun r => (decide (rCtx r.2 = ctx) && decide (rSeq r.2 = q)) && decide (rKind r.2 = 0) && decide (gen - 1 ≤ rStamp r.2)) = true := by
      obtain ⟨x, hx, hc, hq, hk, hg⟩ := hsome
      exact List.any_eq_true.2 ⟨x, hx, by simp [hc, hq, hk, hg]⟩
    refine ⟨fun hd => ?_, fun st hd => ?_⟩
    · obtain ⟨ho, hj⟩ := notice_all s (fun d => .confirmNotice d s.dom.modid q gen)
      refine ⟨_, ?_, ho, hj⟩
      show execScanFailureReplay ctx q gen diverge s = _
      rw [execScanFailureReplay, event_next, hd]
      exact if_pos hany
    · obtain ⟨ho, hj⟩ := notice_all s (fun d => .retractNotice d s.dom.modid q st)
      obtain ⟨cs, im, hs⟩ := setPending_state ((s.notice [] (fun d => .retractNotice d s.dom.modid q st)).modJ (fun j => j.retract ctx q st)) (s.someCore ctx) ctx
        { cause := 0xB3, engine := 11, uidx := 0, status := 0, addr := BitVec.ofNat 64 q, cmd := 0, packet := false, seq := 0 }
      refine ⟨((s.notice [] (fun d => .retractNotice d s.dom.modid q st)).modJ (fun j => j.retract ctx q st)).raiseError (s.someCore ctx) ctx 0xB3 11 (BitVec.ofNat 64 q),
        ?_, ?_, ?_, fun x => ?_⟩
      · show execScanFailureReplay ctx q gen diverge s = _
        rw [execScanFailureReplay, event_next, hd]
        exact if_pos hany
      · rw [State.raiseError, hs]
        exact ho
      · rw [State.raiseError, hs]
        exact List.mem_cons_self
      · rw [State.raiseError, hs]
        show x ∈ ((s.notice [] (fun d => .retractNotice d s.dom.modid q st)).jrnl.retract ctx q st).ring ↔ _
        rw [hj, Journal.retract, List.mem_filter]
        refine and_congr_right fun _ => ?_
        rw [Bool.not_eq_true', ← Bool.not_eq_true, Bool.and_eq_true, Bool.and_eq_true, decide_eq_true_eq, decide_eq_true_eq, decide_eq_true_eq, and_assoc]
  · intro d hfind
    refine ⟨_, exec_replicaResolution hfind failHere failPeer minority tie, fun hcase => ?_, fun hh hp hd => ?_, fun hh hp hd ht => ?_, fun hh hp hd ht hm => ?_⟩
    · have hstop := jrnl_stopAll s ctx
      have hscan : (((s.stopAll ctx).suspectUnits ctx).1.foldl State.scanFailOut ((s.stopAll ctx).suspectUnits ctx).2).jrnl = s.jrnl :=
        (jrnl_scanFailOut _ _).trans hstop
      have hclear := (jrnl_clearStops (s.stopAll ctx) ctx).trans hstop
      split
      · split
        · exact disputes_endDispute ((jrnl_clearStops _ ctx).trans hscan) d
        · exact disputes_endDispute hscan d
      · next hh =>
        split
        · exact disputes_endDispute hclear d
        · next hp =>
          rw [if_neg (Nat.not_lt.2 ((hcase.resolve_left hh).resolve_left hp))]
          split
          · exact disputes_endDispute (t := (s.stopAll ctx).logTie ctx) hstop d
          · split
            · exact disputes_endDispute (t := (s.stopAll ctx).removeMinority ctx) hstop d
            · exact disputes_endDispute hclear d
    · rw [hh, hp, if_neg Bool.false_ne_true, if_neg Bool.false_ne_true, if_pos hd, jrnl_clearStops, jrnl_stopAll]
    · rw [hh, hp, ht, if_neg Bool.false_ne_true, if_neg Bool.false_ne_true, if_neg (by omega), if_pos rfl]
      exact (elogN_logError (s.stopAll ctx) 0 _).trans (congrArg (· + 1) (elogN_stopAll s ctx 0))
    · rw [hh, hp, ht, hm, if_neg Bool.false_ne_true, if_neg Bool.false_ne_true, if_neg (by omega), if_neg Bool.false_ne_true, if_pos rfl]
      exact ⟨_, (mfind_mset ..).trans (if_pos rfl), rfl⟩

end Sys2Proof.Proofs
end

