-- ==== Sys2Proof/Proofs/ManagementWrites.lean ====
section
/-! PROOFS. What the management core writes (R360 to R362, R375, R376, R382): the walk's control, bind records and lease table entries, the slab and
translation commands, and register and queue space. -/
namespace Sys2Proof.Machine

/-! ### Rows and leases -/

/-- The bits of a bind record that are written. -/
def rowBits (r : BitVec 256) : BitVec 256 := BitVec.ofNat 256 (r.toNat / 2 ^ 81 * 2 ^ 81)

theorem pending_setPendingRow (s : State) (d i : Nat) (r : BitVec 256) :
    mget 0 ((s.setPendingRow d i r).die d).pending i = rowBits r ∧ ((s.setPendingRow d i r).die d).rows = (s.die d).rows := by
  rw [State.setPendingRow, State.die_modDie, if_pos rfl]
  exact ⟨(mget_mput ..).trans (if_pos rfl), rfl⟩

theorem die_withDescs (s : State) (m : Map Nat) (d : Nat) : ({ s with descs := m } : State).die d = s.die d := rfl

/-- A bind record in its place. -/
def State.putRow (s : State) (d i : Nat) (v : BitVec 256) : State := s.modDie d (fun x => { x with rows := mput 0 x.rows i v })

theorem setRow_eq (s : State) (d i : Nat) (r : BitVec 256) : s.setRow d i r =
    if rowKind (rowBits r) && decide (s.plat.bootStep ≠ 6) then s
    else if rowKind (rowBits r) then
      { s.putRow d i (rowBits r) with descs := mset (s.putRow d i (rowBits r)).descs (rowCtx (rowBits r)) (fld (rowBits r).toNat 192 64) }
    else s.putRow d i (rowBits r) := rfl

theorem die_putRow (s : State) (d i : Nat) (v : BitVec 256) : (s.putRow d i v).die d = { s.die d with rows := mput 0 (s.die d).rows i v } := by
  rw [State.putRow, State.die_modDie, if_pos rfl]

/-- A bind record is written where boot has ended or it binds nothing. -/
theorem setRow_spec {s : State} {d i : Nat} {r : BitVec 256} (h : s.plat.bootStep = 6 ∨ rowKind (rowBits r) = false) :
    (s.setRow d i r).row d i = rowBits r ∧ (∀ j, j ≠ i → (s.setRow d i r).row d j = s.row d j) ∧
      ((s.setRow d i r).die d).pending = (s.die d).pending := by
  have hwrite : ¬(rowKind (rowBits r) && decide (s.plat.bootStep ≠ 6)) = true := by
    rcases h with h | h <;> simp [h]
  have hdie : (s.setRow d i r).die d = { s.die d with rows := mput 0 (s.die d).rows i (rowBits r) } := by
    rw [setRow_eq, if_neg hwrite]
    split
    · rw [die_withDescs, die_putRow]
    · exact die_putRow s d i _
  rw [State.row, hdie]
  refine ⟨(mget_mput ..).trans (if_pos rfl), fun j hj => ?_, rfl⟩
  rw [State.row, hdie]
  exact (mget_mput ..).trans (if_neg hj)

theorem setRow_none {s : State} {d i : Nat} {r : BitVec 256} (h6 : s.plat.bootStep ≠ 6) (h : rowKind (rowBits r) = true) : s.setRow d i r = s :=
  if_pos (by rw [Bool.and_eq_true]; exact ⟨h, decide_eq_true h6⟩)

theorem rowLease_modLease (s : State) (d i : Nat) (f : RowLease → RowLease) : (s.modLease d i f).rowLease d i = f (s.rowLease d i) := by
  rw [State.rowLease, State.modLease, State.die_modDie, if_pos rfl]
  exact mget_mset_same ..

theorem ttctl_setTtctl {s : State} {d : Nat} {v : Word} (h : v.getLsbD 0 = true → s.plat.bootStep = 6) :
    ∃ u, s.setTtctl d v = some u ∧ (u.die d).ttctl = v &&& 0x3FF := by
  refine ⟨_, if_neg (fun hb => hb.2 (h hb.1)), ?_⟩
  rw [State.die_modDie, if_pos rfl]

/-! ### Slab commands -/

section Slabcmd

variable {s : State} {d op : Nat} {v : Word} {f : List Nat → Nat → Nat → State → State × Nat × Option Bool}

/-- The register after a slab command. -/
def slabcmdWord (v : Word) (err : Bool) : Word := (v &&& ~~~0x3FFFFF#64) ||| (if err then 2 else 0)

theorem slabcmdWord_err (v : Word) (err : Bool) : (slabcmdWord v err).getLsbD 1 = err := by
  unfold slabcmdWord
  cases err <;> simp

theorem slabcmd_busy (hop : fld v.toNat 62 2 = op) (h : s.cyc < (s.die d).slabBusy) : s.slabcmd d op v f = some s := by
  rw [State.slabcmd, if_neg (not_not_intro hop), if_pos h]

/-- A slab command that takes effect: its work, and its register. -/
theorem slabcmd_free (hop : fld v.toNat 62 2 = op) (h : ¬s.cyc < (s.die d).slabBusy) :
    let r := f (slabcmdFields d v).1 (slabcmdFields d v).2.1 (slabcmdFields d v).2.2 s
    s.slabcmd d op v f = some (r.1.modDie d (fun x => { x with slabcmd := slabcmdWord v (r.2.2.getD ((s.die d).slabcmd.getLsbD 1)), slabBusy := s.cyc + r.2.1 })) := by
  intro r
  rw [State.slabcmd, if_neg (not_not_intro hop), if_neg h]
  rfl

end Slabcmd

theorem slabcmdRenews_iff {co : Core} {ctx k ts : Nat} : co.slabcmdRenews ctx k ts = true ↔
    (co.slab k).kind = .live ∧ (co.slab k).owner = ctx ∧ (co.slab k).born = true ∧ ts - (co.slab k).stamp ≤ 1875 := by
  simp [Core.slabcmdRenews, retention, and_assoc]

/-- What freeing slabs leaves of each one's kind. -/
theorem kind_freeSlabs (l : List Nat) (co : Core) (k : Nat) :
    ((l.foldl Core.freeSlab co).slab k).kind = if k ∈ l then .free else (co.slab k).kind := by
  induction l generalizing co with
  | nil => rfl
  | cons n r ih =>
    have hslab : (co.freeSlab n).slab k = if k = n then { co.slab n with kind := .free, born := false } else co.slab k := mget_mput ..
    rw [List.foldl_cons, ih, hslab]
    by_cases hr : k ∈ r
    · rw [if_pos hr, if_pos (List.mem_cons_of_mem _ hr)]
    · by_cases hn : k = n
      · rw [if_neg hr, if_pos hn, if_pos (hn ▸ List.mem_cons_self)]
      · rw [if_neg hr, if_neg hn, if_neg (by simp [hr, hn])]

theorem mget_foldl_mset_each {α : Type} (d : α) (g : Nat → α) (l : List Nat) (m : Map α) (j : Nat) :
    mget d (l.foldl (fun m i => mset m i (g i)) m) j = if j ∈ l then g j else mget d m j := by
  induction l generalizing m with
  | nil => rfl
  | cons i r ih =>
    rw [List.foldl_cons, ih, mget_mset]
    by_cases hr : j ∈ r
    · rw [if_pos hr, if_pos (List.mem_cons_of_mem _ hr)]
    · by_cases hi : j = i
      · rw [if_neg hr, if_pos hi, if_pos (hi ▸ List.mem_cons_self), hi]
      · rw [if_neg hr, if_neg hi, if_neg (by simp [hr, hi])]

/-- A slab that a claim may take. -/
def Core.claimable (co : Core) (ctx k : Nat) : Bool := (co.slab k).kind = .free || ((co.slab k).kind = .live && decide ((co.slab k).owner = ctx))

/-- A core's slabs claimed. -/
def Core.claimed (co : Core) (ctx : Nat) (ks : List Nat) : Core :=
  { co with slabs := (ks.filter (fun k => (co.slab k).kind = .free)).foldl (fun m k =>
      mset m k { co.slab k with kind := .live, owner := ctx, born := false }) co.slabs }

theorem slab_claimed (co : Core) (ctx : Nat) (ks : List Nat) (k : Nat) :
    (co.claimed ctx ks).slab k = if k ∈ ks ∧ (co.slab k).kind = .free then { co.slab k with kind := .live, owner := ctx, born := false } else co.slab k := by
  refine (mget_foldl_mset_each Slab.init (fun k => { co.slab k with kind := .live, owner := ctx, born := false }) _ co.slabs k).trans ?_
  refine if_congr ?_ rfl rfl
  rw [List.mem_filter, decide_eq_true_eq]

/-- A claim: every slab, or none. -/
def State.claimWork (s : State) (want : Nat) (ks : List Nat) (c ctx : Nat) : State × Nat × Option Bool :=
  if ks.length = want ∧ ks.all ((s.core c).claimable ctx) = true then (s.modCore c (fun co => co.claimed ctx ks), 0, some false) else (s, 0, some true)

theorem slabClaim_free {s : State} {d : Nat} {v : Word} (hop : fld v.toNat 62 2 = 3) (h : ¬s.cyc < (s.die d).slabBusy) :
    let r := s.claimWork (fld v.toNat 34 12) (slabcmdFields d v).1 (slabcmdFields d v).2.1 (slabcmdFields d v).2.2
    s.slabClaim d v = some (r.1.modDie d (fun x => { x with slabcmd := slabcmdWord v (r.2.2.getD ((s.die d).slabcmd.getLsbD 1)), slabBusy := s.cyc + r.2.1 })) :=
  slabcmd_free hop h

theorem core_modDie (s : State) (d c : Nat) (f : Die → Die) : (s.modDie d f).core c = s.core c := rfl

/-! ### Translation commands -/

/-- A translation command that takes effect: the translations are dropped, and the register keeps its operation. -/
theorem tlbcmdDo_spec {s : State} {d op : Nat} {v : Word} (va : Option Word) (hop : fld v.toNat 62 2 = op) (hfree : s.tlbcmdBusy d = false) :
    ∃ u, s.tlbcmdDo d op v va = some u ∧ s.cyc + 1 ≤ (u.die d).tlbBusy ∧ (u.die d).tlbcmd.toNat / 2 ^ 62 = fld v.toNat 62 2 ∧
      ∀ c, (u.core c).ms.tlb = dropTlb (s.core c).ms.tlb (fld v.toNat 2 10) va := by
  have hkeep : (v &&& 0xC0FFFFFFFFFFFFFC).toNat / 2 ^ 62 = fld v.toNat 62 2 := by
    have hv : (v &&& 0xC0FFFFFFFFFFFFFC) >>> 62 = v >>> 62 := by
      ext i hi
      simp only [BitVec.getElem_ushiftRight, BitVec.getLsbD_and]
      by_cases h2 : i < 2
      · have : (0xC0FFFFFFFFFFFFFC#64).getLsbD (62 + i) = true := by
          obtain rfl | rfl : i = 0 ∨ i = 1 := by omega
          all_goals rfl
        simp [this]
      · rw [BitVec.getLsbD_of_ge v _ (by omega), Bool.false_and]
    have hn := congrArg BitVec.toNat hv
    rw [BitVec.toNat_ushiftRight, BitVec.toNat_ushiftRight, Nat.shiftRight_eq_div_pow, Nat.shiftRight_eq_div_pow] at hn
    rw [hn, fld, Nat.mod_eq_of_lt]
    have := v.isLt
    omega
  have hexec : s.tlbcmdDo d op v va = some (((s.invalidate (fld v.toNat 2 10) va).later 1).2.modDie d (fun x =>
      { x with tlbcmd := v &&& 0xC0FFFFFFFFFFFFFC, tlbBusy := s.cyc + 1 + (((s.invalidate (fld v.toNat 2 10) va).later 1).1 - (s.cyc + 1)) % 4095,
               tlbOlds := s.translated (fld v.toNat 2 10) })) := by
    rw [State.tlbcmdDo, if_neg (not_not_intro hop), hfree, if_neg Bool.false_ne_true]
  refine ⟨_, hexec, ?_, ?_, fun c => ?_⟩
  · rw [State.die_modDie, if_pos rfl]
    exact Nat.le_add_right _ _
  · rw [State.die_modDie, if_pos rfl]
    exact hkeep
  · rw [core_modDie]
    exact tlb_invalidate s _ va c

/-! ### Register and queue space -/

/-- The word of a die's scheduling block at an offset. -/
theorem spaceWord_of {d off : Nat} (hd : d < 2) (hoff : off < 0x100000000) (width : Nat) :
    spaceWord (0xF000000000000 + 0x100000000 * d + off) width = if width = 8 then (blockWord off).map (fun b => (d, b)) else none := by
  have hdie : (0xF000000000000 + 0x100000000 * d + off - 0xF000000000000) / 0x100000000 = d := by omega
  have hrest : (0xF000000000000 + 0x100000000 * d + off - 0xF000000000000) % 0x100000000 = off := by omega
  unfold spaceWord
  dsimp only
  rw [hdie, hrest]
  exact if_congr ⟨fun h => h.2.2, fun h => ⟨by omega, hd, h⟩⟩ rfl rfl

theorem blockWord_row {i k : Nat} (hi : i < 512) (hk : k < 4) : blockWord (32 * i + 8 * k) = some (.row i k) := by
  rw [blockWord, if_neg (by omega), if_pos (by omega), show (32 * i + 8 * k) / 32 = i by omega, show (32 * i + 8 * k) / 8 % 4 = k by omega]

/-- A word of register and queue space written by the management core. -/
theorem writeRegister_space (s : State) {d off : Nat} (hd : d < 2) (hoff : off < 0x100000000) (width : Nat) (v : Word) :
    s.writeRegister width (0xF000000000000 + 0x100000000 * d + off) v = some (s.spaceWrite (0xF000000000000 + 0x100000000 * d + off) width v) := by
  rw [State.writeRegister, if_pos ⟨by omega, by omega⟩]

/-- The upper words of a bind record stand as they are written. -/
theorem rowBits_setWord (r : BitVec 256) {k : Nat} (h2 : 2 ≤ k) (h4 : k < 4) (v : Word) : fld (rowBits (setWord256 r k v)).toNat (64 * k) 64 = v.toNat := by
  have hr := r.isLt
  have hv := v.isLt
  unfold rowBits setWord256 fld
  rw [BitVec.toNat_ofNat, BitVec.toNat_ofNat]
  obtain rfl | rfl : k = 2 ∨ k = 3 := by omega
  all_goals
    norm_num only at hr hv ⊢
    omega

theorem spaceRefuse_spec (s : State) (pa : Nat) : (s.spaceRefuse pa).cores = s.cores ∧ (s.spaceRefuse pa).mem = s.mem ∧
    ((s.spaceRefuse pa).die (errDie 0 pa 0x47)).elogN = (s.die (errDie 0 pa 0x47)).elogN + 1 :=
  ⟨rfl, rfl, elogN_logError s _ _⟩

end Sys2Proof.Machine

namespace Sys2Proof.Proofs
open Sys2Proof.Machine

section
variable {s : State} {d i : Nat} {v : Word}

/-- While the management core does not manage the dies none of its writes has an effect. -/
theorem unmanaged_writes (hd : d < 2) (h : s.managed = false) (num : Nat) : ∀ x ∈ [Instr.ttctlWrite d v, .slabcmdRenew d v, .slabcmdFree d v,
    .slabcmdClaim d v, .tlbcmdPage d v, .tlbcmdContext d v, .registerWrite d num v], exec x s = .next s := by
  have hdie : ¬2 ≤ d := by omega
  simp only [List.forall_mem_cons, List.not_mem_nil, false_implies, implies_true, and_true]
  refine ⟨?_, ?_, ?_, ?_, ?_, ?_, ?_⟩
  · exact (if_neg hdie).trans (by rw [manage_of_not h]; rfl)
  · exact (if_neg hdie).trans (by rw [manage_of_not h]; rfl)
  · exact (if_neg hdie).trans (by rw [manage_of_not h]; rfl)
  · exact (if_neg hdie).trans (by rw [manage_of_not h]; rfl)
  · exact (if_neg hdie).trans (by rw [manage_of_not h]; rfl)
  · exact (if_neg hdie).trans (by rw [manage_of_not h]; rfl)
  · show execRegisterWrite d num v s = _
    rw [execRegisterWrite, manage_of_not h]
    rfl

theorem exec_ttctlWrite (hd : d < 2) (hm : s.managed = true) : exec (.ttctlWrite d v) s = event "TTCTL_WRITE" (s.setTtctl d v) :=
  (if_neg (by omega)).trans (by rw [manage_of_managed hm])

theorem exec_bindRecordWrite (hd : d < 2) (hi : i < 512) (hm : s.managed = true) (p : Bool) (r : BitVec 256) :
    exec (.bindRecordWrite d i p r) s = .next (if p then s.setPendingRow d i r else s.setRow d i r) :=
  (if_neg (by omega)).trans (congrArg Host.Outcome.next (if_pos hm))

theorem exec_leaseTableWrite (hd : d < 2) (hi : i < 512) (hm : s.managed = true) : exec (.leaseTableWrite d i v) s =
    .next (s.modLease d i (fun l => { l with retire := v.getLsbD 0, pend := v.getLsbD 1 })) :=
  (if_neg (by omega)).trans (congrArg Host.Outcome.next (if_pos hm))

theorem exec_slabcmdRenew (hd : d < 2) (hm : s.managed = true) : exec (.slabcmdRenew d v) s = event "SLABCMD_RENEW" (s.slabRenew d v) :=
  (if_neg (by omega)).trans (by rw [manage_of_managed hm])
theorem exec_slabcmdFree (hd : d < 2) (hm : s.managed = true) : exec (.slabcmdFree d v) s = event "SLABCMD_FREE" (s.slabFree d v) :=
  (if_neg (by omega)).trans (by rw [manage_of_managed hm])
theorem exec_slabcmdClaim (hd : d < 2) (hm : s.managed = true) : exec (.slabcmdClaim d v) s = event "SLABCMD_CLAIM" (s.slabClaim d v) :=
  (if_neg (by omega)).trans (by rw [manage_of_managed hm])
theorem exec_tlbcmdPage (hd : d < 2) (hm : s.managed = true) : exec (.tlbcmdPage d v) s = event "TLBCMD_PAGE" (s.tlbcmdDo d 1 v (some (tlbcmdVa v))) :=
  (if_neg (by omega)).trans (by rw [manage_of_managed hm])
theorem exec_tlbcmdContext (hd : d < 2) (hm : s.managed = true) : exec (.tlbcmdContext d v) s = event "TLBCMD_CONTEXT" (s.tlbcmdDo d 2 v none) :=
  (if_neg (by omega)).trans (by rw [manage_of_managed hm])
theorem exec_registerWrite (hm : s.managed = true) (unit num : Nat) : exec (.registerWrite unit num v) s = event "REGISTER_WRITE" (s.writeRegister unit num v) := by
  show execRegisterWrite unit num v s = _
  rw [execRegisterWrite, manage_of_managed hm]

/-- The slab commands (R375). -/
theorem slabcmds_spec (hd : d < 2) (hm : s.managed = true) :
    let first := fld v.toNat 22 12
    let n := fld v.toNat 34 12
    let c := 64 * d + fld v.toNat 56 6
    let ctx := fld v.toNat 46 10
    let ks := upTo first (Nat.min n (3072 - first))
    let b (k : Nat) := (s.core c).slab k
    (s.cyc < (s.die d).slabBusy → (fld v.toNat 62 2 = 1 → exec (.slabcmdRenew d v) s = .next s) ∧ (fld v.toNat 62 2 = 2 → exec (.slabcmdFree d v) s = .next s) ∧
      (fld v.toNat 62 2 = 3 → exec (.slabcmdClaim d v) s = .next s)) ∧
    (¬s.cyc < (s.die d).slabBusy → fld v.toNat 62 2 = 1 → ∃ u, exec (.slabcmdRenew d v) s = .next u ∧
      ∀ x, x ∈ (u.die d).slabRen ↔ x ∈ (s.die d).slabRen ∨ ∃ k ∈ ks, (b k).kind = .live ∧ (b k).owner = ctx ∧ (b k).born = true ∧
        s.tstep - (b k).stamp ≤ 1875 ∧
        x = (s.cyc + 16 * (ks.filter (fun j => (s.core c).slabcmdRenews ctx j s.tstep && decide (j < k ∧ j % 16 = k % 16))).length + 15, c, k, ctx)) ∧
    (¬s.cyc < (s.die d).slabBusy → fld v.toNat 62 2 = 2 → ∃ u, exec (.slabcmdFree d v) s = .next u ∧
      ∀ k, ((u.core c).slab k).kind = (if k ∈ ks ∧ (b k).own ctx = true then .free else (b k).kind)) ∧
    (¬s.cyc < (s.die d).slabBusy → fld v.toNat 62 2 = 3 →
      let ok := n ≤ 3072 - first ∧ ∀ k ∈ ks, (b k).kind = .free ∨ ((b k).kind = .live ∧ (b k).owner = ctx)
      (ok → ∃ u, exec (.slabcmdClaim d v) s = .next u ∧ (u.die d).slabcmd.getLsbD 1 = false ∧
        ∀ k, (u.core c).slab k = (if k ∈ ks ∧ (b k).kind = .free then { b k with kind := .live, owner := ctx, born := false } else b k)) ∧
      (¬ok → ∃ u, exec (.slabcmdClaim d v) s = .next u ∧ (u.die d).slabcmd.getLsbD 1 = true ∧ u.cores = s.cores)) := by
  intro first n c ctx ks b
  refine ⟨fun hbusy => ⟨fun hop => ?_, fun hop => ?_, fun hop => ?_⟩, fun hfree hop => ?_, fun hfree hop => ?_, fun hfree hop => ?_⟩
  · rw [exec_slabcmdRenew hd hm, State.slabRenew, slabcmd_busy hop hbusy]
    rfl
  · rw [exec_slabcmdFree hd hm, State.slabFree, slabcmd_busy hop hbusy]
    rfl
  · rw [exec_slabcmdClaim hd hm, State.slabClaim, slabcmd_busy hop hbusy]
    rfl
  · refine ⟨_, (exec_slabcmdRenew hd hm).trans (event_next.2 (slabcmd_free hop hfree)), fun x => ?_⟩
    rw [State.die_modDie, if_pos rfl]
    dsimp only
    rw [State.die_modDie, if_pos rfl]
    dsimp only
    rw [List.mem_append]
    refine or_congr_right ?_
    rw [List.mem_map]
    refine exists_congr fun k => ?_
    rw [List.mem_filter, List.filter_filter, and_assoc, slabcmdRenews_iff, and_assoc, and_assoc, and_assoc]
    simp only [Bool.and_comm (decide _)]
    exact and_congr_right fun _ => and_congr_right fun _ => and_congr_right fun _ => and_congr_right fun _ => and_congr_right fun _ => eq_comm
  · refine ⟨_, (exec_slabcmdFree hd hm).trans (event_next.2 (slabcmd_free hop hfree)), fun k => ?_⟩
    rw [core_modDie]
    dsimp only
    rw [State.core_modCore]
    refine (congrArg (fun co : Core => (co.slab k).kind) (if_pos rfl)).trans ((kind_freeSlabs _ _ k).trans (if_congr List.mem_filter rfl rfl))
  · intro ok
    have hlen : (upTo first (Nat.min n (3072 - first))).length = Nat.min n (3072 - first) := length_upTo _ _
    have hok : ok ↔ ks.length = n ∧ ks.all ((s.core c).claimable ctx) = true := by
      rw [List.all_eq_true, show ks.length = Nat.min n (3072 - first) from hlen]
      refine and_congr ⟨fun h => Nat.min_eq_left h, fun h => h ▸ Nat.min_le_right _ _⟩ (forall_congr' fun k => imp_congr_right fun _ => ?_)
      simp [Core.claimable, b]
    have hexec := (exec_slabcmdClaim hd hm).trans (event_next.2 (slabClaim_free hop hfree))
    refine ⟨fun h => ?_, fun h => ?_⟩
    · have hwork : s.claimWork n ks c ctx = (s.modCore c (fun co => co.claimed ctx ks), 0, some false) := if_pos (hok.1 h)
      refine ⟨_, hexec, ?_, fun k => ?_⟩
      · rw [State.die_modDie, if_pos rfl]
        exact (slabcmdWord_err v _).trans (congrArg (fun r : State × Nat × Option Bool => r.2.2.getD _) hwork)
      · rw [core_modDie]
        refine (congrArg (fun r : State × Nat × Option Bool => (r.1.core c).slab k) hwork).trans ?_
        dsimp only
        rw [State.core_modCore, if_pos rfl]
        exact slab_claimed _ ctx ks k
    · have hwork : s.claimWork n ks c ctx = (s, 0, some true) := if_neg (fun hh => h (hok.2 hh))
      refine ⟨_, hexec, ?_, congrArg (fun r : State × Nat × Option Bool => r.1.cores) hwork⟩
      rw [State.die_modDie, if_pos rfl]
      exact (slabcmdWord_err v _).trans (congrArg (fun r : State × Nat × Option Bool => r.2.2.getD _) hwork)

end

/-- Settles O15: each write of the management core, by the word it names. -/
theorem managementWritesTakeEffect : Obligations.ManagementWritesTakeEffect := by
  unfold Obligations.ManagementWritesTakeEffect
  intro s d i v r num hd
  refine ⟨fun hm => unmanaged_writes hd hm num, fun hm hi => ⟨fun p => ?_, ?_⟩, fun hm => ⟨fun h => ?_, fun hi => ⟨?_, fun h => ?_, fun h6 h => ?_, ?_⟩, slabcmds_spec hd hm,
    ⟨fun hop hb => ?_, fun hop hb => ?_, fun hop hb => ?_, fun hop hb => ?_⟩, ?_, ?_, fun hi h1 h2 => ?_, fun h1 h2 => ?_, fun hi => ?_, fun k h6 hi h2 h4 => ?_, fun h => ?_,
    fun off width hoff h => ?_⟩⟩
  · exact (if_neg (by omega)).trans (congrArg Host.Outcome.next (if_neg (by rw [hm]; decide)))
  · exact (if_neg (by omega)).trans (congrArg Host.Outcome.next (if_neg (by rw [hm]; decide)))
  · obtain ⟨u, hu, hspec⟩ := ttctl_setTtctl (d := d) h
    exact ⟨u, (exec_ttctlWrite hd hm).trans (event_next.2 hu), hspec⟩
  · refine ⟨s.setPendingRow d i r, ?_, pending_setPendingRow s d i r⟩
    rw [exec_bindRecordWrite hd hi hm, if_pos rfl]
  · refine ⟨s.setRow d i r, ?_, setRow_spec h⟩
    rw [exec_bindRecordWrite hd hi hm, if_neg Bool.false_ne_true]
  · rw [exec_bindRecordWrite hd hi hm, if_neg Bool.false_ne_true, setRow_none h6 h]
  · refine ⟨_, exec_leaseTableWrite hd hi hm, ?_⟩
    rw [rowLease_modLease]
    exact ⟨rfl, rfl, rfl⟩
  · exact (exec_tlbcmdPage hd hm).trans (event_next.2 (by rw [State.tlbcmdDo, if_neg (not_not_intro hop), if_pos hb]))
  · exact (exec_tlbcmdContext hd hm).trans (event_next.2 (by rw [State.tlbcmdDo, if_neg (not_not_intro hop), if_pos hb]))
  · obtain ⟨u, hu, hspec⟩ := tlbcmdDo_spec (some (tlbcmdVa v)) hop hb
    exact ⟨u, (exec_tlbcmdPage hd hm).trans (event_next.2 hu), hspec⟩
  · obtain ⟨u, hu, hspec⟩ := tlbcmdDo_spec none hop hb
    exact ⟨u, (exec_tlbcmdContext hd hm).trans (event_next.2 hu), hspec⟩
  · refine ⟨s.modDie d (fun d => { d with skcfg := v &&& 0xFFFFFFFFF }), (exec_registerWrite hm d 0x48).trans (event_next.2 ?_), ?_⟩
    · rw [State.writeRegister, if_neg (by decide), if_neg (by decide), if_pos rfl, if_pos hd]
    · rw [State.die_modDie, if_pos rfl]
  · refine ⟨{ s.giveUp (fun _ => true) with hrcfg := v &&& 0xFFF }, (exec_registerWrite hm 0 0x49).trans (event_next.2 ?_), rfl⟩
    rw [State.writeRegister, if_neg (by decide), if_neg (by decide), if_neg (by decide), if_pos rfl, if_pos rfl]
  · refine ⟨s.modCore i (fun co => { co with swthr := v.toNat % 2048 }), (exec_registerWrite hm i 0x2D).trans (event_next.2 ?_), ?_⟩
    · rw [State.writeRegister, if_neg (by decide), if_pos rfl, if_pos ⟨hi, h1, h2⟩]
    · rw [State.core_modCore, if_pos rfl]
  · refine ⟨s.setQent (256 * d + (num - 0x100)) { s.qent (256 * d + (num - 0x100)) with ctx := v.toNat % 1024 }, (exec_registerWrite hm d num).trans (event_next.2 ?_), ?_⟩
    · rw [State.writeRegister, if_neg (by omega), if_neg (by omega), if_neg (by omega), if_neg (by omega), if_pos ⟨h1, h2⟩, if_pos hd]
    · rw [qent_setQent]
  · refine ⟨{ s with plat := { s.plat with vfs := mset s.plat.vfs i { ctx := v.toNat % 1024, slots := [] } } }, (exec_registerWrite hm i 0x200).trans (event_next.2 ?_),
      (mfind_mset ..).trans (if_pos rfl)⟩
    rw [State.writeRegister, if_neg (by decide), if_neg (by decide), if_neg (by decide), if_neg (by decide), if_neg (by decide), if_pos rfl, if_pos hi]
  · have hspace : s.spaceWrite (0xF000000000000 + 0x100000000 * d + (32 * i + 8 * k)) 8 v = s.setRow d i (setWord256 (s.row d i) k v) := by
      rw [State.spaceWrite, spaceWord_of hd (by omega), if_pos rfl, blockWord_row hi h4]
      rfl
    obtain ⟨hrow, hothers, hpending⟩ := setRow_spec (s := s) (d := d) (i := i) (r := setWord256 (s.row d i) k v) (.inl h6)
    refine ⟨s.setRow d i (setWord256 (s.row d i) k v), ?_, ?_, hothers, hpending⟩
    · rw [Nat.add_assoc (0xF000000000000 + 0x100000000 * d), exec_registerWrite hm, writeRegister_space s hd (by omega), hspace]
      rfl
    · rw [hrow, rowBits_setWord _ h2 h4]
  · obtain ⟨u, hu, hspec⟩ := ttctl_setTtctl (s := s) (d := d) (v := v) (fun hb => absurd (h.symm.trans hb) Bool.false_ne_true)
    refine ⟨u, ?_, hspec⟩
    have hspace : s.spaceWrite (0xF000000000000 + 0x100000000 * d + 0xA000) 8 v = u := by
      rw [State.spaceWrite, spaceWord_of hd (by decide), if_pos rfl, show blockWord 0xA000 = some .ttctl from rfl]
      show (s.setTtctl d v).getD s = u
      rw [hu]
      rfl
    rw [exec_registerWrite hm, writeRegister_space s hd (by decide), hspace]
    rfl
  · refine ⟨s.spaceRefuse (0xF000000000000 + 0x100000000 * d + off), ?_, spaceRefuse_spec s _⟩
    have hnone : spaceWord (0xF000000000000 + 0x100000000 * d + off) width = none := by
      rw [spaceWord_of hd hoff]
      rcases h with h | h
      · rw [if_neg h]
      · rw [h]
        exact ite_self _
    rw [exec_registerWrite hm, writeRegister_space s hd hoff, State.spaceWrite, hnone]
    rfl

end Sys2Proof.Proofs
end

