-- ==== Sys2Proof/Proofs/TrapsAndSegments.lean ====
section
/-! PROOFS. What follows a trap, the order of a core's records, the fields of a record, and the end and the overrun of a segment (R23, R95, R98, R99,
R337 to R341, R346). -/
namespace Sys2Proof.Machine

/-! ### Sorting -/

theorem length_insertBy {α : Type} (le : α → α → Bool) (x : α) (l : List α) : (insertBy le x l).length = l.length + 1 := by
  induction l with
  | nil => rfl
  | cons a r ih =>
    rw [insertBy]
    split
    · rw [List.length_cons, ih, List.length_cons]
    · rfl

theorem pairwise_insertBy_of_total {α : Type} {le : α → α → Bool} (htotal : ∀ x y, le x y = false → le y x = true)
    (htrans : ∀ x y z, le x y = true → le y z = true → le x z = true) {x : α} {l : List α} (h : l.Pairwise (fun a b => le a b = true)) :
    (insertBy le x l).Pairwise (fun a b => le a b = true) := by
  induction l with
  | nil => exact List.pairwise_singleton _ _
  | cons a r ih =>
    obtain ⟨ha, hr⟩ := List.pairwise_cons.mp h
    rw [insertBy]
    split
    · next hle =>
      refine List.pairwise_cons.mpr ⟨fun y hy => ?_, ih hr⟩
      rcases (mem_insertBy _ _ _ _).mp hy with rfl | hy
      · exact hle
      · exact ha y hy
    · next hle =>
      have hxa : le x a = true := htotal a x (Bool.eq_false_iff.mpr hle)
      refine List.pairwise_cons.mpr ⟨fun y hy => ?_, h⟩
      rcases List.mem_cons.mp hy with rfl | hy
      · exact hxa
      · exact htrans x a y hxa (ha y hy)

/-- Sorting by a total and transitive order keeps every element, and puts them in order. -/
theorem sortBy_spec {α : Type} {le : α → α → Bool} (htotal : ∀ x y, le x y = false → le y x = true)
    (htrans : ∀ x y z, le x y = true → le y z = true → le x z = true) (l : List α) :
    (sortBy le l).length = l.length ∧ (∀ x, x ∈ sortBy le l ↔ x ∈ l) ∧ (sortBy le l).Pairwise (fun a b => le a b = true) := by
  suffices h : ∀ acc : List α, acc.Pairwise (fun a b => le a b = true) →
      (l.foldl (fun acc x => insertBy le x acc) acc).length = acc.length + l.length ∧
      (∀ x, x ∈ l.foldl (fun acc x => insertBy le x acc) acc ↔ x ∈ acc ∨ x ∈ l) ∧
      (l.foldl (fun acc x => insertBy le x acc) acc).Pairwise (fun a b => le a b = true) by
    obtain ⟨hlen, hmem, hpair⟩ := h [] List.Pairwise.nil
    exact ⟨hlen.trans (Nat.zero_add _), fun x => (hmem x).trans (by simp), hpair⟩
  induction l with
  | nil => exact fun acc hacc => ⟨rfl, fun x => by simp, hacc⟩
  | cons a r ih =>
    intro acc hacc
    obtain ⟨hlen, hmem, hpair⟩ := ih _ (pairwise_insertBy_of_total htotal htrans (x := a) hacc)
    rw [List.foldl_cons]
    refine ⟨by rw [hlen, length_insertBy, List.length_cons]; omega, fun x => ?_, hpair⟩
    rw [hmem, mem_insertBy, List.mem_cons]
    tauto

theorem recLe_iff {a b : TrapRec} : recLe a b = true ↔ a.sched < b.sched ∨ (a.sched = b.sched ∧ a.seq ≤ b.seq) := by
  simp [recLe]

theorem recLe_total (a b : TrapRec) (h : recLe a b = false) : recLe b a = true := by
  rw [← Bool.not_eq_true, recLe_iff] at h
  rw [recLe_iff]
  omega

theorem recLe_trans (a b c : TrapRec) (hab : recLe a b = true) (hbc : recLe b c = true) : recLe a c = true := by
  rw [recLe_iff] at *
  omega

/-! ### Traps -/

/-- A core after a trap of one of its sequencers. -/
theorem core_takeTrap (s : State) (c : Nat) (q : Seq) (t : TrapInfo) (cmd more : Nat) : (s.takeTrap c q t cmd more).core c =
    { s.core c with im := (s.core c).im.setSeq q { (s.core c).im.seq q with tried := some s.cyc, pin := none },
                    stops := { (s.core c).stops with recs := (s.core c).stops.recs ++ [s.record c q t cmd more],
                                                     stop := (s.core c).stops.stop.trapAt (s.core c).im.sched s.cyc (decide (t.cls ≠ 1)) } } := by
  have hcore : ∀ u : State, u.cores = s.cores → u.core c = s.core c := fun u h => by rw [State.core, State.core, h]
  have h0 : (if q = .c then s.endCounted c else s).core c = s.core c := by
    split
    · exact hcore _ (endCounted_cores s c)
    · rfl
  simp only [State.takeTrap, State.core_modSeq, State.core_modStops, if_true, h0]

theorem cur_takeTrap (s : State) (c : Nat) (q : Seq) (t : TrapInfo) (cmd more : Nat) : (s.takeTrap c q t cmd more).cur = s.cur := by
  have h0 : (if q = .c then s.endCounted c else s).cur = s.cur := by
    split
    · unfold State.endCounted
      split <;> rfl
    · rfl
  exact h0

theorem blog_takeTrap (s : State) (c : Nat) (q : Seq) (t : TrapInfo) (cmd more : Nat) : (s.takeTrap c q t cmd more).blog = s.blog := by
  have h0 : (if q = .c then s.endCounted c else s).blog = s.blog := by
    split
    · unfold State.endCounted
      split <;> rfl
    · rfl
  exact h0

/-- What flushing a core leaves: all but its context's state, slabs and windows. -/
theorem slabOps_eq (l : List Flight) (co : Core) : ∃ sl w z, co.slabOps l = { co with slabs := sl, windows := w, zbits := z } := by
  have hclaim : ∀ (ns : List Nat) (co : Core), ∃ sl w z, ns.foldl Core.claimSlab co = { co with slabs := sl, windows := w, zbits := z } := by
    intro ns
    induction ns with
    | nil => exact fun co => ⟨co.slabs, co.windows, co.zbits, rfl⟩
    | cons n r ih =>
      intro co
      obtain ⟨sl, w, z, h⟩ := ih (co.claimSlab n)
      rw [List.foldl_cons, h]
      unfold Core.claimSlab
      dsimp only
      split
      · exact ⟨sl, w, z, rfl⟩
      · exact ⟨sl, w, z, rfl⟩
  have hfree : ∀ (ns : List Nat) (co : Core), ∃ sl w z, ns.foldl Core.freeSlab co = { co with slabs := sl, windows := w, zbits := z } := by
    intro ns
    induction ns with
    | nil => exact fun co => ⟨co.slabs, co.windows, co.zbits, rfl⟩
    | cons n r ih =>
      intro co
      obtain ⟨sl, w, z, h⟩ := ih (co.freeSlab n)
      exact ⟨sl, w, z, h⟩
  have hop : ∀ (co : Core) (op b n : Nat), ∃ sl w z, co.slabOp op b n = { co with slabs := sl, windows := w, zbits := z } := by
    intro co op b n
    unfold Core.slabOp
    split
    · exact hclaim _ co
    · split
      · exact hfree _ co
      · exact ⟨_, _, _, rfl⟩
  induction l generalizing co with
  | nil => exact ⟨co.slabs, co.windows, co.zbits, rfl⟩
  | cons x r ih =>
    have hx : ∃ sl w z, co.slabOps [x] = { co with slabs := sl, windows := w, zbits := z } := by
      unfold Core.slabOps
      rw [List.foldl_cons, List.foldl_nil]
      split
      · exact hop co _ _ _
      · exact ⟨co.slabs, co.windows, co.zbits, rfl⟩
    obtain ⟨sl, w, z, hx⟩ := hx
    obtain ⟨sl', w', z', h⟩ := ih { co with slabs := sl, windows := w, zbits := z }
    refine ⟨sl', w', z', ?_⟩
    rw [show co.slabOps (x :: r) = (co.slabOps [x]).slabOps r from rfl, hx, h]

/-- The context's state of a core that is flushed, but for its slabs. -/
def Core.flushedIm (co : Core) : Image :=
  (co.im.flight.filter (fun x => !x.fx.isResult)).foldl (fun i x => i.take x.fx)
    ({ co.im with flight := co.im.flight.filter (fun x => x.fx.isResult) } : Image)

theorem flush_eq (co : Core) : ∃ im sl w z, co.flush = { co with im := im, slabs := sl, windows := w, zbits := z } := by
  obtain ⟨sl, w, z, h⟩ := slabOps_eq (co.im.flight.filter (fun x => !x.fx.isResult)) { co with im := co.flushedIm }
  exact ⟨co.flushedIm, sl, w, z, h⟩

/-- The records of a core as they are handed to its die. -/
def Core.handed (co : Core) : List TrapRec := (sortBy recLe co.stops.recs).map (fun r => { r with npend := co.flush.npend })

theorem handed_spec (co : Core) : co.handed.length = co.stops.recs.length ∧ (∀ r ∈ co.stops.recs, { r with npend := co.flush.npend } ∈ co.handed) ∧
    co.handed.Pairwise (fun a b => recLe a b = true) := by
  obtain ⟨hlen, hmem, hpair⟩ := sortBy_spec recLe_total recLe_trans co.stops.recs
  exact ⟨(List.length_map _).trans hlen, fun r hr => List.mem_map_of_mem ((hmem r).mpr hr), List.pairwise_map.mpr hpair⟩

theorem foldl_postRecord (d : Nat) (l : List TrapRec) (s : State) : ((l.foldl (fun s r => s.postRecord d r) s).die d).trapWait = (s.die d).trapWait ++ l ∧
    (l.foldl (fun s r => s.postRecord d r) s).cores = s.cores ∧ (l.foldl (fun s r => s.postRecord d r) s).mem = s.mem := by
  induction l generalizing s with
  | nil => exact ⟨(List.append_nil _).symm, rfl, rfl⟩
  | cons r rs ih =>
    obtain ⟨hwait, hcores, hmem⟩ := ih (s.postRecord d r)
    refine ⟨?_, hcores, hmem⟩
    rw [List.foldl_cons, hwait, State.postRecord, State.die_modDie, if_pos rfl]
    exact List.append_assoc ..

/-- A core that has stopped: its records are its die's. -/
theorem stopCore_spec (s : State) (c x : Nat) (fault : Bool) :
    ((s.stopCore c x fault).core c).stops.stop = .stopped x fault ∧ ((s.stopCore c x fault).core c).stops.recs = [] ∧
      ((s.stopCore c x fault).die (c / 64)).trapWait = (s.die (c / 64)).trapWait ++ (s.core c).handed ∧ (s.stopCore c x fault).mem = s.mem := by
  obtain ⟨im, sl, w, z, hflush⟩ := flush_eq (s.core c)
  have hrecs : (s.core c).flush.stops.recs = (s.core c).stops.recs := by rw [hflush]
  obtain ⟨hwait, hcores, hmem⟩ := foldl_postRecord (dieOf c) (s.core c).handed
    (s.setCore c { (s.core c).flush with stops := { (s.core c).flush.stops with stop := .stopped x fault, recs := [] } })
  have hstop : s.stopCore c x fault = (s.core c).handed.foldl (fun s r => s.postRecord (dieOf c) r)
      (s.setCore c { (s.core c).flush with stops := { (s.core c).flush.stops with stop := .stopped x fault, recs := [] } }) := by
    rw [State.stopCore, Core.handed, hrecs]
  have hcore : (s.stopCore c x fault).core c =
      { (s.core c).flush with stops := { (s.core c).flush.stops with stop := .stopped x fault, recs := [] } } := by
    rw [hstop, State.core, hcores]
    exact (State.core_setCore s c c _).trans (if_pos rfl)
  rw [hcore]
  exact ⟨rfl, rfl, by rw [hstop]; exact hwait, by rw [hstop]; exact hmem⟩

/-! ### The bytes of a record (Table 17-1) -/

section Bits
variable {seg addr tstep sched status cmd cause engine uidx seq cls ctx die core npend more : Nat}

/-- The number of a record whose fields fit their places. -/
def recNat (seg addr tstep sched status cmd cause engine uidx seq cls ctx die core npend more : Nat) : Nat :=
  seg * 2 ^ 448 + addr * 2 ^ 384 + tstep * 2 ^ 320 + sched * 2 ^ 256 + status * 2 ^ 224 + cmd * 2 ^ 208 + cause * 2 ^ 200 + engine * 2 ^ 196 +
    uidx * 2 ^ 190 + seq * 2 ^ 188 + cls * 2 ^ 186 + ctx * 2 ^ 176 + die * 2 ^ 175 + core * 2 ^ 169 + npend * 2 ^ 160 + more * 2 ^ 152

theorem fields_recNat (h1 : seg < 2 ^ 64) (h2 : addr < 2 ^ 64) (h3 : tstep < 2 ^ 64) (h4 : sched < 2 ^ 64) (h5 : status < 2 ^ 32) (h6 : cmd < 2 ^ 16)
    (h7 : cause < 2 ^ 8) (h8 : engine < 2 ^ 4) (h9 : uidx < 2 ^ 6) (h10 : seq < 4) (h11 : cls < 4) (h12 : ctx < 2 ^ 10) (h13 : die < 2) (h14 : core < 2 ^ 6)
    (h15 : npend < 2 ^ 9) (h16 : more < 2 ^ 8) :
    let n := recNat seg addr tstep sched status cmd cause engine uidx seq cls ctx die core npend more
    n < 2 ^ 512 ∧ fld n 448 64 = seg ∧ fld n 384 64 = addr ∧ fld n 320 64 = tstep ∧ fld n 256 64 = sched ∧ fld n 224 32 = status ∧ fld n 208 16 = cmd ∧
      fld n 200 8 = cause ∧ fld n 196 4 = engine ∧ fld n 190 6 = uidx ∧ fld n 188 2 = seq ∧ fld n 186 2 = cls ∧ fld n 176 10 = ctx ∧ fld n 175 1 = die ∧
      fld n 169 6 = core ∧ fld n 160 9 = npend ∧ fld n 152 8 = more ∧ fld n 0 152 = 0 := by
  intro n
  refine ⟨?_, ?_, ?_, ?_, ?_, ?_, ?_, ?_, ?_, ?_, ?_, ?_, ?_, ?_, ?_, ?_, ?_, ?_⟩ <;> simp only [n, recNat, fld] <;> omega

end Bits

theorem toNat_bits (r : TrapRec) : r.bits.toNat = recNat r.seg.toNat r.addr.toNat (r.tstep % 2 ^ 64) (r.sched % 2 ^ 64) r.status.toNat (r.cmd % 2 ^ 16)
    (r.cause % 2 ^ 8) (r.engine % 2 ^ 4) (r.uidx % 2 ^ 6) (r.seq % 4) (r.cls % 4) (r.ctx % 2 ^ 10) (r.die % 2) (r.core % 2 ^ 6) (r.npend % 2 ^ 9)
    (r.more % 2 ^ 8) := by
  rw [TrapRec.bits, BitVec.toNat_ofNat]
  refine Nat.mod_eq_of_lt (fields_recNat r.seg.isLt r.addr.isLt ?_ ?_ r.status.isLt ?_ ?_ ?_ ?_ ?_ ?_ ?_ ?_ ?_ ?_ ?_).1 <;>
    exact Nat.mod_lt _ (by decide)

theorem fields_bits (r : TrapRec) :
    fld r.bits.toNat 448 64 = r.seg.toNat ∧ fld r.bits.toNat 384 64 = r.addr.toNat ∧ fld r.bits.toNat 320 64 = r.tstep % 2 ^ 64 ∧
      fld r.bits.toNat 256 64 = r.sched % 2 ^ 64 ∧ fld r.bits.toNat 224 32 = r.status.toNat ∧ fld r.bits.toNat 208 16 = r.cmd % 2 ^ 16 ∧
      fld r.bits.toNat 200 8 = r.cause % 2 ^ 8 ∧ fld r.bits.toNat 196 4 = r.engine % 2 ^ 4 ∧ fld r.bits.toNat 190 6 = r.uidx % 2 ^ 6 ∧
      fld r.bits.toNat 188 2 = r.seq % 4 ∧ fld r.bits.toNat 186 2 = r.cls % 4 ∧ fld r.bits.toNat 176 10 = r.ctx % 2 ^ 10 ∧ fld r.bits.toNat 175 1 = r.die % 2 ∧
      fld r.bits.toNat 169 6 = r.core % 2 ^ 6 ∧ fld r.bits.toNat 160 9 = r.npend % 2 ^ 9 ∧ fld r.bits.toNat 152 8 = r.more % 2 ^ 8 ∧ fld r.bits.toNat 0 152 = 0 := by
  rw [toNat_bits]
  refine (fields_recNat r.seg.isLt r.addr.isLt ?_ ?_ r.status.isLt ?_ ?_ ?_ ?_ ?_ ?_ ?_ ?_ ?_ ?_ ?_).2 <;> exact Nat.mod_lt _ (by decide)

/-! ### Releases and arrays -/

/-- Every array keeps its holder. -/
structure State.SameHolders (s t : State) : Prop where
  holder : ∀ a, (t.arr a).holder = (s.arr a).holder

theorem State.SameHolders.of_arrays {s t : State} (h : t.arrays = s.arrays) : s.SameHolders t := ⟨fun a => by rw [State.arr, State.arr, h]⟩

theorem State.SameHolders.trans {s t u : State} (h : s.SameHolders t) (h' : t.SameHolders u) : s.SameHolders u := ⟨fun a => (h'.holder a).trans (h.holder a)⟩

theorem observe_holders (s : State) (lo n : Nat) : s.SameHolders (s.observe lo n) := by
  have hdie : ∀ (s : State) d, s.SameHolders (s.observeDie d lo n) := fun s d => .of_arrays (by unfold State.observeDie; split <;> rfl)
  have harrays : ∀ t : State, t.SameHolders (t.observeArrays lo n) := fun t => by
    unfold State.observeArrays
    split
    · refine ⟨fun a => ?_⟩
      rw [State.arr, mget, mfind_map (fun x : ArrSt => x.touchHome lo n), State.arr, mget]
      cases mfind t.arrays a <;> rfl
    · exact .of_arrays rfl
  exact ((hdie s 0).trans (hdie _ 1)).trans (harrays _)

theorem of_observe {s t : State} {lo n : Nat} (h : s.SameHolders t) : s.SameHolders (t.observe lo n) := h.trans (observe_holders t lo n)

theorem homeWrite_holders (s : State) (pa : Nat) (bs : List Byte) : s.SameHolders (s.homeWrite pa bs) := by
  unfold State.homeWrite
  exact of_observe (.of_arrays rfl)

theorem promote_holders (s : State) (e : PWrite) : s.SameHolders (s.promote e) := by
  unfold State.promote
  exact of_observe (.of_arrays rfl)

theorem arrays_domainSend (s : State) (target op aop u size scope ctx len rid pa : Nat) (val cv : Word) (data : List Byte) (core acc : Nat) :
    (s.domainSend target op aop u size scope ctx len rid pa val cv data core acc).arrays = s.arrays := by
  unfold State.domainSend
  dsimp only
  split <;> rfl

theorem arrays_tagReq (s : State) (va : Word) (origin : Nat) : (s.tagReq va origin).arrays = s.arrays := by
  unfold State.tagReq
  split <;> rfl

theorem arrays_accessError (s : State) (c pa : Nat) (va : Word) (ctx cause kind origin : Nat) :
    (s.accessError c pa va ctx cause kind origin).arrays = s.arrays := by
  have hlink : (s.linkMet c pa cause).arrays = s.arrays := by unfold State.linkMet; split <;> rfl
  have hpend : ∀ (t : State) (e : PErr), (t.setPending c ctx e).arrays = t.arrays := fun t e => by unfold State.setPending; split <;> rfl
  exact (hpend _ _).trans hlink

theorem publish1_holders (s : State) (scope : Nat) (w : PWrite) : s.SameHolders (s.publish1 scope w) := by
  unfold State.publish1
  split
  · split
    · exact homeWrite_holders s w.pa [w.b]
    · exact of_observe (.of_arrays rfl)
  · exact .of_arrays ((arrays_tagReq ..).trans (arrays_domainSend ..))
  · exact .of_arrays (arrays_accessError ..)

theorem publishSome_holders (s : State) (scope n : Nat) (ws : List PWrite) : s.SameHolders (s.publishSome scope n ws) := by
  induction n generalizing s ws with
  | zero => rw [State.publishSome]; exact .of_arrays rfl
  | succ n ih =>
    cases ws with
    | nil => rw [State.publishSome]; exacts [.of_arrays rfl, by simp]
    | cons w r =>
      simp only [State.publishSome]
      split
      · exact (State.SameHolders.of_arrays ((arrays_tagReq ..).trans (arrays_domainSend ..))).trans (ih _ _)
      · exact (publish1_holders s scope w).trans (ih _ _)
      · split
        · exact (State.SameHolders.of_arrays (arrays_accessError ..)).trans (ih _ _)
        · exact (publish1_holders s scope w).trans (ih _ _)

theorem release_holders (s : State) (c scope : Nat) : s.SameHolders (s.release c scope) := by
  have hwiden : s.SameHolders (s.widen c scope) := by
    unfold State.widen
    split
    · generalize s.blog.filter (fun e => decide (e.core = c)) = l
      induction l generalizing s with
      | nil => exact .of_arrays rfl
      | cons e r ih => exact (promote_holders s e).trans (ih _)
    · exact .of_arrays rfl
  refine hwiden.trans ?_
  have hall : ∀ (t : State) ws, t.SameHolders (t.publishAll scope ws) := fun t ws => by
    unfold State.publishAll
    split
    · exact .of_arrays rfl
    · refine (publishSome_holders t scope ws.length ws).trans ?_
      exact .of_arrays rfl
  refine (hall _ (s.core c).ms.pend).trans ?_
  exact .of_arrays rfl

theorem releaseNext_holders (s : State) (c scope : Nat) : s.SameHolders (s.releaseNext c scope) := by
  unfold State.releaseNext
  split
  · exact release_holders s c scope
  · exact .of_arrays rfl

/-- What a release leaves of a core: all but what it has published and its pending error. -/
theorem releaseNext_core (s : State) (c scope : Nat) : ((s.releaseNext c scope).core c).bound = (s.core c).bound ∧
    ((s.releaseNext c scope).core c).ctx = (s.core c).ctx := by
  unfold State.releaseNext
  split
  · obtain ⟨u, hu, heq⟩ := release_eq s c scope
    obtain ⟨e, m, hc⟩ := hu.cores c
    rw [heq, State.core_modMs, if_pos rfl, hc]
    exact ⟨rfl, rfl⟩
  · rw [State.core_modMs, if_pos rfl]
    exact ⟨rfl, rfl⟩

/-! ### The end of a segment -/

theorem unitNext_spec (s : State) (c : Nat) (g : Seg) : s.SameHolders (s.unitNext c g) ∧ ((s.unitNext c g).core c).bound = (s.core c).bound ∧
    ((s.unitNext c g).core c).ctx = (s.core c).ctx := by
  unfold State.unitNext
  cases s.launches.find? (fun l => decide (l.id = g.launch)) with
  | none => exact ⟨.of_arrays rfl, rfl, rfl⟩
  | some l =>
    dsimp only
    split
    · refine ⟨(releaseNext_holders s c (if (countsOf 3 l.levels).isEmpty then 3 else 4)).trans ?_, releaseNext_core s c _⟩
      exact .of_arrays rfl
    · exact ⟨.of_arrays rfl, rfl, rfl⟩

theorem holder_endOwn {a : ArrSt} {c ctx : Nat} (cyc : Nat) (hh : a.holder = some c) (hctx : a.lctx = ctx) : (a.endOwn c ctx cyc).holder = none := by
  have hparked : a.parked c ctx = false := by simp [ArrSt.parked, hctx]
  have hend : (a.endLease c cyc).holder = none := by
    rw [ArrSt.endLease]
    dsimp only
    rw [if_pos hh]
  unfold ArrSt.endOwn
  rw [if_neg (by rw [hparked]; exact Bool.false_ne_true)]
  split
  · exact hend
  · exact hend

/-- A segment that has ended: its core is to advance, and its array is free. -/
theorem endSegment_spec (s : State) (c : Nat) (g : Seg) :
    let u := s.endSegment c g
    (u.core c).im.seg = none ∧ (u.core c).walk.phase = .advance s.cyc ∧ (u.core c).bound = (s.core c).bound ∧ (u.core c).ctx = (s.core c).ctx ∧
      ((s.arr (c / 4)).holder = some c → (s.arr (c / 4)).lctx = (s.core c).ctx → (u.arr (c / 4)).holder = none) := by
  intro u
  obtain ⟨hh, hb, hx⟩ := unitNext_spec (s.modArr (arrOf c) (fun a => a.endOwn c (s.core c).ctx s.cyc)) c g
  have hcore : u.core c = _ := (State.core_modCore ..).trans (if_pos rfl)
  obtain ⟨im, sl, w, z, hflush⟩ := flush_eq (((s.modArr (arrOf c) (fun a => a.endOwn c (s.core c).ctx s.cyc)).unitNext c g).core c)
  rw [hcore]
  dsimp only
  rw [hflush]
  refine ⟨rfl, rfl, hb, hx, fun hheld hlctx => ?_⟩
  have harr : (u.arr (c / 4)).holder = ((s.modArr (arrOf c) (fun a => a.endOwn c (s.core c).ctx s.cyc)).arr (c / 4)).holder := hh.holder (c / 4)
  rw [harr, State.arr_modArr, if_pos (show c / 4 = arrOf c from rfl)]
  exact holder_endOwn s.cyc hheld hlctx

/-- The record of K's pending error, where a segment would end. -/
def State.endRecord (s : State) (c : Nat) (p : PErr) : TrapRec :=
  let s := s.withCur { Cur.init with core := c, sq := .k }
  { s.record c .k { cause := p.cause, status := p.status, addr := p.addr, cls := 2, engine := p.engine, uidx := p.uidx }
      (if p.packet then p.cmd else s.mySeq.index) 0 with seq := p.seq, pend := true }

/-- K's pending error, raised where a segment would end. -/
theorem core_raisePending (s : State) (c : Nat) (p : PErr) : ∃ r : TrapRec,
    let u := (s.withCur { Cur.init with core := c, sq := .k }).raisePending p
    (u.core c).im.seg = (s.core c).im.seg ∧ (u.core c).im.perr = some p ∧ (u.core c).stops.recs = (s.core c).stops.recs ++ [r] ∧
      r.cause = p.cause ∧ r.cls = 2 ∧ r.pend = true ∧ r.addr = p.addr ∧ r.status = p.status := by
  refine ⟨s.endRecord c p, ?_⟩
  have hcore : ((s.withCur { Cur.init with core := c, sq := .k }).raisePending p).core c = _ := (State.core_modIm ..).trans (if_pos rfl)
  intro u
  rw [show u.core c = _ from hcore]
  simp only [State.core_modSeq, State.core_modStops, if_true, Image.setSeq_seg]
  exact ⟨rfl, trivial, rfl, rfl, rfl, rfl, rfl, rfl⟩

/-- The record of an overrun: of the first sequencer that has not halted. -/
def State.overRecord (s : State) (c cause : Nat) : TrapRec :=
  let q := (allSeqs.find? (fun q => ((s.core c).im.seq q).halted.isNone)).getD .k
  s.record c q { cause := cause, status := timingStatus (s.core c).im.notHalted 0 0, addr := 0, cls := 1, engine := 0, uidx := 0 }
    ((s.core c).im.seq q).index 0

/-- A core whose segment has overrun. -/
theorem overrun_spec (s : State) (c cause : Nat) {g : Seg} (hg : (s.core c).im.seg = some g) : ∃ r : TrapRec,
    ((s.overrun c cause).core c).stops.recs = (s.core c).stops.recs ++ [r] ∧ r.cause = cause ∧ r.cls = 1 ∧ r.sched = (s.core c).im.sched ∧
      ((s.overrun c cause).core c).im.seg = some { g with overrun := true } ∧ (s.overrun c cause).mem = s.mem := by
  have h0 : ∀ q : Seq, (if q = .c then s.endCounted c else s).cores = s.cores ∧ (if q = .c then s.endCounted c else s).mem = s.mem := fun q => by
    split
    · exact ⟨endCounted_cores s c, endCounted_mem s c⟩
    · exact ⟨rfl, rfl⟩
  have hq : ∀ q : Seq, (if q = .c then s.endCounted c else s).core c = s.core c := fun q => by rw [State.core, State.core, (h0 q).1]
  unfold State.overrun
  dsimp only
  refine ⟨s.overRecord c cause, ?_, rfl, rfl, rfl, ?_, (h0 _).2⟩
  · rw [State.core_modIm, if_pos rfl, State.core_modStops, if_pos rfl, hq]
    rfl
  · rw [State.core_modIm, if_pos rfl, State.core_modStops, if_pos rfl, hq]
    exact congrArg (Option.map _) hg

end Sys2Proof.Machine

namespace Sys2Proof.Proofs
open Sys2Proof.Machine

theorem trapsAreRecordedAndStopTheCore : Claims.TrapsAreRecordedAndStopTheCore := by
  intro s info c d
  refine ⟨?_, fun x at_ f hc hstop hat => ?_, fun r rest hd hwait hroom => ?_, fields_bits, fun r rest hd hq => ?_⟩
  · intro t co
    have hme : t.me = _ := (congrArg t.core (congrArg Cur.core (cur_takeTrap ..))).trans (core_takeTrap s s.cur.core s.cur.sq info s.mySeq.index 0)
    rw [hme]
    refine ⟨⟨s.record s.cur.core s.cur.sq info s.mySeq.index 0, rfl, rfl, rfl, rfl, rfl, rfl, rfl, rfl, rfl, rfl, rfl, rfl, rfl, rfl, rfl, fun g hg => ?_⟩,
      rfl, rfl, rfl, rfl, fun h => ?_, trapHere_mem s info, blog_takeTrap .., fun c' hc' => takeTrap_core_ne s _ c' _ _ _ _ hc', fun x f h => ?_⟩
    · show (match co.im.seg with
        | some g => g.hdr
        | none => 0) = g.hdr
      rw [hg]
    · show co.stops.stop.trapAt s.t s.cyc (decide (info.cls ≠ 1)) = _
      rw [h]
      rfl
    · refine ⟨f || decide (info.cls ≠ 1), ?_⟩
      show co.stops.stop.trapAt s.t s.cyc (decide (info.cls ≠ 1)) = _
      rw [h]
      rfl
  · obtain ⟨h1, h2, h3, h4⟩ := stopCore_spec s c x f
    obtain ⟨h5, h6, h7⟩ := handed_spec (s.core c)
    refine ⟨s.stopCore c x f, (s.core c).handed, ?_, h1, h2, h3, h5, h6, h7, h4⟩
    show execTrapStop c s = _
    rw [execTrapStop, hstop]
    dsimp only
    rw [if_pos hat]
    exact coreEvent_next.mpr ⟨hc, rfl⟩
  · have hexec : exec (.trapRecordEnqueue d) s =
        .next ((s.sendRecord d r).1.modDie d (fun x => { x with trapq := x.trapq ++ [(s.sendRecord d r).2], trapWait := rest })) := by
      show execTrapRecordEnqueue d s = _
      rw [execTrapRecordEnqueue, if_neg (Nat.not_le.mpr hd), hwait]
      dsimp only
      rw [if_pos hroom]
      rfl
    refine ⟨fun hpend => ?_, ?_⟩
    · have hsend : s.sendRecord d r = (s, r.bits) := by
        rw [State.sendRecord, if_neg (by rw [hpend]; exact Bool.false_ne_true)]
      rw [hsend] at hexec
      refine ⟨_, hexec, ?_, ?_, rfl, rfl⟩
      · rw [State.die_modDie, if_pos rfl]
      · rw [State.die_modDie, if_pos rfl]
    · intro c hpend hbound hctx
      have hsend : s.sendRecord d r = (s.modIm c (fun im => { im with perr := none, more := 0 }), { r with more := (s.core c).im.more }.bits) := by
        rw [State.sendRecord, if_pos hpend]
        dsimp only
        rw [if_pos ⟨hbound, hctx⟩]
      rw [hsend] at hexec
      refine ⟨_, hexec, ?_, ?_, ?_, ?_, rfl⟩
      · rw [State.die_modDie, if_pos rfl]
        rfl
      · rw [State.core_modDie, State.core_modIm, if_pos rfl]
      · rw [State.core_modDie, State.core_modIm, if_pos rfl]
      · rw [State.die_modDie, if_pos rfl]
  · refine ⟨s.modDie d (fun x => { x with trapq := rest }), ?_, ?_, ?_, rfl, rfl⟩
    · show execTrapQueueTake d s = _
      rw [execTrapQueueTake, if_neg (Nat.not_le.mpr hd), hq]
      rfl
    · rw [State.die_modDie, if_pos rfl]
    · rw [State.die_modDie, if_pos rfl]

theorem segmentsEndAndOverrun : Claims.SegmentsEndAndOverrun := by
  intro s c g hc hg hcount co
  have hbound : co.bound = true := by
    simp only [Core.counting, Bool.and_eq_true] at hcount
    exact hcount.1.1.1
  refine ⟨fun e he hsched hrun => ?_, ?_⟩
  · have hexec : ∀ u, (match co.im.perr with
        | some p => (s.withCur { Cur.init with core := c, sq := .k }).raisePending p
        | none => s.endSegment c g) = u → exec (.segmentEnd c) s = .next u := fun u hu => by
      show execSegmentEnd c s = _
      rw [execSegmentEnd, hg]
      dsimp only
      rw [he]
      dsimp only
      rw [if_pos ⟨hcount, hrun, hsched⟩]
      exact coreEvent_next.mpr ⟨hc, congrArg some hu⟩
    refine ⟨fun hp => ?_, fun p hp => ?_⟩
    · obtain ⟨h1, h2, h3, h4, h5⟩ := endSegment_spec s c g
      exact ⟨_, hexec _ (by rw [hp]), h1, h2, h3.trans hbound, h4, h5⟩
    · obtain ⟨r, h1, h2⟩ := core_raisePending s c p
      exact ⟨_, r, hexec _ (by rw [hp]), h1.trans hg, h2⟩
  · intro over_
    refine ⟨fun htimed hover hcost => ?_, fun htimed hover hcost hrun => ?_⟩
    · obtain ⟨r, h⟩ := overrun_spec s c 0x21 hg
      refine ⟨_, r, ?_, h⟩
      show execOverrunUntimed c s = _
      rw [execOverrunUntimed, hg]
      dsimp only
      rw [if_pos (by simp [hcount, htimed, hover, hcost, co])]
      exact coreEvent_next.mpr ⟨hc, rfl⟩
    · obtain ⟨r, h⟩ := overrun_spec s c 0x22 hg
      refine ⟨_, r, ?_, h⟩
      show execOverrunTimed c s = _
      rw [execOverrunTimed, hg]
      dsimp only
      rw [if_pos (by simp [hcount, htimed, hover, hcost, hrun, co])]
      exact coreEvent_next.mpr ⟨hc, rfl⟩

/-- Settles O52: a trap changes its sequencer, its core's stop and its records alone; a release leaves every array its holder. -/
theorem segmentsEndAndTrapsStop : Obligations.SegmentsEndAndTrapsStop := ⟨trapsAreRecordedAndStopTheCore, segmentsEndAndOverrun⟩

end Sys2Proof.Proofs
end

