-- ==== Sys2Proof/Proofs/RemovalsAndScans.lean ====
section
/-! PROOFS. Removals of contexts, step by step, and rotation scans (R351 to R358). -/
namespace Sys2Proof.Machine

/-! ### Lists of cores and dies -/

/-- What a change of every listed core leaves of one. -/
theorem core_withMapped (s : State) {t : State} {f : Core → Core} (h : t.cores = s.cores.map (fun p => (p.1, f p.2))) (c : Nat) :
    t.core c = f (s.core c) ∨ t.core c = Core.init ∧ s.core c = Core.init := by
  rw [State.core, h, mget, mfind_map, State.core, mget]
  cases mfind s.cores c with
  | some co => exact .inl rfl
  | none => exact .inr ⟨rfl, rfl⟩

theorem foldl_homeWrite_wrote (pa : Nat → Nat) (bs : List Byte) (l : List Nat) (s : State) : s.Wrote (l.foldl (fun s c => s.homeWrite (pa c) bs) s) := by
  induction l generalizing s with
  | nil => exact State.Wrote.refl s
  | cons c r ih => exact (homeWrite_wrote s (pa c) bs).trans (ih _)

theorem trapWait_wrote {s t : State} (h : s.Wrote t) (d : Nat) : (t.die d).trapWait = (s.die d).trapWait := by
  obtain ⟨fr, hfr⟩ := h.die d
  rw [hfr]

/-! ### A removal begins -/

theorem setQueueState_wrote (s : State) (q v : Nat) : s.Wrote (s.setQueueState q v) := by
  unfold State.setQueueState
  split
  · exact homeWrite_wrote ..
  · exact State.Wrote.refl s

theorem cores_startRemoval (s : State) (ctx : Nat) (r : Removal) :
    (s.startRemoval ctx r).cores = s.cores.map (fun p => (p.1, p.2.removing ctx)) := by
  have hqueues : ((s.queuesOf ctx).foldl (fun s q => s.setQueueState q 2) s).cores = s.cores :=
    foldl_state_keeps (φ := State.cores) _ (fun s q => (setQueueState_wrote s q 2).cores) _ s
  rw [State.startRemoval]
  dsimp only
  refine congrArg (List.map _) (Eq.trans ?_ hqueues)
  exact foldl_state_keeps (φ := State.cores) (fun s (p : Nat × Core) => s.modArr (arrOf p.1) (fun a => { a with reqs := a.reqs.filter (fun x => decide (x.core ≠ p.1)) }))
    (fun _ _ => rfl) _ _

theorem stop_removing {co : Core} {ctx : Nat} (hbound : co.bound = true) (hctx : co.ctx = ctx) : (co.removing ctx).stops.stop = .stopped co.im.sched true := by
  unfold Core.removing
  dsimp only
  rw [if_pos ⟨hbound, hctx⟩]

/-- The cores of a context stop as its removal begins. -/
theorem stopped_startRemoval (s : State) {ctx : Nat} (r : Removal) {c : Nat} (hbound : (s.core c).bound = true) (hctx : (s.core c).ctx = ctx) :
    ((s.startRemoval ctx r).core c).stops.stop = .stopped (s.core c).im.sched true := by
  rcases core_withMapped (f := fun co => co.removing ctx) s (cores_startRemoval s ctx r) c with h | ⟨-, h⟩
  · rw [h]
    exact stop_removing hbound hctx
  · rw [h] at hbound
    exact absurd hbound Bool.false_ne_true

/-! ### The state of a context is cleared -/

/-- The queues of a context, detached. -/
def State.detachQueues (s : State) (qs : List Nat) : State :=
  qs.foldl (fun s q =>
    s.modDie (q / 256) (fun d => { d with fronts := mdel d.fronts (q % 256), qtab := mset d.qtab (q % 256) { s.qent q with v := false } })) s

theorem trapWait_detachQueues (qs : List Nat) (s : State) (d : Nat) : ((s.detachQueues qs).die d).trapWait = (s.die d).trapWait := by
  refine foldl_state_keeps (φ := fun s => (s.die d).trapWait) _ (fun s q => ?_) qs s
  dsimp only
  rw [State.die_modDie]
  split
  · next h => rw [h]
  · rfl

/-- The state without what a context has left in it, but for its last record. -/
def State.cleared (s : State) (ctx : Nat) : State :=
  let s1 := (s.clearImages ctx).detachQueues (s.queuesOf ctx)
  { s1 with
    cores := s1.cores.map (fun p => (p.1, (p.2.freeAll ctx).unbind ctx s.cyc)),
    arrays := s1.arrays.map (fun p => (p.1, p.2.dropTiles ctx)),
    relQ := s1.relQ.filter (fun x => decide (x.1 ≠ ctx)),
    images := s1.images.filter (fun p => decide (p.1 / 128 ≠ ctx)), entered := s1.entered.filter (fun k => decide (k / 128 ≠ ctx)),
    usedCkpt := s1.usedCkpt.filter (fun p => decide (p.2 ≠ ctx)),
    jrnl := { s1.jrnl with retracted := s1.jrnl.retracted.filter (fun p => decide (p.1 ≠ ctx)) },
    launches := s1.launches.filter (fun l => decide (l.ctx ≠ ctx)),
    entryDone := s1.entryDone.filter (fun x => decide (x ≠ ctx)),
    descs := mdel s1.descs ctx,
    placed := s1.placed.filter (fun p => decide (p.ctx ≠ ctx)) }

theorem clearContext_eq (s : State) (ctx : Nat) (r : Removal) : s.clearContext ctx r = (s.cleared ctx).lastRecord ctx r := rfl

theorem unbind_unbound (co : Core) (ctx cyc : Nat) : ¬((co.unbind ctx cyc).bound = true ∧ (co.unbind ctx cyc).ctx = ctx) := by
  unfold Core.unbind
  split
  · exact fun h => Bool.false_ne_true h.1
  · next h => exact h

theorem clearImages_wrote (s : State) (ctx : Nat) : s.Wrote (s.clearImages ctx) := by
  unfold State.clearImages
  split
  · exact State.Wrote.refl s
  · exact foldl_homeWrite_wrote _ _ _ s

theorem cleared_spec (s : State) (ctx : Nat) : (∀ c, ¬(((s.cleared ctx).core c).bound = true ∧ ((s.cleared ctx).core c).ctx = ctx)) ∧
    (∀ l ∈ (s.cleared ctx).launches, l.ctx ≠ ctx) ∧ (∀ p ∈ (s.cleared ctx).images, p.1 / 128 ≠ ctx) ∧
    ∀ d, ((s.cleared ctx).die d).trapWait = (s.die d).trapWait := by
  refine ⟨fun c => ?_, fun l hl => of_decide_eq_true (List.mem_filter.mp hl).2, fun p hp => of_decide_eq_true (List.mem_filter.mp hp).2, fun d => ?_⟩
  · rcases core_withMapped (t := s.cleared ctx) (f := fun co => (co.freeAll ctx).unbind ctx s.cyc) _ rfl c with h | ⟨h, -⟩
    · rw [h]
      exact unbind_unbound _ ctx s.cyc
    · rw [h]
      exact fun hb => Bool.false_ne_true hb.1
  · exact (trapWait_detachQueues _ _ d).trans (trapWait_wrote (clearImages_wrote s ctx) d)

theorem trapWait_invalidate (s : State) (ctx : Nat) (va : Option Word) (d : Nat) : ((s.invalidate ctx va).die d).trapWait = (s.die d).trapWait := by
  have h : mfind (s.invalidate ctx va).dies d = (mfind s.dies d).map (fun x => x.stale ctx) := mfind_map (fun x : Die => x.stale ctx) s.dies d
  rw [State.die, mget, h, State.die, mget]
  cases mfind s.dies d <;> rfl

/-- The die that the last record of a context is handed to. -/
def State.lastDie (s : State) (ctx : Nat) : Nat := if (s.boundCores ctx 0).isEmpty ∧ (s.boundCores ctx 1).isEmpty = false then 1 else 0

/-- The last record of a context. -/
def State.lastRec (s : State) (ctx : Nat) (r : Removal) : TrapRec :=
  { seg := 0, addr := 0, tstep := s.tstep, sched := 0, status := r.status, cmd := 0, cause := r.cause, engine := r.engine,
    uidx := r.unit, seq := 0, cls := 3, ctx := ctx, die := s.lastDie ctx, core := 0, npend := 0, more := 0, waits := false, pend := false }

theorem lastRecord_eq (s : State) (ctx : Nat) (r : Removal) : s.lastRecord ctx r = s.postRecord (s.lastDie ctx) (s.lastRec ctx r) := rfl

theorem trapWait_postRecord (s : State) (d : Nat) (r : TrapRec) : ((s.postRecord d r).die d).trapWait = (s.die d).trapWait ++ [r] := by
  rw [State.postRecord, State.die_modDie, if_pos rfl]

/-! ### The steps of a removal -/

/-- The removal of a context at its next step. -/
def State.putRemoval (s : State) (ctx : Nat) (r : Removal) : State := { s with removals := mset s.removals ctx r }

theorem removals_putRemoval (s : State) (ctx : Nat) (r : Removal) : mfind (s.putRemoval ctx r).removals ctx = some r := by
  rw [State.putRemoval]
  dsimp only
  rw [mfind_mset, if_pos rfl]

theorem exec_removalStep {s : State} {ctx : Nat} {r : Removal} (hr : mfind s.removals ctx = some r) (hstep : 1 ≤ r.step) (hlt : r.step < 9)
    (hnone : s.inFlightAt ctx r.step = none) : exec (.removalStep ctx) s =
      .next ((s.closeStep ctx r).putRemoval ctx { r with step := r.step + 1, deadline := s.cyc + removalBound (r.step + 1) }) := by
  show execRemovalStep ctx s = _
  rw [execRemovalStep, hr]
  dsimp only
  rw [hnone, if_neg (by simp; omega), if_neg (by omega)]
  rfl

/-! ### Scans -/

theorem notice_outbox (s : State) (dsts : List Nat) (m : Option Nat → Msg) :
    m none ∈ (s.notice dsts m).outbox ∧ ∀ d ∈ dsts, d ≠ s.dom.modid → m (some d) ∈ (s.notice dsts m).outbox := by
  obtain ⟨ho, -⟩ := foldl_send (fun r => m (some r)) ((nubBy (fun a b => a == b) (dsts ++ s.dom.members)).filter (fun r => decide (r ≠ s.dom.modid)))
    (((s.send (m none)).send (.hostEvent 0)).send (.hostEvent 1))
  have hnotice : (s.notice dsts m).outbox = s.outbox ++ [m none] ++ [.hostEvent 0] ++ [.hostEvent 1] ++ _ := ho
  rw [hnotice]
  refine ⟨by simp, fun d hd hne => List.mem_append_right _ (List.mem_map_of_mem ?_)⟩
  exact List.mem_filter.mpr ⟨mem_nubBy_beq.mpr (List.mem_append_left _ hd), decide_eq_true hne⟩

/-- What messages and pending errors leave of the scanned units. -/
def State.units (s : State) : Map Nat × List Nat × List Nat := (s.gens, s.fenced, s.healed)

theorem units_notice (s : State) (dsts : List Nat) (m : Option Nat → Msg) : (s.notice dsts m).units = s.units :=
  foldl_state_keeps (φ := State.units) (fun s r => s.send (m (some r))) (fun _ _ => rfl) _ _

theorem setPending_units (s : State) (c ctx : Nat) (e : PErr) : (s.setPending c ctx e).units = s.units ∧ (s.setPending c ctx e).outbox = s.outbox := by
  obtain ⟨cs, im, h⟩ := setPending_state s c ctx e
  rw [h]
  exact ⟨rfl, rfl⟩

/-- A unit that has failed its scan is fenced, and its recipients are told. -/
theorem scanFail_spec (s : State) (unit : Nat) :
    let k := mget 0 s.gens unit
    let u := s.scanFail unit
    unit ∈ u.fenced ∧ unit ∉ u.healed ∧ u.gens = s.gens ∧ Msg.suspectNotice none s.dom.modid unit (k - 1) k s.tstep ∈ u.outbox ∧
      ∀ p ∈ s.dom.stamps, k ≤ p.2 + 1 → p.2 ≤ k → p.1 ≠ s.dom.modid → Msg.suspectNotice (some p.1) s.dom.modid unit (k - 1) k s.tstep ∈ u.outbox := by
  intro k u
  have hu : u = s.scanFail unit := rfl
  unfold State.scanFail at hu
  dsimp only at hu
  have hunits : u.units = (s.gens, if s.fenced.contains unit then s.fenced else unit :: s.fenced, s.healed.filter (fun u => decide (u ≠ unit))) := by
    rw [hu, foldl_state_keeps (φ := State.units) _ (fun s x => (setPending_units s _ _ _).1), units_notice]
    rfl
  obtain ⟨hgens, hfenced, hhealed⟩ : u.gens = _ ∧ u.fenced = _ ∧ u.healed = _ := by
    simpa only [State.units, Prod.mk.injEq] using hunits
  have hout := congrArg State.outbox hu
  rw [foldl_state_keeps (φ := State.outbox) _ (fun s x => (setPending_units s _ _ _).2)] at hout
  refine ⟨?_, ?_, hgens, ?_, fun p hp hk hle hne => ?_⟩
  · rw [hfenced]
    split
    · next h => exact List.contains_iff_mem.mp h
    · exact List.mem_cons_self
  · rw [hhealed]
    simp
  · rw [hout]
    exact (notice_outbox _ _ _).1
  · rw [hout]
    refine (notice_outbox _ _ (fun d => Msg.suspectNotice d s.dom.modid unit (k - 1) k s.tstep)).2 p.1 ?_ hne
    exact List.mem_map_of_mem (List.mem_filter.mpr ⟨hp, by simp [hk, hle, k]⟩)

end Sys2Proof.Machine

namespace Sys2Proof.Proofs
open Sys2Proof.Machine

/-- A removal that is at its eighth step clears its context's state, and hands on its last record. -/
theorem exec_removalStep_eight {s : State} {ctx : Nat} {r : Removal} (hr : mfind s.removals ctx = some r) (hstep : r.step = 8) :
    ∃ u x d, exec (.removalStep ctx) s = .next u ∧ mfind u.removals ctx = some { r with step := 9, deadline := s.cyc + removalBound 9 } ∧
      (∀ c, ¬((u.core c).bound = true ∧ (u.core c).ctx = ctx)) ∧ (∀ l ∈ u.launches, l.ctx ≠ ctx) ∧ (∀ p ∈ u.images, p.1 / 128 ≠ ctx) ∧
      (u.die d).trapWait = (s.die d).trapWait ++ [x] ∧ x.cause = r.cause ∧ x.cls = 3 ∧ x.ctx = ctx ∧ x.status = r.status := by
  have hexec := exec_removalStep hr (by omega) (by omega) (show s.inFlightAt ctx r.step = none by rw [hstep]; rfl)
  have hclose : s.closeStep ctx r = ((s.invalidate ctx none).cleared ctx).lastRecord ctx r := by
    rw [State.closeStep, hstep]
    exact clearContext_eq ..
  rw [hclose, lastRecord_eq, hstep] at hexec
  obtain ⟨hcores, hlaunches, himages, hwait⟩ := cleared_spec (s.invalidate ctx none) ctx
  refine ⟨_, ((s.invalidate ctx none).cleared ctx).lastRec ctx r, ((s.invalidate ctx none).cleared ctx).lastDie ctx, hexec, removals_putRemoval .., hcores,
    hlaunches, himages, ?_, rfl, rfl, rfl, rfl⟩
  refine (trapWait_postRecord ((s.invalidate ctx none).cleared ctx) _ _).trans ?_
  exact congrArg (· ++ _) ((hwait _).trans (trapWait_invalidate ..))

theorem exec_scan {s : State} {unit : Nat} (pass : Bool) (hunit : unit < 160) (hdue : s.scanDue unit = true) (hdrained : s.unitDrained unit = true) :
    exec (.rotationScanSlot unit pass) s = .next (if pass then s.scanPass unit else s.scanFail unit) := by
  show execRotationScanSlot unit pass s = _
  rw [execRotationScanSlot, if_neg (Nat.not_le.mpr hunit), hdue, hdrained]
  rfl

/-- Settles O16: a removal's first step stops its cores, its eighth clears its context; a scan passes a unit or fences it. -/
theorem removalsAndScansProceed : Obligations.RemovalsAndScansProceed := by
  intro s ctx unit r
  refine ⟨fun hm => ?_, fun hm hctx hnone => ?_, fun hr => ⟨fun hm hstep => ?_, fun h1 h8 hnone => ?_, fun hstep _ => exec_removalStep_eight hr hstep,
    fun hstep hwaits => ?_, fun e h1 hdead hflight => ?_⟩, fun hunit hdue hdrained => ?_, fun hunit hfenced hhealed => ?_⟩
  · show execContextRemoval ctx s = _
    rw [execContextRemoval, manage_of_not hm]
    rfl
  · refine ⟨s.startRemoval ctx { step := 1, deadline := 0, cause := 0, engine := 0, unit := 0, status := 0 }, _, ?_, removals_startRemoval .., rfl, rfl, rfl,
      fun c hbound hc => ⟨_, stopped_startRemoval s _ hbound hc⟩⟩
    show execContextRemoval ctx s = _
    rw [execContextRemoval, manage_of_managed hm, hnone]
    dsimp only
    rw [if_pos hctx]
    rfl
  · refine ⟨s.startRemoval ctx r, ?_, removals_startRemoval ..⟩
    show execContextRemoval ctx s = _
    rw [execContextRemoval, manage_of_managed hm, hr]
    dsimp only
    rw [if_pos hstep]
    rfl
  · exact ⟨_, exec_removalStep hr h1 (by omega) hnone, removals_putRemoval ..⟩
  · refine ⟨s.closeStep ctx r, ?_, ?_, ?_⟩
    · show execRemovalStep ctx s = _
      rw [execRemovalStep, hr]
      dsimp only
      rw [hwaits, if_neg (by rw [hstep]; simp [State.inFlightAt]), if_pos (by omega)]
      rfl
    · rw [State.closeStep, hstep]
      exact mfind_mdel_same ..
    · rw [State.closeStep, hstep]
      rfl
  · refine ⟨(s.resetUnit ctx e).putRemoval ctx { r with cause := 0x87, engine := e.code, unit := e.uidx, status := errorStatus e.code r.step 0 }, _, ?_,
      removals_putRemoval .., rfl, rfl, rfl, rfl⟩
    show execRemovalBoundExpire ctx s = _
    rw [execRemovalBoundExpire, hr]
    dsimp only
    rw [hflight]
    dsimp only
    rw [if_pos ⟨h1, hdead⟩]
    rfl
  · intro k
    refine ⟨⟨s.scanPass unit, exec_scan true hunit hdue hdrained, ?_, fun v hv => ?_, ?_, rfl⟩, s.scanFail unit, exec_scan false hunit hdue hdrained,
      scanFail_spec s unit⟩
    · exact (mget_mset ..).trans (if_pos rfl)
    · exact (mget_mset ..).trans (if_neg hv)
    · exact (mget_mset ..).trans (if_pos rfl)
  · refine ⟨{ s with fenced := s.fenced.filter (fun u => decide (u ≠ unit)), healed := s.healed.filter (fun u => decide (u ≠ unit)) }, ?_, ?_, fun v hv => ?_, rfl⟩
    · show execUnitReturnToService unit s = _
      rw [execUnitReturnToService, if_neg (Nat.not_le.mpr hunit), if_pos (by simp [hfenced, hhealed])]
      rfl
    · simp
    · simp [hv]

end Sys2Proof.Proofs
end

