-- ==== Sys2Proof/Proofs/ModuleForms.lean ====
section
/-! PROOFS. Where the events of the domain, the hosts, the journal, boot and the platform complete. -/
namespace Sys2Proof.Machine

theorem length_lt_of_append {α : Type} {l m : List α} (x : α) (h : m = l ++ [x]) : l.length < m.length := by
  rw [h, List.length_append]
  exact Nat.lt_succ_self _

theorem completes_of {s : State} {i : Instr} {P Q : State → Prop} (h : ∃ u, exec i s = .next u ∧ P u) (himp : ∀ u, P u → Q u) : s.Completes i Q := by
  obtain ⟨u, hexec, hu⟩ := h
  exact ⟨u, hexec, himp u hu⟩

/-- Fields of a management instruction that no clause used here speaks of. -/
def noMgt : MgtF := { d := 0, a := 0, b := 0, c := 0, seq := 0, slot := 0, idx := 0, n := 0, var := 0, pa := 0 }

/-! ### Hosts -/

/-- An access of a host that has a home is held only by a near-bank command there. -/
theorem hostHeld_home {s : State} {port fn kind n pa ctx : Nat} {addr : Word} (h : s.hostPlace port fn kind addr n = some (pa, .home, ctx)) :
    s.hostHeld port fn kind addr n = s.extentBlocked pa n (decide (kind ≠ 0)) := by
  rw [State.hostHeld, h]

theorem hostAccess_home {s : State} {port fn kind n pa ctx : Nat} {addr : Word} (hon : s.plat.thermal = false)
    (h : s.hostPlace port fn kind addr n = some (pa, .home, ctx)) (hbad : kind = 1 ∨ firstBad s.bad pa n = none) (home : Nat → State)
    (window : Nat → Nat → Nat → Nat → State) : s.hostAccess port fn kind addr n home window = home pa := by
  rw [State.hostAccess, hon, if_neg Bool.false_ne_true, h]
  dsimp only
  rw [if_neg]
  rintro ⟨hk, hb⟩
  rcases hbad with h1 | h1
  · exact hk h1
  · rw [h1] at hb
    exact Bool.false_ne_true hb

theorem exec_hostWrite_home {s : State} {port fn pa ctx : Nat} {addr : Word} {bs : List Byte} (hport : port < 2) (hfn : fn < 17)
    (hon : s.plat.thermal = false) (hup : s.barUp port fn = true) (hpos : 0 < bs.length) (hlen : bs.length ≤ 512)
    (hpage : addr.toNat % 4096 + bs.length ≤ 4096) (hplace : s.hostPlace port fn 1 addr bs.length = some (pa, .home, ctx))
    (hfree : s.extentBlocked pa bs.length true = false) : exec (.hostWrite port fn addr bs) s = .next (s.homeWrite pa bs) := by
  have hheld : s.hostHeld port fn 1 addr bs.length = false := (hostHeld_home hplace).trans hfree
  show execHostWrite port fn addr bs s = _
  rw [execHostWrite, if_neg (by omega), event_next, hup, if_neg (by decide), if_pos (by simp [hpos, hlen, hpage, hheld]),
    hostAccess_home hon hplace (.inl rfl)]

theorem exec_hostAtomicOp_home {s : State} {port fn aop size pa ctx : Nat} {addr : Word} (v cv : Word) (hport : port < 2) (hfn : fn < 17)
    (hon : s.plat.thermal = false) (hup : s.barUp port fn = true) (haop : aop < 3) (hsize : size = 4 ∨ size = 8) (halign : addr.toNat % size = 0)
    (hplace : s.hostPlace port fn 2 addr size = some (pa, .home, ctx)) (hfree : s.extentBlocked pa size true = false)
    (hgood : firstBad s.bad pa size = none) :
    exec (.hostAtomicOp port fn addr aop size v cv) s = .next (s.hostAtomic port fn aop size v cv pa) := by
  have hheld : s.hostHeld port fn 2 addr size = false := (hostHeld_home hplace).trans hfree
  have hlim : s.hostLimited port fn addr size = false := by rw [State.hostLimited, hplace]
  show execHostAtomicOp port fn addr aop size v cv s = _
  rw [execHostAtomicOp, if_neg (by omega), event_next, hup, if_neg (by decide), if_pos (by simp [haop, hsize, halign, hheld, hlim]),
    hostAccess_home hon hplace (.inr hgood)]

theorem outbox_hostAtomic (s : State) (port fn aop size : Nat) (v cv : Word) (pa : Nat) :
    (s.hostAtomic port fn aop size v cv pa).outbox = s.outbox ++ [.hostData port fn (BitVec.ofNat 64 (s.homeNat pa size))] := by
  rw [State.hostAtomic]
  refine congrArg (· ++ _) ?_
  split
  · exact outbox_homeWrite ..
  · rfl

theorem exec_doorbellWrite {s : State} {port fn slot q : Nat} {b : VfBind} (v : Word) (hport : port < 2) (hfn : fn < 17) (hon : s.plat.thermal = false)
    (hup : s.barUp port fn = true) (hslot : slot < 64) (hb : mfind s.plat.vfs (17 * port + fn) = some b) (hq : mfind b.slots slot = some q) :
    exec (.doorbellWrite port fn slot v) s = .next (s.tailWrite q v) := by
  show execDoorbellWrite port fn slot v s = _
  rw [execDoorbellWrite, if_neg (by omega), event_next, hup, if_neg (by decide), if_pos (decide_eq_true hslot), hon, if_neg Bool.false_ne_true,
    show mfind s.plat.vfs (fnKey port fn) = some b from hb, Option.bind_some, hq]

theorem homeNat_tailWrite {s : State} {q : Nat} {f : Front} {v : Word} (hf : s.front q = some f)
    (hlt : (BitVec.ofNat 64 (s.homeNat f.wpa 8)).toInt < v.toInt) : (s.tailWrite q v).homeNat f.wpa 8 = v.toNat := by
  rw [State.tailWrite, hf]
  dsimp only
  rw [if_pos hlt]
  exact homeNat_homeWrite s f.wpa 8 v.isLt

theorem hostLinkDown_down {s : State} {port : Nat} (hport : port < 2) : s.Completes (.hostLinkDown port) (fun u => mget true u.plat.linkUp port = false) := by
  have hdown : mget true (mset s.plat.linkUp port false) port = false := mget_mset_same ..
  refine ⟨_, show execHostLinkDown port s = _ from if_neg (Nat.not_le.mpr hport), ?_⟩
  split
  · exact hdown
  · exact hdown

theorem exec_takeover {s : State} {port : Nat} (hport : port < 2) (hrec : s.plat.recovery = false) (hstep : 3 ≤ s.plat.bootStep) :
    exec (.mailboxTakeover port true) s = .next (s.takeOver port) := by
  show execMailboxTakeover port true s = _
  rw [execMailboxTakeover, if_neg (Nat.not_le.mpr hport), event_next, mailbox_of (.inr hstep), hrec]
  rfl

end Sys2Proof.Machine

namespace Sys2Proof.Proofs
open Sys2Proof.Machine

section Parts
variable (s : State)

/-- Requests of other modules, in their turn. -/
theorem requestsComplete (h : BitVec 384) (bs : List Byte) (hin : s.inDomain = true) (hdst : hDst h = s.dom.modid) (hturn : hMalformed h = false ∧
      hPseq h = (s.peer (hSrc h)).next ∧ (s.peer (hSrc h)).waiting = [] ∧ (s.peer (hSrc h)).skipped = []) :
    let served (u : State) : Prop := (u.peer (hSrc h)).next = (hPseq h + 1) % 2 ^ 32
    (hOp h = 1 → s.targetRefuses (hPa h) (hLen h) = false → s.requestHeld h [] = false → firstBad s.bad (hPa h) (hLen h) = none →
      s.Completes (.domainReadRequest h) served) ∧
    (hOp h = 2 → bs.length = hLen h → s.targetRefuses (hPa h) bs.length = false → s.requestHeld h bs = false → s.Completes (.domainWriteRequest h bs) served) ∧
    (hOp h = 3 → (s.peer (hSrc h)).ids.find? (fun x => decide (x.1 = h.toNat / 2 ^ 160 % 2 ^ 32)) = none → s.targetRefuses (hPa h) (hSize h) = false →
      s.requestHeld h [] = false → firstBad s.bad (hPa h) (hSize h) = none → s.Completes (.domainAtomicRequest h) (fun u => s.outbox.length < u.outbox.length)) ∧
    (hOp h = 12 → s.Completes (.domainSkip h) served) := by
  intro served
  obtain ⟨hread, hwrite, hatomic, -, -, hskip⟩ := domainRequestsAreServed s h bs hin hdst
  have hpseq := hturn.2.1
  refine ⟨fun hop href hheld hgood => ?_, fun hop hlen href hheld => ?_, fun hop hnew href hheld hgood => ?_, fun hop => ?_⟩
  · obtain ⟨u, hexec, -, -, hnext⟩ := ((hread hturn hop).1 href hheld).1 hgood
    exact ⟨u, hexec, hnext.trans (by rw [hpseq])⟩
  · obtain ⟨u, hexec, -, -, -, hnext⟩ := (hwrite hturn hop hlen).1 href hheld
    exact ⟨u, hexec, hnext.trans (by rw [hpseq])⟩
  · obtain ⟨u, hexec, hout, -⟩ := (hatomic hturn hop).2 hnew href hheld hgood
    exact ⟨u, hexec, length_lt_of_append _ hout⟩
  · obtain ⟨u, hexec, -, hnext, -⟩ := hskip hturn hop
    exact ⟨u, hexec, hnext.trans (by rw [hpseq])⟩

/-- Answers of other modules, and requests sent again. -/
theorem answersComplete (h : BitVec 384) (bs : List Byte) (m n : Nat) (q : DReq) (hq : q.skip = false) :
    (s.badResponse h 9 = false → s.asked h [1] = some q →
      s.Completes (.domainReadResponse h bs) (fun u => u.dom.reqs.map (·.hdr) = (s.dom.reqs.erase q).map (·.hdr))) ∧
    (s.badResponse h 10 = false → s.asked h [2] = some q → hCause h = 0 → s.Completes (.domainWriteAck h) (fun u => u.dom.reqs = s.dom.reqs.erase q)) ∧
    (s.badResponse h 11 = false → s.asked h [3] = some q → 128 ≤ q.core → s.Completes (.domainAtomicResponse h) (fun u => u.dom.reqs = s.dom.reqs.erase q)) ∧
    (s.dom.reqs.find? (fun r => decide (r.target = m) && decide (r.pseq = n) && decide (r.sentAt + 192000 ≤ s.cyc)) = some q → q.tries < 12 →
      s.Completes (.domainResendTimeout m n) (fun u => s.outbox.length < u.outbox.length)) := by
  obtain ⟨-, hread, hack, -, hatomic, hagain⟩ := domainResponsesArrive s h bs q m n
  refine ⟨fun hbad hask => ?_, fun hbad hask hcause => ⟨_, hack hbad hask (.inr hcause), rfl⟩, fun hbad hask hcore => ?_, fun hfind htries => ?_⟩
  · obtain ⟨u, hexec, hreqs, -⟩ := hread hbad hask hq
    exact ⟨u, hexec, hreqs⟩
  · obtain ⟨u, hexec, hreqs, -⟩ := hatomic hbad hask hq hcore
    exact ⟨u, hexec, hreqs⟩
  · obtain ⟨u, hexec, hout, -⟩ := (hagain hfind).1 hq htries
    exact ⟨u, hexec, length_lt_of_append _ hout⟩

/-- Membership and groups. -/
theorem groupsComplete (m n : Nat) (v : Word) :
    (s.managed = true → s.unbound = true → m < 64 → s.Completes (.domainMembershipChange m [m]) (fun u => u.dom.modid = m ∧ u.dom.members = [m])) ∧
    (s.managed = true → s.unbound = true → v.getLsbD 0 = true → fld v.toNat 16 8 = 1 → fld v.toNat 8 8 = 0 → s.dom.modid ∈ s.dom.members →
      fld v.toNat 24 16 ∈ s.dom.members → s.Completes (.groupFormation v n) (fun u => u.dom.dgrp = v &&& 0xFFFFFFFF01)) ∧
    (s.dom.dgrp.getLsbD 0 = true → 4 < n → s.Completes (.linkRetrain n) (fun u => u.dom.dgrp = 0)) ∧
    (s.dom.dgrp.getLsbD 0 = true → n = fld s.dom.dgrp.toNat 8 8 → n < fld s.dom.dgrp.toNat 16 8 → m < 64 →
      s.Completes (.groupLeave n m) (fun u => u.dom.dgrp = 0)) ∧
    (∀ l, s.launches.find? (fun l => decide (l.id = n)) = some l → l.started = false → l.startTs ≤ s.tstep → s.dom.dgrp.getLsbD 0 = true → groupId s.dom.dgrp = l.grp →
      s.Completes (.mLevelStart n) (fun u => ∀ x ∈ u.launches, x.id = n → x.started = true)) := by
  obtain ⟨-, hmember, hform, -, hretrain, hleave, hstart, -⟩ := groupsFormAndMemoryIsRestored s m [m] v n n n m n []
  refine ⟨fun hm hun hlt => ?_, fun hm hun hv hone hzero hself hlead => ?_, fun hg hn => ?_, fun hg hme hn hm => ?_, fun l hfind hst hts hg hgrp => ?_⟩
  · exact ⟨_, (hmember hm hun hlt (by simp) (by simpa using hlt) (List.nodup_singleton m)).1 (List.mem_singleton_self m), rfl, rfl⟩
  · exact completes_of (hform hm hun hv (by omega) (by omega) (by omega) hself hlead
      (by rw [hone]; exact List.length_pos_of_mem hself)) (fun u hu => hu.1)
  · exact completes_of (hretrain hg hn) (fun u hu => hu.1)
  · exact completes_of (hleave hg hn hm) (fun u hu => hu.2.1 (.inl hme))
  · exact completes_of ((hstart l hfind hst hts).1 hg hgrp) (fun u hu => hu.1)

/-- Errors of the link, atomics that the rate held, and memory kept and restored. -/
theorem memoryFormsComplete (m c : Nat) :
    (c < 128 → s.Completes (.d2dUncorrectableError c) (fun u => u.mem = s.mem)) ∧
    (∀ g x todo off, s.dom.held.find? (fun x => decide (x.1 = m)) = some x → s.sentRecently m < 4096 → x.2.1 = c → c < 128 →
      (s.core c).ms.gacc.find? (fun g => g.unperformed) = some g → g.todo = some todo → s.paKind g.pa = .window m off → (s.core c).ms.pend = [] →
      s.releaseAhead c g.id = false → s.Completes (.domainAtomicRateRelease m) (fun u => x ∉ u.dom.held)) ∧
    (s.managed = true → (∀ p ∈ s.cores, p.2.bound = false ∧ ∀ b ∈ p.2.slabs, ¬(b.2.kind = .live ∧ b.2.born = true)) → (∀ p ∈ s.arrays, ∀ t ∈ p.2.tiles, ¬(t.2.inuse = true ∧ t.2.dirty = true)) →
      (∀ p ∈ s.frames, ¬(p.2.valid = true ∧ p.2.dirty = true)) → s.Completes .wholeMemoryCheckpoint (fun u => s.outbox.length < u.outbox.length)) ∧
    (s.managed = true → s.unbound = true → s.Completes (.wholeMemoryRestore []) (fun u => ∀ a, s.paKind a = .home → mget 0 u.mem a = 0)) := by
  obtain ⟨-, -, -, -, -, -, -, hckpt, hrestore⟩ := groupsFormAndMemoryIsRestored s 0 [] 0 0 0 0 0 0 []
  refine ⟨fun hc => ?_, fun g x todo off hfind hfew hx _ hg htodo hkind hpend hrel => ?_, fun hm hcores harrays hframes => ?_, fun hm hun => ?_⟩
  · refine ⟨_, show execD2dUncorrectableError c s = _ from coreEvent_next.2 ⟨hc, rfl⟩, ?_⟩
    dsimp only
    split <;> rfl
  · exact completes_of ((heldAtomicsAndLinkErrors s c m g).2.2 x todo off hfind hfew hx hg htodo hrel hkind (by simp [hpend])) (fun u hu => hu.1)
  · exact ⟨_, hckpt hm hcores harrays hframes, length_lt_of_append _ rfl⟩
  · refine completes_of (hrestore hm hun rfl) (fun u hu a ha => ?_)
    rw [hu a, if_pos ha]
    rfl

/-- Hosts, resets and shutdown. -/
theorem hostFormsComplete (m n : Nat) (v : Word) (bs : List Byte) (hm : m < 2) (hn : n < 17) (hon : s.plat.thermal = false) :
    (∀ pa ctx, s.barUp m n = true → 0 < bs.length → bs.length ≤ 512 → v.toNat % 4096 + bs.length ≤ 4096 → s.hostPlace m n 1 v bs.length = some (pa, .home, ctx) →
      s.extentBlocked pa bs.length true = false → s.Completes (.hostWrite m n v bs) (fun u => u.homeBytes pa bs.length = bs)) ∧
    (∀ pa ctx x y, s.barUp m n = true → v.toNat % 8 = 0 → s.hostPlace m n 2 v 8 = some (pa, .home, ctx) → s.extentBlocked pa 8 true = false → firstBad s.bad pa 8 = none →
      s.Completes (.hostAtomicOp m n v 0 8 x y) (fun u => s.outbox.length < u.outbox.length)) ∧
    (∀ b q f slot, s.barUp m n = true → slot < 64 → mfind s.plat.vfs (17 * m + n) = some b → mfind b.slots slot = some q → s.front q = some f →
      s.Completes (.doorbellWrite m n slot v) (fun u => (BitVec.ofNat 64 (s.homeNat f.wpa 8)).toInt < v.toInt → u.homeNat f.wpa 8 = v.toNat)) ∧
    s.Completes .moduleReset (fun u => u.cyc = 0 ∧ u.plat.flash = s.plat.flash) ∧
    s.Completes (.functionLevelReset m 0) (fun u => u.cyc = 0 ∧ u.plat.flash = s.plat.flash) ∧
    s.Completes (.thermalShutdown true) (fun u => u.plat.thermal = true) := by
  obtain ⟨hreset, -, -, -, hshut, -⟩ := resetsAndShutdownTakeEffect s m 0 true hm (by decide)
  obtain ⟨hmodule, hfunction⟩ := hreset (.inl hon)
  refine ⟨fun pa ctx hup hpos hlen hpage hplace hfree => ?_, fun pa ctx x y hup halign hplace hfree hgood => ?_, fun b q f slot hup hslot hb hq hf => ?_,
    ?_, ?_, completes_of (hshut hon) (fun u hu => hu.1)⟩
  · exact ⟨_, exec_hostWrite_home hm hn hon hup hpos hlen hpage hplace hfree, homeBytes_homeWrite ..⟩
  · exact ⟨_, exec_hostAtomicOp_home x y hm hn hon hup (by decide) (.inr rfl) halign hplace hfree hgood, length_lt_of_append _ (outbox_hostAtomic ..)⟩
  · exact ⟨_, exec_doorbellWrite v hm hn hon hup hslot hb hq, homeNat_tailWrite hf⟩
  · obtain ⟨u, hexec, hcyc, -, -, -, -, -, -, -, -, hflash, -⟩ := hmodule
    exact ⟨u, hexec, hcyc, hflash⟩
  · obtain ⟨u, hexec, hcyc, -, -, -, -, -, -, -, -, hflash, -⟩ := hfunction
    exact ⟨u, hexec, hcyc, hflash⟩

/-- Boot and the mailboxes. -/
theorem bootFormsComplete (n : Nat) (bs : List Byte) :
    (s.plat.thermal = true → s.plat.resetReq = false → s.plat.hot = true → s.Completes .thermalShutdownExit (fun u => u.plat.hot = false)) ∧
    (3 ≤ s.plat.bootStep →
      (n ≤ 4 → s.Completes (.mailboxRecordWrite false n bs) (fun u => mget [] u.plat.flash (2 * n) = bs)) ∧
      (∀ nonce, s.Completes (.attestationQuote nonce) (fun u => s.outbox.length < u.outbox.length))) ∧
    (s.plat.recovery = false → s.plat.thermal = false →
      (∀ b, s.plat.bootStep = 2 → s.plat.minsec = [] → s.plat.choose 0 = some (n, b) → s.Completes (.bootRecordAccept 0) (fun u => u.plat.floor = Nat.max s.plat.floor n)) ∧
      (s.plat.bootStep = 3 → s.Completes .firmwareTraining (fun u => u.plat.bootStep = 4)) ∧
      (∀ b2 b3 b4 v2 v3 v4, s.plat.bootStep = 4 → s.plat.choose 2 = some (v2, b2) → s.plat.choose 3 = some (v3, b3) → s.plat.choose 4 = some (v4, b4) →
        s.Completes .bootStoreLoad (fun u => u.plat.bootStep = 5)) ∧
      (s.plat.bootStep = 5 → (∀ n, n < 160 → n ∈ s.fenced → mget 0 s.gens n ≠ 0) → s.Completes .bootScan (fun u => u.plat.bootStep = 6))) := by
  refine ⟨fun hth hreq hhot => ?_, fun hstep => ⟨fun hn => ?_, fun nonce => ?_⟩, fun hrec hon => ⟨fun b hstep hmin hchoose => ?_, fun hstep => ?_,
    fun b2 b3 b4 v2 v3 v4 hstep h2 h3 h4 => ?_, fun hstep hall => ?_⟩⟩
  · obtain ⟨-, -, -, -, -, hexit⟩ := resetsAndShutdownTakeEffect s 0 0 true (by decide) (by decide)
    exact completes_of ((hexit hth).2 hreq hhot) (fun u hu => hu.1)
  · obtain ⟨-, hmail, -⟩ := bootProceedsByAcceptedRecords s n 0 0 [] bs false 0
    exact completes_of ((hmail (.inr hstep)).1 hn) (fun u hu => hu.1)
  · obtain ⟨-, hmail, -⟩ := bootProceedsByAcceptedRecords s n 0 0 [] bs false nonce
    exact ⟨_, (hmail (.inr hstep)).2, length_lt_of_append _ rfl⟩
  · obtain ⟨hboot, -⟩ := bootProceedsByAcceptedRecords s 0 0 n b [] false 0
    exact completes_of (((hboot hrec hon).1 hstep).1 hmin hchoose) (fun u hu => hu.1)
  · obtain ⟨hboot, -⟩ := bootProceedsByAcceptedRecords s 0 0 0 [] [] false 0
    exact completes_of ((hboot hrec hon).2.1 hstep) (fun u hu => hu.1)
  · obtain ⟨hboot, -⟩ := bootProceedsByAcceptedRecords s 0 0 0 [] [] false 0
    obtain ⟨-, -, -, hload, -⟩ := hboot hrec hon
    exact completes_of (hload b2 b3 b4 v2 v3 v4 hstep h2 h3 h4) (fun u hu => hu.1)
  · obtain ⟨hboot, -⟩ := bootProceedsByAcceptedRecords s 0 0 0 [] [] false 0
    obtain ⟨-, -, -, -, hscan, -⟩ := hboot hrec hon
    exact completes_of (hscan hstep hall) (fun u hu => hu.1)

/-- The journal's other side. -/
theorem journalFormsComplete (m n c : Nat) (v : Word) (r : BitVec 1024) (e : Emission) :
    (s.inDomain = true → crcGood r = true → s.Completes (.journalRecordReceive m r) (fun u => s.outbox.length < u.outbox.length)) ∧
    (s.jrnl.lost = false → s.plat.thermal = false → s.jrnl.acked < n →
      s.Completes (.journalAckReceive ⟨s.jrnl.partner, n⟩) (fun u => u.jrnl.acked = Nat.min n s.jrnl.taken)) ∧
    (c < 128 → s.jrnl.emissions.find? (fun e => decide (e.core = c)) = some e → e.sent = false → e.waits = false → s.jrnl.retracted.contains (e.ctx, rSeq e.bits) = false →
      s.jrnl.en = true → s.jrnl.lost = false → s.plat.thermal = false → s.paKind e.pa = .home → s.extentBlocked e.pa 32 true = false →
      s.Completes (.emissionPerform c) (fun u => u.homeBytes e.pa 32 = s.emissionBytes e.bits)) ∧
    (s.jrnl.en = true → s.jrnl.lost = false → s.plat.thermal = false → s.jrnl.acked < s.jrnl.taken → s.jrnl.ackAt + 768000 ≤ s.cyc →
      s.Completes .partnerLost (fun u => u.jrnl.lost = true)) ∧
    (s.jrnl.lost = true → m < 2 ^ 16 → s.plat.thermal = false → s.Completes (.partnerReassign m) (fun u => u.jrnl.partner = m ∧ u.jrnl.lost = false)) ∧
    (s.plat.thermal = false → s.jrnl.reps = [] → s.Completes (.replicaDigestArrival m n v) (fun u => u.jrnl.peerReps = s.jrnl.peerReps ++ [(m, n, v)])) ∧
    (∀ d, s.jrnl.disputes.find? (fun d => decide (d.1 = m)) = some d →
      s.Completes (.replicaResolution m true false false false) (fun u => u.jrnl.disputes = s.jrnl.disputes.erase d)) ∧
    (s.managed = true → m < 1024 → s.Completes (.replayStoreInstall m [r]) (fun u => mfind u.jrnl.stores m = some [r])) ∧
    ((∃ x ∈ s.jrnl.ring, rCtx x.2 = m ∧ rSeq x.2 = n ∧ rKind x.2 = 0 ∧ c - 1 ≤ rStamp x.2) →
      s.Completes (.scanFailureReplay m n c none) (fun u => s.outbox.length < u.outbox.length)) ∧
    (s.firmware = true → s.jrnl.en = false → v.getLsbD 0 = false → ∀ j, s.Completes (.jctlWrite v j) (fun u => u.jrnl.jring = j)) := by
  have hpart := fun src upto m' ctx q gen jctl jring recs => journalPartnersAndDisputes s src upto m' ctx q gen r jctl jring recs none true false false false
  refine ⟨fun hin hcrc => ?_, fun hlost hon hlt => ?_, fun hc hfind hsent hwaits hret hen hlost hon hkind hfree => ?_, fun hen hlost hon hlt hlate => ?_,
    fun hlost hm hon => ?_, fun hon hreps => ?_, fun d hfind => ?_, fun hman hm => ?_, fun hx => ?_, fun hfw hen hv j => ?_⟩
  · obtain ⟨hrecv, -⟩ := hpart m 0 0 0 0 0 0 0 []
    obtain ⟨u, ack, hexec, hout, -⟩ := (hrecv hin).1 hcrc
    exact ⟨u, hexec, length_lt_of_append _ hout⟩
  · obtain ⟨-, -, -, hack, -⟩ := hpart s.jrnl.partner n 0 0 0 0 0 0 []
    exact completes_of (hack rfl hlost hon hlt) (fun u hu => hu.1)
  · obtain ⟨-, hemit, -⟩ := emissionsAndReplicaDigests s noMgt c 0 0 e s []
    exact completes_of (hemit hc hfind hsent hret hen hlost hon (fun h => absurd (hwaits.symm.trans h) Bool.false_ne_true) hkind hfree) (fun u hu => hu.1)
  · obtain ⟨-, -, -, -, hlose, -⟩ := hpart 0 0 0 0 0 0 0 0 []
    exact completes_of (hlose hen hlost hon (.inl ⟨hlt, hlate⟩)) (fun u hu => by rw [hu.1])
  · obtain ⟨-, -, -, -, -, hre, -⟩ := hpart 0 0 m 0 0 0 0 0 []
    exact completes_of (hre hlost hm hon) (fun u hu => ⟨hu.2.1, hu.1⟩)
  · obtain ⟨-, -, -, hdig⟩ := emissionsAndReplicaDigests s noMgt m n v e s []
    exact completes_of ((hdig hon).1 (by rw [hreps]; rfl)) (fun u hu => hu.1)
  · obtain ⟨-, -, -, -, -, -, -, -, -, -, hres⟩ := hpart 0 0 0 m 0 0 0 0 []
    exact completes_of (hres d hfind) (fun u hu => hu.1 (.inl rfl))
  · obtain ⟨-, -, -, -, -, -, -, hstore, -⟩ := hpart 0 0 0 m 0 0 0 0 [r]
    exact completes_of (hstore hm hman) (fun u hu => hu.1.trans (if_neg (List.cons_ne_nil r [])))
  · obtain ⟨-, -, -, -, -, -, -, -, hscan, -⟩ := hpart 0 0 0 m n c 0 0 []
    obtain ⟨u, hexec, hout, -⟩ := (hscan hx).1 rfl
    refine ⟨u, hexec, ?_⟩
    show s.outbox.length < u.outbox.length
    rw [hout]
    simp only [List.length_append, List.length_cons]
    omega
  · obtain ⟨-, -, -, -, -, -, hjctl, -⟩ := hpart 0 0 0 0 0 0 v j []
    have hoff : (v &&& 0xFFFFFFFFFF000001).getLsbD 0 = false := by rw [BitVec.getLsbD_and, hv, Bool.false_and]
    exact completes_of (hjctl hfw hen (fun h => absurd (hoff.symm.trans h) Bool.false_ne_true)) (fun u hu => by rw [hu])

end Parts

/-- Settles O60: every form's completion is a part of the statement about its effect. -/
theorem moduleFormsComplete : Obligations.ModuleFormsComplete := by
  intro s h bs m n c v r e inTurn served outboxGrows
  obtain ⟨hmember, hform, hretrain, hleave, hstart⟩ := groupsComplete s m n v
  obtain ⟨hlink, hheld, hckpt, hrestore⟩ := memoryFormsComplete s m c
  obtain ⟨hexit, hmail, hboot⟩ := bootFormsComplete s n bs
  exact ⟨fun hturn => requestsComplete s h bs hturn.1 hturn.2.1 hturn.2.2, fun q hq => answersComplete s h bs m n q hq, hmember, hform, hretrain, hleave, hstart,
    hlink, hheld, hckpt, hrestore, fun hm hn hon => hostFormsComplete s m n v bs hm hn hon, hostLinkDown_down,
    fun hm hrec hstep => ⟨_, exec_takeover hm hrec hstep, rfl⟩, hexit, hmail, hboot, journalFormsComplete s m n c v r e⟩

end Sys2Proof.Proofs
end

