-- ==== Sys2Proof/Proofs/JournalRecords.lean ====
section
/-! PROOFS. The journal's records, their fields and their engine, draws, and the instructions that stage and append (R72, R410 to R415, R418, R420, R421). -/
namespace Sys2Proof.Machine

/-! ### Fields of numbers made of parts -/

theorem fld_mod {n m lo w : Nat} (h : lo + w ≤ m) : fld (n % 2 ^ m) lo w = fld n lo w := by
  refine Nat.eq_of_testBit_eq (fun i => ?_)
  simp only [fld, Nat.testBit_mod_two_pow, Nat.testBit_div_two_pow]
  by_cases hi : i < w
  · rw [decide_eq_true (show i + lo < m by omega), Bool.true_and]
  · rw [decide_eq_false hi, Bool.false_and, Bool.false_and]

theorem fld_low {a r m lo w : Nat} (ha : a < 2 ^ m) (h : lo + w ≤ m) : fld (a + 2 ^ m * r) lo w = fld a lo w := by
  rw [← fld_mod h, Nat.add_mul_mod_self_left, Nat.mod_eq_of_lt ha]

theorem fld_high {a r m : Nat} (k w : Nat) (ha : a < 2 ^ m) : fld (a + 2 ^ m * r) (m + k) w = fld r k w := by
  rw [fld, fld, Nat.pow_add, ← Nat.div_div_eq_div_mul, Nat.add_mul_div_left _ _ (Nat.two_pow_pos m), Nat.div_eq_of_lt ha, Nat.zero_add]

theorem mod_two_pow_lt (v m : Nat) : v % 2 ^ m < 2 ^ m := Nat.mod_lt _ (Nat.two_pow_pos m)

theorem two_pow_split {a b c : Nat} (h : c = a + b) : 2 ^ c = 2 ^ a * 2 ^ b := h ▸ Nat.pow_add 2 a b

theorem add_mul_lt {a c p q : Nat} (ha : a < p) (hc : c < q) : a + p * c < p * q :=
  calc a + p * c < p + p * c := Nat.add_lt_add_right ha _
    _ = p * (c + 1) := by ring
    _ ≤ p * q := Nat.mul_le_mul_left _ hc

theorem fld_zero (v w : Nat) : fld v 0 w = v % 2 ^ w := by rw [fld, Nat.pow_zero, Nat.div_one]

/-! ### Records -/

theorem toNat_sealRec (v : Nat) : (sealRec v).toNat = v % 2 ^ 960 + 2 ^ 960 * crcOf 120 (v % 2 ^ 960) := by
  have hcrc : crcOf 120 (v % 2 ^ 960) < 2 ^ 32 := BitVec.isLt _
  have hlt := add_mul_lt (mod_two_pow_lt v 960) (lt_trans hcrc (show 2 ^ 32 < 2 ^ 64 by decide))
  rw [← two_pow_split (c := 1024) rfl] at hlt
  rw [sealRec, BitVec.toNat_ofNat, Nat.mul_comm (crcOf ..), Nat.mod_eq_of_lt hlt]

theorem rf_sealRec (v : Nat) {lo w : Nat} (h : lo + w ≤ 960) : rf (sealRec v) lo w = fld v lo w := by
  rw [rf, toNat_sealRec, fld_low (mod_two_pow_lt v 960) h, fld_mod h]

theorem crcGood_sealRec (v : Nat) : crcGood (sealRec v) = true := by
  have hcrc : crcOf 120 (v % 2 ^ 960) < 2 ^ 32 := BitVec.isLt _
  have hhigh := fld_high (r := crcOf 120 (v % 2 ^ 960)) 0 32 (mod_two_pow_lt v 960)
  rw [fld_zero, Nat.mod_eq_of_lt hcrc, Nat.add_zero] at hhigh
  rw [crcGood, rf, toNat_sealRec, hhigh, Nat.add_mul_mod_self_left, Nat.mod_mod]
  exact decide_eq_true rfl

/-- The number of an appended record but for its crc: the bits given, and what the engine adds above them. -/
def State.recordNat (s : State) (ctx v : Nat) : Nat :=
  fld v 0 832 + 2 ^ 832 * (s.sgen % 2 ^ 32 + ctx * 2 ^ 32 + fld v 874 22 * 2 ^ 42 + s.jrnl.jidx % 2 ^ 64 * 2 ^ 64)

/-- An appended record. -/
def State.recordOf (s : State) (ctx v : Nat) : BitVec 1024 := sealRec (s.recordNat ctx v)

/-- The journal engine with a record appended. -/
def Journal.appended (j : Journal) (core ctx at_ : Nat) (r : BitVec 1024) : Journal :=
  { (if rKind r = 1 then j.noteCkpt ctx (rSeq r) (rStep r) else j) with
    jidx := j.jidx + 1, ring := j.ring ++ [(j.jidx, r)], queue := j.queue ++ [{ ix := j.jidx, bits := r, core := core, at_ := at_ }] }

theorem append_eq (s : State) (core ctx v : Nat) : s.append core ctx v =
    (s.recordOf ctx v, (s.later 0).2.modJ (fun j => j.appended core ctx (s.later 0).1 (s.recordOf ctx v))) := by
  have hnat : fld v 0 832 + (s.later 0).2.sgen % 2 ^ 32 * 2 ^ 832 + ctx * 2 ^ 864 + fld v 874 22 * 2 ^ 874 + (s.later 0).2.jrnl.jidx % 2 ^ 64 * 2 ^ 896 =
      s.recordNat ctx v := by
    rw [State.recordNat, show (s.later 0).2.sgen = s.sgen from rfl, show (s.later 0).2.jrnl = s.jrnl from rfl,
      two_pow_split (c := 864) (a := 832) (b := 32) rfl, two_pow_split (c := 874) (a := 832) (b := 42) rfl,
      two_pow_split (c := 896) (a := 832) (b := 64) rfl]
    generalize (2 : Nat) ^ 832 = p
    ring
  unfold State.append
  dsimp only
  rw [hnat]
  rfl

theorem rf_recordOf (s : State) (ctx v : Nat) {lo w : Nat} (h : lo + w ≤ 832) : rf (s.recordOf ctx v) lo w = fld v lo w := by
  rw [State.recordOf, rf_sealRec _ (by omega), State.recordNat, fld_low (fld_lt v 0 832) h, fld_zero, fld_mod h]

/-- What the engine adds to a record. -/
theorem rf_recordOf_high (s : State) (ctx v : Nat) {k w : Nat} (h : k + w ≤ 128) : rf (s.recordOf ctx v) (832 + k) w =
    fld (s.sgen % 2 ^ 32 + ctx * 2 ^ 32 + fld v 874 22 * 2 ^ 42 + s.jrnl.jidx % 2 ^ 64 * 2 ^ 64) k w := by
  rw [State.recordOf, rf_sealRec _ (by omega), State.recordNat, fld_high k w (fld_lt v 0 832)]

theorem rJidx_recordOf (s : State) {ctx : Nat} (v : Nat) (hctx : ctx < 1024) : rJidx (s.recordOf ctx v) = s.jrnl.jidx % 2 ^ 64 := by
  have hv : fld v 874 22 < 2 ^ 22 := fld_lt ..
  rw [rJidx, show 896 = 832 + 64 from rfl, rf_recordOf_high s ctx v (by omega), fld]
  generalize fld v 874 22 = f at *
  generalize s.sgen = g
  omega

theorem rCtx_recordOf (s : State) {ctx : Nat} (v : Nat) (hctx : ctx < 1024) : rCtx (s.recordOf ctx v) = ctx := by
  rw [rCtx, show 864 = 832 + 32 from rfl, rf_recordOf_high s ctx v (by omega), fld]
  generalize fld v 874 22 = f
  generalize s.sgen = g
  omega

theorem rStamp_recordOf (s : State) (ctx v : Nat) : rStamp (s.recordOf ctx v) = s.sgen % 2 ^ 32 := by
  rw [rStamp, show 832 = 832 + 0 from rfl, rf_recordOf_high s ctx v (by omega), fld]
  generalize fld v 874 22 = f
  generalize s.sgen = g
  omega

theorem ring_appended (j : Journal) (core ctx at_ : Nat) (r : BitVec 1024) : (j.appended core ctx at_ r).jidx = j.jidx + 1 ∧
    (j.appended core ctx at_ r).ring = j.ring ++ [(j.jidx, r)] ∧
    (j.appended core ctx at_ r).queue = j.queue ++ [{ ix := j.jidx, bits := r, core := core, at_ := at_ }] := ⟨rfl, rfl, rfl⟩

/-! ### What a release leaves -/

/-- All that publications change of the state. -/
def State.OnlyPublishes (s t : State) : Prop := ∃ m bd bl ds ar cs im dm ob le se,
  t = { s with mem := m, bad := bd, blog := bl, dies := ds, arrays := ar, cores := cs, images := im, dom := dm, outbox := ob, linkErr := le, serial := se }

theorem State.OnlyPublishes.refl (s : State) : s.OnlyPublishes s :=
  ⟨s.mem, s.bad, s.blog, s.dies, s.arrays, s.cores, s.images, s.dom, s.outbox, s.linkErr, s.serial, rfl⟩

theorem State.OnlyPublishes.trans {s t u : State} (h : s.OnlyPublishes t) (h' : t.OnlyPublishes u) : s.OnlyPublishes u := by
  obtain ⟨_, _, _, _, _, _, _, _, _, _, _, rfl⟩ := h
  obtain ⟨m, bd, bl, ds, ar, cs, im, dm, ob, le, se, rfl⟩ := h'
  exact ⟨m, bd, bl, ds, ar, cs, im, dm, ob, le, se, rfl⟩

theorem State.Wrote.onlyPublishes {s t : State} (h : s.Wrote t) : s.OnlyPublishes t := by
  obtain ⟨m, bd, bl, ds, ar, rfl⟩ := h.state
  exact ⟨m, bd, bl, ds, ar, s.cores, s.images, s.dom, s.outbox, s.linkErr, s.serial, rfl⟩

/-- Bytes and narrow publications set, and the write observed. -/
theorem observe_onlyPublishes (s : State) (m : List Host.Cell) (bl : List PWrite) (lo n : Nat) :
    s.OnlyPublishes ({ s with mem := m, blog := bl }.observe lo n) :=
  State.OnlyPublishes.trans ⟨m, s.bad, bl, s.dies, s.arrays, s.cores, s.images, s.dom, s.outbox, s.linkErr, s.serial, rfl⟩
    (observe_wrote { s with mem := m, blog := bl } lo n).onlyPublishes

theorem promote_onlyPublishes (s : State) (e : PWrite) : s.OnlyPublishes (s.promote e) := observe_onlyPublishes s _ _ _ _

theorem domainSend_onlyPublishes (s : State) (target op aop u size scope ctx len rid pa : Nat) (val cv : Word) (data : List Byte) (core acc : Nat) :
    s.OnlyPublishes (s.domainSend target op aop u size scope ctx len rid pa val cv data core acc) := by
  obtain ⟨x, dm, h, -⟩ := domainSend_state s target op aop u size scope ctx len rid pa val cv data core acc
  rw [h]
  exact ⟨s.mem, s.bad, s.blog, s.dies, s.arrays, s.cores, s.images, dm, _, s.linkErr, s.serial, rfl⟩

theorem tagReq_onlyPublishes (s : State) (va : Word) (origin : Nat) : s.OnlyPublishes (s.tagReq va origin) := by
  unfold State.tagReq
  split
  · exact ⟨s.mem, s.bad, s.blog, s.dies, s.arrays, s.cores, s.images, _, s.outbox, s.linkErr, s.serial, rfl⟩
  · exact State.OnlyPublishes.refl s

theorem setPending_onlyPublishes (s : State) (c ctx : Nat) (e : PErr) : s.OnlyPublishes (s.setPending c ctx e) := by
  obtain ⟨cs, im, h⟩ := setPending_state s c ctx e
  rw [h]
  exact ⟨s.mem, s.bad, s.blog, s.dies, s.arrays, cs, im, s.dom, s.outbox, s.linkErr, s.serial, rfl⟩

theorem accessError_onlyPublishes (s : State) (c pa : Nat) (va : Word) (ctx cause kind origin : Nat) :
    s.OnlyPublishes (s.accessError c pa va ctx cause kind origin) := by
  have hlink : s.OnlyPublishes (s.linkMet c pa cause) := by
    unfold State.linkMet
    split
    · exact ⟨s.mem, s.bad, s.blog, s.dies, s.arrays, s.cores, s.images, s.dom, s.outbox, _, s.serial, rfl⟩
    · exact State.OnlyPublishes.refl s
  have hlog : ∀ (t : State) d e, t.OnlyPublishes (t.logError d e) := fun t d e =>
    ⟨t.mem, t.bad, t.blog, _, t.arrays, t.cores, t.images, t.dom, t.outbox, t.linkErr, t.serial, rfl⟩
  exact (hlink.trans (hlog _ _ _)).trans (setPending_onlyPublishes _ c ctx _)

theorem publish1_onlyPublishes (s : State) (scope : Nat) (w : PWrite) : s.OnlyPublishes (s.publish1 scope w) := by
  unfold State.publish1
  split
  · split
    · exact (homeWrite_wrote s w.pa [w.b]).onlyPublishes
    · exact observe_onlyPublishes s s.mem _ _ _
  · exact (domainSend_onlyPublishes ..).trans (tagReq_onlyPublishes ..)
  · exact accessError_onlyPublishes ..

theorem publishSome_onlyPublishes (s : State) (scope n : Nat) (ws : List PWrite) : s.OnlyPublishes (s.publishSome scope n ws) := by
  induction n generalizing s ws with
  | zero => rw [State.publishSome]; exact State.OnlyPublishes.refl s
  | succ n ih =>
    cases ws with
    | nil => rw [State.publishSome]; exacts [State.OnlyPublishes.refl s, by simp]
    | cons w r =>
      simp only [State.publishSome]
      split
      · exact ((domainSend_onlyPublishes ..).trans (tagReq_onlyPublishes ..)).trans (ih _ _)
      · exact (publish1_onlyPublishes s scope w).trans (ih _ _)
      · split
        · exact (accessError_onlyPublishes ..).trans (ih _ _)
        · exact (publish1_onlyPublishes s scope w).trans (ih _ _)

theorem publishAll_onlyPublishes (s : State) (scope : Nat) (ws : List PWrite) : s.OnlyPublishes (s.publishAll scope ws) := by
  unfold State.publishAll
  split
  · exact State.OnlyPublishes.refl s
  · refine (publishSome_onlyPublishes s scope ws.length ws).trans ?_
    generalize s.publishSome scope ws.length ws = t
    exact ⟨t.mem, t.bad, t.blog, t.dies, t.arrays, t.cores, t.images, t.dom, t.outbox, t.linkErr, t.serial + 1, rfl⟩

theorem foldl_promote_onlyPublishes (l : List PWrite) (s : State) : s.OnlyPublishes (l.foldl (fun s e => s.promote e) s) := by
  induction l generalizing s with
  | nil => exact State.OnlyPublishes.refl s
  | cons e r ih => exact (promote_onlyPublishes s e).trans (ih _)

theorem widen_onlyPublishes (s : State) (c scope : Nat) : s.OnlyPublishes (s.widen c scope) := by
  unfold State.widen
  split
  · exact foldl_promote_onlyPublishes _ s
  · exact ⟨s.mem, s.bad, _, s.dies, s.arrays, s.cores, s.images, s.dom, s.outbox, s.linkErr, s.serial, rfl⟩

theorem release_onlyPublishes (s : State) (c scope : Nat) : s.OnlyPublishes (s.release c scope) := by
  refine ((widen_onlyPublishes s c scope).trans (publishAll_onlyPublishes _ scope (s.core c).ms.pend)).trans ?_
  rw [State.release]
  generalize (s.widen c scope).publishAll scope (s.core c).ms.pend = t
  exact ⟨t.mem, t.bad, t.blog, t.dies, t.arrays, _, t.images, t.dom, t.outbox, t.linkErr, t.serial, rfl⟩

theorem State.OnlyPublishes.jrnl {s t : State} (h : s.OnlyPublishes t) : t.jrnl = s.jrnl := by
  obtain ⟨_, _, _, _, _, _, _, _, _, _, _, rfl⟩ := h
  rfl

/-! ### The engine takes a record -/

/-- A record written into the ring's memory, and gone from the queue. -/
def State.ringWrite (s : State) (pa : Nat) (q : JTake) (qs : List JTake) : State :=
  (s.homeWrite pa (leBytes 128 q.bits.toNat)).modJ (fun j => { j with queue := qs, ackAt := if q.ix ≤ j.acked then s.cyc else j.ackAt })

theorem mem_modJ (s : State) (f : Journal → Journal) : (s.modJ f).mem = s.mem := rfl

theorem ringWrite_spec (s : State) (pa : Nat) (q : JTake) (qs : List JTake) :
    (s.ringWrite pa q qs).homeBytes pa 128 = leBytes 128 q.bits.toNat ∧ (∀ a, a < pa ∨ pa + 128 ≤ a → (s.ringWrite pa q qs).homeByte a = s.homeByte a) ∧
      (s.ringWrite pa q qs).jrnl.queue = qs ∧ (s.ringWrite pa q qs).jrnl.ring = s.jrnl.ring ∧ (s.ringWrite pa q qs).outbox = s.outbox := by
  have hview : (s.ringWrite pa q qs).homeView = (s.homeWrite pa (leBytes 128 q.bits.toNat)).homeView := rfl
  have hbytes := homeBytes_homeWrite s pa (leBytes 128 q.bits.toNat)
  rw [length_leBytes] at hbytes
  refine ⟨(homeBytes_congr hview pa 128).trans hbytes, fun a ha => (homeByte_congr hview a).trans ?_, rfl, ?_, ?_⟩
  · rw [State.homeByte_homeWrite, if_neg (by rw [length_leBytes]; omega)]
  · rw [State.ringWrite, jrnl_modJ]
    show (s.homeWrite pa (leBytes 128 q.bits.toNat)).jrnl.ring = s.jrnl.ring
    rw [jrnl_homeWrite]
  · rw [State.ringWrite, outbox_modJ, outbox_homeWrite]

theorem takeRecord_spec {s : State} {q : JTake} {qs : List JTake} (hq : s.jrnl.queue = q :: qs) (hen : s.jrnl.en = true) (hon : s.plat.thermal = false)
    (hat : q.at_ ≤ s.cyc) (hfree : s.extentBlocked (s.jrnl.jring.toNat + 128 * (q.ix % 2 ^ s.jrnl.lsize)) 128 true = false) :
    let pa := s.jrnl.jring.toNat + 128 * (q.ix % 2 ^ s.jrnl.lsize)
    ∃ t, s.takeRecord = some t ∧ t.homeBytes pa 128 = leBytes 128 q.bits.toNat ∧ (∀ a, a < pa ∨ pa + 128 ≤ a → t.homeByte a = s.homeByte a) ∧
      t.jrnl.queue = qs ∧ t.jrnl.ring = s.jrnl.ring ∧
      (s.jrnl.lost = false → t.outbox = s.outbox ++ [.journal s.jrnl.partner q.bits]) ∧ (s.jrnl.lost = true → t.outbox = s.outbox) := by
  intro pa
  obtain ⟨h1, h2, h3, h4, h5⟩ := ringWrite_spec s pa q qs
  have htake : s.takeRecord = some (if s.jrnl.lost then s.ringWrite pa q qs else (s.ringWrite pa q qs).send (.journal s.jrnl.partner q.bits)) := by
    rw [State.takeRecord, hq]
    dsimp only
    rw [if_neg]
    · rfl
    rintro (h | h | h | h)
    · exact Bool.false_ne_true (h.symm.trans hen)
    · exact Bool.false_ne_true (hon.symm.trans h)
    · exact absurd h (Nat.not_lt.mpr hat)
    · exact Bool.false_ne_true (hfree.symm.trans h)
  cases hlost : s.jrnl.lost with
  | true =>
    rw [hlost, if_pos rfl] at htake
    exact ⟨_, htake, h1, h2, h3, h4, fun h => absurd h Bool.false_ne_true.symm, fun _ => h5⟩
  | false =>
    rw [hlost, if_neg Bool.false_ne_true] at htake
    have hview := homeView_send (s.ringWrite pa q qs) (.journal s.jrnl.partner q.bits)
    have hout : ((s.ringWrite pa q qs).send (.journal s.jrnl.partner q.bits)).outbox = (s.ringWrite pa q qs).outbox ++ [.journal s.jrnl.partner q.bits] := rfl
    exact ⟨_, htake, (homeBytes_congr hview pa 128).trans h1, fun a ha => (homeByte_congr hview a).trans (h2 a ha), h3, h4,
      fun _ => hout.trans (by rw [h5]), fun h => absurd h Bool.false_ne_true⟩

/-! ### Packets -/

theorem agentFrame_jrnl : AgentFrame State.jrnl :=
  ⟨fun _ _ _ => rfl, fun _ _ _ => rfl, fun _ _ => rfl, fun _ _ => rfl, fun s => fun _ _ _ _ _ _ _ _ _ _ _ _ _ _ _ =>
    (domainSend_onlyPublishes s _ _ _ _ _ _ _ _ _ _ _ _ _ _ _).jrnl⟩

theorem jrnl_setWork (s : State) (w : Nat) (x : Work) : (s.setWork w x).jrnl = s.jrnl := rfl

theorem jrnl_modStg (s : State) (f : Staging → Staging) : (s.modStg f).jrnl = s.jrnl := rfl

theorem jrnl_unuse (s : State) (ctx : Nat) : (s.unuse ctx).jrnl = s.jrnl := rfl

/-- The state in which a packet has appended its record. -/
def State.packetAppended (s : State) (w : Nat) (x : Work) (bs : List Byte) : State :=
  ((s.forget (s.workAgent x).id).append 128 x.ctx (leNat bs)).2.setWork w
    { x with pos := [1, rJidx ((s.forget (s.workAgent x).id).append 128 x.ctx (leNat bs)).1], wait := .go }

theorem packetAppended_spec (s : State) (w : Nat) {x : Work} (bs : List Byte) (hctx : x.ctx < 1024) (hwait : x.wait = .go) :
    mfind (s.packetAppended w x bs).works w = some { x with pos := [1, s.jrnl.jidx % 2 ^ 64] } ∧
      (s.packetAppended w x bs).jrnl.jidx = s.jrnl.jidx + 1 := by
  have hj : (s.forget (s.workAgent x).id).jrnl = s.jrnl := rfl
  have hx : ∀ n, ({ x with pos := [1, n], wait := .go } : Work) = { x with pos := [1, n] } := fun n => by rw [← hwait]
  rw [State.packetAppended, append_eq, rJidx_recordOf _ _ hctx, hj, hx]
  refine ⟨(mfind_mset ..).trans (if_pos rfl), ?_⟩
  dsimp only
  rw [jrnl_setWork, jrnl_modJ, (ring_appended ..).1]
  rfl

/-! ### Draws and staging -/

theorem modStg_me (s : State) (f : Staging → Staging) : (s.modStg f).me = { s.me with im := { s.me.im with stg := f s.me.im.stg } } := State.me_modIm ..

/-- A group of a step that is open and loaded. -/
theorem inStep_loaded {s : State} (k : Staging → Act) (hopen : s.me.im.stg.opened = true) (hload : s.me.im.stg.loading s.cyc = false) :
    s.inStep k = k s.me.im.stg := by
  rw [State.inStep, if_neg (by rw [hopen]; decide), if_neg (by rw [hload]; exact Bool.false_ne_true)]

theorem inStep_closed {s : State} (k : Staging → Act) (hopen : s.me.im.stg.opened = false) : s.inStep k = s.opTrap 0xB := if_pos hopen

theorem inStep_loading {s : State} (k : Staging → Act) (hopen : s.me.im.stg.opened = true) (hload : s.me.im.stg.loading s.cyc = true) :
    s.inStep k = .wait s 0xA 0 0 := by
  rw [State.inStep, if_neg (by rw [hopen]; decide), if_pos hload]

/-- A group that raises a cause with no status. -/
theorem exec_of_trap {s : State} {i : Instr} {codes : List (BitVec 5)} {act : State → Act} {info : TrapInfo} (hexec : exec i s = issue s codes act)
    (hready : s.Ready codes) (hact : act s = .trap info) : exec i s = .next (s.trapHere info) := by
  rw [hexec, issue_of_ready act hready, hact, settleAct_trap]

/-- A trap of the journal's instructions. -/
def journalTrap (cause : Nat) : TrapInfo := { cause := cause, status := 0, addr := 0, cls := 0, engine := 0, uidx := 0 }

/-- The staging record of a step that is opened in replay: it is loaded later. -/
def State.reopened (s : State) (g : Staging) (q step : Nat) : Staging :=
  match s.jrnl.stored s.me.ctx q step with
  | some r => { g with replay := true, jrec := r, loadAt := (s.later 1).1 }
  | none => { g with loadAt := (s.later 1).1 }

theorem reopened_spec (s : State) (g : Staging) (q step : Nat) (hg : g.replay = false) : s.cyc + 1 ≤ (s.reopened g q step).loadAt ∧
    (s.reopened g q step).replay = (s.jrnl.stored s.me.ctx q step).isSome ∧
    ∀ r, s.jrnl.stored s.me.ctx q step = some r → (s.reopened g q step).jrec = r := by
  unfold State.reopened
  cases s.jrnl.stored s.me.ctx q step with
  | none => exact ⟨later_le s 1, hg, fun r h => nomatch h⟩
  | some r => exact ⟨later_le s 1, rfl, fun r' h => Option.some.inj h⟩

/-- A step closed, with the record that it has appended. -/
def State.closeStaged (s : State) (digest : Word) (r : BitVec 1024) : State :=
  s.modStg (fun g => { g with digest := digest, opened := false, unemitted := true, lastRec := r, lastRep := false })

theorem closeStaged_spec (s : State) (digest : Word) (r : BitVec 1024) : (s.closeStaged digest r).jrnl = s.jrnl ∧
    (s.closeStaged digest r).me.im.stg.opened = false ∧ (s.closeStaged digest r).me.im.stg.unemitted = true ∧ (s.closeStaged digest r).me.im.stg.lastRec = r := by
  rw [State.closeStaged, modStg_me]
  exact ⟨rfl, rfl, rfl, rfl⟩

/-- The state in which a step's record has been appended. -/
def State.stepAppended (s : State) (digest : Word) : State :=
  let x := s.append s.cur.core s.me.ctx ({ s.me.im.stg with digest := digest }).bits
  x.2.closeStaged digest x.1

/-! ### Checkpoints -/

/-- Where a checkpoint record has been appended. -/
def State.ckptAppended (s : State) (v : Nat) : State :=
  let l := (s.release s.cur.core 4).later 0
  ((l.2.modMs s.cur.core (fun m => { m with hold := some (.boundary (some 4) none l.1) })).append s.cur.core s.me.ctx v).2.unuse s.me.ctx

theorem ckptAppended_spec (s : State) (v : Nat) : ∃ at_, s.cyc ≤ at_ ∧ (s.ckptAppended v).me.ms.hold = some (.boundary (some 4) none at_) ∧
    ∃ r, (s.ckptAppended v).jrnl.ring = s.jrnl.ring ++ [(s.jrnl.jidx, r)] ∧ ∀ lo w, lo + w ≤ 832 → rf r lo w = fld v lo w := by
  let l := (s.release s.cur.core 4).later 0
  let s1 := l.2.modMs s.cur.core (fun m => { m with hold := some (.boundary (some 4) none l.1) })
  have hj : s1.jrnl = s.jrnl := (release_onlyPublishes s s.cur.core 4).jrnl
  have hcur : s1.cur = s.cur := cur_release s s.cur.core 4
  have happ := append_eq s1 s.cur.core s.me.ctx v
  have ht : s.ckptAppended v = ((s1.later 0).2.modJ (fun j => j.appended s.cur.core s.me.ctx (s1.later 0).1 (s1.recordOf s.me.ctx v))).unuse s.me.ctx := by
    rw [State.ckptAppended]
    exact congrArg (fun p => State.unuse (Prod.snd p) s.me.ctx) happ
  refine ⟨l.1, ?_, ?_, s1.recordOf s.me.ctx v, ?_, fun lo w h => rf_recordOf s1 s.me.ctx v h⟩
  · exact (cyc_release s s.cur.core 4).symm ▸ later_le _ 0
  · rw [ht]
    show (s1.core s1.cur.core).ms.hold = _
    rw [hcur, State.core_modMs, if_pos rfl]
  · rw [ht]
    rw [jrnl_unuse, jrnl_modJ, show (s1.later 0).2.jrnl = s1.jrnl from rfl, hj]
    exact (ring_appended ..).2.1

end Sys2Proof.Machine

namespace Sys2Proof.Proofs
open Sys2Proof.Machine

theorem recordsAreAppended : Claims.RecordsAreAppended := by
  intro s core ctx v w x
  refine ⟨fun hctx => ?_, fun q qs hq hen hon hat => ?_, fun hwork hkind hctx => ⟨fun bs s1 hpos hfull hread => ?_, fun k hpos hk => ?_⟩⟩
  · intro j r t
    have happ := append_eq s core ctx v
    have hr : r = s.recordOf ctx v := by rw [show r = (s.append core ctx v).1 from rfl, happ]
    have ht : t = (s.later 0).2.modJ (fun j => j.appended core ctx (s.later 0).1 (s.recordOf ctx v)) := by
      rw [show t = (s.append core ctx v).2 from rfl, happ]
    have hj : t.jrnl = s.jrnl.appended core ctx (s.later 0).1 (s.recordOf ctx v) := by
      rw [ht, jrnl_modJ, show (s.later 0).2.jrnl = s.jrnl from rfl]
    obtain ⟨hidx, hring, hqueue⟩ := ring_appended s.jrnl core ctx (s.later 0).1 (s.recordOf ctx v)
    rw [hr, hj]
    refine ⟨rJidx_recordOf s v hctx, rStamp_recordOf s ctx v, rCtx_recordOf s v hctx, crcGood_sealRec _, ?_, hidx, hring, ⟨_, hqueue, rfl, rfl, rfl, later_le s 0⟩, ?_, ?_⟩
    · exact (rf_recordOf s ctx v (Nat.le_refl _)).trans (fld_zero ..)
    · rw [ht, mem_modJ]; rfl
    · rw [ht, outbox_modJ]; rfl
  · intro j pa hfree
    exact takeRecord_spec hq hen hon hat hfree
  · have hready := workReady_of_working hwork
    obtain ⟨hfind, -, -, -, hwait, -⟩ := hwork
    have hj : s1.jrnl = s.jrnl := keeps_of_ok (agentFrame_jrnl.pread s x _ 128) hread
    obtain ⟨hworks, hidx⟩ := packetAppended_spec s1 w bs hctx hwait
    have happ : s.packetAppend w x = .ok (s1.packetAppended w x bs) s1 := by
      rw [State.packetAppend, hread]
      rfl
    refine ⟨s1.packetAppended w x bs, ?_, by rw [hworks, hj], by rw [hidx, hj]⟩
    show execJournalAppendPacket w s = _
    rw [execJournalAppendPacket, hfind]
    dsimp only
    rw [hready, if_neg (by simp [hkind]), if_pos (by rw [hpos]; rfl), hfull, if_neg Bool.false_ne_true, resume_go hwait, happ]
    rfl
  · have hready := workReady_of_working hwork
    have hfind := hwork.1
    refine workEnds_of_done (t := s) (x' := x) (e := Effect.none) ?_ rfl rfl rfl rfl
    show execJournalAppendPacket w s = _
    rw [execJournalAppendPacket, hfind]
    dsimp only
    rw [hready, if_neg (by simp [hkind]), if_neg (by rw [hpos]; simp), if_pos (by rw [hpos]; exact hk)]
    rfl

theorem journalInstructionsStageAndDraw : Claims.JournalInstructionsStageAndDraw := by
  intro s f g stage raises stuck a b drawn counted
  refine ⟨fun hready => ?_, fun hready => ?_, fun hready => ?_, fun hready => ?_, fun hready => ?_⟩
  · have hexec : exec (.gdraw f) s = issue s _ (actGdraw f) := show execGdraw f s = _ from rfl
    refine ⟨fun ho => State.issues_of_done hexec hready (if_pos ho), fun ho hl => State.waits_of_wait (lacks := 0) hexec hready ?_,
      fun ho hl hr ha hb => State.issues_of_done hexec hready ?_,
      fun ho hl hr hne => ⟨journalTrap 0xB2, rfl, rfl, exec_of_trap hexec hready ?_⟩, fun ho hl hr => ?_⟩
    · unfold actGdraw
      dsimp only
      rw [if_neg (by rw [show s.me.im.stg.opened = true from ho]; decide), if_pos hl]
    · unfold actGdraw
      dsimp only
      rw [if_neg (by rw [show s.me.im.stg.opened = true from ho]; decide), show s.me.im.stg.loading s.cyc = false from hl, if_neg Bool.false_ne_true,
        show s.me.im.stg.replay = false from hr, if_neg Bool.false_ne_true, if_pos ⟨ha, hb⟩]
      rfl
    · unfold actGdraw
      dsimp only
      rw [if_neg (by rw [show s.me.im.stg.opened = true from ho]; decide), show s.me.im.stg.loading s.cyc = false from hl, if_neg Bool.false_ne_true,
        show s.me.im.stg.replay = false from hr, if_neg Bool.false_ne_true, if_neg hne]
      rfl
    · intro ctr
      refine State.issues_of_done hexec hready ?_
      unfold actGdraw
      dsimp only
      rw [if_neg (by rw [show s.me.im.stg.opened = true from ho]; decide), show s.me.im.stg.loading s.cyc = false from hl, if_neg Bool.false_ne_true,
        show s.me.im.stg.replay = true from hr, if_pos rfl]
      rfl
  · have hexec : exec (.jrnlSeq f) s = issue s _ (actJrnlSeq f) := show execJrnlSeq f s = _ from rfl
    refine ⟨fun hbig => State.traps_of_opTrap hexec hready (if_pos hbig), ?_⟩
    intro ha hb fresh
    have hin : ¬(2 ^ 32 ≤ (s.rd f.a).toNat ∨ 2 ^ 32 ≤ (s.rd f.b).toNat) := by
      rw [not_or]
      exact ⟨Nat.not_le.mpr ha, Nat.not_le.mpr hb⟩
    refine ⟨fun hr => State.issues_of_done hexec hready ?_, fun hr ht => State.waits_of_wait (lacks := 0) hexec hready ?_, fun hr ht => ?_⟩
    · unfold actJrnlSeq
      dsimp only
      rw [if_neg hin, hr, if_neg Bool.false_ne_true]
      rfl
    · unfold actJrnlSeq
      dsimp only
      rw [if_neg hin, if_pos hr, if_pos ht]
    · refine ⟨(s.later 1).2.modStg (fun _ => s.reopened fresh a.toNat b.toNat), State.issues_of_done hexec hready ?_, ?_⟩
      · unfold actJrnlSeq
        dsimp only
        rw [if_neg hin, if_pos hr, ht, if_neg Bool.false_ne_true]
        rfl
      · rw [modStg_me]
        exact reopened_spec s fresh _ _ rfl
  · have hexec : exec (.jrnlGen f) s = issue s _ _ := show execJrnlGen f s = _ from rfl
    exact ⟨fun ho => State.traps_of_opTrap hexec hready (inStep_closed _ ho), fun ho hl => State.waits_of_wait (lacks := 0) hexec hready (inStep_loading _ ho hl),
      fun ho hl => State.issues_of_done hexec hready (inStep_loaded _ ho hl)⟩
  · intro n
    have htok : exec (.jrnlTok f) s = issue s _ _ := show execJrnlTok f s = _ from rfl
    have hrt : exec (.jrnlRt f) s = issue s _ _ := show execJrnlRt f s = _ from rfl
    have happ : exec (.jrnlApp f) s = issue s _ _ := show execJrnlApp f s = _ from rfl
    refine ⟨fun ho => ⟨State.traps_of_opTrap htok hready (inStep_closed _ ho), State.traps_of_opTrap hrt hready ?_,
      State.traps_of_opTrap happ hready (inStep_closed _ ho)⟩, fun hn => State.traps_of_opTrap hrt hready (if_pos hn),
      fun ho hl => ⟨State.waits_of_wait (lacks := 0) htok hready (inStep_loading _ ho hl), State.waits_of_wait (lacks := 0) happ hready (inStep_loading _ ho hl),
        fun hn => State.waits_of_wait (lacks := 0) hrt hready ((if_neg (Nat.not_le.mpr hn)).trans (inStep_loading _ ho hl))⟩,
      fun ho hl hr => ⟨State.issues_of_done htok hready ((inStep_loaded _ ho hl).trans ?_), fun hn => State.issues_of_done hrt hready
        ((if_neg (Nat.not_le.mpr hn)).trans ((inStep_loaded _ ho hl).trans ?_)), fun hstuck => State.waits_of_wait (lacks := 0) happ hready
        ((inStep_loaded _ ho hl).trans ?_), fun hgo => ?_⟩,
      fun ho hl hr => ⟨State.issues_of_done htok hready ((inStep_loaded _ ho hl).trans ?_), fun hn => State.issues_of_done hrt hready
        ((if_neg (Nat.not_le.mpr hn)).trans ((inStep_loaded _ ho hl).trans ?_)),
        fun hne => ⟨journalTrap 0xB0, rfl, rfl, exec_of_trap happ hready ((inStep_loaded _ ho hl).trans ?_)⟩,
        fun hdig hnd => State.issues_of_done happ hready ((inStep_loaded _ ho hl).trans ?_)⟩⟩
    · dsimp only
      split
      · rfl
      · exact inStep_closed _ ho
    · exact congrArg Act.done (if_neg (by rw [show s.me.im.stg.replay = false from hr]; exact Bool.false_ne_true))
    · exact congrArg Act.done (if_neg (by rw [show s.me.im.stg.replay = false from hr]; exact Bool.false_ne_true))
    · dsimp only
      rw [if_neg (by rw [show s.me.im.stg.replay = false from hr]; exact Bool.false_ne_true), if_pos hstuck]
    · refine ⟨s.stepAppended a, State.issues_of_done happ hready ((inStep_loaded _ ho hl).trans ?_), closeStaged_spec ..⟩
      dsimp only
      rw [if_neg (by rw [show s.me.im.stg.replay = false from hr]; exact Bool.false_ne_true), if_neg hgo]
      rfl
    · exact congrArg Act.done (if_pos hr)
    · exact congrArg Act.done (if_pos hr)
    · dsimp only
      rw [if_pos (show s.me.im.stg.replay = true from hr), if_pos hne]
      rfl
    · dsimp only
      rw [if_pos (show s.me.im.stg.replay = true from hr), if_neg (not_or.mpr ⟨not_not_intro hdig, not_not_intro hnd⟩)]
      rfl
  · intro fresh
    have hexec : exec (.jrnlCkpt f) s = issue s _ (actJrnlCkpt f) := show execJrnlCkpt f s = _ from rfl
    have hfresh : fresh ↔ ¬(2 ^ 32 ≤ (s.rd f.a).toNat ∨ 2 ^ 32 ≤ (s.rd f.b).toNat ∨ (match s.jrnl.lastCkpt s.me.ctx (s.rd f.a).toNat with
        | some x => decide ((s.rd f.b).toNat ≤ x)
        | none => false) = true) := by
      rw [not_or, not_or, Nat.not_le, Nat.not_le]
      refine and_congr_right (fun _ => and_congr_right (fun _ => ?_))
      cases s.jrnl.lastCkpt s.me.ctx (s.rd f.a).toNat with
      | none => simp
      | some x => simp [b]
    refine ⟨fun ht => State.waits_of_wait (lacks := 0) hexec hready (if_pos ht), fun ht hn => State.traps_of_opTrap hexec hready ?_,
      fun ht hf hstuck => State.waits_of_wait (lacks := 0) hexec hready ?_, fun ht hf hgo hord => ?_⟩
    · unfold actJrnlCkpt
      dsimp only
      rw [ht, if_neg Bool.false_ne_true]
      exact if_pos (not_not.mp (fun h => hn (hfresh.mpr h)))
    · unfold actJrnlCkpt
      dsimp only
      rw [ht, if_neg Bool.false_ne_true]
      refine (if_neg (hfresh.mp hf)).trans (if_pos ?_)
      rcases hstuck with (h | h) | h
      · exact .inl h
      · exact .inr (.inl h)
      · exact .inr (.inr h)
    · obtain ⟨at_, hat, hhold, r, hring, hrf⟩ := ckptAppended_spec s (a.toNat + b.toNat * 2 ^ 32 + 2 ^ 104 + (s.rd f.c).toNat * 2 ^ 128)
      have hc := (s.rd f.c).isLt
      have hin := hfresh.mp hf
      obtain ⟨ha, hb, -⟩ := hf
      refine ⟨s.ckptAppended (a.toNat + b.toNat * 2 ^ 32 + 2 ^ 104 + (s.rd f.c).toNat * 2 ^ 128), at_, State.issues_of_done hexec hready ?_, hat, hhold,
        r, hring, ?_, ?_, ?_, ?_⟩
      · unfold actJrnlCkpt
        dsimp only
        rw [ht, if_neg Bool.false_ne_true]
        refine (if_neg hin).trans ((if_neg ?_).trans rfl)
        rintro (h | h | h)
        · exact hgo (.inl h)
        · exact hgo (.inr h)
        · exact Bool.false_ne_true (h.symm.trans hord)
      · rw [rKind, hrf _ _ (by omega), fld]
        omega
      · rw [rSeq, hrf _ _ (by omega), fld]
        omega
      · rw [rStep, hrf _ _ (by omega), fld]
        omega
      · rw [rKey, hrf _ _ (by omega), fld]
        omega

/-- Settles O46: a record is the bits given, with what the engine adds above them and a crc over all of it. -/
theorem recordsAreStagedAndAppended : Obligations.RecordsAreStagedAndAppended := ⟨recordsAreAppended, journalInstructionsStageAndDraw⟩

end Sys2Proof.Proofs
end


-- ==== Sys2Proof/Proofs/GlobalAccesses.lean ====
section
/-! PROOFS. Global loads and stores, and what returns from memory (R230, R231, R234, R236, R321, R345, R346). -/
namespace Sys2Proof.Machine

/-! ### The bytes of a load -/

/-- What a load's reads of other modules leave: homes, the cycle, and of their core all but the bytes it has of other modules. -/
structure State.Fetches (s : State) (c : Nat) (t : State) : Prop where
  view : t.homeView = s.homeView
  cyc : t.cyc = s.cyc
  core : ∃ r l, t.core c = { s.core c with ms := { (s.core c).ms with remote := r, lines := l } }

theorem State.Fetches.refl (s : State) (c : Nat) : s.Fetches c s := ⟨rfl, rfl, _, _, rfl⟩

theorem State.Fetches.trans {s t u : State} {c : Nat} (h : s.Fetches c t) (h' : t.Fetches c u) : s.Fetches c u := by
  obtain ⟨r, l, hcore⟩ := h.core
  obtain ⟨r', l', hcore'⟩ := h'.core
  exact ⟨h'.view.trans h.view, h'.cyc.trans h.cyc, r', l', by rw [hcore', hcore]⟩

/-- A change of the bytes of other modules that a core has. -/
theorem State.Fetches.modMs {s t : State} {c : Nat} (hview : t.homeView = s.homeView) (hcyc : t.cyc = s.cyc) (hcore : t.core c = s.core c)
    {f : MemSide → MemSide} (hf : ∀ m, f m = { m with remote := (f m).remote, lines := (f m).lines }) : s.Fetches c (t.modMs c f) :=
  ⟨hview, hcyc, (f (s.core c).ms).remote, (f (s.core c).ms).lines, by rw [State.core_modMs, if_pos rfl, hcore, ← hf]⟩

theorem l2Load_fetches (s : State) (c line : Nat) : s.Fetches c (s.l2Load c line) := by
  unfold State.l2Load
  generalize leNat ((upTo line 128).map (fun x => mget 0 s.dom.l2 x)) = raw
  generalize 128 = n
  exact .modMs (s := s) (t := { s with draws := s.draws + 1 }) (f := fun m => m.holdBytes line n raw) rfl rfl rfl (fun _ => rfl)

theorem lineRead_fetches (s : State) (c id m line off : Nat) : s.Fetches c (s.lineRead c id m line off).2 := by
  unfold State.lineRead
  split
  · exact .refl s c
  · have hview := homeView_domainSend s m 1 0 0 0 0 (s.core c).ctx 128 0 (off / 128 * 128) 0 0 [] c id
    obtain ⟨x, dm, h, -⟩ := domainSend_state s m 1 0 0 0 0 (s.core c).ctx 128 0 (off / 128 * 128) 0 0 [] c id
    rw [h] at hview
    dsimp only
    rw [h]
    exact .modMs (s := s) (f := fun ms => { ms with lines := ms.lines ++ [(line, m, mget 1 s.dom.nextPseq m)] }) hview rfl rfl (fun _ => rfl)

theorem readPieces_fetches (s : State) (c id off : Nat) (ps : List KPiece) : s.Fetches c (s.readPieces c id off ps).2.2.2 := by
  induction ps generalizing s off with
  | nil => exact .refl s c
  | cons p r ih =>
    rw [State.readPieces]
    refine State.Fetches.trans ?_ (ih _ _)
    split
    · split
      · exact .refl s c
      · exact .refl s c
    · exact .refl s c
    · dsimp only
      split
      · exact .refl s c
      · split
        · exact l2Load_fetches ..
        · exact lineRead_fetches ..

theorem leNat_append (a b : List Byte) : leNat (a ++ b) = leNat a + leNat b * 256 ^ a.length := by
  induction a with
  | nil => simp [leNat]
  | cons x a ih => simp only [List.cons_append, leNat, ih, List.length_cons, pow_succ]; ring

/-- Pieces that stand at a home of this module, without error, are read at once. -/
theorem readPieces_home {s : State} {c : Nat} {ps : List KPiece} (h : ∀ p ∈ ps, s.paKind p.pa = .home ∧ s.homeBad c 0 p.pa p.n = false) (id off : Nat) :
    s.readPieces c id off ps = (leNat ((ps.flatMap (fun p => upTo p.pa p.n)).map (s.core c).ms.loadByte), [], none, s) := by
  induction ps generalizing off with
  | nil => rfl
  | cons p r ih =>
    obtain ⟨hkind, hbad⟩ := h p List.mem_cons_self
    rw [State.readPieces]
    simp only [hkind, hbad, Bool.and_false, Bool.false_eq_true, if_false, ih (fun q hq => h q (List.mem_cons_of_mem p hq))]
    simp [leNat_append, length_upTo]

/-- A byte with an uncorrectable error at a home refuses the load with 0x83. -/
theorem readPieces_bad {s : State} {c : Nat} {ps : List KPiece} (h : ∀ p ∈ ps, s.paKind p.pa = .home ∧ (s.core c).stashHit p = false)
    (hbad : ∃ p ∈ ps, s.homeBad c 0 p.pa p.n = true) (id off : Nat) : (s.readPieces c id off ps).2.2.1 = some 0x83 := by
  induction ps generalizing off with
  | nil => obtain ⟨p, hp, -⟩ := hbad; cases hp
  | cons p r ih =>
    obtain ⟨hkind, hhit⟩ := h p List.mem_cons_self
    rw [State.readPieces]
    cases hb : s.homeBad c 0 p.pa p.n with
    | true => simp only [hkind, hhit, Bool.not_false, Bool.and_self, if_true]
    | false =>
      obtain ⟨q, hq, hqb⟩ := hbad
      obtain rfl | hq := List.mem_cons.1 hq
      · simp [hb] at hqb
      · simp only [hkind, Bool.and_false, Bool.false_eq_true, if_false]
        exact ih (fun q hq => h q (List.mem_cons_of_mem p hq)) ⟨q, hq, hqb⟩ _

/-- Where no byte holds an error the cause of a load is that of one of its pieces that are refused. -/
theorem readPieces_refused {s : State} {c : Nat} {ps : List KPiece} (h : ∀ p ∈ ps, s.homeBad c 0 p.pa p.n = false)
    (href : ∃ p ∈ ps, ∃ x, s.paKind p.pa = .refused x) (id off : Nat) :
    ∃ p ∈ ps, ∃ x, s.paKind p.pa = .refused x ∧ (s.readPieces c id off ps).2.2.1 = some x := by
  induction ps generalizing s off with
  | nil => obtain ⟨p, hp, -⟩ := href; cases hp
  | cons p r ih =>
    have hrest (t : State) (hfetch : s.Fetches c t) (hp : ∀ x, s.paKind p.pa ≠ .refused x) :
        ∃ q ∈ p :: r, ∃ x, s.paKind q.pa = .refused x ∧ (t.readPieces c id (off + p.n) r).2.2.1 = some x := by
      have hkind (q : KPiece) : t.paKind q.pa = s.paKind q.pa := paKind_congr hfetch.view _
      obtain ⟨q, hq, x, hx⟩ := href
      obtain rfl | hq := List.mem_cons.1 hq
      · exact absurd hx (hp x)
      · obtain ⟨q', hq', x', hx', herr⟩ := ih (s := t)
          (fun q hq => (homeBad_congr hfetch.view ..).trans (h q (List.mem_cons_of_mem p hq))) ⟨q, hq, x, (hkind q).trans hx⟩ (off + p.n)
        exact ⟨q', List.mem_cons_of_mem p hq', x', (hkind q').symm.trans hx', herr⟩
    rw [State.readPieces]
    cases hkind : s.paKind p.pa with
    | refused x => exact ⟨p, List.mem_cons_self, x, hkind, rfl⟩
    | home =>
      simp only [h p List.mem_cons_self, Bool.and_false, Bool.false_eq_true, if_false]
      exact hrest s (.refl s c) (fun x hx => by rw [hkind] at hx; cases hx)
    | window m a =>
      have hp (x : Nat) (hx : s.paKind p.pa = .refused x) : False := by rw [hkind] at hx; cases hx
      by_cases hmiss : ((upTo p.pa p.n).filter (fun x => (mfind (s.core c).ms.remote x).isNone)).isEmpty = true
      · simp only [hmiss, if_true]
        exact hrest s (.refl s c) hp
      · by_cases hl2 : (p.cached && !(s.core c).ms.lines.any (fun x => decide (x.1 = lineOf p.pa)) && s.l2Serves (lineOf p.pa)) = true
        · simp only [hmiss, hl2, Bool.false_eq_true, if_false, if_true]
          exact hrest _ (l2Load_fetches ..) hp
        · simp only [hmiss, hl2, Bool.false_eq_true, if_false]
          exact hrest _ (lineRead_fetches ..) hp

/-- Home agents hold back no byte of these pieces (R321). -/
theorem lateBytes_eq_nil {s : State} {c : Nat} {ps : List KPiece} (h : ∀ p ∈ ps, s.extentBlocked p.pa p.n false = false) (off : Nat) :
    s.lateBytes c off ps = [] := by
  induction ps generalizing off with
  | nil => rfl
  | cons p r ih =>
    rw [State.lateBytes, if_neg (by simp [h p List.mem_cons_self]), ih (fun q hq => h q (List.mem_cons_of_mem p hq))]
    rfl

theorem ms_stashAccess (co : Core) (p : KPiece) (store : Bool) : (co.stashAccess p store).ms = co.ms := by
  unfold Core.stashAccess
  split
  · split
    · rfl
    · split
      · dsimp only
        split <;> rfl
      · split <;> rfl
  · rfl

theorem ms_stashAccesses (co : Core) (ps : List KPiece) (store : Bool) : (ps.foldl (fun co p => co.stashAccess p store) co).ms = co.ms := by
  induction ps generalizing co with
  | nil => rfl
  | cons p r ih => rw [List.foldl_cons, ih, ms_stashAccess]

theorem linkMets_state (s : State) (c : Nat) (ps : List KPiece) : ∃ l, ps.foldl (fun s p => s.linkMet c p.pa 0x83) s = { s with linkErr := l } := by
  induction ps generalizing s with
  | nil => exact ⟨s.linkErr, rfl⟩
  | cons p r ih =>
    rw [List.foldl_cons, State.linkMet]
    split
    · obtain ⟨l, h⟩ := ih { s with linkErr := s.linkErr.filter (fun x => decide (x ≠ c)) }
      exact ⟨l, h⟩
    · exact ih s

/-- What K's core has of other accesses when an access reaches its homes. -/
theorem gacc_of_reaches {s s1 : State} {kind n : Nat} {va : Word} {ps : List KPiece} (h : s.Reaches kind va n s1 ps) :
    (s1.core s.cur.core).ms.gacc = (s.core s.cur.core).ms.gacc := by
  obtain ⟨l, rfl⟩ := reaches_eq h
  rw [ms_modMs]

theorem awaitsAtomic_of_reaches {s s1 : State} {kind n : Nat} {va : Word} {ps : List KPiece} (h : s.Reaches kind va n s1 ps) :
    s1.me.ms.awaitsAtomic ps = s.me.ms.awaitsAtomic ps := by
  obtain ⟨l, hme⟩ := me_of_reaches h
  rw [hme]
  rfl

section
variable {s s1 : State} {f : MemF} {ps : List KPiece}

/-- A load whose pieces have been found is among the accesses that have not returned, with what its reads give. -/
theorem actLdGlobal_of_reaches (halign : ¬(f.var.getLsbD 0 = false ∧ (s.memAddr f).toNat % sizeBytes f.size ≠ 0))
    (hreach : s.Reaches 0 (s.memAddr f) (sizeBytes f.size) s1 ps) (hroom : s.me.ms.loadsOut < 16) (hatom : s.me.ms.awaitsAtomic ps = false) :
    ∃ t g, actLdGlobal f s = .done t ∧ t.mem = s.mem ∧ (t.core s.cur.core).ms.gacc = (s.core s.cur.core).ms.gacc ++ [g] ∧
      g.kind = 0 ∧ g.nb = sizeBytes f.size ∧ g.sx = f.sx ∧ g.dst = regPlace s.me.im .k f.d.toNat ∧ s.cyc + 1 ≤ g.at_ ∧
      g.late = s1.lateBytes s.cur.core 0 ps ∧
      (g.raw, g.want, g.err) =
        (if g.err.isSome then 0 else g.late.foldl (fun v x => v - v / 256 ^ x.2 % 256 * 256 ^ x.2) ({ s1 with serial := s1.serial + 1 }.readPieces s.cur.core s1.serial 0 ps).1,
          ({ s1 with serial := s1.serial + 1 }.readPieces s.cur.core s1.serial 0 ps).2.1, ({ s1 with serial := s1.serial + 1 }.readPieces s.cur.core s1.serial 0 ps).2.2.1) := by
  have hbusy : ¬(16 ≤ s1.me.ms.loadsOut ∨ s1.me.ms.awaitsAtomic ps = true) := by
    rw [loadsOut_of_reaches hreach, awaitsAtomic_of_reaches hreach, hatom]
    exact not_or.2 ⟨Nat.not_le.2 hroom, Bool.false_ne_true⟩
  have hfetch := readPieces_fetches { s1 with serial := s1.serial + 1 } s.cur.core s1.serial 0 ps
  have hgacc1 := gacc_of_reaches hreach
  have hcyc1 := cyc_of_reaches hreach
  rw [actLdGlobal]
  dsimp only
  rw [if_neg halign, kAccess_of_reaches hreach, if_neg hbusy]
  generalize ({ s1 with serial := s1.serial + 1 } : State).readPieces s.cur.core s1.serial 0 ps = r at hfetch ⊢
  have hgacc : (r.2.2.2.core s.cur.core).ms.gacc = (s.core s.cur.core).ms.gacc := by
    obtain ⟨x, y, hcore⟩ := hfetch.core
    rw [hcore]
    exact hgacc1
  have hcyc : r.2.2.2.cyc = s.cyc := hfetch.cyc.trans hcyc1
  have hmem : r.2.2.2.mem = s.mem := (congrArg HomeView.mem hfetch.view).trans (mem_of_reaches hreach)
  have hdst : regPlace s1.me.im .k f.d.toNat = regPlace s.me.im .k f.d.toNat := by
    obtain ⟨l, hme⟩ := me_of_reaches hreach
    rw [hme]
  generalize s.cur.core = c at hgacc ⊢
  generalize hu : (if r.2.2.1 = some 0x83 then ps.foldl (fun s p => s.linkMet c p.pa 0x83) r.2.2.2 else r.2.2.2) = u
  obtain ⟨l, rfl⟩ : ∃ l, u = { r.2.2.2 with linkErr := l } := by
    rw [← hu]
    split
    · exact linkMets_state r.2.2.2 c ps
    · exact ⟨_, rfl⟩
  refine ⟨_, _, rfl, hmem, congrArg MemSide.gacc (ms_pushAcc ..) |>.trans (congrArg (· ++ [_]) ?_), rfl, rfl, rfl, hdst, ?_, rfl, rfl⟩
  · rw [State.core_modCore, if_pos rfl, ms_stashAccesses]
    exact hgacc
  · rw [← hcyc]
    refine le_trans ?_ (later_le { r.2.2.2 with linkErr := l } _)
    exact Nat.add_le_add_left (by split <;> decide) _
end

/-! ### The bytes of a store -/

/-- Bytes with their addresses, counted from the first. -/
theorem zip_upTo (a n : Nat) {bs : List Byte} (h : bs.length ≤ n) : (upTo a n).zip bs = (bs.zip (upTo 0 bs.length)).map (fun p => (a + p.2, p.1)) := by
  apply List.ext_getElem
  · simp only [List.length_zip, length_upTo, List.length_map]
    omega
  · intro i h1 h2
    simp [getElem_upTo]

theorem zip_append_take {α β : Type} (l l' : List α) (bs : List β) : (l ++ l').zip bs = l.zip (bs.take l.length) ++ l'.zip (bs.drop l.length) := by
  induction l generalizing bs with
  | nil => rfl
  | cons x l ih => cases bs <;> simp [ih]

theorem loadByte_congr {m m' : MemSide} {x : Nat} (hremote : mfind m'.remote x = mfind m.remote x) (hsnap : mget 0 m'.snap x = mget 0 m.snap x) :
    m'.loadByte x = m.loadByte x := by
  rw [MemSide.loadByte, MemSide.loadByte, hremote, hsnap]

/-- A store's bytes are pending at their addresses, and K's core reads what it did of all others. -/
theorem storeBytes_spec (s : State) (c pa : Nat) (va : Word) (origin : Nat) (bs : List Byte) :
    (s.storeBytes c pa va origin bs).homeView = s.homeView ∧ (s.storeBytes c pa va origin bs).cyc = s.cyc ∧
      (∀ c', c' ≠ c → (s.storeBytes c pa va origin bs).core c' = s.core c') ∧
      ((s.storeBytes c pa va origin bs).core c).ms.pend.map (fun w => (w.pa, w.b)) =
        (s.core c).ms.pend.map (fun w => (w.pa, w.b)) ++ (upTo pa bs.length).zip bs ∧
      ∀ x, ¬(pa ≤ x ∧ x < pa + bs.length) → ((s.storeBytes c pa va origin bs).core c).ms.loadByte x = (s.core c).ms.loadByte x := by
  refine ⟨rfl, rfl, fun c' hc' => ?_, ?_, fun x hx => ?_⟩
  · rw [State.storeBytes, State.core_modCore, if_neg hc']
    rfl
  · rw [State.storeBytes, State.core_modCore, if_pos rfl, zip_upTo pa _ le_rfl]
    simp only [List.map_append, List.map_map]
    rfl
  · rw [State.storeBytes, State.core_modCore, if_pos rfl]
    refine loadByte_congr ?_ ?_
    · dsimp only
      split
      · refine mfind_foldl_mset_of_ne (fun p : Byte × Nat => p.2) (fun p => p.1) (fun p hp hpx => hx ?_)
        rw [← hpx]
        exact mem_upTo.1 (List.of_mem_zip hp).2
      · rfl
    · dsimp only
      split
      · rfl
      · rw [mget_memPut, if_neg hx]
        rfl

/-- A store's pieces are pending at their addresses, and K's core reads what it did of all other bytes. -/
theorem storePieces_spec (s : State) (c origin : Nat) (ps : List KPiece) (bs : List Byte) :
    (s.storePieces c origin ps bs).homeView = s.homeView ∧ (s.storePieces c origin ps bs).cyc = s.cyc ∧
      (∀ c', c' ≠ c → (s.storePieces c origin ps bs).core c' = s.core c') ∧
      ((s.storePieces c origin ps bs).core c).ms.pend.map (fun w => (w.pa, w.b)) =
        (s.core c).ms.pend.map (fun w => (w.pa, w.b)) ++ (ps.flatMap (fun p => upTo p.pa p.n)).zip bs ∧
      ∀ x, x ∉ ps.flatMap (fun p => upTo p.pa p.n) → ((s.storePieces c origin ps bs).core c).ms.loadByte x = (s.core c).ms.loadByte x := by
  induction ps generalizing s bs with
  | nil => exact ⟨rfl, rfl, fun _ _ => rfl, by simp [State.storePieces], fun _ _ => rfl⟩
  | cons p r ih =>
    obtain ⟨hview, hcyc, hcores, hpend, hload⟩ := storeBytes_spec s c p.pa p.va origin (bs.take p.n)
    obtain ⟨hview', hcyc', hcores', hpend', hload'⟩ :=
      ih ((s.storeBytes c p.pa p.va origin (bs.take p.n)).modCore c (fun co => co.stashAccess p true)) (bs.drop p.n)
    have hms : (((s.storeBytes c p.pa p.va origin (bs.take p.n)).modCore c (fun co => co.stashAccess p true)).core c).ms =
        ((s.storeBytes c p.pa p.va origin (bs.take p.n)).core c).ms := by
      rw [State.core_modCore, if_pos rfl, ms_stashAccess]
    rw [hms] at hpend' hload'
    rw [State.storePieces]
    refine ⟨hview'.trans hview, hcyc'.trans hcyc, fun c' hc' => ?_, ?_, fun x hx => ?_⟩
    · rw [hcores' c' hc', State.core_modCore, if_neg hc', hcores c' hc']
    · rw [hpend', hpend, List.append_assoc, List.flatMap_cons]
      congr 1
      rw [zip_append_take, length_upTo, zip_upTo p.pa p.n (List.length_take_le ..), zip_upTo p.pa _ le_rfl]
    · rw [List.flatMap_cons, List.mem_append, not_or, mem_upTo] at hx
      rw [hload' x hx.2, hload x]
      have := List.length_take_le p.n bs
      omega

section
variable {s s1 : State} {f : MemF} {ps : List KPiece}

/-- A store whose pieces have been found is taken: its bytes are pending, and it is among the accesses that have not returned. -/
theorem actStGlobal_of_reaches (halign : ¬(f.var.getLsbD 0 = false ∧ (s.memAddr f).toNat % sizeBytes f.size ≠ 0))
    (hreach : s.Reaches 1 (s.memAddr f) (sizeBytes f.size) s1 ps) (hroom : s.me.ms.storesOut < 32) :
    ∃ t, actStGlobal f s = .done t ∧ t.mem = s.mem ∧ t.blog = s.blog ∧ (∀ c', c' ≠ s.cur.core → t.core c' = s.core c') ∧
      (t.core s.cur.core).ms.pend.map (fun w => (w.pa, w.b)) = (s.core s.cur.core).ms.pend.map (fun w => (w.pa, w.b)) ++
        (ps.flatMap (fun p => upTo p.pa p.n)).zip (leBytes (sizeBytes f.size) (s.rd f.val).toNat) ∧
      ∀ x, x ∉ ps.flatMap (fun p => upTo p.pa p.n) → (t.core s.cur.core).ms.loadByte x = (s.core s.cur.core).ms.loadByte x := by
  have hbusy : ¬32 ≤ s1.me.ms.storesOut := by
    obtain ⟨l, hme⟩ := me_of_reaches hreach
    rw [hme]
    exact Nat.not_le.2 hroom
  have hrd := rd_of_reaches hreach f.val
  obtain ⟨hview, hcyc, hcores, hpend, hload⟩ :=
    storePieces_spec s1 s.cur.core s1.mySeq.index ps (leBytes (sizeBytes f.size) (s.rd f.val).toNat)
  obtain ⟨l, hs1⟩ := reaches_eq hreach
  have hms : (s1.core s.cur.core).ms = { (s.core s.cur.core).ms with tlb := l, hold := none } := by rw [hs1, ms_modMs]
  rw [actStGlobal]
  dsimp only
  rw [if_neg halign, kAccess_of_reaches hreach, if_neg hbusy, hrd]
  generalize s1.storePieces s.cur.core s1.mySeq.index ps (leBytes (sizeBytes f.size) (s.rd f.val).toNat) = u at *
  refine ⟨_, rfl, ?_, ?_, fun c' hc' => ?_, ?_, fun x hx => ?_⟩
  · exact (congrArg HomeView.mem hview).trans (by rw [hs1]; rfl)
  · exact (congrArg HomeView.blog hview).trans (by rw [hs1]; rfl)
  · rw [State.pushAcc, State.core_modMs, if_neg hc']
    refine (hcores c' hc').trans ?_
    rw [hs1, State.core_modMs, if_neg hc']
  · rw [ms_pushAcc]
    refine hpend.trans ?_
    rw [hms]
  · rw [ms_pushAcc]
    refine (hload x hx).trans ?_
    rw [hms]
    rfl

end

/-! ### What returns -/

/-- What an access returns is due at its register in its place by issue, or stands there where no schedule cycle runs. -/
def State.Delivers (s : State) (c : Nat) (g : GAcc) (t : State) (v : Word) : Prop :=
  ∀ w r, g.dst = some (w, r) →
    ((s.core c).counting s.cyc = true →
      ∃ x ∈ (t.core c).im.flight, x.due = s.sched c ∧ x.issue = g.issue ∧ x.fx = (if w then .win r v else .reg .k r v)) ∧
    ((s.core c).counting s.cyc = false →
      (w = true → r < 192 → (t.core c).im.wfile.toList.getD r 0 = v) ∧ (w = false → r < 16 → (t.core c).im.k.regs.toList.getD r 0 = v))

/-- The parts of a core that hold results, in flight or in place. -/
def Core.results (co : Core) : List Flight × Vector Word 192 × Vector Word 16 := (co.im.flight, co.im.wfile, co.im.k.regs)

theorem State.Delivers.of_results {s t u : State} {c : Nat} {g : GAcc} {v : Word} (h : s.Delivers c g t v) (hu : (u.core c).results = (t.core c).results) :
    s.Delivers c g u v := by
  obtain ⟨hflight, hregs⟩ := Prod.mk.inj hu
  obtain ⟨hwfile, hk⟩ := Prod.mk.inj hregs
  intro w r hdst
  rw [hflight, hwfile, hk]
  exact h w r hdst

/-- A delivery changes its core's image alone, and leaves K's pending error. -/
theorem deliverAcc_core (s : State) (c : Nat) (g : GAcc) (v : Word) :
    (s.deliverAcc c g v).homeView = s.homeView ∧ ∃ im, (s.deliverAcc c g v).core c = { s.core c with im := im } ∧ im.perr = (s.core c).im.perr := by
  have htake (im : Image) (fx : Fx) (hfx : g.fx v = some fx) : (im.take fx).perr = im.perr := by
    obtain ⟨d, -, rfl⟩ := Option.map_eq_some_iff.1 hfx
    have happly : (im.apply (if d.1 then .win d.2 v else .reg .k d.2 v)).perr = im.perr := by split <;> rfl
    unfold Image.take
    split
    · exact happly
    · exact happly
  unfold State.deliverAcc
  dsimp only
  split
  · refine ⟨rfl, _, (State.core_modIm ..).trans (if_pos rfl), rfl⟩
  · next fx hfx =>
    split
    · rw [State.pushFlight, State.core_modIm, if_pos rfl, State.core_modIm, if_pos rfl]
      exact ⟨rfl, _, rfl, rfl⟩
    · rw [State.core_modIm, if_pos rfl, State.core_modIm, if_pos rfl]
      exact ⟨rfl, _, rfl, htake _ _ hfx⟩

theorem deliverAcc_delivers (s : State) (c : Nat) (g : GAcc) (v : Word) : s.Delivers c g (s.deliverAcc c g v) v := by
  intro w r hdst
  have hfx : g.fx v = some (if w then .win r v else .reg .k r v) := by rw [GAcc.fx, hdst]; rfl
  refine ⟨fun hcount => ?_, fun hcount => ?_⟩
  · simp only [State.deliverAcc, hfx, hcount, if_true]
    refine ⟨{ due := s.sched c, issue := g.issue, ord := 0, sq := .k, fx := if w then .win r v else .reg .k r v }, ?_, rfl, rfl, rfl⟩
    rw [State.pushFlight, State.core_modIm, if_pos rfl]
    exact (mem_insertBy ..).2 (Or.inl rfl)
  · simp only [State.deliverAcc, hfx, hcount, Bool.false_eq_true, if_false]
    rw [State.core_modIm, if_pos rfl]
    refine ⟨fun hw hr => ?_, fun hw hr => ?_⟩
    · subst hw
      exact (wfile_take hr _ ⟨0, 0, 0, .k, .win r v⟩).trans (by simp [Fx.winValue])
    · subst hw
      exact (regs_take .k hr _ ⟨0, 0, 0, .k, .reg .k r v⟩).trans (by simp [Fx.regValue])

theorem core_dropAcc (s : State) (c id : Nat) : (s.dropAcc c id).core c =
    { s.core c with ms := { (s.core c).ms with gacc := (s.core c).ms.gacc.filter (fun g => !decide (g.id = id)) } } := by
  rw [State.dropAcc, State.core_modMs, if_pos rfl]

theorem id_hide (g : GAcc) (pa n : Nat) : (g.hide pa n).id = g.id := by
  unfold GAcc.hide
  split <;> rfl

/-- The acquire behind an atomic's answer leaves results, the pending error and the list of accesses. -/
theorem afterAtomic_core (s : State) (c id : Nat) :
    ((s.afterAtomic c id).core c).results = (s.core c).results ∧ ((s.afterAtomic c id).core c).im.perr = (s.core c).im.perr ∧
      ((s.afterAtomic c id).core c).ms.gacc.map (·.id) = (s.core c).ms.gacc.map (·.id) := by
  have hgo (t : State) : ((t.letGo c).core c).results = (t.core c).results ∧ ((t.letGo c).core c).im.perr = (t.core c).im.perr ∧
      ((t.letGo c).core c).ms.gacc = (t.core c).ms.gacc := by
    rw [State.letGo, State.core_modSeq, if_pos rfl, State.core_modMs, if_pos rfl]
    exact ⟨rfl, rfl, rfl⟩
  unfold State.afterAtomic
  split
  · split
    · split
      · obtain ⟨hres, hperr, hgacc⟩ := hgo s
        exact ⟨hres, hperr, congrArg _ hgacc⟩
      · dsimp only
        rw [State.core_modMs, if_pos rfl]
        exact ⟨rfl, rfl, rfl⟩
      · next sc _ _ =>
        obtain ⟨hres, hperr, hgacc⟩ := hgo (s.acquire c sc)
        rw [hres, hperr, hgacc, core_acquire, if_pos rfl]
        refine ⟨rfl, rfl, ?_⟩
        simp only [List.map_map]
        exact List.map_congr_left (fun g _ => id_hide ..)
    · exact ⟨rfl, rfl, rfl⟩
  · exact ⟨rfl, rfl, rfl⟩

/-- An access that delivers its value and leaves those that have not returned. -/
theorem returned_core (s : State) (c : Nat) (g : GAcc) (v : Word) :
    s.Delivers c g ((s.deliverAcc c g v).dropAcc c g.id) v ∧
      ∃ im, ((s.deliverAcc c g v).dropAcc c g.id).core c = { s.core c with
        im := im, ms := { (s.core c).ms with gacc := (s.core c).ms.gacc.filter (fun x => !decide (x.id = g.id)) } } ∧ im.perr = (s.core c).im.perr := by
  obtain ⟨-, im, hcore, hperr⟩ := deliverAcc_core s c g v
  refine ⟨(deliverAcc_delivers s c g v).of_results ?_, im, ?_, hperr⟩
  · rw [core_dropAcc]
    rfl
  · rw [core_dropAcc, hcore]

theorem mem_dropAcc (s : State) (c id : Nat) : (s.dropAcc c id).mem = s.mem := rfl

theorem value_eq (g : GAcc) : g.value = if g.sx = 1 then (BitVec.ofNat (8 * g.nb) g.raw).signExtend 64 else BitVec.ofNat 64 g.raw := by
  rw [GAcc.value]
  obtain hnb | hnb := Nat.eq_zero_or_pos g.nb
  · rw [hnb, extendLoad]
    congr 1
    rw [BitVec.eq_nil (BitVec.ofNat (8 * 0) g.raw)]
    simp [sgn, Nat.mod_one]
  · exact extendLoad_eq hnb ..

theorem results_addError (co : Core) (e : PErr) : ({ co with im := co.im.addError e } : Core).results = co.results := by
  unfold Image.addError
  split <;> rfl

theorem perr_addError (im : Image) (e : PErr) : ∃ x, (im.addError e).perr = some x ∧ (im.perr = none → x = e) := by
  unfold Image.addError
  cases h : im.perr with
  | none => exact ⟨e, rfl, fun _ => rfl⟩
  | some x => exact ⟨x, by dsimp only, fun h' => by cases h'⟩

/-- An error response of an access sets K's pending error, unless one stands. -/
theorem respError_core {s : State} {c cause : Nat} {g : GAcc} (hbound : (s.core c).bound = true) (hctx : (s.core c).ctx = g.ctx) :
    ∃ e, ((s.respError c g cause).core c) = { s.core c with im := (s.core c).im.addError e } ∧ e.cause = cause ∧ e.addr = g.va := by
  have hset (t : State) (ht : t.core c = s.core c) (e : PErr) : (t.setPending c g.ctx e).core c = { s.core c with im := (s.core c).im.addError e } := by
    rw [State.setPending, if_pos (by rw [ht]; exact ⟨hbound, hctx⟩), State.core_modIm, if_pos rfl, ht]
  have herr : ∃ e, ((s.accessError c g.pa g.va g.ctx cause (if g.kind = 2 then 2 else 0) g.origin).core c) = { s.core c with im := (s.core c).im.addError e } ∧
      e.cause = cause ∧ e.addr = g.va := by
    refine ⟨_, hset _ ?_ _, rfl, rfl⟩
    rw [State.logError, State.core_modDie, State.linkMet]
    split <;> rfl
  unfold State.respError
  split
  · split
    · exact herr
    · exact ⟨_, hset s rfl _, rfl, rfl⟩
  · exact herr

end Sys2Proof.Machine

namespace Sys2Proof.Proofs
open Sys2Proof.Machine

theorem globalLoadsAndStores : Claims.GlobalLoadsAndStores := by
  intro s f s1 ps va nb c places
  have hld : exec (.ldGlobal f) s = issue s [f.base] (actLdGlobal f) := show execLdGlobal f s = _ from rfl
  have hst : exec (.stGlobal f) s = issue s [f.base, f.val] (actStGlobal f) := show execStGlobal f s = _ from rfl
  refine ⟨fun hready h0 h1 => ?_, fun hready h0 h1 => ?_, fun halign => ?_⟩
  · exact State.traps_of_memTrap hld hready (if_pos ⟨h0, h1⟩)
  · exact State.traps_of_memTrap hst hready (if_pos ⟨h0, h1⟩)
  have hal : ¬(f.var.getLsbD 0 = false ∧ va.toNat % nb ≠ 0) := by
    rintro ⟨h0, h1⟩
    obtain h | h := halign
    · rw [h0] at h; cases h
    · exact h1 h
  refine ⟨fun hready hreach hroom hatom => ?_, fun hready hreach hroom => ?_⟩
  · obtain ⟨t, g, hdone, hmem, hgacc, hkind, hnb, hsx, hdst, hat, hlate, hread⟩ := actLdGlobal_of_reaches hal hreach hroom hatom
    obtain ⟨hraw, hread⟩ := Prod.mk.inj hread
    obtain ⟨hwant, herr⟩ := Prod.mk.inj hread
    have hme : s1.me = s1.core c := congrArg (fun x : Cur => s1.core x.core) (cur_of_reaches hreach)
    refine ⟨t, g, State.issues_of_done hld hready hdone, hmem, hgacc, hkind, hnb, hsx, hdst, hat, fun hhome => ?_, fun hhome hbad => ?_, fun hgood href => ?_⟩
    · have hnow := readPieces_home (s := { s1 with serial := s1.serial + 1 }) (fun p hp => ⟨(hhome p hp).1, (hhome p hp).2.1⟩) s1.serial 0
      have hfree := lateBytes_eq_nil (c := c) (fun p hp => (hhome p hp).2.2) 0
      have hload : (s1.core c).ms.loadByte = (s.core c).ms.loadByte := by
        obtain ⟨l, hs1⟩ := reaches_eq hreach
        rw [hs1, ms_modMs]
        rfl
      rw [hfree] at hlate
      rw [hnow] at hwant herr hraw
      rw [herr, hlate] at hraw
      exact ⟨hraw.trans (congrArg (fun b => leNat (places.map b)) hload), hwant, herr, hlate⟩
    · rw [herr]
      exact readPieces_bad (s := { s1 with serial := s1.serial + 1 }) (fun p hp => ⟨(hhome p hp).1, hme ▸ (hhome p hp).2⟩) hbad _ _
    · rw [herr]
      exact readPieces_refused (s := { s1 with serial := s1.serial + 1 }) hgood href _ _
  · obtain ⟨t, hdone, hspec⟩ := actStGlobal_of_reaches hal hreach hroom
    exact ⟨t, State.issues_of_done hst hready hdone, hspec⟩

theorem accessesReturn : Claims.AccessesReturn := by
  intro s c g hc holds ext late
  have hext : g.value = ext g.raw := value_eq g
  have hevent (n : String) (o : Option State) {t : State} (h : o = some t) : coreEvent n c o = .next t := coreEvent_next.2 ⟨hc, h⟩
  refine ⟨fun hret hheld hdone => ?_, fun hret hfree => ?_, fun hret => ?_, fun hnone hfind htodo hhome hext hahead => ?_, fun cause hret herr hbound hctx => ?_⟩
  · have hmem : g ∈ (s.core c).ms.gacc := List.mem_of_find?_eq_some hret
    have hcore : (s.readLate c g).core c = { s.core c with ms := ((s.readLate c g).core c).ms } := by
      rw [State.readLate, State.modAcc, State.core_modMs, if_pos rfl, State.core_modMs, if_pos rfl]
    refine ⟨s.readLate c g, ?_, rfl, by rw [hcore], { g with raw := late, late := [], at_ := s.cyc + 1 }, ?_, rfl, rfl, rfl, rfl⟩
    · show execGlobalAccessResponse c s = _
      rw [execGlobalAccessResponse, hret]
      exact hevent _ _ (by simp [hheld, hdone])
    · rw [State.readLate, State.modAcc, ms_modMs, ms_modMs]
      exact List.mem_map.2 ⟨g, hmem, if_pos rfl⟩
  · obtain ⟨hdel, im, hcore, -⟩ := returned_core s c g g.value
    refine ⟨(if g.kind = 0 then s.deliverAcc c g g.value else s).dropAcc c g.id, ?_, ?_, fun hkind => ?_, fun hkind => ?_, ?_⟩
    · show execGlobalAccessResponse c s = _
      rw [execGlobalAccessResponse, hret]
      exact hevent _ _ (by simp only [hfree, if_true])
    · split
      · exact congrArg HomeView.mem (deliverAcc_core s c g g.value).1
      · rfl
    · rw [if_pos hkind, ← hext]
      exact hdel
    · rw [if_neg (by omega), core_dropAcc]
    · split
      · rw [hcore]
      · rw [core_dropAcc]
  · obtain ⟨hdel, im, hcore, -⟩ := returned_core s c g g.value
    obtain ⟨hres, -, hids⟩ := afterAtomic_core ((s.deliverAcc c g g.value).dropAcc c g.id) c g.id
    refine ⟨((s.deliverAcc c g g.value).dropAcc c g.id).afterAtomic c g.id, ?_, ?_, ?_⟩
    · show execAtomicResponse c s = _
      rw [execAtomicResponse, hret]
      exact hevent _ _ rfl
    · rw [← hext]
      exact hdel.of_results hres
    · rw [hids, hcore]
  · show execAtomicResponse c s = _
    rw [execAtomicResponse, hnone]
    refine hevent _ _ ?_
    simp only [State.resumeAtomics, hfind, Option.isSome_iff_ne_none.2 htodo, hhome, hext, hahead, decide_true, Bool.not_false, Bool.and_self, if_true]
  · obtain ⟨hdel, im, hcore, hperr⟩ := returned_core s c g 0
    obtain ⟨e, hcore', hcause, haddr⟩ := respError_core (s := (s.deliverAcc c g 0).dropAcc c g.id) (cause := cause) (g := g)
      (by rw [hcore]; exact hbound) (by rw [hcore]; exact hctx)
    obtain ⟨hres, hperr', hids⟩ := afterAtomic_core (((s.deliverAcc c g 0).dropAcc c g.id).respError c g cause) c g.id
    refine ⟨(((s.deliverAcc c g 0).dropAcc c g.id).respError c g cause).afterAtomic c g.id, ?_, ?_, ?_, ?_⟩
    · show execErrorResponse c s = _
      rw [execErrorResponse, hret]
      exact hevent _ _ (by simp only [herr, Option.getD_some])
    · refine hdel.of_results (hres.trans ?_)
      rw [hcore']
      exact results_addError ..
    · rw [hperr', hcore', hcore]
      obtain ⟨e', he', hfresh⟩ := perr_addError im e
      refine ⟨e', he', fun hnone => ?_⟩
      rw [hfresh (hperr.trans hnone)]
      exact ⟨hcause, haddr⟩
    · rw [hids, hcore', hcore]

/-- Settles O49: a load's reads and a store's pending bytes piece by piece; what returns writes its register and leaves the list of accesses. -/
theorem globalAccessesIssueAndReturn : Obligations.GlobalAccessesIssueAndReturn := ⟨globalLoadsAndStores, accessesReturn⟩

end Sys2Proof.Proofs
end


-- ==== Sys2Proof/Proofs/GlobalForms.lean ====
section
/-! PROOFS. Where accesses to memory issue and return (R230, R236, R242, R243, R345). -/
namespace Sys2Proof.Machine

/-- A group that may read some registers may read fewer. -/
theorem State.Ready.of_subset {s : State} {codes codes' : List (BitVec 5)} (h : s.Ready codes) (hsub : codes' ⊆ codes) : s.Ready codes' := by
  obtain ⟨hlock, hpend, hflaw⟩ := h
  refine ⟨?_, hpend, ?_⟩
  · rw [State.interlock, firstSome_eq_none] at hlock ⊢
    exact fun r hr => hlock r (hsub hr)
  · rw [State.flawed, List.any_eq_false] at hflaw ⊢
    exact fun r hr => hflaw r (hsub hr)

/-- A piece of an access has bytes. -/
theorem piece_pos {s s1 : State} {kind n : Nat} {va : Word} {ps : List KPiece} (hn : 0 < n) (h : s.Reaches kind va n s1 ps) {p : KPiece} (hp : p ∈ ps) :
    0 < p.n := by
  obtain ⟨s0, es, -, -, rfl⟩ := h
  obtain ⟨x, hx, rfl⟩ := List.mem_map.1 hp
  obtain ⟨y, hy, hxy⟩ := List.mem_map.1 (List.of_mem_zip (a := x.1) (b := x.2) hx).1
  rw [← hxy]
  exact splitAt_pos (by decide) hn y hy

theorem length_of_map_append {α β γ : Type} {f : α → γ} {g : β → γ} {l : List α} {m : List β} {r : List γ} (h : m.map g = l.map f ++ r) (hr : r ≠ []) :
    l.length < m.length := by
  have hlen := congrArg List.length h
  rw [List.length_map, List.length_append, List.length_map] at hlen
  have := List.length_pos_of_ne_nil hr
  omega

end Sys2Proof.Machine

namespace Sys2Proof.Proofs
open Sys2Proof.Machine

/-- Settles O56: what issues and returns does so as the statements of the accesses say. -/
theorem globalAccessFormsComplete : Obligations.GlobalAccessFormsComplete := by
  unfold Obligations.GlobalAccessFormsComplete
  intro s f s1 p c g cause va nb gone
  have hnb : 0 < nb := Nat.two_pow_pos _
  obtain ⟨-, -, hissue⟩ := globalLoadsAndStores s f s1 [p]
  refine ⟨fun halign => ?_, fun hc => ?_⟩
  · obtain ⟨hload, hstore⟩ := hissue (.inr halign)
    refine ⟨fun hready hreach hroom hatom => ?_, fun hready hreach hroom => ?_,
      fun i hi hready hsize hreach hkind hpn hvar hroom hgacc hext hbad hahead => ?_⟩
    · obtain ⟨t, g, hissues, -, hg, hgkind, -⟩ := hload hready hreach hroom hatom
      exact ⟨t, g, hissues, hg, hgkind⟩
    · obtain ⟨t, hissues, -, -, -, hpend, -⟩ := hstore hready hreach hroom
      refine ⟨t, hissues, length_of_map_append hpend (List.ne_nil_of_length_pos ?_)⟩
      have hpos := piece_pos hnb hreach (List.mem_singleton_self p)
      simp only [List.length_zip, List.flatMap_cons, List.flatMap_nil, List.append_nil, length_upTo, length_leBytes]
      exact Nat.lt_min.2 ⟨hpos, hnb⟩
    · have hrel : f.var.getLsbD 0 = false ∧ f.var.getLsbD 1 = false := by
        rw [← bit_eq_getLsbD, ← bit_eq_getLsbD, bit, bit, beq_eq_false_iff_ne, beq_eq_false_iff_ne]
        omega
      have hperform (codes : List (BitVec 5)) (hsub : codes ⊆ [f.base, f.val, f.cv])
          (hform : (i = .aadd f ∨ i = .amin f ∨ i = .amax f ∨ i = .aswap f ∨ i = .aand f ∨ i = .aor f) ∧ codes = [f.base, f.val] ∨
            i = .acas f ∧ codes = [f.base, f.val, f.cv] ∨ i = .ramo f ∧ codes = [f.base]) :
          ∃ t g, s.Issues i t ∧ g ∈ (t.core s.cur.core).ms.gacc ∧ g.kind = 2 ∧ g.pa = p.pa ∧ g.todo = none ∧ g.err = none := by
        obtain ⟨-, hhome⟩ := atomicsArePerformedAtTheHome s f i codes s1 p hform (hready.of_subset hsub) hsize
        obtain ⟨t, g, hissues, hg, hgkind, hpa, -, htodo, -, herr, -⟩ := hhome halign hreach hkind hpn (.inl hrel) (.inl hrel.1) hroom hgacc hext hbad
          (by rw [hrel.1]; exact hahead)
        exact ⟨t, g, hissues, hg, hgkind, hpa, htodo, herr⟩
      simp only [List.mem_cons, List.not_mem_nil, or_false] at hi
      obtain hi | hi | hi | hi | hi | hi | hi | hi := hi
      · exact hperform [f.base, f.val] (by simp) (.inl ⟨.inl hi, rfl⟩)
      · exact hperform [f.base, f.val] (by simp) (.inl ⟨.inr (.inl hi), rfl⟩)
      · exact hperform [f.base, f.val] (by simp) (.inl ⟨.inr (.inr (.inl hi)), rfl⟩)
      · exact hperform [f.base, f.val] (by simp) (.inl ⟨.inr (.inr (.inr (.inl hi))), rfl⟩)
      · exact hperform [f.base, f.val, f.cv] (by simp) (.inr (.inl ⟨hi, rfl⟩))
      · exact hperform [f.base, f.val] (by simp) (.inl ⟨.inr (.inr (.inr (.inr (.inl hi)))), rfl⟩)
      · exact hperform [f.base, f.val] (by simp) (.inl ⟨.inr (.inr (.inr (.inr (.inr hi)))), rfl⟩)
      · exact hperform [f.base] (by simp) (.inr (.inr ⟨hi, rfl⟩))
  · obtain ⟨-, hret, hatom, -, herror⟩ := accessesReturn s c g hc
    refine ⟨fun hr hfree => ?_, fun hr => ?_, fun hr herr hbound hctx => ?_⟩
    · obtain ⟨t, hexec, -, -, -, hgacc⟩ := hret hr hfree
      exact ⟨t, hexec, congrArg _ hgacc⟩
    · obtain ⟨t, hexec, -, hids⟩ := hatom hr
      exact ⟨t, hexec, hids⟩
    · obtain ⟨t, hexec, -, ⟨e, hperr, -⟩, hids⟩ := herror cause hr herr hbound hctx
      exact ⟨t, hexec, hids, by rw [hperr]; rfl⟩

end Sys2Proof.Proofs
end


-- ==== Sys2Proof/Proofs/PlaneUnit.lean ====
section
/-! PROOFS. The plane unit (R107, R182, R184). -/
namespace Sys2Proof.Machine

/-- A fault that a unit's command meets changes of its core no more than its image and how it stops. -/
theorem core_commandFault (s : State) (c : Nat) (e : EngCmd) (engine uidx cause addr : Nat) (st : Half) :
    ∃ im sp, (s.commandFault c e engine uidx cause addr st).core c = { s.core c with im := im, stops := sp } := by
  have hlate (p : PErr) : ∃ im sp, (s.setPending c e.ctx p).core c = { s.core c with im := im, stops := sp } := by
    unfold State.setPending
    split
    · rw [State.core_modIm, if_pos rfl]
      exact ⟨_, (s.core c).stops, rfl⟩
    · exact ⟨(s.core c).im, (s.core c).stops, rfl⟩
  unfold State.commandFault State.unitFault
  dsimp only
  split
  · split
    · rw [core_takeTrap]
      exact ⟨_, _, rfl⟩
    · exact hlate _
  · exact hlate _

/-! ### plane -/

theorem past_iff (a m : Nat) : (decide (0 < m) && decide (0x5FFFFF < a + m - 1)) = true ↔ ¬(m = 0 ∨ a + m ≤ 0x600000) := by
  rw [Bool.and_eq_true, decide_eq_true_eq, decide_eq_true_eq]
  omega

theorem mem_upTo_256 {i : Nat} : i ∈ upTo 0 256 ↔ i < 256 := by
  rw [mem_upTo]
  omega

/-- The command that `plane` queues. -/
def State.planeCommand (s : State) (f : MovF) : EngCmd :=
  s.command f.var.toNat f.la.toNat (s.rd f.a) (s.rd f.b) f.n.toNat f.sem.toNat f.start.toNat false

section
variable {s : State} {f : MovF}

theorem actPlane_misaligned (hodd : ¬((matMx f.var.toNat = true ∧ f.n.toNat % 2 = 1) ∨ (s.rd f.b).toNat % 8 ≠ 0 ∨ (s.rd f.b).toNat < planeRow f.var.toNat f.n.toNat))
    (h : ¬(f.la.toNat % 512 = 0 ∧ (s.rd f.a).toNat % 8 = 0)) : ∃ addr st, actPlane f s = memTrap 0x40 addr st := by
  rw [actPlane]
  dsimp only
  rw [if_neg hodd]
  split
  · exact ⟨_, _, rfl⟩
  · next hla =>
    rw [if_pos (by omega)]
    exact ⟨_, _, rfl⟩

variable (hodd : ¬((matMx f.var.toNat = true ∧ f.n.toNat % 2 = 1) ∨ (s.rd f.b).toNat % 8 ≠ 0 ∨ (s.rd f.b).toNat < planeRow f.var.toNat f.n.toNat))
  (halign : f.la.toNat % 512 = 0 ∧ (s.rd f.a).toNat % 8 = 0)
include hodd halign

theorem actPlane_outside (h : ¬((f.n.toNat * blockSize f.var.toNat = 0 ∨ f.la.toNat + f.n.toNat * blockSize f.var.toNat ≤ 0x600000) ∧
      ∀ i, i < 256 → planeRow f.var.toNat f.n.toNat = 0 ∨ (s.rd f.a).toNat + i * (s.rd f.b).toNat + planeRow f.var.toNat f.n.toNat ≤ 0x600000)) :
    ∃ addr st, actPlane f s = memTrap 0x41 addr st := by
  rw [actPlane]
  dsimp only
  rw [if_neg hodd, if_neg (not_not_intro halign.1), if_neg (not_not_intro halign.2)]
  split
  · exact ⟨_, _, rfl⟩
  · next hrows =>
    rw [List.find?_eq_none] at hrows
    have hin : ∀ i, i < 256 → planeRow f.var.toNat f.n.toNat = 0 ∨ (s.rd f.a).toNat + i * (s.rd f.b).toNat + planeRow f.var.toNat f.n.toNat ≤ 0x600000 :=
      fun i hi => by_contra fun hpast => hrows i (mem_upTo_256.2 hi) ((past_iff ..).2 hpast)
    rw [if_pos ((past_iff ..).2 (fun hdst => h ⟨hdst, hin⟩))]
    exact ⟨_, _, rfl⟩

variable (hinside : (f.n.toNat * blockSize f.var.toNat = 0 ∨ f.la.toNat + f.n.toNat * blockSize f.var.toNat ≤ 0x600000) ∧
      ∀ i, i < 256 → planeRow f.var.toNat f.n.toNat = 0 ∨ (s.rd f.a).toNat + i * (s.rd f.b).toNat + planeRow f.var.toNat f.n.toNat ≤ 0x600000)
include hinside

theorem actPlane_inside : actPlane f s =
    if (upTo 0 256).any (fun i => overlap f.la.toNat (f.n.toNat * blockSize f.var.toNat) ((s.rd f.a).toNat + i * (s.rd f.b).toNat) (planeRow f.var.toNat f.n.toNat)) = true
      then s.opTrap 0xB
    else if s.earlyStart f.start.toNat then startTrap
    else if f.n.toNat = 0 then .done (s.result 2 0 (.sem f.sem.toNat 1))
    else .done (s.modUnits s.cur.core (fun u => { u with plane := u.plane ++ [s.planeCommand f] })) := by
  have hrows : (upTo 0 256).find? (fun i => decide (0 < planeRow f.var.toNat f.n.toNat) &&
      decide (0x5FFFFF < (s.rd f.a).toNat + i * (s.rd f.b).toNat + planeRow f.var.toNat f.n.toNat - 1)) = none := by
    rw [List.find?_eq_none]
    exact fun i hi => fun h => (past_iff ..).1 h (hinside.2 i (mem_upTo_256.1 hi))
  rw [actPlane]
  dsimp only
  rw [if_neg hodd, if_neg (not_not_intro halign.1), if_neg (not_not_intro halign.2), hrows]
  dsimp only
  rw [if_neg (fun h => (past_iff ..).1 h hinside.1)]
  rfl

end

/-! ### A cycle of the plane unit -/

/-- The plane unit after a cycle of its first command. -/
def State.planeGo (s : State) (c : Nat) (r : List EngCmd) (e : EngCmd) : State :=
  match ((s.core c).planeCycle e s.tstep e.j).2 with
  | .ok e' => (s.posts c ((s.core c).planeCycle e s.tstep e.j).1).modUnits c (fun u => { u with plane := { e' with nextAt := s.cyc + 1 } :: r })
  | .error (cause, addr, st) =>
    ((s.posts c ((s.core c).planeCycle e s.tstep e.j).1).modUnits c (fun u => { u with plane := r })).commandFault c e 2 0 cause addr st

/-- The first command of the plane unit takes its next cycle: where it has not begun it begins now. -/
theorem planeStep_goes {s : State} {c : Nat} {e : EngCmd} {r : List EngCmd} (hplane : (s.core c).units.plane = e :: r)
    (hlate : (s.core c).lateStart (e :: r) s.cyc = none)
    (hgo : (e.begun = none ∧ (s.core c).begins e s.cyc = true) ∨ (e.begun.isSome = true ∧ e.nextAt ≤ s.cyc ∧ e.j ≤ 32 * e.n)) :
    ∃ b, s.planeStep c = some (s.planeGo c r { e with begun := some b }) := by
  unfold State.planeStep
  dsimp only
  rw [hplane, hlate]
  obtain ⟨hbegun, hbegins⟩ | ⟨hbegun, hat⟩ := hgo
  · refine ⟨s.cyc, ?_⟩
    simp only [hbegun, hbegins, if_true]
    rfl
  · obtain ⟨b, hb⟩ := Option.isSome_iff_exists.1 hbegun
    refine ⟨b, ?_⟩
    simp only [hb]
    rw [if_pos hat, ← hb]
    rfl

theorem planeGo_ok {s : State} {c : Nat} {r : List EngCmd} {e e' : EngCmd} {ps : List Post} (h : (s.core c).planeCycle e s.tstep e.j = (ps, .ok e')) :
    ((s.planeGo c r e).core c).units.plane = { e' with nextAt := s.cyc + 1 } :: r ∧ ((s.planeGo c r e).core c).posted = (s.core c).posted ++ ps := by
  rw [State.planeGo, h]
  dsimp only
  rw [State.core_modUnits, if_pos rfl, State.posts, State.core_modCore, if_pos rfl]
  exact ⟨rfl, rfl⟩

theorem planeGo_error {s : State} {c : Nat} {r : List EngCmd} {e : EngCmd} {ps : List Post} {x : Nat × Nat × Half}
    (h : (s.core c).planeCycle e s.tstep e.j = (ps, .error x)) :
    ((s.planeGo c r e).core c).units.plane = r ∧ ((s.planeGo c r e).core c).posted = (s.core c).posted ++ ps := by
  rw [State.planeGo, h]
  obtain ⟨cause, addr, st⟩ := x
  dsimp only
  obtain ⟨im, sp, hcore⟩ := core_commandFault ((s.posts c ps).modUnits c (fun u => { u with plane := r })) c e 2 0 cause addr st
  rw [hcore, State.core_modUnits, if_pos rfl, State.posts, State.core_modCore, if_pos rfl]
  exact ⟨rfl, rfl⟩

/-- The posts that a block's write makes besides its bytes. -/
def EngCmd.blockMarks (e : EngCmd) (ts g : Nat) : List Post :=
  (((upTo 0 ((planeBlock e.var (e.rows (g - 1))).length / 512)).zip (pieces 512 (planeBlock e.var (e.rows (g - 1))))).map (fun x =>
      Post.zbit ((e.la + (g - 1) * blockSize e.var) / 512 + x.1) (x.2.all (fun b => b == 0)))) ++
    stampPosts ((wholeSlabs e.la (g * blockSize e.var)).drop (wholeSlabs e.la ((g - 1) * blockSize e.var)).length) ts

theorem bytes_not_mem_blockMarks (e : EngCmd) (ts g a : Nat) (bs : List Byte) (z : Bool) : .bytes a bs z ∉ e.blockMarks ts g := by
  rw [EngCmd.blockMarks, stampPosts, List.mem_append]
  rintro (h | h)
  · obtain ⟨x, -, hx⟩ := List.mem_map.1 h
    cases hx
  · obtain ⟨x, -, hx⟩ := List.mem_map.1 h
    cases hx

section
variable {co : Core} {e : EngCmd} {ts x : Nat}

theorem planeCycle_reads (hg : x / 32 < e.n) (hk : x % 32 ≠ 0) (hgood : co.planeBad e (x / 32) (x % 32) = none) :
    co.planeCycle e ts x = ([], .ok { e with j := x + 1, buf := e.buf ++ (upTo (8 * (x % 32)) 8).flatMap (fun i => co.bytes (e.rowAt (x / 32) i) e.rowLen) }) := by
  unfold Core.planeCycle
  dsimp only
  rw [if_neg (fun h => hk h.1)]
  dsimp only
  rw [if_neg (by omega), if_neg hk, hgood]

theorem planeCycle_malformed (hg : x / 32 < e.n) (hk : x % 32 ≠ 0) (hbad : co.planeBad e (x / 32) (x % 32) ≠ none) :
    ∃ f, co.planeCycle e ts x = ([], .error f) := by
  obtain ⟨i, hi⟩ := Option.ne_none_iff_exists'.1 hbad
  unfold Core.planeCycle
  dsimp only
  rw [if_neg (fun h => hk h.1)]
  dsimp only
  rw [if_neg (by omega), if_neg hk, hi]
  exact ⟨_, rfl⟩

variable (hk : x % 32 = 0) (hg : x / 32 ≠ 0) (hcheck : co.checkLocal e.ctx ts (e.la + (x / 32 - 1) * blockSize e.var) (blockSize e.var) false = none)
include hk hg hcheck

theorem planeCycle_last (hlast : x / 32 = e.n) : co.planeCycle e ts x =
    (.bytes (e.la + (x / 32 - 1) * blockSize e.var) (planeBlock e.var (e.rows (x / 32 - 1))) false :: e.blockMarks ts (x / 32),
      .ok { e with buf := [], j := x + 1 }) := by
  unfold Core.planeCycle
  dsimp only
  rw [if_pos ⟨hk, Nat.pos_of_ne_zero hg⟩, hcheck]
  dsimp only
  rw [if_pos hlast]
  rfl

theorem planeCycle_keeps (hmore : x / 32 < e.n) (hbad : co.planeSource e ts (x / 32) ≠ none ∨ co.planeBad e (x / 32) (x % 32) ≠ none) : ∃ f, co.planeCycle e ts x =
    (.bytes (e.la + (x / 32 - 1) * blockSize e.var) (planeBlock e.var (e.rows (x / 32 - 1))) false :: e.blockMarks ts (x / 32), .error f) := by
  have hsource : co.planeSource { e with buf := [] } ts (x / 32) = co.planeSource e ts (x / 32) := rfl
  have hrow : co.planeBad { e with buf := [] } (x / 32) (x % 32) = co.planeBad e (x / 32) (x % 32) := rfl
  unfold Core.planeCycle
  dsimp only
  rw [if_pos ⟨hk, Nat.pos_of_ne_zero hg⟩, hcheck]
  dsimp only
  rw [if_neg (by omega), if_pos hk, hsource, hrow]
  cases h : co.planeSource e ts (x / 32) with
  | some y => exact ⟨y, rfl⟩
  | none =>
    obtain ⟨i, hi⟩ := Option.ne_none_iff_exists'.1 (hbad.resolve_left (not_not_intro h))
    rw [hi]
    exact ⟨_, rfl⟩

end

theorem exec_planeComplete {s : State} {c : Nat} {e : EngCmd} {r : List EngCmd} (hc : c < 128) (hplane : (s.core c).units.plane = e :: r)
    (hend : e.begun.isSome = true ∧ e.nextAt ≤ s.cyc ∧ 32 * e.n < e.j) :
    exec (.planeComplete c) s = .next ((s.modUnits c (fun u => { u with plane := r })).signalSem c e.ctx e.sem) := by
  rw [show exec (.planeComplete c) s = execPlaneComplete c s from rfl, execPlaneComplete, coreEvent_next, hplane]
  exact ⟨hc, if_pos hend⟩

/-- A semaphore that a unit's completed command releases in the context that runs. -/
theorem sem_completed {s : State} {c ctx k : Nat} (g : Units → Units) (hbound : (s.core c).bound = true) (hctx : (s.core c).ctx = ctx)
    (hleaving : (s.core c).leaving = false) :
    mget 0 (((s.modUnits c g).signalSem c ctx k).core c).im.sems k = Nat.min 65535 (mget 0 (s.core c).im.sems k + 1) := by
  have hcore : (s.modUnits c g).core c = { s.core c with units := g (s.core c).units } := (State.core_modUnits ..).trans (if_pos rfl)
  rw [sem_signalSem (by rw [hcore]; exact hbound) (by rw [hcore]; exact hctx) (by rw [hcore]; exact hleaving), hcore]

end Sys2Proof.Machine

namespace Sys2Proof.Proofs
open Sys2Proof.Machine

theorem planeBlocksAreBuilt : Claims.PlaneBlocksAreBuilt := by
  intro s f c e r
  refine ⟨fun hready => ?_, fun hc hplane => ⟨fun hlate hgo => ?_, fun hbegun hat hj => ?_⟩⟩
  · intro var n src stride la dst odd aligned inside apart early
    have hexec : exec (.plane f) s = issue s [f.a, f.b] (actPlane f) := show execPlane f s = _ from rfl
    have hapart : ((upTo 0 256).any (fun i => overlap la dst (src + i * stride) (planeRow var n)) = true) ↔ ¬apart := by
      rw [List.any_eq_true]
      constructor
      · rintro ⟨i, hi, h⟩ hall
        rw [hall i (mem_upTo_256.1 hi)] at h
        cases h
      · intro h
        by_contra hnone
        exact h (fun i hi => Bool.eq_false_iff.2 (fun hover => hnone ⟨i, mem_upTo_256.2 hi, hover⟩))
    refine ⟨fun hodd => ?_, fun hodd hmis => ?_, fun hodd halign hout => ?_, fun hodd halign hin hover => ?_, fun hodd halign hin hap hearly => ?_,
      fun hodd halign hin hap hnot hn => ?_, fun hodd halign hin hap hnot hn => ?_⟩
    · exact State.traps_of_opTrap hexec hready (if_pos hodd)
    · obtain ⟨addr, st, h⟩ := actPlane_misaligned hodd hmis
      exact State.traps_of_memTrap hexec hready h
    · obtain ⟨addr, st, h⟩ := actPlane_outside hodd halign hout
      exact State.traps_of_memTrap hexec hready h
    · exact State.traps_of_opTrap hexec hready ((actPlane_inside hodd halign hin).trans (if_pos (hapart.2 hover)))
    · refine traps_startTrap hexec hready ((actPlane_inside hodd halign hin).trans ((if_neg (fun h => hapart.1 h hap)).trans (if_pos (earlyStart_iff.2 hearly))))
    · exact State.issues_of_done hexec hready ((actPlane_inside hodd halign hin).trans ((if_neg (fun h => hapart.1 h hap)).trans
        ((if_neg (fun h => hnot (earlyStart_iff.1 h))).trans (if_pos hn))))
    · exact ⟨s.planeCommand f, rfl, rfl, rfl, rfl, rfl, rfl, rfl, rfl, rfl, rfl, State.issues_of_done hexec hready ((actPlane_inside hodd halign hin).trans
        ((if_neg (fun h => hapart.1 h hap)).trans ((if_neg (fun h => hnot (earlyStart_iff.1 h))).trans (if_neg hn))))⟩
  · obtain ⟨b, hstep⟩ := planeStep_goes hplane hlate hgo
    have hexec : exec (.planeCommand c) s = .next (s.planeGo c r { e with begun := some b }) := by
      rw [show exec (.planeCommand c) s = execPlaneCommand c s from rfl, execPlaneCommand, coreEvent_next]
      exact ⟨hc, hstep⟩
    refine ⟨fun hg hk hgood => ?_, fun hg hk hbad => ?_, fun hg hk hg0 hcheck hbad => ?_, fun hg hk hg0 hcheck => ?_⟩
    · obtain ⟨hunits, hposted⟩ := planeGo_ok (r := r) (planeCycle_reads (co := s.core c) (e := { e with begun := some b }) (ts := s.tstep) hg hk hgood)
      exact ⟨_, _, hexec, hunits, rfl, rfl, rfl, rfl, hposted.trans (List.append_nil _)⟩
    · obtain ⟨x, hx⟩ := planeCycle_malformed (co := s.core c) (e := { e with begun := some b }) (ts := s.tstep) hg hk hbad
      exact ⟨_, hexec, (planeGo_error (r := r) hx).1⟩
    · obtain ⟨x, hx⟩ := planeCycle_keeps (co := s.core c) (e := { e with begun := some b }) (ts := s.tstep) hk hg0 hcheck hg hbad
      obtain ⟨hunits, hposted⟩ := planeGo_error (r := r) hx
      exact ⟨_, _, hexec, hunits, hposted, bytes_not_mem_blockMarks _ _ _⟩
    · obtain ⟨hunits, hposted⟩ := planeGo_ok (r := r) (planeCycle_last (co := s.core c) (e := { e with begun := some b }) (ts := s.tstep) hk hg0 hcheck hg)
      exact ⟨_, _, _, hexec, hunits, rfl, rfl, rfl, hposted, bytes_not_mem_blockMarks _ _ _⟩
  · refine ⟨_, exec_planeComplete hc hplane ⟨hbegun, hat, hj⟩, ?_, fun hbound hctx hleaving => sem_completed _ hbound hctx hleaving⟩
    obtain ⟨im, hcore⟩ := core_signalSem (s.modUnits c (fun u => { u with plane := r })) c e.ctx e.sem c
    rw [hcore, State.core_modUnits, if_pos rfl]

end Sys2Proof.Proofs
end


-- ==== Sys2Proof/Proofs/CopyChannels.lean ====
section
/-! PROOFS. The copy channels of a core (R107, R279 to R283). -/
namespace Sys2Proof.Machine

/-- The command that `cpy` joins to its channel. -/
def State.copyCommand (s : State) (var : Nat) (f : MovF) : EngCmd :=
  s.command var f.la.toNat (s.rd f.a) (s.rd f.b) f.n.toNat f.sem.toNat f.start.toNat false

/-- The state in which `cpy` has joined its command to its channel. -/
def State.copyJoined (s : State) (var : Nat) (f : MovF) : State :=
  s.modUnits s.cur.core (fun u => { u with chans := mset u.chans f.n.toNat (mget [] u.chans f.n.toNat ++ [s.copyCommand var f]) })

theorem actCpy_eq {s : State} {var : Nat} {f : MovF} (hlocal : var = 2 → (s.rd f.a).toNat < 2 ^ 23) :
    actCpy var f s = if s.earlyStart f.start.toNat then startTrap else .done (s.copyJoined var f) :=
  if_neg (fun h => Nat.not_lt.2 h.2 (hlocal h.1))

theorem chan_setChan (s : State) (c ch : Nat) (l : List EngCmd) : mget [] ((s.setChan c ch l).core c).units.chans ch = l := by
  rw [State.setChan, State.core_modUnits, if_pos rfl]
  exact (mget_mset ..).trans (if_pos rfl)

/-- A command that fails leaves its channel to the next one. -/
theorem chan_copyFault (s : State) (c ch : Nat) (e : EngCmd) (r : List EngCmd) (cause addr : Nat) (st : Half) :
    mget [] ((s.copyFault c ch e r cause addr st).core c).units.chans ch = r := by
  obtain ⟨im, sp, hcore⟩ := core_commandFault ((s.setChan c ch r).forget (4 * c + ch)) c e 4 ch cause addr st
  rw [State.copyFault, hcore]
  exact chan_setChan s c ch r

section
variable {s : State} {c ch : Nat} {e : EngCmd} {r : List EngCmd}

theorem exec_copyCommand {u : State} (hc : c < 128) (hch : ch < 4) (h : s.copyStep c ch = some u) : exec (.copyCommand c ch) s = .next u := by
  rw [show exec (.copyCommand c ch) s = execCopyCommand c ch s from rfl, execCopyCommand, coreEvent_next]
  exact ⟨hc, (if_pos hch).trans h⟩

variable (hchan : mget [] (s.core c).units.chans ch = e :: r)
include hchan

theorem copyStep_begins (hlate : (s.core c).lateStart (e :: r) s.cyc = none) (hbegun : e.begun = none) (hbegins : (s.core c).begins e s.cyc = true) :
    s.copyStep c ch = some (s.copyBegin c ch e r) := by
  unfold State.copyStep
  dsimp only
  rw [hchan, hlate]
  simp only [hbegun, hbegins, if_true]

/-- A run of a copy between local addresses is moved in one cycle. -/
theorem copyStep_moves (hlate : (s.core c).lateStart (e :: r) s.cyc = none) (hbegun : e.begun.isSome = true) (hidx : e.idx ≠ []) (hat : e.nextAt ≤ s.cyc)
    (hfill : e.fill = false) (hwait : e.wait = .go) (hreqs : ∀ q ∈ s.dom.reqs, q.core ≠ 128 + (4 * c + ch))
    {t : Tensor} (ht : tensorOf e.buf e.ends.1 e.ends.2 = .ok t) : s.copyStep c ch = some (s.copyRun c ch e r t) := by
  obtain ⟨b, hb⟩ := Option.isSome_iff_exists.1 hbegun
  have hstalled : s.copyStalled (4 * c + ch) e = false := by
    rw [State.copyStalled, hfill, Bool.false_and, Bool.false_or, List.any_eq_false]
    intro q hq
    simp [hreqs q hq]
  unfold State.copyStep
  dsimp only
  rw [hchan, hlate]
  simp only [hb]
  rw [if_neg (by simp [hidx, hstalled, Nat.not_lt.2 hat]), hwait]
  dsimp only
  rw [if_neg (by rintro ⟨⟩), ht]
  dsimp only
  rw [if_neg (by simp [hfill])]

theorem exec_copyComplete (hc : c < 128) (hend : e.begun.isSome = true ∧ e.idx = [] ∧ e.nextAt ≤ s.cyc ∧ s.writesOut (4 * c + ch) = false) :
    exec (.copyComplete c ch) s = .next (((s.setChan c ch r).forget (4 * c + ch)).signalSem c e.ctx e.sem) := by
  rw [show exec (.copyComplete c ch) s = execCopyComplete c ch s from rfl, execCopyComplete, coreEvent_next, hchan]
  exact ⟨hc, if_pos hend⟩

end

section
variable {s : State} {c ch : Nat} {e : EngCmd} {r : List EngCmd}

/-- A command whose descriptor cannot be read, or is malformed, ends. -/
theorem copyBegin_fails (h : (s.core c).checkLocal e.ctx s.tstep e.b.toNat 128 true ≠ none ∨ e.b.toNat % 128 ≠ 0 ∨
      ∃ n, tensorOf ((s.core c).bytes e.b.toNat 128) e.ends.1 e.ends.2 = .error n) :
    mget [] ((s.copyBegin c ch e r).core c).units.chans ch = r := by
  unfold State.copyBegin
  dsimp only
  split
  · exact chan_copyFault ..
  · next hcheck =>
    split
    · exact chan_copyFault ..
    · next hb =>
      obtain ⟨n, hn⟩ := (h.resolve_left (not_not_intro hcheck)).resolve_left hb
      rw [hn]
      exact chan_copyFault ..

/-- A command begins with what its descriptor says. -/
theorem copyBegin_ok (hcheck : (s.core c).checkLocal e.ctx s.tstep e.b.toNat 128 true = none) (hb : e.b.toNat % 128 = 0) {t : Tensor}
    (ht : tensorOf ((s.core c).bytes e.b.toNat 128) e.ends.1 e.ends.2 = .ok t) :
    ∃ at_ idx, mget [] ((s.copyBegin c ch e r).core c).units.chans ch =
        { e with begun := some s.cyc, buf := (s.core c).bytes e.b.toNat 128, idx := idx, nextAt := at_ } :: r ∧
      (t.empty = true → idx = [] ∧ at_ = s.cyc) ∧
      (t.empty = false → idx = List.replicate t.dims.length 0 ∧ (e.var = 2 → at_ = s.cyc + 1) ∧ (e.var ≠ 2 → s.cyc + 1 ≤ at_)) := by
  unfold State.copyBegin
  dsimp only
  rw [hcheck]
  dsimp only
  rw [if_neg (not_not_intro hb), ht]
  dsimp only
  split
  · next h => exact ⟨_, _, chan_setChan .., fun _ => ⟨rfl, rfl⟩, fun h' => by rw [h] at h'; cases h'⟩
  · next h =>
    split
    · next hvar => exact ⟨_, _, chan_setChan .., fun h' => absurd h' h, fun _ => ⟨rfl, fun _ => rfl, fun hne => absurd hvar hne⟩⟩
    · next hvar => exact ⟨_, _, chan_setChan .., fun h' => absurd h' h, fun _ => ⟨rfl, fun h2 => absurd h2 hvar, fun _ => later_le s 1⟩⟩

/-- The bytes of a run that are delivered away are counted in an image alone. -/
theorem deliveredAway_state (s : State) (c ctx ch n : Nat) : ∃ im, s.deliveredAway c ctx ch n = { s with images := im } := by
  unfold State.deliveredAway
  dsimp only
  split
  · exact ⟨s.images, rfl⟩
  · split
    · exact ⟨_, rfl⟩
    · exact ⟨s.images, rfl⟩

/-- A run between local addresses is counted, and the next one follows on the next cycle. -/
theorem copyNext_local (hvar : e.var = 2) (t : Tensor) (x : Run) (ps : List Post) (w : Map Nat) :
    mget [] ((s.copyNext c ch e r t x ps w).core c).units.chans ch =
        { e with idx := t.after e.idx x, j := e.j + 1, nextAt := s.cyc + 1, written := w, wait := .go, fill := false } :: r ∧
      ((s.copyNext c ch e r t x ps w).core c).posted = (s.core c).posted ++ (ps ++ [.cwp ch x.n e.ctx]) ∧
      (s.copyNext c ch e r t x ps w).mem = s.mem := by
  obtain ⟨im, him⟩ := deliveredAway_state (s.posts c (ps ++ [.cwp ch x.n e.ctx])) c e.ctx ch x.n
  unfold State.copyNext
  dsimp only
  rw [if_pos (.inl hvar), him]
  refine ⟨chan_setChan .., ?_, rfl⟩
  rw [State.setChan, State.core_modUnits, if_pos rfl]
  show ((s.posts c _).core c).posted = _
  rw [State.posts, State.core_modCore, if_pos rfl]

/-- A run between local addresses that passes its checks is read and written. -/
theorem copyRun_local (hvar : e.var = 2) {t : Tensor}
    (hso : (s.core c).checkLocal e.ctx s.tstep (t.run e.la e.a.toNat true true e.idx).so (t.run e.la e.a.toNat true true e.idx).n true = none)
    (hdt : (s.core c).checkLocal e.ctx s.tstep (t.run e.la e.a.toNat true true e.idx).dt (t.run e.la e.a.toNat true true e.idx).n false = none) :
    ∃ ps w, s.copyRun c ch e r t = s.copyNext c ch e r t (t.run e.la e.a.toNat true true e.idx)
      (writePosts (t.run e.la e.a.toNat true true e.idx).dt ((s.core c).bytes (t.run e.la e.a.toNat true true e.idx).so (t.run e.la e.a.toNat true true e.idx).n) ++ ps) w := by
  have hends : e.ends = (e.la, e.a.toNat) := if_neg (by omega)
  unfold State.copyRun
  dsimp only
  rw [if_neg (by omega), hends, hvar]
  simp only [show ((2 : Nat) != 0) = true from rfl, show ((2 : Nat) != 1) = true from rfl]
  rw [hso]
  dsimp only
  rw [State.copyPut]
  dsimp only
  rw [if_neg (by omega), hdt]
  exact ⟨_, _, rfl⟩

end

end Sys2Proof.Machine

namespace Sys2Proof.Proofs
open Sys2Proof.Machine

theorem copiesMoveTheirRuns : Claims.CopiesMoveTheirRuns := by
  intro s f c ch e r
  refine ⟨fun hready => ?_, fun hc hch hchan => ?_⟩
  · intro early joins
    have hin : exec (.cpyIn f) s = issue s [f.a, f.b] (actCpy 0 f) := show execCpyIn f s = _ from rfl
    have hout : exec (.cpyOut f) s = issue s [f.a, f.b] (actCpy 1 f) := show execCpyOut f s = _ from rfl
    have hll : exec (.cpyLl f) s = issue s [f.a, f.b] (actCpy 2 f) := show execCpyLl f s = _ from rfl
    have htraps {i : Instr} {var : Nat} (hexec : exec i s = issue s [f.a, f.b] (actCpy var f)) (hlocal : var = 2 → (s.rd f.a).toNat < 2 ^ 23)
        (hearly : early) : s.Traps i 0x25 0 :=
      traps_startTrap hexec hready ((actCpy_eq hlocal).trans (if_pos (earlyStart_iff.2 hearly)))
    have hjoins {i : Instr} {var : Nat} (hexec : exec i s = issue s [f.a, f.b] (actCpy var f)) (hlocal : var = 2 → (s.rd f.a).toNat < 2 ^ 23)
        (hnot : ¬early) : joins i var :=
      ⟨s.copyCommand var f, rfl, rfl, rfl, rfl, rfl, rfl, rfl, rfl,
        State.issues_of_done hexec hready ((actCpy_eq hlocal).trans (if_neg (fun h => hnot (earlyStart_iff.1 h))))⟩
    refine ⟨fun hearly => ⟨htraps hin (by omega) hearly, htraps hout (by omega) hearly⟩, fun hfar => ?_, fun hnear hearly => htraps hll (fun _ => hnear) hearly,
      fun hnot => ⟨hjoins hin (by omega) hnot, hjoins hout (by omega) hnot⟩, fun hnear hnot => hjoins hll (fun _ => hnear) hnot⟩
    exact State.traps_of_opTrap hll hready (if_pos ⟨rfl, hfar⟩)
  · intro co d bs starts
    refine ⟨fun hstarts hd hb t ht => ?_, fun hstarts hbad => ?_, fun t hbegun hlate hidx hat hfill hvar hwait hreqs ht => ?_,
      fun hbegun hidx hat hout => ?_⟩
    · obtain ⟨hbegun, hlate, hbegins⟩ := hstarts
      obtain ⟨at_, idx, hspec, hempty, hfull⟩ := copyBegin_ok (ch := ch) (r := r) hd hb ht
      exact ⟨_, _, exec_copyCommand hc hch (copyStep_begins hchan hlate hbegun hbegins), hspec, rfl, rfl, hempty, hfull⟩
    · obtain ⟨hbegun, hlate, hbegins⟩ := hstarts
      exact ⟨_, exec_copyCommand hc hch (copyStep_begins hchan hlate hbegun hbegins), copyBegin_fails hbad⟩
    · intro x hso hdt
      have hstep := copyStep_moves hchan hlate hbegun hidx hat hfill hwait hreqs ht
      obtain ⟨ps, w, hrun⟩ := copyRun_local (ch := ch) (r := r) hvar hso hdt
      obtain ⟨hnext, hposted, hmem⟩ := copyNext_local (s := s) (c := c) (ch := ch) (r := r) hvar t x (writePosts x.dt (co.bytes x.so x.n) ++ ps) w
      exact ⟨_, _, ps, exec_copyCommand hc hch (hstep.trans (congrArg some hrun)), hnext, rfl, rfl, rfl, hposted, hmem⟩
    · refine ⟨_, exec_copyComplete hchan hc ⟨hbegun, hidx, hat, hout⟩, ?_, fun hbound hctx hleaving => ?_⟩
      · obtain ⟨im, hcore⟩ := core_signalSem ((s.setChan c ch r).forget (4 * c + ch)) c e.ctx e.sem c
        rw [hcore]
        exact chan_setChan s c ch r
      · exact sem_completed (s := { s with dom := (s.forget (4 * c + ch)).dom }) (fun u => { u with chans := mset u.chans ch r }) hbound hctx hleaving

/-- Settles O54, by its two claims: on the plane unit, and on the copy channels. -/
theorem planeBlocksAndCopies : Obligations.PlaneBlocksAndCopies := ⟨planeBlocksAreBuilt, copiesMoveTheirRuns⟩

end Sys2Proof.Proofs
end


-- ==== Sys2Proof/Proofs/Exchange.lean ====
section
/-! PROOFS. The exchange engine: pooling over shards, and collectives (R400 to R404). -/
namespace Sys2Proof.Machine

section
variable {s : State} {w : Nat} {x : Work}

/-- A packet whose work succeeds ends with its writes and its record, whatever of the domain's messages it then gives up. -/
theorem embed_places_then {name : String} {i : Instr} {body : Work → State → EngR Res} {g : State → State} (h : s.Working w x) (hbusy : s.listBusy w x = false)
    (hexec : exec i s = event name ((s.doEmbed w (fun _ => true) body (fun _ s => s)).map g)) (hg : ∀ t, (g t).works = t.works)
    {r : Res} {s1 : State} (hbody : body x s = .ok r s1) (hcyc : s1.cyc = s.cyc) : s.WorkPlaces i w x s1 r.writes r.count r.flags r.hits := by
  intro wr s2 hrec
  have hcyc2 : s2.cyc = s.cyc := (keeps_of_ok (agentFrame_cyc.recordPut s1 x _) hrec).trans hcyc
  have hstep := doEmbed_working (body := body) (after := fun _ s => s) h (kinds := fun _ => true) rfl hbusy
  rw [withRecord_ok h hbody hrec] at hstep
  dsimp only at hstep
  rw [ite_self, State.embedDone] at hstep
  generalize ht : (if isCard x.pkt = true then s2 else _) = t at hstep
  have htcyc : t.cyc = s.cyc := by
    rw [← ht]
    split
    · exact hcyc2
    · exact (embedDone_rows_cyc _ _ _).trans hcyc2
  obtain ⟨y, hy, heq, hat⟩ := find_workDone t w x
    { out := r.writes.1 ++ wr.1, posts := r.writes.2 ++ wr.2, frames := r.rows, cause := 0, errstat := 0, erraddr := 0 }
  refine ⟨_, y, ?_, (congrArg (mfind · w) (hg _)).trans hy, ?_, ?_, ?_, ?_, ?_, ?_, ?_, by rwa [← htcyc]⟩
  · rw [hexec, hstep]
    rfl
  all_goals rw [heq]

end

/-! ### Pooling over shards -/

/-- A packet that is done gives up the messages about it. -/
def forgetExchanged (w : Nat) (x : Work) (t : State) : State :=
  match mfind t.works w with
  | some y => if y.stage = WStage.taken then t else t.forgetExchange x
  | none => t.forgetExchange x

theorem works_forgetExchanged (w : Nat) (x : Work) (t : State) : (forgetExchanged w x t).works = t.works := by
  unfold forgetExchanged
  split
  · split <;> rfl
  · rfl

theorem agentFrame_shardParts {α : Type} {φ : State → α} (hφ : AgentFrame φ) (s : State) (g : Agent) (va : Word) (e : Int) (wt : Bool) (per bags : Nat)
    (ents : List (Nat × Nat × Nat)) : φ (s.shardParts g va e wt per bags ents).state = φ s := by
  unfold State.shardParts
  refine keeps_andThen (hφ.eTableAt s g va) (fun t u _ => keeps_andThen (keeps_engMap (fun _ p v => ?_) 0 ents u) (fun _ _ _ => rfl))
  split
  · rfl
  · exact hφ.rowPlaceFor v g t [0] false p.1 p.2.1

theorem agentFrame_ownParts {α : Type} {φ : State → α} (hφ : AgentFrame φ) (s : State) (x : Work) : φ (s.ownParts x).state = φ s :=
  keeps_engMap (fun _ _ _ => agentFrame_shardParts hφ ..) 0 _ s

theorem modid_send (s : State) (m : Msg) : (s.send m).dom.modid = s.dom.modid := by
  unfold State.send
  dsimp only
  split <;> rfl

/-- Messages sent for those of a list that another module owns. -/
theorem foldl_sendFar {β : Type} (owner : β → Nat) (f : β → Msg) (l : List β) (s : State) :
    (∀ b ∈ l, owner b ≠ s.dom.modid → f b ∈ (l.foldl (fun s b => if owner b = s.dom.modid then s else s.send (f b)) s).outbox) ∧
      (l.foldl (fun s b => if owner b = s.dom.modid then s else s.send (f b)) s).works = s.works ∧
      s.outbox ⊆ (l.foldl (fun s b => if owner b = s.dom.modid then s else s.send (f b)) s).outbox := by
  induction l generalizing s with
  | nil => exact ⟨fun b hb => absurd hb List.not_mem_nil, rfl, List.Subset.refl _⟩
  | cons a r ih =>
    rw [List.foldl_cons]
    by_cases ha : owner a = s.dom.modid
    · rw [if_pos ha]
      obtain ⟨hsent, hworks, hsub⟩ := ih s
      exact ⟨fun b hb hnot => hsent b ((List.mem_cons.1 hb).resolve_left (fun h => hnot (h ▸ ha))) hnot, hworks, hsub⟩
    · rw [if_neg ha]
      obtain ⟨hsent, hworks, hsub⟩ := ih (s.send (f a))
      refine ⟨fun b hb hnot => ?_, hworks, fun m hm => hsub (List.mem_append_left _ hm)⟩
      obtain rfl | hb := List.mem_cons.1 hb
      · exact hsub (List.mem_append_right _ (List.mem_singleton_self _))
      · exact hsent b hb (by rwa [modid_send])

section
variable {s : State} {w : Nat} {x : Work}

theorem stageOf_ok (hwait : x.wait = .go) {t u : State} {r : EngR State} (hr : r = .ok t u) : s.stageOf w x r = some t := by
  rw [State.stageOf, resume_go hwait, hr]

theorem stageOf_fail (hwait : x.wait = .go) {u : State} {cause run : Nat} {va : Word} {r : EngR State} (hr : r = .fail cause run va u) :
    s.stageOf w x r = some ((u.forget (s.workAgent x).id).setWork w (x.failed cause run va)) := by
  rw [State.stageOf, resume_go hwait, hr]

theorem find_setWork (s : State) (w : Nat) (x : Work) : mfind (s.setWork w x).works w = some x := (mfind_mset ..).trans (if_pos rfl)

/-- A packet for pooling over shards keeps its map and list and asks the owners of the other modules' shards for their tables. -/
theorem exchangePool_opens (h : s.Working w x) (hkind : pKind x.pkt = 0x50) (hpos : x.pos = []) {mb lb : List Byte} {s1 s2 : State}
    (hmap : s.shardBytes x = .ok mb s1) (hlist : s1.listBytes x = .ok lb s2) :
    ∃ u y, exec (.exchangePool w) s = .next u ∧ mfind u.works w = some y ∧ y.frames = [(0, mb), (1, lb)] ∧ y.pos = [1] ∧ y.stage = .taken ∧
      ∀ k ∈ s2.shards y, k.2.owner ≠ s2.dom.modid → .tableAsk k.2.owner x.q x.idx k.1 x.ctx k.2.desc ∈ u.outbox := by
  have hready := workReady_of_working h
  obtain ⟨hfind, hstage, -, -, hwait, -⟩ := h
  have hopen := (andThen_of_ok (fun mb s => (s.listBytes x).andThen (fun lb s =>
    let y : Work := { x with frames := [(0, mb), (1, lb)], pos := [1], wait := .go }
    let s1 := (s.forget (s.workAgent x).id).setWork w y
    EngR.ok ((s1.shards y).foldl (fun s h =>
      if h.2.owner = s.dom.modid then s else s.send (.tableAsk h.2.owner x.q x.idx h.1 x.ctx h.2.desc)) s1) s)) hmap).trans (andThen_of_ok _ hlist)
  obtain ⟨hsent, hworks, -⟩ := foldl_sendFar (fun h : Nat × Shard => h.2.owner) (fun h => .tableAsk h.2.owner x.q x.idx h.1 x.ctx h.2.desc)
    (s2.shards { x with frames := [(0, mb), (1, lb)], pos := [1], wait := .go })
    ((s2.forget (s2.workAgent x).id).setWork w { x with frames := [(0, mb), (1, lb)], pos := [1], wait := .go })
  refine ⟨_, _, ?_, (congrArg (mfind · w) hworks).trans (find_setWork ..), rfl, rfl, hstage, fun k hk hfar => hsent k hk hfar⟩
  rw [show exec (.exchangePool w) s = execExchangePool w s from rfl, execExchangePool, event_next, State.exchangeStep, hfind]
  dsimp only
  rw [if_neg (by simp [hkind, hready]), hpos]
  exact stageOf_ok hwait hopen

/-- Once all partials are there, and none reports a failure, the packet ends with what they merge to. -/
theorem exchangePool_merges (h : s.Working w x) (hkind : pKind x.pkt = 0x50) {d : Nat} (hpos : x.pos = [2, d])
    (hall : ∀ k ∈ s.farShards x, ∃ a ∈ s.partialsFor x, a.1 = k) {r : Res} {s1 : State} (hbody : exchangeWork x s = .ok r s1) (hcyc : s1.cyc = s.cyc) :
    s.WorkPlaces (.exchangePool w) w x s1 r.writes r.count r.flags r.hits := by
  have hready := workReady_of_working h
  have hfind : mfind s.works w = some x := h.1
  refine embed_places_then (g := forgetExchanged w x) h (listBusy_of_kind hkind (by decide)) (name := "EXCHANGE_POOL") ?_ (works_forgetExchanged w x) hbody hcyc
  have hcond : (s.farShards x).all (fun k => (s.partialsFor x).any (fun a => decide (a.1 = k))) = true := by
    rw [List.all_eq_true]
    intro k hk
    obtain ⟨a, ha, hak⟩ := hall k hk
    exact List.any_eq_true.2 ⟨a, ha, decide_eq_true hak⟩
  rw [show exec (.exchangePool w) s = execExchangePool w s from rfl, execExchangePool, State.exchangeStep, hfind]
  dsimp only
  rw [if_neg (by simp [hkind, hready]), hpos]
  exact congrArg _ (if_pos (.inr hcond))

end

/-! ### Collectives -/

/-- A packet that is done gives up the contributions to its collective. -/
def endCollective (w : Nat) (x : Work) (s : State) (t : State) : State :=
  match mfind t.works w with
  | some y => if y.stage = WStage.taken then t else t.collectiveOver x.ctx (if x.awaits.isEmpty then s.otherRanks else x.awaits)
  | none => t

theorem works_collectiveOver (s : State) (ctx : Nat) (ranks : List Nat) : (s.collectiveOver ctx ranks).works = s.works := by
  unfold State.collectiveOver
  refine Eq.trans (foldl_state_keeps (φ := State.works) _ ?_ ranks _) rfl
  exact fun _ _ => rfl

theorem works_endCollective (w : Nat) (x : Work) (s t : State) : (endCollective w x s t).works = t.works := by
  unfold endCollective
  split
  · split
    · rfl
    · exact works_collectiveOver ..
  · rfl

/-- A contribution is sent to every rank of a list. -/
theorem foldl_contribute (ctx : Nat) (c : Contrib) (l : List Nat) (s : State) :
    (l.foldl (fun s r => s.send (.contribute r ctx c.num c.n c.e c.fmt c.vals s.sgen)) s).works = s.works ∧
      (l.foldl (fun s r => s.send (.contribute r ctx c.num c.n c.e c.fmt c.vals s.sgen)) s).outbox =
        s.outbox ++ l.map (fun r => .contribute r ctx c.num c.n c.e c.fmt c.vals s.sgen) := by
  induction l generalizing s with
  | nil => exact ⟨rfl, (List.append_nil _).symm⟩
  | cons a r ih =>
    obtain ⟨hworks, hout⟩ := ih (s.send (.contribute a ctx c.num c.n c.e c.fmt c.vals s.sgen))
    refine ⟨hworks, ?_⟩
    rw [List.foldl_cons, hout, List.map_cons]
    exact List.append_assoc s.outbox [_] _

section
variable {s : State} {w : Nat} {x : Work} (h : s.Working w x) (hkind : pKind x.pkt = 0x51) (hturn : s.redBehind w x = false)
include h hkind hturn

theorem exec_reduce_opens (hpos : x.pos = []) : exec (.exchangeReduce w) s = event "EXCHANGE_REDUCE" (s.stageOf w x (s.redOpen w x)) := by
  have hready := workReady_of_working h
  have hfind : mfind s.works w = some x := h.1
  rw [show exec (.exchangeReduce w) s = execExchangeReduce w s from rfl, execExchangeReduce, State.redStep, hfind]
  dsimp only
  rw [if_neg (by simp [hkind, hready, hturn]), if_pos (by rw [hpos]; rfl)]

/-- A collective that comes too late, or outside a group, fails. -/
theorem exchangeReduce_late (hpos : x.pos = []) (hlate : bit s.dom.dgrp.toNat 0 = false ∨ s.firstContrib x + oneMs ≤ s.cyc) :
    ∃ u y, exec (.exchangeReduce w) s = .next u ∧ mfind u.works w = some y ∧ y.cause = 0xA3 ∧ y.stage = .taken := by
  have hopen : s.redOpen w x = .fail 0xA3 0 0 s := if_pos hlate
  have hexec := exec_reduce_opens h hkind hturn hpos
  obtain ⟨-, hstage, -, -, hwait, -⟩ := h
  refine ⟨(s.forget (s.workAgent x).id).setWork w (x.failed 0xA3 0 0), x.failed 0xA3 0 0, ?_, find_setWork .., rfl, hstage⟩
  rw [hexec, event_next]
  exact stageOf_fail hwait hopen

/-- A packet for a collective keeps its contribution and sends it to the other members. -/
theorem exchangeReduce_contributes (hpos : x.pos = []) (hgroup : bit s.dom.dgrp.toNat 0 = true) (htime : s.cyc < s.firstContrib x + oneMs) {c : Contrib} {s1 : State}
    (hsource : s.redSource x = .ok c s1) :
    ∃ u y, exec (.exchangeReduce w) s = .next u ∧ mfind u.works w = some y ∧ y.frames = c.keep ∧ y.pos = 1 :: (s1.otherRanks ++ s1.departed x.ctx) ∧
      y.since = s1.cyc ∧ y.cause = (if s1.dom.doomed.contains (x.ctx, 0) then 0xA3 else 0) ∧
      ∀ r ∈ s1.otherRanks, .contribute r x.ctx c.num c.n c.e c.fmt c.vals s1.sgen ∈ u.outbox := by
  have hexec := exec_reduce_opens h hkind hturn hpos
  obtain ⟨-, -, -, hcause, hwait, -⟩ := h
  have hopen : s.redOpen w x = _ := (if_neg (by rw [hgroup]; simp [htime])).trans (andThen_of_ok _ hsource)
  obtain ⟨hworks, hout⟩ := foldl_contribute x.ctx c s1.otherRanks ((s1.forget (s1.workAgent x).id).setWork w
    { x with frames := c.keep, pos := 1 :: (s1.otherRanks ++ s1.departed x.ctx), since := s1.cyc, wait := .go,
             cause := if s1.dom.doomed.contains (x.ctx, 0) then 0xA3 else x.cause })
  refine ⟨_, _, ?_, (congrArg (mfind · w) hworks).trans (find_setWork ..), rfl, rfl, rfl, by rw [hcause], fun r hr => ?_⟩
  · rw [hexec, event_next]
    exact stageOf_ok hwait hopen
  · rw [hout]
    exact List.mem_append_right _ (List.mem_map_of_mem hr)

/-- Once all contributions are there, and alike, the packet ends with their sums. -/
theorem exchangeReduce_sums {aw : List Nat} (hpos : x.pos = 1 :: aw) (hall : ∀ r ∈ aw, s.contrib x.ctx r ≠ none) {r : Res} {s1 : State}
    (hbody : redWork x s = .ok r s1) (hcyc : s1.cyc = s.cyc) : s.WorkPlaces (.exchangeReduce w) w x s1 r.writes r.count r.flags r.hits := by
  have hready := workReady_of_working h
  have hfind : mfind s.works w = some x := h.1
  refine embed_places_then (g := endCollective w x s) h (listBusy_of_kind hkind (by decide)) (name := "EXCHANGE_REDUCE") ?_ (works_endCollective w x s) hbody hcyc
  have hcond : (x.awaits.map (fun r => s.contrib x.ctx r)).all (fun c => c.isSome) = true := by
    rw [List.all_map, Work.awaits, hpos, List.all_eq_true]
    exact fun r hr => Option.isSome_iff_ne_none.2 (hall r hr)
  rw [show exec (.exchangeReduce w) s = execExchangeReduce w s from rfl, execExchangeReduce, State.redStep, hfind]
  dsimp only
  rw [if_neg (by simp [hkind, hready, hturn]), if_neg (by rw [hpos]; exact Bool.false_ne_true)]
  exact congrArg _ (if_pos (.inr (.inl hcond)))

/-- A contribution that has not come in time has the collective fail. -/
theorem exec_collectiveTimeout {aw : List Nat} (hpos : x.pos = 1 :: aw) (hmissing : ∃ r ∈ aw, s.contrib x.ctx r = none)
    (hlate : s.firstContrib x + oneMs ≤ s.cyc) : exec (.collectiveTimeout w) s = .next (s.setWork w { x with cause := 0xA3 }) := by
  have hready := workReady_of_working h
  obtain ⟨hfind, -, -, hcause, -⟩ := h
  have hany : x.awaits.any (fun r => (s.contrib x.ctx r).isNone) = true := by
    obtain ⟨r, hr, hnone⟩ := hmissing
    rw [Work.awaits, hpos]
    exact List.any_eq_true.2 ⟨r, hr, by rw [hnone]; rfl⟩
  rw [show exec (.collectiveTimeout w) s = execCollectiveTimeout w s from rfl, execCollectiveTimeout, event_next, hfind]
  exact if_pos ⟨hkind, hready, by rw [hpos]; rfl, hcause, hturn, hany, hlate⟩

end

end Sys2Proof.Machine

namespace Sys2Proof.Proofs
open Sys2Proof.Machine

/-- Settles O12: a packet's first step asks the other modules, and its last one ends it with what they gave; a collective that is late fails. -/
theorem exchangePoolsAndReduces : Obligations.ExchangePoolsAndReduces := by
  intro s w x h
  refine ⟨fun hkind => ⟨fun mb s1 lb s2 hpos hmap hlist => exchangePool_opens h hkind hpos hmap hlist, fun d own s1 wr s2 hpos hall hgood hown => ?_⟩,
    fun hkind hturn => ⟨fun hpos hlate => exchangeReduce_late h hkind hturn hpos hlate,
      fun c s1 hpos hgroup htime hsource => exchangeReduce_contributes h hkind hturn hpos hgroup htime hsource,
      fun aw ds hpos hds halike => ?_, fun aw hpos hmissing hlate => exec_collectiveTimeout h hkind hturn hpos hmissing hlate⟩⟩
  · intro l nv merged f rs hput
    have hnone : (s.partialsFor x).find? (fun a => decide (a.2.2.2.1 ≠ 0)) = none := by
      rw [List.find?_eq_none]
      intro a ha
      simp [hgood a ha]
    have hbody : exchangeWork x s = .ok { writes := wr, rows := [], count := l.n, flags := rs.foldl (fun f r => f ||| r.2) (nvIf nv), hits := 0 } s2 := by
      unfold exchangeWork
      dsimp only
      rw [hnone]
      dsimp only
      rw [andThen_of_ok _ hown, hpos]
      exact andThen_of_ok _ hput
    have hcyc : s2.cyc = s.cyc := (keeps_of_ok (agentFrame_cyc.pput s1 x _ _) hput).trans (keeps_of_ok (agentFrame_ownParts agentFrame_cyc s x) hown)
    have hplaces := exchangePool_merges h hkind hpos hall hbody hcyc
    exact hplaces
  · intro c f rs hself wr s1 hput
    have hsome : ∀ r ∈ aw, s.contrib x.ctx r ≠ none := by
      intro r hr hnone
      have hmem : none ∈ aw.map (fun r => s.contrib x.ctx r) := List.mem_map.2 ⟨r, hr, hnone⟩
      rw [hds] at hmem
      obtain ⟨d, -, hd⟩ := List.mem_map.1 hmem
      cases hd
    have hgot : aw.filterMap (fun r => s.contrib x.ctx r) = ds := by
      have := congrArg (List.filterMap id) hds
      simpa [List.filterMap_map] using this
    have hlike : (c :: ds).any (fun d => d.unlike c) = false := by
      rw [List.any_eq_false]
      intro d hd
      obtain rfl | hd := List.mem_cons.1 hd
      · rw [hself]; exact Bool.false_ne_true
      · rw [halike d hd]; exact Bool.false_ne_true
    have hbody : redWork x s = .ok { writes := wr, rows := [], count := (Config.freeWord s1.draws).toNat, flags := rs.foldl (fun f r => f ||| r.2) 0, hits := 0 }
        { s1 with draws := s1.draws + 1 } := by
      unfold redWork
      dsimp only
      rw [show x.awaits = aw by rw [Work.awaits, hpos]; rfl, hgot, if_neg (by rw [hlike]; exact Bool.false_ne_true)]
      exact andThen_of_ok _ hput
    have hcyc : s1.cyc = s.cyc := keeps_of_ok (agentFrame_cyc.pput s x _ _) hput
    have hplaces := exchangeReduce_sums h hkind hturn hpos hsome hbody hcyc
    exact ⟨_, hplaces⟩

end Sys2Proof.Proofs
end


-- ==== Sys2Proof/Proofs/SavedTile.lean ====
section
/-! PROOFS. The save of a tile (R371) is a write to memory, which the other commands of the array observe (R350). -/
namespace Sys2Proof.Machine

/-- A command of context 0 that clears tile 0, whose cycles run in %cyc; these are the bytes of memory that it has read. -/
def clearing (wrec : List (Nat × Nat)) : ArrCmd :=
  { op := .amz { tile := 0, a := 0, b := 0, kg := 0, fa := 0, fb := 0, prec := 0, zfh := 0, gam := 0, place := 0, sp := 0, isat := 0, n := 0, var := 0 },
    gam := 0, core := 0, ctx := 0, issue := 0, timed := false, cmdIdx := 0, seg := 0, b := none, g := 0, rAt := 0, e := none, flags := 0, wrec := wrec,
    touched := false, notBefore := 0, xfer := false, bankAt := 0, part := [], wts := [], scl := [], wait := .go, det := true }

/-- Tile 0 holds data of context 1, whose descriptor is at 0; of the commands in the queue the second has read the byte where context 1's saved mask stands. -/
def savedTileState : State :=
  { State.reset with
    cyc := 2
    descs := [(1, 0)]
    arrays := [(0, { ArrSt.init with queue := [clearing [], clearing [(0x50, 1)]], tiles := [(0, { Tile.init with inuse := true, dirty := true, owner := 1 })] })] }

/-- The second command observes the write of the mask. -/
theorem touched_after_save {u : State} (h : exec (.tileSave 0 0) savedTileState = .next u) : (u.arr 0).queue.map (fun x => x.touched) = [false, true] := by
  have heval : (match exec (.tileSave 0 0) savedTileState with
      | .next u => (u.arr 0).queue.map (fun x => x.touched)
      | _ => [false, true]) = [false, true] := by decide +kernel
  rw [h] at heval
  exact heval

end Sys2Proof.Machine

namespace Sys2Proof.Proofs
open Sys2Proof.Machine

/-- Refutes O48: the save of a tile does not leave the commands behind the head as they were, where one of them has read a byte that the save writes.
`savedTileState` is such a state. -/
theorem not_arraysRunTheirCommands : ¬ Obligations.ArraysRunTheirCommands := by
  unfold Obligations.ArraysRunTheirCommands
  rintro ⟨-, htransfers⟩
  obtain ⟨hhead, -⟩ := htransfers savedTileState 0 0 (clearing []) [clearing [(0x50, 1)]] (by decide) (by decide)
  obtain ⟨-, hsave, -⟩ := hhead (by decide +kernel) rfl
  obtain ⟨u, y, hnext, hqueue, -⟩ := hsave rfl (by decide +kernel) (by decide +kernel) (by decide +kernel)
  have htouched := touched_after_save hnext
  rw [hqueue] at htouched
  exact absurd htouched (by simp [clearing])

end Sys2Proof.Proofs
end


-- ==== Sys2Proof/Proofs/VectorIssue.lean ====
section
/-! PROOFS. Vector instructions issue: their codes, their ports, and their results in flight (R140, R142 to R144, R146, R151, R152, R355). -/
namespace Sys2Proof.Machine

/-! ### The table of vector instructions -/

theorem latFI_eq (f : VecF) (x y : Nat) : (if f.type.toNat ≤ 4 then x else y) = latFI f x y := by
  have hfmt : ∀ t : BitVec 4, (typeFmt t).isSome = decide (t.toNat ≤ 4) := by decide
  rw [latFI, hfmt]
  exact if_congr decide_eq_true_iff.symm rfl rfl

/-- What a vector instruction does is said by its row. -/
theorem exec_vecRow {s : State} {i : Instr} {f : VecF} {lat : Nat} {srcs : List (Nat × Nat)} {g : List Vec → VRes × List Bool} {p : Option (List Bool → Bool)}
    (h : vecRow i = some (f, lat, srcs, g, p)) : exec i s = execVec f lat srcs g p s := by
  unfold vecRow at h
  simp only [latFI_eq] at h
  split at h
  case h_10 f' =>
    show execVcvt f' s = _
    unfold execVcvt
    dsimp only
    split at h
    · next hw => rw [if_pos hw]; cases h; rfl
    · next hw => rw [if_neg hw]; cases h; rfl
  case h_35 => cases h
  all_goals
    simp only [Option.some.injEq, Prod.mk.injEq] at h
    obtain ⟨rfl, rfl, rfl, rfl, rfl⟩ := h
    rfl

/-! ### Results put in flight -/

/-- What puts results in flight on the issuing core changes of memory and cores nothing else. -/
structure State.Flies (s t : State) : Prop where
  mem : t.mem = s.mem
  cur : t.cur = s.cur
  others : ∀ c, c ≠ s.cur.core → t.core c = s.core c
  me : ∃ l, t.me = { s.me with im := { s.me.im with flight := l } }
  mono : s.me.im.flight ⊆ t.me.im.flight

theorem State.Flies.refl (s : State) : s.Flies s := ⟨rfl, rfl, fun _ _ => rfl, ⟨s.me.im.flight, rfl⟩, List.Subset.refl _⟩

theorem State.Flies.trans {s t u : State} (h : s.Flies t) (h' : t.Flies u) : s.Flies u := by
  obtain ⟨l, hl⟩ := h.me
  obtain ⟨l', hl'⟩ := h'.me
  exact ⟨h'.mem.trans h.mem, h'.cur.trans h.cur, fun c hc => (h'.others c (by rwa [h.cur])).trans (h.others c hc), ⟨l', by rw [hl', hl]⟩,
    fun x hx => h'.mono (h.mono hx)⟩

theorem State.Flies.t {s t : State} (h : s.Flies t) : t.t = s.t := by
  obtain ⟨l, hl⟩ := h.me
  rw [State.t, State.t, hl]

theorem result_flies (s : State) (lat ord : Nat) (fx : Fx) : s.Flies (s.result lat ord fx) := by
  refine ⟨rfl, rfl, fun c hc => ?_, ⟨_, State.me_result ..⟩, ?_⟩
  · rw [State.result_eq, State.core_modIm, if_neg hc]
  · rw [State.me_result]
    exact fun x hx => (mem_insertBy ..).2 (.inr hx)

/-- The results of the clusters are in flight. -/
theorem vecResults_flies (lat d : Nat) (rs : List (Bool × VRes × List Bool)) (s : State) :
    s.Flies (rs.foldl (fun s r => s.vecResult lat d r.1 r.2.1) s) ∧
      ∀ r ∈ rs, ∃ x ∈ (rs.foldl (fun s r => s.vecResult lat d r.1 r.2.1) s).me.im.flight, x.due = s.t + lat ∧ x.issue = s.t ∧
        x.fx = .vec r.1 (if d < 0x40 then some (s.me.im.vec.phys r.1 (d % 32)) else none) (destPort d) true r.2.1.1 r.2.1.2 := by
  induction rs generalizing s with
  | nil => exact ⟨.refl s, fun r hr => absurd hr List.not_mem_nil⟩
  | cons a rs ih =>
    have hone : s.Flies (s.vecResult lat d a.1 a.2.1) := result_flies ..
    obtain ⟨hflies, hin⟩ := ih (s.vecResult lat d a.1 a.2.1)
    refine ⟨hone.trans hflies, fun r hr => ?_⟩
    obtain rfl | hr := List.mem_cons.1 hr
    · exact ⟨_, hflies.mono (result_mem_flight ..), rfl, rfl, rfl⟩
    · obtain ⟨x, hx, hdue, hissue, hfx⟩ := hin r hr
      obtain ⟨l, hl⟩ := hone.me
      rw [hone.t] at hdue hissue
      rw [hl] at hfx
      exact ⟨x, hx, hdue, hissue, hfx⟩

/-- A predicate's result is in flight. -/
theorem wrPred_flies (s : State) (lat : Nat) (p : BitVec 4) (v : Bool) : s.Flies (s.wrPred lat p v) ∧
    (p ≠ 0 → ∃ x ∈ (s.wrPred lat p v).me.im.flight, x.due = s.t + lat ∧ x.fx = .pred s.cur.sq p.toNat v) := by
  unfold State.wrPred
  split
  · next hp => exact ⟨.refl s, fun h => absurd hp h⟩
  · exact ⟨result_flies .., fun _ => ⟨_, result_mem_flight .., rfl, rfl⟩⟩

/-- The predicate that a vector instruction writes, where it writes one. -/
def State.vecPredicate (s : State) (lat : Nat) (pr : BitVec 4) (p : Option (List Bool → Bool)) (bs : List Bool) : State :=
  match p with
  | some h => s.wrPred lat pr (h bs)
  | none => s

theorem vecPredicate_flies (s : State) (lat : Nat) (pr : BitVec 4) (p : Option (List Bool → Bool)) (bs : List Bool) :
    s.Flies (s.vecPredicate lat pr p bs) ∧ ∀ h, p = some h → pr ≠ 0 →
      ∃ x ∈ (s.vecPredicate lat pr p bs).me.im.flight, x.due = s.t + lat ∧ x.fx = .pred s.cur.sq pr.toNat (h bs) := by
  cases p with
  | none => exact ⟨.refl s, fun h hp => by cases hp⟩
  | some h =>
    obtain ⟨hflies, hpred⟩ := wrPred_flies s lat pr (h bs)
    exact ⟨hflies, fun h' hh => by cases hh; exact hpred⟩

/-! ### Pops of ports -/

theorem mget_popAll (v : VecSt) (cs : List Nat) (k q : Nat) : mget [] (v.popAll cs k).ports q = (mget [] v.ports q).drop (popCount cs q k) := by
  show mget [] (v.ports.map (fun p => (p.1, p.2.drop (popCount cs p.1 k)))) q = _
  induction v.ports with
  | nil => exact List.drop_nil.symm
  | cons p r ih =>
    obtain ⟨k', l⟩ := p
    by_cases hk : k' = q
    · subst hk
      simp [mget, mfind]
    · simpa [mget, mfind, hk] using ih

/-- TF and the pops of ports change the issuing core's vector state alone. -/
structure State.ModsVec (s t : State) (v : VecSt) : Prop where
  mem : t.mem = s.mem
  cur : t.cur = s.cur
  others : ∀ c, c ≠ s.cur.core → t.core c = s.core c
  me : t.me = { s.me with im := { s.me.im with vec := v } }

theorem modVec_mods (s : State) (f : VecSt → VecSt) : s.ModsVec (s.modVec s.cur.core f) (f s.me.im.vec) :=
  ⟨rfl, rfl, fun _ hc => (State.core_modIm ..).trans (if_neg hc), State.me_modIm ..⟩

theorem raiseTF_mods (s : State) (ys : List Bool) : ∃ x y, s.ModsVec (s.raiseTF ys) { s.me.im.vec with fsx := x, fsy := y } := by
  unfold State.raiseTF
  split
  · exact ⟨_, _, modVec_mods ..⟩
  · exact ⟨_, _, ⟨rfl, rfl, fun _ _ => rfl, rfl⟩⟩

/-! ### The effect of a vector instruction -/

theorem vecClusters_eq (f : VecF) :
    vecClusters f = if f.var.toNat / 4 = 0 then [false] else if f.var.toNat / 4 = 1 then [true] else [false, true] := by
  unfold vecClusters
  split
  · next h => rw [if_pos h]
  · next h => rw [if_neg (by omega), if_pos h]
  · next h0 h1 => rw [if_neg h0, if_neg h1]

section
variable {s : State} {f : VecF} {lat : Nat} {srcs : List (Nat × Nat)} {g : List Vec → VRes × List Bool} {p : Option (List Bool → Bool)}

/-- What a cluster computes from the sources as they stand. -/
def State.vecValue (s : State) (f : VecF) (srcs : List (Nat × Nat)) (g : List Vec → VRes × List Bool) (y : Bool) : VRes × List Bool :=
  g ((upTo 0 srcs.length).map (fun i => s.me.im.vecSource y (srcs.map (fun x => x.1)) (vecClusters f).length i (srcs.getD i (0, 32)).2))

/-- The state in which a vector instruction has popped its ports. -/
def State.vecPopped (s : State) (f : VecF) (srcs : List (Nat × Nat)) : State :=
  (s.raiseTF (vecClusters f)).modVec s.cur.core (fun v => v.popAll (srcs.map (fun x => x.1)) (vecClusters f).length)

/-- The clusters with their outcomes. -/
def State.vecOutcomes (s : State) (f : VecF) (srcs : List (Nat × Nat)) (g : List Vec → VRes × List Bool) : List (Bool × VRes × List Bool) :=
  (vecClusters f).map (fun y => (y, s.vecValue f srcs g y))

/-- The state in which the clusters' results are in flight. -/
def State.vecFlown (s : State) (f : VecF) (lat : Nat) (srcs : List (Nat × Nat)) (g : List Vec → VRes × List Bool) : State :=
  (s.vecOutcomes f srcs g).foldl (fun s r => s.vecResult lat f.d.toNat r.1 r.2.1) (s.vecPopped f srcs)

theorem actVec_done (hshort : s.me.im.vec.shortPort (srcs.map (fun x => x.1)) (vecClusters f).length = none)
    (hfull : s.me.im.fullPort f.d.toNat (vecClusters f).length = none)
    (hgood : s.me.im.vecFlawed (vecClusters f) (srcs.map (fun x => x.1)) (vecClusters f).length = false) :
    actVec f lat srcs g p s = .done ((s.vecFlown f lat srcs g).vecPredicate lat f.p p ((s.vecOutcomes f srcs g).flatMap (fun r => r.2.2))) := by
  unfold actVec
  dsimp only
  rw [hshort]
  dsimp only
  rw [hfull]
  dsimp only
  rw [hgood, if_neg Bool.false_ne_true]
  rfl

theorem vecPopped_mods (s : State) (f : VecF) (srcs : List (Nat × Nat)) :
    ∃ x y, s.ModsVec (s.vecPopped f srcs) (VecSt.popAll { s.me.im.vec with fsx := x, fsy := y } (srcs.map (fun x => x.1)) (vecClusters f).length) := by
  obtain ⟨x, y, hraise⟩ := raiseTF_mods s (vecClusters f)
  have hpop := modVec_mods (s.raiseTF (vecClusters f)) (fun v => v.popAll (srcs.map (fun x => x.1)) (vecClusters f).length)
  rw [hraise.cur] at hpop
  have hme := hpop.me
  rw [hraise.me] at hme
  exact ⟨x, y, hpop.mem.trans hraise.mem, hpop.cur.trans hraise.cur,
    fun c hc => (hpop.others c (by rw [hraise.cur]; exact hc)).trans (hraise.others c hc), hme⟩

/-- What a vector instruction leaves: its ports popped, its results and its predicate in flight, and all else as it was. -/
theorem vecFlown_spec (s : State) (f : VecF) (lat : Nat) (srcs : List (Nat × Nat)) (g : List Vec → VRes × List Bool) (p : Option (List Bool → Bool)) :
    ∃ t, (s.vecFlown f lat srcs g).vecPredicate lat f.p p ((s.vecOutcomes f srcs g).flatMap (fun r => r.2.2)) = t ∧ t.mem = s.mem ∧ (∀ c, c ≠ s.cur.core → t.core c = s.core c) ∧ t.me.spad = s.me.spad ∧ t.me.posted = s.me.posted ∧
      (∀ q, mget [] t.me.im.vec.ports q = (mget [] s.me.im.vec.ports q).drop (popCount (srcs.map (fun x => x.1)) q (vecClusters f).length)) ∧
      (∀ y ∈ vecClusters f, ∃ x ∈ t.me.im.flight, x.due = s.t + lat ∧ x.issue = s.t ∧
        x.fx = .vec y (if f.d.toNat < 0x40 then some (s.me.im.vec.phys y (f.d.toNat % 32)) else none) (destPort f.d.toNat) true (s.vecValue f srcs g y).1.1
          (s.vecValue f srcs g y).1.2) ∧
      (∀ h, p = some h → f.p ≠ 0 → ∃ x ∈ t.me.im.flight, x.due = s.t + lat ∧
        x.fx = .pred s.cur.sq f.p.toNat (h ((vecClusters f).flatMap (fun y => (s.vecValue f srcs g y).2)))) ∧
      ∀ x ∈ s.me.im.flight, x ∈ t.me.im.flight := by
  obtain ⟨fx, fy, hmods⟩ := vecPopped_mods s f srcs
  obtain ⟨hflies, hresults⟩ := vecResults_flies lat f.d.toNat (s.vecOutcomes f srcs g) (s.vecPopped f srcs)
  have hpt : (s.vecPopped f srcs).t = s.t := by rw [State.t, State.t, hmods.me]
  have hphys (y : Bool) (n : Nat) : (s.vecPopped f srcs).me.im.vec.phys y n = s.me.im.vec.phys y n := by rw [hmods.me]; rfl
  obtain ⟨hend, hpred⟩ := vecPredicate_flies (s.vecFlown f lat srcs g) lat f.p p ((s.vecOutcomes f srcs g).flatMap (fun r => r.2.2))
  generalize ht : (s.vecFlown f lat srcs g).vecPredicate lat f.p p ((s.vecOutcomes f srcs g).flatMap (fun r => r.2.2)) = t at hend hpred ⊢
  have hcore : (s.vecPopped f srcs).cur.core = s.cur.core := congrArg Cur.core hmods.cur
  have hall : (s.vecPopped f srcs).Flies t := hflies.trans hend
  obtain ⟨l, hl⟩ := hall.me
  refine ⟨t, rfl, hall.mem.trans hmods.mem, fun c hc => (hall.others c (by rw [hcore]; exact hc)).trans (hmods.others c hc), ?_, ?_, fun q => ?_, fun y hy => ?_,
    fun h hp hp0 => ?_, fun x hx => hall.mono (by rw [hmods.me]; exact hx)⟩
  · rw [hl, hmods.me]
  · rw [hl, hmods.me]
  · rw [hl, hmods.me]
    exact mget_popAll ..
  · obtain ⟨x, hx, hdue, hissue, hfx⟩ := hresults _ (List.mem_map_of_mem hy)
    rw [hpt] at hdue hissue
    rw [hphys] at hfx
    exact ⟨x, hend.mono hx, hdue, hissue, hfx⟩
  · obtain ⟨x, hx, hdue, hfx⟩ := hpred h hp hp0
    have hft : (s.vecFlown f lat srcs g).t = s.t := hflies.t.trans hpt
    have hfc : (s.vecFlown f lat srcs g).cur = s.cur := hflies.cur.trans hmods.cur
    rw [hft] at hdue
    rw [hfc, State.vecOutcomes, List.flatMap_map] at hfx
    exact ⟨x, hx, hdue, hfx⟩

end

end Sys2Proof.Machine

namespace Sys2Proof.Proofs
open Sys2Proof.Machine

theorem vectorInstructionsComputeTheirRow : Claims.VectorInstructionsComputeTheirRow := by
  intro s i f lat srcs g p hrow hready sel ys cs allowed value
  have hexec : exec i s = issue s [] _ := exec_vecRow hrow
  have hys : vecClusters f = ys := vecClusters_eq f
  have hallowed : (srcs.all (fun x => sourceOk sel x.1) && destOk sel f.d.toNat) = true ↔ allowed := by
    rw [Bool.and_eq_true, List.all_eq_true]
    exact and_congr ⟨fun h x hx => by obtain ⟨a, ha, rfl⟩ := List.mem_map.1 hx; exact h a ha, fun h a ha => h _ (List.mem_map_of_mem ha)⟩ Iff.rfl
  have hvalue (y : Bool) : s.vecValue f srcs g y = value y := by rw [State.vecValue, hys, upTo_zero_eq_range]
  have hact (hfree : 32 + s.cur.core ∉ s.fenced) (hok : allowed) {a : Act} (h : actVec f lat srcs g p s = a) :
      (if s.fenced.contains (32 + s.cur.core) = true then fencedTrap 0 (32 + s.cur.core)
        else if (srcs.all (fun x => sourceOk sel x.1) && destOk sel f.d.toNat) = true then actVec f lat srcs g p s else s.opTrap 0xB) = a :=
    (if_neg (by simpa using hfree)).trans ((if_pos (hallowed.2 hok)).trans h)
  refine ⟨fun hfenced => ?_, fun hfree hnot => ?_, fun hfree hok q hshort => ?_, fun hfree hok hshort q hfull => ?_, fun hfree hok hshort hfull hbad => ?_,
    fun hfree hok hshort hfull hgood => ?_⟩
  · exact State.traps_of_trap hexec hready (if_pos (by simpa using hfenced))
  · exact State.traps_of_opTrap hexec hready ((if_neg (by simpa using hfree)).trans (if_neg (fun h => hnot (hallowed.1 h))))
  · refine State.waits_of_wait (lacks := 0) hexec hready (hact hfree hok ?_)
    unfold actVec
    dsimp only
    rw [hys, hshort]
  · refine State.waits_of_wait (lacks := 0) hexec hready (hact hfree hok ?_)
    unfold actVec
    dsimp only
    rw [hys, hshort]
    dsimp only
    rw [hfull]
  · refine State.traps_of_memTrap hexec hready (hact hfree hok (a := flawTrap) ?_)
    unfold actVec
    dsimp only
    rw [hys, hshort]
    dsimp only
    rw [hfull]
    exact if_pos hbad
  · obtain ⟨t, ht, hspec⟩ := vecFlown_spec s f lat srcs g p
    simp only [hys, hvalue] at hspec
    refine ⟨t, State.issues_of_done hexec hready (hact hfree hok ?_), hspec⟩
    rw [← ht]
    exact actVec_done (by rw [hys]; exact hshort) (by rw [hys]; exact hfull) (by rw [hys]; exact hgood)

end Sys2Proof.Proofs
end


-- ==== Sys2Proof/Proofs/VectorIntegers.lean ====
section
/-! PROOFS. The elements of a vector, and what the elementwise instructions of integer elements compute. -/
namespace Sys2Proof.Machine

/-! ### Elements -/

theorem packN_lt (w : Nat) (l : List Nat) : packN w l < 2 ^ (w * l.length) := by
  induction l with
  | nil => simp [packN]
  | cons x l ih =>
    rw [packN, List.length_cons, Nat.mul_succ, Nat.add_comm (w * l.length), Nat.pow_add]
    exact add_mul_lt (mod_two_pow_lt x w) ih

theorem fld_packN (w : Nat) (l : List Nat) (i : Nat) : fld (packN w l) (w * i) w = l.getD i 0 % 2 ^ w := by
  induction l generalizing i with
  | nil => simp [packN, fld]
  | cons x l ih =>
    cases i with
    | zero => rw [packN, Nat.mul_zero, fld_zero, Nat.add_mul_mod_self_left, Nat.mod_mod, List.getD_cons_zero]
    | succ i => rw [packN, Nat.mul_succ, Nat.add_comm (w * i), fld_high _ _ (mod_two_pow_lt x w), ih, List.getD_cons_succ]

theorem velem_ofLanes {w : Nat} {l : List Nat} (h : w * l.length ≤ 2048) (i : Nat) : velem w (ofLanes w l) i = l.getD i 0 % 2 ^ w := by
  have hlt : packN w l < 2 ^ 2048 := (packN_lt w l).trans_le (Nat.pow_le_pow_right Nat.two_pos h)
  rw [← fld_packN, velem, fld, ofLanes, BitVec.toNat_ofNat, Nat.mod_eq_of_lt hlt]

theorem velem_lt (w : Nat) (v : Vec) (i : Nat) : velem w v i < 2 ^ w := Nat.mod_lt _ (Nat.two_pow_pos w)

theorem lanes_eq (w : Nat) (v : Vec) : lanes w v = (List.range (2048 / w)).map (velem w v) := by
  rw [lanes, upTo_zero_eq_range]
  rfl

@[simp] theorem length_lanes (w : Nat) (v : Vec) : (lanes w v).length = 2048 / w := by simp [lanes_eq]

@[simp] theorem getElem_lanes {w : Nat} {v : Vec} {i : Nat} (h : i < (lanes w v).length) : (lanes w v)[i] = velem w v i := by
  simp [lanes_eq]

theorem getD_lanes (w : Nat) (v : Vec) (i : Nat) : (lanes w v).getD i 0 = if i < 2048 / w then velem w v i else 0 := by
  split
  · next h => rw [List.getD_eq_getElem _ _ (by simpa using h), getElem_lanes]
  · next h => rw [List.getD_eq_default _ _ (by simpa using h)]

/-! ### Elementwise operations -/

theorem velem_collect {w : Nat} {rs : List (Nat × Flags)} (hlen : rs.length = 2048 / w) {i : Nat} (hi : i < rs.length) :
    velem w (collect w rs).1 i = rs[i].1 % 2 ^ w := by
  have h : w * (rs.map (fun r => r.1)).length ≤ 2048 := by
    rw [List.length_map, hlen]
    exact Nat.mul_div_le 2048 w
  rw [collect, velem_ofLanes h, List.getD_eq_getElem _ _ (by simpa using hi), List.getElem_map]

section
variable {w i : Nat} (hi : i < 2048 / w) (a b c : Vec)
include hi

theorem velem_map1 (g : Nat → Nat × Flags) : velem w (map1 w g a).1 i = (g (velem w a i)).1 % 2 ^ w := by
  rw [map1, velem_collect (by simp) (by simpa using hi)]
  simp

theorem velem_map2 (g : Nat → Nat → Nat × Flags) : velem w (map2 w g a b).1 i = (g (velem w a i) (velem w b i)).1 % 2 ^ w := by
  rw [map2, velem_collect (by simp) (by simpa using hi)]
  simp

theorem velem_map3 (g : Nat → Nat → Nat → Nat × Flags) :
    velem w (map3 w g a b c).1 i = (g (velem w a i) (velem w b i) (velem w c i)).1 % 2 ^ w := by
  rw [map3, velem_collect (by simp) (by simpa using hi)]
  simp

end

/-! ### Comparison -/

theorem getD_vCompare (f : VecF) (a b : Vec) {i : Nat} (hi : i < 2048 / typeWidth f.type) :
    (vCompare f a b).2.getD i false = (cmpElem f (velem (typeWidth f.type) a i) (velem (typeWidth f.type) b i)).1 := by
  rw [vCompare]
  simp [hi]

theorem length_vCompare (f : VecF) (a b : Vec) : (vCompare f a b).2.length = 2048 / typeWidth f.type := by
  simp [vCompare]

/-- The mask of a comparison is all ones where its condition holds (R161). -/
theorem velem_vCompare (f : VecF) (a b : Vec) {w i : Nat} (hw : typeWidth f.type = w) (hi : i < 2048 / w) :
    velem w (vCompare f a b).1.1 i = if (vCompare f a b).2.getD i false then 2 ^ w - 1 else 0 := by
  subst hw
  have hmask : 2 ^ typeWidth f.type - 1 < 2 ^ typeWidth f.type := Nat.sub_lt (Nat.two_pow_pos _) Nat.one_pos
  rw [getD_vCompare f a b hi, vCompare]
  dsimp only
  rw [velem_collect (by simp) (by simpa using hi)]
  simp only [List.getElem_map, List.getElem_zip, getElem_lanes]
  rw [Nat.mod_eq_of_lt]
  split
  · exact hmask
  · exact Nat.two_pow_pos _

/-! ### Integers of w bits -/

theorem cast_wrapInt (e : Int) (w : Nat) : ((wrapInt e w : Nat) : Int) = e % 2 ^ w := by
  rw [wrapInt, wrapN, Int.toNat_of_nonneg (Int.emod_nonneg _ (by positivity))]
  push_cast
  rfl

theorem wrapInt_lt (e : Int) (w : Nat) : wrapInt e w < 2 ^ w := by
  zify
  rw [cast_wrapInt]
  exact Int.emod_lt_of_pos _ (by positivity)

theorem wrapInt_eq_toNat (e : Int) (w : Nat) : wrapInt e w = (BitVec.ofInt w e).toNat := rfl

theorem sgn_range {w : Nat} (hw : 0 < w) (n : Nat) : -(2 ^ (w - 1)) ≤ sgn w n ∧ sgn w n < 2 ^ (w - 1) := by
  rw [sgn_eq_toInt hw]
  exact ⟨BitVec.le_toInt _, BitVec.toInt_lt⟩

/-- A number that fits is what its encoding says. -/
theorem sgn_wrapInt {w : Nat} (hw : 0 < w) {e : Int} (hlo : -(2 ^ (w - 1)) ≤ e) (hhi : e < 2 ^ (w - 1)) : sgn w (wrapInt e w) = e := by
  rw [sgn_eq_toInt hw, wrapInt_eq_toNat, BitVec.ofNat_toNat, BitVec.setWidth_eq, BitVec.toInt_ofInt_eq_self hw hlo hhi]

/-- The number of w bits nearest to an integer (R123). -/
theorem sgn_wrapInt_satInt {w : Nat} (hw : 0 < w) (e : Int) :
    sgn w (wrapInt (satInt e w) w) =
      if e < -(2 ^ (w - 1)) then -(2 ^ (w - 1)) else if 2 ^ (w - 1) ≤ e then 2 ^ (w - 1) - 1 else e := by
  have hpos : (0 : Int) < 2 ^ (w - 1) := by positivity
  have hsat : satInt e w = if e < -(2 ^ (w - 1)) then -(2 ^ (w - 1)) else if 2 ^ (w - 1) ≤ e then 2 ^ (w - 1) - 1 else e := by
    rw [satInt, Nat.cast_pow]
    push_cast
    omega
  rw [sgn_wrapInt hw, hsat]
  all_goals rw [hsat]; split <;> [skip; split] <;> omega

/-- What an integer operation delivers of its exact result: it wraps, or with `sat` saturates. -/
def IntegerOf (w : Nat) (sat : Bool) (e : Int) (r : Nat) : Prop :=
  (sat = false → (r : Int) = e % 2 ^ w) ∧
  (sat = true → sgn w r = if e < -(2 ^ (w - 1)) then -(2 ^ (w - 1)) else if 2 ^ (w - 1) ≤ e then 2 ^ (w - 1) - 1 else e)

theorem integerOf_wrapInt {w : Nat} (hw : 0 < w) (sat : Bool) (e : Int) : IntegerOf w sat e (wrapInt (if sat then satInt e w else e) w % 2 ^ w) := by
  rw [Nat.mod_eq_of_lt (wrapInt_lt ..)]
  cases sat with
  | false => exact ⟨fun _ => cast_wrapInt e w, fun h => absurd h (by decide)⟩
  | true => exact ⟨fun h => absurd h (by decide), fun _ => sgn_wrapInt_satInt hw e⟩

theorem ite_lt_of_lt {p : Prop} [Decidable p] {x y n : Nat} (hx : x < n) (hy : y < n) : (if p then x else y) < n := by
  split <;> assumption

/-! ### The instructions on integer elements -/

/-- The two types of integer elements, and their width (Table 7-1). -/
theorem integer_type {f : VecF} {w : Nat} (h : (f.type = 5 ∧ w = 32) ∨ (f.type = 6 ∧ w = 8)) :
    typeFmt f.type = none ∧ typeWidth f.type = w ∧ 0 < w := by
  obtain ⟨h, rfl⟩ | ⟨h, rfl⟩ := h <;> rw [h] <;> decide

section
variable {f : VecF} {w i : Nat} (hfmt : typeFmt f.type = none) (hwid : typeWidth f.type = w) (hw : 0 < w) (hi : i < 2048 / w) (a b c : Vec)
include hwid hi

include hfmt in
theorem velem_vArith_int (op : Arith) : velem w (vArith op f a b c).1 i =
    (op.int w (f.var.getLsbD 0) (velem w a i) (velem w b i) (velem w c i)).1 % 2 ^ w := by
  simp only [vArith, hfmt, hwid]
  exact velem_map3 hi ..

include hfmt hw in
theorem integerOf_vSign (flip : Bool) : IntegerOf w (f.var.getLsbD 0)
    (if flip || decide (sgn w (velem w a i) < 0) then -(sgn w (velem w a i)) else sgn w (velem w a i)) (velem w (vSign flip f a).1 i) := by
  simp only [vSign, hfmt, hwid]
  rw [velem_map1 hi]
  exact integerOf_wrapInt hw ..

include hfmt in
theorem velem_vPick_int (hig : Bool) : velem w (vPick hig f a b).1 i =
    (pickInt w hig (f.var.getLsbD 0) (velem w a i) (velem w b i)).1 := by
  simp only [vPick, hfmt, hwid]
  rw [velem_map2 hi, Nat.mod_eq_of_lt]
  rw [pickInt]
  exact ite_lt_of_lt (velem_lt ..) (velem_lt ..)

theorem velem_vSelect : velem w (vSelect f a b c).1 i = if velem w c i ≠ 0 then velem w a i else velem w b i := by
  rw [vSelect, hwid, velem_map3 hi, Nat.mod_eq_of_lt]
  exact ite_lt_of_lt (velem_lt ..) (velem_lt ..)

theorem velem_vShift (op : Nat) : velem w (vShift op f a b).1 i = shiftElem w op (velem w a i) (velem w b i) % 2 ^ w := by
  rw [vShift, hwid, velem_map2 hi]

theorem velem_vPermute : velem w (vPermute f a b).1 i = if velem w b i < 2048 / w then velem w a (velem w b i) else 0 := by
  simp only [vPermute, hwid]
  rw [velem_map1 hi, getD_lanes, Nat.mod_eq_of_lt]
  split
  · exact velem_lt ..
  · exact Nat.two_pow_pos w

end

/-- An arithmetic shift to the right (R167). -/
theorem sgn_shiftElem {w : Nat} (hw : 0 < w) (x n : Nat) : sgn w (shiftElem w 2 x n % 2 ^ w) =
    if n < w then sgn w x / (2 ^ n : Nat) else if sgn w x < 0 then -1 else 0 := by
  obtain ⟨hlo, hhi⟩ := sgn_range hw x
  have hone (k : Nat) : (1 : Int) ≤ (2 ^ k : Nat) := by exact_mod_cast Nat.one_le_two_pow
  have hpos : (0 : Int) < 2 ^ (w - 1) := by positivity
  have hdlo (k : Nat) : -(2 ^ (w - 1)) ≤ sgn w x / (2 ^ k : Nat) := by
    rw [Int.le_ediv_iff_mul_le (by linarith [hone k])]
    nlinarith [hone k]
  have hdhi (k : Nat) : sgn w x / (2 ^ k : Nat) < 2 ^ (w - 1) := by
    rw [Int.ediv_lt_iff_lt_mul (by linarith [hone k])]
    nlinarith [hone k]
  have hwide : (2 : Int) ^ (w - 1) ≤ (2 ^ w : Nat) := by exact_mod_cast Nat.pow_le_pow_right Nat.two_pos (Nat.sub_le w 1)
  rw [shiftElem, if_neg (by decide), if_neg (by decide), Nat.mod_eq_of_lt (wrapInt_lt ..), sgn_wrapInt hw (hdlo _) (hdhi _)]
  split
  · next h => rw [show Nat.min n w = n from Nat.min_eq_left h.le]
  · next h =>
    rw [show Nat.min n w = w from Nat.min_eq_right (not_lt.mp h)]
    split
    · next hneg => exact Int.ediv_eq_neg_one_of_neg_of_le hneg (by linarith)
    · next hneg => exact Int.ediv_eq_zero_of_lt (not_lt.mp hneg) (by linarith)

/-- The conditions of an integer comparison (Table 7-9). -/
theorem cmpInt_iff {cc : Nat} (hcc : cc < 6) (u v : Int) : cmpInt cc u v = true ↔
    (cc = 0 ∧ u = v) ∨ (cc = 1 ∧ u ≠ v) ∨ (cc = 2 ∧ u < v) ∨ (cc = 3 ∧ u ≤ v) ∨ (cc = 4 ∧ v < u) ∨ (cc = 5 ∧ v ≤ u) := by
  interval_cases cc <;> simp [cmpInt]

theorem cmpElem_int {f : VecF} {w : Nat} (hfmt : typeFmt f.type = none) (hwid : typeWidth f.type = w) (x y : Nat) :
    (cmpElem f x y).1 = cmpInt (f.imm.toNat % 16) (if f.imm.getLsbD 4 then x else sgn w x) (if f.imm.getLsbD 4 then y else sgn w y) := by
  simp only [cmpElem, hfmt, hwid]
  split <;> rfl

theorem vectorIntegerElements : Claims.VectorIntegerElements := by
  intro f a b c i w hty hi x y z si out
  obtain ⟨hfmt, hwid, hw⟩ := integer_type hty
  have hsi (n : Nat) (hn : n < 2 ^ w) : si n = sgn w n := (sgn_of_lt hn).symm
  have hx : si x = sgn w x := hsi x (velem_lt ..)
  have hy : si y = sgn w y := hsi y (velem_lt ..)
  have hz : si z = sgn w z := hsi z (velem_lt ..)
  have hout (e : Int) (r : Nat) (hr : r < 2 ^ w) (h : IntegerOf w (f.var.getLsbD 0) e r) : out e r := ⟨h.1, fun hs => (hsi r hr).trans (h.2 hs)⟩
  have harith (op : Arith) (e : Int) (v : Vec)
      (he : (op.int w (f.var.getLsbD 0) x y (velem w v i)).1 = wrapInt (if f.var.getLsbD 0 then satInt e w else e) w) :
      out e (velem w (vArith op f a b v).1 i) :=
    hout _ _ (velem_lt ..) (by
      rw [velem_vArith_int hfmt hwid hi, he]
      exact integerOf_wrapInt hw ..)
  rw [hx, hy, hz]
  refine ⟨harith .add _ 0 rfl, harith .sub _ 0 rfl, harith .mul _ 0 rfl, harith .fma _ c rfl, harith .fms _ c rfl,
    hout _ _ (velem_lt ..) (integerOf_vSign hfmt hwid hw hi a true), ?_, ?_, ?_, ?_, velem_vSelect hwid hi a b c, ?_, ?_, ?_,
    velem_vPermute hwid hi a b⟩
  · have habs := integerOf_vSign hfmt hwid hw hi a false
    simp only [Bool.false_or, decide_eq_true_eq] at habs
    exact hout _ _ (velem_lt ..) habs
  · intro huns
    rw [velem_vPick_int hfmt hwid hi, velem_vPick_int hfmt hwid hi, huns]
    have hmin : Nat.min x y = if x ≤ y then x else y := rfl
    have hmax : Nat.max x y = if x ≤ y then y else x := rfl
    rw [hmin, hmax, pickInt, pickInt]
    by_cases h : x ≤ y <;> simp [h, x, y]
  · intro hsgn
    rw [velem_vPick_int hfmt hwid hi, velem_vPick_int hfmt hwid hi, hsgn, pickInt, pickInt]
    by_cases h : sgn w x ≤ sgn w y <;> simp [h, x, y]
  · intro u cc r hcc
    have hr : r = cmpInt cc (u x) (u y) := by
      have hu (n : Nat) (hn : n < 2 ^ w) : u n = if f.imm.getLsbD 4 then (n : Int) else sgn w n := by rw [← hsi n hn]
      rw [hu x (velem_lt ..), hu y (velem_lt ..), ← cmpElem_int hfmt hwid]
      have hget := getD_vCompare f a b (hwid.symm ▸ hi)
      rw [hwid] at hget
      exact hget
    refine ⟨hr ▸ cmpInt_iff hcc _ _, velem_vCompare f a b hwid hi, (length_vCompare f a b).trans (by rw [hwid])⟩
  · rw [velem_vShift hwid hi, shiftElem, if_pos rfl, Nat.mod_eq_of_lt]
    exact ite_lt_of_lt (mod_two_pow_lt ..) (Nat.two_pow_pos w)
  · rw [velem_vShift hwid hi, shiftElem, if_neg (by decide), if_pos rfl, Nat.mod_eq_of_lt]
    exact ite_lt_of_lt (lt_of_le_of_lt (Nat.div_le_self ..) (velem_lt ..)) (Nat.two_pow_pos w)
  · rw [hsi _ (velem_lt ..), velem_vShift hwid hi]
    exact sgn_shiftElem hw x y

end Sys2Proof.Machine
end


-- ==== Sys2Proof/Proofs/VectorFloats.lean ====
section
/-! PROOFS. The order of FP32 encodings, and what the floating vector instructions that round nothing compute. -/
namespace Sys2Proof.Machine

/-! ### Values in units of the least subnormal -/

/-- A magnitude encoding of FP32 in units of the least subnormal, where infinity continues the scale. -/
def magUnits (mag : Nat) : Nat := if mag < 2 ^ 23 then mag else (2 ^ 23 + mag % 2 ^ 23) * 2 ^ (mag / 2 ^ 23 - 1)

theorem magUnits_lt_succ (mag : Nat) : magUnits mag < magUnits (mag + 1) := by
  by_cases hsub : mag + 1 < 2 ^ 23
  · rw [magUnits, if_pos (by omega), magUnits, if_pos hsub]
    exact Nat.lt_succ_self mag
  by_cases hlast : mag < 2 ^ 23
  · obtain rfl : mag = 2 ^ 23 - 1 := by omega
    decide
  rw [magUnits, if_neg hlast, magUnits, if_neg hsub]
  by_cases hcarry : mag % 2 ^ 23 = 2 ^ 23 - 1
  · rw [show (mag + 1) % 2 ^ 23 = 0 by omega, show (mag + 1) / 2 ^ 23 - 1 = mag / 2 ^ 23 - 1 + 1 by omega, hcarry, Nat.pow_succ (m := mag / 2 ^ 23 - 1)]
    have hpos := Nat.two_pow_pos (mag / 2 ^ 23 - 1)
    generalize 2 ^ (mag / 2 ^ 23 - 1) = p at hpos ⊢
    omega
  · rw [show (mag + 1) % 2 ^ 23 = mag % 2 ^ 23 + 1 by omega, show (mag + 1) / 2 ^ 23 = mag / 2 ^ 23 by omega]
    exact Nat.mul_lt_mul_of_pos_right (by omega) (Nat.two_pow_pos _)

theorem magUnits_strictMono : StrictMono magUnits := strictMono_nat_of_lt_succ magUnits_lt_succ

/-- The magnitude of infinity, in units of the least subnormal. -/
def infUnits : Nat := magUnits 0x7F800000

/-- A value of FP32 in units of the least subnormal. -/
def Num.units : Num → Int
  | .nan => 0
  | .inf neg => if neg then -infUnits else infUnits
  | .zero _ => 0
  | .fin neg m e => (Num.fin neg m e).scaled fp32.qmin

/-- A value that FP32 has: its exponent is not below that of the least subnormal, and it is below infinity. -/
def Num.Single : Num → Prop
  | .fin _ m e => m ≠ 0 ∧ fp32.qmin ≤ e ∧ m * 2 ^ (e - fp32.qmin).toNat < infUnits
  | _ => True

theorem scaled_mul {n : Bool} {m : Nat} {e q r : Int} (hr : r ≤ q) (hq : q ≤ e) :
    (Num.fin n m e).scaled r = (Num.fin n m e).scaled q * 2 ^ (q - r).toNat := by
  have hsum : (e - r).toNat = (e - q).toNat + (q - r).toNat := by omega
  simp only [Num.scaled, hsum, pow_add]
  push_cast
  ring

theorem compare_mul_pos {x y c : Int} (hc : 0 < c) : compare (x * c) (y * c) = compare x y := by
  rcases lt_trichotomy x y with h | rfl | h
  · rw [compare_lt_iff_lt.mpr h, compare_lt_iff_lt.mpr (by nlinarith)]
  · rw [compare_eq_iff_eq.mpr rfl, compare_eq_iff_eq.mpr rfl]
  · rw [compare_gt_iff_gt.mpr h, compare_gt_iff_gt.mpr (by nlinarith)]

theorem infUnits_pos : (0 : Int) < infUnits := by exact_mod_cast magUnits_strictMono (show 0 < 0x7F800000 by decide)

/-- What the sign of a number that is not zero says. -/
theorem units_fin {x : Bool} {m : Nat} {e : Int} (h : (Num.fin x m e).Single) :
    if x then -infUnits < (Num.fin x m e).units ∧ (Num.fin x m e).units < 0 else 0 < (Num.fin x m e).units ∧ (Num.fin x m e).units < infUnits := by
  obtain ⟨hm, -, hlt⟩ := h
  have hpos : 0 < m * 2 ^ (e - fp32.qmin).toNat := Nat.mul_pos (Nat.pos_of_ne_zero hm) (Nat.two_pow_pos _)
  zify at hpos hlt
  cases x <;> simp only [Num.units, Num.scaled, ↓reduceIte, Bool.false_eq_true] <;> push_cast <;> constructor <;> linarith

theorem units_lt_inf {a : Num} (hs : a.Single) (h : ∀ y, a ≠ .inf y) : -infUnits < a.units ∧ a.units < infUnits := by
  have hinf := infUnits_pos
  cases a with
  | inf y => exact absurd rfl (h y)
  | nan => exact ⟨neg_lt_zero.mpr hinf, hinf⟩
  | zero x => exact ⟨neg_lt_zero.mpr hinf, hinf⟩
  | fin x m e =>
    have hfin := units_fin hs
    split at hfin <;> omega

theorem cmpNum_inf_left (x : Bool) {b : Num} (h : ∀ y, b ≠ .inf y) : cmpNum (.inf x) b = if x then .lt else .gt := by
  cases b with
  | inf y => exact absurd rfl (h y)
  | _ => cases x <;> rfl

theorem cmpNum_inf_right (y : Bool) {a : Num} (h : ∀ x, a ≠ .inf x) : cmpNum a (.inf y) = if y then .gt else .lt := by
  cases a with
  | inf y => exact absurd rfl (h y)
  | _ => cases y <;> rfl

/-- The order that the sign of a difference says. -/
theorem ite_eq_compare {p : Bool} {u v : Int} (h : if p then u < v else v < u) : (if p then Ordering.lt else .gt) = compare u v := by
  cases p with
  | true => exact (compare_lt_iff_lt.mpr h).symm
  | false => exact (compare_gt_iff_gt.mpr h).symm

theorem ite_eq_compare_swap {p : Bool} {u v : Int} (h : if p then v < u else u < v) : (if p then Ordering.gt else .lt) = compare u v := by
  cases p with
  | true => exact (compare_gt_iff_gt.mpr h).symm
  | false => exact (compare_lt_iff_lt.mpr h).symm

theorem compare_inf_inf (x y : Bool) : cmpNum (.inf x) (.inf y) = compare (Num.inf x).units (Num.inf y).units := by
  have hinf := infUnits_pos
  cases x <;> cases y
  · exact (compare_eq_iff_eq.mpr rfl).symm
  · exact (compare_gt_iff_gt.mpr (show -(infUnits : Int) < infUnits by omega)).symm
  · exact (compare_lt_iff_lt.mpr (show -(infUnits : Int) < infUnits by omega)).symm
  · exact (compare_eq_iff_eq.mpr rfl).symm

/-- The order of two values that FP32 has is that of their numbers. -/
theorem cmpNum_eq {a b : Num} (ha : a ≠ .nan) (hb : b ≠ .nan) (hsa : a.Single) (hsb : b.Single) :
    cmpNum a b = compare a.units b.units := by
  by_cases hia : ∃ x, a = .inf x
  · obtain ⟨x, rfl⟩ := hia
    by_cases hib : ∃ y, b = .inf y
    · obtain ⟨y, rfl⟩ := hib
      exact compare_inf_inf x y
    · have hlt := units_lt_inf hsb (not_exists.mp hib)
      rw [cmpNum_inf_left x (not_exists.mp hib)]
      exact ite_eq_compare (by cases x; exacts [hlt.2, hlt.1])
  by_cases hib : ∃ y, b = .inf y
  · obtain ⟨y, rfl⟩ := hib
    have hlt := units_lt_inf hsa (not_exists.mp hia)
    rw [cmpNum_inf_right y (not_exists.mp hia)]
    exact ite_eq_compare_swap (by cases y; exacts [hlt.2, hlt.1])
  cases a with
  | nan => exact absurd rfl ha
  | inf x => exact absurd ⟨x, rfl⟩ hia
  | zero x =>
    cases b with
    | nan => exact absurd rfl hb
    | inf y => exact absurd ⟨y, rfl⟩ hib
    | zero y => exact (compare_eq_iff_eq.mpr rfl).symm
    | fin y n g =>
      have hfin := units_fin hsb
      exact ite_eq_compare_swap (by cases y <;> simp only [Num.units, ↓reduceIte, Bool.false_eq_true] at hfin ⊢ <;> omega)
  | fin x m e =>
    cases b with
    | nan => exact absurd rfl hb
    | inf y => exact absurd ⟨y, rfl⟩ hib
    | zero y =>
      have hfin := units_fin hsa
      exact ite_eq_compare (by cases x <;> simp only [Num.units, ↓reduceIte, Bool.false_eq_true] at hfin ⊢ <;> omega)
    | fin y n g =>
      obtain ⟨-, he, -⟩ := hsa
      obtain ⟨-, hg, -⟩ := hsb
      rw [Num.units, Num.units, scaled_mul (le_min he hg) (min_le_left e g), scaled_mul (le_min he hg) (min_le_right e g),
        compare_mul_pos (by positivity)]
      rfl

/-! ### Encodings -/

theorem finite_eq (mag : Nat) : fp32.finite mag =
    if mag < 2 ^ 23 then (mag, fp32.qmin) else (2 ^ 23 + mag % 2 ^ 23, fp32.qmin + (mag / 2 ^ 23 - 1 : Nat)) := by
  have hexp : mag / 2 ^ 23 = 0 ↔ mag < 2 ^ 23 := by omega
  by_cases h : mag < 2 ^ 23
  · rw [if_pos h, FFmt.finite]
    exact (if_pos (hexp.mpr h)).trans (congrArg (·, fp32.qmin) (Nat.mod_eq_of_lt h))
  · rw [if_neg h]
    exact if_neg (hexp.not.mpr h)

/-- What an encoding of FP32 stands for (R116, R119). -/
theorem decode_fp32 (x : Nat) : decodeF fp32 x =
    if 0x7F800000 < x % 2 ^ 31 then .nan else if x % 2 ^ 31 = 0x7F800000 then .inf (bit x 31) else if x % 2 ^ 31 = 0 then .zero (bit x 31)
    else .fin (bit x 31) (fp32.finite (x % 2 ^ 31)).1 (fp32.finite (x % 2 ^ 31)).2 := by
  have hmag := mod_two_pow_lt x 31
  have hzero : (fp32.finite (x % 2 ^ 31)).1 = 0 ↔ x % 2 ^ 31 = 0 := by
    rw [finite_eq]
    split <;> dsimp only <;> omega
  have hdec : decodeF fp32 x = if x % 2 ^ 31 / 2 ^ 23 = 255 then (if x % 2 ^ 31 % 2 ^ 23 = 0 then .inf (bit x 31) else .nan)
      else if (fp32.finite (x % 2 ^ 31)).1 = 0 then .zero (bit x 31)
      else .fin (bit x 31) (fp32.finite (x % 2 ^ 31)).1 (fp32.finite (x % 2 ^ 31)).2 :=
    if_congr ⟨fun h => h.2, fun h => ⟨rfl, h⟩⟩ rfl (if_neg (fun h => absurd h.2.1 (by decide)))
  rw [hdec]
  by_cases hexp : x % 2 ^ 31 / 2 ^ 23 = 255
  · rw [if_pos hexp]
    by_cases hfrac : x % 2 ^ 31 % 2 ^ 23 = 0
    · rw [if_pos hfrac, if_neg (by omega), if_pos (by omega)]
    · rw [if_neg hfrac, if_pos (by omega)]
  · rw [if_neg hexp, if_neg (show ¬0x7F800000 < x % 2 ^ 31 by omega), if_neg (show x % 2 ^ 31 ≠ 0x7F800000 by omega)]
    exact if_congr hzero rfl rfl

theorem decode_eq_nan_iff (x : Nat) : decodeF fp32 x = .nan ↔ 0x7F800000 < x % 2 ^ 31 := by
  rw [decode_fp32]
  by_cases hnan : 0x7F800000 < x % 2 ^ 31
  · rw [if_pos hnan]
    exact iff_of_true rfl hnan
  · rw [if_neg hnan]
    refine iff_of_false ?_ hnan
    split <;> [skip; split] <;> exact Num.noConfusion

/-- The magnitude of a finite encoding in units of the least subnormal. -/
theorem finite_fp32 (mag : Nat) : (fp32.finite mag).1 * 2 ^ ((fp32.finite mag).2 - fp32.qmin).toNat = magUnits mag ∧
    fp32.qmin ≤ (fp32.finite mag).2 := by
  rw [finite_eq, magUnits]
  split
  · exact ⟨by simp, le_refl _⟩
  · exact ⟨by rw [add_sub_cancel_left, Int.toNat_natCast], by dsimp only; omega⟩

/-- The number that a sign and a magnitude stand for, −0 equal to +0. -/
def signedVal (n : Nat) : Int := if n < 2 ^ 31 then n else 2 ^ 31 - (n : Int)

theorem bit_sign {x : Nat} (hx : x < 2 ^ 32) : bit x 31 = decide (2 ^ 31 ≤ x) := by
  rw [bit, beq_eq_decide]
  exact decide_eq_decide.mpr (by omega)

theorem decode_single (x : Nat) : (decodeF fp32 x).Single := by
  rw [decode_fp32]
  by_cases hnan : 0x7F800000 < x % 2 ^ 31
  · rw [if_pos hnan]
    trivial
  by_cases hinf : x % 2 ^ 31 = 0x7F800000
  · rw [if_neg hnan, if_pos hinf]
    trivial
  by_cases hzero : x % 2 ^ 31 = 0
  · rw [if_neg hnan, if_neg hinf, if_pos hzero]
    trivial
  rw [if_neg hnan, if_neg hinf, if_neg hzero]
  obtain ⟨hunits, hexp⟩ := finite_fp32 (x % 2 ^ 31)
  refine ⟨fun h => ?_, hexp, ?_⟩
  · rw [h, Nat.zero_mul] at hunits
    have hpos := magUnits_strictMono (Nat.pos_of_ne_zero hzero)
    omega
  · rw [hunits]
    exact magUnits_strictMono (by omega)

theorem units_decode {x : Nat} (hx : x < 2 ^ 32) (hnan : ¬0x7F800000 < x % 2 ^ 31) :
    (decodeF fp32 x).units = if x < 2 ^ 31 then (magUnits (x % 2 ^ 31) : Int) else -(magUnits (x % 2 ^ 31) : Int) := by
  have hsign : (if bit x 31 then -(magUnits (x % 2 ^ 31) : Int) else magUnits (x % 2 ^ 31)) =
      if x < 2 ^ 31 then (magUnits (x % 2 ^ 31) : Int) else -(magUnits (x % 2 ^ 31) : Int) := by
    by_cases h : x < 2 ^ 31
    · rw [bit_sign hx, decide_eq_false (by omega), if_neg (by decide), if_pos h]
    · rw [bit_sign hx, decide_eq_true (by omega), if_pos rfl, if_neg h]
  rw [← hsign, decode_fp32, if_neg hnan]
  by_cases hinf : x % 2 ^ 31 = 0x7F800000
  · rw [if_pos hinf, hinf]
    rfl
  rw [if_neg hinf]
  by_cases hzero : x % 2 ^ 31 = 0
  · rw [if_pos hzero, hzero, show magUnits 0 = 0 from rfl, Nat.cast_zero, neg_zero, ite_self, Num.units]
  · rw [if_neg hzero, Num.units, Num.scaled, (finite_fp32 _).1]
    split <;> simp

/-- The numbers of the encodings, in units of the least subnormal, rise with them. -/
theorem units_lt_iff {x y : Nat} (hx : x < 2 ^ 32) (hy : y < 2 ^ 32) (hnx : ¬0x7F800000 < x % 2 ^ 31) (hny : ¬0x7F800000 < y % 2 ^ 31) :
    (decodeF fp32 x).units < (decodeF fp32 y).units ↔ signedVal x < signedVal y := by
  have hmono (m n : Nat) : magUnits m < magUnits n ↔ m < n := magUnits_strictMono.lt_iff_lt
  have hzero : magUnits 0 = 0 := rfl
  have hpos (m : Nat) : 0 < magUnits m ↔ 0 < m := hmono 0 m
  rw [units_decode hx hnx, units_decode hy hny, signedVal, signedVal]
  have h1 := hmono (x % 2 ^ 31) (y % 2 ^ 31)
  have h2 := hmono (y % 2 ^ 31) (x % 2 ^ 31)
  have h3 := hpos (x % 2 ^ 31)
  have h4 := hpos (y % 2 ^ 31)
  split <;> split <;> omega

/-- The order of encodings that are not NaN. -/
theorem cmpNum_decode {x y : Nat} (hx : x < 2 ^ 32) (hy : y < 2 ^ 32) (hnx : ¬0x7F800000 < x % 2 ^ 31) (hny : ¬0x7F800000 < y % 2 ^ 31) :
    cmpNum (decodeF fp32 x) (decodeF fp32 y) = compare (signedVal x) (signedVal y) := by
  have hlt := units_lt_iff hx hy hnx hny
  have hgt := units_lt_iff hy hx hny hnx
  rw [cmpNum_eq ((decode_eq_nan_iff x).not.mpr hnx) ((decode_eq_nan_iff y).not.mpr hny) (decode_single x) (decode_single y)]
  rcases lt_trichotomy (signedVal x) (signedVal y) with h | h | h
  · rw [compare_lt_iff_lt.mpr h, compare_lt_iff_lt.mpr (hlt.mpr h)]
  · rw [compare_eq_iff_eq.mpr h, compare_eq_iff_eq.mpr (by omega)]
  · rw [compare_gt_iff_gt.mpr h, compare_gt_iff_gt.mpr (hgt.mpr h)]

/-- The order of minimum and maximum, with −0 below +0 (R157). -/
def signedKey (n : Nat) : Int := if n < 2 ^ 31 then n else 2 ^ 31 - 1 - (n : Int)

theorem isNeg_decode {x : Nat} (hx : x < 2 ^ 32) (hnan : ¬0x7F800000 < x % 2 ^ 31) : (decodeF fp32 x).isNeg = decide (2 ^ 31 ≤ x) := by
  rw [decode_fp32, if_neg hnan, ← bit_sign hx]
  split <;> [skip; split] <;> rfl

theorem belowNum_decode {x y : Nat} (hx : x < 2 ^ 32) (hy : y < 2 ^ 32) (hnx : ¬0x7F800000 < x % 2 ^ 31) (hny : ¬0x7F800000 < y % 2 ^ 31) :
    belowNum (decodeF fp32 x) (decodeF fp32 y) = decide (signedKey x < signedKey y) := by
  have hsign : ((decodeF fp32 x).isNeg && !(decodeF fp32 y).isNeg) = decide (2 ^ 31 ≤ x ∧ y < 2 ^ 31) := by
    rw [isNeg_decode hx hnx, isNeg_decode hy hny, ← decide_not, ← Bool.decide_and]
    simp only [not_le]
  rw [belowNum, cmpNum_decode hx hy hnx hny, hsign]
  rcases lt_trichotomy (signedVal x) (signedVal y) with h | h | h
  · rw [compare_lt_iff_lt.mpr h]
    refine (decide_eq_true ?_).symm
    simp only [signedVal, signedKey] at h ⊢
    split at h <;> split at h <;> omega
  · rw [compare_eq_iff_eq.mpr h]
    refine decide_eq_decide.mpr ?_
    simp only [signedVal, signedKey] at h ⊢
    split at h <;> split at h <;> omega
  · rw [compare_gt_iff_gt.mpr h]
    refine (decide_eq_false ?_).symm
    simp only [signedVal, signedKey] at h ⊢
    split at h <;> split at h <;> omega

theorem signedKey_inj {x y : Nat} (h : signedKey x = signedKey y) : x = y := by
  simp only [signedKey] at h
  split at h <;> split at h <;> omega

/-! ### The instructions on FP32 elements -/

theorem signed_fp32 (neg : Bool) (mag : Nat) : fp32.signed neg mag = b2n neg * 2 ^ 31 + mag := rfl

theorem signFloat_fp32 {x : Nat} (hx : x < 2 ^ 32) (flip : Bool) : signFloat fp32 flip x =
    (if 0x7F800000 < x % 2 ^ 31 then 0x7FC00000 else if flip then (x + 2 ^ 31) % 2 ^ 32 else x % 2 ^ 31, 0) := by
  by_cases hnan : 0x7F800000 < x % 2 ^ 31
  · rw [if_pos hnan, signFloat, (decode_eq_nan_iff x).mpr hnan]
    rfl
  · have hval : signFloat fp32 flip x = (fp32.signed (flip && !(decodeF fp32 x).isNeg) (x % 2 ^ 31), 0) := by
      rw [signFloat]
      cases h : decodeF fp32 x with
      | nan => exact absurd ((decode_eq_nan_iff x).mp h) hnan
      | _ => rfl
    rw [if_neg hnan, hval, isNeg_decode hx hnan]
    refine congrArg (·, 0) ?_
    rw [signed_fp32]
    cases flip with
    | false => exact (congrArg (· + _) (Nat.zero_mul _)).trans (Nat.zero_add _)
    | true =>
      rw [Bool.true_and, b2n, if_pos rfl]
      by_cases h : 2 ^ 31 ≤ x
      · rw [decide_eq_true h, Bool.not_true, if_neg (by decide)]
        omega
      · rw [decide_eq_false h, Bool.not_false, if_pos rfl]
        omega

theorem pickFloat_fp32 {x y : Nat} (hx : x < 2 ^ 32) (hy : y < 2 ^ 32) (hi num : Bool) : pickFloat fp32 hi num x y =
    (if (0x7F800000 < x % 2 ^ 31) ∧ ((0x7F800000 < y % 2 ^ 31) ∨ num = false) ∨ (0x7F800000 < y % 2 ^ 31) ∧ num = false then 0x7FC00000
     else if 0x7F800000 < x % 2 ^ 31 then y else if 0x7F800000 < y % 2 ^ 31 then x
     else if signedKey x ≤ signedKey y then (if hi then y else x) else (if hi then x else y), 0) := by
  simp only [pickFloat, decode_eq_nan_iff]
  by_cases hnx : 0x7F800000 < x % 2 ^ 31
  · by_cases hny : 0x7F800000 < y % 2 ^ 31 <;> cases num <;> simp only [hnx, hny] <;> rfl
  by_cases hny : 0x7F800000 < y % 2 ^ 31
  · cases num <;> simp only [hnx, hny] <;> rfl
  have horder : (belowNum (decodeF fp32 x) (decodeF fp32 y) = true ↔ signedKey x ≤ signedKey y) ∨ x = y := by
    rw [belowNum_decode hx hy hnx hny, decide_eq_true_eq]
    rcases lt_trichotomy (signedKey x) (signedKey y) with h | h | h
    · exact .inl (by omega)
    · exact .inr (signedKey_inj h)
    · exact .inl (by omega)
  simp only [hnx, hny, false_and, or_false, ↓reduceIte]
  obtain h | rfl := horder
  · simp only [h]
    split <;> rfl
  · simp

theorem flags_collect {w : Nat} {rs : List (Nat × Flags)} (h : ∀ r ∈ rs, r.2 = 0) : (collect w rs).2 = 0 := by
  rw [collect]
  dsimp only
  induction rs with
  | nil => rfl
  | cons r rs ih =>
    rw [List.foldl_cons, h r List.mem_cons_self]
    exact ih (fun r hr => h r (List.mem_cons_of_mem _ hr))

/-- The conditions of a floating comparison (Table 7-9). -/
theorem cmpFloat_iff {cc : Nat} (hcc : cc < 8) {a b : Num} (ha : a ≠ .nan) (hb : b ≠ .nan) {u v : Int} (h : cmpNum a b = compare u v) :
    (cmpFloat cc a b).1 = true ↔ (cc = 0 ∧ u = v) ∨ (cc = 1 ∧ u ≠ v) ∨ (cc = 2 ∧ u < v) ∨ (cc = 3 ∧ u ≤ v) ∨ (cc = 4 ∧ v < u) ∨
      (cc = 5 ∧ v ≤ u) ∨ cc = 7 := by
  have hnan : ¬(a = .nan ∨ b = .nan) := not_or.mpr ⟨ha, hb⟩
  rcases lt_trichotomy u v with huv | huv | huv
  · rw [compare_lt_iff_lt.mpr huv] at h
    interval_cases cc <;> simp [cmpFloat, hnan, h] <;> omega
  · rw [compare_eq_iff_eq.mpr huv] at h
    interval_cases cc <;> simp [cmpFloat, hnan, h] <;> omega
  · rw [compare_gt_iff_gt.mpr huv] at h
    interval_cases cc <;> simp [cmpFloat, hnan, h] <;> omega

theorem cmpFloat_nan {cc : Nat} (hcc : cc < 8) {a b : Num} (h : a = .nan ∨ b = .nan) : (cmpFloat cc a b).1 = true ↔ cc = 1 ∨ cc = 6 := by
  interval_cases cc <;> simp [cmpFloat, h]

section
variable {f : VecF} (hty : f.type = 0) (a b : Vec)
include hty

theorem vSign_fp32 (flip : Bool) : vSign flip f a = map1 32 (signFloat fp32 flip) a := by
  rw [vSign, hty]
  rfl

theorem vPick_fp32 (hi : Bool) : vPick hi f a b = map2 32 (pickFloat fp32 hi (f.var.getLsbD 0)) a b := by
  rw [vPick, hty]
  rfl

theorem cmpElem_fp32 (x y : Nat) : cmpElem f x y = cmpFloat (f.imm.toNat % 16) (decodeF fp32 x) (decodeF fp32 y) := by
  rw [cmpElem, hty]
  rfl

theorem flags_vSign (flip : Bool) : (vSign flip f a).2 = 0 := by
  rw [vSign_fp32 hty, map1]
  refine flags_collect (fun r hr => ?_)
  obtain ⟨x, hx, rfl⟩ := List.mem_map.mp hr
  obtain ⟨i, hi, rfl⟩ := List.mem_iff_getElem.mp hx
  rw [getElem_lanes, signFloat_fp32 (velem_lt ..)]

theorem flags_vPick (hig : Bool) : (vPick hig f a b).2 = 0 := by
  rw [vPick_fp32 hty, map2]
  refine flags_collect (fun r hr => ?_)
  obtain ⟨p, hp, rfl⟩ := List.mem_map.mp hr
  obtain ⟨i, hi, rfl⟩ := List.mem_iff_getElem.mp hp
  rw [List.getElem_zip, getElem_lanes, getElem_lanes, pickFloat_fp32 (velem_lt ..) (velem_lt ..)]

variable {i : Nat} (hi : i < 2048 / 32)
include hi

theorem velem_vSign_fp32 (flip : Bool) : velem 32 (vSign flip f a).1 i =
    if 0x7F800000 < velem 32 a i % 2 ^ 31 then 0x7FC00000 else if flip then (velem 32 a i + 2 ^ 31) % 2 ^ 32 else velem 32 a i % 2 ^ 31 := by
  rw [vSign_fp32 hty, velem_map1 hi, signFloat_fp32 (velem_lt ..), Nat.mod_eq_of_lt]
  dsimp only
  split <;> [skip; split] <;> omega

theorem velem_vPick_fp32 (hig : Bool) : velem 32 (vPick hig f a b).1 i =
    (pickFloat fp32 hig (f.var.getLsbD 0) (velem 32 a i) (velem 32 b i)).1 := by
  have hx := velem_lt 32 a i
  have hy := velem_lt 32 b i
  rw [vPick_fp32 hty, velem_map2 hi, Nat.mod_eq_of_lt]
  rw [pickFloat_fp32 hx hy]
  exact ite_lt_of_lt (by decide) (ite_lt_of_lt hy (ite_lt_of_lt hx (ite_lt_of_lt (ite_lt_of_lt hy hx) (ite_lt_of_lt hx hy))))

theorem getD_vCompare_fp32 : (vCompare f a b).2.getD i false =
    (cmpFloat (f.imm.toNat % 16) (decodeF fp32 (velem 32 a i)) (decodeF fp32 (velem 32 b i))).1 := by
  have hwid : typeWidth f.type = 32 := by rw [hty]; rfl
  have hget := getD_vCompare f a b (hwid.symm ▸ hi)
  rwa [hwid, cmpElem_fp32 hty] at hget

end

theorem vectorFloatElements : Claims.VectorFloatElements := by
  intro f a b i hty hi x y nan key val cc r
  have hi : i < 2048 / 32 := hi
  have hx : x < 2 ^ 32 := velem_lt ..
  have hy : y < 2 ^ 32 := velem_lt ..
  have hkey (n : Nat) : key n = signedKey n := by rw [signedKey]
  have hval (n : Nat) : val n = signedVal n := by rw [signedVal]
  have hr : r = (cmpFloat cc (decodeF fp32 x) (decodeF fp32 y)).1 := getD_vCompare_fp32 hty a b hi
  refine ⟨?_, ?_, ?_, ?_, flags_vSign hty a false, flags_vSign hty a true,
    flags_vPick hty a b false, flags_vPick hty a b true, ?_, ?_, velem_vCompare f a b (by rw [hty]; rfl) hi⟩
  · rw [velem_vSign_fp32 hty a hi, if_neg (show ¬false = true by decide)]
  · rw [velem_vSign_fp32 hty a hi, if_pos rfl]
  · rw [velem_vPick_fp32 hty a b hi, pickFloat_fp32 hx hy, hkey, hkey, if_neg (show ¬false = true by decide),
      if_neg (show ¬false = true by decide)]
  · rw [velem_vPick_fp32 hty a b hi, pickFloat_fp32 hx hy, hkey, hkey, if_pos rfl, if_pos rfl]
  · intro hnan hcc
    rw [hr]
    exact cmpFloat_nan hcc (hnan.imp (decode_eq_nan_iff x).mpr (decode_eq_nan_iff y).mpr)
  · intro hnx hny hcc
    rw [hr]
    simp only [hval]
    exact cmpFloat_iff hcc ((decode_eq_nan_iff x).not.mpr hnx) ((decode_eq_nan_iff y).not.mpr hny) (cmpNum_decode hx hy hnx hny)

end Sys2Proof.Machine

namespace Sys2Proof.Proofs
open Sys2Proof.Machine

/-- Settles O50, whose three parts are the issue of a row, the integer elements and the floating elements. -/
theorem vectorInstructionsCompute : Obligations.VectorInstructionsCompute :=
  ⟨vectorInstructionsComputeTheirRow, vectorIntegerElements, vectorFloatElements⟩

end Sys2Proof.Proofs
end


-- ==== Sys2Proof/Proofs/CanonicalState.lean ====
section
/-! PROOFS. The invariant that memory is canonical, and the functions of the state, of memory, translation and results that keep it. -/
namespace Sys2Proof.Machine

/-! ## Canonical memory, of what the functions of the model answer -/

/-- The memory of the state lists rising addresses, and no zero byte (log 1). -/
def State.Canonical (s : State) : Prop := Memory.wf s.mem = true

/-- The effect of a group is on a state with canonical memory. A trap without effect names no state. -/
def Act.Canonical : Act → Prop
  | .done t => t.Canonical
  | .jump t _ _ => t.Canonical
  | .wait t _ _ _ => t.Canonical
  | .fail t _ => t.Canonical
  | .trapDone t _ => t.Canonical
  | .pend t _ => t.Canonical
  | .trap _ => True

/-- A step that may not take place leaves canonical memory where it does. -/
def SomeCanonical : Option State → Prop
  | some t => t.Canonical
  | none => True

/-- An effect that need not be there is canonical where it is. -/
def SomeCanonicalAct : Option Act → Prop
  | some a => a.Canonical
  | none => True

/-- The next state, where there is one, has canonical memory. -/
def NextCanonical : Host.Outcome State Fault Refusal → Prop
  | .next t => t.Canonical
  | _ => True

/-- An engine's access leaves canonical memory, whether it succeeds, stands at a fault record, waits or fails. -/
def EngR.Canonical {α : Type} : EngR α → Prop
  | .ok _ t => t.Canonical
  | .stand _ t => t.Canonical
  | .wait t => t.Canonical
  | .fail _ _ _ t => t.Canonical

/-- An access that need not be made leaves canonical memory where it is. -/
def SomeCanonicalR {α : Type} : Option (EngR α) → Prop
  | some x => x.Canonical
  | none => True

/-- The same of an access whose value is the state itself: that state, and not the one that the value comes with, is the next. -/
def EngR.Lands : EngR State → Prop
  | .ok t _ => t.Canonical
  | .stand _ t => t.Canonical
  | .wait t => t.Canonical
  | .fail _ _ _ t => t.Canonical

/-- Such an access lands where it is made. -/
def SomeLands : Option (EngR State) → Prop
  | some x => x.Lands
  | none => True

/-- A translation leaves canonical memory; a failed one names no state. -/
def Tr.Canonical : Tr → Prop
  | .ok _ t => t.Canonical
  | .stand _ t => t.Canonical
  | .bad _ _ => True

/-- An engine's read of parts leaves canonical memory; a failed one names no state. -/
def ERead.Canonical : ERead → Prop
  | .ok _ t => t.Canonical
  | .wait t => t.Canonical
  | .bad _ _ => True

/-- A translation of K leaves canonical memory; a fault names no state. -/
def KTr.Canonical : KTr → Prop
  | .ok t _ => t.Canonical
  | .wait t => t.Canonical
  | .fault _ _ => True

/-- A read at the home leaves canonical memory; an error names no state. -/
def HomeRead.Canonical : HomeRead → Prop
  | .value _ t => t.Canonical
  | .wait t => t.Canonical
  | .error _ _ => True

/-- A read of a table leaves canonical memory; a fault names no state. -/
def TRead.Canonical : TRead → Prop
  | .value _ t => t.Canonical
  | .wait t => t.Canonical
  | .fault _ _ => True
  | .error _ _ _ t => t.Canonical

/-- The read of the body that `mdef` names leaves canonical memory; a bad body names no state. -/
def BRead.Canonical : BRead → Prop
  | .body _ t => t.Canonical
  | .wait t => t.Canonical
  | .bad _ => True
  | .refused t => t.Canonical

/-! ## What is canonical of what is composed -/

theorem State.Canonical.of_mem {s t : State} (h : s.Canonical) (ht : t.mem = s.mem) : t.Canonical := by
  rwa [State.Canonical, ht]

theorem State.Canonical.of_keeps {α : Type} {s : State} {x : EngR α} (h : s.Canonical) (hx : x.state.mem = s.mem) : x.Canonical := by
  cases x <;> exact h.of_mem hx

theorem foldl_canonical {α : Type} {f : State → α → State} (hf : ∀ s a, s.Canonical → (f s a).Canonical) (l : List α) {s : State}
    (hs : s.Canonical) : (l.foldl f s).Canonical := by
  induction l generalizing s with
  | nil => exact hs
  | cons a l ih => exact ih (hf s a hs)

theorem foldl_canonicalR {α β : Type} {f : EngR α → β → EngR α} (hf : ∀ x b, x.Canonical → (f x b).Canonical) (l : List β) {x : EngR α}
    (hx : x.Canonical) : (l.foldl f x).Canonical := by
  induction l generalizing x with
  | nil => exact hx
  | cons b l ih => exact ih (hf x b hx)

theorem SomeCanonical.map {α : Type} {f : α → State} (hf : ∀ a, (f a).Canonical) (o : Option α) : SomeCanonical (o.map f) := by
  cases o with
  | none => trivial
  | some a => exact hf a

theorem SomeCanonical.ite {p : Prop} [Decidable p] {a b : Option State} (ha : SomeCanonical a) (hb : SomeCanonical b) :
    SomeCanonical (if p then a else b) := by
  split
  · exact ha
  · exact hb

theorem SomeCanonical.getD {o : Option State} {s : State} (ho : SomeCanonical o) (hs : s.Canonical) : (o.getD s).Canonical := by
  cases o with
  | none => exact hs
  | some t => exact ho

theorem SomeCanonicalAct.map {α : Type} {f : α → Act} (hf : ∀ a, (f a).Canonical) (o : Option α) : SomeCanonicalAct (o.map f) := by
  cases o with
  | none => trivial
  | some a => exact hf a

theorem EngR.andThen_lands {α : Type} {x : EngR α} {f : α → State → EngR State} (hx : x.Canonical) (hf : ∀ a t, t.Canonical → (f a t).Lands) :
    (x.andThen f).Lands := by
  cases x with
  | ok a t => exact hf a t hx
  | stand w t => exact hx
  | wait t => exact hx
  | fail c k va t => exact hx

/-! ## The reset -/

theorem State.reset_canonical : State.reset.Canonical := reset_mem_wf

/-! ## Updates of the state and how a group ends -/

theorem State.setCore_canonical (s : State) (c : Nat) (x : Core) (hs : s.Canonical) : (s.setCore c x).Canonical := hs

theorem State.modCore_canonical (s : State) (c : Nat) (f : Core → Core) (hs : s.Canonical) : (s.modCore c f).Canonical := hs

theorem State.modArr_canonical (s : State) (a : Nat) (f : ArrSt → ArrSt) (hs : s.Canonical) : (s.modArr a f).Canonical := hs

theorem State.modDie_canonical (s : State) (d : Nat) (f : Die → Die) (hs : s.Canonical) : (s.modDie d f).Canonical := hs

theorem State.modIm_canonical (s : State) (c : Nat) (f : Image → Image) (hs : s.Canonical) : (s.modIm c f).Canonical := hs

theorem State.modVec_canonical (s : State) (c : Nat) (f : VecSt → VecSt) (hs : s.Canonical) : (s.modVec c f).Canonical := hs

theorem State.modMs_canonical (s : State) (c : Nat) (f : MemSide → MemSide) (hs : s.Canonical) : (s.modMs c f).Canonical := hs

theorem State.modStops_canonical (s : State) (c : Nat) (f : Stops → Stops) (hs : s.Canonical) : (s.modStops c f).Canonical := hs

theorem State.modUnits_canonical (s : State) (c : Nat) (f : Units → Units) (hs : s.Canonical) : (s.modUnits c f).Canonical := hs

theorem State.modWalk_canonical (s : State) (c : Nat) (f : Walk → Walk) (hs : s.Canonical) : (s.modWalk c f).Canonical := hs

theorem State.modSeq_canonical (s : State) (c : Nat) (q : Seq) (f : SeqSt → SeqSt) (hs : s.Canonical) : (s.modSeq c q f).Canonical := hs

theorem State.later_canonical (s : State) (least : Nat) (hs : s.Canonical) : (s.later least).2.Canonical := hs

theorem State.send_canonical (s : State) (m : Msg) (hs : s.Canonical) : (s.send m).Canonical := hs

theorem State.notice_canonical (s : State) (dsts : List Nat) (m : Option Nat → Msg) (hs : s.Canonical) : (s.notice dsts m).Canonical :=
  foldl_canonical (fun s r hs => s.send_canonical (m (some r)) hs) _ hs

theorem State.pushFlight_canonical (s : State) (c : Nat) (f : Flight) (hs : s.Canonical) : (s.pushFlight c f).Canonical := hs

theorem State.result_canonical (s : State) (lat ord : Nat) (fx : Fx) (hs : s.Canonical) : (s.result lat ord fx).Canonical := hs

theorem State.retire_canonical (s : State) (hs : s.Canonical) : s.retire.Canonical := hs

theorem State.endCounted_canonical (s : State) (c : Nat) (hs : s.Canonical) : (s.endCounted c).Canonical := by
  grind [State.endCounted, State.modArr_canonical]

theorem State.takeTrap_canonical (s : State) (c : Nat) (q : Seq) (t : TrapInfo) (cmd more : Nat) (hs : s.Canonical) :
    (s.takeTrap c q t cmd more).Canonical := by
  grind [State.takeTrap, State.modStops_canonical, State.modSeq_canonical, State.endCounted_canonical]

theorem State.trapHere_canonical (s : State) (t : TrapInfo) (hs : s.Canonical) : (s.trapHere t).Canonical := by
  grind [State.trapHere, State.takeTrap_canonical]

theorem State.raisePending_canonical (s : State) (e : PErr) (hs : s.Canonical) : (s.raisePending e).Canonical := hs

theorem State.opTrap_canonical (s : State) (cause : Nat) : (s.opTrap cause).Canonical := by
  grind [State.opTrap, Act.Canonical]

theorem memTrap_canonical (cause : Nat) (addr : Nat) (status : Half) : (memTrap cause addr status).Canonical := trivial

theorem fencedTrap_canonical (engine unit : Nat) : (fencedTrap engine unit).Canonical := trivial

theorem State.settleAct_canonical (s : State) (a : Act) (hs : s.Canonical) (ha : a.Canonical) : (s.settleAct a).Canonical := by
  cases a with
  | done t => exact ha
  | jump t x d => exact ha
  | wait t k o l =>
    rw [State.settleAct]
    split
    · exact s.trapHere_canonical _ hs
    · exact ha
  | trap t => exact s.trapHere_canonical t hs
  | fail t i => exact t.trapHere_canonical i ha
  | trapDone t i => exact t.retire.takeTrap_canonical _ _ i _ _ ha
  | pend t e => exact t.raisePending_canonical e ha

theorem State.settle_canonical (s : State) (a : Act) (hs : s.Canonical) (ha : a.Canonical) : (s.settle a).Canonical := by
  rw [State.settle]
  split
  · exact s.settleAct_canonical a hs ha
  · split
    · split
      · exact s.raisePending_canonical _ hs
      · exact s.settleAct_canonical _ hs ha
    · exact State.raisePending_canonical _ _ ha
    · exact s.raisePending_canonical _ hs

theorem State.skipGroup_canonical (s : State) (hs : s.Canonical) : s.skipGroup.Canonical := by
  grind [State.skipGroup, State.settle_canonical, Act.Canonical]

theorem finish_canonical (s : State) (a : Act) (hs : s.Canonical) (ha : a.Canonical) : NextCanonical (finish s a) := s.settle_canonical a hs ha

theorem event_canonical (name : String) (a : Option State) (ha : SomeCanonical a) : NextCanonical (event name a) := by
  cases a with
  | none => trivial
  | some t => exact ha

theorem State.manage_canonical (s : State) (a : Option State) (hs : s.Canonical) (ha : SomeCanonical a) : SomeCanonical (s.manage a) := by
  grind [State.manage, SomeCanonical]

theorem coreEvent_canonical (name : String) (c : Nat) (a : Option State) (ha : SomeCanonical a) : NextCanonical (coreEvent name c a) := by
  grind [coreEvent, event_canonical, NextCanonical]

theorem State.setPending_canonical (s : State) (c ctx : Nat) (e : PErr) (hs : s.Canonical) : (s.setPending c ctx e).Canonical := by
  grind [State.setPending, State.modIm_canonical, State.Canonical]

theorem State.raiseError_canonical (s : State) (c ctx cause engine : Nat) (addr : Word) (hs : s.Canonical) :
    (s.raiseError c ctx cause engine addr).Canonical := by
  grind [State.raiseError, State.setPending_canonical]

theorem State.unitFault_canonical (s : State) (c ctx : Nat) (q : Seq) (seg : Nat) (cmd : Nat) (t : TrapInfo) (hs : s.Canonical) :
    (s.unitFault c ctx q seg cmd t).Canonical := by
  grind [State.unitFault, State.takeTrap_canonical, State.setPending_canonical]

theorem State.postRecord_canonical (s : State) (d : Nat) (r : TrapRec) (hs : s.Canonical) : (s.postRecord d r).Canonical := hs

theorem State.post_canonical (s : State) (c : Nat) (p : Post) (hs : s.Canonical) : (s.post c p).Canonical := hs

theorem State.posts_canonical (s : State) (c : Nat) (ps : List Post) (hs : s.Canonical) : (s.posts c ps).Canonical := hs

theorem State.wr_canonical (s : State) (lat : Nat) (code : BitVec 5) (v : Word) (hs : s.Canonical) : (s.wr lat code v).Canonical := by
  grind [State.wr, State.result_canonical]

theorem State.wrPred_canonical (s : State) (lat : Nat) (p : BitVec 4) (v : Bool) (hs : s.Canonical) : (s.wrPred lat p v).Canonical := by
  grind [State.wrPred, State.result_canonical]

theorem flawTrap_canonical : flawTrap.Canonical := trivial

theorem issue_canonical (s : State) (codes : List (BitVec 5)) (act : State → Act) (hs : s.Canonical) (ha : (act s).Canonical) :
    NextCanonical (issue s codes act) := by
  refine finish_canonical s _ hs ?_
  split
  · exact hs
  · split
    · trivial
    · exact ha

/-! ## Memory, its homes and its readers -/

theorem State.homeWrite_canonical (s : State) (pa : Nat) (bs : List Byte) (hs : s.Canonical) : (s.homeWrite pa bs).Canonical :=
  s.homeWrite_wf pa bs hs

theorem State.logError_canonical (s : State) (d : Nat) (e : ErrEnt) (hs : s.Canonical) : (s.logError d e).Canonical := hs

theorem State.linkMet_canonical (s : State) (c pa cause : Nat) (hs : s.Canonical) : (s.linkMet c pa cause).Canonical := by
  grind [State.linkMet, State.Canonical]

theorem State.accessError_canonical (s : State) (c pa : Nat) (va : Word) (ctx cause kind origin : Nat) (hs : s.Canonical) :
    (s.accessError c pa va ctx cause kind origin).Canonical := by
  grind [State.accessError, State.setPending_canonical, State.logError_canonical, State.linkMet_canonical]

theorem State.promote_canonical (s : State) (e : PWrite) (hs : s.Canonical) : (s.promote e).Canonical := s.promote_wf e hs

theorem State.l2Bar_canonical (s : State) (p : DReq → Bool) (pa n : Nat) (hs : s.Canonical) : (s.l2Bar p pa n).Canonical := hs

theorem State.l2Drop_canonical (s : State) (pa n : Nat) (hs : s.Canonical) : (s.l2Drop pa n).Canonical := hs

theorem State.l2Fill_canonical (s : State) (pa : Nat) (bs : List Byte) (hs : s.Canonical) : (s.l2Fill pa bs).Canonical := by
  grind [State.l2Fill, State.Canonical]

theorem State.domainSend_canonical (s : State) (target op aop u size scope ctx len rid pa : Nat) (val cv : Word) (data : List Byte) (core acc : Nat)
    (hs : s.Canonical) : (s.domainSend target op aop u size scope ctx len rid pa val cv data core acc).Canonical := by
  grind [State.domainSend, State.send_canonical, State.l2Drop_canonical, State.Canonical]

theorem State.publishAll_canonical (s : State) (scope : Nat) (ws : List PWrite) (hs : s.Canonical) : (s.publishAll scope ws).Canonical :=
  s.publishAll_wf scope ws hs

theorem State.widen_canonical (s : State) (c scope : Nat) (hs : s.Canonical) : (s.widen c scope).Canonical := s.widen_wf c scope hs

theorem State.release_canonical (s : State) (c scope : Nat) (hs : s.Canonical) : (s.release c scope).Canonical := by
  grind [State.release, State.modMs_canonical, State.publishAll_canonical, State.widen_canonical]

theorem State.l2Clear_canonical (s : State) (hs : s.Canonical) : s.l2Clear.Canonical := hs

theorem State.acquire_canonical (s : State) (c scope : Nat) (hs : s.Canonical) : (s.acquire c scope).Canonical := by
  grind [State.acquire, State.modMs_canonical, State.l2Clear_canonical]

theorem State.storeBytes_canonical (s : State) (c pa : Nat) (va : Word) (origin : Nat) (bs : List Byte) (hs : s.Canonical) :
    (s.storeBytes c pa va origin bs).Canonical := hs

theorem State.publishHits_canonical (s : State) (c pa nb id : Nat) (hs : s.Canonical) : (s.publishHits c pa nb id).Canonical := by
  grind [State.publishHits, State.modMs_canonical, State.publishAll_canonical]

theorem State.atomicPerform_canonical (s : State) (c pa nb : Nat) (f : Nat → Option Nat) (hs : s.Canonical) :
    (s.atomicPerform c pa nb f).2.Canonical := by
  grind [State.atomicPerform, State.modMs_canonical, State.homeWrite_canonical]

theorem imageSemUpdate_canonical (s : State) (cimg c k n : Nat) (hs : s.Canonical) : (imageSemUpdate s cimg c k n).Canonical := by
  grind [imageSemUpdate, State.homeWrite_canonical]

/-! ## Translation and fault records -/

theorem State.faultCore_canonical (s : State) (c ctx unit uidx kind interval : Nat) (va : Word) (e : TrFail) (hs : s.Canonical) :
    (s.faultCore c ctx unit uidx kind interval va e).2.Canonical := hs.of_mem (s.faultCore_mem ..)

theorem State.queueWalk_canonical (s : State) (d key : Nat) (hs : s.Canonical) : (s.queueWalk d key).Canonical := hs

theorem State.streamFill_canonical (s : State) (agent : Nat) (e : TlbEnt) (down : Bool) (hs : s.Canonical) :
    (s.streamFill agent e down).Canonical := by
  grind [State.streamFill, State.queueWalk_canonical, State.Canonical]

theorem State.stream_canonical {s t : State} {agent ctx kind : Nat} {root va : Word} {down : Bool} {e : TlbEnt} (hs : s.Canonical)
    (h : s.stream agent ctx root va kind down = .ok (e, t)) : t.Canonical := hs.of_mem (State.stream_mem h)

theorem State.unitTake_canonical (s : State) (u ucy : Nat) (hs : s.Canonical) : (s.unitTake u ucy).2.Canonical := hs

theorem State.unitTakeUpTo_canonical (s : State) (u ucy : Nat) (hs : s.Canonical) : (s.unitTakeUpTo u ucy).2.Canonical := hs

theorem State.walkOver_canonical (s : State) (d key : Nat) (hs : s.Canonical) : (s.walkOver d key).Canonical := hs

theorem State.engineAccess_canonical (s : State) (c agent ctx unit uidx kind : Nat) (down : Bool) (w : FWait) (va : Word) (n : Nat)
    (hs : s.Canonical) : (s.engineAccess c agent ctx unit uidx kind down w va n).Canonical := by
  have hkeeps := agentFrame_mem.engineAccess s c agent ctx unit uidx kind down w va n
  generalize s.engineAccess c agent ctx unit uidx kind down w va n = r at hkeeps
  cases r with
  | ok ps t => exact hs.of_mem hkeeps
  | stand w t => exact hs.of_mem hkeeps
  | bad => trivial

theorem State.frontAccess_canonical (s : State) (d agent ctx unit uidx kind : Nat) (down : Bool) (w : FWait) (va : Word) (n : Nat)
    (hs : s.Canonical) : (s.frontAccess d agent ctx unit uidx kind down w va n).Canonical := by
  have hkeeps := agentFrame_mem.frontAccess s d agent ctx unit uidx kind down w va n
  generalize s.frontAccess d agent ctx unit uidx kind down w va n = r at hkeeps
  cases r with
  | ok ps t => exact hs.of_mem hkeeps
  | stand w t => exact hs.of_mem hkeeps
  | bad => trivial

theorem State.readParts_canonical (s : State) (agent ctx : Nat) (ps : List (Nat × Nat)) (hs : s.Canonical) :
    (s.readParts agent ctx ps).Canonical := by
  induction ps generalizing s with
  | nil => exact hs
  | cons p r ih =>
    have hmore := ih s hs
    grind [State.readParts, ERead.Canonical, State.domainSend_canonical]

theorem State.forget_canonical (s : State) (agent : Nat) (hs : s.Canonical) : (s.forget agent).Canonical := hs

theorem State.writeParts_canonical (s : State) (agent ctx scope : Nat) (ps : List (Nat × Nat)) (bs : List Byte) (hs : s.Canonical) :
    (s.writeParts agent ctx scope ps bs).Canonical := State.writeParts_wf agent ctx scope ps s bs hs

theorem State.kTranslate_canonical (s : State) (c kind i : Nat) (l : List Word) (hs : s.Canonical) : (s.kTranslate c kind i l).Canonical := by
  induction l generalizing s i with
  | nil => exact hs
  | cons va r ih =>
    have hrest (f : MemSide → MemSide) := ih (s.modMs c f) (i + 1) (s.modMs_canonical c f hs)
    grind [State.kTranslate, KTr.Canonical, State.modMs_canonical, State.later_canonical, State.queueWalk_canonical]

/-! ## The schedule counter -/

theorem State.withCur_canonical (s : State) (u : Cur) (hs : s.Canonical) : (s.withCur u).Canonical := hs

theorem State.strike_canonical (s : State) (x : Struck) (hs : s.Canonical) : (s.strike x).Canonical := by cases x <;> exact hs

theorem State.strikeDue_canonical (s : State) (hs : s.Canonical) : s.strikeDue.Canonical :=
  foldl_canonical (fun s p hs => s.strike_canonical p.2 hs) _ hs

theorem State.tick_canonical (s : State) (hs : s.Canonical) : s.tick.Canonical := by
  grind [State.tick, State.strikeDue_canonical, State.Canonical]

/-! ## Operands -/

theorem State.checked_canonical (s : State) (target : Word) (a : Act) (hs : s.Canonical) (ha : a.Canonical) : (s.checked target a).Canonical := by
  grind [State.checked, State.opTrap_canonical]

/-! ## Special registers -/

theorem actMts_canonical (f : MgtF) (s : State) (hs : s.Canonical) : (actMts f s).Canonical := by
  grind [actMts, State.result_canonical, State.opTrap_canonical, Act.Canonical]

theorem execMfs_canonical (f : MgtF) (s : State) (hs : s.Canonical) : NextCanonical (execMfs f s) := by
  grind [execMfs, State.opTrap_canonical, State.wr_canonical, issue_canonical, Act.Canonical]

/-! ## Tokens and alignment -/

theorem actTkput_canonical (f : MgtF) (s : State) (hs : s.Canonical) : (actTkput f s).Canonical := by
  grind [actTkput, State.result_canonical, State.opTrap_canonical, Act.Canonical]

theorem actTkget_canonical (f : MgtF) (s : State) (hs : s.Canonical) : (actTkget f s).Canonical := by
  grind [actTkget, State.result_canonical, State.opTrap_canonical, Act.Canonical]

theorem actTkgetTry_canonical (f : MgtF) (s : State) (hs : s.Canonical) : (actTkgetTry f s).Canonical := by
  grind [actTkgetTry, State.result_canonical, State.opTrap_canonical, State.wrPred_canonical, Act.Canonical]

theorem actAlign_canonical (f : MgtF) (s : State) (hs : s.Canonical) : (actAlign f s).Canonical := by
  grind [actAlign, State.result_canonical, State.opTrap_canonical, foldl_canonical, Act.Canonical]

theorem execGalign_canonical (_f : MgtF) (s : State) (hs : s.Canonical) : NextCanonical (execGalign _f s) := by
  grind [execGalign, State.modIm_canonical, State.modStops_canonical, issue_canonical, Act.Canonical]

theorem execGalignRelease_canonical (c : Nat) (s : State) (hs : s.Canonical) : NextCanonical (execGalignRelease c s) := by
  grind [execGalignRelease, State.modStops_canonical, coreEvent_canonical, foldl_canonical, SomeCanonical]

theorem State.unarrive_canonical (s : State) (c : Nat) (hs : s.Canonical) : (s.unarrive c).Canonical := hs

theorem State.breakAt_canonical (s : State) (m c : Nat) (hs : s.Canonical) : (s.breakAt m c).Canonical := hs

theorem execGalignBreak_canonical (m : Nat) (s : State) (hs : s.Canonical) : NextCanonical (execGalignBreak m s) := by
  grind [execGalignBreak, coreEvent_canonical, State.unarrive_canonical, State.breakAt_canonical, foldl_canonical, SomeCanonical]

/-! ## Results that are due -/

theorem execResultDue_canonical (c : Nat) (s : State) (hs : s.Canonical) : NextCanonical (execResultDue c s) := by
  grind [execResultDue, State.modCore_canonical, coreEvent_canonical, SomeCanonical]

theorem execWaitingGroupIssue_canonical (c : Nat) (sq : Seq) (s : State) (hs : s.Canonical) : NextCanonical (execWaitingGroupIssue c sq s) := by
  grind [execWaitingGroupIssue, State.modSeq_canonical, coreEvent_canonical, SomeCanonical]

/-! ## Global accesses of K -/

theorem State.kAccess_canonical (s : State) (kind : Nat) (va : Word) (n : Nat) (k : State → List KPiece → Act) (hs : s.Canonical)
    (hk : ∀ t ps, t.Canonical → (k t ps).Canonical) : (s.kAccess kind va n k).Canonical := by
  have htr := s.kTranslate_canonical s.cur.core kind 0 ((lineParts va n).map (fun p => p.1)) hs
  unfold State.kAccess
  dsimp only
  split
  · next h => rw [h] at htr; exact htr
  · trivial
  · next h => rw [h] at htr; exact hk _ _ htr

theorem State.l2Load_canonical (s : State) (c line : Nat) (hs : s.Canonical) : (s.l2Load c line).Canonical := hs

theorem State.lineRead_canonical (s : State) (c id m line off : Nat) (hs : s.Canonical) : (s.lineRead c id m line off).2.Canonical := by
  grind [State.lineRead, State.modMs_canonical, State.domainSend_canonical]

theorem State.readPieces_canonical (s : State) (c id off : Nat) (ps : List KPiece) (hs : s.Canonical) :
    (s.readPieces c id off ps).2.2.2.Canonical := by
  induction ps generalizing s off with
  | nil => exact hs
  | cons p r ih =>
    refine ih _ _ ?_
    grind [State.l2Load_canonical, State.lineRead_canonical]

theorem State.pushAcc_canonical (s : State) (c : Nat) (g : GAcc) (hs : s.Canonical) : (s.pushAcc c g).Canonical := hs

theorem actLdGlobal_canonical (f : MemF) (s : State) (hs : s.Canonical) : (actLdGlobal f s).Canonical := by
  grind [actLdGlobal, State.modCore_canonical, State.later_canonical, memTrap_canonical, State.linkMet_canonical, State.kAccess_canonical,
    State.readPieces_canonical, State.pushAcc_canonical, foldl_canonical, State.Canonical, Act.Canonical]

theorem State.storePieces_canonical (s : State) (c origin : Nat) (ps : List KPiece) (bs : List Byte) (hs : s.Canonical) :
    (s.storePieces c origin ps bs).Canonical := by
  induction ps generalizing s bs with
  | nil => exact hs
  | cons p r ih => exact ih _ _ (s.storeBytes_canonical c p.pa p.va origin (bs.take p.n) hs)

theorem actStGlobal_canonical (f : MemF) (s : State) (hs : s.Canonical) : (actStGlobal f s).Canonical := by
  grind [actStGlobal, State.later_canonical, memTrap_canonical, State.kAccess_canonical, State.pushAcc_canonical,
    State.storePieces_canonical, State.Canonical, Act.Canonical]

theorem State.modAcc_canonical (s : State) (c id : Nat) (f : GAcc → GAcc) (hs : s.Canonical) : (s.modAcc c id f).Canonical := hs

theorem State.sendAtomic_canonical (s : State) (c m off : Nat) (g : GAcc) (aop u : Nat) (v cv : Word) (hs : s.Canonical) :
    (s.sendAtomic c m off g aop u v cv).Canonical := hs

theorem State.drainAtomics_canonical (s : State) (c n : Nat) (hs : s.Canonical) : (s.drainAtomics c n).Canonical := by
  induction n generalizing s with
  | zero => exact hs
  | succ n ih =>
    unfold State.drainAtomics
    split
    · exact hs
    · split
      · exact hs
      · grind [State.Canonical, State.modAcc_canonical, State.linkMet_canonical, State.publishHits_canonical,
          State.atomicPerform_canonical, State.sendAtomic_canonical]

theorem actAtomicAt_canonical (va : Word) (nb aop u : Nat) (sx : BitVec 1) (v cv : Word) (dst : Option (Bool × Nat)) (scope : Nat)
    (rel0 acq0 : Option Nat) (s : State) (hs : s.Canonical) : (actAtomicAt va nb aop u sx v cv dst scope rel0 acq0 s).Canonical := by
  grind [actAtomicAt, State.modCore_canonical, State.modIm_canonical, State.modMs_canonical, State.later_canonical, memTrap_canonical,
    State.release_canonical, State.kAccess_canonical, State.pushAcc_canonical, State.drainAtomics_canonical, State.Canonical, Act.Canonical]

theorem actAtomic_canonical (aop : Nat) (f : MemF) (s : State) (hs : s.Canonical) : (actAtomic aop f s).Canonical := by
  grind [actAtomic, actAtomicAt_canonical]

theorem State.deliverAcc_canonical (s : State) (c : Nat) (g : GAcc) (v : Word) (hs : s.Canonical) : (s.deliverAcc c g v).Canonical := by
  grind [State.deliverAcc, State.modIm_canonical, State.pushFlight_canonical]

theorem State.dropAcc_canonical (s : State) (c id : Nat) (hs : s.Canonical) : (s.dropAcc c id).Canonical := hs

theorem State.letGo_canonical (s : State) (c : Nat) (hs : s.Canonical) : (s.letGo c).Canonical := hs

theorem State.afterAtomic_canonical (s : State) (c id : Nat) (hs : s.Canonical) : (s.afterAtomic c id).Canonical := by
  grind [State.afterAtomic, State.modMs_canonical, State.later_canonical, State.acquire_canonical, State.letGo_canonical]

theorem State.readLate_canonical (s : State) (c : Nat) (g : GAcc) (hs : s.Canonical) : (s.readLate c g).Canonical := hs

theorem State.readTable_canonical (s : State) (c : Nat) (hs : s.Canonical) : SomeCanonical (s.readTable c) := by
  grind [State.readTable, State.modMs_canonical, State.readLate_canonical, SomeCanonical]

theorem execGlobalAccessResponse_canonical (c : Nat) (s : State) (hs : s.Canonical) : NextCanonical (execGlobalAccessResponse c s) := by
  grind [execGlobalAccessResponse, coreEvent_canonical, State.deliverAcc_canonical, State.dropAcc_canonical, State.readLate_canonical,
    State.readTable_canonical, SomeCanonical]

theorem State.resumeAtomics_canonical (s : State) (c : Nat) (hs : s.Canonical) : SomeCanonical (s.resumeAtomics c) := by
  grind [State.resumeAtomics, State.drainAtomics_canonical, SomeCanonical]

theorem execAtomicResponse_canonical (c : Nat) (s : State) (hs : s.Canonical) : NextCanonical (execAtomicResponse c s) := by
  grind [execAtomicResponse, coreEvent_canonical, State.deliverAcc_canonical, State.dropAcc_canonical, State.afterAtomic_canonical,
    State.resumeAtomics_canonical, SomeCanonical]

theorem State.respError_canonical (s : State) (c : Nat) (g : GAcc) (cause : Nat) (hs : s.Canonical) : (s.respError c g cause).Canonical := by
  grind [State.respError, State.setPending_canonical, State.accessError_canonical]

theorem execErrorResponse_canonical (c : Nat) (s : State) (hs : s.Canonical) : NextCanonical (execErrorResponse c s) := by
  grind [execErrorResponse, coreEvent_canonical, State.deliverAcc_canonical, State.dropAcc_canonical, State.afterAtomic_canonical,
    State.respError_canonical, SomeCanonical]

theorem execDomainAtomicRateRelease_canonical (m : Nat) (s : State) (hs : s.Canonical) : NextCanonical (execDomainAtomicRateRelease m s) := by
  grind [execDomainAtomicRateRelease, event_canonical, State.drainAtomics_canonical, State.Canonical, SomeCanonical]

end Sys2Proof.Machine
end


-- ==== Sys2Proof/Proofs/CanonicalCores.lean ====
section
/-! PROOFS. What a core does beside issuing keeps memory canonical: boundaries, semaphores, vectors, slabs, tables, faults, planes and copies. -/
namespace Sys2Proof.Machine

/-! ## Boundaries, semaphores and invalidations -/

theorem actBoundary_canonical (rel acq : Option Nat) (s : State) (hs : s.Canonical) : (actBoundary rel acq s).Canonical := by
  unfold actBoundary
  split
  · exact hs
  · cases rel <;> cases acq <;> grind [Act.Canonical, State.release_canonical, State.later_canonical, State.acquire_canonical, State.modMs_canonical]

theorem State.pollTranslate_canonical (s : State) (c : Nat) (va : Word) (pa0 : Nat) (hs : s.Canonical) :
    (s.pollTranslate c va pa0).2.Canonical := by
  grind [State.pollTranslate, State.modMs_canonical]

theorem State.boundaryDone_canonical (s : State) (c : Nat) (hs : s.Canonical) : SomeCanonical (s.boundaryDone c) := by
  grind [State.boundaryDone, State.modMs_canonical, State.accessError_canonical, State.acquire_canonical, State.readParts_canonical,
    State.forget_canonical, State.letGo_canonical, State.pollTranslate_canonical, SomeCanonical, ERead.Canonical]

theorem State.semAddDone_canonical (s : State) (c : Nat) (hs : s.Canonical) : SomeCanonical (s.semAddDone c) := by
  grind [State.semAddDone, State.modIm_canonical, State.modMs_canonical, State.drainAtomics_canonical, SomeCanonical]

theorem State.releaseOlder_canonical (s : State) (c scope ser : Nat) (hs : s.Canonical) : (s.releaseOlder c scope ser).Canonical := by
  grind [State.releaseOlder, State.modMs_canonical, State.publishAll_canonical, State.widen_canonical]

theorem State.releaseDone_canonical (s : State) (c : Nat) (hs : s.Canonical) : SomeCanonical (s.releaseDone c) := by
  grind [State.releaseDone, State.modMs_canonical, State.drainAtomics_canonical, State.releaseOlder_canonical, SomeCanonical]

theorem State.releaseNext_canonical (s : State) (c scope : Nat) (hs : s.Canonical) : (s.releaseNext c scope).Canonical := by
  grind [State.releaseNext, State.modMs_canonical, State.release_canonical, State.Canonical]

theorem execBoundaryComplete_canonical (c : Nat) (s : State) (hs : s.Canonical) : NextCanonical (execBoundaryComplete c s) := by
  grind [execBoundaryComplete, coreEvent_canonical, State.boundaryDone_canonical, State.semAddDone_canonical, State.releaseDone_canonical]

theorem execEfence_canonical (_f : MgtF) (s : State) (hs : s.Canonical) : NextCanonical (execEfence _f s) := by
  grind [execEfence, issue_canonical, Act.Canonical]

theorem State.semAcquire_canonical (s : State) (sc : Nat) (hs : s.Canonical) : (s.semAcquire sc).Canonical := by
  grind [State.semAcquire, State.modMs_canonical, State.later_canonical]

theorem State.semTake_canonical (s : State) (k n : Nat) (hs : s.Canonical) : (s.semTake k n).Canonical := hs

theorem actSacq_canonical (f : MgtF) (s : State) (hs : s.Canonical) : (actSacq f s).Canonical := by
  grind [actSacq, State.semAcquire_canonical, State.semTake_canonical, Act.Canonical]

theorem actSacqTry_canonical (f : MgtF) (s : State) (hs : s.Canonical) : (actSacqTry f s).Canonical := by
  grind [actSacqTry, State.wrPred_canonical, State.semAcquire_canonical, State.semTake_canonical, Act.Canonical]

theorem State.homeRead_canonical (s : State) (va : Word) (pa scope : Nat) (hs : s.Canonical) : (s.homeRead va pa scope).Canonical := by
  grind [State.homeRead, State.modMs_canonical, State.domainSend_canonical, State.pushAcc_canonical, State.dropAcc_canonical,
    State.Canonical, HomeRead.Canonical]

theorem State.readError_canonical (s : State) (va : Word) (pa cause kind : Nat) (hs : s.Canonical) : (s.readError va pa cause kind).Canonical := by
  grind [State.readError, State.modMs_canonical, State.logError_canonical, State.linkMet_canonical, Act.Canonical]

theorem actSacqM_canonical (f : MgtF) (s : State) (hs : s.Canonical) : (actSacqM f s).Canonical := by
  grind [actSacqM, State.opTrap_canonical, memTrap_canonical, State.acquire_canonical, State.kAccess_canonical, State.semAcquire_canonical,
    State.homeRead_canonical, State.readError_canonical, Act.Canonical, HomeRead.Canonical]

theorem actSrel_canonical (f : MgtF) (s : State) (hs : s.Canonical) : (actSrel f s).Canonical := by
  grind [actSrel, State.modMs_canonical, State.later_canonical, State.releaseNext_canonical, Act.Canonical]

theorem execSrelM_canonical (f : MgtF) (s : State) (hs : s.Canonical) : NextCanonical (execSrelM f s) := by
  grind [execSrelM, State.opTrap_canonical, issue_canonical, actAtomicAt_canonical]

theorem State.invalidate_canonical (s : State) (ctx : Nat) (va : Option Word) (hs : s.Canonical) : (s.invalidate ctx va).Canonical := hs

theorem actTlbinv_canonical (va : Option Word) (s : State) (hs : s.Canonical) : (actTlbinv va s).Canonical := by
  grind [actTlbinv, State.modMs_canonical, State.later_canonical, State.invalidate_canonical, Act.Canonical]

theorem execTlbinv_canonical (f : MgtF) (s : State) (hs : s.Canonical) : NextCanonical (execTlbinv f s) := by
  grind [execTlbinv, issue_canonical, actTlbinv_canonical]

theorem execTlbinvComplete_canonical (c : Nat) (s : State) (hs : s.Canonical) : NextCanonical (execTlbinvComplete c s) := by
  grind [execTlbinvComplete, State.modMs_canonical, coreEvent_canonical, SomeCanonical]

theorem execTlbsync_canonical (_f : MgtF) (s : State) (hs : s.Canonical) : NextCanonical (execTlbsync _f s) := by
  grind [execTlbsync, issue_canonical, Act.Canonical]

theorem State.modUnit_canonical (s : State) (id u : Nat) (f : LUnit → LUnit) (hs : s.Canonical) : (s.modUnit id u f).Canonical := hs

theorem actLtrig_canonical (s : State) (hs : s.Canonical) : (actLtrig s).Canonical := by
  grind [actLtrig, State.later_canonical, State.releaseNext_canonical, State.modUnit_canonical, Act.Canonical]

/-! ## Vector rows, generators and ports -/

theorem State.raiseTF_canonical (s : State) (ys : List Bool) (hs : s.Canonical) : (s.raiseTF ys).Canonical := by
  grind [State.raiseTF, State.modVec_canonical]

theorem State.vecResult_canonical (s : State) (lat d : Nat) (y : Bool) (r : VRes) (hs : s.Canonical) : (s.vecResult lat d y r).Canonical := hs

theorem actVec_canonical (f : VecF) (lat : Nat) (srcs : List (Nat × Nat)) (g : List Vec → VRes × List Bool) (p : Option (List Bool → Bool))
    (s : State) (hs : s.Canonical) : (actVec f lat srcs g p s).Canonical := by
  grind [actVec, State.modVec_canonical, State.wrPred_canonical, flawTrap_canonical, State.raiseTF_canonical, State.vecResult_canonical,
    foldl_canonical, Act.Canonical]

theorem execVec_canonical (f : VecF) (lat : Nat) (srcs : List (Nat × Nat)) (g : List Vec → VRes × List Bool) (p : Option (List Bool → Bool))
    (s : State) (hs : s.Canonical) : NextCanonical (execVec f lat srcs g p s) := by
  grind [execVec, State.opTrap_canonical, fencedTrap_canonical, issue_canonical, actVec_canonical]

theorem exec1_canonical (f : VecF) (lat w : Nat) (g : Vec → VRes) (s : State) (hs : s.Canonical) : NextCanonical (exec1 f lat w g s) := by
  grind [exec1, execVec_canonical]

theorem exec2_canonical (f : VecF) (lat w : Nat) (g : Vec → Vec → VRes) (s : State) (hs : s.Canonical) : NextCanonical (exec2 f lat w g s) := by
  grind [exec2, execVec_canonical]

theorem exec3_canonical (f : VecF) (lat w : Nat) (g : Vec → Vec → Vec → VRes) (s : State) (hs : s.Canonical) :
    NextCanonical (exec3 f lat w g s) := by
  grind [exec3, execVec_canonical]

theorem execVcvt_canonical (f : VecF) (s : State) (hs : s.Canonical) : NextCanonical (execVcvt f s) := by
  grind [execVcvt, exec1_canonical, exec2_canonical]

theorem execVxm_canonical (f : VecF) (s : State) (hs : s.Canonical) : NextCanonical (execVxm f s) := by
  grind [execVxm, State.opTrap_canonical, fencedTrap_canonical, flawTrap_canonical, issue_canonical, State.raiseTF_canonical,
    State.vecResult_canonical, Act.Canonical]

theorem actAgset_canonical (f : AgnF) (s : State) (hs : s.Canonical) : (actAgset f s).Canonical := by
  grind [actAgset, State.result_canonical, State.opTrap_canonical, Act.Canonical]

theorem actVld_canonical (ub : Bool) (f : MovF) (s : State) (hs : s.Canonical) : (actVld ub f s).Canonical := by
  grind [actVld, State.modVec_canonical, State.opTrap_canonical, memTrap_canonical, Act.Canonical]

theorem actVst_canonical (f : StoF) (s : State) (hs : s.Canonical) : (actVst f s).Canonical := by
  grind [actVst, State.modVec_canonical, State.opTrap_canonical, memTrap_canonical, flawTrap_canonical, Act.Canonical]

/-! ## Slabs and the stash window -/

theorem actLdLocal_canonical (f : MemF) (s : State) (hs : s.Canonical) : (actLdLocal f s).Canonical := by
  grind [actLdLocal, memTrap_canonical, State.wr_canonical, Act.Canonical]

theorem actStLocal_canonical (f : MemF) (s : State) (hs : s.Canonical) : (actStLocal f s).Canonical := by
  grind [actStLocal, memTrap_canonical, State.posts_canonical, Act.Canonical]

theorem runFault_canonical (base n : Nat) : SomeCanonicalAct (runFault base n) := by
  grind [runFault, memTrap_canonical, SomeCanonicalAct]

theorem startTrap_canonical : startTrap.Canonical := trivial

theorem actSalloc_canonical (z : Bool) (f : MovF) (s : State) (hs : s.Canonical) : (actSalloc z f s).Canonical := by
  grind [actSalloc, State.modUnits_canonical, State.result_canonical, memTrap_canonical, State.wr_canonical, runFault_canonical,
    startTrap_canonical, Act.Canonical, SomeCanonicalAct]

theorem actSfree_canonical (f : MovF) (s : State) (hs : s.Canonical) : (actSfree f s).Canonical := by
  grind [actSfree, State.result_canonical, State.opTrap_canonical, memTrap_canonical, runFault_canonical, Act.Canonical, SomeCanonicalAct]

theorem actRenew_canonical (f : MovF) (s : State) (hs : s.Canonical) : (actRenew f s).Canonical := by
  grind [actRenew, State.modUnits_canonical, State.result_canonical, State.opTrap_canonical, memTrap_canonical, runFault_canonical,
    startTrap_canonical, Act.Canonical, SomeCanonicalAct]

theorem State.signalSem_canonical (s : State) (c ctx k : Nat) (hs : s.Canonical) : (s.signalSem c ctx k).Canonical := by
  grind [State.signalSem, State.modIm_canonical, State.Canonical]

theorem State.commandFault_canonical (s : State) (c : Nat) (e : EngCmd) (engine uidx cause : Nat) (addr : Nat) (st : Half) (hs : s.Canonical) :
    (s.commandFault c e engine uidx cause addr st).Canonical := by
  grind [State.commandFault, State.unitFault_canonical]

theorem State.lateFault_canonical (s : State) (c : Nat) (e : EngCmd) (engine uidx : Nat) (hs : s.Canonical) :
    (s.lateFault c e engine uidx).Canonical := by
  grind [State.lateFault, State.commandFault_canonical]

theorem State.renewStep_canonical (s : State) (c : Nat) (hs : s.Canonical) : SomeCanonical (s.renewStep c) := by
  grind [State.renewStep, State.modUnits_canonical, State.posts_canonical, State.commandFault_canonical, State.lateFault_canonical,
    SomeCanonical]

theorem execRenewUnitCommand_canonical (c : Nat) (s : State) (hs : s.Canonical) : NextCanonical (execRenewUnitCommand c s) := by
  grind [execRenewUnitCommand, coreEvent_canonical, State.renewStep_canonical]

theorem execRenewUnitComplete_canonical (c : Nat) (s : State) (hs : s.Canonical) : NextCanonical (execRenewUnitComplete c s) := by
  grind [execRenewUnitComplete, State.modUnits_canonical, coreEvent_canonical, State.signalSem_canonical, SomeCanonical]

theorem actStash_canonical (f : MovF) (s : State) (hs : s.Canonical) : (actStash f s).Canonical := by
  grind [actStash, State.result_canonical, State.opTrap_canonical, memTrap_canonical, runFault_canonical, Act.Canonical, SomeCanonicalAct]

theorem actStashClose_canonical (f : MovF) (s : State) (hs : s.Canonical) : (actStashClose f s).Canonical := by
  grind [actStashClose, State.modCore_canonical, State.later_canonical, State.result_canonical, Act.Canonical]

theorem execStashCloseComplete_canonical (c : Nat) (s : State) (hs : s.Canonical) : NextCanonical (execStashCloseComplete c s) := by
  refine coreEvent_canonical _ c _ ?_
  cases firstSome (fun st => st.closed s.cyc) (s.core c).allWindows with
  | none => trivial
  | some x => exact State.signalSem_canonical _ c _ _ hs

theorem execStashMissFill_canonical (c : Nat) (s : State) (hs : s.Canonical) : NextCanonical (execStashMissFill c s) :=
  coreEvent_canonical _ c _ (SomeCanonical.map (fun _ => s.modCore_canonical c _ hs) _)

theorem execStashEntryExpire_canonical (c k : Nat) (s : State) (hs : s.Canonical) : NextCanonical (execStashEntryExpire c k s) := by
  grind [execStashEntryExpire, State.modCore_canonical, coreEvent_canonical, SomeCanonical]

theorem State.rewriteSlab_canonical (s : State) (c n : Nat) (hs : s.Canonical) : (s.rewriteSlab c n).Canonical := hs

theorem execSweepRingRenew_canonical (c n : Nat) (s : State) (hs : s.Canonical) : NextCanonical (execSweepRingRenew c n s) := by
  grind [execSweepRingRenew, coreEvent_canonical, State.rewriteSlab_canonical, SomeCanonical]

theorem execSweepStashWriteback_canonical (c k : Nat) (s : State) (hs : s.Canonical) : NextCanonical (execSweepStashWriteback c k s) := by
  grind [execSweepStashWriteback, State.modCore_canonical, coreEvent_canonical, SomeCanonical]

theorem execSweepFrozenSlabRenew_canonical (c n : Nat) (s : State) (hs : s.Canonical) : NextCanonical (execSweepFrozenSlabRenew c n s) := by
  grind [execSweepFrozenSlabRenew, coreEvent_canonical, State.rewriteSlab_canonical, SomeCanonical]

theorem execSweepMarkLost_canonical (c n : Nat) (s : State) (hs : s.Canonical) : NextCanonical (execSweepMarkLost c n s) := by
  grind [execSweepMarkLost, State.modCore_canonical, coreEvent_canonical, SomeCanonical]

/-! ## Templates and macros -/

theorem State.readRun_canonical (s : State) (va : Word) (n : Nat) (ps : List KPiece) (hs : s.Canonical) : (s.readRun va n ps).Canonical := by
  grind [State.readRun, State.modMs_canonical, State.readPieces_canonical, State.pushAcc_canonical, State.dropAcc_canonical,
    State.Canonical, TRead.Canonical]

theorem State.tableRead_canonical (s : State) (va : Word) (n : Nat) (hs : s.Canonical) : (s.tableRead va n).Canonical := by
  grind [State.tableRead, State.modMs_canonical, State.kTranslate_canonical, State.readRun_canonical, TRead.Canonical, KTr.Canonical]

theorem State.refusedRead_canonical (s : State) (cause pa : Nat) (va : Word) (hs : s.Canonical) : (s.refusedRead cause pa va).Canonical := by
  grind [State.refusedRead, State.setPending_canonical, State.logError_canonical, State.linkMet_canonical]

theorem Act.pinned_canonical (i : Instr) (a : Word) (x : Act) (hx : x.Canonical) : (Act.pinned i a x).Canonical := by
  cases x <;> exact hx

theorem execTset_canonical (f : MgtF) (s : State) (hs : s.Canonical) : NextCanonical (execTset f s) := by
  grind [execTset, State.result_canonical, issue_canonical, Act.Canonical]

theorem State.startLoad_canonical (s : State) (q : Seq) (slot : Nat) (ts : List Template) (at_ : Nat) (hs : s.Canonical) :
    (s.startLoad q slot ts at_).Canonical := hs

theorem actTld_canonical (f : MgtF) (s : State) (hs : s.Canonical) : (actTld f s).Canonical := by
  grind [actTld, State.later_canonical, State.opTrap_canonical, memTrap_canonical, State.tableRead_canonical, State.refusedRead_canonical,
    Act.pinned_canonical, State.startLoad_canonical, State.Canonical, Act.Canonical, TRead.Canonical]

theorem State.writeSlot_canonical (s : State) (c : Nat) (q : Seq) (n : Nat) (t : Template) (hs : s.Canonical) :
    (s.writeSlot c q n t).Canonical := hs

theorem execTldSlotWrite_canonical (c : Nat) (s : State) (hs : s.Canonical) : NextCanonical (execTldSlotWrite c s) := by
  grind [execTldSlotWrite, State.modMs_canonical, coreEvent_canonical, State.letGo_canonical, State.writeSlot_canonical, State.Canonical,
    SomeCanonical]

theorem State.readBody_canonical (loc : Bool) (a : Word) (k : Nat) (es : List Word) (s : State) (hs : s.Canonical) :
    (State.readBody loc a k es s).Canonical := by
  induction k generalizing es s with
  | zero => exact hs
  | succ k ih =>
    have htable := s.tableRead_canonical (a + BitVec.ofNat 64 (8 * es.length)) 8 hs
    grind [State.readBody, BRead.Canonical, TRead.Canonical, State.refusedRead_canonical]

theorem actMdef_canonical (f : MgtF) (s : State) (hs : s.Canonical) : (actMdef f s).Canonical := by
  grind [actMdef, State.modMs_canonical, State.later_canonical, State.opTrap_canonical, memTrap_canonical, Act.pinned_canonical,
    State.readBody_canonical, State.Canonical, Act.Canonical, BRead.Canonical]

theorem State.issueHeld_canonical (s : State) (c : Nat) (act : State → State) (hs : s.Canonical) (hact : ∀ t, t.Canonical → (act t).Canonical) :
    (s.issueHeld c act).Canonical := by
  grind [State.issueHeld, State.modMs_canonical, State.withCur_canonical, State.retire_canonical]

theorem execMdefBodyCheck_canonical (c : Nat) (s : State) (hs : s.Canonical) : NextCanonical (execMdefBodyCheck c s) := by
  grind [execMdefBodyCheck, State.modMs_canonical, State.modSeq_canonical, State.takeTrap_canonical, coreEvent_canonical,
    State.issueHeld_canonical, SomeCanonical]

theorem execMacroCall_canonical (m i : BitVec 5) (p0 p1 p2 p3 : BitVec 16) (s : State) (hs : s.Canonical) :
    NextCanonical (execMacroCall m i p0 p1 p2 p3 s) := by
  grind [execMacroCall, State.modSeq_canonical, finish_canonical, NextCanonical, Act.Canonical]

/-! ## Faults and refusals -/

theorem State.walkNow_canonical (s : State) (c : Nat) (va : Word) (kind part interval : Nat) (hs : s.Canonical) :
    (s.walkNow c va kind part interval).Canonical := by
  grind [State.walkNow, State.modMs_canonical, State.accessError_canonical, State.faultCore_canonical]

theorem execPageWalkComplete_canonical (c : Nat) (s : State) (hs : s.Canonical) : NextCanonical (execPageWalkComplete c s) := by
  grind [execPageWalkComplete, coreEvent_canonical, State.walkOver_canonical, State.walkNow_canonical, SomeCanonical]

theorem execFaultRefusalRetry_canonical (c : Nat) (s : State) (hs : s.Canonical) : NextCanonical (execFaultRefusalRetry c s) := by
  grind [execFaultRefusalRetry, coreEvent_canonical, State.walkNow_canonical, SomeCanonical]

theorem execPrefetchWalk_canonical (c ch : Nat) (s : State) (hs : s.Canonical) : NextCanonical (execPrefetchWalk c ch s) := by
  grind [execPrefetchWalk, coreEvent_canonical, State.walkOver_canonical, State.Canonical, SomeCanonical]

theorem execGroupFreeze_canonical (i : Nat) (s : State) (hs : s.Canonical) : NextCanonical (execGroupFreeze i s) := by
  grind [execGroupFreeze, State.modStops_canonical, event_canonical, foldl_canonical, SomeCanonical]

theorem State.settleK_canonical (s : State) (c d i : Nat) (r : FaultRec) (hs : s.Canonical) : (s.settleK c d i r).Canonical := by
  grind [State.settleK, State.modMs_canonical, State.modSeq_canonical, State.takeTrap_canonical]

theorem State.settleRecord_canonical (s : State) (d i : Nat) (hs : s.Canonical) : (s.settleRecord d i).Canonical := by
  grind [State.settleRecord, State.modDie_canonical, State.settleK_canonical, foldl_canonical, State.Canonical]

theorem execGroupThaw_canonical (i : Nat) (s : State) (hs : s.Canonical) : NextCanonical (execGroupThaw i s) := by
  grind [execGroupThaw, State.modStops_canonical, event_canonical, State.settleRecord_canonical, foldl_canonical, State.Canonical,
    SomeCanonical]

theorem State.resolveRecord_canonical (s : State) (d i v : Nat) (hs : s.Canonical) : (s.resolveRecord d i v).Canonical := by
  grind [State.resolveRecord, State.modDie_canonical, State.settleRecord_canonical, State.Canonical]

theorem execFaultRetryWrite_canonical (d i : Nat) (s : State) (hs : s.Canonical) : NextCanonical (execFaultRetryWrite d i s) := by
  grind [execFaultRetryWrite, State.resolveRecord_canonical, NextCanonical]

theorem execFaultDeliverWrite_canonical (d i : Nat) (s : State) (hs : s.Canonical) : NextCanonical (execFaultDeliverWrite d i s) := by
  grind [execFaultDeliverWrite, State.resolveRecord_canonical, NextCanonical]

theorem State.movePage_canonical (s : State) (old new n : Nat) (hs : s.Canonical) : (s.movePage old new n).Canonical :=
  foldl_mput_if_wf _ _ _ _ _ (filter_wf _ s.mem hs)

theorem State.remap_canonical (s : State) (newPa : Nat) (l : List (Nat × Nat)) (hs : s.Canonical) : (s.remap newPa l).Canonical := by
  induction l generalizing s with
  | nil => exact hs
  | cons p r ih => exact ih _ (s.homeWrite_canonical _ _ hs)

theorem execPageMigration_canonical (ctx : Nat) (va newPa : Word) (s : State) (hs : s.Canonical) :
    NextCanonical (execPageMigration ctx va newPa s) := by
  grind [execPageMigration, event_canonical, State.manage_canonical, State.invalidate_canonical, State.movePage_canonical,
    State.remap_canonical, SomeCanonical]

/-! ## The plane unit -/

theorem actPlane_canonical (f : MovF) (s : State) (hs : s.Canonical) : (actPlane f s).Canonical := by
  grind [actPlane, State.modUnits_canonical, State.result_canonical, State.opTrap_canonical, memTrap_canonical, startTrap_canonical,
    Act.Canonical]

theorem State.planeStep_canonical (s : State) (c : Nat) (hs : s.Canonical) : SomeCanonical (s.planeStep c) := by
  unfold State.planeStep
  dsimp only
  split
  · exact State.lateFault_canonical _ _ _ _ _ hs
  · split
    · trivial
    · grind [SomeCanonical, State.modUnits_canonical, State.posts_canonical, State.commandFault_canonical]

theorem execPlaneCommand_canonical (c : Nat) (s : State) (hs : s.Canonical) : NextCanonical (execPlaneCommand c s) := by
  grind [execPlaneCommand, coreEvent_canonical, State.planeStep_canonical]

theorem execPlaneComplete_canonical (c : Nat) (s : State) (hs : s.Canonical) : NextCanonical (execPlaneComplete c s) := by
  grind [execPlaneComplete, State.modUnits_canonical, coreEvent_canonical, State.signalSem_canonical, SomeCanonical]

/-! ## The copy channels -/

theorem actCpy_canonical (var : Nat) (f : MovF) (s : State) (hs : s.Canonical) : (actCpy var f s).Canonical := by
  grind [actCpy, State.modUnits_canonical, State.opTrap_canonical, startTrap_canonical, Act.Canonical]

theorem State.setChan_canonical (s : State) (c ch : Nat) (l : List EngCmd) (hs : s.Canonical) : (s.setChan c ch l).Canonical := hs

theorem State.copyFault_canonical (s : State) (c ch : Nat) (e : EngCmd) (r : List EngCmd) (cause addr : Nat) (st : Half) (hs : s.Canonical) :
    (s.copyFault c ch e r cause addr st).Canonical := by
  grind [State.copyFault, State.forget_canonical, State.commandFault_canonical, State.setChan_canonical]

theorem State.engineError_canonical (s : State) (c pa : Nat) (va : Word) (ctx cause engine : Nat) (hs : s.Canonical) :
    (s.engineError c pa va ctx cause engine).Canonical := by
  grind [State.engineError, State.logError_canonical, State.linkMet_canonical]

theorem State.deliveredAway_canonical (s : State) (c ctx ch n : Nat) (hs : s.Canonical) : (s.deliveredAway c ctx ch n).Canonical := by
  grind [State.deliveredAway, State.Canonical]

theorem State.copyNext_canonical (s : State) (c ch : Nat) (e : EngCmd) (r : List EngCmd) (t : Tensor) (x : Run) (ps : List Post) (written : Map Nat)
    (hs : s.Canonical) : (s.copyNext c ch e r t x ps written).Canonical := by
  grind [State.copyNext, State.later_canonical, State.posts_canonical, State.forget_canonical, State.setChan_canonical,
    State.deliveredAway_canonical]

theorem State.copyPut_canonical (s : State) (c ch : Nat) (e : EngCmd) (r : List EngCmd) (t : Tensor) (x : Run) (bs : List Byte) (hs : s.Canonical) :
    (s.copyPut c ch e r t x bs).Canonical := by
  grind [State.copyPut, State.engineAccess_canonical, State.writeParts_canonical, State.setChan_canonical, State.copyFault_canonical,
    State.engineError_canonical, State.copyNext_canonical, Tr.Canonical]

theorem State.copyRun_canonical (s : State) (c ch : Nat) (e : EngCmd) (r : List EngCmd) (t : Tensor) (hs : s.Canonical) :
    (s.copyRun c ch e r t).Canonical := by
  grind [State.copyRun, State.engineAccess_canonical, State.readParts_canonical, State.setChan_canonical, State.copyFault_canonical,
    State.engineError_canonical, State.copyPut_canonical, Tr.Canonical, ERead.Canonical]

theorem State.copyBegin_canonical (s : State) (c ch : Nat) (e : EngCmd) (r : List EngCmd) (hs : s.Canonical) :
    (s.copyBegin c ch e r).Canonical := by
  grind [State.copyBegin, State.later_canonical, State.setChan_canonical, State.copyFault_canonical]

theorem State.copyStep_canonical (s : State) (c ch : Nat) (hs : s.Canonical) : SomeCanonical (s.copyStep c ch) := by
  unfold State.copyStep
  dsimp only
  split
  · exact State.lateFault_canonical _ _ _ _ _ (s.setChan_canonical c ch _ hs)
  · split
    · trivial
    · grind [SomeCanonical, State.copyBegin_canonical, State.copyFault_canonical, State.engineError_canonical, State.copyNext_canonical,
        State.copyRun_canonical]

theorem execCopyCommand_canonical (c ch : Nat) (s : State) (hs : s.Canonical) : NextCanonical (execCopyCommand c ch s) := by
  grind [execCopyCommand, coreEvent_canonical, State.copyStep_canonical, SomeCanonical]

theorem execCopyComplete_canonical (c ch : Nat) (s : State) (hs : s.Canonical) : NextCanonical (execCopyComplete c ch s) := by
  grind [execCopyComplete, coreEvent_canonical, State.forget_canonical, State.signalSem_canonical, State.setChan_canonical, SomeCanonical]

end Sys2Proof.Machine
end


-- ==== Sys2Proof/Proofs/CanonicalQueues.lean ====
section
/-! PROOFS. Queues and their packets keep memory canonical. -/
namespace Sys2Proof.Machine

/-! ## Queues and packets -/

theorem State.place_canonical (s : State) (l : List (Nat × BitVec 512)) (k : State → Act) (hs : s.Canonical)
    (hk : ∀ t, t.Canonical → (k t).Canonical) : (s.place l k).Canonical := by
  rw [State.place]
  split
  · exact hs
  · exact hk _ (s.modUnits_canonical _ _ hs)

theorem actEng_canonical (kind sub : Nat) (card : Option Nat) (ep : Bool) (f : EngF) (s : State) (hs : s.Canonical) :
    (actEng kind sub card ep f s).Canonical := by
  grind [actEng, State.modIm_canonical, State.opTrap_canonical, State.releaseNext_canonical, State.place_canonical, Act.Canonical]

theorem actIxe_canonical (kind : Nat) (f : EngF) (s : State) (hs : s.Canonical) : (actIxe kind f s).Canonical := by
  grind [actIxe, actEng_canonical]

theorem execIxeDedup_canonical (f : EngF) (s : State) (hs : s.Canonical) : NextCanonical (execIxeDedup f s) := by
  grind [execIxeDedup, State.opTrap_canonical, issue_canonical, actIxe_canonical]

theorem actHrch_canonical (sub : Nat) (f : EngF) (s : State) (hs : s.Canonical) : (actHrch sub f s).Canonical := by
  grind [actHrch, State.opTrap_canonical, actEng_canonical]

theorem actQpush_canonical (f : StoF) (s : State) (hs : s.Canonical) : (actQpush f s).Canonical := by
  grind [actQpush, State.opTrap_canonical, memTrap_canonical, State.place_canonical, Act.Canonical]

theorem actQfence_canonical (w : Bool) (f : MgtF) (s : State) (hs : s.Canonical) : (actQfence w f s).Canonical := by
  grind [actQfence, State.modMs_canonical, State.opTrap_canonical, memTrap_canonical, State.kAccess_canonical, State.releaseNext_canonical,
    State.place_canonical, Act.Canonical]

theorem EngR.andThen_canonical {α β : Type} {x : EngR α} {f : α → State → EngR β} (hx : x.Canonical)
    (hf : ∀ a t, t.Canonical → (f a t).Canonical) : (x.andThen f).Canonical := by
  cases x with
  | ok a t => exact hf a t hx
  | stand w t => exact hx
  | wait t => exact hx
  | fail c k va t => exact hx

theorem EngR.at_canonical {α : Type} {x : EngR α} (i : Nat) (hx : x.Canonical) : (x.at i).Canonical := by
  unfold EngR.at
  split <;> exact hx

theorem engMap_canonical {α β : Type} {f : Nat → α → State → EngR β} (hf : ∀ i a t, t.Canonical → (f i a t).Canonical) (i : Nat) (l : List α)
    (s : State) (hs : s.Canonical) : (engMap f i l s).Canonical := by
  induction l generalizing i s with
  | nil => exact hs
  | cons a r ih => exact EngR.andThen_canonical (hf i a s hs) (fun b t ht => EngR.andThen_canonical (ih (i + 1) t ht) (fun _ _ hu => hu))

theorem State.reach_canonical (s : State) (g : Agent) (kind : Nat) (va : Word) (n : Nat) (hs : s.Canonical) : (s.reach g kind va n).Canonical :=
  hs.of_keeps (agentFrame_mem.reach s g kind va n)

theorem State.takeParts_canonical (s : State) (g : Agent) (va : Word) (ps : List (Nat × Nat)) (hs : s.Canonical) : (s.takeParts g va ps).Canonical :=
  hs.of_keeps (agentFrame_mem.takeParts s g va ps)

theorem State.gread_canonical (s : State) (g : Agent) (va : Word) (n : Nat) (hs : s.Canonical) : (s.gread g va n).Canonical :=
  hs.of_keeps (agentFrame_mem.gread s g va n)

theorem State.newRid_canonical (s : State) (port : Bool) (core : Nat) (hs : s.Canonical) : (s.newRid port core).2.Canonical := by
  grind [State.newRid, State.modIm_canonical, State.Canonical]

theorem State.askAtomic_canonical (s : State) (port : Bool) (core agent m aop size ctx off : Nat) (v cv : Word) (pa : Nat) (hs : s.Canonical) :
    (s.askAtomic port core agent m aop size ctx off v cv pa).Canonical := by
  grind [State.askAtomic, State.domainSend_canonical, State.newRid_canonical, State.Canonical]

theorem State.gatomic_canonical (s : State) (g : Agent) (aop : Nat) (va v : Word) (hs : s.Canonical) : (s.gatomic g aop va v).Canonical := by
  grind [State.gatomic, State.homeWrite_canonical, State.engineError_canonical, EngR.andThen_canonical, State.reach_canonical,
    State.askAtomic_canonical, EngR.Canonical]

theorem FWait.resume_canonical {α : Type} (w : FWait) (s : State) (k : EngR α) (hs : s.Canonical) (hk : k.Canonical) :
    SomeCanonicalR (w.resume s k) := by
  unfold FWait.resume
  split
  · exact hs
  · split
    · exact hk
    · trivial

theorem FWait.resume_lands (w : FWait) (s : State) (k : EngR State) (hs : s.Canonical) (hk : k.Lands) : SomeLands (w.resume s k) := by
  unfold FWait.resume
  split
  · exact hs
  · split
    · exact hk
    · trivial

theorem State.portTlb_canonical (s : State) (c : Nat) (hs : s.Canonical) : (s.portTlb c).Canonical := hs

theorem State.portTlbBack_canonical (s : State) (c : Nat) (hs : s.Canonical) : (s.portTlbBack c).Canonical := hs

theorem State.setPortHead_canonical (s : State) (c : Nat) (k : QPkt) (hs : s.Canonical) : (s.setPortHead c k).Canonical := hs

theorem State.popPort_canonical (s : State) (c : Nat) (hs : s.Canonical) : (s.popPort c).Canonical := hs

theorem State.dropPkt_canonical (s : State) (c : Nat) (k : QPkt) (cause : Nat) (va : Word) (hs : s.Canonical) :
    (s.dropPkt c k cause va).Canonical := by
  grind [State.dropPkt, State.setPending_canonical, State.popPort_canonical]

theorem State.placed1_canonical (s : State) (c : Nat) (k : QPkt) (i : Nat) (hs : s.Canonical) : (s.placed1 c k i).Canonical := hs

theorem State.portWork_lands (s : State) (c : Nat) (k : QPkt) (hs : s.Canonical) : (s.portWork c k).Lands := by
  unfold State.portWork
  dsimp only
  split
  · refine EngR.andThen_lands (EngR.andThen_canonical (s.gread_canonical _ _ _ hs) (fun _ t ht => t.gatomic_canonical _ _ _ _ ht)) (fun i t ht => ?_)
    exact State.setPortHead_canonical _ c _ (t.forget_canonical _ ht)
  · refine EngR.andThen_lands (s.gread_canonical _ _ _ hs) (fun bs t ht => ?_)
    split
    · exact State.setPortHead_canonical _ c _ (t.forget_canonical _ ht)
    · refine EngR.andThen_lands (t.reach_canonical _ _ _ _ ht) (fun ps u hu => ?_)
      grind [EngR.Lands, State.forget_canonical, State.writeParts_canonical, State.setPortHead_canonical, State.placed1_canonical]

theorem State.portStep_canonical (s : State) (c : Nat) (hs : s.Canonical) : SomeCanonical (s.portStep c) := by
  unfold State.portStep
  split
  · trivial
  · next k l hk =>
    have hwork := k.wait.resume_lands s _ hs ((s.portTlb c).portWork_lands c k (s.portTlb_canonical c hs))
    grind [SomeCanonical, SomeLands, EngR.Lands, State.engineError_canonical, State.dropPkt_canonical, State.placed1_canonical,
      State.portTlbBack_canonical, State.setPortHead_canonical]

theorem execQueuePortWrite_canonical (c : Nat) (s : State) (hs : s.Canonical) : NextCanonical (execQueuePortWrite c s) := by
  grind [execQueuePortWrite, coreEvent_canonical, State.portStep_canonical]

theorem State.setFront_canonical (s : State) (q : Nat) (f : Front) (hs : s.Canonical) : (s.setFront q f).Canonical := hs

theorem State.stopQueue_canonical (s : State) (q i cause : Nat) (st : Half) (addr : Word) (hs : s.Canonical) :
    (s.stopQueue q i cause st addr).Canonical := by
  grind [State.stopQueue, State.homeWrite_canonical, State.Canonical]

theorem State.managementRecord_canonical (s : State) (d core ctx cause engine uidx : Nat) (st : Half) (addr : Word) (cmd : Nat) (hs : s.Canonical) :
    (s.managementRecord d core ctx cause engine uidx st addr cmd).Canonical := hs

theorem State.unplace_canonical (s : State) (q i : Nat) (hs : s.Canonical) : (s.unplace q i).Canonical := by
  grind [State.unplace, State.Canonical]

theorem State.failPlaced_canonical (s : State) (q i : Nat) (hs : s.Canonical) : (s.failPlaced q i).Canonical := by
  grind [State.failPlaced, State.Canonical]

theorem State.reportPacket_canonical (s : State) (q i cause engine unit : Nat) (st : Half) (addr : Word) (hs : s.Canonical) :
    (s.reportPacket q i cause engine unit st addr).Canonical := by
  grind [State.reportPacket, State.setPending_canonical, State.managementRecord_canonical, State.failPlaced_canonical]

theorem State.advanceCp_canonical (s : State) (ctx cls : Nat) (hs : s.Canonical) : (s.advanceCp ctx cls).Canonical := by
  grind [State.advanceCp, State.homeWrite_canonical]

theorem State.signalHeader_canonical (s : State) (ctx : Nat) (p : BitVec 512) (hs : s.Canonical) : (s.signalHeader ctx p).Canonical := by
  grind [State.signalHeader, State.signalSem_canonical]

theorem State.signalWord_canonical (s : State) (g : Agent) (p : BitVec 512) (hs : s.Canonical) : (s.signalWord g p).Canonical := by
  grind [State.signalWord, State.forget_canonical, EngR.andThen_canonical, State.gatomic_canonical, EngR.Canonical]

theorem State.takePacket_canonical (s : State) (q i : Nat) (f : Front) (p : BitVec 512) (hs : s.Canonical) : (s.takePacket q i f p).Canonical := hs

theorem State.frontRenew_canonical (s : State) (q : Nat) (f : Front) (hs : s.Canonical) : SomeCanonical (s.frontRenew q f) := by
  grind [State.frontRenew, State.reach_canonical, FWait.resume_canonical, State.setFront_canonical, State.stopQueue_canonical,
    State.managementRecord_canonical, EngR.Canonical, SomeCanonical, SomeCanonicalR]

theorem State.frontTry_canonical (s : State) (q : Nat) (hs : s.Canonical) : SomeCanonical (s.frontTry q) := by
  grind [State.frontTry, State.modDie_canonical, State.forget_canonical, State.gread_canonical, FWait.resume_canonical,
    State.setFront_canonical, State.stopQueue_canonical, State.managementRecord_canonical, State.takePacket_canonical,
    State.frontRenew_canonical, EngR.Canonical, SomeCanonical, SomeCanonicalR]

theorem State.frontStep_canonical (s : State) (q : Nat) (hs : s.Canonical) : SomeCanonical (s.frontStep q) := by
  grind [State.frontStep, State.frontTry_canonical, SomeCanonical]

theorem execFrontEndTake_canonical (q : Nat) (s : State) (hs : s.Canonical) : NextCanonical (execFrontEndTake q s) := by
  grind [execFrontEndTake, event_canonical, State.frontStep_canonical, NextCanonical]

theorem State.setWork_canonical (s : State) (w : Nat) (x : Work) (hs : s.Canonical) : (s.setWork w x).Canonical := hs

theorem State.forgetData_canonical (s : State) (agent : Nat) (hs : s.Canonical) : (s.forgetData agent).Canonical := hs

theorem State.performWork_canonical (s : State) (x : Work) (hs : s.Canonical) : (s.performWork x).Canonical := by
  grind [State.performWork, State.posts_canonical, State.writeParts_canonical, foldl_canonical]

theorem State.workDone_canonical (s : State) (w : Nat) (x : Work) (e : Effect) (hs : s.Canonical) : (s.workDone w x e).Canonical := by
  grind [State.workDone, State.later_canonical, State.setWork_canonical, State.forgetData_canonical, State.performWork_canonical]

theorem State.doWork_canonical (s : State) (w : Nat) (kinds : Nat → Bool) (f : Work → State → EngR Effect) (hs : s.Canonical)
    (hf : ∀ x, (f x s).Canonical) : SomeCanonical (s.doWork w kinds f) := by
  unfold State.doWork
  split
  · trivial
  · next x hx =>
    split
    · have hr := x.wait.resume_canonical s (f x s) hs (hf x)
      grind [SomeCanonical, SomeCanonicalR, EngR.Canonical, State.workDone_canonical, State.setWork_canonical]
    · trivial

theorem State.advanceRidx_canonical (s : State) (q i : Nat) (hs : s.Canonical) : (s.advanceRidx q i).Canonical := by
  grind [State.advanceRidx, State.homeWrite_canonical, State.setFront_canonical]

theorem State.failPacket_canonical (s : State) (w : Nat) (x : Work) (cause : Nat) (st : Half) (addr : Word) (hs : s.Canonical) :
    (s.failPacket w x cause st addr).Canonical := by
  grind [State.failPacket, State.stopQueue_canonical, State.reportPacket_canonical, State.signalHeader_canonical, State.Canonical]

theorem execNullPacket_canonical (w : Nat) (s : State) (hs : s.Canonical) : NextCanonical (execNullPacket w s) := by
  grind [execNullPacket, event_canonical, State.doWork_canonical, EngR.Canonical]

theorem execSignalPacket_canonical (w : Nat) (s : State) (hs : s.Canonical) : NextCanonical (execSignalPacket w s) := by
  grind [execSignalPacket, event_canonical, State.doWork_canonical, EngR.Canonical]

theorem joinWork_canonical (w : Nat) (x : Work) (s : State) (hs : s.Canonical) : (joinWork w x s).Canonical := by
  grind [joinWork, State.forget_canonical, EngR.andThen_canonical, State.gread_canonical, State.gatomic_canonical, State.setWork_canonical,
    EngR.Canonical]

theorem execJoinPacket_canonical (w : Nat) (s : State) (hs : s.Canonical) : NextCanonical (execJoinPacket w s) := by
  grind [execJoinPacket, event_canonical, FWait.resume_canonical, State.setWork_canonical, State.workDone_canonical, joinWork_canonical,
    EngR.Canonical, SomeCanonical, SomeCanonicalR]

theorem copyWork_canonical (w : Nat) (x : Work) (s : State) (hs : s.Canonical) : (copyWork w x s).Canonical := by
  grind [copyWork, State.writeParts_canonical, EngR.andThen_canonical, EngR.at_canonical, State.reach_canonical, State.gread_canonical,
    State.setWork_canonical, State.forgetData_canonical, EngR.Canonical]

theorem execCopyPacket_canonical (w : Nat) (s : State) (hs : s.Canonical) : NextCanonical (execCopyPacket w s) := by
  grind [execCopyPacket, event_canonical, FWait.resume_canonical, State.setWork_canonical, State.workDone_canonical, copyWork_canonical,
    EngR.Canonical, SomeCanonical, SomeCanonicalR]

theorem execQueueRestart_canonical (q : Nat) (s : State) (hs : s.Canonical) : NextCanonical (execQueueRestart q s) := by
  grind [execQueueRestart, event_canonical, State.homeWrite_canonical, NextCanonical, SomeCanonical]

theorem State.setQent_canonical (s : State) (q : Nat) (e : QEnt) (hs : s.Canonical) : (s.setQent q e).Canonical := hs

theorem State.attach_canonical (s : State) (q : Nat) (v : Word) (hs : s.Canonical) : (s.attach q v).Canonical := by
  grind [State.attach, State.modDie_canonical, State.logError_canonical, State.streamFill_canonical, State.setFront_canonical,
    State.setQent_canonical]

theorem execQueueTableAttach_canonical (d i : Nat) (v : Word) (s : State) (hs : s.Canonical) : NextCanonical (execQueueTableAttach d i v s) := by
  grind [execQueueTableAttach, State.attach_canonical, NextCanonical]

theorem State.tailWrite_canonical (s : State) (q : Nat) (v : Word) (hs : s.Canonical) : (s.tailWrite q v).Canonical := by
  grind [State.tailWrite, State.homeWrite_canonical]

theorem execQueueTailWrite_canonical (d i : Nat) (v : Word) (s : State) (hs : s.Canonical) : NextCanonical (execQueueTailWrite d i v s) := by
  grind [execQueueTailWrite, State.tailWrite_canonical, NextCanonical]

end Sys2Proof.Machine
end


-- ==== Sys2Proof/Proofs/CanonicalEngines.lean ====
section
/-! PROOFS. The embedding engines, pooling and the near-bank units keep memory canonical. -/
namespace Sys2Proof.Machine

/-! ## The index engine, sketches, hot rows and updates -/

theorem State.pread_canonical (s : State) (x : Work) (p : Word) (n : Nat) (hs : s.Canonical) : (s.pread x p n).Canonical :=
  hs.of_keeps (agentFrame_mem.pread s x p n)

theorem State.gput_canonical (s : State) (x : Work) (va : Word) (bs : List Byte) (hs : s.Canonical) : (s.gput x va bs).Canonical :=
  hs.of_keeps (agentFrame_mem.gput s x va bs)

theorem State.pput_canonical (s : State) (x : Work) (p : Word) (bs : List Byte) (hs : s.Canonical) : (s.pput x p bs).Canonical :=
  hs.of_keeps (agentFrame_mem.pput s x p bs)

theorem State.eTableAt_canonical (s : State) (g : Agent) (va : Word) (hs : s.Canonical) : (s.eTableAt g va).Canonical :=
  hs.of_keeps (agentFrame_mem.eTableAt s g va)

theorem State.eTable_canonical (s : State) (x : Work) (hs : s.Canonical) : (s.eTable x).Canonical :=
  hs.of_keeps (agentFrame_mem.eTable s x)

theorem State.readDesc_canonical (s : State) (w : Nat) (x : Work) (hs : s.Canonical) : SomeCanonical (s.readDesc w x) := by
  grind [State.readDesc, State.gread_canonical, FWait.resume_canonical, State.setWork_canonical, State.forgetData_canonical,
    EngR.Canonical, SomeCanonical, SomeCanonicalR]

theorem State.eList_canonical (s : State) (x : Work) (hs : s.Canonical) : (s.eList x).Canonical :=
  hs.of_keeps (agentFrame_mem.eList s x)

theorem State.rowPlaceFor_canonical (s : State) (g : Agent) (t : ETable) (kinds : List Nat) (anyHome : Bool) (k row : Nat) (hs : s.Canonical) :
    (s.rowPlaceFor g t kinds anyHome k row).Canonical :=
  hs.of_keeps (agentFrame_mem.rowPlaceFor s g t kinds anyHome k row)

theorem State.rowPlaces_canonical (s : State) (x : Work) (t : ETable) (l : EList) (kinds : List Nat) (anyHome : Bool) (hs : s.Canonical) :
    (s.rowPlaces x t l kinds anyHome).Canonical :=
  hs.of_keeps (agentFrame_mem.rowPlaces s x t l kinds anyHome)

theorem State.rowWrite_canonical (s : State) (ctx key : Nat) (bs : List Byte) (hs : s.Canonical) : (s.rowWrite ctx key bs).Canonical := by
  grind [State.rowWrite, State.homeWrite_canonical, State.Canonical]

theorem State.writeBack_canonical (s : State) (i : Nat) (hs : s.Canonical) : (s.writeBack i).2.Canonical := by
  grind [State.writeBack, State.homeWrite_canonical, State.Canonical]

theorem State.fillRow_canonical (s : State) (r : FillReq) (hs : s.Canonical) : (s.fillRow r).Canonical := by
  grind [State.fillRow, State.homeWrite_canonical, State.writeBack_canonical, State.Canonical]

theorem State.feedRow_canonical (s : State) (die ctx : Nat) (t : ETable) (row home : Nat) (hs : s.Canonical) :
    (s.feedRow die ctx t row home).Canonical := by
  grind [State.feedRow, State.modDie_canonical, State.Canonical]

theorem State.feedRows_canonical (s : State) (die ctx : Nat) (t : ETable) (l : List (Nat × Nat)) (hs : s.Canonical) :
    (s.feedRows die ctx t l).Canonical := by
  grind [State.feedRows, State.feedRow_canonical, foldl_canonical]

theorem execFrameFill_canonical (die : Nat) (s : State) (hs : s.Canonical) : NextCanonical (execFrameFill die s) := by
  unfold execFrameFill
  split
  · trivial
  · exact event_canonical _ _ (SomeCanonical.map (fun r => State.fillRow_canonical { s with fills := s.fills.erase r } r hs) _)

theorem execFrameWriteBack_canonical (set way : Nat) (s : State) (hs : s.Canonical) : NextCanonical (execFrameWriteBack set way s) := by
  grind [execFrameWriteBack, event_canonical, State.writeBack_canonical, SomeCanonical]

theorem execSketchDecay_canonical (die : Nat) (s : State) (hs : s.Canonical) : NextCanonical (execSketchDecay die s) := by
  grind [execSketchDecay, State.modDie_canonical, event_canonical, NextCanonical, SomeCanonical]

theorem State.recordPut_canonical (s : State) (x : Work) (bs : List Byte) (hs : s.Canonical) : (s.recordPut x bs).Canonical :=
  hs.of_keeps (agentFrame_mem.recordPut s x bs)

theorem State.recordPutAny_canonical (s : State) (x : Work) (bs : List Byte) (hs : s.Canonical) : (s.recordPutAny x bs).Canonical := by
  grind [State.recordPutAny, State.recordPut_canonical, EngR.Canonical]

theorem State.withRecord_canonical (s : State) (x : Work) (body : Work → State → EngR Res) (hs : s.Canonical)
    (hbody : (body x s).Canonical) : (s.withRecord x body).Canonical := by
  grind [State.withRecord, EngR.Canonical, EngR.andThen_canonical, State.recordPutAny_canonical, State.recordPut_canonical]

theorem State.embedDone_canonical (s : State) (w : Nat) (x : Work) (e : Effect) (hs : s.Canonical) : (s.embedDone w x e).Canonical := by
  grind [State.embedDone, State.workDone_canonical, State.rowWrite_canonical, foldl_canonical]

theorem State.doEmbed_canonical (s : State) (w : Nat) (kinds : Work → Bool) (body : Work → State → EngR Res) (after : Work → State → State)
    (hs : s.Canonical) (hbody : ∀ x, (body x s).Canonical) (hafter : ∀ x t, t.Canonical → (after x t).Canonical) :
    SomeCanonical (s.doEmbed w kinds body after) := by
  unfold State.doEmbed
  split
  · trivial
  · next x0 hx =>
    have hrec := s.withRecord_canonical (s.lateCard x0) body hs (hbody _)
    grind [SomeCanonical, EngR.Canonical, State.readDesc_canonical, State.embedDone_canonical, State.setWork_canonical, State.workDone_canonical]

theorem State.tableList_canonical (s : State) (x : Work) (kinds : List Nat) (anyHome : Bool) (hs : s.Canonical) :
    (s.tableList x kinds anyHome).Canonical :=
  hs.of_keeps (agentFrame_mem.tableList s x kinds anyHome)

theorem gatherWork_canonical (x : Work) (s : State) (hs : s.Canonical) : (gatherWork x s).Canonical := by
  grind [gatherWork, EngR.andThen_canonical, State.pput_canonical, State.tableList_canonical, EngR.Canonical]

theorem feedAll_canonical (x : Work) (s : State) (hs : s.Canonical) : (feedAll x s).Canonical := by
  grind [feedAll, State.feedRows_canonical, State.tableList_canonical, EngR.Canonical]

theorem execIndexGather_canonical (w : Nat) (s : State) (hs : s.Canonical) : NextCanonical (execIndexGather w s) := by
  grind [execIndexGather, event_canonical, State.doEmbed_canonical, gatherWork_canonical, feedAll_canonical]

theorem scatterWork_canonical (x : Work) (s : State) (hs : s.Canonical) : (scatterWork x s).Canonical := by
  grind [scatterWork, EngR.andThen_canonical, EngR.at_canonical, engMap_canonical, State.pread_canonical, State.tableList_canonical,
    EngR.Canonical]

theorem execIndexScatter_canonical (w : Nat) (s : State) (hs : s.Canonical) : NextCanonical (execIndexScatter w s) :=
  event_canonical _ _ (s.doEmbed_canonical w _ scatterWork _ hs (fun x => scatterWork_canonical x s hs) (fun _ _ ht => ht))

theorem dedupWork_canonical (x : Work) (s : State) (hs : s.Canonical) : (dedupWork x s).Canonical := by
  grind [dedupWork, EngR.andThen_canonical, State.pput_canonical, State.eList_canonical, EngR.Canonical]

theorem execIndexDedup_canonical (w : Nat) (s : State) (hs : s.Canonical) : NextCanonical (execIndexDedup w s) :=
  event_canonical _ _ (s.doEmbed_canonical w _ dedupWork _ hs (fun x => dedupWork_canonical x s hs) (fun _ _ ht => ht))

theorem bucketWork_canonical (x : Work) (s : State) (hs : s.Canonical) : (bucketWork x s).Canonical := by
  grind [bucketWork, EngR.andThen_canonical, State.pput_canonical, State.tableList_canonical, EngR.Canonical]

theorem execIndexBucket_canonical (w : Nat) (s : State) (hs : s.Canonical) : NextCanonical (execIndexBucket w s) :=
  event_canonical _ _ (s.doEmbed_canonical w _ bucketWork _ hs (fun x => bucketWork_canonical x s hs) (fun _ _ ht => ht))

theorem sketchWork_canonical (add : Bool) (x : Work) (s : State) (hs : s.Canonical) : (sketchWork add x s).Canonical := by
  grind [sketchWork, EngR.andThen_canonical, State.pput_canonical, State.tableList_canonical, EngR.Canonical]

theorem execSketchQuery_canonical (w : Nat) (s : State) (hs : s.Canonical) : NextCanonical (execSketchQuery w s) :=
  event_canonical _ _ (s.doEmbed_canonical w _ _ _ hs (fun x => sketchWork_canonical false x s hs) (fun _ _ ht => ht))

theorem execSketchQueryAdd_canonical (w : Nat) (s : State) (hs : s.Canonical) : NextCanonical (execSketchQueryAdd w s) := by
  grind [execSketchQueryAdd, event_canonical, State.doEmbed_canonical, feedAll_canonical, sketchWork_canonical]

theorem State.hotRow_canonical (s : State) (sub die ctx : Nat) (t : ETable) (row home : Nat) (hs : s.Canonical) :
    (s.hotRow sub die ctx t row home).2.Canonical := by
  have hfill := s.fillRow_canonical { die := die, ctx := ctx, tid := t.tid, row := row, home := home, rb := t.rb } hs
  have hback (p : Nat) := s.writeBack_canonical p hs
  unfold State.hotRow
  dsimp only
  split
  · exact hfill
  · split
    · exact hback _
    · exact hs
  · split
    · exact hback _
    · exact hs
  · grind [State.Canonical]
  · split <;> exact hs

theorem State.hotRows_canonical (s : State) (sub die ctx : Nat) (t : ETable) (l : List (Nat × Nat)) (hs : s.Canonical) :
    (s.hotRows sub die ctx t l).2.Canonical := by
  unfold State.hotRows
  split
  · exact hs
  · exact List.foldlRecOn (motive := fun acc : Nat × State => acc.2.Canonical) l _ hs (fun acc hacc p _ =>
      acc.2.hotRow_canonical sub die ctx t p.1 p.2 hacc)

theorem hotWork_canonical (x : Work) (s : State) (hs : s.Canonical) : (hotWork x s).Canonical := by
  grind [hotWork, EngR.andThen_canonical, State.tableList_canonical, EngR.Canonical]

theorem hotAfter_canonical (x : Work) (s : State) (hs : s.Canonical) : (hotAfter x s).Canonical := by
  grind [hotAfter, State.tableList_canonical, State.hotRows_canonical, EngR.Canonical]

theorem State.hotEvent_canonical (s : State) (sub w : Nat) (hs : s.Canonical) : SomeCanonical (s.hotEvent sub w) := by
  grind [State.hotEvent, State.doEmbed_canonical, hotWork_canonical, hotAfter_canonical, SomeCanonical]

theorem execHotrowFill_canonical (w : Nat) (s : State) (hs : s.Canonical) : NextCanonical (execHotrowFill w s) := by
  grind [execHotrowFill, event_canonical, State.hotEvent_canonical]

theorem execHotrowEvict_canonical (w : Nat) (s : State) (hs : s.Canonical) : NextCanonical (execHotrowEvict w s) := by
  grind [execHotrowEvict, event_canonical, State.hotEvent_canonical]

theorem execHotrowFlush_canonical (w : Nat) (s : State) (hs : s.Canonical) : NextCanonical (execHotrowFlush w s) := by
  grind [execHotrowFlush, event_canonical, State.hotEvent_canonical]

theorem execHotrowPin_canonical (w : Nat) (s : State) (hs : s.Canonical) : NextCanonical (execHotrowPin w s) := by
  grind [execHotrowPin, event_canonical, State.hotEvent_canonical]

theorem execHotrowUnpin_canonical (w : Nat) (s : State) (hs : s.Canonical) : NextCanonical (execHotrowUnpin w s) := by
  grind [execHotrowUnpin, event_canonical, State.hotEvent_canonical]

theorem State.wlist_canonical (s : State) (x : Work) (hs : s.Canonical) : (s.wlist x).Canonical := by
  grind [State.wlist, EngR.andThen_canonical, State.reach_canonical, State.takeParts_canonical, EngR.Canonical]

theorem State.appendList_canonical (s : State) (x : Work) (l : WList) (cs : List Nat) (hs : s.Canonical) : (s.appendList x l cs).Canonical := by
  grind [State.appendList, EngR.andThen_canonical, engMap_canonical, State.gput_canonical, EngR.Canonical]

theorem State.pushed_canonical (s : State) (x : Work) (hs : s.Canonical) : (s.pushed x).Canonical := by
  grind [State.pushed, EngR.andThen_canonical, State.pread_canonical, EngR.Canonical]

theorem wlpushWork_canonical (x : Work) (s : State) (hs : s.Canonical) : (wlpushWork x s).Canonical := by
  grind [wlpushWork, EngR.andThen_canonical, State.wlist_canonical, State.appendList_canonical, State.pushed_canonical, EngR.Canonical]

theorem execWorklistPush_canonical (w : Nat) (s : State) (hs : s.Canonical) : NextCanonical (execWorklistPush w s) :=
  event_canonical _ _ (s.doEmbed_canonical w _ wlpushWork _ hs (fun x => wlpushWork_canonical x s hs) (fun _ _ ht => ht))

theorem wldinWork_canonical (x : Work) (s : State) (hs : s.Canonical) : (wldinWork x s).Canonical := by
  refine EngR.andThen_canonical (s.wlist_canonical x hs) (fun l t ht => EngR.andThen_canonical (t.pushed_canonical x ht) (fun cs u hu => ?_))
  split
  · exact hu
  · split
    · exact hu
    · refine EngR.andThen_canonical (engMap_canonical (fun _ _ v hv => v.gread_canonical _ _ 1 hv) 0 _ u hu) (fun ms v hv => ?_)
      dsimp only
      split
      · exact hv
      · refine EngR.andThen_canonical (v.appendList_canonical x l _ hv) (fun w y hy => ?_)
        exact EngR.andThen_canonical (engMap_canonical (fun _ _ z hz => z.gput_canonical x _ _ hz) 0 _ y hy) (fun _ _ hz => hz)

theorem execWorklistDedupPush_canonical (w : Nat) (s : State) (hs : s.Canonical) : NextCanonical (execWorklistDedupPush w s) :=
  event_canonical _ _ (s.doEmbed_canonical w _ wldinWork _ hs (fun x => wldinWork_canonical x s hs) (fun _ _ ht => ht))

theorem wlpopWork_canonical (x : Work) (s : State) (hs : s.Canonical) : (wlpopWork x s).Canonical := by
  refine EngR.andThen_canonical (s.wlist_canonical x hs) (fun l t ht => ?_)
  dsimp only
  split
  · exact ht
  · refine EngR.andThen_canonical (engMap_canonical (fun _ _ v hv => v.gread_canonical _ _ 8 hv) 0 _ t ht) (fun es u hu => ?_)
    refine EngR.andThen_canonical (u.pput_canonical x _ _ hu) (fun w v hv => ?_)
    exact EngR.andThen_canonical (v.gput_canonical x _ _ hv) (fun _ _ hy => hy)

theorem execWorklistPop_canonical (w : Nat) (s : State) (hs : s.Canonical) : NextCanonical (execWorklistPop w s) :=
  event_canonical _ _ (s.doEmbed_canonical w _ wlpopWork _ hs (fun x => wlpopWork_canonical x s hs) (fun _ _ ht => ht))

theorem State.recordAgain_canonical (s : State) (x : Work) (cause : Nat) (hs : s.Canonical) : (s.recordAgain x cause).Canonical := by
  grind [State.recordAgain, State.performWork_canonical, State.recordPutAny_canonical, EngR.Canonical]

theorem State.packetAnswered_canonical (s : State) (w : Nat) (x : Work) (hs : s.Canonical) : (s.packetAnswered w x).2.Canonical := by
  grind [State.packetAnswered, State.forget_canonical, State.engineError_canonical, State.setWork_canonical, State.recordAgain_canonical]

theorem execPacketComplete_canonical (w : Nat) (s : State) (hs : s.Canonical) : NextCanonical (execPacketComplete w s) := by
  grind [execPacketComplete, event_canonical, State.forget_canonical, FWait.resume_canonical, State.unplace_canonical,
    State.signalHeader_canonical, State.signalWord_canonical, State.setWork_canonical, State.advanceRidx_canonical,
    State.failPacket_canonical, State.packetAnswered_canonical, State.Canonical, EngR.Canonical, SomeCanonical, SomeCanonicalR]

theorem State.commitCard_canonical (s : State) (w : Nat) (x : Work) (cls : Nat) (hs : s.Canonical) : (s.commitCard w x cls).Canonical := by
  grind [State.commitCard, State.advanceCp_canonical, State.setWork_canonical, State.performWork_canonical, State.rowWrite_canonical,
    foldl_canonical]

theorem execJobCardCommit_canonical (w : Nat) (s : State) (hs : s.Canonical) : NextCanonical (execJobCardCommit w s) := by
  grind [execJobCardCommit, event_canonical, State.setWork_canonical, State.commitCard_canonical, SomeCanonical]

/-! ## Pooling -/

theorem poolParts_canonical (x : Work) (s : State) (hs : s.Canonical) : (poolParts x s).Canonical := by
  grind [poolParts, EngR.andThen_canonical, State.eTable_canonical, State.eList_canonical, State.rowPlaces_canonical, EngR.Canonical]

theorem feedPool_canonical (x : Work) (s : State) (hs : s.Canonical) : (feedPool x s).Canonical := by
  grind [feedPool, State.feedRows_canonical, State.tableList_canonical, EngR.Canonical]

theorem State.serveRows_canonical (s : State) (e : Nat) (l : List (Nat × Nat)) (hs : s.Canonical) : (s.serveRows e l).2.1.Canonical := by
  induction l generalizing s e with
  | nil => exact hs
  | cons u r ih =>
    rw [State.serveRows]
    split
    · exact hs
    · exact ih _ _ (s.unitTakeUpTo_canonical u.1 u.2 hs)

theorem execPoolingRowService_canonical (w : Nat) (s : State) (hs : s.Canonical) : NextCanonical (execPoolingRowService w s) := by
  grind [execPoolingRowService, event_canonical, FWait.resume_canonical, State.setWork_canonical, State.readDesc_canonical,
    poolParts_canonical, feedPool_canonical, State.serveRows_canonical, EngR.Canonical, SomeCanonical, SomeCanonicalR]

theorem poolWork_canonical (x : Work) (s : State) (hs : s.Canonical) : (poolWork x s).Canonical := by
  grind [poolWork, EngR.andThen_canonical, State.pput_canonical, EngR.Canonical]

theorem execPoolCard_canonical (w : Nat) (s : State) (hs : s.Canonical) : NextCanonical (execPoolCard w s) :=
  event_canonical _ _ (s.doEmbed_canonical w _ poolWork _ hs (fun x => poolWork_canonical x s hs) (fun _ _ ht => ht))

theorem State.updateRow_canonical (s : State) (x : Work) (t : ETable) (l : EList) (grads : List (List Num)) (row home : Nat) (hs : s.Canonical) :
    (s.updateRow x t l grads row home).Canonical := by
  grind [State.updateRow, EngR.andThen_canonical, State.gread_canonical, State.gput_canonical, EngR.Canonical]

theorem supdWork_canonical (x : Work) (s : State) (hs : s.Canonical) : (supdWork x s).Canonical := by
  refine EngR.andThen_canonical (s.eTable_canonical x hs) (fun t u hu => EngR.andThen_canonical (u.eList_canonical x hu) (fun l v hv => ?_))
  dsimp only
  generalize (if 4 ≤ pEp x.pkt then 0 else stateBytes (pEp x.pkt) t.d) = n
  split
  · exact hv
  · split
    · exact hv
    · refine EngR.andThen_canonical (v.rowPlaces_canonical x t l [0, 1] false hv) (fun rows y hy => ?_)
      refine EngR.andThen_canonical (y.pread_canonical x _ _ hy) (fun gb z hz => ?_)
      exact EngR.andThen_canonical (engMap_canonical (fun _ p r hr => r.updateRow_canonical x t l _ p.1 p.2 hr) 0 _ z hz) (fun _ _ hr => hr)

theorem State.supdEvent_canonical (s : State) (w : Nat) (eps : Nat → Bool) (hs : s.Canonical) : SomeCanonical (s.supdEvent w eps) :=
  s.doEmbed_canonical w _ _ _ hs (fun x => supdWork_canonical x s hs) (fun _ _ ht => ht)

theorem execSupdSgd_canonical (w : Nat) (s : State) (hs : s.Canonical) : NextCanonical (execSupdSgd w s) := by
  grind [execSupdSgd, event_canonical, State.supdEvent_canonical]

theorem execSupdMomentum_canonical (w : Nat) (s : State) (hs : s.Canonical) : NextCanonical (execSupdMomentum w s) := by
  grind [execSupdMomentum, event_canonical, State.supdEvent_canonical]

theorem execSupdAdagrad_canonical (w : Nat) (s : State) (hs : s.Canonical) : NextCanonical (execSupdAdagrad w s) := by
  grind [execSupdAdagrad, event_canonical, State.supdEvent_canonical]

theorem execSupdAdam_canonical (w : Nat) (s : State) (hs : s.Canonical) : NextCanonical (execSupdAdam w s) := by
  grind [execSupdAdam, event_canonical, State.supdEvent_canonical]

theorem execSupdInstalled_canonical (w : Nat) (s : State) (hs : s.Canonical) : NextCanonical (execSupdInstalled w s) := by
  grind [execSupdInstalled, event_canonical, State.supdEvent_canonical]

/-! ## The near-bank units -/

theorem actNmc_canonical (f : EngF) (s : State) (hs : s.Canonical) : (actNmc f s).Canonical := by
  grind [actNmc, actEng_canonical]

theorem State.logReject_canonical (s : State) (die : Nat) (va pa ctx reason src core engine : Nat) (hs : s.Canonical) :
    (s.logReject die va pa ctx reason src core engine).Canonical := hs

theorem nbCall_canonical (x : Work) (s : State) (hs : s.Canonical) : (nbCall x s).Canonical := by
  grind [nbCall, EngR.andThen_canonical, State.gread_canonical, EngR.Canonical]

theorem nbOperand_canonical (x : Work) (c : Call) (s : State) (hs : s.Canonical) : (nbOperand x c s).Canonical := by
  refine EngR.andThen_canonical (foldl_canonicalR (fun r kind hr => EngR.andThen_canonical hr (fun _ t ht => ?_)) _ hs) (fun e t ht => ?_)
  · have htr := t.frontAccess_canonical (dieOf (s.workAgent x).core) (s.workAgent x).tlb (s.workAgent x).ctx (s.workAgent x).unit
      (s.workAgent x).uidx kind false (s.workAgent x).wait (BitVec.ofNat 64 c.w) 1 ht
    grind [Tr.Canonical, EngR.Canonical, State.stream_canonical]
  · grind [EngR.Canonical, State.engineError_canonical]

theorem nbDispatch_canonical (x : Work) (s : State) (hs : s.Canonical) : (nbDispatch x s).Canonical := by
  grind [nbDispatch, EngR.andThen_canonical, State.gread_canonical, State.pread_canonical, nbCall_canonical, nbOperand_canonical,
    EngR.Canonical]

theorem State.dropFrames_canonical (s : State) (pa n : Nat) (hs : s.Canonical) : (s.dropFrames pa n).Canonical := by
  grind [State.dropFrames, State.writeBack_canonical, foldl_canonical, State.Canonical]

theorem State.nbFail_canonical (s : State) (w : Nat) (x : Work) (cause run : Nat) (va : Word) (hs : s.Canonical) :
    (s.nbFail w x cause run va).Canonical := by
  grind [State.nbFail, State.setWork_canonical, State.workDone_canonical, State.withRecord_canonical, EngR.Canonical]

theorem microRun_canonical (j : NbJob) (words : Map (BitVec 192)) (grant : Bool) (n : Nat) (m : Micro) (s : State) (hs : s.Canonical) :
    (microRun j words grant n m s).2.2.Canonical := by
  induction n generalizing m s with
  | zero => exact hs
  | succ n ih =>
    have hput (pa : Nat) (bs : List Byte) := s.homeWrite_canonical pa bs hs
    rw [microRun]
    dsimp only
    grind

theorem State.nbFailed_canonical (s : State) (w : Nat) (x : Work) (hs : s.Canonical) : SomeCanonical (s.nbFailed w x) := by
  grind [State.nbFailed, State.nbFail_canonical, SomeCanonical]

theorem execNearBankDispatch_canonical (w : Nat) (s : State) (hs : s.Canonical) : NextCanonical (execNearBankDispatch w s) := by
  grind [execNearBankDispatch, event_canonical, State.forget_canonical, FWait.resume_canonical, State.setWork_canonical,
    State.readDesc_canonical, State.logReject_canonical, nbDispatch_canonical, State.dropFrames_canonical, State.nbFail_canonical,
    State.nbFailed_canonical, EngR.Canonical, SomeCanonical, SomeCanonicalR]

theorem State.nbPlaces_canonical (s : State) (x : Work) (j : NbJob) (hs : s.Canonical) : (s.nbPlaces x j).Canonical := by
  grind [State.nbPlaces, EngR.andThen_canonical, State.pput_canonical, State.recordPut_canonical, EngR.Canonical]

theorem State.nbEnd_canonical (s : State) (w : Nat) (x : Work) (j : NbJob) (hs : s.Canonical) : SomeCanonical (s.nbEnd w x j) := by
  grind [State.nbEnd, FWait.resume_canonical, State.setWork_canonical, State.workDone_canonical, State.nbFail_canonical,
    State.nbFailed_canonical, State.nbPlaces_canonical, EngR.Canonical, SomeCanonical, SomeCanonicalR]

theorem nbMatvec_canonical (j : NbJob) (s : State) (hs : s.Canonical) : (nbMatvec j s).st.Canonical := by grind [nbMatvec]

theorem nbColsum_canonical (j : NbJob) (s : State) (hs : s.Canonical) : (nbColsum j s).st.Canonical := by grind [nbColsum]

theorem nbFill_canonical (j : NbJob) (s : State) (hs : s.Canonical) : (nbFill j s).st.Canonical := by
  grind [nbFill, foldl_canonical, State.homeWrite_canonical]

theorem nbStripe_canonical (j : NbJob) (s : State) (hs : s.Canonical) : (nbStripe j s).st.Canonical := by
  grind [nbStripe, foldl_canonical, State.homeWrite_canonical]

theorem nbMicro_canonical (ep : Nat) (j : NbJob) (s : State) (hs : s.Canonical) : (nbMicro ep j s).st.Canonical := microRun_canonical _ _ _ _ _ s hs

theorem State.nbPerform_canonical (s : State) (w : Nat) (eps : Nat → Bool) (f : NbJob → State → NbOut) (hs : s.Canonical)
    (hf : ∀ j t, t.Canonical → (f j t).st.Canonical) : SomeCanonical (s.nbPerform w eps f) := by
  unfold State.nbPerform
  split
  · trivial
  · next x hx =>
    split
    · trivial
    · next j hj =>
      have hplaces := x.wait.resume_canonical s (s.nbPlaces x j) hs (s.nbPlaces_canonical x j hs)
      grind [SomeCanonical, SomeCanonicalR, EngR.Canonical, State.nbFailed_canonical, State.unitTake_canonical, State.setWork_canonical,
        State.nbFail_canonical, State.nbEnd_canonical]

theorem execNearBankMatvec_canonical (w : Nat) (s : State) (hs : s.Canonical) : NextCanonical (execNearBankMatvec w s) :=
  event_canonical _ _ (s.nbPerform_canonical w _ nbMatvec hs nbMatvec_canonical)

theorem execNearBankColsum_canonical (w : Nat) (s : State) (hs : s.Canonical) : NextCanonical (execNearBankColsum w s) :=
  event_canonical _ _ (s.nbPerform_canonical w _ nbColsum hs nbColsum_canonical)

theorem execNearBankFill_canonical (w : Nat) (s : State) (hs : s.Canonical) : NextCanonical (execNearBankFill w s) :=
  event_canonical _ _ (s.nbPerform_canonical w _ nbFill hs nbFill_canonical)

theorem execNearBankStripe_canonical (w : Nat) (s : State) (hs : s.Canonical) : NextCanonical (execNearBankStripe w s) :=
  event_canonical _ _ (s.nbPerform_canonical w _ nbStripe hs nbStripe_canonical)

theorem execNearBankMicroprogram_canonical (w : Nat) (s : State) (hs : s.Canonical) : NextCanonical (execNearBankMicroprogram w s) := by
  refine event_canonical _ _ ?_
  split
  · exact s.nbPerform_canonical w _ _ hs (nbMicro_canonical _)
  · trivial

theorem State.loadStore_canonical (s : State) (words : List (BitVec 192)) (entries : List (BitVec 16)) (hs : s.Canonical) :
    (s.loadStore words entries).Canonical := by
  grind [State.loadStore, State.managementRecord_canonical, State.Canonical]

theorem execControlStoreLoad_canonical (words : List (BitVec 192)) (entries : List (BitVec 16)) (s : State) (hs : s.Canonical) :
    NextCanonical (execControlStoreLoad words entries s) := by
  grind [execControlStoreLoad, event_canonical, State.manage_canonical, State.loadStore_canonical, SomeCanonical]

end Sys2Proof.Machine
end


-- ==== Sys2Proof/Proofs/CanonicalArrays.lean ====
section
/-! PROOFS. Arrays, launches and traps keep memory canonical. -/
namespace Sys2Proof.Machine

/-! ## Arrays and leases -/

theorem actLease_canonical (f : MtxF) (s : State) (hs : s.Canonical) : (actLease f s).Canonical := by
  grind [actLease, State.modArr_canonical, Act.Canonical]

theorem execUnlease_canonical (_f : MtxF) (s : State) (hs : s.Canonical) : NextCanonical (execUnlease _f s) := by
  grind [execUnlease, State.endCounted_canonical, issue_canonical, Act.Canonical]

theorem execLeaseGrant_canonical (i : Nat) (s : State) (hs : s.Canonical) : NextCanonical (execLeaseGrant i s) := by
  grind [execLeaseGrant, State.modArr_canonical, State.modSeq_canonical, event_canonical, NextCanonical, SomeCanonical]

theorem arrTrap_canonical (i cause tile : Nat) : (arrTrap i cause tile).Canonical := trivial

theorem State.countOne_canonical (s : State) (hs : s.Canonical) : s.countOne.Canonical := by
  grind [State.countOne, State.modArr_canonical]

theorem regionFault_canonical (l : List (Nat × Nat × Nat)) : SomeCanonicalAct (regionFault l) := by
  unfold regionFault
  split
  · trivial
  · exact SomeCanonicalAct.map (fun _ => memTrap_canonical ..) _

theorem State.counted_canonical (s : State) (i : Instr) (gam : Half) (hs : s.Canonical) : (s.counted i gam).Canonical := by
  grind [State.counted, State.modArr_canonical, State.countOne_canonical]

theorem actCounted_canonical (i : Instr) (tile : Nat) (bad : Bool) (regions : List (Nat × Nat × Nat)) (gam : Half) (s : State) (hs : s.Canonical) :
    (actCounted i tile bad regions gam s).Canonical := by
  grind [actCounted, State.opTrap_canonical, fencedTrap_canonical, arrTrap_canonical, regionFault_canonical, State.counted_canonical,
    Act.Canonical, SomeCanonicalAct]

theorem execMma_canonical (f : MtxF) (s : State) (hs : s.Canonical) : NextCanonical (execMma f s) := by
  grind [execMma, issue_canonical, actCounted_canonical]

theorem execMmac_canonical (f : MtxF) (s : State) (hs : s.Canonical) : NextCanonical (execMmac f s) := by
  grind [execMmac, issue_canonical, actCounted_canonical]

theorem execMmas_canonical (f : MtxF) (s : State) (hs : s.Canonical) : NextCanonical (execMmas f s) := by
  grind [execMmas, issue_canonical, actCounted_canonical]

theorem execMmaAtBank_canonical (f : MtxF) (s : State) (hs : s.Canonical) : NextCanonical (execMmaAtBank f s) := by
  grind [execMmaAtBank, State.opTrap_canonical, fencedTrap_canonical, issue_canonical, arrTrap_canonical, actCounted_canonical,
    Act.Canonical]

theorem execAretW_canonical (f : StoF) (s : State) (hs : s.Canonical) : NextCanonical (execAretW f s) := by
  grind [execAretW, issue_canonical, Act.Canonical]

theorem State.modTile_canonical (s : State) (i n : Nat) (f : Tile → Tile) (hs : s.Canonical) : (s.modTile i n f).Canonical := hs

theorem State.setSaved_canonical (s : State) (ctx i n : Nat) (b : Bool) (hs : s.Canonical) : (s.setSaved ctx i n b).Canonical := by
  grind [State.setSaved, State.homeWrite_canonical]

theorem State.saveTile_canonical (s : State) (i n : Nat) (hs : s.Canonical) : (s.saveTile i n).Canonical := by
  grind [State.saveTile, State.homeWrite_canonical, State.modTile_canonical, State.setSaved_canonical]

theorem State.restoreTile_canonical (s : State) (ctx i n : Nat) (hs : s.Canonical) : (s.restoreTile ctx i n).Canonical := hs

theorem State.setHead_canonical (s : State) (i : Nat) (x : ArrCmd) (hs : s.Canonical) : (s.setHead i x).Canonical := hs

theorem State.transfer_canonical (s : State) (i n : Nat) (need : ArrCmd → Bool) (f : ArrCmd → State × ArrCmd) (hf : ∀ x, (f x).1.Canonical) :
    SomeCanonical (s.transfer i n need f) := by
  grind [State.transfer, SomeCanonical, State.setHead_canonical]

theorem execTileSave_canonical (i n : Nat) (s : State) (hs : s.Canonical) : NextCanonical (execTileSave i n s) := by
  unfold execTileSave
  split
  · trivial
  · exact event_canonical _ _ (s.transfer_canonical i n _ _ (fun _ => s.saveTile_canonical i n hs))

theorem execTileRestore_canonical (i n : Nat) (s : State) (hs : s.Canonical) : NextCanonical (execTileRestore i n s) := by
  unfold execTileRestore
  split
  · trivial
  · refine event_canonical _ _ (s.transfer_canonical i n _ _ (fun x => ?_))
    split
    · exact s.restoreTile_canonical x.ctx i n hs
    · exact hs

theorem execSweepTileSave_canonical (i n : Nat) (s : State) (hs : s.Canonical) : NextCanonical (execSweepTileSave i n s) := by
  grind [execSweepTileSave, event_canonical, State.saveTile_canonical, NextCanonical, SomeCanonical]

theorem execSweepFrozenTileRenew_canonical (i n : Nat) (s : State) (hs : s.Canonical) : NextCanonical (execSweepFrozenTileRenew i n s) := by
  grind [execSweepFrozenTileRenew, event_canonical, State.modTile_canonical, NextCanonical, SomeCanonical]

theorem State.arrFault_canonical (s : State) (i : Nat) (x : ArrCmd) (cause addr : Nat) (st : Half) (hs : s.Canonical) :
    (s.arrFault i x cause addr st).Canonical := by
  grind [State.arrFault, State.modArr_canonical, State.unitFault_canonical]

theorem State.replayFails_canonical (s : State) (i n ctx reason : Nat) (hs : s.Canonical) : (s.replayFails i n ctx reason).Canonical := hs

theorem State.consumes_canonical (s : State) (i : Nat) (x : ArrCmd) (hs : s.Canonical) : (s.consumes i x).Canonical := hs

theorem EngR.lanes_canonical {α : Type} (sv : Word) {x : EngR α} (hx : x.Canonical) : (x.lanes sv).Canonical := by
  unfold EngR.lanes
  split <;> exact hx

theorem State.bankOperand_canonical (s : State) (i : Nat) (x : ArrCmd) (hs : s.Canonical) : (s.bankOperand i x).Canonical := by
  have haccess (wv : Nat) := s.engineAccess_canonical (arrAgent i x).core (arrAgent i x).id (arrAgent i x).ctx (arrAgent i x).unit
    (arrAgent i x).uidx 0 false (arrAgent i x).wait (BitVec.ofNat 64 wv) 1 hs
  unfold State.bankOperand
  dsimp only
  split
  · exact hs
  · split
    · exact hs
    · next h => have hstand := haccess (leNat (((s.core x.core).bytes x.f.b.toNat 32).take 8)); rw [h] at hstand; exact hstand
    · next ps t h =>
      have ht : t.Canonical := by have hok := haccess (leNat (((s.core x.core).bytes x.f.b.toNat 32).take 8)); rw [h] at hok; exact hok
      split
      · exact ht
      · next e u h2 =>
        have hu := State.stream_canonical ht h2
        split
        · exact hu
        · split
          · exact u.engineError_canonical _ _ _ _ _ _ hu
          · exact EngR.lanes_canonical _ (EngR.andThen_canonical (u.reach_canonical _ _ _ _ hu) (fun ps v hv =>
              EngR.andThen_canonical (v.takeParts_canonical _ _ ps hv) (fun _ _ hw => hw)))

theorem State.beginArr_canonical (s : State) (i : Nat) (x : ArrCmd) (hs : s.Canonical) : (s.beginArr i x).Canonical := by
  grind [State.beginArr, State.modTile_canonical, State.setHead_canonical]

theorem State.tryBegin_canonical (s : State) (i : Nat) (x : ArrCmd) (hs : s.Canonical) : SomeCanonical (s.tryBegin i x) := by
  have hbank := x.wait.resume_canonical s _ hs (s.bankOperand_canonical i x hs)
  have hfault (cause addr : Nat) (st : Half) := s.arrFault_canonical i x cause addr st hs
  unfold State.tryBegin
  dsimp only
  refine SomeCanonical.ite (hfault _ _ _) (SomeCanonical.ite (hfault _ _ _) ?_)
  split
  · exact hfault _ _ _
  · refine SomeCanonical.ite (s.consumes_canonical i x hs) (SomeCanonical.ite ?_ (s.beginArr_canonical i x hs))
    split
    · trivial
    · next o t h =>
      rw [h] at hbank
      have ht := t.forget_canonical (512 + i) hbank
      split
      · exact State.beginArr_canonical _ i _ ht
      · exact SomeCanonical.ite trivial (State.beginArr_canonical _ i _ (State.unitTakeUpTo_canonical _ _ _ ht))
    · next h => rw [h] at hbank; exact State.arrFault_canonical _ i x _ _ _ (State.logReject_canonical _ _ _ _ _ _ _ _ _ hbank)
    · next h => rw [h] at hbank; exact hbank
    · next t h => rw [h] at hbank; exact t.setHead_canonical i _ hbank
    · next t h => rw [h] at hbank; exact t.arrFault_canonical i _ _ _ _ hbank

theorem State.groupFault_canonical (s : State) (i : Nat) (x : ArrCmd) (cause slab addr : Nat) (hs : s.Canonical) :
    (s.groupFault i x cause slab addr).Canonical := by
  grind [State.groupFault, State.modTile_canonical, State.setSaved_canonical, State.arrFault_canonical]

theorem State.groupStep_canonical (s : State) (i : Nat) (x : ArrCmd) (hs : s.Canonical) : (s.groupStep i x).Canonical := by
  grind [State.groupStep, State.modTile_canonical, State.setHead_canonical, State.consumes_canonical, State.groupFault_canonical]

theorem State.rowStep_canonical (s : State) (i : Nat) (x : ArrCmd) (hs : s.Canonical) : (s.rowStep i x).Canonical := by
  grind [State.rowStep, State.posts_canonical, State.modTile_canonical, State.setHead_canonical, State.consumes_canonical]

theorem State.arrStep_canonical (s : State) (i : Nat) (hs : s.Canonical) : SomeCanonical (s.arrStep i) := by
  grind [State.arrStep, State.tryBegin_canonical, State.groupStep_canonical, State.rowStep_canonical, SomeCanonical]

theorem execArrayCommandBegin_canonical (i : Nat) (s : State) (hs : s.Canonical) : NextCanonical (execArrayCommandBegin i s) := by
  grind [execArrayCommandBegin, event_canonical, State.arrStep_canonical, NextCanonical]

theorem execAtBankCommand_canonical (i : Nat) (s : State) (hs : s.Canonical) : NextCanonical (execAtBankCommand i s) := by
  grind [execAtBankCommand, event_canonical, State.modTile_canonical, State.setHead_canonical, NextCanonical, SomeCanonical]

theorem State.raiseFlags_canonical (s : State) (c ctx : Nat) (f : Flags) (hs : s.Canonical) : (s.raiseFlags c ctx f).Canonical := by
  grind [State.raiseFlags, State.modVec_canonical, State.Canonical]

theorem State.endArr_canonical (s : State) (i : Nat) (x : ArrCmd) (r : List ArrCmd) (hs : s.Canonical) : (s.endArr i x r).Canonical := by
  grind [State.endArr, State.modArr_canonical, State.modIm_canonical, State.modTile_canonical, State.setSaved_canonical,
    State.raiseFlags_canonical]

theorem execArrayCommandEnd_canonical (i : Nat) (s : State) (hs : s.Canonical) : NextCanonical (execArrayCommandEnd i s) := by
  grind [execArrayCommandEnd, event_canonical, State.endArr_canonical, NextCanonical, SomeCanonical]

theorem State.replayLog_canonical (s : State) (i : Nat) (hs : s.Canonical) : (s.replayLog i).Canonical := hs

theorem State.replayTile_canonical (s : State) (i n ctx : Nat) (again : Bool) (hs : s.Canonical) : (s.replayTile i n ctx again).Canonical := by
  grind [State.replayTile, State.modStops_canonical, State.setHead_canonical, State.replayFails_canonical, State.replayLog_canonical,
    foldl_canonical]

theorem execArrayReplay_canonical (i n : Nat) (again : Bool) (s : State) (hs : s.Canonical) : NextCanonical (execArrayReplay i n again s) := by
  grind [execArrayReplay, event_canonical, State.replayTile_canonical, NextCanonical, SomeCanonical]

/-! ## Launches -/

theorem State.accept_canonical (s : State) (ctx core : Nat) (entry : Bool) (d : LDesc) (ls : List (Nat × Nat)) (desc tab : List Byte)
    (hs : s.Canonical) : (s.accept ctx core entry d ls desc tab).Canonical := hs

theorem State.launchError_canonical (s : State) (cause pa : Nat) (va : Word) (hs : s.Canonical) : (s.launchError cause pa va).Canonical := by
  grind [State.launchError, State.logError_canonical, State.linkMet_canonical, Act.Canonical]

theorem State.launchGet_canonical (s : State) (va : Word) (n : Nat) (k : List Byte → State → Act) (hs : s.Canonical)
    (hk : ∀ bs t, t.Canonical → (k bs t).Canonical) : (s.launchGet va n k).Canonical := by
  have hread := s.tableRead_canonical va n hs
  unfold State.launchGet
  split
  · next h => rw [h] at hread; exact hread
  · exact memTrap_canonical ..
  · next h => rw [h] at hread; exact State.launchError_canonical _ _ _ _ hread
  · next h => rw [h] at hread; exact hk _ _ hread

theorem State.launchWait_canonical (s : State) (desc tab : List Byte) (hs : s.Canonical) : (s.launchWait desc tab).Canonical := hs

theorem actLaunch_canonical (f : MgtF) (s : State) (hs : s.Canonical) : (actLaunch f s).Canonical := by
  unfold actLaunch
  dsimp only
  split
  · exact memTrap_canonical ..
  · split
    · exact hs
    · refine Act.pinned_canonical _ _ _ (s.launchGet_canonical _ _ _ hs (fun desc t ht => ?_))
      split
      · exact t.launchWait_canonical _ _ ht
      · refine t.launchGet_canonical _ _ _ ht (fun h u hu => ?_)
        split
        · exact u.launchWait_canonical _ _ hu
        · exact u.launchGet_canonical _ _ _ hu (fun es v hv => v.launchWait_canonical _ _ hv)

theorem execLaunchAcceptance_canonical (c : Nat) (s : State) (hs : s.Canonical) : NextCanonical (execLaunchAcceptance c s) := by
  grind [execLaunchAcceptance, State.modMs_canonical, State.takeTrap_canonical, coreEvent_canonical, State.release_canonical,
    State.issueHeld_canonical, State.accept_canonical, SomeCanonical]

theorem execLaunchComplete_canonical (id : Nat) (s : State) (hs : s.Canonical) : NextCanonical (execLaunchComplete id s) := by
  grind [execLaunchComplete, State.send_canonical, event_canonical, State.signalSem_canonical, State.Canonical, SomeCanonical]

theorem execLaunchTriggerRelease_canonical (id : Nat) (s : State) (hs : s.Canonical) : NextCanonical (execLaunchTriggerRelease id s) := by
  grind [execLaunchTriggerRelease, State.send_canonical, event_canonical, State.signalSem_canonical, State.Canonical, SomeCanonical]

/-! ## Traps, removals and scans -/

theorem State.stopCore_canonical (s : State) (c x : Nat) (fault : Bool) (hs : s.Canonical) : (s.stopCore c x fault).Canonical := by
  grind [State.stopCore, State.setCore_canonical, State.postRecord_canonical, foldl_canonical]

theorem execTrapStop_canonical (c : Nat) (s : State) (hs : s.Canonical) : NextCanonical (execTrapStop c s) := by
  grind [execTrapStop, coreEvent_canonical, State.stopCore_canonical, SomeCanonical]

theorem State.sendRecord_canonical (s : State) (d : Nat) (r : TrapRec) (hs : s.Canonical) : (s.sendRecord d r).1.Canonical := by
  grind [State.sendRecord, State.modIm_canonical, State.Canonical]

theorem execTrapRecordEnqueue_canonical (d : Nat) (s : State) (hs : s.Canonical) : NextCanonical (execTrapRecordEnqueue d s) := by
  grind [execTrapRecordEnqueue, State.modDie_canonical, event_canonical, State.sendRecord_canonical, NextCanonical, SomeCanonical]

theorem execTrapQueueTake_canonical (d : Nat) (s : State) (hs : s.Canonical) : NextCanonical (execTrapQueueTake d s) := by
  grind [execTrapQueueTake, State.modDie_canonical, event_canonical, NextCanonical, SomeCanonical]

theorem execResume_canonical (ctx c : Nat) (s : State) (hs : s.Canonical) : NextCanonical (execResume ctx c s) := by
  grind [execResume, State.modWalk_canonical, coreEvent_canonical, SomeCanonical]

theorem execD2dUncorrectableError_canonical (c : Nat) (s : State) (hs : s.Canonical) : NextCanonical (execD2dUncorrectableError c s) := by
  grind [execD2dUncorrectableError, coreEvent_canonical, State.modAcc_canonical, State.Canonical, SomeCanonical]

theorem State.overrun_canonical (s : State) (c cause : Nat) (hs : s.Canonical) : (s.overrun c cause).Canonical := by
  grind [State.overrun, State.modIm_canonical, State.modStops_canonical, State.endCounted_canonical]

theorem execOverrunUntimed_canonical (c : Nat) (s : State) (hs : s.Canonical) : NextCanonical (execOverrunUntimed c s) := by
  grind [execOverrunUntimed, coreEvent_canonical, State.overrun_canonical, SomeCanonical]

theorem execOverrunTimed_canonical (c : Nat) (s : State) (hs : s.Canonical) : NextCanonical (execOverrunTimed c s) := by
  grind [execOverrunTimed, coreEvent_canonical, State.overrun_canonical, SomeCanonical]

theorem State.unitNext_canonical (s : State) (c : Nat) (g : Seg) (hs : s.Canonical) : (s.unitNext c g).Canonical := by
  grind [State.unitNext, State.releaseNext_canonical, State.modUnit_canonical]

theorem State.endSegment_canonical (s : State) (c : Nat) (g : Seg) (hs : s.Canonical) : (s.endSegment c g).Canonical := by
  grind [State.endSegment, State.modCore_canonical, State.modArr_canonical, State.unitNext_canonical]

theorem execSegmentEnd_canonical (c : Nat) (s : State) (hs : s.Canonical) : NextCanonical (execSegmentEnd c s) := by
  grind [execSegmentEnd, State.raisePending_canonical, coreEvent_canonical, State.withCur_canonical, State.endSegment_canonical,
    SomeCanonical]

theorem State.detachAll_canonical (s : State) (ctx : Nat) (hs : s.Canonical) : (s.detachAll ctx).Canonical := hs

theorem State.setQueueState_canonical (s : State) (q v : Nat) (hs : s.Canonical) : (s.setQueueState q v).Canonical := by
  grind [State.setQueueState, State.homeWrite_canonical]

theorem State.startRemoval_canonical (s : State) (ctx : Nat) (r : Removal) (hs : s.Canonical) : (s.startRemoval ctx r).Canonical := by
  grind [State.startRemoval, State.modArr_canonical, State.detachAll_canonical, State.setQueueState_canonical, foldl_canonical,
    State.Canonical]

theorem execContextRemoval_canonical (ctx : Nat) (s : State) (hs : s.Canonical) : NextCanonical (execContextRemoval ctx s) := by
  grind [execContextRemoval, event_canonical, State.manage_canonical, State.startRemoval_canonical, SomeCanonical]

theorem State.lastRecord_canonical (s : State) (ctx : Nat) (r : Removal) (hs : s.Canonical) : (s.lastRecord ctx r).Canonical := hs

theorem State.clearImages_canonical (s : State) (ctx : Nat) (hs : s.Canonical) : (s.clearImages ctx).Canonical := by
  grind [State.clearImages, State.homeWrite_canonical, foldl_canonical]

theorem State.clearContext_canonical (s : State) (ctx : Nat) (r : Removal) (hs : s.Canonical) : (s.clearContext ctx r).Canonical := by
  grind [State.clearContext, State.modDie_canonical, State.lastRecord_canonical, State.clearImages_canonical, foldl_canonical,
    State.Canonical]

theorem State.giveUp_canonical (s : State) (p : Frame → Bool) (hs : s.Canonical) : (s.giveUp p).Canonical := by
  grind [State.giveUp, State.homeWrite_canonical, foldl_canonical, State.Canonical]

theorem State.dropEmissions_canonical (s : State) (ctx : Nat) (hs : s.Canonical) : (s.dropEmissions ctx).Canonical := hs

theorem State.closeStep_canonical (s : State) (ctx : Nat) (r : Removal) (hs : s.Canonical) : (s.closeStep ctx r).Canonical := by
  grind [State.closeStep, State.promote_canonical, State.invalidate_canonical, State.clearContext_canonical, State.giveUp_canonical,
    State.dropEmissions_canonical, foldl_canonical, State.Canonical]

theorem execRemovalStep_canonical (ctx : Nat) (s : State) (hs : s.Canonical) : NextCanonical (execRemovalStep ctx s) := by
  grind [execRemovalStep, event_canonical, State.closeStep_canonical, State.Canonical, SomeCanonical]

theorem State.resetArray_canonical (s : State) (i ctx : Nat) (hs : s.Canonical) : (s.resetArray i ctx).Canonical := by
  grind [State.resetArray, State.modArr_canonical, State.modTile_canonical, State.replayTile_canonical, foldl_canonical]

theorem State.resetUnit_canonical (s : State) (ctx : Nat) (h : Holder) (hs : s.Canonical) : (s.resetUnit ctx h).Canonical := by
  cases h with
  | arr i => exact s.resetArray_canonical i ctx hs
  | engine code die unit => exact foldl_canonical (fun s p hs => s.forget_canonical _ hs) _ hs
  | seqs c => exact hs
  | plane c => exact hs
  | renew c => exact hs
  | chan c k => exact hs
  | fills d => exact hs
  | walkers d => exact hs

theorem execRemovalBoundExpire_canonical (ctx : Nat) (s : State) (hs : s.Canonical) : NextCanonical (execRemovalBoundExpire ctx s) := by
  grind [execRemovalBoundExpire, event_canonical, State.resetUnit_canonical, State.Canonical, SomeCanonical]

theorem State.scanPass_canonical (s : State) (unit : Nat) (hs : s.Canonical) : (s.scanPass unit).Canonical := hs

theorem State.scanFail_canonical (s : State) (unit : Nat) (hs : s.Canonical) : (s.scanFail unit).Canonical := by
  grind [State.scanFail, State.notice_canonical, State.setPending_canonical, State.postRecord_canonical, foldl_canonical, State.Canonical]

theorem execRotationScanSlot_canonical (unit : Nat) (pass : Bool) (s : State) (hs : s.Canonical) :
    NextCanonical (execRotationScanSlot unit pass s) := by
  grind [execRotationScanSlot, event_canonical, State.scanPass_canonical, State.scanFail_canonical, NextCanonical, SomeCanonical]

theorem execUnitReturnToService_canonical (unit : Nat) (s : State) (hs : s.Canonical) : NextCanonical (execUnitReturnToService unit s) := by
  grind [execUnitReturnToService, event_canonical, State.Canonical, NextCanonical, SomeCanonical]

end Sys2Proof.Machine
end


-- ==== Sys2Proof/Proofs/CanonicalTimetable.lean ====
section
/-! PROOFS. The timetable, the management core and the platform keep memory canonical. -/
namespace Sys2Proof.Machine

/-! ## The timetable and management -/

theorem State.modLease_canonical (s : State) (d i : Nat) (f : RowLease → RowLease) (hs : s.Canonical) : (s.modLease d i f).Canonical := hs

theorem State.setStop_canonical (s : State) (ctx c : Nat) (hs : s.Canonical) : (s.setStop ctx c).Canonical := by
  grind [State.setStop, State.homeWrite_canonical]

theorem State.dispatchRead_canonical (s : State) (c ctx : Nat) (va : Word) (n : Nat) (hs : s.Canonical) :
    (s.dispatchRead c ctx va n).Canonical := by
  grind [State.dispatchRead, State.takeParts_canonical, EngR.Canonical]

theorem State.readSegment_canonical (s : State) (c ctx : Nat) (hdr : Word) (hs : s.Canonical) : (s.readSegment c ctx hdr).Canonical := by
  refine EngR.andThen_canonical (s.dispatchRead_canonical c ctx hdr 32 hs) (fun hb t ht => ?_)
  dsimp only
  split
  · exact ht
  · refine EngR.andThen_canonical ?_ (fun ib u hu => EngR.andThen_canonical ?_ (fun pb v hv => ?_))
    · split
      · exact ht
      · exact t.dispatchRead_canonical c ctx _ 16 ht
    · split
      · exact hu
      · exact u.dispatchRead_canonical c ctx _ 16 hu
    · split
      · exact hv
      · split
        · exact hv
        · refine EngR.andThen_canonical (v.dispatchRead_canonical c ctx _ _ hv) (fun ab w hw => ?_)
          split
          · exact hw
          · refine EngR.andThen_canonical (w.dispatchRead_canonical c ctx _ _ hw) (fun tb x hx => ?_)
            exact EngR.andThen_canonical (x.dispatchRead_canonical c ctx _ _ hx) (fun _ _ hy => hy)

theorem State.report_canonical (s : State) (c ctx cause : Nat) (status : Half) (addr seg : Word) (hs : s.Canonical) :
    (s.report c ctx cause status addr seg).Canonical := hs

theorem State.begin_canonical (s : State) (c : Nat) (hs : s.Canonical) : (s.begin c).Canonical := by
  grind [State.begin, State.modWalk_canonical, State.acquire_canonical]

theorem State.goOn_canonical (s : State) (c : Nat) (again : Bool) (hs : s.Canonical) : (s.goOn c again).Canonical := by
  grind [State.goOn, State.modWalk_canonical, State.begin_canonical]

theorem State.askLease_canonical (s : State) (c : Nat) (again : Bool) (hs : s.Canonical) : (s.askLease c again).Canonical := hs

theorem State.startUnit_canonical (s : State) (c : Nat) (l : Launch) (u : Nat) (ld : Loaded) (hs : s.Canonical) :
    (s.startUnit c l u ld).Canonical := by
  grind [State.startUnit, State.modCore_canonical, State.modUnit_canonical, State.goOn_canonical, State.askLease_canonical, State.Canonical]

theorem State.startAgain_canonical (s : State) (c : Nat) (g : Seg) (hs : s.Canonical) : (s.startAgain c g).Canonical := by
  grind [State.startAgain, State.goOn_canonical, State.askLease_canonical]

theorem State.stopAll_canonical (s : State) (ctx : Nat) (hs : s.Canonical) : (s.stopAll ctx).Canonical := by
  grind [State.stopAll, State.setStop_canonical, foldl_canonical]

theorem State.readEntry_canonical (s : State) (c ctx : Nat) (p : Word) (hs : s.Canonical) : (s.readEntry c ctx p).Canonical := by
  unfold State.readEntry
  split
  · exact hs
  · refine EngR.andThen_canonical (s.dispatchRead_canonical c ctx p 32 hs) (fun desc t ht => ?_)
    split
    · exact ht
    · refine EngR.andThen_canonical (t.dispatchRead_canonical c ctx _ 8 ht) (fun h u hu => ?_)
      split
      · exact hu
      · exact EngR.andThen_canonical (u.dispatchRead_canonical c ctx _ _ hu) (fun _ _ hv => hv)

theorem State.entryLaunch_canonical (s : State) (c ctx : Nat) (hs : s.Canonical) : SomeCanonical (s.entryLaunch c ctx) := by
  grind [State.entryLaunch, State.forget_canonical, State.accept_canonical, State.report_canonical, State.stopAll_canonical,
    State.readEntry_canonical, State.Canonical, EngR.Canonical, SomeCanonical]

theorem State.leaveRow_canonical (s : State) (c : Nat) (hs : s.Canonical) : (s.leaveRow c).Canonical := by
  grind [State.leaveRow, State.modWalk_canonical]

theorem State.markBusy_canonical (s : State) (c i : Nat) (hs : s.Canonical) : (s.markBusy c i).Canonical := hs

theorem State.enterRow_canonical (s : State) (c i : Nat) (hs : s.Canonical) : (s.enterRow c i).Canonical := by
  grind [State.enterRow, State.modWalk_canonical, State.leaveRow_canonical, State.markBusy_canonical]

theorem State.advance_canonical (s : State) (c : Nat) (hs : s.Canonical) : (s.advance c).Canonical := by
  grind [State.advance, State.modWalk_canonical, State.leaveRow_canonical, State.enterRow_canonical]

theorem State.undispatchable_canonical (s : State) (c ctx cause n : Nat) (addr hdr : Word) (hs : s.Canonical) :
    (s.undispatchable c ctx cause n addr hdr).Canonical := by
  grind [State.undispatchable, State.forget_canonical, State.setStop_canonical, State.report_canonical]

theorem State.dispatchNext_canonical (s : State) (c : Nat) (n : NextSeg) (cost : Nat) (hs : s.Canonical) : SomeCanonical
    (s.dispatchNext c n cost) := by
  cases n with
  | entry => exact s.entryLaunch_canonical c _ hs
  | again g => exact State.startAgain_canonical _ c g (s.modWalk_canonical c _ hs)
  | unit l u =>
    have hseg := s.readSegment_canonical c (s.core c).ctx (l.header u) hs
    grind [State.dispatchNext, SomeCanonical, EngR.Canonical, State.undispatchable_canonical, State.forget_canonical, State.modWalk_canonical,
      State.startUnit_canonical]

theorem State.dispatchStep_canonical (s : State) (c : Nat) (hs : s.Canonical) : SomeCanonical (s.dispatchStep c) := by
  grind [State.dispatchStep, State.setStop_canonical, State.advance_canonical, State.dispatchNext_canonical, SomeCanonical]

theorem execDispatch_canonical (c : Nat) (s : State) (hs : s.Canonical) : NextCanonical (execDispatch c s) := by
  grind [execDispatch, coreEvent_canonical, State.dispatchStep_canonical]

theorem State.nextTransfer_canonical (s : State) (c : Nat) (hs : s.Canonical) : SomeCanonical (s.nextTransfer c) := by
  unfold State.nextTransfer
  dsimp only
  split
  · exact s.saveTile_canonical _ _ hs
  · exact SomeCanonical.map (fun n => s.restoreTile_canonical _ _ n hs) _

theorem execDispatchLeaseGrant_canonical (c : Nat) (s : State) (hs : s.Canonical) : NextCanonical (execDispatchLeaseGrant c s) := by
  grind [execDispatchLeaseGrant, State.modWalk_canonical, coreEvent_canonical, State.goOn_canonical, State.nextTransfer_canonical,
    SomeCanonical]

theorem State.writeImage_canonical (s : State) (c ctx : Nat) (im : Image) (hs : s.Canonical) : (s.writeImage c ctx im).Canonical := by
  grind [State.writeImage, State.homeWrite_canonical, State.Canonical]

theorem State.captureQueues_canonical (s : State) (ctx : Nat) (hs : s.Canonical) : (s.captureQueues ctx).Canonical := by
  grind [State.captureQueues, State.setQent_canonical, foldl_canonical]

theorem State.switchOut_canonical (s : State) (c : Nat) (hs : s.Canonical) : (s.switchOut c).Canonical := by
  grind [State.switchOut, State.modCore_canonical, State.modArr_canonical, State.release_canonical, State.writeImage_canonical,
    State.captureQueues_canonical]

theorem State.switchIn_canonical (s : State) (c ctx : Nat) (hs : s.Canonical) : (s.switchIn c ctx).Canonical := by
  grind [State.switchIn, State.modCore_canonical, State.modArr_canonical, State.acquire_canonical, State.setFront_canonical,
    State.setQent_canonical, foldl_canonical, State.Canonical]

theorem State.enterCore_canonical (s : State) (c ctx : Nat) (hs : s.Canonical) : (s.enterCore c ctx).Canonical := by
  grind [State.enterCore, State.modWalk_canonical, State.setStop_canonical, State.report_canonical, State.switchIn_canonical]

theorem execSwitch_canonical (c : Nat) (s : State) (hs : s.Canonical) : NextCanonical (execSwitch c s) := by
  grind [execSwitch, State.modWalk_canonical, coreEvent_canonical, State.switchOut_canonical, State.enterCore_canonical, SomeCanonical]

theorem execGangEntry_canonical (d i : Nat) (s : State) (hs : s.Canonical) : NextCanonical (execGangEntry d i s) := by
  grind [execGangEntry, State.modWalk_canonical, event_canonical, State.goOn_canonical, State.markBusy_canonical, foldl_canonical,
    NextCanonical, SomeCanonical]

theorem execSemaphoreImageRelease_canonical (ctx c k : Nat) (s : State) (hs : s.Canonical) :
    NextCanonical (execSemaphoreImageRelease ctx c k s) := by
  grind [execSemaphoreImageRelease, State.modIm_canonical, coreEvent_canonical, imageSemUpdate_canonical, State.Canonical, SomeCanonical]

theorem State.clearBusy_canonical (s : State) (c : Nat) (hs : s.Canonical) : (s.clearBusy c).Canonical := by
  grind [State.clearBusy, State.modWalk_canonical, State.modLease_canonical, foldl_canonical]

theorem State.setRow_canonical (s : State) (d i : Nat) (r : BitVec 256) (hs : s.Canonical) : (s.setRow d i r).Canonical := by
  grind [State.setRow, State.modDie_canonical, State.Canonical]

theorem State.setPendingRow_canonical (s : State) (d i : Nat) (r : BitVec 256) (hs : s.Canonical) : (s.setPendingRow d i r).Canonical := hs

theorem execRowLoad_canonical (d i : Nat) (s : State) (hs : s.Canonical) : NextCanonical (execRowLoad d i s) := by
  grind [execRowLoad, event_canonical, State.modLease_canonical, State.clearBusy_canonical, State.setRow_canonical, foldl_canonical,
    NextCanonical, SomeCanonical]

theorem State.setTtctl_canonical (s : State) (d : Nat) (v : Word) (hs : s.Canonical) : SomeCanonical (s.setTtctl d v) := by
  grind [State.setTtctl, State.modDie_canonical, SomeCanonical]

theorem execTtctlWrite_canonical (d : Nat) (v : Word) (s : State) (hs : s.Canonical) : NextCanonical (execTtctlWrite d v s) := by
  grind [execTtctlWrite, event_canonical, State.manage_canonical, State.setTtctl_canonical, NextCanonical]

theorem execBindRecordWrite_canonical (d i : Nat) (p : Bool) (r : BitVec 256) (s : State) (hs : s.Canonical) :
    NextCanonical (execBindRecordWrite d i p r s) := by
  grind [execBindRecordWrite, State.setRow_canonical, State.setPendingRow_canonical, NextCanonical]

theorem execLeaseTableWrite_canonical (d i : Nat) (v : Word) (s : State) (hs : s.Canonical) : NextCanonical (execLeaseTableWrite d i v s) := by
  grind [execLeaseTableWrite, State.modLease_canonical, NextCanonical]

theorem State.slabcmd_canonical (s : State) (d op : Nat) (v : Word) (f : List Nat → Nat → Nat → State → State × Nat × Option Bool) (hs : s.Canonical)
    (hf : ∀ ks c ctx, (f ks c ctx s).1.Canonical) : SomeCanonical (s.slabcmd d op v f) := by
  unfold State.slabcmd
  split
  · trivial
  · split
    · exact hs
    · exact State.modDie_canonical _ d _ (hf _ _ _)

theorem State.slabRenew_canonical (s : State) (d : Nat) (v : Word) (hs : s.Canonical) : SomeCanonical (s.slabRenew d v) :=
  s.slabcmd_canonical d 1 v _ hs (fun _ _ _ => hs)

theorem State.slabFree_canonical (s : State) (d : Nat) (v : Word) (hs : s.Canonical) : SomeCanonical (s.slabFree d v) :=
  s.slabcmd_canonical d 2 v _ hs (fun _ _ _ => hs)

theorem State.slabClaim_canonical (s : State) (d : Nat) (v : Word) (hs : s.Canonical) : SomeCanonical (s.slabClaim d v) := by
  refine s.slabcmd_canonical d 3 v _ hs (fun ks c ctx => ?_)
  dsimp only
  split <;> exact hs

theorem execSlabcmdRenew_canonical (d : Nat) (v : Word) (s : State) (hs : s.Canonical) : NextCanonical (execSlabcmdRenew d v s) := by
  grind [execSlabcmdRenew, event_canonical, State.manage_canonical, State.slabRenew_canonical, NextCanonical]

theorem execSlabcmdFree_canonical (d : Nat) (v : Word) (s : State) (hs : s.Canonical) : NextCanonical (execSlabcmdFree d v s) := by
  grind [execSlabcmdFree, event_canonical, State.manage_canonical, State.slabFree_canonical, NextCanonical]

theorem execSlabcmdClaim_canonical (d : Nat) (v : Word) (s : State) (hs : s.Canonical) : NextCanonical (execSlabcmdClaim d v s) := by
  grind [execSlabcmdClaim, event_canonical, State.manage_canonical, State.slabClaim_canonical, NextCanonical]

theorem State.slabsRenewed_canonical (s : State) (d : Nat) (hs : s.Canonical) : (s.slabsRenewed d).Canonical := by
  grind [State.slabsRenewed, State.modDie_canonical, State.post_canonical, foldl_canonical]

theorem State.tlbcmdDo_canonical (s : State) (d op : Nat) (v : Word) (va : Option Word) (hs : s.Canonical) :
    SomeCanonical (s.tlbcmdDo d op v va) := by
  grind [State.tlbcmdDo, State.modDie_canonical, State.later_canonical, State.invalidate_canonical, SomeCanonical]

theorem execTlbcmdPage_canonical (d : Nat) (v : Word) (s : State) (hs : s.Canonical) : NextCanonical (execTlbcmdPage d v s) := by
  grind [execTlbcmdPage, event_canonical, State.manage_canonical, State.tlbcmdDo_canonical, NextCanonical]

theorem execTlbcmdContext_canonical (d : Nat) (v : Word) (s : State) (hs : s.Canonical) : NextCanonical (execTlbcmdContext d v s) := by
  grind [execTlbcmdContext, event_canonical, State.manage_canonical, State.tlbcmdDo_canonical, NextCanonical]

theorem State.blockWrite_canonical (s : State) (d : Nat) (b : BlockWord) (v : Word) (hs : s.Canonical) : (s.blockWrite d b v).Canonical := by
  cases b with
  | row i w => exact s.setRow_canonical d i _ hs
  | pending i w => exact s.setPendingRow_canonical d i _ hs
  | ttctl => exact (s.setTtctl_canonical d v hs).getD hs
  | slabcmd =>
    refine SomeCanonical.getD ?_ hs
    split
    · exact s.slabRenew_canonical d v hs
    · split
      · exact s.slabFree_canonical d v hs
      · split
        · exact s.slabClaim_canonical d v hs
        · exact s.slabcmd_canonical d 0 v _ hs (fun _ _ _ => hs)
  | tlbcmd =>
    have hone := (s.tlbcmdDo_canonical d 1 v (some (tlbcmdVa v)) hs).getD hs
    have htwo := (s.tlbcmdDo_canonical d 2 v none hs).getD hs
    grind [State.blockWrite, State.modDie_canonical]
  | lease i w => grind [State.blockWrite, State.modLease_canonical]
  | queue i w => grind [State.blockWrite, State.attach_canonical, State.setQent_canonical, State.tailWrite_canonical]

theorem State.spaceRefuse_canonical (s : State) (pa : Nat) (hs : s.Canonical) : (s.spaceRefuse pa).Canonical := hs

theorem State.spaceWrite_canonical (s : State) (pa width : Nat) (v : Word) (hs : s.Canonical) : (s.spaceWrite pa width v).Canonical := by
  grind [State.spaceWrite, State.blockWrite_canonical, State.spaceRefuse_canonical]

theorem State.spaceRead_canonical (s : State) (pa width : Nat) (hs : s.Canonical) : (s.spaceRead pa width).Canonical := by
  grind [State.spaceRead, State.send_canonical, State.spaceRefuse_canonical]

theorem State.writeRegister_canonical (s : State) (unit num : Nat) (v : Word) (hs : s.Canonical) : SomeCanonical (s.writeRegister unit num v) := by
  grind [State.writeRegister, State.modCore_canonical, State.modDie_canonical, State.setQent_canonical, State.giveUp_canonical,
    State.spaceWrite_canonical, State.Canonical, SomeCanonical]

theorem execRegisterWrite_canonical (unit num : Nat) (v : Word) (s : State) (hs : s.Canonical) :
    NextCanonical (execRegisterWrite unit num v s) := by
  grind [execRegisterWrite, event_canonical, State.manage_canonical, State.writeRegister_canonical]

end Sys2Proof.Machine
end


-- ==== Sys2Proof/Proofs/CanonicalDomain.lean ====
section
/-! PROOFS. The domain and the exchange engine keep memory canonical. -/
namespace Sys2Proof.Machine

/-! ## The domain -/

theorem State.setPeer_canonical (s : State) (m : Nat) (p : DPeer) (hs : s.Canonical) : (s.setPeer m p).Canonical := hs

theorem State.respond_canonical (s : State) (h : BitVec 384) (op cause : Nat) (val : Word) (rid : Nat) (data : List Byte) (hs : s.Canonical) :
    (s.respond h op cause val rid data).Canonical := hs

theorem State.errorRequest_canonical (s : State) (h : BitVec 384) (cause : Nat) (hs : s.Canonical) : (s.errorRequest h cause).Canonical := hs

theorem State.refuseRequest_canonical (s : State) (h : BitVec 384) (hs : s.Canonical) : (s.refuseRequest h).Canonical := hs

theorem State.serveRead_canonical (s : State) (h : BitVec 384) (hs : s.Canonical) : (s.serveRead h).Canonical := by
  grind [State.serveRead, State.respond_canonical, State.errorRequest_canonical, State.refuseRequest_canonical]

theorem State.serveAtomic_canonical (s : State) (h : BitVec 384) (hs : s.Canonical) : (s.serveAtomic h).Canonical := by
  grind [State.serveAtomic, State.homeWrite_canonical, State.setPeer_canonical, State.respond_canonical, State.errorRequest_canonical,
    State.refuseRequest_canonical]

theorem State.serve_canonical (s : State) (h : BitVec 384) (data : List Byte) (hs : s.Canonical) : (s.serve h data).Canonical := by
  grind [State.serve, State.homeWrite_canonical, State.setPeer_canonical, State.respond_canonical, State.refuseRequest_canonical,
    State.serveRead_canonical, State.serveAtomic_canonical]

theorem State.drainPeer_canonical (s : State) (m n : Nat) (hs : s.Canonical) : (s.drainPeer m n).Canonical := by
  induction n generalizing s with
  | zero => exact hs
  | succ n ih =>
    rw [State.drainPeer]
    split
    · exact ih _ (s.setPeer_canonical m _ hs)
    · split
      · split
        · exact hs
        · exact ih _ (State.serve_canonical _ _ _ (s.setPeer_canonical m _ hs))
      · exact hs

theorem State.logMalformed_canonical (s : State) (hs : s.Canonical) : s.logMalformed.Canonical := hs

theorem State.arrive_canonical (s : State) (h : BitVec 384) (data : List Byte) (op : Nat) (hs : s.Canonical) : (s.arrive h data op).Canonical := by
  grind [State.arrive, State.setPeer_canonical, State.respond_canonical, State.serve_canonical, State.drainPeer_canonical,
    State.logMalformed_canonical]

theorem State.drainHeld_canonical (s : State) (hs : s.Canonical) : s.drainHeld.Canonical := by
  grind [State.drainHeld, State.drainPeer_canonical, foldl_canonical]

theorem execDomainReadRequest_canonical (h : BitVec 384) (s : State) (hs : s.Canonical) : NextCanonical (execDomainReadRequest h s) := by
  grind [execDomainReadRequest, State.arrive_canonical, NextCanonical]

theorem execDomainWriteRequest_canonical (h : BitVec 384) (bs : List Byte) (s : State) (hs : s.Canonical) :
    NextCanonical (execDomainWriteRequest h bs s) := by
  grind [execDomainWriteRequest, State.arrive_canonical, NextCanonical]

theorem execDomainAtomicRequest_canonical (h : BitVec 384) (s : State) (hs : s.Canonical) : NextCanonical (execDomainAtomicRequest h s) := by
  grind [execDomainAtomicRequest, State.arrive_canonical, NextCanonical]

theorem execDomainSkip_canonical (h : BitVec 384) (s : State) (hs : s.Canonical) : NextCanonical (execDomainSkip h s) := by
  grind [execDomainSkip, State.setPeer_canonical, State.respond_canonical, State.drainPeer_canonical, State.logMalformed_canonical,
    NextCanonical]

theorem State.dropReq_canonical (s : State) (r : DReq) (hs : s.Canonical) : (s.dropReq r).Canonical := hs

theorem State.answered_canonical (s : State) (r : DReq) (bs : List Byte) (cause : Nat) (hs : s.Canonical) : (s.answered r bs cause).Canonical := hs

theorem State.readData_canonical (s : State) (r : DReq) (bs : List Byte) (cause : Nat) (hs : s.Canonical) : (s.readData r bs cause).Canonical := by
  grind [State.readData, State.modMs_canonical, State.l2Bar_canonical, State.l2Fill_canonical, State.answered_canonical]

theorem execDomainReadResponse_canonical (h : BitVec 384) (bs : List Byte) (s : State) (hs : s.Canonical) :
    NextCanonical (execDomainReadResponse h bs s) := by
  grind [execDomainReadResponse, State.logMalformed_canonical, State.dropReq_canonical, State.readData_canonical, NextCanonical]

theorem State.writeDone_canonical (s : State) (r : DReq) (cause : Nat) (hs : s.Canonical) : (s.writeDone r cause).Canonical := by
  grind [State.writeDone, State.setPending_canonical, State.accessError_canonical, State.answered_canonical]

theorem execDomainWriteAck_canonical (h : BitVec 384) (s : State) (hs : s.Canonical) : NextCanonical (execDomainWriteAck h s) := by
  grind [execDomainWriteAck, State.logMalformed_canonical, State.dropReq_canonical, State.writeDone_canonical, NextCanonical]

theorem State.holdPost_canonical (s : State) (r : DReq) (v : Nat) (hs : s.Canonical) : (s.holdPost r v).Canonical := hs

theorem State.atomicData_canonical (s : State) (r : DReq) (v : Word) (cause : Nat) (hs : s.Canonical) : (s.atomicData r v cause).Canonical := by
  grind [State.atomicData, State.modAcc_canonical, State.drainAtomics_canonical, State.answered_canonical, State.holdPost_canonical]

theorem execDomainAtomicResponse_canonical (h : BitVec 384) (s : State) (hs : s.Canonical) : NextCanonical (execDomainAtomicResponse h s) := by
  grind [execDomainAtomicResponse, State.logMalformed_canonical, State.dropReq_canonical, State.atomicData_canonical, NextCanonical]

theorem State.resend_canonical (s : State) (r : DReq) (hs : s.Canonical) : (s.resend r).Canonical := by
  grind [State.resend, State.send_canonical, State.readData_canonical, State.writeDone_canonical, State.atomicData_canonical,
    State.Canonical]

theorem execDomainResendTimeout_canonical (m n : Nat) (s : State) (hs : s.Canonical) : NextCanonical (execDomainResendTimeout m n s) :=
  event_canonical _ _ (SomeCanonical.map (fun r => s.resend_canonical r hs) _)

theorem execDomainMembershipChange_canonical (m : Nat) (ms : List Nat) (s : State) (hs : s.Canonical) :
    NextCanonical (execDomainMembershipChange m ms s) := by
  grind [execDomainMembershipChange, event_canonical, State.manage_canonical, State.Canonical, SomeCanonical]

theorem State.jump_canonical (s : State) (cyc : Nat) (dom : Domain) (hs : s.Canonical) : (s.jump cyc dom).Canonical := hs

theorem execGroupFormation_canonical (g : Word) (largest : Nat) (s : State) (hs : s.Canonical) :
    NextCanonical (execGroupFormation g largest s) := by
  grind [execGroupFormation, event_canonical, State.jump_canonical, SomeCanonical]

theorem State.groupError_canonical (s : State) (cause : Nat) (hs : s.Canonical) : (s.groupError cause).Canonical := by
  grind [State.groupError, State.raiseError_canonical, foldl_canonical]

theorem State.collectiveLeave_canonical (s : State) (left : Nat) (hs : s.Canonical) : (s.collectiveLeave left).Canonical := hs

theorem State.leaveGroup_canonical (s : State) (rank lead : Nat) (hs : s.Canonical) : (s.leaveGroup rank lead).Canonical := by
  grind [State.leaveGroup, State.groupError_canonical, State.collectiveLeave_canonical, State.Canonical]

theorem execLinkRetrain_canonical (phase : Nat) (s : State) (hs : s.Canonical) : NextCanonical (execLinkRetrain phase s) := by
  grind [execLinkRetrain, State.leaveGroup_canonical, NextCanonical]

theorem execGroupLeave_canonical (rank lead : Nat) (s : State) (hs : s.Canonical) : NextCanonical (execGroupLeave rank lead s) := by
  grind [execGroupLeave, event_canonical, State.leaveGroup_canonical, SomeCanonical]

theorem State.refuseLaunch_canonical (s : State) (l : Launch) (hs : s.Canonical) : (s.refuseLaunch l).Canonical := by
  grind [State.refuseLaunch, State.send_canonical, State.raiseError_canonical, foldl_canonical, State.Canonical]

theorem State.takeLaunch_canonical (s : State) (from_ n ctx ts : Nat) (grp : Word) (desc tab : List Byte) (hs : s.Canonical) :
    (s.takeLaunch from_ n ctx ts grp desc tab).Canonical := by
  grind [State.takeLaunch, State.send_canonical, State.Canonical]

theorem State.peerMsg_canonical (s : State) (m : PeerMsg) (hs : s.Canonical) : (s.peerMsg m).Canonical := by
  cases m with
  | launchM => exact s.takeLaunch_canonical _ _ _ _ _ _ _ hs
  | launchRefused src n =>
    rw [State.peerMsg]
    split
    · exact s.refuseLaunch_canonical _ hs
    · exact hs
  | _ => exact hs

theorem State.pollPeers_canonical (s : State) (hs : s.Canonical) : s.pollPeers.Canonical := by
  grind [State.pollPeers, State.peerMsg_canonical, foldl_canonical, State.Canonical]

theorem execMLevelStart_canonical (id : Nat) (s : State) (hs : s.Canonical) : NextCanonical (execMLevelStart id s) := by
  grind [execMLevelStart, State.send_canonical, event_canonical, State.refuseLaunch_canonical, State.Canonical, SomeCanonical]

theorem execWholeMemoryCheckpoint_canonical (s : State) (hs : s.Canonical) : NextCanonical (execWholeMemoryCheckpoint s) := by
  grind [execWholeMemoryCheckpoint, State.send_canonical, event_canonical, State.manage_canonical, SomeCanonical]

theorem execWholeMemoryRestore_canonical (cells : List (Nat × Byte)) (s : State) (hs : s.Canonical) :
    NextCanonical (execWholeMemoryRestore cells s) := by
  refine event_canonical _ _ (s.manage_canonical _ hs ?_)
  split
  · exact foldl_mput_wf _ _ _ _ (filter_wf _ s.mem hs)
  · trivial

/-! ## The exchange engine -/

theorem execXchRed_canonical (f : EngF) (s : State) (hs : s.Canonical) : NextCanonical (execXchRed f s) := by
  grind [execXchRed, State.opTrap_canonical, issue_canonical, actEng_canonical]

theorem State.shardBytes_canonical (s : State) (x : Work) (hs : s.Canonical) : (s.shardBytes x).Canonical := by
  grind [State.shardBytes, EngR.andThen_canonical, State.gread_canonical, EngR.Canonical]

theorem State.listBytes_canonical (s : State) (x : Work) (hs : s.Canonical) : (s.listBytes x).Canonical := by
  grind [State.listBytes, EngR.andThen_canonical, State.pread_canonical, State.eList_canonical, EngR.Canonical]

theorem State.forgetExchange_canonical (s : State) (x : Work) (hs : s.Canonical) : (s.forgetExchange x).Canonical := hs

theorem State.shardParts_canonical (s : State) (g : Agent) (va : Word) (e : Int) (wt : Bool) (per bags : Nat) (ents : List (Nat × Nat × Nat))
    (hs : s.Canonical) : (s.shardParts g va e wt per bags ents).Canonical := by
  refine EngR.andThen_canonical (s.eTableAt_canonical g va hs) (fun t u hu => ?_)
  refine EngR.andThen_canonical (engMap_canonical (fun _ p v hv => ?_) 0 ents u hu) (fun _ _ hw => hw)
  split
  · exact hv
  · exact v.rowPlaceFor_canonical g t [0] false _ _ hv

theorem State.exchangeOpen_lands (s : State) (w : Nat) (x : Work) (hs : s.Canonical) : (s.exchangeOpen w x).Lands := by
  refine EngR.andThen_lands (s.shardBytes_canonical x hs) (fun mb t ht => EngR.andThen_lands (t.listBytes_canonical x ht) (fun lb u hu => ?_))
  refine foldl_canonical (fun v h hv => ?_) _ (State.setWork_canonical _ w _ (u.forget_canonical _ hu))
  split
  · exact hv
  · exact v.send_canonical _ hv

theorem State.ownTables_canonical (s : State) (x : Work) (hs : s.Canonical) : (s.ownTables x).Canonical := by
  grind [State.ownTables, EngR.andThen_canonical, engMap_canonical, State.eTableAt_canonical, EngR.Canonical]

theorem State.exchangeAsk_lands (s : State) (w : Nat) (x : Work) (hs : s.Canonical) : (s.exchangeAsk w x).Lands := by
  refine EngR.andThen_lands (s.ownTables_canonical x hs) (fun own t ht => ?_)
  dsimp only
  split
  · exact ht
  · split
    · exact ht
    · split
      · exact ht
      · refine foldl_canonical (fun v h hv => ?_) _ (State.setWork_canonical _ w _ (t.forget_canonical _ ht))
        split
        · exact hv
        · exact v.send_canonical _ hv

theorem State.ownParts_canonical (s : State) (x : Work) (hs : s.Canonical) : (s.ownParts x).Canonical := by
  grind [State.ownParts, engMap_canonical, State.shardParts_canonical]

theorem exchangeWork_canonical (x : Work) (s : State) (hs : s.Canonical) : (exchangeWork x s).Canonical := by
  grind [exchangeWork, EngR.andThen_canonical, State.pput_canonical, State.ownParts_canonical, EngR.Canonical]

theorem State.stageOf_canonical (s : State) (w : Nat) (x : Work) (r : EngR State) (hs : s.Canonical) (hr : r.Lands) : SomeCanonical
    (s.stageOf w x r) := by
  have hresume := x.wait.resume_lands s r hs hr
  grind [State.stageOf, SomeCanonical, SomeLands, EngR.Lands, State.setWork_canonical, State.forget_canonical]

theorem State.exchangeStep_canonical (s : State) (w : Nat) (hs : s.Canonical) : SomeCanonical (s.exchangeStep w) := by
  unfold State.exchangeStep
  split
  · trivial
  · next x hx =>
    have hopen := s.stageOf_canonical w x _ hs (s.exchangeOpen_lands w x hs)
    have hask := s.stageOf_canonical w x _ hs (s.exchangeAsk_lands w x hs)
    have hdo := s.doEmbed_canonical w (fun _ => true) exchangeWork (fun _ s => s) hs (fun x => exchangeWork_canonical x s hs) (fun _ _ ht => ht)
    split
    · trivial
    · split
      · exact hopen
      · split
        · exact hask
        · trivial
      · split
        · cases h : s.doEmbed w (fun _ => true) exchangeWork (fun _ s => s) with
          | none => trivial
          | some t =>
            rw [h] at hdo
            grind [SomeCanonical, State.forgetExchange_canonical]
        · trivial

theorem execExchangePool_canonical (w : Nat) (s : State) (hs : s.Canonical) : NextCanonical (execExchangePool w s) := by
  grind [execExchangePool, event_canonical, State.exchangeStep_canonical]

theorem State.servePeer_canonical (s : State) (m : Nat × PeerMsg) (hs : s.Canonical) : (s.servePeer m).Canonical := by
  grind [State.servePeer, State.send_canonical, State.forget_canonical, FWait.resume_canonical, State.eTableAt_canonical,
    State.shardParts_canonical, State.Canonical, EngR.Canonical, SomeCanonicalR]

theorem State.servePeers_canonical (s : State) (hs : s.Canonical) : s.servePeers.Canonical := by
  grind [State.servePeers, State.servePeer_canonical, foldl_canonical, State.Canonical]

theorem State.collectiveOver_canonical (s0 : State) (ctx : Nat) (ranks : List Nat) (hs0 : s0.Canonical) :
    (s0.collectiveOver ctx ranks).Canonical := by
  grind [State.collectiveOver, foldl_canonical, State.Canonical]

theorem State.redSource_canonical (s : State) (x : Work) (hs : s.Canonical) : (s.redSource x).Canonical := by
  grind [State.redSource, EngR.andThen_canonical, State.pread_canonical, EngR.Canonical]

theorem State.redOpen_lands (s : State) (w : Nat) (x : Work) (hs : s.Canonical) : (s.redOpen w x).Lands := by
  unfold State.redOpen
  split
  · exact hs
  · refine EngR.andThen_lands (s.redSource_canonical x hs) (fun c t ht => ?_)
    exact foldl_canonical (fun v r hv => v.send_canonical _ hv) _ (State.setWork_canonical _ w _ (t.forget_canonical _ ht))

theorem redWork_canonical (x : Work) (s : State) (hs : s.Canonical) : (redWork x s).Canonical := by
  grind [redWork, EngR.andThen_canonical, State.pput_canonical, State.Canonical, EngR.Canonical]

theorem State.redStep_canonical (s : State) (w : Nat) (hs : s.Canonical) : SomeCanonical (s.redStep w) := by
  unfold State.redStep
  split
  · trivial
  · next x hx =>
    have hopen := s.stageOf_canonical w x _ hs (s.redOpen_lands w x hs)
    have hdo := s.doEmbed_canonical w (fun _ => true) redWork (fun _ s => s) hs (fun x => redWork_canonical x s hs) (fun _ _ ht => ht)
    split
    · trivial
    · split
      · exact hopen
      · dsimp only
        split
        · cases h : s.doEmbed w (fun _ => true) redWork (fun _ s => s) with
          | none => trivial
          | some t =>
            rw [h] at hdo
            grind [SomeCanonical, State.collectiveOver_canonical]
        · trivial

theorem execExchangeReduce_canonical (w : Nat) (s : State) (hs : s.Canonical) : NextCanonical (execExchangeReduce w s) := by
  grind [execExchangeReduce, event_canonical, State.redStep_canonical]

theorem execCollectiveTimeout_canonical (w : Nat) (s : State) (hs : s.Canonical) : NextCanonical (execCollectiveTimeout w s) := by
  grind [execCollectiveTimeout, event_canonical, State.setWork_canonical, SomeCanonical]

end Sys2Proof.Machine
end


-- ==== Sys2Proof/Proofs/CanonicalHosts.lean ====
section
/-! PROOFS. The journal, the hosts, the end of a cycle and the instructions of fixed latency keep memory canonical. -/
namespace Sys2Proof.Machine

/-! ## The journal -/

theorem State.modJ_canonical (s : State) (f : Journal → Journal) (hs : s.Canonical) : (s.modJ f).Canonical := hs

theorem State.append_canonical (s : State) (core ctx v : Nat) (hs : s.Canonical) : (s.append core ctx v).2.Canonical := by
  unfold State.append
  exact State.modJ_canonical _ _ (s.later_canonical 0 hs)

theorem State.takeRecord_canonical (s : State) (hs : s.Canonical) : SomeCanonical (s.takeRecord) := by
  grind [State.takeRecord, State.send_canonical, State.homeWrite_canonical, State.modJ_canonical, SomeCanonical]

theorem State.takeRecords_canonical (n : Nat) (s : State) (hs : s.Canonical) : (State.takeRecords n s).Canonical := by
  induction n generalizing s with
  | zero => exact hs
  | succ n ih =>
    have hrec := s.takeRecord_canonical hs
    rw [State.takeRecords]
    split
    · next h => rw [h] at hrec; exact ih _ hrec
    · exact hs

theorem State.drawn_canonical (s : State) (f : MgtF) (z ctr : Word) (hs : s.Canonical) : (s.drawn f z ctr).Canonical := by
  grind [State.drawn, State.wr_canonical]

theorem State.modStg_canonical (s : State) (f : Staging → Staging) (hs : s.Canonical) : (s.modStg f).Canonical := hs

theorem actGdraw_canonical (f : MgtF) (s : State) (hs : s.Canonical) : (actGdraw f s).Canonical := by
  grind [actGdraw, State.drawn_canonical, State.modStg_canonical, Act.Canonical]

theorem actJrnlSeq_canonical (f : MgtF) (s : State) (hs : s.Canonical) : (actJrnlSeq f s).Canonical := by
  grind [actJrnlSeq, State.later_canonical, State.opTrap_canonical, State.modStg_canonical, Act.Canonical]

theorem State.inStep_canonical (s : State) (k : Staging → Act) (hs : s.Canonical) (hk : ∀ g, (k g).Canonical) : (s.inStep k).Canonical := by
  unfold State.inStep
  dsimp only
  split
  · exact s.opTrap_canonical _
  · split
    · exact hs
    · exact hk _

theorem execJrnlGen_canonical (f : MgtF) (s : State) (hs : s.Canonical) : NextCanonical (execJrnlGen f s) := by
  grind [execJrnlGen, issue_canonical, State.modStg_canonical, State.inStep_canonical, Act.Canonical]

theorem execJrnlTok_canonical (f : MgtF) (s : State) (hs : s.Canonical) : NextCanonical (execJrnlTok f s) := by
  grind [execJrnlTok, State.wr_canonical, issue_canonical, State.modStg_canonical, State.inStep_canonical, Act.Canonical]

theorem execJrnlRt_canonical (f : MgtF) (s : State) (hs : s.Canonical) : NextCanonical (execJrnlRt f s) := by
  grind [execJrnlRt, State.opTrap_canonical, State.wr_canonical, issue_canonical, State.modStg_canonical, State.inStep_canonical,
    Act.Canonical]

theorem actJrnlApp_canonical (f : MgtF) (s : State) (hs : s.Canonical) : (actJrnlApp f s).Canonical := by
  grind [actJrnlApp, State.append_canonical, State.modStg_canonical, State.inStep_canonical, Act.Canonical]

theorem State.unuse_canonical (s : State) (ctx : Nat) (hs : s.Canonical) : (s.unuse ctx).Canonical := hs

theorem actJrnlCkpt_canonical (f : MgtF) (s : State) (hs : s.Canonical) : (actJrnlCkpt f s).Canonical := by
  grind [actJrnlCkpt, State.modMs_canonical, State.later_canonical, State.opTrap_canonical, State.release_canonical,
    State.append_canonical, State.unuse_canonical, Act.Canonical]

theorem actEmit_canonical (f : MgtF) (s : State) (hs : s.Canonical) : (actEmit f s).Canonical := by
  grind [actEmit, State.opTrap_canonical, memTrap_canonical, State.kAccess_canonical, State.modJ_canonical, State.modStg_canonical,
    Act.Canonical]

theorem State.dropEmission_canonical (s : State) (e : Emission) (hs : s.Canonical) : (s.dropEmission e).Canonical := hs

theorem State.refuseEmission_canonical (s : State) (e : Emission) (cause : Nat) (hs : s.Canonical) : (s.refuseEmission e cause).Canonical := by
  grind [State.refuseEmission, State.setPending_canonical, State.dropEmission_canonical]

theorem State.emissionStep_canonical (s : State) (c : Nat) (hs : s.Canonical) : SomeCanonical (s.emissionStep c) := by
  grind [State.emissionStep, State.homeWrite_canonical, State.logError_canonical, State.domainSend_canonical, State.forget_canonical,
    State.signalSem_canonical, State.modJ_canonical, State.dropEmission_canonical, State.refuseEmission_canonical, SomeCanonical]

theorem execEmissionPerform_canonical (c : Nat) (s : State) (hs : s.Canonical) : NextCanonical (execEmissionPerform c s) := by
  grind [execEmissionPerform, coreEvent_canonical, State.emissionStep_canonical]

theorem State.packetAppend_lands (s : State) (w : Nat) (x : Work) (hs : s.Canonical) : (s.packetAppend w x).Lands := by
  refine EngR.andThen_lands (s.pread_canonical x _ 128 hs) (fun bs t ht => ?_)
  exact State.setWork_canonical _ w _ (State.append_canonical _ 128 x.ctx _ (t.forget_canonical _ ht))

theorem execJournalAppendPacket_canonical (w : Nat) (s : State) (hs : s.Canonical) : NextCanonical (execJournalAppendPacket w s) := by
  refine event_canonical _ _ ?_
  split
  · trivial
  · next x hx =>
    have hpacket := x.wait.resume_lands s _ hs (s.packetAppend_lands w x hs)
    grind [SomeCanonical, SomeLands, EngR.Lands, State.setWork_canonical, State.workDone_canonical]

theorem execJournalRecordReceive_canonical (src : Nat) (r : BitVec 1024) (s : State) (hs : s.Canonical) :
    NextCanonical (execJournalRecordReceive src r s) := by
  grind [execJournalRecordReceive, State.send_canonical, State.modJ_canonical, NextCanonical]

theorem execJournalAckReceive_canonical (a : JournalAck) (s : State) (hs : s.Canonical) : NextCanonical (execJournalAckReceive a s) := by
  grind [execJournalAckReceive, State.send_canonical, State.modJ_canonical, NextCanonical]

theorem execPartnerLost_canonical (s : State) (hs : s.Canonical) : NextCanonical (execPartnerLost s) := by
  grind [execPartnerLost, event_canonical, State.logError_canonical, State.modJ_canonical, SomeCanonical]

theorem execPartnerReassign_canonical (m : Nat) (s : State) (hs : s.Canonical) : NextCanonical (execPartnerReassign m s) := by
  grind [execPartnerReassign, State.send_canonical, event_canonical, State.modJ_canonical, foldl_canonical, SomeCanonical]

theorem execJctlWrite_canonical (jctl jring : Word) (s : State) (hs : s.Canonical) : NextCanonical (execJctlWrite jctl jring s) :=
  event_canonical _ _ (SomeCanonical.ite hs (SomeCanonical.ite (s.modJ_canonical _ hs) trivial))

theorem execReplayStoreInstall_canonical (ctx : Nat) (recs : List (BitVec 1024)) (s : State) (hs : s.Canonical) :
    NextCanonical (execReplayStoreInstall ctx recs s) := by
  grind [execReplayStoreInstall, event_canonical, State.manage_canonical, State.modJ_canonical, SomeCanonical]

theorem execScanFailureReplay_canonical (ctx q gen : Nat) (diverge : Option Nat) (s : State) (hs : s.Canonical) :
    NextCanonical (execScanFailureReplay ctx q gen diverge s) := by
  grind [execScanFailureReplay, State.notice_canonical, event_canonical, State.raiseError_canonical, State.modJ_canonical, SomeCanonical]

theorem State.heedNotices_canonical (s : State) (hs : s.Canonical) : s.heedNotices.Canonical := by
  grind [State.heedNotices, State.Canonical]

theorem State.compareDigests_canonical (s : State) (r : RepWait) (digest : Word) (hs : s.Canonical) : (s.compareDigests r digest).Canonical := by
  grind [State.compareDigests, State.raiseError_canonical, State.signalSem_canonical, State.stopAll_canonical, State.modJ_canonical]

theorem actJrnlRep_canonical (f : MgtF) (s : State) (hs : s.Canonical) : (actJrnlRep f s).Canonical := by
  grind [actJrnlRep, State.send_canonical, State.modJ_canonical, State.compareDigests_canonical, Act.Canonical]

theorem execReplicaDigestArrival_canonical (ctx step : Nat) (digest : Word) (s : State) (hs : s.Canonical) :
    NextCanonical (execReplicaDigestArrival ctx step digest s) := by
  grind [execReplicaDigestArrival, State.modJ_canonical, State.compareDigests_canonical, NextCanonical]

theorem State.clearStops_canonical (s : State) (ctx : Nat) (hs : s.Canonical) : (s.clearStops ctx).Canonical := by
  grind [State.clearStops, State.homeWrite_canonical]

theorem State.suspectUnits_canonical (s : State) (ctx : Nat) (hs : s.Canonical) : (s.suspectUnits ctx).2.Canonical := hs

theorem State.scanFailOut_canonical (s : State) (unit : Nat) (hs : s.Canonical) : (s.scanFailOut unit).Canonical := by
  grind [State.scanFailOut, State.scanFail_canonical, State.Canonical]

theorem execReplicaResolution_canonical (ctx : Nat) (failHere failPeer minority tie : Bool) (s : State) (hs : s.Canonical) :
    NextCanonical (execReplicaResolution ctx failHere failPeer minority tie s) := by
  grind [execReplicaResolution, event_canonical, State.logError_canonical, State.stopAll_canonical, State.modJ_canonical,
    State.clearStops_canonical, State.suspectUnits_canonical, State.scanFailOut_canonical, foldl_canonical, State.Canonical, SomeCanonical]

/-! ## Hosts, boot and power -/

theorem State.modPlat_canonical (s : State) (f : Platform → Platform) (hs : s.Canonical) : (s.modPlat f).Canonical := hs

theorem State.hostError_canonical (s : State) (port fn pa : Nat) (va : Word) (ctx cause : Nat) (hs : s.Canonical) :
    (s.hostError port fn pa va ctx cause).Canonical := hs

theorem State.hostAccess_canonical (s : State) (port fn kind : Nat) (addr : Word) (n : Nat) (home : Nat → State)
    (window : Nat → Nat → Nat → Nat → State) (hs : s.Canonical) (hhome : ∀ pa, (home pa).Canonical)
    (hwindow : ∀ m off ctx pa, (window m off ctx pa).Canonical) :
    (s.hostAccess port fn kind addr n home window).Canonical := by
  unfold State.hostAccess
  split
  · exact s.send_canonical _ hs
  · split
    · exact s.send_canonical _ hs
    · exact s.hostError_canonical _ _ _ _ _ _ hs
    · exact hwindow _ _ _ _
    · split
      · exact s.hostError_canonical _ _ _ _ _ _ hs
      · exact hhome _

theorem execHostWrite_canonical (port fn : Nat) (addr : Word) (bs : List Byte) (s : State) (hs : s.Canonical) :
    NextCanonical (execHostWrite port fn addr bs s) := by
  unfold execHostWrite
  split
  · trivial
  · refine event_canonical _ _ ?_
    split
    · exact hs
    · split
      · exact s.hostAccess_canonical port fn 1 addr _ _ _ hs (fun pa => s.homeWrite_canonical pa bs hs)
          (fun _ _ _ _ => s.domainSend_canonical _ _ _ _ _ _ _ _ _ _ _ _ _ _ _ hs)
      · trivial

theorem State.hostAtomic_canonical (s : State) (port fn aop size : Nat) (v cv : Word) (pa : Nat) (hs : s.Canonical) :
    (s.hostAtomic port fn aop size v cv pa).Canonical := by
  grind [State.hostAtomic, State.send_canonical, State.homeWrite_canonical]

theorem execHostAtomicOp_canonical (port fn : Nat) (addr : Word) (aop size : Nat) (v cv : Word) (s : State) (hs : s.Canonical) :
    NextCanonical (execHostAtomicOp port fn addr aop size v cv s) := by
  unfold execHostAtomicOp
  split
  · trivial
  · refine event_canonical _ _ ?_
    split
    · exact hs
    · split
      · exact s.hostAccess_canonical port fn 2 addr _ _ _ hs (fun pa => s.hostAtomic_canonical _ _ _ _ _ _ pa hs)
          (fun _ _ _ _ => s.askAtomic_canonical _ _ _ _ _ _ _ _ _ _ _ hs)
      · trivial

theorem State.hostAnswer_canonical (s : State) (a : Answer) (hs : s.Canonical) : (s.hostAnswer a).Canonical := by
  grind [State.hostAnswer, State.send_canonical, State.hostError_canonical]

theorem State.hostRead_canonical (s : State) (port fn : Nat) (addr : Word) (n : Nat) (hs : s.Canonical) : (s.hostRead port fn addr n).Canonical := by
  unfold State.hostRead
  split
  · exact hs
  · split
    · exact s.send_canonical _ hs
    · refine s.hostAccess_canonical port fn 0 addr n _ _ hs (fun pa => ?_) (fun _ _ _ _ => s.domainSend_canonical _ _ _ _ _ _ _ _ _ _ _ _ _ _ _ hs)
      split
      · exact hs
      · exact s.send_canonical _ hs

theorem State.slotRead_canonical (s : State) (port fn slot : Nat) (hs : s.Canonical) : (s.slotRead port fn slot).Canonical := by
  grind [State.slotRead, State.send_canonical]

theorem State.answerRead_canonical (s : State) (m : Nat × PeerMsg) (hs : s.Canonical) : (s.answerRead m).Canonical := by
  grind [State.answerRead, State.spaceRead_canonical, State.hostRead_canonical, State.slotRead_canonical]

theorem State.serveHosts_canonical (s : State) (hs : s.Canonical) : s.serveHosts.Canonical := by
  grind [State.serveHosts, State.hostAnswer_canonical, State.answerRead_canonical, foldl_canonical, State.Canonical]

theorem execDoorbellWrite_canonical (port fn slot : Nat) (v : Word) (s : State) (hs : s.Canonical) :
    NextCanonical (execDoorbellWrite port fn slot v s) := by
  grind [execDoorbellWrite, State.send_canonical, event_canonical, State.tailWrite_canonical, NextCanonical, SomeCanonical]

theorem State.takeOver_canonical (s : State) (port : Nat) (hs : s.Canonical) : (s.takeOver port).Canonical := s.modPlat_canonical _ hs

theorem execMailboxTakeover_canonical (port : Nat) (consent : Bool) (s : State) (hs : s.Canonical) :
    NextCanonical (execMailboxTakeover port consent s) := by
  grind [execMailboxTakeover, event_canonical, State.modPlat_canonical, State.takeOver_canonical, NextCanonical, SomeCanonical]

theorem execHostLinkDown_canonical (port : Nat) (s : State) (hs : s.Canonical) : NextCanonical (execHostLinkDown port s) := by
  grind [execHostLinkDown, State.modPlat_canonical, State.takeOver_canonical, NextCanonical]

theorem execBootRecordAccept_canonical (kind : Nat) (s : State) (hs : s.Canonical) : NextCanonical (execBootRecordAccept kind s) := by
  grind [execBootRecordAccept, event_canonical, State.modPlat_canonical, SomeCanonical]

theorem execFirmwareTraining_canonical (s : State) (hs : s.Canonical) : NextCanonical (execFirmwareTraining s) := by
  grind [execFirmwareTraining, event_canonical, State.modPlat_canonical, SomeCanonical]

theorem State.loadRecord_canonical (s : State) (kind : Nat) (hs : s.Canonical) : (s.loadRecord kind).Canonical := by
  grind [State.loadRecord, State.loadStore_canonical, State.modPlat_canonical, State.Canonical]

theorem execBootStoreLoad_canonical (s : State) (hs : s.Canonical) : NextCanonical (execBootStoreLoad s) := by
  grind [execBootStoreLoad, event_canonical, State.modPlat_canonical, State.loadRecord_canonical, SomeCanonical]

theorem execBootScan_canonical (s : State) (hs : s.Canonical) : NextCanonical (execBootScan s) := by
  grind [execBootScan, event_canonical, State.modPlat_canonical, State.Canonical, SomeCanonical]

theorem execMailboxRecordWrite_canonical (copyB : Bool) (kind : Nat) (bs : List Byte) (s : State) (hs : s.Canonical) :
    NextCanonical (execMailboxRecordWrite copyB kind bs s) := by
  grind [execMailboxRecordWrite, event_canonical, State.modPlat_canonical, SomeCanonical]

theorem execAttestationQuote_canonical (nonce : BitVec 256) (s : State) (hs : s.Canonical) : NextCanonical (execAttestationQuote nonce s) := by
  grind [execAttestationQuote, State.send_canonical, NextCanonical]

theorem State.resetModule_canonical (s : State) : s.resetModule.Canonical := by
  grind [State.resetModule, State.reset_canonical, State.Canonical]

theorem State.askReset_canonical (s : State) (hs : s.Canonical) : s.askReset.Canonical := by
  grind [State.askReset, State.modPlat_canonical, State.resetModule_canonical]

theorem execModuleReset_canonical (s : State) (hs : s.Canonical) : NextCanonical (execModuleReset s) := by
  grind [execModuleReset, State.askReset_canonical, NextCanonical]

theorem execFunctionLevelReset_canonical (port fn : Nat) (s : State) (hs : s.Canonical) : NextCanonical (execFunctionLevelReset port fn s) := by
  grind [execFunctionLevelReset, State.startRemoval_canonical, State.askReset_canonical, NextCanonical]

theorem State.powerDown_canonical (s : State) : s.powerDown.Canonical := by
  unfold State.powerDown
  rfl

theorem execThermalShutdown_canonical (hot : Bool) (s : State) (hs : s.Canonical) : NextCanonical (execThermalShutdown hot s) := by
  grind [execThermalShutdown, event_canonical, State.modPlat_canonical, State.powerDown_canonical, SomeCanonical]

theorem execThermalShutdownExit_canonical (s : State) (_hs : s.Canonical) : NextCanonical (execThermalShutdownExit s) := by
  grind [execThermalShutdownExit, event_canonical, State.modPlat_canonical, State.resetModule_canonical, SomeCanonical]

/-! ## The end of a cycle -/

theorem State.touches_canonical (s : State) (c : Nat) (hs : s.Canonical) : (s.touches c).Canonical := by
  grind [State.touches, State.modArr_canonical, foldl_canonical]

theorem State.endCycle_canonical (s : State) (hs : s.Canonical) : s.endCycle.Canonical := by
  have hrecords := State.takeRecords_canonical s.jrnl.queue.length _ (s.heedNotices_canonical hs)
  have hserved := State.serveHosts_canonical _ (State.servePeers_canonical _ (State.pollPeers_canonical _ hrecords))
  have hslabs := State.slabsRenewed_canonical _ 1 (State.slabsRenewed_canonical _ 0 (State.drainHeld_canonical _ hserved))
  exact State.tick_canonical _ (foldl_canonical (fun t c ht => State.clearBusy_canonical _ c (t.touches_canonical c ht)) _ hslabs)

/-! ## Control instructions -/

theorem execBr_canonical (f : CtlF) (s : State) (hs : s.Canonical) : NextCanonical (execBr f s) := by
  grind [execBr, issue_canonical, State.checked_canonical, Act.Canonical]

theorem execJmp_canonical (f : CtlF) (s : State) (hs : s.Canonical) : NextCanonical (execJmp f s) := by
  grind [execJmp, issue_canonical, State.checked_canonical, Act.Canonical]

theorem State.doCall_canonical (s : State) (target : Word) (frame sp : Nat) (hs : s.Canonical) : (s.doCall target frame sp).Canonical := by
  grind [State.doCall, State.result_canonical, State.posts_canonical, foldl_canonical, Act.Canonical]

theorem actCall_canonical (target : Word) (s : State) (hs : s.Canonical) : (actCall target s).Canonical := by
  grind [actCall, State.opTrap_canonical, flawTrap_canonical, State.checked_canonical, State.doCall_canonical, Act.Canonical]

theorem execCall_canonical (f : CtlF) (s : State) (hs : s.Canonical) : NextCanonical (execCall f s) := by
  grind [execCall, issue_canonical, actCall_canonical]

theorem actRet_canonical (a : BitVec 5) (s : State) (hs : s.Canonical) : (actRet a s).Canonical := by
  grind [actRet, State.result_canonical, State.opTrap_canonical, memTrap_canonical, State.checked_canonical, foldl_canonical, Act.Canonical]

theorem execEntry_canonical (_f : CtlF) (s : State) (hs : s.Canonical) : NextCanonical (execEntry _f s) := by
  grind [execEntry, issue_canonical, Act.Canonical]

theorem State.stageStart_canonical (s : State) (hs : s.Canonical) : s.stageStart.Canonical := hs

theorem actLoop_canonical (f : CtlF) (s : State) (hs : s.Canonical) : (actLoop f s).Canonical := by
  grind [actLoop, State.result_canonical, State.opTrap_canonical, State.checked_canonical, State.stageStart_canonical, Act.Canonical]

theorem actLbr_canonical (f : CtlF) (s : State) (hs : s.Canonical) : (actLbr f s).Canonical := by
  grind [actLbr, State.result_canonical, State.checked_canonical, Act.Canonical]

theorem execHalt_canonical (_f : MgtF) (s : State) (hs : s.Canonical) : NextCanonical (execHalt _f s) := by
  grind [execHalt, State.modSeq_canonical, State.endCounted_canonical, issue_canonical, Act.Canonical]

theorem execTrap_canonical (f : MgtF) (s : State) (hs : s.Canonical) : NextCanonical (execTrap f s) := by
  grind [execTrap, issue_canonical, Act.Canonical]

theorem execLmix_canonical (f : MgtF) (s : State) (hs : s.Canonical) : NextCanonical (execLmix f s) := by
  grind [execLmix, State.wr_canonical, issue_canonical, Act.Canonical]

theorem execCrc32c_canonical (f : MgtF) (s : State) (hs : s.Canonical) : NextCanonical (execCrc32c f s) := by
  grind [execCrc32c, State.wr_canonical, issue_canonical, Act.Canonical]

theorem execXset_canonical (f : MgtF) (s : State) (hs : s.Canonical) : NextCanonical (execXset f s) := by
  grind [execXset, State.result_canonical, issue_canonical, Act.Canonical]

/-! ## Integer instructions -/

theorem actInt_canonical (k : Snd) (op : Word → Word → Word) (f : RegF) (s : State) (hs : s.Canonical) : (actInt k op f s).Canonical := by
  grind [actInt, State.wr_canonical, Act.Canonical]

theorem actSum_canonical (k : Snd) (op : BitVec 4 → Word → Word → Word × Bool) (f : RegF) (s : State) (hs : s.Canonical) :
    (actSum k op f s).Canonical := by
  grind [actSum, State.wr_canonical, State.wrPred_canonical, Act.Canonical]

theorem actCmp_canonical (k : Snd) (f : RegF) (s : State) (hs : s.Canonical) : (actCmp k f s).Canonical := by
  grind [actCmp, State.wrPred_canonical, Act.Canonical]

theorem execInt_canonical (k : Snd) (op : Word → Word → Word) (f : RegF) (s : State) (hs : s.Canonical) : NextCanonical (execInt k op f s) := by
  grind [execInt, issue_canonical, actInt_canonical]

theorem execLui_canonical (f : RegF) (s : State) (hs : s.Canonical) : NextCanonical (execLui f s) := by
  grind [execLui, State.wr_canonical, issue_canonical, Act.Canonical]

theorem execSel_canonical (f : RegF) (s : State) (hs : s.Canonical) : NextCanonical (execSel f s) := by
  grind [execSel, State.wr_canonical, flawTrap_canonical, issue_canonical, Act.Canonical]

theorem execLi_canonical (f : RegF) (s : State) (hs : s.Canonical) : NextCanonical (execLi f s) := by
  grind [execLi, State.wr_canonical, issue_canonical, Act.Canonical]

theorem execMov_canonical (f : RegF) (s : State) (hs : s.Canonical) : NextCanonical (execMov f s) := by
  grind [execMov, State.wr_canonical, issue_canonical, Act.Canonical]

end Sys2Proof.Machine
end


-- ==== Sys2Proof/Proofs/CanonicalSteps.lean ====
section
/-! PROOFS. Every instruction and every step that the module takes by itself keeps memory canonical, and so does every step. -/
namespace Sys2Proof.Machine

/-! ## Steps that are offered in order -/

/-- A step of the module that keeps memory canonical wherever it takes place. -/
def EvCanonical (e : Ev) : Prop := ∀ s : State, s.Canonical → NextCanonical (e s)

/-- Steps that each keep memory canonical. -/
def EvsCanonical (l : List Ev) : Prop := ∀ e ∈ l, EvCanonical e

theorem EvsCanonical.nil : EvsCanonical [] := by
  intro e he
  cases he

theorem EvsCanonical.cons {e : Ev} {l : List Ev} (he : EvCanonical e) (hl : EvsCanonical l) : EvsCanonical (e :: l) := by
  intro x hx
  rcases List.mem_cons.mp hx with rfl | hx
  · exact he
  · exact hl x hx

theorem evsCanonical_append {a b : List Ev} : EvsCanonical (a ++ b) ↔ EvsCanonical a ∧ EvsCanonical b :=
  List.forall_mem_append

theorem EvsCanonical.append {a b : List Ev} (ha : EvsCanonical a) (hb : EvsCanonical b) : EvsCanonical (a ++ b) :=
  evsCanonical_append.mpr ⟨ha, hb⟩

theorem EvsCanonical.map {α : Type} {f : α → Ev} {l : List α} (hf : ∀ a, EvCanonical (f a)) : EvsCanonical (l.map f) := by
  intro e he
  obtain ⟨a, -, rfl⟩ := List.mem_map.mp he
  exact hf a

theorem EvsCanonical.flatMap {α : Type} {f : α → List Ev} {l : List α} (hf : ∀ a, EvsCanonical (f a)) : EvsCanonical (l.flatMap f) := by
  intro e he
  obtain ⟨a, -, he⟩ := List.mem_flatMap.mp he
  exact hf a e he

theorem EvsCanonical.ite {p : Prop} [Decidable p] {a b : List Ev} (ha : EvsCanonical a) (hb : EvsCanonical b) :
    EvsCanonical (if p then a else b) := by
  split
  · exact ha
  · exact hb

/-- The first step that can take place leaves memory canonical. -/
theorem firstEnabled_canonical {s t : State} (hs : s.Canonical) {l : List Ev} (hl : EvsCanonical l) (h : firstEnabled s l = some t) :
    t.Canonical := by
  induction l with
  | nil => cases h
  | cons e r ih =>
    have hnext := hl e List.mem_cons_self s hs
    rw [firstEnabled] at h
    split at h
    · next u hu =>
      rw [hu] at hnext
      obtain rfl := Option.some.inj h
      exact hnext
    · exact ih (fun x hx => hl x (List.mem_cons_of_mem e hx)) h

/-! ## The steps of the module -/

theorem State.bootEvents_canonical (s : State) : EvsCanonical s.bootEvents :=
  .ite .nil <|
    .cons (execBootRecordAccept_canonical 0) <| .cons (execBootRecordAccept_canonical 1) <| .cons execFirmwareTraining_canonical <|
    .cons execBootStoreLoad_canonical <| .cons execBootScan_canonical <| .nil

theorem Core.dueEvents_canonical (c : Nat) (co : Core) : EvsCanonical (co.dueEvents c) := by
  unfold Core.dueEvents
  refine .append (.append (.append (.append ?_ (.map (fun k => execCopyComplete_canonical c k.1))) ?_)
    (.flatMap fun w => ?_)) ?_
  · exact .cons (execTrapStop_canonical c) <| .cons (execPlaneComplete_canonical c) <| .cons (execRenewUnitComplete_canonical c) <| .nil
  · exact .cons (execStashCloseComplete_canonical c) <| .cons (execGlobalAccessResponse_canonical c) <|
      .cons (execAtomicResponse_canonical c) <| .cons (execErrorResponse_canonical c) <| .cons (execResultDue_canonical c) <|
      .cons (execTldSlotWrite_canonical c) <| .cons (execMdefBodyCheck_canonical c) <| .cons (execLaunchAcceptance_canonical c) <|
      .cons (execBoundaryComplete_canonical c) <| .cons (execTlbinvComplete_canonical c) <| .cons (execPageWalkComplete_canonical c) <|
      .cons (execFaultRefusalRetry_canonical c) <| .cons (execStashMissFill_canonical c) <| .nil
  · exact .map fun e => execStashEntryExpire_canonical c (entryKey w.1 e.1)
  · exact .cons (execGalignRelease_canonical c) <| .cons (execGalignBreak_canonical c) <| .nil

theorem Core.unitEvents_canonical (c : Nat) (co : Core) : EvsCanonical (co.unitEvents c) :=
  .append (.append (.cons (execPlaneCommand_canonical c) <| .cons (execRenewUnitCommand_canonical c) <| .nil)
    (.map (fun k => execCopyCommand_canonical c k.1))) (.cons (execQueuePortWrite_canonical c) .nil)

theorem Core.sweepEvents_canonical (c : Nat) (co : Core) : EvsCanonical (co.sweepEvents c) := by
  refine .append (.flatMap fun b => ?_) (.flatMap fun w => ?_)
  · split
    · exact .cons (execSweepRingRenew_canonical c b.1) .nil
    · exact .cons (execSweepFrozenSlabRenew_canonical c b.1) <| .cons (execSweepMarkLost_canonical c b.1) .nil
    · exact .nil
  · exact .map fun e => execSweepStashWriteback_canonical c (entryKey w.1 e.1)

theorem Core.segEvents_canonical (c : Nat) (co : Core) : EvsCanonical (co.segEvents c) :=
  .cons (execSegmentEnd_canonical c) <| .cons (execOverrunTimed_canonical c) <| .cons (execOverrunUntimed_canonical c) <|
  .cons (execSwitch_canonical c) <| .nil

theorem arrEvents_canonical (i : Nat) (a : ArrSt) : EvsCanonical (arrEvents i a) := by
  have hsaves := EvsCanonical.flatMap (l := a.tiles) fun t => .cons (execTileSave_canonical i t.1) .nil
  have hrestores := EvsCanonical.map (l := upTo 0 16) fun n => execTileRestore_canonical i n
  have hsweeps := EvsCanonical.flatMap (l := a.tiles)
    fun t => .cons (execSweepFrozenTileRenew_canonical i t.1) <| .cons (execSweepTileSave_canonical i t.1) .nil
  refine .append (.append (.append (.append ?_ hsaves) hrestores) ?_) hsweeps
  · exact .cons (execArrayCommandEnd_canonical i) .nil
  · exact .cons (execArrayCommandBegin_canonical i) <| .cons (execAtBankCommand_canonical i) .nil

theorem workEvents_canonical (w : Nat) (x : Work) : EvsCanonical (workEvents w x) := by
  refine .append ?_ (.cons (execJobCardCommit_canonical w) <| .cons (execPacketComplete_canonical w) .nil)
  refine .ite (.cons (execNullPacket_canonical w) <| .nil) ?_
  refine .ite (.cons (execJoinPacket_canonical w) <| .nil) ?_
  refine .ite (.cons (execCopyPacket_canonical w) <| .nil) ?_
  refine .ite (.cons (execSignalPacket_canonical w) <| .nil) ?_
  refine .ite (.cons (execIndexGather_canonical w) <| .nil) ?_
  refine .ite (.cons (execIndexScatter_canonical w) <| .nil) ?_
  refine .ite (.cons (execIndexDedup_canonical w) <| .nil) ?_
  refine .ite (.cons (execIndexBucket_canonical w) <| .nil) ?_
  refine .ite (.cons (execWorklistPush_canonical w) <| .nil) ?_
  refine .ite (.cons (execWorklistPop_canonical w) <| .nil) ?_
  refine .ite (.cons (execWorklistDedupPush_canonical w) <| .nil) ?_
  refine .ite (.cons (execSketchQuery_canonical w) <| .cons (execSketchQueryAdd_canonical w) <| .nil) ?_
  refine .ite (.cons (execHotrowFill_canonical w) <| .cons (execHotrowEvict_canonical w) <| .cons (execHotrowFlush_canonical w) <|
    .cons (execHotrowPin_canonical w) <| .cons (execHotrowUnpin_canonical w) <| .nil) ?_
  refine .ite (.cons (execPoolingRowService_canonical w) <| .cons (execPoolCard_canonical w) <| .nil) ?_
  refine .ite (.cons (execSupdSgd_canonical w) <| .cons (execSupdMomentum_canonical w) <| .cons (execSupdAdagrad_canonical w) <|
    .cons (execSupdAdam_canonical w) <| .cons (execSupdInstalled_canonical w) <| .nil) ?_
  refine .ite (.cons (execNearBankMatvec_canonical w) <| .cons (execNearBankColsum_canonical w) <| .cons (execNearBankFill_canonical w) <|
    .cons (execNearBankStripe_canonical w) <| .cons (execNearBankMicroprogram_canonical w) <| .cons (execNearBankDispatch_canonical w) <|
    .nil) ?_
  refine .ite (.cons (execExchangePool_canonical w) <| .nil) ?_
  refine .ite (.cons (execExchangeReduce_canonical w) <| .cons (execCollectiveTimeout_canonical w) <| .nil) ?_
  exact .cons (execJournalAppendPacket_canonical w) <| .nil

theorem Die.events_canonical (d : Nat) (x : Die) : EvsCanonical (x.events d) :=
  .append (.cons (execTrapRecordEnqueue_canonical d) <| .cons (execSketchDecay_canonical d) <| .cons (execFrameFill_canonical d) <| .nil)
    (.map (fun f => execFrontEndTake_canonical (256 * d + f.1)))

theorem State.walkers_canonical (s : State) (d : Nat) (x : Die) : EvsCanonical (s.walkers d x) :=
  .append (.map (fun r => execGangEntry_canonical d r.1)) (.map execDispatch_canonical)

theorem State.candidates_canonical (s : State) : EvsCanonical s.candidates := by
  have hloads (p : Nat × Die) : EvsCanonical (p.2.leases.map (fun r => execRowLoad p.1 r.1)) := .map fun r => execRowLoad_canonical p.1 r.1
  unfold State.candidates
  simp only [evsCanonical_append, and_assoc]
  exact ⟨s.bootEvents_canonical,
    .flatMap fun p => p.2.events_canonical p.1,
    .flatMap fun i => .cons (execGroupFreeze_canonical i) <| .cons (execGroupThaw_canonical i) .nil,
    .flatMap fun p => p.2.segEvents_canonical p.1,
    .flatMap fun p => p.2.dueEvents_canonical p.1,
    .flatMap fun p => arrEvents_canonical p.1 p.2,
    .flatMap fun p => p.2.unitEvents_canonical p.1,
    .map fun p => execPrefetchWalk_canonical (prefetchName p.1).1 (prefetchName p.1).2,
    .flatMap fun p => workEvents_canonical p.1 p.2,
    .map execEmissionPerform_canonical,
    .cons execPartnerLost_canonical .nil,
    .flatMap fun l => .cons (execMLevelStart_canonical l.id) <| .cons (execLaunchTriggerRelease_canonical l.id) <|
      .cons (execLaunchComplete_canonical l.id) .nil,
    .flatMap fun p => .cons (execContextRemoval_canonical p.1) <| .cons (execRemovalStep_canonical p.1) <|
      .cons (execRemovalBoundExpire_canonical p.1) .nil,
    .flatMap hloads,
    .map fun r => execSemaphoreImageRelease_canonical r.1 r.2.1 r.2.2,
    .flatMap fun p => s.walkers_canonical p.1 p.2,
    .map fun p => execResume_canonical p.2.ctx p.1,
    .map execDomainAtomicRateRelease_canonical,
    .map fun r => execDomainResendTimeout_canonical r.target r.pseq,
    .flatMap fun p => p.2.sweepEvents_canonical p.1⟩

theorem State.scanEvents_canonical (s : State) : EvsCanonical s.scanEvents := by
  refine .ite (fun e he => ?_) .nil
  obtain ⟨u, -, hu⟩ := List.mem_filterMap.mp he
  obtain ⟨-, hu⟩ := Option.ite_none_right_eq_some.mp hu
  obtain rfl := Option.some.inj hu
  exact execRotationScanSlot_canonical u true

theorem State.lateCandidates_canonical (s : State) : EvsCanonical s.lateCandidates :=
  .append (.append s.scanEvents_canonical (.map (fun p => execLeaseGrant_canonical p.1))) (.map (fun p => execDispatchLeaseGrant_canonical p.1))

/-! ## Instructions -/

theorem exec_canonical (i : Instr) : EvCanonical (exec i) := by
  intro s hs
  cases i with
  | and f => exact execInt_canonical .reg (· &&& ·) f s hs
  | andImm f => exact execInt_canonical .imm (· &&& ·) f s hs
  | or f => exact execInt_canonical .reg (· ||| ·) f s hs
  | orImm f => exact execInt_canonical .imm (· ||| ·) f s hs
  | xor f => exact execInt_canonical .reg (· ^^^ ·) f s hs
  | xorImm f => exact execInt_canonical .imm (· ^^^ ·) f s hs
  | shl f => exact execInt_canonical .reg shlWord f s hs
  | shlImm f => exact execInt_canonical .imm shlWord f s hs
  | shr f => exact execInt_canonical .reg shrWord f s hs
  | shrImm f => exact execInt_canonical .imm shrWord f s hs
  | sra f => exact execInt_canonical .reg sraWord f s hs
  | sraImm f => exact execInt_canonical .imm sraWord f s hs
  | mul f => exact execInt_canonical .reg (· * ·) f s hs
  | mulImm f => exact execInt_canonical .imm (· * ·) f s hs
  | mulhs f => exact execInt_canonical .reg mulhsWord f s hs
  | mulhu f => exact execInt_canonical .reg mulhuWord f s hs
  | min f => exact execInt_canonical .reg (minWord f.var) f s hs
  | max f => exact execInt_canonical .reg (maxWord f.var) f s hs
  | lui f => exact execLui_canonical f s hs
  | sel f => exact execSel_canonical f s hs
  | li f => exact execLi_canonical f s hs
  | mov f => exact execMov_canonical f s hs
  | add f => exact issue_canonical s (sndRegs .reg f) (actSum .reg addFlags f) hs (actSum_canonical .reg addFlags f s hs)
  | addImm f => exact issue_canonical s (sndRegs .imm f) (actSum .imm addFlags f) hs (actSum_canonical .imm addFlags f s hs)
  | sub f => exact issue_canonical s (sndRegs .reg f) (actSum .reg subFlags f) hs (actSum_canonical .reg subFlags f s hs)
  | subImm f => exact issue_canonical s (sndRegs .imm f) (actSum .imm subFlags f) hs (actSum_canonical .imm subFlags f s hs)
  | cmp f => exact issue_canonical s (sndRegs .reg f) (actCmp .reg f) hs (actCmp_canonical .reg f s hs)
  | cmpImm f => exact issue_canonical s (sndRegs .imm f) (actCmp .imm f) hs (actCmp_canonical .imm f s hs)
  | br f => exact execBr_canonical f s hs
  | jmp f => exact execJmp_canonical f s hs
  | call f => exact execCall_canonical f s hs
  | ret f => exact issue_canonical s [f.a] (actRet f.a) hs (actRet_canonical f.a s hs)
  | entry f => exact execEntry_canonical f s hs
  | loop f => exact issue_canonical s (if f.var.getLsbD 3 then [f.a] else []) (actLoop f) hs (actLoop_canonical f s hs)
  | lbr f => exact issue_canonical s [] (actLbr f) hs (actLbr_canonical f s hs)
  | tkput f => exact issue_canonical s [] (actTkput f) hs (actTkput_canonical f s hs)
  | tkget f => exact issue_canonical s [] (actTkget f) hs (actTkget_canonical f s hs)
  | tkgetTry f => exact issue_canonical s [] (actTkgetTry f) hs (actTkgetTry_canonical f s hs)
  | halt f => exact execHalt_canonical f s hs
  | macroCall m idle p0 p1 p2 p3 => exact execMacroCall_canonical m idle p0 p1 p2 p3 s hs
  | tset f => exact execTset_canonical f s hs
  | tld f => exact issue_canonical s [f.a] (actTld f) hs (actTld_canonical f s hs)
  | tldSlotWrite core => exact execTldSlotWrite_canonical core s hs
  | mdef f => exact issue_canonical s [f.a] (actMdef f) hs (actMdef_canonical f s hs)
  | mdefBodyCheck core => exact execMdefBodyCheck_canonical core s hs
  | mfs f => exact execMfs_canonical f s hs
  | mts f => exact issue_canonical s [f.a] (actMts f) hs (actMts_canonical f s hs)
  | mtsFclr f => exact issue_canonical s [f.a] (actMts { f with idx := 0x2A }) hs (actMts_canonical { f with idx := 0x2A } s hs)
  | mtsTkmap f => exact issue_canonical s [f.a] (actMts { f with idx := 0x28 }) hs (actMts_canonical { f with idx := 0x28 } s hs)
  | xset f => exact execXset_canonical f s hs
  | align f => exact issue_canonical s [] (actAlign f) hs (actAlign_canonical f s hs)
  | galign f => exact execGalign_canonical f s hs
  | galignRelease core => exact execGalignRelease_canonical core s hs
  | galignBreak member => exact execGalignBreak_canonical member s hs
  | ltrig f => exact issue_canonical s [] actLtrig hs (actLtrig_canonical s hs)
  | launch f => exact issue_canonical s [f.a] (actLaunch f) hs (actLaunch_canonical f s hs)
  | launchAcceptance core => exact execLaunchAcceptance_canonical core s hs
  | launchComplete id => exact execLaunchComplete_canonical id s hs
  | launchTriggerRelease id => exact execLaunchTriggerRelease_canonical id s hs
  | phase f => exact issue_canonical s [] _ hs (actBoundary_canonical _ _ s hs)
  | fenceRel f => exact issue_canonical s [] (actBoundary (some (scopeOf f)) none) hs (actBoundary_canonical (some (scopeOf f)) none s hs)
  | fenceAcq f => exact issue_canonical s [] (actBoundary none (some (scopeOf f))) hs (actBoundary_canonical none (some (scopeOf f)) s hs)
  | boundaryComplete core => exact execBoundaryComplete_canonical core s hs
  | efence f => exact execEfence_canonical f s hs
  | sacq f => exact issue_canonical s [] (actSacq f) hs (actSacq_canonical f s hs)
  | sacqTry f => exact issue_canonical s [] (actSacqTry f) hs (actSacqTry_canonical f s hs)
  | sacqM f => exact issue_canonical s [f.a, f.b] (actSacqM f) hs (actSacqM_canonical f s hs)
  | srel f => exact issue_canonical s [] (actSrel f) hs (actSrel_canonical f s hs)
  | srelM f => exact execSrelM_canonical f s hs
  | trap f => exact execTrap_canonical f s hs
  | gdraw f => exact issue_canonical s ([f.a, f.b] ++ (if f.var.toNat % 4 = 2 then [f.c] else [])) (actGdraw f) hs (actGdraw_canonical f s hs)
  | lmix f => exact execLmix_canonical f s hs
  | crc32c f => exact execCrc32c_canonical f s hs
  | emit f => exact issue_canonical s [f.a] (actEmit f) hs (actEmit_canonical f s hs)
  | jrnlSeq f => exact issue_canonical s [f.a, f.b] (actJrnlSeq f) hs (actJrnlSeq_canonical f s hs)
  | jrnlGen f => exact execJrnlGen_canonical f s hs
  | jrnlTok f => exact execJrnlTok_canonical f s hs
  | jrnlRt f => exact execJrnlRt_canonical f s hs
  | jrnlApp f => exact issue_canonical s [f.a] (actJrnlApp f) hs (actJrnlApp_canonical f s hs)
  | jrnlCkpt f => exact issue_canonical s [f.a, f.b, f.c] (actJrnlCkpt f) hs (actJrnlCkpt_canonical f s hs)
  | jrnlRep f => exact issue_canonical s [f.a, f.b] (actJrnlRep f) hs (actJrnlRep_canonical f s hs)
  | tlbinv f => exact execTlbinv_canonical f s hs
  | tlbinvAll f => exact issue_canonical s [] (actTlbinv none) hs (actTlbinv_canonical none s hs)
  | tlbinvComplete core => exact execTlbinvComplete_canonical core s hs
  | tlbsync f => exact execTlbsync_canonical f s hs
  | qfence f => exact issue_canonical s [f.a] (actQfence false f) hs (actQfence_canonical false f s hs)
  | qfenceW f => exact issue_canonical s [f.a] (actQfence true f) hs (actQfence_canonical true f s hs)
  | ldGlobal f => exact issue_canonical s [f.base] (actLdGlobal f) hs (actLdGlobal_canonical f s hs)
  | ldLocal f => exact issue_canonical s [f.base] (actLdLocal f) hs (actLdLocal_canonical f s hs)
  | stGlobal f => exact issue_canonical s [f.base, f.val] (actStGlobal f) hs (actStGlobal_canonical f s hs)
  | stLocal f => exact issue_canonical s [f.base, f.val] (actStLocal f) hs (actStLocal_canonical f s hs)
  | stLocalS f => exact issue_canonical s [f.base, f.val] (actStLocal f) hs (actStLocal_canonical f s hs)
  | globalAccessResponse core => exact execGlobalAccessResponse_canonical core s hs
  | aadd f => exact issue_canonical s [f.base, f.val] (actAtomic 0x54 f) hs (actAtomic_canonical 0x54 f s hs)
  | amin f => exact issue_canonical s [f.base, f.val] (actAtomic 0x55 f) hs (actAtomic_canonical 0x55 f s hs)
  | amax f => exact issue_canonical s [f.base, f.val] (actAtomic 0x56 f) hs (actAtomic_canonical 0x56 f s hs)
  | aswap f => exact issue_canonical s [f.base, f.val] (actAtomic 0x57 f) hs (actAtomic_canonical 0x57 f s hs)
  | acas f => exact issue_canonical s [f.base, f.val, f.cv] (actAtomic 0x58 f) hs (actAtomic_canonical 0x58 f s hs)
  | aand f => exact issue_canonical s [f.base, f.val] (actAtomic 0x59 f) hs (actAtomic_canonical 0x59 f s hs)
  | aor f => exact issue_canonical s [f.base, f.val] (actAtomic 0x5A f) hs (actAtomic_canonical 0x5A f s hs)
  | ramo f => exact issue_canonical s [f.base] (actAtomic 0x5B f) hs (actAtomic_canonical 0x5B f s hs)
  | atomicResponse core => exact execAtomicResponse_canonical core s hs
  | errorResponse core => exact execErrorResponse_canonical core s hs
  | ixeGather f => exact issue_canonical s (engReads f) (actIxe 0x10 f) hs (actIxe_canonical 0x10 f s hs)
  | ixeScatter f => exact issue_canonical s (engReads f) (actIxe 0x11 f) hs (actIxe_canonical 0x11 f s hs)
  | ixeDedup f => exact execIxeDedup_canonical f s hs
  | ixeBucket f => exact issue_canonical s (engReads f) (actIxe 0x13 f) hs (actIxe_canonical 0x13 f s hs)
  | wlpush f => exact issue_canonical s (engReads f) (actEng 0x14 0 none false f) hs (actEng_canonical 0x14 0 none false f s hs)
  | wlpop f => exact issue_canonical s (engReads f) (actEng 0x15 0 none false f) hs (actEng_canonical 0x15 0 none false f s hs)
  | wldin f => exact issue_canonical s (engReads f) (actEng 0x16 0 none false f) hs (actEng_canonical 0x16 0 none false f s hs)
  | pool f => exact issue_canonical s (engReads f) (actEng 0x20 0 (some 1) true f) hs (actEng_canonical 0x20 0 (some 1) true f s hs)
  | supd f => exact issue_canonical s (engReads f) (actEng 0x30 0 (some 2) true f) hs (actEng_canonical 0x30 0 (some 2) true f s hs)
  | nmc f => exact issue_canonical s (engReads f) (actNmc f) hs (actNmc_canonical f s hs)
  | xchPool f => exact issue_canonical s (engReads f) (actEng 0x50 0 none true f) hs (actEng_canonical 0x50 0 none true f s hs)
  | xchRed f => exact execXchRed_canonical f s hs
  | skq f => exact issue_canonical s (engReads f) (actEng 0x18 0 none false f) hs (actEng_canonical 0x18 0 none false f s hs)
  | skqAdd f => exact issue_canonical s (engReads f) (actEng 0x18 1 none false f) hs (actEng_canonical 0x18 1 none false f s hs)
  | hrchFill f => exact issue_canonical s (engReads f) (actHrch 0 f) hs (actHrch_canonical 0 f s hs)
  | hrchEvict f => exact issue_canonical s (engReads f) (actHrch 1 f) hs (actHrch_canonical 1 f s hs)
  | hrchFlush f => exact issue_canonical s (engReads f) (actHrch 2 f) hs (actHrch_canonical 2 f s hs)
  | hrchPin f => exact issue_canonical s (engReads f) (actHrch 3 f) hs (actHrch_canonical 3 f s hs)
  | hrchUnpin f => exact issue_canonical s (engReads f) (actHrch 4 f) hs (actHrch_canonical 4 f s hs)
  | agset f => exact issue_canonical s [f.cr, f.sr] (actAgset f) hs (actAgset_canonical f s hs)
  | vld f => exact issue_canonical s [] (actVld false f) hs (actVld_canonical false f s hs)
  | vldUb f => exact issue_canonical s [] (actVld true f) hs (actVld_canonical true f s hs)
  | cpyIn f => exact issue_canonical s [f.a, f.b] (actCpy 0 f) hs (actCpy_canonical 0 f s hs)
  | cpyOut f => exact issue_canonical s [f.a, f.b] (actCpy 1 f) hs (actCpy_canonical 1 f s hs)
  | cpyLl f => exact issue_canonical s [f.a, f.b] (actCpy 2 f) hs (actCpy_canonical 2 f s hs)
  | copyCommand core chan => exact execCopyCommand_canonical core chan s hs
  | copyComplete core chan => exact execCopyComplete_canonical core chan s hs
  | plane f => exact issue_canonical s [f.a, f.b] (actPlane f) hs (actPlane_canonical f s hs)
  | planeCommand core => exact execPlaneCommand_canonical core s hs
  | planeComplete core => exact execPlaneComplete_canonical core s hs
  | renew f => exact issue_canonical s (if f.var = 2 then [f.b] else []) (actRenew f) hs (actRenew_canonical f s hs)
  | renewUnitCommand core => exact execRenewUnitCommand_canonical core s hs
  | renewUnitComplete core => exact execRenewUnitComplete_canonical core s hs
  | salloc f => exact issue_canonical s [] (actSalloc false f) hs (actSalloc_canonical false f s hs)
  | sallocZ f => exact issue_canonical s [] (actSalloc true f) hs (actSalloc_canonical true f s hs)
  | sfree f => exact issue_canonical s [] (actSfree f) hs (actSfree_canonical f s hs)
  | sfreeDesc f => exact issue_canonical s [f.b] (actSfree f) hs (actSfree_canonical f s hs)
  | stash f => exact issue_canonical s [] (actStash f) hs (actStash_canonical f s hs)
  | stashClose f => exact issue_canonical s [] (actStashClose f) hs (actStashClose_canonical f s hs)
  | stashCloseComplete core => exact execStashCloseComplete_canonical core s hs
  | stashMissFill core => exact execStashMissFill_canonical core s hs
  | stashEntryExpire core entry => exact execStashEntryExpire_canonical core entry s hs
  | vadd f => exact exec2_canonical f (latFI f 4 1) (typeWidth f.type) (fun a b => vArith .add f a b 0) s hs
  | vsub f => exact exec2_canonical f (latFI f 4 1) (typeWidth f.type) (fun a b => vArith .sub f a b 0) s hs
  | vmul f => exact exec2_canonical f (latFI f 4 1) (typeWidth f.type) (fun a b => vArith .mul f a b 0) s hs
  | vfma f => exact exec3_canonical f (latFI f 4 1) (typeWidth f.type) (vArith .fma f) s hs
  | vfms f => exact exec3_canonical f (latFI f 4 1) (typeWidth f.type) (vArith .fms f) s hs
  | vmin f => exact exec2_canonical f (latFI f 2 1) (typeWidth f.type) (vPick false f) s hs
  | vmax f => exact exec2_canonical f (latFI f 2 1) (typeWidth f.type) (vPick true f) s hs
  | vabs f => exact exec1_canonical f 1 (typeWidth f.type) (vSign false f) s hs
  | vneg f => exact exec1_canonical f 1 (typeWidth f.type) (vSign true f) s hs
  | vcvt f => exact execVcvt_canonical f s hs
  | vexp2 f => exact exec1_canonical f 6 (typeWidth f.type) (vFunc exp2Num f) s hs
  | vlog2 f => exact exec1_canonical f 6 (typeWidth f.type) (vFunc log2Num f) s hs
  | vrcp f => exact exec1_canonical f 6 (typeWidth f.type) (vFunc rcpNum f) s hs
  | vrsqrt f => exact exec1_canonical f 6 (typeWidth f.type) (vFunc rsqrtNum f) s hs
  | vdiv f => exact exec2_canonical f 14 (typeWidth f.type) (vDivide f) s hs
  | vsqrt f => exact exec1_canonical f 14 (typeWidth f.type) (vRoot f) s hs
  | vcmp f => exact execVec_canonical f 2 _ _ _ s hs
  | vsel f => exact exec3_canonical f 1 (typeWidth f.type) (vSelect f) s hs
  | vred f => exact exec1_canonical f 6 (typeWidth f.type) (vReduce f) s hs
  | vtopk f => exact exec1_canonical f 10 32 (vTop f) s hs
  | vbscmp f => exact execVec_canonical f 4 _ _ _ s hs
  | vcrc f => exact exec2_canonical f 4 32 (vCheck f) s hs
  | vmix f => exact exec2_canonical f 6 64 vMixer s hs
  | vmixH f => exact execVec_canonical f 6 [(f.a.toNat, 32), (f.b.toNat, 64)] (fun l => (vMixerHigh (l.getD 0 0) (l.getD 1 0), [])) none s hs
  | vxm f => exact execVxm_canonical f s hs
  | vperm f => exact exec2_canonical f 2 (typeWidth f.type) (vPermute f) s hs
  | vperm2 f => exact exec3_canonical f 2 32 vPermute2 s hs
  | vbcast f => exact exec1_canonical f 1 (typeWidth f.type) (vBroadcast f) s hs
  | vand f => exact exec2_canonical f 1 32 (fun a b => (a &&& b, 0)) s hs
  | vor f => exact exec2_canonical f 1 32 (fun a b => (a ||| b, 0)) s hs
  | vxor f => exact exec2_canonical f 1 32 (fun a b => (a ^^^ b, 0)) s hs
  | vshl f => exact exec2_canonical f 1 (typeWidth f.type) (vShift 0 f) s hs
  | vshr f => exact exec2_canonical f 1 (typeWidth f.type) (vShift 1 f) s hs
  | vsra f => exact exec2_canonical f 1 (typeWidth f.type) (vShift 2 f) s hs
  | vmov f => exact exec1_canonical f 1 32 (fun a => (a, 0)) s hs
  | vst f => exact issue_canonical s [] (actVst f) hs (actVst_canonical f s hs)
  | resultDue core => exact execResultDue_canonical core s hs
  | waitingGroupIssue core sq => exact execWaitingGroupIssue_canonical core sq s hs
  | lease f => exact issue_canonical s [] (actLease f) hs (actLease_canonical f s hs)
  | unlease f => exact execUnlease_canonical f s hs
  | leaseGrant arr => exact execLeaseGrant_canonical arr s hs
  | mma f => exact execMma_canonical f s hs
  | mmaAtBank f => exact execMmaAtBank_canonical f s hs
  | mmac f => exact execMmac_canonical f s hs
  | mmas f => exact execMmas_canonical f s hs
  | amz f => exact issue_canonical s [] _ hs (actCounted_canonical _ _ _ _ _ s hs)
  | ald f => exact issue_canonical s [] _ hs (actCounted_canonical _ _ _ _ _ s hs)
  | aret f => exact issue_canonical s [] _ hs (actCounted_canonical _ _ _ _ _ s hs)
  | aretW f => exact execAretW_canonical f s hs
  | arrayCommandBegin arr => exact execArrayCommandBegin_canonical arr s hs
  | arrayCommandEnd arr => exact execArrayCommandEnd_canonical arr s hs
  | atBankCommand arr => exact execAtBankCommand_canonical arr s hs
  | tileSave arr tile => exact execTileSave_canonical arr tile s hs
  | tileRestore arr tile => exact execTileRestore_canonical arr tile s hs
  | arrayReplay arr tile again => exact execArrayReplay_canonical arr tile again s hs
  | qpush f => exact issue_canonical s [] (actQpush f) hs (actQpush_canonical f s hs)
  | queuePortWrite core => exact execQueuePortWrite_canonical core s hs
  | frontEndTake q => exact execFrontEndTake_canonical q s hs
  | packetComplete w => exact execPacketComplete_canonical w s hs
  | nullPacket w => exact execNullPacket_canonical w s hs
  | signalPacket w => exact execSignalPacket_canonical w s hs
  | joinPacket w => exact execJoinPacket_canonical w s hs
  | copyPacket w => exact execCopyPacket_canonical w s hs
  | jobCardCommit w => exact execJobCardCommit_canonical w s hs
  | indexGather w => exact execIndexGather_canonical w s hs
  | indexScatter w => exact execIndexScatter_canonical w s hs
  | indexDedup w => exact execIndexDedup_canonical w s hs
  | indexBucket w => exact execIndexBucket_canonical w s hs
  | worklistPush w => exact execWorklistPush_canonical w s hs
  | worklistPop w => exact execWorklistPop_canonical w s hs
  | worklistDedupPush w => exact execWorklistDedupPush_canonical w s hs
  | sketchQuery w => exact execSketchQuery_canonical w s hs
  | sketchQueryAdd w => exact execSketchQueryAdd_canonical w s hs
  | sketchDecay die => exact execSketchDecay_canonical die s hs
  | hotrowFill w => exact execHotrowFill_canonical w s hs
  | hotrowEvict w => exact execHotrowEvict_canonical w s hs
  | hotrowFlush w => exact execHotrowFlush_canonical w s hs
  | hotrowPin w => exact execHotrowPin_canonical w s hs
  | hotrowUnpin w => exact execHotrowUnpin_canonical w s hs
  | frameFill die => exact execFrameFill_canonical die s hs
  | frameWriteBack set way => exact execFrameWriteBack_canonical set way s hs
  | poolCard w => exact execPoolCard_canonical w s hs
  | poolingRowService w => exact execPoolingRowService_canonical w s hs
  | supdSgd w => exact execSupdSgd_canonical w s hs
  | supdMomentum w => exact execSupdMomentum_canonical w s hs
  | supdAdagrad w => exact execSupdAdagrad_canonical w s hs
  | supdAdam w => exact execSupdAdam_canonical w s hs
  | supdInstalled w => exact execSupdInstalled_canonical w s hs
  | nearBankMatvec w => exact execNearBankMatvec_canonical w s hs
  | nearBankColsum w => exact execNearBankColsum_canonical w s hs
  | nearBankFill w => exact execNearBankFill_canonical w s hs
  | nearBankStripe w => exact execNearBankStripe_canonical w s hs
  | nearBankMicroprogram w => exact execNearBankMicroprogram_canonical w s hs
  | nearBankDispatch w => exact execNearBankDispatch_canonical w s hs
  | exchangePool w => exact execExchangePool_canonical w s hs
  | exchangeReduce w => exact execExchangeReduce_canonical w s hs
  | collectiveTimeout w => exact execCollectiveTimeout_canonical w s hs
  | journalAppendPacket w => exact execJournalAppendPacket_canonical w s hs
  | journalRecordReceive src rec => exact execJournalRecordReceive_canonical src rec s hs
  | journalAckReceive a => exact execJournalAckReceive_canonical a s hs
  | emissionPerform core => exact execEmissionPerform_canonical core s hs
  | partnerLost => exact execPartnerLost_canonical s hs
  | partnerReassign modid => exact execPartnerReassign_canonical modid s hs
  | replicaDigestArrival ctx step digest => exact execReplicaDigestArrival_canonical ctx step digest s hs
  | replicaResolution ctx failHere failPeer minority tie => exact execReplicaResolution_canonical ctx failHere failPeer minority tie s hs
  | replayStoreInstall ctx recs => exact execReplayStoreInstall_canonical ctx recs s hs
  | scanFailureReplay ctx seq gen diverge => exact execScanFailureReplay_canonical ctx seq gen diverge s hs
  | jctlWrite jctl jring => exact execJctlWrite_canonical jctl jring s hs
  | segmentEnd core => exact execSegmentEnd_canonical core s hs
  | overrunUntimed core => exact execOverrunUntimed_canonical core s hs
  | overrunTimed core => exact execOverrunTimed_canonical core s hs
  | dispatch core => exact execDispatch_canonical core s hs
  | dispatchLeaseGrant core => exact execDispatchLeaseGrant_canonical core s hs
  | gangEntry die row => exact execGangEntry_canonical die row s hs
  | switch core => exact execSwitch_canonical core s hs
  | semaphoreImageRelease ctx core sem => exact execSemaphoreImageRelease_canonical ctx core sem s hs
  | rowLoad die row => exact execRowLoad_canonical die row s hs
  | ttctlWrite die v => exact execTtctlWrite_canonical die v s hs
  | bindRecordWrite die row pending rec => exact execBindRecordWrite_canonical die row pending rec s hs
  | leaseTableWrite die idx v => exact execLeaseTableWrite_canonical die idx v s hs
  | slabcmdRenew die v => exact execSlabcmdRenew_canonical die v s hs
  | slabcmdFree die v => exact execSlabcmdFree_canonical die v s hs
  | slabcmdClaim die v => exact execSlabcmdClaim_canonical die v s hs
  | tlbcmdPage die v => exact execTlbcmdPage_canonical die v s hs
  | tlbcmdContext die v => exact execTlbcmdContext_canonical die v s hs
  | queueTableAttach die idx v => exact execQueueTableAttach_canonical die idx v s hs
  | queueTailWrite die idx v => exact execQueueTailWrite_canonical die idx v s hs
  | queueRestart q => exact execQueueRestart_canonical q s hs
  | registerWrite unit num v => exact execRegisterWrite_canonical unit num v s hs
  | trapStop core => exact execTrapStop_canonical core s hs
  | trapRecordEnqueue die => exact execTrapRecordEnqueue_canonical die s hs
  | resume ctx core => exact execResume_canonical ctx core s hs
  | contextRemoval ctx => exact execContextRemoval_canonical ctx s hs
  | removalStep ctx => exact execRemovalStep_canonical ctx s hs
  | removalBoundExpire ctx => exact execRemovalBoundExpire_canonical ctx s hs
  | pageWalkComplete core => exact execPageWalkComplete_canonical core s hs
  | prefetchWalk core chan => exact execPrefetchWalk_canonical core chan s hs
  | faultRefusalRetry core => exact execFaultRefusalRetry_canonical core s hs
  | groupFreeze wire => exact execGroupFreeze_canonical wire s hs
  | groupThaw wire => exact execGroupThaw_canonical wire s hs
  | faultRetryWrite die idx => exact execFaultRetryWrite_canonical die idx s hs
  | faultDeliverWrite die idx => exact execFaultDeliverWrite_canonical die idx s hs
  | pageMigration ctx va newPa => exact execPageMigration_canonical ctx va newPa s hs
  | sweepRingRenew core slab => exact execSweepRingRenew_canonical core slab s hs
  | sweepStashWriteback core entry => exact execSweepStashWriteback_canonical core entry s hs
  | sweepFrozenSlabRenew core slab => exact execSweepFrozenSlabRenew_canonical core slab s hs
  | sweepFrozenTileRenew arr tile => exact execSweepFrozenTileRenew_canonical arr tile s hs
  | sweepMarkLost core slab => exact execSweepMarkLost_canonical core slab s hs
  | sweepTileSave arr tile => exact execSweepTileSave_canonical arr tile s hs
  | rotationScanSlot unit pass => exact execRotationScanSlot_canonical unit pass s hs
  | unitReturnToService unit => exact execUnitReturnToService_canonical unit s hs
  | controlStoreLoad words entries => exact execControlStoreLoad_canonical words entries s hs
  | domainReadRequest hdr => exact execDomainReadRequest_canonical hdr s hs
  | domainWriteRequest hdr bytes => exact execDomainWriteRequest_canonical hdr bytes s hs
  | domainAtomicRequest hdr => exact execDomainAtomicRequest_canonical hdr s hs
  | domainSkip hdr => exact execDomainSkip_canonical hdr s hs
  | domainReadResponse hdr bytes => exact execDomainReadResponse_canonical hdr bytes s hs
  | domainWriteAck hdr => exact execDomainWriteAck_canonical hdr s hs
  | domainAtomicResponse hdr => exact execDomainAtomicResponse_canonical hdr s hs
  | domainResendTimeout target pseq => exact execDomainResendTimeout_canonical target pseq s hs
  | groupFormation dgrp largest => exact execGroupFormation_canonical dgrp largest s hs
  | linkRetrain phase => exact execLinkRetrain_canonical phase s hs
  | groupLeave member newLead => exact execGroupLeave_canonical member newLead s hs
  | mLevelStart id => exact execMLevelStart_canonical id s hs
  | d2dUncorrectableError core => exact execD2dUncorrectableError_canonical core s hs
  | wholeMemoryCheckpoint => exact execWholeMemoryCheckpoint_canonical s hs
  | wholeMemoryRestore cells => exact execWholeMemoryRestore_canonical cells s hs
  | hostWrite port fn addr bytes => exact execHostWrite_canonical port fn addr bytes s hs
  | hostAtomicOp port fn addr aop size val cv => exact execHostAtomicOp_canonical port fn addr aop size val cv s hs
  | doorbellWrite port fn slot v => exact execDoorbellWrite_canonical port fn slot v s hs
  | mailboxTakeover port consent => exact execMailboxTakeover_canonical port consent s hs
  | mailboxRecordWrite copyB kind bytes => exact execMailboxRecordWrite_canonical copyB kind bytes s hs
  | attestationQuote nonce => exact execAttestationQuote_canonical nonce s hs
  | functionLevelReset port fn => exact execFunctionLevelReset_canonical port fn s hs
  | moduleReset => exact execModuleReset_canonical s hs
  | bootRecordAccept kind => exact execBootRecordAccept_canonical kind s hs
  | firmwareTraining => exact execFirmwareTraining_canonical s hs
  | bootStoreLoad => exact execBootStoreLoad_canonical s hs
  | bootScan => exact execBootScan_canonical s hs
  | thermalShutdown hot => exact execThermalShutdown_canonical hot s hs
  | trapQueueTake die => exact execTrapQueueTake_canonical die s hs
  | domainMembershipChange modid members => exact execDomainMembershipChange_canonical modid members s hs
  | hostLinkDown port => exact execHostLinkDown_canonical port s hs
  | thermalShutdownExit => exact execThermalShutdownExit_canonical s hs
  | domainAtomicRateRelease target => exact execDomainAtomicRateRelease_canonical target s hs

/-! ## One step -/

theorem inputStep_canonical {s t : State} (hs : s.Canonical) (h : inputStep s = some t) : t.Canonical := by
  unfold inputStep at h
  split at h
  · cases h
  · next i r hr =>
    obtain ⟨-, h⟩ := Option.ite_none_right_eq_some.mp h
    exact firstEnabled_canonical (s := { s with inputs := r }) hs (.cons (exec_canonical i) .nil) h

theorem issueGroup_canonical (c : Nat) (sq : Seq) (s : State) (hs : s.Canonical) : NextCanonical (issueGroup s c sq) := by
  have hgroup (u : Cur) : (s.withCur u).Canonical := hs
  unfold issueGroup
  split
  · next u _ => exact finish_canonical _ _ (hgroup u) trivial
  · next u _ => exact finish_canonical _ _ (hgroup u) (hgroup u)
  · next u _ =>
    split
    · exact finish_canonical _ _ (hgroup u) trivial
    · exact State.skipGroup_canonical _ (hgroup u)
  · next i u _ =>
    split
    · exact finish_canonical _ _ (hgroup u) trivial
    · exact exec_canonical i _ (hgroup u)

theorem issueStep_canonical (c : Nat) (sq : Seq) (s : State) (hs : s.Canonical) : NextCanonical (issueStep s c sq) := by
  have harmed := execWaitingGroupIssue_canonical c sq s hs
  have hgroup := issueGroup_canonical c sq s hs
  unfold issueStep
  split
  · split
    · next t h => rwa [h] at harmed
    · exact hgroup
  · exact hgroup

theorem step_canonical (s : State) (hs : s.Canonical) : NextCanonical (step s) := by
  unfold step
  split
  · next t h => exact inputStep_canonical hs h
  · split
    · next t h => exact firstEnabled_canonical hs s.candidates_canonical h
    · split
      · exact issueStep_canonical _ _ s hs
      · split
        · next t h => exact firstEnabled_canonical hs s.lateCandidates_canonical h
        · exact s.endCycle_canonical hs

end Sys2Proof.Machine

namespace Sys2Proof.Proofs
open Sys2Proof.Machine

/-- Settles O29: canonical memory is the invariant `State.Canonical`, which every function of the model that answers a state keeps. The ones
that write memory do so with `Memory.write`, with `moveCells`, or with a checkpoint's memory made canonical, and each of these answers a
canonical memory; all others leave memory as it was. -/
theorem everyStepKeepsMemoryCanonical : Obligations.EveryStepKeepsMemoryCanonical := by
  intro s t hs hstep
  have hnext := step_canonical s hs
  rwa [hstep] at hnext

end Sys2Proof.Proofs
end
